-- ==== Sys2Proof/Word.lean ====
section
/-! DEFINITION. Word types of the N16, the fields of a PFX word, and the address of a peer's request. Memory is little-endian and bits are numbered
from 0 (spec 00 R7). -/

namespace Sys2Proof

/-- One byte of storage. -/
abbrev Byte := BitVec 8
/-- A 32-bit vector register, literal or instruction word (01 R13, 02 R41). -/
abbrev Word := BitVec 32
/-- A 64-bit uniform register or register pair (01 R13, R15). -/
abbrev DWord := BitVec 64
/-- A set of lanes, one bit per lane (01 R17). -/
abbrev Mask := BitVec 64
/-- A 56-bit virtual address (01 R21). -/
abbrev VAddr := BitVec 56

/-- The fields of a PFX word (02 R50). -/
structure Pfx where
  /-- code of a fourth operand -/
  c : BitVec 7
  /-- mask register -/
  k : BitVec 3
  /-- 0 merge, 1 zero -/
  z : Bool
  /-- rounding mode -/
  rm : BitVec 3
  /-- saturate bit -/
  sat : Bool
deriving DecidableEq, Repr

/-- Where a request of another module arrives: a port, and an offset of its HDM range (21 R413, R420). -/
structure PortAddr where
  port : Bool
  off : Nat
deriving DecidableEq, Repr

end Sys2Proof
end

