-- ==== Sys2Proof/Machine/Float.lean ====
section
/-! DEFINITION. Number formats, rounding and the exact arithmetic behind every floating-point result (01 R26 to R36;
04 R102 to R121). A value is exact until `rnd` rounds it once. -/

namespace Sys2Proof.Machine

/-- A format: fraction bits, bias, largest exponent, largest significand at that exponent, whether it has infinities,
its width, and its canonical NaN (01 R27, R30, R35). -/
structure Fmt where
  f : Nat
  bias : Nat
  emax : Int
  mmax : Nat
  inf : Bool
  width : Nat
  nan : Nat
deriving DecidableEq, Repr

/-- IEEE 754 binary32 -/
def f32 : Fmt := ⟨23, 127, 127, 0xFFFFFF, true, 32, 0x7FC00000⟩
/-- IEEE 754 binary16 -/
def f16 : Fmt := ⟨10, 15, 15, 0x7FF, true, 16, 0x7E00⟩
/-- bfloat16 -/
def bf16 : Fmt := ⟨7, 127, 127, 0xFF, true, 16, 0x7FC0⟩
/-- OCP E5M2 -/
def e5m2 : Fmt := ⟨2, 15, 15, 7, true, 8, 0x7E⟩
/-- OCP E4M3 -/
def e4m3 : Fmt := ⟨3, 7, 8, 14, false, 8, 0x7F⟩
/-- MXFP6 in its E2M3 form; it has no NaN -/
def e2m3 : Fmt := ⟨3, 1, 2, 15, false, 6, 0⟩
/-- MXFP4, E2M1; it has no NaN -/
def e2m1 : Fmt := ⟨1, 1, 2, 3, false, 4, 0⟩

/-- An extended real. `fin neg m e sticky` has magnitude m × 2^e, or, when sticky, one strictly between that and
(m + 1) × 2^e. -/
inductive Val where
  | nan
  | inf (neg : Bool)
  | fin (neg : Bool) (m : Nat) (e : Int) (sticky : Bool)
deriving DecidableEq, Repr

/-- How a result is rounded: the mode of R31, the saturate bit, and the .nosat rule of R32. -/
structure Rnd where
  mode : Nat
  sat : Bool
  nosat : Bool
deriving DecidableEq, Repr

/-- Nearest-even, saturate bit clear. -/
def Rnd.ne : Rnd := ⟨0, false, false⟩

/-- Decode a pattern (01 R28). -/
def Val.ofBits (F : Fmt) (b : Nat) : Val :=
  let neg := decide (b / 2 ^ (F.width - 1) % 2 = 1)
  let ex := b / 2 ^ F.f % 2 ^ (F.width - 1 - F.f)
  let fr := b % 2 ^ F.f
  if F.inf && decide (ex + 1 = 2 ^ (F.width - 1 - F.f)) then if fr = 0 then .inf neg else .nan
  else if decide (F.nan = 0x7F) && decide (b % 0x80 = 0x7F) then .nan
  else if ex = 0 then .fin neg fr (1 - F.bias - F.f) false
  else .fin neg (2 ^ F.f + fr) ((ex : Int) - F.bias - F.f) false

/-- A 32-bit pattern as FP32. -/
def Val.ofF32 (w : Word) : Val := .ofBits f32 w.toNat

/-- The sign of a value; a NaN has none. -/
def Val.neg? : Val → Bool
  | .nan => false
  | .inf n => n
  | .fin n _ _ _ => n

/-- An integer as an exact value. -/
def Val.ofInt (i : Int) : Val := .fin (decide (i < 0)) i.natAbs 0 false

/-- The value is NaN. -/
def Val.isNan : Val → Bool
  | .nan => true
  | _ => false

/-- The value with its sign inverted. -/
def Val.negate : Val → Val
  | .nan => .nan
  | .inf n => .inf (!n)
  | .fin n m e s => .fin (!n) m e s

/-- The value times 2^k. -/
def Val.scale (k : Int) : Val → Val
  | .fin n m e s => .fin n m (e + k) s
  | v => v

/-- Round a magnitude to a multiple of 2^q in a mode of R31: the multiple. -/
def roundTo (mode : Nat) (neg : Bool) (m : Nat) (e : Int) (sticky : Bool) (q : Int) : Nat :=
  if q ≤ e then
    m * 2 ^ (e - q).toNat + (if sticky && ((mode = 2 && !neg) || (mode = 3 && neg)) then 1 else 0)
  else
    let sh := (q - e).toNat
    let big := decide (m.log2 + 2 < sh)
    let n := if big then 0 else m / 2 ^ sh
    let r := if big then m else m % 2 ^ sh
    -- the part below 2^q against half of it: 0 exact, 1 below, 2 tie, 3 above
    let c := if r = 0 && !sticky then 0 else if big then 1
      else if r < 2 ^ (sh - 1) then 1 else if r = 2 ^ (sh - 1) && !sticky then 2 else 3
    let up : Bool := match mode with
      | 0 => decide (c = 3) || (decide (c = 2) && decide (n % 2 = 1))
      | 1 => false
      | 2 => decide (c ≠ 0) && !neg
      | 3 => decide (c ≠ 0) && neg
      | _ => decide (2 ≤ c)
    if up then n + 1 else n

/-- The pattern of the sign alone. -/
def signBits (F : Fmt) (neg : Bool) : Nat := if neg then 2 ^ (F.width - 1) else 0

/-- The pattern of ± the significand n (below 2^(f+1)) at quantum exponent q. -/
def packBits (F : Fmt) (neg : Bool) (n : Nat) (q : Int) : Nat :=
  signBits F neg + (if n < 2 ^ F.f then n else (q + F.f + F.bias).toNat * 2 ^ F.f + (n - 2 ^ F.f))

/-- ± the largest finite value. -/
def maxBits (F : Fmt) (neg : Bool) : Nat := packBits F neg F.mmax (F.emax - F.f)

/-- ± infinity, for a format that has it. -/
def infBits (F : Fmt) (neg : Bool) : Nat := signBits F neg + (2 ^ (F.width - 1 - F.f) - 1) * 2 ^ F.f

/-- The result of a rounding overflow (01 R32, step 2 and its table). -/
def overflowBits (F : Fmt) (r : Rnd) (neg : Bool) : Nat :=
  if F.inf then
    if r.sat || decide (r.mode = 1) || (decide (r.mode = 2) && neg) || (decide (r.mode = 3) && !neg) then maxBits F neg
    else infBits F neg
  else if r.nosat then F.nan else maxBits F neg

/-- Round a value to a format (01 R32). A NaN gives the format's canonical NaN, 0 where it has none. -/
def rnd (F : Fmt) (r : Rnd) : Val → Nat
  | .nan => F.nan
  | .inf neg => if F.inf then (if r.sat then maxBits F neg else infBits F neg) else overflowBits F r neg
  | .fin neg m e sticky =>
    if m = 0 && !sticky then signBits F neg
    else
      let emin : Int := 1 - F.bias
      let q0 : Int := max (e + m.log2 - F.f) (emin - F.f)
      let n0 := roundTo r.mode neg m e sticky q0
      let (n, q) : Nat × Int := if n0 = 2 ^ (F.f + 1) then (2 ^ F.f, q0 + 1) else (n0, q0)
      if decide (F.emax - F.f < q) || (decide (q = F.emax - F.f) && decide (F.mmax < n)) then overflowBits F r neg
      else packBits F neg n q

/-- Round to FP32. -/
def rnd32 (r : Rnd) (v : Val) : Word := BitVec.ofNat 32 (rnd f32 r v)

/-- The exact value of a finite value as an integer multiple of 2^e, for e at or below its exponent. -/
def Val.units (e : Int) : Val → Int
  | .fin neg m ex _ => (if neg then -1 else 1) * ((m * 2 ^ (ex - e).toNat : Nat) : Int)
  | _ => 0

/-- The exponent of a finite value. -/
def Val.expo : Val → Int
  | .fin _ _ e _ => e
  | _ => 0

/-- Every term has the sign `n`. -/
def allSign (n : Bool) (l : List Val) : Bool := l.all fun v => v.neg? == n

/-- The exact sum of terms (04 R102, R106; 06 R168): NaN on a NaN term or infinities of both signs; an exact zero has
the terms' common sign, or else is +0, −0 under .rd. -/
def sumVal (mode : Nat) (l : List Val) : Val :=
  let pinf := l.any (· == .inf false)
  let ninf := l.any (· == .inf true)
  if l.any Val.isNan || (pinf && ninf) then .nan
  else if pinf then .inf false
  else if ninf then .inf true
  else
    let e := (l.map Val.expo).foldl min 0
    let s := (l.map (Val.units e)).foldl (· + ·) 0
    if s = 0 then .fin (if allSign true l && !l.isEmpty then true else if allSign false l then false else decide (mode = 3)) 0 0 false
    else .fin (decide (s < 0)) s.natAbs e false

/-- The exact product (04 R102). -/
def mulVal : Val → Val → Val
  | .nan, _ => .nan
  | _, .nan => .nan
  | .inf a, .inf b => .inf (xor a b)
  | .inf a, .fin b m _ _ => if m = 0 then .nan else .inf (xor a b)
  | .fin a m _ _, .inf b => if m = 0 then .nan else .inf (xor a b)
  | .fin a m e _, .fin b n f _ => .fin (xor a b) (m * n) (e + f) false

/-- The quotient (04 R107, R121): a nonzero value over zero is an exact infinity. -/
def divVal : Val → Val → Val
  | .nan, _ => .nan
  | _, .nan => .nan
  | .inf _, .inf _ => .nan
  | .inf a, .fin b _ _ _ => .inf (xor a b)
  | .fin a _ _ _, .inf b => .fin (xor a b) 0 0 false
  | .fin a m e _, .fin b n f _ =>
    if n = 0 then (if m = 0 then .nan else .inf (xor a b))
    else if m = 0 then .fin (xor a b) 0 0 false
    else
      let k := 96 + n.log2
      .fin (xor a b) (m * 2 ^ k / n) (e - f - k) (decide (m * 2 ^ k % n ≠ 0))

/-- Set the bits of a square root from bit `i − 1` down. -/
def isqrtAux (x : Nat) : Nat → Nat → Nat
  | 0, r => r
  | i + 1, r => isqrtAux x i (if (r + 2 ^ i) * (r + 2 ^ i) ≤ x then r + 2 ^ i else r)

/-- The integer square root. -/
def isqrt (x : Nat) : Nat := isqrtAux x (x.log2 / 2 + 1) 0

/-- √a (04 R107, R108). -/
def sqrtVal : Val → Val
  | .nan => .nan
  | .inf neg => if neg then .nan else .inf false
  | .fin neg m e _ =>
    if m = 0 then .fin neg 0 0 false
    else if neg then .nan
    else
      let s : Nat := if e % 2 = 0 then 80 else 81
      let x := m * 2 ^ s
      let r := isqrt x
      .fin false r ((e - s) / 2) (decide (r * r ≠ x))

/-- 1 ÷ √a (04 R107, R108). -/
def rsqVal : Val → Val
  | .nan => .nan
  | .inf neg => if neg then .nan else .fin false 0 0 false
  | .fin neg m e _ =>
    if m = 0 then .inf neg
    else if neg then .nan
    else
      let m2 := if e % 2 = 0 then m else 2 * m
      let e2 := if e % 2 = 0 then e else e - 1
      let r := isqrt (2 ^ 200 / m2)
      .fin false r (-100 - e2 / 2) (decide (r * r * m2 ≠ 2 ^ 200))

/-! ## Transcendental functions

Each is computed in fixed point with 448 fraction bits, to an error far below 2^-380. No value of these functions at an
FP32 argument, other than the exact cases treated first, lies that close to an FP32 value or to the middle of two, so
the rounding of R107 sees the exact value (DEDUCED, log 10). -/

/-- Fraction bits of the fixed-point work. -/
def fx : Nat := 448
/-- ln 2 × 2^448, rounded down -/
def ln2Fx : Nat := 0xb17217f7d1cf79abc9e3b39803f2f6af40f343267298b62d8a0d175b8baafa2be7b876206debac98559552fb4afa1b10ed2eae35c1382144
/-- π × 2^448, rounded down -/
def piFx : Nat := 0x3243f6a8885a308d313198a2e03707344a4093822299f31d0082efa98ec4e6c89452821e638d01377be5466cf34e90c6cc0ac29b7c97c50dd

/-- Sum of x^k ÷ k! from term `k` on, `t` being the term before; `n` bounds the terms. -/
def expSeries (x : Nat) : Nat → Nat → Nat → Nat
  | 0, _, _ => 0
  | n + 1, k, t => let t' := t * x / (2 ^ fx * k); t' + expSeries x n (k + 1) t'

/-- e^x for 0 ≤ x < 1. -/
def expFx (x : Nat) : Nat := 2 ^ fx + expSeries x 120 1 (2 ^ fx)

/-- Alternating series in x², from the term `t` whose index is `k`: t − t x² ÷ ((k+1)(k+2)) + … -/
def altSeries (x2 : Nat) : Nat → Nat → Int → Int
  | 0, _, _ => 0
  | n + 1, k, t => t + altSeries x2 n (k + 2) (-(t * x2 / ((2 ^ fx * ((k + 1) * (k + 2)) : Nat) : Int)))

/-- sin x for 0 ≤ x < 2. -/
def sinFx (x : Nat) : Nat := (altSeries (x * x / 2 ^ fx) 70 1 x).toNat
/-- cos x for 0 ≤ x < 1.58. -/
def cosFx (x : Nat) : Nat := (altSeries (x * x / 2 ^ fx) 70 0 (2 ^ fx : Nat)).toNat

/-- Sum of z^(2i+1) ÷ (2i+1), from the power `t` of index `k`. -/
def atanhSeries (z2 : Nat) : Nat → Nat → Nat → Nat
  | 0, _, _ => 0
  | n + 1, k, t => t / k + atanhSeries z2 n (k + 2) (t * z2 / 2 ^ fx)

/-- ln of m ÷ 2^s, for a ratio from 1 to 2. -/
def lnFx (m s : Nat) : Nat :=
  let z := (m - 2 ^ s) * 2 ^ fx / (m + 2 ^ s)
  2 * atanhSeries (z * z / 2 ^ fx) 150 1 z

/-- 2^a (04 R107, R108). -/
def exp2Val : Val → Val
  | .nan => .nan
  | .inf neg => if neg then .fin false 0 0 false else .inf false
  | .fin neg m e _ =>
    if m = 0 then .fin false 1 0 false
    else if 10 < e + m.log2 then .fin false 1 (if neg then -400 else 400) true
    else
      let x : Int := (if neg then -1 else 1) * (if 0 ≤ e then ((m * 2 ^ e.toNat * 2 ^ fx : Nat) : Int) else ((m * 2 ^ (fx - (-e).toNat) : Nat) : Int))
      let n := x / ((2 ^ fx : Nat) : Int)
      let fr := (x % ((2 ^ fx : Nat) : Int)).toNat
      if fr = 0 then .fin false 1 n false
      else .fin false (expFx (fr * ln2Fx / 2 ^ fx)) (n - fx) true

/-- log2 a (04 R107, R108). -/
def log2Val : Val → Val
  | .nan => .nan
  | .inf neg => if neg then .nan else .inf false
  | .fin neg m e _ =>
    if m = 0 then .inf true
    else if neg then .nan
    else
      let l := m.log2
      if m = 2 ^ l then .ofInt (e + l)
      else
        let r : Int := (e + l) * ((2 ^ fx : Nat) : Int) + ((lnFx m l * 2 ^ fx / ln2Fx : Nat) : Int)
        .fin (decide (r < 0)) (if r < 0 then r.natAbs - 1 else r.natAbs) (-(fx : Int)) true

/-- sin (2π × quarter turns q plus fr ÷ 2^448 of one): exact at whole quarters (04 R108). -/
def sinQuarter (q fr : Nat) : Val :=
  let neg := decide (2 ≤ q % 4)
  if fr = 0 then (if q % 2 = 0 then .fin false 0 0 false else .fin neg 1 0 false)
  else
    let th := fr * piFx / 2 ^ (fx + 1)
    .fin neg (if q % 2 = 0 then sinFx th else cosFx th) (-(fx : Int)) true

/-- sin or, with `qadd` = 1, cos of 2π·a (04 R107, R108). -/
def trigVal (qadd : Nat) : Val → Val
  | .nan => .nan
  | .inf _ => .nan
  | .fin neg m e _ =>
    if m = 0 then (if qadd = 1 then .fin false 1 0 false else .fin neg 0 0 false)
    else
      let x4 : Int := (if neg then -1 else 1) * (if 0 ≤ e then 0 else ((m * 2 ^ (fx + 2 - (-e).toNat) : Nat) : Int))
      let y := (x4 % ((2 ^ (fx + 2) : Nat) : Int)).toNat
      sinQuarter (y / 2 ^ fx + qadd) (y % 2 ^ fx)

/-- tanh a (04 R107, R108). Up to 2^-13 it rounds to a, and from 16 on to ±1. -/
def tanhVal : Val → Val
  | .nan => .nan
  | .inf neg => .fin neg 1 0 false
  | .fin neg m e _ =>
    if m = 0 then .fin neg 0 0 false
    else if e + m.log2 < -13 then .fin neg m e false
    else if 4 ≤ e + m.log2 then .fin neg 1 0 false
    else
      let t := m * 2 ^ (fx + 1 - (-e).toNat)
      let n := t / ln2Fx
      let ex := expFx (t - n * ln2Fx) * 2 ^ n
      .fin neg ((ex - 2 ^ fx) * 2 ^ fx / (ex + 2 ^ fx)) (-(fx : Int)) true

/-! ## Comparisons, minima, integers -/

/-- a < b for values that are not NaN; −0 equals +0. -/
def ltVal : Val → Val → Bool
  | .inf a, .inf b => a && !b
  | .inf a, .fin _ _ _ _ => a
  | .fin _ _ _ _, .inf b => !b
  | .fin a m e _, .fin b n f _ =>
    let q := min e f
    decide (Val.units q (.fin a m e false) < Val.units q (.fin b n f false))
  | _, _ => false

/-- The magnitude is zero. -/
def Val.isZero : Val → Bool
  | .fin _ m _ _ => decide (m = 0)
  | _ => false

/-- a < b in the order of FMIN and FMAX, with −0 below +0 (04 R103). -/
def ltSigned (a b : Val) : Bool :=
  if a.isZero && b.isZero then a.neg? && !b.neg? else ltVal a b

/-- FMIN and FMAX on values (04 R103). -/
def minVal (mx : Bool) (a b : Val) : Val :=
  if a.isNan then b else if b.isNan then a
  else if (if mx then ltSigned a b else ltSigned b a) then b else a

/-- A signed integer from a two's complement pattern. -/
def sext (w : Nat) (n : Nat) : Int := if n % 2 ^ w < 2 ^ (w - 1) then ((n % 2 ^ w : Nat) : Int) else ((n % 2 ^ w : Nat) : Int) - ((2 ^ w : Nat) : Int)

/-- sat(x, w) of 00 R9. -/
def satS (x : Int) (w : Nat) : Int := max (-((2 ^ (w - 1) : Nat) : Int)) (min x (((2 ^ (w - 1) : Nat) : Int) - 1))

/-- satz(x, w) of 00 R9. -/
def satZ (x : Int) (w : Nat) : Int := max 0 (min x (((2 ^ w : Nat) : Int) - 1))

/-- The integer nearest to a finite value in a mode. -/
def toIntVal (mode : Nat) : Val → Int
  | .fin neg m e s => (if neg then -1 else 1) * (roundTo mode neg m e s 0 : Int)
  | _ => 0

/-- Conversion to an integer type of width w (01 R33): the saturated integer. -/
def cvtInt (mode w : Nat) (unsigned : Bool) (v : Val) : Int :=
  let lo : Int := if unsigned then 0 else -((2 ^ (w - 1) : Nat) : Int)
  let hi : Int := if unsigned then ((2 ^ w : Nat) : Int) - 1 else ((2 ^ (w - 1) : Nat) : Int) - 1
  match v with
  | .nan => 0
  | .inf neg => if neg then lo else hi
  | v => if 70 < v.expo then (if v.isZero then 0 else if v.neg? then lo else hi) else max lo (min (toIntVal mode v) hi)

/-- floor(log2 |x|) of a finite nonzero value. -/
def floorLog2 : Val → Int
  | .fin _ m e _ => e + m.log2
  | _ => 0

end Sys2Proof.Machine
end

