-- ==== Sys2Proof/Syntax.lean ====
section
/-! DEFINITION. The instructions and events of the opcode table (spec 02 R63 to R65; spec 95): one constructor
per row. Arguments carry the fields of the row's word; `e` is the scene-end bit (R42), `n` the latch-only bit (R46),
`p` the optional PFX prefix (R50). Rows without a word are events of the module's other agents. -/

namespace Sys2Proof

/-- One constructor per row of the opcode table. -/
inductive Instr where
  /-- IADD (R75): Adds two 32-bit registers per lane, optionally saturating by the signed rule. -/
  | iadd (e n : Bool) (p : Option Pfx) (d a b : BitVec 7)
  /-- ISUB (R75): Subtracts two 32-bit registers per lane, optionally saturating. -/
  | isub (e n : Bool) (p : Option Pfx) (d a b : BitVec 7)
  /-- IMUL (R75): Multiplies two 32-bit registers per lane, keeping the low 32 bits or saturating. -/
  | imul (e n : Bool) (p : Option Pfx) (d a b : BitVec 7)
  /-- IMULHS (R76): Writes the high 32 bits of the signed 64-bit product. -/
  | imulhs (e n : Bool) (p : Option Pfx) (d a b : BitVec 7)
  /-- IMULHZ (R76): Writes the high 32 bits of the unsigned 64-bit product. -/
  | imulhz (e n : Bool) (p : Option Pfx) (d a b : BitVec 7)
  /-- IMAD (R76): Multiply-adds 32-bit values per lane into d, accumulating without a prefix. -/
  | imad (e n : Bool) (p : Option Pfx) (d a b : BitVec 7)
  /-- IMADW (R76): Multiplies two 32-bit values and adds a 64-bit pair, writing a pair. -/
  | imadw (e n : Bool) (p : Option Pfx) (d a b : BitVec 7)
  /-- IMIN (R78): Writes the signed minimum of two registers. -/
  | imin (e n : Bool) (p : Option Pfx) (d a b : BitVec 7)
  /-- IMAX (R78): Writes the signed maximum of two registers. -/
  | imax (e n : Bool) (p : Option Pfx) (d a b : BitVec 7)
  /-- IMINZ (R78): Writes the unsigned minimum of two registers. -/
  | iminz (e n : Bool) (p : Option Pfx) (d a b : BitVec 7)
  /-- IMAXZ (R78): Writes the unsigned maximum of two registers. -/
  | imaxz (e n : Bool) (p : Option Pfx) (d a b : BitVec 7)
  /-- IABS (R78): Writes the absolute value of a signed register, optionally saturating. -/
  | iabs (e n : Bool) (p : Option Pfx) (d a : BitVec 7)
  /-- INEG (R78): Writes the negation of a signed register, optionally saturating. -/
  | ineg (e n : Bool) (p : Option Pfx) (d a : BitVec 7)
  /-- ADD64 (R77): Adds two 64-bit pairs per lane. -/
  | add64 (e n : Bool) (p : Option Pfx) (d a b : BitVec 7)
  /-- SUB64 (R77): Subtracts two 64-bit pairs per lane. -/
  | sub64 (e n : Bool) (p : Option Pfx) (d a b : BitVec 7)
  /-- LEA (R77): Adds a signed 32-bit index to a 64-bit address pair. -/
  | lea (e n : Bool) (p : Option Pfx) (d a b : BitVec 7)
  /-- IADDI (R75): Adds a signed 7-bit immediate to a register per lane. -/
  | iaddi (e n : Bool) (p : Option Pfx) (d a i : BitVec 7)
  /-- AND (R79): Bitwise AND of two registers. -/
  | and (e n : Bool) (p : Option Pfx) (d a b : BitVec 7)
  /-- OR (R79): Bitwise OR of two registers. -/
  | or (e n : Bool) (p : Option Pfx) (d a b : BitVec 7)
  /-- XOR (R79): Bitwise XOR of two registers. -/
  | xor (e n : Bool) (p : Option Pfx) (d a b : BitVec 7)
  /-- ANDN (R79): Bitwise AND of a with the complement of b. -/
  | andn (e n : Bool) (p : Option Pfx) (d a b : BitVec 7)
  /-- NOT (R79): Bitwise complement of a register. -/
  | not (e n : Bool) (p : Option Pfx) (d a : BitVec 7)
  /-- ANDI (R79): Bitwise AND with an unsigned 7-bit immediate. -/
  | andi (e n : Bool) (p : Option Pfx) (d a i : BitVec 7)
  /-- ORI (R79): Bitwise OR with an unsigned 7-bit immediate. -/
  | ori (e n : Bool) (p : Option Pfx) (d a i : BitVec 7)
  /-- XORI (R79): Bitwise XOR with an unsigned 7-bit immediate. -/
  | xori (e n : Bool) (p : Option Pfx) (d a i : BitVec 7)
  /-- MOV (R79): Copies a register or, with width code 1, a 64-bit pair. -/
  | mov (e n : Bool) (p : Option Pfx) (d a : BitVec 7) (w : Bool)
  /-- MOVK (R80): Writes a sign-extended 14-bit constant into a register (short form). -/
  | movk (e n : Bool) (d : BitVec 7) (i : BitVec 14)
  /-- MOVK_LITERAL (R80): Writes the 32-bit literal word that follows into a register. -/
  | movkLiteral (e n : Bool) (d : BitVec 7) (lit : BitVec 32)
  /-- MOVS (R81): Reads a special register into each lane's vector register or pair. -/
  | movs (e n : Bool) (d i : BitVec 7)
  /-- SHL (R82): Shifts left by a register count, giving 0 for counts of 32 or more. -/
  | shl (e n : Bool) (p : Option Pfx) (d a b : BitVec 7)
  /-- SHR (R82): Shifts right logically by a register count. -/
  | shr (e n : Bool) (p : Option Pfx) (d a b : BitVec 7)
  /-- SAR (R82): Shifts right arithmetically by a register count. -/
  | sar (e n : Bool) (p : Option Pfx) (d a b : BitVec 7)
  /-- ROL (R82): Rotates left by the count modulo 32. -/
  | rol (e n : Bool) (p : Option Pfx) (d a b : BitVec 7)
  /-- SHLI (R82): Shifts left by an immediate count. -/
  | shli (e n : Bool) (p : Option Pfx) (d a : BitVec 7) (i : BitVec 5)
  /-- SHRI (R82): Shifts right logically by an immediate count. -/
  | shri (e n : Bool) (p : Option Pfx) (d a : BitVec 7) (i : BitVec 5)
  /-- SARI (R82): Shifts right arithmetically by an immediate count. -/
  | sari (e n : Bool) (p : Option Pfx) (d a : BitVec 7) (i : BitVec 5)
  /-- BFX (R83): Extracts an unsigned bit field. -/
  | bfx (e n : Bool) (p : Option Pfx) (d a b : BitVec 7)
  /-- BFXS (R83): Extracts a signed bit field. -/
  | bfxs (e n : Bool) (p : Option Pfx) (d a b : BitVec 7)
  /-- BFI (R83): Inserts a bit field into c or d. -/
  | bfi (e n : Bool) (p : Option Pfx) (d a b : BitVec 7)
  /-- POPC (R84): Counts the one bits of a register. -/
  | popc (e n : Bool) (p : Option Pfx) (d a : BitVec 7)
  /-- CLZ (R84): Counts leading zero bits of a register. -/
  | clz (e n : Bool) (p : Option Pfx) (d a : BitVec 7)
  /-- BREV (R84): Reverses the bits of a register. -/
  | brev (e n : Bool) (p : Option Pfx) (d a : BitVec 7)
  /-- ISET (R85): Signed compare writing one mask bit per lane of the path. -/
  | iset (e : Bool) (p : Option Pfx) (w : Bool) (c k : BitVec 3) (a b : BitVec 7)
  /-- ISETZ (R85): Unsigned compare writing one mask bit per lane of the path. -/
  | isetz (e : Bool) (p : Option Pfx) (w : Bool) (c k : BitVec 3) (a b : BitVec 7)
  /-- FSET (R86): FP32 ordered or unordered compare writing a mask bit per lane. -/
  | fset (e : Bool) (p : Option Pfx) (c : BitVec 4) (k : BitVec 3) (a b : BitVec 7)
  /-- SEL (R87): Selects a or b per lane by the k bit of its mandatory prefix. -/
  | sel (e n : Bool) (k : BitVec 3) (d a b : BitVec 7)
  /-- FCLASS (R88): Writes a one-hot class mask of a floating-point operand. -/
  | fclass (e n : Bool) (p : Option Pfx) (d a t : BitVec 7)
  /-- FADD (R102): FP32 addition rounded once. -/
  | fadd (e n : Bool) (p : Option Pfx) (d a b : BitVec 7)
  /-- FSUB (R102): FP32 subtraction rounded once. -/
  | fsub (e n : Bool) (p : Option Pfx) (d a b : BitVec 7)
  /-- FMUL (R102): FP32 multiplication rounded once. -/
  | fmul (e n : Bool) (p : Option Pfx) (d a b : BitVec 7)
  /-- FFMA (R102): FP32 fused multiply-add rounded once. -/
  | ffma (e n : Bool) (p : Option Pfx) (d a b : BitVec 7)
  /-- FMIN (R103): FP32 minimum with -0 below +0 and NaN handling. -/
  | fmin (e n : Bool) (p : Option Pfx) (d a b : BitVec 7)
  /-- FMAX (R103): FP32 maximum with -0 below +0 and NaN handling. -/
  | fmax (e n : Bool) (p : Option Pfx) (d a b : BitVec 7)
  /-- FABS (R103): Clears the sign bit of an FP32 value. -/
  | fabs (e n : Bool) (p : Option Pfx) (d a : BitVec 7)
  /-- FNEG (R103): Inverts the sign bit of an FP32 value. -/
  | fneg (e n : Bool) (p : Option Pfx) (d a : BitVec 7)
  /-- FRND (R104): Rounds an FP32 value to an integral value in mode rm. -/
  | frnd (e n : Bool) (p : Option Pfx) (d a : BitVec 7)
  /-- FSCL (R104): Scales an FP32 value by a power of two and rounds. -/
  | fscl (e n : Bool) (p : Option Pfx) (d a b : BitVec 7)
  /-- FEXP (R104): Writes floor(log2|a|) of an FP32 value as an integer. -/
  | fexp (e n : Bool) (p : Option Pfx) (d a : BitVec 7)
  /-- HADD2 (R106): Packed two-element FP16 addition. -/
  | hadd2 (e n : Bool) (p : Option Pfx) (d a b : BitVec 7)
  /-- HMUL2 (R106): Packed two-element FP16 multiplication. -/
  | hmul2 (e n : Bool) (p : Option Pfx) (d a b : BitVec 7)
  /-- HFMA2 (R106): Packed two-element FP16 fused multiply-add. -/
  | hfma2 (e n : Bool) (p : Option Pfx) (d a b : BitVec 7)
  /-- HMIN2 (R106): Packed two-element FP16 minimum. -/
  | hmin2 (e n : Bool) (p : Option Pfx) (d a b : BitVec 7)
  /-- HMAX2 (R106): Packed two-element FP16 maximum. -/
  | hmax2 (e n : Bool) (p : Option Pfx) (d a b : BitVec 7)
  /-- HDOT2 (R106): Two-element FP16 dot product added to an FP32 value, rounded once. -/
  | hdot2 (e n : Bool) (p : Option Pfx) (d a b : BitVec 7)
  /-- BADD2 (R106): Packed two-element BF16 addition. -/
  | badd2 (e n : Bool) (p : Option Pfx) (d a b : BitVec 7)
  /-- BMUL2 (R106): Packed two-element BF16 multiplication. -/
  | bmul2 (e n : Bool) (p : Option Pfx) (d a b : BitVec 7)
  /-- BFMA2 (R106): Packed two-element BF16 fused multiply-add. -/
  | bfma2 (e n : Bool) (p : Option Pfx) (d a b : BitVec 7)
  /-- BMIN2 (R106): Packed two-element BF16 minimum. -/
  | bmin2 (e n : Bool) (p : Option Pfx) (d a b : BitVec 7)
  /-- BMAX2 (R106): Packed two-element BF16 maximum. -/
  | bmax2 (e n : Bool) (p : Option Pfx) (d a b : BitVec 7)
  /-- BDOT2 (R106): Two-element BF16 dot product added to an FP32 value, rounded once. -/
  | bdot2 (e n : Bool) (p : Option Pfx) (d a b : BitVec 7)
  /-- RCP (R107): Correctly rounded FP32 reciprocal. -/
  | rcp (e n : Bool) (p : Option Pfx) (d a : BitVec 7)
  /-- RSQ (R107): Correctly rounded FP32 reciprocal square root. -/
  | rsq (e n : Bool) (p : Option Pfx) (d a : BitVec 7)
  /-- SQRT (R107): Correctly rounded FP32 square root. -/
  | sqrt (e n : Bool) (p : Option Pfx) (d a : BitVec 7)
  /-- EXP2 (R107): Correctly rounded FP32 power of two. -/
  | exp2 (e n : Bool) (p : Option Pfx) (d a : BitVec 7)
  /-- LOG2 (R107): Correctly rounded FP32 base-2 logarithm. -/
  | log2 (e n : Bool) (p : Option Pfx) (d a : BitVec 7)
  /-- SIN (R107): Correctly rounded sine of an argument in turns. -/
  | sin (e n : Bool) (p : Option Pfx) (d a : BitVec 7)
  /-- COS (R107): Correctly rounded cosine of an argument in turns. -/
  | cos (e n : Bool) (p : Option Pfx) (d a : BitVec 7)
  /-- TANH (R107): Correctly rounded hyperbolic tangent. -/
  | tanh (e n : Bool) (p : Option Pfx) (d a : BitVec 7)
  /-- CVT (R110): Converts between FP32 and an integer or narrow float type. -/
  | cvt (e n : Bool) (p : Option Pfx) (d a : BitVec 7) (r s : Bool) (t : BitVec 5)
  /-- CVTR (R111): Error-feedback rounding of FP32 to a narrow format through a residue register. -/
  | cvtr (e n : Bool) (p : Option Pfx) (d a : BitVec 7) (i : BitVec 3) (s : Bool) (f : BitVec 2)
  /-- RSDRD (R112): Reads a residue register into a vector register. -/
  | rsdrd (e n : Bool) (d : BitVec 7) (i : BitVec 3)
  /-- RSDWR (R112): Writes a vector register into a residue register. -/
  | rsdwr (e : Bool) (a : BitVec 7) (i : BitVec 3)
  /-- MXSC (R115): Computes the shared E8M0 scale of each MX block of participating lanes. -/
  | mxsc (e n : Bool) (p : Option Pfx) (d a : BitVec 7) (f b : BitVec 2)
  /-- MXQ (R116): Quantises an FP32 value to an MX element and inserts it in a slot. -/
  | mxq (e n : Bool) (p : Option Pfx) (d a : BitVec 7) (f b : BitVec 2) (s : BitVec 3)
  /-- MXQR (R117): Error-feedback quantisation to an MX element through a residue register. -/
  | mxqr (e n : Bool) (p : Option Pfx) (d a : BitVec 7) (f b : BitVec 2) (i : BitVec 3)
  /-- MXDQ (R118): Decodes an MX element slot and scale into FP32. -/
  | mxdq (e n : Bool) (p : Option Pfx) (d a : BitVec 7) (f b : BitVec 2) (s : BitVec 3)
  /-- SMXACC (R120): Folds a tile of logits into a running softmax maximum and sum. -/
  | smxacc (e n : Bool) (p : Option Pfx) (d a b : BitVec 7)
  /-- SMXFIN (R121): Divides a numerator by the softmax sum of a state pair. -/
  | smxfin (e n : Bool) (p : Option Pfx) (d a b : BitVec 7)
  /-- BR (R91): Unconditional relative branch of the whole path, ending the scene. -/
  | br (o : BitVec 21)
  /-- BRZ (R91): Per-lane branch when a register is zero, splitting the path. -/
  | brz (a : BitVec 7) (o : BitVec 14)
  /-- BRNZ (R91): Per-lane branch when a register is nonzero, splitting the path. -/
  | brnz (a : BitVec 7) (o : BitVec 14)
  /-- BRX (R92): Indirect branch to each lane's 64-bit address pair. -/
  | brx (a : BitVec 7)
  /-- CALL (R93): Pushes a return address per lane and branches relative. -/
  | call (o : BitVec 21)
  /-- CALLX (R93): Pushes a return address per lane and branches to each lane's address pair. -/
  | callx (a : BitVec 7)
  /-- RET (R94): Pops each lane's return stack and transfers control, refilling spilled entries. -/
  | ret
  /-- EXIT (R97): Ends every thread of the path and strikes it from all rejoin registers. -/
  | exit
  /-- ENROL (R161): Enrols the named lanes of the path in a rejoin register. -/
  | enrol (e : Bool) (j k : BitVec 3)
  /-- REJOIN (R162): Parks enrolled lanes on a rejoin register and passes the rest. -/
  | rejoin (j : BitVec 3)
  /-- STRIKE (R161): Removes the named lanes from a rejoin register's enrolled mask. -/
  | strike (e : Bool) (j k : BitVec 3)
  /-- BRM (R163): Splits the path by a mask, sending masked lanes to the target. -/
  | brm (k : BitVec 3) (o : BitVec 14)
  /-- VOTE (R166): Any, all, ballot or equality vote over the participants of each tile. -/
  | vote (e n : Bool) (d a : BitVec 7) (m : BitVec 2)
  /-- SHFL (R167): Reads another lane's register within the tile by a per-lane selector. -/
  | shfl (e n : Bool) (d a b : BitVec 7)
  /-- REDUX (R168): Reduces the participants of each tile and writes the result to all. -/
  | redux (e n : Bool) (d a : BitVec 7) (o : BitVec 3) (f : Bool)
  /-- SCAN (R168): Inclusive or exclusive prefix combination over each tile. -/
  | scan (e n : Bool) (d a : BitVec 7) (o : BitVec 3) (f x : Bool)
  /-- MATCH (R169): Writes the mask of tile participants whose key equals the lane's key. -/
  | matchKeys (e n : Bool) (d a : BitVec 7) (k : BitVec 2)
  /-- COMPACT (R170): Packs selected lanes' values to the low end of each tile. -/
  | compact (e n : Bool) (d a b : BitVec 7)
  /-- RDLANE (R171): Reads one lane's register into a uniform register. -/
  | rdlane (e : Bool) (g : BitVec 6) (a : BitVec 7) (w : Bool) (n : BitVec 6)
  /-- BCAST (R171): Broadcasts a uniform register to every lane of the path. -/
  | bcast (e n : Bool) (d : BitVec 7) (g : BitVec 6) (w : Bool)
  /-- LDG (R255): Global load of 8 to 128 bits per lane, zero-extended. -/
  | ldg (e : Bool) (d a : BitVec 7) (o : BitVec 5) (z : BitVec 2)
  /-- LDGS (R255): Sign-extending global load of 8 or 16 bits. -/
  | ldgs (e : Bool) (d a : BitVec 7) (o : BitVec 5) (z : Bool)
  /-- LDS (R255): Scratch load per lane. -/
  | lds (e : Bool) (d a : BitVec 7) (o : BitVec 5) (z : BitVec 2)
  /-- LDSS (R255): Sign-extending scratch load of 8 or 16 bits. -/
  | ldss (e : Bool) (d a : BitVec 7) (o : BitVec 5) (z : Bool)
  /-- LDP (R255): Private load per lane. -/
  | ldp (e : Bool) (d a : BitVec 7) (o : BitVec 5) (z : BitVec 2)
  /-- LDPS (R255): Sign-extending private load of 8 or 16 bits. -/
  | ldps (e : Bool) (d a : BitVec 7) (o : BitVec 5) (z : Bool)
  /-- LDA (R256): Global load with acquire semantics at a scope, optionally promoting remote releases. -/
  | lda (e : Bool) (d a : BitVec 7) (s : BitVec 3) (r : Bool) (z : BitVec 2)
  /-- PREF (R262): Hints a global line into L1 and L2 or L2 only, with no observable effect. -/
  | pref (e : Bool) (h : BitVec 2) (a : BitVec 7) (o : BitVec 5) (z : BitVec 2)
  /-- FCHK (R263): Writes whether a scratch line is full, without waiting. -/
  | fchk (e n : Bool) (d a : BitVec 7) (o : BitVec 5) (z : BitVec 2)
  /-- STG (R257): Global store per lane. -/
  | stg (e : Bool) (d a : BitVec 7) (o : BitVec 5) (z : BitVec 2)
  /-- STS (R257): Scratch store per lane, setting the line full. -/
  | sts (e : Bool) (d a : BitVec 7) (o : BitVec 5) (z : BitVec 2)
  /-- STP (R257): Private store per lane. -/
  | stp (e : Bool) (d a : BitVec 7) (o : BitVec 5) (z : BitVec 2)
  /-- STREL (R259): Global store with release semantics at a scope. -/
  | strel (e : Bool) (d a : BitVec 7) (s : BitVec 3) (z : BitVec 2)
  /-- ATOM (R266): Two-word atomic read-modify-write per lane at its place of execution. -/
  | atom (e : Bool) (d a b : BitVec 7) (op : BitVec 4) (ty : BitVec 3) (ord : BitVec 2) (sc : BitVec 3) (sp : BitVec 2) (noret : Bool) (c : BitVec 7)
  /-- MCST (R260): Stores the same bytes to all 16 replicas of a replicated page. -/
  | mcst (e : Bool) (d a : BitVec 7) (o : BitVec 5) (z : BitVec 2)
  /-- EMPTY (R263): Sets the scratch line of each lane's address empty. -/
  | empty (e : Bool) (a : BitVec 7) (o : BitVec 5) (z : BitVec 2)
  /-- MONARM (R270): Arms each lane's monitor on a global address with a compare value. -/
  | monarm (e : Bool) (d a : BitVec 7) (o : BitVec 5) (z : BitVec 2)
  /-- MONWAIT (R272): Blocks the path until a monitor fires, a timeout passes, or a spurious wake. -/
  | monwait (n : Bool) (d : BitVec 7) (f : Bool) (t : BitVec 5)
  /-- FENCE (R268): Acquire, release, both or sequentially consistent fence at a scope. -/
  | fence (e : Bool) (k : BitVec 2) (s : BitVec 3)
  /-- CUE (R285): Queries a hung cue table with one index per lane. -/
  | cue (e : Bool) (d a : BitVec 7) (x : Bool) (h : BitVec 4)
  /-- COPY (R334): Two-word command that checks and issues a copy to the copy engine by its leader lane. -/
  | copy (e : Bool) (d a b : BitVec 7) (opt : BitVec 3) (dir : BitVec 2) (rv : Bool) (q : BitVec 3) (sreg : BitVec 7) (lk : BitVec 3) (slreg : BitVec 7)
  /-- CAST (R361): Two-word command that runs one casting-engine command over index streams. -/
  | cast (e : Bool) (d a : BitVec 7) (mode cur : BitVec 2) (kd : BitVec 3) (gs : BitVec 6)
  /-- CASTI (R367): Initialises a cast cursor from stream records. -/
  | casti (e : Bool) (a : BitVec 7) (m c : BitVec 2)
  /-- CASTSPLIT (R368): Sets a cursor to one warp's share of a CSR range by merge-path search. -/
  | castsplit (e : Bool) (c : BitVec 2) (a b : BitVec 7)
  /-- CASTRD (R369): Reads the four words of a cast cursor into registers. -/
  | castrd (e n : Bool) (d : BitVec 7) (c : BitVec 2)
  /-- CASTWR (R369): Writes four registers of the lowest active lane into a cast cursor. -/
  | castwr (e : Bool) (a : BitVec 7) (c : BitVec 2)
  /-- MASH (R318): Two-word command that reads a fragment and enters a k-step into named bank queues. -/
  | mash (e : Bool) (d a : BitVec 7) (bsel : BitVec 2) (clr : Bool) (fa fw : BitVec 2) (pm1 : BitVec 4) (kg : BitVec 5) (half : Bool) (bmask : BitVec 16)
  /-- RACK (R319): Enters a promotion into the queues of the named banks. -/
  | rack (e : Bool) (a : BitVec 7)
  /-- COLRD (R321): Reads a rack row through the column port once earlier operations drain. -/
  | colrd (e : Bool) (d a : BitVec 7)
  /-- COLCLR (R319): Enters a clear of one rack row or of every cell into bank queues. -/
  | colclr (e : Bool) (a : BitVec 7) (l : Bool) (r : BitVec 4)
  /-- MSTAT (R322): Reads a bank's status word, optionally clearing SAT in the same step. -/
  | mstat (e n : Bool) (d : BitVec 7) (c : Bool) (b : BitVec 5)
  /-- TRAP (R393): Raises a prompt to system software or an assertion that holds the context. -/
  | trap (d : BitVec 7) (c : BitVec 8)
  /-- BRK (R395): Breakpoint that holds the team after its own scene. -/
  | brk (t : BitVec 8)
  /-- NOP (R98): Takes a scene position and has no other effect. -/
  | nop (e : Bool)
  /-- HINT (R61): Hint code executed as NOP with its other bits ignored. -/
  | hint (e x : Bool) (h : BitVec 4) (y : BitVec 21)
  /-- GADD (R150): 64-bit uniform addition. -/
  | gadd (e : Bool) (d a b : BitVec 6)
  /-- GSUB (R150): 64-bit uniform subtraction. -/
  | gsub (e : Bool) (d a b : BitVec 6)
  /-- GMUL (R150): 64-bit uniform multiplication. -/
  | gmul (e : Bool) (d a b : BitVec 6)
  /-- GAND (R150): 64-bit uniform bitwise AND. -/
  | gand (e : Bool) (d a b : BitVec 6)
  /-- GOR (R150): 64-bit uniform bitwise OR. -/
  | gor (e : Bool) (d a b : BitVec 6)
  /-- GXOR (R150): 64-bit uniform bitwise XOR. -/
  | gxor (e : Bool) (d a b : BitVec 6)
  /-- GSHL (R150): 64-bit uniform left shift. -/
  | gshl (e : Bool) (d a b : BitVec 6)
  /-- GSHR (R150): 64-bit uniform logical right shift. -/
  | gshr (e : Bool) (d a b : BitVec 6)
  /-- GSAR (R150): 64-bit uniform arithmetic right shift. -/
  | gsar (e : Bool) (d a b : BitVec 6)
  /-- GMIN (R150): 64-bit uniform signed or unsigned minimum. -/
  | gmin (e : Bool) (d a b : BitVec 6) (u : Bool)
  /-- GMAX (R150): 64-bit uniform signed or unsigned maximum. -/
  | gmax (e : Bool) (d a b : BitVec 6) (u : Bool)
  /-- GADDI (R150): Adds a signed 10-bit immediate to a uniform register. -/
  | gaddi (e : Bool) (d a : BitVec 6) (i : BitVec 10)
  /-- GMOVK (R49): Writes a sign-extended 16-bit constant into a uniform register (short form). -/
  | gmovk (e : Bool) (d : BitVec 6) (i : BitVec 16)
  /-- GMOVK_LITERAL (R49): Writes the sign-extended 32-bit literal word into a uniform register. -/
  | gmovkLiteral (e : Bool) (d : BitVec 6) (lit : BitVec 32)
  /-- GMOV (R150): Copies a uniform register. -/
  | gmov (e : Bool) (d a : BitVec 6)
  /-- GSET (R150): Writes 1 or 0 by a 64-bit comparison of uniform registers. -/
  | gset (e : Bool) (d a b : BitVec 6) (c : BitVec 4)
  /-- GSEL (R150): Selects a or b by whether a condition register is nonzero. -/
  | gsel (e : Bool) (d a b : BitVec 6) (f : BitVec 4)
  /-- GLD (R152): Uniform global load by the path's lowest active lane. -/
  | gld (e : Bool) (d a : BitVec 6) (z : BitVec 2) (o : BitVec 7)
  /-- GLDS (R152): Uniform scratch load by the path's lowest active lane. -/
  | glds (e : Bool) (d a : BitVec 6) (z : BitVec 2) (o : BitVec 7)
  /-- GST (R152): Uniform store to global or scratch space. -/
  | gst (e : Bool) (d a : BitVec 6) (s : Bool) (z : BitVec 2) (o : BitVec 7)
  /-- KAND (R153): AND of two mask registers. -/
  | kand (e : Bool) (d a b : BitVec 3)
  /-- KOR (R153): OR of two mask registers. -/
  | kor (e : Bool) (d a b : BitVec 3)
  /-- KXOR (R153): XOR of two mask registers. -/
  | kxor (e : Bool) (d a b : BitVec 3)
  /-- KNOT (R153): Complement of a mask register. -/
  | knot (e : Bool) (d a : BitVec 3)
  /-- KMOV (R153): Moves a mask, a g register into a mask, or a mask into a g register as f selects. -/
  | kmov (e : Bool) (d a : BitVec 6) (f : BitVec 2)
  /-- JMP (R155): Uniform unconditional relative jump of the whole path. -/
  | jmp (o : BitVec 22)
  /-- JZ (R155): Uniform jump when a g register is zero. -/
  | jz (a : BitVec 6) (o : BitVec 16)
  /-- JNZ (R155): Uniform jump when a g register is nonzero. -/
  | jnz (a : BitVec 6) (o : BitVec 16)
  /-- GCALL (R156): Uniform relative call pushing a return address in every lane. -/
  | gcall (o : BitVec 22)
  /-- GCALL_REGISTER (R156): Uniform call to the address held in a g register. -/
  | gcallRegister (g : BitVec 6)
  /-- YIELD (R157): Ends the scene and blocks the path briefly to give way. -/
  | yield
  /-- BAR (R173): Arrives at the team barrier and blocks the path. -/
  | bar
  /-- BARG (R173): Arrives at the gang barrier and blocks the path. -/
  | barg
  /-- LAUNCH (R177): Offers a 64-byte launch record to the pending-launch store. -/
  | launch (e : Bool) (d a : BitVec 6)
  /-- SREAD (R158): Reads a special register into a g register. -/
  | sread (e : Bool) (d : BitVec 6) (i : BitVec 10)
  /-- PARTSET (R159): Sets the partition tile size of the warp. -/
  | partset (e : Bool) (p : BitVec 10)
  /-- RSET (R343): Configures a stage ring and empties its lines. -/
  | rset (e : Bool) (q : BitVec 3) (a b : BitVec 6)
  /-- RACQ (R344): Acquires the next ring slot, blocking until it is free. -/
  | racq (d : BitVec 6) (q : BitVec 3)
  /-- RPUB (R345): Adds one release arrival of the path to a ring slot. -/
  | rpub (e : Bool) (a : BitVec 6) (q : BitVec 3)
  /-- RWAIT (R346): Blocks until a ring slot is filled in the named phase, then acquires. -/
  | rwait (a : BitVec 6) (q : BitVec 3)
  /-- RFREE (R347): Returns a filled ring slot and empties its lines. -/
  | rfree (e : Bool) (a : BitVec 6) (q : BitVec 3)
  /-- CWAIT (R348): Blocks until every earlier copy of the warp has completed. -/
  | cwait
  /-- BANK (R323): Switches named team banks to storage or mash mode once idle. -/
  | bank (e : Bool) (a : BitVec 6) (m : Bool)
  /-- MWAIT (R325): Blocks until operations queued in the named banks have completed. -/
  | mwait (a : BitVec 6)
  /-- HANG (R278): Binds a handle to a cue table, locking and writing back its range. -/
  | hang (e : Bool) (d a b : BitVec 6) (h : BitVec 4)
  /-- UNHANG (R282): Releases a hung handle after its queries return. -/
  | unhang (e : Bool) (h : BitVec 4)
  /-- UNASSIGNED_OPCODE (R60): A path issues a word whose opcode is unassigned and not a hint, which raises the illegal-instruction fault. -/
  | unassignedOpcode (word : BitVec 32)
  /-- SCENE_START (R141): At an arbitration point the arbiter starts the scene of the first eligible ready path. -/
  | sceneStart (core wing : Nat)
  /-- YIELD_WAKE (R157): A yielding path becomes ready 16 wing cycles after its scene ended. -/
  | yieldWake (w lane : Nat)
  /-- MONWAIT_TIMEOUT (R272): The MONWAIT timeout passes and the path wakes. -/
  | monwaitTimeout (w lane : Nat)
  /-- LOAD_DATA_RETURN (R255): Load data returns and is written to the destination register. -/
  | loadDataReturn (id : Nat) (err : Bool)
  /-- ATOMIC_REPLY (R266): An atomic's reply arrives and the old value is written. -/
  | atomicReply (id : Nat)
  /-- STORE_PERFORMED (R237): A store, atomic write or MCST replica store is performed at its place of execution. -/
  | storePerformed (id : Nat)
  /-- EMPTY_LINE_RELEASE (R214): A load or atomic waiting on an empty scratch line proceeds once the line is full. -/
  | emptyLineRelease (w : Nat)
  /-- COLLECTOR_ENTRY_LEAVE (R371): A request-collector entry leaves to L1 or the table path within 32 cycles. -/
  | collectorEntryLeave (grp line : Nat)
  /-- QUERY_TRANSACTION (R288): A cue query transaction opens a table row and returns its entries. -/
  | queryTransaction (grp row : Nat) (bad : BitVec 64)
  /-- HANG_FINISH (R278): After its waits, HANG enters the hung entry, writes back the range and writes its status. -/
  | hangFinish (ctx h : Nat)
  /-- UNHANG_FINISH (R282): After outstanding queries return, the handle is unbound and its entry removed. -/
  | unhangFinish (ctx h : Nat)
  /-- BANK_QUEUE_ENTRY (R309): A waiting MASH, RACK, COLCLR or steep enters every named bank queue in one step. -/
  | bankQueueEntry (w : Nat)
  /-- K_STEP (R303): A bank executes one MASH k-step over every cell. -/
  | kStep (core bank : Nat)
  /-- RACK_EXECUTE (R305): A bank executes a queued RACK promotion. -/
  | rackExecute (core bank : Nat)
  /-- COLCLR_EXECUTE (R305): A bank executes a queued clear of cells. -/
  | colclrExecute (core bank : Nat)
  /-- STEEP_EXECUTE (R339): A queued steep writes weights and scales into a mash bank. -/
  | steepExecute (core bank : Nat)
  /-- COLRD_READ (R321): Once earlier operations drain, COLRD reads the rack row in one step. -/
  | colrdRead (w : Nat)
  /-- BANK_SWITCH (R323): After banks become idle, their mode changes and queues reopen. -/
  | bankSwitch (w : Nat)
  /-- COPY_ISSUE (R335): A checked COPY enters its hulls, empties destination lines and reserves its slot. -/
  | copyIssue (w : Nat)
  /-- COPY_START (R335): The engine starts a copy after its release and any multicast entry have cleared. -/
  | copyStart (id : Nat)
  /-- COPY_WRITE (R336): The copy engine writes data, filling destination lines as they complete. -/
  | copyWrite (id : Nat)
  /-- COPY_COMPLETE (R336): A copy completes, removes its locks and arrives at its slot. -/
  | copyComplete (id : Nat)
  /-- COPY_PARK (R352): A copy meeting a translation fault, data error or hung range parks and reports. -/
  | copyPark (id : Nat) (err : Bool)
  /-- COPY_RESUME (R353): A CPRESUME GO resumes the parked copy in a slot. -/
  | copyResume (core slot : Nat)
  /-- CAST_COMMAND_START (R364): The casting engine starts a waiting command. -/
  | castCommandStart (core : Nat)
  /-- CAST_COMMAND_STOP (R363): A cast command stops and writes lanes, mask, status and cursor in one step. -/
  | castCommandStop (core : Nat)
  /-- LAUNCH_WINDOW_GO (R181): Writing GO in WCTL offers the window's record. -/
  | launchWindowGo (port win : Nat)
  /-- LAUNCH_OFFER_OUTCOME (R183): An offer is checked, accepted with a launch number, refused as full, or refused as bad. -/
  | launchOfferOutcome (n : Nat)
  /-- PLACEMENT_PASS (R189): The stage manager places ready launches' teams on cores. -/
  | placementPass
  /-- TEAM_START (R188): A placed team's warps start with zeroed resources. -/
  | teamStart (tid : Nat)
  /-- TEAM_RETIRE (R190): A team whose warps, copies, banks and stores are done frees its resources. -/
  | teamRetire (tid : Nat)
  /-- HOLD_COMPLETE (R383): Once every path has stopped and outstanding work drained, the hold completes. -/
  | holdComplete (tid : Nat)
  /-- EVENT_RECORD_WRITE (R387): An event record is written to the prompt ring when room exists. -/
  | eventRecordWrite (ctx : Nat)
  /-- TEAM_HOLD (R390): TEAMCTL OP 0 holds the team with no faulting path. -/
  | teamHold (core slot : Nat)
  /-- TEAM_RESUME (R391): TEAMCTL OP 1 resumes a held team, re-executing faulting instructions. -/
  | teamResume (core slot : Nat)
  /-- TEAM_RESUME_PAST (R391): TEAMCTL OP 2 resumes a held team, skipping faulting instructions. -/
  | teamResumePast (core slot : Nat)
  /-- TEAM_LAUNCH_STRIKE (R399): TEAMCTL OP 3 strikes the team's launch. -/
  | teamLaunchStrike (core slot : Nat)
  /-- NEWHW (R390): TEAMCTL NEWHW sets a held warp's private high-water mark. -/
  | newhw (core slot warp phw : Nat)
  /-- PROMPT_REPLY (R394): PREPLY GO delivers PRVAL to a pending prompt or sets MISS. -/
  | promptReply (ctx tag : Nat)
  /-- PRING_WRITE (R386): A write to PRING takes effect only when the ring is drained and the value valid. -/
  | pringWrite (ctx : Nat) (v : BitVec 64)
  /-- PCONS_WRITE (R386): A write to PCONS advances it up to PPROD or is ignored. -/
  | pconsWrite (ctx : Nat) (v : BitVec 32)
  /-- CONTEXT_PREEMPT (R396): RUNCTL OP 1 stops placement for the context and starts the drain timer. -/
  | contextPreempt (ctx : Nat)
  /-- CONTEXT_RESUME (R394): RUNCTL OP 2 clears STOPPED and resumes asserted teams. -/
  | contextResume (ctx : Nat)
  /-- CONTEXT_STRIKE (R398): RUNCTL OP 3 strikes every team and launch of the context. -/
  | contextStrike (ctx : Nat)
  /-- DEADLINE_EXPIRY (R397): The drain deadline passes and the context is struck with cause 2. -/
  | deadlineExpiry (ctx : Nat)
  /-- STRIKE_COMPLETE (R398): A strike's copies and banks stop, resources free, and the KIND 7 record is written. -/
  | strikeComplete (n : Nat)
  /-- LAUNCH_STRIKE (R399): LSGO strikes one launch of the context. -/
  | launchStrike (ctx : Nat)
  /-- INVALIDATE_PAGE (R210): A CXINV write with ISCOPE 0 starts invalidation of one 64 KiB page. -/
  | invalidatePage (ctx : Nat) (iva : BitVec 40)
  /-- INVALIDATE_LARGE_PAGE (R210): A CXINV write with ISCOPE 1 starts invalidation of one 2 MiB page. -/
  | invalidateLargePage (ctx : Nat) (iva : BitVec 40)
  /-- INVALIDATE_CONTEXT (R210): A CXINV write with ISCOPE 2 starts invalidation of the whole context. -/
  | invalidateContext (ctx : Nat) (iva : BitVec 40)
  /-- INVALIDATION_COMPLETE (R210): An invalidation finishes and IBUSY returns to 0. -/
  | invalidationComplete (ctx : Nat)
  /-- CONTEXT_REGISTER_WRITE (R209): A write to CXROOT, CXPRIV, CXPHW or CXREP, ignored while the context is in use. -/
  | contextRegisterWrite (ctx : Nat) (reg : BitVec 2) (v : BitVec 64)
  /-- MEMSPLIT_WRITE (R204): A write to MEMSPLIT sets IPOOL unless ignored. -/
  | memsplitWrite (v : BitVec 64)
  /-- TARENA_WRITE (R274): A write to TARENA sets SLABS unless ignored. -/
  | tarenaWrite (hub : Nat) (v : BitVec 64)
  /-- CUEREL_GO (R283): CUEREL GO applies UNHANG to the context's hung handles in HMASK. -/
  | cuerelGo (v : BitVec 64)
  /-- SEMAPHORE_READ (R418): A read of SEMn takes a free semaphore for the reader and reports ownership. -/
  | semaphoreRead (agent : BitVec 2) (sem : BitVec 5)
  /-- SEMAPHORE_WRITE (R418): A write by the owner frees the semaphore; others are ignored. -/
  | semaphoreWrite (agent : BitVec 2) (sem : BitVec 5)
  /-- SEMAPHORE_BREAK (R418): A write with BREAK frees the semaphore whoever owns it. -/
  | semaphoreBreak (sem : BitVec 5)
  /-- PEERWIN_WRITE (R419): A write to PEERWINp configures a peer window unless invalid. -/
  | peerwinWrite (p : BitVec 3) (v : BitVec 64)
  /-- POLICY_WRITE (R425): A write to the POLICY staging area clears ARMED. -/
  | policyWrite (off : Nat) (v : BitVec 32)
  /-- POLICY_ARM (R425): ARM verifies the staged policy and arms it for reset or sets BAD. -/
  | policyArm
  /-- ATTESTATION_GO (R428): GO starts building a signed attestation report. -/
  | attestationGo
  /-- REPORT_COMPLETE (R428): The attestation report is complete and BUSY clears. -/
  | reportComplete
  /-- REGISTER_WRITE (R415): A write to a register with no behaviour of its own. -/
  | registerWrite (agent : BitVec 2) (off : BitVec 22) (wide : Bool) (v : BitVec 64)
  /-- HOST_CXL_MEM_REQUEST (R413): A host CXL.mem request enters at the port's hub and is forwarded to the line's hub. -/
  | hostCxlMemRequest (port : Bool) (off len : Nat) (data : Option Nat)
  /-- HOST_SNOOP (R413): The port hub answers a host snoop by recalling the line from every die. -/
  | hostSnoop (port : Bool) (line : Nat) (data : Option Nat)
  /-- LINK_DOWN (R417): A port link goes down and its regions, lines and semaphores are dropped. -/
  | linkDown (port : Bool)
  /-- LINK_UP (R417): A port link trains and is re-enumerated by the host. -/
  | linkUp (port f256 : Bool) (lanes : BitVec 5)
  /-- MODULE_RESET (R431): Module reset verifies firmware, applies a policy, resets registers and trains ports. -/
  | moduleReset
  /-- GUARD_BAND_STEP (R422): At each 1 ms a core short of margin raises GBAND and may set WORN. -/
  | guardBandStep (core : Nat) (margin : BitVec 10)
  /-- EOLH_REFRESH (R422): Firmware refreshes the end-of-life estimate every hour. -/
  | eolhRefresh (core : Nat) (v : BitVec 32)
  /-- THROTTLE (R430): A die near its power or temperature limit has arbitration points withheld. -/
  | throttle (die : Nat) (power : BitVec 16) (temp : BitVec 8) (watts : BitVec 16)
  /-- INSTRUCTION_FETCH_FAULT (R390): A path's fetch of the next instruction word fails translation, and a translation fault is raised with the instruction unknown. -/
  | instructionFetchFault (cause : Nat) (va : BitVec 64)
  /-- MONITOR_LOST (R271): The hardware loses an armed monitor for any reason, which fires it and gives MONWAIT a spurious wake. -/
  | monitorLost (w lane : Nat)
  /-- PEER_MODULE_REQUEST (R420): A peer module's CXL.io memory request, AtomicOp or Maelzal vendor-defined message arrives and is executed as a host access. -/
  | peerModuleRequest (a : PortAddr) (len : Nat) (kind : BitVec 2) (op ty : BitVec 3) (v cmp : BitVec 64)
deriving DecidableEq, Repr

end Sys2Proof
end

