-- ==== Sys2Proof/WellFormed.lean ====
section
/-! DEFINITION. Which instruction terms are legal encodings: the use of the prefix fields (02 R51, R52), latch codes in
destination fields (R45), and the codes an instruction's description does not list (R60). An event is well formed when
its numbers name agents the module has. -/

namespace Sys2Proof

/-- The prefix an instruction carries (R50), for the prefixable instructions (R52). -/
def Instr.pfx? : Instr → Option Pfx
  | .iadd _ _ p _ _ _ => p
  | .isub _ _ p _ _ _ => p
  | .imul _ _ p _ _ _ => p
  | .imulhs _ _ p _ _ _ => p
  | .imulhz _ _ p _ _ _ => p
  | .imad _ _ p _ _ _ => p
  | .imadw _ _ p _ _ _ => p
  | .imin _ _ p _ _ _ => p
  | .imax _ _ p _ _ _ => p
  | .iminz _ _ p _ _ _ => p
  | .imaxz _ _ p _ _ _ => p
  | .iabs _ _ p _ _ => p
  | .ineg _ _ p _ _ => p
  | .add64 _ _ p _ _ _ => p
  | .sub64 _ _ p _ _ _ => p
  | .lea _ _ p _ _ _ => p
  | .iaddi _ _ p _ _ _ => p
  | .and _ _ p _ _ _ => p
  | .or _ _ p _ _ _ => p
  | .xor _ _ p _ _ _ => p
  | .andn _ _ p _ _ _ => p
  | .not _ _ p _ _ => p
  | .andi _ _ p _ _ _ => p
  | .ori _ _ p _ _ _ => p
  | .xori _ _ p _ _ _ => p
  | .mov _ _ p _ _ _ => p
  | .shl _ _ p _ _ _ => p
  | .shr _ _ p _ _ _ => p
  | .sar _ _ p _ _ _ => p
  | .rol _ _ p _ _ _ => p
  | .shli _ _ p _ _ _ => p
  | .shri _ _ p _ _ _ => p
  | .sari _ _ p _ _ _ => p
  | .bfx _ _ p _ _ _ => p
  | .bfxs _ _ p _ _ _ => p
  | .bfi _ _ p _ _ _ => p
  | .popc _ _ p _ _ => p
  | .clz _ _ p _ _ => p
  | .brev _ _ p _ _ => p
  | .iset _ p _ _ _ _ _ => p
  | .isetz _ p _ _ _ _ _ => p
  | .fset _ p _ _ _ _ => p
  | .fclass _ _ p _ _ _ => p
  | .fadd _ _ p _ _ _ => p
  | .fsub _ _ p _ _ _ => p
  | .fmul _ _ p _ _ _ => p
  | .ffma _ _ p _ _ _ => p
  | .fmin _ _ p _ _ _ => p
  | .fmax _ _ p _ _ _ => p
  | .fabs _ _ p _ _ => p
  | .fneg _ _ p _ _ => p
  | .frnd _ _ p _ _ => p
  | .fscl _ _ p _ _ _ => p
  | .fexp _ _ p _ _ => p
  | .hadd2 _ _ p _ _ _ => p
  | .hmul2 _ _ p _ _ _ => p
  | .hfma2 _ _ p _ _ _ => p
  | .hmin2 _ _ p _ _ _ => p
  | .hmax2 _ _ p _ _ _ => p
  | .hdot2 _ _ p _ _ _ => p
  | .badd2 _ _ p _ _ _ => p
  | .bmul2 _ _ p _ _ _ => p
  | .bfma2 _ _ p _ _ _ => p
  | .bmin2 _ _ p _ _ _ => p
  | .bmax2 _ _ p _ _ _ => p
  | .bdot2 _ _ p _ _ _ => p
  | .rcp _ _ p _ _ => p
  | .rsq _ _ p _ _ => p
  | .sqrt _ _ p _ _ => p
  | .exp2 _ _ p _ _ => p
  | .log2 _ _ p _ _ => p
  | .sin _ _ p _ _ => p
  | .cos _ _ p _ _ => p
  | .tanh _ _ p _ _ => p
  | .cvt _ _ p _ _ _ _ _ => p
  | .cvtr _ _ p _ _ _ _ _ => p
  | .mxsc _ _ p _ _ _ _ => p
  | .mxq _ _ p _ _ _ _ _ => p
  | .mxqr _ _ p _ _ _ _ _ => p
  | .mxdq _ _ p _ _ _ _ _ => p
  | .smxacc _ _ p _ _ _ => p
  | .smxfin _ _ p _ _ _ => p
  | _ => none

/-- The instruction uses the fourth operand c of its prefix. -/
def Instr.usesC : Instr → Bool
  | .imad _ _ _ _ _ _ => true
  | .imadw _ _ _ _ _ _ => true
  | .bfi _ _ _ _ _ _ => true
  | .ffma _ _ _ _ _ _ => true
  | .hfma2 _ _ _ _ _ _ => true
  | .hdot2 _ _ _ _ _ _ => true
  | .bfma2 _ _ _ _ _ _ => true
  | .bdot2 _ _ _ _ _ _ => true
  | .mxq _ _ _ _ _ _ _ _ => true
  | .mxqr _ _ _ _ _ _ _ _ => true
  | .mxdq _ _ _ _ _ _ _ _ => true
  | _ => false

/-- The instruction uses the rounding mode of its prefix. -/
def Instr.usesRm : Instr → Bool
  | .fadd _ _ _ _ _ _ => true
  | .fsub _ _ _ _ _ _ => true
  | .fmul _ _ _ _ _ _ => true
  | .ffma _ _ _ _ _ _ => true
  | .frnd _ _ _ _ _ => true
  | .fscl _ _ _ _ _ _ => true
  | .hadd2 _ _ _ _ _ _ => true
  | .hmul2 _ _ _ _ _ _ => true
  | .hfma2 _ _ _ _ _ _ => true
  | .hdot2 _ _ _ _ _ _ => true
  | .badd2 _ _ _ _ _ _ => true
  | .bmul2 _ _ _ _ _ _ => true
  | .bfma2 _ _ _ _ _ _ => true
  | .bdot2 _ _ _ _ _ _ => true
  | .rcp _ _ _ _ _ => true
  | .rsq _ _ _ _ _ => true
  | .sqrt _ _ _ _ _ => true
  | .cvt _ _ _ _ _ _ _ _ => true
  | .cvtr _ _ _ _ _ _ _ _ => true
  | .mxq _ _ _ _ _ _ _ _ => true
  | .mxqr _ _ _ _ _ _ _ _ => true
  | .mxdq _ _ _ _ _ _ _ _ => true
  | .smxfin _ _ _ _ _ _ => true
  | _ => false

/-- The instruction uses the saturate bit of its prefix (R26, R74, R101, R105, R107, R110, R118, R121). -/
def Instr.usesSat : Instr → Bool
  | .iadd _ _ _ _ _ _ => true
  | .isub _ _ _ _ _ _ => true
  | .imul _ _ _ _ _ _ => true
  | .imad _ _ _ _ _ _ => true
  | .imadw _ _ _ _ _ _ => true
  | .iabs _ _ _ _ _ => true
  | .ineg _ _ _ _ _ => true
  | .add64 _ _ _ _ _ _ => true
  | .sub64 _ _ _ _ _ _ => true
  | .iaddi _ _ _ _ _ _ => true
  | .fadd _ _ _ _ _ _ => true
  | .fsub _ _ _ _ _ _ => true
  | .fmul _ _ _ _ _ _ => true
  | .ffma _ _ _ _ _ _ => true
  | .fscl _ _ _ _ _ _ => true
  | .hadd2 _ _ _ _ _ _ => true
  | .hmul2 _ _ _ _ _ _ => true
  | .hfma2 _ _ _ _ _ _ => true
  | .hdot2 _ _ _ _ _ _ => true
  | .badd2 _ _ _ _ _ _ => true
  | .bmul2 _ _ _ _ _ _ => true
  | .bfma2 _ _ _ _ _ _ => true
  | .bdot2 _ _ _ _ _ _ => true
  | .rcp _ _ _ _ _ => true
  | .rsq _ _ _ _ _ => true
  | .sqrt _ _ _ _ _ => true
  | .exp2 _ _ _ _ _ => true
  | .cvt _ _ _ _ _ _ _ _ => true
  | .cvtr _ _ _ _ _ _ _ _ => true
  | .mxdq _ _ _ _ _ _ _ _ => true
  | .smxfin _ _ _ _ _ _ => true
  | _ => false

/-- The register code in a destination field d, where the instruction has one (R45); MASH and COPY reject a latch code
in d too (R316, R331). -/
def Instr.dest? : Instr → Option (BitVec 7)
  | .iadd _ _ _ d _ _ => some d
  | .isub _ _ _ d _ _ => some d
  | .imul _ _ _ d _ _ => some d
  | .imulhs _ _ _ d _ _ => some d
  | .imulhz _ _ _ d _ _ => some d
  | .imad _ _ _ d _ _ => some d
  | .imadw _ _ _ d _ _ => some d
  | .imin _ _ _ d _ _ => some d
  | .imax _ _ _ d _ _ => some d
  | .iminz _ _ _ d _ _ => some d
  | .imaxz _ _ _ d _ _ => some d
  | .iabs _ _ _ d _ => some d
  | .ineg _ _ _ d _ => some d
  | .add64 _ _ _ d _ _ => some d
  | .sub64 _ _ _ d _ _ => some d
  | .lea _ _ _ d _ _ => some d
  | .iaddi _ _ _ d _ _ => some d
  | .and _ _ _ d _ _ => some d
  | .or _ _ _ d _ _ => some d
  | .xor _ _ _ d _ _ => some d
  | .andn _ _ _ d _ _ => some d
  | .not _ _ _ d _ => some d
  | .andi _ _ _ d _ _ => some d
  | .ori _ _ _ d _ _ => some d
  | .xori _ _ _ d _ _ => some d
  | .mov _ _ _ d _ _ => some d
  | .movk _ _ d _ => some d
  | .movkLiteral _ _ d _ => some d
  | .movs _ _ d _ => some d
  | .shl _ _ _ d _ _ => some d
  | .shr _ _ _ d _ _ => some d
  | .sar _ _ _ d _ _ => some d
  | .rol _ _ _ d _ _ => some d
  | .shli _ _ _ d _ _ => some d
  | .shri _ _ _ d _ _ => some d
  | .sari _ _ _ d _ _ => some d
  | .bfx _ _ _ d _ _ => some d
  | .bfxs _ _ _ d _ _ => some d
  | .bfi _ _ _ d _ _ => some d
  | .popc _ _ _ d _ => some d
  | .clz _ _ _ d _ => some d
  | .brev _ _ _ d _ => some d
  | .sel _ _ _ d _ _ => some d
  | .fclass _ _ _ d _ _ => some d
  | .fadd _ _ _ d _ _ => some d
  | .fsub _ _ _ d _ _ => some d
  | .fmul _ _ _ d _ _ => some d
  | .ffma _ _ _ d _ _ => some d
  | .fmin _ _ _ d _ _ => some d
  | .fmax _ _ _ d _ _ => some d
  | .fabs _ _ _ d _ => some d
  | .fneg _ _ _ d _ => some d
  | .frnd _ _ _ d _ => some d
  | .fscl _ _ _ d _ _ => some d
  | .fexp _ _ _ d _ => some d
  | .hadd2 _ _ _ d _ _ => some d
  | .hmul2 _ _ _ d _ _ => some d
  | .hfma2 _ _ _ d _ _ => some d
  | .hmin2 _ _ _ d _ _ => some d
  | .hmax2 _ _ _ d _ _ => some d
  | .hdot2 _ _ _ d _ _ => some d
  | .badd2 _ _ _ d _ _ => some d
  | .bmul2 _ _ _ d _ _ => some d
  | .bfma2 _ _ _ d _ _ => some d
  | .bmin2 _ _ _ d _ _ => some d
  | .bmax2 _ _ _ d _ _ => some d
  | .bdot2 _ _ _ d _ _ => some d
  | .rcp _ _ _ d _ => some d
  | .rsq _ _ _ d _ => some d
  | .sqrt _ _ _ d _ => some d
  | .exp2 _ _ _ d _ => some d
  | .log2 _ _ _ d _ => some d
  | .sin _ _ _ d _ => some d
  | .cos _ _ _ d _ => some d
  | .tanh _ _ _ d _ => some d
  | .cvt _ _ _ d _ _ _ _ => some d
  | .cvtr _ _ _ d _ _ _ _ => some d
  | .rsdrd _ _ d _ => some d
  | .mxsc _ _ _ d _ _ _ => some d
  | .mxq _ _ _ d _ _ _ _ => some d
  | .mxqr _ _ _ d _ _ _ _ => some d
  | .mxdq _ _ _ d _ _ _ _ => some d
  | .smxacc _ _ _ d _ _ => some d
  | .smxfin _ _ _ d _ _ => some d
  | .vote _ _ d _ _ => some d
  | .shfl _ _ d _ _ => some d
  | .redux _ _ d _ _ _ => some d
  | .scan _ _ d _ _ _ _ => some d
  | .matchKeys _ _ d _ _ => some d
  | .compact _ _ d _ _ => some d
  | .bcast _ _ d _ _ => some d
  | .ldg _ d _ _ _ => some d
  | .ldgs _ d _ _ _ => some d
  | .lds _ d _ _ _ => some d
  | .ldss _ d _ _ _ => some d
  | .ldp _ d _ _ _ => some d
  | .ldps _ d _ _ _ => some d
  | .lda _ d _ _ _ _ => some d
  | .fchk _ _ d _ _ _ => some d
  | .atom _ d _ _ _ _ _ _ _ _ _ => some d
  | .monwait _ d _ _ => some d
  | .cue _ d _ _ _ => some d
  | .copy _ d _ _ _ _ _ _ _ _ _ => some d
  | .cast _ d _ _ _ _ _ => some d
  | .castrd _ _ d _ => some d
  | .mash _ d _ _ _ _ _ _ _ _ _ => some d
  | .colrd _ d _ => some d
  | .mstat _ _ d _ _ => some d
  | _ => none

/-- A prefix is legal in front of the instruction (R51). -/
def Instr.pfxOk (i : Instr) : Bool :=
  match i.pfx? with
  | none => true
  | some p => decide (p.rm.toNat < 5) && (i.usesC || decide (p.c = 0)) && (i.usesRm || decide (p.rm = 0)) &&
      (i.usesSat || !p.sat)

/-- A destination field holds no latch code (R45). -/
def Instr.destOk (i : Instr) : Bool :=
  match i.dest? with
  | none => true
  | some d => decide (d.toNat < 124)

/-- The saturate bit of an optional prefix. -/
def pfxSat : Option Pfx → Bool
  | none => false
  | some p => p.sat

/-- Opcodes assigned in the lane grid, the hint codes and PFX among them (R63). -/
def laneAssigned (op : Nat) : Bool :=
  decide (op ≤ 0x1B) || (decide (0x20 ≤ op) && decide (op ≤ 0x2C)) || (decide (0x30 ≤ op) && decide (op ≤ 0x34)) ||
  (decide (0x40 ≤ op) && decide (op ≤ 0x4A)) || (decide (0x50 ≤ op) && decide (op ≤ 0x5B)) ||
  (decide (0x60 ≤ op) && decide (op ≤ 0x6B)) || (decide (0x70 ≤ op) && decide (op ≤ 0x75)) ||
  (decide (0x80 ≤ op) && decide (op ≤ 0x8B)) || (decide (0x90 ≤ op) && decide (op ≤ 0x97)) ||
  (decide (0xA0 ≤ op) && decide (op ≤ 0xA8)) || (decide (0xB0 ≤ op) && decide (op ≤ 0xB9)) ||
  (decide (0xC0 ≤ op) && decide (op ≤ 0xC6)) || (decide (0xD0 ≤ op) && decide (op ≤ 0xD4)) ||
  (decide (0xE0 ≤ op) && decide (op ≤ 0xE2)) || decide (0xF0 ≤ op)

/-- Opcodes assigned in the uniform grid (R64). -/
def uniAssigned (op : Nat) : Bool :=
  decide (op ≤ 0x17) || (decide (0x20 ≤ op) && decide (op ≤ 0x24)) || (decide (0x30 ≤ op) && decide (op ≤ 0x34)) ||
  (decide (0x40 ≤ op) && decide (op ≤ 0x49))

/-- The opcode of a first word is assigned (R60, R63, R64). -/
def wordAssigned (w : Nat) : Bool :=
  if w < 2 ^ 31 then laneAssigned (w / 2 ^ 21 % 256) else uniAssigned (w / 2 ^ 22 % 128)

/-- The codes of an instruction's fields are ones its description lists (R60), and an event's numbers name agents of
the module. -/
def Instr.fieldsOk : Instr → Bool
  | .movk _ _ _ i => decide (i ≠ 0x2000)
  | .movs _ _ _ i => decide (i.toNat ≤ 10)
  | .iset _ _ _ c _ _ _ => decide (c.toNat ≤ 5)
  | .isetz _ _ _ c _ _ _ => decide (c.toNat ≤ 5)
  | .fset _ _ c _ _ _ => decide (c.toNat ≤ 13)
  | .fclass _ _ _ _ _ t => decide (t.toNat ≤ 4)
  | .cvt _ _ p _ _ r s t => decide (t.toNat ≤ 11) && (!s || (!r && decide (t = 10) && !pfxSat p))
  | .cvtr _ _ p _ _ _ s f => !s || (decide (f = 2) && !pfxSat p)
  | .mxsc _ _ _ _ _ f _ => decide (f ≠ 3)
  | .mxq _ _ _ _ _ f _ s => decide (f ≠ 3) && (decide (f = 2) || decide (s.toNat ≤ 3))
  | .mxqr _ _ _ _ _ f _ _ => decide (f ≠ 3)
  | .mxdq _ _ _ _ _ f _ s => decide (f ≠ 3) && (decide (f = 2) || decide (s.toNat ≤ 3))
  | .redux _ _ _ _ o f => !f || decide (o.toNat ≤ 2)
  | .scan _ _ _ _ o f _ => !f || decide (o.toNat ≤ 2)
  | .matchKeys _ _ _ _ k => decide (k ≠ 3)
  | .lda _ _ _ s r z => decide (z ≠ 3) && decide (s ≠ 7) && (!r || decide (4 ≤ s.toNat))
  | .pref _ h _ _ _ => decide (h.toNat ≤ 1)
  | .strel _ _ _ s z => decide (z ≠ 3) && decide (s ≠ 7)
  | .atom _ d _ _ op ty _ sc sp noret c =>
      decide (op.toNat ≤ 7) && decide (ty.toNat ≤ 4) && (decide (ty ≠ 4) || decide (op.toNat ≤ 2)) && decide (sc ≠ 7) &&
      decide (sp ≠ 3) && (!noret || decide (d = 0)) && (decide (op = 7) || decide (c = 0))
  | .monarm _ _ _ _ z => decide (z ≠ 3)
  | .monwait _ _ f t => !f || decide (t = 0)
  | .fence _ _ s => decide (s ≠ 7)
  | .copy _ _ _ _ opt dir rv q sreg _ slreg =>
      decide (opt.toNat ≤ 4) && decide (dir ≠ 3) && (rv || (decide (q = 0) && decide (slreg = 0))) &&
      ((decide (opt = 2) && decide (dir = 0)) || decide (sreg = 0)) && decide (sreg.toNat < 124) && decide (slreg.toNat < 124)
  | .mash _ _ _ _ _ fa fw _ _ _ bmask => decide (fa ≠ 3) && decide (fw ≠ 3) && decide (bmask ≠ 0)
  | .colclr _ _ l r => !l || decide (r = 0)
  | .trap _ c => decide (c.toNat < 128)
  | .hint _ _ h _ => decide (h ≠ 15)
  | .gmovk _ _ i => decide (i ≠ 0x8000)
  | .gset _ _ _ _ c => decide (c.toNat ≤ 9)
  | .kmov _ d a f => (decide (f = 0) && decide (d.toNat < 8) && decide (a.toNat < 8)) ||
      (decide (f = 1) && decide (d.toNat < 8)) || (decide (f = 2) && decide (a.toNat < 8))
  | .gcall o => !(decide (0x200000 ≤ o.toNat) && decide (o.toNat ≤ 0x20003F))
  | .sread _ _ i => decide (i.toNat ≤ 10)
  | .sceneStart core wing => decide (core < 512) && decide (wing < 4)
  | .yieldWake w lane => decide (w < 512 * 48) && decide (lane < 64)
  | .monwaitTimeout w lane => decide (w < 512 * 48) && decide (lane < 64)
  | .emptyLineRelease w => decide (w < 512 * 48)
  | .bankQueueEntry w => decide (w < 512 * 48)
  | .colrdRead w => decide (w < 512 * 48)
  | .bankSwitch w => decide (w < 512 * 48)
  | .copyIssue w => decide (w < 512 * 48)
  | .monitorLost w lane => decide (w < 512 * 48) && decide (lane < 64)
  | .hangFinish ctx h => decide (ctx < 64) && decide (h < 16)
  | .unhangFinish ctx h => decide (ctx < 64) && decide (h < 16)
  | .kStep core bk => decide (core < 512) && decide (bk < 32)
  | .rackExecute core bk => decide (core < 512) && decide (bk < 32)
  | .colclrExecute core bk => decide (core < 512) && decide (bk < 32)
  | .steepExecute core bk => decide (core < 512) && decide (bk < 32)
  | .copyResume core slot => decide (core < 512) && decide (slot < 16)
  | .castCommandStart core => decide (core < 512)
  | .castCommandStop core => decide (core < 512)
  | .launchWindowGo port win => decide (port < 2) && decide (win < 64)
  | .eventRecordWrite ctx => decide (ctx < 64)
  | .teamHold core slot => decide (core < 512) && decide (slot < 16)
  | .teamResume core slot => decide (core < 512) && decide (slot < 16)
  | .teamResumePast core slot => decide (core < 512) && decide (slot < 16)
  | .teamLaunchStrike core slot => decide (core < 512) && decide (slot < 16)
  | .newhw core slot _ _ => decide (core < 512) && decide (slot < 16)
  | .promptReply ctx tag => decide (ctx < 64) && decide (tag < 65536)
  | .pringWrite ctx _ => decide (ctx < 64)
  | .pconsWrite ctx _ => decide (ctx < 64)
  | .contextPreempt ctx => decide (ctx < 64)
  | .contextResume ctx => decide (ctx < 64)
  | .contextStrike ctx => decide (ctx < 64)
  | .deadlineExpiry ctx => decide (ctx < 64)
  | .launchStrike ctx => decide (ctx < 64)
  | .invalidatePage ctx _ => decide (ctx < 64)
  | .invalidateLargePage ctx _ => decide (ctx < 64)
  | .invalidateContext ctx _ => decide (ctx < 64)
  | .invalidationComplete ctx => decide (ctx < 64)
  | .contextRegisterWrite ctx _ _ => decide (ctx < 64)
  | .tarenaWrite hub _ => decide (hub < 8)
  | .policyWrite off _ => decide (off < 448) && decide (off % 4 = 0)
  | .guardBandStep core _ => decide (core < 512)
  | .eolhRefresh core _ => decide (core < 512)
  | .throttle die _ _ _ => decide (die < 16)
  | .unassignedOpcode w => !wordAssigned w.toNat
  | .instructionFetchFault cause _ => decide (1 ≤ cause) && decide (cause ≤ 7)
  | _ => true

/-- A well-formed instruction term: a legal encoding, or an event of agents the module has. -/
def Instr.wf (i : Instr) : Bool := i.pfxOk && i.destOk && i.fieldsOk

end Sys2Proof
end

