-- ==== Sys2Proof/Decode.lean ====
section
/-! DEFINITION. The decoder and the encoder (02 R41 to R65). A word is a number below 2^32. The decoder reads the fields
the opcode's format gives, and accepts the words only when they are exactly the encoding of the instruction read, so a
nonzero reserved field, a missing scene-end bit or a misplaced prefix is refused. -/

namespace Sys2Proof

/-- The field of length `len` at bit `lo` of a word. -/
def fld (w lo len : Nat) : BitVec len := BitVec.ofNat len (w / 2 ^ lo)

/-- Bit `lo` of a word. -/
def bit (w lo : Nat) : Bool := decide (w / 2 ^ lo % 2 = 1)

/-- The fields of a PFX word (R50). -/
def pfxOf (w : Nat) : Pfx := ⟨fld w 14 7, fld w 11 3, bit w 10, fld w 7 3, bit w 6⟩

/-- The PFX word of a prefix (R50). -/
def pfxWord (p : Pfx) : Nat :=
  0x1FE00000 + p.c.toNat * 2 ^ 14 + p.k.toNat * 2 ^ 11 + p.z.toNat * 2 ^ 10 + p.rm.toNat * 2 ^ 7 + p.sat.toNat * 2 ^ 6

/-- A word is a PFX word, well formed or not (R50, R63). -/
def isPfxWord (w : Nat) : Bool := decide (w < 2 ^ 31) && decide (w / 2 ^ 21 % 256 = 0xFF)

/-- A first word that is followed by a literal or extension word (R44, R48, R49). -/
def isTwoWord (w : Nat) : Bool :=
  if w < 2 ^ 31 then
    decide (w / 2 ^ 21 % 256 = 0xB4) || decide (w / 2 ^ 21 % 256 = 0xC1) || decide (w / 2 ^ 21 % 256 = 0xC2) ||
    decide (w / 2 ^ 21 % 256 = 0xD0) || (decide (w / 2 ^ 21 % 256 = 0x1A) && decide (w % 2 ^ 14 = 0x2000))
  else decide (w / 2 ^ 22 % 128 = 0x0C) && decide (w % 2 ^ 16 = 0x8000)

/-- The instruction needs the word after `w`: a prefix, or a two-word form. -/
def needsSecond (w : Nat) : Bool := isPfxWord w || isTwoWord w

/-- Lane opcodes 0x00 to 0x0F, by low digit. -/
def lane0 (p : Option Pfx) (w : Nat) : Nat → Option Instr
  | 0 => some (.iadd (bit w 30) (bit w 29) p (fld w 14 7) (fld w 7 7) (fld w 0 7))
  | 1 => some (.isub (bit w 30) (bit w 29) p (fld w 14 7) (fld w 7 7) (fld w 0 7))
  | 2 => some (.imul (bit w 30) (bit w 29) p (fld w 14 7) (fld w 7 7) (fld w 0 7))
  | 3 => some (.imulhs (bit w 30) (bit w 29) p (fld w 14 7) (fld w 7 7) (fld w 0 7))
  | 4 => some (.imulhz (bit w 30) (bit w 29) p (fld w 14 7) (fld w 7 7) (fld w 0 7))
  | 5 => some (.imad (bit w 30) (bit w 29) p (fld w 14 7) (fld w 7 7) (fld w 0 7))
  | 6 => some (.imadw (bit w 30) (bit w 29) p (fld w 14 7) (fld w 7 7) (fld w 0 7))
  | 7 => some (.imin (bit w 30) (bit w 29) p (fld w 14 7) (fld w 7 7) (fld w 0 7))
  | 8 => some (.imax (bit w 30) (bit w 29) p (fld w 14 7) (fld w 7 7) (fld w 0 7))
  | 9 => some (.iminz (bit w 30) (bit w 29) p (fld w 14 7) (fld w 7 7) (fld w 0 7))
  | 10 => some (.imaxz (bit w 30) (bit w 29) p (fld w 14 7) (fld w 7 7) (fld w 0 7))
  | 11 => some (.iabs (bit w 30) (bit w 29) p (fld w 14 7) (fld w 7 7))
  | 12 => some (.ineg (bit w 30) (bit w 29) p (fld w 14 7) (fld w 7 7))
  | 13 => some (.add64 (bit w 30) (bit w 29) p (fld w 14 7) (fld w 7 7) (fld w 0 7))
  | 14 => some (.sub64 (bit w 30) (bit w 29) p (fld w 14 7) (fld w 7 7) (fld w 0 7))
  | 15 => some (.lea (bit w 30) (bit w 29) p (fld w 14 7) (fld w 7 7) (fld w 0 7))
  | _ => none

/-- Lane opcodes 0x10 to 0x1F, by low digit. -/
def lane1 (p : Option Pfx) (w x : Nat) : Nat → Option Instr
  | 0 => some (.iaddi (bit w 30) (bit w 29) p (fld w 14 7) (fld w 7 7) (fld w 0 7))
  | 1 => some (.and (bit w 30) (bit w 29) p (fld w 14 7) (fld w 7 7) (fld w 0 7))
  | 2 => some (.or (bit w 30) (bit w 29) p (fld w 14 7) (fld w 7 7) (fld w 0 7))
  | 3 => some (.xor (bit w 30) (bit w 29) p (fld w 14 7) (fld w 7 7) (fld w 0 7))
  | 4 => some (.andn (bit w 30) (bit w 29) p (fld w 14 7) (fld w 7 7) (fld w 0 7))
  | 5 => some (.not (bit w 30) (bit w 29) p (fld w 14 7) (fld w 7 7))
  | 6 => some (.andi (bit w 30) (bit w 29) p (fld w 14 7) (fld w 7 7) (fld w 0 7))
  | 7 => some (.ori (bit w 30) (bit w 29) p (fld w 14 7) (fld w 7 7) (fld w 0 7))
  | 8 => some (.xori (bit w 30) (bit w 29) p (fld w 14 7) (fld w 7 7) (fld w 0 7))
  | 9 => some (.mov (bit w 30) (bit w 29) p (fld w 14 7) (fld w 7 7) (bit w 0))
  | 10 => some (if fld w 0 14 = (0x2000 : BitVec 14) then .movkLiteral (bit w 30) (bit w 29) (fld w 14 7) (fld x 0 32) else .movk (bit w 30) (bit w 29) (fld w 14 7) (fld w 0 14))
  | 11 => some (.movs (bit w 30) (bit w 29) (fld w 14 7) (fld w 0 7))
  | _ => none

/-- Lane opcodes 0x20 to 0x2F, by low digit. -/
def lane2 (p : Option Pfx) (w : Nat) : Nat → Option Instr
  | 0 => some (.shl (bit w 30) (bit w 29) p (fld w 14 7) (fld w 7 7) (fld w 0 7))
  | 1 => some (.shr (bit w 30) (bit w 29) p (fld w 14 7) (fld w 7 7) (fld w 0 7))
  | 2 => some (.sar (bit w 30) (bit w 29) p (fld w 14 7) (fld w 7 7) (fld w 0 7))
  | 3 => some (.rol (bit w 30) (bit w 29) p (fld w 14 7) (fld w 7 7) (fld w 0 7))
  | 4 => some (.shli (bit w 30) (bit w 29) p (fld w 14 7) (fld w 7 7) (fld w 0 5))
  | 5 => some (.shri (bit w 30) (bit w 29) p (fld w 14 7) (fld w 7 7) (fld w 0 5))
  | 6 => some (.sari (bit w 30) (bit w 29) p (fld w 14 7) (fld w 7 7) (fld w 0 5))
  | 7 => some (.bfx (bit w 30) (bit w 29) p (fld w 14 7) (fld w 7 7) (fld w 0 7))
  | 8 => some (.bfxs (bit w 30) (bit w 29) p (fld w 14 7) (fld w 7 7) (fld w 0 7))
  | 9 => some (.bfi (bit w 30) (bit w 29) p (fld w 14 7) (fld w 7 7) (fld w 0 7))
  | 10 => some (.popc (bit w 30) (bit w 29) p (fld w 14 7) (fld w 7 7))
  | 11 => some (.clz (bit w 30) (bit w 29) p (fld w 14 7) (fld w 7 7))
  | 12 => some (.brev (bit w 30) (bit w 29) p (fld w 14 7) (fld w 7 7))
  | _ => none

/-- Lane opcodes 0x30 to 0x3F, by low digit. -/
def lane3 (p : Option Pfx) (w : Nat) : Nat → Option Instr
  | 0 => some (.iset (bit w 30) p (bit w 20) (fld w 17 3) (fld w 14 3) (fld w 7 7) (fld w 0 7))
  | 1 => some (.isetz (bit w 30) p (bit w 20) (fld w 17 3) (fld w 14 3) (fld w 7 7) (fld w 0 7))
  | 2 => some (.fset (bit w 30) p (fld w 17 4) (fld w 14 3) (fld w 7 7) (fld w 0 7))
  | 3 => p.map fun q => .sel (bit w 30) (bit w 29) q.k (fld w 14 7) (fld w 7 7) (fld w 0 7)
  | 4 => some (.fclass (bit w 30) (bit w 29) p (fld w 14 7) (fld w 7 7) (fld w 0 7))
  | _ => none

/-- Lane opcodes 0x40 to 0x4F, by low digit. -/
def lane4 (p : Option Pfx) (w : Nat) : Nat → Option Instr
  | 0 => some (.fadd (bit w 30) (bit w 29) p (fld w 14 7) (fld w 7 7) (fld w 0 7))
  | 1 => some (.fsub (bit w 30) (bit w 29) p (fld w 14 7) (fld w 7 7) (fld w 0 7))
  | 2 => some (.fmul (bit w 30) (bit w 29) p (fld w 14 7) (fld w 7 7) (fld w 0 7))
  | 3 => some (.ffma (bit w 30) (bit w 29) p (fld w 14 7) (fld w 7 7) (fld w 0 7))
  | 4 => some (.fmin (bit w 30) (bit w 29) p (fld w 14 7) (fld w 7 7) (fld w 0 7))
  | 5 => some (.fmax (bit w 30) (bit w 29) p (fld w 14 7) (fld w 7 7) (fld w 0 7))
  | 6 => some (.fabs (bit w 30) (bit w 29) p (fld w 14 7) (fld w 7 7))
  | 7 => some (.fneg (bit w 30) (bit w 29) p (fld w 14 7) (fld w 7 7))
  | 8 => some (.frnd (bit w 30) (bit w 29) p (fld w 14 7) (fld w 7 7))
  | 9 => some (.fscl (bit w 30) (bit w 29) p (fld w 14 7) (fld w 7 7) (fld w 0 7))
  | 10 => some (.fexp (bit w 30) (bit w 29) p (fld w 14 7) (fld w 7 7))
  | _ => none

/-- Lane opcodes 0x50 to 0x5F, by low digit. -/
def lane5 (p : Option Pfx) (w : Nat) : Nat → Option Instr
  | 0 => some (.hadd2 (bit w 30) (bit w 29) p (fld w 14 7) (fld w 7 7) (fld w 0 7))
  | 1 => some (.hmul2 (bit w 30) (bit w 29) p (fld w 14 7) (fld w 7 7) (fld w 0 7))
  | 2 => some (.hfma2 (bit w 30) (bit w 29) p (fld w 14 7) (fld w 7 7) (fld w 0 7))
  | 3 => some (.hmin2 (bit w 30) (bit w 29) p (fld w 14 7) (fld w 7 7) (fld w 0 7))
  | 4 => some (.hmax2 (bit w 30) (bit w 29) p (fld w 14 7) (fld w 7 7) (fld w 0 7))
  | 5 => some (.hdot2 (bit w 30) (bit w 29) p (fld w 14 7) (fld w 7 7) (fld w 0 7))
  | 6 => some (.badd2 (bit w 30) (bit w 29) p (fld w 14 7) (fld w 7 7) (fld w 0 7))
  | 7 => some (.bmul2 (bit w 30) (bit w 29) p (fld w 14 7) (fld w 7 7) (fld w 0 7))
  | 8 => some (.bfma2 (bit w 30) (bit w 29) p (fld w 14 7) (fld w 7 7) (fld w 0 7))
  | 9 => some (.bmin2 (bit w 30) (bit w 29) p (fld w 14 7) (fld w 7 7) (fld w 0 7))
  | 10 => some (.bmax2 (bit w 30) (bit w 29) p (fld w 14 7) (fld w 7 7) (fld w 0 7))
  | 11 => some (.bdot2 (bit w 30) (bit w 29) p (fld w 14 7) (fld w 7 7) (fld w 0 7))
  | _ => none

/-- Lane opcodes 0x60 to 0x6F, by low digit. -/
def lane6 (p : Option Pfx) (w : Nat) : Nat → Option Instr
  | 0 => some (.rcp (bit w 30) (bit w 29) p (fld w 14 7) (fld w 7 7))
  | 1 => some (.rsq (bit w 30) (bit w 29) p (fld w 14 7) (fld w 7 7))
  | 2 => some (.sqrt (bit w 30) (bit w 29) p (fld w 14 7) (fld w 7 7))
  | 3 => some (.exp2 (bit w 30) (bit w 29) p (fld w 14 7) (fld w 7 7))
  | 4 => some (.log2 (bit w 30) (bit w 29) p (fld w 14 7) (fld w 7 7))
  | 5 => some (.sin (bit w 30) (bit w 29) p (fld w 14 7) (fld w 7 7))
  | 6 => some (.cos (bit w 30) (bit w 29) p (fld w 14 7) (fld w 7 7))
  | 7 => some (.tanh (bit w 30) (bit w 29) p (fld w 14 7) (fld w 7 7))
  | 8 => some (.cvt (bit w 30) (bit w 29) p (fld w 14 7) (fld w 7 7) (bit w 6) (bit w 5) (fld w 0 5))
  | 9 => some (.cvtr (bit w 30) (bit w 29) p (fld w 14 7) (fld w 7 7) (fld w 4 3) (bit w 3) (fld w 0 2))
  | 10 => some (.rsdrd (bit w 30) (bit w 29) (fld w 14 7) (fld w 0 3))
  | 11 => some (.rsdwr (bit w 30) (fld w 7 7) (fld w 0 3))
  | _ => none

/-- Lane opcodes 0x70 to 0x7F, by low digit. -/
def lane7 (p : Option Pfx) (w : Nat) : Nat → Option Instr
  | 0 => some (.mxsc (bit w 30) (bit w 29) p (fld w 14 7) (fld w 7 7) (fld w 5 2) (fld w 3 2))
  | 1 => some (.mxq (bit w 30) (bit w 29) p (fld w 14 7) (fld w 7 7) (fld w 5 2) (fld w 3 2) (fld w 0 3))
  | 2 => some (.mxqr (bit w 30) (bit w 29) p (fld w 14 7) (fld w 7 7) (fld w 5 2) (fld w 3 2) (fld w 0 3))
  | 3 => some (.mxdq (bit w 30) (bit w 29) p (fld w 14 7) (fld w 7 7) (fld w 5 2) (fld w 3 2) (fld w 0 3))
  | 4 => some (.smxacc (bit w 30) (bit w 29) p (fld w 14 7) (fld w 7 7) (fld w 0 7))
  | 5 => some (.smxfin (bit w 30) (bit w 29) p (fld w 14 7) (fld w 7 7) (fld w 0 7))
  | _ => none

/-- Lane opcodes 0x80 to 0x8F, by low digit. -/
def lane8 (w : Nat) : Nat → Option Instr
  | 0 => some (.br (fld w 0 21))
  | 1 => some (.brz (fld w 14 7) (fld w 0 14))
  | 2 => some (.brnz (fld w 14 7) (fld w 0 14))
  | 3 => some (.brx (fld w 7 7))
  | 4 => some (.call (fld w 0 21))
  | 5 => some (.callx (fld w 7 7))
  | 6 => some .ret
  | 7 => some .exit
  | 8 => some (.enrol (bit w 30) (fld w 14 3) (fld w 0 3))
  | 9 => some (.rejoin (fld w 14 3))
  | 10 => some (.strike (bit w 30) (fld w 14 3) (fld w 0 3))
  | 11 => some (.brm (fld w 14 3) (fld w 0 14))
  | _ => none

/-- Lane opcodes 0x90 to 0x9F, by low digit. -/
def lane9 (w : Nat) : Nat → Option Instr
  | 0 => some (.vote (bit w 30) (bit w 29) (fld w 14 7) (fld w 7 7) (fld w 5 2))
  | 1 => some (.shfl (bit w 30) (bit w 29) (fld w 14 7) (fld w 7 7) (fld w 0 7))
  | 2 => some (.redux (bit w 30) (bit w 29) (fld w 14 7) (fld w 7 7) (fld w 4 3) (bit w 3))
  | 3 => some (.scan (bit w 30) (bit w 29) (fld w 14 7) (fld w 7 7) (fld w 4 3) (bit w 3) (bit w 2))
  | 4 => some (.matchKeys (bit w 30) (bit w 29) (fld w 14 7) (fld w 7 7) (fld w 5 2))
  | 5 => some (.compact (bit w 30) (bit w 29) (fld w 14 7) (fld w 7 7) (fld w 0 7))
  | 6 => some (.rdlane (bit w 30) (fld w 14 6) (fld w 7 7) (bit w 6) (fld w 0 6))
  | 7 => some (.bcast (bit w 30) (bit w 29) (fld w 14 7) (fld w 7 6) (bit w 0))
  | _ => none

/-- Lane opcodes 0xA0 to 0xAF, by low digit. -/
def laneA (w : Nat) : Nat → Option Instr
  | 0 => some (.ldg (bit w 30) (fld w 14 7) (fld w 7 7) (fld w 2 5) (fld w 0 2))
  | 1 => some (.ldgs (bit w 30) (fld w 14 7) (fld w 7 7) (fld w 2 5) (bit w 0))
  | 2 => some (.lds (bit w 30) (fld w 14 7) (fld w 7 7) (fld w 2 5) (fld w 0 2))
  | 3 => some (.ldss (bit w 30) (fld w 14 7) (fld w 7 7) (fld w 2 5) (bit w 0))
  | 4 => some (.ldp (bit w 30) (fld w 14 7) (fld w 7 7) (fld w 2 5) (fld w 0 2))
  | 5 => some (.ldps (bit w 30) (fld w 14 7) (fld w 7 7) (fld w 2 5) (bit w 0))
  | 6 => some (.lda (bit w 30) (fld w 14 7) (fld w 7 7) (fld w 4 3) (bit w 3) (fld w 0 2))
  | 7 => some (.pref (bit w 30) (fld w 14 2) (fld w 7 7) (fld w 2 5) (fld w 0 2))
  | 8 => some (.fchk (bit w 30) (bit w 29) (fld w 14 7) (fld w 7 7) (fld w 2 5) (fld w 0 2))
  | _ => none

/-- Lane opcodes 0xB0 to 0xBF, by low digit. -/
def laneB (w x : Nat) : Nat → Option Instr
  | 0 => some (.stg (bit w 30) (fld w 14 7) (fld w 7 7) (fld w 2 5) (fld w 0 2))
  | 1 => some (.sts (bit w 30) (fld w 14 7) (fld w 7 7) (fld w 2 5) (fld w 0 2))
  | 2 => some (.stp (bit w 30) (fld w 14 7) (fld w 7 7) (fld w 2 5) (fld w 0 2))
  | 3 => some (.strel (bit w 30) (fld w 14 7) (fld w 7 7) (fld w 4 3) (fld w 0 2))
  | 4 => some (.atom (bit w 30) (fld w 14 7) (fld w 7 7) (fld w 0 7) (fld x 28 4) (fld x 25 3) (fld x 23 2) (fld x 20 3) (fld x 18 2) (bit x 17) (fld x 10 7))
  | 5 => some (.mcst (bit w 30) (fld w 14 7) (fld w 7 7) (fld w 2 5) (fld w 0 2))
  | 6 => some (.empty (bit w 30) (fld w 7 7) (fld w 2 5) (fld w 0 2))
  | 7 => some (.monarm (bit w 30) (fld w 14 7) (fld w 7 7) (fld w 2 5) (fld w 0 2))
  | 8 => some (.monwait (bit w 29) (fld w 14 7) (bit w 5) (fld w 0 5))
  | 9 => some (.fence (bit w 30) (fld w 3 2) (fld w 0 3))
  | _ => none

/-- Lane opcodes 0xC0 to 0xCF, by low digit. -/
def laneC (w x : Nat) : Nat → Option Instr
  | 0 => some (.cue (bit w 30) (fld w 14 7) (fld w 7 7) (bit w 4) (fld w 0 4))
  | 1 => some (.copy (bit w 30) (fld w 14 7) (fld w 7 7) (fld w 0 7) (fld x 29 3) (fld x 27 2) (bit x 26) (fld x 23 3) (fld x 16 7) (fld x 13 3) (fld x 6 7))
  | 2 => some (.cast (bit w 30) (fld w 14 7) (fld w 7 7) (fld x 30 2) (fld x 28 2) (fld x 25 3) (fld x 19 6))
  | 3 => some (.casti (bit w 30) (fld w 7 7) (fld w 2 2) (fld w 0 2))
  | 4 => some (.castsplit (bit w 30) (fld w 14 2) (fld w 7 7) (fld w 0 7))
  | 5 => some (.castrd (bit w 30) (bit w 29) (fld w 14 7) (fld w 0 2))
  | 6 => some (.castwr (bit w 30) (fld w 7 7) (fld w 0 2))
  | _ => none

/-- Lane opcodes 0xD0 to 0xDF, by low digit. -/
def laneD (w x : Nat) : Nat → Option Instr
  | 0 => some (.mash (bit w 30) (fld w 14 7) (fld w 7 7) (fld w 0 2) (bit x 31) (fld x 29 2) (fld x 27 2) (fld x 23 4) (fld x 18 5) (bit x 17) (fld x 0 16))
  | 1 => some (.rack (bit w 30) (fld w 7 7))
  | 2 => some (.colrd (bit w 30) (fld w 14 7) (fld w 7 7))
  | 3 => some (.colclr (bit w 30) (fld w 7 7) (bit w 4) (fld w 0 4))
  | 4 => some (.mstat (bit w 30) (bit w 29) (fld w 14 7) (bit w 5) (fld w 0 5))
  | _ => none

/-- Lane opcodes 0xE0 to 0xEF, by low digit. -/
def laneE (w : Nat) : Nat → Option Instr
  | 0 => some (.trap (fld w 14 7) (fld w 0 8))
  | 1 => some (.brk (fld w 0 8))
  | 2 => some (.nop (bit w 30))
  | _ => none

/-- Uniform opcodes 0x00 to 0x0F, by low digit. -/
def uni0 (w x : Nat) : Nat → Option Instr
  | 0 => some (.gadd (bit w 30) (fld w 16 6) (fld w 10 6) (fld w 4 6))
  | 1 => some (.gsub (bit w 30) (fld w 16 6) (fld w 10 6) (fld w 4 6))
  | 2 => some (.gmul (bit w 30) (fld w 16 6) (fld w 10 6) (fld w 4 6))
  | 3 => some (.gand (bit w 30) (fld w 16 6) (fld w 10 6) (fld w 4 6))
  | 4 => some (.gor (bit w 30) (fld w 16 6) (fld w 10 6) (fld w 4 6))
  | 5 => some (.gxor (bit w 30) (fld w 16 6) (fld w 10 6) (fld w 4 6))
  | 6 => some (.gshl (bit w 30) (fld w 16 6) (fld w 10 6) (fld w 4 6))
  | 7 => some (.gshr (bit w 30) (fld w 16 6) (fld w 10 6) (fld w 4 6))
  | 8 => some (.gsar (bit w 30) (fld w 16 6) (fld w 10 6) (fld w 4 6))
  | 9 => some (.gmin (bit w 30) (fld w 16 6) (fld w 10 6) (fld w 4 6) (bit w 0))
  | 10 => some (.gmax (bit w 30) (fld w 16 6) (fld w 10 6) (fld w 4 6) (bit w 0))
  | 11 => some (.gaddi (bit w 30) (fld w 16 6) (fld w 10 6) (fld w 0 10))
  | 12 => some (if fld w 0 16 = (0x8000 : BitVec 16) then .gmovkLiteral (bit w 30) (fld w 16 6) (fld x 0 32) else .gmovk (bit w 30) (fld w 16 6) (fld w 0 16))
  | 13 => some (.gmov (bit w 30) (fld w 16 6) (fld w 10 6))
  | 14 => some (.gset (bit w 30) (fld w 16 6) (fld w 10 6) (fld w 4 6) (fld w 0 4))
  | 15 => some (.gsel (bit w 30) (fld w 16 6) (fld w 10 6) (fld w 4 6) (fld w 0 4))
  | _ => none

/-- Uniform opcodes 0x10 to 0x1F, by low digit. -/
def uni1 (w : Nat) : Nat → Option Instr
  | 0 => some (.gld (bit w 30) (fld w 16 6) (fld w 10 6) (fld w 7 2) (fld w 0 7))
  | 1 => some (.glds (bit w 30) (fld w 16 6) (fld w 10 6) (fld w 7 2) (fld w 0 7))
  | 2 => some (.gst (bit w 30) (fld w 16 6) (fld w 10 6) (bit w 9) (fld w 7 2) (fld w 0 7))
  | 3 => some (.kand (bit w 30) (fld w 16 3) (fld w 10 3) (fld w 4 3))
  | 4 => some (.kor (bit w 30) (fld w 16 3) (fld w 10 3) (fld w 4 3))
  | 5 => some (.kxor (bit w 30) (fld w 16 3) (fld w 10 3) (fld w 4 3))
  | 6 => some (.knot (bit w 30) (fld w 16 3) (fld w 10 3))
  | 7 => some (.kmov (bit w 30) (fld w 16 6) (fld w 10 6) (fld w 0 2))
  | _ => none

/-- Uniform opcodes 0x20 to 0x2F, by low digit. -/
def uni2 (w : Nat) : Nat → Option Instr
  | 0 => some (.jmp (fld w 0 22))
  | 1 => some (.jz (fld w 16 6) (fld w 0 16))
  | 2 => some (.jnz (fld w 16 6) (fld w 0 16))
  | 3 => some (if 0x200000 ≤ w % 2 ^ 22 ∧ w % 2 ^ 22 ≤ 0x20003F then .gcallRegister (fld w 0 6) else .gcall (fld w 0 22))
  | 4 => some .yield
  | _ => none

/-- Uniform opcodes 0x30 to 0x3F, by low digit. -/
def uni3 (w : Nat) : Nat → Option Instr
  | 0 => some .bar
  | 1 => some .barg
  | 2 => some (.launch (bit w 30) (fld w 16 6) (fld w 10 6))
  | 3 => some (.sread (bit w 30) (fld w 16 6) (fld w 0 10))
  | 4 => some (.partset (bit w 30) (fld w 0 10))
  | _ => none

/-- Uniform opcodes 0x40 to 0x4F, by low digit. -/
def uni4 (w : Nat) : Nat → Option Instr
  | 0 => some (.rset (bit w 30) (fld w 16 3) (fld w 10 6) (fld w 4 6))
  | 1 => some (.racq (fld w 16 6) (fld w 0 3))
  | 2 => some (.rpub (bit w 30) (fld w 10 6) (fld w 0 3))
  | 3 => some (.rwait (fld w 10 6) (fld w 0 3))
  | 4 => some (.rfree (bit w 30) (fld w 10 6) (fld w 0 3))
  | 5 => some .cwait
  | 6 => some (.bank (bit w 30) (fld w 10 6) (bit w 0))
  | 7 => some (.mwait (fld w 10 6))
  | 8 => some (.hang (bit w 30) (fld w 16 6) (fld w 10 6) (fld w 4 6) (fld w 0 4))
  | 9 => some (.unhang (bit w 30) (fld w 0 4))
  | _ => none

/-- The fields of a lane-set first word `w` under prefix `p`, with the following word `x` (R44, R63, R65). -/
def laneCand (p : Option Pfx) (w x : Nat) : Option Instr :=
  match w / 2 ^ 21 % 256 / 16 with
  | 0x0 => lane0 p w (w / 2 ^ 21 % 16)
  | 0x1 => lane1 p w x (w / 2 ^ 21 % 16)
  | 0x2 => lane2 p w (w / 2 ^ 21 % 16)
  | 0x3 => lane3 p w (w / 2 ^ 21 % 16)
  | 0x4 => lane4 p w (w / 2 ^ 21 % 16)
  | 0x5 => lane5 p w (w / 2 ^ 21 % 16)
  | 0x6 => lane6 p w (w / 2 ^ 21 % 16)
  | 0x7 => lane7 p w (w / 2 ^ 21 % 16)
  | 0x8 => lane8 w (w / 2 ^ 21 % 16)
  | 0x9 => lane9 w (w / 2 ^ 21 % 16)
  | 0xA => laneA w (w / 2 ^ 21 % 16)
  | 0xB => laneB w x (w / 2 ^ 21 % 16)
  | 0xC => laneC w x (w / 2 ^ 21 % 16)
  | 0xD => laneD w x (w / 2 ^ 21 % 16)
  | 0xE => laneE w (w / 2 ^ 21 % 16)
  | 0xF => some (.hint (bit w 30) (bit w 29) (fld w 21 4) (fld w 0 21))
  | _ => none

/-- The fields of a uniform-set first word (R48, R64, R65). -/
def uniCand (w x : Nat) : Option Instr :=
  match w / 2 ^ 22 % 128 / 16 with
  | 0x0 => uni0 w x (w / 2 ^ 22 % 16)
  | 0x1 => uni1 w (w / 2 ^ 22 % 16)
  | 0x2 => uni2 w (w / 2 ^ 22 % 16)
  | 0x3 => uni3 w (w / 2 ^ 22 % 16)
  | 0x4 => uni4 w (w / 2 ^ 22 % 16)
  | _ => none

/-- The instruction whose fields a first word holds, before any check. -/
def cand (p : Option Pfx) (w x : Nat) : Option Instr := if w < 2 ^ 31 then laneCand p w x else uniCand w x

/-- A lane-set first word (R44): opcode, E, N and the fields at bits 14, 7 and 0. -/
def laneWord (op : Nat) (e n : Bool) (d a b : Nat) : Nat :=
  op * 2 ^ 21 + e.toNat * 2 ^ 30 + n.toNat * 2 ^ 29 + d * 2 ^ 14 + a * 2 ^ 7 + b

/-- A uniform-set first word (R48): opcode, E and the fields at bits 16, 10, 4 and 0. -/
def uniWord (op : Nat) (e : Bool) (d a b f : Nat) : Nat :=
  2 ^ 31 + op * 2 ^ 22 + e.toNat * 2 ^ 30 + d * 2 ^ 16 + a * 2 ^ 10 + b * 2 ^ 4 + f

/-- The first word of an instruction; 0 for an event, which has no word. -/
def Instr.word1 : Instr → Nat
  | .iadd e n _ d a b => laneWord 0x00 e n d.toNat a.toNat b.toNat
  | .isub e n _ d a b => laneWord 0x01 e n d.toNat a.toNat b.toNat
  | .imul e n _ d a b => laneWord 0x02 e n d.toNat a.toNat b.toNat
  | .imulhs e n _ d a b => laneWord 0x03 e n d.toNat a.toNat b.toNat
  | .imulhz e n _ d a b => laneWord 0x04 e n d.toNat a.toNat b.toNat
  | .imad e n _ d a b => laneWord 0x05 e n d.toNat a.toNat b.toNat
  | .imadw e n _ d a b => laneWord 0x06 e n d.toNat a.toNat b.toNat
  | .imin e n _ d a b => laneWord 0x07 e n d.toNat a.toNat b.toNat
  | .imax e n _ d a b => laneWord 0x08 e n d.toNat a.toNat b.toNat
  | .iminz e n _ d a b => laneWord 0x09 e n d.toNat a.toNat b.toNat
  | .imaxz e n _ d a b => laneWord 0x0A e n d.toNat a.toNat b.toNat
  | .iabs e n _ d a => laneWord 0x0B e n d.toNat a.toNat 0
  | .ineg e n _ d a => laneWord 0x0C e n d.toNat a.toNat 0
  | .add64 e n _ d a b => laneWord 0x0D e n d.toNat a.toNat b.toNat
  | .sub64 e n _ d a b => laneWord 0x0E e n d.toNat a.toNat b.toNat
  | .lea e n _ d a b => laneWord 0x0F e n d.toNat a.toNat b.toNat
  | .iaddi e n _ d a i => laneWord 0x10 e n d.toNat a.toNat i.toNat
  | .and e n _ d a b => laneWord 0x11 e n d.toNat a.toNat b.toNat
  | .or e n _ d a b => laneWord 0x12 e n d.toNat a.toNat b.toNat
  | .xor e n _ d a b => laneWord 0x13 e n d.toNat a.toNat b.toNat
  | .andn e n _ d a b => laneWord 0x14 e n d.toNat a.toNat b.toNat
  | .not e n _ d a => laneWord 0x15 e n d.toNat a.toNat 0
  | .andi e n _ d a i => laneWord 0x16 e n d.toNat a.toNat i.toNat
  | .ori e n _ d a i => laneWord 0x17 e n d.toNat a.toNat i.toNat
  | .xori e n _ d a i => laneWord 0x18 e n d.toNat a.toNat i.toNat
  | .mov e n _ d a w => laneWord 0x19 e n d.toNat a.toNat w.toNat
  | .movk e n d i => laneWord 0x1A e n d.toNat 0 i.toNat
  | .movkLiteral e n d _ => laneWord 0x1A e n d.toNat 0 0x2000
  | .movs e n d i => laneWord 0x1B e n d.toNat 0 i.toNat
  | .shl e n _ d a b => laneWord 0x20 e n d.toNat a.toNat b.toNat
  | .shr e n _ d a b => laneWord 0x21 e n d.toNat a.toNat b.toNat
  | .sar e n _ d a b => laneWord 0x22 e n d.toNat a.toNat b.toNat
  | .rol e n _ d a b => laneWord 0x23 e n d.toNat a.toNat b.toNat
  | .shli e n _ d a i => laneWord 0x24 e n d.toNat a.toNat i.toNat
  | .shri e n _ d a i => laneWord 0x25 e n d.toNat a.toNat i.toNat
  | .sari e n _ d a i => laneWord 0x26 e n d.toNat a.toNat i.toNat
  | .bfx e n _ d a b => laneWord 0x27 e n d.toNat a.toNat b.toNat
  | .bfxs e n _ d a b => laneWord 0x28 e n d.toNat a.toNat b.toNat
  | .bfi e n _ d a b => laneWord 0x29 e n d.toNat a.toNat b.toNat
  | .popc e n _ d a => laneWord 0x2A e n d.toNat a.toNat 0
  | .clz e n _ d a => laneWord 0x2B e n d.toNat a.toNat 0
  | .brev e n _ d a => laneWord 0x2C e n d.toNat a.toNat 0
  | .iset e _ w c k a b => laneWord 0x30 e false (w.toNat * 2 ^ 6 + c.toNat * 2 ^ 3 + k.toNat) a.toNat b.toNat
  | .isetz e _ w c k a b => laneWord 0x31 e false (w.toNat * 2 ^ 6 + c.toNat * 2 ^ 3 + k.toNat) a.toNat b.toNat
  | .fset e _ c k a b => laneWord 0x32 e false (c.toNat * 2 ^ 3 + k.toNat) a.toNat b.toNat
  | .sel e n _ d a b => laneWord 0x33 e n d.toNat a.toNat b.toNat
  | .fclass e n _ d a t => laneWord 0x34 e n d.toNat a.toNat t.toNat
  | .fadd e n _ d a b => laneWord 0x40 e n d.toNat a.toNat b.toNat
  | .fsub e n _ d a b => laneWord 0x41 e n d.toNat a.toNat b.toNat
  | .fmul e n _ d a b => laneWord 0x42 e n d.toNat a.toNat b.toNat
  | .ffma e n _ d a b => laneWord 0x43 e n d.toNat a.toNat b.toNat
  | .fmin e n _ d a b => laneWord 0x44 e n d.toNat a.toNat b.toNat
  | .fmax e n _ d a b => laneWord 0x45 e n d.toNat a.toNat b.toNat
  | .fabs e n _ d a => laneWord 0x46 e n d.toNat a.toNat 0
  | .fneg e n _ d a => laneWord 0x47 e n d.toNat a.toNat 0
  | .frnd e n _ d a => laneWord 0x48 e n d.toNat a.toNat 0
  | .fscl e n _ d a b => laneWord 0x49 e n d.toNat a.toNat b.toNat
  | .fexp e n _ d a => laneWord 0x4A e n d.toNat a.toNat 0
  | .hadd2 e n _ d a b => laneWord 0x50 e n d.toNat a.toNat b.toNat
  | .hmul2 e n _ d a b => laneWord 0x51 e n d.toNat a.toNat b.toNat
  | .hfma2 e n _ d a b => laneWord 0x52 e n d.toNat a.toNat b.toNat
  | .hmin2 e n _ d a b => laneWord 0x53 e n d.toNat a.toNat b.toNat
  | .hmax2 e n _ d a b => laneWord 0x54 e n d.toNat a.toNat b.toNat
  | .hdot2 e n _ d a b => laneWord 0x55 e n d.toNat a.toNat b.toNat
  | .badd2 e n _ d a b => laneWord 0x56 e n d.toNat a.toNat b.toNat
  | .bmul2 e n _ d a b => laneWord 0x57 e n d.toNat a.toNat b.toNat
  | .bfma2 e n _ d a b => laneWord 0x58 e n d.toNat a.toNat b.toNat
  | .bmin2 e n _ d a b => laneWord 0x59 e n d.toNat a.toNat b.toNat
  | .bmax2 e n _ d a b => laneWord 0x5A e n d.toNat a.toNat b.toNat
  | .bdot2 e n _ d a b => laneWord 0x5B e n d.toNat a.toNat b.toNat
  | .rcp e n _ d a => laneWord 0x60 e n d.toNat a.toNat 0
  | .rsq e n _ d a => laneWord 0x61 e n d.toNat a.toNat 0
  | .sqrt e n _ d a => laneWord 0x62 e n d.toNat a.toNat 0
  | .exp2 e n _ d a => laneWord 0x63 e n d.toNat a.toNat 0
  | .log2 e n _ d a => laneWord 0x64 e n d.toNat a.toNat 0
  | .sin e n _ d a => laneWord 0x65 e n d.toNat a.toNat 0
  | .cos e n _ d a => laneWord 0x66 e n d.toNat a.toNat 0
  | .tanh e n _ d a => laneWord 0x67 e n d.toNat a.toNat 0
  | .cvt e n _ d a r s t => laneWord 0x68 e n d.toNat a.toNat (r.toNat * 2 ^ 6 + s.toNat * 2 ^ 5 + t.toNat)
  | .cvtr e n _ d a i s f => laneWord 0x69 e n d.toNat a.toNat (i.toNat * 2 ^ 4 + s.toNat * 2 ^ 3 + f.toNat)
  | .rsdrd e n d i => laneWord 0x6A e n d.toNat 0 i.toNat
  | .rsdwr e a i => laneWord 0x6B e false 0 a.toNat i.toNat
  | .mxsc e n _ d a f b => laneWord 0x70 e n d.toNat a.toNat (f.toNat * 2 ^ 5 + b.toNat * 2 ^ 3)
  | .mxq e n _ d a f b s => laneWord 0x71 e n d.toNat a.toNat (f.toNat * 2 ^ 5 + b.toNat * 2 ^ 3 + s.toNat)
  | .mxqr e n _ d a f b i => laneWord 0x72 e n d.toNat a.toNat (f.toNat * 2 ^ 5 + b.toNat * 2 ^ 3 + i.toNat)
  | .mxdq e n _ d a f b s => laneWord 0x73 e n d.toNat a.toNat (f.toNat * 2 ^ 5 + b.toNat * 2 ^ 3 + s.toNat)
  | .smxacc e n _ d a b => laneWord 0x74 e n d.toNat a.toNat b.toNat
  | .smxfin e n _ d a b => laneWord 0x75 e n d.toNat a.toNat b.toNat
  | .br o => laneWord 0x80 true false 0 0 o.toNat
  | .brz a o => laneWord 0x81 true false a.toNat 0 o.toNat
  | .brnz a o => laneWord 0x82 true false a.toNat 0 o.toNat
  | .brx a => laneWord 0x83 true false 0 a.toNat 0
  | .call o => laneWord 0x84 true false 0 0 o.toNat
  | .callx a => laneWord 0x85 true false 0 a.toNat 0
  | .ret => laneWord 0x86 true false 0 0 0
  | .exit => laneWord 0x87 true false 0 0 0
  | .enrol e j k => laneWord 0x88 e false j.toNat 0 k.toNat
  | .rejoin j => laneWord 0x89 true false j.toNat 0 0
  | .strike e j k => laneWord 0x8A e false j.toNat 0 k.toNat
  | .brm k o => laneWord 0x8B true false k.toNat 0 o.toNat
  | .vote e n d a m => laneWord 0x90 e n d.toNat a.toNat (m.toNat * 2 ^ 5)
  | .shfl e n d a b => laneWord 0x91 e n d.toNat a.toNat b.toNat
  | .redux e n d a o f => laneWord 0x92 e n d.toNat a.toNat (o.toNat * 2 ^ 4 + f.toNat * 2 ^ 3)
  | .scan e n d a o f x => laneWord 0x93 e n d.toNat a.toNat (o.toNat * 2 ^ 4 + f.toNat * 2 ^ 3 + x.toNat * 2 ^ 2)
  | .matchKeys e n d a k => laneWord 0x94 e n d.toNat a.toNat (k.toNat * 2 ^ 5)
  | .compact e n d a b => laneWord 0x95 e n d.toNat a.toNat b.toNat
  | .rdlane e g a w n => laneWord 0x96 e false g.toNat a.toNat (w.toNat * 2 ^ 6 + n.toNat)
  | .bcast e n d g w => laneWord 0x97 e n d.toNat g.toNat w.toNat
  | .ldg e d a o z => laneWord 0xA0 e false d.toNat a.toNat (o.toNat * 2 ^ 2 + z.toNat)
  | .ldgs e d a o z => laneWord 0xA1 e false d.toNat a.toNat (o.toNat * 2 ^ 2 + z.toNat)
  | .lds e d a o z => laneWord 0xA2 e false d.toNat a.toNat (o.toNat * 2 ^ 2 + z.toNat)
  | .ldss e d a o z => laneWord 0xA3 e false d.toNat a.toNat (o.toNat * 2 ^ 2 + z.toNat)
  | .ldp e d a o z => laneWord 0xA4 e false d.toNat a.toNat (o.toNat * 2 ^ 2 + z.toNat)
  | .ldps e d a o z => laneWord 0xA5 e false d.toNat a.toNat (o.toNat * 2 ^ 2 + z.toNat)
  | .lda e d a s r z => laneWord 0xA6 e false d.toNat a.toNat (s.toNat * 2 ^ 4 + r.toNat * 2 ^ 3 + z.toNat)
  | .pref e h a o z => laneWord 0xA7 e false h.toNat a.toNat (o.toNat * 2 ^ 2 + z.toNat)
  | .fchk e n d a o z => laneWord 0xA8 e n d.toNat a.toNat (o.toNat * 2 ^ 2 + z.toNat)
  | .stg e d a o z => laneWord 0xB0 e false d.toNat a.toNat (o.toNat * 2 ^ 2 + z.toNat)
  | .sts e d a o z => laneWord 0xB1 e false d.toNat a.toNat (o.toNat * 2 ^ 2 + z.toNat)
  | .stp e d a o z => laneWord 0xB2 e false d.toNat a.toNat (o.toNat * 2 ^ 2 + z.toNat)
  | .strel e d a s z => laneWord 0xB3 e false d.toNat a.toNat (s.toNat * 2 ^ 4 + z.toNat)
  | .atom e d a b _ _ _ _ _ _ _ => laneWord 0xB4 e false d.toNat a.toNat b.toNat
  | .mcst e d a o z => laneWord 0xB5 e false d.toNat a.toNat (o.toNat * 2 ^ 2 + z.toNat)
  | .empty e a o z => laneWord 0xB6 e false 0 a.toNat (o.toNat * 2 ^ 2 + z.toNat)
  | .monarm e d a o z => laneWord 0xB7 e false d.toNat a.toNat (o.toNat * 2 ^ 2 + z.toNat)
  | .monwait n d f t => laneWord 0xB8 true n d.toNat 0 (f.toNat * 2 ^ 5 + t.toNat)
  | .fence e k s => laneWord 0xB9 e false 0 0 (k.toNat * 2 ^ 3 + s.toNat)
  | .cue e d a x h => laneWord 0xC0 e false d.toNat a.toNat (x.toNat * 2 ^ 4 + h.toNat)
  | .copy e d a b _ _ _ _ _ _ _ => laneWord 0xC1 e false d.toNat a.toNat b.toNat
  | .cast e d a _ _ _ _ => laneWord 0xC2 e false d.toNat a.toNat 0
  | .casti e a m c => laneWord 0xC3 e false 0 a.toNat (m.toNat * 2 ^ 2 + c.toNat)
  | .castsplit e c a b => laneWord 0xC4 e false c.toNat a.toNat b.toNat
  | .castrd e n d c => laneWord 0xC5 e n d.toNat 0 c.toNat
  | .castwr e a c => laneWord 0xC6 e false 0 a.toNat c.toNat
  | .mash e d a bsel _ _ _ _ _ _ _ => laneWord 0xD0 e false d.toNat a.toNat bsel.toNat
  | .rack e a => laneWord 0xD1 e false 0 a.toNat 0
  | .colrd e d a => laneWord 0xD2 e false d.toNat a.toNat 0
  | .colclr e a l r => laneWord 0xD3 e false 0 a.toNat (l.toNat * 2 ^ 4 + r.toNat)
  | .mstat e n d c b => laneWord 0xD4 e n d.toNat 0 (c.toNat * 2 ^ 5 + b.toNat)
  | .trap d c => laneWord 0xE0 true false d.toNat 0 c.toNat
  | .brk t => laneWord 0xE1 true false 0 0 t.toNat
  | .nop e => laneWord 0xE2 e false 0 0 0
  | .hint e x h y => laneWord (0xF0 + h.toNat) e x 0 0 y.toNat
  | .gadd e d a b => uniWord 0x00 e d.toNat a.toNat b.toNat 0
  | .gsub e d a b => uniWord 0x01 e d.toNat a.toNat b.toNat 0
  | .gmul e d a b => uniWord 0x02 e d.toNat a.toNat b.toNat 0
  | .gand e d a b => uniWord 0x03 e d.toNat a.toNat b.toNat 0
  | .gor e d a b => uniWord 0x04 e d.toNat a.toNat b.toNat 0
  | .gxor e d a b => uniWord 0x05 e d.toNat a.toNat b.toNat 0
  | .gshl e d a b => uniWord 0x06 e d.toNat a.toNat b.toNat 0
  | .gshr e d a b => uniWord 0x07 e d.toNat a.toNat b.toNat 0
  | .gsar e d a b => uniWord 0x08 e d.toNat a.toNat b.toNat 0
  | .gmin e d a b u => uniWord 0x09 e d.toNat a.toNat b.toNat u.toNat
  | .gmax e d a b u => uniWord 0x0A e d.toNat a.toNat b.toNat u.toNat
  | .gaddi e d a i => uniWord 0x0B e d.toNat a.toNat 0 i.toNat
  | .gmovk e d i => uniWord 0x0C e d.toNat 0 0 i.toNat
  | .gmovkLiteral e d _ => uniWord 0x0C e d.toNat 0 0 0x8000
  | .gmov e d a => uniWord 0x0D e d.toNat a.toNat 0 0
  | .gset e d a b c => uniWord 0x0E e d.toNat a.toNat b.toNat c.toNat
  | .gsel e d a b f => uniWord 0x0F e d.toNat a.toNat b.toNat f.toNat
  | .gld e d a z o => uniWord 0x10 e d.toNat a.toNat (z.toNat * 2 ^ 3) o.toNat
  | .glds e d a z o => uniWord 0x11 e d.toNat a.toNat (z.toNat * 2 ^ 3) o.toNat
  | .gst e d a s z o => uniWord 0x12 e d.toNat a.toNat (s.toNat * 2 ^ 5 + z.toNat * 2 ^ 3) o.toNat
  | .kand e d a b => uniWord 0x13 e d.toNat a.toNat b.toNat 0
  | .kor e d a b => uniWord 0x14 e d.toNat a.toNat b.toNat 0
  | .kxor e d a b => uniWord 0x15 e d.toNat a.toNat b.toNat 0
  | .knot e d a => uniWord 0x16 e d.toNat a.toNat 0 0
  | .kmov e d a f => uniWord 0x17 e d.toNat a.toNat 0 f.toNat
  | .jmp o => uniWord 0x20 true 0 0 0 o.toNat
  | .jz a o => uniWord 0x21 true a.toNat 0 0 o.toNat
  | .jnz a o => uniWord 0x22 true a.toNat 0 0 o.toNat
  | .gcall o => uniWord 0x23 true 0 0 0 o.toNat
  | .gcallRegister g => uniWord 0x23 true 0 0 0 (0x200000 + g.toNat)
  | .yield => uniWord 0x24 true 0 0 0 0
  | .bar => uniWord 0x30 true 0 0 0 0
  | .barg => uniWord 0x31 true 0 0 0 0
  | .launch e d a => uniWord 0x32 e d.toNat a.toNat 0 0
  | .sread e d i => uniWord 0x33 e d.toNat 0 0 i.toNat
  | .partset e p => uniWord 0x34 e 0 0 0 p.toNat
  | .rset e q a b => uniWord 0x40 e q.toNat a.toNat b.toNat 0
  | .racq d q => uniWord 0x41 true d.toNat 0 0 q.toNat
  | .rpub e a q => uniWord 0x42 e 0 a.toNat 0 q.toNat
  | .rwait a q => uniWord 0x43 true 0 a.toNat 0 q.toNat
  | .rfree e a q => uniWord 0x44 e 0 a.toNat 0 q.toNat
  | .cwait => uniWord 0x45 true 0 0 0 0
  | .bank e a m => uniWord 0x46 e 0 a.toNat 0 m.toNat
  | .mwait a => uniWord 0x47 true 0 a.toNat 0 0
  | .hang e d a b h => uniWord 0x48 e d.toNat a.toNat b.toNat h.toNat
  | .unhang e h => uniWord 0x49 e 0 0 0 h.toNat
  | .unassignedOpcode w => w.toNat
  | _ => 0

/-- The literal or extension word of an instruction that has one (11 R264; 15 R316; 16 R331; 17 R359). -/
def Instr.ext? : Instr → Option Nat
  | .movkLiteral _ _ _ lit => some (lit.toNat)
  | .gmovkLiteral _ _ lit => some (lit.toNat)
  | .atom _ _ _ _ op ty ord sc sp noret c => some (op.toNat * 2 ^ 28 + ty.toNat * 2 ^ 25 + ord.toNat * 2 ^ 23 + sc.toNat * 2 ^ 20 + sp.toNat * 2 ^ 18 + noret.toNat * 2 ^ 17 + c.toNat * 2 ^ 10)
  | .copy _ _ _ _ opt dir rv q sreg lk slreg => some (opt.toNat * 2 ^ 29 + dir.toNat * 2 ^ 27 + rv.toNat * 2 ^ 26 + q.toNat * 2 ^ 23 + sreg.toNat * 2 ^ 16 + lk.toNat * 2 ^ 13 + slreg.toNat * 2 ^ 6)
  | .cast _ _ _ mode cur kd gs => some (mode.toNat * 2 ^ 30 + cur.toNat * 2 ^ 28 + kd.toNat * 2 ^ 25 + gs.toNat * 2 ^ 19)
  | .mash _ _ _ _ clr fa fw pm1 kg half bmask => some (clr.toNat * 2 ^ 31 + fa.toNat * 2 ^ 29 + fw.toNat * 2 ^ 27 + pm1.toNat * 2 ^ 23 + kg.toNat * 2 ^ 18 + half.toNat * 2 ^ 17 + bmask.toNat)
  | _ => none

/-- The prefix word fields of an instruction: an optional prefix, or the one that SEL must carry (03 R87). -/
def Instr.prefix? : Instr → Option Pfx
  | .sel _ _ k _ _ _ => some ⟨0, k, false, 0, false⟩
  | i => i.pfx?

/-- The constructor is an instruction of the opcode map, with words; the rest are events. -/
def Instr.isWord : Instr → Bool
  | .iadd _ _ _ _ _ _ => true
  | .isub _ _ _ _ _ _ => true
  | .imul _ _ _ _ _ _ => true
  | .imulhs _ _ _ _ _ _ => true
  | .imulhz _ _ _ _ _ _ => true
  | .imad _ _ _ _ _ _ => true
  | .imadw _ _ _ _ _ _ => true
  | .imin _ _ _ _ _ _ => true
  | .imax _ _ _ _ _ _ => true
  | .iminz _ _ _ _ _ _ => true
  | .imaxz _ _ _ _ _ _ => true
  | .iabs _ _ _ _ _ => true
  | .ineg _ _ _ _ _ => true
  | .add64 _ _ _ _ _ _ => true
  | .sub64 _ _ _ _ _ _ => true
  | .lea _ _ _ _ _ _ => true
  | .iaddi _ _ _ _ _ _ => true
  | .and _ _ _ _ _ _ => true
  | .or _ _ _ _ _ _ => true
  | .xor _ _ _ _ _ _ => true
  | .andn _ _ _ _ _ _ => true
  | .not _ _ _ _ _ => true
  | .andi _ _ _ _ _ _ => true
  | .ori _ _ _ _ _ _ => true
  | .xori _ _ _ _ _ _ => true
  | .mov _ _ _ _ _ _ => true
  | .movk _ _ _ _ => true
  | .movkLiteral _ _ _ _ => true
  | .movs _ _ _ _ => true
  | .shl _ _ _ _ _ _ => true
  | .shr _ _ _ _ _ _ => true
  | .sar _ _ _ _ _ _ => true
  | .rol _ _ _ _ _ _ => true
  | .shli _ _ _ _ _ _ => true
  | .shri _ _ _ _ _ _ => true
  | .sari _ _ _ _ _ _ => true
  | .bfx _ _ _ _ _ _ => true
  | .bfxs _ _ _ _ _ _ => true
  | .bfi _ _ _ _ _ _ => true
  | .popc _ _ _ _ _ => true
  | .clz _ _ _ _ _ => true
  | .brev _ _ _ _ _ => true
  | .iset _ _ _ _ _ _ _ => true
  | .isetz _ _ _ _ _ _ _ => true
  | .fset _ _ _ _ _ _ => true
  | .sel _ _ _ _ _ _ => true
  | .fclass _ _ _ _ _ _ => true
  | .fadd _ _ _ _ _ _ => true
  | .fsub _ _ _ _ _ _ => true
  | .fmul _ _ _ _ _ _ => true
  | .ffma _ _ _ _ _ _ => true
  | .fmin _ _ _ _ _ _ => true
  | .fmax _ _ _ _ _ _ => true
  | .fabs _ _ _ _ _ => true
  | .fneg _ _ _ _ _ => true
  | .frnd _ _ _ _ _ => true
  | .fscl _ _ _ _ _ _ => true
  | .fexp _ _ _ _ _ => true
  | .hadd2 _ _ _ _ _ _ => true
  | .hmul2 _ _ _ _ _ _ => true
  | .hfma2 _ _ _ _ _ _ => true
  | .hmin2 _ _ _ _ _ _ => true
  | .hmax2 _ _ _ _ _ _ => true
  | .hdot2 _ _ _ _ _ _ => true
  | .badd2 _ _ _ _ _ _ => true
  | .bmul2 _ _ _ _ _ _ => true
  | .bfma2 _ _ _ _ _ _ => true
  | .bmin2 _ _ _ _ _ _ => true
  | .bmax2 _ _ _ _ _ _ => true
  | .bdot2 _ _ _ _ _ _ => true
  | .rcp _ _ _ _ _ => true
  | .rsq _ _ _ _ _ => true
  | .sqrt _ _ _ _ _ => true
  | .exp2 _ _ _ _ _ => true
  | .log2 _ _ _ _ _ => true
  | .sin _ _ _ _ _ => true
  | .cos _ _ _ _ _ => true
  | .tanh _ _ _ _ _ => true
  | .cvt _ _ _ _ _ _ _ _ => true
  | .cvtr _ _ _ _ _ _ _ _ => true
  | .rsdrd _ _ _ _ => true
  | .rsdwr _ _ _ => true
  | .mxsc _ _ _ _ _ _ _ => true
  | .mxq _ _ _ _ _ _ _ _ => true
  | .mxqr _ _ _ _ _ _ _ _ => true
  | .mxdq _ _ _ _ _ _ _ _ => true
  | .smxacc _ _ _ _ _ _ => true
  | .smxfin _ _ _ _ _ _ => true
  | .br _ => true
  | .brz _ _ => true
  | .brnz _ _ => true
  | .brx _ => true
  | .call _ => true
  | .callx _ => true
  | .ret => true
  | .exit => true
  | .enrol _ _ _ => true
  | .rejoin _ => true
  | .strike _ _ _ => true
  | .brm _ _ => true
  | .vote _ _ _ _ _ => true
  | .shfl _ _ _ _ _ => true
  | .redux _ _ _ _ _ _ => true
  | .scan _ _ _ _ _ _ _ => true
  | .matchKeys _ _ _ _ _ => true
  | .compact _ _ _ _ _ => true
  | .rdlane _ _ _ _ _ => true
  | .bcast _ _ _ _ _ => true
  | .ldg _ _ _ _ _ => true
  | .ldgs _ _ _ _ _ => true
  | .lds _ _ _ _ _ => true
  | .ldss _ _ _ _ _ => true
  | .ldp _ _ _ _ _ => true
  | .ldps _ _ _ _ _ => true
  | .lda _ _ _ _ _ _ => true
  | .pref _ _ _ _ _ => true
  | .fchk _ _ _ _ _ _ => true
  | .stg _ _ _ _ _ => true
  | .sts _ _ _ _ _ => true
  | .stp _ _ _ _ _ => true
  | .strel _ _ _ _ _ => true
  | .atom _ _ _ _ _ _ _ _ _ _ _ => true
  | .mcst _ _ _ _ _ => true
  | .empty _ _ _ _ => true
  | .monarm _ _ _ _ _ => true
  | .monwait _ _ _ _ => true
  | .fence _ _ _ => true
  | .cue _ _ _ _ _ => true
  | .copy _ _ _ _ _ _ _ _ _ _ _ => true
  | .cast _ _ _ _ _ _ _ => true
  | .casti _ _ _ _ => true
  | .castsplit _ _ _ _ => true
  | .castrd _ _ _ _ => true
  | .castwr _ _ _ => true
  | .mash _ _ _ _ _ _ _ _ _ _ _ => true
  | .rack _ _ => true
  | .colrd _ _ _ => true
  | .colclr _ _ _ _ => true
  | .mstat _ _ _ _ _ => true
  | .trap _ _ => true
  | .brk _ => true
  | .nop _ => true
  | .hint _ _ _ _ => true
  | .gadd _ _ _ _ => true
  | .gsub _ _ _ _ => true
  | .gmul _ _ _ _ => true
  | .gand _ _ _ _ => true
  | .gor _ _ _ _ => true
  | .gxor _ _ _ _ => true
  | .gshl _ _ _ _ => true
  | .gshr _ _ _ _ => true
  | .gsar _ _ _ _ => true
  | .gmin _ _ _ _ _ => true
  | .gmax _ _ _ _ _ => true
  | .gaddi _ _ _ _ => true
  | .gmovk _ _ _ => true
  | .gmovkLiteral _ _ _ => true
  | .gmov _ _ _ => true
  | .gset _ _ _ _ _ => true
  | .gsel _ _ _ _ _ => true
  | .gld _ _ _ _ _ => true
  | .glds _ _ _ _ _ => true
  | .gst _ _ _ _ _ _ => true
  | .kand _ _ _ _ => true
  | .kor _ _ _ _ => true
  | .kxor _ _ _ _ => true
  | .knot _ _ _ => true
  | .kmov _ _ _ _ => true
  | .jmp _ => true
  | .jz _ _ => true
  | .jnz _ _ => true
  | .gcall _ => true
  | .gcallRegister _ => true
  | .yield => true
  | .bar => true
  | .barg => true
  | .launch _ _ _ => true
  | .sread _ _ _ => true
  | .partset _ _ => true
  | .rset _ _ _ _ => true
  | .racq _ _ => true
  | .rpub _ _ _ => true
  | .rwait _ _ => true
  | .rfree _ _ _ => true
  | .cwait => true
  | .bank _ _ _ => true
  | .mwait _ => true
  | .hang _ _ _ _ _ => true
  | .unhang _ _ => true
  | .unassignedOpcode _ => true
  | _ => false

/-- The words of an instruction, in order (R41): the optional PFX word, the first word, the optional further word. -/
def encode (i : Instr) : List Nat :=
  if i.isWord then (i.prefix?.map pfxWord).toList ++ [i.word1] ++ i.ext?.toList else []

/-- Why the decoder refuses words; each is the illegal-instruction fault of R51, R55 or R60. -/
inductive DecodeError where
  /-- a malformed PFX word, or one before a word it may not precede (R51) -/
  | badPrefix
  /-- an instruction of R55 without E = 1, a nonzero reserved field or bit 29 (R46, R55, R60) -/
  | badBits
  /-- a latch code in a destination, or a code the instruction's description does not list (R45, R60) -/
  | badField
deriving DecidableEq, Repr

/-- Accept a candidate that encodes to exactly the words read. -/
def accept (i : Instr) (ws : List Nat) (e : DecodeError) : Except DecodeError (Instr × Nat) :=
  if encode i = ws then if i.wf then .ok (i, ws.length) else .error .badField else .error e

/-- Decode the instruction whose words begin with `w0` and, where it has a second word, `w1`: the instruction and its
length in words, or the reason it is refused. -/
def decode (w0 w1 : Nat) : Except DecodeError (Instr × Nat) :=
  if isPfxWord w0 then
    match cand (some (pfxOf w0)) w1 0 with
    | some i => accept i [w0, w1] .badPrefix
    | none => .error .badPrefix
  else
    match cand none w0 w1 with
    | some i => accept i (if isTwoWord w0 then [w0, w1] else [w0]) .badBits
    | none => if wordAssigned w0 then .error .badBits else .ok (.unassignedOpcode (BitVec.ofNat 32 w0), 1)

/-- The instruction the decoder reads from an instruction whose bits are `w`, the first word lowest. -/
def decodeTableWord (nbits w : Nat) : Option Instr :=
  match decode (w % 2 ^ nbits % 2 ^ 32) (w % 2 ^ nbits / 2 ^ 32 % 2 ^ 32) with
  | .ok (i, _) => some i
  | .error _ => none

end Sys2Proof
end

