-- ==== Sys2Proof/Config.lean ====
section
/-! DEFINITION. What the spec leaves open or leaves to one module: opaque constants with no value (free values), and
the few sizes the spec fixes. A statement that uses one of the opaque constants holds for every value of it. -/

namespace Sys2Proof.Config

/-- Free value: the byte a page-table walk or a register-described access reads at an address behind which the spec
puts no storage (UNVERIFIED, notes/assumptions/3.md); the first argument is a fresh number. -/
opaque openByte : Nat → Nat → BitVec 8

/-- Whether a cache or a translation unit still holds an entry it was given, by a fresh number and the entry's key:
when an entry leaves for want of room or for the hardware's own reasons is not fixed (09 R207, R218). -/
opaque stillHeld : Nat → Nat → Bool

/-- Free value: whether a fetch returns the word as it is, 0, or an older value of it, by a fresh number and the word's
address (02 R62). -/
opaque oldWord : Nat → Nat → Nat

/-- Free value: the tag the module tries for a new prompt (19 R393), by a fresh number. -/
opaque promptTag : Nat → BitVec 16

/-- Free value: the park slot the engine tries for a copy (16 R352), by a fresh number. -/
opaque parkSlot : Nat → BitVec 4

/-- Free value: which of the CAST commands waiting for a place in the engine takes one (17 R364), by a fresh number. -/
opaque castTurn : Nat → Nat

/-- Free value: the bytes a peer module returns for a read through a peer window (21 R420), by a fresh number. -/
opaque peerData : Nat → Nat → BitVec 64

/-- Whether a peer window access completes with an error status (21 R420), by a fresh number. -/
opaque peerError : Nat → Bool

/-- Free value: where the search begins for the line that a full set of an L2 evicts (09 R219, R220), by a fresh number. -/
opaque l2Victim : Nat → Nat

/-- Free value: the row that a CASTSPLIT finds where there is no row (17 R368), by the counter of free values. -/
opaque emptySplit : Nat → Nat

/-- The body of the firmware image (22 R427, R428). -/
opaque firmwareBody : List (BitVec 8)

/-- The signature that the firmware image carries, as a number (22 R427). -/
opaque firmwareSignature : Nat

/-- Modulus and exponent of the Maelzal key whose digest is fused into the module (22 R424, R427). -/
opaque maelzalKey : Nat × Nat

/-- Modulus and exponent of the operator key whose digest is fused into the module, where there is one (22 R424). -/
opaque operatorKey : Option (Nat × Nat)

/-- The module's RSA-3072 identity key: modulus and private exponent (22 R428). -/
opaque identityKey : Nat × Nat

/-- Free value: the 32 bytes of salt of a report's signature (22 R428), by a fresh number. -/
opaque reportSalt : Nat → Nat

/-- The certificate chain IDCERT, 4,096 bytes, by 32-bit word index (22 R428). -/
opaque idcert : Nat → BitVec 32

/-- Compute dies of the module (00 R4). -/
def dies : Nat := 16

/-- Cycles per microsecond at 1.05 GHz (00 R4, R5). -/
def cyclesPerMicro : Nat := 1050

end Sys2Proof.Config
end

