-- ==== Sys2Proof/Machine/Table.lean ====
section
/-! DEFINITION. Sparse tables: a list of (key, value) pairs in one canonical form (keys strictly rising, no entry equal
to what an unlisted key reads as). Memory, register files and register blocks are tables. -/

namespace Sys2Proof.Machine

/-- A sparse table from keys to values; the value of an unlisted key is a parameter of the operations below. -/
abbrev Table (α : Type) := List (Nat × α)

/-- The value at key `i`, or `d` where `i` is not listed. -/
def tget {α : Type} (d : α) : Table α → Nat → α
  | [], _ => d
  | (k, v) :: t, i => if k = i then v else tget d t i

/-- The table without key `i`. -/
def terase {α : Type} : Table α → Nat → Table α
  | [], _ => []
  | (k, v) :: t, i => if k = i then terase t i else (k, v) :: terase t i

/-- The table with (i, x) put before the first greater key. -/
def tinsert {α : Type} : Table α → Nat → α → Table α
  | [], i, x => [(i, x)]
  | (k, v) :: t, i, x => if i < k then (i, x) :: (k, v) :: t else (k, v) :: tinsert t i x

/-- The table with `x` at key `i`; writing the default removes the entry. -/
def tput {α : Type} [DecidableEq α] (d : α) (t : Table α) (i : Nat) (x : α) : Table α :=
  if x = d then terase t i else tinsert (terase t i) i x

/-- Every key at or above `lo`, keys strictly rising, no value equal to the default. -/
def twfFrom {α : Type} [DecidableEq α] (d : α) : Nat → Table α → Bool
  | _, [] => true
  | lo, (k, v) :: t => decide (lo ≤ k) && decide (v ≠ d) && twfFrom d (k + 1) t

/-- The canonical form of a table. -/
def twf {α : Type} [DecidableEq α] (d : α) (t : Table α) : Bool := twfFrom d 0 t

/-- The table without the keys in [lo, hi). -/
def tclear {α : Type} (t : Table α) (lo hi : Nat) : Table α :=
  t.filter fun e => !(decide (lo ≤ e.1) && decide (e.1 < hi))

/-- The table of `f` on keys below n. -/
def tbuild {α : Type} [DecidableEq α] (d : α) (n : Nat) (f : Nat → α) : Table α :=
  (List.range n).filterMap fun i => if f i = d then none else some (i, f i)

/-- Write a list of (key, value) pairs in order. -/
def tputs {α : Type} [DecidableEq α] (d : α) (t : Table α) : List (Nat × α) → Table α
  | [] => t
  | (i, x) :: r => tputs d (tput d t i x) r

end Sys2Proof.Machine
end

