-- ==== Sys2Proof/Machine/State.lean ====
section
/-! DEFINITION. The state of the module: everything the spec gives it, as plain data, and the state right after module
reset. INVENTORY.md lists each field with the rule that names it. -/

namespace Sys2Proof.Machine

/-! ## Threads, paths and warps -/

/-- The role of a warp (05 R145). -/
inductive Role where
  | copy | matrix | vector
deriving DecidableEq, Repr

/-- A bypass latch: its width and its value by lane (02 R56). -/
structure Latch where
  wide : Bool
  vals : Table DWord
deriving DecidableEq, Repr

/-- What a path keeps inside a scene: the words issued so far and the latches of its last four instructions, the most
recent first; `none` where an instruction writes no latch (02 R54, R56, R57). -/
structure Scene where
  words : Nat
  latches : List (Option Latch)
deriving DecidableEq, Repr

/-- Why a path stands blocked past its scene end (05 R133). -/
inductive Block where
  /-- YIELD, until the die's clock reaches `t` or another scene of the wing ends (06 R157) -/
  | yield (t : Nat)
  /-- BAR (06 R173) -/
  | bar
  /-- BARG (06 R173) -/
  | barg
  /-- RACQ of ring `q` (16 R344) -/
  | racq (q : Nat)
  /-- RWAIT for slot `s` of ring `q` in phase `ph` (16 R346) -/
  | rwait (q s : Nat) (ph : Bool)
  /-- CWAIT for the copies listed (16 R348) -/
  | cwait (ids : List Nat)
  /-- MWAIT for the operations listed, of the team banks in a mask of a core (15 R325), and the scene it was issued in, to
  which a resumption returns the path (15 R326) -/
  | mwait (core : Nat) (mask : Word) (ids : List Nat) (scene : Option Scene)
  /-- woken by an RSET, or by the resumption of its team: it executes the instruction it was blocked at again (15 R326; 16
  R343) -/
  | woken
  /-- MONWAIT: the clock at which it times out, and its destination (11 R272) -/
  | monwait (limit : Option Nat) (n : Bool) (d : BitVec 7)
deriving DecidableEq, Repr

/-- What an instruction that waits in place waits for (05 R142, 19 R380). -/
inductive WaitKind where
  /-- an empty scratch line (09 R214) -/
  | emptyLine
  /-- a queue place in every named bank (14 R309) -/
  | bankPlace
  /-- the completion of a bank's operations older than an identifier, before COLRD (15 R321) -/
  | colrd (before : Nat)
  /-- the drain of the banks a BANK switches, each at 32 × core + bank (15 R323) -/
  | bankSwitch (banks : List Nat)
  /-- a place in the copy engine, or in a steep's bank (16 R334) -/
  | copyPlace
  /-- a place in the casting engine (17 R364) -/
  | castPlace
  /-- the cast command that the engine holds (17 R364) -/
  | castRun
  /-- the return of the queries of a handle (12 R282) -/
  | unhang
deriving DecidableEq, Repr

/-- An instruction that waits in place, with what it waits for. -/
structure Wait where
  kind : WaitKind
  instr : Instr
deriving DecidableEq, Repr

/-- The stop record of a path that faulted or broke (19 R379, R388): the code (0xFF at a BRK), the cause, the length in
words and scene-end bit of the stopping instruction, the width of the latch it writes, and whether the fault arose in
fetching a word. The length is 0 where the path stopped past the instruction whose data carried an error. -/
structure Stop where
  code : Nat
  cause : Nat
  len : Nat
  e : Bool
  latch : Option Bool
  fetch : Bool
deriving DecidableEq, Repr

/-- A path of a warp (05 R123, R124, R140; 19 R379). -/
structure Path where
  lanes : Mask
  pc : VAddr
  /-- ageing counter, 0 to 16 -/
  age : Nat
  /-- the order in which the counter reached 16; 0 while below -/
  full : Nat
  block : Option Block
  /-- the scene it is inside, running or stopped -/
  scene : Option Scene
  wait : Option Wait
  /-- lanes already performed at the instruction that waits (11 R254) -/
  done : Mask
  skid : Nat
  stop : Option Stop
  /-- instructions issued, which tells whether a load is still the path's last instruction (19 R389 code 23) -/
  count : Nat
  /-- bytes by virtual address that its casting instruction has read (10 R245) -/
  got : List (Nat × Byte)
deriving DecidableEq, Repr

/-- An armed monitor (11 R270): physical address, size in bytes, compare value, and whether it has fired. -/
structure Monitor where
  pa : Nat
  size : Nat
  cmp : Word
  fired : Bool
deriving DecidableEq, Repr

/-- A rejoin register (05 R134). -/
structure Rejoin where
  en : Mask
  ar : Mask
deriving DecidableEq, Repr

/-- A warp (01 R13; 05 R122 to R147). -/
structure Warp where
  /-- key of its team in `State.teams` -/
  team : Nat
  /-- $warp -/
  index : Nat
  role : Role
  /-- lanes that are threads of the team -/
  live : Mask
  exited : Mask
  /-- paths, by rising lowest lane -/
  paths : List Path
  /-- lowest lane of the path whose scene runs -/
  running : Option Nat
  /-- vector registers, at 128 × lane + register -/
  v : Table Word
  /-- residue registers, at 8 × lane + register -/
  e : Table Word
  /-- hardware return stack by lane, newest first -/
  stack : Table (List VAddr)
  /-- spill count by lane -/
  spill : Table Nat
  /-- k1 to k7 -/
  k : Table Mask
  j : Table Rejoin
  /-- continuation PC of a parked lane -/
  cont : Table VAddr
  /-- cast cursors -/
  c : Table (BitVec 128)
  /-- g0 to g62 -/
  g : Table DWord
  part : Nat
  seq : DWord
  /-- private high-water mark, KiB -/
  phw : Nat
  mon : Table (Option Monitor)
  /-- by lane, one more than the identifier of its last FENCE with release at a narrow scope; 0 for none (10 R230, R236) -/
  fenced : Table Nat
  /-- the tag of the prompt that blocks the warp -/
  prompt : Option Nat
  /-- the rejoin-deadlock record: PC, lane, words (05 R138) -/
  dead : Option (VAddr × Nat × Nat)
deriving DecidableEq, Repr

/-! ## Teams and rings -/

/-- State of a ring slot (16 R341). -/
inductive SlotState where
  | free | opened | filled
deriving DecidableEq, Repr

/-- A ring slot (16 R341). -/
structure Slot where
  st : SlotState
  ph : Bool
  arr : Nat
  res : Nat
deriving DecidableEq, Repr

/-- A configured stage ring (16 R341). -/
structure Ring where
  base : Nat
  ssize : Nat
  scount : Nat
  exp : Nat
  free : Nat
  filled : Nat
  phase : Bool
  ap : Nat
  slots : List Slot
deriving DecidableEq, Repr

/-- An event record (19 R385), without its number and phase. -/
structure EvRec where
  kind : Nat
  code : Nat
  cause : Nat
  ctx : Nat
  lnum : Nat
  team : Nat
  warp : Nat
  lane : Nat
  core : Nat
  tslot : Nat
  pc : Nat
  words : Nat
  addr : Nat
  aux0 : Nat
  aux1 : Nat
  tag : Nat
deriving DecidableEq, Repr

/-- The hold of a team (19 R378 to R384): whether it is complete, whether TEAMCTL OP 0 or an assertion raised it,
whether a resumption waits for its completion, and the records to write when it is. -/
structure Hold where
  complete : Bool
  byCtl : Bool
  byAssert : Bool
  resume : Bool
  recs : List EvRec
deriving DecidableEq, Repr

/-- The room a team takes (07 R186, R187): its core, or the even core of its pair; the team slot, scratch granules and
team banks on that core and on the peer; and the global slot number of each of its warps in index order. -/
structure Place where
  core : Nat
  pair : Bool
  slot0 : Nat
  slot1 : Nat
  gran0 : List Nat
  gran1 : List Nat
  banks0 : List Nat
  banks1 : List Nat
  wslots : List Nat
deriving DecidableEq, Repr

/-- A placed team (05 R128; 07 R187 to R190). -/
structure Team where
  /-- the key of its launch (`Launch.key`) -/
  launch : Nat
  lnum : Nat
  /-- $team -/
  idx : Nat
  ctx : Nat
  place : Place
  width : Nat
  threads : Nat
  regs : Nat
  mash : Nat
  scrg : Nat
  gang : Bool
  copyw : Nat
  matw : Nat
  vecw : Nat
  entry : VAddr
  args : DWord
  started : Bool
  rings : Table (Option Ring)
  hold : Option Hold
  /-- the model's own: the next identifier when a thread of the team last exited (07 R191) -/
  last : Nat
deriving DecidableEq, Repr

/-! ## Banks, copies, casts -/

/-- What a bank operation does (14 R303 to R305, R309). -/
inductive BankOpKind where
  /-- a k-step: formats, k-group, promotion period, clear-before, the fragment (element (m, k) in byte 32m + k) and
  the sixteen activation scales -/
  | mash (fa fw kg p : Nat) (clr : Bool) (frag : BitVec 4096) (sa : BitVec 128)
  | rack
  /-- one row, or every cell -/
  | colclr (row : Option Nat)
  /-- the steep of a copy -/
  | steep (copy : Nat)
deriving DecidableEq, Repr

/-- A queued bank operation. -/
structure BankOp where
  id : Nat
  kind : BankOpKind
deriving DecidableEq, Repr

/-- A scratchpad bank beside its bytes (14 R293, R298, R299, R309; 15 R323). -/
structure Bank where
  mash : Bool
  /-- operations in order of arrival; the first is executing -/
  ops : List BankOp
  cnt : Nat
  sat : Bool
  /-- cells, at 512 m + n -/
  rack : Table Word
  acc : Table Int
  ecol : Table Int
  nan : Table Bool
  /-- weight scales, at 512 g + n -/
  sw : Table Byte
deriving DecidableEq, Repr

/-- Where a byte a copy writes lies: a scratch offset of its team, a byte of the array of the copy's bank, a periphery scale
of that bank, or a global virtual address. -/
inductive CopyPlace where
  | scratch (off : Nat)
  | array (byte : Nat)
  | scale (g col : Nat)
  | global (va : Nat)
deriving DecidableEq, Repr

/-- A byte a copy is about to write (10 R227): where, which of its bits, and their values. -/
structure CopyPut where
  place : CopyPlace
  mask : Byte
  val : Byte
deriving DecidableEq, Repr

/-- A copy held by an engine (16 R334 to R339, R352). -/
structure Copy where
  id : Nat
  core : Nat
  /-- key of its team -/
  team : Nat
  ctx : Nat
  /-- global slot number of the issuing warp -/
  w : Nat
  /-- lane and PC of the COPY, and words issued before it -/
  lane : Nat
  pc : VAddr
  words : Nat
  opt : Nat
  dir : Nat
  record : BitVec 512
  raddr : Nat
  org : List Int
  /-- scratch offset, global address or bank control -/
  dense : Nat
  /-- scratch offset of the scales -/
  sdense : Nat
  ring : Option (Nat × Nat)
  /-- bank number on the core, for a steep -/
  bank : Option Nat
  started : Bool
  /-- index of the next unit to write -/
  unit : Nat
  park : Option Nat
  /-- stands still for want of a park slot -/
  stalled : Bool
  /-- bytes of the current unit read so far, low first (10 R227) -/
  got : List Byte
  /-- byte writes of the current unit still to be made -/
  put : List CopyPut
deriving DecidableEq, Repr

/-- A cast command in an engine's queue; its CAST is the instruction its warp's path waits at (17 R364). -/
structure CastCmd where
  w : Nat
  started : Bool
deriving DecidableEq, Repr

/-! ## Outstanding memory operations -/

/-- What an outstanding entry returns. -/
inductive OutKind where
  /-- a load of the (virtual, physical) bytes listed, low byte first; a byte of scratch has its location number for both
  (10 R227) -/
  | load
  /-- a value already formed where the operation executed -/
  | value
  /-- the read by which a MONARM compares a register or a word of a peer window (11 R270) -/
  | monitor
  /-- an entry of a cue table, at the physical bytes listed, not yet returned -/
  | cue
  /-- such an entry, returned -/
  | cueGot
  /-- such an entry, returned with an uncorrectable error -/
  | cueBad
deriving DecidableEq, Repr

/-- A load, atomic reply or cue query of one lane that has not returned (01 R19; 11 R255, R266; 12 R285). -/
structure Outst where
  id : Nat
  /-- identifies the instruction that issued it -/
  grp : Nat
  w : Nat
  lane : Nat
  ctx : Nat
  kind : OutKind
  addrs : List (Nat × Nat)
  signed : Bool
  nc : Bool
  value : BitVec 128
  /-- the destination is a g register -/
  uni : Bool
  dest : Nat
  /-- registers written; 0 discards the value -/
  nreg : Nat
  /-- the collector entry it waits in, by line or row -/
  coll : Option Nat
  pc : VAddr
  /-- the scene before the instruction -/
  scene : Option Scene
  /-- the entries of the instruction, and its path's count of issued instructions before it: an error is reported while it
  is the path's last instruction and none of them has returned (19 R389 code 23) -/
  size : Nat
  count : Nat
  /-- its data carried an uncorrectable error after its path had gone on: it is made anew once its team resumes (12 R285; 19
  R389 codes 18 and 23, R391) -/
  failed : Bool
  /-- a global access, which range locks bind (16 R351) -/
  lock : Bool
  /-- through a peer window: the port and the fabric address that its translation gave (21 R419) -/
  peer : Option (Bool × Nat)
deriving DecidableEq, Repr

/-- A store of one lane, or of one replica of an MCST, that has not been performed (10 R237; 11 R257, R260). -/
structure PStore where
  id : Nat
  grp : Nat
  w : Nat
  lane : Nat
  ctx : Nat
  /-- virtual address, physical address and value of each byte -/
  bytes : List (Nat × Nat × Byte)
  /-- the collector entry it waits in, by line -/
  coll : Option Nat
  mcst : Bool
  /-- the physical ranges of every lane and replica of its MCST (16 R350) -/
  span : List (Nat × Nat)
  /-- the release whose value it is: its core and identifier (10 R230, R236) -/
  rel : Option (Nat × Nat)
  /-- through a peer window: the port and the fabric address that its translation gave (21 R419) -/
  peer : Option (Bool × Nat)
deriving DecidableEq, Repr

/-- A valid L1 line (09 R218). -/
structure L1Line where
  core : Nat
  ctx : Nat
  vline : Nat
  pline : Nat
  data : BitVec 1024
deriving DecidableEq, Repr

/-- A leaf entry held by a translation unit (09 R207): the page's first address divided by 64 KiB and its leaf. -/
structure TlbEntry where
  core : Nat
  ctx : Nat
  page : Nat
  large : Bool
  leaf : BitVec 64
deriving DecidableEq, Repr

/-- The directory entry of a line (09 R220). -/
structure LineDir where
  sharers : BitVec 16
  owner : Option Nat
deriving DecidableEq, Repr

/-! ## Launches, contexts and registers -/

/-- Who offers a launch record (07 R181; 06 R177). -/
inductive OfferSrc where
  | window (port : Bool) (win : Nat)
  | device (w : Nat) (gd : BitVec 6)
deriving DecidableEq, Repr

/-- An offer whose outcome is not known. -/
structure Offer where
  src : OfferSrc
  record : BitVec 512
  ctx : Nat
deriving DecidableEq, Repr

/-- A record in the pending-launch store (07 R183, R185, R189). -/
structure Launch where
  record : BitVec 512
  ctx : Nat
  lnum : Nat
  /-- the model's own: tells launches apart whose numbers are equal after the wrap of R183, and orders acceptance among
  other happenings -/
  key : Nat
  /-- the origin, once its first team is placed -/
  origin : Option Nat
  placed : Nat
  retired : Nat
deriving DecidableEq, Repr

/-- The reserving gang (07 R192, R193). -/
structure Gang where
  /-- the key of its launch -/
  launch : Nat
  reserved : List Place
  age : Nat
deriving DecidableEq, Repr

/-- A launch window (07 R180). -/
structure Window where
  record : BitVec 512
  ctx : BitVec 6
  lnum : Word
  busy : Bool
  acc : Bool
  refused : Bool
  bad : Bool
  why : BitVec 4
deriving DecidableEq, Repr

/-- A cue-table handle (12 R278): while hanging, the warp, the g register of the status, the range, and the path's lanes
with the identifier its HANG was issued at; once hung, the range, and whether CUEREL is releasing it. -/
inductive Handle where
  | unbound
  | hanging (w : Nat) (gd : BitVec 6) (va pa rows ew : Nat) (lanes : Mask) (id : Nat)
  | hung (pa rows ew : Nat) (releasing : Bool)
deriving DecidableEq, Repr

/-- A pending prompt (19 R393). -/
structure Prompt where
  ctx : Nat
  tag : Nat
  w : Nat
deriving DecidableEq, Repr

/-- A strike under way (19 R398, R399): its context; for a launch strike the key of the launch, and its number, else 0; and
the cause. -/
structure Strike where
  ctx : Nat
  launch : Option Nat
  lnum : Nat
  cause : Nat
deriving DecidableEq, Repr

/-- The register sets of a context (09 R209; 19 R386). -/
structure Ctx where
  en : Bool
  root : BitVec 39
  pbase : BitVec 11
  phw0 : BitVec 15
  rstride : BitVec 31
  iscope : BitVec 2
  iva : BitVec 40
  /-- IBUSY; the running invalidation uses ISCOPE and IVA, which no write changes meanwhile -/
  ibusy : Bool
  log2n : BitVec 5
  rbase : BitVec 40
  pprod : Word
  lost : Bool
  pcons : Word
  prval : DWord
  ptag : BitVec 16
  miss : Bool
  stopped : Bool
  draining : Bool
  busy : Bool
  asserted : Bool
  deadline : BitVec 24
  /-- the clock at which the drain timer runs out -/
  timer : Option Nat
  lsnum : Word
  /-- records waiting to be written, oldest first -/
  records : List EvRec
deriving DecidableEq, Repr

/-- The registers of a logical core (16 R353, R354; 19 R388, R390; 22 R421). -/
structure CoreRegs where
  cprSlot : BitVec 4
  stallCycles : BitVec 40
  stallEvents : BitVec 24
  /-- HOLDSEL -/
  hsel : BitVec 18
  /-- TEAMCTL: TSLOT, OP, WARP, NEWHW, PHW -/
  tslot : BitVec 4
  top : BitVec 2
  twarp : BitVec 7
  tnew : Bool
  tphw : BitVec 15
  /-- the launch that the last OP 3 of this core strikes, by its key, until the strike ends -/
  tstrike : Option Nat
  eolh : Word
deriving DecidableEq, Repr

/-- The wear state of a physical core (22 R421, R422). -/
structure Wear where
  margin : BitVec 10
  gband : BitVec 6
  worn : Bool
deriving DecidableEq, Repr

/-- The link of a port (21 R416). -/
structure Port where
  up : Bool
  f256 : Bool
  lanes : BitVec 5
deriving DecidableEq, Repr

/-- A peer window register (21 R419). -/
structure PeerWin where
  en : Bool
  port : Bool
  size : BitVec 6
  fbase : BitVec 48
deriving DecidableEq, Repr

/-- The answer the module gives an agent outside it (12 R280; 21 R418, R420): an error status, and the data of a read. -/
structure Reply where
  error : Bool
  data : Nat
deriving DecidableEq, Repr

/-- What a request through a peer window asks (21 R420). -/
inductive PeerOp where
  | read
  | write (v : DWord)
  /-- an atomic with its operation and type codes, operand and compare value -/
  | atomic (op ty : Nat) (v cmp : DWord)
deriving DecidableEq, Repr

/-- A request that left through a port for a peer module: fabric address, bytes and operation (21 R420). -/
structure PeerReq where
  port : Bool
  addr : Nat
  size : Nat
  op : PeerOp
deriving DecidableEq, Repr

/-- Whose move is next: a warp's issue, an event of another agent, time passing, as cycles per die (log 1, 2), or a move
the hardware makes of its own accord. -/
inductive Turn where
  | issue (w : Nat)
  | event (i : Instr)
  | elapse (cycles : List Nat)
  /-- an L2 evicts a line (09 R220) -/
  | evict (die line : Nat)
  /-- a directory drops the entry of a line (09 R220) -/
  | dropDir (line : Nat)
  /-- a memory-side cache gives up a line (09 R221) -/
  | hubEvict (line : Nat)
  /-- the casting engine reads n bytes at an address for the warp's casting instruction (10 R245) -/
  | castRead (w va n : Nat)
deriving DecidableEq, Repr

/-- Default values of the tables. -/
def Rejoin.zero : Rejoin := ⟨0, 0⟩

/-- A bank as it is granted (07 R188; 14 R298, R299). -/
def Bank.zero : Bank :=
  { mash := false, ops := [], cnt := 0, sat := false, rack := [], acc := [], ecol := [], nan := [],
    sw := [] }

/-- The register sets of a context after reset (09 R209; 19 R386). -/
def Ctx.zero : Ctx :=
  { en := false, root := 0, pbase := 0, phw0 := 0, rstride := 0, iscope := 0, iva := 0, ibusy := false,
    log2n := 4, rbase := 0, pprod := 0, lost := false, pcons := 0, prval := 0, ptag := 0, miss := false,
    stopped := false, draining := false, busy := false, asserted := false, deadline := 0x2710, timer := none,
    lsnum := 0, records := [] }

/-- The registers of a core after reset (16 R353, R354; 19 R388, R390; 22 R421). -/
def CoreRegs.zero : CoreRegs :=
  { cprSlot := 0, stallCycles := 0, stallEvents := 0, hsel := 0, tslot := 0, top := 0, twarp := 0, tnew := false,
    tphw := 0, tstrike := none, eolh := 0xFFFFFFFF }

/-- Wear of a core, where nothing is recorded (DESIGN CHOICE, log 7). -/
def Wear.zero : Wear := ⟨0, 0, false⟩

/-- A launch window after reset (07 R180). -/
def Window.zero : Window := ⟨0, 0, 0, false, false, false, false, 0⟩

/-- A peer window after reset (21 R419). -/
def PeerWin.zero : PeerWin := ⟨false, false, 0x10, 0⟩

/-- A line no die holds. -/
def LineDir.zero : LineDir := ⟨0, none⟩

/-- A port after reset (21 R416). -/
def Port.zero : Port := ⟨false, false, 0⟩

/-- The state of the module. -/
structure State where
  /-- the stacks and host memory, by storage cell (`State.cellOf`; 09 R202, R203): unlisted bytes read 0 (DESIGN CHOICE, log
  4) -/
  mem : List Host.Cell
  /-- by storage cell: lines a memory-side cache holds, and their bytes not written back to the stacks (09 R221) -/
  mscHeld : Table Bool
  mscDirty : Table (Option Byte)
  /-- by physical address: bytes some L2 holds and has not written back (09 R220) -/
  dirty : Table (Option Byte)
  /-- directory entries by line (09 R220) -/
  dir : Table LineDir
  /-- by word, at physical address ÷ 4: the values written over while a launch was accepted, newest first, each with the
  identifier that was next when it was replaced (02 R62) -/
  olds : Table (List (Nat × Word))
  /-- by physical byte: the releases whose values its value carries, each with its core and identifier (10 R230, R236) -/
  rels : Table (List (Nat × Nat))
  l1 : List L1Line
  tlb : List TlbEntry
  /-- scratch bytes, at core × 2^23 + bank × 2^18 + byte -/
  scratch : Table Byte
  /-- lines that are empty, at core × 2^16 + bank × 2^11 + line -/
  empty : Table Bool
  /-- banks, at 32 × core + bank -/
  banks : Table Bank
  /-- teams, at 16 × core + team slot of their (even) core -/
  teams : Table (Option Team)
  /-- warps, at 48 × core + 12 × wing + slot -/
  warps : Table (Option Warp)
  copies : List Copy
  /-- cast commands by core, the first running or about to -/
  casts : Table (List CastCmd)
  loads : List Outst
  stores : List PStore
  /-- accepted launches, in order of acceptance -/
  launches : List Launch
  nextLaunch : Word
  offers : List Offer
  origin : Nat
  gang : Option Gang
  /-- launch windows, at 64 × port + window -/
  windows : Table Window
  ctxs : Table Ctx
  everEn : Bool
  /-- handles, at 16 × context + number -/
  handles : Table Handle
  prompts : List Prompt
  strikes : List Strike
  ipool : BitVec 7
  slabs : Table (BitVec 6)
  relMask : BitVec 16
  relCtx : BitVec 6
  ports : Table Port
  sems : Table (BitVec 2)
  peers : Table PeerWin
  /-- requests that left for peer modules, oldest first (21 R420) -/
  sent : List PeerReq
  /-- the last answer given to an agent outside the module -/
  reply : Option Reply
  cores : Table CoreRegs
  /-- by physical core -/
  wear : Table Wear
  dcmap : BitVec 256
  lastseq : Word
  policy : BitVec 3584
  armed : Option (BitVec 3584)
  polBad : Bool
  nonce : BitVec 256
  attBusy : Bool
  attNonce : BitVec 256
  report : BitVec 4096
  watts : BitVec 16
  /-- junction temperature of each die, in °C (22 R429, R430) -/
  temps : Table (BitVec 8)
  thr : Bool
  throttled : BitVec 16
  /-- $clock of each die -/
  clock : Table Nat
  /-- the model's own: whose turns come next -/
  agenda : List Turn
  /-- the model's own: the warp that issues -/
  cur : Nat
  /-- the model's own: the next identifier -/
  nextId : Nat
  /-- the model's own: counts the free values used (log 3) -/
  free : Nat
deriving DecidableEq, Repr

/-- Why a step of the model stops with a fault. -/
inductive Fault where
  /-- HOST_CXL_MEM_REQUEST or PEER_MODULE_REQUEST that reaches past the 768 GiB HDM range (21 R413), at an address the
  spec does not give the module; raised by execHostCxlMemRequest and execPeerModuleRequest. Safe: nothing is claimed of
  it. -/
  | hostOutsideHdm
deriving DecidableEq, Repr

/-- Why the model gives no outcome. -/
inductive Refusal where
  /-- an arm of `exec` without a meaning yet; safe -/
  | notModelled (mnemonic : String)
  /-- an instruction of a path is executed where no path issues; raised by every instruction meaning, never by `step`;
  safe -/
  | noPath
deriving DecidableEq, Repr

/-- The canonical form of memory: rising addresses, no byte equal to the 0 that an unlisted address reads as. -/
abbrev Memory.wf (m : List Host.Cell) : Bool := twf (0 : Byte) m

/-- The module right after module reset (22 R431 and the Reset columns); every value the spec does not give is named in
INVENTORY.md and the log. -/
def State.reset : State :=
  { mem := [], mscHeld := [], mscDirty := [], dirty := [], dir := [], olds := [], rels := [], l1 := [], tlb := [], scratch := [], empty := [], banks := [], teams := [],
    warps := [], copies := [], casts := [], loads := [], stores := [], launches := [], nextLaunch := 1, offers := [],
    origin := 0, gang := none, windows := [], ctxs := [], everEn := false, handles := [], prompts := [], strikes := [],
    ipool := 0x60, slabs := [], relMask := 0, relCtx := 0, ports := [], sems := [], peers := [], sent := [], reply := none, cores := [], wear := [],
    dcmap := 0, lastseq := 0, policy := 0, armed := none, polBad := false, nonce := 0, attBusy := false, attNonce := 0,
    report := 0, watts := 0, temps := [], thr := false, throttled := 0, clock := [], agenda := [], cur := 0, nextId := 0,
    free := 0 }

end Sys2Proof.Machine
end

