-- ==== Sys2Proof/Machine/Warps.lean ====
section
/-! DEFINITION. Masks of lanes, and the warps, teams, paths, registers and monitors of a state (01 R13 to R24; 05 R122 to
R134; 11 R271, R272). -/

namespace Sys2Proof.Machine

/-! ## Masks -/

/-- Lanes 0 to 63. -/
def allLanes : List Nat := List.range 64

/-- The lanes of a mask, rising. -/
def lanesOf (m : Mask) : List Nat := allLanes.filter fun l => m.getLsbD l

/-- The mask of one lane. -/
def laneBit (l : Nat) : Mask := BitVec.ofNat 64 (2 ^ l)

/-- The mask of a list of lanes. -/
def maskOf (ls : List Nat) : Mask := ls.foldl (fun m l => m ||| laneBit l) 0

/-- The lowest lane of a mask; 0 for the empty mask. -/
def lowest (m : Mask) : Nat := (lanesOf m).headD 0

/-- The mask of the lanes below n. -/
def lanesBelow (n : Nat) : Mask := BitVec.ofNat 64 (2 ^ n - 1)

/-! ## Warps, teams and paths -/

/-- Logical core of a warp's global slot number (09 R216). -/
def coreOf (w : Nat) : Nat := w / 48
/-- Wing of a warp's global slot number. -/
def wingOf (w : Nat) : Nat := w % 48 / 12
/-- Slot in the wing of a warp's global slot number. -/
def wslotOf (w : Nat) : Nat := w % 12

/-- The warp in a slot. -/
def State.warp (s : State) (w : Nat) : Option Warp := tget none s.warps w
/-- The team at a key. -/
def State.team (s : State) (t : Nat) : Option Team := tget none s.teams t

/-- Replace a warp. -/
def State.setWarp (s : State) (w : Nat) (W : Warp) : State := { s with warps := tput none s.warps w (some W) }
/-- Replace a team. -/
def State.setTeam (s : State) (t : Nat) (T : Team) : State := { s with teams := tput none s.teams t (some T) }

/-- Change a warp, where there is one. -/
def State.modWarp (s : State) (w : Nat) (f : Warp → Warp) : State :=
  match s.warp w with
  | some W => s.setWarp w (f W)
  | none => s

/-- Change a team, where there is one. -/
def State.modTeam (s : State) (t : Nat) (f : Team → Team) : State :=
  match s.team t with
  | some T => s.setTeam t (f T)
  | none => s

/-- The path of a warp whose lowest lane is r (05 R124). -/
def Warp.path (W : Warp) (r : Nat) : Option Path := W.paths.find? fun P => lowest P.lanes = r

/-- Change the path whose lowest lane is r. -/
def Warp.modPath (W : Warp) (r : Nat) (f : Path → Path) : Warp :=
  { W with paths := W.paths.map fun P => if lowest P.lanes = r then f P else P }

/-- Put a path in its place by lowest lane. -/
def insertPath (P : Path) : List Path → List Path
  | [] => [P]
  | Q :: t => if lowest P.lanes < lowest Q.lanes then P :: Q :: t else Q :: insertPath P t

/-- Remove the path whose lowest lane is r. -/
def Warp.dropPath (W : Warp) (r : Nat) : Warp := { W with paths := W.paths.filter fun P => lowest P.lanes ≠ r }

/-- The global slot numbers of a team's warps. -/
def Team.slots (T : Team) : List Nat := T.place.wslots

/-- Warps of a team (05 R125). -/
def Team.warpCount (T : Team) : Nat := (T.threads + T.width - 1) / T.width

/-- The team slot of a team on a core (05 R129). -/
def Team.slotOn (T : Team) (core : Nat) : Nat := if core = T.place.core then T.place.slot0 else T.place.slot1

/-- The team that holds a team slot of a core: its key. -/
def State.teamAt (s : State) (core slot : Nat) : Option Nat :=
  (s.teams.find? fun e => match e.2 with
    | some T => decide ((T.place.core = core ∧ T.place.slot0 = slot) ∨
        (T.place.pair = true ∧ T.place.core + 1 = core ∧ T.place.slot1 = slot))
    | none => false).map (·.1)

/-- The physical core of a logical core: the n-th core whose pair is not deconfigured (22 R426). -/
def physCore (dc : BitVec 256) (n : Nat) : Nat :=
  2 * (((List.range 256).filter fun p => !dc.getLsbD p)[n / 2]?).getD 0 + n % 2

/-- Logical cores of the module (22 R425). -/
def coreCount (dc : BitVec 256) : Nat := 2 * ((List.range 256).filter fun p => !dc.getLsbD p).length

/-- The physical die of a logical core (01 R23). -/
def State.dieOf (s : State) (core : Nat) : Nat := physCore s.dcmap core / 32

/-- $clock of a core's die. -/
def State.clockOf (s : State) (core : Nat) : Nat := tget 0 s.clock (s.dieOf core)

/-- The path that issues: its warp's slot number, its warp, itself, and its team. -/
structure Ix where
  w : Nat
  W : Warp
  P : Path
  T : Team
deriving DecidableEq, Repr

/-- The issuing path of a state: the path of warp `cur` whose scene runs. -/
def State.issuing (s : State) : Option Ix :=
  match s.warp s.cur with
  | none => none
  | some W =>
    match W.running with
    | none => none
    | some r =>
      match W.path r, s.team W.team with
      | some P, some T => some ⟨s.cur, W, P, T⟩
      | _, _ => none

/-- Lanes of the issuing path. -/
def Ix.lanes (x : Ix) : List Nat := lanesOf x.P.lanes
/-- Lowest lane of the issuing path. -/
def Ix.low (x : Ix) : Nat := lowest x.P.lanes
/-- Core of the issuing path. -/
def Ix.core (x : Ix) : Nat := coreOf x.w
/-- Words of the scene issued before this instruction. -/
def Ix.words (x : Ix) : Nat := match x.P.scene with | some c => c.words | none => 0

/-! ## Registers -/

/-- Vector register `r` of lane `l`. -/
def Warp.reg (W : Warp) (l r : Nat) : Word := tget 0 W.v (128 * l + r)
/-- Write vector register `r` of lane `l`. -/
def Warp.setReg (W : Warp) (l r : Nat) (x : Word) : Warp := { W with v := tput 0 W.v (128 * l + r) x }
/-- Write a register or a pair of lane `l` (01 R15, R16). -/
def Warp.setDst (W : Warp) (wide : Bool) (l r : Nat) (x : DWord) : Warp :=
  if wide then (W.setReg l r (x.setWidth 32)).setReg l (r + 1) ((x >>> 32).setWidth 32) else W.setReg l r (x.setWidth 32)
/-- A register pair of lane `l` (01 R15). -/
def Warp.pair (W : Warp) (l r : Nat) : DWord := (W.reg l (r + 1)) ++ (W.reg l r)

/-- Residue register `n` of lane `l`. -/
def Warp.res (W : Warp) (l n : Nat) : Word := tget 0 W.e (8 * l + n)
/-- Write residue register `n` of lane `l`. -/
def Warp.setRes (W : Warp) (l n : Nat) (x : Word) : Warp := { W with e := tput 0 W.e (8 * l + n) x }

/-- Uniform register `n`; g63 reads 0 (01 R18). -/
def Warp.greg (W : Warp) (n : Nat) : DWord := if n = 63 then 0 else tget 0 W.g n
/-- Write uniform register `n`; a write to g63 is ignored (01 R18). -/
def Warp.setG (W : Warp) (n : Nat) (x : DWord) : Warp := if n = 63 then W else { W with g := tput 0 W.g n x }

/-- Mask register `n` as path `P` reads it: k0 is the path's lanes (01 R17). -/
def Warp.mask (W : Warp) (P : Path) (n : Nat) : Mask := if n = 0 then P.lanes else tget 0 W.k n
/-- Write all bits of mask register `n` below the warp width (01 R17). -/
def Warp.setK (W : Warp) (width n : Nat) (m : Mask) : Warp := { W with k := tput 0 W.k n (m &&& lanesBelow width) }
/-- Write the bits of lanes `ls` of mask register `n` (01 R17). -/
def Warp.setKLanes (W : Warp) (n : Nat) (ls m : Mask) : Warp :=
  { W with k := tput 0 W.k n ((tget 0 W.k n &&& ~~~ls) ||| (m &&& ls)) }

/-- Rejoin register `n`. -/
def Warp.join (W : Warp) (n : Nat) : Rejoin := tget Rejoin.zero W.j n
/-- Write rejoin register `n`. -/
def Warp.setJoin (W : Warp) (n : Nat) (r : Rejoin) : Warp := { W with j := tput Rejoin.zero W.j n r }

/-- Register codes that are legal: below the register count, and below 124 (01 R15). -/
def Team.regLimit (T : Team) : Nat := min T.regs 124

/-- Vector register `r` of lane `l` awaits a load, an atomic's reply or a cue query (01 R19). -/
def State.busyReg (s : State) (w l r : Nat) : Bool :=
  s.loads.any fun o => decide (o.w = w) && decide (o.lane = l) && !o.uni && decide (o.dest ≤ r) && decide (r < o.dest + o.nreg)

/-- Uniform register `n` awaits a load or the status of HANG or LAUNCH (01 R19; 06 R152, R177; 12 R278). -/
def State.busyG (s : State) (w n : Nat) : Bool :=
  (s.loads.any fun o => decide (o.w = w) && o.uni && decide (o.dest = n) && decide (o.nreg ≠ 0)) ||
  (s.handles.any fun h => match h.2 with | .hanging w' gd _ _ _ _ _ _ => decide (w' = w) && decide (gd.toNat = n) | _ => false) ||
  (s.offers.any fun o => match o.src with | .device w' gd => decide (w' = w) && decide (gd.toNat = n) | _ => false)

/-! ## Blocks, monitors and holds -/

/-- Wake a path from MONWAIT where one of its lanes has a fired monitor, or where `force` selects it (11 R272): 1 to each
lane whose monitor had fired, 0 to the others, and the monitors of the path's lanes disarmed. -/
def Warp.wakePath (force : Path → Bool) (W : Warp) (r : Nat) : Warp :=
  match W.path r with
  | none => W
  | some P =>
    match P.block with
    | some (.monwait _ n d) =>
      let hit := fun l => match tget none W.mon l with | some m => m.fired | none => false
      if force P || (lanesOf P.lanes).any hit then
        let W1 := (lanesOf P.lanes).foldl (fun W l => if n then W else W.setReg l d.toNat (if hit l then 1 else 0)) W
        let W2 := { W1 with mon := (lanesOf P.lanes).foldl (fun m l => tput none m l none) W1.mon }
        W2.modPath r fun P => { P with block := none }
      else W
    | _ => W

/-- Wake the paths of a warp from MONWAIT. -/
def Warp.wakeMon (W : Warp) (force : Path → Bool) : Warp :=
  (W.paths.map fun P => lowest P.lanes).foldl (Warp.wakePath force) W

/-- Fire the monitors of a warp that `hit` selects, and wake its MONWAITs (11 R271, R272). -/
def Warp.fireMon (W : Warp) (hit : Monitor → Bool) : Warp :=
  ({ W with mon := W.mon.map fun (e : Nat × Option Monitor) => (e.1, e.2.map fun m => if hit m then { m with fired := true } else m) }).wakeMon fun _ => false

/-- Change every warp. -/
def State.mapWarps (s : State) (f : Warp → Warp) : State :=
  { s with warps := s.warps.map fun e => (e.1, e.2.map f) }

/-- A write performed in physical line `line`, or the line leaving every L2, fires the armed monitors (11 R271). -/
def State.fireLine (s : State) (line : Nat) : State := s.mapWarps fun W => W.fireMon fun m => decide (m.pa / 128 = line)

/-- Change every warp of a die. -/
def State.mapWarpsOn (s : State) (die : Nat) (f : Warp → Warp) : State :=
  { s with warps := s.warps.map fun e => (e.1, if s.dieOf (coreOf e.1) = die then e.2.map f else e.2) }

/-- The line leaves the L2 of a die: its threads' monitors on the line fire (11 R271). -/
def State.fireLineOn (s : State) (die line : Nat) : State :=
  s.mapWarpsOn die fun W => W.fireMon fun m => decide (m.pa / 128 = line)

end Sys2Proof.Machine
end

