-- ==== Sys2Proof/Machine/Physical.lean ====
section
/-! DEFINITION. Physical memory and its places of execution (09 R202, R203, R219 to R223), the words a fetch may still
return after a write (02 R62), and translation (09 R205 to R208). -/

namespace Sys2Proof.Machine

/-! ## Physical memory -/

/-- The region of a physical address (09 R202). -/
def regionOf (pa : Nat) : Nat := pa / 2 ^ 48

/-- The port of a host-memory region (09 R202). -/
def hostPort (r : Nat) : Option Nat := if r = 4 ∨ r = 5 then some 0 else if r = 6 ∨ r = 7 then some 1 else none

/-- The link of a port is up (21 R416). -/
def State.portUp (s : State) (p : Nat) : Bool := (tget Port.zero s.ports p).up

/-- GiB per hub in the interleaved pool (09 R204). -/
def State.ipoolGiB (s : State) : Nat := s.ipool.toNat

/-- A physical address is backed (09 R202; 21 R414, R419). -/
def State.backed (s : State) (pa : Nat) : Bool :=
  let r := regionOf pa
  let x := pa % 2 ^ 48
  if r = 0 then decide (x < 8 * s.ipoolGiB * 2 ^ 30)
  else if r = 1 then decide (x / 2 ^ 43 = 0) && decide (x % 2 ^ 40 < (96 - s.ipoolGiB) * 2 ^ 30)
  else if r = 2 then decide (x < 2 ^ 22)
  else if r = 3 then false
  else if r < 8 then true
  else if r < 16 then
    let w := tget PeerWin.zero s.peers (r - 8)
    w.en && decide (x < 2 ^ w.size.toNat)
  else false

/-- The region is memory that L2 caches: HBM4 or host memory (09 R202). -/
def cachedRegion (r : Nat) : Bool := decide (r = 0) || decide (r = 1) || (decide (4 ≤ r) && decide (r < 8))

/-- An address behind which there is memory, reached over a link that is up. -/
def State.reaches (s : State) (pa : Nat) : Bool :=
  cachedRegion (regionOf pa) && s.backed pa && (match hostPort (regionOf pa) with | some p => s.portUp p | none => true)

/-- The hub an address of the stacks lies on (09 R203). -/
def hubOf (pa : Nat) : Nat := if regionOf pa = 0 then pa / 4096 % 8 else pa / 2 ^ 40 % 8

/-- The hub-local address of an address of the stacks (09 R203). -/
def State.hubLocal (s : State) (pa : Nat) : Nat :=
  if regionOf pa = 0 then pa / 4096 / 8 * 4096 + pa % 4096 else s.ipoolGiB * 2 ^ 30 + pa % 2 ^ 40

/-- The storage behind a physical address, as the key of `State.mem`: for the stacks the hub and the hub-local address, which
both pools share (09 R203); for any other address one of its own. -/
def State.cellOf (s : State) (pa : Nat) : Nat :=
  if regionOf pa < 2 ∧ s.backed pa then hubOf pa * 2 ^ 37 + s.hubLocal pa else 2 ^ 52 + pa

/-- The storage of a line, as a number of 128 cells. -/
def State.cellLine (s : State) (line : Nat) : Nat := s.cellOf (128 * line) / 128

/-- A byte as its hub has it: the memory-side cache's where that holds it unwritten, else the stacks' or the host's (09
R221). -/
def State.hubByte (s : State) (pa : Nat) : Byte :=
  match tget none s.mscDirty (s.cellOf pa) with
  | some b => b
  | none => tget 0 s.mem (s.cellOf pa)

/-- The current value of a byte of memory: an L2's where one holds it unwritten, else its hub's (09 R220, R221). -/
def State.byteAt (s : State) (pa : Nat) : Byte :=
  match tget none s.dirty pa with
  | some b => b
  | none => s.hubByte pa

/-- A byte as an agent reads it that raises no error of its own, such as a walk: a free value where there is no memory
(log 3). -/
def State.openByteAt (s : State) (pa : Nat) : Byte := if s.reaches pa then s.byteAt pa else Config.openByte s.free pa

/-- A little-endian number from bytes (00 R7). -/
def leNat : List Byte → Nat
  | [] => 0
  | b :: t => b.toNat + 256 * leNat t

/-- The n low bytes of a number, low byte first (00 R7). -/
def leBytes : Nat → Nat → List Byte
  | 0, _ => []
  | n + 1, v => BitVec.ofNat 8 v :: leBytes n (v / 256)

/-- A 64-bit word as a walk reads it. -/
def State.openWord64 (s : State) (pa : Nat) : Nat := leNat ((List.range 8).map fun i => s.openByteAt (pa + i))

/-- Two ranges [a, a + n) and [b, b + m) overlap. -/
def overlap (a n b m : Nat) : Bool := decide (a < b + m) && decide (b < a + n) && decide (0 < n) && decide (0 < m)

/-- Hung ranges: physical start and length (12 R278). -/
def State.hungRanges (s : State) : List (Nat × Nat) :=
  s.handles.filterMap fun h => match h.2 with | .hung pa rows _ _ => some (pa, 1024 * rows) | _ => none

/-- A physical range meets a hung entry. -/
def State.hitsHung (s : State) (pa n : Nat) : Bool := s.hungRanges.any fun r => overlap pa n r.1 r.2

/-! ### Memory-side caches (09 R221) -/

/-- Lines of 128 bytes a hub's memory-side cache holds: 1 GiB. -/
def mscLines : Nat := 2 ^ 23

/-- The memory-side cache of the line's hub may hold it, and has it or has room: HBM4 of its own hub, no line of a hung
range. -/
def State.mscTakes (s : State) (line : Nat) : Bool :=
  let c := s.cellLine line
  decide (c < 2 ^ 33) && !s.hitsHung (128 * line) 128 &&
  (tget false s.mscHeld c || decide ((s.mscHeld.filter fun e => decide (e.1 / 2 ^ 30 = c / 2 ^ 30)).length < mscLines))

/-- The memory-side cache takes a line, where it may. Which accesses make it take one the spec does not say: the model has it
take every line that an L2 misses or writes back, or a write reaches at the hub (DESIGN CHOICE, log 26). -/
def State.mscFill (s : State) (line : Nat) : State :=
  if s.mscTakes line then { s with mscHeld := tput false s.mscHeld (s.cellLine line) true } else s

/-- Memory with the n bytes from `base` that a table has. -/
def memFrom (d : Table (Option Byte)) (base n : Nat) (m : Table Byte) : Table Byte :=
  (List.range n).foldl (fun m i => match tget none d (base + i) with | some b => tput 0 m (base + i) b | none => m) m

/-- A memory-side cache writes a line back to the stacks and gives it up. -/
def State.mscDrop (s : State) (line : Nat) : State :=
  let c := s.cellLine line
  { s with
    mem := memFrom s.mscDirty (128 * c) 128 s.mem
    mscDirty := tclear s.mscDirty (128 * c) (128 * c + 128)
    mscHeld := tput false s.mscHeld c false }

/-- A byte arrives at its hub: it goes to the memory-side cache where that holds the line, else to the stack or host. -/
def State.hubPut (s : State) (pa : Nat) (b : Byte) : State :=
  let c := s.cellOf pa
  if tget false s.mscHeld (c / 128) then { s with mscDirty := tput none s.mscDirty c (some b) }
  else { s with mem := tput 0 s.mem c b, mscDirty := tput none s.mscDirty c none }

/-- The n bytes from `base` that a table has arrive at their hub. -/
def State.putFrom (s : State) (d : Table (Option Byte)) (base n : Nat) : State :=
  (List.range n).foldl (fun t i => match tget none d (base + i) with | some b => t.hubPut (base + i) b | none => t) s

/-- Write a line's unwritten bytes back to its hub (09 R220). -/
def State.writeBack (s : State) (line : Nat) : State :=
  { (s.mscFill line).putFrom s.dirty (128 * line) 128 with dirty := tclear s.dirty (128 * line) (128 * line + 128) }

/-! ### L2 and its directories (09 R219, R220) -/

/-- Home slice and set of a line, the same in every die, as one number: slice + 96 × set, of 96 slices and 4,096 sets (09
R219). -/
def l2Set (line : Nat) : Nat := line % 96 + 96 * (line / 96 % 4096)

/-- The die's L2 holds the line (09 R220). -/
def State.holds (s : State) (die line : Nat) : Bool := (tget LineDir.zero s.dir line).sharers.getLsbD die

/-- A die obtains a line in S, through its hub's memory-side cache (09 R220, R221): the owner writes it back and keeps it
in S. -/
def State.share (s : State) (die line : Nat) : State :=
  if s.holds die line then s
  else
    let e := tget LineDir.zero s.dir line
    let s := (match e.owner with | some _ => s.writeBack line | none => s).mscFill line
    { s with dir := tput LineDir.zero s.dir line ⟨e.sharers ||| BitVec.ofNat 16 (2 ^ die), none⟩ }

/-- A die obtains a line in O: every other die loses it (09 R220). -/
def State.own (s : State) (die line : Nat) : State :=
  { s with dir := tput LineDir.zero s.dir line ⟨BitVec.ofNat 16 (2 ^ die), some die⟩ }

/-- No die holds the line any more: written back and invalidated, which fires the monitors on it (09 R220; 11 R271). -/
def State.recall (s : State) (line : Nat) : State :=
  let s := s.writeBack line
  ({ s with dir := tput LineDir.zero s.dir line LineDir.zero }).fireLine line

/-- A die's L2 evicts a line, which goes back to its hub where the die owns it (09 R220; 11 R271). -/
def State.evict (s : State) (die line : Nat) : State :=
  if s.holds die line then
    let e := tget LineDir.zero s.dir line
    let own := decide (e.owner = some die)
    let e' : LineDir := ⟨e.sharers &&& ~~~(BitVec.ofNat 16 (2 ^ die)), if own then none else e.owner⟩
    let s := if own then s.writeBack line else s
    ({ s with dir := tput LineDir.zero s.dir line e' }).fireLineOn die line
  else s

/-- Lines of a set that a die's L2 holds (09 R219). -/
def State.l2Ways (s : State) (die set : Nat) : Nat :=
  (s.dir.filter fun e => decide (l2Set e.1 = set) && e.2.sharers.getLsbD die).length

/-- The die's L2 holds the line in a set of more lines than its 12 ways. -/
def State.l2Over (s : State) (p : Nat × Nat) : Bool := s.holds p.1 p.2 && decide (12 < s.l2Ways p.1 (l2Set p.2))

/-- Every set of an L2 evicts what its 12 ways do not hold: the misses of a step allocate, and the lines that make room leave
before the step ends (09 R219, R220). Which line leaves is a free value (log 26). -/
def State.l2Trim (s : State) : State :=
  if s.dir.length ≤ 12 then s
  else
    let ps := (s.dir.flatMap fun e => (List.range Config.dies).map fun d => (d, e.1)).filter s.l2Over
    let k := Config.l2Victim s.free % ps.length
    (ps.drop k ++ ps.take k).foldl (fun (s : State) (p : Nat × Nat) => if s.l2Over p then s.evict p.1 p.2 else s) s

/-- A memory-side cache gives up a line it holds, of its own accord (09 R221). -/
def State.hubEvict (s : State) (line : Nat) : State := if tget false s.mscHeld (s.cellLine line) then s.mscDrop line else s

/-- Every line leaves every L2, written back. -/
def State.recallAll (s : State) : State :=
  let lines : List Nat := s.dirty.map (·.1 / 128) ++ s.dir.map (·.1)
  lines.eraseDups.foldl State.recall s

/-- IPOOL changes (09 R203, R204; 22 R431): the cells of the stacks keep their bytes and get other addresses. An L2 line
names its address, so every L2 writes its lines back first (DESIGN CHOICE, log 21). -/
def State.setSplit (s : State) (v : BitVec 7) : State := if s.ipool = v then s else { s.recallAll with ipool := v }

/-- Every line that some L2 holds unwritten goes back to its hub, or to the host's memory: a release at .system scope
performs the stores it covers there (10 R248). -/
def State.writeBackAll (s : State) : State := ((s.dirty.map (·.1 / 128)).eraseDups).foldl State.writeBack s

/-! ### Performing writes -/

/-- The distinct lines of physical bytes. -/
def linesOf (pas : List Nat) : List Nat := (pas.map (· / 128)).eraseDups

/-- The 32-bit word with an index, as it stands. -/
def State.wordAt (s : State) (i : Nat) : Word := BitVec.ofNat 32 (leNat ((List.range 4).map fun j => s.byteAt (4 * i + j)))

/-- The words that writes of bytes replace are noted while a launch is accepted: a later fetch may return them (02 R62). -/
def State.noteOld (s : State) (pas : List Nat) : State :=
  if s.launches.isEmpty then s
  else { s with olds := (pas.map (· / 4)).eraseDups.foldl (fun t i => tput [] t i ((s.nextId, s.wordAt i) :: tget [] t i)) s.olds }

/-- Writes that release nothing replace the releases the bytes carried (10 R230). -/
def State.clearRels (s : State) (pas : List Nat) : State :=
  { s with rels := pas.foldl (fun t pa => tput [] t pa []) s.rels }

/-- A die writes a line at its place of execution: it owns the line, and the monitors on it fire (09 R220; 11 R271). -/
def State.ownLine (s : State) (die line : Nat) : State := (s.own die line).fireLine line

/-- Perform writes of bytes of memory for a die at their place of execution (10 R238). Bytes behind a link that is down
are discarded (21 R417). -/
def State.performBytes (s : State) (die : Nat) (bs : List (Nat × Byte)) : State :=
  let bs := bs.filter fun e => s.reaches e.1
  let pas := bs.map (·.1)
  let s := (s.noteOld pas).clearRels pas
  let s := { s with dirty := bs.foldl (fun d e => tput none d e.1 (some e.2)) s.dirty }
  (linesOf pas).foldl (fun s l => s.ownLine die l) s

/-- A die reads lines of memory into its L2. -/
def State.shareBytes (s : State) (die : Nat) (pas : List Nat) : State :=
  (linesOf (pas.filter fun pa => s.reaches pa)).foldl (fun s l => s.share die l) s

/-! ## Translation -/

/-- The kinds of access a translation distinguishes (09 R206). -/
inductive Access where
  | load | store | fetch
deriving DecidableEq, Repr

/-- A translated address: the physical address for the die, that of replica 0, and the leaf's bits. -/
structure Xlat where
  pa : Nat
  pa0 : Nat
  large : Bool
  leaf : BitVec 64
deriving DecidableEq, Repr

/-- Leaf bit 2, W (09 R206). -/
def leafW (l : BitVec 64) : Bool := l.getLsbD 2
/-- Leaf bit 3, X. -/
def leafX (l : BitVec 64) : Bool := l.getLsbD 3
/-- Leaf bit 4, NC. -/
def leafNC (l : BitVec 64) : Bool := l.getLsbD 4
/-- Leaf bit 5, REP. -/
def leafREP (l : BitVec 64) : Bool := l.getLsbD 5

/-- A virtual address, 56 bits, is canonical (01 R21). -/
def canonical (va : Nat) : Bool := decide (va / 2 ^ 51 % 32 = 0) || decide (va / 2 ^ 51 % 32 = 31)

/-- What an entry of a page table is (09 R206, R208): causes 1 and 4, a table at an address, or a leaf. -/
inductive Entry where
  | bad (cause : Nat)
  | table (pa : Nat)
  | leaf (v : Nat)
deriving DecidableEq, Repr

/-- Read the entry of a level (09 R205, R206). -/
def entryOf (level v : Nat) : Entry :=
  if v % 2 = 0 then .bad 1
  else
    let addr := v % 2 ^ 52 / 2 ^ 8 * 2 ^ 8
    let isLeaf := decide (v / 2 % 2 = 1)
    if v / 2 ^ 6 % 4 ≠ 0 ∨ v / 2 ^ 52 ≠ 0 then .bad 4
    else if level = 3 then (if isLeaf && decide (addr % 2 ^ 16 = 0) then .leaf v else .bad 4)
    else if level = 2 then
      if isLeaf then (if addr % 2 ^ 21 = 0 then .leaf v else .bad 4) else .table addr
    else if isLeaf then .bad 4
    else if addr % (if level = 0 then 2 ^ 13 else 2 ^ 14) = 0 then .table addr else .bad 4

/-- Walk the page table of a context (09 R205): a cause, or whether the page is large, and its leaf. -/
def State.walk (s : State) (ctx va : Nat) : Except Nat (Bool × BitVec 64) :=
  let root := (tget Ctx.zero s.ctxs ctx).root.toNat * 2 ^ 13
  match entryOf 0 (s.openWord64 (root + 8 * (va / 2 ^ 42 % 1024))) with
  | .bad c => .error c
  | .leaf _ => .error 4
  | .table t1 =>
    match entryOf 1 (s.openWord64 (t1 + 8 * (va / 2 ^ 32 % 1024))) with
    | .bad c => .error c
    | .leaf _ => .error 4
    | .table t2 =>
      match entryOf 2 (s.openWord64 (t2 + 8 * (va / 2 ^ 21 % 2048))) with
      | .bad c => .error c
      | .leaf v => .ok (true, BitVec.ofNat 64 v)
      | .table t3 =>
        match entryOf 3 (s.openWord64 (t3 + 8 * (va / 2 ^ 16 % 32))) with
        | .bad c => .error c
        | .table _ => .error 4
        | .leaf v => .ok (false, BitVec.ofNat 64 v)

/-- The entries a walk reads, by address, in order (09 R205, R207). -/
def State.walkReads (s : State) (ctx va : Nat) : List Nat :=
  let e0 := (tget Ctx.zero s.ctxs ctx).root.toNat * 2 ^ 13 + 8 * (va / 2 ^ 42 % 1024)
  e0 :: match entryOf 0 (s.openWord64 e0) with
  | .table t1 =>
    let e1 := t1 + 8 * (va / 2 ^ 32 % 1024)
    e1 :: match entryOf 1 (s.openWord64 e1) with
    | .table t2 =>
      let e2 := t2 + 8 * (va / 2 ^ 21 % 2048)
      e2 :: match entryOf 2 (s.openWord64 e2) with
      | .table t3 => [t3 + 8 * (va / 2 ^ 16 % 32)]
      | _ => []
    | _ => []
  | _ => []

/-- A walk for a core brings the lines of the entries it reads into the L2 of the core's die, through their home slices (09
R207, R219, R220). -/
def State.walkLines (s : State) (core ctx va : Nat) : State := s.shareBytes (s.dieOf core) (s.walkReads ctx va)

/-- The translation unit's entry for an address (09 R207). -/
def State.tlbEntry (s : State) (core ctx va : Nat) : Option TlbEntry :=
  s.tlb.find? fun e => decide (e.core = core) && decide (e.ctx = ctx) &&
    (if e.large then decide (e.page / 32 = va / 2 ^ 21) else decide (e.page = va / 2 ^ 16)) &&
    Config.stillHeld s.free e.page

/-- The leaf that serves an address: the unit's, or the walk's. -/
def State.leafOf (s : State) (core ctx va : Nat) : Except Nat (Bool × BitVec 64) :=
  match s.tlbEntry core ctx va with
  | some e => .ok (e.large, e.leaf)
  | none => s.walk ctx va

/-- The physical address a leaf gives, replica 0's (09 R206). -/
def leafPa (large : Bool) (leaf : BitVec 64) (va : Nat) : Nat :=
  leaf.toNat % 2 ^ 52 / 2 ^ 16 * 2 ^ 16 + (if large then va % 2 ^ 21 else va % 2 ^ 16)

/-- The distance of replica d from replica 0 (09 R222). -/
def State.replica (s : State) (ctx d : Nat) : Nat := d * ((tget Ctx.zero s.ctxs ctx).rstride.toNat * 2 ^ 21)

/-- Translate a canonical address for a core (09 R207, R208, R222): the cause of its failure, or the translation. -/
def State.translate (s : State) (core ctx va : Nat) (k : Access) : Except Nat Xlat :=
  if !(tget Ctx.zero s.ctxs ctx).en then .error 6
  else match s.leafOf core ctx va with
    | .error c => .error c
    | .ok (large, leaf) =>
      if k = .store && !leafW leaf then .error 2
      else if k = .fetch && !leafX leaf then .error 3
      else
        let pa0 := leafPa large leaf va
        let pa := if leafREP leaf then pa0 + s.replica ctx (s.dieOf core) else pa0
        if s.backed pa then .ok ⟨pa, pa0, large, leaf⟩ else .error 5

/-- The translation unit keeps the leaf of a translation that succeeded, after the walk that brought it; it holds 512
(09 R207). -/
def State.keepLeaf (s : State) (core ctx va : Nat) (t : Xlat) : State :=
  match s.tlbEntry core ctx va with
  | some _ => s
  | none =>
    let s := s.walkLines core ctx va
    let same := fun (e : TlbEntry) => decide (e.core = core) && decide (e.ctx = ctx) && decide (e.page = va / 2 ^ 16)
    let rest := s.tlb.filter fun e => !same e
    let rest := if 512 ≤ (rest.filter fun e => decide (e.core = core)).length then
        rest.eraseP fun e => decide (e.core = core) else rest
    { s with tlb := rest ++ [⟨core, ctx, va / 2 ^ 16, t.large, t.leaf⟩] }

/-- The walk of a translation, where the translation unit has no leaf for it (09 R207). -/
def State.walkFor (s : State) (core ctx va : Nat) : State :=
  match s.tlbEntry core ctx va with | some _ => s | none => s.walkLines core ctx va

/-- After a translation that failed with a cause: the walk it made, which causes 6 and 7 precede, and no entry kept for the
access (09 R207, R208). -/
def State.dropLeaf (s : State) (core ctx va cause : Nat) : State :=
  let s := if 6 ≤ cause then s else s.walkFor core ctx va
  { s with tlb := s.tlb.filter fun e => !(decide (e.core = core) && decide (e.ctx = ctx) &&
      (if e.large then decide (e.page / 32 = va / 2 ^ 21) else decide (e.page = va / 2 ^ 16))) }

end Sys2Proof.Machine
end

