-- ==== Sys2Proof/Machine/Ops.lean ====
section
/-! DEFINITION. The shared operations of the meanings: the hold of a team, taking a fault (19 R378 to R389), retiring an
instruction, splitting a path, and the frame in which every instruction of a path runs (order of checks: 05 R147). -/

namespace Sys2Proof.Machine

/-! ## Holds -/

/-- The waits at which a hold stops a path inside its scene (19 R380). -/
def WaitKind.stops : WaitKind → Bool
  | .emptyLine => true
  | .bankPlace => true
  | .colrd _ => true
  | .bankSwitch _ => true
  | .copyPlace => true
  | .castPlace => true
  | .castRun => false
  | .unhang => false

/-- Stop the running path of a warp inside its scene, when it waits for an agent outside it (19 R380). -/
def Warp.stopWait (W : Warp) : Warp :=
  match W.running with
  | none => W
  | some r =>
    match W.path r with
    | some P =>
      match P.wait with
      | some k => if k.kind.stops then { W.modPath r (fun P => { P with wait := none, got := [] }) with running := none } else W
      | none => W
    | none => W

/-- No hold cause yet. -/
def Hold.empty : Hold := ⟨false, false, false, false, []⟩

/-- The banks of a team on a core (09 R211). -/
def Team.banksOn (T : Team) (core : Nat) : List Nat := if core = T.place.core then T.place.banks0 else T.place.banks1

/-- Raise the hold of a team (19 R378, R379) with a change of its record: a team not yet held stops its waiting paths, so
that a BANK among them closes no queue any more (15 R326), and fires its monitors (R271). The hold reaches its warps at once
(log 11). -/
def State.holdTeam (s : State) (t : Nat) (f : Hold → Hold) : State :=
  match s.team t with
  | none => s
  | some T =>
    match T.hold with
    | some h => s.setTeam t { T with hold := some (f h) }
    | none =>
      let s := s.setTeam t { T with hold := some (f Hold.empty) }
      T.slots.foldl (fun s w => s.modWarp w fun W => (W.stopWait).fireMon fun _ => true) s

/-! ## Taking a fault -/

/-- What a fault records (19 R389). -/
structure Trap where
  code : Nat
  cause : Nat
  addr : Nat
  aux0 : Nat
  aux1 : Nat
  lane : Option Nat
deriving DecidableEq, Repr

/-- A fault with no cause, address or auxiliary words. -/
def Trap.of (code : Nat) : Trap := ⟨code, 0, 0, 0, 0, none⟩

/-- The illegal-operand fault at a field code (01 R15, R17; 02 R57; 19 R389). -/
def Trap.operand (code : Nat) : Trap := ⟨2, 0, 0, code, 0, none⟩

/-- The event record of an issuing path (19 R385). -/
def Ix.record (x : Ix) (kind code cause addr aux0 aux1 lane : Nat) : EvRec :=
  { kind := kind, code := code, cause := cause, ctx := x.T.ctx, lnum := x.T.lnum, team := x.T.idx, warp := x.W.index,
    lane := lane, core := x.core, tslot := x.T.slotOn x.core, pc := x.P.pc.toNat, words := x.words, addr := addr,
    aux0 := aux0, aux1 := aux1, tag := 0 }

/-- Taking a fault (19 R379, R384, R389): the path stops before the instruction, inside its scene, with its stop record;
its team is held, and the fault's event record joins those the hold will write. A failed translation has made its walk,
and the translation unit keeps no entry for it (09 R207, R208). -/
def raise (x : Ix) (s : State) (st : Stop) (t : Trap) : State :=
  let s := if t.code = 14 then s.dropLeaf x.core x.T.ctx t.addr t.cause else s
  let s := s.modWarp x.w fun W =>
    { W.modPath x.low (fun P => { P with stop := some st, wait := none, got := [] }) with running := none }
  s.holdTeam x.W.team fun h =>
    { h with recs := h.recs ++ [x.record 3 t.code t.cause t.addr t.aux0 t.aux1 (t.lane.getD x.low)] }

end Sys2Proof.Machine

namespace Sys2Proof

/-! ## What an instruction is, beside its effect -/

/-- Roles reserved (05 R146). -/
def Instr.role? : Instr → Option Machine.Role
  | .copy .. => some .copy
  | .cast .. => some .copy
  | .casti .. => some .copy
  | .castsplit .. => some .copy
  | .castrd .. => some .copy
  | .castwr .. => some .copy
  | .mash .. => some .matrix
  | .rack .. => some .matrix
  | .colrd .. => some .matrix
  | .colclr .. => some .matrix
  | .mstat .. => some .matrix
  | .rcp .. => some .vector
  | .rsq .. => some .vector
  | .sqrt .. => some .vector
  | .exp2 .. => some .vector
  | .log2 .. => some .vector
  | .sin .. => some .vector
  | .cos .. => some .vector
  | .tanh .. => some .vector
  | .cvt .. => some .vector
  | .cvtr .. => some .vector
  | .rsdrd .. => some .vector
  | .rsdwr .. => some .vector
  | .mxsc .. => some .vector
  | .mxq .. => some .vector
  | .mxqr .. => some .vector
  | .mxdq .. => some .vector
  | .smxacc .. => some .vector
  | .smxfin .. => some .vector
  | .cue .. => some .vector
  | _ => none

/-- The width of the latch an instruction writes, in a warp of the given width (02 R56, R57; 06 R164). -/
def Instr.latch? (width : Nat) (i : Instr) : Option Bool :=
  match i with
  | .ldg .. => none
  | .ldgs .. => none
  | .lds .. => none
  | .ldss .. => none
  | .ldp .. => none
  | .ldps .. => none
  | .lda .. => none
  | .atom .. => none
  | .cue .. => none
  | .cast .. => none
  | .colrd .. => none
  | .mash .. => none
  | .copy .. => none
  | .imadw .. => some true
  | .add64 .. => some true
  | .sub64 .. => some true
  | .lea .. => some true
  | .smxacc .. => some true
  | .mov _ _ _ _ _ w => some w
  | .movs _ _ _ i => some (decide (9 ≤ i.toNat))
  | .cvt _ _ _ _ _ r _ t => some (!r && (decide (t = 3) || decide (t = 7)))
  | .vote _ _ _ _ m => some (decide (m = 2) && decide (width = 64))
  | .matchKeys .. => some (decide (width = 64))
  | .bcast _ _ _ _ w => some w
  | i => i.dest?.map fun _ => false

/-- Words of an instruction. -/
def Instr.len (i : Instr) : Nat := (encode i).length

/-- The scene-end bit of an instruction: bit 30 of its first word (02 R42). -/
def Instr.endsScene (i : Instr) : Bool := bit i.word1 30

/-- The stop record of a fault at instruction `i` in a warp of the given width. -/
def Instr.stop (i : Instr) (width : Nat) (t : Machine.Trap) : Machine.Stop := ⟨t.code, t.cause, i.len, i.endsScene, i.latch? width, false⟩

/-- The opcode of a first word, as records name it (19 R389 code 6). -/
def opcodeOf (w : Nat) : Nat := if w < 2 ^ 31 then w / 2 ^ 21 % 256 else w / 2 ^ 22 % 128

/-- The illegal-instruction fault at the words of `i` (19 R389 code 1). -/
def Instr.illegal (i : Instr) : Machine.Trap :=
  ⟨1, 0, i.word1, i.ext?.getD 0, (i.prefix?.map pfxWord).getD 0, none⟩

end Sys2Proof

namespace Sys2Proof.Machine

/-! ## Ends of scenes, retiring, splitting -/

/-- A scene ended in a wing of a core: the YIELDs of the wing's other paths are over (06 R157). -/
def State.wakeYields (s : State) (w r : Nat) : State :=
  { s with warps := s.warps.map fun e =>
      if decide (e.1 / 12 = w / 12) then (e.1, e.2.map fun W =>
        { W with paths := W.paths.map fun P =>
            match P.block with
            | some (.yield _) => if decide (e.1 = w) && decide (lowest P.lanes = r) then P else { P with block := none }
            | _ => P })
      else e }

/-- End the running scene of the path r of warp w. -/
def State.endScene (s : State) (w r : Nat) : State :=
  (s.modWarp w fun W => { W.modPath r (fun P => { P with scene := none }) with running := none }).wakeYields w r

/-- The scene after one more instruction (02 R54, R56). -/
def Scene.push (c : Scene) (len : Nat) (l : Option Latch) : Scene := ⟨c.words + len, (l :: c.latches).take 4⟩

/-- A path after an instruction of `len` words with latch `l` (01 R21; 02 R54, R56; 19 R379 step 5). -/
def Path.advance (P : Path) (len : Nat) (l : Option Latch) (held : Bool) : Path :=
  { P with pc := P.pc + BitVec.ofNat 56 (4 * len), scene := P.scene.map fun c => c.push len l, wait := none, done := 0,
           stop := none, skid := if held then P.skid + 1 else P.skid, count := P.count + 1, got := [] }

/-- The instruction counts towards the path's skid: its team is held, and its scene had issued one before, since the hold
reaches a running scene once its first instruction has issued (19 R379 step 5, R381); or it is a CAST whose command the hold
waits for, the first of its scene too (17 R364). -/
def Ix.skids (x : Ix) : Bool :=
  x.T.hold.isSome && (decide (x.words ≠ 0) || (match x.P.wait with | some k => decide (k.kind = .castRun) | none => false))

/-- Retire an instruction: the path goes on to the next word, in its scene or, with E = 1, past the scene's end. -/
def retire (x : Ix) (i : Instr) (s : State) (l : Option Latch) : State :=
  let s := s.modWarp x.w fun W => W.modPath x.low fun P => P.advance i.len l x.skids
  if i.endsScene then s.endScene x.w x.low else s

/-- A fresh path (05 R123, R140). -/
def Path.fresh (lanes : Mask) (pc : VAddr) : Path :=
  { lanes := lanes, pc := pc, age := 0, full := 0, block := none, scene := none, wait := none, done := 0, skid := 0,
    stop := none, count := 0, got := [] }

/-- The lanes of a list that go to one target. -/
def lanesTo (f : List (Nat × VAddr)) (t : VAddr) : Mask := maskOf ((f.filter fun e => e.2 = t).map (·.1))

/-- The distinct targets of a list, in order. -/
def targets : List (Nat × VAddr) → List VAddr
  | [] => []
  | (_, t) :: r => t :: (targets r).filter fun u => u ≠ t

/-- Replace path r by the paths of the lanes with equal next PCs (03 R90). -/
def Warp.split (W : Warp) (r : Nat) (f : List (Nat × VAddr)) : Warp :=
  match W.path r with
  | none => W
  | some P =>
    { W with paths := (targets f).foldl (fun l t => insertPath { P with lanes := lanesTo f t, pc := t } l) (W.dropPath r).paths }

/-- Retire a control transfer: the scene ends and the path splits by next PC (03 R90). -/
def transfer (x : Ix) (i : Instr) (s : State) (f : List (Nat × VAddr)) : State :=
  (retire x i s none).modWarp x.w fun W => W.split x.low f

/-! ## The frame of an instruction -/

/-- What the effect of an instruction on its issuing path comes to. -/
inductive Res where
  /-- done: the state, and the latch written -/
  | ok (s : State) (l : Option Latch)
  /-- done: each lane has its own next PC -/
  | move (s : State) (f : List (Nat × VAddr))
  /-- done: the scene has ended and the effect has disposed of the path -/
  | gone (s : State)
  /-- done: the path is blocked past its scene end -/
  | block (s : State) (b : Block)
  /-- not done: the path is blocked at the instruction, which it executes again when woken (16 R343) -/
  | again (b : Block)
  /-- a fault, in the state of the lanes already performed -/
  | trap (s : State) (t : Trap)
  /-- the instruction waits in place for an agent outside the path, after `s` -/
  | wait (s : State) (k : WaitKind)
  /-- the instruction waits in place for a bounded time: nothing happens in this step (log 8) -/
  | stall
deriving Repr

/-- Record that the path waits in place at `i`; a path of a held team stops there (19 R380). -/
def waitAt (x : Ix) (i : Instr) (s : State) (k : WaitKind) : State :=
  let s := s.modWarp x.w fun W => W.modPath x.low fun P => { P with wait := some ⟨k, i⟩ }
  if x.T.hold.isSome then s.modWarp x.w Warp.stopWait else s

/-- Complete the step of instruction `i` with what its effect came to. -/
def finish (x : Ix) (i : Instr) (s0 : State) : Res → State
  | .ok s l => retire x i s l
  | .move s f => transfer x i s f
  | .gone s => s
  | .block s b => (retire x i s none).modWarp x.w fun W => W.modPath x.low fun P => { P with block := some b }
  | .again b =>
    (s0.modWarp x.w fun W => { W.modPath x.low (fun P => { P with block := some b }) with running := none }).wakeYields x.w x.low
  | .trap s t => raise x s (i.stop x.T.width t) t
  | .wait s k => waitAt x i s k
  | .stall => s0

/-- The scene's 24th word stands in an instruction without E = 1, or past it (02 R54). -/
def overlong (x : Ix) (i : Instr) : Bool :=
  decide (24 < x.words + i.len) || (decide (x.words + i.len = 24) && !i.endsScene)

/-- The code of a role in the record of the role fault (19 R389 code 6). -/
def Role.code : Role → Nat
  | .copy => 0
  | .matrix => 1
  | .vector => 2

/-- The checks that come before any operand: encoding (R51, R54, R55, R60), then role (05 R147). -/
def entryTrap (x : Ix) (i : Instr) : Option Trap :=
  if !i.wf || overlong x i then some i.illegal
  else match i.role? with
    | some r => if x.W.role = r then none else some ⟨6, x.W.role.code, 0, Sys2Proof.opcodeOf i.word1, 0, none⟩
    | none => none

/-- Run instruction `i` on the issuing path: the checks before operands, then its effect. -/
def run (i : Instr) (s : State) (body : Ix → Res) : Host.Outcome State Fault Refusal :=
  match s.issuing with
  | none => .refused .noPath
  | some x =>
    match entryTrap x i with
    | some t => .next (raise x s (i.stop x.T.width t) t)
    | none => .next (finish x i s (body x))

end Sys2Proof.Machine
end

