-- ==== Sys2Proof/Machine/Operands.lean ====
section
/-! DEFINITION. Operand forms: register codes, pairs, groups and bypass latches (01 R15; 02 R45, R56, R57), the prefix
rule of lane results (02 R53), and special registers (01 R23 to R25). -/

namespace Sys2Proof.Machine

/-- One operand of a lane instruction, by its field code. -/
inductive Use where
  /-- a 32-bit source: a register or a latch -/
  | src (c : Nat)
  /-- a 64-bit source: an even pair or a 64-bit latch -/
  | srcPair (c : Nat)
  /-- a register written, or a source that may name no latch -/
  | reg (c : Nat)
  /-- a pair written, or a pair source that may name no latch -/
  | regPair (c : Nat)
  /-- n consecutive registers from a multiple of `align`; no latch -/
  | group (c n align : Nat)
deriving DecidableEq, Repr

/-- The latch i (1 to 4) of the issuing path's scene, where the instruction that many back wrote one (02 R56, R57). -/
def Ix.latch (x : Ix) (i : Nat) : Option Latch :=
  match x.P.scene with
  | some c => ((c.latches[i - 1]?).getD none)
  | none => none

/-- The operand is legal (01 R15; 02 R45, R57). -/
def Use.ok (x : Ix) : Use → Bool
  | .src c => if c < 124 then decide (c < x.T.regLimit) else (x.latch (c - 123)).isSome
  | .srcPair c =>
    if c < 124 then decide (c % 2 = 0) && decide (c + 1 < x.T.regLimit)
    else match x.latch (c - 123) with | some l => l.wide | none => false
  | .reg c => decide (c < x.T.regLimit)
  | .regPair c => decide (c % 2 = 0) && decide (c + 1 < x.T.regLimit)
  | .group c n align => decide (c % align = 0) && decide (c + n ≤ x.T.regLimit)

/-- The field code of an operand. -/
def Use.code : Use → Nat
  | .src c => c
  | .srcPair c => c
  | .reg c => c
  | .regPair c => c
  | .group c _ _ => c

/-- Registers an operand names. -/
def Use.regs : Use → List Nat
  | .src c => if c < 124 then [c] else []
  | .srcPair c => if c < 124 then [c, c + 1] else []
  | .reg c => [c]
  | .regPair c => [c, c + 1]
  | .group c n _ => List.range' c n

/-- A register the operand names awaits a value in one of the lanes (01 R19). -/
def Use.busy (x : Ix) (s : State) (lanes : List Nat) (u : Use) : Bool :=
  u.regs.any fun r => lanes.any fun l => s.busyReg x.w l r

/-- The illegal-operand fault of the first illegal operand in field order (log 9). -/
def operandTrap (x : Ix) (us : List Use) : Option Trap :=
  (us.find? fun u => !u.ok x).map fun u => Trap.operand u.code

/-- Check and await the operands of the path's lanes, then go on. The checks are of the instruction, whatever lanes its
prefix selects (01 R15; 02 R57; log 9). -/
def withOperands (x : Ix) (s : State) (us : List Use) (k : Unit → Res) : Res :=
  match operandTrap x us with
  | some t => .trap s t
  | none => if us.any (Use.busy x s x.lanes) then .stall else k ()

/-- A 32-bit source in lane l; a 64-bit latch gives its low half (02 R56). -/
def Ix.src (x : Ix) (c l : Nat) : Word :=
  if c < 124 then x.W.reg l c
  else match x.latch (c - 123) with | some t => (tget 0 t.vals l).setWidth 32 | none => 0

/-- A 64-bit source in lane l. -/
def Ix.srcPair (x : Ix) (c l : Nat) : DWord :=
  if c < 124 then x.W.pair l c
  else match x.latch (c - 123) with | some t => tget 0 t.vals l | none => 0

/-! ## The prefix -/

/-- Mask register of an optional prefix (02 R53). -/
def pfxK (p : Option Pfx) : Nat := match p with | some q => q.k.toNat | none => 0
/-- Zero mode of an optional prefix. -/
def pfxZ (p : Option Pfx) : Bool := match p with | some q => q.z | none => false
/-- Fourth operand code: that of the prefix, or the d code (02 R53). -/
def pfxC (p : Option Pfx) (d : BitVec 7) : Nat := match p with | some q => q.c.toNat | none => d.toNat
/-- Rounding of an optional prefix (01 R31, R32). -/
def pfxRnd (p : Option Pfx) : Rnd := match p with | some q => ⟨q.rm.toNat, q.sat, false⟩ | none => Rnd.ne

/-- Lanes of the path whose mask bit is 1 (02 R53). -/
def Ix.active (x : Ix) (p : Option Pfx) : Mask := x.P.lanes &&& x.W.mask x.P (pfxK p)

/-- The current value of a destination, register or pair. -/
def Warp.dstVal (W : Warp) (wide : Bool) (l d : Nat) : DWord := if wide then W.pair l d else (W.reg l d).setWidth 64

/-- The value each lane of the path writes under the prefix rule (02 R53). -/
def laneVals (x : Ix) (p : Option Pfx) (wide : Bool) (d : Nat) (f : Nat → DWord) : List (Nat × DWord) :=
  x.lanes.map fun l => (l, if (x.active p).getLsbD l then f l else if pfxZ p then 0 else x.W.dstVal wide l d)

/-- Write a register or pair in each lane of a list. -/
def Warp.writeLanes (W : Warp) (wide : Bool) (d : Nat) (vs : List (Nat × DWord)) : Warp :=
  vs.foldl (fun W e => W.setDst wide e.1 d e.2) W

/-- The latch of the values a path's lanes write (02 R56). -/
def latchOf (wide : Bool) (vs : List (Nat × DWord)) : Latch :=
  ⟨wide, (vs.map fun e => (e.1, if wide then e.2 else (e.2.setWidth 32).setWidth 64)).filter fun e => e.2 ≠ 0⟩

/-- Write the result of a lane instruction: destination (unless N), and latch (02 R46, R53, R56). -/
def writeResult (x : Ix) (s : State) (n : Bool) (wide : Bool) (d : Nat) (vs : List (Nat × DWord)) : Res :=
  .ok (if n then s else s.setWarp x.w (x.W.writeLanes wide d vs)) (some (latchOf wide vs))

/-- A lane instruction with sources `us` and a 32-bit result. -/
def laneOp (x : Ix) (s : State) (n : Bool) (p : Option Pfx) (d : BitVec 7) (us : List Use) (f : Nat → Word) : Res :=
  withOperands x s (.reg d.toNat :: us) fun _ =>
    writeResult x s n false d.toNat (laneVals x p false d.toNat fun l => (f l).setWidth 64)

/-- A lane instruction with sources `us` and a 64-bit result. -/
def laneOp64 (x : Ix) (s : State) (n : Bool) (p : Option Pfx) (d : BitVec 7) (us : List Use) (f : Nat → DWord) : Res :=
  withOperands x s (.regPair d.toNat :: us) fun _ => writeResult x s n true d.toNat (laneVals x p true d.toNat f)

/-- A lane instruction that writes one bit per lane of mask register `kd` (03 R85): under a prefix a lane with k bit 0
keeps its bit, or gets 0 in zero mode. -/
def laneMaskOp (x : Ix) (s : State) (p : Option Pfx) (kd : BitVec 3) (us : List Use) (f : Nat → Bool) : Res :=
  if kd = 0 then .trap s (Trap.operand 0)
  else withOperands x s us fun _ =>
    let hit := maskOf (x.lanes.filter fun l => (x.active p).getLsbD l && f l)
    let ls := if pfxZ p then x.P.lanes else x.active p
    .ok (s.setWarp x.w (x.W.setKLanes kd.toNat ls hit)) none

/-- Check that uniform registers are not awaited, then go on (01 R19; 06 R152). -/
def withUniform (x : Ix) (s : State) (gs : List Nat) (k : Unit → Res) : Res :=
  if gs.any (s.busyG x.w) then .stall else k ()

/-- A uniform instruction with sources `gs` and a 64-bit result in g_d (06 R148). -/
def uniOp (x : Ix) (s : State) (d : BitVec 6) (gs : List Nat) (f : Unit → DWord) : Res :=
  withUniform x s (d.toNat :: gs) fun _ => .ok (s.setWarp x.w (x.W.setG d.toNat (f ()))) none

/-! ## Special registers (01 R23, R24) -/

/-- $roles of a team: the roles its warps hold (01 R24). -/
def Team.rolesReg (T : Team) : DWord :=
  if T.copyw = 0 ∧ T.matw = 0 ∧ T.vecw = 0 then BitVec.ofNat 64 (T.warpCount * 2 ^ 16)
  else BitVec.ofNat 64 (T.copyw + T.matw * 2 ^ 8 + T.vecw * 2 ^ 16)

/-- Special register `n` as lane `l` of the issuing path reads it. -/
def Ix.special (x : Ix) (s : State) (n l : Nat) : DWord :=
  match n with
  | 0 => BitVec.ofNat 64 l
  | 1 => BitVec.ofNat 64 x.W.index
  | 2 => BitVec.ofNat 64 x.T.idx
  | 3 => BitVec.ofNat 64 x.core
  | 4 => BitVec.ofNat 64 (s.dieOf x.core)
  | 5 => BitVec.ofNat 64 x.T.lnum
  | 6 => BitVec.ofNat 64 x.T.width
  | 7 => BitVec.ofNat 64 x.W.part
  | 8 => x.T.rolesReg
  | 9 => BitVec.ofNat 64 (s.clockOf x.core)
  | _ => x.W.seq

end Sys2Proof.Machine
end

