-- ==== Sys2Proof/Machine/Memory.lean ====
section
/-! DEFINITION. The L1 and the loads and stores a core has not performed (09 R218; 10 R227, R229, R234), scratch (09 R211 to
R214), private addresses (09 R216), multicast entries (16 R350) and the waits of releases and acquires (10 R235, R236). -/

namespace Sys2Proof.Machine

/-- The trap of a failed translation of a data access (19 R389 code 14). -/
def Trap.translation (cause va : Nat) (write : Bool) (lane : Option Nat) : Trap :=
  ⟨14, cause, va, if write then 1 else 0, 0, lane⟩

/-! ## L1 and the stores of a core -/

/-- The L1 line of a core, context and virtual line (09 R218). -/
def State.l1Line (s : State) (core ctx vline : Nat) : Option L1Line :=
  s.l1.find? fun e => decide (e.core = core) && decide (e.ctx = ctx) && decide (e.vline = vline) && Config.stillHeld s.free e.vline

/-- Remove lines of a core's L1. -/
def State.l1Drop (s : State) (core : Nat) (f : L1Line → Bool) : State :=
  { s with l1 := s.l1.filter fun e => !(decide (e.core = core) && f e) }

/-- A thread's read past L1: the lines of its bytes leave its core's L1, so that no later load of the thread returns an older
store from there (10 R229 rule 3). -/
def State.l1Pass (s : State) (core ctx : Nat) (vas : List Nat) : State :=
  s.l1Drop core fun e => decide (e.ctx = ctx) && vas.any fun va => decide (e.vline = va / 128)

/-- The bytes of a line of memory as one number. -/
def State.lineData (s : State) (line : Nat) : BitVec 1024 :=
  BitVec.ofNat 1024 (leNat ((List.range 128).map fun i => s.byteAt (128 * line + i)))

/-- A byte of a line. -/
def lineByte (d : BitVec 1024) (i : Nat) : Byte := (d >>> (8 * i)).setWidth 8

/-- A line with a byte replaced. -/
def lineSet (d : BitVec 1024) (i : Nat) (b : Byte) : BitVec 1024 :=
  (d &&& ~~~(BitVec.ofNat 1024 (255 * 2 ^ (8 * i)))) ||| BitVec.ofNat 1024 (b.toNat * 2 ^ (8 * i))

/-- Fill a line into a core's L1, 8 ways of 256 sets by VA[14:7] (09 R218). -/
def State.l1Fill (s : State) (core ctx vline pline : Nat) : State :=
  let s := s.l1Drop core fun e => decide (e.ctx = ctx) && decide (e.vline = vline)
  let mine := fun (e : L1Line) => decide (e.core = core) && decide (e.vline % 256 = vline % 256)
  let l := if 8 ≤ (s.l1.filter mine).length then s.l1.eraseP mine else s.l1
  { s with l1 := l ++ [⟨core, ctx, vline, pline, s.lineData pline⟩] }

/-- A load that has not obtained its value (10 R229 rule 5); a cue query is none (11 R268). One whose data carried an error
is made anew only after its team resumes, and what waits for earlier loads does not wait for it meanwhile (DESIGN CHOICE, log
12). -/
def Outst.pending (o : Outst) : Bool := decide (o.kind = .load) && !o.failed

/-- Lanes of a warp have loads that have not obtained their values, those to be made anew among them. -/
def State.loadsOut (s : State) (w : Nat) (lanes : Mask) : Bool :=
  s.loads.any fun o => decide (o.kind = .load) && decide (o.w = w) && lanes.getLsbD o.lane

/-- Its lane's earlier loads have their values (10 R229 rule 5). -/
def State.storeFree (s : State) (p : PStore) : Bool :=
  !(s.loads.any fun o => o.pending && decide (o.w = p.w) && decide (o.lane = p.lane) && decide (o.id < p.id))

/-- The first location number of scratch: a byte of scratch is the location `scrLoc` + its key (10 R227). -/
def scrLoc : Nat := 2 ^ 52

/-- The location is a byte of scratch. -/
def isScratch (loc : Nat) : Bool := decide (scrLoc ≤ loc)

/-- The address lies in a region no level caches: device registers or a peer window (09 R223). -/
def uncached (pa : Nat) : Bool := decide (regionOf pa = 2) || (decide (8 ≤ regionOf pa) && !isScratch pa)

/-- The peer window of a physical address. -/
def State.peerWin (s : State) (pa : Nat) : PeerWin := tget PeerWin.zero s.peers (regionOf pa - 8)

/-- The address lies in a peer window. -/
def isPeer (pa : Nat) : Bool := uncached pa && decide (regionOf pa ≠ 2)

/-- Where an access to a physical address leaves for a peer module: the port, and the address in the hosts' fabric, as the
window's register has them when the access is translated (21 R419, R420). -/
def State.peerAt (s : State) (pa : Nat) : Option (Bool × Nat) :=
  if isPeer pa then some ((s.peerWin pa).port, (s.peerWin pa).fbase.toNat * 2 ^ 16 + pa % 2 ^ 48) else none

/-- A request leaves for a peer module, where its port's link is up (21 R420). -/
def State.peerSend (s : State) (out : Option (Bool × Nat)) (size : Nat) (op : PeerOp) : State :=
  match out with
  | some (port, addr) => if s.portUp port.toNat then { s with sent := s.sent ++ [⟨port, addr, size, op⟩] } else s
  | none => s

/-- The link of a peer window's port is down (21 R417). -/
def State.peerDead (s : State) (out : Option (Bool × Nat)) : Bool :=
  match out with
  | some (port, _) => !s.portUp port.toNat
  | none => false

/-- A store to scratch. -/
def PStore.scratch (p : PStore) : Bool := p.bytes.any fun b => isScratch b.2.1

/-- A store that the other threads of its core see before it is performed (10 R234; 17 R372; log 12): it has left the
collector for L1, and its lane's earlier loads have their values. A store to scratch is seen when it is performed. -/
def State.visible (s : State) (p : PStore) : Bool := p.coll.isNone && !p.scratch && s.storeFree p

/-- The newest of a core's unperformed stores that a load of a lane sees and that `f` finds a byte in. -/
def State.storeByte (s : State) (w lane id : Nat) (f : PStore → Option Byte) : Option Byte :=
  s.stores.foldl (fun r p =>
    if decide (coreOf p.w = coreOf w) && (if decide (p.w = w) && decide (p.lane = lane) then decide (p.id < id) else s.visible p) then
      match f p with | some b => some b | none => r
    else r) none

/-- An MCST's store to the replica of another die than its core's (09 R222; 11 R260): no line of its core's L1 holds the
replica's bytes. -/
def State.farReplica (s : State) (p : PStore) : Bool := p.mcst && decide (p.id % 16 ≠ s.dieOf (coreOf p.w))

/-- The byte a store writes at a location. -/
def PStore.atPa (pa : Nat) (p : PStore) : Option Byte := (p.bytes.find? fun e => e.2.1 = pa).map (·.2.2)
/-- The byte a store of a context writes at a virtual address of its own die. -/
def State.atVa (s : State) (ctx va : Nat) (p : PStore) : Option Byte :=
  if p.ctx = ctx ∧ s.farReplica p = false then (p.bytes.find? fun e => e.1 = va).map (·.2.2) else none

/-- The current value of a location: a byte of scratch, or of memory. -/
def State.locByte (s : State) (loc : Nat) : Byte :=
  if isScratch loc then tget 0 s.scratch (loc - scrLoc) else s.byteAt loc

/-- A byte as a load obtains it (09 R218; 10 R234; log 12): from the L1 line where there is one, else from memory, with
the core's own unperformed stores. -/
def State.loadByte (s : State) (o : Outst) (a : Nat × Nat) : Byte :=
  match (if o.nc then none else s.l1Line (coreOf o.w) o.ctx (a.1 / 128)) with
  | some l => (s.storeByte o.w o.lane o.id (s.atVa o.ctx a.1)).getD (lineByte l.data (a.1 % 128))
  | none => (s.storeByte o.w o.lane o.id (PStore.atPa a.2)).getD (s.locByte a.2)

/-- The value a load returns, extended (11 R255). -/
def State.loadValue (s : State) (o : Outst) : Nat :=
  let v := leNat (o.addrs.map (s.loadByte o))
  if o.signed then (BitVec.ofInt 32 (sext (8 * o.addrs.length) v)).toNat else v

/-- The outstanding loads of locations that `hit` selects obtain their values now: what made the locations legal to read
is about to end (09 R214; 14 R294). -/
def State.settle (s : State) (hit : Nat → Bool) : State :=
  { s with loads := s.loads.map fun (o : Outst) =>
      if o.pending && o.addrs.any (fun a => hit a.2) then { o with kind := .value, value := BitVec.ofNat 128 (s.loadValue o) } else o }

/-- A byte of a load can be served: from L1, from scratch, or from memory (21 R417). -/
def State.served (s : State) (o : Outst) : Bool :=
  o.addrs.all fun a => (!o.nc && (s.l1Line (coreOf o.w) o.ctx (a.1 / 128)).isSome) || isScratch a.2 || s.reaches a.2

/-- A lane has a load of some of the bytes that has not obtained its value (10 R229 rule 3). -/
def State.laneLoadOn (s : State) (w lane : Nat) (pas : List Nat) : Bool :=
  s.loads.any fun o => o.pending && decide (o.w = w) && decide (o.lane = lane) && o.addrs.any fun a => pas.contains a.2

/-- Bring the lines of a load into the core's L1 and the die's L2. -/
def State.fillFor (s : State) (o : Outst) : State :=
  o.addrs.foldl (fun s a =>
    let core := coreOf o.w
    match (if o.nc then none else s.l1Line core o.ctx (a.1 / 128)) with
    | some _ => s
    | none =>
      if s.reaches a.2 then
        let s := s.share (s.dieOf core) (a.2 / 128)
        if o.nc then s else s.l1Fill core o.ctx (a.1 / 128) (a.2 / 128)
      else s) s

/-- A store performed at its place of execution also updates the core's L1 line where present (09 R218); an MCST does so
with its store to the replica of the core's own die (09 R222). -/
def State.l1Update (s : State) (p : PStore) : State :=
  { s with l1 := s.l1.map fun e =>
      if decide (e.core = coreOf p.w) && decide (e.ctx = p.ctx) && !s.farReplica p then
        { e with data := p.bytes.foldl (fun d b => if b.1 / 128 = e.vline then lineSet d (b.1 % 128) b.2.2 else d) e.data }
      else e }

/-- The cores a team occupies. -/
def Team.cores (T : Team) : List Nat := if T.place.pair then [T.place.core, T.place.core + 1] else [T.place.core]

/-! ## Waits and actions of releases and acquires (10 R235, R236) -/

/-- The scope is wider than the first column of R235. -/
def wideScope (T : Team) (sc : Nat) : Bool := if sc = 0 ∨ sc = 2 then false else if sc = 1 then T.place.pair else true

/-- A core has stores that are not performed. -/
def State.storesOut (s : State) (core : Nat) : Bool := s.stores.any fun p => decide (coreOf p.w = core)

/-- A store to a device register or a peer window. -/
def PStore.device (p : PStore) : Bool := p.bytes.any fun b => uncached b.2.1

/-- A store of some lanes of a warp has reached neither L1 nor its place of execution (10 R235): it is in the collector, or
on its way to a scratch bank or a device. -/
def State.storesNear (s : State) (w : Nat) (lanes : Mask) : Bool :=
  s.stores.any fun p => decide (p.w = w) && lanes.getLsbD p.lane && (p.coll.isSome || p.scratch || p.device)

/-- A release of the issuing path must still wait. -/
def Ix.releaseWaits (x : Ix) (s : State) (sc : Nat) : Bool :=
  s.loadsOut x.w x.P.lanes || (if wideScope x.T sc then s.storesOut x.core else s.storesNear x.w x.P.lanes)

/-- A store of a core that was issued before an identifier is not performed. -/
def State.storesBefore (s : State) (core id : Nat) : Bool :=
  s.stores.any fun p => decide (coreOf p.w = core) && decide (p.id < id)

/-- The bytes of an access carry the value of a narrow release before which its core issued a store that is not performed (10
R236). Whatever happens before that release or an earlier one of its core, through program order, a barrier, a ring or
another thread's release (10 R231), is among those stores; as a wide release awaits every store of its core, the model awaits
them all (log 12). -/
def State.promotes (s : State) (pas : List Nat) : Bool :=
  pas.any fun pa => (tget [] s.rels pa).any fun r => s.storesBefore r.1 r.2

/-- The cache action of an acquire (10 R235). -/
def Ix.acquire (x : Ix) (s : State) (sc : Nat) : State :=
  if wideScope x.T sc then s.l1Drop x.core fun e => decide (e.ctx = x.T.ctx) else s

/-! ## Scratch and private addresses -/

/-- A scratch offset resolved (09 R211): core, bank, byte in the bank; `none` outside the team's window. -/
def Team.scratchAt (T : Team) (o n : Nat) : Option (Nat × Nat × Nat) :=
  if o / 2 ^ 24 ≠ 0 then none
  else if o / 2 ^ 23 % 2 = 1 && !T.place.pair then none
  else
    let hi := o / 2 ^ 23 % 2
    let core := T.place.core + hi
    let x := o % 2 ^ 23
    let gran := if hi = 0 then T.place.gran0 else T.place.gran1
    let banks := if hi = 0 then T.place.banks0 else T.place.banks1
    if 4096 * (T.scrg + 64 * T.mash) < x + n then none
    else if x < 4096 * T.scrg then
      let g := (gran[x / 4096]?).getD 0
      some (core, g / 64, 4096 * (g % 64) + x % 4096)
    else
      let y := x - 4096 * T.scrg
      some (core, (banks[y / 262144]?).getD 0, y % 262144)

/-- The key of a scratch byte. -/
def scratchKey (a : Nat × Nat × Nat) : Nat := a.1 * 2 ^ 23 + a.2.1 * 2 ^ 18 + a.2.2
/-- The key of a scratch line's full/empty bit. -/
def lineKey (a : Nat × Nat × Nat) : Nat := a.1 * 2 ^ 16 + a.2.1 * 2 ^ 11 + a.2.2 / 128
/-- The bank of a resolved scratch address. -/
def State.bankOf (s : State) (a : Nat × Nat × Nat) : Bank := tget Bank.zero s.banks (32 * a.1 + a.2.1)

/-- The n bytes of a scratch address, as one number. -/
def State.scratchNat (s : State) (a : Nat × Nat × Nat) (n : Nat) : Nat :=
  leNat ((List.range n).map fun i => tget 0 s.scratch (scratchKey a + i))

/-- The line of a scratch location. -/
def locLine (loc : Nat) : Nat := (loc - scrLoc) / 128

/-- Set a line full or empty; the loads that found it full have read it before it is empty (09 R214). -/
def State.setEmpty (s : State) (a : Nat × Nat × Nat) (e : Bool) : State :=
  let s := if e then s.settle fun loc => isScratch loc && decide (locLine loc = lineKey a) else s
  { s with empty := tput false s.empty (lineKey a) e }

/-- The line of an address is empty (09 R214). -/
def State.isEmpty (s : State) (a : Nat × Nat × Nat) : Bool := tget false s.empty (lineKey a)

/-- Write bytes at a scratch address. -/
def State.scratchPut (s : State) (a : Nat × Nat × Nat) (bs : List Byte) : State :=
  { s with scratch := (bs.foldl (fun (t, i) b => (tput 0 t i b, i + 1)) (s.scratch, scratchKey a)).1 }

/-- A thread's store to scratch: the bytes are written and the line is full (09 R214). -/
def State.scratchStore (s : State) (a : Nat × Nat × Nat) (bs : List Byte) : State := (s.scratchPut a bs).setEmpty a false

/-- The team bank number of a bank of a core; 0 where it is none of the team's (19 R389 code 17). -/
def Team.bankIndex (T : Team) (a : Nat × Nat × Nat) : Nat := (T.banksOn a.1).findIdx fun b => b = a.2.1

/-- The virtual address of a byte of private memory (09 R216). -/
def State.privVa (s : State) (ctx w lane o : Nat) : Nat :=
  (tget Ctx.zero s.ctxs ctx).pbase.toNat * 2 ^ 45 + w * 2 ^ 30 + o / 4 * 256 + 4 * lane + o % 4

/-! ## Range locks (16 R350, R351) -/

/-- A physical range meets a multicast entry, which covers every byte of an MCST on all 16 replicas until the last is
performed (11 R261; 16 R350; 21 R411). -/
def State.hitsMcst (s : State) (pa n : Nat) : Bool := s.stores.any fun p => p.mcst && p.span.any fun r => overlap pa n r.1 r.2

end Sys2Proof.Machine
end

