-- ==== Sys2Proof/Machine/Fetch.lean ====
section
/-! DEFINITION. Fetching an instruction (02 R41, R51; 09 R206 to R208), whose turn it is (log 1), time (log 2), and
placing an instruction where a step fetches it. -/

namespace Sys2Proof.Machine

/-! ## Fetching -/

/-- The values a fetched word had since a launch was accepted, other than its present one, newest first (02 R62). -/
def State.oldWords (s : State) (key pa : Nat) : List Word :=
  ((tget [] s.olds (pa / 4)).filter fun e => decide (key < e.1)).map (·.2)

/-- The word a path fetches at a physical address: the word as it is or, where it was written since the launch was accepted,
one of its values since then, for each fetch anew (02 R62: the spec leaves the choice open, and it is a free value, log 3). -/
def State.fetched (s : State) (key va pa : Nat) : Nat :=
  let now := leNat ((List.range 4).map fun i => s.openByteAt (pa + i))
  match s.oldWords key pa with
  | [] => now
  | l => match Config.oldWord s.free va with
    | 0 => now
    | n + 1 => match l[n]? with | some w => w.toNat | none => now

/-- Fetch the word at a virtual address for the issuing path (09 R207, R218: past L1): the cause of a failed
translation, or the state after and the word. A PC that is not canonical, which control reaches only by falling through,
gives cause 7, though R208 states that cause of a data address (DESIGN CHOICE, log 13). -/
def fetchWord (x : Ix) (s : State) (va : Nat) : Except Nat (State × Nat) :=
  if !canonical va then .error 7
  else match s.translate x.core x.T.ctx va .fetch with
    | .error c => .error c
    | .ok t =>
      .ok ((s.keepLeaf x.core x.T.ctx va t).shareBytes (s.dieOf x.core) [t.pa], s.fetched x.T.launch va t.pa)

/-- What a fetch brings: a failed translation, an illegal instruction with its fault and stop, or an instruction. -/
inductive Fetched where
  | fail (cause va : Nat)
  | illegal (s : State) (t : Trap) (st : Stop)
  | instr (s : State) (i : Instr)

/-- The latch that skipping an illegal instruction leaves: that of its opcode's form, where it has one (19 R391;
DEDUCED, log 13). -/
def rawLatch (width w0 w1 : Nat) : Option Bool :=
  match cand (some ⟨0, 0, false, 0, false⟩) w0 w1 with
  | some i => i.latch? width
  | none => none

/-- The words at the path's PC, read as an instruction (02 R41, R51, R60; 19 R389 code 1); the third is the further word of
the instruction after a PFX. -/
def readWords (x : Ix) (s : State) (w0 w1 w2 : Nat) : Fetched :=
  match decode w0 w1 with
  | .ok (i, _) => .instr s i
  | .error _ =>
    if isPfxWord w0 then
      .illegal s ⟨1, 0, w1, w2, w0, none⟩ ⟨1, 0, if isTwoWord w1 then 3 else 2, bit w1 30, rawLatch x.T.width w1 w2, false⟩
    else if isTwoWord w0 then .illegal s ⟨1, 0, w0, w1, 0, none⟩ ⟨1, 0, 2, bit w0 30, rawLatch x.T.width w0 w1, false⟩
    else .illegal s ⟨1, 0, w0, 0, 0, none⟩ ⟨1, 0, 1, bit w0 30, rawLatch x.T.width w0 0, false⟩

/-- Fetch and decode at the path's PC. A prefix and the word after it, or both words of a two-word form, are fetched
before either is checked (02 R51). A two-word form after a PFX is illegal, and its further word is fetched for the record,
which has 0 where that fails (19 R389; log 13). -/
def fetch (x : Ix) (s : State) : Fetched :=
  let va := x.P.pc.toNat
  match fetchWord x s va with
  | .error c => .fail c va
  | .ok (s, w0) =>
    if needsSecond w0 then
      match fetchWord x s ((va + 4) % 2 ^ 56) with
      | .error c => .fail c ((va + 4) % 2 ^ 56)
      | .ok (s, w1) =>
        if isPfxWord w0 && isTwoWord w1 then
          match fetchWord x s ((va + 8) % 2 ^ 56) with
          | .error _ => readWords x s w0 w1 0
          | .ok (s, w2) => readWords x s w0 w1 w2
        else readWords x s w0 w1 0
    else readWords x s w0 0 0

/-- INSTRUCTION_FETCH_FAULT (19 R389 code 14, R390; 02 R51): the fetch of a word of the next instruction failed to
translate. The team is held, and the fault resumes by re-execution only. -/
def execInstructionFetchFault (cause : Nat) (va : BitVec 64) (s : State) : Host.Outcome State Fault Refusal :=
  match s.issuing with
  | none => .next s
  | some x => .next (raise x s ⟨14, cause, 1, false, none, true⟩ ⟨14, cause, va.toNat, 2, 0, none⟩)

/-! ## Turns and time -/

/-- The event that completes what a path waits for in place; `started` says whether its core's first cast command runs. -/
def Wait.event (w core ctx : Nat) (started : Bool) (k : Wait) : Instr :=
  match k.kind with
  | .emptyLine => .emptyLineRelease w
  | .bankPlace => .bankQueueEntry w
  | .colrd _ => .colrdRead w
  | .bankSwitch _ => .bankSwitch w
  | .copyPlace => .copyIssue w
  | .castPlace => if started then .castCommandStop core else .castCommandStart core
  | .castRun => if started then .castCommandStop core else .castCommandStart core
  | .unhang => match k.instr with | .unhang _ h => .unhangFinish ctx h.toNat | _ => .unhangFinish ctx 0

/-- Whose move is next: the head of the agenda; where it is empty, the current warp goes on (log 1). -/
def State.turn (s : State) : Turn :=
  match s.agenda with
  | t :: _ => t
  | [] =>
    match s.issuing with
    | none => .event (.sceneStart (coreOf s.cur) (wingOf s.cur))
    | some x =>
      match x.P.wait with
      | none => .issue s.cur
      | some k => .event (k.event s.cur x.core x.T.ctx ((tget [] s.casts x.core).headD ⟨0, true⟩).started)

/-- The state in which a step runs: its turn is taken from the agenda, and a fresh number names its free values. -/
def State.begin (s : State) : State := { s with agenda := s.agenda.tail, free := s.free + 1 }

/-- Every $clock is within 64 cycles of every other (01 R23). -/
def clocksAgree (c : Table Nat) : Bool :=
  let l := (List.range Config.dies).map fun d => tget 0 c d
  decide (l.foldl max 0 ≤ l.foldl min (l.headD 0) + 64)

/-- Time passes by the cycles given for each die (log 2); engines that stand still for want of a park slot count them
(16 R354). A passage that would part the dies' clocks too far does not happen. -/
def State.elapse (s : State) (cs : List Nat) : State :=
  let clock := (List.range Config.dies).foldl (fun t d => tput 0 t d (tget 0 t d + (cs[d]?).getD 0)) s.clock
  if clocksAgree clock then
    let stalled := ((s.copies.filter (·.stalled)).map (·.core)).eraseDups
    { s with
      clock := clock
      cores := stalled.foldl (fun t c =>
        let r := tget CoreRegs.zero t c
        tput CoreRegs.zero t c { r with stallCycles := r.stallCycles + BitVec.ofNat 40 ((cs[s.dieOf c]?).getD 0) }) s.cores }
  else s

/-! ## Placing an instruction -/

/-- The bytes of a number at physical addresses, as memory holds them with nothing above it. -/
def State.place (s : State) (pa n v : Nat) : State :=
  (List.range n).foldl (fun s i =>
    { s with
      mem := tput 0 s.mem (s.cellOf (pa + i)) (BitVec.ofNat 8 (v / 256 ^ i)), dirty := tput none s.dirty (pa + i) none
      mscDirty := tput none s.mscDirty (s.cellOf (pa + i)) none, olds := tput [] s.olds ((pa + i) / 4) [] }) s

/-- A team of one vector-role warp of 32 lanes in slot 0 of core 0, its scene begun at 0x20000, as a launch would have
placed it (log 14). -/
def placedTeam : Team :=
  { launch := 0, lnum := 1, idx := 0, ctx := 0
    place := { core := 0, pair := false, slot0 := 0, slot1 := 0, gran0 := List.range 32, gran1 := [], banks0 := [], banks1 := [],
               wslots := [0] }
    width := 32, threads := 32, regs := 128, mash := 0, scrg := 32, gang := false, copyw := 0, matw := 0, vecw := 0
    entry := 0x20000, args := 0, started := true, rings := [], hold := none, last := 0 }

/-- The warp of `placedTeam`. -/
def placedWarp : Warp :=
  { team := 0, index := 0, role := .vector, live := lanesBelow 32, exited := 0
    paths := [{ Path.fresh (lanesBelow 32) 0x20000 with scene := some ⟨0, []⟩ }]
    running := some 0, v := [], e := [], stack := [], spill := [], k := [], j := [], cont := [], c := [], g := [], part := 32,
    seq := 1, phw := 0, mon := [], fenced := [], prompt := none, dead := none }

/-- `placedTeam` in context 0, whose page table maps 0x20000 to physical 0x20000. -/
def State.install (s : State) : State :=
  let s := { s with
    ctxs := tput Ctx.zero s.ctxs 0 { tget Ctx.zero s.ctxs 0 with en := true, root := 0x10000 / 2 ^ 13 }
    tlb := s.tlb.filter fun e => decide (e.ctx ≠ 0)
    cur := 0 }
  let s := (((s.place 0x10000 8 0x14001).place 0x14000 8 0x18001).place 0x18000 8 0x1C001).place 0x1C010 8 0x2000F
  (s.setTeam 0 placedTeam).setWarp 0 placedWarp

/-- Both words at the PC of the issuing path can be fetched: their physical addresses. -/
def State.fetchable (s : State) : Option (Nat × Nat) :=
  match s.issuing with
  | none => none
  | some x =>
    let va := x.P.pc.toNat
    let vb := (va + 4) % 2 ^ 56
    if canonical va && canonical vb && x.P.wait.isNone then
      match s.translate x.core x.T.ctx va .fetch, s.translate x.core x.T.ctx vb .fetch with
      | .ok a, .ok b => if s.reaches a.pa && s.reaches b.pa then some (a.pa, b.pa) else none
      | _, _ => none
    else none

/-- Store two words where the next step fetches, with the issue of that warp as the next turn; where no path can issue,
a team is placed first. -/
def placeWords (s : State) (v : Nat) : State :=
  let at2 := fun (s : State) (p : Nat × Nat) =>
    let s := (s.place p.1 4 (v % 2 ^ 32)).place p.2 4 (v / 2 ^ 32)
    { s with agenda := .issue s.cur :: s.agenda }
  match s.fetchable with
  | some p => at2 s p
  | none => at2 s.install (0x20000, 0x20004)

end Sys2Proof.Machine
end

