-- ==== Sys2Proof/Machine/Flags.lean ====
section
/-! DEFINITION. Conditions and classes: the comparisons of ISET, ISETZ, FSET and GSET (03 R85, R86; 06 R150) and the
class mask of FCLASS (03 R88). -/

namespace Sys2Proof.Machine

/-- The condition codes of ISET and ISETZ on exact integers (03 R85). -/
def intCond (c : Nat) (a b : Int) : Bool :=
  match c with
  | 0 => decide (a = b)
  | 1 => decide (a ≠ b)
  | 2 => decide (a < b)
  | 3 => decide (a ≤ b)
  | 4 => decide (b < a)
  | _ => decide (b ≤ a)

/-- The condition codes of GSET (06 R150). -/
def uniCond64 (c : Nat) (a b : DWord) : Bool :=
  match c with
  | 0 => decide (a = b)
  | 1 => decide (a ≠ b)
  | 2 => decide (a.toInt < b.toInt)
  | 3 => decide (a.toInt ≤ b.toInt)
  | 4 => decide (b.toInt < a.toInt)
  | 5 => decide (b.toInt ≤ a.toInt)
  | 6 => decide (a.toNat < b.toNat)
  | 7 => decide (a.toNat ≤ b.toNat)
  | 8 => decide (b.toNat < a.toNat)
  | _ => decide (b.toNat ≤ a.toNat)

/-- The condition codes of FSET (03 R86): codes 8 to 13 are true, and 0 to 6 but .uno false, when unordered. -/
def floatCond (c : Nat) (a b : Val) : Bool :=
  let un := a.isNan || b.isNan
  let lt := ltVal a b
  let gt := ltVal b a
  match c with
  | 0 => !un && !lt && !gt
  | 1 => !un && (lt || gt)
  | 2 => !un && lt
  | 3 => !un && !gt
  | 4 => !un && gt
  | 5 => !un && !lt
  | 6 => !un
  | 7 => un
  | 8 => un || (!lt && !gt)
  | 9 => un || lt || gt
  | 10 => un || lt
  | 11 => un || !gt
  | 12 => un || gt
  | _ => un || !lt

/-- The class mask of a pattern (03 R88). -/
def classMask (F : Fmt) (b : Nat) : Nat :=
  match Val.ofBits F b with
  | .nan => 2 ^ 8
  | .inf neg => if neg then 2 ^ 0 else 2 ^ 7
  | .fin neg m _ _ =>
    if m = 0 then (if neg then 2 ^ 3 else 2 ^ 4)
    else if m < 2 ^ F.f then (if neg then 2 ^ 2 else 2 ^ 5)
    else (if neg then 2 ^ 1 else 2 ^ 6)

end Sys2Proof.Machine
end

