-- ==== Sys2Proof/Machine/Integer.lean ====
section
/-! DEFINITION. The integer, logic, move, shift and compare instructions (03 R72 to R88). -/

namespace Sys2Proof.Machine

/-- A 32-bit result, saturated by the signed rule where the prefix asks for it (03 R75). -/
def sat32 (p : Option Pfx) (i : Int) : Word := BitVec.ofInt 32 (if pfxSat p then satS i 32 else i)
/-- A 64-bit result, saturated where the prefix asks for it (03 R77). -/
def sat64 (p : Option Pfx) (i : Int) : DWord := BitVec.ofInt 64 (if pfxSat p then satS i 64 else i)

/-- Sources a and b of a lane instruction. -/
def srcAB (a b : BitVec 7) : List Use := [.src a.toNat, .src b.toNat]

/-- An LR instruction on two 32-bit sources. -/
def binOp (x : Ix) (s : State) (n : Bool) (p : Option Pfx) (d a b : BitVec 7) (f : Word → Word → Word) : Res :=
  laneOp x s n p d (srcAB a b) fun l => f (x.src a.toNat l) (x.src b.toNat l)

/-- An instruction on one 32-bit source. -/
def unOp (x : Ix) (s : State) (n : Bool) (p : Option Pfx) (d a : BitVec 7) (f : Word → Word) : Res :=
  laneOp x s n p d [.src a.toNat] fun l => f (x.src a.toNat l)

/-- An LR instruction with a fourth operand c, or d without a prefix (02 R53). -/
def triOp (x : Ix) (s : State) (n : Bool) (p : Option Pfx) (d a b : BitVec 7) (f : Word → Word → Word → Word) : Res :=
  laneOp x s n p d (srcAB a b ++ [.src (pfxC p d)]) fun l => f (x.src a.toNat l) (x.src b.toNat l) (x.src (pfxC p d) l)

/-- IADD (03 R75). -/
def execIadd (e n : Bool) (p : Option Pfx) (d a b : BitVec 7) (s : State) : Host.Outcome State Fault Refusal :=
  run (.iadd e n p d a b) s fun x => binOp x s n p d a b fun u v => sat32 p (u.toInt + v.toInt)
/-- ISUB (03 R75). -/
def execIsub (e n : Bool) (p : Option Pfx) (d a b : BitVec 7) (s : State) : Host.Outcome State Fault Refusal :=
  run (.isub e n p d a b) s fun x => binOp x s n p d a b fun u v => sat32 p (u.toInt - v.toInt)
/-- IMUL (03 R75). -/
def execImul (e n : Bool) (p : Option Pfx) (d a b : BitVec 7) (s : State) : Host.Outcome State Fault Refusal :=
  run (.imul e n p d a b) s fun x => binOp x s n p d a b fun u v => sat32 p (u.toInt * v.toInt)
/-- IMULHS (03 R76). -/
def execImulhs (e n : Bool) (p : Option Pfx) (d a b : BitVec 7) (s : State) : Host.Outcome State Fault Refusal :=
  run (.imulhs e n p d a b) s fun x => binOp x s n p d a b fun u v => BitVec.ofInt 32 (u.toInt * v.toInt / 2 ^ 32)
/-- IMULHZ (03 R76). -/
def execImulhz (e n : Bool) (p : Option Pfx) (d a b : BitVec 7) (s : State) : Host.Outcome State Fault Refusal :=
  run (.imulhz e n p d a b) s fun x => binOp x s n p d a b fun u v => BitVec.ofNat 32 (u.toNat * v.toNat / 2 ^ 32)
/-- IMAD (03 R76). -/
def execImad (e n : Bool) (p : Option Pfx) (d a b : BitVec 7) (s : State) : Host.Outcome State Fault Refusal :=
  run (.imad e n p d a b) s fun x => triOp x s n p d a b fun u v c => sat32 p (u.toInt * v.toInt + c.toInt)
/-- IMADW (03 R76). -/
def execImadw (e n : Bool) (p : Option Pfx) (d a b : BitVec 7) (s : State) : Host.Outcome State Fault Refusal :=
  run (.imadw e n p d a b) s fun x => laneOp64 x s n p d (srcAB a b ++ [.srcPair (pfxC p d)]) fun l =>
    sat64 p ((x.src a.toNat l).toInt * (x.src b.toNat l).toInt + (x.srcPair (pfxC p d) l).toInt)
/-- IMIN (03 R78). -/
def execImin (e n : Bool) (p : Option Pfx) (d a b : BitVec 7) (s : State) : Host.Outcome State Fault Refusal :=
  run (.imin e n p d a b) s fun x => binOp x s n p d a b fun u v => if v.toInt < u.toInt then v else u
/-- IMAX (03 R78). -/
def execImax (e n : Bool) (p : Option Pfx) (d a b : BitVec 7) (s : State) : Host.Outcome State Fault Refusal :=
  run (.imax e n p d a b) s fun x => binOp x s n p d a b fun u v => if u.toInt < v.toInt then v else u
/-- IMINZ (03 R78). -/
def execIminz (e n : Bool) (p : Option Pfx) (d a b : BitVec 7) (s : State) : Host.Outcome State Fault Refusal :=
  run (.iminz e n p d a b) s fun x => binOp x s n p d a b fun u v => if v.toNat < u.toNat then v else u
/-- IMAXZ (03 R78). -/
def execImaxz (e n : Bool) (p : Option Pfx) (d a b : BitVec 7) (s : State) : Host.Outcome State Fault Refusal :=
  run (.imaxz e n p d a b) s fun x => binOp x s n p d a b fun u v => if u.toNat < v.toNat then v else u
/-- IABS (03 R78). -/
def execIabs (e n : Bool) (p : Option Pfx) (d a : BitVec 7) (s : State) : Host.Outcome State Fault Refusal :=
  run (.iabs e n p d a) s fun x => unOp x s n p d a fun u => sat32 p (u.toInt.natAbs : Int)
/-- INEG (03 R78). -/
def execIneg (e n : Bool) (p : Option Pfx) (d a : BitVec 7) (s : State) : Host.Outcome State Fault Refusal :=
  run (.ineg e n p d a) s fun x => unOp x s n p d a fun u => sat32 p (-u.toInt)
/-- ADD64 (03 R77). -/
def execAdd64 (e n : Bool) (p : Option Pfx) (d a b : BitVec 7) (s : State) : Host.Outcome State Fault Refusal :=
  run (.add64 e n p d a b) s fun x => laneOp64 x s n p d [.srcPair a.toNat, .srcPair b.toNat] fun l =>
    sat64 p ((x.srcPair a.toNat l).toInt + (x.srcPair b.toNat l).toInt)
/-- SUB64 (03 R77). -/
def execSub64 (e n : Bool) (p : Option Pfx) (d a b : BitVec 7) (s : State) : Host.Outcome State Fault Refusal :=
  run (.sub64 e n p d a b) s fun x => laneOp64 x s n p d [.srcPair a.toNat, .srcPair b.toNat] fun l =>
    sat64 p ((x.srcPair a.toNat l).toInt - (x.srcPair b.toNat l).toInt)
/-- LEA (03 R77). -/
def execLea (e n : Bool) (p : Option Pfx) (d a b : BitVec 7) (s : State) : Host.Outcome State Fault Refusal :=
  run (.lea e n p d a b) s fun x => laneOp64 x s n p d [.srcPair a.toNat, .src b.toNat] fun l =>
    x.srcPair a.toNat l + (x.src b.toNat l).signExtend 64
/-- IADDI (03 R75). -/
def execIaddi (e n : Bool) (p : Option Pfx) (d a i : BitVec 7) (s : State) : Host.Outcome State Fault Refusal :=
  run (.iaddi e n p d a i) s fun x => unOp x s n p d a fun u => sat32 p (u.toInt + i.toInt)

/-- AND (03 R79). -/
def execAnd (e n : Bool) (p : Option Pfx) (d a b : BitVec 7) (s : State) : Host.Outcome State Fault Refusal :=
  run (.and e n p d a b) s fun x => binOp x s n p d a b fun u v => u &&& v
/-- OR (03 R79). -/
def execOr (e n : Bool) (p : Option Pfx) (d a b : BitVec 7) (s : State) : Host.Outcome State Fault Refusal :=
  run (.or e n p d a b) s fun x => binOp x s n p d a b fun u v => u ||| v
/-- XOR (03 R79). -/
def execXor (e n : Bool) (p : Option Pfx) (d a b : BitVec 7) (s : State) : Host.Outcome State Fault Refusal :=
  run (.xor e n p d a b) s fun x => binOp x s n p d a b fun u v => u ^^^ v
/-- ANDN (03 R79). -/
def execAndn (e n : Bool) (p : Option Pfx) (d a b : BitVec 7) (s : State) : Host.Outcome State Fault Refusal :=
  run (.andn e n p d a b) s fun x => binOp x s n p d a b fun u v => u &&& ~~~v
/-- NOT (03 R79). -/
def execNot (e n : Bool) (p : Option Pfx) (d a : BitVec 7) (s : State) : Host.Outcome State Fault Refusal :=
  run (.not e n p d a) s fun x => unOp x s n p d a fun u => ~~~u
/-- ANDI (03 R79). -/
def execAndi (e n : Bool) (p : Option Pfx) (d a i : BitVec 7) (s : State) : Host.Outcome State Fault Refusal :=
  run (.andi e n p d a i) s fun x => unOp x s n p d a fun u => u &&& i.setWidth 32
/-- ORI (03 R79). -/
def execOri (e n : Bool) (p : Option Pfx) (d a i : BitVec 7) (s : State) : Host.Outcome State Fault Refusal :=
  run (.ori e n p d a i) s fun x => unOp x s n p d a fun u => u ||| i.setWidth 32
/-- XORI (03 R79). -/
def execXori (e n : Bool) (p : Option Pfx) (d a i : BitVec 7) (s : State) : Host.Outcome State Fault Refusal :=
  run (.xori e n p d a i) s fun x => unOp x s n p d a fun u => u ^^^ i.setWidth 32
/-- MOV (03 R79): 32 bits, or a pair with width code 1. -/
def execMov (e n : Bool) (p : Option Pfx) (d a : BitVec 7) (w : Bool) (s : State) : Host.Outcome State Fault Refusal :=
  run (.mov e n p d a w) s fun x =>
    if w then laneOp64 x s n p d [.srcPair a.toNat] fun l => x.srcPair a.toNat l
    else unOp x s n p d a fun u => u
/-- MOVK, short form (03 R80). -/
def execMovk (e n : Bool) (d : BitVec 7) (i : BitVec 14) (s : State) : Host.Outcome State Fault Refusal :=
  run (.movk e n d i) s fun x => laneOp x s n none d [] fun _ => i.signExtend 32
/-- MOVK, literal form (03 R80). -/
def execMovkLiteral (e n : Bool) (d : BitVec 7) (lit : BitVec 32) (s : State) : Host.Outcome State Fault Refusal :=
  run (.movkLiteral e n d lit) s fun x => laneOp x s n none d [] fun _ => lit
/-- MOVS (03 R81): $clock and $seq go to a pair. -/
def execMovs (e n : Bool) (d i : BitVec 7) (s : State) : Host.Outcome State Fault Refusal :=
  run (.movs e n d i) s fun x =>
    if 9 ≤ i.toNat then laneOp64 x s n none d [] fun l => x.special s i.toNat l
    else laneOp x s n none d [] fun l => (x.special s i.toNat l).setWidth 32

/-- A left shift by a full 32-bit count (03 R82). -/
def shlW (u : Word) (c : Nat) : Word := if 32 ≤ c then 0 else u <<< c
/-- A logical right shift (03 R82). -/
def shrW (u : Word) (c : Nat) : Word := if 32 ≤ c then 0 else u >>> c
/-- An arithmetic right shift (03 R82). -/
def sarW (u : Word) (c : Nat) : Word := BitVec.ofInt 32 (u.toInt / 2 ^ min c 32)
/-- A left rotation by c mod 32 (03 R82). -/
def rolW (u : Word) (c : Nat) : Word := u <<< (c % 32) ||| u >>> (32 - c % 32)

/-- SHL (03 R82). -/
def execShl (e n : Bool) (p : Option Pfx) (d a b : BitVec 7) (s : State) : Host.Outcome State Fault Refusal :=
  run (.shl e n p d a b) s fun x => binOp x s n p d a b fun u v => shlW u v.toNat
/-- SHR (03 R82). -/
def execShr (e n : Bool) (p : Option Pfx) (d a b : BitVec 7) (s : State) : Host.Outcome State Fault Refusal :=
  run (.shr e n p d a b) s fun x => binOp x s n p d a b fun u v => shrW u v.toNat
/-- SAR (03 R82). -/
def execSar (e n : Bool) (p : Option Pfx) (d a b : BitVec 7) (s : State) : Host.Outcome State Fault Refusal :=
  run (.sar e n p d a b) s fun x => binOp x s n p d a b fun u v => sarW u v.toNat
/-- ROL (03 R82). -/
def execRol (e n : Bool) (p : Option Pfx) (d a b : BitVec 7) (s : State) : Host.Outcome State Fault Refusal :=
  run (.rol e n p d a b) s fun x => binOp x s n p d a b fun u v => rolW u v.toNat
/-- SHLI (03 R82). -/
def execShli (e n : Bool) (p : Option Pfx) (d a : BitVec 7) (i : BitVec 5) (s : State) : Host.Outcome State Fault Refusal :=
  run (.shli e n p d a i) s fun x => unOp x s n p d a fun u => shlW u i.toNat
/-- SHRI (03 R82). -/
def execShri (e n : Bool) (p : Option Pfx) (d a : BitVec 7) (i : BitVec 5) (s : State) : Host.Outcome State Fault Refusal :=
  run (.shri e n p d a i) s fun x => unOp x s n p d a fun u => shrW u i.toNat
/-- SARI (03 R82). -/
def execSari (e n : Bool) (p : Option Pfx) (d a : BitVec 7) (i : BitVec 5) (s : State) : Host.Outcome State Fault Refusal :=
  run (.sari e n p d a i) s fun x => unOp x s n p d a fun u => sarW u i.toNat

/-- Position of the field of BFX, BFXS and BFI (03 R83). -/
def bfPos (v : Word) : Nat := v.toNat % 32
/-- Length of the field, cut at bit 31 (03 R83). -/
def bfLen (v : Word) : Nat := min (min (v.toNat / 2 ^ 8 % 64) 32) (32 - bfPos v)
/-- The unsigned field (03 R83). -/
def bfxW (u v : Word) : Word := BitVec.ofNat 32 (u.toNat / 2 ^ bfPos v % 2 ^ bfLen v)
/-- The signed field (03 R83). -/
def bfxsW (u v : Word) : Word := if bfLen v = 0 then 0 else BitVec.ofInt 32 (sext (bfLen v) (u.toNat / 2 ^ bfPos v))
/-- c with the field replaced by the low bits of a (03 R83). -/
def bfiW (u v c : Word) : Word :=
  let m := BitVec.ofNat 32 ((2 ^ bfLen v - 1) * 2 ^ bfPos v)
  (c &&& ~~~m) ||| (u <<< bfPos v &&& m)

/-- BFX (03 R83). -/
def execBfx (e n : Bool) (p : Option Pfx) (d a b : BitVec 7) (s : State) : Host.Outcome State Fault Refusal :=
  run (.bfx e n p d a b) s fun x => binOp x s n p d a b bfxW
/-- BFXS (03 R83). -/
def execBfxs (e n : Bool) (p : Option Pfx) (d a b : BitVec 7) (s : State) : Host.Outcome State Fault Refusal :=
  run (.bfxs e n p d a b) s fun x => binOp x s n p d a b bfxsW
/-- BFI (03 R83). -/
def execBfi (e n : Bool) (p : Option Pfx) (d a b : BitVec 7) (s : State) : Host.Outcome State Fault Refusal :=
  run (.bfi e n p d a b) s fun x => triOp x s n p d a b bfiW

/-- The number of 1 bits (03 R84). -/
def popcW (u : Word) : Word := BitVec.ofNat 32 ((List.range 32).filter fun i => u.getLsbD i).length
/-- The number of 0 bits above the highest 1 bit (03 R84). -/
def clzW (u : Word) : Word := BitVec.ofNat 32 (if u = 0 then 32 else 31 - u.toNat.log2)

/-- POPC (03 R84). -/
def execPopc (e n : Bool) (p : Option Pfx) (d a : BitVec 7) (s : State) : Host.Outcome State Fault Refusal :=
  run (.popc e n p d a) s fun x => unOp x s n p d a popcW
/-- CLZ (03 R84). -/
def execClz (e n : Bool) (p : Option Pfx) (d a : BitVec 7) (s : State) : Host.Outcome State Fault Refusal :=
  run (.clz e n p d a) s fun x => unOp x s n p d a clzW
/-- BREV (03 R84). -/
def execBrev (e n : Bool) (p : Option Pfx) (d a : BitVec 7) (s : State) : Host.Outcome State Fault Refusal :=
  run (.brev e n p d a) s fun x => unOp x s n p d a fun u => u.reverse

/-- ISET (03 R85): a signed compare of registers or, with W = 1, of pairs. -/
def execIset (e : Bool) (p : Option Pfx) (w : Bool) (c k : BitVec 3) (a b : BitVec 7) (s : State) :
    Host.Outcome State Fault Refusal :=
  run (.iset e p w c k a b) s fun x =>
    if w then laneMaskOp x s p k [.srcPair a.toNat, .srcPair b.toNat] fun l =>
      intCond c.toNat (x.srcPair a.toNat l).toInt (x.srcPair b.toNat l).toInt
    else laneMaskOp x s p k (srcAB a b) fun l => intCond c.toNat (x.src a.toNat l).toInt (x.src b.toNat l).toInt
/-- ISETZ (03 R85): the unsigned compare. -/
def execIsetz (e : Bool) (p : Option Pfx) (w : Bool) (c k : BitVec 3) (a b : BitVec 7) (s : State) :
    Host.Outcome State Fault Refusal :=
  run (.isetz e p w c k a b) s fun x =>
    if w then laneMaskOp x s p k [.srcPair a.toNat, .srcPair b.toNat] fun l =>
      intCond c.toNat (x.srcPair a.toNat l).toNat (x.srcPair b.toNat l).toNat
    else laneMaskOp x s p k (srcAB a b) fun l => intCond c.toNat (x.src a.toNat l).toNat (x.src b.toNat l).toNat
/-- FSET (03 R86). -/
def execFset (e : Bool) (p : Option Pfx) (c : BitVec 4) (k : BitVec 3) (a b : BitVec 7) (s : State) :
    Host.Outcome State Fault Refusal :=
  run (.fset e p c k a b) s fun x => laneMaskOp x s p k (srcAB a b) fun l =>
    floatCond c.toNat (.ofF32 (x.src a.toNat l)) (.ofF32 (x.src b.toNat l))
/-- SEL (03 R87): every lane of the path writes a or b by its bit of k. -/
def execSel (e n : Bool) (k : BitVec 3) (d a b : BitVec 7) (s : State) : Host.Outcome State Fault Refusal :=
  run (.sel e n k d a b) s fun x => laneOp x s n none d (srcAB a b) fun l =>
    if (x.W.mask x.P k.toNat).getLsbD l then x.src a.toNat l else x.src b.toNat l

/-- The format of a type code of FCLASS (03 R88). -/
def classFmt (t : Nat) : Fmt :=
  match t with
  | 0 => f32
  | 1 => f16
  | 2 => bf16
  | 3 => e4m3
  | _ => e5m2

/-- FCLASS (03 R88). -/
def execFclass (e n : Bool) (p : Option Pfx) (d a t : BitVec 7) (s : State) : Host.Outcome State Fault Refusal :=
  run (.fclass e n p d a t) s fun x => unOp x s n p d a fun u =>
    BitVec.ofNat 32 (classMask (classFmt t.toNat) (u.toNat % 2 ^ (classFmt t.toNat).width))

end Sys2Proof.Machine
end

