-- ==== Sys2Proof/Machine/Floating.lean ====
section
/-! DEFINITION. Floating point, packed 16-bit, special functions, conversions, microscaling and softmax (04 R99 to
R121). -/

namespace Sys2Proof.Machine

/-! ## FP32 -/

/-- An instruction on two FP32 sources: the exact value, rounded once (04 R102). -/
def fBin (x : Ix) (s : State) (n : Bool) (p : Option Pfx) (d a b : BitVec 7) (f : Val → Val → Val) : Res :=
  binOp x s n p d a b fun u v => rnd32 (pfxRnd p) (f (.ofF32 u) (.ofF32 v))

/-- An instruction on one FP32 source. -/
def fUn (x : Ix) (s : State) (n : Bool) (p : Option Pfx) (d a : BitVec 7) (f : Val → Val) : Res :=
  unOp x s n p d a fun u => rnd32 (pfxRnd p) (f (.ofF32 u))

/-- FADD (04 R102). -/
def execFadd (e n : Bool) (p : Option Pfx) (d a b : BitVec 7) (s : State) : Host.Outcome State Fault Refusal :=
  run (.fadd e n p d a b) s fun x => fBin x s n p d a b fun u v => sumVal (pfxRnd p).mode [u, v]
/-- FSUB (04 R102). -/
def execFsub (e n : Bool) (p : Option Pfx) (d a b : BitVec 7) (s : State) : Host.Outcome State Fault Refusal :=
  run (.fsub e n p d a b) s fun x => fBin x s n p d a b fun u v => sumVal (pfxRnd p).mode [u, v.negate]
/-- FMUL (04 R102). -/
def execFmul (e n : Bool) (p : Option Pfx) (d a b : BitVec 7) (s : State) : Host.Outcome State Fault Refusal :=
  run (.fmul e n p d a b) s fun x => fBin x s n p d a b mulVal
/-- FFMA (04 R102). -/
def execFfma (e n : Bool) (p : Option Pfx) (d a b : BitVec 7) (s : State) : Host.Outcome State Fault Refusal :=
  run (.ffma e n p d a b) s fun x => triOp x s n p d a b fun u v c =>
    rnd32 (pfxRnd p) (sumVal (pfxRnd p).mode [mulVal (.ofF32 u) (.ofF32 v), .ofF32 c])
/-- FMIN (04 R103). -/
def execFmin (e n : Bool) (p : Option Pfx) (d a b : BitVec 7) (s : State) : Host.Outcome State Fault Refusal :=
  run (.fmin e n p d a b) s fun x => fBin x s n p d a b (minVal false)
/-- FMAX (04 R103). -/
def execFmax (e n : Bool) (p : Option Pfx) (d a b : BitVec 7) (s : State) : Host.Outcome State Fault Refusal :=
  run (.fmax e n p d a b) s fun x => fBin x s n p d a b (minVal true)
/-- FABS (04 R103). -/
def execFabs (e n : Bool) (p : Option Pfx) (d a : BitVec 7) (s : State) : Host.Outcome State Fault Refusal :=
  run (.fabs e n p d a) s fun x => unOp x s n p d a fun u => if (Val.ofF32 u).isNan then 0x7FC00000 else u &&& 0x7FFFFFFF
/-- FNEG (04 R103). -/
def execFneg (e n : Bool) (p : Option Pfx) (d a : BitVec 7) (s : State) : Host.Outcome State Fault Refusal :=
  run (.fneg e n p d a) s fun x => unOp x s n p d a fun u => if (Val.ofF32 u).isNan then 0x7FC00000 else u ^^^ 0x80000000

/-- A value rounded to an integral value in a mode, its sign kept (04 R104). -/
def integralVal (mode : Nat) : Val → Val
  | .fin neg m e st => .fin neg (roundTo mode neg m e st 0) 0 false
  | v => v

/-- FRND (04 R104). -/
def execFrnd (e n : Bool) (p : Option Pfx) (d a : BitVec 7) (s : State) : Host.Outcome State Fault Refusal :=
  run (.frnd e n p d a) s fun x => fUn x s n p d a (integralVal (pfxRnd p).mode)
/-- FSCL (04 R104). -/
def execFscl (e n : Bool) (p : Option Pfx) (d a b : BitVec 7) (s : State) : Host.Outcome State Fault Refusal :=
  run (.fscl e n p d a b) s fun x => binOp x s n p d a b fun u v => rnd32 (pfxRnd p) ((Val.ofF32 u).scale v.toInt)
/-- FEXP (04 R104). -/
def execFexp (e n : Bool) (p : Option Pfx) (d a : BitVec 7) (s : State) : Host.Outcome State Fault Refusal :=
  run (.fexp e n p d a) s fun x => unOp x s n p d a fun u =>
    match Val.ofF32 u with
    | .fin neg m q st => if m = 0 then 0x80000000 else BitVec.ofInt 32 (floorLog2 (.fin neg m q st))
    | _ => 0x7FFFFFFF

/-! ## Packed 16-bit -/

/-- Element i of a packed register, in a 16-bit format (04 R105). -/
def elem16 (F : Fmt) (u : Word) (i : Nat) : Val := .ofBits F (u.toNat / 2 ^ (16 * i) % 2 ^ 16)

/-- A packed result from its two elements (04 R105). -/
def pack16 (f : Nat → Nat) : Word := BitVec.ofNat 32 (f 0 + f 1 * 2 ^ 16)

/-- A packed instruction on two sources (04 R106). -/
def pBin (F : Fmt) (x : Ix) (s : State) (n : Bool) (p : Option Pfx) (d a b : BitVec 7) (f : Val → Val → Val) : Res :=
  binOp x s n p d a b fun u v => pack16 fun i => rnd F (pfxRnd p) (f (elem16 F u i) (elem16 F v i))

/-- The packed multiply-add (04 R106). -/
def pFma (F : Fmt) (x : Ix) (s : State) (n : Bool) (p : Option Pfx) (d a b : BitVec 7) : Res :=
  triOp x s n p d a b fun u v c => pack16 fun i =>
    rnd F (pfxRnd p) (sumVal (pfxRnd p).mode [mulVal (elem16 F u i) (elem16 F v i), elem16 F c i])

/-- The dot product added to an FP32 value (04 R106). -/
def pDot (F : Fmt) (x : Ix) (s : State) (n : Bool) (p : Option Pfx) (d a b : BitVec 7) : Res :=
  triOp x s n p d a b fun u v c => rnd32 (pfxRnd p) (sumVal (pfxRnd p).mode
    [mulVal (elem16 F u 0) (elem16 F v 0), mulVal (elem16 F u 1) (elem16 F v 1), .ofF32 c])

/-- HADD2 (04 R106). -/
def execHadd2 (e n : Bool) (p : Option Pfx) (d a b : BitVec 7) (s : State) : Host.Outcome State Fault Refusal :=
  run (.hadd2 e n p d a b) s fun x => pBin f16 x s n p d a b fun u v => sumVal (pfxRnd p).mode [u, v]
/-- HMUL2 (04 R106). -/
def execHmul2 (e n : Bool) (p : Option Pfx) (d a b : BitVec 7) (s : State) : Host.Outcome State Fault Refusal :=
  run (.hmul2 e n p d a b) s fun x => pBin f16 x s n p d a b mulVal
/-- HFMA2 (04 R106). -/
def execHfma2 (e n : Bool) (p : Option Pfx) (d a b : BitVec 7) (s : State) : Host.Outcome State Fault Refusal :=
  run (.hfma2 e n p d a b) s fun x => pFma f16 x s n p d a b
/-- HMIN2 (04 R106). -/
def execHmin2 (e n : Bool) (p : Option Pfx) (d a b : BitVec 7) (s : State) : Host.Outcome State Fault Refusal :=
  run (.hmin2 e n p d a b) s fun x => pBin f16 x s n p d a b (minVal false)
/-- HMAX2 (04 R106). -/
def execHmax2 (e n : Bool) (p : Option Pfx) (d a b : BitVec 7) (s : State) : Host.Outcome State Fault Refusal :=
  run (.hmax2 e n p d a b) s fun x => pBin f16 x s n p d a b (minVal true)
/-- HDOT2 (04 R106). -/
def execHdot2 (e n : Bool) (p : Option Pfx) (d a b : BitVec 7) (s : State) : Host.Outcome State Fault Refusal :=
  run (.hdot2 e n p d a b) s fun x => pDot f16 x s n p d a b
/-- BADD2 (04 R106). -/
def execBadd2 (e n : Bool) (p : Option Pfx) (d a b : BitVec 7) (s : State) : Host.Outcome State Fault Refusal :=
  run (.badd2 e n p d a b) s fun x => pBin bf16 x s n p d a b fun u v => sumVal (pfxRnd p).mode [u, v]
/-- BMUL2 (04 R106). -/
def execBmul2 (e n : Bool) (p : Option Pfx) (d a b : BitVec 7) (s : State) : Host.Outcome State Fault Refusal :=
  run (.bmul2 e n p d a b) s fun x => pBin bf16 x s n p d a b mulVal
/-- BFMA2 (04 R106). -/
def execBfma2 (e n : Bool) (p : Option Pfx) (d a b : BitVec 7) (s : State) : Host.Outcome State Fault Refusal :=
  run (.bfma2 e n p d a b) s fun x => pFma bf16 x s n p d a b
/-- BMIN2 (04 R106). -/
def execBmin2 (e n : Bool) (p : Option Pfx) (d a b : BitVec 7) (s : State) : Host.Outcome State Fault Refusal :=
  run (.bmin2 e n p d a b) s fun x => pBin bf16 x s n p d a b (minVal false)
/-- BMAX2 (04 R106). -/
def execBmax2 (e n : Bool) (p : Option Pfx) (d a b : BitVec 7) (s : State) : Host.Outcome State Fault Refusal :=
  run (.bmax2 e n p d a b) s fun x => pBin bf16 x s n p d a b (minVal true)
/-- BDOT2 (04 R106). -/
def execBdot2 (e n : Bool) (p : Option Pfx) (d a b : BitVec 7) (s : State) : Host.Outcome State Fault Refusal :=
  run (.bdot2 e n p d a b) s fun x => pDot bf16 x s n p d a b

/-! ## Special functions -/

/-- RCP (04 R107, R108). -/
def execRcp (e n : Bool) (p : Option Pfx) (d a : BitVec 7) (s : State) : Host.Outcome State Fault Refusal :=
  run (.rcp e n p d a) s fun x => fUn x s n p d a (divVal (.fin false 1 0 false))
/-- RSQ (04 R107, R108). -/
def execRsq (e n : Bool) (p : Option Pfx) (d a : BitVec 7) (s : State) : Host.Outcome State Fault Refusal :=
  run (.rsq e n p d a) s fun x => fUn x s n p d a rsqVal
/-- SQRT (04 R107, R108). -/
def execSqrt (e n : Bool) (p : Option Pfx) (d a : BitVec 7) (s : State) : Host.Outcome State Fault Refusal :=
  run (.sqrt e n p d a) s fun x => fUn x s n p d a sqrtVal
/-- EXP2 (04 R107, R108). -/
def execExp2 (e n : Bool) (p : Option Pfx) (d a : BitVec 7) (s : State) : Host.Outcome State Fault Refusal :=
  run (.exp2 e n p d a) s fun x => fUn x s n p d a exp2Val
/-- LOG2 (04 R107, R108). -/
def execLog2 (e n : Bool) (p : Option Pfx) (d a : BitVec 7) (s : State) : Host.Outcome State Fault Refusal :=
  run (.log2 e n p d a) s fun x => fUn x s n p d a log2Val
/-- SIN (04 R107, R108). -/
def execSin (e n : Bool) (p : Option Pfx) (d a : BitVec 7) (s : State) : Host.Outcome State Fault Refusal :=
  run (.sin e n p d a) s fun x => fUn x s n p d a (trigVal 0)
/-- COS (04 R107, R108). -/
def execCos (e n : Bool) (p : Option Pfx) (d a : BitVec 7) (s : State) : Host.Outcome State Fault Refusal :=
  run (.cos e n p d a) s fun x => fUn x s n p d a (trigVal 1)
/-- TANH (04 R107, R108). -/
def execTanh (e n : Bool) (p : Option Pfx) (d a : BitVec 7) (s : State) : Host.Outcome State Fault Refusal :=
  run (.tanh e n p d a) s fun x => fUn x s n p d a tanhVal

/-! ## Conversions and residues -/

/-- The type of a TYPE code of CVT: width and whether unsigned, for the integer types 0 to 7 (04 R109). -/
def cvtIntType (t : Nat) : Nat × Bool := (2 ^ (t % 4 + 3), decide (4 ≤ t))
/-- The format of TYPE codes 8 to 11 (04 R109). -/
def cvtFmt (t : Nat) : Fmt :=
  match t with
  | 8 => f16
  | 9 => bf16
  | 10 => e4m3
  | _ => e5m2

/-- Conversion of an FP32 pattern to type t (04 R110), as a 64-bit value. -/
def cvtTo (t : Nat) (r : Rnd) (u : Word) : DWord :=
  if t < 8 then BitVec.ofInt 64 (cvtInt r.mode (cvtIntType t).1 (cvtIntType t).2 (.ofF32 u))
  else BitVec.ofNat 64 (rnd (cvtFmt t) r (.ofF32 u))

/-- The value of the low bits of a register or pair, taken as type t (04 R110; 01 R16). -/
def cvtVal (t : Nat) (u : DWord) : Val :=
  if t < 8 then
    let w := (cvtIntType t).1
    .ofInt (if (cvtIntType t).2 then ((u.toNat % 2 ^ w : Nat) : Int) else sext w u.toNat)
  else .ofBits (cvtFmt t) (u.toNat % 2 ^ (cvtFmt t).width)

/-- CVT (04 R109, R110). From a type, the result is the value rounded, or widened exactly: the saturate bit is not used. -/
def execCvt (e n : Bool) (p : Option Pfx) (d a : BitVec 7) (r ns : Bool) (t : BitVec 5) (s : State) :
    Host.Outcome State Fault Refusal :=
  run (.cvt e n p d a r ns t) s fun x =>
    let wide := decide (t = 3) || decide (t = 7)
    let rd : Rnd := { pfxRnd p with nosat := ns }
    let wd : Rnd := { rd with sat := false }
    if r then
      if wide then laneOp x s n p d [.srcPair a.toNat] fun l => rnd32 wd (cvtVal t.toNat (x.srcPair a.toNat l))
      else unOp x s n p d a fun u => rnd32 wd (cvtVal t.toNat (u.setWidth 64))
    else if wide then laneOp64 x s n p d [.src a.toNat] fun l => cvtTo t.toNat rd (x.src a.toNat l)
    else unOp x s n p d a fun u => (cvtTo t.toNat rd u).setWidth 32

/-- Error-feedback rounding (01 R39) with the rounding `q` to a value and its pattern: the pattern, and the residue. A
NaN pattern is one whose value is NaN; an exact zero sum has the sign FADD gives it. -/
def feedback (mode : Nat) (q : Val → Nat) (val : Nat → Val) (nanBits : Nat) (u r : Word) : Nat × Word :=
  match sumVal mode [.ofF32 u, .ofF32 r] with
  | .nan => (nanBits, 0)
  | .inf neg => (q (.inf neg), 0)
  | .fin neg m e st =>
    let t := Val.fin neg m e st
    match val (q t) with
    | .nan => (q t, 0)
    | y =>
      let z := sumVal 0 [t, y.negate]
      (q t, if z.isZero then 0 else rnd32 ⟨0, true, false⟩ z)

/-- Complete an instruction that also writes residue register i in the lanes its prefix selects. -/
def writeWithRes (x : Ix) (s : State) (n : Bool) (p : Option Pfx) (d i : Nat) (f : Nat → Nat × Word) : Res :=
  let vs := laneVals x p false d fun l => BitVec.ofNat 64 (f l).1
  let W := if n then x.W else x.W.writeLanes false d vs
  .ok (s.setWarp x.w ((lanesOf (x.active p)).foldl (fun W l => W.setRes l i (f l).2) W)) (some (latchOf false vs))

/-- CVTR (04 R111; 01 R39). -/
def execCvtr (e n : Bool) (p : Option Pfx) (d a : BitVec 7) (i : BitVec 3) (ns : Bool) (f : BitVec 2) (s : State) :
    Host.Outcome State Fault Refusal :=
  run (.cvtr e n p d a i ns f) s fun x =>
    let F := cvtFmt (f.toNat + 8)
    withOperands x s [.reg d.toNat, .src a.toNat] fun _ =>
      writeWithRes x s n p d.toNat i.toNat fun l =>
        feedback (pfxRnd p).mode (rnd F { pfxRnd p with nosat := ns }) (Val.ofBits F) F.nan (x.src a.toNat l) (x.W.res l i.toNat)

/-- RSDRD (04 R112). -/
def execRsdrd (e n : Bool) (d : BitVec 7) (i : BitVec 3) (s : State) : Host.Outcome State Fault Refusal :=
  run (.rsdrd e n d i) s fun x => laneOp x s n none d [] fun l => x.W.res l i.toNat
/-- RSDWR (04 R112). -/
def execRsdwr (e : Bool) (a : BitVec 7) (i : BitVec 3) (s : State) : Host.Outcome State Fault Refusal :=
  run (.rsdwr e a i) s fun x => withOperands x s [.src a.toNat] fun _ =>
    .ok (s.setWarp x.w (x.lanes.foldl (fun W l => W.setRes l i.toNat (x.src a.toNat l)) x.W)) none

/-! ## Microscaled elements -/

/-- The value of an element code (01 R35), for FMT 0 .mxint8, 1 .mxfp6, 2 .mxfp4. -/
def mxVal (f c : Nat) : Val :=
  match f with
  | 0 => (Val.ofInt (sext 8 c)).scale (-6)
  | 1 => .ofBits e2m3 (c % 2 ^ 6)
  | _ => .ofBits e2m1 (c % 2 ^ 4)

/-- Round a value to an element code (01 R32, R36; 04 R116): saturating, zero as the positive zero code. -/
def mxRound (f mode : Nat) (v : Val) : Nat :=
  match f with
  | 0 =>
    match v with
    | .nan => 0
    | .inf neg => if neg then 256 - 127 else 127
    | .fin neg m e st =>
      let k := min 127 (roundTo mode neg m e st (-6))
      if neg && decide (k ≠ 0) then 256 - k else k
  | 1 => let c := rnd e2m3 ⟨mode, true, false⟩ v; if c = 0x20 then 0 else c
  | _ => let c := rnd e2m1 ⟨mode, true, false⟩ v; if c = 0x8 then 0 else c

/-- Exponent of a format's largest normal element (04 R115). -/
def mxEmax (f : Nat) : Int := if f = 0 then 0 else 2

/-- The shared scale code of a block's values (04 R115). -/
def mxScale (f : Nat) (l : List Val) : Nat :=
  if l.any fun v => match v with | .fin _ _ _ _ => false | _ => true then 0xFF
  else
    let nz := l.filter fun v => !v.isZero
    match nz with
    | [] => 0
    | v :: t => (max 0 (min 254 ((t.map floorLog2).foldl max (floorLog2 v) - mxEmax f + 127))).toNat

/-- Byte b of a register. -/
def regByte (u : Word) (b : Nat) : Nat := u.toNat / 2 ^ (8 * b) % 256

/-- A register with w bits from bit `lo` replaced. -/
def setBits (u : Word) (lo w v : Nat) : Word :=
  let m := BitVec.ofNat 32 ((2 ^ w - 1) * 2 ^ lo)
  (u &&& ~~~m) ||| (BitVec.ofNat 32 (v * 2 ^ lo) &&& m)

/-- The place and width of a slot (04 R114). -/
def mxSlot (f i : Nat) : Nat × Nat := if f = 2 then (4 * i, 4) else (8 * i, 8)

/-- MXSC (04 R113 to R115). -/
def execMxsc (e n : Bool) (p : Option Pfx) (d a : BitVec 7) (f b : BitVec 2) (s : State) : Host.Outcome State Fault Refusal :=
  run (.mxsc e n p d a f b) s fun x =>
    let elems := fun l => if x.T.width = 16 then
        [Val.ofF32 ((x.srcPair a.toNat l).setWidth 32), Val.ofF32 ((x.srcPair a.toNat l >>> 32).setWidth 32)]
      else [Val.ofF32 (x.src a.toNat l)]
    let scale := fun blk => mxScale f.toNat (((lanesOf (x.active p)).filter fun l => l / 32 = blk).flatMap elems)
    let codes := [scale 0, scale 1]
    laneOp x s n p d [if x.T.width = 16 then .srcPair a.toNat else .src a.toNat] fun l =>
      setBits (x.W.reg l d.toNat) (8 * b.toNat) 8 ((codes[l / 32]?).getD 0)

/-- The element of a value under a scale code: code 0 for a NaN or the NaN scale (04 R116). -/
def mxQuant (f mode code : Nat) (v : Val) : Nat :=
  if code = 0xFF || v.isNan then 0 else mxRound f mode (v.scale (127 - (code : Int)))

/-- MXQ (04 R116). -/
def execMxq (e n : Bool) (p : Option Pfx) (d a : BitVec 7) (f b : BitVec 2) (sl : BitVec 3) (s : State) :
    Host.Outcome State Fault Refusal :=
  run (.mxq e n p d a f b sl) s fun x =>
    laneOp x s n p d [.src a.toNat, .src (pfxC p d)] fun l =>
      setBits (x.W.reg l d.toNat) (mxSlot f.toNat sl.toNat).1 (mxSlot f.toNat sl.toNat).2
        (mxQuant f.toNat (pfxRnd p).mode (regByte (x.src (pfxC p d) l) b.toNat) (.ofF32 (x.src a.toNat l)))

/-- MXQR (04 R117; 01 R39). -/
def execMxqr (e n : Bool) (p : Option Pfx) (d a : BitVec 7) (f b : BitVec 2) (i : BitVec 3) (s : State) :
    Host.Outcome State Fault Refusal :=
  run (.mxqr e n p d a f b i) s fun x =>
    withOperands x s [.reg d.toNat, .src a.toNat, .src (pfxC p d)] fun _ =>
      writeWithRes x s n p d.toNat i.toNat fun l =>
        let code := regByte (x.src (pfxC p d) l) b.toNat
        if code = 0xFF then (0, 0)
        else feedback (pfxRnd p).mode (fun v => mxRound f.toNat (pfxRnd p).mode (v.scale (127 - (code : Int))))
          (fun c => (mxVal f.toNat c).scale ((code : Int) - 127)) 0 (x.src a.toNat l) (x.W.res l i.toNat)

/-- MXDQ (04 R118). -/
def execMxdq (e n : Bool) (p : Option Pfx) (d a : BitVec 7) (f b : BitVec 2) (sl : BitVec 3) (s : State) :
    Host.Outcome State Fault Refusal :=
  run (.mxdq e n p d a f b sl) s fun x =>
    laneOp x s n p d [.src a.toNat, .src (pfxC p d)] fun l =>
      let code := regByte (x.src (pfxC p d) l) b.toNat
      let c := (x.src a.toNat l).toNat / 2 ^ (mxSlot f.toNat sl.toNat).1 % 2 ^ (mxSlot f.toNat sl.toNat).2
      if code = 0xFF then 0x7FC00000 else rnd32 (pfxRnd p) ((mxVal f.toNat c).scale ((code : Int) - 127))

/-! ## Online softmax -/

/-- The new state of a lane from its state, the tile's values and c = sat(ceil(max u), 32) (04 R120). -/
def smxStep (us : List Word) (c : Int) (st : DWord) : DWord :=
  let m := (BitVec.setWidth 32 (st >>> 32)).toInt
  let m' := max m c
  let s' := rnd32 Rnd.ne ((Val.ofF32 (st.setWidth 32)).scale (m - m'))
  let w := us.map fun u => Val.ofF32 (rnd32 Rnd.ne (exp2Val (.ofF32 (rnd32 Rnd.ne (sumVal 0 [.ofF32 u, .ofInt (-m')])))))
  (BitVec.ofInt 32 m' : Word) ++ rnd32 Rnd.ne (sumVal 0 (Val.ofF32 s' :: w))

/-- SMXACC (04 R120): rows are the tiles of $part. -/
def execSmxacc (e n : Bool) (p : Option Pfx) (d a b : BitVec 7) (s : State) : Host.Outcome State Fault Refusal :=
  run (.smxacc e n p d a b) s fun x =>
    let act := lanesOf (x.active p)
    let u := fun l => rnd32 Rnd.ne (mulVal (.ofF32 (x.src a.toNat l)) (.ofF32 (x.src b.toNat l)))
    laneOp64 x s n p d (srcAB a b) fun l =>
      let us := (act.filter fun k => k / x.W.part = l / x.W.part).map u
      if us.any fun w => (Val.ofF32 w).isNan then (BitVec.setWidth 32 (x.W.pair l d.toNat >>> 32) : Word) ++ (0x7FC00000 : Word)
      else
        let mx := (us.map Val.ofF32).foldl (minVal true) (.inf true)
        smxStep us (cvtInt 2 32 false mx) (x.W.pair l d.toNat)

/-- SMXFIN (04 R121). -/
def execSmxfin (e n : Bool) (p : Option Pfx) (d a b : BitVec 7) (s : State) : Host.Outcome State Fault Refusal :=
  run (.smxfin e n p d a b) s fun x =>
    laneOp x s n p d [.src a.toNat, .srcPair b.toNat] fun l =>
      let st := x.srcPair b.toNat l
      if BitVec.setWidth 32 (st >>> 32) = (0x80000000 : Word) then 0
      else rnd32 (pfxRnd p) (divVal (.ofF32 (x.src a.toNat l)) (.ofF32 (st.setWidth 32)))

end Sys2Proof.Machine
end

