-- ==== Sys2Proof/Machine/Crypto.lean ====
section
/-! DEFINITION. The signatures of deconfiguration policies, of the firmware and of attestation reports: SHA-256, MGF1 over
it, and RSASSA-PSS by 3,072-bit RSA keys (22 R424, R427, R428). The constants of SHA-256 are computed from the primes they
come from. -/

namespace Sys2Proof.Machine

/-! ## SHA-256 -/

/-- The first 64 primes. -/
def smallPrimes : List Nat := (List.range 312).filter fun n => decide (2 ≤ n) && (List.range n).all fun d => decide (d < 2) || decide (n % d ≠ 0)

/-- The greatest r of b more bits, above the bits of r set so far, with r to the k at most n. -/
def intRoot (k n : Nat) : Nat → Nat → Nat
  | 0, r => r
  | b + 1, r => intRoot k n b (if (r + 2 ^ b) ^ k ≤ n then r + 2 ^ b else r)

/-- The first 32 fraction bits of the k-th root of a prime. -/
def rootWord (k p : Nat) : Word := BitVec.ofNat 32 (intRoot k (p * 2 ^ (32 * k)) 37 0)

/-- The round constants. -/
def shaRound : List Word := smallPrimes.map (rootWord 3)
/-- The first hash value. -/
def shaStart : List Word := (smallPrimes.take 8).map (rootWord 2)

/-- A number as n bytes, high byte first. -/
def beBytes (n v : Nat) : List Byte := (List.range n).map fun i => BitVec.ofNat 8 (v / 256 ^ (n - 1 - i))
/-- The number of bytes, high byte first. -/
def beNat (bs : List Byte) : Nat := bs.foldl (fun n b => 256 * n + b.toNat) 0

/-- The message padded to whole blocks of 64 bytes. -/
def shaPad (m : List Byte) : List Byte :=
  m ++ [0x80] ++ List.replicate ((119 - m.length % 64) % 64) 0 ++ beBytes 8 (8 * m.length)

/-- One more word of the schedule, from the last sixteen. -/
def shaNext (w : List Word) : Word :=
  let at' := fun i => (w[w.length - i]?).getD 0
  let a := at' 15
  let b := at' 2
  at' 16 + (a.rotateRight 7 ^^^ a.rotateRight 18 ^^^ (a >>> 3)) + at' 7 + (b.rotateRight 17 ^^^ b.rotateRight 19 ^^^ (b >>> 10))

/-- The 64 words of the schedule of a block. -/
def shaSchedule (block : List Byte) : List Word :=
  (List.range 48).foldl (fun w _ => w ++ [shaNext w])
    ((List.range 16).map fun i => BitVec.ofNat 32 (beNat ((block.drop (4 * i)).take 4)))

/-- One round, with the sum of its constant and its word of the schedule. -/
def shaStep (h : List Word) (kw : Word) : List Word :=
  let v := fun i => (h[i]?).getD 0
  let e := v 4
  let t := v 7 + (e.rotateRight 6 ^^^ e.rotateRight 11 ^^^ e.rotateRight 25) + ((e &&& v 5) ^^^ (~~~e &&& v 6)) + kw
  let a := v 0
  let u := (a.rotateRight 2 ^^^ a.rotateRight 13 ^^^ a.rotateRight 22) + ((a &&& v 1) ^^^ (a &&& v 2) ^^^ (v 1 &&& v 2))
  (t + u) :: h.take 3 ++ (v 3 + t) :: (h.drop 4).take 3

/-- The hash after a block. -/
def shaBlock (h : List Word) (block : List Byte) : List Word :=
  let last := (shaRound.zip (shaSchedule block)).foldl (fun h e => shaStep h (e.1 + e.2)) h
  (h.zip last).map fun e => e.1 + e.2

/-- SHA-256 of a message: 32 bytes. -/
def sha256 (m : List Byte) : List Byte :=
  let p := shaPad m
  let h := (List.range (p.length / 64)).foldl (fun h i => shaBlock h ((p.drop (64 * i)).take 64)) shaStart
  h.flatMap fun w => beBytes 4 w.toNat

/-! ## RSASSA-PSS -/

/-- n bytes of the MGF1 mask of a seed. -/
def mgf1 (seed : List Byte) (n : Nat) : List Byte :=
  ((List.range ((n + 31) / 32)).flatMap fun i => sha256 (seed ++ beBytes 4 i)).take n

/-- b to the power e modulo n, where e has at most `fuel` bits. -/
def powMod : Nat → Nat → Nat → Nat → Nat
  | 0, _, _, n => 1 % n
  | f + 1, b, e, n => if e = 0 then 1 % n else (if e % 2 = 1 then b else 1) * powMod f (b * b % n) (e / 2) n % n

/-- The encoded message of a 3,072-bit key, 384 bytes, carries a digest with a 32-byte salt. -/
def pssOk (em hash : List Byte) : Bool :=
  let h := (em.drop 351).take 32
  let xored : List Byte := ((em.take 351).zip (mgf1 h 351)).map fun e => e.1 ^^^ e.2
  let db : List Byte := (xored.take 1).map (· &&& 0x7F) ++ xored.drop 1
  let salt := db.drop 319
  decide ((em.headD 0).toNat < 128) && (em.drop 383 == [0xBC]) && (db.take 319 == (List.replicate 318 0 ++ [1] : List Byte)) &&
  (h == sha256 ((List.replicate 8 0 : List Byte) ++ hash ++ salt))

/-- A signature, as a number, of a digest verifies against a key: modulus and exponent. -/
def pssVerify (key : Nat × Nat) (hash : List Byte) (sig : Nat) : Bool :=
  decide (sig < key.1) && pssOk (beBytes 384 (powMod 3072 sig key.2 key.1)) hash

/-- The keys of policies: one Maelzal key and at most one operator key (22 R424). -/
def policyKeys : List (Nat × Nat) := Config.maelzalKey :: (match Config.operatorKey with | some k => [k] | none => [])

/-- Byte i of a policy image. -/
def policyByte (p : BitVec 3584) (i : Nat) : Byte := (p >>> (8 * i)).setWidth 8

/-- A 448-byte policy image carries, in its bytes 64 to 447, a valid signature of its bytes 0 to 63 by a policy key (22
R424). -/
def policySigned (p : BitVec 3584) : Bool :=
  let sig := beNat ((List.range 384).map fun i => policyByte p (64 + i))
  let hash := sha256 ((List.range 64).map (policyByte p))
  policyKeys.any fun k => pssVerify k hash sig

/-! ## Firmware and attestation (22 R427, R428) -/

/-- The digest of the firmware image's whole body. -/
def firmwareDigest : List Byte := sha256 Config.firmwareBody

/-- The firmware image verifies against the fused Maelzal key (22 R427). -/
def firmwareOk : Bool := pssVerify Config.maelzalKey firmwareDigest Config.firmwareSignature

/-- The encoded message, 384 bytes, of a digest with a salt of 32 bytes, for a 3,072-bit key. -/
def pssEncode (hash salt : List Byte) : List Byte :=
  let h := sha256 ((List.replicate 8 0 : List Byte) ++ hash ++ salt)
  let db : List Byte := (List.replicate 318 0 : List Byte) ++ [1] ++ salt
  let masked := (db.zip (mgf1 h 351)).map fun e => e.1 ^^^ e.2
  (masked.take 1).map (· &&& 0x7F) ++ masked.drop 1 ++ h ++ [0xBC]

/-- The signature of a digest by a key, of modulus and private exponent, as 384 bytes. -/
def pssSign (key : Nat × Nat) (hash salt : List Byte) : List Byte :=
  beBytes 384 (powMod 3072 (beNat (pssEncode hash salt)) key.2 key.1)

end Sys2Proof.Machine
end

