-- ==== Sys2Proof/Machine/Tensor.lean ====
section
/-! DEFINITION. Tensor layout records, the geometry of a copy (16 R328 to R330, R332, R339), its range-lock entries
(16 R350) and the check of a thread's access against them (16 R351; 11 R253 step 7). -/

namespace Sys2Proof.Machine

/-- `len` bits of a record from bit `lo`. -/
def recF (r : BitVec 512) (lo len : Nat) : Nat := r.toNat / 2 ^ lo % 2 ^ len

/-- BASE (16 R328). -/
def recBase (r : BitVec 512) : Nat := recF r 0 56
/-- RANK (16 R328). -/
def recRank (r : BitVec 512) : Nat := recF r 56 3
/-- ELEM (16 R328). -/
def recElem (r : BitVec 512) : Nat := recF r 60 3
/-- EXTn (16 R328). -/
def recExt (r : BitVec 512) (n : Nat) : Nat := recF r (64 + 24 * n) 24
/-- STRn, 0 for dimension 0 (16 R328). -/
def recStr (r : BitVec 512) (n : Nat) : Nat := if n = 0 then 0 else recF r (184 + 36 * (n - 1)) 36
/-- The box extent Bn = BOXn + 1 (16 R329). -/
def recBox (r : BitVec 512) (n : Nat) : Nat := recF r (328 + 12 * n) 12 + 1
/-- SBASE (16 R328). -/
def recSBase (r : BitVec 512) : Nat := recF r 388 56
/-- SSTR (16 R328). -/
def recSStr (r : BitVec 512) : Nat := recF r 444 24

/-- The record obeys R328: reserved fields, RANK, and the fields of dimensions at and above it. -/
def recOk (r : BitVec 512) : Bool :=
  decide (recF r 59 1 = 0) && decide (recF r 63 1 = 0) && decide (recF r 468 44 = 0) &&
  decide (1 ≤ recRank r) && decide (recRank r ≤ 5) &&
  (List.range 5).all fun n => if n < recRank r then decide (recExt r n ≠ 0)
    else decide (recExt r n = 0) && decide (recStr r n = 0) && decide (recBox r n = 1)

/-- OPT, DIR and ELEM go together (16 R332). -/
def optOk (opt dir elem : Nat) : Bool :=
  match opt with
  | 0 => true
  | 1 => decide (dir = 0) && (decide (elem = 4) || decide (elem = 5))
  | 2 => decide (dir = 0) && (decide (elem = 6) || decide (elem = 7))
  | 3 => decide (dir = 0) && (decide (elem = 0) || decide (elem = 4) || decide (elem = 5))
  | _ => decide (dir = 0) && (decide (elem = 6) || decide (elem = 7))

/-- Bits of an element in memory (16 R328). -/
def elemBits (elem : Nat) : Nat :=
  match elem with
  | 0 => 8
  | 1 => 16
  | 2 => 32
  | 3 => 64
  | 4 => 6
  | 5 => 4
  | _ => 8

/-- Byte offset and bit of element i0 in a row (16 R329). -/
def elemPlace (elem i0 : Nat) : Nat × Nat :=
  match elem with
  | 4 => (3 * (i0 / 4) + 6 * (i0 % 4) / 8, 6 * (i0 % 4) % 8)
  | 5 => (i0 / 2, 4 * (i0 % 2))
  | _ => (elemBits elem / 8 * i0, 0)

/-- Bytes an element reaches from its first byte. -/
def elemSpan (elem i0 : Nat) : Nat := ((elemPlace elem i0).2 + elemBits elem + 7) / 8

/-- The origin coordinate of dimension n. -/
def Copy.orgAt (c : Copy) (n : Nat) : Int := (c.org[n]?).getD 0

/-- Elements of the box. -/
def Copy.count (c : Copy) : Nat := (List.range 5).foldl (fun p n => p * recBox c.record n) 1

/-- Coordinates of the box element of dense index x, in order of dimension (16 R329). -/
def Copy.coords (c : Copy) (x : Nat) : List Int :=
  ((List.range 5).foldl (fun (a : Nat × List Int) n =>
    (a.1 / recBox c.record n, a.2 ++ [c.orgAt n + ((a.1 % recBox c.record n : Nat) : Int)])) (x, [])).2

/-- The coordinates are in bounds (16 R329). -/
def Copy.inBounds (c : Copy) (i : List Int) : Bool :=
  (List.range (recRank c.record)).all fun n =>
    decide (0 ≤ (i[n]?).getD 0) && decide ((i[n]?).getD 0 < (recExt c.record n : Int))

/-- Address of the row of an element in bounds (16 R329). -/
def Copy.rowAt (c : Copy) (i : List Int) : Nat :=
  recBase c.record + (List.range 5).foldl (fun a n => a + recStr c.record n * ((i[n]?).getD 0).toNat) 0

/-- First byte, bit in it and bytes spanned of an element in bounds (16 R329). -/
def Copy.elemAt (c : Copy) (i : List Int) : Nat × Nat × Nat :=
  let i0 := ((i[0]?).getD 0).toNat
  let e := recElem c.record
  (c.rowAt i + (elemPlace e i0).1, (elemPlace e i0).2, elemSpan e i0)

/-- Lowest and highest in-bounds coordinates of each dimension. -/
def Copy.bounds (c : Copy) : List (Int × Int) :=
  (List.range 5).map fun n =>
    if n < recRank c.record then
      (max (c.orgAt n) 0, min (c.orgAt n + (recBox c.record n : Int) - 1) ((recExt c.record n : Int) - 1))
    else (0, 0)

/-- The hull of the tensor side: first byte and length (16 R330). -/
def Copy.tensorHull (c : Copy) : Option (Nat × Nat) :=
  let b := c.bounds
  if b.any fun r => decide (r.2 < r.1) then none
  else
    let lo := c.elemAt (b.map (·.1))
    let hi := c.elemAt (b.map (·.2))
    some (lo.1, hi.1 + hi.2.2 - lo.1)

/-- Elements in bounds. -/
def Copy.inCount (c : Copy) : Nat := c.bounds.foldl (fun p r => p * (r.2 - r.1 + 1).toNat) 1

/-- The copy is a steep. -/
def Copy.steep (c : Copy) : Bool := decide (3 ≤ c.opt)
/-- The copy aligns FP8 to MXINT8 (16 R338). -/
def Copy.aligns (c : Copy) : Bool := decide (c.opt = 2) || decide (c.opt = 4)

/-- Bits of an element on the dense side (16 R329, R332). -/
def Copy.denseBits (c : Copy) : Nat :=
  if c.aligns || (decide (c.opt = 1) && decide (recElem c.record = 4)) then 8 else elemBits (recElem c.record)

/-- Bytes of the dense form. -/
def Copy.denseBytes (c : Copy) : Nat := (c.denseBits * c.count + 7) / 8

/-- Blocks of 32, of an aligning copy or a steep. -/
def Copy.blocks (c : Copy) : Nat := c.count / 32

/-- Elements in one unit of the copy, which is read whole before it is written: one element, a packed group or byte, or a
block (log 12). -/
def Copy.unitElems (c : Copy) : Nat :=
  if c.aligns || c.steep then 32
  else match recElem c.record with
    | 4 => 4
    | 5 => 2
    | _ => 1

/-- Units of the copy. -/
def Copy.units (c : Copy) : Nat := c.count / c.unitElems

/-- Bytes of a unit on the dense side. -/
def Copy.unitBytes (c : Copy) : Nat := c.denseBits * c.unitElems / 8

/-! ### Progress, byte by byte (10 R227; 16 R336) -/

/-- The global bytes that an element of the tensor side covers, virtual. -/
def Copy.elemBytes (c : Copy) (i : List Int) : List Nat := List.range' (c.elemAt i).1 (c.elemAt i).2.2

/-- A byte the copy reads: of global memory, by virtual address, or of scratch, by offset. -/
inductive CopySrc where
  | global (va : Nat)
  | scratch (off : Nat)
deriving DecidableEq, Repr

/-- The coordinates of the j-th element of the current unit. -/
def Copy.unitCoords (c : Copy) (j : Nat) : List Int := c.coords (c.unit * c.unitElems + j)

/-- The scale byte of the current block of a steep that reads its scales (16 R339). -/
def Copy.scaleVa (c : Copy) : Nat :=
  let per := recBox c.record 0 / 32
  ((recSBase c.record : Int) + (c.orgAt 0 / 32 + (c.unit % per : Nat)) + (recSStr c.record : Int) * (c.orgAt 1 + (c.unit / per : Nat))).toNat

/-- The bytes the copy reads for its current unit, in order. -/
def Copy.reads (c : Copy) : List CopySrc :=
  if c.dir = 1 then (List.range' (c.dense + c.unit * c.unitBytes) c.unitBytes).map .scratch
  else (((List.range c.unitElems).flatMap fun j => if c.inBounds (c.unitCoords j) then c.elemBytes (c.unitCoords j) else []).eraseDups.map .global) ++
    (if c.opt = 3 then [.global c.scaleVa] else [])

/-- The byte the copy reads next; none while it writes. -/
def Copy.nextRead (c : Copy) : Option CopySrc := if c.put.isEmpty then c.reads[c.got.length]? else none

/-- The scratch ranges the copy has still to write: offsets and lengths (15 R323). -/
def Copy.left (c : Copy) : List (Nat × Nat) :=
  if c.dir = 0 && !c.steep then
    let now := if c.put.isEmpty then c.unitBytes else c.put.length - (if c.opt = 2 then 1 else 0)
    let dense := (c.units - c.unit) * c.unitBytes - (c.unitBytes - now)
    [(c.dense + c.units * c.unitBytes - dense, dense)] ++ (if c.opt = 2 then [(c.sdense + c.unit, c.units - c.unit)] else [])
  else []

/-- Bytes that the in-bounds elements of one row of the box touch (16 R329). -/
def Copy.rowBytes (c : Copy) : Nat :=
  let b := (c.bounds[0]?).getD (0, 0)
  let e := recElem c.record
  (elemPlace e b.2.toNat).1 + elemSpan e b.2.toNat - (elemPlace e b.1.toNat).1

/-- Bytes the copy writes on the tensor side: those of its rows in bounds. -/
def Copy.tensorBytes (c : Copy) : Nat :=
  if c.bounds.any fun r => decide (r.2 < r.1) then 0
  else c.rowBytes * (c.bounds.drop 1).foldl (fun p r => p * (r.2 - r.1 + 1).toNat) 1

/-- Bytes the copy writes, scales included (16 R334 step 6). -/
def Copy.bytesWritten (c : Copy) : Nat :=
  if c.steep then ((if recElem c.record = 5 then 4 else 8) * c.count + 7) / 8 + c.blocks
  else if c.dir = 1 then c.tensorBytes
  else c.denseBytes + (if c.opt = 2 then c.blocks else 0)

/-- The hull of the scales a steep reads (16 R339, R350). -/
def Copy.scaleHull (c : Copy) : Option (Nat × Nat) :=
  if c.opt = 3 then
    let at' := fun (j n : Int) => ((recSBase c.record : Int) + (c.orgAt 0 / 32 + j) + (recSStr c.record : Int) * (c.orgAt 1 + n)).toNat
    let lo := at' 0 0
    some (lo, at' ((recBox c.record 0 / 32 : Nat) - 1 : Int) ((recBox c.record 1 : Int) - 1) + 1 - lo)
  else none

/-- The copy's range-lock entries: cause, first virtual byte, length (16 R350; 19 R389 code 16). -/
def Copy.locks (c : Copy) : List (Nat × Nat × Nat) :=
  (match c.tensorHull with | some h => [(if c.dir = 1 then 2 else 1, h.1, h.2)] | none => []) ++
  (if c.dir = 2 then [(2, c.dense, c.denseBytes)] else []) ++
  (match c.scaleHull with | some h => [(3, h.1, h.2)] | none => [])

/-! ## Copies of an engine (16 R336, R352, R354) -/

/-- Copies the engine of a core holds. -/
def State.engineCopies (s : State) (core : Nat) : List Copy := s.copies.filter fun c => c.core = core

/-- A steep is the first operation of its bank's queue: it executes; any other copy waits for no bank (14 R309; 16 R339). -/
def State.atHead (s : State) (c : Copy) : Bool :=
  match c.bank with
  | some b => (match (tget Bank.zero s.banks (32 * c.core + b)).ops with | o :: _ => decide (o.kind = .steep c.id) | [] => false)
  | none => true

/-- The copies of an engine that could move data: they have started, are not parked, and wait for no bank. -/
def State.goers (s : State) (core : Nat) : List Copy :=
  (s.engineCopies core).filter fun c => c.started && c.park.isNone && s.atHead c

/-- The copies of an engine that move data: at most eight, and none while the engine stands still for want of a park slot. -/
def State.movers (s : State) (core : Nat) : List Copy :=
  if (s.engineCopies core).any (·.stalled) then [] else (s.goers core).take 8

/-- The copy moves data. -/
def State.moving (s : State) (c : Copy) : Bool := (s.movers c.core).any fun k => k.id = c.id

/-- The next byte of a copy comes from an empty scratch line (09 R214). -/
def State.sourceEmpty (s : State) (c : Copy) : Bool :=
  match c.nextRead, s.team c.team with
  | some (.scratch o), some T => (match T.scratchAt o 1 with | some a => s.isEmpty a | none => false)
  | _, _ => false

/-- A copy cannot go on without another agent: it has parked, its engine stands still, or the engine moves eight others that
all wait on empty source lines (14 R310). -/
def State.copyStuck (s : State) (c : Copy) : Bool :=
  c.park.isSome || ((s.engineCopies c.core).any (·.stalled)) || s.sourceEmpty c ||
  (!s.moving c && decide ((s.movers c.core).length = 8) && (s.movers c.core).all s.sourceEmpty)

/-! ## The check of a thread's access -/

/-- The kinds of thread access (11 R253, R267). `fresh` is a load that L1 never saves a translation (09 R207). -/
inductive MemKind where
  | load | fresh | store | mcst
  | atomic (ty : Nat)
deriving DecidableEq, Repr

/-- The access writes. -/
def MemKind.writes : MemKind → Bool
  | .load => false
  | .fresh => false
  | _ => true

/-- The access type is allowed in the region it reaches (11 R267, R269). -/
def typeOk (k : MemKind) (n r : Nat) : Bool :=
  match k with
  | .atomic ty => if r = 2 then false else if 8 ≤ r then decide (ty = 2) || decide (ty = 3) else if 4 ≤ r then decide (ty ≤ 3) else true
  | _ => if r = 2 ∨ 8 ≤ r then decide (n = 4) else true

/-- The unsupported-type error of an access (19 R389 code 15). -/
def typeTrap (k : MemKind) (n pa va : Nat) : Option Trap :=
  if typeOk k n (regionOf pa) then none
  else some ⟨15, 0, va, (match k with | .atomic ty => ty | _ => 7) + 2 ^ 8 * min n 16, regionOf pa, none⟩

/-- The range-lock fault of an access of n bytes (16 R351; 19 R389 code 16), the lowest cause first. -/
def State.lockTrap (s : State) (ctx : Nat) (k : MemKind) (va n : Nat) (pas : List Nat) : Option Trap :=
  let hits := (s.copies.filter fun c => decide (c.ctx = ctx)).flatMap fun c =>
    (c.locks.filter fun e => overlap va n e.2.1 e.2.2).map (·.1)
  let hits := if k.writes then hits ++ (if pas.any fun pa => s.hitsHung pa 1 then [4] else []) else hits.filter (· = 2)
  match hits with
  | [] => none
  | c :: t => some ⟨16, t.foldl min c, va, 0, 0, none⟩

end Sys2Proof.Machine
end

