-- ==== Sys2Proof/Machine/Access.lean ====
section
/-! DEFINITION. The checks of a memory access, in the order of 11 R253, for the three spaces; issuing loads and stores
(01 R19; 10 R237; 11 R255, R257); the request collector's room (17 R370, R371). -/

namespace Sys2Proof.Machine

/-- A lane's checked access to global or private memory: the virtual and physical address of each byte, whether its
page has NC = 1, and the translation made (none for an L1 hit). -/
structure MemAcc where
  lane : Nat
  vas : List Nat
  pas : List Nat
  nc : Bool
  xl : Option Xlat
deriving DecidableEq, Repr

/-- The first virtual address of an access. -/
def MemAcc.va (a : MemAcc) : Nat := a.vas.headD 0
/-- The first physical address of an access. -/
def MemAcc.pa (a : MemAcc) : Nat := a.pas.headD 0

/-- The fault of the lowest lane that meets one. -/
def firstLane (ls : List Nat) (f : Nat → Option Trap) : Option Trap :=
  ls.findSome? fun l => (f l).map fun t => { t with lane := some l }

/-- The physical bytes of all 16 replicas of an access to a replicated page, else its own (09 R222). -/
def MemAcc.replicas (s : State) (ctx : Nat) (a : MemAcc) : List (List Nat) :=
  match a.xl with
  | some t => if leafREP t.leaf then (List.range 16).map fun d => a.pas.map fun pa => pa - t.pa + t.pa0 + s.replica ctx d
    else [a.pas]
  | none => [a.pas]

/-- Translate a lane's access (11 R253 step 5): a load whose lines are all in L1 is not translated (09 R207). -/
def Ix.xlate (x : Ix) (s : State) (k : MemKind) (lane : Nat) (vas : List Nat) : Except Trap MemAcc :=
  let va := vas.headD 0
  let hit := if k = .load then vas.mapM fun v => (s.l1Line x.core x.T.ctx (v / 128)).map fun l => l.pline * 128 + v % 128 else none
  match hit with
  | some pas => .ok ⟨lane, vas, pas, false, none⟩
  | none =>
    if !canonical va then .error (Trap.translation 7 va k.writes (some lane))
    else match s.translate x.core x.T.ctx va (if k.writes then .store else .load) with
      | .error c => .error (Trap.translation c va k.writes (some lane))
      | .ok t =>
        let a : MemAcc := ⟨lane, vas, vas.map fun v => v - va + t.pa, leafNC t.leaf, some t⟩
        if k = .mcst && (a.replicas s x.T.ctx).any fun l => l.any fun pa => !s.backed pa then
          .error (Trap.translation 5 va true (some lane))
        else .ok a

/-- Steps 5 to 7 of R253 for accesses of n bytes; private accesses meet no range lock. -/
def Ix.checkAcc (x : Ix) (s : State) (k : MemKind) (n : Nat) (lock : Bool) (lanes : List Nat) (vas : Nat → List Nat) :
    Except Trap (List MemAcc) :=
  match lanes.mapM fun l => x.xlate s k l (vas l) with
  | .error t => .error t
  | .ok as =>
    let all := fun (a : MemAcc) => if k = .mcst then a.replicas s x.T.ctx else [a.pas]
    match as.findSome? fun a => ((all a).findSome? fun l => typeTrap k n (l.headD 0) a.va).map fun t => { t with lane := some a.lane } with
    | some t => .error t
    | none =>
      match if lock then as.findSome? fun a => (s.lockTrap x.T.ctx k a.va n (all a).flatten).map fun t => { t with lane := some a.lane }
        else none with
      | some t => .error t
      | none => .ok as

/-- The checks of global accesses of n bytes, one by each lane at `addr` (11 R251 to R253). -/
def Ix.globalAcc (x : Ix) (s : State) (k : MemKind) (n : Nat) (lanes : List Nat) (addr : Nat → Nat) :
    Except Trap (List MemAcc) :=
  match firstLane lanes fun l => if addr l % n = 0 then none else some ⟨10, 0, addr l, 0, 0, none⟩ with
  | some t => .error t
  | none =>
    match firstLane lanes fun l => if canonical (addr l) then none else some (Trap.translation 7 (addr l) k.writes none) with
    | some t => .error t
    | none => x.checkAcc s k n true lanes fun l => List.range' (addr l) n

/-- The checks of private accesses of n bytes, one by each lane at offset `off` (09 R216, R217; 11 R251 to R253). -/
def Ix.privateAcc (x : Ix) (s : State) (k : MemKind) (n : Nat) (lanes : List Nat) (off : Nat → Nat) :
    Except Trap (List MemAcc) :=
  match firstLane lanes fun l => if off l % n = 0 then none else some ⟨10, 0, off l, 0, 0, none⟩ with
  | some t => .error t
  | none =>
    match firstLane lanes fun l => if off l + n ≤ 2 ^ 24 then none else some ⟨12, 0, off l, 0, 0, none⟩ with
    | some t => .error t
    | none =>
      let top := (lanes.map fun l => off l + n - 1).foldl max 0
      match firstLane lanes fun l => if off l + n ≤ 1024 * x.W.phw then none else some ⟨13, 0, top, 0, 0, none⟩ with
      | some t => .error t
      | none => x.checkAcc s k n false lanes fun l => (List.range n).map fun i => s.privVa x.T.ctx x.w l (off l + i)

/-- The checks of scratch accesses of n bytes, one by each lane at offset `off` (09 R211, R213; 11 R251 to R253): each
lane with its place. -/
def Ix.scratchAcc (x : Ix) (s : State) (n : Nat) (lanes : List Nat) (off : Nat → Nat) :
    Except Trap (List (Nat × Nat × Nat × Nat)) :=
  match firstLane lanes fun l => if off l % n = 0 then none else some ⟨10, 0, off l, 0, 0, none⟩ with
  | some t => .error t
  | none =>
    match lanes.mapM fun l => match (if off l < 2 ^ 32 then x.T.scratchAt (off l) n else none) with
      | some a => Except.ok (l, a)
      | none => Except.error (⟨11, 0, off l, 0, 0, some l⟩ : Trap) with
    | .error t => .error t
    | .ok as =>
      match as.findSome? fun e => if (s.bankOf e.2).mash then some (⟨17, 0, 0, x.T.bankIndex e.2, 0, some e.1⟩ : Trap) else none with
      | some t => .error t
      | none => .ok as

/-- Keep the leaves of translated accesses (09 R207). -/
def Ix.keepLeaves (x : Ix) (s : State) (as : List MemAcc) : State :=
  as.foldl (fun s a => match a.xl with | some t => s.keepLeaf x.core x.T.ctx a.va t | none => s) s

/-! ## Operands of scratch accesses (06 R151; 11 R249 to R251, R264) -/

/-- Bytes of a memory access by sz. -/
def memBytes (z : Nat) : Nat := match z with | 0 => 1 | 1 => 2 | 2 => 4 | _ => 16
/-- The offset of a scratch or private access (11 R251). -/
def Ix.soff (x : Ix) (a : BitVec 7) (off l : Nat) : Nat := (x.src a.toNat l).toNat + off

/-- Bytes of a uniform access by SZ. -/
def uniBytes (z : BitVec 2) : Nat := 2 ^ z.toNat

/-- The offset of a uniform scratch access. -/
def Ix.uoff (x : Ix) (a : BitVec 6) (z : BitVec 2) (o : BitVec 7) : Nat :=
  (x.W.greg a.toNat).toNat % 2 ^ 32 + o.toNat * uniBytes z

/-- Bytes of an ATOM's type. -/
def atomBytes (ty : BitVec 3) : Nat := if ty = 2 ∨ ty = 3 then 8 else 4

/-- The scratch access of an instruction that may wait on empty lines: its bytes, its lanes and their offsets (09 R214). -/
def Ix.scratchUse (x : Ix) (i : Instr) : Option (Nat × List Nat × (Nat → Nat)) :=
  match i with
  | .lds _ _ a o z => some (memBytes z.toNat, x.lanes, x.soff a (o.toNat * memBytes z.toNat))
  | .ldss _ _ a o z => some (memBytes z.toNat, x.lanes, x.soff a (o.toNat * memBytes z.toNat))
  | .glds _ _ a z o => some (uniBytes z, [x.low], fun _ => x.uoff a z o)
  | .atom _ _ a _ _ ty _ _ _ _ _ => some (atomBytes ty, x.lanes, x.soff a 0)
  | _ => none

/-! ## Issuing loads and stores -/

/-- The parts of an access that are each single-copy atomic, with the register of the first: two 64-bit halves of a 128-bit
access (10 R227). -/
def MemAcc.parts (a : MemAcc) : List (MemAcc × Nat) :=
  if a.vas.length = 16 then
    [({ a with vas := a.vas.take 8, pas := a.pas.take 8 }, 0), ({ a with vas := a.vas.drop 8, pas := a.pas.drop 8 }, 2)]
  else [(a, 0)]

/-- Registers a part of an access fills, of the n of the whole access. -/
def partRegs (n : Nat) : Nat := if n = 4 then 2 else n

/-- The i-th outstanding load of an instruction. -/
def Ix.outst (x : Ix) (s : State) (i : Nat) (a : MemAcc) (signed uni : Bool) (dest nreg : Nat) : Outst :=
  { id := s.nextId + i, grp := s.nextId, w := x.w, lane := a.lane, ctx := x.T.ctx, kind := .load, addrs := a.vas.zip a.pas,
    signed := signed, nc := a.nc, value := 0, uni := uni, dest := dest, nreg := nreg, coll := none, pc := x.P.pc,
    scene := x.P.scene, size := 0, count := x.P.count, failed := false, lock := false, peer := s.peerAt a.pa }

/-- An outstanding entry of a lane whose value is already formed. -/
def Ix.formed (x : Ix) (s : State) (i lane : Nat) (uni : Bool) (dest nreg : Nat) (v : BitVec 128) : Outst :=
  { id := s.nextId + i, grp := s.nextId, w := x.w, lane := lane, ctx := x.T.ctx, kind := .value, addrs := [],
    signed := false, nc := true, value := v, uni := uni, dest := dest, nreg := nreg, coll := none, pc := x.P.pc,
    scene := x.P.scene, size := 0, count := x.P.count, failed := false, lock := false, peer := none }

/-- Add outstanding entries of lanes of an instruction that waits for others of its lanes (11 R254). -/
def State.addPart (s : State) (os : List Outst) : State := { s with loads := s.loads ++ os, nextId := s.nextId + os.length }

/-- Add the outstanding entries of an instruction. -/
def State.addLoads (s : State) (os : List Outst) : State :=
  s.addPart (os.map fun (o : Outst) => { o with size := os.length })

/-- A store of a lane, not yet performed. -/
def Ix.pstore (x : Ix) (s : State) (i : Nat) (a : MemAcc) (bs : List Byte) : PStore :=
  { id := s.nextId + i, grp := s.nextId, w := x.w, lane := a.lane, ctx := x.T.ctx,
    bytes := (a.vas.zip a.pas).zip bs |>.map fun e => (e.1.1, e.1.2, e.2), coll := none, mcst := false, span := [],
    rel := none, peer := s.peerAt a.pa }

/-- Add stores. -/
def State.addStores (s : State) (ps : List PStore) : State := { s with stores := s.stores ++ ps, nextId := s.nextId + ps.length }

/-- Entries of a core's collector: instruction and line (17 R371). -/
def State.collEntries (s : State) (core : Nat) : List (Nat × Nat) :=
  ((s.loads.filterMap fun o => if coreOf o.w = core then o.coll.map fun l => (o.grp, l) else none) ++
   (s.stores.filterMap fun p => if coreOf p.w = core then p.coll.map fun l => (p.grp, l) else none)).eraseDups

/-- The collector takes n more entries of a core (17 R371). -/
def State.collRoom (s : State) (core n : Nat) : Bool := decide ((s.collEntries core).length + n ≤ 64)

/-- The distinct 128-byte lines of accesses. -/
def accLines (as : List MemAcc) : List Nat := (as.map fun a => a.va / 128).eraseDups

/-- Write what an outstanding entry returns to its registers (01 R16, R18; 11 R255). -/
def Warp.deliver (W : Warp) (o : Outst) (v : Nat) : Warp :=
  if o.uni then (if o.nreg = 0 then W else W.setG o.dest (BitVec.ofNat 64 v))
  else (List.range o.nreg).foldl (fun W i => W.setReg o.lane (o.dest + i) (BitVec.ofNat 32 (v / 2 ^ (32 * i)))) W

/-- The path of a warp that waits in place, with what it waits for. -/
def State.waiter (s : State) (w : Nat) : Option (Ix × Wait) :=
  match { s with cur := w }.issuing with
  | none => none
  | some x => x.P.wait.map fun k => (x, k)

/-- The bytes of one load made now by a lane of the path, at the place of execution and with the lane's own stores:
`none` where a byte's link is down (21 R417). -/
def Ix.readNow (x : Ix) (s : State) (a : MemAcc) : Option (List Byte) :=
  let o := { x.outst s 0 a false false 0 0 with nc := true }
  if a.pas.all s.reaches then some ((a.vas.zip a.pas).map fun e => s.loadByte o e) else none

/-- The data error of a load whose data cannot come (19 R389 code 23). -/
def dataTrap (va lane : Nat) : Trap := ⟨23, 0, va, 0, 0, some lane⟩

/-- The load of an n-byte record by a lane at an address, made now: its bytes as a number (06 R177; 16 R334 step 4). Whether
L1 may serve it the spec does not say, of LAUNCH's record as little as of COPY's: the model reads past L1 and fills none (DESIGN
CHOICE, log 24). -/
def Ix.readRecord (x : Ix) (s : State) (lane va n : Nat) : Except Trap (State × Nat) :=
  match x.globalAcc s .fresh n [lane] fun _ => va with
  | .error t => .error t
  | .ok as =>
    match as with
    | a :: _ =>
      match x.readNow s a with
      | some bs => .ok (((x.keepLeaves s as).l1Pass x.core x.T.ctx a.vas).shareBytes (s.dieOf x.core) a.pas, leNat bs)
      | none => .error (dataTrap va lane)
    | [] => .error (dataTrap va lane)

end Sys2Proof.Machine
end

