-- ==== Sys2Proof/Machine/Cue.lean ====
section
/-! DEFINITION. Cue tables: HANG, UNHANG, CUE and the events that finish them (12 R273 to R290). -/

namespace Sys2Proof.Machine

/-- A handle of a context (12 R278). -/
def State.handle (s : State) (ctx h : Nat) : Handle := tget .unbound s.handles (16 * ctx + h)
/-- Replace a handle. -/
def State.setHandle (s : State) (ctx h : Nat) (v : Handle) : State := { s with handles := tput .unbound s.handles (16 * ctx + h) v }

/-- The table fault (12 R290). -/
def Trap.table (cause h index : Nat) (lane : Option Nat) : Trap := ⟨18, cause, 0, h, index, lane⟩

/-- A physical address lies in an arena block (12 R274, R275). -/
def State.inArena (s : State) (pa : Nat) : Bool :=
  decide (regionOf pa = 1) && decide (96 * 2 ^ 30 ≤ s.hubLocal pa + 2 ^ 27 * (tget 0 s.slabs (hubOf pa)).toNat) &&
  s.backed pa

/-- HANG (12 R277, R278): the checks and the start; HANG_FINISH does the rest. -/
def execHang (e : Bool) (d a b : BitVec 6) (h : BitVec 4) (s : State) : Host.Outcome State Fault Refusal :=
  run (.hang e d a b h) s fun x => withUniform x s [d.toNat, a.toNat, b.toNat] fun _ =>
    let desc := x.W.greg b.toNat
    let rows := desc.toNat % 2 ^ 7
    let ew := desc.toNat / 2 ^ 8 % 4
    let va := (x.W.greg a.toNat).toNat % 2 ^ 56
    if s.handle x.T.ctx h.toNat ≠ .unbound then .trap s (Trap.table 3 h.toNat 0 none)
    else if rows = 0 ∨ 64 < rows ∨ ew = 3 ∨ desc.getLsbD 7 ∨ desc.toNat / 2 ^ 10 ≠ 0 then .trap s (Trap.operand b.toNat)
    else if va % 1024 ≠ 0 then .trap s ⟨10, 0, va, 0, 0, none⟩
    else match x.xlate s .fresh x.low [va] with
      | .error t => .trap s { t with lane := none }
      | .ok m =>
        if !s.inArena m.pa ∨ 65536 < m.pa % 65536 + 1024 * rows then .trap s (Trap.table 4 h.toNat 0 none)
        else .ok ((x.keepLeaves s [m]).setHandle x.T.ctx h.toNat
          (.hanging x.w d va m.pa rows ew x.P.lanes s.nextId)) none

/-- What HANG waits for has happened (12 R278, R279): the path's earlier stores are performed, and every store that passed
its check before the range is locked; no multicast entry overlaps. -/
def State.hangReady (s : State) (w pa rows : Nat) (lanes : Mask) (id : Nat) : Bool :=
  !(s.stores.any fun p => decide (p.w = w) && lanes.getLsbD p.lane && decide (p.id < id)) &&
  !(s.stores.any fun p => p.bytes.any fun b => overlap pa (1024 * rows) b.2.1 1) && !s.hitsMcst pa (1024 * rows)

/-- A copy entry of a context overlaps a virtual range (12 R278; 16 R351). -/
def State.copyOverlaps (s : State) (ctx va n : Nat) : Bool :=
  s.copies.any fun c => decide (c.ctx = ctx) && c.locks.any fun e => overlap va n e.2.1 e.2.2

/-- HANG_FINISH (12 R278). -/
def execHangFinish (ctx h : Nat) (s : State) : Host.Outcome State Fault Refusal :=
  .next (match s.handle ctx h with
    | .hanging w gd va pa rows ew lanes id =>
      if !s.hangReady w pa rows lanes id then s
      else if s.copyOverlaps ctx va (1024 * rows) then
        (s.setHandle ctx h .unbound).modWarp w fun W => W.setG gd.toNat 1
      else
        (((List.range (8 * rows)).foldl (fun s i => (s.recall (pa / 128 + i)).mscDrop (pa / 128 + i)) s).setHandle ctx h (.hung pa rows ew false)).modWarp w
          fun W => W.setG gd.toNat 0
    | _ => s)

/-- A query of a handle has not returned (12 R282). A query names its handle in its byte's first number. -/
def State.queriesOut (s : State) (ctx h : Nat) : Bool :=
  s.loads.any fun o => decide (o.kind = .cue) && !o.failed && decide (o.ctx = ctx) &&
    decide ((o.addrs.headD (0, 0)).1 / 2 ^ 32 = h)

/-- UNHANG (12 R282): it waits in place for the queries of the handle. -/
def execUnhang (e : Bool) (h : BitVec 4) (s : State) : Host.Outcome State Fault Refusal :=
  run (.unhang e h) s fun x =>
    match s.handle x.T.ctx h.toNat with
    | .hung _ _ _ _ =>
      if s.queriesOut x.T.ctx h.toNat then .wait s .unhang else .ok (s.setHandle x.T.ctx h.toNat .unbound) none
    | _ => .trap s (Trap.table 1 h.toNat 0 none)

/-- The paths that wait in UNHANG for a handle. -/
def State.unhangers (s : State) (ctx h : Nat) : List (Ix × Wait) :=
  (s.warps.filterMap fun e => s.waiter e.1).filter fun r =>
    decide (r.1.T.ctx = ctx) && (match r.2.instr with | .unhang _ n => decide (n.toNat = h) | _ => false)

/-- UNHANG_FINISH (12 R282, R283). -/
def execUnhangFinish (ctx h : Nat) (s : State) : Host.Outcome State Fault Refusal :=
  .next (if s.queriesOut ctx h then s
    else
      let free := match s.handle ctx h with
        | .hung _ _ _ rel => rel || !(s.unhangers ctx h).isEmpty
        | _ => false
      let s := if free then s.setHandle ctx h .unbound else s
      (s.unhangers ctx h).foldl (fun s r => retire r.1 r.2.instr s none) s)

/-- Bits of a table entry (12 R276). -/
def cueBits (ew : Nat) : Nat := 8 * 2 ^ ew

/-- Entry i of a table: the handle and the index beside the address of each of its bytes (12 R276). -/
def cueAddrs (h i pa ew : Nat) : List (Nat × Nat) :=
  (List.range (cueBits ew / 8)).map fun k => (h * 2 ^ 32 + i, pa + cueBits ew / 8 * i + k)

/-- The query of a lane for entry i; its collector entry is the row. -/
def Ix.query (x : Ix) (s : State) (n lane h i pa ew : Nat) (sx : Bool) (d : Nat) : Outst :=
  { id := s.nextId + n, grp := s.nextId, w := x.w, lane := lane, ctx := x.T.ctx, kind := .cue,
    addrs := cueAddrs h i pa ew, signed := sx, nc := true, value := 0, uni := false, dest := d, nreg := 1
    coll := some ((pa + cueBits ew / 8 * i) / 1024), pc := x.P.pc, scene := x.P.scene, size := 0, count := x.P.count
    failed := false, lock := false, peer := none }

/-- CUE (12 R284, R285; 17 R370, R371): its queries enter the request collector, one entry for each row. -/
def execCue (e : Bool) (d a : BitVec 7) (sx : Bool) (h : BitVec 4) (s : State) : Host.Outcome State Fault Refusal :=
  run (.cue e d a sx h) s fun x => withOperands x s [.reg d.toNat, .src a.toNat] fun _ =>
    match s.handle x.T.ctx h.toNat with
    | .unbound => .trap s (Trap.table 1 h.toNat (x.src a.toNat x.low).toNat none)
    | .hanging _ _ _ _ _ _ _ _ => .stall
    | .hung pa rows ew _ =>
      let i := fun l => (x.src a.toNat l).toNat
      match x.lanes.find? fun l => decide (rows * 8192 / cueBits ew ≤ i l) with
      | some l => .trap s (Trap.table 2 h.toNat (i l) (some l))
      | none =>
        let qs := x.lanes.zipIdx.map fun l => x.query s l.2 l.1 h.toNat (i l.1) pa ew sx d.toNat
        let n := (qs.map (·.coll)).eraseDups.length
        if s.collRoom x.core n then .ok (s.addLoads qs) none else .stall

/-- The value a query returns (12 R276, R285). -/
def State.cueValue (s : State) (o : Outst) : Nat :=
  let v := leNat (o.addrs.map fun a => s.byteAt a.2)
  if o.signed then (BitVec.ofInt 32 (sext (8 * o.addrs.length) v)).toNat else v

/-! ## Errors in returned data (12 R285; 19 R389 codes 18 and 23) -/

/-- The path that issued an outstanding entry, as it stood before the instruction, with the instruction's length in words
and whether it ended its scene: where the instruction is still the last the path issued, none of its entries has returned,
and no other path of the warp is inside a scene. There a fault can stop the path before the instruction (19 R379; log 12). -/
def State.issuerOf (s : State) (o : Outst) : Option (Ix × Nat × Bool) :=
  match s.warp o.w with
  | none => none
  | some W =>
    match W.paths.find? (fun P => P.lanes.getLsbD o.lane), s.team W.team with
    | some P, some T =>
      let mine := s.loads.filter fun q => decide (q.grp = o.grp)
      let len := (P.pc - o.pc).toNat / 4
      let last := decide (mine.length = o.size) && decide (P.count = o.count + 1) && decide (0 < len) && decide (len < 4) &&
        P.stop.isNone && P.wait.isNone && P.block.isNone && W.prompt.isNone && mine.all fun q => P.lanes.getLsbD q.lane
      let alone := !(W.paths.any fun Q => decide (Q ≠ P) && Q.scene.isSome && Q.block.isNone)
      if last && alone then
        some (⟨o.w, W, { P with pc := o.pc, scene := o.scene, count := o.count, got := [] }, T⟩, len, P.scene.isNone)
      else none
    | _, _ => none

/-- The issuing path of an outstanding entry as it stood, of the entry's lane alone. -/
def Outst.issuer (o : Outst) (W : Warp) (T : Team) : Ix :=
  ⟨o.w, W, { Path.fresh (laneBit o.lane) o.pc with scene := o.scene, count := o.count }, T⟩

/-- A path that holds some of the lanes stops where it stands, past the instruction whose data carried an error. -/
def Path.stopsLate (hit : Mask) (P : Path) : Bool := P.stop.isNone && decide (P.lanes &&& hit ≠ 0)

/-- The paths of a warp with some of the lanes stop. -/
def Warp.stopLate (W : Warp) (k : Stop) (hit : Mask) : Warp :=
  { W with
    paths := W.paths.map fun P => if P.stopsLate hit then { P with stop := some k, wait := none, got := [] } else P
    running := W.running.bind fun r => if (W.path r).any (Path.stopsLate hit) then none else some r }

/-- A fault in the data of an instruction that its path has gone on from (19 R379, R384, R389): it cannot be stopped before the
instruction any more, so the paths that hold the lanes stop where they stand, and the record names the instruction (DESIGN
CHOICE, log 12). -/
def State.lateFault (s : State) (o : Outst) (t : Trap) (hit : Mask) : State :=
  match s.warp o.w with
  | none => s
  | some W =>
    match s.team W.team with
    | none => s
    | some T =>
      let x := o.issuer W T
      let s := if t.code = 14 then s.dropLeaf x.core T.ctx t.addr t.cause else s
      (s.modWarp o.w fun W => W.stopLate ⟨t.code, t.cause, 0, false, none, false⟩ hit).holdTeam W.team fun h =>
        { h with recs := h.recs ++ [x.record 3 t.code t.cause t.addr t.aux0 t.aux1 (t.lane.getD o.lane)] }

/-- The data of an outstanding entry carry an error (12 R285; 19 R389 codes 18 and 23). Where its instruction is still the last
of its path, the path stops before it with the fault, no entry of it writes a register, and it executes again in full when the
team resumes. Else the fault is late, and the entry, or each of its CUE, is made anew then. A value that goes to no register is
dropped. -/
def State.backOut (s : State) (o : Outst) (t : Trap) : State :=
  match s.issuerOf o with
  | some (x, len, e) =>
    let s := { s with loads := s.loads.filter fun (q : Outst) => decide (q.grp ≠ o.grp) }
    raise x (s.modWarp x.w fun W => W.modPath x.low fun _ => x.P) ⟨t.code, t.cause, len, e, none, false⟩ t
  | none =>
    if o.nreg = 0 ∧ o.kind ≠ .monitor then { s with loads := s.loads.filter fun (q : Outst) => decide (q.id ≠ o.id) }
    else
      let mine := fun (q : Outst) => if o.kind = .cueBad then decide (q.grp = o.grp) else decide (q.id = o.id)
      let fail := fun (q : Outst) =>
        if mine q then { q with failed := true, kind := if o.kind = .cueBad then .cue else q.kind } else q
      State.lateFault { s with loads := s.loads.map fail } o t (maskOf ((s.loads.filter mine).map (·.lane)))

/-- Every query of a CUE has returned: d is written in every lane, or, where one carried an error, the table fault is
raised with no register written (12 R285, R290). The query of a lane that has exited writes none and raises nothing (03 R97). -/
def State.cueDone (s : State) (grp : Nat) : State :=
  let qs := s.loads.filter fun o => decide (o.grp = grp)
  if qs.any fun o => decide (o.kind = .cue) then s
  else match qs.find? fun o => decide (o.kind = .cueBad) && decide (o.nreg ≠ 0) with
    | some o =>
      let a := (o.addrs.headD (0, 0)).1
      s.backOut o (Trap.table 5 (a / 2 ^ 32) (a % 2 ^ 32) (some o.lane))
    | none =>
      let s := { s with loads := s.loads.filter fun (o : Outst) => decide (o.grp ≠ grp) }
      qs.foldl (fun (s : State) (o : Outst) => s.modWarp o.w fun W => W.deliver o o.value.toNat) s

/-- The team of a warp is held. -/
def State.heldWarp (s : State) (w : Nat) : Bool :=
  match s.warp w with
  | some W => (s.team W.team).any fun T => T.hold.isSome
  | none => false

/-- A CUE whose entries carried an error queries again in full, against the handle as it now stands (12 R285, R290; 19 R391). -/
def State.requery (s : State) (o : Outst) : State :=
  let qs := s.loads.filter fun q => decide (q.grp = o.grp)
  let lanes := maskOf (qs.map (·.lane))
  let h := (o.addrs.headD (0, 0)).1 / 2 ^ 32
  let index := fun (q : Outst) => (q.addrs.headD (0, 0)).1 % 2 ^ 32
  match s.handle o.ctx h with
  | .unbound => s.lateFault o (Trap.table 1 h (index o) none) lanes
  | .hanging _ _ _ _ _ _ _ _ => s
  | .hung pa rows ew _ =>
    match qs.find? fun q => decide (rows * 8192 / cueBits ew ≤ index q) with
    | some q => s.lateFault q (Trap.table 2 h (index q) (some q.lane)) lanes
    | none =>
      let anew := fun (q : Outst) =>
        let addrs := cueAddrs h (index q) pa ew
        { q with failed := false, addrs := addrs, coll := some ((addrs.headD (0, 0)).2 / 1024) }
      if s.collRoom (coreOf o.w) (qs.map fun q => (anew q).coll).eraseDups.length then
        { s with loads := s.loads.map fun (q : Outst) => if q.grp = o.grp then anew q else q }
      else s

/-- QUERY_TRANSACTION (12 R288): a row of a CUE is opened, and the entries of it that have left the collector are returned; those
of the lanes `bad` carry an uncorrectable error. -/
def execQueryTransaction (grp row : Nat) (bad : BitVec 64) (s : State) : Host.Outcome State Fault Refusal :=
  .next (match s.loads.find? fun o => decide (o.kind = .cue) && o.failed && decide (o.grp = grp) with
    | some o => if s.heldWarp o.w then s else s.requery o
    | none =>
      let mine := fun (o : Outst) => decide (o.kind = .cue) && decide (o.grp = grp) && o.coll.isNone &&
        decide ((o.addrs.headD (0, 0)).2 / 1024 = row)
      if !(s.loads.any mine) then s
      else
        State.cueDone { s with loads := s.loads.map fun (o : Outst) => if mine o then
          { o with value := BitVec.ofNat 128 (s.cueValue o), kind := if bad.getLsbD o.lane then .cueBad else .cueGot } else o } grp)

/-- Begin the release of the hung handles of a context in a mask (12 R283). -/
def State.cuerel (s : State) (ctx : Nat) (mask : BitVec 16) : State :=
  (List.range 16).foldl (fun s h =>
    match s.handle ctx h with
    | .hung pa rows ew _ => if mask.getLsbD h then s.setHandle ctx h (.hung pa rows ew true) else s
    | _ => s) s

/-- A write that leaves `v` in CUEREL, with GO in bit 22 (12 R283). -/
def State.writeCuerel (s : State) (v : DWord) : State :=
  let s := { s with relMask := v.setWidth 16, relCtx := (v >>> 16).setWidth 6 }
  if v.getLsbD 22 then s.cuerel s.relCtx.toNat s.relMask else s

/-- CUEREL_GO (12 R283). -/
def execCuerelGo (v : BitVec 64) (s : State) : Host.Outcome State Fault Refusal := .next (s.writeCuerel (v ||| 0x400000))

end Sys2Proof.Machine
end

