-- ==== Sys2Proof/Machine/Launch.lean ====
section
/-! DEFINITION. Launch records and offers, the pending-launch store, the stage manager, the start and retirement of
teams, and the completion of launches (07 R178 to R193; 05 R125, R127, R129; 06 R177). -/

namespace Sys2Proof.Machine

/-! ## Records of launches (07 R178, R179) -/

/-- ENTRY. -/
def lrEntry (r : BitVec 512) : Nat := recF r 0 56
/-- Team count. -/
def lrTeams (r : BitVec 512) : Nat := recF r 128 32 + 1
/-- THREADS. -/
def lrThreads (r : BitVec 512) : Nat := recF r 160 12
/-- Warp width. -/
def lrWidth (r : BitVec 512) : Nat := 16 * 2 ^ recF r 172 2
/-- Registers per lane. -/
def lrRegs (r : BitVec 512) : Nat := 8 * (recF r 174 4 + 1)
/-- MASH. -/
def lrMash (r : BitVec 512) : Nat := recF r 178 6
/-- PRIO. -/
def lrPrio (r : BitVec 512) : Nat := recF r 184 2
/-- PAIR. -/
def lrPair (r : BitVec 512) : Bool := decide (recF r 186 1 = 1)
/-- GANG. -/
def lrGang (r : BitVec 512) : Bool := decide (recF r 187 1 = 1)
/-- DEPV. -/
def lrDepV (r : BitVec 512) : Bool := decide (recF r 188 1 = 1)
/-- SCRG. -/
def lrScrg (r : BitVec 512) : Nat := recF r 192 12
/-- DEPEND. -/
def lrDepend (r : BitVec 512) : Nat := recF r 256 32
/-- COMPL. -/
def lrCompl (r : BitVec 512) : Nat := recF r 320 56
/-- Warps of a team (05 R125). -/
def lrWarps (r : BitVec 512) : Nat := (lrThreads r + lrWidth r - 1) / lrWidth r

/-- Register bytes a warp takes of its wing (07 R186). -/
def lrBytes (r : BitVec 512) : Nat := 4 * lrWidth r * lrRegs r

/-- The most threads of a team (05 R125). -/
def threadLimit (width : Nat) (pair : Bool) : Nat := (if width = 16 then 768 else 1024) * (if pair then 2 else 1)

/-! ## Room on a core (07 R186, R187; 05 R127) -/

/-- What a placed or reserved team takes: its place and the register bytes of each warp. -/
structure Taken where
  place : Place
  bytes : Nat
deriving DecidableEq, Repr

/-- The resources of a core in use: team slots, wing slots (12 × wing + slot), register bytes by wing, granules. -/
structure Used where
  slots : List Nat
  wslots : List Nat
  bytes : Nat → Nat
  gran : List Nat

/-- The granules of banks. -/
def bankGran (bs : List Nat) : List Nat := bs.flatMap fun b => (List.range 64).map fun i => 64 * b + i

/-- What teams take of a core. -/
def usedOn (ts : List Taken) (core : Nat) : Used :=
  let here := ts.filter fun t => decide (t.place.core = core) || (t.place.pair && decide (t.place.core + 1 = core))
  let first := fun (t : Taken) => decide (t.place.core = core)
  { slots := here.map fun t => if first t then t.place.slot0 else t.place.slot1
    wslots := here.flatMap fun t => (t.place.wslots.filter fun w => coreOf w = core).map (· % 48)
    bytes := fun wing => here.foldl (fun n t => n + t.bytes * (t.place.wslots.filter fun w => decide (coreOf w = core) && decide (wingOf w = wing)).length) 0
    gran := here.flatMap fun t => if first t then t.place.gran0 ++ bankGran t.place.banks0 else t.place.gran1 ++ bankGran t.place.banks1 }

/-- The wing a warp goes to: the most free slots among the wings with the register bytes, the lowest on a tie (05
R127). -/
def pickWing (used : List Nat) (bytes : Nat → Nat) (need : Nat) : Option Nat :=
  let free := fun wing => 12 - (used.filter fun u => u / 12 = wing).length
  ([0, 1, 2, 3].filter fun wing => decide (0 < free wing) && decide (bytes wing + need ≤ 196608)).foldl
    (fun best wing => match best with | some b => if free b < free wing then some wing else best | none => some wing) none

/-- Assign n warps one by one: their wing slots in order (05 R127). -/
def assignWarps : Nat → List Nat → (Nat → Nat) → Nat → Option (List Nat)
  | 0, _, _, _ => some []
  | n + 1, used, bytes, need =>
    match pickWing used bytes need with
    | none => none
    | some wing =>
      match (List.range 12).find? fun i => !used.contains (12 * wing + i) with
      | none => none
      | some i =>
        (assignWarps n ((12 * wing + i) :: used) (fun w => bytes w + if w = wing then need else 0) need).map ((12 * wing + i) :: ·)

/-- Room on one core: team slot, wing slots, granules and banks (07 R187). Which free team slot a team takes the spec does
not say; the model takes the lowest (DESIGN CHOICE, log 28). -/
def roomOn (u : Used) (warps need scrg mash : Nat) : Option (Nat × List Nat × List Nat × List Nat) :=
  match (List.range 16).find? (fun i => !u.slots.contains i), assignWarps warps u.wslots u.bytes need with
  | some slot, some ws =>
    let freeBanks := ((List.range 32).reverse.filter fun b => (List.range 64).all fun i => !u.gran.contains (64 * b + i)).take mash
    if freeBanks.length < mash then none
    else
      let gs := ((List.range 2048).filter fun g => !u.gran.contains g && !freeBanks.contains (g / 64)).take scrg
      if gs.length < scrg then none else some (slot, ws, gs, freeBanks.reverse)
  | _, _ => none

/-- The place of a team of a record on a core or on the pair of an even core (07 R187; 05 R129). -/
def placeOn (ts : List Taken) (r : BitVec 512) (core : Nat) : Option Place :=
  let n := lrWarps r
  let room := fun c m => roomOn (usedOn ts c) m (lrBytes r) (lrScrg r) (lrMash r)
  if lrPair r then
    match room core ((n + 1) / 2), room (core + 1) (n / 2) with
    | some a, some b =>
      some { core := core, pair := true, slot0 := a.1, slot1 := b.1, gran0 := a.2.2.1, gran1 := b.2.2.1, banks0 := a.2.2.2,
             banks1 := b.2.2.2,
             wslots := (List.range n).map fun i => if i % 2 = 0 then 48 * core + (a.2.1[i / 2]?).getD 0
               else 48 * (core + 1) + (b.2.1[i / 2]?).getD 0 }
    | _, _ => none
  else
    (room core n).map fun a =>
      { core := core, pair := false, slot0 := a.1, slot1 := 0, gran0 := a.2.2.1, gran1 := [], banks0 := a.2.2.2, banks1 := [],
        wslots := a.2.1.map fun i => 48 * core + i }

/-- Teams of a record that an empty core or pair takes, up to `fuel` (07 R179 reasons 4 and 6). -/
def fitCount : Nat → List Taken → BitVec 512 → Nat
  | 0, _, _ => 0
  | n + 1, ts, r =>
    match placeOn ts r 0 with
    | none => 0
    | some p => 1 + fitCount n (⟨p, lrBytes r⟩ :: ts) r

/-- The condition of reason `n` holds (07 R179); reasons 4 and 6 assume a legal THREADS and WIDTH. -/
def refusedFor (cores : Nat) (r : BitVec 512) (n : Nat) : Bool :=
  match n with
  | 1 => decide (recF r 56 8 ≠ 0) || decide (recF r 189 3 ≠ 0) || decide (recF r 204 20 ≠ 0) || decide (recF r 248 8 ≠ 0) ||
      decide (recF r 288 32 ≠ 0) || decide (recF r 376 136 ≠ 0)
  | 2 => decide (lrEntry r % 4 ≠ 0) || !canonical (lrEntry r) ||
      (decide (lrCompl r ≠ 0) && (decide (lrCompl r % 8 ≠ 0) || !canonical (lrCompl r)))
  | 3 => decide (recF r 172 2 = 3) || decide (lrThreads r = 0) || decide (threadLimit (lrWidth r) (lrPair r) < lrThreads r)
  | 4 => decide (32 < lrMash r) || decide (2048 < lrScrg r) || decide (2048 < 64 * lrMash r + lrScrg r) ||
      (placeOn [] r 0).isNone
  | 5 => !(decide (recF r 224 24 = 0)) && decide (recF r 224 8 + recF r 232 8 + recF r 240 8 ≠ lrWarps r)
  | _ => lrGang r && decide (fitCount 16 [] r * (if lrPair r then cores / 2 else cores) < lrTeams r)

/-- The lowest reason for which a record is refused; 0 for none (07 R179). -/
def refusalReason (s : State) (r : BitVec 512) : Nat :=
  (([1, 2, 3, 4, 5, 6]).find? (refusedFor (coreCount s.dcmap) r)).getD 0

/-! ## Offers (07 R180 to R183; 06 R177) -/

/-- The key of a launch window. -/
def winKey (port : Bool) (win : Nat) : Nat := 64 * port.toNat + win

/-- A launch window. -/
def State.window (s : State) (port : Bool) (win : Nat) : Window := tget Window.zero s.windows (winKey port win)
/-- Replace a launch window. -/
def State.setWindow (s : State) (port : Bool) (win : Nat) (W : Window) : State :=
  { s with windows := tput Window.zero s.windows (winKey port win) W }

/-- A window's GO (07 R181). -/
def State.windowGo (s : State) (port : Bool) (win : Nat) : State :=
  let W := s.window port win
  if W.busy then s
  else
    { s.setWindow port win { W with busy := true, acc := false, refused := false, bad := false, why := 0 } with
      offers := s.offers ++ [⟨.window port win, W.record, W.ctx.toNat⟩] }

/-- What became of an offer: refused for a reason, refused as full, or accepted with a number (07 R183). -/
inductive OfferResult where
  | bad (why : Nat)
  | full
  | accepted (lnum : Word)
deriving DecidableEq, Repr

/-- Tell the source of an offer its outcome (07 R181; 06 R177). -/
def State.answerOffer (s : State) (src : OfferSrc) (o : OfferResult) : State :=
  match src with
  | .window port win =>
    let W := { s.window port win with busy := false }
    s.setWindow port win (match o with
      | .bad why => { W with bad := true, why := BitVec.ofNat 4 why }
      | .full => { W with refused := true }
      | .accepted n => { W with acc := true, lnum := n })
  | .device w gd =>
    s.modWarp w fun W => W.setG gd.toNat (match o with
      | .bad _ => 2
      | .full => 1
      | .accepted n => n ++ (0 : Word))

/-- The number after a launch number (07 R183). -/
def nextNumber (n : Word) : Word := if n + 1 = 0 then 1 else n + 1

/-- Decide an offer (07 R179, R183). -/
def State.decideOffer (s : State) (o : Offer) : State :=
  let why := refusalReason s o.record
  if why ≠ 0 then s.answerOffer o.src (.bad why)
  else if 512 ≤ s.launches.length then s.answerOffer o.src .full
  else
    { s with
      launches := s.launches ++ [(⟨o.record, o.ctx, s.nextLaunch.toNat, s.nextId, none, 0, 0⟩ : Launch)]
      nextLaunch := nextNumber s.nextLaunch
      nextId := s.nextId + 1 }.answerOffer o.src (.accepted s.nextLaunch)

/-! ## The stage manager (07 R184, R185, R189, R192, R193) -/

/-- Launches in the store accepted before one. -/
def State.earlier (s : State) (L : Launch) : List Launch := s.launches.takeWhile fun M => decide (M ≠ L)

/-- The dependence of a launch is satisfied (07 R184). -/
def State.depDone (s : State) (L : Launch) : Bool :=
  !lrDepV L.record || !((s.earlier L).any fun M => decide (M.lnum = lrDepend L.record))

/-- A launch of a context, by its key, is being struck, alone or with its context (19 R398, R399). -/
def State.struck (s : State) (ctx launch : Nat) : Bool :=
  s.strikes.any fun k => decide (k.ctx = ctx) && decide (k.launch = none ∨ k.launch = some launch)

/-- A launch is ready (07 R185). -/
def State.launchReady (s : State) (L : Launch) : Bool :=
  let c := tget Ctx.zero s.ctxs L.ctx
  s.depDone L && !c.stopped && !c.busy && !s.struck L.ctx L.key && decide (L.placed < lrTeams L.record)

/-- The ready launches in launch order (07 R185). -/
def State.readyLaunches (s : State) : List Launch :=
  [3, 2, 1, 0].flatMap fun p => s.launches.filter fun L => decide (lrPrio L.record = p) && s.launchReady L

/-- The reservations of the reserving gang. -/
def State.reservedTaken (s : State) : List Taken :=
  match s.gang with
  | none => []
  | some g =>
    match s.launches.find? fun L => L.key = g.launch with
    | some L => g.reserved.map fun p => ⟨p, lrBytes L.record⟩
    | none => []

/-- What resident teams take. -/
def State.teamsTaken (s : State) : List Taken :=
  s.teams.filterMap fun e => e.2.map fun T => ⟨T.place, 4 * T.width * T.regs⟩

/-- The cores a search tries, from an origin, wrapping (07 R189). -/
def searchOrder (cores o : Nat) (pair : Bool) : List Nat :=
  let u := if pair then 2 else 1
  (List.range (cores / u)).map fun i => (o / u * u + u * i) % cores

/-- The first place with room (07 R189). -/
def State.findPlace (s : State) (ts : List Taken) (L : Launch) : Option Place :=
  (searchOrder (coreCount s.dcmap) (L.origin.getD s.origin) (lrPair L.record)).findSome? (placeOn ts L.record)

/-- A team of a launch in a place. -/
def Launch.team (L : Launch) (idx : Nat) (p : Place) : Team :=
  let r := L.record
  { launch := L.key, lnum := L.lnum, idx := idx, ctx := L.ctx, place := p, width := lrWidth r, threads := lrThreads r, regs := lrRegs r,
    mash := lrMash r, scrg := lrScrg r, gang := lrGang r, copyw := recF r 224 8, matw := recF r 232 8, vecw := recF r 240 8,
    entry := BitVec.ofNat 56 (lrEntry r), args := BitVec.ofNat 64 (recF r 64 64), started := false, rings := [], hold := none,
    last := 0 }

/-- Grant scratch on a core: bytes 0, lines full, banks in storage mode, the banks of single granules too, whichever mode
an earlier team left them in (07 R188; 14 R293). -/
def State.grantOn (s : State) (core : Nat) (gran banks : List Nat) : State :=
  let s := gran.foldl (fun s g =>
    let a := core * 2 ^ 23 + 4096 * g
    let k := 32 * core + g / 64
    { s with scratch := tclear s.scratch a (a + 4096), empty := tclear s.empty (a / 128) (a / 128 + 32)
             banks := tput Bank.zero s.banks k { tget Bank.zero s.banks k with mash := false } }) s
  banks.foldl (fun s b =>
    let a := core * 2 ^ 23 + b * 2 ^ 18
    { s with scratch := tclear s.scratch a (a + 2 ^ 18), empty := tclear s.empty (a / 128) (a / 128 + 2 ^ 11)
             banks := tput Bank.zero s.banks (32 * core + b) Bank.zero }) s

/-- Place a team of a launch: it takes its room, and its launch counts it (07 R187 to R189). -/
def State.placeTeam (s : State) (L : Launch) (p : Place) : State × Launch :=
  let o := L.origin.getD s.origin
  let L' := { L with origin := some o, placed := L.placed + 1 }
  let s := { s with
    origin := if L.origin.isNone then (s.origin + 1) % coreCount s.dcmap else s.origin
    launches := s.launches.map fun M => if M = L then L' else M }
  let s := (s.grantOn p.core p.gran0 p.banks0)
  let s := if p.pair then s.grantOn (p.core + 1) p.gran1 p.banks1 else s
  (s.setTeam (16 * p.core + p.slot0) (L.team L.placed p), L')

/-- Place teams of a launch that is no gang while there is room, at most `fuel` (07 R189). -/
def State.placeTeams : Nat → State → Launch → State
  | 0, s, _ => s
  | n + 1, s, L =>
    if lrTeams L.record ≤ L.placed then s
    else match s.findPlace (s.teamsTaken ++ s.reservedTaken) L with
      | none => s
      | some p => let r := s.placeTeam L p; State.placeTeams n r.1 r.2

/-- Reserve places for a gang's teams while there is room, at most `fuel` (07 R192). -/
def State.reserve : Nat → State → Launch → Gang → Gang
  | 0, _, _, g => g
  | n + 1, s, L, g =>
    if lrTeams L.record ≤ g.reserved.length then g
    else match s.findPlace (s.teamsTaken ++ g.reserved.map fun p => ⟨p, lrBytes L.record⟩) L with
      | none => g
      | some p => State.reserve n s L { g with reserved := g.reserved ++ [p] }

/-- The most teams a module holds: 16 on each of 512 cores. -/
def maxTeams : Nat := 8192

/-- Apply the gang rule to the reserving gang (07 R192). -/
def State.gangRule (s : State) (L : Launch) : State :=
  let g := match s.gang with | some g => if g.launch = L.key then g else ⟨L.key, [], 0⟩ | none => ⟨L.key, [], 0⟩
  let g := State.reserve maxTeams s L g
  if g.reserved.length = lrTeams L.record then
    { (g.reserved.foldl (fun (r : State × Launch) p => r.1.placeTeam r.2 p) (s, L)).1 with gang := none }
  else { s with gang := some g }

/-- Place the teams of launches that are no gangs, in order (07 R189). -/
def State.placeOthers (s : State) (ls : List Launch) : State :=
  ls.foldl (fun s L => if lrGang L.record then s else State.placeTeams maxTeams s L) s

/-- The reserving gang at a pass with first ready gang G (07 R192): one that is no longer the first gives up its reservations
and its age. Where its context is stopped by an assertion the spec does not say so, and the model treats it alike (DESIGN
CHOICE, log 28). -/
def State.gangOf (s : State) (G : Option Launch) : Option Gang :=
  match s.gang, G with
  | some g, some L => if g.launch = L.key then some g else none
  | _, _ => none

/-- A placement pass over the ready launches, the first ready gang among them reserving (07 R189, R192, R193). Where that gang
is placed whole in the pass, the next waiting gang is not handled before the next pass, an order that R189 and R193 leave open
(DESIGN CHOICE, log 28). -/
def State.passOver (s : State) (ready : List Launch) (first : Option Launch) : State :=
  match first with
  | none => s.placeOthers ready
  | some G =>
    if s.gang.map Gang.age = some 16 then
      let t := s.gangRule G
      if t.gang.isSome then t else t.placeOthers (ready.filter fun L => decide (L ≠ G))
    else
      let later := (ready.dropWhile fun L => decide (L ≠ G)).drop 1
      let t := ((s.placeOthers (ready.takeWhile fun L => decide (L ≠ G))).gangRule G).placeOthers later
      match t.gang with
      | some g =>
        if later.any fun L => t.launches.any fun M => decide (M.key = L.key) && decide (L.placed < M.placed) then
          { t with gang := some { g with age := min 16 (g.age + 1) } }
        else t
      | none => t

/-- One placement pass (07 R189). -/
def State.placementPass (s : State) : State :=
  let first := s.readyLaunches.find? fun L => lrGang L.record
  { s with gang := s.gangOf first }.passOver s.readyLaunches first

/-! ## Starting a team (07 R188; 05 R122, R145; 01 R13) -/

/-- The role of warp i (01 R24; 05 R145). -/
def Team.roleOf (T : Team) (i : Nat) : Role :=
  if T.copyw = 0 ∧ T.matw = 0 ∧ T.vecw = 0 then .vector
  else if i < T.copyw then .copy
  else if i < T.copyw + T.matw then .matrix
  else .vector

/-- Warp i of a team as it starts (01 R13; 05 R122, R123). -/
def Team.warpAt (T : Team) (key phw i : Nat) : Warp :=
  let live := lanesBelow (min T.width (T.threads - i * T.width))
  { team := key, index := i, role := T.roleOf i, live := live, exited := 0, paths := [Path.fresh live T.entry], running := none,
    v := [], e := [], stack := [], spill := [], k := [], j := [], cont := [], c := [], g := tput 0 [] 0 T.args, part := T.width,
    seq := 0, phw := phw, mon := [], fenced := [], prompt := none, dead := none }

/-- Start the warps of one team. They see every access made visible before the launch was accepted, so the lines its
context has left in its cores' L1 go (06 R177; 10 R231). -/
def State.startOne (s : State) (t : Nat) : State :=
  match s.team t with
  | none => s
  | some T =>
    if T.started || s.struck T.ctx T.launch then s
    else
      let s := T.cores.foldl (fun s c => s.l1Drop c fun e => decide (e.ctx = T.ctx)) s
      let phw := (tget Ctx.zero s.ctxs T.ctx).phw0.toNat
      let s := s.setTeam t { T with started := true }
      (T.slots.zipIdx).foldl (fun s e => s.setWarp e.1 (T.warpAt t phw e.2)) s

/-- The teams of a gang start together (07 R192; 05 R131). -/
def State.startTeam (s : State) (t : Nat) : State :=
  match s.team t with
  | none => s
  | some T =>
    if T.gang then (s.teams.filter fun e => match e.2 with | some U => decide (U.launch = T.launch) | none => false).foldl (fun s e => s.startOne e.1) s
    else s.startOne t

/-! ## Completion and retirement (07 R190, R191) -/

/-- An event record with every field 0. -/
def EvRec.zero : EvRec := ⟨0, 0, 0, 0, 0, 0, 0, 0, 0, 0, 0, 0, 0, 0, 0, 0⟩

/-- Queue an event record for a context's prompt ring (19 R387). -/
def State.notify (s : State) (e : EvRec) : State :=
  let c := tget Ctx.zero s.ctxs e.ctx
  { s with ctxs := tput Ctx.zero s.ctxs e.ctx { c with records := c.records ++ [e] } }

/-- Write bytes at the hub of their lines, no die holding them (10 R248; 21 R413); bytes behind a link that is down or
of no memory are discarded. -/
def State.hubWrite (s : State) (bs : List (Nat × Byte)) : State :=
  let bs := bs.filter fun e => s.reaches e.1
  let pas := bs.map (·.1)
  let s := (s.noteOld pas).clearRels pas
  let s := (linesOf pas).foldl (fun s l => (s.recall l).mscFill l) s
  bs.foldl (fun s e => s.hubPut e.1 e.2) s

/-- Where a store by the module itself goes in a context: the physical addresses, one for each replica, or the cause of its
fault (07 R191; 09 R208). Who translates it the spec does not say: the model walks the table at no core's translation unit and
through no die's slices (DESIGN CHOICE, log 29). -/
def State.moduleStore (s : State) (ctx va : Nat) : Except Nat (List Nat) :=
  if !(tget Ctx.zero s.ctxs ctx).en then .error 6
  else match s.walk ctx va with
    | .error c => .error c
    | .ok (large, leaf) =>
      if !leafW leaf then .error 2
      else
        let pas := if leafREP leaf then (List.range 16).map fun d => leafPa large leaf va + s.replica ctx d else [leafPa large leaf va]
        if pas.all s.backed then .ok pas else .error 5

/-- A launch completes with status 1 or, struck, 2 (07 R191): its entry is freed and its completion word written, a release
at .system scope of its threads' stores (10 R248). A completion word in a hung range is written there: R280 lists no store
by the module itself among the accesses it refuses (DESIGN CHOICE, log 29). -/
def State.completeLaunch (s : State) (L : Launch) (status : Nat) : State :=
  let s := { s with launches := s.launches.filter fun M => decide (M ≠ L)
                    gang := match s.gang with | some g => if g.launch = L.key then none else some g | none => none }
  let va := lrCompl L.record
  let v := L.lnum + status * 2 ^ 32
  if va = 0 then s
  else match s.moduleStore L.ctx va with
    | .ok pas => pas.foldl (fun (s : State) pa => s.hubWrite ((leBytes 8 v).zipIdx.map fun e => (pa + e.2, e.1))) s.writeBackAll
    | .error c => s.notify { EvRec.zero with kind := 6, code := 14, cause := c, ctx := L.ctx, lnum := L.lnum, addr := va, aux0 := v }

/-- A team of the context is resident. -/
def State.resident (s : State) (ctx : Nat) : Bool := s.teams.any fun e => match e.2 with | some T => decide (T.ctx = ctx) | none => false

/-- A drain ends when no team of the context is resident (19 R396). -/
def State.checkDrain (s : State) (ctx : Nat) : State :=
  let c := tget Ctx.zero s.ctxs ctx
  if c.draining && !s.resident ctx then
    { s with ctxs := tput Ctx.zero s.ctxs ctx { c with draining := false, timer := none } }.notify { EvRec.zero with kind := 8, ctx := ctx }
  else s

/-- Free everything a team holds: its warps, its outstanding loads, its slots, granules and banks (07 R190). A status
that LAUNCH or HANG has yet to give such a warp goes nowhere. -/
def State.freeTeam (s : State) (t : Nat) (T : Team) : State :=
  let mine := fun w => T.slots.contains w
  { s with
    teams := tput none s.teams t none
    warps := T.slots.foldl (fun ws w => tput none ws w none) s.warps
    loads := s.loads.filter fun o => !mine o.w
    offers := s.offers.map fun o => match o.src with
      | .device w _ => if mine w then { o with src := .device w 63 } else o
      | _ => o
    handles := s.handles.map fun h => match h.2 with
      | .hanging w _ va pa rows ew lanes id => if mine w then (h.1, .hanging w 63 va pa rows ew lanes id) else h
      | _ => h }

/-- A bank is idle: its queue is empty and nothing executes (14 R309). -/
def State.bankIdle (s : State) (core b : Nat) : Bool := (tget Bank.zero s.banks (32 * core + b)).ops.isEmpty

/-- A team may retire (07 R190). The completion of its launch is a release (07 R191), so the stores of other teams of its
cores that may happen before an access of its own are performed too: those issued before its last thread exited (10 R231; log
12). -/
def State.mayRetire (s : State) (t : Nat) (T : Team) : Bool :=
  T.started && !s.struck T.ctx T.launch && (T.slots.all fun w => match s.warp w with | some W => decide (W.live &&& ~~~W.exited = 0) | none => true) &&
  !(s.copies.any fun c => decide (c.team = t)) &&
  (T.place.banks0.all fun b => s.bankIdle T.place.core b) && (T.place.banks1.all fun b => s.bankIdle (T.place.core + 1) b) &&
  !(s.stores.any fun p => T.slots.contains p.w) && !(T.cores.any fun c => s.storesBefore c T.last)

/-- A team retires; its launch completes with its last team (07 R190, R191), and a drain may end (19 R396). -/
def State.retireTeam (s : State) (t : Nat) (T : Team) : State :=
  let s := s.freeTeam t T
  let s := match s.launches.find? fun L => L.key = T.launch with
    | none => s
    | some L =>
      let L' := { L with retired := L.retired + 1 }
      let s := { s with launches := s.launches.map fun M => if M = L then L' else M }
      if L'.retired = lrTeams L.record then s.completeLaunch L' 1 else s
  s.checkDrain T.ctx

/-! ## Instructions and events -/

/-- LAUNCH (06 R177). -/
def execLaunch (e : Bool) (d a : BitVec 6) (s : State) : Host.Outcome State Fault Refusal :=
  run (.launch e d a) s fun x => withUniform x s [d.toNat, a.toNat] fun _ =>
    let va := (x.W.greg a.toNat).toNat % 2 ^ 56
    if va % 64 ≠ 0 then .trap s ⟨10, 0, va, 0, 0, none⟩
    else if x.releaseWaits s 5 then .stall
    else match x.readRecord s x.low va 64 with
      | .error t => .trap s t
      | .ok (s, n) => .ok { s with offers := s.offers ++ [⟨.device x.w d, BitVec.ofNat 512 n, x.T.ctx⟩] } none

/-- LAUNCH_WINDOW_GO (07 R181). -/
def execLaunchWindowGo (port win : Nat) (s : State) : Host.Outcome State Fault Refusal :=
  .next (if port < 2 ∧ win < 64 then s.windowGo (decide (port = 1)) win else s)

/-- LAUNCH_OFFER_OUTCOME (07 R183): the module decides the n-th offer. -/
def execLaunchOfferOutcome (n : Nat) (s : State) : Host.Outcome State Fault Refusal :=
  .next (match s.offers[n]? with
    | some o => { s with offers := s.offers.eraseIdx n }.decideOffer o
    | none => s)

/-- PLACEMENT_PASS (07 R189). -/
def execPlacementPass (s : State) : Host.Outcome State Fault Refusal := .next s.placementPass

/-- TEAM_START (07 R188). -/
def execTeamStart (tid : Nat) (s : State) : Host.Outcome State Fault Refusal := .next (s.startTeam tid)

/-- TEAM_RETIRE (07 R190). -/
def execTeamRetire (tid : Nat) (s : State) : Host.Outcome State Fault Refusal :=
  .next (match s.team tid with
    | some T => if s.mayRetire tid T then s.retireTeam tid T else s
    | none => s)

end Sys2Proof.Machine
end

