-- ==== Sys2Proof/Machine/Wing.lean ====
section
/-! DEFINITION. Wake conditions of blocked paths, the wing arbiter, and the events that end a YIELD or a MONWAIT (05
R126, R132, R133, R140, R141; 06 R157; 11 R271, R272; 16 R344, R346, R348; 15 R325). -/

namespace Sys2Proof.Machine

/-! ## Readiness -/

/-- A ring of a team, where it is configured (16 R341). -/
def Team.ring (T : Team) (q : Nat) : Option Ring := tget none T.rings q

/-- A slot of a ring. -/
def Ring.slot (r : Ring) (i : Nat) : Slot := (r.slots[i]?).getD ⟨.free, false, 0, 0⟩

/-- The operations in the team banks of a mask on a core (15 R325). -/
def State.opsIn (s : State) (T : Team) (core : Nat) (mask : Word) : List Nat :=
  ((T.banksOn core).zipIdx.filter fun e => mask.getLsbD e.2).flatMap fun e =>
    (tget Bank.zero s.banks (32 * core + e.1)).ops.map (·.id)

/-- The event a path is blocked for has occurred: the path may execute again. YIELD, the barriers and MONWAIT are woken
by the step that ends them. -/
def State.awake (s : State) (T : Team) (b : Block) : Bool :=
  match b with
  | .racq q => match T.ring q with | some r => decide ((r.slot r.ap).st = .free) | none => true
  | .rwait q i ph =>
    match T.ring q with
    | some r => decide ((r.slot i).st = .filled) && decide ((r.slot i).ph = ph)
    | none => true
  | .cwait ids => !(s.copies.any fun c => ids.contains c.id)
  | .woken => true
  | .mwait core mask ids _ => !((s.opsIn T core mask).any fun i => ids.contains i)
  | _ => false

/-- The path is blocked and not yet woken (19 R388, WAITING). -/
def State.waiting (s : State) (T : Team) (W : Warp) (P : Path) : Bool :=
  W.prompt.isSome || (match P.block with | some b => !s.awake T b | none => false)

/-- A path of a warp. -/
structure Cand where
  w : Nat
  width : Nat
  P : Path
deriving DecidableEq, Repr

/-- The path is inside its scene, running or stopped there: one blocked past its scene end is not, though it keeps the
scene for the instruction it executes again (05 R133; 16 R344). -/
def Path.inside (P : Path) : Bool := P.scene.isSome && P.block.isNone

/-- The paths of a warp that may be ready: where one is inside its scene, only that one, since the scene runs to its end
before another path of the warp starts one (01 R20). -/
def Warp.mayStart (W : Warp) : List Path := if W.paths.any Path.inside then W.paths.filter Path.inside else W.paths

/-- The ready paths of a wing (05 R133). -/
def State.readyPaths (s : State) (core wing : Nat) : List Cand :=
  (List.range' (48 * core + 12 * wing) 12).flatMap fun w =>
    match s.warp w with
    | none => []
    | some W =>
      match s.team W.team with
      | none => []
      | some T =>
        if T.hold.isSome || W.running.isSome then []
        else (W.mayStart.filter fun P => !s.waiting T W P).map fun P => ⟨w, T.width, P⟩

/-! ## Arbitration (05 R126, R132, R140, R141) -/

/-- The halves of the wing a warp's scene takes, as a two-bit number (05 R126). -/
def partOf (w width : Nat) : Nat := if width = 16 then (if wslotOf w % 2 = 0 then 1 else 2) else 3

/-- Two parts share a half. -/
def partsMeet (a b : Nat) : Bool := decide (a &&& b ≠ 0)

/-- The halves held by running scenes. -/
def State.heldPart (s : State) (core wing : Nat) : Nat :=
  (List.range' (48 * core + 12 * wing) 12).foldl (fun n w =>
    match s.warp w with
    | some W =>
      if W.running.isSome then n ||| partOf w (match s.team W.team with | some T => T.width | none => 64) else n
    | none => n) 0

/-- The order of arbitration (05 R141). -/
def candBefore (a b : Cand) : Bool :=
  let fa := decide (a.P.age = 16)
  let fb := decide (b.P.age = 16)
  if fa != fb then fa
  else if fa && fb && decide (a.P.full ≠ b.P.full) then decide (a.P.full < b.P.full)
  else if a.P.age ≠ b.P.age then decide (b.P.age < a.P.age)
  else if a.w ≠ b.w then decide (a.w < b.w)
  else decide (lowest a.P.lanes < lowest b.P.lanes)

/-- The first of a list in the order of arbitration. -/
def firstCand : List Cand → Option Cand
  | [] => none
  | a :: t => match firstCand t with | some b => if candBefore a b then some a else some b | none => some a

/-- The path whose scene starts: the first eligible one, unless a path wider than a half and with a full counter comes
first and waits for the other half (05 R141). -/
def State.pick (s : State) (core wing : Nat) : Option Cand :=
  let cs := s.readyPaths core wing
  let held := s.heldPart core wing
  let wide := match firstCand cs with
    | some f => decide (f.P.age = 16) && decide (32 ≤ f.width) && partsMeet (partOf f.w f.width) held
    | none => false
  if wide then none else firstCand (cs.filter fun c => !partsMeet (partOf c.w c.width) held)

/-- The order number of paths that reach 16 now, later than that of every path of the wing that has reached it (05
R141). -/
def State.nextFull (s : State) (core wing : Nat) : Nat :=
  (List.range' (48 * core + 12 * wing) 12).foldl (fun n w =>
    match s.warp w with
    | some W => W.paths.foldl (fun n P => max n P.full) n
    | none => n) 0 + 1

/-- Count one more start against the ready paths that needed a part the starting scene takes (05 R140); those that reach
16 are numbered f. -/
def State.ageOthers (s : State) (f : Nat) (cs : List Cand) (c : Cand) : State :=
  cs.foldl (fun s o =>
    if decide (o = c) || !partsMeet (partOf o.w o.width) (partOf c.w c.width) then s
    else s.modWarp o.w fun W => W.modPath (lowest o.P.lanes) fun P =>
      { P with age := min 16 (P.age + 1), full := if P.age = 15 then f else P.full }) s

/-- Start the scene of a path, or go on with the one it stopped inside (02 R59). $seq counts a scene from its start on; whether
it counts the scene in progress 01 R23 does not say (DESIGN CHOICE, log 11). A woken CWAIT
acquires: later loads of its threads see the copies' bytes, so the lines of its context leave L1 (10 R241; 16 R348;
log 27). -/
def State.startScene (s : State) (c : Cand) : State :=
  let s := match s.warp c.w with
    | none => s
    | some W =>
      match s.team W.team, c.P.block with
      | some T, some (.cwait _) => s.l1Drop (coreOf c.w) fun e => decide (e.ctx = T.ctx)
      | _, _ => s
  s.modWarp c.w fun W =>
    { W.modPath (lowest c.P.lanes) (fun P =>
        { P with age := 0, full := 0, block := none, scene := some (P.scene.getD ⟨0, []⟩) }) with
      running := some (lowest c.P.lanes)
      seq := if c.P.scene.isSome then W.seq else W.seq + 1 }

/-- SCENE_START (05 R132, R141): an arbitration point of a wing. -/
def execSceneStart (core wing : Nat) (s : State) : Host.Outcome State Fault Refusal :=
  .next (if core < coreCount s.dcmap ∧ wing < 4 then
      match s.pick core wing with
      | some c => { (s.ageOthers (s.nextFull core wing) (s.readyPaths core wing) c).startScene c with cur := c.w }
      | none => s
    else s)

/-! ## YIELD and MONWAIT -/

/-- YIELD_WAKE (06 R157): 16 cycles after the YIELD's scene ended. -/
def execYieldWake (w lane : Nat) (s : State) : Host.Outcome State Fault Refusal :=
  .next (s.modWarp w fun W => W.modPath lane fun P =>
    match P.block with
    | some (.yield t) => if t ≤ s.clockOf (coreOf w) then { P with block := none } else P
    | _ => P)

/-- MONWAIT_TIMEOUT (11 R272). -/
def execMonwaitTimeout (w lane : Nat) (s : State) : Host.Outcome State Fault Refusal :=
  .next (s.modWarp w fun W => W.wakeMon fun P => decide (lowest P.lanes = lane) &&
    (match P.block with | some (.monwait (some t) _ _) => decide (t ≤ s.clockOf (coreOf w)) | _ => false))

/-- MONITOR_LOST (11 R271): the hardware loses an armed monitor, which fires it. -/
def execMonitorLost (w lane : Nat) (s : State) : Host.Outcome State Fault Refusal :=
  .next (s.modWarp w fun W => { W with mon := match tget none W.mon lane with
    | some m => tput none W.mon lane (some { m with fired := true })
    | none => W.mon }.wakeMon fun _ => false)

end Sys2Proof.Machine
end

