-- ==== Sys2Proof/Machine/System.lean ====
section
/-! DEFINITION. TRAP and BRK, the completion of holds, event records and the prompt ring, resumption, prompts, and
pre-emption (19 R378 to R397). -/

namespace Sys2Proof.Machine

/-- The register set of a context. -/
def State.ctx (s : State) (n : Nat) : Ctx := tget Ctx.zero s.ctxs n
/-- Change the register set of a context. -/
def State.modCtx (s : State) (n : Nat) (f : Ctx → Ctx) : State := { s with ctxs := tput Ctx.zero s.ctxs n (f (s.ctx n)) }

/-! ## TRAP and BRK (19 R392, R393, R395) -/

/-- A tag no pending prompt of the context uses: the module's choice, or the first unused one after it. -/
def State.freshTag (s : State) (ctx : Nat) : Nat :=
  let used := fun t => s.prompts.any fun p => decide (p.ctx = ctx) && decide (p.tag = t)
  let t0 := (Config.promptTag s.free).toNat
  (((List.range 65536).map fun i => (t0 + i) % 65536).find? fun t => !used t).getD t0

/-- Hold every resident team of a context because of an assertion (19 R393). -/
def State.holdContext (s : State) (ctx : Nat) : State :=
  s.teams.foldl (fun s e => match e.2 with
    | some T => if T.ctx = ctx then s.holdTeam e.1 fun h => { h with byAssert := true } else s
    | none => s) s

/-- TRAP (19 R392, R393). Its d is a pair that is read, so a 64-bit latch may stand there (02 R45). The reply to a prompt
writes g0, which waits for a load outstanding to g0 (01 R19). -/
def execTrap (d : BitVec 7) (c : BitVec 8) (s : State) : Host.Outcome State Fault Refusal :=
  run (.trap d c) s fun x => withOperands x s [.srcPair d.toNat] fun _ =>
    withUniform x s (if c.toNat < 64 then [0] else []) fun _ =>
    let v := (x.srcPair d.toNat x.low).toNat
    let s := retire x (.trap d c) s none
    if c.toNat < 64 then
      let tag := s.freshTag x.T.ctx
      let s := s.modWarp x.w fun W => { W with prompt := some tag }
      .gone ({ s with prompts := s.prompts ++ [(⟨x.T.ctx, tag, x.w⟩ : Prompt)] }.notify { x.record 1 c.toNat 0 v 0 0 x.low with tag := tag })
    else
      let s := s.notify (x.record 2 c.toNat 0 v 0 0 x.low)
      .gone ((s.modCtx x.T.ctx fun r => { r with stopped := true, asserted := true }).holdContext x.T.ctx)

/-- BRK (19 R395). -/
def execBrk (t : BitVec 8) (s : State) : Host.Outcome State Fault Refusal :=
  run (.brk t) s fun x =>
    let s := (retire x (.brk t) s none).modWarp x.w fun W => W.modPath x.low fun P =>
      { P with stop := some ⟨0xFF, 0, 1, true, none, false⟩ }
    .gone (s.holdTeam x.W.team fun h => { h with recs := h.recs ++ [x.record 4 t.toNat 0 0 0 0 x.low] })

/-! ## Resuming (19 R390, R391, R394) -/

/-- A path's code in the hold image is that of a fault (19 R388). -/
def Path.faulted (P : Path) : Bool := match P.stop with | some k => decide (k.code ≠ 0xFF) | none => false

/-- The warps of a team. -/
def State.teamWarps (s : State) (T : Team) : List Warp := T.slots.filterMap s.warp

/-- A path as it goes on under OP 1 (19 R391). -/
def Path.resume (P : Path) : Path := { P with stop := none, skid := 0 }

/-- A path as it goes on under OP 2: past the instruction at which it faulted (19 R391), unless it stands past that already. -/
def Path.resumePast (P : Path) : Path :=
  match P.stop with
  | none => { P with skid := 0 }
  | some k =>
    if k.code = 0xFF ∨ k.len = 0 then P.resume
    else
      let Q := P.advance k.len (k.latch.map fun w => ⟨w, []⟩) false
      { Q with skid := 0, scene := if k.e then none else Q.scene }

/-- A path still blocked in MWAIT executes it again in full, in the scene it was issued in (15 R326). -/
def State.mwaitAnew (s : State) (T : Team) (P : Path) : Path :=
  match P.block with
  | some (.mwait core mask ids c) =>
    if s.awake T (.mwait core mask ids c) then P else { P with pc := P.pc - 4, scene := c, block := some .woken }
  | _ => P

/-- Resume a team: its paths go on under OP 1, or past their faults under OP 2. Loads and CUEs whose data carried an error after
their paths had gone on are made anew under OP 1, and dropped under OP 2. -/
def State.resumeTeam (s : State) (t : Nat) (T : Team) (past : Bool) : State :=
  let s := s.setTeam t { T with hold := none }
  let s := if past then { s with loads := s.loads.filter fun o => !(o.failed && T.slots.contains o.w) } else s
  let anew := s.mwaitAnew T
  T.slots.foldl (fun s w => s.modWarp w fun W => { W with paths := W.paths.map fun P => anew (if past then P.resumePast else P.resume) }) s

/-- A team holds a rejoin-deadlock fault. -/
def State.deadTeam (s : State) (T : Team) : Bool := (s.teamWarps T).any fun W => W.dead.isSome

/-- OP 1 and OP 2 resume a team (19 R390). -/
def State.mayResume (s : State) (T : Team) (past : Bool) : Bool :=
  (match T.hold with | some h => h.complete | none => false) && !s.deadTeam T &&
  !(past && (s.teamWarps T).any fun W => W.paths.any fun P => match P.stop with
    | some k => decide (k.code = 13) || k.fetch
    | none => false)

/-- A team held by an assertion has no other reason to stay held (19 R394). -/
def State.onlyAsserted (s : State) (T : Team) : Bool :=
  (match T.hold with | some h => h.byAssert && !h.byCtl | none => false) && !s.deadTeam T &&
  !((s.teamWarps T).any fun W => W.paths.any fun P => P.stop.isSome)

/-- Resume a team that an assertion held, at once or when its hold completes (19 R394). -/
def State.resumeAsserted (s : State) (t : Nat) : State :=
  match s.team t with
  | none => s
  | some T =>
    match T.hold with
    | none => s
    | some h =>
      if h.complete then (if s.onlyAsserted T then s.resumeTeam t T false else s)
      else if h.byAssert then s.setTeam t { T with hold := some { h with resume := true } } else s

/-! ## Completion of a hold (19 R383, R384) -/

/-- The operations of a bank wait behind a steep whose copy cannot go on without another agent (14 R310; 19 R383). -/
def State.bankStuck (s : State) (core b : Nat) : Bool :=
  match (tget Bank.zero s.banks (32 * core + b)).ops with
  | o :: _ => match o.kind with
    | .steep id => s.copies.any fun c => decide (c.id = id) && s.copyStuck c
    | _ => false
  | [] => false

/-- The hold of a team may complete (19 R383). -/
def State.holdDone (s : State) (T : Team) : Bool :=
  ((s.teamWarps T).all fun W => W.running.isNone) &&
  !(s.loads.any fun o => !o.failed && T.slots.contains o.w) && !(s.stores.any fun p => T.slots.contains p.w) &&
  !(s.casts.any fun e => e.2.any fun c => c.started && T.slots.contains c.w) &&
  (T.place.banks0.all fun b => s.bankIdle T.place.core b || s.bankStuck T.place.core b) &&
  (T.place.banks1.all fun b => s.bankIdle (T.place.core + 1) b || s.bankStuck (T.place.core + 1) b)

/-- HOLD_COMPLETE (19 R383): the records of the faults are reported. -/
def execHoldComplete (tid : Nat) (s : State) : Host.Outcome State Fault Refusal :=
  .next (match s.team tid with
    | none => s
    | some T =>
      match T.hold with
      | none => s
      | some h =>
        if h.complete || !s.holdDone T then s
        else
          let s := h.recs.foldl State.notify (s.setTeam tid { T with hold := some { h with complete := true, recs := [] } })
          if h.resume then s.resumeAsserted tid else s)

/-! ## The prompt ring (19 R385 to R387) -/

/-- An event record as a number (19 R385). -/
def EvRec.toNat (e : EvRec) (seq log2n : Nat) : Nat :=
  e.kind % 2 ^ 8 + e.code % 2 ^ 8 * 2 ^ 8 + e.cause % 2 ^ 8 * 2 ^ 16 + e.ctx % 2 ^ 6 * 2 ^ 24 + e.lnum % 2 ^ 32 * 2 ^ 32 +
  e.team % 2 ^ 32 * 2 ^ 64 + e.warp % 2 ^ 8 * 2 ^ 96 + e.lane % 2 ^ 7 * 2 ^ 104 + e.core % 2 ^ 9 * 2 ^ 112 +
  e.tslot % 2 ^ 4 * 2 ^ 121 + e.pc % 2 ^ 56 * 2 ^ 128 + e.words % 2 ^ 5 * 2 ^ 184 + e.addr % 2 ^ 64 * 2 ^ 192 +
  e.aux0 % 2 ^ 64 * 2 ^ 256 + e.aux1 % 2 ^ 64 * 2 ^ 320 + e.tag % 2 ^ 16 * 2 ^ 384 + seq % 2 ^ 32 * 2 ^ 448 +
  seq / 2 ^ log2n % 2 * 2 ^ 511

/-- EVENT_RECORD_WRITE (19 R387). -/
def execEventRecordWrite (ctx : Nat) (s : State) : Host.Outcome State Fault Refusal :=
  .next (let c := s.ctx ctx
    match c.records with
    | [] => s
    | e :: rest =>
      if (c.pprod - c.pcons).toNat = 2 ^ c.log2n.toNat then s
      else
        let pa := c.rbase.toNat * 4096 + 64 * (c.pprod.toNat % 2 ^ c.log2n.toNat)
        let ok := s.reaches pa
        let s := s.hubWrite ((leBytes 64 (e.toNat c.pprod.toNat c.log2n.toNat)).zipIdx.map fun b => (pa + b.2, b.1))
        s.modCtx ctx fun c => { c with records := rest, pprod := c.pprod + 1, lost := c.lost || !ok })

/-- PRING names a region that a ring may lie in, and a legal size (19 R386). -/
def pringOk (log2n base : Nat) : Bool :=
  decide (4 ≤ log2n) && decide (log2n ≤ 16) && cachedRegion (regionOf (base * 4096))

/-- A write that leaves `v` in PRING (19 R386). -/
def State.writePring (s : State) (ctx : Nat) (v : DWord) : State :=
  let log2n : BitVec 5 := v.setWidth 5
  let base : BitVec 40 := (v >>> 12).setWidth 40
  if (s.ctx ctx).pprod = (s.ctx ctx).pcons ∧ pringOk log2n.toNat base.toNat then
    s.modCtx ctx fun c => { c with log2n := log2n, rbase := base }
  else s

/-- A write of PCONS (19 R386). -/
def State.writePcons (s : State) (ctx : Nat) (v : Word) : State :=
  let c := s.ctx ctx
  if (v - c.pcons).toNat ≤ (c.pprod - c.pcons).toNat then s.modCtx ctx fun c => { c with pcons := v } else s

/-- PRING_WRITE (19 R386). -/
def execPringWrite (ctx : Nat) (v : BitVec 64) (s : State) : Host.Outcome State Fault Refusal := .next (s.writePring ctx v)

/-- PCONS_WRITE (19 R386). -/
def execPconsWrite (ctx : Nat) (v : BitVec 32) (s : State) : Host.Outcome State Fault Refusal := .next (s.writePcons ctx v)

/-- Deliver PRVAL to the prompt with a tag, or set MISS (19 R394). -/
def State.replyPrompt (s : State) (ctx tag : Nat) : State :=
  match s.prompts.find? fun p => decide (p.ctx = ctx) && decide (p.tag = tag) with
  | none => s.modCtx ctx fun c => { c with miss := true }
  | some p =>
    { s with prompts := s.prompts.filter fun q => !(decide (q.ctx = ctx) && decide (q.tag = tag)) }.modWarp p.w fun W =>
      { W.setG 0 (s.ctx ctx).prval with prompt := none }

/-- PROMPT_REPLY (19 R394). -/
def execPromptReply (ctx tag : Nat) (s : State) : Host.Outcome State Fault Refusal := .next (s.replyPrompt ctx (tag % 65536))

/-! ## TEAMCTL (19 R390) -/

/-- The team in a team slot of a core that TEAMCTL acts on: none that is being struck (19 R400). -/
def State.ctlTeam (s : State) (core slot : Nat) : Option (Nat × Team) :=
  match s.teamAt core slot with
  | none => none
  | some t =>
    match s.team t with
    | none => none
    | some T => if s.struck T.ctx T.launch then none else some (t, T)

/-- TEAMCTL OP 0 (19 R390). -/
def State.ctlHold (s : State) (core slot : Nat) : State :=
  match s.ctlTeam core slot with
  | some (t, T) => if T.hold.isSome then s else s.holdTeam t fun h => { h with byCtl := true }
  | none => s

/-- TEAMCTL OP 1 and OP 2 (19 R390). -/
def State.ctlResume (s : State) (core slot : Nat) (past : Bool) : State :=
  match s.ctlTeam core slot with
  | some (t, T) => if s.mayResume T past then s.resumeTeam t T past else s
  | none => s

/-- TEAMCTL NEWHW (19 R390). -/
def State.ctlNewhw (s : State) (core slot warp phw : Nat) : State :=
  match s.ctlTeam core slot with
  | some (_, T) =>
    if (match T.hold with | some h => h.complete | none => false) then
      match T.slots[warp]? with
      | some w => s.modWarp w fun W => { W with phw := phw }
      | none => s
    else s
  | none => s

/-- TEAM_HOLD (19 R390). -/
def execTeamHold (core slot : Nat) (s : State) : Host.Outcome State Fault Refusal := .next (s.ctlHold core slot)
/-- TEAM_RESUME (19 R391). -/
def execTeamResume (core slot : Nat) (s : State) : Host.Outcome State Fault Refusal := .next (s.ctlResume core slot false)
/-- TEAM_RESUME_PAST (19 R391). -/
def execTeamResumePast (core slot : Nat) (s : State) : Host.Outcome State Fault Refusal := .next (s.ctlResume core slot true)
/-- NEWHW (19 R390). -/
def execNewhw (core slot warp phw : Nat) (s : State) : Host.Outcome State Fault Refusal := .next (s.ctlNewhw core slot warp phw)

/-! ## Pre-emption (19 R394, R396) -/

/-- RUNCTL OP 1 (19 R396, R397). The timer counts die 0's clock. -/
def State.preempt (s : State) (ctx : Nat) : State :=
  let t := if (s.ctx ctx).deadline = 0 then none
    else some (tget 0 s.clock 0 + (s.ctx ctx).deadline.toNat * Config.cyclesPerMicro)
  let s := s.modCtx ctx fun c => { c with stopped := true, draining := true, timer := t }
  let s := match s.gang with
    | some g => if s.launches.any fun L => decide (L.key = g.launch) && decide (L.ctx = ctx) then { s with gang := none } else s
    | none => s
  s.checkDrain ctx

/-- RUNCTL OP 2 (19 R394, R396, R397). -/
def State.resumeCtx (s : State) (ctx : Nat) : State :=
  let was := (s.ctx ctx).asserted
  let s := s.modCtx ctx fun c => { c with stopped := false, draining := false, asserted := false, timer := none }
  if was then s.teams.foldl (fun s e => match e.2 with | some T => if T.ctx = ctx then s.resumeAsserted e.1 else s | none => s) s else s

/-- CONTEXT_PREEMPT (19 R396). -/
def execContextPreempt (ctx : Nat) (s : State) : Host.Outcome State Fault Refusal := .next (s.preempt ctx)
/-- CONTEXT_RESUME (19 R394, R396). -/
def execContextResume (ctx : Nat) (s : State) : Host.Outcome State Fault Refusal := .next (s.resumeCtx ctx)

end Sys2Proof.Machine
end

