-- ==== Sys2Proof/Machine/Mash.lean ====
section
/-! DEFINITION. Mash banks and the instructions that drive them (14 R293 to R310; 15 R312 to R326). -/

namespace Sys2Proof.Machine

/-! ## Closed queues -/

/-- A BANK that waits has closed the queue of a bank: nothing enters it (15 R323). -/
def State.bankClosed (s : State) (core b : Nat) : Bool :=
  s.warps.any fun e => match e.2 with
    | some W => W.paths.any fun P => match P.wait with
      | some ⟨.bankSwitch bs, _⟩ => bs.contains (32 * core + b)
      | _ => false
    | none => false

/-! ## Elements and k-steps (14 R296 to R304) -/

/-- The in-bank integer of an element code: formats 0 .mxint8, 1 .mxfp6, 2 .mxfp4 (01 R35). -/
def mashInt (f c : Nat) : Int :=
  match f with
  | 0 => sext 8 c
  | 1 => Val.units (-3) (mxVal 1 (c % 64))
  | _ => Val.units (-1) (mxVal 2 (c % 16))

/-- The unit exponent of a format (14 R301). -/
def mashExp (f : Nat) : Int := match f with | 0 => -6 | 1 => -3 | _ => -1

/-- Columns of a weight format (14 R297). -/
def mashCols (fw : Nat) : Nat := if fw = 2 then 512 else 256

/-- The code of weight (k, n) in the bytes of a bank (14 R297). -/
def weightCode (byte : Nat → Nat) (fw k n : Nat) : Nat :=
  if fw = 2 then byte (256 * k + n / 2) / 2 ^ (4 * (n % 2)) % 16 else byte (256 * k + n)

/-- The width of the narrow accumulator (14 R302). -/
def accWidth (fa fw : Nat) : Nat := if fa = 0 ∨ fw = 0 then 24 else if fa = 1 ∨ fw = 1 then 20 else 16

/-- S ÷ 2^d to the nearest integer, ties to even (14 R303). -/
def rneShift (x : Int) (d : Nat) : Int :=
  let q := x / (2 ^ d : Nat)
  let r := x % (2 ^ d : Nat)
  if 2 * r < (2 ^ d : Nat) then q else if (2 ^ d : Nat) < 2 * r then q + 1 else q + q % 2

/-- A byte of a wide value. -/
def wideByte {w : Nat} (v : BitVec w) (i : Nat) : Nat := v.toNat / 2 ^ (8 * i) % 256

/-- The cells of a bank. -/
def mashCells : Nat := 16 * 512

/-- A promotion (14 R304). -/
def Bank.promote (B : Bank) : Bank :=
  if B.cnt = 0 then B
  else
    { B with
      rack := tbuild 0 mashCells fun i =>
        if tget false B.nan i then 0x7FC00000
        else rnd32 Rnd.ne (sumVal 0 [Val.ofF32 (tget 0 B.rack i), (Val.ofInt (tget 0 B.acc i)).scale (tget 0 B.ecol i)])
      acc := [], nan := [], cnt := 0 }

/-- The COLCLR effect on one rack row, or on every cell (14 R305). -/
def Bank.clear (B : Bank) (row : Option Nat) : Bank :=
  match row with
  | some m => { B with rack := tclear B.rack (512 * m) (512 * m + 512), acc := tclear B.acc (512 * m) (512 * m + 512),
                       nan := tclear B.nan (512 * m) (512 * m + 512) }
  | none => { B with rack := [], acc := [], nan := [], cnt := 0 }

/-- The sum and the exponent of a k-step in cell (m, n) (14 R301). -/
def Bank.term (B : Bank) (byte : Nat → Nat) (fa fw kg : Nat) (frag : BitVec 4096) (sa : BitVec 128) (m n : Nat) : Int × Int :=
  ((List.range 32).foldl (fun a k => a + mashInt fa (wideByte frag (32 * m + k)) * mashInt fw (weightCode byte fw (32 * kg + k) n)) 0,
   (wideByte sa m : Int) - 127 + mashExp fa + (((tget 0x7F B.sw (512 * kg + n)).toNat : Int) - 127 + mashExp fw))

/-- A k-step over every cell (14 R303). -/
def Bank.kStep (B : Bank) (byte : Nat → Nat) (fa fw kg p : Nat) (clr : Bool) (frag : BitVec 4096) (sa : BitVec 128) : Bank :=
  let B := if clr then B.clear none else B
  let w := accWidth fa fw
  let live := fun i => decide (i % 512 < mashCols fw)
  let sum := fun i =>
    let t := B.term byte fa fw kg frag sa (i / 512) (i % 512)
    let c := tget 0 B.ecol i
    if B.cnt = 0 then t.1
    else if c ≤ t.2 then tget 0 B.acc i + t.1 * (2 ^ (t.2 - c).toNat : Nat)
    else tget 0 B.acc i + rneShift t.1 (c - t.2).toNat
  let clamped := fun i => live i && decide (B.cnt ≠ 0) && decide (satS (sum i) w ≠ sum i)
  let B' : Bank := { B with
    acc := tbuild 0 mashCells fun i => if live i then (if B.cnt = 0 then sum i else satS (sum i) w) else tget 0 B.acc i
    ecol := if B.cnt = 0 then tbuild 0 mashCells fun i =>
        if live i then (B.term byte fa fw kg frag sa (i / 512) (i % 512)).2 else tget 0 B.ecol i
      else B.ecol
    nan := tbuild false mashCells fun i =>
      tget false B.nan i || (live i && (decide (wideByte sa (i / 512) = 0xFF) || decide (tget 0x7F B.sw (512 * kg + i % 512) = 0xFF)))
    sat := B.sat || (List.range mashCells).any clamped
    cnt := B.cnt + 1 }
  if p ≤ B'.cnt then B'.promote else B'

/-! ## Banks of a team -/

/-- The bank at a core and number. -/
def State.bank (s : State) (core b : Nat) : Bank := tget Bank.zero s.banks (32 * core + b)
/-- Replace a bank. -/
def State.setBank (s : State) (core b : Nat) (B : Bank) : State := { s with banks := tput Bank.zero s.banks (32 * core + b) B }

/-- Byte i of a bank's array. -/
def State.bankByte (s : State) (core b i : Nat) : Nat := (tget 0 s.scratch (core * 2 ^ 23 + b * 2 ^ 18 + i)).toNat

/-- The banks of the issuing warp's core that a mask names, with their team bank numbers (15 R313). -/
def Ix.named (x : Ix) (mask : Nat) : List (Nat × Nat) :=
  ((x.T.banksOn x.core).zipIdx.filter fun e => mask.testBit e.2).map fun e => (e.2, e.1)

/-- A mask names a bank the team does not have (15 R313). -/
def Ix.badMask (x : Ix) (mask : Nat) : Bool := decide (2 ^ x.T.mash ≤ mask)

/-- Enter an operation into every named bank, or wait for a place in all; a bank in storage mode is the bank-mode fault
(14 R309; 15 R317 to R319). -/
def Ix.enterBanks (x : Ix) (s : State) (mask : Nat) (k : BankOpKind) : Res :=
  let bs := x.named mask
  if bs.any fun b => decide (5 ≤ (s.bank x.core b.2).ops.length) || s.bankClosed x.core b.2 then .wait s .bankPlace
  else match bs.find? fun b => !(s.bank x.core b.2).mash with
    | some b => .trap s ⟨17, 0, 0, b.1, 0, none⟩
    | none =>
      .ok { bs.foldl (fun s b =>
          let B := s.bank x.core b.2
          s.setBank x.core b.2 { B with ops := B.ops ++ [(⟨s.nextId, k⟩ : BankOp)] }) s with nextId := s.nextId + 1 } none

/-- The control value of RACK, COLRD and COLCLR: register a of the lowest active lane (15 R314). -/
def Ix.control (x : Ix) (a : BitVec 7) : Word := x.src a.toNat x.low

/-! ## MASH, RACK, COLCLR -/

/-- Registers of a fragment (14 R300). -/
def fragRegs (width fa : Nat) : Nat := 32 / (width / 16) / (if fa = 2 then 8 else 4)

/-- The code of fragment element (m, k) (14 R300). -/
def Ix.fragCode (x : Ix) (fa vb m k : Nat) : Nat :=
  let perLane := 32 / (x.T.width / 16)
  let perReg := if fa = 2 then 8 else 4
  let i := k % perLane
  let r := (x.W.reg (m + 16 * (k / perLane)) (vb + i / perReg)).toNat
  if fa = 2 then r / 2 ^ (4 * (i % 8)) % 16 else r / 2 ^ (8 * (i % 4)) % 256

/-- The activation fragment: element (m, k) in byte 32m + k (14 R300). -/
def Ix.fragment (x : Ix) (fa vb : Nat) : BitVec 4096 :=
  BitVec.ofNat 4096 ((List.range 512).foldl (fun n i => n + x.fragCode fa vb (i / 32) (i % 32) * 2 ^ (8 * i)) 0)

/-- The sixteen activation scales (14 R300). -/
def Ix.fragScales (x : Ix) (vs bsel : Nat) : BitVec 128 :=
  BitVec.ofNat 128 ((List.range 16).foldl (fun n m => n + regByte (x.src vs m) bsel * 2 ^ (8 * m)) 0)

/-- The effect of MASH, at issue and when it waits for queue places (15 R317, R318). -/
def mashBody (x : Ix) (s : State) (d a : BitVec 7) (bsel : BitVec 2) (clr : Bool) (fa fw : BitVec 2) (pm1 : BitVec 4) (kg : BitVec 5)
    (half : Bool) (bmask : BitVec 16) : Res :=
  if x.P.lanes ≠ x.W.live then .trap s ⟨7, 0, 0, x.P.lanes.toNat, (x.W.live &&& ~~~x.P.lanes).toNat, none⟩
  else
    let R := fragRegs x.T.width fa.toNat
    withOperands x s [.group d.toNat R R, .src a.toNat] fun _ =>
      let mask := bmask.toNat * (if half then 2 ^ 16 else 1)
      if x.badMask mask then .trap s (Trap.operand bmask.toNat)
      else x.enterBanks s mask (.mash fa.toNat fw.toNat kg.toNat (pm1.toNat + 1) clr (x.fragment fa.toNat d.toNat)
        (x.fragScales a.toNat bsel.toNat))

/-- The effect of RACK and COLCLR (15 R313, R314, R319). -/
def cellBody (x : Ix) (s : State) (a : BitVec 7) (k : BankOpKind) : Res :=
  withOperands x s [.src a.toNat] fun _ =>
    let mask := (x.control a).toNat
    if x.badMask mask then .trap s (Trap.operand a.toNat) else x.enterBanks s mask k

/-- What COLCLR clears (15 R319). -/
def colclrKind (l : Bool) (r : BitVec 4) : BankOpKind := .colclr (if l then none else some r.toNat)

/-- MASH (15 R316 to R318). -/
def execMash (e : Bool) (d a : BitVec 7) (bsel : BitVec 2) (clr : Bool) (fa fw : BitVec 2) (pm1 : BitVec 4) (kg : BitVec 5)
    (half : Bool) (bmask : BitVec 16) (s : State) : Host.Outcome State Fault Refusal :=
  run (.mash e d a bsel clr fa fw pm1 kg half bmask) s fun x => mashBody x s d a bsel clr fa fw pm1 kg half bmask

/-- RACK (15 R319). -/
def execRack (e : Bool) (a : BitVec 7) (s : State) : Host.Outcome State Fault Refusal :=
  run (.rack e a) s fun x => cellBody x s a .rack

/-- COLCLR (15 R319). -/
def execColclr (e : Bool) (a : BitVec 7) (l : Bool) (r : BitVec 4) (s : State) : Host.Outcome State Fault Refusal :=
  run (.colclr e a l r) s fun x => cellBody x s a (colclrKind l r)

/-- BANK_QUEUE_ENTRY (14 R309): the waiting MASH, RACK or COLCLR enters every named bank, if it can now. -/
def execBankQueueEntry (w : Nat) (s : State) : Host.Outcome State Fault Refusal :=
  .next (match s.waiter w with
    | none => s
    | some (x, k) =>
      if k.kind ≠ .bankPlace then s
      else match k.instr with
        | .mash _ d a bsel clr fa fw pm1 kg half bmask => finish x k.instr s (mashBody x s d a bsel clr fa fw pm1 kg half bmask)
        | .rack _ a => finish x k.instr s (cellBody x s a .rack)
        | .colclr _ a l r => finish x k.instr s (cellBody x s a (colclrKind l r))
        | _ => s)

/-! ## The banks' own steps -/

/-- Execute the first operation of a bank, where `f` gives its effect. -/
def State.bankExec (s : State) (core b : Nat) (f : BankOpKind → Option (Bank → Bank)) : State :=
  let B := s.bank core b
  match B.ops with
  | [] => s
  | o :: rest =>
    match f o.kind with
    | some g => s.setBank core b { g B with ops := rest }
    | none => s

/-- K_STEP (14 R301 to R304). -/
def execKStep (core bank : Nat) (s : State) : Host.Outcome State Fault Refusal :=
  .next (s.bankExec core bank fun
    | .mash fa fw kg p clr frag sa => some fun B => B.kStep (s.bankByte core bank) fa fw kg p clr frag sa
    | _ => none)

/-- RACK_EXECUTE (14 R305). -/
def execRackExecute (core bank : Nat) (s : State) : Host.Outcome State Fault Refusal :=
  .next (s.bankExec core bank fun | .rack => some Bank.promote | _ => none)

/-- COLCLR_EXECUTE (14 R305). -/
def execColclrExecute (core bank : Nat) (s : State) : Host.Outcome State Fault Refusal :=
  .next (s.bankExec core bank fun | .colclr row => some fun B => B.clear row | _ => none)

/-! ## COLRD, MSTAT -/

/-- COLRD's operand is legal (15 R320). -/
def Ix.colrdOk (x : Ix) (v : Word) : Bool :=
  decide (v.toNat / 2 ^ 5 % 8 = 0) && decide (v.toNat / 2 ^ 12 % 16 = 0) && decide (v.toNat / 2 ^ 25 = 0) &&
  decide (v.toNat % 32 < x.T.mash) && decide (v.toNat / 2 ^ 16 % 512 + x.T.width ≤ 512)

/-- The physical number of a team bank on the issuing core. -/
def Ix.bankNo (x : Ix) (i : Nat) : Nat := ((x.T.banksOn x.core)[i]?).getD 0

/-- COLRD reads: W values of a rack row, one to each lane of the path (14 R308; 15 R321). -/
def Ix.colrdRead (x : Ix) (s : State) (d : BitVec 7) (v : Word) : Res :=
  let B := s.bank x.core (x.bankNo (v.toNat % 32))
  let at' := fun l => tget 0 B.rack (512 * (v.toNat / 2 ^ 8 % 16) + v.toNat / 2 ^ 16 % 512 + l)
  .ok (s.setWarp x.w (x.lanes.foldl (fun W l => W.setReg l d.toNat (at' l)) x.W)) none

/-- COLRD (15 R320, R321): it waits for the operations that entered its bank before it. -/
def execColrd (e : Bool) (d a : BitVec 7) (s : State) : Host.Outcome State Fault Refusal :=
  run (.colrd e d a) s fun x => withOperands x s [.reg d.toNat, .src a.toNat] fun _ =>
    let v := x.control a
    if !x.colrdOk v then .trap s (Trap.operand a.toNat)
    else if (s.bank x.core (x.bankNo (v.toNat % 32))).ops.isEmpty then x.colrdRead s d v
    else .wait { s with nextId := s.nextId + 1 } (.colrd s.nextId)

/-- COLRD_READ (15 R321). -/
def execColrdRead (w : Nat) (s : State) : Host.Outcome State Fault Refusal :=
  .next (match s.waiter w with
    | none => s
    | some (x, k) =>
      match k.kind, k.instr with
      | .colrd before, .colrd _ d a =>
        let v := x.control a
        if (s.bank x.core (x.bankNo (v.toNat % 32))).ops.any fun o => decide (o.id < before) then s
        else finish x k.instr s (x.colrdRead s d v)
      | _, _ => s)

/-- The status word of a bank (15 R322). -/
def Bank.status (B : Bank) : Nat :=
  (B.ops.length - 1) + (if B.ops.isEmpty then 0 else 2 ^ 3) + (if B.sat then 2 ^ 4 else 0) + (if B.mash then 2 ^ 5 else 0) +
  B.cnt * 2 ^ 8

/-- MSTAT (15 R322). -/
def execMstat (e n : Bool) (d : BitVec 7) (c : Bool) (b : BitVec 5) (s : State) : Host.Outcome State Fault Refusal :=
  run (.mstat e n d c b) s fun x => withOperands x s [.reg d.toNat] fun _ =>
    if x.T.mash ≤ b.toNat then .trap s (Trap.operand b.toNat)
    else
      let p := x.bankNo b.toNat
      let B := s.bank x.core p
      let s1 := if c then s.setBank x.core p { B with sat := false } else s
      writeResult x s1 n false d.toNat (x.lanes.map fun l => (l, BitVec.ofNat 64 B.status))

/-! ## The banks of a BANK; MWAIT -/

/-- A copy of the team has bytes to write in a bank of its core (15 R323). -/
def State.copyWrites (s : State) (t : Nat) (T : Team) (core b : Nat) : Bool :=
  s.copies.any fun c => decide (c.team = t) && c.left.any fun r =>
    (r.1 :: (List.range (r.2 / 4096 + 2)).map fun i => (r.1 / 4096 + i) * 4096).any fun o =>
      decide (r.1 ≤ o) && decide (o < r.1 + r.2) &&
      (match T.scratchAt o 1 with | some a => decide (a.1 = core) && decide (a.2.1 = b) | none => false)

/-- Switch banks of a core to a mode: a bank back in storage mode has every line full (14 R294; 09 R213). -/
def State.switchBanks (s : State) (core : Nat) (bs : List Nat) (m : Bool) : State :=
  bs.foldl (fun s b =>
    let a := core * 2 ^ 16 + b * 2 ^ 11
    { s.setBank core b { s.bank core b with mash := m } with
      empty := if m then s.empty else tclear s.empty a (a + 2 ^ 11) }) s

/-- A store that has passed its check is on its way to a bank, given as 32 × core + bank. -/
def State.storesTo (s : State) (k : Nat) : Bool :=
  s.stores.any fun p => p.bytes.any fun e => isScratch e.2.1 && decide ((e.2.1 - scrLoc) / 2 ^ 18 = k)

/-- The banks of a BANK may switch: idle, no copy of the team still writes them, and every store that has reached them is
performed, the path's own and those of other warps (14 R294; 15 R323, R324). -/
def Ix.mayswitch (x : Ix) (s : State) (bs : List Nat) : Bool :=
  bs.all fun k => (s.bank x.core (k % 32)).ops.isEmpty && !s.copyWrites x.W.team x.T x.core (k % 32) && !s.storesTo k

/-- MWAIT (15 R325). -/
def execMwait (a : BitVec 6) (s : State) : Host.Outcome State Fault Refusal :=
  run (.mwait a) s fun x => withUniform x s [a.toNat] fun _ =>
    let mask := x.W.greg a.toNat
    if x.badMask mask.toNat then .trap s (Trap.operand a.toNat)
    else .block s (.mwait x.core (mask.setWidth 32) (s.opsIn x.T x.core (mask.setWidth 32)) x.P.scene)

end Sys2Proof.Machine
end

