-- ==== Sys2Proof/Machine/CopyEngine.lean ====
section
/-! DEFINITION. Stage rings (16 R341 to R349), COPY (16 R331 to R335) and the copy engine (16 R336 to R340, R350 to
R354). -/

namespace Sys2Proof.Machine

/-! ## Stage rings -/

/-- The ring fault (16 R349; 19 R389 code 20). -/
def Trap.ring (cause q slot : Nat) : Trap := ⟨20, cause, 0, q, slot, none⟩

/-- Replace a ring of a team. -/
def State.setRing (s : State) (t q : Nat) (r : Ring) : State := s.modTeam t fun T => { T with rings := tput none T.rings q (some r) }

/-- A ring with a slot replaced. -/
def Ring.setSlot (r : Ring) (i : Nat) (e : Slot) : Ring := { r with slots := r.slots.set i e }

/-- One more arrival at a slot: it fills when its arrivals are complete (16 R341). -/
def Ring.arrive (r : Ring) (i : Nat) : Ring :=
  let e := r.slot i
  if e.arr + 1 = r.exp then { r.setSlot i { e with arr := e.arr + 1, st := .filled } with filled := r.filled + 1 }
  else r.setSlot i { e with arr := e.arr + 1 }

/-- The slot takes another arrival or reservation (16 R349 cause 3). -/
def Ring.takes (r : Ring) (i : Nat) : Bool := decide ((r.slot i).st = .opened) && decide ((r.slot i).arr + (r.slot i).res < r.exp)

/-- The lines of a scratch range of a team, resolved. -/
def Team.linesIn (T : Team) (o n : Nat) : List (Nat × Nat × Nat) :=
  if n = 0 then [] else (List.range ((o + n - 1) / 128 - o / 128 + 1)).filterMap fun i => T.scratchAt ((o / 128 + i) * 128) 1

/-- The scratch range of a slot (16 R341). -/
def Ring.range (r : Ring) (i : Nat) : Nat × Nat := (r.base + 128 * r.ssize * i, 128 * r.ssize)

/-- The team bank in mash mode that a line of a scratch range lies in (15 R313; 16 R343, R347). -/
def State.mashLine (s : State) (T : Team) (o n : Nat) : Option Nat :=
  ((T.linesIn o n).find? fun a => (s.bankOf a).mash).map T.bankIndex

/-- The bank-mode fault of a team bank. -/
def Trap.bankMode (i : Nat) : Trap := ⟨17, 0, 0, i, 0, none⟩

/-- Empty the lines of a scratch range. -/
def State.emptyRange (s : State) (T : Team) (o n : Nat) : State := (T.linesIn o n).foldl (fun s a => s.setEmpty a true) s

/-- Wake the paths of a warp that are blocked at RACQ or RWAIT of ring q: they execute it again (16 R343). -/
def Warp.wakeRing (W : Warp) (q : Nat) : Warp :=
  let at' := fun (b : Option Block) => match b with | some (.racq r) => decide (r = q) | some (.rwait r _ _) => decide (r = q) | _ => false
  { W with paths := W.paths.map fun P => if at' P.block then { P with block := some .woken } else P }

/-- Wake the paths of a team that are blocked at RACQ or RWAIT of ring q. -/
def State.wakeRing (s : State) (T : Team) (q : Nat) : State := T.slots.foldl (fun s w => s.modWarp w fun W => W.wakeRing q) s

/-- The path's lanes have stores to scratch that are not performed: an instruction that empties scratch lines, or hands
them to an engine, follows them (10 R229; log 12). -/
def Ix.scratchOut (x : Ix) (s : State) : Bool :=
  s.stores.any fun p => decide (p.w = x.w) && x.P.lanes.getLsbD p.lane && p.scratch

/-- RSET (16 R343). -/
def execRset (e : Bool) (q : BitVec 3) (a b : BitVec 6) (s : State) : Host.Outcome State Fault Refusal :=
  run (.rset e q a b) s fun x => withUniform x s [a.toNat, b.toNat] fun _ =>
    let u := (x.W.greg a.toNat).toNat
    let v := (x.W.greg b.toNat).toNat
    let base := u % 2 ^ 24
    let ssize := u / 2 ^ 32 % 2 ^ 13 + 1
    let scount := v % 2 ^ 5 + 1
    let exp := v / 2 ^ 8 % 2 ^ 8
    if u ≠ base + (ssize - 1) * 2 ^ 32 ∨ base % 128 ≠ 0 then .trap s (Trap.operand a.toNat)
    else if v ≠ scount - 1 + exp * 2 ^ 8 ∨ exp = 0 then .trap s (Trap.operand b.toNat)
    else if (x.T.scratchAt base (128 * ssize * scount)).isNone then .trap s (Trap.operand a.toNat)
    else
      let busy := match x.T.ring q.toNat with
        | some r => (List.range r.scount).find? fun i => decide (0 < (r.slot i).res)
        | none => none
      match busy with
      | some i => .trap s (Trap.ring 5 q.toNat i)
      | none =>
        match s.mashLine x.T base (128 * ssize * scount) with
        | some i => .trap s (Trap.bankMode i)
        | none =>
          if x.scratchOut s then .stall
          else
            .ok (((s.emptyRange x.T base (128 * ssize * scount)).setRing x.W.team q.toNat
              { base := base, ssize := ssize, scount := scount, exp := exp, free := scount, filled := 0, phase := false, ap := 0,
                slots := List.replicate scount ⟨.free, false, 0, 0⟩ }).wakeRing x.T q.toNat) none

/-- RACQ (16 R344). -/
def execRacq (d : BitVec 6) (q : BitVec 3) (s : State) : Host.Outcome State Fault Refusal :=
  run (.racq d q) s fun x => withUniform x s [d.toNat] fun _ =>
    match x.T.ring q.toNat with
    | none => .trap s (Trap.ring 1 q.toNat 0)
    | some r =>
      if (r.slot r.ap).st ≠ .free then .again (.racq q.toNat)
      else
        let next := (r.ap + 1) % r.scount
        let r' := { r.setSlot r.ap ⟨.opened, r.phase, 0, 0⟩ with
          free := r.free - 1, ap := next, phase := if next = 0 then !r.phase else r.phase }
        .ok ((s.setWarp x.w (x.W.setG d.toNat (BitVec.ofNat 64 (r.ap + 256 * r.phase.toNat)))).setRing x.W.team q.toNat r') none

/-- A ring instruction that names slot `slot` of ring q: the configured ring with the slot in range, or the fault (16
R342, R346, R349). -/
def Ix.withSlot (x : Ix) (s : State) (q : BitVec 3) (slot : Nat) (k : Ring → Res) : Res :=
  match x.T.ring q.toNat with
  | none => .trap s (Trap.ring 1 q.toNat slot)
  | some r => if r.scount ≤ slot then .trap s (Trap.ring 2 q.toNat slot) else k r

/-- RPUB (16 R345): a release at .team scope, then one arrival for the path. -/
def execRpub (e : Bool) (a : BitVec 6) (q : BitVec 3) (s : State) : Host.Outcome State Fault Refusal :=
  run (.rpub e a q) s fun x => withUniform x s [a.toNat] fun _ =>
    let v := (x.W.greg a.toNat).toNat
    if 2 ^ 5 ≤ v then .trap s (Trap.operand a.toNat)
    else x.withSlot s q v fun r =>
      if !r.takes v then .trap s (Trap.ring 3 q.toNat v)
      else if x.releaseWaits s 1 then .stall
      else .ok (s.setRing x.W.team q.toNat (r.arrive v)) none

/-- RWAIT (16 R346): on return an acquire at .team scope, after which the threads' loads see the writes of the slot's
arrivals, a copy's among them, so the lines of the context leave L1 (10 R229, R241; log 27). -/
def execRwait (a : BitVec 6) (q : BitVec 3) (s : State) : Host.Outcome State Fault Refusal :=
  run (.rwait a q) s fun x => withUniform x s [a.toNat] fun _ =>
    let v := (x.W.greg a.toNat).toNat
    let i := v % 2 ^ 5
    let ph := decide (v / 2 ^ 8 % 2 = 1)
    if v ≠ i + 2 ^ 8 * (v / 2 ^ 8 % 2) then .trap s (Trap.operand a.toNat)
    else x.withSlot s q i fun r =>
      if (r.slot i).st = .filled ∧ (r.slot i).ph = ph then .ok (s.l1Drop x.core fun e => decide (e.ctx = x.T.ctx)) none else .again (.rwait q.toNat i ph)

/-- RFREE (16 R347). -/
def execRfree (e : Bool) (a : BitVec 6) (q : BitVec 3) (s : State) : Host.Outcome State Fault Refusal :=
  run (.rfree e a q) s fun x => withUniform x s [a.toNat] fun _ =>
    let v := (x.W.greg a.toNat).toNat
    if 2 ^ 5 ≤ v then .trap s (Trap.operand a.toNat)
    else x.withSlot s q v fun r =>
      if (r.slot v).st ≠ .filled then .trap s (Trap.ring 4 q.toNat v)
      else match s.mashLine x.T (r.range v).1 (r.range v).2 with
        | some i => .trap s (Trap.bankMode i)
        | none =>
          if x.scratchOut s then .stall
          else
            .ok ((s.emptyRange x.T (r.range v).1 (r.range v).2).setRing x.W.team q.toNat
              { r.setSlot v { r.slot v with st := .free } with free := r.free + 1, filled := r.filled - 1 }) none

/-- CWAIT (16 R348). -/
def execCwait (s : State) : Host.Outcome State Fault Refusal :=
  run .cwait s fun x => .block s (.cwait ((s.copies.filter fun c => c.w = x.w).map (·.id)))

/-! ## COPY (16 R331 to R335) -/

/-- The copy fault (16 R332, R334; 19 R389 code 19). -/
def Trap.copy (cause raddr lane : Nat) : Trap := ⟨19, cause, raddr, 0, 0, some lane⟩

/-- Check 7 of R334: c0 and B0 multiples. -/
def Copy.aligned (c : Copy) : Bool :=
  let m := if c.aligns || c.steep then 32 else c.unitElems
  decide (c.orgAt 0 % (m : Int) = 0) && decide (recBox c.record 0 % m = 0)

/-- First k-group of a steep (16 R332). -/
def Copy.kg0 (c : Copy) : Nat := c.dense / 2 ^ 5 % 2 ^ 5
/-- First column of a steep (16 R332). -/
def Copy.col0 (c : Copy) : Nat := c.dense / 2 ^ 10 % 2 ^ 9

/-- The bank control and geometry of a steep (16 R332, R339). -/
def Copy.steepOk (c : Copy) : Bool :=
  let four := decide (recElem c.record = 5)
  decide (c.dense / 2 ^ 19 = 0) && decide (recRank c.record = 2) && decide (c.inCount = c.count) &&
  decide (32 * c.kg0 + recBox c.record 0 ≤ 1024) && decide (c.col0 + recBox c.record 1 ≤ if four then 512 else 256) &&
  (!four || (decide (c.col0 % 2 = 0) && decide (recBox c.record 1 % 2 = 0)))

/-- The scratch destinations of a copy: offset and length of the dense side and of the scales. -/
def Copy.scratchDests (c : Copy) : List (Nat × Nat) :=
  if c.dir = 0 && !c.steep then (c.dense, c.denseBytes) :: (if c.opt = 2 then [(c.sdense, c.blocks)] else []) else []

/-- The scratch ranges of a copy, checked by step 9 of R334. -/
def Copy.scratchRanges (c : Copy) : List (Nat × Nat) := if c.dir = 1 then [(c.dense, c.denseBytes)] else c.scratchDests

/-- The rows of global bytes a copy writes: first byte and length (16 R330). -/
def Copy.writtenRows (c : Copy) : List (Nat × Nat) :=
  if c.dir = 2 then [(c.dense, c.denseBytes)]
  else if c.dir = 1 then
    (List.range (c.count / recBox c.record 0)).filterMap fun r =>
      let i := c.coords (r * recBox c.record 0)
      match c.bounds with
      | (lo, hi) :: _ =>
        if hi < lo ∨ !c.inBounds (lo :: i.tail) then none
        else
          let a := c.elemAt (lo :: i.tail)
          let b := c.elemAt (hi :: i.tail)
          some (a.1, b.1 + b.2.2 - a.1)
      | [] => none
  else []

/-- A virtual address an engine forms is canonical. -/
def engCanonical (va : Nat) : Bool := decide (va < 2 ^ 56) && canonical va

/-- Translate a global access of the engine (09 R207, R208, R222): code and cause of its fault. Whether the translation unit
keeps the leaf of an engine's access the spec does not say; the model keeps none (DESIGN CHOICE, log 6). -/
def State.engXlat (s : State) (core ctx va : Nat) (k : Access) : Except (Nat × Nat) Xlat :=
  if !engCanonical va then .error (14, 7)
  else match s.translate core ctx va k with
    | .error c => .error (14, c)
    | .ok t => .ok t

/-- A page that holds written bytes, translates without fault and holds a written byte of a hung entry: the virtual
address of its first written byte (16 R334 step 12). -/
def State.hungPage (s : State) (c : Copy) : Option Nat :=
  (c.writtenRows.flatMap fun r =>
    (List.range ((r.1 + r.2 - 1) / 2 ^ 16 - r.1 / 2 ^ 16 + 1)).map fun i =>
      let p := r.1 / 2 ^ 16 + i
      (max r.1 (p * 2 ^ 16), min (r.1 + r.2) ((p + 1) * 2 ^ 16))).findSome? fun e =>
    match s.engXlat c.core c.ctx e.1 .store with
    | .ok t => if s.hitsHung t.pa (e.2 - e.1) then some e.1 else none
    | .error _ => none

/-- The 64 KiB pages that ranges of virtual bytes touch: the first byte of each range in each of them. -/
def pageStarts (rs : List (Nat × Nat)) : List Nat :=
  rs.flatMap fun r => (List.range ((r.1 + r.2 - 1) / 2 ^ 16 - r.1 / 2 ^ 16 + 1)).map fun i => max r.1 ((r.1 / 2 ^ 16 + i) * 2 ^ 16)

/-- The walks by which the engine translates virtual addresses (09 R207). -/
def State.engWalks (s : State) (core ctx : Nat) (vas : List Nat) : State :=
  vas.foldl (fun s va => if engCanonical va then s.walkFor core ctx va else s) s

/-- The issue of a checked copy in one step (16 R335). -/
def issueCopy (x : Ix) (s : State) (c : Copy) : State :=
  let s := c.scratchDests.foldl (fun s r => s.emptyRange x.T r.1 r.2) s
  let s := match c.ring with
    | some (q, i) =>
      match x.T.ring q with
      | some r => s.setRing x.W.team q (r.setSlot i { r.slot i with res := (r.slot i).res + 1 })
      | none => s
    | none => s
  let s := match c.bank with
    | some b => s.setBank c.core b { s.bank c.core b with ops := (s.bank c.core b).ops ++ [(⟨c.id, .steep c.id⟩ : BankOp)] }
    | none => s
  { s with copies := s.copies ++ [c], nextId := s.nextId + 1 }

/-- Steps 9 to 13 of R334 and the issue. -/
def copyEnter (x : Ix) (s : State) (c : Copy) (rv : Bool) (q slot : Nat) : Res :=
  match c.scratchRanges.find? fun r => (if r.1 < 2 ^ 32 then x.T.scratchAt r.1 r.2 else none).isNone with
  | some r => .trap s ⟨11, 0, r.1, 0, 0, some c.lane⟩
  | none =>
    let ring := if rv then (match x.T.ring q with
      | none => some 1
      | some r => if r.scount ≤ slot then some 2 else if r.takes slot then none else some 3) else none
    match ring with
    | some cause => .trap s { Trap.ring cause q slot with lane := some c.lane }
    | none =>
      let mode := match c.bank with
        | some b => if (s.bank c.core b).mash then none else some (c.dense % 32)
        | none => c.scratchDests.findSome? fun r => s.mashLine x.T r.1 r.2
      match mode with
      | some i => .trap s { Trap.bankMode i with lane := some c.lane }
      | none =>
        let s := s.engWalks c.core c.ctx (pageStarts c.writtenRows)
        match s.hungPage c with
        | some va => .trap s ⟨16, 4, va, 0, 0, some c.lane⟩
        | none =>
          let full := match c.bank with
            | some b => decide (5 ≤ (s.bank c.core b).ops.length) || s.bankClosed c.core b
            | none => false
          if 24 ≤ (s.engineCopies c.core).length || full then .wait s .copyPlace
          else if x.scratchOut s then .stall
          else .ok (issueCopy x s { c with ring := if rv then some (q, slot) else none }) none

/-- The effect of COPY, at issue and while it waits for a place (16 R333, R334). -/
def copyBody (x : Ix) (s : State) (d a b : BitVec 7) (opt : BitVec 3) (dir : BitVec 2) (rv : Bool) (q : BitVec 3)
    (sreg : BitVec 7) (lk : BitVec 3) (slreg : BitVec 7) : Res :=
  let lead := x.P.lanes &&& x.W.mask x.P lk.toNat
  if lead = 0 then .ok s none
  else
    let L := lowest lead
    let us : List Use := [if dir = 2 then .regPair d.toNat else .reg d.toNat, .srcPair a.toNat, .reg b.toNat] ++
      (if opt = 2 then [.reg sreg.toNat] else []) ++ (if rv then [.reg slreg.toNat] else [])
    match operandTrap x us with
    | some t => .trap s { t with lane := some L }
    | none =>
      if us.any (Use.busy x s [L]) then .stall
      else
        let va := (x.srcPair a.toNat L).toNat % 2 ^ 56
        match x.readRecord s L va 64 with
        | .error t => .trap s t
        | .ok (s, n) =>
          let r := BitVec.ofNat 512 n
          if !recOk r || !optOk opt.toNat dir.toNat (recElem r) then .trap s (Trap.copy 1 va L)
          else
            let org := Use.group b.toNat (recRank r) 1
            if !org.ok x then .trap s { Trap.operand b.toNat with lane := some L }
            else if org.busy x s [L] then .stall
            else
              let dense := if dir = 2 then (x.W.pair L d.toNat).toNat % 2 ^ 56 else (x.W.reg L d.toNat).toNat
              let c : Copy :=
                { id := s.nextId, core := x.core, team := x.W.team, ctx := x.T.ctx, w := x.w, lane := L, pc := x.P.pc,
                  words := x.words, opt := opt.toNat, dir := dir.toNat, record := r, raddr := va
                  org := (List.range (recRank r)).map fun i => (x.W.reg L (b.toNat + i)).toInt
                  dense := dense, sdense := if opt = 2 then (x.W.reg L sreg.toNat).toNat else 0, ring := none
                  bank := if 3 ≤ opt.toNat then some (x.bankNo (dense % 32)) else none
                  started := false, unit := 0, park := none, stalled := false, got := [], put := [] }
              if 4 * 2 ^ 20 < c.bytesWritten then .trap s (Trap.copy 2 va L)
              else if !c.aligned then .trap s (Trap.copy 3 va L)
              else if c.steep && decide (x.T.mash ≤ dense % 32) then .trap s { Trap.operand d.toNat with lane := some L }
              else if c.steep && !c.steepOk then .trap s (Trap.copy 4 va L)
              else copyEnter x s c rv q.toNat (if rv then (x.W.reg L slreg.toNat).toNat else 0)

/-- COPY (16 R331 to R335). -/
def execCopy (e : Bool) (d a b : BitVec 7) (opt : BitVec 3) (dir : BitVec 2) (rv : Bool) (q : BitVec 3)
    (sreg : BitVec 7) (lk : BitVec 3) (slreg : BitVec 7) (s : State) : Host.Outcome State Fault Refusal :=
  run (.copy e d a b opt dir rv q sreg lk slreg) s fun x => copyBody x s d a b opt dir rv q sreg lk slreg

/-- COPY_ISSUE (16 R334 step 13, R335): a COPY that waits for a place is checked again and issues if it can. -/
def execCopyIssue (w : Nat) (s : State) : Host.Outcome State Fault Refusal :=
  .next (match s.waiter w with
    | none => s
    | some (x, k) =>
      match k.kind, k.instr with
      | .copyPlace, .copy _ d a b opt dir rv q sreg lk slreg => finish x k.instr s (copyBody x s d a b opt dir rv q sreg lk slreg)
      | _, _ => s)

/-! ## The engine (16 R336 to R339, R352) -/

/-- The copy held under an identifier. -/
def State.copy? (s : State) (id : Nat) : Option Copy := s.copies.find? fun c => c.id = id
/-- Replace a copy. -/
def State.setCopy (s : State) (c : Copy) : State := { s with copies := s.copies.map fun k => if k.id = c.id then c else k }

/-- Multicast entries on a byte range of a context, by physical address (11 R261; 16 R351). -/
def State.mcstOn (s : State) (core ctx va n : Nat) : Bool :=
  if !(s.stores.any (·.mcst)) then false
  else (List.range ((va + n - 1) / 2 ^ 16 - va / 2 ^ 16 + 1)).any fun i =>
    let lo := max va ((va / 2 ^ 16 + i) * 2 ^ 16)
    let hi := min (va + n) ((va / 2 ^ 16 + i + 1) * 2 ^ 16)
    match s.engXlat core ctx lo .load with
    | .ok t => s.hitsMcst t.pa (hi - lo)
    | .error _ => false

/-- An access of the copy's context that passed its check before the COPY's entries stood in the table touches bytes of a
hull: it is performed before the copy's first access (10 R243). -/
def State.accessBefore (s : State) (c : Copy) : Bool :=
  let on := fun va => c.locks.any fun e => overlap va 1 e.2.1 e.2.2
  (s.stores.any fun p => decide (p.ctx = c.ctx) && decide (p.id < c.id) && p.bytes.any fun b => on b.1) ||
  s.loads.any fun o => o.pending && decide (o.ctx = c.ctx) && decide (o.id < c.id) && o.addrs.any fun a => on a.1 && !isScratch a.2

/-- COPY_START (16 R335, R336; 10 R240, R243): in issue order, at most eight at once, once the accesses before the COPY are
performed and no multicast entry overlaps a hull. Where there are such entries the hulls are translated to compare them. -/
def execCopyStart (id : Nat) (s : State) : Host.Outcome State Fault Refusal :=
  .next (match s.copy? id with
    | none => s
    | some c =>
      let mine := s.engineCopies c.core
      let ready := !c.started && (mine.all fun k => k.started || decide (c.id ≤ k.id)) &&
        decide ((s.goers c.core).length < 8) &&
        !(s.stores.any fun p => decide (coreOf p.w = c.core) && decide (p.id < c.id)) &&
        !(s.loads.any fun o => o.pending && decide (coreOf o.w = c.core) && decide (o.id < c.id)) &&
        !s.accessBefore c && !(c.locks.any fun e => s.mcstOn c.core c.ctx e.2.1 e.2.2)
      let s := if s.stores.any (·.mcst) then s.engWalks c.core c.ctx (pageStarts (c.locks.map (·.2))) else s
      if ready then s.setCopy { c with started := true } else s)

/-- What the next byte of a copy comes to. -/
inductive Moved where
  /-- it waits for an empty source line, or has nothing to move -/
  | wait
  /-- it meets a fault: code, cause, virtual address -/
  | fault (code cause va : Nat)
  /-- it is read or written: the state, and the copy after it -/
  | ok (s : State) (c : Copy)

/-- A data error meets an engine's read: the link of a host region or of a peer window is down (21 R417). -/
def State.deadRead (s : State) (pa : Nat) : Bool :=
  s.peerDead (s.peerAt pa) || match hostPort (regionOf pa) with | some p => !s.portUp p | none => false

/-- Bits of the j-th element of the current unit among the bytes read; 0 out of bounds (16 R329). -/
def Copy.elemIn (c : Copy) (j : Nat) : Nat :=
  let co := c.unitCoords j
  if !c.inBounds co then 0
  else
    let rs := c.reads.zip c.got
    let bs := (c.elemBytes co).map fun va => ((rs.find? fun e => e.1 = .global va).map (·.2)).getD 0
    leNat bs / 2 ^ (c.elemAt co).2.1 % 2 ^ elemBits (recElem c.record)

/-- FP8 elements as MXINT8 codes with their scale (16 R338). -/
def alignBlock (elem : Nat) (es : List Nat) : List Nat × Nat :=
  let vs := es.map (Val.ofBits (if elem = 6 then e4m3 else e5m2))
  let code := mxScale 0 vs
  (vs.map (mxQuant 0 0 code), code)

/-- The elements of the current unit as they are written, and the scale of an aligned block. -/
def Copy.unitVals (c : Copy) : List Nat × Nat :=
  let es := (List.range c.unitElems).map c.elemIn
  if c.aligns then alignBlock (recElem c.record) es else (es, 0)

/-- What the current unit writes on a dense side (16 R329, R332, R338): its bytes, then the scale of an aligned block. -/
def Copy.densePuts (c : Copy) : List CopyPut :=
  let u := c.unitVals
  let v := (u.1.zipIdx).foldl (fun n e => n + e.1 * 2 ^ (c.denseBits * e.2)) 0
  let at' := fun i => if c.dir = 0 then CopyPlace.scratch i else .global i
  ((leBytes c.unitBytes v).zipIdx.map fun e => ⟨at' (c.dense + c.unit * c.unitBytes + e.2), 0xFF, e.1⟩) ++
  (if c.opt = 2 then [⟨.scratch (c.sdense + c.unit), 0xFF, BitVec.ofNat 8 u.2⟩] else [])

/-- What the current block of a steep writes (16 R339): 32 weights of one column, in a whole byte or a nibble each, then their
scale. -/
def Copy.steepPuts (c : Copy) : List CopyPut :=
  let per := recBox c.record 0 / 32
  let j := c.unit % per
  let col := c.col0 + c.unit / per
  let u := c.unitVals
  let row := fun i => 256 * (32 * c.kg0 + 32 * j + i)
  ((u.1.zipIdx).map fun e =>
    if recElem c.record = 5 then
      (⟨.array (row e.2 + col / 2), if col % 2 = 0 then 0x0F else 0xF0, BitVec.ofNat 8 (e.1 * 2 ^ (4 * (col % 2)))⟩ : CopyPut)
    else ⟨.array (row e.2 + col), 0xFF, BitVec.ofNat 8 e.1⟩) ++
  [⟨.scale (c.kg0 + j) col, 0xFF, if c.aligns then BitVec.ofNat 8 u.2 else (c.got.getLast?).getD 0⟩]

/-- The part of an element, placed from bit `bit` of its first byte on, that lies in its i-th byte: its bits, and their
values. -/
def elemPart (width bit v i : Nat) : Byte × Byte :=
  (BitVec.ofNat 8 ((2 ^ width - 1) * 2 ^ bit / 256 ^ i), BitVec.ofNat 8 (v % 2 ^ width * 2 ^ bit / 256 ^ i))

/-- What the current unit writes on the tensor side (16 R329): each byte once, with the bits of its in-bounds elements. -/
def Copy.tensorPuts (c : Copy) : List CopyPut :=
  let v := leNat c.got
  let w := elemBits (recElem c.record)
  let parts := (List.range c.unitElems).flatMap fun j =>
    let co := c.unitCoords j
    if c.inBounds co then (c.elemBytes co).zipIdx.map fun e => (e.1, elemPart w (c.elemAt co).2.1 (v / 2 ^ (w * j)) e.2) else []
  (parts.map (·.1)).eraseDups.map fun va =>
    let mine := (parts.filter fun e => e.1 = va).map (·.2)
    ⟨.global va, mine.foldl (fun m e => m ||| e.1) 0, mine.foldl (fun m e => m ||| e.2) 0⟩

/-- A copy that has read its current unit whole goes on to write it, or, where it writes nothing, to the next unit. -/
def Copy.loaded (c : Copy) : Copy :=
  if c.got.length < c.reads.length then c
  else
    let ps := if c.steep then c.steepPuts else if c.dir = 1 then c.tensorPuts else c.densePuts
    if ps.isEmpty then { c with unit := c.unit + 1, got := [] } else { c with put := ps }

/-- A copy after its next byte is written. -/
def Copy.written (c : Copy) : Copy :=
  if c.put.length ≤ 1 then { c with unit := c.unit + 1, got := [], put := [] } else { c with put := c.put.tail }

/-- The engine reads a byte (10 R227; 16 R336): its value, an empty scratch line, or a fault. A byte of a bank in mash mode,
of whose reads no rule speaks, is a byte of the array, and lines that the bank left empty are waited for as before (DESIGN
CHOICE, log 24). A byte of a peer window leaves as a request for it (21 R420). -/
def State.copyRead (s : State) (T : Team) (c : Copy) (r : CopySrc) : Moved :=
  let got := fun b => ({ c with got := c.got ++ [b] } : Copy).loaded
  match r with
  | .scratch o =>
    match T.scratchAt o 1 with
    | some a => if s.isEmpty a then .wait else .ok s (got (tget 0 s.scratch (scratchKey a)))
    | none => .wait
  | .global va =>
    match s.engXlat c.core c.ctx va .load with
    | .error (code, cause) => .fault code cause va
    | .ok m =>
      if s.deadRead m.pa then .fault 23 0 va
      else .ok (((s.walkFor c.core c.ctx va).shareBytes (s.dieOf c.core) [m.pa]).peerSend (s.peerAt m.pa) 1 .read)
        (got (s.openByteAt m.pa))

/-- Bits of a byte replaced. -/
def maskByte (old mask v : Byte) : Byte := (old &&& ~~~mask) ||| (v &&& mask)

/-- Write a byte of scratch by its key, some of its bits. -/
def State.keyPut (s : State) (k : Nat) (mask v : Byte) : State :=
  { s with scratch := tput 0 s.scratch k (maskByte (tget 0 s.scratch k) mask v) }

/-- The line of a scratch offset becomes full where the copy, as it stands after the write, has nothing left to write in it
(09 R214; 16 R336). -/
def State.fillDone (s : State) (a : Nat × Nat × Nat) (c : Copy) (o : Nat) : State :=
  if c.left.any fun r => overlap (o / 128 * 128) 128 r.1 r.2 then s else s.setEmpty a false

/-- The engine writes a byte (10 R227; 16 R336, R339), or meets a fault: translation, or a hung entry (16 R352). -/
def State.copyPut (s : State) (T : Team) (c : Copy) (p : CopyPut) : Moved :=
  let c' := c.written
  match p.place with
  | .scratch o =>
    match T.scratchAt o 1 with
    | some a => .ok ((s.keyPut (scratchKey a) p.mask p.val).fillDone a c' o) c'
    | none => .ok s c'
  | .array i => .ok (s.keyPut (c.core * 2 ^ 23 + (c.bank.getD 0) * 2 ^ 18 + i) p.mask p.val) c'
  | .scale g col =>
    let b := c.bank.getD 0
    .ok (s.setBank c.core b { s.bank c.core b with sw := tput 0x7F (s.bank c.core b).sw (512 * g + col) p.val }) c'
  | .global va =>
    match s.engXlat c.core c.ctx va .store with
    | .error (code, cause) => .fault code cause va
    | .ok m =>
      if s.hitsHung m.pa 1 then .fault 16 4 va
      else .ok (((s.walkFor c.core c.ctx va).performBytes (s.dieOf c.core) [(m.pa, maskByte (s.byteAt m.pa) p.mask p.val)]).peerSend
        (s.peerAt m.pa) 1 (.write (p.val.setWidth 64))) c'

/-- The next byte of a copy. A steep moves only while it executes in its bank. -/
def State.move (s : State) (c : Copy) : Moved :=
  match s.team c.team with
  | none => .wait
  | some T =>
    if c.units ≤ c.unit || !s.atHead c then .wait
    else match c.put with
      | p :: _ => s.copyPut T c p
      | [] => match c.nextRead with
        | some r => s.copyRead T c r
        | none => .ok s c.loaded

/-- Move the next byte of a copy, where it can move. -/
def State.advance (s : State) (c : Copy) : State :=
  match s.move c with
  | .ok s' c' => s'.setCopy c'
  | _ => s

/-- COPY_WRITE (16 R336): the engine reads or writes the next byte of a copy. -/
def execCopyWrite (id : Nat) (s : State) : Host.Outcome State Fault Refusal :=
  .next (match s.copy? id with
    | some c => if s.moving c && c.bank.isNone then s.advance c else s
    | none => s)

/-- STEEP_EXECUTE (14 R309; 16 R339): the steep at the head of a bank's queue reads or writes its next byte, and leaves the
queue with the last. -/
def execSteepExecute (core bank : Nat) (s : State) : Host.Outcome State Fault Refusal :=
  .next (match (s.bank core bank).ops with
    | o :: rest =>
      match o.kind with
      | .steep id =>
        match s.copy? id with
        | some c =>
          if s.moving c then
            let s' := s.advance c
            let done := match s'.copy? id with | some c' => decide (c'.units ≤ c'.unit) | none => false
            if done then s'.setBank core bank { s'.bank core bank with ops := rest } else s'
          else s
        | none => s
      | _ => s
    | [] => s)

/-- COPY_COMPLETE (16 R336). -/
def execCopyComplete (id : Nat) (s : State) : Host.Outcome State Fault Refusal :=
  .next (match s.copy? id with
    | some c =>
      if c.started && decide (c.unit = c.units) then
        let s := { s with copies := s.copies.filter fun k => decide (k.id ≠ id) }
        match c.ring, s.team c.team with
        | some (q, i), some T =>
          match T.ring q with
          | some r => s.setRing c.team q ((r.setSlot i { r.slot i with res := (r.slot i).res - 1 }).arrive i)
          | none => s
        | _, _ => s
      else s
    | none => s)

/-- A free park slot of an engine: its choice, or the first free one after it (16 R352). -/
def State.freePark (s : State) (core : Nat) : Option Nat :=
  let used := fun i => (s.engineCopies core).any fun c => c.park = some i
  ((List.range 16).map fun i => ((Config.parkSlot s.free).toNat + i) % 16).find? fun i => !used i

/-- The record of a parked copy (19 R401). That it also names the warp, the lane, the team slot, the PC and the words of the
COPY, which R401 neither lists nor excludes, is the model's (DESIGN CHOICE, log 20). -/
def State.parkRecord (s : State) (c : Copy) (slot code cause va : Nat) : EvRec :=
  let T := s.team c.team
  let W := s.warp c.w
  { EvRec.zero with
    kind := 5, code := code, cause := cause, ctx := c.ctx, lnum := (T.map (·.lnum)).getD 0, team := (T.map (·.idx)).getD 0,
    warp := (W.map (·.index)).getD 0, lane := c.lane, core := c.core, tslot := (T.map fun T => T.slotOn c.core).getD 0,
    pc := c.pc.toNat, words := c.words, addr := va, aux0 := slot }

/-- Park a copy and report it; where every park slot is taken it stays, and the engine stands still (16 R352, R354). A
failed translation has made its walk, and the translation unit keeps no entry for it (09 R207, R208). -/
def State.parkCopy (s : State) (c : Copy) (code cause va : Nat) : State :=
  let s := if code = 14 then s.dropLeaf c.core c.ctx va cause else s
  match s.freePark c.core with
  | some i => (s.setCopy { c with park := some i, stalled := false }).notify (s.parkRecord c i code cause va)
  | none =>
    if c.stalled then s
    else
      let r := tget CoreRegs.zero s.cores c.core
      { s.setCopy { c with stalled := true } with
        cores := tput CoreRegs.zero s.cores c.core { r with stallEvents := r.stallEvents + 1 } }

/-- The address at which a copy that meets an uncorrectable error in the data it reads stops: that of the byte it reads
next, a scratch byte by its offset (16 R352; 19 R389, R401). -/
def Copy.readAddr (c : Copy) : Option Nat := (c.nextRead).map fun r => match r with | .global va => va | .scratch o => o

/-- COPY_PARK (16 R352): the next byte of a copy meets a fault, or an uncorrectable error in the data it reads. -/
def execCopyPark (id : Nat) (err : Bool) (s : State) : Host.Outcome State Fault Refusal :=
  .next (match s.copy? id with
    | some c =>
      let goes := s.moving c || (c.stalled && !((s.engineCopies c.core).any fun k => k.stalled && decide (k.id ≠ id)))
      if goes && decide (c.unit < c.units) then
        match s.move c with
        | .fault code cause va => s.parkCopy c code cause va
        | .ok _ _ =>
          match c.readAddr with
          | some va => if err then s.parkCopy c 23 0 va else s
          | none => s
        | .wait => s
      else s
    | none => s)

/-- Resume the copy in a park slot; copies that stood still for want of one go on (16 R353, R354). It moves again after the
copies that its engine moves now, so that at most eight move at once (16 R336). -/
def State.resumeCopy (s : State) (core slot : Nat) : State :=
  match (s.engineCopies core).find? fun c => c.park = some slot with
  | some c =>
    let rest := (s.copies.filter fun k => decide (k.id ≠ c.id)) ++ [{ c with park := none }]
    { s with copies := rest.map fun k => if k.core = core then { k with stalled := false } else k }
  | none => s

/-- COPY_RESUME (16 R353). -/
def execCopyResume (core slot : Nat) (s : State) : Host.Outcome State Fault Refusal := .next (s.resumeCopy core slot)

end Sys2Proof.Machine
end

