-- ==== Sys2Proof/Machine/Strike.lean ====
section
/-! DEFINITION. Strikes of a context and of one launch (19 R397 to R400). A strike begins in one step, which ends its teams
(step 2 of R398), and completes in another, STRIKE_COMPLETE, which does the rest in order. -/

namespace Sys2Proof.Machine

/-- The teams a strike ends, with their keys. -/
def State.struckTeams (s : State) (k : Strike) : List (Nat × Team) :=
  s.teams.filterMap fun e => match e.2 with
    | some T => if T.ctx = k.ctx ∧ (k.launch = none ∨ k.launch = some T.launch) then some (e.1, T) else none
    | none => none

/-- Step 2 of R398 for one warp: no path issues again, its monitors are disarmed and its prompt cancelled. -/
def Warp.end (W : Warp) : Warp := { W with paths := [], running := none, mon := [], prompt := none }

/-- Step 4 of R398 at the start of a strike: only the executing operation of each bank stays. -/
def State.keepExecuting (s : State) (core : Nat) (bs : List Nat) : State :=
  bs.foldl (fun s b => s.setBank core b { s.bank core b with ops := (s.bank core b).ops.take 1 }) s

/-- Step 2 of R398 for one team: it never starts, its warps issue nothing, its waiting cast commands leave the queue, its
loads are discarded on return, and its queries are dropped. -/
def State.endTeam (s : State) (t : Nat) (T : Team) : State :=
  let mine := fun w => T.slots.contains w
  let s := s.setTeam t { T with started := true }
  let s := T.slots.foldl (fun s w => s.modWarp w Warp.end) s
  let s := { s with
    prompts := s.prompts.filter fun p => !mine p.w
    casts := s.casts.foldl (fun (t : Table (List CastCmd)) (e : Nat × List CastCmd) => tput [] t e.1 (e.2.filter fun c => c.started || !mine c.w)) s.casts
    loads := (s.loads.filter fun (o : Outst) => !(mine o.w && (decide (o.kind ≠ OutKind.load) || o.failed))).map fun (o : Outst) =>
      if mine o.w then { o with nreg := 0 } else o }
  let s := s.keepExecuting T.place.core T.place.banks0
  if T.place.pair then s.keepExecuting (T.place.core + 1) T.place.banks1 else s

/-- Begin a strike: its teams end. -/
def State.beginStrike (s : State) (k : Strike) : State :=
  let s := { s with strikes := s.strikes ++ [k] }
  (s.struckTeams k).foldl (fun s e => s.endTeam e.1 e.2) s

/-- Strike a context (19 R398): steps 1 and 2. A context that is being struck is not struck anew. -/
def State.strikeContext (s : State) (ctx cause : Nat) : State :=
  if (s.ctx ctx).busy then s
  else (s.modCtx ctx fun c => { c with stopped := true, busy := true, timer := none }).beginStrike ⟨ctx, none, 0, cause⟩

/-- Strike a launch that the store holds, by its key (19 R399). -/
def State.strikeKey (s : State) (key : Nat) : State :=
  match s.launches.find? fun L => L.key = key with
  | some L => if s.struck L.ctx key then s else s.beginStrike ⟨L.ctx, some key, L.lnum, 3⟩
  | none => s

/-- Strike the launch of a context with a number, where the store holds it (19 R399): the earliest accepted. -/
def State.strikeLaunch (s : State) (ctx lnum : Nat) : State :=
  match s.launches.find? fun L => decide (L.ctx = ctx) && decide (L.lnum = lnum) with
  | some L => s.strikeKey L.key
  | none => s

/-- What step 2 of R398 leaves to finish has finished: the teams' stores are performed, their started cast commands have
stopped, and no operation but a steep is executing in their banks. -/
def State.strikeReady (s : State) (k : Strike) : Bool :=
  (s.struckTeams k).all fun e =>
    let T := e.2
    let still := fun core bs => bs.all fun b => match (s.bank core b).ops with
      | o :: _ => (match o.kind with | .steep _ => true | _ => false)
      | [] => true
    !(s.stores.any fun p => T.slots.contains p.w) && !(s.casts.any fun c => c.2.any fun d => T.slots.contains d.w) &&
    still T.place.core T.place.banks0 && still (T.place.core + 1) T.place.banks1

/-- The copy stands at a 128-byte boundary of its dense side, with nothing of a unit moved. -/
def Copy.atBoundary (c : Copy) : Bool :=
  decide ((c.dense + c.unit * c.unitBytes) % 128 = 0) && c.got.isEmpty && c.put.isEmpty

/-- Let a copy run to its next 128-byte boundary, or as far as it can go (19 R398 step 3), in at most `fuel` bytes read and
written. -/
def State.runToBoundary : Nat → State → Nat → State
  | 0, s, _ => s
  | n + 1, s, id =>
    match s.copy? id with
    | none => s
    | some c =>
      if c.atBoundary || !s.moving c || c.bank.isSome then s
      else match s.move c with
        | .ok s' c' => State.runToBoundary n (s'.setCopy c') id
        | _ => s

/-- Bytes that a copy reads and writes in 128 bytes of its dense side, at most: a nibble of the dense side may take a byte of
the tensor side, and a block of 32 bytes has a scale. -/
def runFuel : Nat := 1024

/-- The copies of a team stop and leave the engine (19 R398 step 3). -/
def State.stopCopies (s : State) (t : Nat) : State :=
  let s := ((s.copies.filter fun c => decide (c.team = t)).map (·.id)).foldl (fun s id => State.runToBoundary runFuel s id) s
  let cores := (s.copies.filter fun c => decide (c.team = t) && c.park.isSome).map (·.core)
  { s with copies := (s.copies.filter fun c => decide (c.team ≠ t)).map fun (c : Copy) =>
      if cores.contains c.core then { c with stalled := false } else c }

/-- Every bank operation of a team is gone (19 R398 step 4). -/
def State.emptyQueues (s : State) (core : Nat) (bs : List Nat) : State :=
  bs.foldl (fun s b => s.setBank core b { s.bank core b with ops := [] }) s

/-- Steps 3 and 4 of R398 for one team. -/
def State.dropTeam (s : State) (t : Nat) (T : Team) : State :=
  let s := (s.stopCopies t).emptyQueues T.place.core T.place.banks0
  let s := if T.place.pair then s.emptyQueues (T.place.core + 1) T.place.banks1 else s
  s.freeTeam t T

/-- The entries of a context leave every translation unit and every L1 (19 R398 step 6; 09 R210). -/
def State.purge (s : State) (ctx : Nat) : State :=
  { s with tlb := s.tlb.filter fun e => decide (e.ctx ≠ ctx), l1 := s.l1.filter fun e => decide (e.ctx ≠ ctx) }

/-- Steps 3 to 7 of R398, or for a launch what R399 takes of them. -/
def State.finishStrike (s : State) (k : Strike) : State :=
  let s := (s.struckTeams k).foldl (fun s e => s.dropTeam e.1 e.2) s
  let s := { s with strikes := s.strikes.filter fun j => j ≠ k }
  let s := s.checkDrain k.ctx
  let s := (s.launches.filter fun L => decide (L.ctx = k.ctx) && decide (k.launch = none ∨ k.launch = some L.key)).foldl
    (fun s L => s.completeLaunch L 2) s
  let rec' := { EvRec.zero with kind := 7, cause := k.cause, ctx := k.ctx, lnum := k.lnum }
  match k.launch with
  | some _ => s.notify rec'
  | none => ((s.purge k.ctx).notify rec').modCtx k.ctx fun c => { c with busy := false }

/-- CONTEXT_STRIKE (19 R398). -/
def execContextStrike (ctx : Nat) (s : State) : Host.Outcome State Fault Refusal := .next (s.strikeContext ctx 1)

/-- DEADLINE_EXPIRY (19 R397): the drain timer, on die 0's clock, has run out. -/
def execDeadlineExpiry (ctx : Nat) (s : State) : Host.Outcome State Fault Refusal :=
  .next (match (s.ctx ctx).timer with
    | some t => if (s.ctx ctx).draining && decide (t ≤ tget 0 s.clock 0) then s.strikeContext ctx 2 else s
    | none => s)

/-- STRIKE_COMPLETE (19 R398, R399): the n-th strike under way ends. -/
def execStrikeComplete (n : Nat) (s : State) : Host.Outcome State Fault Refusal :=
  .next (match s.strikes[n]? with
    | some k => if s.strikeReady k then s.finishStrike k else s
    | none => s)

/-- LAUNCH_STRIKE (19 R399): LSGO strikes the launch that LSNUM names. -/
def execLaunchStrike (ctx : Nat) (s : State) : Host.Outcome State Fault Refusal :=
  .next (s.strikeLaunch ctx (s.ctx ctx).lsnum.toNat)

/-- TEAMCTL OP 3 (19 R390, R399): the core notes the launch it strikes. -/
def State.ctlStrike (s : State) (core slot : Nat) : State :=
  match s.ctlTeam core slot with
  | some (_, T) =>
    let s := s.strikeKey T.launch
    { s with cores := tput CoreRegs.zero s.cores core { tget CoreRegs.zero s.cores core with tstrike := some T.launch } }
  | none => s

/-- TEAM_LAUNCH_STRIKE (19 R399). -/
def execTeamLaunchStrike (core slot : Nat) (s : State) : Host.Outcome State Fault Refusal := .next (s.ctlStrike core slot)

end Sys2Proof.Machine
end

