-- ==== Sys2Proof/Machine/Registers.lean ====
section
/-! DEFINITION. The register map (21 R414, R415) and what a read and a write of each register does: launch windows (07
R180), semaphores (21 R418), MEMSPLIT (09 R204), CUEREL (12 R283), PORTSTAT (21 R416), peer windows (21 R419), contexts
(09 R209, R210), run control (19 R386), TARENA (12 R274), the core blocks (16 R353, R354; 19 R388, R390; 22 R421), policies
(22 R425), attestation (22 R428) and power (22 R429). -/

namespace Sys2Proof.Machine

/-! ## The hold image (19 R388) -/

/-- A number of a flag. -/
def bitN (b : Bool) (k : Nat) : Nat := if b then 2 ^ k else 0

/-- The four words of a path's image, as one number. A path blocked at RACQ or RWAIT is past its scene end. -/
def State.pathImage (s : State) (T : Team) (W : Warp) (P : Path) : Nat :=
  let inside := P.scene.isSome && P.block.isNone && decide (W.running ≠ some (lowest P.lanes))
  let words := if P.block.isSome then 0 else match P.scene with | some c => c.words | none => 0
  let fault : Nat × Nat := match P.stop with | some k => (k.code, k.cause) | none => (0, 0)
  P.pc.toNat + words % 32 * 2 ^ 56 + bitN inside 61 + bitN (s.waiting T W P) 62 + 2 ^ 63 + P.lanes.toNat * 2 ^ 64 +
  P.done.toNat * 2 ^ 128 + P.skid % 32 * 2 ^ 192 + fault.1 % 256 * 2 ^ 200 + fault.2 % 256 * 2 ^ 208 + P.age % 32 * 2 ^ 216

/-- HOLDPATH of a core, as one number. -/
def State.holdPath (s : State) (core : Nat) : Nat :=
  let sel := (tget CoreRegs.zero s.cores core).hsel.toNat
  let path := sel / 2 ^ 11
  match s.teamAt core (sel % 2 ^ 4) with
  | none => 0
  | some t =>
    match s.team t with
    | none => 0
    | some T =>
      match T.hold, T.slots[sel / 2 ^ 4 % 2 ^ 7]? with
      | some _, some w =>
        if coreOf w ≠ core then 0
        else match s.warp w with
          | none => 0
          | some W =>
            if path < 64 then (match W.paths[path]? with | some P => s.pathImage T W P | none => 0)
            else if path < 72 then (W.join (path - 64)).en.toNat + (W.join (path - 64)).ar.toNat * 2 ^ 64
            else 0
      | _, _ => 0

/-! ## Reading -/

/-- WSTAT (07 R180). -/
def Window.status (w : Window) : Nat :=
  w.lnum.toNat + bitN w.busy 32 + bitN w.acc 33 + bitN w.refused 34 + bitN w.bad 35 + w.why.toNat * 2 ^ 36

/-- A release by CUEREL is under way (12 R283). -/
def State.releasing (s : State) : Bool := s.handles.any fun h => match h.2 with | .hung _ _ _ r => r | _ => false

/-- PORTSTAT (21 R416). -/
def State.portStat (s : State) : Nat :=
  let p := tget Port.zero s.ports 0
  let q := tget Port.zero s.ports 1
  bitN p.up 0 + bitN q.up 1 + bitN p.f256 2 + bitN q.f256 3 + p.lanes.toNat * 2 ^ 4 + q.lanes.toNat * 2 ^ 9

/-- PEERWINp (21 R419). -/
def PeerWin.value (w : PeerWin) : Nat := bitN w.en 0 + bitN w.port 1 + w.size.toNat * 2 ^ 2 + w.fbase.toNat * 2 ^ 16

/-- A context's register at an offset (09 R209); CXINV as it stands, although it reads 0. -/
def Ctx.cxValue (c : Ctx) (o : Nat) : Nat :=
  match o / 8 with
  | 0 => bitN c.en 0 + c.root.toNat * 2 ^ 13
  | 1 => c.pbase.toNat * 2 ^ 45
  | 2 => c.phw0.toNat
  | 3 => c.rstride.toNat * 2 ^ 21
  | 4 => c.iscope.toNat + c.iva.toNat * 2 ^ 16
  | 5 => bitN c.ibusy 0
  | _ => 0

/-- A run-control register at an offset (19 R386). -/
def Ctx.runValue (c : Ctx) (o : Nat) : Nat :=
  match o / 8 with
  | 0 => c.log2n.toNat + c.rbase.toNat * 2 ^ 12
  | 1 => c.pprod.toNat + bitN c.lost 32
  | 2 => c.pcons.toNat
  | 3 => c.prval.toNat
  | 4 => bitN c.miss 17
  | 5 => bitN c.stopped 2 + bitN c.draining 3 + bitN c.busy 4 + bitN c.asserted 5 + c.deadline.toNat * 2 ^ 8
  | 6 => c.lsnum.toNat
  | _ => 0

/-- CPRESUME.PARKED (16 R353). -/
def State.parkedMask (s : State) (core : Nat) : Nat :=
  ((List.range 16).filter fun i => (s.engineCopies core).any fun c => c.park = some i).foldl (fun n i => n + 2 ^ i) 0

/-- TEAMCTL.BUSY (19 R390): the strike that the core's last OP 3 asked for has not ended. -/
def State.ctlBusy (s : State) (core : Nat) : Bool :=
  match (tget CoreRegs.zero s.cores core).tstrike with
  | some key => s.strikes.any fun k => decide (k.launch = some key)
  | none => false

/-- A register of a core's block at an offset (16 R353, R354; 19 R388, R390; 22 R421). -/
def State.coreValue (s : State) (core o : Nat) : Nat :=
  let r := tget CoreRegs.zero s.cores core
  let p := physCore s.dcmap core
  let w := tget Wear.zero s.wear p
  if coreCount s.dcmap ≤ core then 0
  else match o / 8 with
    | 0 => r.cprSlot.toNat + s.parkedMask core * 2 ^ 5
    | 1 => r.stallCycles.toNat + r.stallEvents.toNat * 2 ^ 40
    | 2 => r.hsel.toNat
    | 3 => r.tslot.toNat + r.top.toNat * 2 ^ 4 + bitN (s.ctlBusy core) 7 + r.twarp.toNat * 2 ^ 8 + bitN r.tnew 15 + r.tphw.toNat * 2 ^ 16
    | 4 => s.holdPath core % 2 ^ 64
    | 5 => s.holdPath core / 2 ^ 64 % 2 ^ 64
    | 6 => s.holdPath core / 2 ^ 128 % 2 ^ 64
    | 7 => s.holdPath core / 2 ^ 192 % 2 ^ 64
    | 16 => w.margin.toNat + w.gband.toNat * 2 ^ 10 + bitN w.worn 16
    | 17 => r.eolh.toNat
    | 18 => p
    | _ => 0

/-- 64 bits of a wide value from byte o. -/
def wideWord {w : Nat} (v : BitVec w) (o : Nat) : Nat := v.toNat / 2 ^ (8 * o) % 2 ^ 64

/-- Deconfigured pairs (22 R425). -/
def State.dpairs (s : State) : Nat := 256 - coreCount s.dcmap / 2

/-- The hottest die junction (22 R429). -/
def State.tmax (s : State) : Nat := (List.range Config.dies).foldl (fun m d => max m (tget 0 s.temps d).toNat) 0

/-- A platform register (22 R425, R428, R429). -/
def State.platformValue (s : State) (off : Nat) : Nat :=
  if off = 0x40000 then coreCount s.dcmap + s.dpairs * 2 ^ 10
  else if 0x40020 ≤ off ∧ off < 0x40040 then wideWord s.dcmap (off - 0x40020)
  else if off = 0x40040 then s.lastseq.toNat
  else if 0x40100 ≤ off ∧ off < 0x402C0 then wideWord s.policy (off - 0x40100)
  else if off = 0x40500 then bitN s.armed.isSome 1 + bitN s.polBad 2
  else if off = 0x40620 then bitN s.attBusy 1
  else if off = 0x40700 then s.watts.toNat + s.tmax * 2 ^ 16 + bitN s.thr 24
  else if 0x40800 ≤ off ∧ off < 0x40A00 then wideWord s.report (off - 0x40800)
  else if 0x41000 ≤ off ∧ off < 0x42000 then
    (Config.idcert ((off - 0x41000) / 4)).toNat + (Config.idcert ((off - 0x41000) / 4 + 1)).toNat * 2 ^ 32
  else 0

/-- The 64-bit register at an offset, a multiple of 8, as it stands: what a read returns but for semaphores and CXINV. -/
def State.regValue (s : State) (off : Nat) : Nat :=
  if off < 0x4000 then
    let W := s.window (decide (0x2000 ≤ off)) (off % 0x2000 / 128)
    let o := off % 128
    if o < 0x40 then wideWord W.record o
    else if o = 0x40 then W.ctx.toNat
    else if o = 0x48 then W.status
    else 0
  else if off < 0x4100 then (tget 0 s.sems ((off - 0x4000) / 8)).toNat * 2
  else if off = 0x4100 then s.ipool.toNat
  else if off = 0x4108 then s.relMask.toNat + s.relCtx.toNat * 2 ^ 16 + bitN s.releasing 23
  else if off = 0x4110 then s.portStat
  else if 0x4140 ≤ off ∧ off < 0x4180 then (tget PeerWin.zero s.peers ((off - 0x4140) / 8)).value
  else if 0x10000 ≤ off ∧ off < 0x11000 then (s.ctx ((off - 0x10000) / 64)).cxValue (off % 64)
  else if 0x11000 ≤ off ∧ off < 0x12000 then (s.ctx ((off - 0x11000) / 64)).runValue (off % 64)
  else if 0x12000 ≤ off ∧ off < 0x12800 then (if off % 256 = 0 then (tget 0 s.slabs ((off - 0x12000) / 256)).toNat else 0)
  else if 0x20000 ≤ off ∧ off < 0x40000 then s.coreValue ((off - 0x20000) / 256) (off % 256)
  else s.platformValue off

/-- A read of SEMn by an agent, 1 port 0, 2 port 1, 3 the device (21 R418): the state after, and the value. -/
def State.semRead (s : State) (agent : BitVec 2) (n : Nat) : State × Nat :=
  let o := tget 0 s.sems n
  let o' := if o = 0 then agent else o
  ({ s with sems := tput 0 s.sems n o' }, bitN (o' = agent) 0 + o'.toNat * 2)

/-- A read of the register map at an aligned offset (21 R415): 64 bits, or the 32 bits of a half. A read of the half that
holds GOT and OWNER is the read of a semaphore. -/
def State.regRead (s : State) (agent : BitVec 2) (off : Nat) (wide : Bool) : State × Nat :=
  let half := fun v => if wide then v else v / 2 ^ (8 * (off % 8)) % 2 ^ 32
  let base := off / 8 * 8
  if 0x4000 ≤ base ∧ base < 0x4100 then
    (if off % 8 = 0 then s.semRead agent ((base - 0x4000) / 8) else (s, 0))
  else if 0x10000 ≤ base ∧ base < 0x11000 ∧ base % 64 = 0x20 then (s, 0)
  else (s, half (s.regValue base))

/-! ## Writing -/

/-- The value a write would leave: the halves written replace those of the register. -/
def mergeHalves (old v : Nat) (lo hi : Bool) : Nat :=
  (if lo then v % 2 ^ 32 else old % 2 ^ 32) + (if hi then v / 2 ^ 32 % 2 ^ 32 else old / 2 ^ 32 % 2 ^ 32) * 2 ^ 32

/-- `len` bits of a number from bit `lo`. -/
def bitsOf (v lo len : Nat) : Nat := v / 2 ^ lo % 2 ^ len

/-- A wide value with the 64 bits from byte o replaced. -/
def putWord {w : Nat} (r : BitVec w) (o v : Nat) : BitVec w :=
  (r &&& ~~~(BitVec.ofNat w ((2 ^ 64 - 1) * 2 ^ (8 * o)))) ||| BitVec.ofNat w (v % 2 ^ 64 * 2 ^ (8 * o))

/-- A write of a launch window's registers (07 R180, R181). -/
def State.writeWindow (s : State) (port : Bool) (win o v : Nat) (lo hi : Bool) : State :=
  let W := s.window port win
  if o < 0x40 then s.setWindow port win { W with record := putWord W.record o (mergeHalves (wideWord W.record o) v lo hi) }
  else if o = 0x40 then
    if lo then
      let s := s.setWindow port win { W with ctx := BitVec.ofNat 6 v }
      if v.testBit 6 then s.windowGo port win else s
    else s
  else if o = 0x48 then
    if hi then s.setWindow port win { W with refused := W.refused && !v.testBit 34, bad := W.bad && !v.testBit 35 } else s
  else s

/-- A write of SEMn (21 R418): the half that holds OWNER and BREAK. -/
def State.semWrite (s : State) (agent : BitVec 2) (n : Nat) (brk : Bool) : State :=
  if tget 0 s.sems n = agent || brk then { s with sems := tput 0 s.sems n 0 } else s

/-- GiB a hub's tables take, rounded to slabs of 128 MiB, fit a near pool of `96 - ipool` GiB (12 R274; 09 R204). -/
def arenaFits (slabs ipool : Nat) : Bool := decide (slabs * 2 ^ 27 ≤ (96 - ipool) * 2 ^ 30)

/-- A write that leaves IPOOL (09 R204). -/
def State.writeMemsplit (s : State) (ipool : Nat) : State :=
  if s.everEn || decide (96 < ipool) || !((List.range 8).all fun h => arenaFits (tget 0 s.slabs h).toNat ipool) then s
  else s.setSplit (BitVec.ofNat 7 ipool)

/-- A write that leaves SLABS in a hub's TARENA (12 R274). -/
def State.writeTarena (s : State) (hub slabs : Nat) : State :=
  if s.everEn || decide (32 < slabs) || !arenaFits slabs s.ipoolGiB then s
  else { s with slabs := tput 0 s.slabs hub (BitVec.ofNat 6 slabs) }

/-- A write that would leave v in PEERWINp (21 R419). -/
def State.writePeerwin (s : State) (p v : Nat) : State :=
  let size := bitsOf v 2 6
  if size < 16 ∨ 48 < size ∨ bitsOf v 16 (size - 16) ≠ 0 then s
  else { s with peers := tput PeerWin.zero s.peers p ⟨v.testBit 0, v.testBit 1, BitVec.ofNat 6 size, BitVec.ofNat 48 (v / 2 ^ 16)⟩ }

/-- The context has a resident team or a launch in the store (09 R209). -/
def State.ctxUsed (s : State) (n : Nat) : Bool := s.resident n || s.launches.any fun L => decide (L.ctx = n)

/-- A write that would leave v in CXROOT, CXPRIV, CXPHW or CXREP (09 R209). -/
def State.writeCx (s : State) (n reg v : Nat) : State :=
  if s.ctxUsed n then s
  else match reg with
    | 0 =>
      { s.modCtx n fun c => { c with en := v.testBit 0, root := BitVec.ofNat 39 (v / 2 ^ 13) } with
        everEn := s.everEn || v.testBit 0 }
    | 1 => s.modCtx n fun c => { c with pbase := BitVec.ofNat 11 (v / 2 ^ 45) }
    | 2 => s.modCtx n fun c => { c with phw0 := BitVec.ofNat 15 v }
    | _ => s.modCtx n fun c => { c with rstride := BitVec.ofNat 31 (v / 2 ^ 21) }

/-- A write of CXINV that would leave v (09 R210): one with the low half starts an invalidation, unless ISCOPE is 3. -/
def State.writeCxinv (s : State) (n v : Nat) (lo : Bool) : State :=
  if (s.ctx n).ibusy then s
  else s.modCtx n fun c => { c with
    iscope := BitVec.ofNat 2 v, iva := BitVec.ofNat 40 (v / 2 ^ 16), ibusy := lo && decide (v % 4 ≠ 3) }

/-- RUNCTL.OP (19 R386). -/
def State.runOp (s : State) (n op : Nat) : State :=
  match op with
  | 1 => s.preempt n
  | 2 => s.resumeCtx n
  | 3 => s.strikeContext n 1
  | _ => s

/-- A write of a run-control register (19 R386, R394 to R399). -/
def State.writeRun (s : State) (n o v : Nat) (lo hi : Bool) : State :=
  let m := mergeHalves ((s.ctx n).runValue o) v lo hi
  match o / 8 with
  | 0 => s.writePring n (BitVec.ofNat 64 m)
  | 1 => if hi && v.testBit 32 then s.modCtx n fun c => { c with lost := false } else s
  | 2 => if lo then s.writePcons n (BitVec.ofNat 32 v) else s
  | 3 => s.modCtx n fun c => { c with prval := BitVec.ofNat 64 m }
  | 4 =>
    if lo then
      let s := s.modCtx n fun c => { c with ptag := BitVec.ofNat 16 v, miss := c.miss && !v.testBit 17 }
      if v.testBit 16 then s.replyPrompt n (v % 2 ^ 16) else s
    else s
  | 5 =>
    if lo then (s.modCtx n fun c => { c with deadline := BitVec.ofNat 24 (v / 2 ^ 8) }).runOp n (v % 4) else s
  | 6 =>
    let s := if lo then s.modCtx n fun c => { c with lsnum := BitVec.ofNat 32 v } else s
    if hi && v.testBit 32 then s.strikeLaunch n (s.ctx n).lsnum.toNat else s
  | _ => s

/-- TEAMCTL's GO (19 R390): NEWHW first, then OP, on the fields as they stand. -/
def State.teamctlGo (s : State) (core : Nat) : State :=
  let r := tget CoreRegs.zero s.cores core
  let slot := r.tslot.toNat
  let s := if r.tnew then s.ctlNewhw core slot r.twarp.toNat r.tphw.toNat else s
  match r.top.toNat with
  | 0 => s.ctlHold core slot
  | 1 => s.ctlResume core slot false
  | 2 => s.ctlResume core slot true
  | _ => s.ctlStrike core slot

/-- Change the registers of a core. -/
def State.modCore (s : State) (core : Nat) (f : CoreRegs → CoreRegs) : State :=
  { s with cores := tput CoreRegs.zero s.cores core (f (tget CoreRegs.zero s.cores core)) }

/-- A write of a core's block (16 R353, R354; 19 R388, R390). -/
def State.writeCore (s : State) (core o v : Nat) (lo hi : Bool) : State :=
  if coreCount s.dcmap ≤ core then s
  else match o / 8 with
    | 0 =>
      if lo then
        let s := s.modCore core fun r => { r with cprSlot := BitVec.ofNat 4 v }
        if v.testBit 4 then s.resumeCopy core (v % 2 ^ 4) else s
      else s
    | 1 => if hi && decide (v / 2 ^ 40 % 2 ^ 24 ≠ 0) then s.modCore core fun r => { r with stallEvents := 0 } else s
    | 2 => if lo then s.modCore core fun r => { r with hsel := BitVec.ofNat 18 v } else s
    | 3 =>
      if lo then
        let s := s.modCore core fun r => { r with
          tslot := BitVec.ofNat 4 v, top := BitVec.ofNat 2 (v / 2 ^ 4), twarp := BitVec.ofNat 7 (v / 2 ^ 8), tnew := v.testBit 15,
          tphw := BitVec.ofNat 15 (v / 2 ^ 16) }
        if v.testBit 6 then s.teamctlGo core else s
      else s
    | _ => s

/-- PMASK of a policy image (22 R424). -/
def polMask (p : BitVec 3584) : BitVec 256 := p.setWidth 256
/-- SEQ of a policy image. -/
def polSeq (p : BitVec 3584) : Word := (p >>> 256).setWidth 32

/-- ARM of the staged policy (22 R425). -/
def State.armPolicy (s : State) : State :=
  let p := s.policy
  let bad := !policySigned p || decide (p.toNat / 2 ^ 288 % 2 ^ 224 ≠ 0) || decide ((polSeq p).toNat ≤ s.lastseq.toNat) ||
    decide (s.dcmap ||| polMask p = BitVec.allOnes 256)
  if bad then { s with polBad := true } else { s with armed := some p, polBad := false }

/-- A write of POLICY (22 R425). -/
def State.writePolicy (s : State) (o v : Nat) (lo hi : Bool) : State :=
  { s with policy := putWord s.policy o (mergeHalves (wideWord s.policy o) v lo hi), armed := none }

/-- Attestation GO (22 R428). -/
def State.attest (s : State) : State := if s.attBusy then s else { s with attBusy := true, attNonce := s.nonce }

/-- A write of a platform register (22 R425, R428). -/
def State.writePlatform (s : State) (off v : Nat) (lo hi : Bool) : State :=
  if 0x40100 ≤ off ∧ off < 0x402C0 then s.writePolicy (off - 0x40100) v lo hi
  else if off = 0x40500 then
    if lo then
      let s := if v.testBit 2 then { s with polBad := false } else s
      if v.testBit 0 then s.armPolicy else s
    else s
  else if 0x40600 ≤ off ∧ off < 0x40620 then
    { s with nonce := putWord s.nonce (off - 0x40600) (mergeHalves (wideWord s.nonce (off - 0x40600)) v lo hi) }
  else if off = 0x40620 then (if lo && v.testBit 0 then s.attest else s)
  else s

/-- A write of the 64-bit register at an offset, a multiple of 8: of its halves `lo` and `hi`, those of v. -/
def State.regWrite64 (s : State) (agent : BitVec 2) (off v : Nat) (lo hi : Bool) : State :=
  let m := mergeHalves (s.regValue off) v lo hi
  if off < 0x4000 then s.writeWindow (decide (0x2000 ≤ off)) (off % 0x2000 / 128) (off % 128) v lo hi
  else if off < 0x4100 then (if lo then s.semWrite agent ((off - 0x4000) / 8) (v.testBit 4) else s)
  else if off = 0x4100 then (if lo then s.writeMemsplit (v % 2 ^ 7) else s)
  else if off = 0x4108 then (if lo then s.writeCuerel (BitVec.ofNat 64 v) else s)
  else if 0x4140 ≤ off ∧ off < 0x4180 then s.writePeerwin ((off - 0x4140) / 8) m
  else if 0x10000 ≤ off ∧ off < 0x11000 then
    let n := (off - 0x10000) / 64
    let o := off % 64
    if o < 0x20 then s.writeCx n (o / 8) m else if o = 0x20 then s.writeCxinv n m lo else s
  else if 0x11000 ≤ off ∧ off < 0x12000 then s.writeRun ((off - 0x11000) / 64) (off % 64) v lo hi
  else if 0x12000 ≤ off ∧ off < 0x12800 then
    (if off % 256 = 0 ∧ lo then s.writeTarena ((off - 0x12000) / 256) (v % 2 ^ 6) else s)
  else if 0x20000 ≤ off ∧ off < 0x40000 then s.writeCore ((off - 0x20000) / 256) (off % 256) v lo hi
  else s.writePlatform off v lo hi

/-- A write of the register map at an aligned offset (21 R415). -/
def State.regWrite (s : State) (agent : BitVec 2) (off : Nat) (wide : Bool) (v : Nat) : State :=
  if wide then s.regWrite64 agent off v true true
  else if off % 8 = 0 then s.regWrite64 agent off v true false
  else s.regWrite64 agent (off - 4) (v % 2 ^ 32 * 2 ^ 32) false true

/-- An agent reaches the registers: the device always, a host over its port while the link is up (21 R412 to R417). -/
def State.reachesRegs (s : State) (agent : BitVec 2) : Bool :=
  match agent.toNat with
  | 1 => s.portUp 0
  | 2 => s.portUp 1
  | 3 => true
  | _ => false

/-- A thread's store to a register fires the monitors on the register's line (11 R271). -/
def State.fireReg (s : State) (agent : BitVec 2) (off : Nat) : State :=
  if agent = 3 then s.fireLine ((2 ^ 49 + off) / 128) else s

/-- REGISTER_WRITE (21 R415): an aligned write of 32 or, by a host, 64 bits. -/
def execRegisterWrite (agent : BitVec 2) (off : BitVec 22) (wide : Bool) (v : BitVec 64) (s : State) :
    Host.Outcome State Fault Refusal :=
  .next (if s.reachesRegs agent && decide (off.toNat % (if wide then 8 else 4) = 0) && !(wide && decide (agent = 3)) then
      (s.regWrite agent off.toNat wide v.toNat).fireReg agent off.toNat
    else s)

/-! ## The rows of registers with behaviour of their own -/

/-- CONTEXT_REGISTER_WRITE (09 R209). -/
def execContextRegisterWrite (ctx : Nat) (reg : BitVec 2) (v : BitVec 64) (s : State) : Host.Outcome State Fault Refusal :=
  .next (s.writeCx ctx reg.toNat v.toNat)
/-- INVALIDATE_PAGE (09 R210). -/
def execInvalidatePage (ctx : Nat) (iva : BitVec 40) (s : State) : Host.Outcome State Fault Refusal :=
  .next (s.writeCxinv ctx (iva.toNat * 2 ^ 16) true)
/-- INVALIDATE_LARGE_PAGE (09 R210). -/
def execInvalidateLargePage (ctx : Nat) (iva : BitVec 40) (s : State) : Host.Outcome State Fault Refusal :=
  .next (s.writeCxinv ctx (iva.toNat * 2 ^ 16 + 1) true)
/-- INVALIDATE_CONTEXT (09 R210). -/
def execInvalidateContext (ctx : Nat) (iva : BitVec 40) (s : State) : Host.Outcome State Fault Refusal :=
  .next (s.writeCxinv ctx (iva.toNat * 2 ^ 16 + 2) true)

/-- A 64 KiB page number lies in the range of an invalidation (09 R210). -/
def invalHit (scope iva page : Nat) : Bool :=
  match scope with
  | 0 => decide (page = iva)
  | 1 => decide (page / 32 = iva / 32)
  | _ => true

/-- An entry of a translation unit covers an address in the range. -/
def TlbEntry.hit (e : TlbEntry) (scope iva : Nat) : Bool :=
  if e.large then (match scope with | 2 => true | _ => decide (e.page / 32 = iva / 32)) else invalHit scope iva e.page

/-- INVALIDATION_COMPLETE (09 R210). A load of the range that was translated before goes past L1. -/
def execInvalidationComplete (ctx : Nat) (s : State) : Host.Outcome State Fault Refusal :=
  .next (let c := s.ctx ctx
    if !c.ibusy then s
    else
      let hit := invalHit c.iscope.toNat c.iva.toNat
      { s.modCtx ctx fun c => { c with ibusy := false } with
        tlb := s.tlb.filter fun e => !(decide (e.ctx = ctx) && e.hit c.iscope.toNat c.iva.toNat)
        l1 := s.l1.filter fun e => !(decide (e.ctx = ctx) && hit (e.vline / 512))
        loads := s.loads.map fun (o : Outst) =>
          if decide (o.ctx = ctx) && decide (o.kind = .load) && o.addrs.any fun a => hit (a.1 / 2 ^ 16) then { o with nc := true } else o })

/-- MEMSPLIT_WRITE (09 R204). -/
def execMemsplitWrite (v : BitVec 64) (s : State) : Host.Outcome State Fault Refusal := .next (s.writeMemsplit (v.toNat % 2 ^ 7))
/-- TARENA_WRITE (12 R274). -/
def execTarenaWrite (hub : Nat) (v : BitVec 64) (s : State) : Host.Outcome State Fault Refusal := .next (s.writeTarena hub (v.toNat % 2 ^ 6))
/-- SEMAPHORE_READ (21 R418): the agent reads SEMn, and is answered. -/
def execSemaphoreRead (agent : BitVec 2) (sem : BitVec 5) (s : State) : Host.Outcome State Fault Refusal :=
  .next (if s.reachesRegs agent then { (s.semRead agent sem.toNat).1 with reply := some ⟨false, (s.semRead agent sem.toNat).2⟩ }
    else s)
/-- SEMAPHORE_WRITE (21 R418): a write without BREAK. -/
def execSemaphoreWrite (agent : BitVec 2) (sem : BitVec 5) (s : State) : Host.Outcome State Fault Refusal :=
  .next (if s.reachesRegs agent then (s.semWrite agent sem.toNat false).fireReg agent (0x4000 + 8 * sem.toNat) else s)
/-- SEMAPHORE_BREAK (21 R418). -/
def execSemaphoreBreak (sem : BitVec 5) (s : State) : Host.Outcome State Fault Refusal := .next (s.semWrite 0 sem.toNat true)
/-- PEERWIN_WRITE (21 R419). -/
def execPeerwinWrite (p : BitVec 3) (v : BitVec 64) (s : State) : Host.Outcome State Fault Refusal := .next (s.writePeerwin p.toNat v.toNat)
/-- POLICY_WRITE (22 R425): 32 bits of the staging area. -/
def execPolicyWrite (off : Nat) (v : BitVec 32) (s : State) : Host.Outcome State Fault Refusal :=
  .next (s.writePolicy (off / 8 * 8) (v.toNat * (1 + 2 ^ 32)) (decide (off % 8 = 0)) (decide (off % 8 ≠ 0)))
/-- POLICY_ARM (22 R425). -/
def execPolicyArm (s : State) : Host.Outcome State Fault Refusal := .next s.armPolicy
/-- ATTESTATION_GO (22 R428). -/
def execAttestationGo (s : State) : Host.Outcome State Fault Refusal := .next s.attest

/-- The first 128 bytes of an attestation report (22 R428). -/
def State.reportBody (s : State) : BitVec 1024 :=
  BitVec.ofNat 1024 (s.attNonce.toNat + leNat firmwareDigest * 2 ^ 256 + s.dcmap.toNat * 2 ^ 512 + s.lastseq.toNat * 2 ^ 768 +
    coreCount s.dcmap * 2 ^ 800)

/-- The signature of a report, by the identity key over the digest of its first 128 bytes, with a salt that is a free value (22
R428). -/
def State.reportSignature (s : State) : List Byte :=
  pssSign Config.identityKey (sha256 (leBytes 128 s.reportBody.toNat)) (beBytes 32 (Config.reportSalt s.free))

/-- REPORT_COMPLETE (22 R428). -/
def execReportComplete (s : State) : Host.Outcome State Fault Refusal :=
  .next (if s.attBusy then
      { s with attBusy := false, report := BitVec.ofNat 4096 (s.reportBody.toNat + leNat s.reportSignature * 2 ^ 1024) }
    else s)

end Sys2Proof.Machine
end

