-- ==== Sys2Proof/Machine/Platform.lean ====
section
/-! DEFINITION. Hosts, links and peer modules (21 R412, R413, R416, R417, R420), wear, throttling and module reset (22 R421,
R422, R426 to R431). -/

namespace Sys2Proof.Machine

/-! ## Host accesses to device memory (21 R413) -/

/-- Bytes of a port's HDM range. -/
def hdmBytes : Nat := 768 * 2 ^ 30

/-- The physical address behind an offset of the HDM range. -/
def State.hdmPa (s : State) (x : Nat) : Nat :=
  let pool := 8 * s.ipoolGiB * 2 ^ 30
  let near := (96 - s.ipoolGiB) * 2 ^ 30
  if x < pool then x else 2 ^ 48 + (x - pool) / near * 2 ^ 40 + (x - pool) % near

/-- Answer an agent outside the module. -/
def State.answer (s : State) (error : Bool) (data : Nat) : State := { s with reply := some ⟨error, data⟩ }

/-- A line as its hub serves a read of it: a die that owns it writes it back and shares it (09 R220, R221; 10 R248). -/
def State.hubShare (s : State) (line : Nat) : State :=
  let e := tget LineDir.zero s.dir line
  match e.owner with
  | some _ => { s.writeBack line with dir := tput LineDir.zero s.dir line ⟨e.sharers, none⟩ }
  | none => s.mscFill line

/-- A host read at the hub, answered with the bytes. -/
def State.hostRead (s : State) (pas : List Nat) : State :=
  ((linesOf pas).foldl State.hubShare s).answer false (leNat (pas.map s.byteAt))

/-- A host write at the hub. One that meets a hung range changes no byte, and its answer carries an error status (12
R280). -/
def State.hostWrite (s : State) (bs : List (Nat × Byte)) : State :=
  if bs.any fun b => s.hitsHung b.1 1 then s.answer true 0 else (s.hubWrite bs).answer false 0

/-- HOST_CXL_MEM_REQUEST (21 R413): a read, or a write of `len` bytes of `data`, by an offset of the port's range. -/
def execHostCxlMemRequest (port : Bool) (off len : Nat) (data : Option Nat) (s : State) : Host.Outcome State Fault Refusal :=
  if hdmBytes < off + len then .fault .hostOutsideHdm
  else if !s.portUp port.toNat then .next s
  else
    let pas := (List.range len).map fun i => s.hdmPa (off + i)
    .next (match data with
      | none => s.hostRead pas
      | some v => s.hostWrite (pas.zip (leBytes len v)))

/-- HOST_SNOOP (21 R413; 09 R220): the host takes a line of its memory back from every die, and may write it. -/
def execHostSnoop (port : Bool) (line : Nat) (data : Option Nat) (s : State) : Host.Outcome State Fault Refusal :=
  .next (if hostPort (regionOf (128 * line)) = some port.toNat ∧ s.portUp port.toNat then
      let s := s.recall line
      match data with
      | none => s
      | some v => s.hubWrite ((leBytes 128 v).zipIdx.map fun e => (128 * line + e.2, e.1))
    else s)

/-! ## Links (21 R416, R417; 22 R427) -/

/-- A line of a port's host memory. -/
def portLine (port line : Nat) : Bool := decide (hostPort (regionOf (128 * line)) = some port)

/-- The loads of peer windows of a port that are under way have their values, which are free. -/
def State.settlePeers (s : State) (port : Bool) : State :=
  let mine := fun (o : Outst) => o.pending && match o.peer with | some q => decide (q.1 = port) | none => false
  let s1 := (s.loads.filter mine).foldl (fun s o => s.peerSend o.peer o.addrs.length .read) s
  { s1 with loads := s.loads.map fun (o : Outst) =>
      if mine o then
        { o with kind := .value, value := BitVec.ofNat 128 ((Config.peerData (s.free + o.id) (o.addrs.headD (0, 0)).2).toNat % 2 ^ 32) }
      else o }

/-- LINK_DOWN (21 R417): loads of the port under way obtain their values before (log 19), and its lines are dropped. The
other fields of PORTSTAT keep their values. -/
def execLinkDown (port : Bool) (s : State) : Host.Outcome State Fault Refusal :=
  .next (let p := port.toNat
    let s := (s.settle fun loc => decide (hostPort (regionOf loc) = some p)).settlePeers port
    let mine := fun line => portLine p line
    let gone := (s.dir.map (·.1)).filter mine
    let s := { s with
      ports := tput Port.zero s.ports p { tget Port.zero s.ports p with up := false }
      dirty := s.dirty.filter fun e => !mine (e.1 / 128)
      dir := s.dir.filter fun e => !mine e.1
      sems := s.sems.filter fun e => decide (e.2.toNat ≠ p + 1) }
    gone.foldl (fun s l => s.fireLine l) s)

/-- LINK_UP (21 R412, R416; 22 R427): a port of a module whose firmware verified trains to 4, 8 or 16 lanes. -/
def execLinkUp (port f256 : Bool) (lanes : BitVec 5) (s : State) : Host.Outcome State Fault Refusal :=
  .next (if firmwareOk && (decide (lanes = 4) || decide (lanes = 8) || decide (lanes = 16)) then
      { s with ports := tput Port.zero s.ports port.toNat ⟨true, f256, lanes⟩ }
    else s)

/-! ## Peer modules (21 R420) -/

/-- The value an integer atomic writes over `old`, of width w, where it writes (11 R266). -/
def atomInt (op : Nat) (signed : Bool) (w : Nat) (old x c : Nat) : Option Nat :=
  let lt := if signed then decide (sext w x < sext w old) else decide (x < old)
  match op with
  | 0 => some ((old + x) % 2 ^ w)
  | 1 => some (if lt then x else old)
  | 2 => some (if lt then old else x)
  | 3 => some (old &&& x)
  | 4 => some (old ||| x)
  | 5 => some (old ^^^ x)
  | 6 => some x
  | _ => if old = c then some x else none

/-- A 64-bit atomic of a peer module on bytes of the HDM range, answered with the old value (21 R420; 10 R238). -/
def State.peerAtomic (s : State) (pas : List Nat) (op ty : BitVec 3) (v cmp : BitVec 64) : State :=
  let old := leNat (pas.map s.byteAt)
  match atomInt op.toNat (decide (ty = 2)) 64 old v.toNat cmp.toNat with
  | some n => if pas.any fun pa => s.hitsHung pa 1 then s.answer true 0 else (s.hubWrite (pas.zip (leBytes 8 n))).answer false old
  | none => s.hostRead pas

/-- PEER_MODULE_REQUEST (21 R420): a read (kind 0), a write (1) or a 64-bit atomic (2) of the HDM range by another module,
which arrives over a port whose link is up and is executed as a host access. What is none of these is not accepted. -/
def execPeerModuleRequest (a : PortAddr) (len : Nat) (kind : BitVec 2) (op ty : BitVec 3) (v cmp : BitVec 64) (s : State) :
    Host.Outcome State Fault Refusal :=
  if hdmBytes < a.off + len then .fault .hostOutsideHdm
  else if !s.portUp a.port.toNat then .next s
  else
    let pas := (List.range len).map fun i => s.hdmPa (a.off + i)
    .next (match kind.toNat with
      | 0 => s.hostRead pas
      | 1 => s.hostWrite (pas.zip (leBytes len v.toNat))
      | 2 => if len = 8 ∧ a.off % 8 = 0 ∧ (ty = 2 ∨ ty = 3) then s.peerAtomic pas op ty v cmp else s.answer true 0
      | _ => s.answer true 0)

/-! ## Wear and power (22 R421, R422, R429, R430) -/

/-- GUARD_BAND_STEP (22 R421, R422): the end of a millisecond on a core, with its margin. -/
def execGuardBandStep (core : Nat) (margin : BitVec 10) (s : State) : Host.Outcome State Fault Refusal :=
  .next (if coreCount s.dcmap ≤ core then s
    else
      let p := physCore s.dcmap core
      let w := tget Wear.zero s.wear p
      let low := decide (margin.toNat < 50)
      let g := if low && decide (w.gband.toNat < 40) then w.gband + 1 else w.gband
      { s with wear := tput Wear.zero s.wear p ⟨margin, g, w.worn || (low && decide (w.gband = 40))⟩ })

/-- EOLH_REFRESH (22 R421, R422). -/
def execEolhRefresh (core : Nat) (v : BitVec 32) (s : State) : Host.Outcome State Fault Refusal :=
  .next (if coreCount s.dcmap ≤ core then s else s.modCore core fun r => { r with eolh := v })

/-- The budget of the module and of a die, in W, and the hottest junction, in °C (22 R429, R430; 00 R4). -/
def moduleWatts : Nat := 12000
/-- Of a die. -/
def dieWatts : Nat := 600
/-- Of a junction. -/
def junctionMax : Nat := 105

/-- THROTTLE (22 R429, R430): the power a die would draw and the temperature its junction would reach, with the power of the
module. A die that would pass 600 W or 105 °C is throttled, which keeps it from passing, and any other is not. -/
def execThrottle (die : Nat) (power : BitVec 16) (temp : BitVec 8) (watts : BitVec 16) (s : State) : Host.Outcome State Fault Refusal :=
  .next (if die < Config.dies ∧ watts.toNat ≤ moduleWatts then
      let m := BitVec.ofNat 16 (2 ^ die)
      let t := if dieWatts < power.toNat ∨ junctionMax < temp.toNat then s.throttled ||| m else s.throttled &&& ~~~m
      { s with throttled := t, watts := watts, thr := decide (t ≠ 0),
               temps := tput 0 s.temps die (BitVec.ofNat 8 (min junctionMax temp.toNat)) }
    else s)

/-! ## Module reset (22 R426, R427, R431) -/

/-- The logical number of a physical core in service (22 R426). -/
def logicalCore (dc : BitVec 256) (p : Nat) : Option Nat :=
  if dc.getLsbD (p / 2) then none
  else some (2 * ((List.range (p / 2)).filter fun q => !dc.getLsbD q).length + p % 2)

/-- A table kept by core, of n keys each, after the cores are numbered anew: what belongs to a physical core goes with it,
and what belongs to a core powered off cannot be reached (22 R426). -/
def renumber {α : Type} (dc dc' : BitVec 256) (n : Nat) (t : Table α) : Table α :=
  t.filterMap fun e =>
    if e.1 / n < coreCount dc then (logicalCore dc' (physCore dc (e.1 / n))).map fun c => (c * n + e.1 % n, e.2) else none

/-- DCMAP after a reset (22 R426). -/
def State.nextMap (s : State) : BitVec 256 := match s.armed with | some p => s.dcmap ||| polMask p | none => s.dcmap

/-- MODULE_RESET (22 R431): an armed policy is applied, registers take their reset values and every context is off; memory,
scratch and L2 contents stay, at the addresses that the reset split gives them (09 R203). The ports train afterwards, by
LINK_UP. -/
def execModuleReset (s : State) : Host.Outcome State Fault Refusal :=
  let s := s.setSplit State.reset.ipool
  .next { State.reset with
    mem := s.mem, mscHeld := s.mscHeld, mscDirty := s.mscDirty, dirty := s.dirty, dir := s.dir, wear := s.wear
    scratch := renumber s.dcmap s.nextMap (2 ^ 23) s.scratch
    empty := renumber s.dcmap s.nextMap (2 ^ 16) s.empty
    dcmap := s.nextMap
    lastseq := (match s.armed with | some p => polSeq p | none => s.lastseq)
    watts := s.watts, temps := s.temps, origin := 0
    agenda := s.agenda, cur := s.cur, nextId := s.nextId, free := s.free }

end Sys2Proof.Machine
end

