-- ==== Sys2Proof/Machine/MemInstr.lean ====
section
/-! DEFINITION. Memory, atomic and fence instructions and monitors (11 R249 to R272), uniform memory accesses (06 R151,
R152), and the steps in which loads return and stores are performed (10 R229 to R239; 17 R370 to R372; log 12). -/

namespace Sys2Proof.Machine

/-! ## Registers and peer windows (09 R223; 11 R269; 21 R414, R420) -/

/-- One 32-bit read of a register, or of a peer window by its port and fabric address, by a thread: `none` where the completion
carries an error, or the link is down. What a peer module returns is a free value. -/
def State.devRead (s : State) (pa : Nat) (out : Option (Bool × Nat)) : State × Option Nat :=
  if regionOf pa = 2 then
    let r := s.regRead 3 (pa % 2 ^ 48) false
    (r.1, some r.2)
  else if s.peerDead out then (s, none)
  else
    ({ s.peerSend out 4 .read with free := s.free + 1 },
      if Config.peerError s.free then none else some ((Config.peerData s.free pa).toNat % 2 ^ 32))

/-- One 32-bit write by a thread, which fires the monitors on its line (11 R271). A write to a peer module that fails is
discarded; that module's memory is not part of the state. -/
def State.devWrite (s : State) (pa v : Nat) (out : Option (Bool × Nat)) : State :=
  if regionOf pa = 2 then (s.regWrite 3 (pa % 2 ^ 48) false v).fireReg 3 (pa % 2 ^ 48)
  else
    let t : State := { s.peerSend out 4 (.write (BitVec.ofNat 64 v)) with free := s.free + 1 }
    if s.peerDead out || Config.peerError s.free then t else t.fireLine (pa / 128)

/-- A read that is still to be made: a load's, or that by which a MONARM compares. -/
def Outst.toRead (o : Outst) : Bool := (decide (o.kind = .load) || decide (o.kind = .monitor)) && !o.failed

/-- A lane's accesses to registers and peer windows before an identifier have all been made (09 R223). -/
def State.devFirst (s : State) (w lane id : Nat) : Bool :=
  !(s.loads.any fun o => o.toRead && decide (o.w = w) && decide (o.lane = lane) && decide (o.id < id) && o.addrs.any fun a => uncached a.2) &&
  !(s.stores.any fun p => decide (p.w = w) && decide (p.lane = lane) && decide (p.id < id) && p.device)

/-- An access made now to a register or a peer window would pass earlier ones of its lane. -/
def State.devBusy (s : State) (w : Nat) (as : List MemAcc) : Bool := as.any fun a => uncached a.pa && !s.devFirst w a.lane s.nextId

/-- The bytes of an access read now at their place of execution, with the core's own stores (21 R417, R420): `none` for a
data error. -/
def Ix.readAt (x : Ix) (s : State) (a : MemAcc) : State × Option (List Byte) :=
  if uncached a.pa then
    let r := s.devRead a.pa (s.peerAt a.pa)
    (r.1, r.2.map (leBytes a.vas.length))
  else match x.readNow s a with
    | some bs => (s.shareBytes (s.dieOf x.core) a.pas, some bs)
    | none => (s, none)

/-- The accesses of several lanes read now, in order; the lane and address of the first data error, after the reads made. -/
def Ix.readAll (x : Ix) (s : State) : List MemAcc → Except (State × Trap) (State × List Nat)
  | [] => .ok (s, [])
  | a :: t =>
    match x.readAt s a with
    | (s, none) => .error (s, dataTrap a.va a.lane)
    | (s, some bs) => (x.readAll s t).map fun r => (r.1, leNat bs :: r.2)

/-- A write performed now at its place of execution, with the core's L1 line (09 R218). -/
def Ix.writeAt (x : Ix) (s : State) (a : MemAcc) (bs : List Byte) : State :=
  if uncached a.pa then s.devWrite a.pa (leNat bs) (s.peerAt a.pa)
  else (s.performBytes (s.dieOf x.core) (a.pas.zip bs)).l1Update (x.pstore s 0 a bs)

/-- A load would go over a link that is down (21 R417). -/
def State.deadLink (s : State) (o : Outst) : Bool :=
  s.peerDead o.peer || (!(o.addrs.any fun a => uncached a.2) && !s.served o)

/-! ## Operands and addresses (11 R249 to R251) -/

/-- Registers of a memory access by sz. -/
def memRegs (z : Nat) : Nat := if z = 3 then 4 else 1
/-- The destination operand of a load. -/
def loadDst (d : BitVec 7) (z : Nat) : Use := if z = 3 then .group d.toNat 4 4 else .reg d.toNat
/-- The data operand of a store (11 R250). -/
def storeSrc (d : BitVec 7) (z : Nat) : Use := if z = 3 then .group d.toNat 4 4 else .src d.toNat

/-- The address of a global access (11 R251). -/
def Ix.gaddr (x : Ix) (a : BitVec 7) (off l : Nat) : Nat := ((x.srcPair a.toNat l).toNat + off) % 2 ^ 64 % 2 ^ 56
/-- The data a lane stores. -/
def Ix.storeVal (x : Ix) (d : BitVec 7) (z l : Nat) : Nat :=
  if z = 3 then (List.range 4).foldl (fun n i => n + (x.W.reg l (d.toNat + i)).toNat * 2 ^ (32 * i)) 0 else (x.src d.toNat l).toNat

/-- A core has an unperformed store to some of the bytes. -/
def State.coreStoreOn (s : State) (core : Nat) (pas : List Nat) : Bool :=
  s.stores.any fun p => decide (coreOf p.w = core) && p.bytes.any fun b => pas.contains b.2.1

/-! ## Issuing -/

/-- Issue checked loads: their parts are outstanding; several lines enter the collector together, or wait in place (17
R370, R371). -/
def Ix.issueLoads (x : Ix) (s : State) (as : List MemAcc) (signed uni : Bool) (dest nreg : Nat) (collect : Bool) : Res :=
  let lines := accLines as
  let many := collect && decide (1 < lines.length)
  match as.find? fun a => s.deadLink (x.outst s 0 a signed uni dest nreg) with
  | some a => .trap s (dataTrap a.va a.lane)
  | none =>
    if many && !s.collRoom x.core lines.length then .stall
    else .ok (s.addLoads ((as.flatMap MemAcc.parts).zipIdx.map fun e =>
      { x.outst s e.2 e.1.1 signed uni (dest + e.1.2) (partRegs nreg) with
        coll := if many then some (e.1.1.va / 128) else none, lock := collect || uni })) none

/-- The release that a store of a lane carries, of a narrow scope: its own, or that of the lane's last FENCE (10 R230). -/
def Ix.tag (x : Ix) (own : Option Nat) (lane : Nat) : Option (Nat × Nat) :=
  match own, tget 0 x.W.fenced lane with
  | some id, _ => some (x.core, id)
  | none, 0 => none
  | none, id + 1 => some (x.core, id)

/-- Issue checked stores of n bytes, whose values may be those of a release. -/
def Ix.issueStores (x : Ix) (s : State) (n : Nat) (as : List MemAcc) (val : Nat → Nat) (collect : Bool) (own : Option Nat) : Res :=
  let lines := accLines as
  let many := collect && decide (1 < lines.length)
  if many && !s.collRoom x.core lines.length then .stall
  else .ok (s.addStores ((as.flatMap MemAcc.parts).zipIdx.map fun e =>
    { x.pstore s e.2 e.1.1 ((leBytes n (val e.1.1.lane)).drop (4 * e.1.2)) with
      coll := if many then some (e.1.1.va / 128) else none, rel := x.tag own e.1.1.lane })) none

/-! ## Global and private loads and stores -/

/-- LDG and LDGS. -/
def globalLoad (x : Ix) (s : State) (d a : BitVec 7) (o : BitVec 5) (z : Nat) (signed : Bool) : Res :=
  withOperands x s [loadDst d z, .srcPair a.toNat] fun _ =>
    match x.globalAcc s .load (memBytes z) x.lanes (x.gaddr a (o.toNat * memBytes z)) with
    | .error t => .trap s t
    | .ok as => x.issueLoads (x.keepLeaves s as) as signed false d.toNat (memRegs z) true

/-- LDP and LDPS. -/
def privateLoad (x : Ix) (s : State) (d a : BitVec 7) (o : BitVec 5) (z : Nat) (signed : Bool) : Res :=
  withOperands x s [loadDst d z, .src a.toNat] fun _ =>
    match x.privateAcc s .load (memBytes z) x.lanes (x.soff a (o.toNat * memBytes z)) with
    | .error t => .trap s t
    | .ok as => x.issueLoads (x.keepLeaves s as) as signed false d.toNat (memRegs z) false

/-- LDG (11 R255). -/
def execLdg (e : Bool) (d a : BitVec 7) (o : BitVec 5) (z : BitVec 2) (s : State) : Host.Outcome State Fault Refusal :=
  run (.ldg e d a o z) s fun x => globalLoad x s d a o z.toNat false
/-- LDGS (11 R255). -/
def execLdgs (e : Bool) (d a : BitVec 7) (o : BitVec 5) (z : Bool) (s : State) : Host.Outcome State Fault Refusal :=
  run (.ldgs e d a o z) s fun x => globalLoad x s d a o z.toNat true
/-- LDP (11 R255). -/
def execLdp (e : Bool) (d a : BitVec 7) (o : BitVec 5) (z : BitVec 2) (s : State) : Host.Outcome State Fault Refusal :=
  run (.ldp e d a o z) s fun x => privateLoad x s d a o z.toNat false
/-- LDPS (11 R255). -/
def execLdps (e : Bool) (d a : BitVec 7) (o : BitVec 5) (z : Bool) (s : State) : Host.Outcome State Fault Refusal :=
  run (.ldps e d a o z) s fun x => privateLoad x s d a o z.toNat true

/-- STG (11 R257). -/
def execStg (e : Bool) (d a : BitVec 7) (o : BitVec 5) (z : BitVec 2) (s : State) : Host.Outcome State Fault Refusal :=
  run (.stg e d a o z) s fun x => withOperands x s [storeSrc d z.toNat, .srcPair a.toNat] fun _ =>
    match x.globalAcc s .store (memBytes z.toNat) x.lanes (x.gaddr a (o.toNat * memBytes z.toNat)) with
    | .error t => .trap s t
    | .ok as => x.issueStores (x.keepLeaves s as) (memBytes z.toNat) as (x.storeVal d z.toNat) true none

/-- STP (11 R257). -/
def execStp (e : Bool) (d a : BitVec 7) (o : BitVec 5) (z : BitVec 2) (s : State) : Host.Outcome State Fault Refusal :=
  run (.stp e d a o z) s fun x => withOperands x s [storeSrc d z.toNat, .src a.toNat] fun _ =>
    match x.privateAcc s .store (memBytes z.toNat) x.lanes (x.soff a (o.toNat * memBytes z.toNat)) with
    | .error t => .trap s t
    | .ok as => x.issueStores (x.keepLeaves s as) (memBytes z.toNat) as (x.storeVal d z.toNat) false none

/-! ## LDA, STREL, FENCE -/

/-- LDA (11 R256; 10 R235, R236): at a wide scope it reads past L1 and drops the context's lines; `.remote` waits, where it
would return the value of a narrow release, for what that release and the earlier ones of its core cover. -/
def execLda (e : Bool) (d a : BitVec 7) (sc : BitVec 3) (r : Bool) (z : BitVec 2) (s : State) : Host.Outcome State Fault Refusal :=
  run (.lda e d a sc r z) s fun x => withOperands x s [.reg d.toNat, .srcPair a.toNat] fun _ =>
    let wide := wideScope x.T sc.toNat
    match x.globalAcc s (if wide then .fresh else .load) (memBytes z.toNat) x.lanes (x.gaddr a 0) with
    | .error t => .trap s t
    | .ok as =>
      if (r && s.promotes (as.flatMap (·.pas))) || (wide && as.any fun a => s.coreStoreOn x.core a.pas) || s.devBusy x.w as ||
          as.any fun a => s.laneLoadOn x.w a.lane a.pas then .stall
      else
        let as := if wide then as.map fun a => { a with nc := true } else as
        let hits := fun (a : MemAcc) => if a.nc || uncached a.pa then none else some (x.outst s 0 a false false 0 0)
        match x.readAll s (as.filter fun a => (hits a).isNone) with
        | .error (s1, t) => .trap s1 t
        | .ok (s1, vs) =>
          match as.find? fun a => match hits a with | some o => s.deadLink o | none => false with
          | some a => .trap s (dataTrap a.va a.lane)
          | none =>
            let near := (as.filter fun a => (hits a).isSome).map fun a =>
              (a, leNat ((a.vas.zip a.pas).map (s1.loadByte (x.outst s1 0 a false false 0 0))))
            let all := (as.filter fun a => (hits a).isNone).zip vs ++ near
            let s2 := (x.keepLeaves (as.foldl (fun s a => match hits a with | some o => s.fillFor o | none => s) s1) as)
            .ok ((x.acquire s2 sc.toNat).addLoads (all.zipIdx.map fun e =>
              { x.formed s2 e.2 e.1.1.lane false d.toNat 1 (BitVec.ofNat 128 e.1.2) with addrs := e.1.1.vas.zip e.1.1.pas })) none

/-- The scope code of .system. -/
def scSystem : Nat := 6

/-- What a release of .system scope has written is at the hub before it completes (10 R248). -/
def State.sysRelease (s : State) (sc : Nat) : State := if sc = scSystem then s.writeBackAll else s

/-- STREL (11 R259; 10 R235): at a wide scope its write is performed when the stores it covers have been; its lanes then write
in this one step, in rising order, where the spec leaves lanes at different locations in any order (11 R258; DESIGN CHOICE,
log 1). -/
def execStrel (e : Bool) (d a : BitVec 7) (sc : BitVec 3) (z : BitVec 2) (s : State) : Host.Outcome State Fault Refusal :=
  run (.strel e d a sc z) s fun x => withOperands x s [.src d.toNat, .srcPair a.toNat] fun _ =>
    let n := memBytes z.toNat
    match x.globalAcc s .store n x.lanes (x.gaddr a 0) with
    | .error t => .trap s t
    | .ok as =>
      if x.releaseWaits s sc.toNat then .stall
      else if wideScope x.T sc.toNat then
        .ok ((as.foldl (fun s a => x.writeAt s a (leBytes n (x.storeVal d z.toNat a.lane))) (x.keepLeaves s as)).sysRelease sc.toNat) none
      else x.issueStores (x.keepLeaves s as) n as (x.storeVal d z.toNat) false (some s.nextId)

/-- The effect of a FENCE with release (10 R230, R235, R236): the path's later stores carry a narrow one. -/
def Ix.fenceRelease (x : Ix) (s : State) (sc : Nat) : State :=
  if wideScope x.T sc then s.sysRelease sc
  else
    ({ s with nextId := s.nextId + 1 }).modWarp x.w fun W =>
      { W with fenced := x.lanes.foldl (fun t l => tput 0 t l (s.nextId + 1)) W.fenced }

/-- FENCE (11 R268; 10 R235): kind 0 acquires, 1 releases, 2 and 3 do both. -/
def execFence (e : Bool) (k : BitVec 2) (sc : BitVec 3) (s : State) : Host.Outcome State Fault Refusal :=
  run (.fence e k sc) s fun x =>
    if s.loadsOut x.w x.P.lanes || (decide (k ≠ 0) && x.releaseWaits s sc.toNat) then .stall
    else
      let s := if k = 0 then s else x.fenceRelease s sc.toNat
      .ok (if k = 1 then s else x.acquire s sc.toNat) none

/-! ## MCST (11 R260) -/

/-- The MCSTs of a core in flight (16 R340). -/
def State.mcstCount (s : State) (core : Nat) : Nat :=
  ((s.stores.filter fun p => p.mcst && decide (coreOf p.w = core)).map (·.grp)).eraseDups.length

/-- The stores of an MCST of n bytes to the replicas of a lane's access: one for each byte of memory, replica d of
it with an identifier that is d modulo 16 (10 R227, R246). -/
def Ix.replicaStores (x : Ix) (s : State) (base n : Nat) (span : List (Nat × Nat)) (k : Nat) (a : MemAcc) (v : Nat) : List PStore :=
  (a.replicas s x.T.ctx).zipIdx.flatMap fun e =>
    let unit := if uncached (e.1.headD 0) then n else 1
    (List.range (n / unit)).map fun i =>
      { x.pstore s 0 { a with vas := (a.vas.drop i).take unit, pas := (e.1.drop i).take unit } ((leBytes n v).drop i) with
        id := base + 16 * (n * k + i) + e.2, grp := base, mcst := true, span := span, rel := x.tag none a.lane }

/-- MCST: one store to each replica; on a page without replicas, an STG. -/
def execMcst (e : Bool) (d a : BitVec 7) (o : BitVec 5) (z : BitVec 2) (s : State) : Host.Outcome State Fault Refusal :=
  run (.mcst e d a o z) s fun x => withOperands x s [storeSrc d z.toNat, .srcPair a.toNat] fun _ =>
    let n := memBytes z.toNat
    match x.globalAcc s .mcst n x.lanes (x.gaddr a (o.toNat * n)) with
    | .error t => .trap s t
    | .ok as =>
      let rep := fun (a : MemAcc) => decide (1 < (a.replicas s x.T.ctx).length)
      if as.any rep && decide (8 ≤ s.mcstCount x.core) then .stall
      else
        let s := x.keepLeaves s as
        let base := (s.nextId + 15) / 16 * 16
        let span := (as.filter rep).flatMap fun a => (a.replicas s x.T.ctx).map fun l => (l.headD 0, n)
        let ps := as.zipIdx.flatMap fun e =>
          let v := x.storeVal d z.toNat e.1.lane
          if rep e.1 then x.replicaStores s base n span e.2 e.1 v
          else e.1.parts.map fun p =>
            { x.pstore s 0 p.1 ((leBytes n v).drop (4 * p.2)) with
              id := base + 16 * n * e.2 + p.2, grp := base, rel := x.tag none e.1.lane }
        .ok { s with stores := s.stores ++ ps, nextId := base + 16 * n * as.length } none

/-! ## Scratch -/

/-- A lane's access to scratch, by location numbers. -/
def scratchMem (n : Nat) (off : Nat → Nat) (e : Nat × Nat × Nat × Nat) : MemAcc :=
  { lane := e.1, vas := List.range' (off e.1) n, pas := List.range' (scrLoc + scratchKey e.2) n, nc := true, xl := none }

/-- A scratch load of n bytes by lanes: lanes whose line is empty wait in place, and read it as it stands once it is full (09
R214; 11 R254). -/
def Ix.scratchLoad (x : Ix) (s : State) (n : Nat) (lanes : List Nat) (off : Nat → Nat) (signed uni : Bool) (dest nreg : Nat) : Res :=
  match x.scratchAcc s n (lanes.filter fun l => !x.P.done.getLsbD l) off with
  | .error t => .trap s t
  | .ok as =>
    let ready := as.filter fun e => !s.isEmpty e.2
    let again := x.P.wait.isSome || decide (x.P.done ≠ 0)
    let os := ((ready.map (scratchMem n off)).flatMap MemAcc.parts).zipIdx.map fun e =>
      x.outst s e.2 e.1.1 signed uni (dest + e.1.2) (partRegs nreg)
    let os := if again then os.map fun (o : Outst) => { o with kind := .value, value := BitVec.ofNat 128 (s.loadValue o) } else os
    if ready.length = as.length then .ok (if again then s.addPart os else s.addLoads os) none
    else .wait ((s.addPart os).modWarp x.w fun W => W.modPath x.low fun P => { P with done := P.done ||| maskOf (ready.map (·.1)) }) .emptyLine

/-- The effect of LDS and LDSS, at issue and while lanes wait. -/
def ldsBody (x : Ix) (s : State) (d a : BitVec 7) (o : BitVec 5) (z : Nat) (signed : Bool) : Res :=
  withOperands x s [loadDst d z, .src a.toNat] fun _ =>
    x.scratchLoad s (memBytes z) x.lanes (x.soff a (o.toNat * memBytes z)) signed false d.toNat (memRegs z)

/-- LDS (11 R255). -/
def execLds (e : Bool) (d a : BitVec 7) (o : BitVec 5) (z : BitVec 2) (s : State) : Host.Outcome State Fault Refusal :=
  run (.lds e d a o z) s fun x => ldsBody x s d a o z.toNat false
/-- LDSS (11 R255). -/
def execLdss (e : Bool) (d a : BitVec 7) (o : BitVec 5) (z : Bool) (s : State) : Host.Outcome State Fault Refusal :=
  run (.ldss e d a o z) s fun x => ldsBody x s d a o z.toNat true

/-- Scratch stores of n bytes by lanes, which the banks accept in their own time (11 R257). -/
def Ix.scratchStores (x : Ix) (s : State) (n : Nat) (lanes : List Nat) (off val : Nat → Nat) : Res :=
  match x.scratchAcc s n lanes off with
  | .error t => .trap s t
  | .ok as =>
    .ok (s.addStores (((as.map (scratchMem n off)).flatMap MemAcc.parts).zipIdx.map fun e =>
      x.pstore s e.2 { e.1.1 with vas := e.1.1.pas } ((leBytes n (val e.1.1.lane)).drop (4 * e.1.2)))) none

/-- STS (11 R257, R258; 09 R214). -/
def execSts (e : Bool) (d a : BitVec 7) (o : BitVec 5) (z : BitVec 2) (s : State) : Host.Outcome State Fault Refusal :=
  run (.sts e d a o z) s fun x => withOperands x s [storeSrc d z.toNat, .src a.toNat] fun _ =>
    x.scratchStores s (memBytes z.toNat) x.lanes (x.soff a (o.toNat * memBytes z.toNat)) (x.storeVal d z.toNat)

/-- EMPTY (11 R263): it follows the path's earlier loads, and its stores to scratch (10 R229). -/
def execEmpty (e : Bool) (a : BitVec 7) (o : BitVec 5) (z : BitVec 2) (s : State) : Host.Outcome State Fault Refusal :=
  run (.empty e a o z) s fun x => withOperands x s [.src a.toNat] fun _ =>
    let n := memBytes z.toNat
    match x.scratchAcc s n x.lanes (x.soff a (o.toNat * n)) with
    | .error t => .trap s t
    | .ok as => if x.scratchOut s || s.loadsOut x.w x.P.lanes then .stall else .ok (as.foldl (fun s p => s.setEmpty p.2 true) s) none

/-- FCHK (11 R263). -/
def execFchk (e n : Bool) (d a : BitVec 7) (o : BitVec 5) (z : BitVec 2) (s : State) : Host.Outcome State Fault Refusal :=
  run (.fchk e n d a o z) s fun x => withOperands x s [.reg d.toNat, .src a.toNat] fun _ =>
    let m := memBytes z.toNat
    match x.scratchAcc s m x.lanes (x.soff a (o.toNat * m)) with
    | .error t => .trap s t
    | .ok as => writeResult x s n false d.toNat (as.map fun p => (p.1, if s.isEmpty p.2 then 0 else 1))

/-- PREF has no effect that a program observes, and never faults or waits (11 R262). -/
def execPref (e : Bool) (h : BitVec 2) (a : BitVec 7) (o : BitVec 5) (z : BitVec 2) (s : State) : Host.Outcome State Fault Refusal :=
  run (.pref e h a o z) s fun _ => .ok s none

/-! ## Uniform accesses (06 R151, R152) -/

/-- GLD. -/
def execGld (e : Bool) (d a : BitVec 6) (z : BitVec 2) (o : BitVec 7) (s : State) : Host.Outcome State Fault Refusal :=
  run (.gld e d a z o) s fun x => withUniform x s [d.toNat, a.toNat] fun _ =>
    match x.globalAcc s .fresh (uniBytes z) [x.low] fun _ => ((x.W.greg a.toNat).toNat + o.toNat * uniBytes z) % 2 ^ 64 % 2 ^ 56 with
    | .error t => .trap s t
    | .ok as => x.issueLoads (x.keepLeaves s as) as false true d.toNat 1 false

/-- The effect of GLDS, at issue and while it waits. -/
def gldsBody (x : Ix) (s : State) (d a : BitVec 6) (z : BitVec 2) (o : BitVec 7) : Res :=
  withUniform x s [d.toNat, a.toNat] fun _ =>
    x.scratchLoad s (uniBytes z) [x.low] (fun _ => x.uoff a z o) false true d.toNat 1

/-- GLDS. -/
def execGlds (e : Bool) (d a : BitVec 6) (z : BitVec 2) (o : BitVec 7) (s : State) : Host.Outcome State Fault Refusal :=
  run (.glds e d a z o) s fun x => gldsBody x s d a z o

/-- GST. -/
def execGst (e : Bool) (d a : BitVec 6) (sp : Bool) (z : BitVec 2) (o : BitVec 7) (s : State) : Host.Outcome State Fault Refusal :=
  run (.gst e d a sp z o) s fun x => withUniform x s [d.toNat, a.toNat] fun _ =>
    let n := uniBytes z
    let v := (x.W.greg d.toNat).toNat
    if sp then x.scratchStores s n [x.low] (fun _ => x.uoff a z o) fun _ => v
    else match x.globalAcc s .store n [x.low] fun _ => ((x.W.greg a.toNat).toNat + o.toNat * n) % 2 ^ 64 % 2 ^ 56 with
      | .error t => .trap s t
      | .ok as => x.issueStores (x.keepLeaves s as) n as (fun _ => v) false none

/-! ## ATOM (11 R264 to R267; 10 R238) -/

/-- The value an atomic writes over `old`, where it writes (11 R266). -/
def atomNew (op ty old v c : Nat) : Option Nat :=
  if ty = 4 then
    let u := Val.ofF32 (BitVec.ofNat 32 old)
    let w := Val.ofF32 (BitVec.ofNat 32 v)
    some (rnd32 Rnd.ne (if op = 0 then sumVal 0 [u, w] else minVal (decide (op = 2)) u w)).toNat
  else atomInt op (decide (ty = 0) || decide (ty = 2)) (if ty = 2 ∨ ty = 3 then 64 else 32) old v c

/-- A die obtains a line in O without a write: the dies that lose it see their monitors fire (09 R220; 11 R271). -/
def State.obtain (s : State) (die line : Nat) : State :=
  let lost := (tget LineDir.zero s.dir line).sharers &&& ~~~(BitVec.ofNat 16 (2 ^ die))
  let s := s.own die line
  { s with warps := s.warps.map fun e =>
      (e.1, if lost.getLsbD (s.dieOf (coreOf e.1)) then e.2.map fun W => W.fireMon fun m => decide (m.pa / 128 = line) else e.2) }

/-- Bytes of physical memory carry releases beside those they carry (10 R230). -/
def State.tagBytes (s : State) (pas : List Nat) (rs : Nat → List (Nat × Nat)) : State :=
  { s with rels := pas.foldl (fun t pa => tput [] t pa (rs pa)) s.rels }

/-- An atomic's write of bytes at a die, or with none at the hub: it carries the releases of the value it replaces, and its
own (10 R230, R238). -/
def State.atomWrite (s : State) (die : Option Nat) (tag : Option (Nat × Nat)) (bs : List (Nat × Byte)) : State :=
  let t : State := match die with | some d => s.performBytes d bs | none => s.hubWrite bs
  t.tagBytes (bs.map (·.1)) fun pa => tag.toList ++ tget [] s.rels pa

/-- One lane's atomic on memory at its place of execution (10 R238): the old value, and the state after. Its lines leave the
core's L1 (09 R218), and the die that executes it owns them. -/
def Ix.atomMem (x : Ix) (s : State) (tag : Option (Nat × Nat)) (a : MemAcc) (f : Nat → Option Nat) : State × Nat :=
  let s := s.l1Pass x.core x.T.ctx a.vas
  let old := leNat (a.pas.map s.byteAt)
  let bytes := fun v => a.pas.zip (leBytes a.pas.length v)
  if 4 ≤ regionOf a.pa then
    let s := (linesOf a.pas).foldl State.recall s
    (match f old with | some v => s.atomWrite none tag (bytes v) | none => s, old)
  else
    let die := ((tget LineDir.zero s.dir (a.pa / 128)).owner).getD (s.dieOf x.core)
    (match f old with | some v => s.atomWrite (some die) tag (bytes v) | none => (linesOf a.pas).foldl (fun s l => s.obtain die l) s, old)

/-- An atomic's request to a peer module: it names its operation and type (21 R420). -/
def peerAsk (op ty v c : Nat) : PeerOp := .atomic op ty (BitVec.ofNat 64 v) (BitVec.ofNat 64 c)

/-- The lanes' atomics on global or private memory in increasing lane order, all in one step (11 R258; log 1); a peer
module's old value is free (21 R420). -/
def Ix.atomAll (x : Ix) (s : State) (own : Option Nat) (op ty : Nat) (v c : Nat → Nat) (f : Nat → Nat → Option Nat) (as : List MemAcc) :
    State × List (Nat × Nat) :=
  as.foldl (fun r a =>
    if uncached a.pa then
      (({ r.1.peerSend (r.1.peerAt a.pa) 8 (peerAsk op ty (v a.lane) (c a.lane)) with free := r.1.free + 1 }).fireLine (a.pa / 128),
        r.2 ++ [(a.lane, (Config.peerData r.1.free a.pa).toNat)])
    else
      let t := x.atomMem r.1 (x.tag own a.lane) a (f a.lane)
      (t.1, r.2 ++ [(a.lane, t.2)])) (s, [])

/-- The replies of an atomic. -/
def Ix.replies (x : Ix) (s : State) (d : BitVec 7) (wide noret : Bool) (rs : List (Nat × Nat)) : State :=
  if noret then s
  else s.addLoads (rs.zipIdx.map fun e => x.formed s e.2 e.1.1 false d.toNat (if wide then 2 else 1) (BitVec.ofNat 128 e.1.2))

/-- The effect of ATOM, at issue and while lanes wait for empty lines. -/
def atomBody (x : Ix) (s : State) (d a b : BitVec 7) (op : BitVec 4) (ty : BitVec 3) (ord : BitVec 2) (sc : BitVec 3) (sp : BitVec 2)
    (noret : Bool) (c : BitVec 7) : Res :=
  let wide := decide (ty = 2) || decide (ty = 3)
  let srcU := fun (r : BitVec 7) => if wide then Use.srcPair r.toNat else .src r.toNat
  let us := (if noret then [] else [if wide then Use.regPair d.toNat else .reg d.toNat]) ++
    [if sp = 0 then .srcPair a.toNat else .src a.toNat, srcU b] ++ (if op = 7 then [srcU c] else [])
  withOperands x s us fun _ =>
    let n := atomBytes ty
    let val := fun (r : BitVec 7) l => if wide then (x.srcPair r.toNat l).toNat else (x.src r.toNat l).toNat
    let f := fun l old => atomNew op.toNat ty.toNat old (val b l) (val c l)
    let rel := decide (2 ≤ ord.toNat)
    let waits := s.loadsOut x.w x.P.lanes || (rel && x.releaseWaits s sc.toNat)
    let narrow := rel && !wideScope x.T sc.toNat
    let own := if narrow then some s.nextId else none
    let before := fun (s : State) => if narrow then { s with nextId := s.nextId + 1 } else s
    let after := fun s =>
      let s := if rel then State.sysRelease s sc.toNat else s
      if ord = 1 ∨ ord = 3 then x.acquire s sc.toNat else s
    if sp = 1 then
      match x.scratchAcc s n (x.lanes.filter fun l => !x.P.done.getLsbD l) (x.soff a 0) with
      | .error t => .trap s t
      | .ok as =>
        if waits || x.scratchOut s then .stall
        else
          let ready := as.filter fun e => !s.isEmpty e.2
          let r := ready.foldl (fun (r : State × List (Nat × Nat)) e =>
            let old := r.1.scratchNat e.2 n
            (match f e.1 old with | some v => r.1.scratchStore e.2 (leBytes n v) | none => r.1, r.2 ++ [(e.1, old)])) (s, [])
          let s1 := x.replies r.1 d wide noret r.2
          if ready.length = as.length then .ok (after s1) none
          else .wait (s1.modWarp x.w fun W => W.modPath x.low fun P => { P with done := P.done ||| maskOf (ready.map (·.1)) }) .emptyLine
    else
      match (if sp = 0 then x.globalAcc s (.atomic ty.toNat) n x.lanes (x.gaddr a 0)
          else x.privateAcc s (.atomic ty.toNat) n x.lanes (x.soff a 0)) with
      | .error t => .trap s t
      | .ok as =>
        if waits || s.devBusy x.w as || as.any fun a => s.coreStoreOn x.core a.pas then .stall
        else match as.find? fun a => if uncached a.pa then s.peerDead (s.peerAt a.pa) || Config.peerError s.free else !a.pas.all s.reaches with
          | some a =>
            let asked := if uncached a.pa then
                { s.peerSend (s.peerAt a.pa) 8 (peerAsk op.toNat ty.toNat (val b a.lane) (val c a.lane)) with free := s.free + 1 }
              else s
            .trap asked (dataTrap a.va a.lane)
          | none =>
            let r := x.atomAll (before (x.keepLeaves s as)) own op.toNat ty.toNat (val b) (val c) f as
            .ok (after (x.replies r.1 d wide noret r.2)) none

/-- ATOM. -/
def execAtom (e : Bool) (d a b : BitVec 7) (op : BitVec 4) (ty : BitVec 3) (ord : BitVec 2) (sc : BitVec 3) (sp : BitVec 2)
    (noret : Bool) (c : BitVec 7) (s : State) : Host.Outcome State Fault Refusal :=
  run (.atom e d a b op ty ord sc sp noret c) s fun x => atomBody x s d a b op ty ord sc sp noret c

/-! ## Monitors (11 R270 to R272) -/

/-- A lane of an access cannot read it: a link it needs is down (21 R417). -/
def State.noReply (s : State) (a : MemAcc) : Bool := if uncached a.pa then s.peerDead (s.peerAt a.pa) else !a.pas.all s.reaches

/-- What MONARM compares in memory: the value at the place of execution, whatever the core has not performed (11 R270). -/
def State.placeValue (s : State) (a : MemAcc) : Nat := leNat (a.pas.map s.byteAt)

/-- MONARM (11 R270): it reads memory past L1 and fires at once a monitor whose value differs. Its read of a register or a peer
window follows the lane's earlier accesses of those (09 R223), and the path goes on before the reply. -/
def execMonarm (e : Bool) (d a : BitVec 7) (o : BitVec 5) (z : BitVec 2) (s : State) : Host.Outcome State Fault Refusal :=
  run (.monarm e d a o z) s fun x => withOperands x s [.src d.toNat, .srcPair a.toNat] fun _ =>
    let n := memBytes z.toNat
    match x.globalAcc s .fresh n x.lanes (x.gaddr a (o.toNat * n)) with
    | .error t => .trap s t
    | .ok as =>
      match as.find? s.noReply with
      | some a => .trap s (dataTrap a.va a.lane)
      | none =>
        let cmp := fun l => (x.src d.toNat l).toNat % 2 ^ (8 * n)
        let arm := fun (W : Warp) (a : MemAcc) =>
          { W with mon := tput none W.mon a.lane (some ⟨a.pa, n, BitVec.ofNat 32 (cmp a.lane),
            !uncached a.pa && decide (s.placeValue a ≠ cmp a.lane)⟩) }
        let near := as.filter fun a => !uncached a.pa
        let s1 := near.foldl (fun s a => s.shareBytes (s.dieOf x.core) a.pas) (x.keepLeaves s as)
        .ok ((s1.modWarp x.w fun W => as.foldl arm W).addLoads ((as.filter fun a => uncached a.pa).zipIdx.map fun e =>
          { x.outst s e.2 e.1 false false 0 0 with kind := .monitor, lock := true, value := BitVec.ofNat 128 (cmp e.1.lane) })) none

/-- A path's MONARM awaits the reply of a register or a peer window (11 R270). -/
def Ix.armOut (x : Ix) (s : State) : Bool :=
  s.loads.any fun o => decide (o.kind = .monitor) && decide (o.w = x.w) && x.P.lanes.getLsbD o.lane

/-- MONWAIT (11 R270, R272): it takes effect after the replies of the path's MONARMs, blocks past its scene end, and is over at
once where a monitor has fired. -/
def execMonwait (n : Bool) (d : BitVec 7) (f : Bool) (t : BitVec 5) (s : State) : Host.Outcome State Fault Refusal :=
  run (.monwait n d f t) s fun x => withOperands x s [.reg d.toNat] fun _ =>
    let limit := if f then none else some (s.clockOf x.core + 2 ^ (t.toNat + 8))
    if x.armOut s then .stall
    else .gone ((retire x (.monwait n d f t) s none).modWarp x.w fun W =>
      (W.modPath x.low fun P => { P with block := some (.monwait limit n d) }).wakeMon fun _ => false)

/-! ## Returns, replies and performed stores -/

/-- An earlier load of the same thread to some of the bytes has not obtained its value (10 R229 rule 3). -/
def State.loadBefore (s : State) (o : Outst) : Bool :=
  s.loads.any fun q => q.pending && decide (q.w = o.w) && decide (q.lane = o.lane) && decide (q.id < o.id) &&
    q.addrs.any fun a => o.addrs.any fun b => a.2 = b.2

/-- Deliver an outstanding entry's value. -/
def State.deliver (s : State) (o : Outst) (v : Nat) : State :=
  { s with loads := s.loads.filter fun q => decide (q.id ≠ o.id) }.modWarp o.w fun W => W.deliver o v

/-- A load's data cannot come: the data error (19 R389 code 23; log 12). -/
def State.failLoad (s : State) (o : Outst) : State := s.backOut o (dataTrap ((o.addrs.headD (0, 0)).1) o.lane)

/-- A register or a word of a peer window is read for an outstanding entry, after its lane's earlier accesses of those (09
R223), and `k` takes the value; the data error otherwise. -/
def State.devReturn (s : State) (o : Outst) (err : Bool) (k : State → Nat → State) : State :=
  if s.devFirst o.w o.lane o.id then
    let r := s.devRead (o.addrs.headD (0, 0)).2 o.peer
    match r.2 with
    | some v => if err then r.1.failLoad o else k r.1 v
    | none => r.1.failLoad o
  else s

/-- A load obtains its value, or meets an uncorrectable error. One of a register or a peer window is made now. -/
def State.returnLoad (s : State) (o : Outst) (err : Bool) : State :=
  if uncached (o.addrs.headD (0, 0)).2 then s.devReturn o err fun s v => s.deliver o v
  else if s.served o && !err then (s.fillFor o).deliver o (s.loadValue o)
  else s.failLoad o

/-- The reply to a MONARM: the monitor fires where it still compares as that MONARM armed it and the value differs (11 R270,
R271). -/
def State.returnArm (s : State) (o : Outst) (v : Nat) : State :=
  let pa := (o.addrs.headD (0, 0)).2
  let s := s.deliver o 0
  if v = o.value.toNat then s
  else s.modWarp o.w fun W => W.fireMon fun m => decide (m.pa = pa) && decide (m.cmp.toNat = o.value.toNat)

/-- A load whose data carried an error after its path had gone on is made anew, once its team is held no more, with the checks
of R253 as the state then stands (19 R389 code 23, R391). A value that was formed where it executed returns as it was. -/
def State.remake (s : State) (o : Outst) : State :=
  let put := fun (q : Outst) => ({ s with loads := s.loads.map fun (r : Outst) => if r.id = q.id then { q with failed := false } else r } : State)
  if s.heldWarp o.w then s
  else if o.kind = .value then put o
  else
    match s.warp o.w with
    | none => s
    | some W =>
      match s.team W.team with
      | none => s
      | some T =>
        let x := o.issuer W T
        let loc := (o.addrs.headD (0, 0)).2
        if isScratch loc then
          let k := loc - scrLoc
          if (tget Bank.zero s.banks (k / 2 ^ 18)).mash then
            s.lateFault o ⟨17, 0, 0, T.bankIndex (k / 2 ^ 23, k / 2 ^ 18 % 32, k % 2 ^ 18), 0, some o.lane⟩ (laneBit o.lane)
          else if tget false s.empty (locLine loc) then s
          else put o
        else
          match x.checkAcc s (if o.nc || o.uni then .fresh else .load) o.addrs.length o.lock [o.lane] fun _ => o.addrs.map (·.1) with
          | .error t => s.lateFault o t (laneBit o.lane)
          | .ok as =>
            match as with
            | a :: _ => x.keepLeaves (put { o with addrs := a.vas.zip a.pas, nc := a.nc || o.nc, peer := s.peerAt a.pa }) as
            | [] => s

/-- LOAD_DATA_RETURN (11 R255, R270; 10 R229, R237): a load or a MONARM's read obtains its value, or meets an uncorrectable
error; one that met such an error is made anew. -/
def execLoadDataReturn (id : Nat) (err : Bool) (s : State) : Host.Outcome State Fault Refusal :=
  .next (match s.loads.find? fun o => decide (o.id = id) with
    | none => s
    | some o =>
      if o.coll.isSome then s
      else match o.kind with
        | .cue => s
        | .cueGot => s
        | .cueBad => s
        | .value =>
          if o.addrs.isEmpty then s else if o.failed then s.remake o else if err then s.failLoad o else s.deliver o o.value.toNat
        | .monitor => if o.failed then s.remake o else s.devReturn o err fun s v => s.returnArm o v
        | .load => if o.failed then s.remake o else if s.loadBefore o then s else s.returnLoad o err)

/-- ATOMIC_REPLY (11 R266). -/
def execAtomicReply (id : Nat) (s : State) : Host.Outcome State Fault Refusal :=
  .next (match s.loads.find? fun o => decide (o.id = id) with
    | none => s
    | some o => if o.kind = .value ∧ o.addrs.isEmpty then s.deliver o o.value.toNat else s)

/-- A store may be performed (10 R229 rules 1, 5; 09 R223): its thread's earlier loads have their values, no earlier store of
the core to its bytes is unperformed, and one to a device follows its lane's earlier accesses to devices. -/
def State.storeReady (s : State) (p : PStore) : Bool :=
  p.coll.isNone && s.storeFree p &&
  !(s.stores.any fun q => decide (coreOf q.w = coreOf p.w) && decide (q.id < p.id) &&
    q.bytes.any fun a => p.bytes.any fun b => a.2.1 = b.2.1) &&
  (!p.device || s.devFirst p.w p.lane p.id)

/-- The die at which a store is performed: an MCST's replica d at die d (21 R411). -/
def State.storeDie (s : State) (p : PStore) : Nat := if p.mcst then p.id % 16 else s.dieOf (coreOf p.w)

/-- A store to scratch is performed: its bytes are written, and its line is full (09 R214). -/
def State.scratchPerform (s : State) (p : PStore) : State :=
  { s with
    scratch := p.bytes.foldl (fun t b => tput 0 t (b.2.1 - scrLoc) b.2.2) s.scratch
    empty := p.bytes.foldl (fun t b => tput false t (locLine b.2.1) false) s.empty }

/-- A store to memory is performed at its place of execution, with the release it carries (10 R230, R238). -/
def State.memPerform (s : State) (p : PStore) : State :=
  ((s.performBytes (s.storeDie p) (p.bytes.map (·.2))).l1Update p).tagBytes
    (match p.rel with | some _ => p.bytes.map (·.2.1) | none => []) fun _ => p.rel.toList

/-- STORE_PERFORMED (10 R237, R238). -/
def execStorePerformed (id : Nat) (s : State) : Host.Outcome State Fault Refusal :=
  .next (match s.stores.find? fun p => decide (p.id = id) with
    | none => s
    | some p =>
      if s.storeReady p then
        let s' : State := { s with stores := s.stores.filter fun q => decide (q.id ≠ id) }
        if p.scratch then s'.scratchPerform p
        else if p.device then s'.devWrite ((p.bytes.headD (0, 0, 0)).2.1) (leNat (p.bytes.map (·.2.2))) p.peer
        else s'.memPerform p
      else s)

/-- COLLECTOR_ENTRY_LEAVE (17 R371, R372): an entry of the collector leaves to L1, or for a CUE to the table path, unless an
earlier one of its warp to its line, or to its row, is still there. -/
def execCollectorEntryLeave (grp line : Nat) (s : State) : Host.Outcome State Fault Refusal :=
  .next (let w := (((s.loads.filter fun o => decide (o.grp = grp)).map (·.w)) ++ ((s.stores.filter fun p => decide (p.grp = grp)).map (·.w))).headD 0
    let cue := s.loads.any fun o => decide (o.grp = grp) && decide (o.kind = .cue)
    let before := (s.loads.any fun o =>
        decide (decide (o.kind = .cue) = cue) && decide (o.w = w) && decide (o.grp < grp) && decide (o.coll = some line)) ||
      (!cue && s.stores.any fun p => decide (p.w = w) && decide (p.grp < grp) && decide (p.coll = some line))
    if before then s
    else
      { s with
        loads := s.loads.map fun (o : Outst) => if o.grp = grp ∧ o.coll = some line then { o with coll := none } else o
        stores := s.stores.map fun (p : PStore) => if p.grp = grp ∧ p.coll = some line then { p with coll := none } else p })

/-- The lanes of a waiting load or atomic whose lines are full go on (09 R214; 11 R254). -/
def State.releaseLine (s : State) (w : Nat) : State :=
  match s.waiter w with
  | none => s
  | some (x, k) =>
    if k.kind ≠ .emptyLine then s
    else match k.instr with
      | .lds _ d a o z => finish x k.instr s (ldsBody x s d a o z.toNat false)
      | .ldss _ d a o z => finish x k.instr s (ldsBody x s d a o z.toNat true)
      | .atom _ d a b op ty ord sc sp noret c => finish x k.instr s (atomBody x s d a b op ty ord sc sp noret c)
      | .glds _ d a z o => finish x k.instr s (gldsBody x s d a z o)
      | _ => s

/-- EMPTY_LINE_RELEASE (09 R214; 11 R254). -/
def execEmptyLineRelease (w : Nat) (s : State) : Host.Outcome State Fault Refusal := .next (s.releaseLine w)

end Sys2Proof.Machine
end

