-- ==== Sys2Proof/Machine/Cast.lean ====
section
/-! DEFINITION. Stream records, cursors, CAST and the casting engine, CASTI, CASTSPLIT, CASTRD, CASTWR (17 R355 to R369). A
command reads what it uses in the step in which it stops, but for the bytes that it has read before, in steps of their own
(log 15). -/

namespace Sys2Proof.Machine

/-! ## Records and cursors (17 R355 to R357) -/

/-- A stream record. -/
structure Stream where
  base : Nat
  count : Nat
  enc : Nat
  pbase : Nat
  first : Nat
deriving DecidableEq, Repr

/-- The fields of a 256-bit record. -/
def Stream.of (n : Nat) : Stream := ⟨bitsOf n 0 56, bitsOf n 64 32, bitsOf n 96 2, bitsOf n 128 32, bitsOf n 160 32⟩

/-- The record is valid for a mode, 3 being ROWSPLIT (17 R360 step 5). -/
def streamOk (mode n : Nat) : Bool :=
  let r := Stream.of n
  let al := match r.enc with | 0 => 4 | 1 => 2 | _ => 8
  decide (bitsOf n 56 8 = 0) && decide (bitsOf n 98 30 = 0) && decide (bitsOf n 192 64 = 0) && decide (r.enc ≠ 3) &&
  decide (r.base % al = 0) && canonical r.base && (decide (r.enc ≠ 2) || decide (r.count ≤ 2 ^ 26)) &&
  (decide (r.enc ≠ 0) || decide (r.first = 0)) && (decide (mode ≠ 3) || decide (r.enc = 0))

/-- Word j of a cursor. -/
def Warp.curWord (W : Warp) (c j : Nat) : Nat := (tget 0 W.c c).toNat / 2 ^ (32 * j) % 2 ^ 32
/-- Set a cursor to four words, each modulo 2^32. -/
def Warp.setCur (W : Warp) (c w0 w1 w2 w3 : Nat) : Warp :=
  { W with c := tput 0 W.c c (BitVec.ofNat 128 (w0 % 2 ^ 32 + w1 % 2 ^ 32 * 2 ^ 32 + w2 % 2 ^ 32 * 2 ^ 64 + w3 % 2 ^ 32 * 2 ^ 96)) }

/-- The cast fault (17 R366); the record names the address that the instruction gives. -/
def Trap.cast (cause raddr lane : Nat) : Trap := ⟨21, cause, raddr, 0, 0, some lane⟩
/-- The unsorted-index fault (17 R365). -/
def Trap.unsorted (raddr pos strm value last lane : Nat) : Trap :=
  ⟨22, 0, raddr, pos % 2 ^ 32 + strm * 2 ^ 32, value % 2 ^ 32 + last % 2 ^ 32 * 2 ^ 32, some lane⟩

/-- Read n bytes for the engine at an address, as a plain load of the lane past L1: as they were when the instruction read
them before, where it has, else now (10 R245; 17 R360 step 6). A fault comes with the state after the reads made. -/
def Ix.streamRead (x : Ix) (s : State) (lane va n : Nat) : Except (State × Trap) (State × Nat) :=
  match x.globalAcc s .fresh n [lane] fun _ => va % 2 ^ 56 with
  | .error t => .error (s, t)
  | .ok as =>
    let vas := as.flatMap (·.vas)
    match vas.mapM fun v => (x.P.got.find? fun g => g.1 = v).map (·.2) with
    | some bs => .ok (x.keepLeaves s as, leNat bs)
    | none =>
      match x.readAll ((x.keepLeaves s as).l1Pass x.core x.T.ctx vas) as with
      | .error e => .error e
      | .ok (s, vs) => .ok (s, vs.headD 0)

/-- A casting instruction waits until its lowest lane's earlier loads have their values, and its accesses of registers and peer
windows have been made, which its own reads follow (09 R223; 10 R245, R248). -/
def State.castWaits (s : State) (w low : Nat) : Bool := s.loadsOut w (laneBit low) || !s.devFirst w low s.nextId

/-- The path of a warp whose casting instruction may read now (10 R245): its CAST is the command that runs, or it issues a
CASTI or CASTSPLIT next, and the accesses of its lowest lane before that have their values. -/
def State.caster (s : State) (w : Nat) : Option Ix :=
  match { s with cur := w }.issuing with
  | none => none
  | some x =>
    let reads : Bool := match x.P.wait with
      | some k => decide (k.kind = .castRun) && decide ((tget [] s.casts x.core).head? = some ⟨w, true⟩)
      | none => !s.castWaits w x.low && (match fetch x s with
        | .instr _ (.casti ..) => true
        | .instr _ (.castsplit ..) => true
        | _ => false)
    if reads then some x else none

/-- The casting instruction of a warp reads n bytes of memory at an address (10 R245). -/
def State.castRead (s : State) (w va n : Nat) : State :=
  match s.caster w with
  | none => s
  | some x =>
    match (if n = 0 ∨ 32 < n then .ok [] else x.globalAcc s .fresh n [x.low] fun _ => va % 2 ^ 56 : Except Trap (List MemAcc)) with
    | .ok [a] =>
      if uncached a.pa then s
      else match x.readAt ((x.keepLeaves s [a]).l1Pass x.core x.T.ctx a.vas) a with
        | (s', some bs) => s'.modWarp w fun W => W.modPath x.low fun P => { P with got := P.got ++ a.vas.zip bs }
        | (_, none) => s
    | _ => s

/-! ## The scan (17 R356, R361, R362) -/

/-- Entries a command reads at most (17 R362). -/
def castLimit : Nat := 4096

/-- A stream as a command walks it: its position and LAST, its head where it has been read (value, position reported, and
position and LAST once consumed), the bitmap word read last, and whether a bitmap stream has been found ended. -/
structure Walk where
  r : Stream
  pos : Nat
  last : Nat
  head : Option (Nat × Nat × Nat × Nat)
  bit : Option Nat
  word : Option (Nat × Nat)
  past : Bool
deriving DecidableEq, Repr

/-- What a read of the scan comes to: a value, the limit, or a fault, each with what has been read. -/
inductive Got (α : Type) where
  | ok (s : State) (n : Nat) (v : α)
  | full (s : State) (n : Nat) (v : α)
  | fault (s : State) (t : Trap)

/-- Go on with what a read gave. -/
def Got.bind {α β : Type} (g : Got α) (onFull : α → β) (k : State → Nat → α → Got β) : Got β :=
  match g with
  | .ok s n v => k s n v
  | .full s n v => .full s n (onFull v)
  | .fault s t => .fault s t

/-- The lowest set bit of a 64-bit word at or after bit i. -/
def nextBit (w i : Nat) : Option Nat := (List.range 64).find? fun b => decide (i ≤ b) && w.testBit b

/-- Search a bitmap stream for its next set bit from word w, at most `fuel` words: the stream with that bit, or with none
where it has ended. A search that meets the limit has moved to the first word it did not read, or stays (17 R362). -/
def Ix.search (x : Ix) (lane : Nat) : Nat → State → Nat → Walk → Nat → Got Walk
  | 0, s, n, k, _ => .full s n k
  | fuel + 1, s, n, k, w =>
    if k.r.count ≤ w then .ok s n { k with bit := none, past := true }
    else
      let go := fun (s : State) (n v : Nat) =>
        let k := { k with word := some (w, v) }
        match nextBit v (if w = k.pos / 64 then k.pos % 64 else 0) with
        | some b => .ok s n { k with bit := some (64 * w + b) }
        | none => Ix.search x lane fuel s n k (w + 1)
      match (match k.word with | some (i, v) => if i = w then some v else none | none => none) with
      | some v => go s n v
      | none =>
        if castLimit ≤ n then .full s n { k with pos := max k.pos (64 * w) }
        else match x.streamRead s lane (k.r.base + 8 * w) 8 with
          | .error (s, t) => .fault s t
          | .ok (s, v) => go s (n + 1) v

/-- Whether a stream has ended: a bitmap stream is searched (17 R356), and one found ended is not searched again, so that each
of its words counts once (17 R362). -/
def Ix.ended (x : Ix) (lane : Nat) (s : State) (n : Nat) (k : Walk) : Got (Walk × Bool) :=
  if k.r.enc = 2 then
    if k.past then .ok s n (k, true)
    else if k.bit.isSome then .ok s n (k, false)
    else (x.search lane (castLimit + 2) s n k (k.pos / 64)).bind (fun k => (k, false)) fun s n k => .ok s n (k, k.bit.isNone)
  else .ok s n (k, decide (k.r.count ≤ k.pos))

/-- The head of stream `strm` (0 A, 1 B), which has not ended (17 R356): read and checked once. -/
def Ix.headOf (x : Ix) (lane raddr strm : Nat) (s : State) (n : Nat) (k : Walk) : Got Walk :=
  if k.head.isSome then .ok s n k
  else
    let sorted := fun (s : State) (n v next : Nat) =>
      if k.pos = 0 ∨ k.last < v then .ok s n { k with head := some (v, (k.r.pbase + k.pos) % 2 ^ 32, next, v) }
      else .fault s (Trap.unsorted raddr k.pos strm v k.last lane)
    match k.r.enc, k.bit with
    | 2, some b =>
      if 2 ^ 32 ≤ k.r.first + b then .fault s (Trap.cast 3 raddr lane)
      else .ok s n { k with head := some (k.r.first + b, (k.r.pbase + k.last) % 2 ^ 32, b + 1, k.last + 1) }
    | 0, _ =>
      if castLimit ≤ n then .full s n k
      else match x.streamRead s lane (k.r.base + 4 * k.pos) 4 with
        | .error (s, t) => .fault s t
        | .ok (s, v) => sorted s (n + 1) v (k.pos + 1)
    | _, _ =>
      if castLimit ≤ n then .full s n k
      else match x.streamRead s lane (k.r.base + 2 * k.pos) 2 with
        | .error (s, t) => .fault s t
        | .ok (s, u) =>
          if u ≠ 0xFFFF then
            (if 2 ^ 32 ≤ k.last + u then .fault s (Trap.cast 3 raddr lane) else sorted s (n + 1) (k.last + u) (k.pos + 1))
          else if k.r.count < k.pos + 3 then .fault s (Trap.cast 3 raddr lane)
          else match x.streamRead s lane (k.r.base + 2 * (k.pos + 1)) 2 with
            | .error (s, t) => .fault s t
            | .ok (s, lo) =>
              match x.streamRead s lane (k.r.base + 2 * (k.pos + 2)) 2 with
              | .error (s, t) => .fault s t
              | .ok (s, hi) => sorted s (n + 1) (lo + hi * 2 ^ 16) (k.pos + 3)

/-- Consume the head of a stream. -/
def Walk.consume (k : Walk) : Walk :=
  match k.head with
  | some (_, _, p, l) => { k with pos := p, last := l, head := none, bit := none }
  | none => k

/-- The value of a head. -/
def Walk.val (k : Walk) : Nat := match k.head with | some h => h.1 | none => 0
/-- The position a head reports. -/
def Walk.rep (k : Walk) : Nat := match k.head with | some h => h.2.1 | none => 0

/-- A command's progress: its streams, the triples given so far, and whether it is done. -/
structure Progress where
  a : Walk
  b : Walk
  out : List (Nat × Nat × Nat)
  done : Bool
deriving DecidableEq, Repr

/-- Give a triple to the next lane. -/
def Progress.emit (p : Progress) (v i j : Nat) : Progress := { p with out := p.out ++ [(v, i, j)] }

/-- One round of INTERSECT, MERGE or EXPAND (17 R361). Whether A or B is asked first if it has ended the spec does not say: the
model searches A first (DEDUCED, log 22). -/
def Ix.castRound (x : Ix) (mode lane raddr : Nat) (s : State) (n : Nat) (p : Progress) : Got Progress :=
  let setA := fun (k : Walk × Bool) => { p with a := k.1 }
  (x.ended lane s n p.a).bind setA fun s n ea =>
    let p := { p with a := ea.1 }
    if mode = 2 then
      if ea.2 then .ok s n { p with done := true }
      else (x.headOf lane raddr 0 s n p.a).bind (fun k => { p with a := k }) fun s n k =>
        .ok s n ({ p with a := k.consume }.emit k.val k.rep 0xFFFFFFFF)
    else if mode = 0 && ea.2 then .ok s n { p with done := true }
    else
      (x.ended lane s n p.b).bind (fun k => { p with b := k.1 }) fun s n eb =>
        let p := { p with b := eb.1 }
        if (ea.2 && eb.2) || (decide (mode = 0) && eb.2) then .ok s n { p with done := true }
        else
          let hA : Got Walk := if ea.2 then .ok s n p.a else x.headOf lane raddr 0 s n p.a
          hA.bind (fun k => { p with a := k }) fun s n ka =>
            let p := { p with a := ka }
            let hB : Got Walk := if eb.2 then .ok s n p.b else x.headOf lane raddr 1 s n p.b
            hB.bind (fun k => { p with b := k }) fun s n kb =>
              let p := { p with b := kb }
              let onlyA := eb.2 || (!ea.2 && decide (ka.val < kb.val))
              let onlyB := ea.2 || (!eb.2 && decide (kb.val < ka.val))
              .ok s n (
                if onlyA then
                  (if mode = 0 then { p with a := ka.consume } else { p with a := ka.consume }.emit ka.val ka.rep 0xFFFFFFFF)
                else if onlyB then
                  (if mode = 0 then { p with b := kb.consume } else { p with b := kb.consume }.emit kb.val 0xFFFFFFFF kb.rep)
                else { p with a := ka.consume, b := kb.consume }.emit ka.val ka.rep kb.rep)

/-- The scan of INTERSECT, MERGE and EXPAND for `room` lanes. -/
def Ix.castScan (x : Ix) (mode lane raddr room : Nat) : Nat → State → Nat → Progress → Got Progress
  | 0, s, n, p => .full s n p
  | fuel + 1, s, n, p =>
    if room ≤ p.out.length ∨ p.done then .ok s n p
    else (x.castRound mode lane raddr s n p).bind id fun s n p => Ix.castScan x mode lane raddr room fuel s n p

/-- A ROWSPLIT command's progress: the row, the next non-zero, the row pointers read, and the triples. -/
structure Rows where
  row : Nat
  nz : Nat
  rps : List (Nat × Nat)
  out : List (Nat × Nat × Nat)
  done : Bool
deriving DecidableEq, Repr

/-- A row pointer the command has read. -/
def Rows.rp (p : Rows) (i : Nat) : Option Nat := (p.rps.find? fun e => e.1 = i).map (·.2)

/-- Read row pointer i, where the command has not: it is at most COUNT of the columns (17 R361). -/
def Ix.rowPointer (x : Ix) (lane raddr : Nat) (A B : Stream) (i : Nat) (s : State) (n : Nat) (p : Rows) : Got (Rows × Nat) :=
  match p.rp i with
  | some v => .ok s n (p, v)
  | none =>
    if castLimit ≤ n then .full s n (p, 0)
    else match x.streamRead s lane (A.base + 4 * i) 4 with
      | .error (s, t) => .fault s t
      | .ok (s, v) =>
        match p.rp (i - 1) with
        | some u =>
          if 0 < i ∧ v < u then .fault s (Trap.unsorted raddr i 0 v u lane)
          else if B.count < v then .fault s (Trap.cast 2 raddr lane)
          else .ok s (n + 1) ({ p with rps := (i, v) :: p.rps }, v)
        | none =>
          if B.count < v then .fault s (Trap.cast 2 raddr lane)
          else .ok s (n + 1) ({ p with rps := (i, v) :: p.rps }, v)

/-- The scan of ROWSPLIT for `room` lanes (17 R361): each round advances a row or gives a non-zero. A row pointer is read
after its predecessor. -/
def Ix.rowScan (x : Ix) (lane raddr room : Nat) (A B : Stream) (nzend : Nat) : Nat → State → Nat → Rows → Got Rows
  | 0, s, n, p => .full s n p
  | fuel + 1, s, n, p =>
    if room ≤ p.out.length then .ok s n p
    else if B.count < nzend then .fault s (Trap.cast 2 raddr lane)
    else if nzend ≤ p.nz then .ok s n { p with done := true }
    else if A.count ≤ p.row + 1 then .fault s (Trap.cast 2 raddr lane)
    else
      let pred : Got (Rows × Nat) := if (p.rp (p.row + 1)).isSome then .ok s n (p, 0) else x.rowPointer lane raddr A B p.row s n p
      pred.bind (·.1) fun s n r =>
        (x.rowPointer lane raddr A B (p.row + 1) s n r.1).bind (·.1) fun s n r =>
          let q := r.1
          if r.2 ≤ q.nz then Ix.rowScan x lane raddr room A B nzend fuel s n { q with row := q.row + 1 }
          else if castLimit ≤ n then .full s n q
          else match x.streamRead s lane (B.base + 4 * q.nz) 4 with
            | .error (s, t) => .fault s t
            | .ok (s, c) =>
              Ix.rowScan x lane raddr room A B nzend fuel s (n + 1) { q with
                nz := q.nz + 1, out := q.out ++ [(c, (A.pbase + q.row) % 2 ^ 32, (B.pbase + q.nz) % 2 ^ 32)] }

/-- Rounds of a scan: each consumes an entry, at most 64 of which stand in one word read. -/
def castFuel : Nat := 2 ^ 20

/-! ## CAST and its engine (17 R358 to R365) -/

/-- Write the results of a command that stops (17 R363). -/
def Ix.castResult (x : Ix) (s : State) (n : Nat) (d : BitVec 7) (cur : BitVec 2) (kd : BitVec 3) (gs : BitVec 6)
    (out : List (Nat × Nat × Nat)) (done : Bool) (w0 w1 w2 w3 : Nat) : Res :=
  let filled := x.lanes.zip out
  let put := fun (W : Warp) (e : Nat × Nat × Nat × Nat) =>
    ((W.setReg e.1 d.toNat (BitVec.ofNat 32 e.2.1)).setReg e.1 (d.toNat + 1) (BitVec.ofNat 32 e.2.2.1)).setReg e.1 (d.toNat + 2)
      (BitVec.ofNat 32 e.2.2.2)
  .ok (s.modWarp x.w fun W =>
    ((((filled.foldl put W).setKLanes kd.toNat x.P.lanes (maskOf (filled.map (·.1)))).setG gs.toNat
      (BitVec.ofNat 64 (filled.length + bitN done 16 + n * 2 ^ 32))).setCur cur.toNat w0 w1 w2 w3)) none

/-- Read the records of a command: their numbers; the second where the mode uses two (17 R355, R360 steps 4 and 5). -/
def Ix.castRecords (x : Ix) (s : State) (mode va : Nat) : Except (State × Trap) (State × Nat × Nat) :=
  match x.streamRead s x.low va 32 with
  | .error t => .error t
  | .ok (s, a) =>
    match (if mode = 2 then .ok (s, 0) else x.streamRead s x.low (va + 32) 32 : Except (State × Trap) (State × Nat)) with
    | .error t => .error t
    | .ok (s, b) =>
      if !streamOk mode a || (decide (mode ≠ 2) && !streamOk mode b) then .error (s, Trap.cast 1 va x.low) else .ok (s, a, b)

/-- The record address of a command: a.d of the lowest lane. -/
def Ix.castVa (x : Ix) (a : BitVec 7) : Nat := (x.srcPair a.toNat x.low).toNat % 2 ^ 56

/-- Run a command to its stop (17 R361 to R363). -/
def castBody (x : Ix) (s : State) (d a : BitVec 7) (mode cur : BitVec 2) (kd : BitVec 3) (gs : BitVec 6) : Res :=
  let va := x.castVa a
  match x.castRecords s mode.toNat va with
  | .error (s, t) => .trap s t
  | .ok (s1, ra, rb) =>
    let A := Stream.of ra
    let B := Stream.of rb
    let w := x.W.curWord cur.toNat
    let fin := fun (s : State) n out done => x.castResult s n d cur kd gs out done
    if mode = 3 then
      let stop := fun s n (p : Rows) => fin s n p.out p.done p.row p.nz (w 2) 0
      match x.rowScan x.low va x.lanes.length A B (w 2) castFuel s1 0 ⟨w 0, w 1, [], [], false⟩ with
      | .fault s t => .trap s t
      | .ok s n p => stop s n p
      | .full s n p => stop s n p
    else
      let stop := fun s n (p : Progress) =>
        if mode = 2 then fin s n p.out p.done p.a.pos p.a.last (w 2) (w 3) else fin s n p.out p.done p.a.pos p.a.last p.b.pos p.b.last
      match x.castScan mode.toNat x.low va x.lanes.length castFuel s1 0
          ⟨⟨A, w 0, w 1, none, none, none, false⟩, ⟨B, w 2, w 3, none, none, none, false⟩, [], false⟩ with
      | .fault s t => .trap s t
      | .ok s n p => stop s n p
      | .full s n p => stop s n p

/-- Commands an engine takes: one that runs and eight that wait (17 R364). -/
def castPlaces : Nat := 9

/-- The cast commands of a core. -/
def State.castQueue (s : State) (core : Nat) : List CastCmd := tget [] s.casts core
/-- Replace the cast commands of a core. -/
def State.setCastQueue (s : State) (core : Nat) (q : List CastCmd) : State := { s with casts := tput [] s.casts core q }

/-- CAST (17 R358 to R364): its command enters the engine, and the path waits in place for it, or for a place. -/
def execCast (e : Bool) (d a : BitVec 7) (mode cur : BitVec 2) (kd : BitVec 3) (gs : BitVec 6) (s : State) :
    Host.Outcome State Fault Refusal :=
  run (.cast e d a mode cur kd gs) s fun x => withOperands x s [.group d.toNat 3 1, .srcPair a.toNat] fun _ =>
    if kd = 0 then .trap s (Trap.operand 0)
    else withUniform x s [gs.toNat] fun _ =>
      if x.castVa a % 32 ≠ 0 then .trap s ⟨10, 0, x.castVa a, 0, 0, some x.low⟩
      else if s.castWaits x.w x.low then .stall
      else if (s.castQueue x.core).length < castPlaces then
        .wait (s.setCastQueue x.core (s.castQueue x.core ++ [⟨x.w, false⟩])) .castRun
      else .wait s .castPlace

/-- CAST_COMMAND_START (17 R364): the engine starts the first command. -/
def execCastCommandStart (core : Nat) (s : State) : Host.Outcome State Fault Refusal :=
  .next (match s.castQueue core with
    | c :: rest => s.setCastQueue core ({ c with started := true } :: rest)
    | [] => s)

/-- A path that waits for a place in a core's engine takes one, if there is one; which of several is a free value. -/
def State.admitCast (s : State) (core : Nat) : State :=
  let ws := (List.range' (48 * core) 48).filter fun w => match s.waiter w with | some (_, k) => decide (k.kind = .castPlace) | none => false
  match ws[Config.castTurn s.free % ws.length]? with
  | some w =>
    if (s.castQueue core).length < castPlaces then
      match s.waiter w with
      | some (x, k) =>
        (s.setCastQueue core (s.castQueue core ++ [⟨w, false⟩])).modWarp w fun W =>
          W.modPath x.low fun P => { P with wait := some { k with kind := .castRun } }
      | none => s
    else s
  | none => s

/-- CAST_COMMAND_STOP (17 R363 to R365): the command that runs stops or faults, and a path that waits for a place takes it. -/
def execCastCommandStop (core : Nat) (s : State) : Host.Outcome State Fault Refusal :=
  .next ((match s.castQueue core with
    | c :: rest =>
      if c.started then
        let s := s.setCastQueue core rest
        match s.waiter c.w with
        | some (x, k) =>
          match k.kind, k.instr with
          | .castRun, .cast _ d a mode cur kd gs => finish x k.instr s (castBody x s d a mode cur kd gs)
          | _, _ => s
        | none => s
      else s
    | [] => s).admitCast core)

/-! ## CASTI, CASTSPLIT, CASTRD, CASTWR (17 R367 to R369) -/

/-- The row pointers at both ends of a ROWSPLIT command's stream A, checked (17 R367). -/
def Ix.rowEnds (x : Ix) (s : State) (va : Nat) (A B : Stream) : Except (State × Trap) (State × Nat × Nat) :=
  if A.count = 0 then .error (s, Trap.cast 1 va x.low)
  else match x.streamRead s x.low A.base 4 with
    | .error t => .error t
    | .ok (s, r0) =>
      match x.streamRead s x.low (A.base + 4 * (A.count - 1)) 4 with
      | .error t => .error t
      | .ok (s, r1) =>
        if r1 < r0 then .error (s, Trap.unsorted va (A.count - 1) 0 r1 r0 x.low)
        else if B.count < r1 then .error (s, Trap.cast 2 va x.low)
        else .ok (s, r0, r1)

/-- CASTI (17 R367). -/
def execCasti (e : Bool) (a : BitVec 7) (m c : BitVec 2) (s : State) : Host.Outcome State Fault Refusal :=
  run (.casti e a m c) s fun x => withOperands x s [.srcPair a.toNat] fun _ =>
    if s.castWaits x.w x.low then .stall
    else match x.castRecords s m.toNat (x.castVa a) with
      | .error (s, t) => .trap s t
      | .ok (s1, ra, rb) =>
        let A := Stream.of ra
        let B := Stream.of rb
        let first := fun (r : Stream) => if r.enc = 2 then 0 else r.first
        let set := fun (s : State) w0 w1 w2 w3 => Res.ok (s.modWarp x.w fun W => W.setCur c.toNat w0 w1 w2 w3) none
        if m = 3 then
          match x.rowEnds s1 (x.castVa a) A B with
          | .error (s, t) => .trap s t
          | .ok (s2, r0, r1) => set s2 0 r0 r1 0
        else if m = 2 then set s1 0 (first A) 0 0
        else set s1 0 (first A) 0 (first B)

/-- The merge-path search of CASTSPLIT: it keeps rp(lo) ≤ t, and checks each pointer against the two ends (17 R368). -/
def Ix.splitSearch (x : Ix) (va : Nat) (A : Stream) (r0 r1 t : Nat) : Nat → State → Nat → Nat → Except (State × Trap) (State × Nat)
  | 0, s, lo, _ => .ok (s, lo)
  | fuel + 1, s, lo, hi =>
    if hi ≤ lo + 1 then .ok (s, lo)
    else
      let mid := (lo + hi) / 2
      match x.streamRead s x.low (A.base + 4 * mid) 4 with
      | .error e => .error e
      | .ok (s, v) =>
        if v < r0 then .error (s, Trap.unsorted va mid 0 v r0 x.low)
        else if r1 < v then .error (s, Trap.unsorted va mid 0 v r1 x.low)
        else if v ≤ t then Ix.splitSearch x va A r0 r1 t fuel s mid hi
        else Ix.splitSearch x va A r0 r1 t fuel s lo mid

/-- CASTSPLIT (17 R368). With COUNT_A = 1 there is no row to find, the spec gives no W0, and the model writes a free value (log
3). -/
def execCastsplit (e : Bool) (c : BitVec 2) (a b : BitVec 7) (s : State) : Host.Outcome State Fault Refusal :=
  run (.castsplit e c a b) s fun x => withOperands x s [.regPair a.toNat, .reg b.toNat] fun _ =>
    if s.castWaits x.w x.low then .stall
    else
      let va := x.castVa a
      match x.castRecords s 3 va with
      | .error (s, t) => .trap s t
      | .ok (s1, ra, rb) =>
        let A := Stream.of ra
        let v := (x.W.reg x.low b.toNat).toNat
        let i := v % 2 ^ 16
        let n := v / 2 ^ 16
        if n ≤ i then .trap s1 (Trap.cast 1 va x.low)
        else match x.rowEnds s1 va A (Stream.of rb) with
          | .error (s, t) => .trap s t
          | .ok (s2, r0, r1) =>
            let from' := r0 + i * (r1 - r0) / n
            match x.splitSearch va A r0 r1 from' 33 s2 0 (A.count - 1) with
            | .error (s, t) => .trap s t
            | .ok (s3, r) =>
              let r := if A.count = 1 then Config.emptySplit s3.free else r
              .ok (({ s3 with free := s3.free + 1 }).modWarp x.w fun W =>
                W.setCur c.toNat r from' (r0 + (i + 1) * (r1 - r0) / n) 0) none

/-- CASTRD (17 R369): it writes a latch of W0. -/
def execCastrd (e n : Bool) (d : BitVec 7) (c : BitVec 2) (s : State) : Host.Outcome State Fault Refusal :=
  run (.castrd e n d c) s fun x => withOperands x s [.group d.toNat 4 4] fun _ =>
    let w := fun j => BitVec.ofNat 32 (x.W.curWord c.toNat j)
    let put := fun (W : Warp) l => (List.range 4).foldl (fun W j => W.setReg l (d.toNat + j) (w j)) W
    .ok (if n then s else s.setWarp x.w (x.lanes.foldl put x.W)) (some (latchOf false (x.lanes.map fun l => (l, (w 0).setWidth 64))))

/-- CASTWR (17 R369). -/
def execCastwr (e : Bool) (a : BitVec 7) (c : BitVec 2) (s : State) : Host.Outcome State Fault Refusal :=
  run (.castwr e a c) s fun x => withOperands x s [.group a.toNat 4 4] fun _ =>
    let w := fun j => (x.W.reg x.low (a.toNat + j)).toNat
    .ok (s.setWarp x.w (x.W.setCur c.toNat (w 0) (w 1) (w 2) (w 3))) none

end Sys2Proof.Machine
end

