-- ==== Sys2Proof/Machine/Control.lean ====
section
/-! DEFINITION. Control transfers, the return stack, rejoin registers, barriers, EXIT, YIELD, NOP and hints (03 R89 to
R98; 05 R134 to R139; 06 R154 to R163, R172 to R176; 02 R60, R61). -/

namespace Sys2Proof.Machine

/-! ## Targets -/

/-- The fall-through address (03 R90). -/
def Ix.next (x : Ix) : VAddr := x.P.pc + 4

/-- The target of a relative transfer with an offset of w bits (02 R47). -/
def Ix.rel {w : Nat} (x : Ix) (off : BitVec w) : VAddr := x.P.pc + BitVec.ofInt 56 (4 * off.toInt)

/-- A target that a transfer may take (01 R21). -/
def targetOk (t : VAddr) : Bool := decide (t.toNat % 4 = 0) && canonical t.toNat

/-- The branch-target fault of the lowest lane whose target fails (01 R21; 03 R90). -/
def targetTrap (f : List (Nat × VAddr)) : Option Trap :=
  (f.find? fun e => !targetOk e.2).map fun e => ⟨3, 0, e.2.toNat, 0, 0, some e.1⟩

/-- The target, in every lane of the path. -/
def Ix.toAll (x : Ix) (t : VAddr) : List (Nat × VAddr) := x.lanes.map fun l => (l, t)

/-- Bits [55:0] of a pair in every lane (03 R92). -/
def Ix.toPairs (x : Ix) (a : Nat) : List (Nat × VAddr) := x.lanes.map fun l => (l, (x.srcPair a l).setWidth 56)

/-- A branch: `all` lists the targets to check, taken or not; `f` the next PC of each lane (03 R90). -/
def branch (s : State) (all f : List (Nat × VAddr)) : Res :=
  match targetTrap all with
  | some t => .trap s t
  | none => .move s f

/-- A branch of the lanes that `taken` selects. -/
def Ix.branchIf (x : Ix) (s : State) (t : VAddr) (taken : Nat → Bool) : Res :=
  branch s (x.toAll t) (x.lanes.map fun l => (l, if taken l then t else x.next))

/-! ## The return stack (01 R22; 03 R93 to R96) -/

/-- Hardware entries of a lane, newest first. -/
def Warp.stackOf (W : Warp) (l : Nat) : List VAddr := tget [] W.stack l
/-- Spilled entries of a lane. -/
def Warp.spillOf (W : Warp) (l : Nat) : Nat := tget 0 W.spill l
/-- Replace the stack of a lane. -/
def Warp.setStack (W : Warp) (l : Nat) (st : List VAddr) (n : Nat) : Warp :=
  { W with stack := tput [] W.stack l st, spill := tput 0 W.spill l n }

/-- Lanes of the path that hold eight hardware entries. -/
def Ix.spilling (x : Ix) : List Nat := x.lanes.filter fun l => decide (8 ≤ (x.W.stackOf l).length)

/-- Push the return address in one lane: its oldest entry is dropped where it was spilled (03 R95). -/
def Warp.push (W : Warp) (l : Nat) (ra : VAddr) : Warp :=
  if 8 ≤ (W.stackOf l).length then W.setStack l (ra :: (W.stackOf l).dropLast) (W.spillOf l + 1)
  else W.setStack l (ra :: W.stackOf l) (W.spillOf l)

/-- Push the return address in every lane of the path, spilling where a lane holds eight (03 R93, R95, R96). The overflow of
one lane comes before the faults of another's spill, an order that the spec does not give (DESIGN CHOICE, log 9). -/
def Ix.pushAll (x : Ix) (s : State) : Except Trap State :=
  match firstLane x.spilling fun l => if x.W.spillOf l = 8192 then some (Trap.of 5) else none with
  | some t => .error t
  | none =>
    match x.privateAcc s .store 8 x.spilling fun l => 8 * x.W.spillOf l with
    | .error t => .error t
    | .ok as =>
      let s := (x.keepLeaves s as).addStores
        (as.zipIdx.map fun e => x.pstore s e.2 e.1 (leBytes 8 (((x.W.stackOf e.1.lane).getLast?).getD 0).toNat))
      .ok (s.setWarp x.w (x.lanes.foldl (fun W l => W.push l x.next) x.W))

/-- A call: the targets are checked, then the return address is pushed, then the path moves (03 R93). The spec gives no
order between the branch-target fault and the faults of the push: the model raises the branch-target fault first (DESIGN
CHOICE, log 9). -/
def Ix.call (x : Ix) (s : State) (f : List (Nat × VAddr)) : Res :=
  match targetTrap f with
  | some t => .trap s t
  | none =>
    match x.pushAll s with
    | .error t => .trap s t
    | .ok s => .move s f

/-- Lanes whose return comes from private memory (03 R94). -/
def Ix.refilling (x : Ix) : List Nat := x.lanes.filter fun l => (x.W.stackOf l).isEmpty

/-- The return addresses of the path's lanes (03 R94): those of lanes with a hardware entry, and those loaded, each by an
ordinary private load of its thread, from L1 or into it (03 R96); what is done with them. -/
def Ix.returns (x : Ix) (s : State) (k : State → List (Nat × VAddr) → Res) : Res :=
  match firstLane x.refilling fun l => if x.W.spillOf l = 0 then some (Trap.of 4) else none with
  | some t => .trap s t
  | none =>
    match x.privateAcc s .load 8 x.refilling fun l => 8 * (x.W.spillOf l - 1) with
    | .error t => .trap s t
    | .ok as =>
      let load := fun (a : MemAcc) => x.outst s 0 a false false 0 0
      if as.any fun a => s.laneLoadOn x.w a.lane a.pas then .stall
      else match as.find? fun a => !s.served (load a) with
        | some a => .trap s (dataTrap a.va a.lane)
        | none =>
          let loaded := as.map fun a => (a.lane, BitVec.ofNat 56 (s.loadValue (load a)))
          k (x.keepLeaves (as.foldl (fun s a => s.fillFor (load a)) s) as)
            (x.lanes.map fun l => (l, match x.W.stackOf l with
              | t :: _ => t
              | [] => ((loaded.find? fun e => e.1 = l).map (·.2)).getD 0))

/-- Pop the entry a lane returned to. -/
def Warp.pop (W : Warp) (l : Nat) : Warp :=
  match W.stackOf l with
  | _ :: r => W.setStack l r (W.spillOf l)
  | [] => W.setStack l [] (W.spillOf l - 1)

/-! ## Rejoin registers (05 R134 to R138) -/

/-- Release rejoin register n where AR is nonzero and equals EN (05 R136): the warp, and whether it was released. -/
def Warp.release (W : Warp) (n : Nat) : Warp × Bool :=
  let r := W.join n
  if r.ar ≠ 0 ∧ r.en = r.ar then
    let f := (lanesOf r.ar).map fun l => (l, tget 0 W.cont l)
    ({ W.setJoin n Rejoin.zero with
        paths := (targets f).foldl (fun ps t => insertPath (Path.fresh (lanesTo f t) t) ps) W.paths
        cont := (lanesOf r.ar).foldl (fun c l => tput 0 c l 0) W.cont }, true)
  else (W, false)

/-- Check rejoin registers for release, in the order given. -/
def Warp.releases (W : Warp) : List Nat → Warp × Bool
  | [] => (W, false)
  | n :: r =>
    let a := W.release n
    let b := a.1.releases r
    (b.1, a.2 || b.2)

/-- Raise the rejoin-deadlock fault where no path is left, a lane is parked and nothing was released (05 R138). -/
def deadlock (x : Ix) (s : State) (released : Bool) : State :=
  match s.warp x.w with
  | none => s
  | some W =>
    if W.paths.isEmpty && decide (W.live &&& ~~~W.exited ≠ 0) && !released then
      (s.setWarp x.w { W with dead := some (x.P.pc, x.low, x.words) }).holdTeam x.W.team fun h =>
        { h with recs := h.recs ++ [x.record 3 8 0 0 0 0 x.low] }
    else s

/-- Park the lanes of the path that are enrolled in jn; the others go on at the next word (05 R135; 06 R162). -/
def Warp.park (W : Warp) (n : Nat) (P : Path) (cont : VAddr) : Warp :=
  let r := W.join n
  let L := P.lanes &&& r.en
  let W := { W.setJoin n ⟨r.en, r.ar ||| L⟩ with cont := (lanesOf L).foldl (fun c l => tput 0 c l cont) W.cont }
  let rest := P.lanes &&& ~~~L
  match W.path (lowest P.lanes) with
  | none => W
  | some Q =>
    let W := W.dropPath (lowest P.lanes)
    if rest = 0 then W else { W with paths := insertPath { Q with lanes := rest } W.paths }

/-! ## Barriers (06 R173 to R175) -/

/-- Every thread of the warp that has not exited is in a path blocked at `b`. -/
def Warp.arrived (W : Warp) (b : Block) : Bool :=
  decide ((W.paths.filter fun P => P.block = some b).foldl (fun m P => m ||| P.lanes) 0 = W.live &&& ~~~W.exited)

/-- Some path of the warp is blocked at `b`. -/
def Warp.waits (W : Warp) (b : Block) : Bool := W.paths.any fun P => P.block = some b

/-- The warps of a team. -/
def State.warpsOf (s : State) (T : Team) : List (Nat × Warp) := T.slots.filterMap fun w => (s.warp w).map fun W => (w, W)

/-- Every covered thread of the teams has arrived at `b`. -/
def State.barrierDone (s : State) (ts : List Team) (b : Block) : Bool :=
  ts.all (·.started) && (ts.any fun T => (s.warpsOf T).any fun e => e.2.waits b) &&
  ts.all fun T => (s.warpsOf T).all fun e => e.2.arrived b

/-- Complete a barrier: the blocked paths are ready, and each covered core acquires (06 R173, R175; 10 R235). -/
def State.passBarrier (s : State) (ts : List Team) (b : Block) : State :=
  let s := ts.foldl (fun s T => T.slots.foldl (fun s w => s.modWarp w fun W =>
    { W with paths := W.paths.map fun P => if P.block = some b then { P with block := none } else P }) s) s
  ts.foldl (fun s T =>
    if wideScope T (if b = .bar then 1 else 5) then
      T.cores.foldl (fun s c => s.l1Drop c fun e => decide (e.ctx = T.ctx)) s
    else s) s

/-- The teams that a team's barrier `b` covers. -/
def State.covered (s : State) (T : Team) (b : Block) : List Team :=
  if b = .bar then [T] else s.teams.filterMap fun e => match e.2 with | some U => if U.launch = T.launch then some U else none | none => none

/-- Complete the barrier `b` of team t if every covered thread has arrived. -/
def State.checkBarrier (s : State) (t : Nat) (b : Block) : State :=
  match s.team t with
  | none => s
  | some T => if s.barrierDone (s.covered T b) b then s.passBarrier (s.covered T b) b else s

/-- Arrive at a barrier and block (06 R173); memory before it is released at the barrier's scope first (06 R175). -/
def arrive (x : Ix) (i : Instr) (s : State) (sc : Nat) (b : Block) : Res :=
  if x.releaseWaits s sc then .stall
  else .gone (((retire x i s none).modWarp x.w fun W => W.modPath x.low fun P => { P with block := some b }).checkBarrier x.W.team b)

/-! ## EXIT (03 R97) -/

/-- The warp after the path has exited: its lanes leave, are struck from every rejoin register, and lose their stacks
and monitors; then every register the EXIT changed is checked for release (05 R135). -/
def Warp.exitPath (W : Warp) (P : Path) : Warp × Bool :=
  let changed := (List.range 8).filter fun n => decide ((W.join n).en &&& P.lanes ≠ 0)
  let ls := lanesOf P.lanes
  let W := changed.foldl (fun W n => W.setJoin n ⟨(W.join n).en &&& ~~~P.lanes, (W.join n).ar⟩) W
  let W := { W.dropPath (lowest P.lanes) with
    exited := W.exited ||| P.lanes
    stack := ls.foldl (fun t l => tput [] t l []) W.stack
    spill := ls.foldl (fun t l => tput 0 t l 0) W.spill
    mon := ls.foldl (fun t l => tput none t l none) W.mon }
  W.releases changed

/-- The results of the loads the path's lanes have outstanding are discarded (03 R97). -/
def State.discardLoads (s : State) (w : Nat) (lanes : Mask) : State :=
  { s with loads := s.loads.map fun o => if decide (o.w = w) && lanes.getLsbD o.lane && !o.uni then { o with nreg := 0 } else o }

/-! ## Instructions -/

/-- BR (03 R91). -/
def execBr (o : BitVec 21) (s : State) : Host.Outcome State Fault Refusal :=
  run (.br o) s fun x => branch s (x.toAll (x.rel o)) (x.toAll (x.rel o))

/-- BRZ (03 R91): its a operand is checked, and waited for, before its target, an order that the spec does not give (DESIGN
CHOICE, log 9). -/
def execBrz (a : BitVec 7) (o : BitVec 14) (s : State) : Host.Outcome State Fault Refusal :=
  run (.brz a o) s fun x => withOperands x s [.src a.toNat] fun _ =>
    x.branchIf s (x.rel o) fun l => decide (x.src a.toNat l = 0)

/-- BRNZ (03 R91), in the order of BRZ. -/
def execBrnz (a : BitVec 7) (o : BitVec 14) (s : State) : Host.Outcome State Fault Refusal :=
  run (.brnz a o) s fun x => withOperands x s [.src a.toNat] fun _ =>
    x.branchIf s (x.rel o) fun l => decide (x.src a.toNat l ≠ 0)

/-- BRX (03 R92). -/
def execBrx (a : BitVec 7) (s : State) : Host.Outcome State Fault Refusal :=
  run (.brx a) s fun x => withOperands x s [.srcPair a.toNat] fun _ =>
    branch s (x.toPairs a.toNat) (x.toPairs a.toNat)

/-- CALL (03 R93). -/
def execCall (o : BitVec 21) (s : State) : Host.Outcome State Fault Refusal :=
  run (.call o) s fun x => x.call s (x.toAll (x.rel o))

/-- CALLX (03 R93). -/
def execCallx (a : BitVec 7) (s : State) : Host.Outcome State Fault Refusal :=
  run (.callx a) s fun x => withOperands x s [.srcPair a.toNat] fun _ => x.call s (x.toPairs a.toNat)

/-- RET (03 R94). -/
def execRet (s : State) : Host.Outcome State Fault Refusal :=
  run .ret s fun x =>
    x.returns s fun s1 f =>
      match targetTrap f with
      | some t => .trap s t
      | none => .move (s1.setWarp x.w (x.lanes.foldl Warp.pop x.W)) f

/-- EXIT (03 R97). -/
def execExit (s : State) : Host.Outcome State Fault Refusal :=
  run .exit s fun x =>
    let s := (s.endScene x.w x.low).discardLoads x.w x.P.lanes
    match s.warp x.w with
    | none => .gone s
    | some W =>
      let r := W.exitPath x.P
      let s := s.modTeam x.W.team fun T => { T with last := s.nextId }
      let s := (deadlock x (s.setWarp x.w r.1) r.2).checkBarrier x.W.team .bar
      .gone (if x.T.gang then s.checkBarrier x.W.team .barg else s)

/-- NOP (03 R98). -/
def execNop (e : Bool) (s : State) : Host.Outcome State Fault Refusal := run (.nop e) s fun _ => .ok s none

/-- HINT: executes as NOP (02 R61). -/
def execHint (e x : Bool) (h : BitVec 4) (y : BitVec 21) (s : State) : Host.Outcome State Fault Refusal :=
  run (.hint e x h y) s fun _ => .ok s none

/-- UNASSIGNED_OPCODE: the illegal-instruction fault (02 R60). -/
def execUnassignedOpcode (word : BitVec 32) (s : State) : Host.Outcome State Fault Refusal :=
  run (.unassignedOpcode word) s fun _ => .trap s (Instr.unassignedOpcode word).illegal

/-- ENROL (05 R135; 06 R161). -/
def execEnrol (e : Bool) (j k : BitVec 3) (s : State) : Host.Outcome State Fault Refusal :=
  run (.enrol e j k) s fun x =>
    let r := x.W.join j.toNat
    .ok (s.setWarp x.w (x.W.setJoin j.toNat ⟨r.en ||| (x.P.lanes &&& x.W.mask x.P k.toNat), r.ar⟩)) none

/-- STRIKE (05 R135, R136; 06 R161). -/
def execStrike (e : Bool) (j k : BitVec 3) (s : State) : Host.Outcome State Fault Refusal :=
  run (.strike e j k) s fun x =>
    let r := x.W.join j.toNat
    let en := r.en &&& ~~~(x.P.lanes &&& x.W.mask x.P k.toNat)
    .ok (s.setWarp x.w (if en = r.en then x.W else ((x.W.setJoin j.toNat ⟨en, r.ar⟩).release j.toNat).1)) none

/-- REJOIN (05 R135, R136, R138; 06 R162). -/
def execRejoin (j : BitVec 3) (s : State) : Host.Outcome State Fault Refusal :=
  run (.rejoin j) s fun x =>
    let s := retire x (.rejoin j) s none
    match s.warp x.w with
    | none => .gone s
    | some W =>
      if x.P.lanes &&& (W.join j.toNat).en = 0 then .gone s
      else
        let r := (W.park j.toNat x.P x.next).release j.toNat
        .gone (deadlock x (s.setWarp x.w r.1) r.2)

/-- BRM (06 R163). -/
def execBrm (k : BitVec 3) (o : BitVec 14) (s : State) : Host.Outcome State Fault Refusal :=
  run (.brm k o) s fun x => x.branchIf s (x.rel o) fun l => (x.W.mask x.P k.toNat).getLsbD l

/-- JMP (06 R155). -/
def execJmp (o : BitVec 22) (s : State) : Host.Outcome State Fault Refusal :=
  run (.jmp o) s fun x => branch s (x.toAll (x.rel o)) (x.toAll (x.rel o))

/-- JZ (06 R155). -/
def execJz (a : BitVec 6) (o : BitVec 16) (s : State) : Host.Outcome State Fault Refusal :=
  run (.jz a o) s fun x => withUniform x s [a.toNat] fun _ =>
    x.branchIf s (x.rel o) fun _ => decide (x.W.greg a.toNat = 0)

/-- JNZ (06 R155). -/
def execJnz (a : BitVec 6) (o : BitVec 16) (s : State) : Host.Outcome State Fault Refusal :=
  run (.jnz a o) s fun x => withUniform x s [a.toNat] fun _ =>
    x.branchIf s (x.rel o) fun _ => decide (x.W.greg a.toNat ≠ 0)

/-- GCALL, relative form (06 R156). -/
def execGcall (o : BitVec 22) (s : State) : Host.Outcome State Fault Refusal :=
  run (.gcall o) s fun x => x.call s (x.toAll (x.rel o))

/-- GCALL, register form (06 R156). -/
def execGcallRegister (g : BitVec 6) (s : State) : Host.Outcome State Fault Refusal :=
  run (.gcallRegister g) s fun x => withUniform x s [g.toNat] fun _ =>
    x.call s (x.toAll ((x.W.greg g.toNat).setWidth 56))

/-- YIELD (06 R157). -/
def execYield (s : State) : Host.Outcome State Fault Refusal :=
  run .yield s fun x => .block s (.yield (s.clockOf x.core + 16))

/-- BAR (06 R173). -/
def execBar (s : State) : Host.Outcome State Fault Refusal :=
  run .bar s fun x => arrive x .bar s 1 .bar

/-- BARG (06 R173, R176). -/
def execBarg (s : State) : Host.Outcome State Fault Refusal :=
  run .barg s fun x => if x.T.gang then arrive x .barg s 5 .barg else .trap s (Trap.of 9)

end Sys2Proof.Machine
end

