-- ==== Sys2Proof/Machine/Lanes.lean ====
section
/-! DEFINITION. The cross-lane instructions (06 R164 to R171; tiles 05 R143, R144). -/

namespace Sys2Proof.Machine

/-- The participants of lane l's tile, rising (05 R144; 06 R164). -/
def Ix.tile (x : Ix) (l : Nat) : List Nat := x.lanes.filter fun k => k / x.W.part = l / x.W.part

/-- A cross-lane instruction whose result is a value (06 R164). -/
def crossOp (x : Ix) (s : State) (n : Bool) (d : BitVec 7) (us : List Use) (f : Nat → Word) : Res :=
  laneOp x s n none d us f

/-- A cross-lane instruction whose result is a mask: a pair at width 64 (06 R164). -/
def crossMask (x : Ix) (s : State) (n : Bool) (d : BitVec 7) (us : List Use) (f : Nat → Mask) : Res :=
  if x.T.width = 64 then laneOp64 x s n none d us f else laneOp x s n none d us fun l => (f l).setWidth 32

/-- VOTE (06 R166). -/
def execVote (e n : Bool) (d a : BitVec 7) (m : BitVec 2) (s : State) : Host.Outcome State Fault Refusal :=
  run (.vote e n d a m) s fun x =>
    let v := fun l => x.src a.toNat l
    match m.toNat with
    | 0 => crossOp x s n d [.src a.toNat] fun l => if (x.tile l).any fun k => decide (v k ≠ 0) then 1 else 0
    | 1 => crossOp x s n d [.src a.toNat] fun l => if (x.tile l).all fun k => decide (v k ≠ 0) then 1 else 0
    | 2 => crossMask x s n d [.src a.toNat] fun l => maskOf ((x.tile l).filter fun k => decide (v k ≠ 0))
    | _ => crossOp x s n d [.src a.toNat] fun l => if (x.tile l).all fun k => decide (v k = v l) then 1 else 0

/-- The index in a tile of P lanes that SHFL reads from index i (06 R167). -/
def shflIndex (P i : Nat) (sel : Word) : Nat :=
  let n := sel.toNat % 64
  match sel.toNat / 2 ^ 8 % 4 with
  | 0 => n % P
  | 1 => if i < n then i else i - n
  | 2 => if P ≤ i + n then i else i + n
  | _ => i ^^^ (n % P)

/-- SHFL (06 R167). -/
def execShfl (e n : Bool) (d a b : BitVec 7) (s : State) : Host.Outcome State Fault Refusal :=
  run (.shfl e n d a b) s fun x => crossOp x s n d [.src a.toNat, .src b.toNat] fun l =>
    let P := x.W.part
    let src := l / P * P + shflIndex P (l % P) (x.src b.toNat l)
    if x.P.lanes.getLsbD src then x.src a.toNat src else x.src a.toNat l

/-- The identity of a combination (06 R165). -/
def combineId (o : Nat) (f : Bool) : Word :=
  match o with
  | 0 => 0
  | 1 => if f then 0x7F800000 else 0x7FFFFFFF
  | 2 => if f then 0xFF800000 else 0x80000000
  | 3 => 0xFFFFFFFF
  | 5 => 0xFFFFFFFF
  | _ => 0

/-- The combination of terms by OP and F, in increasing lane order (06 R165, R168). -/
def combine (o : Nat) (f : Bool) (ts : List Word) : Word :=
  match ts, f with
  | [], _ => combineId o f
  | _, true =>
    match o with
    | 0 => rnd32 Rnd.ne (sumVal 0 (ts.map Val.ofF32))
    | 1 => rnd32 Rnd.ne ((ts.map Val.ofF32).foldl (minVal false) .nan)
    | _ => rnd32 Rnd.ne ((ts.map Val.ofF32).foldl (minVal true) .nan)
  | t :: r, false =>
    match o with
    | 0 => r.foldl (· + ·) t
    | 1 => r.foldl (fun u v => if v.toInt < u.toInt then v else u) t
    | 2 => r.foldl (fun u v => if u.toInt < v.toInt then v else u) t
    | 3 => r.foldl (fun u v => if v.toNat < u.toNat then v else u) t
    | 4 => r.foldl (fun u v => if u.toNat < v.toNat then v else u) t
    | 5 => r.foldl (· &&& ·) t
    | 6 => r.foldl (· ||| ·) t
    | _ => r.foldl (· ^^^ ·) t

/-- REDUX (06 R168). -/
def execRedux (e n : Bool) (d a : BitVec 7) (o : BitVec 3) (f : Bool) (s : State) : Host.Outcome State Fault Refusal :=
  run (.redux e n d a o f) s fun x => crossOp x s n d [.src a.toNat] fun l => combine o.toNat f ((x.tile l).map (x.src a.toNat))

/-- SCAN (06 R168). -/
def execScan (e n : Bool) (d a : BitVec 7) (o : BitVec 3) (f ex : Bool) (s : State) : Host.Outcome State Fault Refusal :=
  run (.scan e n d a o f ex) s fun x => crossOp x s n d [.src a.toNat] fun l =>
    combine o.toNat f (((x.tile l).filter fun k => decide (k < l) || (!ex && decide (k = l))).map (x.src a.toNat))

/-- Equality of .f32 keys: numeric, and a NaN equals nothing (06 R169). -/
def f32KeyEq (u v : Word) : Bool := floatCond 0 (.ofF32 u) (.ofF32 v)

/-- MATCH (06 R169). -/
def execMatchKeys (e n : Bool) (d a : BitVec 7) (k : BitVec 2) (s : State) : Host.Outcome State Fault Refusal :=
  run (.matchKeys e n d a k) s fun x =>
    match k.toNat with
    | 1 => crossMask x s n d [.srcPair a.toNat] fun l =>
        maskOf ((x.tile l).filter fun j => decide (x.srcPair a.toNat j = x.srcPair a.toNat l))
    | 2 => crossMask x s n d [.src a.toNat] fun l =>
        maskOf ((x.tile l).filter fun j => decide (j = l) || f32KeyEq (x.src a.toNat j) (x.src a.toNat l))
    | _ => crossMask x s n d [.src a.toNat] fun l =>
        maskOf ((x.tile l).filter fun j => decide (x.src a.toNat j = x.src a.toNat l))

/-- COMPACT (06 R170). -/
def execCompact (e n : Bool) (d a b : BitVec 7) (s : State) : Host.Outcome State Fault Refusal :=
  run (.compact e n d a b) s fun x => crossOp x s n d [.src a.toNat, .src b.toNat] fun l =>
    let sel := (x.tile l).filter fun k => decide (x.src b.toNat k ≠ 0)
    match sel[(x.tile l).idxOf l]? with
    | some k => x.src a.toNat k
    | none => 0

/-- RDLANE (06 R171): n is checked against the width before the a field, an order the spec does not give (log 9). -/
def execRdlane (e : Bool) (g : BitVec 6) (a : BitVec 7) (w : Bool) (n : BitVec 6) (s : State) : Host.Outcome State Fault Refusal :=
  run (.rdlane e g a w n) s fun x =>
    if x.T.width ≤ n.toNat then .trap s (Trap.operand n.toNat)
    else withOperands x s [if w then .srcPair a.toNat else .src a.toNat] fun _ =>
      uniOp x s g [] fun _ =>
        if x.P.lanes.getLsbD n.toNat then (if w then x.srcPair a.toNat n.toNat else (x.src a.toNat n.toNat).setWidth 64) else 0

/-- BCAST (06 R171). -/
def execBcast (e n : Bool) (d : BitVec 7) (g : BitVec 6) (w : Bool) (s : State) : Host.Outcome State Fault Refusal :=
  run (.bcast e n d g w) s fun x => withUniform x s [g.toNat] fun _ =>
    if w then laneOp64 x s n none d [] fun _ => x.W.greg g.toNat
    else laneOp x s n none d [] fun _ => (x.W.greg g.toNat).setWidth 32

end Sys2Proof.Machine
end

