-- ==== Sys2Proof/Machine/Switch.lean ====
section
/-! DEFINITION. BANK and the switch of the banks it names (14 R294; 15 R323, R324), which ends the waits on their empty lines. -/

namespace Sys2Proof.Machine

/-- The lanes that an instruction waiting on empty lines has still to perform, with their places (11 R254). -/
def Ix.waitingAt (x : Ix) (i : Instr) : List (Nat × Nat × Nat × Nat) :=
  match x.scratchUse i with
  | some (n, lanes, off) => (lanes.filter fun l => !x.P.done.getLsbD l).filterMap fun l => (x.T.scratchAt (off l) n).map fun a => (l, a)
  | none => []

/-- The paths that wait on empty lines, with their instructions. -/
def State.lineWaiters (s : State) : List (Ix × Instr) :=
  (s.warps.filterMap fun e => s.waiter e.1).filterMap fun r => if r.2.kind = .emptyLine then some (r.1, r.2.instr) else none

/-- The waiting lanes whose line in one of the banks, each 32 × core + bank, is full by now are performed (09 R214): they have
reached the bank before it switches (14 R294). -/
def State.performFull (s : State) (bs : List Nat) : State :=
  (s.lineWaiters.filter fun r => (r.1.waitingAt r.2).any fun e => bs.contains (32 * e.2.1 + e.2.2.1)).foldl
    (fun s r => s.releaseLine r.1.w) s

/-- The bank-mode fault of the lowest lane that waits on an empty line of a bank in mash mode (14 R294). -/
def Ix.cutOff (x : Ix) (s : State) (i : Instr) : Option Trap :=
  (x.waitingAt i).findSome? fun e =>
    if (s.bankOf e.2).mash && s.isEmpty e.2 then some ⟨17, 0, 0, x.T.bankIndex e.2, 0, some e.1⟩ else none

/-- Every load and atomic that waits on an empty line of a bank which has left storage mode raises the bank-mode fault for the
lanes still waiting (14 R294): all of them, also those whose waits the hold of the first would end. -/
def State.trapWaiters (s : State) : State :=
  (s.lineWaiters.filterMap fun r => (r.1.cutOff s r.2).map fun t => (r, t)).foldl
    (fun s e => finish e.1.1 e.1.2 s (.trap s e.2)) s

/-- BANK's switch of its banks: the accesses that have reached them in storage mode are performed first. -/
def Ix.switch (x : Ix) (s : State) (bs : List Nat) (m : Bool) : State :=
  ((s.performFull bs).settle fun loc => isScratch loc && bs.contains ((loc - scrLoc) / 2 ^ 18)).switchBanks x.core (bs.map (· % 32)) m

/-- BANK (15 R323): the banks to switch are fixed at its issue. -/
def execBank (e : Bool) (a : BitVec 6) (m : Bool) (s : State) : Host.Outcome State Fault Refusal :=
  run (.bank e a m) s fun x => withUniform x s [a.toNat] fun _ =>
    let mask := (x.W.greg a.toNat).toNat
    if x.badMask mask then .trap s (Trap.operand a.toNat)
    else
      let bs := (((x.named mask).map (·.2)).filter fun b => (s.bank x.core b).mash != m).map fun b => 32 * x.core + b
      if x.mayswitch s bs then .ok ((x.switch s bs m).trapWaiters) none else .wait s (.bankSwitch bs)

/-- BANK_SWITCH (14 R294; 15 R323). -/
def execBankSwitch (w : Nat) (s : State) : Host.Outcome State Fault Refusal :=
  .next (match s.waiter w with
    | none => s
    | some (x, k) =>
      match k.kind, k.instr with
      | .bankSwitch bs, .bank _ _ m =>
        if x.mayswitch s bs then (retire x k.instr (x.switch s bs m) none).trapWaiters else s
      | _, _ => s)

end Sys2Proof.Machine
end

