-- ==== Sys2Proof/Machine/Uniform.lean ====
section
/-! DEFINITION. The uniform scalar instructions, mask operations, SREAD and PARTSET (06 R148 to R150, R153, R158, R159;
02 R49). -/

namespace Sys2Proof.Machine

/-- A uniform instruction on two g registers (06 R150). -/
def uniBin (x : Ix) (s : State) (d a b : BitVec 6) (f : DWord → DWord → DWord) : Res :=
  uniOp x s d [a.toNat, b.toNat] fun _ => f (x.W.greg a.toNat) (x.W.greg b.toNat)

/-- A left shift by a full 64-bit count (06 R150). -/
def shl64 (a b : DWord) : DWord := if 64 ≤ b.toNat then 0 else a <<< b.toNat
/-- A logical right shift. -/
def shr64 (a b : DWord) : DWord := if 64 ≤ b.toNat then 0 else a >>> b.toNat
/-- An arithmetic right shift. -/
def sar64 (a b : DWord) : DWord := a.sshiftRight (min b.toNat 63)

/-- A mask operation with destination kd: k0 as destination is the illegal-operand fault (01 R17; 06 R148, R153). -/
def maskOp (x : Ix) (s : State) (kd : Nat) (m : Mask) : Res :=
  if kd = 0 then .trap s (Trap.operand 0) else .ok (s.setWarp x.w (x.W.setK x.T.width kd m)) none

/-- GADD (06 R150). -/
def execGadd (e : Bool) (d a b : BitVec 6) (s : State) : Host.Outcome State Fault Refusal :=
  run (.gadd e d a b) s fun x => uniBin x s d a b fun u v => u + v
/-- GSUB (06 R150). -/
def execGsub (e : Bool) (d a b : BitVec 6) (s : State) : Host.Outcome State Fault Refusal :=
  run (.gsub e d a b) s fun x => uniBin x s d a b fun u v => u - v
/-- GMUL (06 R150). -/
def execGmul (e : Bool) (d a b : BitVec 6) (s : State) : Host.Outcome State Fault Refusal :=
  run (.gmul e d a b) s fun x => uniBin x s d a b fun u v => u * v
/-- GAND (06 R150). -/
def execGand (e : Bool) (d a b : BitVec 6) (s : State) : Host.Outcome State Fault Refusal :=
  run (.gand e d a b) s fun x => uniBin x s d a b fun u v => u &&& v
/-- GOR (06 R150). -/
def execGor (e : Bool) (d a b : BitVec 6) (s : State) : Host.Outcome State Fault Refusal :=
  run (.gor e d a b) s fun x => uniBin x s d a b fun u v => u ||| v
/-- GXOR (06 R150). -/
def execGxor (e : Bool) (d a b : BitVec 6) (s : State) : Host.Outcome State Fault Refusal :=
  run (.gxor e d a b) s fun x => uniBin x s d a b fun u v => u ^^^ v
/-- GSHL (06 R150). -/
def execGshl (e : Bool) (d a b : BitVec 6) (s : State) : Host.Outcome State Fault Refusal :=
  run (.gshl e d a b) s fun x => uniBin x s d a b shl64
/-- GSHR (06 R150). -/
def execGshr (e : Bool) (d a b : BitVec 6) (s : State) : Host.Outcome State Fault Refusal :=
  run (.gshr e d a b) s fun x => uniBin x s d a b shr64
/-- GSAR (06 R150). -/
def execGsar (e : Bool) (d a b : BitVec 6) (s : State) : Host.Outcome State Fault Refusal :=
  run (.gsar e d a b) s fun x => uniBin x s d a b sar64
/-- GMIN (06 R150). -/
def execGmin (e : Bool) (d a b : BitVec 6) (u : Bool) (s : State) : Host.Outcome State Fault Refusal :=
  run (.gmin e d a b u) s fun x => uniBin x s d a b fun v w => if uniCond64 (if u then 6 else 2) w v then w else v
/-- GMAX (06 R150). -/
def execGmax (e : Bool) (d a b : BitVec 6) (u : Bool) (s : State) : Host.Outcome State Fault Refusal :=
  run (.gmax e d a b u) s fun x => uniBin x s d a b fun v w => if uniCond64 (if u then 6 else 2) v w then w else v
/-- GADDI (06 R150). -/
def execGaddi (e : Bool) (d a : BitVec 6) (i : BitVec 10) (s : State) : Host.Outcome State Fault Refusal :=
  run (.gaddi e d a i) s fun x => uniOp x s d [a.toNat] fun _ => x.W.greg a.toNat + i.signExtend 64
/-- GMOVK, short form (02 R49; 06 R150). -/
def execGmovk (e : Bool) (d : BitVec 6) (i : BitVec 16) (s : State) : Host.Outcome State Fault Refusal :=
  run (.gmovk e d i) s fun x => uniOp x s d [] fun _ => i.signExtend 64
/-- GMOVK, literal form (02 R49). -/
def execGmovkLiteral (e : Bool) (d : BitVec 6) (lit : BitVec 32) (s : State) : Host.Outcome State Fault Refusal :=
  run (.gmovkLiteral e d lit) s fun x => uniOp x s d [] fun _ => lit.signExtend 64
/-- GMOV (06 R150). -/
def execGmov (e : Bool) (d a : BitVec 6) (s : State) : Host.Outcome State Fault Refusal :=
  run (.gmov e d a) s fun x => uniOp x s d [a.toNat] fun _ => x.W.greg a.toNat
/-- GSET (06 R150). -/
def execGset (e : Bool) (d a b : BitVec 6) (c : BitVec 4) (s : State) : Host.Outcome State Fault Refusal :=
  run (.gset e d a b c) s fun x => uniBin x s d a b fun u v => if uniCond64 c.toNat u v then 1 else 0
/-- GSEL (06 R150). -/
def execGsel (e : Bool) (d a b : BitVec 6) (f : BitVec 4) (s : State) : Host.Outcome State Fault Refusal :=
  run (.gsel e d a b f) s fun x => uniOp x s d [a.toNat, b.toNat, f.toNat] fun _ =>
    if x.W.greg f.toNat ≠ 0 then x.W.greg a.toNat else x.W.greg b.toNat

/-- KAND (06 R153). -/
def execKand (e : Bool) (d a b : BitVec 3) (s : State) : Host.Outcome State Fault Refusal :=
  run (.kand e d a b) s fun x => maskOp x s d.toNat (x.W.mask x.P a.toNat &&& x.W.mask x.P b.toNat)
/-- KOR (06 R153). -/
def execKor (e : Bool) (d a b : BitVec 3) (s : State) : Host.Outcome State Fault Refusal :=
  run (.kor e d a b) s fun x => maskOp x s d.toNat (x.W.mask x.P a.toNat ||| x.W.mask x.P b.toNat)
/-- KXOR (06 R153). -/
def execKxor (e : Bool) (d a b : BitVec 3) (s : State) : Host.Outcome State Fault Refusal :=
  run (.kxor e d a b) s fun x => maskOp x s d.toNat (x.W.mask x.P a.toNat ^^^ x.W.mask x.P b.toNat)
/-- KNOT (06 R153). -/
def execKnot (e : Bool) (d a : BitVec 3) (s : State) : Host.Outcome State Fault Refusal :=
  run (.knot e d a) s fun x => maskOp x s d.toNat (~~~(x.W.mask x.P a.toNat))
/-- KMOV (06 R153): mask to mask, g register to mask, or mask to g register. -/
def execKmov (e : Bool) (d a : BitVec 6) (f : BitVec 2) (s : State) : Host.Outcome State Fault Refusal :=
  run (.kmov e d a f) s fun x =>
    match f.toNat with
    | 0 => maskOp x s d.toNat (x.W.mask x.P a.toNat)
    | 1 => if d = 0 then .trap s (Trap.operand 0)
           else withUniform x s [a.toNat] fun _ => maskOp x s d.toNat (x.W.greg a.toNat)
    | _ => uniOp x s d [] fun _ => x.W.mask x.P a.toNat

/-- SREAD (06 R158; 01 R25): $lane reads as the lowest active lane. -/
def execSread (e : Bool) (d : BitVec 6) (i : BitVec 10) (s : State) : Host.Outcome State Fault Refusal :=
  run (.sread e d i) s fun x => uniOp x s d [] fun _ => x.special s i.toNat x.low

/-- A tile size that a warp width allows (05 R143). -/
def partOk (width p : Nat) : Bool := [2, 4, 8, 16, 32, 64].contains p && decide (p ≤ width)

/-- PARTSET (06 R159; 05 R143). -/
def execPartset (e : Bool) (p : BitVec 10) (s : State) : Host.Outcome State Fault Refusal :=
  run (.partset e p) s fun x =>
    if partOk x.T.width p.toNat then .ok (s.setWarp x.w { x.W with part := p.toNat }) none
    else .trap s (Trap.operand p.toNat)

end Sys2Proof.Machine
end

