-- ==== Sys2Proof/Machine/Dispatch.lean ====
section
/-! DEFINITION. One arm per constructor of Instr: each a direct call of that row's meaning. -/

namespace Sys2Proof.Machine

/-- The meaning of one instruction or event in a state. -/
def exec (i : Instr) (s : State) : Host.Outcome State Fault Refusal :=
  match i with
  | .iadd e n p d a b => Sys2Proof.Machine.execIadd e n p d a b s
  | .isub e n p d a b => Sys2Proof.Machine.execIsub e n p d a b s
  | .imul e n p d a b => Sys2Proof.Machine.execImul e n p d a b s
  | .imulhs e n p d a b => Sys2Proof.Machine.execImulhs e n p d a b s
  | .imulhz e n p d a b => Sys2Proof.Machine.execImulhz e n p d a b s
  | .imad e n p d a b => Sys2Proof.Machine.execImad e n p d a b s
  | .imadw e n p d a b => Sys2Proof.Machine.execImadw e n p d a b s
  | .imin e n p d a b => Sys2Proof.Machine.execImin e n p d a b s
  | .imax e n p d a b => Sys2Proof.Machine.execImax e n p d a b s
  | .iminz e n p d a b => Sys2Proof.Machine.execIminz e n p d a b s
  | .imaxz e n p d a b => Sys2Proof.Machine.execImaxz e n p d a b s
  | .iabs e n p d a => Sys2Proof.Machine.execIabs e n p d a s
  | .ineg e n p d a => Sys2Proof.Machine.execIneg e n p d a s
  | .add64 e n p d a b => Sys2Proof.Machine.execAdd64 e n p d a b s
  | .sub64 e n p d a b => Sys2Proof.Machine.execSub64 e n p d a b s
  | .lea e n p d a b => Sys2Proof.Machine.execLea e n p d a b s
  | .iaddi e n p d a im => Sys2Proof.Machine.execIaddi e n p d a im s
  | .and e n p d a b => Sys2Proof.Machine.execAnd e n p d a b s
  | .or e n p d a b => Sys2Proof.Machine.execOr e n p d a b s
  | .xor e n p d a b => Sys2Proof.Machine.execXor e n p d a b s
  | .andn e n p d a b => Sys2Proof.Machine.execAndn e n p d a b s
  | .not e n p d a => Sys2Proof.Machine.execNot e n p d a s
  | .andi e n p d a im => Sys2Proof.Machine.execAndi e n p d a im s
  | .ori e n p d a im => Sys2Proof.Machine.execOri e n p d a im s
  | .xori e n p d a im => Sys2Proof.Machine.execXori e n p d a im s
  | .mov e n p d a w => Sys2Proof.Machine.execMov e n p d a w s
  | .movk e n d im => Sys2Proof.Machine.execMovk e n d im s
  | .movkLiteral e n d lit => Sys2Proof.Machine.execMovkLiteral e n d lit s
  | .movs e n d im => Sys2Proof.Machine.execMovs e n d im s
  | .shl e n p d a b => Sys2Proof.Machine.execShl e n p d a b s
  | .shr e n p d a b => Sys2Proof.Machine.execShr e n p d a b s
  | .sar e n p d a b => Sys2Proof.Machine.execSar e n p d a b s
  | .rol e n p d a b => Sys2Proof.Machine.execRol e n p d a b s
  | .shli e n p d a im => Sys2Proof.Machine.execShli e n p d a im s
  | .shri e n p d a im => Sys2Proof.Machine.execShri e n p d a im s
  | .sari e n p d a im => Sys2Proof.Machine.execSari e n p d a im s
  | .bfx e n p d a b => Sys2Proof.Machine.execBfx e n p d a b s
  | .bfxs e n p d a b => Sys2Proof.Machine.execBfxs e n p d a b s
  | .bfi e n p d a b => Sys2Proof.Machine.execBfi e n p d a b s
  | .popc e n p d a => Sys2Proof.Machine.execPopc e n p d a s
  | .clz e n p d a => Sys2Proof.Machine.execClz e n p d a s
  | .brev e n p d a => Sys2Proof.Machine.execBrev e n p d a s
  | .iset e p w c k a b => Sys2Proof.Machine.execIset e p w c k a b s
  | .isetz e p w c k a b => Sys2Proof.Machine.execIsetz e p w c k a b s
  | .fset e p c k a b => Sys2Proof.Machine.execFset e p c k a b s
  | .sel e n k d a b => Sys2Proof.Machine.execSel e n k d a b s
  | .fclass e n p d a t => Sys2Proof.Machine.execFclass e n p d a t s
  | .fadd e n p d a b => Sys2Proof.Machine.execFadd e n p d a b s
  | .fsub e n p d a b => Sys2Proof.Machine.execFsub e n p d a b s
  | .fmul e n p d a b => Sys2Proof.Machine.execFmul e n p d a b s
  | .ffma e n p d a b => Sys2Proof.Machine.execFfma e n p d a b s
  | .fmin e n p d a b => Sys2Proof.Machine.execFmin e n p d a b s
  | .fmax e n p d a b => Sys2Proof.Machine.execFmax e n p d a b s
  | .fabs e n p d a => Sys2Proof.Machine.execFabs e n p d a s
  | .fneg e n p d a => Sys2Proof.Machine.execFneg e n p d a s
  | .frnd e n p d a => Sys2Proof.Machine.execFrnd e n p d a s
  | .fscl e n p d a b => Sys2Proof.Machine.execFscl e n p d a b s
  | .fexp e n p d a => Sys2Proof.Machine.execFexp e n p d a s
  | .hadd2 e n p d a b => Sys2Proof.Machine.execHadd2 e n p d a b s
  | .hmul2 e n p d a b => Sys2Proof.Machine.execHmul2 e n p d a b s
  | .hfma2 e n p d a b => Sys2Proof.Machine.execHfma2 e n p d a b s
  | .hmin2 e n p d a b => Sys2Proof.Machine.execHmin2 e n p d a b s
  | .hmax2 e n p d a b => Sys2Proof.Machine.execHmax2 e n p d a b s
  | .hdot2 e n p d a b => Sys2Proof.Machine.execHdot2 e n p d a b s
  | .badd2 e n p d a b => Sys2Proof.Machine.execBadd2 e n p d a b s
  | .bmul2 e n p d a b => Sys2Proof.Machine.execBmul2 e n p d a b s
  | .bfma2 e n p d a b => Sys2Proof.Machine.execBfma2 e n p d a b s
  | .bmin2 e n p d a b => Sys2Proof.Machine.execBmin2 e n p d a b s
  | .bmax2 e n p d a b => Sys2Proof.Machine.execBmax2 e n p d a b s
  | .bdot2 e n p d a b => Sys2Proof.Machine.execBdot2 e n p d a b s
  | .rcp e n p d a => Sys2Proof.Machine.execRcp e n p d a s
  | .rsq e n p d a => Sys2Proof.Machine.execRsq e n p d a s
  | .sqrt e n p d a => Sys2Proof.Machine.execSqrt e n p d a s
  | .exp2 e n p d a => Sys2Proof.Machine.execExp2 e n p d a s
  | .log2 e n p d a => Sys2Proof.Machine.execLog2 e n p d a s
  | .sin e n p d a => Sys2Proof.Machine.execSin e n p d a s
  | .cos e n p d a => Sys2Proof.Machine.execCos e n p d a s
  | .tanh e n p d a => Sys2Proof.Machine.execTanh e n p d a s
  | .cvt e n p d a r sel t => Sys2Proof.Machine.execCvt e n p d a r sel t s
  | .cvtr e n p d a im sel f => Sys2Proof.Machine.execCvtr e n p d a im sel f s
  | .rsdrd e n d im => Sys2Proof.Machine.execRsdrd e n d im s
  | .rsdwr e a im => Sys2Proof.Machine.execRsdwr e a im s
  | .mxsc e n p d a f b => Sys2Proof.Machine.execMxsc e n p d a f b s
  | .mxq e n p d a f b sel => Sys2Proof.Machine.execMxq e n p d a f b sel s
  | .mxqr e n p d a f b im => Sys2Proof.Machine.execMxqr e n p d a f b im s
  | .mxdq e n p d a f b sel => Sys2Proof.Machine.execMxdq e n p d a f b sel s
  | .smxacc e n p d a b => Sys2Proof.Machine.execSmxacc e n p d a b s
  | .smxfin e n p d a b => Sys2Proof.Machine.execSmxfin e n p d a b s
  | .br o => Sys2Proof.Machine.execBr o s
  | .brz a o => Sys2Proof.Machine.execBrz a o s
  | .brnz a o => Sys2Proof.Machine.execBrnz a o s
  | .brx a => Sys2Proof.Machine.execBrx a s
  | .call o => Sys2Proof.Machine.execCall o s
  | .callx a => Sys2Proof.Machine.execCallx a s
  | .ret => Sys2Proof.Machine.execRet s
  | .exit => Sys2Proof.Machine.execExit s
  | .enrol e j k => Sys2Proof.Machine.execEnrol e j k s
  | .rejoin j => Sys2Proof.Machine.execRejoin j s
  | .strike e j k => Sys2Proof.Machine.execStrike e j k s
  | .brm k o => Sys2Proof.Machine.execBrm k o s
  | .vote e n d a m => Sys2Proof.Machine.execVote e n d a m s
  | .shfl e n d a b => Sys2Proof.Machine.execShfl e n d a b s
  | .redux e n d a o f => Sys2Proof.Machine.execRedux e n d a o f s
  | .scan e n d a o f x => Sys2Proof.Machine.execScan e n d a o f x s
  | .matchKeys e n d a k => Sys2Proof.Machine.execMatchKeys e n d a k s
  | .compact e n d a b => Sys2Proof.Machine.execCompact e n d a b s
  | .rdlane e g a w n => Sys2Proof.Machine.execRdlane e g a w n s
  | .bcast e n d g w => Sys2Proof.Machine.execBcast e n d g w s
  | .ldg e d a o z => Sys2Proof.Machine.execLdg e d a o z s
  | .ldgs e d a o z => Sys2Proof.Machine.execLdgs e d a o z s
  | .lds e d a o z => Sys2Proof.Machine.execLds e d a o z s
  | .ldss e d a o z => Sys2Proof.Machine.execLdss e d a o z s
  | .ldp e d a o z => Sys2Proof.Machine.execLdp e d a o z s
  | .ldps e d a o z => Sys2Proof.Machine.execLdps e d a o z s
  | .lda e d a sel r z => Sys2Proof.Machine.execLda e d a sel r z s
  | .pref e h a o z => Sys2Proof.Machine.execPref e h a o z s
  | .fchk e n d a o z => Sys2Proof.Machine.execFchk e n d a o z s
  | .stg e d a o z => Sys2Proof.Machine.execStg e d a o z s
  | .sts e d a o z => Sys2Proof.Machine.execSts e d a o z s
  | .stp e d a o z => Sys2Proof.Machine.execStp e d a o z s
  | .strel e d a sel z => Sys2Proof.Machine.execStrel e d a sel z s
  | .atom e d a b op ty ord sc sp noret c => Sys2Proof.Machine.execAtom e d a b op ty ord sc sp noret c s
  | .mcst e d a o z => Sys2Proof.Machine.execMcst e d a o z s
  | .empty e a o z => Sys2Proof.Machine.execEmpty e a o z s
  | .monarm e d a o z => Sys2Proof.Machine.execMonarm e d a o z s
  | .monwait n d f t => Sys2Proof.Machine.execMonwait n d f t s
  | .fence e k sel => Sys2Proof.Machine.execFence e k sel s
  | .cue e d a x h => Sys2Proof.Machine.execCue e d a x h s
  | .copy e d a b opt dir rv q sreg lk slreg => Sys2Proof.Machine.execCopy e d a b opt dir rv q sreg lk slreg s
  | .cast e d a mode cur kd gs => Sys2Proof.Machine.execCast e d a mode cur kd gs s
  | .casti e a m c => Sys2Proof.Machine.execCasti e a m c s
  | .castsplit e c a b => Sys2Proof.Machine.execCastsplit e c a b s
  | .castrd e n d c => Sys2Proof.Machine.execCastrd e n d c s
  | .castwr e a c => Sys2Proof.Machine.execCastwr e a c s
  | .mash e d a bsel clr fa fw pm1 kg half bmask => Sys2Proof.Machine.execMash e d a bsel clr fa fw pm1 kg half bmask s
  | .rack e a => Sys2Proof.Machine.execRack e a s
  | .colrd e d a => Sys2Proof.Machine.execColrd e d a s
  | .colclr e a l r => Sys2Proof.Machine.execColclr e a l r s
  | .mstat e n d c b => Sys2Proof.Machine.execMstat e n d c b s
  | .trap d c => Sys2Proof.Machine.execTrap d c s
  | .brk t => Sys2Proof.Machine.execBrk t s
  | .nop e => Sys2Proof.Machine.execNop e s
  | .hint e x h y => Sys2Proof.Machine.execHint e x h y s
  | .gadd e d a b => Sys2Proof.Machine.execGadd e d a b s
  | .gsub e d a b => Sys2Proof.Machine.execGsub e d a b s
  | .gmul e d a b => Sys2Proof.Machine.execGmul e d a b s
  | .gand e d a b => Sys2Proof.Machine.execGand e d a b s
  | .gor e d a b => Sys2Proof.Machine.execGor e d a b s
  | .gxor e d a b => Sys2Proof.Machine.execGxor e d a b s
  | .gshl e d a b => Sys2Proof.Machine.execGshl e d a b s
  | .gshr e d a b => Sys2Proof.Machine.execGshr e d a b s
  | .gsar e d a b => Sys2Proof.Machine.execGsar e d a b s
  | .gmin e d a b u => Sys2Proof.Machine.execGmin e d a b u s
  | .gmax e d a b u => Sys2Proof.Machine.execGmax e d a b u s
  | .gaddi e d a im => Sys2Proof.Machine.execGaddi e d a im s
  | .gmovk e d im => Sys2Proof.Machine.execGmovk e d im s
  | .gmovkLiteral e d lit => Sys2Proof.Machine.execGmovkLiteral e d lit s
  | .gmov e d a => Sys2Proof.Machine.execGmov e d a s
  | .gset e d a b c => Sys2Proof.Machine.execGset e d a b c s
  | .gsel e d a b f => Sys2Proof.Machine.execGsel e d a b f s
  | .gld e d a z o => Sys2Proof.Machine.execGld e d a z o s
  | .glds e d a z o => Sys2Proof.Machine.execGlds e d a z o s
  | .gst e d a sel z o => Sys2Proof.Machine.execGst e d a sel z o s
  | .kand e d a b => Sys2Proof.Machine.execKand e d a b s
  | .kor e d a b => Sys2Proof.Machine.execKor e d a b s
  | .kxor e d a b => Sys2Proof.Machine.execKxor e d a b s
  | .knot e d a => Sys2Proof.Machine.execKnot e d a s
  | .kmov e d a f => Sys2Proof.Machine.execKmov e d a f s
  | .jmp o => Sys2Proof.Machine.execJmp o s
  | .jz a o => Sys2Proof.Machine.execJz a o s
  | .jnz a o => Sys2Proof.Machine.execJnz a o s
  | .gcall o => Sys2Proof.Machine.execGcall o s
  | .gcallRegister g => Sys2Proof.Machine.execGcallRegister g s
  | .yield => Sys2Proof.Machine.execYield s
  | .bar => Sys2Proof.Machine.execBar s
  | .barg => Sys2Proof.Machine.execBarg s
  | .launch e d a => Sys2Proof.Machine.execLaunch e d a s
  | .sread e d im => Sys2Proof.Machine.execSread e d im s
  | .partset e p => Sys2Proof.Machine.execPartset e p s
  | .rset e q a b => Sys2Proof.Machine.execRset e q a b s
  | .racq d q => Sys2Proof.Machine.execRacq d q s
  | .rpub e a q => Sys2Proof.Machine.execRpub e a q s
  | .rwait a q => Sys2Proof.Machine.execRwait a q s
  | .rfree e a q => Sys2Proof.Machine.execRfree e a q s
  | .cwait => Sys2Proof.Machine.execCwait s
  | .bank e a m => Sys2Proof.Machine.execBank e a m s
  | .mwait a => Sys2Proof.Machine.execMwait a s
  | .hang e d a b h => Sys2Proof.Machine.execHang e d a b h s
  | .unhang e h => Sys2Proof.Machine.execUnhang e h s
  | .unassignedOpcode word => Sys2Proof.Machine.execUnassignedOpcode word s
  | .sceneStart core wing => Sys2Proof.Machine.execSceneStart core wing s
  | .yieldWake w lane => Sys2Proof.Machine.execYieldWake w lane s
  | .monwaitTimeout w lane => Sys2Proof.Machine.execMonwaitTimeout w lane s
  | .loadDataReturn id err => Sys2Proof.Machine.execLoadDataReturn id err s
  | .atomicReply id => Sys2Proof.Machine.execAtomicReply id s
  | .storePerformed id => Sys2Proof.Machine.execStorePerformed id s
  | .emptyLineRelease w => Sys2Proof.Machine.execEmptyLineRelease w s
  | .collectorEntryLeave grp line => Sys2Proof.Machine.execCollectorEntryLeave grp line s
  | .queryTransaction grp row bad => Sys2Proof.Machine.execQueryTransaction grp row bad s
  | .hangFinish ctx h => Sys2Proof.Machine.execHangFinish ctx h s
  | .unhangFinish ctx h => Sys2Proof.Machine.execUnhangFinish ctx h s
  | .bankQueueEntry w => Sys2Proof.Machine.execBankQueueEntry w s
  | .kStep core bank => Sys2Proof.Machine.execKStep core bank s
  | .rackExecute core bank => Sys2Proof.Machine.execRackExecute core bank s
  | .colclrExecute core bank => Sys2Proof.Machine.execColclrExecute core bank s
  | .steepExecute core bank => Sys2Proof.Machine.execSteepExecute core bank s
  | .colrdRead w => Sys2Proof.Machine.execColrdRead w s
  | .bankSwitch w => Sys2Proof.Machine.execBankSwitch w s
  | .copyIssue w => Sys2Proof.Machine.execCopyIssue w s
  | .copyStart id => Sys2Proof.Machine.execCopyStart id s
  | .copyWrite id => Sys2Proof.Machine.execCopyWrite id s
  | .copyComplete id => Sys2Proof.Machine.execCopyComplete id s
  | .copyPark id err => Sys2Proof.Machine.execCopyPark id err s
  | .copyResume core slot => Sys2Proof.Machine.execCopyResume core slot s
  | .castCommandStart core => Sys2Proof.Machine.execCastCommandStart core s
  | .castCommandStop core => Sys2Proof.Machine.execCastCommandStop core s
  | .launchWindowGo port win => Sys2Proof.Machine.execLaunchWindowGo port win s
  | .launchOfferOutcome n => Sys2Proof.Machine.execLaunchOfferOutcome n s
  | .placementPass => Sys2Proof.Machine.execPlacementPass s
  | .teamStart tid => Sys2Proof.Machine.execTeamStart tid s
  | .teamRetire tid => Sys2Proof.Machine.execTeamRetire tid s
  | .holdComplete tid => Sys2Proof.Machine.execHoldComplete tid s
  | .eventRecordWrite ctx => Sys2Proof.Machine.execEventRecordWrite ctx s
  | .teamHold core slot => Sys2Proof.Machine.execTeamHold core slot s
  | .teamResume core slot => Sys2Proof.Machine.execTeamResume core slot s
  | .teamResumePast core slot => Sys2Proof.Machine.execTeamResumePast core slot s
  | .teamLaunchStrike core slot => Sys2Proof.Machine.execTeamLaunchStrike core slot s
  | .newhw core slot warp phw => Sys2Proof.Machine.execNewhw core slot warp phw s
  | .promptReply ctx tag => Sys2Proof.Machine.execPromptReply ctx tag s
  | .pringWrite ctx v => Sys2Proof.Machine.execPringWrite ctx v s
  | .pconsWrite ctx v => Sys2Proof.Machine.execPconsWrite ctx v s
  | .contextPreempt ctx => Sys2Proof.Machine.execContextPreempt ctx s
  | .contextResume ctx => Sys2Proof.Machine.execContextResume ctx s
  | .contextStrike ctx => Sys2Proof.Machine.execContextStrike ctx s
  | .deadlineExpiry ctx => Sys2Proof.Machine.execDeadlineExpiry ctx s
  | .strikeComplete n => Sys2Proof.Machine.execStrikeComplete n s
  | .launchStrike ctx => Sys2Proof.Machine.execLaunchStrike ctx s
  | .invalidatePage ctx iva => Sys2Proof.Machine.execInvalidatePage ctx iva s
  | .invalidateLargePage ctx iva => Sys2Proof.Machine.execInvalidateLargePage ctx iva s
  | .invalidateContext ctx iva => Sys2Proof.Machine.execInvalidateContext ctx iva s
  | .invalidationComplete ctx => Sys2Proof.Machine.execInvalidationComplete ctx s
  | .contextRegisterWrite ctx reg v => Sys2Proof.Machine.execContextRegisterWrite ctx reg v s
  | .memsplitWrite v => Sys2Proof.Machine.execMemsplitWrite v s
  | .tarenaWrite hub v => Sys2Proof.Machine.execTarenaWrite hub v s
  | .cuerelGo v => Sys2Proof.Machine.execCuerelGo v s
  | .semaphoreRead agent sem => Sys2Proof.Machine.execSemaphoreRead agent sem s
  | .semaphoreWrite agent sem => Sys2Proof.Machine.execSemaphoreWrite agent sem s
  | .semaphoreBreak sem => Sys2Proof.Machine.execSemaphoreBreak sem s
  | .peerwinWrite p v => Sys2Proof.Machine.execPeerwinWrite p v s
  | .policyWrite off v => Sys2Proof.Machine.execPolicyWrite off v s
  | .policyArm => Sys2Proof.Machine.execPolicyArm s
  | .attestationGo => Sys2Proof.Machine.execAttestationGo s
  | .reportComplete => Sys2Proof.Machine.execReportComplete s
  | .registerWrite agent off wide v => Sys2Proof.Machine.execRegisterWrite agent off wide v s
  | .hostCxlMemRequest port off len data => Sys2Proof.Machine.execHostCxlMemRequest port off len data s
  | .hostSnoop port line data => Sys2Proof.Machine.execHostSnoop port line data s
  | .linkDown port => Sys2Proof.Machine.execLinkDown port s
  | .linkUp port f256 lanes => Sys2Proof.Machine.execLinkUp port f256 lanes s
  | .moduleReset => Sys2Proof.Machine.execModuleReset s
  | .guardBandStep core margin => Sys2Proof.Machine.execGuardBandStep core margin s
  | .eolhRefresh core v => Sys2Proof.Machine.execEolhRefresh core v s
  | .throttle die power temp watts => Sys2Proof.Machine.execThrottle die power temp watts s
  | .instructionFetchFault cause va => Sys2Proof.Machine.execInstructionFetchFault cause va s
  | .monitorLost w lane => Sys2Proof.Machine.execMonitorLost w lane s
  | .peerModuleRequest a len kind op ty v cmp => Sys2Proof.Machine.execPeerModuleRequest a len kind op ty v cmp s

end Sys2Proof.Machine
end

