-- ==== Sys2Proof/Machine/Step.lean ====
section
/-! DEFINITION. One step: the turn at the head of the agenda, or else the warp that issues (log 1). -/

namespace Sys2Proof.Machine

/-- A turn of a warp: fetch at the PC of the path that issues, decode, execute (02 R41, R60; 19 R390). -/
def issueStep (s : State) : Host.Outcome State Fault Refusal :=
  match s.issuing with
  | none => .next s
  | some x =>
    match x.P.wait with
    | some _ => .next s
    | none =>
      match fetch x s with
      | .fail cause va => execInstructionFetchFault cause (BitVec.ofNat 64 va) s
      | .illegal s t st => .next (raise x s st t)
      | .instr s i => exec i s

/-- What the turn at the head of the agenda does. -/
def takeTurn (s : State) : Host.Outcome State Fault Refusal :=
  let s1 := s.begin
  match s.turn with
  | .issue w => issueStep { s1 with cur := w }
  | .event i => if i.isWord || !i.wf then .next s1 else exec i s1
  | .elapse cs => .next (s1.elapse cs)
  | .evict die line => .next (s1.evict die line)
  | .dropDir line => .next (s1.recall line)
  | .hubEvict line => .next (s1.hubEvict line)
  | .castRead w va n => .next (s1.castRead w va n)

/-- One step of the machine: a turn, after which no set of an L2 holds more lines than its 12 ways (09 R219; log 26). -/
def step (s : State) : Host.Outcome State Fault Refusal :=
  match takeTurn s with
  | .next t => .next t.l2Trim
  | o => o

/-- Store an instruction where the next step fetches, and let that step be the issue of the warp it is stored for. -/
def State.withFetchWord (s : State) (nbits w : Nat) : State := placeWords s (w % 2 ^ nbits)

end Sys2Proof.Machine
end

