-- ==== Sys2Proof/Safety.lean ====
section
/-! DEFINITION. The terms that statements about the machine are made in: an instruction that starts, operands that can
be used, what a step leaves of a path and of its warp, and the invariants. -/

namespace Sys2Proof

/-- The machine takes `n` steps from `s`, each to a next state. -/
def Safe : Nat → Machine.State → Prop
  | 0, _ => True
  | n + 1, s => ∃ t, Machine.step s = .next t ∧ Safe n t

end Sys2Proof

namespace Sys2Proof.Machine

/-- Instruction `i` starts on path `x` of `s`: the path issues, the encoding is legal, the scene has room for it, and the
warp holds the role it needs (02 R51, R54, R55, R60; 05 R147). -/
def Starts (s : State) (x : Ix) (i : Instr) : Prop :=
  s.issuing = some x ∧ i.wf = true ∧ overlong x i = false ∧ ∀ r, i.role? = some r → x.W.role = r

/-- Every operand of a list is legal for the issuing path and awaits no value in any of its lanes (01 R15, R19; 02 R57). -/
def Usable (s : State) (x : Ix) (us : List Use) : Prop := ∀ u ∈ us, u.ok x = true ∧ u.busy x s x.lanes = false

/-- No uniform register of a list awaits a value (01 R19; 06 R152). -/
def UsableG (s : State) (x : Ix) (gs : List Nat) : Prop := ∀ g ∈ gs, s.busyG x.w g = false

/-- Everything of a warp but its paths and which of them runs. -/
def Warp.body (W : Warp) : Warp := { W with paths := [], running := none }

/-- A path of the wing in which a scene of another path may have ended (`ends`): where one has, a YIELD is over (06 R157), and
nothing else of the path changes. -/
def Path.standsBy (ends : Bool) (P : Path) : Path :=
  match P.block with
  | some (.yield _) => if ends then { P with block := none } else P
  | _ => P

/-- A warp of the wing in which a scene of another warp's path may have ended: only its paths in YIELD change. -/
def Warp.standsBy (ends : Bool) (W : Warp) : Warp := { W with paths := W.paths.map (Path.standsBy ends) }

/-- Only warp `w` differs between `s` and `t`, but that where a scene ended (`ends`) the YIELDs of its wing are over (06
R157). -/
def OnlyWarp (s t : State) (w : Nat) (ends : Bool) : Prop :=
  t = { s with warps := t.warps } ∧
  ∀ v, v ≠ w → t.warp v = (s.warp v).map (Warp.standsBy (ends && decide (v / 12 = w / 12)))

/-- The path that issued after instruction `i`, which wrote latch `l`: past the words of `i`, in its scene or past the
scene's end (02 R54, R56). -/
def Ix.after (x : Ix) (i : Instr) (l : Option Latch) : Path :=
  { x.P with
    pc := x.P.pc + BitVec.ofNat 56 (4 * i.len)
    scene := if i.endsScene then none else x.P.scene.map fun c => c.push i.len l
    wait := none, done := 0, stop := none, skid := if x.skids then x.P.skid + 1 else x.P.skid, count := x.P.count + 1, got := [] }

/-- In warp `W` the issuing path has gone on past instruction `i`; the others stand where they stood, but for YIELDs that the
end of the scene ends. -/
def PathDone (x : Ix) (i : Instr) (l : Option Latch) (W : Warp) : Prop :=
  W.path x.low = some (x.after i l) ∧ W.running = (if i.endsScene then none else some x.low) ∧
  ∀ r, r ≠ x.low → W.path r = (x.W.path r).map (Path.standsBy i.endsScene)

/-- Instruction `i` completes on path `x` of `s` in state `t`, its effect outside its warp having made `s1` of `s`: the
path goes on past it with latch `l`, its warp is `W` but for its paths, and nothing else differs from `s1`. -/
def CompletesIn (s s1 t : State) (x : Ix) (i : Instr) (l : Option Latch) (W : Warp) : Prop :=
  exec i s = .next t ∧ OnlyWarp s1 t x.w i.endsScene ∧
  ∃ V, t.warp x.w = some V ∧ V.body = W.body ∧ PathDone x i l V

/-- Instruction `i` completes with no effect outside its warp. -/
def Completes (s t : State) (x : Ix) (i : Instr) (l : Option Latch) (W : Warp) : Prop := CompletesIn s s t x i l W

/-- The paths of a warp are those of `W` without path `r`, whose YIELDs are over where a scene has ended, and those that `new`
describes. -/
def PathsAre (V W : Warp) (r : Nat) (ends : Bool) (new : Path → Prop) : Prop :=
  ∀ Q, Q ∈ V.paths ↔ (∃ P ∈ W.paths, lowest P.lanes ≠ r ∧ Q = P.standsBy ends) ∨ new Q

/-- The effect of an instruction that ends its scene having made `s1` of the state before, `t` differs from `s1` only in the
warp of path `x`: no scene of the warp runs, the warp is `W` but for its paths, and the issuing path is replaced by the paths
that `new` describes. -/
abbrev MovesTo (s1 t : State) (x : Ix) (W : Warp) (new : Path → Prop) : Prop :=
  OnlyWarp s1 t x.w true ∧ ∃ V, t.warp x.w = some V ∧ V.body = W.body ∧ V.running = none ∧ PathsAre V x.W x.low true new

/-- Instruction `i`, which ends its scene, executes on path `x` of `s`, its effect outside its warp having made `s1` of `s`, and
moves the path as `MovesTo` says. -/
def Moves (s s1 t : State) (x : Ix) (i : Instr) (W : Warp) (new : Path → Prop) : Prop :=
  exec i s = .next t ∧ MovesTo s1 t x W new

/-- The path that the lanes `f` of path `x` with one next PC become after instruction `i` (03 R90). -/
def Ix.moved (x : Ix) (i : Instr) (tgt : Nat → VAddr) (l : Nat) : Path :=
  { x.after i none with lanes := maskOf (x.lanes.filter fun k => decide (tgt k = tgt l)), pc := tgt l }

/-- A control transfer (03 R90): the lanes of the path with equal next PCs `tgt l` go on as one path. -/
def Transfers (s s1 t : State) (x : Ix) (i : Instr) (W : Warp) (tgt : Nat → VAddr) : Prop :=
  Moves s s1 t x i W fun Q => ∃ l ∈ x.lanes, Q = x.moved i tgt l

/-- The path `x` of `s` stands in `t` blocked by `b` past instruction `i`, which ended its scene; `s1` is `s` but for the
effect of `i` outside its warp, and nothing else differs from it. -/
def BlockedPast (s1 t : State) (x : Ix) (i : Instr) (b : Block) : Prop :=
  OnlyWarp s1 t x.w true ∧ ∃ V, t.warp x.w = some V ∧ V.body = x.W.body ∧ V.running = none ∧
  V.path x.low = some { x.after i none with block := some b } ∧
  ∀ r, r ≠ x.low → V.path r = (x.W.path r).map (Path.standsBy true)

/-- A lane instruction completes with the result `f l` in each lane `l` of its path that the prefix selects: register
`d`, or the pair from `d`, takes it unless N = 1; a lane not selected gets 0 in zero mode and else keeps its value; the
latch holds the same values (02 R46, R53, R56). No other register of any lane changes, nor anything else. -/
def LaneResult (s : State) (x : Ix) (i : Instr) (n : Bool) (p : Option Pfx) (wide : Bool) (d : Nat) (f : Nat → DWord) :
    Prop :=
  ∃ t W, Completes s t x i (some (latchOf wide (laneVals x p wide d f))) W ∧
    W = { x.W with v := W.v } ∧
    (∀ l r, l < 64 → r < 128 → (n = true ∨ l ∉ x.lanes ∨ (r ≠ d ∧ (wide = false ∨ r ≠ d + 1))) → W.reg l r = x.W.reg l r) ∧
    ∀ l, l ∈ x.lanes → n = false →
      (if wide then W.pair l d else (W.reg l d).setWidth 64) =
        if (x.active p).getLsbD l then (if wide then f l else ((f l).setWidth 32).setWidth 64)
        else if pfxZ p then 0 else (if wide then x.W.pair l d else (x.W.reg l d).setWidth 64)

/-- A lane instruction completes with the pair (pattern, residue) `f l` in each lane `l` of its path that the prefix
selects: register `d` takes the pattern as in `LaneResult`, and residue register `k` the residue in the lanes selected
(01 R39; 02 R53). No other register changes, nor anything else. -/
def ResidueResult (s : State) (x : Ix) (i : Instr) (n : Bool) (p : Option Pfx) (d k : Nat) (f : Nat → Nat × Word) : Prop :=
  ∃ t W, Completes s t x i (some (latchOf false (laneVals x p false d fun l => BitVec.ofNat 64 (f l).1))) W ∧
    W = { x.W with v := W.v, e := W.e } ∧
    (∀ l r, l < 64 → r < 128 → (n = true ∨ l ∉ x.lanes ∨ r ≠ d) → W.reg l r = x.W.reg l r) ∧
    (∀ l, l ∈ x.lanes → n = false → W.reg l d =
      if (x.active p).getLsbD l then BitVec.ofNat 32 (f l).1 else if pfxZ p then 0 else x.W.reg l d) ∧
    ∀ l r, l < 64 → r < 8 → W.res l r = if (x.active p).getLsbD l ∧ r = k then (f l).2 else x.W.res l r

/-- A lane instruction completes with a bit `f l` in each lane `l` of its path that the prefix selects: bit l of mask
register `kd`; a lane of the path not selected gets 0 in zero mode and else keeps its bit (03 R85). No other mask bit
changes, nor anything else. -/
def MaskResult (s : State) (x : Ix) (i : Instr) (p : Option Pfx) (kd : Nat) (f : Nat → Bool) : Prop :=
  ∃ t W, Completes s t x i none W ∧ W = { x.W with k := W.k } ∧
    (∀ n, n ≠ kd → tget 0 W.k n = tget 0 x.W.k n) ∧
    ∀ l, l < 64 → (tget 0 W.k kd).getLsbD l =
      if l ∈ x.lanes ∧ (x.active p).getLsbD l then f l
      else if l ∈ x.lanes ∧ pfxZ p then false else (tget 0 x.W.k kd).getLsbD l

/-- A uniform instruction completes with the value `v` in uniform register `d`; a write to g63 is ignored (01 R18). No
other register changes, nor anything else. -/
def UniResult (s : State) (x : Ix) (i : Instr) (l : Option Latch) (d : Nat) (v : DWord) : Prop :=
  ∃ t W, Completes s t x i l W ∧ W = { x.W with g := W.g } ∧
    W.greg d = (if d = 63 then 0 else v) ∧ ∀ n, n ≠ d → W.greg n = x.W.greg n

/-- An instruction completes with the value `m` in the lanes below the warp's width of mask register `kd` (01 R17; 06
R153). No other mask register changes, nor anything else. -/
def MaskWrite (s : State) (x : Ix) (i : Instr) (kd : Nat) (m : Mask) : Prop :=
  ∃ t W, Completes s t x i none W ∧ W = { x.W with k := W.k } ∧
    tget 0 W.k kd = m &&& lanesBelow x.T.width ∧ ∀ n, n ≠ kd → tget 0 W.k n = tget 0 x.W.k n

/-- Memory, caches, registers, banks and every other thing that is not a warp or a team are the same. -/
def SameStore (s t : State) : Prop := t = { s with warps := t.warps, teams := t.teams }

/-- No path of a warp is blocked in MONWAIT. -/
def Warp.noMonwait (W : Warp) : Prop := ∀ P ∈ W.paths, ∀ t n d, P.block ≠ some (.monwait t n d)

/-- A path but for a wait in MONWAIT. -/
def Path.unmonitored (P : Path) : Path :=
  match P.block with
  | some (.monwait _ _ _) => { P with block := none }
  | _ => P

/-- What firing monitors does to a warp at most: monitors fire, and a path waiting in MONWAIT goes on (11 R271, R272). -/
def OnlyFired (W V : Warp) : Prop :=
  V.running = W.running ∧ (∀ r, (V.path r).map Path.unmonitored = (W.path r).map Path.unmonitored) ∧
  (W.noMonwait → V = { W with mon := V.mon })

/-- Only monitors fire among the warps of `s` and `t` (11 R271). -/
def WarpsFire (s t : State) : Prop := ∀ w W, s.warp w = some W → ∃ V, t.warp w = some V ∧ OnlyFired W V

/-- Between `s` and `t` memory is only read and translated: where bytes are held, what the caches of memory hold and the
leaves kept differ, and every byte reads as before (09 R207, R219 to R221). -/
def Shared (s t : State) : Prop :=
  t = { s with mem := t.mem, mscHeld := t.mscHeld, mscDirty := t.mscDirty, dirty := t.dirty, dir := t.dir, tlb := t.tlb } ∧
  ∀ pa, t.byteAt pa = s.byteAt pa

/-- As `Shared`, and lines of L1s differ (09 R218). -/
def Cached (s t : State) : Prop :=
  t = { s with mem := t.mem, mscHeld := t.mscHeld, mscDirty := t.mscDirty, dirty := t.dirty, dir := t.dir, tlb := t.tlb, l1 := t.l1 } ∧
  ∀ pa, t.byteAt pa = s.byteAt pa

/-- Between `s` and `t` lines only leave L2s, written back where a die held them unwritten: every byte reads as before, and
monitors may have fired (09 R219, R220; 11 R271). -/
def Evicted (s t : State) : Prop :=
  t = { s with mem := t.mem, mscHeld := t.mscHeld, mscDirty := t.mscDirty, dirty := t.dirty, dir := t.dir, warps := t.warps } ∧
  WarpsFire s t ∧ ∀ pa, t.byteAt pa = s.byteAt pa

/-- A step from `s` ends as its turn does (`o`), but for the lines that then leave the L2s: no set of an L2 holds more lines
than its 12 ways (09 R219, R220). -/
def StepIs (s : State) (o : Host.Outcome State Fault Refusal) : Prop :=
  (∀ t, o = .next t → ∃ u, step s = .next u ∧ Evicted t u ∧
    ∀ die line, u.holds die line = true → u.l2Ways die (l2Set line) ≤ 12) ∧
  ((∀ t, o ≠ .next t) → step s = o)

/-- Between `s` and `t` memory is only read, translated and written: its bytes, the releases and older values noted of them,
caches and kept leaves differ, and monitors may have fired. -/
def Written (s t : State) : Prop :=
  t = { s with
    mem := t.mem, mscHeld := t.mscHeld, mscDirty := t.mscDirty, dirty := t.dirty, dir := t.dir, tlb := t.tlb, l1 := t.l1
    olds := t.olds, rels := t.rels, warps := t.warps } ∧
  WarpsFire s t

/-- Warp `V` is warp `W` but for the registers that the outstanding entry `o` writes, which hold the value `v` (01 R16, R18;
11 R255). -/
def Delivers (W V : Warp) (o : Outst) (v : Nat) : Prop :=
  V = { W with v := V.v, g := V.g } ∧
  (∀ n, V.greg n = if o.uni = true ∧ o.nreg ≠ 0 ∧ n = o.dest ∧ n ≠ 63 then BitVec.ofNat 64 v else W.greg n) ∧
  ∀ l r, l < 64 → r < 128 → V.reg l r = if o.uni = false ∧ l = o.lane ∧ o.dest ≤ r ∧ r < o.dest + o.nreg then
    BitVec.ofNat 32 (v / 2 ^ (32 * (r - o.dest))) else W.reg l r

/-- The copy `c` that lane `L` of path `x` would issue in state `s` with the record `r` (16 R331, R332, R335). -/
abbrev CopyOf (s : State) (x : Ix) (L : Nat) (d a b : BitVec 7) (opt : BitVec 3) (dir : BitVec 2) (rv : Bool) (q : BitVec 3)
    (sreg slreg : BitVec 7) (r : BitVec 512) (c : Copy) : Prop :=
  c = { c with
    id := s.nextId, core := x.core, team := x.W.team, ctx := x.T.ctx, w := x.w, lane := L, pc := x.P.pc, words := x.words
    opt := opt.toNat, dir := dir.toNat, record := r, raddr := (x.srcPair a.toNat L).toNat % 2 ^ 56
    org := (List.range (recRank r)).map fun i => (x.W.reg L (b.toNat + i)).toInt
    dense := if dir = 2 then (x.W.pair L d.toNat).toNat % 2 ^ 56 else (x.W.reg L d.toNat).toNat
    sdense := if opt = 2 then (x.W.reg L sreg.toNat).toNat else 0
    ring := if rv then some (q.toNat, (x.W.reg L slreg.toNat).toNat) else none
    bank := if 3 ≤ opt.toNat then some (x.bankNo (c.dense % 32)) else none, started := false, unit := 0, park := none
    stalled := false, got := [], put := [] }

/-- The operands that COPY reads in its lane (16 R332). -/
def copyUses (d a b : BitVec 7) (opt : BitVec 3) (dir : BitVec 2) (rv : Bool) (sreg slreg : BitVec 7) : List Use :=
  [if dir = 2 then .regPair d.toNat else .reg d.toNat, .srcPair a.toNat, .reg b.toNat] ++
  (if opt = 2 then [.reg sreg.toNat] else []) ++ (if rv then [.reg slreg.toNat] else [])

/-- The checks of COPY pass on path `x` of `s` (16 R334 steps 1 to 12), which leaves `s1` once the record is read and the pages
that the copy writes are translated, and `c` is the copy that it issues. -/
def CopyPasses (s : State) (x : Ix) (d a b : BitVec 7) (opt : BitVec 3) (dir : BitVec 2) (rv : Bool) (q : BitVec 3)
    (sreg : BitVec 7) (lk : BitVec 3) (slreg : BitVec 7) (s1 : State) (c : Copy) : Prop :=
  let lead := x.P.lanes &&& x.W.mask x.P lk.toNat
  let L := lowest lead
  let slot := (x.W.reg L slreg.toNat).toNat
  lead ≠ 0 ∧ (∀ u ∈ copyUses d a b opt dir rv sreg slreg, u.ok x = true ∧ u.busy x s [L] = false) ∧
  (∃ s0 n, x.readRecord s L ((x.srcPair a.toNat L).toNat % 2 ^ 56) 64 = .ok (s0, n) ∧ c.record = BitVec.ofNat 512 n ∧
    s1 = s0.engWalks c.core c.ctx (pageStarts c.writtenRows)) ∧
  recOk c.record = true ∧ optOk opt.toNat dir.toNat (recElem c.record) = true ∧
  (Use.group b.toNat (recRank c.record) 1).ok x = true ∧ (Use.group b.toNat (recRank c.record) 1).busy x s1 [L] = false ∧
  CopyOf s1 x L d a b opt dir rv q sreg slreg c.record c ∧
  c.bytesWritten ≤ 4 * 2 ^ 20 ∧ c.aligned = true ∧ (c.steep = true → c.dense % 32 < x.T.mash ∧ c.steepOk = true) ∧
  (∀ r ∈ c.scratchRanges, r.1 < 2 ^ 32 ∧ x.T.scratchAt r.1 r.2 ≠ none) ∧
  (rv = true → ∃ r, x.T.ring q.toNat = some r ∧ slot < r.scount ∧ r.takes slot = true) ∧
  (∀ k, c.bank = some k → (s1.bank c.core k).mash = true) ∧
  (c.bank = none → ∀ r ∈ c.scratchDests, s1.mashLine x.T r.1 r.2 = none) ∧ s1.hungPage c = none

/-- The copy `c` of path `x` finds a place and issues (16 R335), which makes `u` of `s`. -/
def CopyEnters (s u : State) (x : Ix) (c : Copy) : Prop :=
  (s.copies.filter fun k => k.core = c.core).length < 24 ∧
  (∀ b, c.bank = some b → (s.bank c.core b).ops.length < 5 ∧ s.bankClosed c.core b = false) ∧ x.scratchOut s = false ∧
  u = { s with
    empty := u.empty, loads := u.loads, teams := u.teams, banks := u.banks, copies := s.copies ++ [c], nextId := s.nextId + 1 } ∧
  u.loads = ((c.scratchDests.flatMap fun r => x.T.linesIn r.1 r.2).foldl
    (fun t p => t.settle fun loc => isScratch loc && decide (locLine loc = lineKey p)) s).loads ∧
  (∀ j, tget false u.empty j = if ∃ r ∈ c.scratchDests, ∃ p ∈ x.T.linesIn r.1 r.2, lineKey p = j then true else tget false s.empty j) ∧
  u.teams = (match c.ring with
    | some (q, i) => match x.T.ring q with
      | some r => tput none s.teams x.W.team (some { x.T with rings := tput none x.T.rings q (some { r with
          slots := r.slots.set i { r.slot i with res := (r.slot i).res + 1 } }) })
      | none => s.teams
    | none => s.teams) ∧
  u.banks = (match c.bank with
    | some b => tput Bank.zero s.banks (32 * c.core + b) { s.bank c.core b with
        ops := (s.bank c.core b).ops ++ [⟨c.id, .steep c.id⟩] }
    | none => s.banks)

/-- The next team of launch `L` takes the place `p` (07 R187 to R189), which makes `t` of `s` and `M` of `L`: the launch counts
it; its scratch is zero and full, its team banks are as they are granted, and the banks of its single granules are in storage
mode. -/
def Placed (s t : State) (L M : Launch) (p : Place) : Prop :=
  let on := fun (core : Nat) (gs : List Nat) => gs.map fun g => 2048 * core + g
  let single := on p.core p.gran0 ++ if p.pair then on (p.core + 1) p.gran1 else []
  let granted := single ++ on p.core (bankGran p.banks0) ++ if p.pair then on (p.core + 1) (bankGran p.banks1) else []
  let banks := p.banks0.map (32 * p.core + ·) ++ if p.pair then p.banks1.map (32 * (p.core + 1) + ·) else []
  M = { L with origin := some (L.origin.getD s.origin), placed := L.placed + 1 } ∧
  t = { s with
    scratch := t.scratch, empty := t.empty, banks := t.banks
    origin := if L.origin = none then (s.origin + 1) % coreCount s.dcmap else s.origin
    launches := s.launches.map fun N => if N = L then M else N
    teams := tput none s.teams (16 * p.core + p.slot0) (some (L.team L.placed p)) } ∧
  (∀ k, tget 0 t.scratch k = if k / 4096 ∈ granted then 0 else tget 0 s.scratch k) ∧
  (∀ k, tget false t.empty k = if k / 32 ∈ granted then false else tget false s.empty k) ∧
  ∀ k, tget Bank.zero t.banks k = if k ∈ banks then Bank.zero
    else if k ∈ single.map (· / 64) then { tget Bank.zero s.banks k with mash := false } else tget Bank.zero s.banks k

/-- Teams of launch `L` take places one after the other, each of which meets `ok` as it is taken, which makes `t` of `s` and
`M` of `L`. -/
def PlacedEach (ok : State → Launch → Place → Prop) : List Place → State → Launch → State → Launch → Prop
  | [], s, L, t, M => t = s ∧ M = L
  | p :: ps, s, L, t, M => ok s L p ∧ ∃ u N, Placed s u L N p ∧ PlacedEach ok ps u N t M

/-- Teams of launch `L`, which is no gang, are placed while it has one to place and a core has room (07 R189), at most as many
as the module has team slots: each in the first such place, reserved room counting as used. -/
def PlacedAll (s t : State) (L : Launch) : Prop :=
  ∃ ps M, PlacedEach (fun u N p => N.placed < lrTeams N.record ∧ u.findPlace (u.teamsTaken ++ u.reservedTaken) N = some p) ps s L t M ∧
    (lrTeams M.record ≤ M.placed ∨ t.findPlace (t.teamsTaken ++ t.reservedTaken) M = none ∨ ps.length = 8192)

/-- The launches of a list that are no gangs are placed in order (07 R189). -/
def PlacedLaunches : List Launch → State → State → Prop
  | [], s, t => t = s
  | L :: ls, s, t => ∃ u, (if lrGang L.record then u = s else PlacedAll s u L) ∧ PlacedLaunches ls u t

/-- The gang rule (07 R192) for gang `G` makes `t` of `s`: it reserves room for its teams one after the other while there is
room that is neither used nor reserved, and with a reservation for every team all of them are placed there. -/
def GangRule (s t : State) (G : Launch) : Prop :=
  let g := match s.gang with | some g => if g.launch = G.key then g else ⟨G.key, [], 0⟩ | none => ⟨G.key, [], 0⟩
  let find := fun (rs : List Place) => s.findPlace (s.teamsTaken ++ rs.map fun q => ⟨q, lrBytes G.record⟩) G
  ∃ ps, (∀ i p, ps[i]? = some p → g.reserved.length + i < lrTeams G.record ∧ find (g.reserved ++ ps.take i) = some p) ∧
    (lrTeams G.record ≤ g.reserved.length + ps.length ∨ find (g.reserved ++ ps) = none ∨ ps.length = 8192) ∧
    (g.reserved.length + ps.length = lrTeams G.record →
      ∃ u M, PlacedEach (fun _ _ _ => True) (g.reserved ++ ps) s G u M ∧ t = { u with gang := none }) ∧
    (g.reserved.length + ps.length ≠ lrTeams G.record → t = { s with gang := some { g with reserved := g.reserved ++ ps } })

/-- The keys of a team's banks in the table of banks (09 R211). -/
def Team.bankKeys (T : Team) : List Nat :=
  T.place.banks0.map (32 * T.place.core + ·) ++ if T.place.pair then T.place.banks1.map (32 * (T.place.core + 1) + ·) else []

/-- The strike `k` begins (19 R398 steps 1 and 2), which makes `t` of `s`: its teams never start again, their warps issue
nothing, wait for nothing and have no monitor, their prompts and waiting cast commands are gone, their loads write no register,
and the queues of their banks keep what executes. No other team, warp or bank changes, nor anything else. -/
def StrikeBegins (s t : State) (k : Strike) : Prop :=
  let hit := fun (T : Team) => T.ctx = k.ctx ∧ (k.launch = none ∨ k.launch = some T.launch)
  let mine := fun w => ∃ j T, s.team j = some T ∧ hit T ∧ w ∈ T.slots
  t = { s with
    strikes := s.strikes ++ [k], teams := t.teams, warps := t.warps, prompts := t.prompts, casts := t.casts, loads := t.loads
    banks := t.banks } ∧
  (∀ j T, s.team j = some T → (hit T → t.team j = some { T with started := true }) ∧ (¬ hit T → t.team j = some T)) ∧
  (∀ w W, s.warp w = some W → (mine w → t.warp w = some { W with paths := [], running := none, mon := [], prompt := none }) ∧
    (¬ mine w → t.warp w = some W)) ∧
  (∀ p, p ∈ t.prompts ↔ p ∈ s.prompts ∧ ¬ mine p.w) ∧
  (∀ core c, c ∈ tget [] t.casts core ↔ c ∈ tget [] s.casts core ∧ (c.started = true ∨ ¬ mine c.w)) ∧
  (∀ o, ¬ mine o.w → (o ∈ t.loads ↔ o ∈ s.loads)) ∧
  (∀ o, mine o.w → (o ∈ t.loads ↔ ∃ p ∈ s.loads, p.kind = .load ∧ p.failed = false ∧ o = { p with nreg := 0 })) ∧
  ∀ j, let B := tget Bank.zero s.banks j
    let struck := ∃ i T, s.team i = some T ∧ hit T ∧ j ∈ T.bankKeys
    (struck → tget Bank.zero t.banks j = { B with ops := B.ops.take 1 }) ∧ (¬ struck → tget Bank.zero t.banks j = B)

/-- Taking a fault (19 R379, R384, R389) at instruction `i` of path `x`, with the record `r` and the stop record `st`: the
path stops at the instruction, inside its scene, which no longer runs; its team is held, and the record joins those that the
hold will write. Nothing else changes but what the hold does to the team's warps: no other team, no warp outside the team,
and of the path's own warp no register, unless the hold ends a MONWAIT. Before a translation fault the walk has brought
lines into the die's L2, and the translation unit then keeps no entry for the access (09 R207, R208); every byte of memory
reads as before. -/
def TakesFault (s t : State) (x : Ix) (st : Stop) (r : EvRec) : Prop :=
  SameStore (if st.code = 14 then s.dropLeaf x.core x.T.ctx r.addr st.cause else s) t ∧ (∀ pa, t.byteAt pa = s.byteAt pa) ∧
  (∃ T h, t.team x.W.team = some T ∧ T = { x.T with hold := T.hold } ∧ T.hold = some h ∧
    h.recs = (match x.T.hold with | some h0 => h0.recs | none => []) ++ [r]) ∧
  (∀ k, k ≠ x.W.team → t.team k = s.team k) ∧ (∀ v, v ≠ x.w → v ∉ x.T.slots → t.warp v = s.warp v) ∧
  ∃ V P, t.warp x.w = some V ∧ V.running = none ∧ V.path x.low = some P ∧
    P.pc = x.P.pc ∧ P.lanes = x.P.lanes ∧ P.scene = x.P.scene ∧ P.stop = some st ∧
    (x.W.noMonwait → { V with paths := [], running := none, mon := [] } = { x.W with paths := [], running := none, mon := [] })

/-- Instruction `i` on path `x` of `s` takes the fault `tr` (19 R379) of the lane it names, or of the lowest lane; what came
before the fault has made `u` of `s`. -/
def TrapsIn (s u : State) (x : Ix) (i : Instr) (tr : Trap) : Prop :=
  ∃ t, exec i s = .next t ∧
    TakesFault u t x (i.stop x.T.width tr) (x.record 3 tr.code tr.cause tr.addr tr.aux0 tr.aux1 (tr.lane.getD x.low))

/-- Instruction `i` on path `x` of `s` goes through `checks` in order, and takes the fault of the first that holds; what came
before has made `u` of `s`. -/
def FaultsInOrder (s u : State) (x : Ix) (i : Instr) (checks : List (Prop × Trap)) : Prop :=
  ∀ k p tr, checks[k]? = some (p, tr) → p → (∀ (j : Nat) q tr', j < k → checks[j]? = some (q, tr') → ¬ q) → TrapsIn s u x i tr

/-- Instruction `i` on path `x` of `s` takes the fault `tr`, with no other effect. -/
abbrev Traps (s : State) (x : Ix) (i : Instr) (tr : Trap) : Prop := TrapsIn s s x i tr

/-- The rejoin-deadlock fault of path `x` (05 R138): its warp, `W` but for its paths, has no path left, and says where it
stopped; its team is held, and the record joins those that the hold will write. Nothing else differs from `s1` but what the
hold does to the team's warps. -/
def Deadlocks (s1 t : State) (x : Ix) (W : Warp) : Prop :=
  SameStore s1 t ∧
  (∃ T h, t.team x.W.team = some T ∧ T = { x.T with hold := T.hold } ∧ T.hold = some h ∧
    h.recs = (match x.T.hold with | some h0 => h0.recs | none => []) ++ [x.record 3 8 0 0 0 0 x.low]) ∧
  (∀ k, k ≠ x.W.team → t.team k = s1.team k) ∧
  (∀ v, v ≠ x.w → v ∉ x.T.slots → t.warp v = (s1.warp v).map (Warp.standsBy (decide (v / 12 = x.w / 12)))) ∧
  ∃ V, t.warp x.w = some V ∧ V.paths = [] ∧ V.running = none ∧
    V.body = { W with dead := some (x.P.pc, x.low, x.words), mon := V.mon }.body

/-- An error in the data of the outstanding entry `o`, whose path has gone on, with the fault `tr` (19 R379, R384, R389):
the paths of its warp that hold lanes of `hit` stop where they stand, inside their scenes, its team is held, and the record,
which names the instruction that made the entry, joins those that the hold will write. Nothing else changes but what the
hold does to the team's warps. -/
def LateFault (s t : State) (o : Outst) (tr : Trap) (hit : Mask) : Prop :=
  ∀ W T, s.warp o.w = some W → s.team W.team = some T →
    SameStore (if tr.code = 14 then s.dropLeaf (coreOf o.w) T.ctx tr.addr tr.cause else s) t ∧
    (∃ h, t.team W.team = some { T with hold := some h } ∧
      h.recs = (match T.hold with | some h0 => h0.recs | none => []) ++
        [(o.issuer W T).record 3 tr.code tr.cause tr.addr tr.aux0 tr.aux1 (tr.lane.getD o.lane)]) ∧
    (∀ k, k ≠ W.team → t.team k = s.team k) ∧ (∀ v, v ≠ o.w → v ∉ T.slots → t.warp v = s.warp v) ∧
    ∃ V, t.warp o.w = some V ∧
      (W.noMonwait → { V with paths := [], running := none, mon := [] } = { W with paths := [], running := none, mon := [] }) ∧
      ∀ r P, W.path r = some P → ∃ Q, V.path r = some Q ∧ Q.pc = P.pc ∧ Q.lanes = P.lanes ∧ Q.scene = P.scene ∧
        Q.stop = if P.stop = none ∧ P.lanes &&& hit ≠ 0 then some ⟨tr.code, tr.cause, 0, false, none, false⟩ else P.stop

/-- The barrier `b` of a team `T` is checked in `u`, at scope `sc`, which gives `t` (06 R173, R175): where every covered team
has started and all its threads that have not exited are blocked at `b`, some path being so, every path blocked there is ready
again and the cores acquire; else nothing happens. -/
def BarrierChecked (u t : State) (T : Team) (b : Block) (sc : Nat) : Prop :=
  let ts := u.covered T b
  let done := (∀ T ∈ ts, T.started = true ∧ ∀ v ∈ T.slots, ∀ V, u.warp v = some V → ∀ l, l < 64 →
      ((∃ P ∈ V.paths, P.block = some b ∧ P.lanes.getLsbD l = true) ↔ V.live.getLsbD l = true ∧ V.exited.getLsbD l = false)) ∧
    ∃ T ∈ ts, ∃ v ∈ T.slots, ∃ V P, u.warp v = some V ∧ P ∈ V.paths ∧ P.block = some b
  (¬ done → t = u) ∧ (done → t = { u with warps := t.warps, l1 := t.l1 } ∧
    (∀ v, t.warp v = (u.warp v).map fun V => if ∃ T ∈ ts, v ∈ T.slots then
      { V with paths := V.paths.map fun P => if P.block = some b then { P with block := none } else P } else V) ∧
    ∀ L, L ∈ t.l1 ↔ L ∈ u.l1 ∧ ∀ T ∈ ts, wideScope T sc = true → L.core ∈ T.cores → L.ctx ≠ T.ctx)

/-- The tables of teams, cast commands and semaphores have their canonical form: keys rising, no entry like an absent one. -/
def State.Canon (s : State) : Prop := twf none s.teams = true ∧ twf [] s.casts = true ∧ twf 0 s.sems = true

/-- What every step keeps: memory has its canonical form, the clocks of the dies are within 64 cycles of each other (01
R23), and the tables that the steps of all teams and semaphores go through have theirs. -/
def Inv (s : State) : Prop :=
  Memory.wf s.mem = true ∧ (∀ d e, d < 16 → e < 16 → tget 0 s.clock d ≤ tget 0 s.clock e + 64) ∧ s.Canon

/-- An exact integer as a result of w bits: saturated by the signed rule where the prefix asks for it (00 R9; 03 R75),
else its low w bits. -/
def fit (p : Option Pfx) (w : Nat) (i : Int) : BitVec w :=
  BitVec.ofInt w (if pfxSat p then max (-2 ^ (w - 1)) (min i (2 ^ (w - 1) - 1)) else i)

end Sys2Proof.Machine
end

