-- ==== Sys2Proof/Certificates/Slice0/Obligations.lean ====
section
/-! DEFINITION. The statements for the provers. A statement named after instructions says that each of them completes,
with what result, and that nothing else changes. -/

open Sys2Proof Sys2Proof.Machine

/-- IADD, ISUB, IMUL, IMULHS, IMULHZ, IMAD, IMIN, IMAX, IMINZ, IMAXZ, IABS, INEG, IADDI, IMADW, ADD64, SUB64 and LEA,
started on a path with usable operands, complete in one step: each lane the prefix selects gets the exact integer result,
saturated to the result's width where the saturate bit is 1 (not LEA) and else its low bits, in d or, for the 64-bit
results, in the pair d; lanes not selected keep d or get 0; the latch holds the same values; no other register of any lane,
no other warp, team or memory changes, and the path goes on past the instruction. (R75, R76, R77, R78, R53, R56,
spec/03_integer_and_control.md) -/
def Obligations.IntegerArithmetic : Prop :=
  ∀ (s : State) (x : Ix) (e n : Bool) (p : Option Pfx) (d a b : BitVec 7),
    let A := fun l => x.src a.toNat l
    let B := fun l => x.src b.toNat l
    let C := fun l => x.src (pfxC p d) l
    let P := fun (c : Nat) l => (x.srcPair c l).toInt
    (Usable s x [.reg d.toNat, .src a.toNat, .src b.toNat] → ∀ i f, (i, f) ∈ ([
        (.iadd e n p d a b, fun l => fit p 32 ((A l).toInt + (B l).toInt)),
        (.isub e n p d a b, fun l => fit p 32 ((A l).toInt - (B l).toInt)),
        (.imul e n p d a b, fun l => fit p 32 ((A l).toInt * (B l).toInt)),
        (.imulhs e n p d a b, fun l => ((((A l).signExtend 64) * ((B l).signExtend 64)) >>> 32).setWidth 32),
        (.imulhz e n p d a b, fun l => ((((A l).setWidth 64) * ((B l).setWidth 64)) >>> 32).setWidth 32),
        (.imin e n p d a b, fun l => BitVec.ofInt 32 (min (A l).toInt (B l).toInt)),
        (.imax e n p d a b, fun l => BitVec.ofInt 32 (max (A l).toInt (B l).toInt)),
        (.iminz e n p d a b, fun l => BitVec.ofNat 32 (min (A l).toNat (B l).toNat)),
        (.imaxz e n p d a b, fun l => BitVec.ofNat 32 (max (A l).toNat (B l).toNat))] : List (Instr × (Nat → Word))) →
      Starts s x i → LaneResult s x i n p false d.toNat fun l => (f l).setWidth 64) ∧
    (Usable s x [.reg d.toNat, .src a.toNat, .src b.toNat, .src (pfxC p d)] → ∀ i f, (i, f) ∈ ([
        (.imad e n p d a b, fun l => fit p 32 ((A l).toInt * (B l).toInt + (C l).toInt))] : List (Instr × (Nat → Word))) →
      Starts s x i → LaneResult s x i n p false d.toNat fun l => (f l).setWidth 64) ∧
    (Usable s x [.reg d.toNat, .src a.toNat] → ∀ i f, (i, f) ∈ ([
        (.iabs e n p d a, fun l => fit p 32 |(A l).toInt|),
        (.ineg e n p d a, fun l => fit p 32 (-(A l).toInt)),
        (.iaddi e n p d a b, fun l => fit p 32 ((A l).toInt + b.toInt))] : List (Instr × (Nat → Word))) →
      Starts s x i → LaneResult s x i n p false d.toNat fun l => (f l).setWidth 64) ∧
    (Usable s x [.regPair d.toNat, .src a.toNat, .src b.toNat, .srcPair (pfxC p d)] → ∀ i f, (i, f) ∈ ([
        (.imadw e n p d a b, fun l => fit p 64 ((A l).toInt * (B l).toInt + P (pfxC p d) l))] : List (Instr × (Nat → DWord))) →
      Starts s x i → LaneResult s x i n p true d.toNat f) ∧
    (Usable s x [.regPair d.toNat, .srcPair a.toNat, .srcPair b.toNat] → ∀ i f, (i, f) ∈ ([
        (.add64 e n p d a b, fun l => fit p 64 (P a.toNat l + P b.toNat l)),
        (.sub64 e n p d a b, fun l => fit p 64 (P a.toNat l - P b.toNat l))] : List (Instr × (Nat → DWord))) →
      Starts s x i → LaneResult s x i n p true d.toNat f) ∧
    (Usable s x [.regPair d.toNat, .srcPair a.toNat, .src b.toNat] → ∀ i f, (i, f) ∈ ([
        (.lea e n p d a b, fun l => BitVec.ofInt 64 (P a.toNat l + (B l).toInt))] : List (Instr × (Nat → DWord))) →
      Starts s x i → LaneResult s x i n p true d.toNat f)

/-- PARTSET, by its rule. Its words have bit 31 set, bit 29 clear, opcode 0x34 in bits [28:22] and P in bits [9:0]; with a
nonzero d or a field ([21:16], [15:10]) they are no instruction. A value of P that the warp's width does not allow raises
the illegal-operand fault (code 2), with $part unchanged; any other P becomes $part for the whole warp, from the next
instruction on. (R159) -/
def Obligations.PartitionSizes : Prop :=
  (∀ (w w1 : Nat), w < 2 ^ 32 → w / 2 ^ 31 = 1 → w / 2 ^ 29 % 2 = 0 → w / 2 ^ 22 % 2 ^ 7 = 0x34 →
    (decode w w1).toOption = if w / 2 ^ 10 % 2 ^ 12 = 0 then
      some (.partset (decide (w / 2 ^ 30 % 2 = 1)) (BitVec.ofNat 10 w), 1) else none) ∧
  ∀ (s : State) (x : Ix) (e : Bool) (z : BitVec 10), Starts s x (.partset e z) →
    let allowed := x.T.width = 16 ∧ z.toNat ∈ [2, 4, 8, 16] ∨ x.T.width = 32 ∧ z.toNat ∈ [2, 4, 8, 16, 32] ∨
      x.T.width = 64 ∧ z.toNat ∈ [2, 4, 8, 16, 32, 64]
    (x.T.width = 16 ∨ x.T.width = 32 ∨ x.T.width = 64) →
    (allowed → ∃ t, Completes s t x (.partset e z) none { x.W with part := z.toNat }) ∧
    (¬ allowed → ∃ t V, exec (.partset e z) s = .next t ∧ t.warp x.w = some V ∧ V.part = x.W.part ∧
      TakesFault s t x ((Instr.partset e z).stop x.T.width (Trap.operand z.toNat)) (x.record 3 2 0 0 z.toNat 0 x.low))

/-- AND, OR, XOR, ANDN, NOT, ANDI, ORI, XORI, MOV of both widths, MOVK of both forms, MOVS, SHL, SHR, SAR, ROL, SHLI, SHRI,
SARI, BFX, BFXS, BFI, POPC, CLZ and BREV complete on usable operands with the value the rules give in each lane, the
immediate of the logic forms zero-extended and that of MOVK sign-extended; MOVS writes special registers 9 and 10 to a pair
and the others to one register; shifts take the full 32-bit count (a count of 32 or more gives 0, or the sign for SAR),
rotations the count mod 32; a field starts at b[4:0], is min(b[13:8], 32) bits long and is cut at bit 31. (R79, R80, R81,
R82, R83, R84, spec/03_integer_and_control.md) -/
def Obligations.LogicAndShifts : Prop :=
  ∀ (s : State) (x : Ix) (e n : Bool) (p : Option Pfx) (d a b : BitVec 7) (k : BitVec 14) (c : BitVec 5) (lit : BitVec 32),
    let A := fun l => x.src a.toNat l
    let B := fun l => x.src b.toNat l
    let N := fun l => (x.src b.toNat l).toNat
    let C := fun l => x.src (pfxC p d) l
    let pos := fun l => N l % 32
    let len := fun l => min (min (N l / 2 ^ 8 % 2 ^ 6) 32) (32 - pos l)
    let M := fun l => (BitVec.allOnes (len l)).setWidth 32 <<< pos l
    let special := fun (m l : Nat) => ([BitVec.ofNat 64 l, BitVec.ofNat 64 x.W.index, BitVec.ofNat 64 x.T.idx, BitVec.ofNat 64 x.core,
      BitVec.ofNat 64 (s.dieOf x.core), BitVec.ofNat 64 x.T.lnum, BitVec.ofNat 64 x.T.width, BitVec.ofNat 64 x.W.part, x.T.rolesReg,
      BitVec.ofNat 64 (s.clockOf x.core), x.W.seq][m]?).getD 0
    (Usable s x [.reg d.toNat, .src a.toNat, .src b.toNat] → ∀ i f, (i, f) ∈ ([
        (.and e n p d a b, fun l => A l &&& B l),
        (.or e n p d a b, fun l => A l ||| B l),
        (.xor e n p d a b, fun l => A l ^^^ B l),
        (.andn e n p d a b, fun l => A l &&& ~~~(B l))] : List (Instr × (Nat → Word))) →
      Starts s x i → LaneResult s x i n p false d.toNat fun l => (f l).setWidth 64) ∧
    (Usable s x [.reg d.toNat, .src a.toNat] → ∀ i f, (i, f) ∈ ([
        (.not e n p d a, fun l => ~~~(A l)),
        (.andi e n p d a b, fun l => A l &&& BitVec.ofNat 32 b.toNat),
        (.ori e n p d a b, fun l => A l ||| BitVec.ofNat 32 b.toNat),
        (.xori e n p d a b, fun l => A l ^^^ BitVec.ofNat 32 b.toNat),
        (.mov e n p d a false, fun l => A l)] : List (Instr × (Nat → Word))) →
      Starts s x i → LaneResult s x i n p false d.toNat fun l => (f l).setWidth 64) ∧
    (Usable s x [.regPair d.toNat, .srcPair a.toNat] → ∀ i f, (i, f) ∈ ([
        (.mov e n p d a true, fun l => x.srcPair a.toNat l)] : List (Instr × (Nat → DWord))) →
      Starts s x i → LaneResult s x i n p true d.toNat f) ∧
    (Usable s x [.reg d.toNat] → ∀ i f, (i, f) ∈ ([
        (.movk e n d k, fun _ => BitVec.ofInt 32 k.toInt),
        (.movkLiteral e n d lit, fun _ => lit)] : List (Instr × (Nat → Word))) →
      Starts s x i → LaneResult s x i n none false d.toNat fun l => (f l).setWidth 64) ∧
    (Usable s x [.reg d.toNat] → b.toNat < 9 → Starts s x (.movs e n d b) →
      LaneResult s x (.movs e n d b) n none false d.toNat fun l => ((special b.toNat l).setWidth 32).setWidth 64) ∧
    (Usable s x [.regPair d.toNat] → 9 ≤ b.toNat → Starts s x (.movs e n d b) →
      LaneResult s x (.movs e n d b) n none true d.toNat fun l => special b.toNat l) ∧
    (Usable s x [.reg d.toNat, .src a.toNat, .src b.toNat] → ∀ i f, (i, f) ∈ ([
        (.shl e n p d a b, fun l => BitVec.ofNat 32 ((A l).toNat * 2 ^ N l)),
        (.shr e n p d a b, fun l => BitVec.ofNat 32 ((A l).toNat / 2 ^ N l)),
        (.sar e n p d a b, fun l => BitVec.ofInt 32 ((A l).toInt / 2 ^ N l)),
        (.rol e n p d a b, fun l => (A l).rotateLeft (N l)),
        (.bfx e n p d a b, fun l => ((A l).extractLsb' (pos l) (len l)).setWidth 32),
        (.bfxs e n p d a b, fun l => ((A l).extractLsb' (pos l) (len l)).signExtend 32)] : List (Instr × (Nat → Word))) →
      Starts s x i → LaneResult s x i n p false d.toNat fun l => (f l).setWidth 64) ∧
    (Usable s x [.reg d.toNat, .src a.toNat, .src b.toNat, .src (pfxC p d)] → ∀ i f, (i, f) ∈ ([
        (.bfi e n p d a b, fun l => (C l &&& ~~~(M l)) ||| ((A l <<< pos l) &&& M l))] : List (Instr × (Nat → Word))) →
      Starts s x i → LaneResult s x i n p false d.toNat fun l => (f l).setWidth 64) ∧
    (Usable s x [.reg d.toNat, .src a.toNat] → ∀ i f, (i, f) ∈ ([
        (.shli e n p d a c, fun l => BitVec.ofNat 32 ((A l).toNat * 2 ^ c.toNat)),
        (.shri e n p d a c, fun l => BitVec.ofNat 32 ((A l).toNat / 2 ^ c.toNat)),
        (.sari e n p d a c, fun l => BitVec.ofInt 32 ((A l).toInt / 2 ^ c.toNat)),
        (.popc e n p d a, fun l => BitVec.ofNat 32 ((List.range 32).countP (A l).getLsbD)),
        (.clz e n p d a, fun l => BitVec.ofNat 32 (32 - (A l).toNat.size)),
        (.brev e n p d a, fun l => (A l).reverse)] : List (Instr × (Nat → Word))) →
      Starts s x i → LaneResult s x i n p false d.toNat fun l => (f l).setWidth 64)

/-- Every access is checked in the order of R253 before any lane performs it, and the first fault that a lane meets, of the
lowest such lane, is taken with nothing read or written: by LDG, LDGS, STG, LDA, STREL, MCST, MONARM, ATOM, GLD and GST on
global memory, by LDP, LDPS, STP and ATOM on private memory, and by LDS, LDSS, STS, EMPTY, FCHK, GLDS, GST and ATOM on
scratch. Global: alignment, cause 7, translation, unsupported type, range lock; private: alignment, range, high-water mark
(with the highest byte that any lane needs), translation; scratch: alignment, range, bank mode. A translation fails for
cause 6 in a context that is off, for cause 1 or 4 at the entry that the walk reads last, for 2 or 3 at the leaf, for 5 at
an address that is not backed. (R206, R207, R208, R211, R213, R217, R251, R253, R267, R269, R280, R351) -/
def Obligations.AccessChecks : Prop :=
  ∀ (s : State) (x : Ix),
    let first := fun (lanes : List Nat) (bad : Nat → Prop) (l : Nat) => ∃ pre post, lanes = pre ++ l :: post ∧ bad l ∧ ∀ j ∈ pre, ¬ bad j
    (∀ (e n r noret z1 : Bool) (d a b c : BitVec 7) (o : BitVec 5) (z ord : BitVec 2) (sc ty : BitVec 3) (op : BitVec 4)
        (gd ga : BitVec 6) (go : BitVec 7),
      let m := [1, 2, 4, 16].getD z.toNat 0
      let m1 := if z1 then 2 else 1
      let dst := if z = 3 then Use.group d.toNat 4 4 else .reg d.toNat
      let src := if z = 3 then Use.group d.toNat 4 4 else .src d.toNat
      let wide := ty = 2 ∨ ty = 3
      let val := fun (q : BitVec 7) => if wide then Use.srcPair q.toNat else .src q.toNat
      let atom := fun (u : Use) => Usable s x ((if noret then [] else [if wide then Use.regPair d.toNat else .reg d.toNat]) ++
        [u, val b] ++ if op = 7 then [val c] else [])
      let am := if wide then 8 else 4
      let pair := fun (off l : Nat) => ((x.srcPair a.toNat l).toNat + off) % 2 ^ 56
      let one := fun (off l : Nat) => (x.src a.toNat l).toNat + off
      let g := (x.W.greg ga.toNat).toNat
      let gof := go.toNat * 2 ^ z.toNat
      let gu := UsableG s x [gd.toNat, ga.toNat]
      (∀ i ready k w lanes addr tr, (i, ready, k, w, lanes, addr) ∈ ([
          (.ldg e d a o z, Usable s x [dst, .srcPair a.toNat], .load, m, x.lanes, pair (o.toNat * m)),
          (.ldgs e d a o z1, Usable s x [.reg d.toNat, .srcPair a.toNat], .load, m1, x.lanes, pair (o.toNat * m1)),
          (.stg e d a o z, Usable s x [src, .srcPair a.toNat], .store, m, x.lanes, pair (o.toNat * m)),
          (.lda e d a sc r z, Usable s x [.reg d.toNat, .srcPair a.toNat], if wideScope x.T sc.toNat then .fresh else .load, m, x.lanes, pair 0),
          (.strel e d a sc z, Usable s x [.src d.toNat, .srcPair a.toNat], .store, m, x.lanes, pair 0),
          (.mcst e d a o z, Usable s x [src, .srcPair a.toNat], .mcst, m, x.lanes, pair (o.toNat * m)),
          (.monarm e d a o z, Usable s x [.src d.toNat, .srcPair a.toNat], .fresh, m, x.lanes, pair (o.toNat * m)),
          (.atom e d a b op ty ord sc 0 noret c, atom (.srcPair a.toNat), .atomic ty.toNat, am, x.lanes, pair 0),
          (.gld e gd ga z go, gu, .fresh, 2 ^ z.toNat, [x.low], fun _ => (g + gof) % 2 ^ 56),
          (.gst e gd ga false z go, gu, .store, 2 ^ z.toNat, [x.low], fun _ => (g + gof) % 2 ^ 56)] :
          List (Instr × Prop × MemKind × Nat × List Nat × (Nat → Nat))) →
        ready → Starts s x i → x.globalAcc s k w lanes addr = .error tr → Traps s x i tr) ∧
      (∀ i ready k w off tr, (i, ready, k, w, off) ∈ ([
          (.ldp e d a o z, Usable s x [dst, .src a.toNat], .load, m, one (o.toNat * m)),
          (.ldps e d a o z1, Usable s x [.reg d.toNat, .src a.toNat], .load, m1, one (o.toNat * m1)),
          (.stp e d a o z, Usable s x [src, .src a.toNat], .store, m, one (o.toNat * m)),
          (.atom e d a b op ty ord sc 2 noret c, atom (.src a.toNat), .atomic ty.toNat, am, one 0)] :
          List (Instr × Prop × MemKind × Nat × (Nat → Nat))) →
        ready → Starts s x i → x.privateAcc s k w x.lanes off = .error tr → Traps s x i tr) ∧
      (∀ i ready w lanes off tr, (i, ready, w, lanes, off) ∈ ([
          (.lds e d a o z, Usable s x [dst, .src a.toNat], m, x.lanes, one (o.toNat * m)),
          (.ldss e d a o z1, Usable s x [.reg d.toNat, .src a.toNat], m1, x.lanes, one (o.toNat * m1)),
          (.sts e d a o z, Usable s x [src, .src a.toNat], m, x.lanes, one (o.toNat * m)),
          (.empty e a o z, Usable s x [.src a.toNat], m, x.lanes, one (o.toNat * m)),
          (.fchk e n d a o z, Usable s x [.reg d.toNat, .src a.toNat], m, x.lanes, one (o.toNat * m)),
          (.atom e d a b op ty ord sc 1 noret c, atom (.src a.toNat), am, x.lanes, one 0),
          (.glds e gd ga z go, gu, 2 ^ z.toNat, [x.low], fun _ => g % 2 ^ 32 + gof),
          (.gst e gd ga true z go, gu, 2 ^ z.toNat, [x.low], fun _ => g % 2 ^ 32 + gof)] :
          List (Instr × Prop × Nat × List Nat × (Nat → Nat))) →
        ready → x.P.done = 0 → Starts s x i → x.scratchAcc s w lanes off = .error tr → Traps s x i tr)) ∧
    (∀ (k : MemKind) (n l : Nat) (lanes : List Nat) (addr : Nat → Nat), 0 < n →
      let at' := fun l => x.xlate s k l (List.range' (addr l) n)
      let w := if k.writes then 1 else 0
      (first lanes (fun l => addr l % n ≠ 0) l → x.globalAcc s k n lanes addr = .error ⟨10, 0, addr l, 0, 0, some l⟩) ∧
      ((∀ j ∈ lanes, addr j % n = 0) →
        (first lanes (fun l => canonical (addr l) = false) l → x.globalAcc s k n lanes addr = .error ⟨14, 7, addr l, w, 0, some l⟩) ∧
        ((∀ j ∈ lanes, canonical (addr j) = true) →
          (∀ tr, at' l = .error tr → first lanes (fun l => ∃ t, at' l = .error t) l → x.globalAcc s k n lanes addr = .error tr) ∧
          ∀ acc : Nat → MemAcc, (∀ j ∈ lanes, at' j = .ok (acc j)) →
            let all := fun j => if k = .mcst then (acc j).replicas s x.T.ctx else [(acc j).pas]
            let ok := fun j => ∀ p ∈ all j, typeOk k n (regionOf (p.headD 0)) = true
            let lock := fun j cause => (∃ q ∈ s.copies, q.ctx = x.T.ctx ∧ ∃ h ∈ q.locks, h.1 = cause ∧
                overlap (addr j) n h.2.1 h.2.2 = true ∧ (k.writes = true ∨ cause = 2)) ∨
              (cause = 4 ∧ k.writes = true ∧ ∃ p ∈ all j, ∃ pa ∈ p, s.hitsHung pa 1 = true)
            (∀ p, first lanes (fun j => ¬ ok j) l → (all l).find? (fun p => !typeOk k n (regionOf (p.headD 0))) = some p →
              x.globalAcc s k n lanes addr = .error
                ⟨15, 0, addr l, (match k with | .atomic ty => ty | _ => 7) + 2 ^ 8 * min n 16, regionOf (p.headD 0), some l⟩) ∧
            ((∀ j ∈ lanes, ok j) → ∀ cause, lock l cause → (∀ c, c < cause → ¬ lock l c) → first lanes (fun j => ∃ c, lock j c) l →
              x.globalAcc s k n lanes addr = .error ⟨16, cause, addr l, 0, 0, some l⟩)))) ∧
    (∀ (k : MemKind) (n r : Nat), typeOk k n r = true ↔ match k with
      | .atomic ty => r ≠ 2 ∧ (4 ≤ r → r < 8 → ty < 4) ∧ (8 ≤ r → ty = 2 ∨ ty = 3)
      | _ => r = 2 ∨ 8 ≤ r → n = 4) ∧
    (∀ (k : MemKind) (n l : Nat) (lanes : List Nat) (off : Nat → Nat), 0 < n →
      (first lanes (fun l => off l % n ≠ 0) l → x.privateAcc s k n lanes off = .error ⟨10, 0, off l, 0, 0, some l⟩ ∧
        x.scratchAcc s n lanes off = .error ⟨10, 0, off l, 0, 0, some l⟩) ∧
      ((∀ j ∈ lanes, off j % n = 0) →
        (first lanes (fun l => 2 ^ 24 < off l + n) l → x.privateAcc s k n lanes off = .error ⟨12, 0, off l, 0, 0, some l⟩) ∧
        (∀ top, (∀ j ∈ lanes, off j + n ≤ 2 ^ 24) → first lanes (fun l => 1024 * x.W.phw < off l + n) l →
          (∀ j ∈ lanes, off j + n ≤ top + 1) → (∃ j ∈ lanes, off j + n = top + 1) →
          x.privateAcc s k n lanes off = .error ⟨13, 0, top, 0, 0, some l⟩) ∧
        (∀ tr, (∀ j ∈ lanes, off j + n ≤ 2 ^ 24 ∧ off j + n ≤ 1024 * x.W.phw) →
          let at' := fun l => x.xlate s k l ((List.range n).map fun i => s.privVa x.T.ctx x.w l (off l + i))
          at' l = .error tr → first lanes (fun l => ∃ t, at' l = .error t) l → x.privateAcc s k n lanes off = .error tr) ∧
        let place := fun j => if off j < 2 ^ 32 then x.T.scratchAt (off j) n else none
        (first lanes (fun l => place l = none) l → x.scratchAcc s n lanes off = .error ⟨11, 0, off l, 0, 0, some l⟩) ∧
        ∀ a : Nat → Nat × Nat × Nat, (∀ j ∈ lanes, place j = some (a j)) → first lanes (fun l => (s.bankOf (a l)).mash = true) l →
          x.scratchAcc s n lanes off = .error ⟨17, 0, 0, x.T.bankIndex (a l), 0, some l⟩)) ∧
    (∀ (k : MemKind) (l va cause : Nat) (vas : List Nat), vas.headD 0 = va → canonical va = true →
      (k = .load → ∃ v ∈ vas, s.l1Line x.core x.T.ctx (v / 128) = none) →
      s.translate x.core x.T.ctx va (if k.writes then .store else .load) = .error cause →
      x.xlate s k l vas = .error ⟨14, cause, va, if k.writes then 1 else 0, 0, some l⟩) ∧
    ∀ (core ctx va : Nat) (k : Access),
      let tr := s.translate core ctx va k
      ((tget Ctx.zero s.ctxs ctx).en = false → tr = .error 6) ∧
      ((tget Ctx.zero s.ctxs ctx).en = true →
        (∀ c, s.tlbEntry core ctx va = none → s.walk ctx va = .error c → tr = .error c) ∧
        ∀ large leaf, s.leafOf core ctx va = .ok (large, leaf) →
          let pa := leafPa large leaf va + if leafREP leaf then s.replica ctx (s.dieOf core) else 0
          (k = .store → leafW leaf = false → tr = .error 2) ∧ (k = .fetch → leafX leaf = false → tr = .error 3) ∧
          ((k = .store → leafW leaf = true) → (k = .fetch → leafX leaf = true) → s.backed pa = false → tr = .error 5)) ∧
      ∀ j pa, (s.walkReads ctx va)[j]? = some pa → j + 1 = (s.walkReads ctx va).length →
        let v := s.openWord64 pa
        let tab := v % 2 ^ 52 / 2 ^ 8 * 2 ^ 8
        let leaf := v / 2 % 2 = 1
        let bad := v / 2 ^ 6 % 4 ≠ 0 ∨ v / 2 ^ 52 ≠ 0 ∨ (leaf ∧ j < 2) ∨ (¬ leaf ∧ j = 3) ∨ (j = 0 ∧ tab % 2 ^ 13 ≠ 0) ∨
          (j = 1 ∧ tab % 2 ^ 14 ≠ 0) ∨ (j = 2 ∧ leaf ∧ tab % 2 ^ 21 ≠ 0) ∨ (j = 3 ∧ tab % 2 ^ 16 ≠ 0)
        (v % 2 = 0 → s.walk ctx va = .error 1) ∧ (v % 2 = 1 → bad → s.walk ctx va = .error 4) ∧
        (v % 2 = 1 → ¬ bad → s.walk ctx va = .ok (decide (j = 2), BitVec.ofNat 64 v))

/-- ISET, ISETZ (registers or pairs) and FSET complete on usable operands with the comparison of each selected lane in its
bit of kd, k1 to k7, other bits kept (cleared under zero mode in the lanes of the path not selected); SEL takes a or b in
every lane of the path by its bit of k; FCLASS gives the class mask. (R85, R86, R87, R88, spec/03_integer_and_control.md) -/
def Obligations.ComparesAndSelect : Prop :=
  ∀ (s : State) (x : Ix) (e n : Bool) (p : Option Pfx) (d a b t : BitVec 7) (k kd c : BitVec 3) (g : BitVec 4),
    let A := fun l => x.src a.toNat l
    let B := fun l => x.src b.toNat l
    let PA := fun l => x.srcPair a.toNat l
    let PB := fun l => x.srcPair b.toNat l
    let holds := fun (u v : Int) =>
      ([decide (u = v), decide (u ≠ v), decide (u < v), decide (u ≤ v), decide (u > v), decide (u ≥ v)][c.toNat]?).getD false
    (kd ≠ 0 → Usable s x [.src a.toNat, .src b.toNat] → ∀ i f, (i, f) ∈ ([
        (.iset e p false c kd a b, fun l => holds (A l).toInt (B l).toInt),
        (.isetz e p false c kd a b, fun l => holds (A l).toNat (B l).toNat),
        (.fset e p g kd a b, fun l => floatCond g.toNat (.ofF32 (A l)) (.ofF32 (B l)))] : List (Instr × (Nat → Bool))) →
      Starts s x i → MaskResult s x i p kd.toNat f) ∧
    (kd ≠ 0 → Usable s x [.srcPair a.toNat, .srcPair b.toNat] → ∀ i f, (i, f) ∈ ([
        (.iset e p true c kd a b, fun l => holds (PA l).toInt (PB l).toInt),
        (.isetz e p true c kd a b, fun l => holds (PA l).toNat (PB l).toNat)] : List (Instr × (Nat → Bool))) →
      Starts s x i → MaskResult s x i p kd.toNat f) ∧
    (Usable s x [.reg d.toNat, .src a.toNat, .src b.toNat] → Starts s x (.sel e n k d a b) →
      LaneResult s x (.sel e n k d a b) n none false d.toNat fun l =>
        (if (x.W.mask x.P k.toNat).getLsbD l then A l else B l).setWidth 64) ∧
    (Usable s x [.reg d.toNat, .src a.toNat] → Starts s x (.fclass e n p d a t) →
      LaneResult s x (.fclass e n p d a t) n p false d.toNat fun l =>
        BitVec.ofNat 64 (classMask (classFmt t.toNat) ((A l).toNat % 2 ^ (classFmt t.toNat).width)))

/-- GADD, GSUB, GMUL, GAND, GOR, GXOR, GSHL, GSHR, GSAR, GMIN, GMAX, GSET, GSEL, GADDI, GMOVK (both forms), GMOV and SREAD
complete where no uniform register they name awaits a value: g_d takes the 64-bit result, a write to g63 is ignored, and no
other register of the warp, nor anything else, changes. (R18, R25, R49, R148, R150, R158, spec/06_group_instructions.md) -/
def Obligations.UniformScalar : Prop :=
  ∀ (s : State) (x : Ix) (e u : Bool) (d a b : BitVec 6) (f c : BitVec 4) (k : BitVec 10) (h : BitVec 16) (lit : BitVec 32),
    let A := x.W.greg a.toNat
    let B := x.W.greg b.toNat
    let less := fun (v w : DWord) => if u then v.toNat < w.toNat else v.toInt < w.toInt
    let holds := ([A = B, A ≠ B, A.toInt < B.toInt, A.toInt ≤ B.toInt, A.toInt > B.toInt, A.toInt ≥ B.toInt, A.toNat < B.toNat,
      A.toNat ≤ B.toNat, A.toNat > B.toNat, A.toNat ≥ B.toNat][c.toNat]?).getD False
    let special := fun (m l : Nat) => ([BitVec.ofNat 64 l, BitVec.ofNat 64 x.W.index, BitVec.ofNat 64 x.T.idx, BitVec.ofNat 64 x.core,
      BitVec.ofNat 64 (s.dieOf x.core), BitVec.ofNat 64 x.T.lnum, BitVec.ofNat 64 x.T.width, BitVec.ofNat 64 x.W.part, x.T.rolesReg,
      BitVec.ofNat 64 (s.clockOf x.core), x.W.seq][m]?).getD 0
    (UsableG s x [d.toNat, a.toNat, b.toNat] → ∀ i v, (i, v) ∈ ([
        (.gadd e d a b, BitVec.ofInt 64 (A.toInt + B.toInt)), (.gsub e d a b, BitVec.ofInt 64 (A.toInt - B.toInt)),
        (.gmul e d a b, BitVec.ofInt 64 (A.toInt * B.toInt)), (.gand e d a b, A &&& B), (.gor e d a b, A ||| B),
        (.gxor e d a b, A ^^^ B), (.gshl e d a b, BitVec.ofNat 64 (A.toNat * 2 ^ B.toNat)),
        (.gshr e d a b, BitVec.ofNat 64 (A.toNat / 2 ^ B.toNat)), (.gsar e d a b, BitVec.ofInt 64 (A.toInt / 2 ^ B.toNat))] :
        List (Instr × DWord)) → Starts s x i → UniResult s x i none d.toNat v) ∧
    (UsableG s x [d.toNat, a.toNat, b.toNat] → Starts s x (.gmin e d a b u) →
      ∃ v, (v = A ∨ v = B) ∧ ¬ less A v ∧ ¬ less B v ∧ UniResult s x (.gmin e d a b u) none d.toNat v) ∧
    (UsableG s x [d.toNat, a.toNat, b.toNat] → Starts s x (.gmax e d a b u) →
      ∃ v, (v = A ∨ v = B) ∧ ¬ less v A ∧ ¬ less v B ∧ UniResult s x (.gmax e d a b u) none d.toNat v) ∧
    (UsableG s x [d.toNat, a.toNat, b.toNat] → Starts s x (.gset e d a b c) →
      ∃ v, (v = 1 ∧ holds ∨ v = 0 ∧ ¬ holds) ∧ UniResult s x (.gset e d a b c) none d.toNat v) ∧
    (UsableG s x [d.toNat, a.toNat, b.toNat, f.toNat] → Starts s x (.gsel e d a b f) →
      UniResult s x (.gsel e d a b f) none d.toNat (if x.W.greg f.toNat ≠ 0 then A else B)) ∧
    (UsableG s x [d.toNat, a.toNat] → ∀ i v, (i, v) ∈ ([(.gaddi e d a k, BitVec.ofInt 64 (A.toInt + k.toInt)), (.gmov e d a, A)] :
        List (Instr × DWord)) → Starts s x i → UniResult s x i none d.toNat v) ∧
    (UsableG s x [d.toNat] → ∀ i v, (i, v) ∈ ([(.gmovk e d h, BitVec.ofInt 64 h.toInt), (.gmovkLiteral e d lit, BitVec.ofInt 64 lit.toInt),
        (.sread e d k, special k.toNat x.low)] : List (Instr × DWord)) → Starts s x i → UniResult s x i none d.toNat v)

/-- KAND, KOR, KXOR, KNOT and KMOV with a mask destination k1 to k7 write all its lane bits below the warp width, the bits
above staying 0, k0 reading as the path's lanes; KMOV to a g register writes the mask; KMOV from a g register writes its
bits; none of them changes anything else. A mask destination k0 raises the illegal-operand fault, with AUX0 = 0. PARTSET of
a size the width allows sets $part and changes nothing else; of any other value it raises the illegal-operand fault, with
AUX0 that value. (R17, R143, R148, R153, R159, R389, spec/06_group_instructions.md) -/
def Obligations.MaskAndTileInstructions : Prop :=
  ∀ (s : State) (x : Ix) (e : Bool) (d a b : BitVec 3) (dk ak : BitVec 6) (z : BitVec 10),
    let K := fun (k : BitVec 3) => if k = 0 then x.P.lanes else tget 0 x.W.k k.toNat
    (d ≠ 0 → ∀ i m, (i, m) ∈ ([(.kand e d a b, K a &&& K b), (.kor e d a b, K a ||| K b), (.kxor e d a b, K a ^^^ K b),
        (.knot e d a, ~~~(K a)), (.kmov e (d.setWidth 6) (a.setWidth 6) 0, K a)] : List (Instr × Mask)) →
      Starts s x i → MaskWrite s x i d.toNat m) ∧
    (d ≠ 0 → UsableG s x [ak.toNat] → Starts s x (.kmov e (d.setWidth 6) ak 1) →
      MaskWrite s x (.kmov e (d.setWidth 6) ak 1) d.toNat (x.W.greg ak.toNat)) ∧
    (UsableG s x [dk.toNat] → Starts s x (.kmov e dk (a.setWidth 6) 2) →
      UniResult s x (.kmov e dk (a.setWidth 6) 2) none dk.toNat (K a)) ∧
    (∀ i ∈ ([.kand e 0 a b, .kor e 0 a b, .kxor e 0 a b, .knot e 0 a, .kmov e 0 (a.setWidth 6) 0, .kmov e 0 ak 1] : List Instr),
      Starts s x i → Traps s x i ⟨2, 0, 0, 0, 0, none⟩) ∧
    (z.toNat ∉ [2, 4, 8, 16, 32, 64] ∨ x.T.width < z.toNat → Starts s x (.partset e z) →
      Traps s x (.partset e z) ⟨2, 0, 0, z.toNat, 0, none⟩) ∧
    (z.toNat ∈ [2, 4, 8, 16, 32, 64] → z.toNat ≤ x.T.width → Starts s x (.partset e z) →
      ∃ t, Completes s t x (.partset e z) none { x.W with part := z.toNat })

/-- FADD, FSUB, FMUL, FFMA, FMIN, FMAX, FABS, FNEG, FRND, FSCL and FEXP complete on usable operands: each selected lane gets
the exact value of the operation rounded once to FP32 in the mode and saturation of the prefix (FMIN and FMAX one of the
operands, FABS and FNEG a change of the sign bit with the canonical NaN for a NaN, FRND an integral value, FEXP the exponent
as an integer). HADD2, HMUL2, HMIN2, HMAX2, HFMA2, HDOT2 and their bfloat16 forms do so for each element, rounded once to
the 16-bit format, independently of the other element; a dot product is the exact sum of the two products and an FP32 value,
rounded once to FP32. (R99, R102, R103, R104, R105, R106, spec/04_floating_point.md) -/
def Obligations.FloatingArithmetic : Prop :=
  ∀ (s : State) (x : Ix) (e n : Bool) (p : Option Pfx) (d a b : BitVec 7),
    let A := fun l => x.src a.toNat l
    let B := fun l => x.src b.toNat l
    let C := fun l => x.src (pfxC p d) l
    let fu := fun l => Val.ofF32 (A l)
    let fv := fun l => Val.ofF32 (B l)
    let mode := (pfxRnd p).mode
    (Usable s x [.reg d.toNat, .src a.toNat, .src b.toNat] → ∀ i f, (i, f) ∈ ([
        (.fadd e n p d a b, fun l => BitVec.ofNat 32 (rnd f32 (pfxRnd p) (sumVal mode [fu l, fv l]))),
        (.fsub e n p d a b, fun l => BitVec.ofNat 32 (rnd f32 (pfxRnd p) (sumVal mode [fu l, (fv l).negate]))),
        (.fmul e n p d a b, fun l => BitVec.ofNat 32 (rnd f32 (pfxRnd p) (mulVal (fu l) (fv l)))),
        (.fmin e n p d a b, fun l => BitVec.ofNat 32 (rnd f32 (pfxRnd p) (if (fu l).isNan then fv l else if (fv l).isNan then fu l else if ltSigned (fv l) (fu l) then fv l else fu l))),
        (.fmax e n p d a b, fun l => BitVec.ofNat 32 (rnd f32 (pfxRnd p) (if (fu l).isNan then fv l else if (fv l).isNan then fu l else if ltSigned (fu l) (fv l) then fv l else fu l))),
        (.fscl e n p d a b, fun l => BitVec.ofNat 32 (rnd f32 (pfxRnd p) ((fu l).scale (B l).toInt)))] : List (Instr × (Nat → Word))) →
      Starts s x i → LaneResult s x i n p false d.toNat fun l => (f l).setWidth 64) ∧
    (Usable s x [.reg d.toNat, .src a.toNat, .src b.toNat, .src (pfxC p d)] → ∀ i f, (i, f) ∈ ([
        (.ffma e n p d a b, fun l => BitVec.ofNat 32 (rnd f32 (pfxRnd p) (sumVal mode [mulVal (fu l) (fv l), .ofF32 (C l)])))] : List (Instr × (Nat → Word))) →
      Starts s x i → LaneResult s x i n p false d.toNat fun l => (f l).setWidth 64) ∧
    (Usable s x [.reg d.toNat, .src a.toNat] → ∀ i f, (i, f) ∈ ([
        (.fabs e n p d a, fun l => if (fu l).isNan then 0x7FC00000 else A l &&& 0x7FFFFFFF),
        (.fneg e n p d a, fun l => if (fu l).isNan then 0x7FC00000 else A l ^^^ 0x80000000),
        (.frnd e n p d a, fun l => BitVec.ofNat 32 (rnd f32 (pfxRnd p) (match fu l with | .fin neg m q st => .fin neg (roundTo mode neg m q st 0) 0 false | v => v))),
        (.fexp e n p d a, fun l => match fu l with
          | .fin _ m q _ => if m = 0 then 0x80000000 else BitVec.ofInt 32 (q + m.log2)
          | _ => 0x7FFFFFFF)] : List (Instr × (Nat → Word))) →
      Starts s x i → LaneResult s x i n p false d.toNat fun l => (f l).setWidth 64) ∧
    (Usable s x [.reg d.toNat, .src a.toNat, .src b.toNat] → ∀ i f, (i, f) ∈ ([
        (.hadd2 e n p d a b, fun l => BitVec.ofNat 32 (rnd f16 (pfxRnd p) (sumVal mode [elem16 f16 (A l) 0, elem16 f16 (B l) 0]) + rnd f16 (pfxRnd p) (sumVal mode [elem16 f16 (A l) 1, elem16 f16 (B l) 1]) * 2 ^ 16)),
        (.hmul2 e n p d a b, fun l => BitVec.ofNat 32 (rnd f16 (pfxRnd p) (mulVal (elem16 f16 (A l) 0) (elem16 f16 (B l) 0)) + rnd f16 (pfxRnd p) (mulVal (elem16 f16 (A l) 1) (elem16 f16 (B l) 1)) * 2 ^ 16)),
        (.hmin2 e n p d a b, fun l => BitVec.ofNat 32 (rnd f16 (pfxRnd p) (minVal false (elem16 f16 (A l) 0) (elem16 f16 (B l) 0)) + rnd f16 (pfxRnd p) (minVal false (elem16 f16 (A l) 1) (elem16 f16 (B l) 1)) * 2 ^ 16)),
        (.hmax2 e n p d a b, fun l => BitVec.ofNat 32 (rnd f16 (pfxRnd p) (minVal true (elem16 f16 (A l) 0) (elem16 f16 (B l) 0)) + rnd f16 (pfxRnd p) (minVal true (elem16 f16 (A l) 1) (elem16 f16 (B l) 1)) * 2 ^ 16))] : List (Instr × (Nat → Word))) →
      Starts s x i → LaneResult s x i n p false d.toNat fun l => (f l).setWidth 64) ∧
    (Usable s x [.reg d.toNat, .src a.toNat, .src b.toNat, .src (pfxC p d)] → ∀ i f, (i, f) ∈ ([
        (.hfma2 e n p d a b, fun l => BitVec.ofNat 32 (rnd f16 (pfxRnd p) (sumVal mode [mulVal (elem16 f16 (A l) 0) (elem16 f16 (B l) 0), elem16 f16 (C l) 0]) + rnd f16 (pfxRnd p) (sumVal mode [mulVal (elem16 f16 (A l) 1) (elem16 f16 (B l) 1), elem16 f16 (C l) 1]) * 2 ^ 16)),
        (.hdot2 e n p d a b, fun l => BitVec.ofNat 32 (rnd f32 (pfxRnd p) (sumVal mode [mulVal (elem16 f16 (A l) 0) (elem16 f16 (B l) 0),
          mulVal (elem16 f16 (A l) 1) (elem16 f16 (B l) 1), .ofF32 (C l)])))] : List (Instr × (Nat → Word))) →
      Starts s x i → LaneResult s x i n p false d.toNat fun l => (f l).setWidth 64) ∧
    (Usable s x [.reg d.toNat, .src a.toNat, .src b.toNat] → ∀ i f, (i, f) ∈ ([
        (.badd2 e n p d a b, fun l => BitVec.ofNat 32 (rnd bf16 (pfxRnd p) (sumVal mode [elem16 bf16 (A l) 0, elem16 bf16 (B l) 0]) + rnd bf16 (pfxRnd p) (sumVal mode [elem16 bf16 (A l) 1, elem16 bf16 (B l) 1]) * 2 ^ 16)),
        (.bmul2 e n p d a b, fun l => BitVec.ofNat 32 (rnd bf16 (pfxRnd p) (mulVal (elem16 bf16 (A l) 0) (elem16 bf16 (B l) 0)) + rnd bf16 (pfxRnd p) (mulVal (elem16 bf16 (A l) 1) (elem16 bf16 (B l) 1)) * 2 ^ 16)),
        (.bmin2 e n p d a b, fun l => BitVec.ofNat 32 (rnd bf16 (pfxRnd p) (minVal false (elem16 bf16 (A l) 0) (elem16 bf16 (B l) 0)) + rnd bf16 (pfxRnd p) (minVal false (elem16 bf16 (A l) 1) (elem16 bf16 (B l) 1)) * 2 ^ 16)),
        (.bmax2 e n p d a b, fun l => BitVec.ofNat 32 (rnd bf16 (pfxRnd p) (minVal true (elem16 bf16 (A l) 0) (elem16 bf16 (B l) 0)) + rnd bf16 (pfxRnd p) (minVal true (elem16 bf16 (A l) 1) (elem16 bf16 (B l) 1)) * 2 ^ 16))] : List (Instr × (Nat → Word))) →
      Starts s x i → LaneResult s x i n p false d.toNat fun l => (f l).setWidth 64) ∧
    (Usable s x [.reg d.toNat, .src a.toNat, .src b.toNat, .src (pfxC p d)] → ∀ i f, (i, f) ∈ ([
        (.bfma2 e n p d a b, fun l => BitVec.ofNat 32 (rnd bf16 (pfxRnd p) (sumVal mode [mulVal (elem16 bf16 (A l) 0) (elem16 bf16 (B l) 0), elem16 bf16 (C l) 0]) + rnd bf16 (pfxRnd p) (sumVal mode [mulVal (elem16 bf16 (A l) 1) (elem16 bf16 (B l) 1), elem16 bf16 (C l) 1]) * 2 ^ 16)),
        (.bdot2 e n p d a b, fun l => BitVec.ofNat 32 (rnd f32 (pfxRnd p) (sumVal mode [mulVal (elem16 bf16 (A l) 0) (elem16 bf16 (B l) 0),
          mulVal (elem16 bf16 (A l) 1) (elem16 bf16 (B l) 1), .ofF32 (C l)])))] : List (Instr × (Nat → Word))) →
      Starts s x i → LaneResult s x i n p false d.toNat fun l => (f l).setWidth 64)

/-- The checks of COPY fail in the order of R334: an operand; the load of the record; the record or the option (cause 1);
the group of coordinates; more than 4 MiB (cause 2); alignment (cause 3); the bank, then the geometry of a steep (cause 4);
the scratch range; the ring; the bank mode; a hung range. The record names the lane that leads, and nothing but the load of
the record has happened, before the last check also the walks of the pages that it writes. Which of several illegal operands
is reported is the model's choice (log 9), and that the record is read past L1 (log 24). RSET, RACQ, RPUB, RWAIT and RFREE
fail, each in its order, on an operand, on a ring that is not configured (cause 1), a slot out of range (2), a slot that
takes no arrival (3), one that is not filled (4), or with a copy outstanding (5), and RSET and RFREE on a bank in mash mode.
(R332, R334, R342, R343, R344, R345, R346, R347, R349, R389) -/
def Obligations.EngineFaults : Prop :=
  ∀ (s : State) (x : Ix) (e rv : Bool) (d a b sreg slreg : BitVec 7) (opt q lk : BitVec 3) (dir : BitVec 2) (ga gb : BitVec 6),
    let i := Instr.copy e d a b opt dir rv q sreg lk slreg
    let lead := x.P.lanes &&& x.W.mask x.P lk.toNat
    let L := lowest lead
    let us := copyUses d a b opt dir rv sreg slreg
    let va := (x.srcPair a.toNat L).toNat % 2 ^ 56
    let in' := fun (t : Trap) => { t with lane := some L }
    let u := (x.W.greg ga.toNat).toNat
    let v := (x.W.greg gb.toNat).toNat
    (lead ≠ 0 → Starts s x i →
      (∀ o, us.find? (fun o => !o.ok x) = some o → Traps s x i (in' (Trap.operand o.code))) ∧
      ((∀ o ∈ us, o.ok x = true ∧ o.busy x s [L] = false) →
        (∀ tr, x.readRecord s L va 64 = .error tr → Traps s x i tr) ∧
        ∀ s1 n c, x.readRecord s L va 64 = .ok (s1, n) → CopyOf s1 x L d a b opt dir rv q sreg slreg (BitVec.ofNat 512 n) c →
          let org := Use.group b.toNat (recRank c.record) 1
          let slot := (x.W.reg L slreg.toNat).toNat
          let out := fun (r : Nat × Nat) => (if r.1 < 2 ^ 32 then x.T.scratchAt r.1 r.2 else none).isNone
          let mashed := c.scratchDests.findSome? fun r => s1.mashLine x.T r.1 r.2
          (recOk c.record = true → org.busy x s1 [L] = false) →
          let checks : List (Prop × Trap) := [
            (recOk c.record = false ∨ optOk opt.toNat dir.toNat (recElem c.record) = false, ⟨19, 1, va, 0, 0, some L⟩),
            (org.ok x = false, in' (Trap.operand b.toNat)),
            (4 * 2 ^ 20 < c.bytesWritten, ⟨19, 2, va, 0, 0, some L⟩),
            (c.aligned = false, ⟨19, 3, va, 0, 0, some L⟩),
            (c.steep = true ∧ x.T.mash ≤ c.dense % 32, in' (Trap.operand d.toNat)),
            (c.steep = true ∧ c.steepOk = false, ⟨19, 4, va, 0, 0, some L⟩),
            (c.scratchRanges.find? out ≠ none, ⟨11, 0, ((c.scratchRanges.find? out).getD (0, 0)).1, 0, 0, some L⟩),
            (rv = true ∧ x.T.ring q.toNat = none, ⟨20, 1, 0, q.toNat, slot, some L⟩),
            (rv = true ∧ ∃ r, x.T.ring q.toNat = some r ∧ r.scount ≤ slot, ⟨20, 2, 0, q.toNat, slot, some L⟩),
            (rv = true ∧ ∃ r, x.T.ring q.toNat = some r ∧ r.takes slot = false, ⟨20, 3, 0, q.toNat, slot, some L⟩),
            (∃ k, c.bank = some k ∧ (s1.bank c.core k).mash = false, ⟨17, 0, 0, c.dense % 32, 0, some L⟩),
            (c.bank = none ∧ mashed ≠ none, ⟨17, 0, 0, mashed.getD 0, 0, some L⟩)]
          let s2 := s1.engWalks c.core c.ctx (pageStarts c.writtenRows)
          Cached s s1 ∧ FaultsInOrder s s1 x i checks ∧
          ∀ hung, (∀ p ∈ checks, ¬ p.1) → s2.hungPage c = some hung → Shared s1 s2 ∧ TrapsIn s s2 x i ⟨16, 4, hung, 0, 0, some L⟩)) ∧
    (let base := u % 2 ^ 24
     let ssize := u / 2 ^ 32 % 2 ^ 13 + 1
     let scount := v % 2 ^ 5 + 1
     let exp := v / 2 ^ 8 % 2 ^ 8
     let busy := fun (k : Nat) => ∃ r, x.T.ring q.toNat = some r ∧ k < r.scount ∧ 0 < (r.slot k).res
     let n := 128 * ssize * scount
     UsableG s x [ga.toNat, gb.toNat] → Starts s x (.rset e q ga gb) → ∀ k, (busy k ∧ ∀ j, j < k → ¬ busy j) ∨ (¬ ∃ j, busy j) →
       FaultsInOrder s s x (.rset e q ga gb) [
         (u ≠ base + (ssize - 1) * 2 ^ 32 ∨ base % 128 ≠ 0, Trap.operand ga.toNat),
         (v ≠ scount - 1 + exp * 2 ^ 8 ∨ exp = 0, Trap.operand gb.toNat),
         (x.T.scratchAt base n = none, Trap.operand ga.toNat), (busy k, ⟨20, 5, 0, q.toNat, k, none⟩),
         (s.mashLine x.T base n ≠ none, Trap.bankMode ((s.mashLine x.T base n).getD 0))]) ∧
    (UsableG s x [gb.toNat] → Starts s x (.racq gb q) → x.T.ring q.toNat = none → Traps s x (.racq gb q) ⟨20, 1, 0, q.toNat, 0, none⟩) ∧
    (UsableG s x [ga.toNat] →
      let ring := fun (p : Ring → Prop) => ∃ r, x.T.ring q.toNat = some r ∧ p r
      let named := fun (k : Nat) => [(x.T.ring q.toNat = none, (⟨20, 1, 0, q.toNat, k, none⟩ : Trap)),
        (ring fun r => r.scount ≤ k, ⟨20, 2, 0, q.toNat, k, none⟩)]
      let mashed := fun (r : Ring) => s.mashLine x.T (r.base + 128 * r.ssize * u) (128 * r.ssize)
      (Starts s x (.rpub e ga q) → FaultsInOrder s s x (.rpub e ga q) ((32 ≤ u, Trap.operand ga.toNat) :: named u ++
        [(ring fun r => r.takes u = false, ⟨20, 3, 0, q.toNat, u, none⟩)])) ∧
      (Starts s x (.rwait ga q) → FaultsInOrder s s x (.rwait ga q)
        ((u ≠ u % 2 ^ 5 + 2 ^ 8 * (u / 2 ^ 8 % 2), Trap.operand ga.toNat) :: named (u % 2 ^ 5))) ∧
      (Starts s x (.rfree e ga q) → FaultsInOrder s s x (.rfree e ga q) ((32 ≤ u, Trap.operand ga.toNat) :: named u ++
        [(ring fun r => (r.slot u).st ≠ .filled, ⟨20, 4, 0, q.toNat, u, none⟩)]) ∧
        ∀ r k, x.T.ring q.toNat = some r → u < 32 → u < r.scount → (r.slot u).st = .filled → mashed r = some k →
          Traps s x (.rfree e ga q) (Trap.bankMode k)))

/-- RCP, RSQ, SQRT, EXP2, LOG2, SIN, COS and TANH complete on usable operands in a warp of the vector role, which starting
requires: each selected lane gets the function of its FP32 operand rounded once to FP32; the values of the transcendental
functions are the model's fixed-point values of log 10. (R107, R108, R146, spec/04_floating_point.md) -/
def Obligations.SpecialFunctions : Prop :=
  ∀ (s : State) (x : Ix) (e n : Bool) (p : Option Pfx) (d a : BitVec 7),
    let fu := fun l => Val.ofF32 (x.src a.toNat l)
    (Usable s x [.reg d.toNat, .src a.toNat] → ∀ i f, (i, f) ∈ ([
        (.rcp e n p d a, fun l => BitVec.ofNat 32 (rnd f32 (pfxRnd p) (divVal (.fin false 1 0 false) (fu l)))),
        (.rsq e n p d a, fun l => BitVec.ofNat 32 (rnd f32 (pfxRnd p) (rsqVal (fu l)))),
        (.sqrt e n p d a, fun l => BitVec.ofNat 32 (rnd f32 (pfxRnd p) (sqrtVal (fu l)))),
        (.exp2 e n p d a, fun l => BitVec.ofNat 32 (rnd f32 (pfxRnd p) (exp2Val (fu l)))),
        (.log2 e n p d a, fun l => BitVec.ofNat 32 (rnd f32 (pfxRnd p) (log2Val (fu l)))),
        (.sin e n p d a, fun l => BitVec.ofNat 32 (rnd f32 (pfxRnd p) (trigVal 0 (fu l)))),
        (.cos e n p d a, fun l => BitVec.ofNat 32 (rnd f32 (pfxRnd p) (trigVal 1 (fu l)))),
        (.tanh e n p d a, fun l => BitVec.ofNat 32 (rnd f32 (pfxRnd p) (tanhVal (fu l))))] : List (Instr × (Nat → Word))) →
      Starts s x i → LaneResult s x i n p false d.toNat fun l => (f l).setWidth 64)

/-- CVT, CVTR, RSDRD and RSDWR complete on usable operands: CVT converts an FP32 value to a type or a value of a type to
FP32, 64-bit types taking pairs; CVTR rounds the sum of its operand and the residue, and the residue takes the error in the
lanes selected; RSDRD reads and RSDWR writes a residue register in every lane of the path; nothing else changes. (R109,
R110, R111, R112, R39, spec/04_floating_point.md) -/
def Obligations.Conversions : Prop :=
  ∀ (s : State) (x : Ix) (e n ns : Bool) (p : Option Pfx) (d a : BitVec 7) (k : BitVec 3) (t : BitVec 5) (g : BitVec 2),
    let A := fun l => x.src a.toNat l
    let rd : Rnd := { mode := (pfxRnd p).mode, sat := (pfxRnd p).sat, nosat := ns }
    let wide := t = 3 ∨ t = 7
    (wide → Usable s x [.regPair d.toNat, .src a.toNat] → Starts s x (.cvt e n p d a false ns t) →
      LaneResult s x (.cvt e n p d a false ns t) n p true d.toNat fun l => cvtTo t.toNat rd (A l)) ∧
    (¬ wide → Usable s x [.reg d.toNat, .src a.toNat] → Starts s x (.cvt e n p d a false ns t) →
      LaneResult s x (.cvt e n p d a false ns t) n p false d.toNat fun l => ((cvtTo t.toNat rd (A l)).setWidth 32).setWidth 64) ∧
    (wide → Usable s x [.reg d.toNat, .srcPair a.toNat] → Starts s x (.cvt e n p d a true ns t) →
      LaneResult s x (.cvt e n p d a true ns t) n p false d.toNat fun l =>
        BitVec.ofNat 64 (rnd f32 { rd with sat := false } (cvtVal t.toNat (x.srcPair a.toNat l)) % 2 ^ 32)) ∧
    (¬ wide → Usable s x [.reg d.toNat, .src a.toNat] → Starts s x (.cvt e n p d a true ns t) →
      LaneResult s x (.cvt e n p d a true ns t) n p false d.toNat fun l =>
        BitVec.ofNat 64 (rnd f32 { rd with sat := false } (cvtVal t.toNat ((A l).setWidth 64)) % 2 ^ 32)) ∧
    (Usable s x [.reg d.toNat, .src a.toNat] → Starts s x (.cvtr e n p d a k ns g) →
      let F := cvtFmt (g.toNat + 8)
      ResidueResult s x (.cvtr e n p d a k ns g) n p d.toNat k.toNat fun l =>
        feedback rd.mode (rnd F rd) (Val.ofBits F) F.nan (A l) (x.W.res l k.toNat)) ∧
    (Usable s x [.reg d.toNat] → Starts s x (.rsdrd e n d k) →
      LaneResult s x (.rsdrd e n d k) n none false d.toNat fun l => (x.W.res l k.toNat).setWidth 64) ∧
    (Usable s x [.src a.toNat] → Starts s x (.rsdwr e a k) →
      ∃ t W, Completes s t x (.rsdwr e a k) none W ∧ W = { x.W with e := W.e } ∧
        ∀ l r, l < 64 → r < 8 → W.res l r = if l ∈ x.lanes ∧ r = k.toNat then A l else x.W.res l r)

/-- MXSC, MXQ, MXQR, MXDQ, SMXACC and SMXFIN complete on usable operands: MXSC puts the shared scale of a block of 32
selected lanes into byte b of d; MXQ and MXQR put an element rounded under the scale of their fourth operand into its slot,
or into the register, MXQR with the residue; MXDQ gives the value of an element under its scale; SMXACC combines the tile's
values into the pair of maximum and sum, with powers of two that are the model's fixed-point values of log 10, and SMXFIN
divides by the sum. (R113, R114, R115, R116, R117, R118, R120, R121, spec/04_floating_point.md) -/
def Obligations.MicroscaledFormats : Prop :=
  ∀ (s : State) (x : Ix) (e n : Bool) (p : Option Pfx) (d a b : BitVec 7) (f y : BitVec 2) (sl k : BitVec 3),
    let A := fun l => x.src a.toNat l
    let act := lanesOf (x.active p)
    let code := fun l => (x.src (pfxC p d) l).toNat / 2 ^ (8 * y.toNat) % 256
    let slot := if f = 2 then (4 * sl.toNat, 4) else (8 * sl.toNat, 8)
    let elems := fun l => if x.T.width = 16 then
        [Val.ofF32 ((x.srcPair a.toNat l).setWidth 32), Val.ofF32 ((x.srcPair a.toNat l >>> 32).setWidth 32)]
      else [Val.ofF32 (A l)]
    (Usable s x [.reg d.toNat, if x.T.width = 16 then .srcPair a.toNat else .src a.toNat] → Starts s x (.mxsc e n p d a f y) →
      LaneResult s x (.mxsc e n p d a f y) n p false d.toNat fun l =>
        (setBits (x.W.reg l d.toNat) (8 * y.toNat) 8 (mxScale f.toNat ((act.filter fun k => k / 32 = l / 32).flatMap elems))).setWidth 64) ∧
    (Usable s x [.reg d.toNat, .src a.toNat, .src (pfxC p d)] → Starts s x (.mxq e n p d a f y sl) →
      LaneResult s x (.mxq e n p d a f y sl) n p false d.toNat fun l =>
        (setBits (x.W.reg l d.toNat) slot.1 slot.2
          (if code l = 255 ∨ (Val.ofF32 (A l)).isNan then 0
           else mxRound f.toNat (pfxRnd p).mode ((Val.ofF32 (A l)).scale (127 - (code l : Int))))).setWidth 64) ∧
    (Usable s x [.reg d.toNat, .src a.toNat, .src (pfxC p d)] → Starts s x (.mxqr e n p d a f y k) →
      ResidueResult s x (.mxqr e n p d a f y k) n p d.toNat k.toNat fun l =>
        if code l = 255 then (0, 0)
        else feedback (pfxRnd p).mode (fun v => mxRound f.toNat (pfxRnd p).mode (v.scale (127 - (code l : Int))))
          (fun c => (mxVal f.toNat c).scale ((code l : Int) - 127)) 0 (A l) (x.W.res l k.toNat)) ∧
    (Usable s x [.reg d.toNat, .src a.toNat, .src (pfxC p d)] → Starts s x (.mxdq e n p d a f y sl) →
      LaneResult s x (.mxdq e n p d a f y sl) n p false d.toNat fun l =>
        (if code l = 255 then (0x7FC00000 : Word)
         else BitVec.ofNat 32 (rnd f32 (pfxRnd p)
          ((mxVal f.toNat ((A l).toNat / 2 ^ slot.1 % 2 ^ slot.2)).scale ((code l : Int) - 127)))).setWidth 64) ∧
    (Usable s x [.regPair d.toNat, .src a.toNat, .src b.toNat] → Starts s x (.smxacc e n p d a b) →
      LaneResult s x (.smxacc e n p d a b) n p true d.toNat fun l =>
        let us := (act.filter fun k => k / x.W.part = l / x.W.part).map fun k =>
          (BitVec.ofNat 32 (rnd f32 Rnd.ne (mulVal (.ofF32 (A k)) (.ofF32 (x.src b.toNat k)))) : Word)
        if us.any fun w => (Val.ofF32 w).isNan then (BitVec.setWidth 32 (x.W.pair l d.toNat >>> 32) : Word) ++ (0x7FC00000 : Word)
        else smxStep us (cvtInt 2 32 false ((us.map Val.ofF32).foldl (minVal true) (.inf true))) (x.W.pair l d.toNat)) ∧
    (Usable s x [.reg d.toNat, .src a.toNat, .srcPair b.toNat] → Starts s x (.smxfin e n p d a b) →
      LaneResult s x (.smxfin e n p d a b) n p false d.toNat fun l =>
        (if BitVec.setWidth 32 (x.srcPair b.toNat l >>> 32) = (0x80000000 : Word) then (0 : Word)
         else BitVec.ofNat 32 (rnd f32 (pfxRnd p)
          (divVal (.ofF32 (A l)) (.ofF32 ((x.srcPair b.toNat l).setWidth 32))))).setWidth 64)

/-- VOTE, SHFL, REDUX, SCAN, MATCH, COMPACT and BCAST complete on usable operands with the value the rules give each lane
from the lanes of its tile that are in the path, a mask result taking a pair where the width is 64; RDLANE writes the value
of lane n, or 0 where that lane is not in the path, to a uniform register, and raises the illegal-operand fault where n is
at or above the warp width, which the model checks before the a field (log 9). Nothing else changes. (R144, R164, R166,
R167, R168, R169, R170, R171) -/
def Obligations.CrossLane : Prop :=
  ∀ (s : State) (x : Ix) (e n f ex w : Bool) (d a b : BitVec 7) (o : BitVec 3) (g k : BitVec 6),
    let A := fun l => x.src a.toNat l
    let P := x.W.part
    let tile := fun l => x.lanes.filter fun k => decide (k / P = l / P)
    let maskResult := fun (i : Instr) (us : List Use) (v : Nat → Mask) =>
      (x.T.width = 64 → Usable s x (.regPair d.toNat :: us) → Starts s x i → LaneResult s x i n none true d.toNat v) ∧
      (x.T.width ≠ 64 → Usable s x (.reg d.toNat :: us) → Starts s x i →
        LaneResult s x i n none false d.toNat fun l => ((v l).setWidth 32).setWidth 64)
    (Usable s x [.reg d.toNat, .src a.toNat] → ∀ i v, (i, v) ∈ ([
        (.vote e n d a 0, fun l => if ∃ k ∈ tile l, A k ≠ 0 then 1 else 0),
        (.vote e n d a 1, fun l => if ∀ k ∈ tile l, A k ≠ 0 then 1 else 0),
        (.vote e n d a 3, fun l => if ∀ k ∈ tile l, A k = A l then 1 else 0),
        (.redux e n d a o f, fun l => combine o.toNat f ((tile l).map A)),
        (.scan e n d a o f ex, fun l => combine o.toNat f (((tile l).filter fun k => decide (k < l ∨ ex = false ∧ k = l)).map A))] :
        List (Instr × (Nat → Word))) → Starts s x i → LaneResult s x i n none false d.toNat fun l => (v l).setWidth 64) ∧
    maskResult (.vote e n d a 2) [.src a.toNat] (fun l => maskOf ((tile l).filter fun k => decide (A k ≠ 0))) ∧
    maskResult (.matchKeys e n d a 0) [.src a.toNat] (fun l => maskOf ((tile l).filter fun k => decide (A k = A l))) ∧
    maskResult (.matchKeys e n d a 1) [.srcPair a.toNat]
      (fun l => maskOf ((tile l).filter fun k => decide (x.srcPair a.toNat k = x.srcPair a.toNat l))) ∧
    maskResult (.matchKeys e n d a 2) [.src a.toNat]
      (fun l => maskOf ((tile l).filter fun k => decide (k = l ∨ floatCond 0 (.ofF32 (A k)) (.ofF32 (A l)) = true))) ∧
    (Usable s x [.reg d.toNat, .src a.toNat, .src b.toNat] → Starts s x (.shfl e n d a b) →
      LaneResult s x (.shfl e n d a b) n none false d.toNat fun l =>
        let r := (x.src b.toNat l).toNat
        let i := l % P
        let c := r % 64
        let j := ([c % P, if i < c then i else i - c, if P ≤ i + c then i else i + c, i ^^^ (c % P)][r / 2 ^ 8 % 4]?).getD 0
        let src := l / P * P + j
        (if x.P.lanes.getLsbD src then A src else A l).setWidth 64) ∧
    (Usable s x [.reg d.toNat, .src a.toNat, .src b.toNat] → Starts s x (.compact e n d a b) →
      LaneResult s x (.compact e n d a b) n none false d.toNat fun l =>
        (((((tile l).filter fun k => decide (x.src b.toNat k ≠ 0)).map A)[(tile l).idxOf l]?).getD 0).setWidth 64) ∧
    (UsableG s x [g.toNat] → Usable s x [.regPair d.toNat] → Starts s x (.bcast e n d g true) →
      LaneResult s x (.bcast e n d g true) n none true d.toNat fun _ => x.W.greg g.toNat) ∧
    (UsableG s x [g.toNat] → Usable s x [.reg d.toNat] → Starts s x (.bcast e n d g false) →
      LaneResult s x (.bcast e n d g false) n none false d.toNat fun _ => ((x.W.greg g.toNat).setWidth 32).setWidth 64) ∧
    (x.T.width ≤ k.toNat → Starts s x (.rdlane e g a w k) → Traps s x (.rdlane e g a w k) ⟨2, 0, 0, k.toNat, 0, none⟩) ∧
    (k.toNat < x.T.width → Usable s x [if w then .srcPair a.toNat else .src a.toNat] → UsableG s x [g.toNat] →
      Starts s x (.rdlane e g a w k) → UniResult s x (.rdlane e g a w k) none g.toNat
        (if x.P.lanes.getLsbD k.toNat then (if w then x.srcPair a.toNat k.toNat else (A k.toNat).setWidth 64) else 0))

/-- BR, BRZ, BRNZ, BRX, BRM, JMP, JZ and JNZ, with every target (taken or not) aligned and canonical, complete: the lanes
with equal next PCs go on as one path at that PC, outside a scene; no register of the warp changes, nor anything else. (R21,
R47, R90, R91, R92, R155, R163) -/
def Obligations.Branches : Prop :=
  ∀ (s : State) (x : Ix) (a : BitVec 7) (k : BitVec 3) (g : BitVec 6) (o14 : BitVec 14) (o16 : BitVec 16) (o21 : BitVec 21)
    (o22 : BitVec 22),
    let A := fun l => x.src a.toNat l
    let G := x.W.greg g.toNat
    let dest := fun (o : Int) => x.P.pc + BitVec.ofInt 56 (4 * o)
    let good := fun (t : VAddr) => t.toNat % 4 = 0 ∧ (t.toNat < 2 ^ 51 ∨ 2 ^ 56 - 2 ^ 51 ≤ t.toNat)
    let goes := fun (i : Instr) (o : Int) (taken : Nat → Prop) => good (dest o) → Starts s x i →
      ∃ t tgt, Transfers s s t x i x.W tgt ∧ ∀ l, (taken l → tgt l = dest o) ∧ (¬ taken l → tgt l = x.P.pc + 4)
    goes (.br o21) o21.toInt (fun _ => True) ∧
    (Usable s x [.src a.toNat] → goes (.brz a o14) o14.toInt fun l => A l = 0) ∧
    (Usable s x [.src a.toNat] → goes (.brnz a o14) o14.toInt fun l => A l ≠ 0) ∧
    goes (.brm k o14) o14.toInt (fun l => (x.W.mask x.P k.toNat).getLsbD l = true) ∧
    goes (.jmp o22) o22.toInt (fun _ => True) ∧
    (UsableG s x [g.toNat] → goes (.jz g o16) o16.toInt fun _ => G = 0) ∧
    (UsableG s x [g.toNat] → goes (.jnz g o16) o16.toInt fun _ => G ≠ 0) ∧
    (Usable s x [.srcPair a.toNat] → (∀ l ∈ x.lanes, good ((x.srcPair a.toNat l).setWidth 56)) → Starts s x (.brx a) →
      ∃ t, Transfers s s t x (.brx a) x.W fun l => (x.srcPair a.toNat l).setWidth 56)

/-- CALL, CALLX and both forms of GCALL with good targets: every lane of the path pushes the address of the next
instruction; a lane that holds eight hardware entries first stores its oldest at private offset 8 x its spill count and
counts it; the path moves to its targets; no other register changes, nor anything else but what the translation of the
stores shares and keeps. If such a lane has spilled 8,192 entries the return-stack-overflow fault is raised for the lowest
one, and a store that fails the checks of private accesses raises its fault, with no stack changed. That the branch-target
fault comes before these is log 9. (R22, R90, R93, R95, R96, R156) -/
def Obligations.Calls : Prop :=
  ∀ (s : State) (x : Ix) (a : BitVec 7) (g : BitVec 6) (o21 : BitVec 21) (o22 : BitVec 22),
    let good := fun (t : VAddr) => t.toNat % 4 = 0 ∧ (t.toNat < 2 ^ 51 ∨ 2 ^ 56 - 2 ^ 51 ≤ t.toNat)
    let full := x.lanes.filter fun l => decide (8 ≤ (x.W.stackOf l).length)
    let spills := x.privateAcc s .store 8 full fun l => 8 * x.W.spillOf l
    let calls := fun (i : Instr) (tgt : Nat → VAddr) => (∀ l ∈ x.lanes, good (tgt l)) → Starts s x i →
      (∀ l ∈ full, x.W.spillOf l = 8192 → (∀ k ∈ full, k < l → x.W.spillOf k ≠ 8192) → Traps s x i ⟨5, 0, 0, 0, 0, some l⟩) ∧
      ((∀ l ∈ full, x.W.spillOf l ≠ 8192) →
        (∀ tr, spills = .error tr → Traps s x i tr) ∧
        ∀ as, spills = .ok as → ∃ u t W, Shared s u ∧ Transfers s { u with
            nextId := s.nextId + as.length
            stores := s.stores ++ as.zipIdx.map fun e =>
              x.pstore s e.2 e.1 (leBytes 8 (((x.W.stackOf e.1.lane).getLast?).getD 0).toNat) } t x i W tgt ∧
          W = { x.W with stack := W.stack, spill := W.spill } ∧
          ∀ l, (l ∈ x.lanes → W.stackOf l = (x.P.pc + 4) ::
              (if 8 ≤ (x.W.stackOf l).length then (x.W.stackOf l).dropLast else x.W.stackOf l)) ∧
            (l ∈ x.lanes → W.spillOf l = x.W.spillOf l + (if 8 ≤ (x.W.stackOf l).length then 1 else 0)) ∧
            (l ∉ x.lanes → W.stackOf l = x.W.stackOf l ∧ W.spillOf l = x.W.spillOf l))
    calls (.call o21) (fun _ => x.P.pc + BitVec.ofInt 56 (4 * o21.toInt)) ∧
    (Usable s x [.srcPair a.toNat] → calls (.callx a) fun l => (x.srcPair a.toNat l).setWidth 56) ∧
    calls (.gcall o22) (fun _ => x.P.pc + BitVec.ofInt 56 (4 * o22.toInt)) ∧
    (UsableG s x [g.toNat] → calls (.gcallRegister g) fun _ => (x.W.greg g.toNat).setWidth 56)

/-- RET: a lane with hardware entries goes to its newest, which is popped; a lane without goes to bits [55:0] of the entry
that an ordinary load of its thread reads from private offset 8 x (spill count - 1), and its spill count falls by one; with
good targets, lanes with equal targets go on as one path, no register changes, every byte of memory reads as before, and
nothing else changes but lines shared or brought into L1 and leaves kept. A lane with neither entry raises the
return-stack-empty fault, a load that fails the checks of private accesses its fault, a load that cannot be served the data
error, and a bad target the branch-target fault, each for the lowest such lane, with no stack changed. The order of the last
three is the model's (log 9). (R90, R94, R95, R96, R389) -/
def Obligations.Returns : Prop :=
  ∀ (s : State) (x : Ix) (as : List MemAcc),
    let empty := x.lanes.filter fun l => (x.W.stackOf l).isEmpty
    let refill := x.privateAcc s .load 8 empty fun l => 8 * (x.W.spillOf l - 1)
    let load := fun (a : MemAcc) => x.outst s 0 a false false 0 0
    let entry : Nat → VAddr := fun l => match x.W.stackOf l with
      | t :: _ => t
      | [] => ((as.find? fun a => decide (a.lane = l)).map fun a => BitVec.ofNat 56 (s.loadValue (load a))).getD 0
    let good := fun (t : VAddr) => t.toNat % 4 = 0 ∧ (t.toNat < 2 ^ 51 ∨ 2 ^ 56 - 2 ^ 51 ≤ t.toNat)
    Starts s x .ret →
    (∀ l ∈ empty, x.W.spillOf l = 0 → (∀ k ∈ empty, k < l → x.W.spillOf k ≠ 0) → Traps s x .ret ⟨4, 0, 0, 0, 0, some l⟩) ∧
    ((∀ l ∈ empty, x.W.spillOf l ≠ 0) →
      (∀ tr, refill = .error tr → Traps s x .ret tr) ∧
      (refill = .ok as → (∀ a ∈ as, s.laneLoadOn x.w a.lane a.pas = false) →
        (∀ pre a post, as = pre ++ a :: post → (∀ b ∈ pre, s.served (load b) = true) → s.served (load a) = false →
          Traps s x .ret ⟨23, 0, a.va, 0, 0, some a.lane⟩) ∧
        ((∀ a ∈ as, s.served (load a) = true) →
          (∀ l ∈ x.lanes, ¬ good (entry l) → (∀ k ∈ x.lanes, k < l → good (entry k)) →
            Traps s x .ret ⟨3, 0, (entry l).toNat, 0, 0, some l⟩) ∧
          ((∀ l ∈ x.lanes, good (entry l)) → ∃ u t W, Cached s u ∧ Transfers s u t x .ret W entry ∧
            W = { x.W with stack := W.stack, spill := W.spill } ∧
            ∀ l, (l ∈ x.lanes → W.stackOf l = (x.W.stackOf l).tail ∧
                W.spillOf l = x.W.spillOf l - (if (x.W.stackOf l).isEmpty then 1 else 0)) ∧
              (l ∉ x.lanes → W.stackOf l = x.W.stackOf l ∧ W.spillOf l = x.W.spillOf l)))))

/-- MASH of a path that is not all live lanes of its warp raises the illegal-convergence fault. HANG fails in order on its
handle, its descriptor, its alignment, its translation and its arena block; CUE and UNHANG on a handle that is not bound,
CUE on an index past the table, of the lowest such lane, and on an uncorrectable error in the entry of the lowest such lane,
once its last entry returns. A load that meets an uncorrectable error, that a link that is down cannot serve, or that a
device answers with an error raises the data error. Where the instruction is still the last of its path, the path goes back
to it and stops there with no register written; else the paths that hold the lanes stop where they stand, and the load, or
the whole CUE, is made anew after the hold. CASTI, CASTSPLIT and a CAST at its stop raise the cast fault and the
unsorted-index fault, with nothing done but the reads before. When an error in returned data is met is the model's choice
(log 12); so is that CASTSPLIT checks its share after the records and before the row pointers, and ROWSPLIT its end against
COUNT before it looks whether it is done (log 22). (R290, R317, R360, R361, R365, R366, R367, R368, R379, R389) -/
def Obligations.UnitFaults : Prop :=
  ∀ (s : State) (x : Ix),
    (∀ (e clr half : Bool) (d a : BitVec 7) (bsel fa fw : BitVec 2) (pm1 : BitVec 4) (kg : BitVec 5) (bmask : BitVec 16),
      let i := Instr.mash e d a bsel clr fa fw pm1 kg half bmask
      Starts s x i → x.P.lanes ≠ x.W.live → Traps s x i ⟨7, 0, 0, x.P.lanes.toNat, (x.W.live &&& ~~~x.P.lanes).toNat, none⟩) ∧
    (∀ (e sx : Bool) (gd ga gb : BitVec 6) (d a : BitVec 7) (h : BitVec 4),
      let H := tget Handle.unbound s.handles (16 * x.T.ctx + h.toNat)
      let desc := (x.W.greg gb.toNat).toNat
      let rows := desc % 2 ^ 7
      let va := (x.W.greg ga.toNat).toNat % 2 ^ 56
      let tl := x.xlate s .fresh x.low [va]
      let idx := fun l => (x.src a.toNat l).toNat
      (UsableG s x [gd.toNat, ga.toNat, gb.toNat] → Starts s x (.hang e gd ga gb h) → FaultsInOrder s s x (.hang e gd ga gb h) [
        (H ≠ .unbound, ⟨18, 3, 0, h.toNat, 0, none⟩),
        (rows = 0 ∨ 64 < rows ∨ desc / 2 ^ 7 % 2 ≠ 0 ∨ desc / 2 ^ 8 % 4 = 3 ∨ desc / 2 ^ 10 ≠ 0, Trap.operand gb.toNat),
        (va % 1024 ≠ 0, ⟨10, 0, va, 0, 0, none⟩),
        (tl.toOption = none, match tl with | .error t => { t with lane := none } | .ok _ => Trap.of 0),
        (∃ m, tl = .ok m ∧ (s.inArena m.pa = false ∨ 65536 < m.pa % 65536 + 1024 * rows), ⟨18, 4, 0, h.toNat, 0, none⟩)]) ∧
      (Starts s x (.unhang e h) → (∀ pa rows ew rel, H ≠ .hung pa rows ew rel) → Traps s x (.unhang e h) ⟨18, 1, 0, h.toNat, 0, none⟩) ∧
      (Usable s x [.reg d.toNat, .src a.toNat] → Starts s x (.cue e d a sx h) →
        (H = .unbound → Traps s x (.cue e d a sx h) ⟨18, 1, 0, h.toNat, idx x.low, none⟩) ∧
        ∀ pa rows ew rel l, H = .hung pa rows ew rel → ew ≤ 2 → l ∈ x.lanes → rows * 1024 ≤ idx l * 2 ^ ew →
          (∀ k ∈ x.lanes, k < l → idx k * 2 ^ ew < rows * 1024) → Traps s x (.cue e d a sx h) ⟨18, 2, 0, h.toNat, idx l, some l⟩)) ∧
    (∀ (grp row : Nat) (bad : BitVec 64) (o : Outst) (pre post : List Outst),
      let all := s.loads.filter fun q => decide (q.grp = grp)
      let comes := fun (q : Outst) => decide (q.kind = .cue) && q.coll.isNone && decide ((q.addrs.headD (0, 0)).2 / 1024 = row)
      let wrong := fun (q : Outst) => q.nreg ≠ 0 ∧ (q.kind = .cueBad ∨ comes q = true ∧ bad.getLsbD q.lane = true)
      all = pre ++ o :: post → (∀ q ∈ all, q.kind = .cue → comes q = true ∧ q.failed = false) → (∃ q ∈ all, comes q = true) →
      wrong o → (∀ q ∈ pre, ¬ wrong q) →
      let a := (o.addrs.headD (0, 0)).1
      ∃ t, exec (.queryTransaction grp row bad) s = .next t ∧
        (∀ len e, s.issuerOf o = some (x, len, e) →
          TakesFault { s with loads := s.loads.filter fun q => decide (q.grp ≠ grp) } t x ⟨18, 5, len, e, none, false⟩
            (x.record 3 18 5 0 (a / 2 ^ 32) (a % 2 ^ 32) o.lane)) ∧
        (s.issuerOf o = none → LateFault { s with loads := s.loads.map fun (q : Outst) =>
            if q.grp = grp then { q with failed := true, kind := .cue, value := if comes q then BitVec.ofNat 128 (s.cueValue q) else q.value }
            else q } t o ⟨18, 5, 0, a / 2 ^ 32, a % 2 ^ 32, some o.lane⟩ (maskOf (all.map (·.lane))))) ∧
    (∀ (id : Nat) (err : Bool) (o : Outst) (s1 : State), s.loads.find? (fun o => decide (o.id = id)) = some o → o.coll = none →
      o.kind = .load → o.failed = false → s.loadBefore o = false →
      let a := o.addrs.headD (0, 0)
      (uncached a.2 = false ∧ s1 = s ∧ (err = true ∨ s.served o = false) ∨
        uncached a.2 = true ∧ s.devFirst o.w o.lane o.id = true ∧ s1 = (s.devRead a.2 o.peer).1 ∧
          (err = true ∨ (s.devRead a.2 o.peer).2 = none)) →
      ∃ t, exec (.loadDataReturn id err) s = .next t ∧
        (∀ len e, s1.issuerOf o = some (x, len, e) →
          TakesFault { s1 with loads := s1.loads.filter fun q => decide (q.grp ≠ o.grp) } t x ⟨23, 0, len, e, none, false⟩
            (x.record 3 23 0 a.1 0 0 o.lane)) ∧
        (s1.issuerOf o = none → o.nreg = 0 → t = { s1 with loads := s1.loads.filter fun q => decide (q.id ≠ id) }) ∧
        (s1.issuerOf o = none → o.nreg ≠ 0 → LateFault { s1 with loads := s1.loads.map fun (q : Outst) =>
            if q.id = id then { q with failed := true } else q } t o ⟨23, 0, a.1, 0, 0, some o.lane⟩
          (maskOf ((s1.loads.filter fun q => decide (q.id = id)).map (·.lane))))) ∧
    (∀ (e : Bool) (a b : BitVec 7) (m c : BitVec 2),
      let va := (x.srcPair a.toNat x.low).toNat % 2 ^ 56
      let share := (x.W.reg x.low b.toNat).toNat
      s.castWaits x.w x.low = false →
      (Usable s x [.srcPair a.toNat] → Starts s x (.casti e a m c) →
        (∀ u t, x.castRecords s m.toNat va = .error (u, t) → TrapsIn s u x (.casti e a m c) t) ∧
        ∀ s1 ra rb u t, m = 3 → x.castRecords s 3 va = .ok (s1, ra, rb) → x.rowEnds s1 va (Stream.of ra) (Stream.of rb) = .error (u, t) →
          TrapsIn s u x (.casti e a m c) t) ∧
      (Usable s x [.regPair a.toNat, .reg b.toNat] → Starts s x (.castsplit e c a b) →
        let i := Instr.castsplit e c a b
        (∀ u t, x.castRecords s 3 va = .error (u, t) → TrapsIn s u x i t) ∧
        ∀ s1 ra rb, x.castRecords s 3 va = .ok (s1, ra, rb) → let A := Stream.of ra
          (share / 2 ^ 16 ≤ share % 2 ^ 16 → TrapsIn s s1 x i ⟨21, 1, va, 0, 0, some x.low⟩) ∧
          (share % 2 ^ 16 < share / 2 ^ 16 → (∀ u t, x.rowEnds s1 va A (Stream.of rb) = .error (u, t) → TrapsIn s u x i t) ∧
            ∀ s2 r0 r1 u t, x.rowEnds s1 va A (Stream.of rb) = .ok (s2, r0, r1) →
              x.splitSearch va A r0 r1 (r0 + share % 2 ^ 16 * (r1 - r0) / (share / 2 ^ 16)) 33 s2 0 (A.count - 1) = .error (u, t) →
              TrapsIn s u x i t))) ∧
    (∀ (core w : Nat) (rest : List CastCmd) (k : Wait) (e : Bool) (d a : BitVec 7) (mode cur : BitVec 2) (kd : BitVec 3) (gs : BitVec 6)
        (u1 : State) (t : Trap),
      let u := { s with casts := tput [] s.casts core rest }
      let va := (x.srcPair a.toNat x.low).toNat % 2 ^ 56
      tget [] s.casts core = ⟨w, true⟩ :: rest → s.waiter w = some (x, k) → k = ⟨.castRun, .cast e d a mode cur kd gs⟩ →
      (∀ v y q, s.waiter v = some (y, q) → q.kind ≠ .castPlace) →
      (x.castRecords u mode.toNat va = .error (u1, t) ∨ ∃ s1 ra rb, x.castRecords u mode.toNat va = .ok (s1, ra, rb) ∧
        if mode = 3 then x.rowScan x.low va x.lanes.length (Stream.of ra) (Stream.of rb) (x.W.curWord cur.toNat 2) castFuel s1 0
            ⟨x.W.curWord cur.toNat 0, x.W.curWord cur.toNat 1, [], [], false⟩ = .fault u1 t
        else x.castScan mode.toNat x.low va x.lanes.length castFuel s1 0
            ⟨⟨Stream.of ra, x.W.curWord cur.toNat 0, x.W.curWord cur.toNat 1, none, none, none, false⟩,
              ⟨Stream.of rb, x.W.curWord cur.toNat 2, x.W.curWord cur.toNat 3, none, none, none, false⟩, [], false⟩ = .fault u1 t) →
      ∃ v, exec (.castCommandStop core) s = .next v ∧ TakesFault u1 v x ((Instr.cast e d a mode cur kd gs).stop x.T.width t)
        (x.record 3 t.code t.cause t.addr t.aux0 t.aux1 (t.lane.getD x.low))) ∧
    (∀ (lane raddr n : Nat) (A B : Stream) (k : Walk),
      (∀ mode ra rb s1 s2, x.streamRead s x.low raddr 32 = .ok (s1, ra) →
        (mode = 2 ∧ rb = 0 ∧ s2 = s1 ∨ mode ≠ 2 ∧ x.streamRead s1 x.low (raddr + 32) 32 = .ok (s2, rb)) →
        (streamOk mode ra = false ∨ (mode ≠ 2 ∧ streamOk mode rb = false)) → x.castRecords s mode raddr = .error (s2, ⟨21, 1, raddr, 0, 0, some x.low⟩)) ∧
      (∀ s1 v strm, k.head = none → k.r.enc = 0 → n < castLimit → x.streamRead s lane (k.r.base + 4 * k.pos) 4 = .ok (s1, v) →
        k.pos ≠ 0 → v ≤ k.last → x.headOf lane raddr strm s n k = .fault s1 ⟨22, 0, raddr, k.pos % 2 ^ 32 + strm * 2 ^ 32,
          v % 2 ^ 32 + k.last % 2 ^ 32 * 2 ^ 32, some lane⟩) ∧
      (∀ s1 v strm, k.head = none → k.r.enc = 1 → n < castLimit → x.streamRead s lane (k.r.base + 2 * k.pos) 2 = .ok (s1, v) →
        (v ≠ 0xFFFF ∧ 2 ^ 32 ≤ k.last + v) ∨ (v = 0xFFFF ∧ k.r.count < k.pos + 3) →
        x.headOf lane raddr strm s n k = .fault s1 ⟨21, 3, raddr, 0, 0, some lane⟩) ∧
      (∀ b strm, k.head = none → k.r.enc = 2 → k.bit = some b → 2 ^ 32 ≤ k.r.first + b →
        x.headOf lane raddr strm s n k = .fault s ⟨21, 3, raddr, 0, 0, some lane⟩) ∧
      ∀ room nzend fuel p, p.out.length < room → (B.count < nzend ∨ (p.nz < nzend ∧ A.count ≤ p.row + 1)) →
        x.rowScan lane raddr room A B nzend (fuel + 1) s n p = .fault s ⟨21, 2, raddr, 0, 0, some lane⟩)

/-- ENROL adds the lanes of the path selected by km to EN of jn. STRIKE removes them, and REJOIN parks the lanes of the path
enrolled in jn with the next address as continuation, the others going on there; where EN then equals a nonzero AR (for
STRIKE: where it changed EN), the register is cleared and its lanes go on as fresh paths, one for each continuation. A
REJOIN that leaves its warp no path, releases nothing and leaves threads that have not exited raises the rejoin-deadlock
fault. Nothing else changes. (R134, R135, R136, R138, R161, R162) -/
def Obligations.RejoinRegisters : Prop :=
  ∀ (s : State) (x : Ix) (e : Bool) (j k : BitVec 3),
    let J := x.W.join j.toNat
    let named := x.P.lanes &&& x.W.mask x.P k.toNat
    let freshFrom := fun (cont : Nat → VAddr) (ar : Mask) (Q : Path) => ∃ l ∈ lanesOf ar,
      Q = Path.fresh (maskOf ((lanesOf ar).filter fun k => decide (cont k = cont l))) (cont l)
    (Starts s x (.enrol e j k) → ∃ t W, Completes s t x (.enrol e j k) none W ∧ W = { x.W with j := W.j } ∧
      W.join j.toNat = ⟨J.en ||| named, J.ar⟩ ∧ ∀ m, m ≠ j.toNat → W.join m = x.W.join m) ∧
    (¬ (J.en &&& ~~~named ≠ J.en ∧ J.ar ≠ 0 ∧ J.en &&& ~~~named = J.ar) → Starts s x (.strike e j k) →
      ∃ t W, Completes s t x (.strike e j k) none W ∧ W = { x.W with j := W.j } ∧
        W.join j.toNat = ⟨J.en &&& ~~~named, J.ar⟩ ∧ ∀ m, m ≠ j.toNat → W.join m = x.W.join m) ∧
    (∀ i, i = .strike e j k → J.en &&& ~~~named ≠ J.en → J.ar ≠ 0 → J.en &&& ~~~named = J.ar → x.low ∉ lanesOf J.ar →
      Starts s x i → ∃ t V, exec i s = .next t ∧ OnlyWarp s t x.w i.endsScene ∧ t.warp x.w = some V ∧
        V.body = { x.W with j := V.j, cont := V.cont }.body ∧ V.join j.toNat = ⟨0, 0⟩ ∧
        (∀ m, m ≠ j.toNat → V.join m = x.W.join m) ∧ (∀ l, l ∉ lanesOf J.ar → tget 0 V.cont l = tget 0 x.W.cont l) ∧
        V.running = (if i.endsScene then none else some x.low) ∧ PathsAre V x.W x.low i.endsScene fun Q =>
          (∃ P ∈ x.W.paths, lowest P.lanes = x.low ∧ Q = Ix.after { x with P := P } i none) ∨
          freshFrom (fun l => tget 0 x.W.cont l) J.ar Q) ∧
    (x.P.lanes &&& J.en = 0 → Starts s x (.rejoin j) → ∃ t, Completes s t x (.rejoin j) none x.W) ∧
    (let L := x.P.lanes &&& J.en
     let rest := x.P.lanes &&& ~~~J.en
     let released := J.en = J.ar ||| L
     let cont := fun l => if L.getLsbD l then x.P.pc + 4 else tget 0 x.W.cont l
     L ≠ 0 → (rest ≠ 0 ∨ released ∨ ∃ P ∈ x.W.paths, lowest P.lanes ≠ x.low) → Starts s x (.rejoin j) →
      ∃ t W, Moves s s t x (.rejoin j) W (fun Q =>
          (rest ≠ 0 ∧ Q = { x.after (.rejoin j) none with lanes := rest }) ∨ (released ∧ freshFrom cont (J.ar ||| L) Q)) ∧
        W = { x.W with j := W.j, cont := W.cont } ∧ (∀ m, m ≠ j.toNat → W.join m = x.W.join m) ∧
        (∀ l, l ∉ lanesOf (J.ar ||| L) → tget 0 W.cont l = tget 0 x.W.cont l) ∧
        (released → W.join j.toNat = ⟨0, 0⟩) ∧ (¬ released → W.join j.toNat = ⟨J.en, J.ar ||| L⟩ ∧
          ∀ l, l < 64 → tget 0 W.cont l = cont l)) ∧
    (let L := x.P.lanes &&& J.en
     L ≠ 0 → x.P.lanes &&& ~~~J.en = 0 → J.en ≠ J.ar ||| L → (∀ P ∈ x.W.paths, lowest P.lanes = x.low) →
      x.W.live &&& ~~~x.W.exited ≠ 0 → Starts s x (.rejoin j) →
      ∃ t W, exec (.rejoin j) s = .next t ∧ Deadlocks s t x W ∧ W = { x.W with j := W.j, cont := W.cont } ∧
        W.join j.toNat = ⟨J.en, J.ar ||| L⟩ ∧ (∀ m, m ≠ j.toNat → W.join m = x.W.join m) ∧
        ∀ l, l < 64 → tget 0 W.cont l = if L.getLsbD l then x.P.pc + 4 else tget 0 x.W.cont l)

/-- EXIT: the lanes of the path have exited, lose their return stacks and monitors, and leave every EN; their outstanding
vector loads are discarded; where that leaves a changed EN equal to its nonzero AR, the lanes parked there go on as fresh
paths, one for each continuation, and the register is cleared; the team notes the identifier that is next, which bounds the
stores its retirement awaits (the model's, log 12). The barriers of the team are then checked, which may open. An EXIT that
leaves its warp no path and threads that have not exited, and releases nothing, raises the rejoin-deadlock fault. No
register, no byte of memory and no other warp changes beside. (R97, R135, R136, R138, R173, R175) -/
def Obligations.ExitEndsThreads : Prop :=
  ∀ (s : State) (x : Ix),
    let L := x.P.lanes
    let J := fun n => x.W.join n
    let released := fun n => n < 8 ∧ (J n).en &&& L ≠ 0 ∧ (J n).ar ≠ 0 ∧ (J n).en &&& ~~~L = (J n).ar
    let left := fun n l => ∃ m, m < n ∧ released m ∧ (J m).ar.getLsbD l = true
    let cont : Nat → Nat → VAddr := fun n l => if left n l then 0 else tget 0 x.W.cont l
    let y := { x with T := { x.T with last := s.nextId } }
    let s1 := { s with
      teams := tput none s.teams x.W.team (some y.T)
      loads := s.loads.map fun o => if o.w = x.w ∧ L.getLsbD o.lane = true ∧ o.uni = false then { o with nreg := 0 } else o }
    let fresh := fun (Q : Path) => ∃ n, released n ∧ ∃ l ∈ lanesOf (J n).ar,
      Q = Path.fresh (maskOf ((lanesOf (J n).ar).filter fun k => decide (cont n k = cont n l))) (cont n l)
    let gone := fun (W : Warp) =>
      W = { x.W with exited := x.W.exited ||| L, stack := W.stack, spill := W.spill, mon := W.mon, j := W.j, cont := W.cont } ∧
      (∀ l, l ∈ x.lanes → W.stackOf l = [] ∧ W.spillOf l = 0 ∧ tget none W.mon l = none) ∧
      (∀ l, l ∉ x.lanes → W.stackOf l = x.W.stackOf l ∧ W.spillOf l = x.W.spillOf l ∧ tget none W.mon l = tget none x.W.mon l) ∧
      (∀ m, m < 8 → (released m → W.join m = ⟨0, 0⟩) ∧ (¬ released m → W.join m = ⟨(J m).en &&& ~~~L, (J m).ar⟩)) ∧
      ∀ l, l < 64 → (left 8 l → tget 0 W.cont l = 0) ∧ (¬ left 8 l → tget 0 W.cont l = tget 0 x.W.cont l)
    let other := ∃ P ∈ x.W.paths, lowest P.lanes ≠ x.low
    Starts s x .exit → ∃ u v t T W, gone W ∧
      ((∃ n, released n) ∨ other ∨ x.W.live &&& ~~~(x.W.exited ||| L) = 0 → MovesTo s1 u x W fresh) ∧
      ((∀ n, ¬ released n) → ¬ other → x.W.live &&& ~~~(x.W.exited ||| L) ≠ 0 → Deadlocks s1 u y W) ∧
      u.team x.W.team = some T ∧ BarrierChecked u v T .bar 1 ∧ (x.T.gang = true → BarrierChecked v t T .barg 5) ∧
      (x.T.gang = false → t = v) ∧ exec .exit s = .next t

/-- YIELD blocks its path until the clock of its die is 16 on. BAR, and BARG in a gang, where the release they make has
nothing to wait for, block their path at the barrier; if then every started covered team has all its threads that have not
exited blocked there, every path blocked at it is ready again and the cores acquire, and nothing else changes. BARG outside
a gang raises fault 9. (R133, R157, R173, R175, R176) -/
def Obligations.BarriersAndYield : Prop :=
  ∀ (s : State) (x : Ix),
    (Starts s x .yield → ∃ t, exec .yield s = .next t ∧ BlockedPast s t x .yield (.yield (s.clockOf x.core + 16))) ∧
    (Starts s x .barg → x.T.gang = false → Traps s x .barg (Trap.of 9)) ∧
    ∀ i b sc, (i = .bar ∧ b = .bar ∧ sc = 1 ∨ i = .barg ∧ b = .barg ∧ sc = 5 ∧ x.T.gang = true) →
      x.releaseWaits s sc = false → Starts s x i →
      ∃ u t, BlockedPast s u x i b ∧ exec i s = .next t ∧ BarrierChecked u t x.T b sc

/-- NOP, HINT and PREF complete with no effect. FENCE completes when no load of the path is outstanding and, for a kind that
releases, its release has nothing to wait for: a kind that acquires at a wide scope drops the lines of the team's context
from the L1 of the issuing core; a kind that releases at .system scope has its core's stores at their hubs, and the model
every unwritten line of an L2 (log 12); one that releases at a narrow scope takes an identifier, which later stores of its
lanes carry. Nothing else changes. (R98, R61, R262, R268, R230, R235, R236, R248) -/
def Obligations.NoEffectAndFences : Prop :=
  ∀ (s : State) (x : Ix) (e b : Bool) (h : BitVec 4) (y : BitVec 21) (k : BitVec 2) (sc : BitVec 3) (a : BitVec 7) (o : BitVec 5)
    (z : BitVec 2),
    (∀ i ∈ [Instr.nop e, .hint e b h y, .pref e k a o z], Starts s x i → ∃ t, Completes s t x i none x.W) ∧
    (s.loadsOut x.w x.P.lanes = false → (k ≠ 0 → x.releaseWaits s sc.toNat = false) → Starts s x (.fence e k sc) →
      let i := Instr.fence e k sc
      let wide := wideScope x.T sc.toNat
      let acquires := fun (t : State) => ∀ L, L ∈ t.l1 ↔
        L ∈ s.l1 ∧ ¬ (k ≠ 1 ∧ wide = true ∧ L.core = x.core ∧ L.ctx = x.T.ctx)
      (k = 0 ∨ wide = true ∧ sc ≠ 6 → ∃ t, CompletesIn s { s with l1 := t.l1 } t x i none x.W ∧ acquires t) ∧
      (k ≠ 0 → sc = 6 → ∃ u t, Shared s u ∧ (∀ pa, tget none u.dirty pa = none) ∧
        CompletesIn s { u with l1 := t.l1 } t x i none x.W ∧ acquires t) ∧
      (k ≠ 0 → wide = false → ∃ t W, CompletesIn s { s with
          nextId := s.nextId + 1 } t x i none W ∧
        W = { x.W with fenced := W.fenced } ∧
        ∀ l, tget 0 W.fenced l = if l ∈ x.lanes then s.nextId + 1 else tget 0 x.W.fenced l))

/-- LDG, LDGS, LDP, LDPS and GLD with usable operands, whose accesses pass their checks, go over no link that is down and,
where they make several collector entries, find room in the collector, complete: each access, or each 64-bit half of one of
128 bits, becomes an outstanding load of its lane, with the bytes it reads and the registers it will write, in the collector
by line where there are several lines. No register changes yet, nor anything else but what the translations share and keep.
An access over a link that is down raises the data error for the lowest such lane. That a load obtains its value when it
returns is log 12, that one of a device register or a peer window does so too, in its lane's order, log 23, and the count of
the collector's entries log 24. (R151, R152, R223, R227, R237, R248, R251, R255, R371, R389, R417) -/
def Obligations.MemoryLoads : Prop :=
  ∀ (s : State) (x : Ix) (e zb : Bool) (d a : BitVec 7) (o : BitVec 5) (z : BitVec 2) (gd ga : BitVec 6) (o7 : BitVec 7),
    let loads := fun (i : Instr) (acc : Except Trap (List MemAcc)) (signed uni : Bool) (d nreg : Nat) (collect : Bool) =>
      ∀ as, acc = .ok as → Starts s x i →
      let dead := fun (a : MemAcc) => s.deadLink (x.outst s 0 a signed uni d nreg)
      let parts := as.flatMap MemAcc.parts
      let many := collect && decide (1 < (accLines as).length)
      (∀ pre a post, as = pre ++ a :: post → (∀ b ∈ pre, dead b = false) → dead a = true →
        ∃ u, Shared s u ∧ TrapsIn s u x i ⟨23, 0, a.va, 0, 0, some a.lane⟩) ∧
      ((∀ a ∈ as, dead a = false) → (many = true → (s.collEntries x.core).length + (accLines as).length ≤ 64) →
        ∃ u t, Shared s u ∧ CompletesIn s { u with
          nextId := s.nextId + parts.length
          loads := s.loads ++ parts.zipIdx.map fun p =>
            { x.outst s p.2 p.1.1 signed uni (d + p.1.2) (if nreg = 4 then 2 else nreg) with
              size := parts.length, coll := if many then some (p.1.1.va / 128) else none, lock := collect || uni } } t x i none x.W)
    let bytes := fun z => [1, 2, 4, 16].getD z 0
    let dst := fun z => if z = 3 then Use.group d.toNat 4 4 else .reg d.toNat
    let glob := fun n l => ((x.srcPair a.toNat l).toNat + o.toNat * n) % 2 ^ 56
    let priv := fun n l => (x.src a.toNat l).toNat + o.toNat * n
    let unif := ((x.W.greg ga.toNat).toNat + o7.toNat * 2 ^ z.toNat) % 2 ^ 56
    (Usable s x [dst z, .srcPair a.toNat] → loads (.ldg e d a o z) (x.globalAcc s .load (bytes z.toNat) x.lanes (glob (bytes z.toNat)))
      false false d.toNat (if z = 3 then 4 else 1) true) ∧
    (Usable s x [.reg d.toNat, .srcPair a.toNat] → loads (.ldgs e d a o zb)
      (x.globalAcc s .load (bytes zb.toNat) x.lanes (glob (bytes zb.toNat))) true false d.toNat 1 true) ∧
    (Usable s x [dst z, .src a.toNat] → loads (.ldp e d a o z) (x.privateAcc s .load (bytes z.toNat) x.lanes (priv (bytes z.toNat)))
      false false d.toNat (if z = 3 then 4 else 1) false) ∧
    (Usable s x [.reg d.toNat, .src a.toNat] → loads (.ldps e d a o zb)
      (x.privateAcc s .load (bytes zb.toNat) x.lanes (priv (bytes zb.toNat))) true false d.toNat 1 false) ∧
    (UsableG s x [gd.toNat, ga.toNat] → loads (.gld e gd ga z o7) (x.globalAcc s .fresh (2 ^ z.toNat) [x.low] fun _ => unif)
      false true gd.toNat 1 false)

/-- LDS, LDSS and GLDS whose accesses pass their checks complete when every line they read is full: the access of each lane,
or each 64-bit half of one of 128 bits, becomes an outstanding load of that lane, which reads scratch when it returns (log
12). If some line is empty, the lanes of full lines have theirs and the path waits at the instruction, inside its scene,
with those lanes done. Executed again with lanes done, it takes the values of the others as it finds them. No register
changes yet, nor anything else. (R151, R211, R214, R227, R234, R251, R254, R255) -/
def Obligations.ScratchLoads : Prop :=
  ∀ (s : State) (x : Ix) (e zb : Bool) (d a : BitVec 7) (o : BitVec 5) (z : BitVec 2) (gd ga : BitVec 6) (o7 : BitVec 7),
    let loads := fun (i : Instr) (n : Nat) (lanes : List Nat) (off : Nat → Nat) (signed uni : Bool) (d nreg : Nat) =>
      ∀ as, x.scratchAcc s n (lanes.filter fun l => !x.P.done.getLsbD l) off = .ok as → Starts s x i →
      let first := x.P.wait = none ∧ x.P.done = 0
      let full := as.filter fun p => !s.isEmpty p.2
      let parts := (full.map (scratchMem n off)).flatMap MemAcc.parts
      let entries := fun (size : Nat) => parts.zipIdx.map fun p =>
        let o := x.outst s p.2 p.1.1 signed uni (d + p.1.2) (if nreg = 4 then 2 else nreg)
        if first then { o with size := size } else { o with kind := .value, value := BitVec.ofNat 128 (s.loadValue o) }
      let after := fun (size : Nat) => { s with nextId := s.nextId + parts.length, loads := s.loads ++ entries size }
      ((∀ p ∈ as, s.isEmpty p.2 = false) → ∃ t, CompletesIn s (after parts.length) t x i none x.W) ∧
      ((∃ p ∈ as, s.isEmpty p.2 = true) → x.T.hold = none →
        exec i s = .next ((after 0).setWarp x.w (x.W.modPath x.low fun P =>
          { P with done := P.done ||| maskOf (full.map (·.1)), wait := some ⟨.emptyLine, i⟩ })))
    let bytes := fun z => [1, 2, 4, 16].getD z 0
    let off := fun n l => (x.src a.toNat l).toNat + o.toNat * n
    (Usable s x [if z = 3 then .group d.toNat 4 4 else .reg d.toNat, .src a.toNat] →
      loads (.lds e d a o z) (bytes z.toNat) x.lanes (off (bytes z.toNat)) false false d.toNat (if z = 3 then 4 else 1)) ∧
    (Usable s x [.reg d.toNat, .src a.toNat] →
      loads (.ldss e d a o zb) (bytes zb.toNat) x.lanes (off (bytes zb.toNat)) true false d.toNat 1) ∧
    (UsableG s x [gd.toNat, ga.toNat] → loads (.glds e gd ga z o7) (2 ^ z.toNat) [x.low]
      (fun _ => (x.W.greg ga.toNat).toNat % 2 ^ 32 + o7.toNat * 2 ^ z.toNat) false true gd.toNat 1)

/-- STS and GST to scratch, whose accesses pass their checks, complete: the store of each lane, or each 64-bit half of one
of 128 bits, is unperformed, with the low bytes of its data and the locations resolved; no byte of scratch changes yet (log
12). EMPTY, once no store of its path to scratch is unperformed and no load of its path outstanding, makes the lines empty;
a load that found them full has read them before (log 12). FCHK writes 1 in each lane whose line is full, else 0. No
register, no other line bit and no byte of memory changes. (R151, R211, R214, R227, R234, R257, R263) -/
def Obligations.ScratchWrites : Prop :=
  ∀ (s : State) (x : Ix) (e n : Bool) (d a : BitVec 7) (o : BitVec 5) (z : BitVec 2) (gd ga : BitVec 6) (o7 : BitVec 7),
    let writes := fun (i : Instr) (n : Nat) (lanes : List Nat) (off : Nat → Nat) (v : Nat → Nat) =>
      ∀ as, x.scratchAcc s n lanes off = .ok as → Starts s x i →
      let parts := (as.map (scratchMem n off)).flatMap MemAcc.parts
      ∃ t, CompletesIn s { s with
        nextId := s.nextId + parts.length
        stores := s.stores ++ parts.zipIdx.map fun p =>
          x.pstore s p.2 { p.1.1 with vas := p.1.1.pas } ((leBytes n (v p.1.1.lane)).drop (4 * p.1.2)) } t x i none x.W
    let bytes := [1, 2, 4, 16].getD z.toNat 0
    let off := fun l => (x.src a.toNat l).toNat + o.toNat * bytes
    let data := fun l => if z = 3 then (x.W.reg l (d.toNat + 3) ++ x.W.reg l (d.toNat + 2) ++ x.W.reg l (d.toNat + 1) ++
      x.W.reg l d.toNat : BitVec 128).toNat else (x.src d.toNat l).toNat
    (Usable s x [if z = 3 then .group d.toNat 4 4 else .src d.toNat, .src a.toNat] → writes (.sts e d a o z) bytes x.lanes off data) ∧
    (UsableG s x [gd.toNat, ga.toNat] → writes (.gst e gd ga true z o7) (2 ^ z.toNat) [x.low]
      (fun _ => (x.W.greg ga.toNat).toNat % 2 ^ 32 + o7.toNat * 2 ^ z.toNat) fun _ => (x.W.greg gd.toNat).toNat) ∧
    (∀ as, Usable s x [.src a.toNat] → x.scratchOut s = false → s.loadsOut x.w x.P.lanes = false →
      x.scratchAcc s bytes x.lanes off = .ok as → Starts s x (.empty e a o z) →
      ∃ t, CompletesIn s { s with empty := t.empty, loads := t.loads } t x (.empty e a o z) none x.W ∧
        t.loads = (as.foldl (fun u p => u.settle fun loc => isScratch loc && decide (locLine loc = lineKey p.2)) s).loads ∧
        ∀ j, tget false t.empty j = if ∃ p ∈ as, lineKey p.2 = j then true else tget false s.empty j) ∧
    (∀ as, Usable s x [.reg d.toNat, .src a.toNat] → x.scratchAcc s bytes x.lanes off = .ok as → Starts s x (.fchk e n d a o z) →
      LaneResult s x (.fchk e n d a o z) n none false d.toNat fun l =>
        if ∃ p, x.T.scratchAt (off l) bytes = some p ∧ s.isEmpty p = true then 0 else 1)

/-- STG, STP, GST to global memory, and STREL at a narrow scope, with usable operands and accesses that pass their checks,
complete: each access, or each 64-bit half of one of 128 bits, becomes an unperformed store of its lane with the bytes it
writes and the release it carries, its own or that of the lane's last FENCE, in the collector by line where a STG has
several lines and there is room, and, into a peer window, with the port and fabric address of the window as it is now. No
byte of memory and no register changes yet, nor anything else but what the translations share and keep. That a store of a
device register is such a store, made in its lane's order when it is performed, is log 23. (R223, R227, R230, R237, R250,
R251, R257, R259, R371, R419) -/
def Obligations.MemoryStores : Prop :=
  ∀ (s : State) (x : Ix) (e : Bool) (d a : BitVec 7) (o : BitVec 5) (z : BitVec 2) (sc : BitVec 3) (gd ga : BitVec 6)
    (o7 : BitVec 7),
    let stores := fun (i : Instr) (n : Nat) (acc : Except Trap (List MemAcc)) (v : Nat → Nat) (collect releases : Bool) =>
      ∀ as, acc = .ok as → Starts s x i →
      let parts := as.flatMap MemAcc.parts
      let many := collect && decide (1 < (accLines as).length)
      let fence := fun l => tget 0 x.W.fenced l
      let rel := fun l => if releases then some (x.core, s.nextId) else if fence l = 0 then none else some (x.core, fence l - 1)
      (many = true → (s.collEntries x.core).length + (accLines as).length ≤ 64) →
      ∃ u t, Shared s u ∧ CompletesIn s { u with
        nextId := s.nextId + parts.length
        stores := s.stores ++ parts.zipIdx.map fun p =>
            { id := s.nextId + p.2, grp := s.nextId, w := x.w, lane := p.1.1.lane, ctx := x.T.ctx
              bytes := ((p.1.1.vas.zip p.1.1.pas).zip ((leBytes n (v p.1.1.lane)).drop (4 * p.1.2))).map fun b => (b.1.1, b.1.2, b.2)
              coll := if many then some (p.1.1.va / 128) else none, mcst := false, span := [], rel := rel p.1.1.lane
              peer := s.peerAt p.1.1.pa } } t x i none x.W
    let bytes := [1, 2, 4, 16].getD z.toNat 0
    let glob := fun off l => ((x.srcPair a.toNat l).toNat + off) % 2 ^ 56
    let data := fun l => if z = 3 then (x.W.reg l (d.toNat + 3) ++ x.W.reg l (d.toNat + 2) ++ x.W.reg l (d.toNat + 1) ++
      x.W.reg l d.toNat : BitVec 128).toNat else (x.src d.toNat l).toNat
    let src := if z = 3 then Use.group d.toNat 4 4 else .src d.toNat
    (Usable s x [src, .srcPair a.toNat] → stores (.stg e d a o z) bytes (x.globalAcc s .store bytes x.lanes (glob (o.toNat * bytes)))
      data true false) ∧
    (Usable s x [src, .src a.toNat] → stores (.stp e d a o z) bytes
      (x.privateAcc s .store bytes x.lanes fun l => (x.src a.toNat l).toNat + o.toNat * bytes) data false false) ∧
    (UsableG s x [gd.toNat, ga.toNat] → stores (.gst e gd ga false z o7) (2 ^ z.toNat)
      (x.globalAcc s .store (2 ^ z.toNat) [x.low] fun _ => ((x.W.greg ga.toNat).toNat + o7.toNat * 2 ^ z.toNat) % 2 ^ 56)
      (fun _ => (x.W.greg gd.toNat).toNat) false false) ∧
    (Usable s x [.src d.toNat, .srcPair a.toNat] → wideScope x.T sc.toNat = false → x.releaseWaits s sc.toNat = false → z ≠ 3 →
      stores (.strel e d a sc z) bytes (x.globalAcc s .store bytes x.lanes (glob 0)) (fun l => (x.src d.toNat l).toNat) false true)

/-- Retiring an instruction in a state whose warp holds the issuing path: the path goes on past the words of the
instruction, in its scene or, with E = 1, past the end of the scene, where the paths of its wing that are in YIELD go on; no
register, no other path and no other warp changes beside, and no memory nor other state. (R54, R56, R42, R157) -/
def Obligations.Retiring : Prop :=
  ∀ (s : State) (x : Ix) (i : Instr) (l : Option Latch) (W : Warp), s.warp x.w = some W → W.path x.low = some x.P →
    W.running = some x.low → OnlyWarp s (retire x i s l) x.w i.endsScene ∧
    ∃ V, (retire x i s l).warp x.w = some V ∧ V.body = W.body ∧ V.path x.low = some (x.after i l) ∧
      V.running = (if i.endsScene then none else some x.low) ∧
      ∀ r, r ≠ x.low → V.path r = (W.path r).map (Path.standsBy i.endsScene)

/-- LDA with usable operands, checked accesses and nothing to wait for completes: every lane has its value as an outstanding
reply, first those read past L1 (at a wide scope, from a page with NC = 1, of a register or a peer window), then those read
as a load reads them; at a wide scope exactly the lines of the team's context leave the L1 of the core. Reading memory
changes no byte of it; no register changes yet. With .remote it waits, changing nothing, while an access carries the value
of a narrow release before which its core issued a store that is not performed. A value that cannot be read raises the data
error, after the reads before it. That such a release awaits every earlier store of its core is log 12, and that the values
are read in one step log 1. (R223, R230, R235, R236, R251, R256, R389) -/
def Obligations.LoadAcquire : Prop :=
  ∀ (s : State) (x : Ix) (e r : Bool) (d a : BitVec 7) (sc : BitVec 3) (z : BitVec 2) (as : List MemAcc),
    let i := Instr.lda e d a sc r z
    let wide := wideScope x.T sc.toNat
    let bs := if wide then as.map fun a => { a with nc := true } else as
    let past := fun (a : MemAcc) => a.nc || uncached a.pa
    let near := fun (s : State) (a : MemAcc) => x.outst s 0 a false false 0 0
    Usable s x [.reg d.toNat, .srcPair a.toNat] →
    x.globalAcc s (if wide then .fresh else .load) ([1, 2, 4, 16].getD z.toNat 0) x.lanes
      (fun l => (x.srcPair a.toNat l).toNat % 2 ^ 56) = .ok as → Starts s x i →
    (r = true → s.promotes (as.flatMap (·.pas)) = true → exec i s = .next s) ∧
    ((r = true → s.promotes (as.flatMap (·.pas)) = false) →
      (∀ a ∈ as, s.laneLoadOn x.w a.lane a.pas = false ∧ (wide = true → s.coreStoreOn x.core a.pas = false)) →
      s.devBusy x.w as = false →
      (∀ u tr, x.readAll s (bs.filter past) = .error (u, tr) → TrapsIn s u x i tr) ∧
      (∀ s1 vs, x.readAll s (bs.filter past) = .ok (s1, vs) →
        (∀ a ∈ bs, past a = false → s.deadLink (near s a) = false) →
        let values := (bs.filter past).zip vs ++ (bs.filter fun a => !past a).map fun a =>
          (a, leNat ((a.vas.zip a.pas).map (s1.loadByte (near s1 a))))
        ∃ u t, Cached s1 u ∧ CompletesIn s { u with
          nextId := s.nextId + values.length
          loads := s.loads ++ values.zipIdx.map fun v =>
            { x.formed s v.2 v.1.1.lane false d.toNat 1 (BitVec.ofNat 128 v.1.2) with
              addrs := v.1.1.vas.zip v.1.1.pas, size := values.length } } t x i none x.W ∧
          (wide = true → ∀ L, L ∈ t.l1 ↔ L ∈ s.l1 ∧ ¬ (L.core = x.core ∧ L.ctx = x.T.ctx))) ∧
      ((∀ a ∈ bs, past a = true → uncached a.pa = false ∧ a.pas.all s.reaches = true) →
        ∃ s1, Shared s s1 ∧ x.readAll s (bs.filter past) = .ok (s1, (bs.filter past).map fun a =>
          leNat ((a.vas.zip a.pas).map (s.loadByte { near s a with nc := true })))))

/-- STREL at a wide scope, when its release has nothing to wait for, performs its write: to memory, each byte reads what the
last lane that writes it wrote, and only monitors fire elsewhere; at .system scope its bytes are then at their hubs, and the
model has every unwritten line of an L2 there (log 12); registers and peer windows are written in lane order. MCST, where
the core has fewer than eight in flight, issues for each lane of a replicated page one unperformed store of each byte to
each of the 16 replicas, which stands for the bytes of all of them until the last is performed, and for a lane of another
page the stores of an STG. No register changes. That the lanes of a STREL write in one step is log 1. (R222, R227, R235,
R246, R248, R258, R259, R260, R350) -/
def Obligations.ReleaseStoreAndMulticast : Prop :=
  ∀ (s : State) (x : Ix) (e : Bool) (d a : BitVec 7) (o : BitVec 5) (sc : BitVec 3) (z : BitVec 2) (as : List MemAcc),
    let n := [1, 2, 4, 16].getD z.toNat 0
    let data := fun l => if z = 3 then (x.W.reg l (d.toNat + 3) ++ x.W.reg l (d.toNat + 2) ++ x.W.reg l (d.toNat + 1) ++
      x.W.reg l d.toNat : BitVec 128).toNat else (x.src d.toNat l).toNat
    let fence := fun l => tget 0 x.W.fenced l
    let rel := fun l => if fence l = 0 then none else some (x.core, fence l - 1)
    (Usable s x [.src d.toNat, .srcPair a.toNat] → z ≠ 3 →
      x.globalAcc s .store n x.lanes (fun l => (x.srcPair a.toNat l).toNat % 2 ^ 56) = .ok as →
      wideScope x.T sc.toNat = true → x.releaseWaits s sc.toNat = false → Starts s x (.strel e d a sc z) →
      ((∀ a ∈ as, uncached a.pa = false) →
        ∃ u, exec (.strel e d a sc z) s = .next (retire x (.strel e d a sc z) u none) ∧ Written s u ∧
          (∀ pa, u.byteAt pa = as.foldl (fun b a => (a.pas.zip (leBytes n (x.src d.toNat a.lane).toNat)).foldl
            (fun b e => if e.1 = pa ∧ s.reaches e.1 = true then e.2 else b) b) (s.byteAt pa)) ∧
          (sc = 6 → ∀ pa, tget none u.dirty pa = none)) ∧
      ((∀ a ∈ as, uncached a.pa = true) → sc ≠ 6 → ∃ u, Shared s u ∧ exec (.strel e d a sc z) s = .next
        (retire x (.strel e d a sc z) (as.foldl (fun t a => t.devWrite a.pa (leNat (leBytes n (data a.lane))) (t.peerAt a.pa)) u) none))) ∧
    (Usable s x [if z = 3 then .group d.toNat 4 4 else .src d.toNat, .srcPair a.toNat] →
      x.globalAcc s .mcst n x.lanes (fun l => ((x.srcPair a.toNat l).toNat + o.toNat * n) % 2 ^ 56) = .ok as →
      let copies := fun (a : MemAcc) => a.replicas s x.T.ctx
      (∀ a ∈ as, 1 < (copies a).length → s.mcstCount x.core < 8 ∧ ∀ l ∈ copies a, uncached (l.headD 0) = false) →
      Starts s x (.mcst e d a o z) →
      let base := (s.nextId + 15) / 16 * 16
      let span := (as.filter fun a => decide (1 < (copies a).length)).flatMap fun a => (copies a).map fun l => (l.headD 0, n)
      ∃ u t, Shared s u ∧ CompletesIn s { u with
        nextId := base + 16 * n * as.length
        stores := s.stores ++ as.zipIdx.flatMap fun r =>
          if 1 < (copies r.1).length then (copies r.1).zipIdx.flatMap fun q => (List.range n).map fun j =>
            { x.pstore s 0 { r.1 with vas := (r.1.vas.drop j).take 1, pas := (q.1.drop j).take 1 }
                ((leBytes n (data r.1.lane)).drop j) with
              id := base + 16 * (n * r.2 + j) + q.2, grp := base, mcst := true, span := span, rel := rel r.1.lane }
          else r.1.parts.map fun p =>
            { x.pstore s 0 p.1 ((leBytes n (data r.1.lane)).drop (4 * p.2)) with
              id := base + 16 * n * r.2 + p.2, grp := base, rel := rel r.1.lane } } t x (.mcst e d a o z) none x.W)

/-- ATOM with usable operands, checked accesses and nothing to wait for completes: in increasing lane order each lane reads
the old value at its location and writes the value its operation gives (compare-and-swap only on a match); unless N is set
each lane has its old value as an outstanding reply. The lines of an access leave the core's L1, and an acquire at a wide
scope drops those of the context; a narrow release takes an identifier, which its writes carry. A scratch atomic with some
line empty is done in the lanes of full lines, and its path waits. On peer windows a request, with its operation and type,
leaves for each lane and the old value is free; a location that cannot be reached, or a request answered with an error,
raises the data error. No other byte of scratch or memory changes, and elsewhere only monitors fire. That all lanes are done
in one step is log 1. (R214, R218, R230, R235, R238, R254, R258, R264, R266, R267, R389, R420) -/
def Obligations.Atomics : Prop :=
  ∀ (s : State) (x : Ix) (e nr : Bool) (d a b c : BitVec 7) (op : BitVec 4) (ty : BitVec 3) (ord : BitVec 2) (sc : BitVec 3)
    (sp : BitVec 2),
    let i := Instr.atom e d a b op ty ord sc sp nr c
    let wide := decide (ty = 2 ∨ ty = 3)
    let w := if wide then 64 else 32
    let n := if wide then 8 else 4
    let val := fun (r : BitVec 7) l => if wide then (x.srcPair r.toNat l).toNat else (x.src r.toNat l).toNat
    let lt := fun p q => if ty = 0 ∨ ty = 2 then (BitVec.ofNat w p).toInt < (BitVec.ofNat w q).toInt else p < q
    let new := fun l old =>
      let v := val b l
      let F := fun m => Val.ofF32 (BitVec.ofNat 32 m)
      if ty = 4 then some (rnd32 Rnd.ne (if op = 0 then sumVal 0 [F old, F v] else minVal (decide (op = 2)) (F old) (F v))).toNat
      else match op.toNat with
        | 0 => some ((old + v) % 2 ^ w)
        | 1 => some (if lt v old then v else old)
        | 2 => some (if lt v old then old else v)
        | 3 => some (old &&& v)
        | 4 => some (old ||| v)
        | 5 => some (old ^^^ v)
        | 6 => some v
        | _ => if old = val c l then some v else none
    let src := fun (r : BitVec 7) => if wide then Use.srcPair r.toNat else .src r.toNat
    let uses := (if nr then [] else [if wide then Use.regPair d.toNat else .reg d.toNat]) ++
      [if sp = 0 then .srcPair a.toNat else .src a.toNat, src b] ++ (if op = 7 then [src c] else [])
    let rmw := fun (m : Nat → Byte) (ps : List (Nat × List Nat)) => ps.foldl (fun (r : (Nat → Byte) × List (Nat × Nat)) p =>
      let old := leNat (p.2.map r.1)
      (match new p.1 old with
        | some v => fun k => (p.2.zip (leBytes n v)).foldl (fun b e => if e.1 = k then e.2 else b) (r.1 k)
        | none => r.1, r.2 ++ [(p.1, old)])) (m, [])
    let narrow := decide (2 ≤ ord.toNat) && !wideScope x.T sc.toNat
    let s0 := if narrow then { s with
        nextId := s.nextId + 1 } else s
    let acquires := (ord = 1 ∨ ord = 3) ∧ wideScope x.T sc.toNat = true
    let replies := fun (s : State) (rs : List (Nat × Nat)) => if nr then [] else rs.zipIdx.map fun e =>
      { x.formed s e.2 e.1.1 false d.toNat (if wide then 2 else 1) (BitVec.ofNat 128 e.1.2) with size := rs.length }
    Usable s x uses → s.loadsOut x.w x.P.lanes = false → (2 ≤ ord.toNat → x.releaseWaits s sc.toNat = false) → Starts s x i →
    (∀ as, sp = 1 → x.P.done = 0 → x.scratchOut s = false → x.scratchAcc s n x.lanes (fun l => (x.src a.toNat l).toNat) = .ok as →
      let full := as.filter fun p => !s.isEmpty p.2
      let r := rmw (fun k => tget 0 s.scratch k) (full.map fun p => (p.1, List.range' (scratchKey p.2) n))
      let done := fun (u t : State) => t = { u with
          scratch := t.scratch, empty := t.empty, l1 := t.l1, nextId := s.nextId + (replies s r.2).length
          loads := s.loads ++ replies s r.2 } ∧
        (∀ k, tget 0 t.scratch k = r.1 k) ∧ ∀ j, tget false t.empty j = true ↔ tget false s.empty j = true
      ((∀ p ∈ as, s.isEmpty p.2 = false) → ∃ u v t, Shared s u ∧ done u v ∧ CompletesIn s v t x i none x.W ∧
        ∀ L, L ∈ v.l1 ↔ L ∈ s.l1 ∧ ¬ (acquires ∧ L.core = x.core ∧ L.ctx = x.T.ctx)) ∧
      ((∃ p ∈ as, s.isEmpty p.2 = true) → x.T.hold = none → ∃ v, done s v ∧ v.l1 = s.l1 ∧
        exec i s = .next (v.setWarp x.w (x.W.modPath x.low fun P =>
          { P with done := P.done ||| maskOf (full.map (·.1)), wait := some ⟨.emptyLine, i⟩ })))) ∧
    (∀ as, sp ≠ 1 → (if sp = 0 then x.globalAcc s (.atomic ty.toNat) n x.lanes (fun l => (x.srcPair a.toNat l).toNat % 2 ^ 56)
        else x.privateAcc s (.atomic ty.toNat) n x.lanes (fun l => (x.src a.toNat l).toNat)) = .ok as →
      (∀ a ∈ as, s.coreStoreOn x.core a.pas = false) → s.devBusy x.w as = false →
      ((∀ a ∈ as, uncached a.pa = false ∧ a.pas.all s.reaches = true) →
        let r := rmw s.byteAt (as.map fun a => (a.lane, a.pas))
        ∃ u, Written s0 u ∧ (∀ pa, u.byteAt pa = r.1 pa) ∧ exec i s = .next (retire x i { u with
            nextId := s0.nextId + (replies s0 r.2).length, loads := s.loads ++ replies s0 r.2 } none) ∧
          ∀ L, L ∈ u.l1 ↔ L ∈ s.l1 ∧ ¬ (L.core = x.core ∧ L.ctx = x.T.ctx ∧
            (acquires ∨ ∃ a ∈ as, ∃ va ∈ a.vas, L.vline = va / 128))) ∧
      let ask := fun (a : MemAcc) => PeerOp.atomic op.toNat ty.toNat (BitVec.ofNat 64 (val b a.lane)) (BitVec.ofNat 64 (val c a.lane))
      let at' := fun (a : MemAcc) => (s.peerWin a.pa).fbase.toNat * 2 ^ 16 + a.pa % 2 ^ 48
      ((∀ a ∈ as, uncached a.pa = true ∧ s.portUp (s.peerWin a.pa).port.toNat = true) → Config.peerError s.free = false →
        let rs := as.zipIdx.map fun e => (e.1.lane, (Config.peerData (s.free + e.2) e.1.pa).toNat)
        ∃ u, Written s0 u ∧ exec i s = .next (retire x i { u with
          sent := s.sent ++ as.map fun a => ⟨(s.peerWin a.pa).port, at' a, 8, ask a⟩
          free := s.free + as.length, nextId := s0.nextId + (replies s0 rs).length
          loads := s.loads ++ replies s0 rs } none)) ∧
      (∀ pre a post, as = pre ++ a :: post →
        let bad := fun (a : MemAcc) => if uncached a.pa then !s.portUp (s.peerWin a.pa).port.toNat || Config.peerError s.free
          else !a.pas.all s.reaches
        let asked := if uncached a.pa then { s with
          free := s.free + 1
          sent := s.sent ++ if s.portUp (s.peerWin a.pa).port.toNat then [⟨(s.peerWin a.pa).port, at' a, 8, ask a⟩] else [] } else s
        (∀ b ∈ pre, bad b = false) → bad a = true → TrapsIn s asked x i ⟨23, 0, a.va, 0, 0, some a.lane⟩))

/-- MONARM with checked accesses arms in each lane of the path a monitor of the bytes with the value of d, fired at once
where those bytes of memory, at their place of execution, differ; on a register or a peer window it is armed, and its read
becomes an outstanding entry of the lane, which compares when it returns; the path does not wait. Nothing else changes but
what reading memory shares and keeps. A value that no link can bring raises the data error. MONWAIT waits, changing nothing,
for the replies of its path's MONARMs; then, where no monitor of the warp has fired, it blocks its path past its scene end;
where one of its path has fired and no other path waits, it writes 1 in each lane whose monitor had fired and else 0, unless
N = 1, disarms the monitors of the path, and the path goes on. That a device is read when the entry returns, in its lane's
order, is log 23. (R251, R270, R271, R272, R389) -/
def Obligations.Monitors : Prop :=
  ∀ (s : State) (x : Ix) (e n f : Bool) (d a : BitVec 7) (o t : BitVec 5) (z : BitVec 2) (as : List MemAcc),
    let m := [1, 2, 4, 16].getD z.toNat 0
    (Usable s x [.src d.toNat, .srcPair a.toNat] →
      x.globalAcc s .fresh m x.lanes (fun l => ((x.srcPair a.toNat l).toNat + o.toNat * m) % 2 ^ 56) = .ok as →
      Starts s x (.monarm e d a o z) →
      let cmp := fun l => (x.src d.toNat l).toNat % 2 ^ (8 * m)
      let dead := fun (a : MemAcc) => if uncached a.pa then s.peerDead (s.peerAt a.pa) else !a.pas.all s.reaches
      let far := as.filter fun a => uncached a.pa
      (∀ pre r post, as = pre ++ r :: post → (∀ b ∈ pre, dead b = false) → dead r = true →
        Traps s x (.monarm e d a o z) ⟨23, 0, r.va, 0, 0, some r.lane⟩) ∧
      ((∀ r ∈ as, dead r = false) → ∃ t u W, Shared s u ∧ CompletesIn s { u with
          nextId := s.nextId + far.length
          loads := s.loads ++ far.zipIdx.map fun r => { x.outst s r.2 r.1 false false 0 0 with
            kind := .monitor, lock := true, size := far.length, value := BitVec.ofNat 128 (cmp r.1.lane) } }
          t x (.monarm e d a o z) none W ∧ W = { x.W with mon := W.mon } ∧
        (∀ l, l ∉ x.lanes → tget none W.mon l = tget none x.W.mon l) ∧
        ∀ r ∈ as, tget none W.mon r.lane = some ⟨r.pa, m, BitVec.ofNat 32 (cmp r.lane),
          !uncached r.pa && decide (leNat (r.pas.map s.byteAt) ≠ cmp r.lane)⟩)) ∧
    (let i := Instr.monwait n d f t
     let hit := fun l => ∃ m, tget none x.W.mon l = some m ∧ m.fired = true
     let asked := ∃ o ∈ s.loads, o.kind = .monitor ∧ o.w = x.w ∧ o.lane ∈ x.lanes
     Usable s x [.reg d.toNat] → Starts s x i → (asked → exec i s = .next s) ∧ (¬ asked →
     ((∀ l, ¬ hit l) → ∃ u, exec i s = .next u ∧
        BlockedPast s u x i (.monwait (if f then none else some (s.clockOf x.core + 2 ^ (t.toNat + 8))) n d)) ∧
     ((∃ l ∈ x.lanes, hit l) → x.W.noMonwait → x.P.block = none → ∃ u W, Completes s u x i none W ∧
        W = { x.W with v := W.v, mon := W.mon } ∧
        (∀ l, l ∈ x.lanes → tget none W.mon l = none) ∧ (∀ l, l ∉ x.lanes → tget none W.mon l = tget none x.W.mon l) ∧
        (∀ l r, l < 64 → r < 128 → (n = true ∨ l ∉ x.lanes ∨ r ≠ d.toNat) → W.reg l r = x.W.reg l r) ∧
        ∀ l, l ∈ x.lanes → n = false → (hit l → W.reg l d.toNat = 1) ∧ (¬ hit l → W.reg l d.toNat = 0))))

/-- LOAD_DATA_RETURN of an outstanding load outside the collector, with no earlier load of its lane to its bytes outstanding
and without error, writes the destination registers with the value, sign-extended where the load asks for it, and removes
the load; one of a register or a peer window is read now, in its lane's order; ATOMIC_REPLY delivers a value formed earlier.
The reply to a MONARM fires the monitors of the lane's warp on that address with that value, where the value read differs. A
load that failed is made anew once its team is held no more: checked again, and outstanding as it stands then, or faulting.
STORE_PERFORMED of a store that may be performed removes it and writes its bytes: to memory, to scratch, whose lines become
full, or to a register or peer window. COLLECTOR_ENTRY_LEAVE frees the loads and stores of one line, or the queries of one
row, behind the earlier entries of its warp. EMPTY_LINE_RELEASE completes a waiting LDS whose lines are full. No other
register, byte or outstanding entry changes; monitors may fire. That loads obtain their values, are made anew, and stores
are performed at these steps is the model's choice of log 12, and of log 23 for devices. (R214, R223, R229, R237, R238,
R254, R255, R270, R371, R389, R391) -/
def Obligations.MemoryEvents : Prop :=
  ∀ (s : State),
    (∀ (id : Nat) (o : Outst) (W : Warp), s.loads.find? (fun q => decide (q.id = id)) = some o → o.coll = none →
      s.warp o.w = some W → o.lane < 64 → o.dest + o.nreg ≤ 128 → o.failed = false →
      let loads := s.loads.filter fun q => decide (q.id ≠ id)
      let pa := (o.addrs.headD (0, 0)).2
      let v := leNat (o.addrs.map (s.loadByte o))
      let gives := fun (i : Instr) (u : State) (v : Nat) => ∃ t V, exec i s = .next t ∧
        t = { u with loads := loads, warps := t.warps } ∧ (∀ w, w ≠ o.w → t.warp w = s.warp w) ∧ t.warp o.w = some V ∧
        Delivers W V o v
      (o.kind = .load → s.loadBefore o = false →
        (uncached pa = false → s.served o = true → ∃ u, Cached s u ∧ gives (.loadDataReturn id false) u
          (if o.signed then (BitVec.ofInt 32 (BitVec.ofNat (8 * o.addrs.length) v).toInt).toNat else v)) ∧
        (uncached pa = true → s.devFirst o.w o.lane o.id = false → exec (.loadDataReturn id false) s = .next s) ∧
        (∀ u n, uncached pa = true → s.devFirst o.w o.lane o.id = true → s.devRead pa o.peer = (u, some n) →
          gives (.loadDataReturn id false) u n)) ∧
      (o.kind = .monitor → o.nreg = 0 →
        (s.devFirst o.w o.lane o.id = false → exec (.loadDataReturn id false) s = .next s) ∧
        ∀ u n, s.devFirst o.w o.lane o.id = true → s.devRead pa o.peer = (u, some n) →
          (n = o.value.toNat → exec (.loadDataReturn id false) s = .next { u with loads := loads }) ∧
          (n ≠ o.value.toNat → ∃ V, exec (.loadDataReturn id false) s = .next ({ u with loads := loads }.setWarp o.w V) ∧
            OnlyFired W V ∧ (W.noMonwait → ∀ l, tget none V.mon l = (tget none W.mon l).map fun m =>
              if m.pa = pa ∧ m.cmp.toNat = o.value.toNat then { m with fired := true } else m))) ∧
      (o.kind = .value → gives (if o.addrs = [] then .atomicReply id else .loadDataReturn id false) s o.value.toNat)) ∧
    (∀ (id : Nat) (o : Outst) (err : Bool), s.loads.find? (fun q => decide (q.id = id)) = some o → o.coll = none → o.failed = true →
      let now := fun (u : State) (q : Outst) => { u with loads := s.loads.map fun r => if r.id = id then { q with failed := false } else r }
      let again := fun (t : State) => exec (.loadDataReturn id err) s = .next t
      let a := o.addrs.headD (0, 0)
      (s.heldWarp o.w = true → o.addrs ≠ [] → o.kind = .load ∨ o.kind = .monitor ∨ o.kind = .value → again s) ∧
      (s.heldWarp o.w = false → o.addrs ≠ [] → o.kind = .value → again (now s o)) ∧
      ∀ W T, s.heldWarp o.w = false → o.kind = .load ∨ o.kind = .monitor → s.warp o.w = some W → s.team W.team = some T →
        let x := o.issuer W T
        (isScratch a.2 = true →
          let k := a.2 - scrLoc
          let mash := (tget Bank.zero s.banks (k / 2 ^ 18)).mash
          (mash = true → ∃ t, again t ∧ LateFault s t o
            ⟨17, 0, 0, T.bankIndex (k / 2 ^ 23, k / 2 ^ 18 % 32, k % 2 ^ 18), 0, some o.lane⟩ (laneBit o.lane)) ∧
          (mash = false → again (if tget false s.empty (locLine a.2) then s else now s o))) ∧
        (isScratch a.2 = false →
          let checked := x.checkAcc s (if o.nc || o.uni then .fresh else .load) o.addrs.length o.lock [o.lane] fun _ => o.addrs.map (·.1)
          (∀ tr, checked = .error tr → ∃ t, again t ∧ LateFault s t o tr (laneBit o.lane)) ∧
          ∀ m ms, checked = .ok (m :: ms) → ∃ u, Shared s u ∧
            again (now u { o with addrs := m.vas.zip m.pas, nc := m.nc || o.nc, peer := s.peerAt m.pa }))) ∧
    (∀ (id : Nat) (p : PStore), s.stores.find? (fun q => decide (q.id = id)) = some p → p.coll = none →
      (∀ o ∈ s.loads, o.kind = .load → o.failed = false → o.w = p.w → o.lane = p.lane → p.id ≤ o.id) →
      (∀ q ∈ s.stores, q.w / 48 = p.w / 48 → q.id < p.id → ∀ a ∈ q.bytes, ∀ b ∈ p.bytes, a.2.1 ≠ b.2.1) →
      let s1 := { s with stores := s.stores.filter fun q => decide (q.id ≠ id) }
      (p.scratch = false → p.device = false → ∃ t, exec (.storePerformed id) s = .next t ∧ Written s1 t ∧
        ∀ pa, t.byteAt pa = p.bytes.foldl (fun v b => if b.2.1 = pa ∧ s.reaches pa = true then b.2.2 else v) (s.byteAt pa)) ∧
      (p.scratch = true → p.device = false → ∃ t, exec (.storePerformed id) s = .next t ∧
        t = { s1 with scratch := t.scratch, empty := t.empty } ∧
        (∀ k, tget 0 t.scratch k = p.bytes.foldl (fun v b => if b.2.1 - scrLoc = k then b.2.2 else v) (tget 0 s.scratch k)) ∧
        ∀ j, tget false t.empty j = if ∃ b ∈ p.bytes, locLine b.2.1 = j then false else tget false s.empty j) ∧
      (p.scratch = false → p.device = true → s.devFirst p.w p.lane p.id = true → exec (.storePerformed id) s = .next
        (s1.devWrite ((p.bytes.headD (0, 0, 0)).2.1) (leNat (p.bytes.map (·.2.2))) p.peer))) ∧
    (∀ (grp line w : Nat), (∀ o ∈ s.loads, o.grp = grp → o.w = w) → (∀ p ∈ s.stores, p.grp = grp → p.w = w) →
      (∃ o ∈ s.loads, o.grp = grp) ∨ (∃ p ∈ s.stores, p.grp = grp) →
      let cue := ∃ o ∈ s.loads, o.grp = grp ∧ o.kind = .cue
      let before := (∃ o ∈ s.loads, (o.kind = .cue ↔ cue) ∧ o.w = w ∧ o.grp < grp ∧ o.coll = some line) ∨
        (¬ cue ∧ ∃ p ∈ s.stores, p.w = w ∧ p.grp < grp ∧ p.coll = some line)
      (before → exec (.collectorEntryLeave grp line) s = .next s) ∧
      (¬ before → exec (.collectorEntryLeave grp line) s = .next { s with
        loads := s.loads.map fun o => if o.grp = grp ∧ o.coll = some line then { o with coll := none } else o
        stores := s.stores.map fun p => if p.grp = grp ∧ p.coll = some line then { p with coll := none } else p })) ∧
    (∀ (w : Nat) (x : Ix) (e : Bool) (d a : BitVec 7) (o : BitVec 5) (z : BitVec 2) (as : List (Nat × Nat × Nat × Nat)),
      let n := [1, 2, 4, 16].getD z.toNat 0
      let off := fun l => (x.src a.toNat l).toNat + o.toNat * n
      let parts := (as.map (scratchMem n off)).flatMap MemAcc.parts
      s.waiter w = some (x, ⟨.emptyLine, .lds e d a o z⟩) →
      Usable s x [if z = 3 then .group d.toNat 4 4 else .reg d.toNat, .src a.toNat] →
      x.scratchAcc s n (x.lanes.filter fun l => !x.P.done.getLsbD l) off = .ok as → (∀ p ∈ as, s.isEmpty p.2 = false) →
      exec (.emptyLineRelease w) s = .next (retire x (.lds e d a o z) { s with
        nextId := s.nextId + parts.length
        loads := s.loads ++ parts.zipIdx.map fun p =>
          let o := x.outst s p.2 p.1.1 false false (d.toNat + p.1.2) (if z = 3 then 2 else 1)
          { o with kind := .value, value := BitVec.ofNat 128 (s.loadValue o) } } none))

/-- HANG of an unbound handle, with a legal descriptor and an aligned range in one arena page, makes the handle hanging;
HANG_FINISH, once nothing stands against it, recalls the lines of the range to the stacks, binds the handle and writes 0 to
g[d], or 1 and no binding where a copy overlaps. CUE of a bound handle with every index in range issues one query per lane;
QUERY_TRANSACTION of a row returns the entries of it that have left the collector, and that of the last row writes every
destination; the queries of a CUE that failed are made anew, against the handle as it then is, once its team is held no more
(log 12); UNHANG waits for the queries of the handle, then unbinds it, as UNHANG_FINISH does for its waiters; CUEREL_GO
marks the handles of its mask for release. Nothing else changes. (R278, R282, R283, R285, R288, R276, R290, R371) -/
def Obligations.CueTables : Prop :=
  ∀ (s : State),
    (∀ (x : Ix) (e : Bool) (d a b : BitVec 6) (h : BitVec 4) (m : MemAcc),
      let desc := (x.W.greg b.toNat).toNat
      let va := (x.W.greg a.toNat).toNat % 2 ^ 56
      UsableG s x [d.toNat, a.toNat, b.toNat] → s.handle x.T.ctx h.toNat = .unbound → desc < 2 ^ 10 → 1 ≤ desc % 2 ^ 8 →
      desc % 2 ^ 8 ≤ 64 → desc / 2 ^ 8 ≠ 3 → va % 1024 = 0 → x.xlate s .fresh x.low [va] = .ok m → s.inArena m.pa = true →
      m.pa % 65536 + 1024 * (desc % 2 ^ 8) ≤ 65536 → Starts s x (.hang e d a b h) →
      let hang := Handle.hanging x.w d va m.pa (desc % 2 ^ 8) (desc / 2 ^ 8) x.P.lanes s.nextId
      ∃ u t, Shared s u ∧ CompletesIn s { u with handles := tput .unbound s.handles (16 * x.T.ctx + h.toNat) hang }
        t x (.hang e d a b h) none x.W) ∧
    (∀ (x : Ix) (e : Bool) (d a : BitVec 7) (sx : Bool) (h : BitVec 4) (pa rows ew : Nat) (rel : Bool),
      let size := 2 ^ ew
      let i := fun l => (x.src a.toNat l).toNat
      let qs := x.lanes.zipIdx.map fun l => { x.formed s l.2 l.1 false d.toNat 1 0 with
        kind := .cue, signed := sx, coll := some ((pa + size * i l.1) / 1024)
        addrs := (List.range size).map fun k => (h.toNat * 2 ^ 32 + i l.1, pa + size * i l.1 + k) }
      Usable s x [.reg d.toNat, .src a.toNat] → s.handle x.T.ctx h.toNat = .hung pa rows ew rel →
      (∀ l ∈ x.lanes, size * i l < 1024 * rows) → x.W.role = .vector →
      (s.collEntries x.core).length + (qs.map (·.coll)).eraseDups.length ≤ 64 → Starts s x (.cue e d a sx h) →
      ∃ t, CompletesIn s { s with
        loads := s.loads ++ qs.map fun q => { q with size := qs.length }, nextId := s.nextId + qs.length } t x (.cue e d a sx h) none x.W) ∧
    (∀ (x : Ix) (e : Bool) (h : BitVec 4) (pa rows ew : Nat) (rel : Bool), s.handle x.T.ctx h.toNat = .hung pa rows ew rel →
      Starts s x (.unhang e h) →
      (s.queriesOut x.T.ctx h.toNat = false → ∃ t, CompletesIn s { s with
        handles := tput .unbound s.handles (16 * x.T.ctx + h.toNat) .unbound } t x (.unhang e h) none x.W) ∧
      (s.queriesOut x.T.ctx h.toNat = true → exec (.unhang e h) s = .next (s.setWarp x.w (x.W.modPath x.low fun P =>
        { P with wait := some ⟨.unhang, .unhang e h⟩ })))) ∧
    (∀ (ctx h w : Nat) (gd : BitVec 6) (va pa rows ew : Nat) (lanes : Mask) (id : Nat) (W : Warp),
      s.handle ctx h = .hanging w gd va pa rows ew lanes id → s.warp w = some W → s.hangReady w pa rows lanes id = true →
      (s.copyOverlaps ctx va (1024 * rows) = true → ∃ V, exec (.hangFinish ctx h) s = .next
        ({ s with handles := tput .unbound s.handles (16 * ctx + h) .unbound }.setWarp w V) ∧
        V = { W with g := V.g } ∧ ∀ n, V.greg n = if n = gd.toNat ∧ n ≠ 63 then 1 else W.greg n) ∧
      (s.copyOverlaps ctx va (1024 * rows) = false → ∃ u U V, exec (.hangFinish ctx h) s = .next (u.setWarp w V) ∧
        Written { s with handles := tput .unbound s.handles (16 * ctx + h) (.hung pa rows ew false) } u ∧
        (∀ a, u.byteAt a = s.byteAt a) ∧
        (∀ l, tget LineDir.zero u.dir l = if pa / 128 ≤ l ∧ l < pa / 128 + 8 * rows then LineDir.zero else tget LineDir.zero s.dir l) ∧
        (∀ l, pa / 128 ≤ l → l < pa / 128 + 8 * rows → tget false u.mscHeld (s.cellLine l) = false) ∧
        u.warp w = some U ∧ V = { U with g := V.g } ∧ ∀ n, V.greg n = if n = gd.toNat ∧ n ≠ 63 then 0 else W.greg n)) ∧
    (∀ (grp row d w : Nat) (qs : List Outst) (W : Warp), qs = s.loads.filter (fun o => decide (o.grp = grp)) → s.warp w = some W →
      let comes := fun (o : Outst) => o.kind = .cue ∧ o.coll = none ∧ (o.addrs.headD (0, 0)).2 / 1024 = row
      d < 128 → (∃ o ∈ qs, comes o) → qs.Pairwise (fun o p => o.lane ≠ p.lane) →
      (∀ o ∈ qs, o.w = w ∧ o.lane < 64 ∧ o.uni = false ∧ o.dest = d ∧ o.nreg = 1 ∧ o.failed = false ∧ (comes o ∨ o.kind = .cueGot)) →
      let value := fun (o : Outst) =>
        let v := leNat (o.addrs.map fun a => s.byteAt a.2)
        if o.kind = .cueGot then BitVec.setWidth 32 o.value
        else if o.signed then BitVec.ofInt 32 (BitVec.ofNat (8 * o.addrs.length) v).toInt else BitVec.ofNat 32 v
      ∃ V, exec (.queryTransaction grp row 0) s = .next
          ({ s with loads := s.loads.filter fun o => decide (o.grp ≠ grp) }.setWarp w V) ∧
        V = { W with v := V.v } ∧ (∀ l r, l < 64 → r < 128 → (r ≠ d ∨ ∀ o ∈ qs, o.lane ≠ l) → V.reg l r = W.reg l r) ∧
        ∀ o ∈ qs, V.reg o.lane d = value o) ∧
    (∀ (grp row : Nat) (bad : BitVec 64),
      let comes := fun (o : Outst) => o.grp = grp ∧ o.kind = .cue ∧ o.coll = none ∧ (o.addrs.headD (0, 0)).2 / 1024 = row
      (∃ o ∈ s.loads, comes o) → (∃ o ∈ s.loads, o.grp = grp ∧ o.kind = .cue ∧ ¬ comes o) →
      (∀ o ∈ s.loads, o.grp = grp → o.kind = .cue → o.failed = false) → exec (.queryTransaction grp row bad) s = .next { s with
        loads := s.loads.map fun (o : Outst) => if o.grp = grp ∧ o.kind = .cue ∧ o.coll = none ∧ (o.addrs.headD (0, 0)).2 / 1024 = row then
          { o with value := BitVec.ofNat 128 (s.cueValue o), kind := if bad.getLsbD o.lane then .cueBad else .cueGot } else o }) ∧
    (∀ (grp row : Nat) (bad : BitVec 64) (o : Outst),
      s.loads.find? (fun q => decide (q.kind = .cue) && q.failed && decide (q.grp = grp)) = some o →
      let again := fun (t : State) => exec (.queryTransaction grp row bad) s = .next t
      let qs := s.loads.filter fun q => decide (q.grp = grp)
      let h := (o.addrs.headD (0, 0)).1 / 2 ^ 32
      let idx := fun (q : Outst) => (q.addrs.headD (0, 0)).1 % 2 ^ 32
      let lanes := maskOf (qs.map (·.lane))
      (s.heldWarp o.w = true → again s) ∧
      (s.heldWarp o.w = false →
        (s.handle o.ctx h = .unbound → ∃ t, again t ∧ LateFault s t o ⟨18, 1, 0, h, idx o, none⟩ lanes) ∧
        ∀ pa rows ew rel, s.handle o.ctx h = .hung pa rows ew rel → ew ≤ 2 →
          (∀ pre q post, qs = pre ++ q :: post → (∀ r ∈ pre, idx r * 2 ^ ew < rows * 1024) → rows * 1024 ≤ idx q * 2 ^ ew →
            ∃ t, again t ∧ LateFault s t q ⟨18, 2, 0, h, idx q, some q.lane⟩ lanes) ∧
          let row := fun (q : Outst) => (pa + 2 ^ ew * idx q) / 1024
          ((∀ q ∈ qs, idx q * 2 ^ ew < rows * 1024) → (s.collEntries (o.w / 48)).length + (qs.map row).eraseDups.length ≤ 64 →
            again { s with loads := s.loads.map fun q => if q.grp = grp then { q with
              failed := false, coll := some (row q)
              addrs := (List.range (2 ^ ew)).map fun k => (h * 2 ^ 32 + idx q, pa + 2 ^ ew * idx q + k) } else q }))) ∧
    (∀ (ctx h pa rows ew : Nat) (rel : Bool), s.handle ctx h = .hung pa rows ew rel → s.queriesOut ctx h = false →
      (rel = true ∨ s.unhangers ctx h ≠ []) → exec (.unhangFinish ctx h) s = .next
        ((s.unhangers ctx h).foldl (fun s r => retire r.1 r.2.instr s none)
          { s with handles := tput .unbound s.handles (16 * ctx + h) .unbound })) ∧
    (∀ v : DWord, ∃ t, exec (.cuerelGo v) s = .next t ∧
      t = { s with handles := t.handles, relMask := v.setWidth 16, relCtx := (v >>> 16).setWidth 6 } ∧
      ∀ c h, h < 16 → t.handle c h = match s.handle c h with
        | .hung pa rows ew rel => .hung pa rows ew (rel || (decide (c = v.toNat / 2 ^ 16 % 64) && v.getLsbD h))
        | k => k)

/-- RSET with a legal configuration, no slot reserved, no line in a mash bank and no store of its path to scratch
unperformed, configures the ring with every slot free, empties its lines and wakes the paths of its team that wait at the
ring, which execute their instruction again (log 12). RACQ opens the slot of the acquire pointer, gives its number and phase
in g[d] and advances the pointer, or blocks its path at itself while that slot is not free. RPUB counts one arrival, which
fills the slot when it is the last. RWAIT completes as an acquire when the slot is filled in its phase, the lines of the
context leaving the core's L1 (log 27), and else blocks its path at itself. RFREE frees a filled slot and empties its lines.
A load that found an emptied line full has read it before. No other ring, register, line or byte changes. (R214, R229, R241,
R341, R342, R343, R344, R345, R346, R347) -/
def Obligations.StageRings : Prop :=
  ∀ (s : State) (x : Ix) (e : Bool) (q : BitVec 3) (a b d : BitVec 6),
    let u := (x.W.greg a.toNat).toNat
    let v := (x.W.greg b.toNat).toNat
    let rings := fun (r : Ring) => tput none s.teams x.W.team (some { x.T with rings := tput none x.T.rings q.toNat (some r) })
    let empties := fun (t : State) o n => ∀ j, tget false t.empty j = true ↔
      (∃ i p, i < n ∧ x.T.scratchAt (o + 128 * i) 1 = some p ∧ lineKey p = j) ∨ tget false s.empty j = true
    let storage := fun o n => ∀ i p, i < n → x.T.scratchAt (o + 128 * i) 1 = some p → (s.bankOf p).mash = false
    let settled := fun (t : State) o n => t.loads =
      ((x.T.linesIn o n).foldl (fun u p => u.settle fun loc => isScratch loc && decide (locLine loc = lineKey p)) s).loads
    let woken := fun (P : Path) => match P.block with
      | some (.racq r) => if r = q.toNat then { P with block := some .woken } else P
      | some (.rwait r _ _) => if r = q.toNat then { P with block := some .woken } else P
      | _ => P
    let again := fun (blk : Block) =>
      (s.setWarp x.w { x.W.modPath x.low (fun P => { P with block := some blk }) with running := none }).wakeYields x.w x.low
    (∀ base ssize scount exp, UsableG s x [a.toNat, b.toNat] → base < 2 ^ 24 → base % 128 = 0 → 1 ≤ ssize → ssize ≤ 2 ^ 13 →
      1 ≤ scount → scount ≤ 32 → 1 ≤ exp → exp < 2 ^ 8 → u = base + 2 ^ 32 * (ssize - 1) → v = scount - 1 + 2 ^ 8 * exp →
      x.T.scratchAt base (128 * ssize * scount) ≠ none → storage base (ssize * scount) →
      (∀ r, tget none x.T.rings q.toNat = some r → ∀ i, i < r.scount → (r.slot i).res = 0) → x.scratchOut s = false →
      Starts s x (.rset e q a b) →
      let ring : Ring := ⟨base, ssize, scount, exp, scount, 0, false, 0, List.replicate scount ⟨.free, false, 0, 0⟩⟩
      let y := if x.w ∈ x.T.slots then { x with P := woken x.P, W := { x.W with paths := x.W.paths.map woken } } else x
      ∃ t u, CompletesIn s u t y (.rset e q a b) none x.W ∧ empties t base (ssize * scount) ∧
        settled t base (128 * ssize * scount) ∧
        u = { s with empty := t.empty, loads := t.loads, teams := rings ring, warps := u.warps } ∧
        ∀ w, u.warp w = (s.warp w).map fun W => if w ∈ x.T.slots then { W with paths := W.paths.map woken } else W) ∧
    (∀ r, UsableG s x [d.toNat] → tget none x.T.rings q.toNat = some r → Starts s x (.racq d q) →
      let opened := { r with
        slots := r.slots.set r.ap ⟨.opened, r.phase, 0, 0⟩, free := r.free - 1, ap := (r.ap + 1) % r.scount
        phase := if (r.ap + 1) % r.scount = 0 then !r.phase else r.phase }
      ((r.slot r.ap).st = .free → ∃ t W, CompletesIn s { s with teams := rings opened } t x (.racq d q) none W ∧
        W = { x.W with g := W.g } ∧ ∀ n, W.greg n = if n = d.toNat ∧ n ≠ 63 then
          BitVec.ofNat 64 (r.ap + if r.phase then 256 else 0) else x.W.greg n) ∧
      ((r.slot r.ap).st ≠ .free → exec (.racq d q) s = .next (again (.racq q.toNat)))) ∧
    (∀ r, UsableG s x [a.toNat] → tget none x.T.rings q.toNat = some r → u < 2 ^ 5 → u < r.scount → (r.slot u).st = .opened →
      (r.slot u).arr + (r.slot u).res < r.exp → x.releaseWaits s 1 = false → Starts s x (.rpub e a q) →
      let full := (r.slot u).arr + 1 = r.exp
      let ring := { r with
        filled := if full then r.filled + 1 else r.filled
        slots := r.slots.set u { r.slot u with arr := (r.slot u).arr + 1, st := if full then .filled else .opened } }
      ∃ t, CompletesIn s { s with teams := rings ring } t x (.rpub e a q) none x.W) ∧
    (∀ r i ph, UsableG s x [a.toNat] → tget none x.T.rings q.toNat = some r → i < 2 ^ 5 → i < r.scount →
      u = i + (if ph then 2 ^ 8 else 0) → Starts s x (.rwait a q) →
      ((r.slot i).st = .filled → (r.slot i).ph = ph → ∃ t, CompletesIn s { s with l1 := t.l1 } t x (.rwait a q) none x.W ∧
        ∀ L, L ∈ t.l1 ↔ L ∈ s.l1 ∧ ¬ (L.core = x.core ∧ L.ctx = x.T.ctx)) ∧
      (((r.slot i).st ≠ .filled ∨ (r.slot i).ph ≠ ph) → exec (.rwait a q) s = .next (again (.rwait q.toNat i ph)))) ∧
    (∀ r, UsableG s x [a.toNat] → tget none x.T.rings q.toNat = some r → u < 2 ^ 5 → u < r.scount → (r.slot u).st = .filled →
      r.base % 128 = 0 → 1 ≤ r.ssize → x.scratchOut s = false → storage (r.base + 128 * r.ssize * u) r.ssize → Starts s x (.rfree e a q) →
      let ring := { r with
        free := r.free + 1, filled := r.filled - 1, slots := r.slots.set u { r.slot u with st := .free } }
      ∃ t, CompletesIn s { s with empty := t.empty, loads := t.loads, teams := rings ring } t x (.rfree e a q) none x.W ∧
        empties t (r.base + 128 * r.ssize * u) r.ssize ∧ settled t (r.base + 128 * r.ssize * u) (128 * r.ssize))

/-- COPY whose mask selects no lane completes with no effect. COPY whose checks pass (the steps of R334) and that finds a
place issues at once: the lines of its scratch destinations become empty, its ring slot counts a reservation, its bank queue
takes a steep, and the engine holds the copy; with no place the path waits at it, and COPY_ISSUE issues it when there is
one; before, its record has been read and the pages that it writes translated. CWAIT blocks its path past the scene end for
the copies its warp issued. COPY_START starts the oldest copy that has not started, fewer than eight having started that are
not parked and wait for no other steep of their bank, once the accesses of its core before it, and those of its context
before it that touch its ranges, are performed, and no multicast overlaps them; while a multicast is under way its ranges
are translated to see it. No register and no byte changes. That a load counts as performed when it has returned or failed,
and a store when its bytes are written, is the model's choice (log 12), and that the record is read past L1 (log 24). (R240,
R243, R331, R333, R334, R335, R336, R348) -/
def Obligations.TileCopies : Prop :=
  ∀ (s : State) (x : Ix) (e : Bool) (d a b : BitVec 7) (opt : BitVec 3) (dir : BitVec 2) (rv : Bool) (q : BitVec 3)
    (sreg : BitVec 7) (lk : BitVec 3) (slreg : BitVec 7),
    let i := Instr.copy e d a b opt dir rv q sreg lk slreg
    (x.P.lanes &&& x.W.mask x.P lk.toNat = 0 → Starts s x i → ∃ t, Completes s t x i none x.W) ∧
    (∀ (s1 u : State) (c : Copy), CopyPasses s x d a b opt dir rv q sreg lk slreg s1 c → CopyEnters s1 u x c →
      Cached s s1 ∧ (Starts s x i → ∃ t, CompletesIn s u t x i none x.W) ∧
      (∀ w, s.waiter w = some (x, ⟨.copyPlace, i⟩) → exec (.copyIssue w) s = .next (retire x i u none))) ∧
    (∀ (s1 : State) (c : Copy), CopyPasses s x d a b opt dir rv q sreg lk slreg s1 c → x.T.hold = none →
      (24 ≤ (s1.copies.filter fun k => k.core = c.core).length ∨ (∃ b, c.bank = some b ∧ (5 ≤ (s1.bank c.core b).ops.length ∨
        s1.bankClosed c.core b = true))) → Starts s x i →
      exec i s = .next (s1.setWarp x.w (x.W.modPath x.low fun P => { P with wait := some ⟨.copyPlace, i⟩ }))) ∧
    (Starts s x .cwait → ∃ t, exec .cwait s = .next t ∧
      BlockedPast s t x .cwait (.cwait ((s.copies.filter fun c => c.w = x.w).map (·.id)))) ∧
    (∀ (id : Nat) (c : Copy), s.copies.find? (fun k => k.id = id) = some c → c.started = false →
      (∀ k ∈ s.copies, k.core = c.core → k.started = true ∨ c.id ≤ k.id) →
      (s.copies.filter fun k => decide (k.core = c.core) && (k.started && k.park.isNone && s.atHead k)).length < 8 →
      let hit := fun va => ∃ k ∈ c.locks, overlap va 1 k.2.1 k.2.2 = true
      (∀ p ∈ s.stores, p.w / 48 = c.core ∨ p.ctx = c.ctx ∧ (∃ b ∈ p.bytes, hit b.1) → c.id ≤ p.id) →
      (∀ o ∈ s.loads, o.kind = .load → o.failed = false →
        o.w / 48 = c.core ∨ o.ctx = c.ctx ∧ (∃ a ∈ o.addrs, hit a.1 ∧ isScratch a.2 = false) → c.id ≤ o.id) →
      (∀ k ∈ c.locks, s.mcstOn c.core c.ctx k.2.1 k.2.2 = false) →
      ∃ u, Shared s u ∧ ((∀ p ∈ s.stores, p.mcst = false) → u = s) ∧
        exec (.copyStart id) s = .next { u with copies := s.copies.map fun k => if k.id = id then { c with started := true } else k })

/-- COPY_WRITE of a moving copy reads the next byte of its current unit, from memory or from a full line of scratch, or
writes the next byte, to scratch, whose line becomes full when the copy has nothing left to write in it, or to memory. A
unit of whole-byte elements is read and written element by element: out of a tensor its bytes go to the dense form, zeros
where it is out of bounds; into a tensor the dense bytes go to an element in bounds, and one out of bounds is passed over.
COPY_COMPLETE removes a copy that has written all and counts its arrival. COPY_PARK of a copy whose next byte meets a fault,
or an uncorrectable error in the data it reads, parks it in a free slot with a record, or lets the engine stand still;
COPY_RESUME frees the slot, and the copy moves after those of its engine that move. A byte of a peer window leaves as a
request of its own. Only this changes, and what the walks share. That the engine moves byte by byte, and reads a unit whole
before it writes it, is the model's choice of log 12, that a resumed copy moves after the others log 24, and that the record
of a parked copy names its COPY log 20. (R227, R329, R330, R336, R341, R352, R353, R354, R401) -/
def Obligations.CopyData : Prop :=
  ∀ (s : State) (id : Nat) (c : Copy), s.copies.find? (fun k => k.id = id) = some c →
    let now := fun (k' : Copy) => s.copies.map fun k => if k.id = id then k' else k
    let read := fun (v : Byte) => ({ c with got := c.got ++ [v] } : Copy).loaded
    let mix := fun (old : Byte) (p : CopyPut) => (old &&& ~~~p.mask) ||| (p.val &&& p.mask)
    let request := fun (pa : Nat) (op : PeerOp) => match s.peerAt pa with
      | some (port, addr) => if s.portUp port.toNat then [(⟨port, addr, 1, op⟩ : PeerReq)] else []
      | none => []
    (∀ T, s.moving c = true → c.bank = none → c.unit < c.units → s.team c.team = some T →
      (∀ va m, c.put = [] → c.nextRead = some (.global va) → s.engXlat c.core c.ctx va .load = .ok m → s.deadRead m.pa = false →
        ∃ u, Shared s u ∧ exec (.copyWrite id) s = .next { u with
          copies := now (read (s.openByteAt m.pa)), sent := s.sent ++ request m.pa .read }) ∧
      (∀ o a, c.put = [] → c.nextRead = some (.scratch o) → T.scratchAt o 1 = some a →
        exec (.copyWrite id) s = .next (if s.isEmpty a then s
          else { s with copies := now (read (tget 0 s.scratch (scratchKey a))) })) ∧
      (∀ p ps o a, c.put = p :: ps → p.place = .scratch o → T.scratchAt o 1 = some a →
        let k := scratchKey a
        let stays := c.written.left.any fun r => overlap (o / 128 * 128) 128 r.1 r.2
        exec (.copyWrite id) s = .next { s with
          copies := now c.written, scratch := tput 0 s.scratch k (mix (tget 0 s.scratch k) p)
          empty := if stays then s.empty else tput false s.empty (lineKey a) false }) ∧
      (∀ p ps va m, c.put = p :: ps → p.place = .global va → s.engXlat c.core c.ctx va .store = .ok m → s.hitsHung m.pa 1 = false →
        ∃ u, Written s u ∧ exec (.copyWrite id) s = .next { u with
            copies := now c.written, sent := s.sent ++ request m.pa (.write (p.val.setWidth 64)) } ∧
          ∀ pa, u.byteAt pa = if pa = m.pa ∧ s.reaches pa = true then mix (s.byteAt pa) p else s.byteAt pa)) ∧
    (let n := elemBits (recElem c.record) / 8
     let co := c.coords c.unit
     let got := fun i => if c.inBounds co then (c.got[i]?).getD 0 else 0
     c.opt < 2 → recElem c.record ≠ 4 → recElem c.record ≠ 5 →
      (c.dir ≠ 1 → c.reads = (if c.inBounds co then (List.range' (c.elemAt co).1 n).map CopySrc.global else []) ∧
        (c.got.length = c.reads.length → c.loaded = { c with put := (List.range n).map fun i =>
          ⟨if c.dir = 0 then .scratch (c.dense + n * c.unit + i) else .global (c.dense + n * c.unit + i), 0xFF, got i⟩ })) ∧
      (c.dir = 1 → c.reads = (List.range' (c.dense + n * c.unit) n).map CopySrc.scratch ∧
        (c.got.length = n → c.loaded = if c.inBounds co then { c with put := (List.range n).map fun i =>
          ⟨.global ((c.elemAt co).1 + i), 0xFF, got i⟩ } else { c with unit := c.unit + 1, got := [] }))) ∧
    (c.started = true → c.unit = c.units →
      let left := s.copies.filter fun k => decide (k.id ≠ id)
      (c.ring = none → exec (.copyComplete id) s = .next { s with copies := left }) ∧
      (∀ q i T r, c.ring = some (q, i) → s.team c.team = some T → tget none T.rings q = some r →
        let full := (r.slot i).arr + 1 = r.exp
        let ring := { r with
          filled := if full then r.filled + 1 else r.filled
          slots := r.slots.set i { r.slot i with
            res := (r.slot i).res - 1, arr := (r.slot i).arr + 1, st := if full then .filled else (r.slot i).st } }
        i < r.slots.length → exec (.copyComplete id) s = .next { s with
          copies := left, teams := tput none s.teams c.team (some { T with rings := tput none T.rings q (some ring) }) })) ∧
    (∀ T err code cause va, c.unit < c.units → s.team c.team = some T →
      (∀ b, c.bank = some b → ∃ o rest, (s.bank c.core b).ops = o :: rest ∧ o.kind = .steep c.id) →
      (s.moving c = true ∨ c.stalled = true ∧ ∀ k ∈ s.copies, k.core = c.core → k.id ≠ id → k.stalled = false) →
      (c.put = [] ∧ c.nextRead = some (.global va) ∧ s.engXlat c.core c.ctx va .load = .error (code, cause) ∨
        (∃ p ps, c.put = p :: ps ∧ p.place = .global va ∧ (s.engXlat c.core c.ctx va .store = .error (code, cause) ∨
          code = 16 ∧ cause = 4 ∧ ∃ m, s.engXlat c.core c.ctx va .store = .ok m ∧ s.hitsHung m.pa 1 = true)) ∨
        (∃ m, code = 23 ∧ cause = 0 ∧ c.put = [] ∧ c.nextRead = some (.global va) ∧
          s.engXlat c.core c.ctx va .load = .ok m ∧ s.deadRead m.pa = true) ∨
        err = true ∧ code = 23 ∧ cause = 0 ∧ c.put = [] ∧
          ((∃ m, c.nextRead = some (.global va) ∧ s.engXlat c.core c.ctx va .load = .ok m ∧ s.deadRead m.pa = false) ∨
           ∃ a, c.nextRead = some (.scratch va) ∧ T.scratchAt va 1 = some a ∧ s.isEmpty a = false)) →
      (∀ n, s.freePark c.core = some n → (∀ k ∈ s.copies, k.core = c.core → k.park ≠ some n) ∧ n < 16 ∧
        ∃ u ctxs, Shared s u ∧ exec (.copyPark id err) s = .next { u with
            copies := now { c with park := some n, stalled := false }, ctxs := ctxs } ∧
          tget Ctx.zero ctxs c.ctx = { tget Ctx.zero s.ctxs c.ctx with
            records := (tget Ctx.zero s.ctxs c.ctx).records ++ [s.parkRecord c n code cause va] } ∧
          ∀ k, k ≠ c.ctx → tget Ctx.zero ctxs k = tget Ctx.zero s.ctxs k) ∧
      (s.freePark c.core = none → c.stalled = false → ∃ u cores, Shared s u ∧ exec (.copyPark id err) s = .next { u with
          copies := now { c with stalled := true }, cores := cores } ∧
        tget CoreRegs.zero cores c.core = { tget CoreRegs.zero s.cores c.core with
          stallEvents := (tget CoreRegs.zero s.cores c.core).stallEvents + 1 } ∧
        ∀ k, k ≠ c.core → tget CoreRegs.zero cores k = tget CoreRegs.zero s.cores k)) ∧
    (∀ slot, (s.copies.filter fun k => k.core = c.core).find? (fun k => k.park = some slot) = some c →
      exec (.copyResume c.core slot) s = .next { s with copies :=
        ((s.copies.filter fun (k : Copy) => decide (k.id ≠ id)) ++ [{ c with park := none }]).map fun (k : Copy) =>
          if k.core = c.core then { k with stalled := false } else k })

/-- CAST with usable operands enters its command into the engine of its core, or waits for a place. CAST_COMMAND_START
starts the first command; CAST_COMMAND_STOP completes the CAST of the command that ran: lane by lane of the path, in order,
the triples of its scan go to registers d, d + 1 and d + 2 and set the lane in the mask, g[gs] holds the count, the end mark
and the entries read, and the cursor its progress. A round of INTERSECT or MERGE on two heads consumes the lower, or both
when equal; a stream found ended is not searched again. CASTI and CASTSPLIT set a cursor, CASTSPLIT with a free row where
COUNT of A is 1; CASTRD and CASTWR read and write one. What they read leaves L1, and a path waits before them for its lowest
lane's loads and accesses of devices (logs 12 and 15). Nothing else changes. That a command reads at its stop what it has
not read before is log 15; the order of reads, the row of a single pointer (log 3) and the halving of CASTSPLIT, which of A
and B is asked first if it has ended, and the POS of a bitmap stream that meets the limit, are log 22. (R357, R360, R361,
R362, R363, R364, R367, R368, R369) -/
def Obligations.SparseCasting : Prop :=
  ∀ (s : State) (x : Ix) (e n : Bool) (d a b : BitVec 7) (mode cur : BitVec 2) (kd : BitVec 3) (gs : BitVec 6),
    let i := Instr.cast e d a mode cur kd gs
    let va := (x.srcPair a.toNat x.low).toNat % 2 ^ 56
    let waits := fun (s : State) k => s.setWarp x.w (x.W.modPath x.low fun P => { P with wait := some ⟨k, i⟩ })
    let q := tget [] s.casts x.core
    let idle := s.castWaits x.w x.low = false
    let word := fun (W : Warp) (c : BitVec 2) j => (tget 0 W.c c.toNat).extractLsb' (32 * j) 32
    let sets := fun (W : Warp) (c : BitVec 2) (w : List Nat) => W = { x.W with c := W.c } ∧
      (∀ k, k ≠ c.toNat → tget 0 W.c k = tget 0 x.W.c k) ∧ ∀ j, j < 4 → word W c j = BitVec.ofNat 32 (w.getD j 0)
    let first := fun (r : Stream) => if r.enc = 2 then 0 else r.first
    (Usable s x [.group d.toNat 3 1, .srcPair a.toNat] → kd ≠ 0 → UsableG s x [gs.toNat] → va % 32 = 0 → idle → Starts s x i →
      (q.length < 9 → exec i s = .next (waits { s with casts := tput [] s.casts x.core (q ++ [⟨x.w, false⟩]) } .castRun)) ∧
      (9 ≤ q.length → x.T.hold = none → exec i s = .next (waits s .castPlace))) ∧
    (∀ core c rest, tget [] s.casts core = c :: rest →
      exec (.castCommandStart core) s = .next { s with casts := tput [] s.casts core ({ c with started := true } :: rest) } ∧
      ∀ (s1 s2 : State) (ra rb n : Nat), let s0 := { s with casts := tput [] s.casts core rest }
        let w := fun j => (word x.W cur j).toNat
        c.started = true → s.waiter c.w = some (x, ⟨.castRun, i⟩) → d.toNat + 3 ≤ 128 →
        x.castRecords s0 mode.toNat va = .ok (s1, ra, rb) →
        let stops := fun (out : List (Nat × Nat × Nat)) (done : Bool) (c' : List Nat) => ∃ u V,
          exec (.castCommandStop core) s = .next ((retire x i u none).admitCast core) ∧
          u = s2.setWarp x.w V ∧ V = { x.W with v := V.v, k := V.k, g := V.g, c := V.c } ∧
          (∀ (m l : Nat) (t : Nat × Nat × Nat), x.lanes[m]? = some l → out[m]? = some t → V.reg l d.toNat = BitVec.ofNat 32 t.1 ∧
            V.reg l (d.toNat + 1) = BitVec.ofNat 32 t.2.1 ∧ V.reg l (d.toNat + 2) = BitVec.ofNat 32 t.2.2) ∧
          (∀ l r, l < 64 → r < 128 → (r < d.toNat ∨ d.toNat + 2 < r ∨ l ∉ x.lanes.take out.length) → V.reg l r = x.W.reg l r) ∧
          (∀ k, k ≠ kd.toNat → tget 0 V.k k = tget 0 x.W.k k) ∧
          (∀ l, l < 64 → (tget 0 V.k kd.toNat).getLsbD l = if l ∈ x.lanes then decide (l ∈ x.lanes.take out.length)
            else (tget 0 x.W.k kd.toNat).getLsbD l) ∧
          (∀ g, V.greg g = if g = gs.toNat ∧ g ≠ 63 then BitVec.ofNat 64 ((x.lanes.take out.length).length +
            (if done then 2 ^ 16 else 0) + n * 2 ^ 32) else x.W.greg g) ∧
          (∀ k, k ≠ cur.toNat → tget 0 V.c k = tget 0 x.W.c k) ∧ ∀ j, j < 4 → word V cur j = BitVec.ofNat 32 (c'.getD j 0)
        (∀ p, mode ≠ 3 →
          let scan := x.castScan mode.toNat x.low va x.lanes.length castFuel s1 0
            ⟨⟨Stream.of ra, w 0, w 1, none, none, none, false⟩, ⟨Stream.of rb, w 2, w 3, none, none, none, false⟩, [], false⟩
          (scan = .ok s2 n p ∨ scan = .full s2 n p) →
          stops p.out p.done [p.a.pos, p.a.last, if mode = 2 then w 2 else p.b.pos, if mode = 2 then w 3 else p.b.last]) ∧
        (∀ p, mode = 3 →
          let scan := x.rowScan x.low va x.lanes.length (Stream.of ra) (Stream.of rb) (w 2) castFuel s1 0 ⟨w 0, w 1, [], [], false⟩
          (scan = .ok s2 n p ∨ scan = .full s2 n p) → stops p.out p.done [p.row, p.nz, w 2, 0])) ∧
    (∀ (lane raddr n va vb ia ib pa la pb lb : Nat) (p : Progress), p.a.r.enc < 2 → p.b.r.enc < 2 → p.a.pos < p.a.r.count →
      p.b.pos < p.b.r.count → p.a.head = some (va, ia, pa, la) → p.b.head = some (vb, ib, pb, lb) →
      let a' : Walk := { p.a with pos := pa, last := la, head := none, bit := none }
      let b' : Walk := { p.b with pos := pb, last := lb, head := none, bit := none }
      x.castRound 0 lane raddr s n p = .ok s n (if va < vb then { p with a := a' } else if vb < va then { p with b := b' }
        else { p with a := a', b := b', out := p.out ++ [(va, ia, ib)] }) ∧
      x.castRound 1 lane raddr s n p = .ok s n (
        if va < vb then { p with a := a', out := p.out ++ [(va, ia, 0xFFFFFFFF)] }
        else if vb < va then { p with b := b', out := p.out ++ [(vb, 0xFFFFFFFF, ib)] }
        else { p with a := a', b := b', out := p.out ++ [(va, ia, ib)] })) ∧
    (∀ s1 ra rb, Usable s x [.srcPair a.toNat] → idle → x.castRecords s mode.toNat va = .ok (s1, ra, rb) →
      Starts s x (.casti e a mode cur) →
      (mode ≠ 3 → ∃ t W, CompletesIn s s1 t x (.casti e a mode cur) none W ∧
        sets W cur [0, first (Stream.of ra), 0, if mode = 2 then 0 else first (Stream.of rb)]) ∧
      (∀ s2 r0 r1, mode = 3 → x.rowEnds s1 va (Stream.of ra) (Stream.of rb) = .ok (s2, r0, r1) →
        ∃ t W, CompletesIn s s2 t x (.casti e a mode cur) none W ∧ sets W cur [0, r0, r1, 0])) ∧
    (∀ s1 s2 s3 ra rb r0 r1 r, Usable s x [.regPair a.toNat, .reg b.toNat] → idle → x.castRecords s 3 va = .ok (s1, ra, rb) →
      let k := (x.W.reg x.low b.toNat).toNat % 2 ^ 16
      let m := (x.W.reg x.low b.toNat).toNat / 2 ^ 16
      k < m → x.rowEnds s1 va (Stream.of ra) (Stream.of rb) = .ok (s2, r0, r1) →
      x.splitSearch va (Stream.of ra) r0 r1 (r0 + k * (r1 - r0) / m) 33 s2 0 ((Stream.of ra).count - 1) = .ok (s3, r) →
      Starts s x (.castsplit e cur a b) →
      ∃ t W, CompletesIn s { s3 with free := s3.free + 1 } t x (.castsplit e cur a b) none W ∧
        sets W cur [if (Stream.of ra).count = 1 then Config.emptySplit s3.free else r, r0 + k * (r1 - r0) / m, r0 + (k + 1) * (r1 - r0) / m, 0]) ∧
    (Usable s x [.group d.toNat 4 4] → Starts s x (.castrd e n d cur) →
      ∃ t W, Completes s t x (.castrd e n d cur)
          (some (latchOf false (x.lanes.map fun l => (l, (word x.W cur 0).setWidth 64)))) W ∧ W = { x.W with v := W.v } ∧
        ∀ l r, l < 64 → r < 128 → W.reg l r = if n = false ∧ l ∈ x.lanes ∧ d.toNat ≤ r ∧ r < d.toNat + 4 then
          word x.W cur (r - d.toNat) else x.W.reg l r) ∧
    (Usable s x [.group a.toNat 4 4] → Starts s x (.castwr e a cur) →
      ∃ t W, Completes s t x (.castwr e a cur) none W ∧ sets W cur ((List.range 4).map fun j => (x.W.reg x.low (a.toNat + j)).toNat))

/-- MASH by all live lanes of its warp, RACK and COLCLR, with a legal mask, every named bank in mash mode and a place in
each queue, enter one operation into every named bank and complete; a MASH carries the fragment and the scales of its
registers. With no place they wait, and BANK_QUEUE_ENTRY enters them when there is one. COLRD of a bank with no operation
writes to each lane its cell of the rack row, and else waits for the operations before it; COLRD_READ completes it. MSTAT
writes the status of a bank and clears its saturation mark if asked. Nothing else changes. A mask or a number that names a
bank the team does not have, a fragment out of line, or a COLRD control with a reserved bit or columns past the rack raises
the illegal-operand fault, of BANK and MWAIT too; MASH, RACK and COLCLR with places in every queue and a named bank in
storage mode the bank-mode fault of the lowest such bank. (R293, R300, R309, R313, R317, R318, R319, R320, R321, R322, R323,
R325) -/
def Obligations.MatrixInstructions : Prop :=
  ∀ (s : State) (x : Ix) (e n c l half : Bool) (d a : BitVec 7) (bsel fa fw : BitVec 2) (pm1 r : BitVec 4) (kg b : BitVec 5)
    (bmask : BitVec 16),
    let bank := fun (s : State) k => tget Bank.zero s.banks (32 * x.core + k)
    let named := fun (m : Nat) k => ∃ j, (x.T.banksOn x.core)[j]? = some k ∧ m.testBit j = true
    let times := fun (m k : Nat) => (List.range (x.T.banksOn x.core).length).countP fun j => decide ((x.T.banksOn x.core)[j]? = some k) && m.testBit j
    let control := (x.src a.toNat x.low).toNat
    let room := fun (m : Nat) => ∀ k, named m k → (bank s k).ops.length < 5 ∧ s.bankClosed x.core k = false ∧ (bank s k).mash = true
    let entered := fun (u : State) (m : Nat) (o : BankOpKind) => u = { s with banks := u.banks, nextId := s.nextId + 1 } ∧
      (∀ k, bank u k = { bank s k with ops := (bank s k).ops ++ List.replicate (times m k) ⟨s.nextId, o⟩ }) ∧
      ∀ j, (∀ k, named m k → j ≠ 32 * x.core + k) → tget Bank.zero u.banks j = tget Bank.zero s.banks j
    let enters := fun (i : Instr) (m : Nat) (good : BankOpKind → Prop) => m < 2 ^ x.T.mash →
      (room m → (Starts s x i → ∃ u o t, good o ∧ entered u m o ∧ CompletesIn s u t x i none x.W) ∧
        ∀ w, s.waiter w = some (x, ⟨.bankPlace, i⟩) → ∃ u o, good o ∧ entered u m o ∧
          exec (.bankQueueEntry w) s = .next (retire x i u none)) ∧
      ((∃ k, named m k ∧ (5 ≤ (bank s k).ops.length ∨ s.bankClosed x.core k = true)) → x.T.hold = none → Starts s x i →
        exec i s = .next (s.setWarp x.w (x.W.modPath x.low fun P => { P with wait := some ⟨.bankPlace, i⟩ })))
    let perLane := 32 / (x.T.width / 16)
    let perReg := if fa = 2 then 8 else 4
    let bits := if fa = 2 then 4 else 8
    let regs := perLane / perReg
    (x.P.lanes = x.W.live → Usable s x [.group d.toNat regs regs, .src a.toNat] →
      enters (.mash e d a bsel c fa fw pm1 kg half bmask) (bmask.toNat * if half then 2 ^ 16 else 1) fun o => ∃ frag sa,
        o = .mash fa.toNat fw.toNat kg.toNat (pm1.toNat + 1) c frag sa ∧
        (∀ m k, m < 16 → k < 32 → let j := k % perLane
          wideByte frag (32 * m + k) = (x.W.reg (m + 16 * (k / perLane)) (d.toNat + j / perReg)).toNat / 2 ^ (bits * (j % perReg)) % 2 ^ bits) ∧
        ∀ m, m < 16 → wideByte sa m = (x.src a.toNat m).toNat / 2 ^ (8 * bsel.toNat) % 256) ∧
    (Usable s x [.src a.toNat] → enters (.rack e a) control fun o => o = .rack) ∧
    (Usable s x [.src a.toNat] → enters (.colclr e a l r) control fun o => o = .colclr (if l then none else some r.toNat)) ∧
    (let k := ((x.T.banksOn x.core)[control % 2 ^ 5]?).getD 0
     let i := Instr.colrd e d a
     let reads := fun (W : Warp) => W = { x.W with v := W.v } ∧ ∀ l q, l < 64 → q < 128 → W.reg l q =
       if l ∈ x.lanes ∧ q = d.toNat then tget 0 (bank s k).rack (512 * (control / 2 ^ 8 % 2 ^ 4) + control / 2 ^ 16 % 2 ^ 9 + l) else x.W.reg l q
     Usable s x [.reg d.toNat, .src a.toNat] → control = control % 2 ^ 5 + 2 ^ 8 * (control / 2 ^ 8 % 2 ^ 4) + 2 ^ 16 * (control / 2 ^ 16 % 2 ^ 9) →
     control % 2 ^ 5 < x.T.mash → control / 2 ^ 16 % 2 ^ 9 + x.T.width ≤ 512 →
     (Starts s x i → ((bank s k).ops = [] → ∃ t W, Completes s t x i none W ∧ reads W) ∧
       ((bank s k).ops ≠ [] → x.T.hold = none → exec i s = .next ({ s with nextId := s.nextId + 1 }.setWarp x.w
         (x.W.modPath x.low fun P => { P with wait := some ⟨.colrd s.nextId, i⟩ })))) ∧
     ∀ w before, s.waiter w = some (x, ⟨.colrd before, i⟩) → (∀ o ∈ (bank s k).ops, before ≤ o.id) →
       ∃ W, reads W ∧ exec (.colrdRead w) s = .next (retire x i (s.setWarp x.w W) none)) ∧
    (let k := ((x.T.banksOn x.core)[b.toNat]?).getD 0
     let B := bank s k
     let v := BitVec.ofNat 32 ((B.ops.length - 1) + (if B.ops = [] then 0 else 2 ^ 3) + (if B.sat then 2 ^ 4 else 0) +
       (if B.mash then 2 ^ 5 else 0) + 2 ^ 8 * B.cnt)
     Usable s x [.reg d.toNat] → b.toNat < x.T.mash → Starts s x (.mstat e n d c b) →
     ∃ t W, CompletesIn s { s with banks := if c then tput Bank.zero s.banks (32 * x.core + k) { B with sat := false } else s.banks }
         t x (.mstat e n d c b) (some (latchOf false (x.lanes.map fun l => (l, v.setWidth 64)))) W ∧ W = { x.W with v := W.v } ∧
       ∀ l q, l < 64 → q < 128 → W.reg l q = if n = false ∧ l ∈ x.lanes ∧ q = d.toNat then v else x.W.reg l q) ∧
    (let mash := Instr.mash e d a bsel c fa fw pm1 kg half bmask
     let mmask := bmask.toNat * if half then 2 ^ 16 else 1
     let cells := [Instr.rack e a, Instr.colclr e a l r]
     let legal := control = control % 2 ^ 5 + 2 ^ 8 * (control / 2 ^ 8 % 2 ^ 4) + 2 ^ 16 * (control / 2 ^ 16 % 2 ^ 9) ∧
       control % 2 ^ 5 < x.T.mash ∧ control / 2 ^ 16 % 2 ^ 9 + x.T.width ≤ 512
     let storage := fun (m j : Nat) => m.testBit j = true ∧ ∃ k, (x.T.banksOn x.core)[j]? = some k ∧ (bank s k).mash = false
     let modes := fun (i : Instr) (m : Nat) => Starts s x i → m < 2 ^ x.T.mash →
       (∀ k, named m k → (bank s k).ops.length < 5 ∧ s.bankClosed x.core k = false) → ∀ j, storage m j → (∀ q, q < j → ¬ storage m q) →
       Traps s x i ⟨17, 0, 0, j, 0, none⟩
     (x.P.lanes = x.W.live → Starts s x mash →
       ((Use.group d.toNat regs regs).ok x = false → Traps s x mash (Trap.operand d.toNat)) ∧
       (Usable s x [.group d.toNat regs regs, .src a.toNat] → 2 ^ x.T.mash ≤ mmask → Traps s x mash (Trap.operand bmask.toNat))) ∧
     (x.P.lanes = x.W.live → Usable s x [.group d.toNat regs regs, .src a.toNat] → modes mash mmask) ∧
     (Usable s x [.src a.toNat] → ∀ i ∈ cells, (Starts s x i → 2 ^ x.T.mash ≤ control → Traps s x i (Trap.operand a.toNat)) ∧
       modes i control) ∧
     (Usable s x [.reg d.toNat, .src a.toNat] → ¬ legal → Starts s x (.colrd e d a) → Traps s x (.colrd e d a) (Trap.operand a.toNat)) ∧
     (Usable s x [.reg d.toNat] → x.T.mash ≤ b.toNat → Starts s x (.mstat e n d c b) →
       Traps s x (.mstat e n d c b) (Trap.operand b.toNat)) ∧
     ∀ g : BitVec 6, UsableG s x [g.toNat] → 2 ^ x.T.mash ≤ (x.W.greg g.toNat).toNat →
       ∀ i ∈ [Instr.bank e g l, .mwait g], Starts s x i → Traps s x i (Trap.operand g.toNat))

/-- BANK with a legal mask fixes at its issue the named banks that are in the other mode, and switches them at once when
none has an operation, no copy of the team has bytes to write in one and no store is on its way to one; a bank back in
storage mode has every line full, and a load that found its line full has read it before; so have the lanes that waited on a
line that is full by now. Otherwise the path waits, the queues of those banks being closed; BANK_SWITCH completes it when
they are idle. A lane that waits on an empty line of a bank that leaves storage mode raises the bank-mode fault. MWAIT
blocks its path past the scene end for the operations that the named banks hold. No byte of scratch and no register changes.
That the stores of every warp are awaited, and which accesses have reached a bank before it switches, is the model's (log
12). (R214, R294, R313, R323, R324, R325, R326) -/
def Obligations.BankSwitching : Prop :=
  ∀ (s : State) (x : Ix) (e m : Bool) (a : BitVec 6),
    let bank := fun (s : State) k => tget Bank.zero s.banks (32 * x.core + k)
    let mask := (x.W.greg a.toNat).toNat
    let idle := fun (bs : List Nat) => ∀ q ∈ bs, (bank s (q % 32)).ops = [] ∧ s.copyWrites x.W.team x.T x.core (q % 32) = false ∧
      s.storesTo q = false
    let switched := fun (bs : List Nat) (u : State) => let v := s.performFull bs
      u = { v with banks := u.banks, empty := u.empty, loads := u.loads } ∧
      u.loads = (v.settle fun loc => isScratch loc && bs.contains ((loc - scrLoc) / 2 ^ 18)).loads ∧
      (∀ j, (∀ q ∈ bs, j ≠ 32 * x.core + q % 32) → tget Bank.zero u.banks j = tget Bank.zero v.banks j) ∧
      (∀ q ∈ bs, bank u (q % 32) = { bank v (q % 32) with mash := m }) ∧
      ∀ j, tget false u.empty j = true ↔ tget false v.empty j = true ∧
        ¬ (m = false ∧ ∃ q ∈ bs, x.core * 2 ^ 16 + q % 32 * 2 ^ 11 ≤ j ∧ j < x.core * 2 ^ 16 + q % 32 * 2 ^ 11 + 2 ^ 11)
    let i := Instr.bank e a m
    (UsableG s x [a.toNat] → mask < 2 ^ x.T.mash → Starts s x i → ∃ bs : List Nat,
      (∀ q, q ∈ bs ↔ ∃ j b, (x.T.banksOn x.core)[j]? = some b ∧ mask.testBit j = true ∧ (bank s b).mash = !m ∧
        q = 32 * x.core + b) ∧
      (idle bs → ∃ u, switched bs u ∧ exec i s = .next (retire x i u.trapWaiters none) ∧
        (s.lineWaiters = [] → s.performFull bs = s ∧ ∃ t, CompletesIn s u t x i none x.W)) ∧
      (¬ idle bs → x.T.hold = none → exec i s = .next (s.setWarp x.w (x.W.modPath x.low fun P =>
        { P with wait := some ⟨.bankSwitch bs, i⟩ })))) ∧
    (∀ w bs, s.waiter w = some (x, ⟨.bankSwitch bs, i⟩) →
      (idle bs → ∃ u, switched bs u ∧ exec (.bankSwitch w) s = .next (retire x i u none).trapWaiters) ∧
      (¬ idle bs → exec (.bankSwitch w) s = .next s)) ∧
    (∀ (y : Ix) (j : Instr) (n : Nat) (lanes bs : List Nat) (off : Nat → Nat), s.lineWaiters = [(y, j)] →
      y.scratchUse j = some (n, lanes, off) →
      let todo := lanes.filter fun l => !y.P.done.getLsbD l
      let on := fun (l : Nat) => ∃ p, y.T.scratchAt (off l) n = some p ∧ 32 * p.1 + p.2.1 ∈ bs
      let cut := fun (l : Nat) => ∃ p, y.T.scratchAt (off l) n = some p ∧ (s.bankOf p).mash = true ∧ s.isEmpty p = true
      ((∃ l ∈ todo, on l) → s.performFull bs = s.releaseLine y.w) ∧ ((∀ l ∈ todo, ¬ on l) → s.performFull bs = s) ∧
      ((∀ l ∈ todo, ¬ cut l) → s.trapWaiters = s) ∧
      ∀ pre l post p, todo = pre ++ l :: post → (∀ k ∈ pre, ¬ cut k) → y.T.scratchAt (off l) n = some p →
        (s.bankOf p).mash = true → s.isEmpty p = true → let tr : Trap := ⟨17, 0, 0, y.T.bankIndex p, 0, some l⟩
        TakesFault s s.trapWaiters y (j.stop y.T.width tr) (y.record 3 17 0 0 tr.aux0 0 l)) ∧
    (UsableG s x [a.toNat] → mask < 2 ^ x.T.mash → Starts s x (.mwait a) → ∃ t ids, exec (.mwait a) s = .next t ∧
      BlockedPast s t x (.mwait a) (.mwait x.core (BitVec.ofNat 32 mask) ids x.P.scene) ∧
      ∀ id, id ∈ ids ↔ ∃ j k, (x.T.banksOn x.core)[j]? = some k ∧ j < 32 ∧ mask.testBit j = true ∧ ∃ o ∈ (bank s k).ops, o.id = id)

/-- The first operation of a bank executes and leaves its queue. A k-step adds to each cell the exact product sum of its row
of activations and column of weights, at the exponent of their scales: the first of a period sets the cell, a later one
shifts to the exponent of the cell and saturates; a scale 0xFF marks the cell. A rack promotes: each cell of the rack takes
the rounded sum of itself and its accumulator, and the accumulators clear. A clear zeroes a row, or every cell. A steep
moves byte by byte, block by block: the 32 weights of a column, in whole bytes or, for .mxfp4, in the column's nibbles, then
their scale, the copy's own or, where it aligns, the one formed from the block; with its last byte it leaves the queue.
Nothing else changes. That the engine moves byte by byte is log 12. (R227, R297, R301, R302, R303, R304, R305, R309, R336,
R338, R339) -/
def Obligations.BankOperations : Prop :=
  ∀ (s : State) (core b id : Nat) (rest : List BankOp),
    let B := tget Bank.zero s.banks (32 * core + b)
    let done := fun (B' : Bank) => { s with banks := tput Bank.zero s.banks (32 * core + b) { B' with ops := rest } }
    let promoted := fun (B B' : Bank) => B' = { B with rack := B'.rack, acc := [], nan := [], cnt := 0 } ∧
      ∀ i, i < 8192 → tget 0 B'.rack i = if tget false B.nan i = true then 0x7FC00000
        else rnd32 Rnd.ne (sumVal 0 [Val.ofF32 (tget 0 B.rack i), (Val.ofInt (tget 0 B.acc i)).scale (tget 0 B.ecol i)])
    (∀ fa fw kg p clr frag sa, B.ops = ⟨id, .mash fa fw kg p clr frag sa⟩ :: rest → fa < 3 → fw < 3 →
      let B0 : Bank := if clr then { B with rack := [], acc := [], nan := [], cnt := 0 } else B
      let byte := fun i => (tget 0 s.scratch (core * 2 ^ 23 + b * 2 ^ 18 + i)).toNat
      let weight := fun k n => if fw = 2 then byte (256 * k + n / 2) / 2 ^ (4 * (n % 2)) % 16 else byte (256 * k + n)
      let scale := fun n => (tget 0x7F B.sw (512 * kg + n)).toNat
      let unit := fun f => if f = 0 then -6 else if f = 1 then -3 else (-1 : Int)
      let S := fun m n => (List.range 32).foldl (fun t k =>
        t + mashInt fa (wideByte frag (32 * m + k)) * mashInt fw (weight (32 * kg + k) n)) (0 : Int)
      let E := fun m n => (wideByte sa m : Int) - 127 + unit fa + ((scale n : Int) - 127 + unit fw)
      let lim := (2 : Int) ^ ((if fa = 0 ∨ fw = 0 then 24 else if fa = 1 ∨ fw = 1 then 20 else 16) - 1)
      let cols := if fw = 2 then 512 else 256
      let sum := fun m n =>
        let c := tget 0 B0.ecol (512 * m + n)
        tget 0 B0.acc (512 * m + n) + if c ≤ E m n then S m n * 2 ^ (E m n - c).toNat else rneShift (S m n) (c - E m n).toNat
      ∃ B1 : Bank, B1 = { B0 with acc := B1.acc, ecol := B1.ecol, nan := B1.nan, sat := B1.sat, cnt := B0.cnt + 1 } ∧
        (∀ m n, m < 16 → n < 512 → let i := 512 * m + n
          (n < cols → tget 0 B1.acc i = (if B0.cnt = 0 then S m n else max (-lim) (min (sum m n) (lim - 1))) ∧
            tget 0 B1.ecol i = (if B0.cnt = 0 then E m n else tget 0 B0.ecol i) ∧
            (tget false B1.nan i = true ↔ tget false B0.nan i = true ∨ wideByte sa m = 0xFF ∨ scale n = 0xFF)) ∧
          (cols ≤ n → tget 0 B1.acc i = tget 0 B0.acc i ∧ tget 0 B1.ecol i = tget 0 B0.ecol i ∧
            tget false B1.nan i = tget false B0.nan i)) ∧
        (B1.sat = true ↔ B0.sat = true ∨ (B0.cnt ≠ 0 ∧ ∃ m n, m < 16 ∧ n < cols ∧ (sum m n < -lim ∨ lim - 1 < sum m n))) ∧
        (B0.cnt + 1 < p → exec (.kStep core b) s = .next (done B1)) ∧
        (p ≤ B0.cnt + 1 → ∃ B2, promoted B1 B2 ∧ exec (.kStep core b) s = .next (done B2))) ∧
    (B.ops = ⟨id, .rack⟩ :: rest → (B.cnt = 0 → exec (.rackExecute core b) s = .next (done B)) ∧
      (B.cnt ≠ 0 → ∃ B2, promoted B B2 ∧ exec (.rackExecute core b) s = .next (done B2))) ∧
    (∀ m, B.ops = ⟨id, .colclr (some m)⟩ :: rest → ∃ B1 : Bank, B1 = { B with rack := B1.rack, acc := B1.acc, nan := B1.nan } ∧
      (∀ i, tget 0 B1.rack i = (if i / 512 = m then 0 else tget 0 B.rack i) ∧ tget 0 B1.acc i = (if i / 512 = m then 0 else tget 0 B.acc i) ∧
        tget false B1.nan i = (if i / 512 = m then false else tget false B.nan i)) ∧
      exec (.colclrExecute core b) s = .next (done B1)) ∧
    (B.ops = ⟨id, .colclr none⟩ :: rest → exec (.colclrExecute core b) s = .next (done { B with rack := [], acc := [], nan := [], cnt := 0 })) ∧
    (∀ c T, B.ops = ⟨id, .steep id⟩ :: rest → s.copies.find? (fun k => k.id = id) = some c → s.moving c = true →
      s.team c.team = some T → c.bank = some b → c.core = core → c.unit < c.units → c.steep = true →
      let now := fun (k' : Copy) => s.copies.map fun k => if k.id = id then k' else k
      let left := if c.written.units ≤ c.written.unit then rest else B.ops
      let only := fun (u : State) (B' : Bank) => ∀ j, tget Bank.zero u.banks j = if j = 32 * core + b then B' else tget Bank.zero s.banks j
      let key := fun i => core * 2 ^ 23 + b * 2 ^ 18 + i
      let cell := fun (i : Nat) (p : CopyPut) => (tget 0 s.scratch (key i) &&& ~~~p.mask) ||| (p.val &&& p.mask)
      (∀ va l, c.put = [] → c.nextRead = some (.global va) → s.engXlat core c.ctx va .load = .ok l → s.deadRead l.pa = false →
        ∃ u, Shared s u ∧ exec (.steepExecute core b) s = .next { u with
          copies := now ({ c with got := c.got ++ [s.openByteAt l.pa] } : Copy).loaded
          sent := s.sent ++ match s.peerAt l.pa with
            | some (port, addr) => if s.portUp port.toNat then [⟨port, addr, 1, .read⟩] else []
            | none => [] }) ∧
      (∀ p ps i, c.put = p :: ps → p.place = .array i → ∃ t, exec (.steepExecute core b) s = .next t ∧ only t { B with ops := left } ∧
        t = { s with banks := t.banks, copies := now c.written, scratch := tput 0 s.scratch (key i) (cell i p) }) ∧
      (∀ p ps g n, c.put = p :: ps → p.place = .scale g n → ∃ t, exec (.steepExecute core b) s = .next t ∧
        t = { s with banks := t.banks, copies := now c.written } ∧
        only t { B with sw := tput 0x7F B.sw (512 * g + n) p.val, ops := left })) ∧
    (∀ c : Copy, c.steep = true → c.reads.length ≤ c.got.length →
      let per := recBox c.record 0 / 32
      let row := fun i => 256 * (32 * c.kg0 + 32 * (c.unit % per) + i)
      let col := c.col0 + c.unit / per
      let val := fun i => Val.ofBits (if recElem c.record = 6 then e4m3 else e5m2) (c.elemIn i)
      let code := mxScale 0 ((List.range 32).map val)
      let v := fun i => if c.opt = 4 then mxQuant 0 0 code (val i) else c.elemIn i
      c.opt = 3 ∨ c.opt = 4 → c.loaded = { c with put := ((List.range 32).map fun i =>
          if recElem c.record = 5 then ⟨.array (row i + col / 2), if col % 2 = 0 then 0x0F else 0xF0,
            BitVec.ofNat 8 (v i * 2 ^ (4 * (col % 2)))⟩
          else ⟨.array (row i + col), 0xFF, BitVec.ofNat 8 (v i)⟩) ++
        [⟨.scale (c.kg0 + c.unit % per) col, 0xFF, if c.opt = 4 then BitVec.ofNat 8 code else (c.got.getLast?).getD 0⟩] })

/-- TRAP with a code below 64 goes past itself, blocks its warp by a prompt with a tag that no prompt of its context has,
and queues the event record of the prompt. TRAP with a code of 64 or more queues its record, stops the context as asserted
and holds every team of the context. BRK goes past itself, stops its path there and holds its team, with its record among
those that the hold writes. An unassigned opcode takes the illegal-instruction fault. No register changes. That a prompt
waits for a load outstanding to g0 is log 9. (R45, R393, R395, R60, R389, R378) -/
def Obligations.TrapsAndBreaks : Prop :=
  ∀ (s : State) (x : Ix) (d : BitVec 7) (c : BitVec 8) (w : BitVec 32),
    let C := tget Ctx.zero s.ctxs x.T.ctx
    let v := (x.srcPair d.toNat x.low).toNat
    let ctxs := fun (C' : Ctx) => tput Ctx.zero s.ctxs x.T.ctx C'
    let cleared := fun (W : Warp) => { W with paths := [], running := none, mon := [] }
    (c.toNat < 64 → Usable s x [.srcPair d.toNat] → UsableG s x [0] → s.prompts.length < 65536 → Starts s x (.trap d c) →
      ∃ t tag, tag < 65536 ∧ (∀ p ∈ s.prompts, p.ctx = x.T.ctx → p.tag ≠ tag) ∧
        CompletesIn s { s with
          prompts := s.prompts ++ [⟨x.T.ctx, tag, x.w⟩]
          ctxs := ctxs { C with records := C.records ++ [{ x.record 1 c.toNat 0 v 0 0 x.low with tag := tag }] } }
          t x (.trap d c) none { x.W with prompt := some tag }) ∧
    (64 ≤ c.toNat → Usable s x [.srcPair d.toNat] → twf none s.teams = true → Starts s x (.trap d c) →
      ∃ t V, exec (.trap d c) s = .next t ∧ SameStore { s with ctxs := ctxs { C with
          records := C.records ++ [x.record 2 c.toNat 0 v 0 0 x.low], stopped := true, asserted := true } } t ∧
        (∀ k T, s.team k = some T → t.team k = some (if T.ctx = x.T.ctx then { T with
          hold := some { T.hold.getD Hold.empty with byAssert := true } } else T)) ∧
        t.warp x.w = some V ∧ V.running = none ∧ (V.path x.low).map Path.unmonitored = some (x.after (.trap d c) none).unmonitored ∧
        (x.W.noMonwait → cleared V = cleared x.W)) ∧
    (Starts s x (.brk c) → ∃ t V, exec (.brk c) s = .next t ∧ SameStore s t ∧
      t.team x.W.team = some { x.T with hold := some { x.T.hold.getD Hold.empty with
        recs := (x.T.hold.getD Hold.empty).recs ++ [x.record 4 c.toNat 0 0 0 0 x.low] } } ∧
      (∀ k, k ≠ x.W.team → t.team k = s.team k) ∧ t.warp x.w = some V ∧ V.running = none ∧
      (V.path x.low).map Path.unmonitored = some
        ({ x.after (.brk c) none with stop := some ⟨0xFF, 0, 1, true, none, false⟩ } : Path).unmonitored ∧
      (x.W.noMonwait → cleared V = cleared x.W)) ∧
    (Starts s x (.unassignedOpcode w) → ∃ t, exec (.unassignedOpcode w) s = .next t ∧ TakesFault s t x
      ((Instr.unassignedOpcode w).stop x.T.width ⟨1, 0, w.toNat, 0, 0, none⟩) (x.record 3 1 0 w.toNat 0 0 x.low))

/-- LAUNCH reads the record at the address in g[a] and offers it; LAUNCH_WINDOW_GO of a window that is not busy offers its
record and makes it busy. LAUNCH_OFFER_OUTCOME decides an offer: a record with a fault is refused with its lowest reason,
one that finds the store full is refused, and any other enters the store with the next number; the source learns the outcome
in g[d] or in its window. Nothing else changes. LNUM and WHY of a window keep their values until the next outcome (log 17),
and LAUNCH reads its record past L1 (log 24). (R177, R179, R180, R181, R183) -/
def Obligations.Launching : Prop :=
  ∀ (s : State),
    (∀ (x : Ix) (e : Bool) (d a : BitVec 6) (s1 : State) (n : Nat),
      let va := (x.W.greg a.toNat).toNat % 2 ^ 56
      UsableG s x [d.toNat, a.toNat] → va % 64 = 0 → x.releaseWaits s 5 = false → x.readRecord s x.low va 64 = .ok (s1, n) →
      Starts s x (.launch e d a) → Cached s s1 ∧ ∃ t, CompletesIn s { s1 with
        offers := s.offers ++ [⟨.device x.w d, BitVec.ofNat 512 n, x.T.ctx⟩] } t x (.launch e d a) none x.W) ∧
    (∀ (port : Bool) (win : Nat), win < 64 →
      let k := 64 * port.toNat + win
      let W := tget Window.zero s.windows k
      (W.busy = true → exec (.launchWindowGo port.toNat win) s = .next s) ∧
      (W.busy = false → exec (.launchWindowGo port.toNat win) s = .next { s with
        windows := tput Window.zero s.windows k { W with busy := true, acc := false, refused := false, bad := false, why := 0 }
        offers := s.offers ++ [⟨.window port win, W.record, W.ctx.toNat⟩] })) ∧
    (∀ (n : Nat) (o : Offer), s.offers[n]? = some o →
      let why := refusalReason s o.record
      let taken := why = 0 ∧ s.launches.length < 512
      let s1 := { s with
        offers := s.offers.eraseIdx n
        launches := if taken then s.launches ++ [(⟨o.record, o.ctx, s.nextLaunch.toNat, s.nextId, none, 0, 0⟩ : Launch)] else s.launches
        nextId := if taken then s.nextId + 1 else s.nextId
        nextLaunch := if taken then (if s.nextLaunch = 0xFFFFFFFF then 1 else s.nextLaunch + 1) else s.nextLaunch }
      (∀ port win, o.src = .window port win →
        let k := 64 * port.toNat + win
        let W := { tget Window.zero s.windows k with busy := false }
        exec (.launchOfferOutcome n) s = .next { s1 with windows := tput Window.zero s.windows k (
          if why ≠ 0 then { W with bad := true, why := BitVec.ofNat 4 why }
          else if taken then { W with acc := true, lnum := s.nextLaunch } else { W with refused := true }) }) ∧
      (∀ w gd W, o.src = .device w gd → s.warp w = some W → ∃ V, exec (.launchOfferOutcome n) s = .next (s1.setWarp w V) ∧
        V = { W with g := V.g } ∧ ∀ k, V.greg k = if k = gd.toNat ∧ k ≠ 63 then
          (if why ≠ 0 then 2 else if taken then BitVec.ofNat 64 (s.nextLaunch.toNat * 2 ^ 32) else 1) else W.greg k))

/-- A placement pass goes through the ready launches in launch order: each that is no gang places teams while a core has
room, in the first such core from its origin; the first ready gang reserves room, is placed whole with a reservation for
every team, ages when a later launch places a team, and at age 16 goes before all others. TEAM_START starts the warps of a
team, each with one path of its live lanes at the entry, registers zero and the argument in g0, and of every team of its
launch for a gang; the lines of the context leave the L1 of its cores. TEAM_RETIRE of a team that has ended, with the stores
of its cores performed that were issued before its last thread exited (the model's bound, log 12), frees its slots, warps
and loads; the last of a launch completes it. The free team slot a team takes, that a gang whose context an assertion
stopped loses its reservations, and that another gang waits for the next pass, are the model's choice (log 28); that a gang
reserves from the origin counter is log 24, and that the completion word is written even in a hung range log 29. (R122,
R123, R145, R187, R188, R189, R190, R191, R192, R193, R231) -/
def Obligations.TeamLifetimes : Prop :=
  ∀ (s : State),
    (let ready := s.readyLaunches
     let first := ready.find? fun L => lrGang L.record
     let v : State := { s with gang := match s.gang, first with
       | some g, some G => if g.launch = G.key then some g else none
       | _, _ => none }
     (first = none → ∃ t, exec .placementPass s = .next t ∧ PlacedLaunches ready v t) ∧
     ∀ G before later, ready = before ++ G :: later → G ∉ before → first = some G →
       (v.gang.map Gang.age = some 16 → ∃ u t, exec .placementPass s = .next t ∧ GangRule v u G ∧
         (u.gang ≠ none → t = u) ∧ (u.gang = none → PlacedLaunches (ready.filter fun L => decide (L ≠ G)) u t)) ∧
       (v.gang.map Gang.age ≠ some 16 → ∃ u1 u2 u3 t, exec .placementPass s = .next t ∧
         PlacedLaunches before v u1 ∧ GangRule u1 u2 G ∧ PlacedLaunches later u2 u3 ∧
         t = { u3 with gang := u3.gang.map fun g =>
           if later.any fun L => u3.launches.any fun M => decide (M.key = L.key) && decide (L.placed < M.placed) then
             { g with age := min 16 (g.age + 1) } else g })) ∧
    (let begun := fun (t : State) (k : Nat) (T : Team) =>
        ∀ i w, T.slots[i]? = some w → (∀ j, i < j → T.slots[j]? ≠ some w) →
          let live := lanesBelow (min T.width (T.threads - i * T.width))
          ∃ W, t.warp w = some W ∧ W = { W with
              team := k, index := i, live := live, exited := 0, running := none, v := [], e := [], stack := [], spill := [], k := []
              j := [], cont := [], c := [], part := T.width, seq := 0, phw := (tget Ctx.zero s.ctxs T.ctx).phw0.toNat, mon := []
              fenced := [], prompt := none, dead := none, paths := [Path.fresh live T.entry] } ∧
            (∀ n, W.greg n = if n = 0 then T.args else 0) ∧
            W.role = if T.copyw + T.matw + T.vecw = 0 then .vector else if i < T.copyw then .copy
              else if i < T.copyw + T.matw then .matrix else .vector
     let starts := fun (T : Team) => T.started = false ∧ s.struck T.ctx T.launch = false
     (∀ (k : Nat) (T : Team), s.team k = some T → starts T → T.gang = false → ∃ t, exec (.teamStart k) s = .next t ∧
       t = { s with teams := tput none s.teams k (some { T with started := true }), warps := t.warps, l1 := t.l1 } ∧
       (∀ w, w ∉ T.slots → t.warp w = s.warp w) ∧ begun t k T ∧
       ∀ L, L ∈ t.l1 ↔ L ∈ s.l1 ∧ ¬ (L.core ∈ T.cores ∧ L.ctx = T.ctx)) ∧
     ∀ (k : Nat) (T : Team), s.team k = some T → T.gang = true → twf none s.teams = true →
       (∀ j i U V w, j ≠ i → s.team j = some U → s.team i = some V → w ∈ U.slots → w ∉ V.slots) →
       ∃ t, exec (.teamStart k) s = .next t ∧ t = { s with teams := t.teams, warps := t.warps, l1 := t.l1 } ∧
         (∀ j U, s.team j = some U → t.team j = some { U with started := U.started || (decide (U.launch = T.launch) && !s.struck U.ctx U.launch) }) ∧
         (∀ j U, s.team j = some U → U.launch = T.launch → starts U → begun t j U) ∧
         ∀ L, L ∈ t.l1 ↔ L ∈ s.l1 ∧ ¬ ∃ j U, s.team j = some U ∧ U.launch = T.launch ∧ starts U ∧ L.core ∈ U.cores ∧ L.ctx = U.ctx) ∧
    (∀ (k : Nat) (T : Team), s.team k = some T → T.started = true → s.struck T.ctx T.launch = false →
      (∀ w ∈ T.slots, ∀ W, s.warp w = some W → W.live &&& ~~~W.exited = 0) → (∀ c ∈ s.copies, c.team ≠ k) →
      (∀ b ∈ T.place.banks0, (tget Bank.zero s.banks (32 * T.place.core + b)).ops = []) →
      (∀ b ∈ T.place.banks1, (tget Bank.zero s.banks (32 * (T.place.core + 1) + b)).ops = []) →
      (∀ p ∈ s.stores, p.w ∉ T.slots ∧ (p.w / 48 ∈ T.cores → T.last ≤ p.id)) →
      ∃ t, exec (.teamRetire k) s = .next t ∧ t.team k = none ∧ (∀ j, j ≠ k → t.team j = s.team j) ∧
        (∀ w, (w ∈ T.slots ∨ s.warp w = none) → t.warp w = none) ∧
        (∀ w W, w ∉ T.slots → s.warp w = some W → ∃ V, t.warp w = some V ∧ OnlyFired W V) ∧
        t.loads = s.loads.filter (fun o => !T.slots.contains o.w) ∧ t.scratch = s.scratch ∧ t.empty = s.empty ∧ t.banks = s.banks ∧
        t.stores = s.stores ∧ t.copies = s.copies ∧
        (∀ L, s.launches.find? (fun L => L.key = T.launch) = some L →
          (L.retired + 1 ≠ lrTeams L.record → t.mem = s.mem ∧ t.dirty = s.dirty ∧
            t.launches = s.launches.map fun M => if M = L then { L with retired := L.retired + 1 } else M) ∧
          (L.retired + 1 = lrTeams L.record → (∀ M ∈ t.launches, M ∈ s.launches ∧ M ≠ L) ∧
            (∀ M ∈ s.launches, M.key ≠ T.launch → M ∈ t.launches) ∧
            ∀ pas, lrCompl L.record ≠ 0 → s.moduleStore L.ctx (lrCompl L.record) = .ok pas → ∀ pa ∈ pas, ∀ i, i < 8 →
              (∀ q ∈ pas, pa + i < q + 8 → q < pa + i + 1 → q = pa) → s.reaches (pa + i) = true →
              t.byteAt (pa + i) = BitVec.ofNat 8 ((L.lnum + 2 ^ 32) / 256 ^ i))))

/-- HOLD_COMPLETE of a hold whose team has nothing under way marks it complete and moves its records to the context.
EVENT_RECORD_WRITE writes the oldest record of a context into its prompt ring, unless the ring is full. TEAM_HOLD holds a
team. TEAM_RESUME of a team whose hold is complete and that has no rejoin deadlock ends the hold and lets every path go on
at its PC; TEAM_RESUME_PAST lets a faulted path go on past its instruction. NEWHW sets the private limit of a warp of such a
team; a path still blocked in MWAIT goes back to it. A load or CUE that failed after its path had gone on does not keep a
hold from completing, is made anew under OP 1 and is gone under OP 2, where its path goes on where it stands (the model's,
log 12); a record is written even where its slot lies in a hung range (log 29). Nothing else changes. (R326, R379, R383,
R385, R387, R390, R391) -/
def Obligations.HoldsAndResumption : Prop :=
  ∀ (s : State),
    (∀ (k c : Nat) (T : Team) (h : Hold), s.team k = some T → T.hold = some h → h.complete = false → s.holdDone T = true →
      h.resume = false → (∀ r ∈ h.recs, r.ctx = c) → ∃ t, exec (.holdComplete k) s = .next t ∧
        t = { s with teams := tput none s.teams k (some { T with hold := some { h with complete := true, recs := [] } }), ctxs := t.ctxs } ∧
        ∀ n, tget Ctx.zero t.ctxs n = if n = c then { tget Ctx.zero s.ctxs n with records := (tget Ctx.zero s.ctxs n).records ++ h.recs }
          else tget Ctx.zero s.ctxs n) ∧
    (∀ (n : Nat) (r : EvRec) (rest : List EvRec), let c := tget Ctx.zero s.ctxs n
      let size := 2 ^ c.log2n.toNat
      let pa := c.rbase.toNat * 4096 + 64 * (c.pprod.toNat % size)
      c.records = r :: rest →
      ((c.pprod - c.pcons).toNat = size → exec (.eventRecordWrite n) s = .next s) ∧
      ((c.pprod - c.pcons).toNat ≠ size → ∃ t, exec (.eventRecordWrite n) s = .next t ∧
        Written s { t with ctxs := s.ctxs } ∧ t.l1 = s.l1 ∧ t.tlb = s.tlb ∧
        t.ctxs = tput Ctx.zero s.ctxs n { c with records := rest, pprod := c.pprod + 1, lost := c.lost || !s.reaches pa } ∧
        ∀ a, t.byteAt a = if pa ≤ a ∧ a < pa + 64 ∧ s.reaches a = true then
          BitVec.ofNat 8 (r.toNat c.pprod.toNat c.log2n.toNat / 256 ^ (a - pa)) else s.byteAt a)) ∧
    (∀ (core slot k : Nat) (T : Team), s.teamAt core slot = some k → s.team k = some T → s.struck T.ctx T.launch = false →
      (T.hold = none → ∃ t, exec (.teamHold core slot) s = .next t ∧ SameStore s t ∧
        t.team k = some { T with hold := some { Hold.empty with byCtl := true } } ∧ (∀ j, j ≠ k → t.team j = s.team j) ∧
        (∀ w, w ∉ T.slots → t.warp w = s.warp w) ∧
        ∀ w W, s.warp w = some W → W.running = none → ∃ V, t.warp w = some V ∧ OnlyFired W V) ∧
      (∀ h, T.hold = some h → h.complete = true →
        (∀ w ∈ T.slots, ∀ W, s.warp w = some W → W.dead = none) →
        let pending := fun (c : Nat) (m : Word) (ids : List Nat) => ∃ j b, (T.banksOn c)[j]? = some b ∧ m.getLsbD j = true ∧
          ∃ o ∈ (tget Bank.zero s.banks (32 * c + b)).ops, o.id ∈ ids
        let resumes := fun (i : Instr) (past : Bool) (f : Path → Path) => ∃ t, exec i s = .next t ∧
          t = { s with
            teams := tput none s.teams k (some { T with hold := none }), warps := t.warps
            loads := s.loads.filter fun o => !(past && o.failed && T.slots.contains o.w) } ∧
          (∀ w, w ∉ T.slots → t.warp w = s.warp w) ∧ ∀ w ∈ T.slots, ∀ W, s.warp w = some W →
            ∃ V, t.warp w = some V ∧ V = { W with paths := V.paths } ∧ V.paths.length = W.paths.length ∧
              ∀ (i : Nat) (P : Path), W.paths[i]? = some P →
                ((∀ c m ids sc, P.block = some (.mwait c m ids sc) → ¬ pending c m ids) → V.paths[i]? = some (f P)) ∧
                ∀ c m ids sc, P.block = some (.mwait c m ids sc) → pending c m ids →
                  V.paths[i]? = some { f P with pc := (f P).pc - 4, scene := sc, block := some .woken }
        resumes (.teamResume core slot) false (fun P => { P with stop := none, skid := 0 }) ∧
        ((∀ w ∈ T.slots, ∀ W, s.warp w = some W → ∀ P ∈ W.paths, ∀ c, P.stop = some c → c.code ≠ 13 ∧ c.fetch = false) →
          resumes (.teamResumePast core slot) true fun P =>
            match P.stop with
            | some c => if c.code = 0xFF ∨ c.len = 0 then { P with stop := none, skid := 0 } else { P with
                pc := P.pc + BitVec.ofNat 56 (4 * c.len), wait := none, done := 0, stop := none, skid := 0
                count := P.count + 1, got := []
                scene := if c.e then none else P.scene.map fun b => b.push c.len (c.latch.map fun w => ⟨w, []⟩) }
            | none => { P with skid := 0 }) ∧
        ∀ (i w : Nat) (W : Warp) (phw : Nat), T.slots[i]? = some w → s.warp w = some W →
          exec (.newhw core slot i phw) s = .next (s.setWarp w { W with phw := phw })))

/-- PROMPT_REPLY of a pending tag writes PRVAL to g0 of the prompted warp and ends the prompt, and of any other tag sets
MISS. PRING_WRITE takes a legal ring while none of it is in use; PCONS_WRITE moves the consumer up to the producer.
CONTEXT_PREEMPT stops the context, drains it under its deadline and, with no resident team, reports it drained at once; a
gang of the context loses its reservations. CONTEXT_RESUME lets a context that no assertion stopped go on. Nothing else
changes. The drain timer counts the clock of die 0 (log 2). (R386, R393, R394, R396, R397) -/
def Obligations.ContextControl : Prop :=
  ∀ (s : State) (n : Nat),
    let C := tget Ctx.zero s.ctxs n
    let sets := fun (C' : Ctx) => { s with ctxs := tput Ctx.zero s.ctxs n C' }
    (∀ tag, let p? := s.prompts.find? fun p => decide (p.ctx = n ∧ p.tag = tag % 65536)
      (p? = none → exec (.promptReply n tag) s = .next (sets { C with miss := true })) ∧
      ∀ p W, p? = some p → s.warp p.w = some W → ∃ V, exec (.promptReply n tag) s = .next
          ({ s with prompts := s.prompts.filter fun q => !decide (q.ctx = n ∧ q.tag = tag % 65536) }.setWarp p.w V) ∧
        V = { W with g := V.g, prompt := none } ∧ ∀ k, V.greg k = if k = 0 then C.prval else W.greg k) ∧
    (∀ v : DWord, let legal := C.pprod = C.pcons ∧ 4 ≤ v.toNat % 32 ∧ v.toNat % 32 ≤ 16 ∧
        cachedRegion (regionOf (v.toNat / 2 ^ 12 % 2 ^ 40 * 4096)) = true
      (legal → exec (.pringWrite n v) s = .next (sets { C with
        log2n := BitVec.ofNat 5 v.toNat, rbase := BitVec.ofNat 40 (v.toNat / 2 ^ 12) })) ∧
      (¬ legal → exec (.pringWrite n v) s = .next s)) ∧
    (∀ v : Word, ((v - C.pcons).toNat ≤ (C.pprod - C.pcons).toNat → exec (.pconsWrite n v) s = .next (sets { C with pcons := v })) ∧
      ((C.pprod - C.pcons).toNat < (v - C.pcons).toNat → exec (.pconsWrite n v) s = .next s)) ∧
    (let timer := if C.deadline = 0 then none else some (tget 0 s.clock 0 + C.deadline.toNat * 1050)
     let lost := ∃ g L, s.gang = some g ∧ L ∈ s.launches ∧ L.key = g.launch ∧ L.ctx = n
     let after := fun (g : Option Gang) (C' : Ctx) => { s with gang := g, ctxs := tput Ctx.zero s.ctxs n C' }
     ∃ g, (lost → g = none) ∧ (¬ lost → g = s.gang) ∧
      (s.resident n = true → exec (.contextPreempt n) s = .next (after g { C with stopped := true, draining := true, timer := timer })) ∧
      (s.resident n = false → exec (.contextPreempt n) s = .next (after g { C with
        stopped := true, draining := false, timer := none, records := C.records ++ [{ EvRec.zero with kind := 8, ctx := n }] }))) ∧
    (C.asserted = false → exec (.contextResume n) s = .next (sets { C with stopped := false, draining := false, asserted := false, timer := none })) ∧
    (C.asserted = true → ∃ t, exec (.contextResume n) s = .next t ∧
      t = { s with teams := t.teams, warps := t.warps, ctxs := tput Ctx.zero s.ctxs n { C with
        stopped := false, draining := false, asserted := false, timer := none } } ∧
      (twf none s.teams = true → ∀ k T, s.team k = some T → (T.ctx ≠ n → t.team k = some T) ∧
        (∀ h, T.ctx = n → T.hold = some h → h.complete = false → h.byAssert = true →
          t.team k = some { T with hold := some { h with resume := true } })))

/-- CONTEXT_STRIKE and DEADLINE_EXPIRY strike a context that is not being struck: it stops and is busy, and its teams end.
LAUNCH_STRIKE and TEAM_LAUNCH_STRIKE strike a launch that the store holds, and the core of the second notes it.
STRIKE_COMPLETE, once what the teams had under way has finished, empties the queues of their banks, frees the teams, takes
the launches from the store, each completed with status 2, and ends the strike; for a context its cache and translation
entries go, and it is busy no more; the record of the strike is the last of the context. No other team and no other launch
changes. The deadline counts the clock of die 0 (log 2), a strike of a context that is busy does nothing (log 17), the order
of the records is log 20, and where the completion word is translated log 29. (R191, R390, R397, R398, R399, R400) -/
def Obligations.Strikes : Prop :=
  ∀ (s : State) (n : Nat), twf none s.teams = true → twf [] s.casts = true →
    let C := tget Ctx.zero s.ctxs n
    let struck := { s with ctxs := tput Ctx.zero s.ctxs n { C with stopped := true, busy := true, timer := none } }
    (C.busy = true → exec (.contextStrike n) s = .next s) ∧
    (C.busy = false → ∃ t, exec (.contextStrike n) s = .next t ∧ StrikeBegins struck t ⟨n, none, 0, 1⟩) ∧
    (∀ d, C.timer = some d → C.draining = true → C.busy = false → d ≤ tget 0 s.clock 0 →
      ∃ t, exec (.deadlineExpiry n) s = .next t ∧ StrikeBegins struck t ⟨n, none, 0, 2⟩) ∧
    (∀ L, L ∈ s.launches → L.ctx = n → (∀ M ∈ s.launches, M.key = L.key → M = L) → s.struck n L.key = false →
      (s.launches.find? (fun M => decide (M.ctx = n ∧ M.lnum = C.lsnum.toNat)) = some L →
        ∃ t, exec (.launchStrike n) s = .next t ∧ StrikeBegins s t ⟨n, some L.key, L.lnum, 3⟩) ∧
      ∀ core slot k T, s.teamAt core slot = some k → s.team k = some T → T.ctx = n → T.launch = L.key →
        let noted := tput CoreRegs.zero s.cores core { tget CoreRegs.zero s.cores core with tstrike := some L.key }
        ∃ u, StrikeBegins s u ⟨n, some L.key, L.lnum, 3⟩ ∧ exec (.teamLaunchStrike core slot) s = .next { u with cores := noted }) ∧
    (∀ i k, s.strikes[i]? = some k → s.strikeReady k = true → k.ctx = n →
      let hit := fun (key : Nat) => k.launch = none ∨ k.launch = some key
      ∃ t mid, exec (.strikeComplete i) s = .next t ∧ t.strikes = s.strikes.filter (fun j => j ≠ k) ∧
        (∀ j T, s.team j = some T → (T.ctx = n ∧ hit T.launch → t.team j = none) ∧ (¬ (T.ctx = n ∧ hit T.launch) → t.team j = some T)) ∧
        t.launches = s.launches.filter (fun L => !decide (L.ctx = n ∧ (k.launch = none ∨ k.launch = some L.key))) ∧
        (tget Ctx.zero t.ctxs n).records = C.records ++ mid ++ [{ EvRec.zero with kind := 7, cause := k.cause, ctx := n, lnum := k.lnum }] ∧
        (∀ m, m ≠ n → tget Ctx.zero t.ctxs m = tget Ctx.zero s.ctxs m) ∧
        (∀ j, let ended := ∃ i T, s.team i = some T ∧ T.ctx = n ∧ hit T.launch ∧ j ∈ T.bankKeys
          (ended → (tget Bank.zero t.banks j).ops = []) ∧ (¬ ended → (tget Bank.zero t.banks j).ops = (tget Bank.zero s.banks j).ops)) ∧
        (∀ L, s.launches.filter (fun L => decide (L.ctx = n ∧ (k.launch = none ∨ k.launch = some L.key))) = [L] →
          (∀ c ∈ s.copies, ∀ T, s.team c.team = some T → ¬ (T.ctx = n ∧ hit T.launch)) → lrCompl L.record ≠ 0 →
          let v := L.lnum + 2 * 2 ^ 32
          (∀ pas, s.moduleStore n (lrCompl L.record) = .ok pas → ∀ pa ∈ pas, ∀ i, i < 8 →
            (∀ q ∈ pas, pa + i < q + 8 → q < pa + i + 1 → q = pa) → s.reaches (pa + i) = true →
            t.byteAt (pa + i) = BitVec.ofNat 8 (v / 256 ^ i)) ∧
          ∀ c, s.moduleStore n (lrCompl L.record) = .error c → { EvRec.zero with
            kind := 6, code := 14, cause := c, ctx := n, lnum := L.lnum, addr := lrCompl L.record, aux0 := v } ∈ mid) ∧
        (k.launch = none → (tget Ctx.zero t.ctxs n).busy = false ∧ (∀ e ∈ t.tlb, e.ctx ≠ n) ∧ ∀ e ∈ t.l1, e.ctx ≠ n) ∧ t.stores = s.stores)

/-- A write of CXINV with scope 0, 1 or 2, unless one runs, starts an invalidation; INVALIDATION_COMPLETE removes the
entries of its range from every translation unit and every L1, makes the loads of the range that were translated before go
past L1, and ends it. CONTEXT_REGISTER_WRITE writes CXROOT, CXPRIV, CXPHW or CXREP of a context with no resident team and no
launch, and else nothing. MEMSPLIT_WRITE and TARENA_WRITE take a legal value while no context was ever enabled, and else
nothing; where IPOOL changes, the storage of the stacks keeps its bytes and takes other addresses, and the model writes back
every L2 line first (log 21). Nothing else changes. That loads under way go past L1 is log 24, and that the registers of a
context keep what was written is log 17. (R203, R204, R209, R210, R274) -/
def Obligations.TranslationControl : Prop :=
  ∀ (s : State) (n hub : Nat) (iva : BitVec 40) (v : DWord),
    let C := tget Ctx.zero s.ctxs n
    let sets := fun (C' : Ctx) => { s with ctxs := tput Ctx.zero s.ctxs n C' }
    (∀ e ∈ [(Instr.invalidatePage n iva, 0), (.invalidateLargePage n iva, 1), (.invalidateContext n iva, 2)],
      (C.ibusy = true → exec e.1 s = .next s) ∧
      (C.ibusy = false → exec e.1 s = .next (sets { C with iscope := BitVec.ofNat 2 e.2, iva := iva, ibusy := true }))) ∧
    (C.ibusy = false → exec (.invalidationComplete n) s = .next s) ∧
    (C.ibusy = true →
      let small := fun p => if C.iscope = 0 then p = C.iva.toNat else if C.iscope = 1 then p / 32 = C.iva.toNat / 32 else True
      let large := fun p => if C.iscope = 2 then True else p / 32 = C.iva.toNat / 32
      C.iscope ≠ 3 → ∃ t, exec (.invalidationComplete n) s = .next t ∧
        t = { s with ctxs := tput Ctx.zero s.ctxs n { C with ibusy := false }, tlb := t.tlb, l1 := t.l1, loads := t.loads } ∧
        (∀ e, e ∈ t.tlb ↔ e ∈ s.tlb ∧ ¬ (e.ctx = n ∧ (if e.large then large e.page else small e.page))) ∧
        (∀ e, e ∈ t.l1 ↔ e ∈ s.l1 ∧ ¬ (e.ctx = n ∧ small (e.vline / 512))) ∧ t.loads.length = s.loads.length ∧
        ∀ (i : Nat) (o : Outst), s.loads[i]? = some o →
          let hit := o.ctx = n ∧ o.kind = .load ∧ ∃ a ∈ o.addrs, small (a.1 / 2 ^ 16)
          (hit → t.loads[i]? = some { o with nc := true }) ∧ (¬ hit → t.loads[i]? = some o)) ∧
    (let used := s.resident n = true ∨ ∃ L ∈ s.launches, L.ctx = n
     (used → ∀ r, exec (.contextRegisterWrite n r v) s = .next s) ∧
     (¬ used →
       exec (.contextRegisterWrite n 0 v) s = .next { s with
         ctxs := tput Ctx.zero s.ctxs n { C with en := v.getLsbD 0, root := v.extractLsb' 13 39 }, everEn := s.everEn || v.getLsbD 0 } ∧
       exec (.contextRegisterWrite n 1 v) s = .next (sets { C with pbase := v.extractLsb' 45 11 }) ∧
       exec (.contextRegisterWrite n 2 v) s = .next (sets { C with phw0 := v.extractLsb' 0 15 }) ∧
       exec (.contextRegisterWrite n 3 v) s = .next (sets { C with rstride := v.extractLsb' 21 31 }))) ∧
    (let fits := fun (slabs pool : Nat) => slabs * 2 ^ 27 ≤ (96 - pool) * 2 ^ 30
     let pool := v.toNat % 2 ^ 7
     let legal := s.everEn = false ∧ pool ≤ 96 ∧ ∀ h, h < 8 → fits (tget 0 s.slabs h).toNat pool
     (legal → v.extractLsb' 0 7 = s.ipool → exec (.memsplitWrite v) s = .next s) ∧
     (legal → v.extractLsb' 0 7 ≠ s.ipool → ∃ u, Evicted s u ∧ (∀ pa, tget none u.dirty pa = none) ∧
       (∀ l, tget LineDir.zero u.dir l = LineDir.zero) ∧ exec (.memsplitWrite v) s = .next { u with ipool := v.extractLsb' 0 7 }) ∧
     (¬ legal → exec (.memsplitWrite v) s = .next s)) ∧
    (let slabs := v.toNat % 2 ^ 6
     let legal := s.everEn = false ∧ slabs ≤ 32 ∧ slabs * 2 ^ 27 ≤ (96 - s.ipool.toNat) * 2 ^ 30
     (legal → exec (.tarenaWrite hub v) s = .next { s with slabs := tput 0 s.slabs hub (v.extractLsb' 0 6) }) ∧
     (¬ legal → exec (.tarenaWrite hub v) s = .next s))

/-- SEMAPHORE_READ gives a free semaphore to the agent that reads it, and answers; SEMAPHORE_WRITE by its owner and
SEMAPHORE_BREAK free it. PEERWIN_WRITE takes a legal window. POLICY_WRITE replaces 32 bits of the staged policy and disarms
it; POLICY_ARM arms a policy that is signed, newer and leaves a pair, and else marks it bad. ATTESTATION_GO takes the nonce,
and REPORT_COMPLETE writes the report. REGISTER_WRITE of an unaligned or unreachable register has no effect, and of a launch
record, a semaphore or PCONS what the register does; a device's write fires the monitors of its line and a host's fires
none, which is the model's choice (log 23). Nothing else changes. Access only over a link that is up, and what a register
keeps, are log 17; a 4-byte access to half a register is log 16; the salt of a report's signature is a free value (log 3).
(R271, R415, R418, R419, R424, R425, R428) -/
def Obligations.PlatformRegisters : Prop :=
  ∀ (s : State) (agent : BitVec 2) (n : BitVec 5) (p : BitVec 3) (v : DWord) (w : Word),
    let o := tget 0 s.sems n.toNat
    let sem := fun o' => { s with sems := tput 0 s.sems n.toNat o' }
    let reached := agent = 3 ∨ (agent = 1 ∧ (tget Port.zero s.ports 0).up = true) ∨ (agent = 2 ∧ (tget Port.zero s.ports 1).up = true)
    let writes := fun (i : Instr) (u : State) => ∃ t, exec i s = .next t ∧ t = { u with warps := t.warps } ∧ WarpsFire s t ∧
      (agent ≠ 3 → t.warps = s.warps)
    (reached → let now := if o = 0 then agent else o
      exec (.semaphoreRead agent n) s = .next { sem now with reply := some ⟨false, (if now = agent then 1 else 0) + 2 * now.toNat⟩ }) ∧
    (reached → o = agent → writes (.semaphoreWrite agent n) (sem 0)) ∧
    (reached → o ≠ agent → writes (.semaphoreWrite agent n) s) ∧
    (¬ reached → exec (.semaphoreRead agent n) s = .next s ∧ exec (.semaphoreWrite agent n) s = .next s) ∧
    exec (.semaphoreBreak n) s = .next (sem 0) ∧
    (let size := v.toNat / 2 ^ 2 % 2 ^ 6
     let legal := 16 ≤ size ∧ size ≤ 48 ∧ v.toNat / 2 ^ 16 % 2 ^ (size - 16) = 0
     let win : PeerWin := ⟨v.getLsbD 0, v.getLsbD 1, v.extractLsb' 2 6, v.extractLsb' 16 48⟩
     (legal → exec (.peerwinWrite p v) s = .next { s with peers := tput PeerWin.zero s.peers p.toNat win }) ∧
     (¬ legal → exec (.peerwinWrite p v) s = .next s)) ∧
    (∀ k, k < 112 → ∃ t, exec (.policyWrite (4 * k) w) s = .next t ∧ t = { s with policy := t.policy, armed := none } ∧
      ∀ j, j < 112 → t.policy.extractLsb' (32 * j) 32 = if j = k then w else s.policy.extractLsb' (32 * j) 32) ∧
    (let good := policySigned s.policy = true ∧ s.policy.extractLsb' 288 224 = 0 ∧
       s.lastseq.toNat < (s.policy.extractLsb' 256 32).toNat ∧ s.dcmap ||| s.policy.extractLsb' 0 256 ≠ BitVec.allOnes 256
     (good → exec .policyArm s = .next { s with armed := some s.policy, polBad := false }) ∧
     (¬ good → exec .policyArm s = .next { s with polBad := true })) ∧
    (s.attBusy = false → exec .attestationGo s = .next { s with attBusy := true, attNonce := s.nonce } ∧
      exec .reportComplete s = .next s) ∧
    (s.attBusy = true → exec .attestationGo s = .next s ∧ ∃ (body : BitVec 1024) (report : BitVec 4096),
      exec .reportComplete s = .next { s with attBusy := false, report := report } ∧ report.extractLsb' 0 1024 = body ∧
      report.extractLsb' 1024 3072 = BitVec.ofNat 3072 (leNat
        (pssSign Config.identityKey (sha256 (leBytes 128 body.toNat)) (beBytes 32 (Config.reportSalt s.free)))) ∧
      body.extractLsb' 0 256 = s.attNonce ∧ body.extractLsb' 256 256 = BitVec.ofNat 256 (leNat firmwareDigest) ∧
      body.extractLsb' 512 256 = s.dcmap ∧ body.extractLsb' 768 32 = s.lastseq ∧
      body.extractLsb' 800 224 = BitVec.ofNat 224 (coreCount s.dcmap)) ∧
    (∀ (off : BitVec 22) (wide : Bool), (¬ reached ∨ off.toNat % (if wide then 8 else 4) ≠ 0 ∨ (wide = true ∧ agent = 3)) →
      exec (.registerWrite agent off wide v) s = .next s) ∧
    (reached → writes (.registerWrite agent (BitVec.ofNat 22 (0x4000 + 8 * n.toNat)) false ((v.setWidth 4).setWidth 64))
      (if o = agent then sem 0 else s)) ∧
    (reached → ∀ (port : Bool) (win k : Nat), win < 64 → k < 16 →
      let key := 64 * (if port then 1 else 0) + win
      let W := tget Window.zero s.windows key
      ∃ r, writes (.registerWrite agent (BitVec.ofNat 22 ((if port then 0x2000 else 0) + 128 * win + 4 * k)) false v)
          { s with windows := tput Window.zero s.windows key { W with record := r } } ∧
        ∀ j, j < 16 → r.extractLsb' (32 * j) 32 = if j = k then v.setWidth 32 else W.record.extractLsb' (32 * j) 32) ∧
    (reached → ∀ c, c < 64 → let C := tget Ctx.zero s.ctxs c
      (v.setWidth 32 - C.pcons).toNat ≤ (C.pprod - C.pcons).toNat →
      writes (.registerWrite agent (BitVec.ofNat 22 (0x11010 + 64 * c)) false v)
        { s with ctxs := tput Ctx.zero s.ctxs c { C with pcons := v.setWidth 32 } })

/-- HOST_CXL_MEM_REQUEST and PEER_MODULE_REQUEST in the HDM range, over a link that is up, read and write memory at the hub
and are answered: a read with the bytes, changing none; a write leaves its bytes, unless one lies in a hung range, when the
answer is an error; an atomic its result, with the old value. Beyond the range they stop, which is the model's choice (log
30). HOST_SNOOP takes a line of host memory back from every die, with the bytes the host gives. LINK_DOWN takes a port down
with what the module held of its memory, and frees its semaphores; loads of the port under way obtain their values before,
and F256 and the width stay (log 19). LINK_UP trains a port of a module whose firmware verified, and else nothing.
MODULE_RESET leaves the reset state with memory, caches and wear kept, the stacks' bytes at the addresses of the reset
split, each physical core's scratch with its new number, and an armed policy applied; what is kept, and that every L2 writes
back first where IPOOL changes, is log 21, and wear not recorded log 7. (R203, R413, R416, R417, R420, R280, R425, R426,
R431) -/
def Obligations.HostsAndLinks : Prop :=
  ∀ (s : State),
    (∀ (port : Bool) (off len : Nat) (data : Option Nat) (kind : BitVec 2) (op ty : BitVec 3) (v cmp : DWord),
      let pas := (List.range len).map fun i => s.hdmPa (off + i)
      let host := Instr.hostCxlMemRequest port off len data
      let peer := Instr.peerModuleRequest ⟨port, off⟩ len kind op ty v cmp
      let old := leNat (pas.map s.byteAt)
      let reads := fun (i : Instr) => ∃ t, exec i s = .next t ∧ (∀ pa, t.byteAt pa = s.byteAt pa) ∧
        t = { s with mem := t.mem, mscHeld := t.mscHeld, mscDirty := t.mscDirty, dirty := t.dirty, dir := t.dir, reply := some ⟨false, old⟩ }
      let writes := fun (i : Instr) (bs : List Byte) (answer : Nat) =>
        ((∃ pa ∈ pas, s.hitsHung pa 1 = true) → exec i s = .next { s with reply := some ⟨true, 0⟩ }) ∧
        ((∀ pa ∈ pas, s.hitsHung pa 1 = false) → ∃ t, exec i s = .next t ∧ Written s { t with reply := s.reply } ∧
          t.l1 = s.l1 ∧ t.tlb = s.tlb ∧ t.reply = some ⟨false, answer⟩ ∧
          ∀ pa, t.byteAt pa = (pas.zip bs).foldl (fun b e => if e.1 = pa ∧ s.reaches e.1 = true then e.2 else b) (s.byteAt pa))
      (768 * 2 ^ 30 < off + len → exec host s = .fault .hostOutsideHdm ∧ exec peer s = .fault .hostOutsideHdm) ∧
      (off + len ≤ 768 * 2 ^ 30 →
        ((tget Port.zero s.ports port.toNat).up = false → exec host s = .next s ∧ exec peer s = .next s) ∧
        ((tget Port.zero s.ports port.toNat).up = true →
          (data = none → reads host) ∧ (∀ d, data = some d → writes host (leBytes len d) 0) ∧
          (kind = 0 → reads peer) ∧ (kind = 1 → writes peer (leBytes len v.toNat) 0) ∧
          (kind = 2 → len = 8 → off % 8 = 0 → (ty = 2 ∨ ty = 3) →
            let w := BitVec.ofNat 64 old
            let less := if ty = 2 then v.slt w else v.ult w
            (op = 7 → w ≠ cmp → reads peer) ∧ ((op = 7 → w = cmp) → writes peer (leBytes 8 (match op.toNat with
              | 0 => w + v
              | 1 => if less then v else w
              | 2 => if less then w else v
              | 3 => w &&& v
              | 4 => w ||| v
              | 5 => w ^^^ v
              | _ => v).toNat) old))))) ∧
    (∀ (port : Bool) (line : Nat) (data : Option Nat), hostPort (regionOf (128 * line)) = some port.toNat →
      (tget Port.zero s.ports port.toNat).up = true → ∃ t, exec (.hostSnoop port line data) s = .next t ∧
        Written s t ∧ t.l1 = s.l1 ∧ t.tlb = s.tlb ∧
        (∀ l, tget LineDir.zero t.dir l = if l = line then LineDir.zero else tget LineDir.zero s.dir l) ∧
        ∀ pa, t.byteAt pa = match data with
          | some v => if pa / 128 = line then BitVec.ofNat 8 (v / 256 ^ (pa % 128)) else s.byteAt pa
          | none => s.byteAt pa) ∧
    (∀ port : Bool, let mine := fun line => hostPort (regionOf (128 * line)) = some port.toNat
      ∃ t, exec (.linkDown port) s = .next t ∧
        t = { s with
          ports := tput Port.zero s.ports port.toNat { tget Port.zero s.ports port.toNat with up := false }
          dirty := t.dirty, dir := t.dir, sems := t.sems, warps := t.warps, loads := t.loads, sent := t.sent } ∧ WarpsFire s t ∧
        (∀ pa, (mine (pa / 128) → t.byteAt pa = s.hubByte pa) ∧ (¬ mine (pa / 128) → t.byteAt pa = s.byteAt pa)) ∧
        (∀ l, (mine l → tget LineDir.zero t.dir l = LineDir.zero) ∧ (¬ mine l → tget LineDir.zero t.dir l = tget LineDir.zero s.dir l)) ∧
        t.loads.length = s.loads.length ∧
        (∀ (i : Nat) (o : Outst), s.loads[i]? = some o → o.kind ≠ .load ∨ o.failed = true ∨
          ((∀ a ∈ o.addrs, ¬ mine (a.2 / 128)) ∧ ∀ f, o.peer ≠ some (port, f)) → t.loads[i]? = some o) ∧
        (∀ (i : Nat) (o : Outst), s.loads[i]? = some o → o.kind = .load → o.failed = false → (∃ a ∈ o.addrs, mine (a.2 / 128)) →
          t.loads[i]? = some { o with kind := .value, value := BitVec.ofNat 128 (s.loadValue o) }) ∧
        (∀ (i : Nat) (o : Outst) (f : Nat), s.loads[i]? = some o → o.kind = .load → o.failed = false → o.peer = some (port, f) →
          ∃ v, t.loads[i]? = some { o with kind := .value, value := v }) ∧
        (twf 0 s.sems = true → ∀ n, tget 0 t.sems n = if (tget 0 s.sems n).toNat = port.toNat + 1 then 0 else tget 0 s.sems n)) ∧
    (∀ (port f : Bool) (lanes : BitVec 5), let good := firmwareOk = true ∧ lanes ∈ [(4 : BitVec 5), 8, 16]
      (good → exec (.linkUp port f lanes) s = .next { s with ports := tput Port.zero s.ports port.toNat ⟨true, f, lanes⟩ }) ∧
      (¬ good → exec (.linkUp port f lanes) s = .next s)) ∧
    (∃ u t, exec .moduleReset s = .next t ∧ Evicted s u ∧ (s.ipool = 0x60 → u = s) ∧
      (s.ipool ≠ 0x60 → (∀ pa, tget none u.dirty pa = none) ∧ ∀ l, tget LineDir.zero u.dir l = LineDir.zero) ∧ t = { State.reset with
        mem := u.mem, mscHeld := u.mscHeld, mscDirty := u.mscDirty, dirty := u.dirty, dir := u.dir, wear := s.wear, watts := s.watts
        scratch := t.scratch, empty := t.empty, temps := s.temps, agenda := s.agenda, cur := s.cur, nextId := s.nextId
        free := s.free, dcmap := t.dcmap, lastseq := t.lastseq } ∧
      (s.armed = none → t.dcmap = s.dcmap ∧ t.lastseq = s.lastseq) ∧
      (∀ p, s.armed = some p → t.dcmap = s.dcmap ||| p.extractLsb' 0 256 ∧ t.lastseq = p.extractLsb' 256 32) ∧
      ∀ c c', c < coreCount s.dcmap → c' < coreCount t.dcmap → physCore s.dcmap c = physCore t.dcmap c' →
        (∀ i, i < 2 ^ 23 → tget 0 t.scratch (c' * 2 ^ 23 + i) = tget 0 s.scratch (c * 2 ^ 23 + i)) ∧
        ∀ i, i < 2 ^ 16 → tget false t.empty (c' * 2 ^ 16 + i) = tget false s.empty (c * 2 ^ 16 + i))

/-- SCENE_START starts the scene of the first path, in the order of R141, of the ready paths whose part of the wing is free:
full counters first, by when they filled, then the higher counter, then the lower slot, then the lower lane. None starts
where there is no such path, or where the first of all ready paths is full and wider than a half and waits for the other
half. It is inside its scene where a path of its warp is; its counter returns to 0, and only counters of other paths change,
one that reaches 16 being numbered after every other of the wing. $seq counts the scene from its start on (log 11).
YIELD_WAKE and MONWAIT_TIMEOUT end a wait whose time has come; MONITOR_LOST fires a monitor. INSTRUCTION_FETCH_FAULT takes
fault 14. GUARD_BAND_STEP widens the guard band of a core with a margin below 50, up to 40, and then marks it worn, by the
guard band it had (log 18); EOLH_REFRESH sets what it reports; THROTTLE throttles a die that would pass 600 W or 105 °C,
which keeps it from passing, and no other (log 18). Nothing else changes. A woken CWAIT drops the lines of its context (log
27). (R20, R132, R140, R141, R157, R271, R272, R389, R421, R422, R429, R430) -/
def Obligations.ModuleEvents : Prop :=
  ∀ (s : State) (core wing w lane : Nat),
    (core < coreCount s.dcmap → wing < 4 →
      let tie := fun (a b : Cand) => a.w < b.w ∨ (a.w = b.w ∧ lowest a.P.lanes < lowest b.P.lanes)
      let first := fun (a b : Cand) => (a.P.age = 16 ∧ b.P.age ≠ 16) ∨
        (a.P.age = 16 ∧ b.P.age = 16 ∧ (a.P.full < b.P.full ∨ (a.P.full = b.P.full ∧ tie a b))) ∨
        (a.P.age ≠ 16 ∧ b.P.age ≠ 16 ∧ (b.P.age < a.P.age ∨ (a.P.age = b.P.age ∧ tie a b)))
      let free := fun (o : Cand) => o ∈ s.readyPaths core wing ∧ partOf o.w o.width &&& s.heldPart core wing = 0
      let waits := ∃ f ∈ s.readyPaths core wing, (∀ o ∈ s.readyPaths core wing, ¬ first o f) ∧ f.P.age = 16 ∧ 32 ≤ f.width ∧
        partOf f.w f.width &&& s.heldPart core wing ≠ 0
      (s.pick core wing = none ↔ waits ∨ ∀ o, ¬ free o) ∧
      (s.pick core wing = none → exec (.sceneStart core wing) s = .next s) ∧
      ∀ (c : Cand) (W : Warp) (T : Team), s.pick core wing = some c → s.warp c.w = some W → s.team W.team = some T →
        W.path (lowest c.P.lanes) = some c.P →
        (free c ∧ (∀ o, free o → ¬ first o c) ∧ ∀ Q ∈ W.paths, Q.inside = true → c.P.inside = true) ∧
        ∃ t V, exec (.sceneStart core wing) s = .next t ∧ t = { s with warps := t.warps, l1 := t.l1, cur := c.w } ∧
          t.warp c.w = some V ∧ V = { W with
            paths := V.paths, running := some (lowest c.P.lanes), seq := if c.P.scene = none then W.seq + 1 else W.seq } ∧
          V.path (lowest c.P.lanes) = some { c.P with age := 0, full := 0, block := none, scene := some (c.P.scene.getD ⟨0, []⟩) } ∧
          (∀ v r, ¬ (v = c.w ∧ r = lowest c.P.lanes) →
            ((t.warp v).bind (·.path r)).map (fun P => { P with age := 0, full := 0 }) =
              ((s.warp v).bind (·.path r)).map fun P => { P with age := 0, full := 0 }) ∧
          (∀ v, v ≠ c.w → (t.warp v).map (fun V => (V.body, V.running)) = (s.warp v).map fun V => (V.body, V.running)) ∧
          ((∀ v U, s.warp v = some U → (U.paths.map fun P => lowest P.lanes).Nodup) → ∀ o ∈ s.readyPaths core wing, o ≠ c →
            ∃ U Q, t.warp o.w = some U ∧ U.path (lowest o.P.lanes) = some Q ∧
              Q.age = (if partOf o.w o.width &&& partOf c.w c.width = 0 then o.P.age else min 16 (o.P.age + 1)) ∧
              (o.P.age = 15 → Q.age = 16 → ∀ v V P, v / 12 = o.w / 12 → s.warp v = some V → P ∈ V.paths → P.full < Q.full)) ∧
          (∀ L, L ∈ t.l1 ↔ L ∈ s.l1 ∧ ¬ ((∃ ids, c.P.block = some (.cwait ids)) ∧ L.core = c.w / 48 ∧ L.ctx = T.ctx))) ∧
    (∀ W, s.warp w = some W → ∃ V, exec (.yieldWake w lane) s = .next (s.setWarp w V) ∧ V = { W with
      paths := W.paths.map fun P => match P.block with
        | some (.yield t) => if lowest P.lanes = lane ∧ t ≤ s.clockOf (w / 48) then { P with block := none } else P
        | _ => P }) ∧
    (∀ W P lim n d, s.warp w = some W → P ∈ W.paths → lowest P.lanes = lane → P.block = some (.monwait (some lim) n d) →
      (∀ Q ∈ W.paths, Q = P ∨ (lowest Q.lanes ≠ lane ∧ ∀ t n d, Q.block ≠ some (.monwait t n d))) →
      (∀ l m, tget none W.mon l = some m → m.fired = false) → lim ≤ s.clockOf (w / 48) →
      ∃ V, exec (.monwaitTimeout w lane) s = .next (s.setWarp w V) ∧ V = { W with
        v := V.v, mon := V.mon, paths := W.paths.map fun Q => if lowest Q.lanes = lane then { Q with block := none } else Q } ∧
        (∀ l r, l < 64 → r < 128 → V.reg l r = if n = false ∧ l ∈ lanesOf P.lanes ∧ r = d.toNat then 0 else W.reg l r) ∧
        ∀ l, tget none V.mon l = if l ∈ lanesOf P.lanes then none else tget none W.mon l) ∧
    (∀ W m, s.warp w = some W → tget none W.mon lane = some m → W.noMonwait →
      exec (.monitorLost w lane) s = .next (s.setWarp w { W with mon := tput none W.mon lane (some { m with fired := true }) })) ∧
    (∀ x cause (va : DWord), s.issuing = some x → ∃ t, exec (.instructionFetchFault cause va) s = .next t ∧
      TakesFault s t x ⟨14, cause, 1, false, none, true⟩ (x.record 3 14 cause va.toNat 2 0 x.low)) ∧
    (core < coreCount s.dcmap → ∀ (m : BitVec 10) (v : Word), let p := physCore s.dcmap core
      let W := tget Wear.zero s.wear p
      exec (.guardBandStep core m) s = .next { s with wear := tput Wear.zero s.wear p ⟨m,
        if m.toNat < 50 ∧ W.gband.toNat < 40 then W.gband + 1 else W.gband, W.worn || decide (m.toNat < 50 ∧ W.gband = 40)⟩ } ∧
      exec (.eolhRefresh core v) s = .next { s with cores := tput CoreRegs.zero s.cores core { tget CoreRegs.zero s.cores core with eolh := v } }) ∧
    (∀ (die : Nat) (power watts : BitVec 16) (temp : BitVec 8), die < 16 → watts.toNat ≤ 12000 →
      ∃ t, exec (.throttle die power temp watts) s = .next t ∧
      t = { s with throttled := t.throttled, watts := watts, temps := tput 0 s.temps die (BitVec.ofNat 8 (min 105 temp.toNat))
                   thr := decide (t.throttled ≠ 0) } ∧
      ∀ j, j < 16 → (t.throttled.getLsbD j = true ↔ if j = die then 600 < power.toNat ∨ 105 < temp.toNat else s.throttled.getLsbD j = true))

/-- For every instruction of the opcode table that has words, with every operand and prefix at every value that makes a
legal encoding, the decoder reads its words as that instruction, at its own length of one or two words. (R41, R44, R48, R50,
R63, R64, R65, spec/02_instruction_words.md) -/
def Obligations.DecodingAndEncodingAgree : Prop :=
  ∀ i : Instr, i.isWord = true → i.wf = true →
    ((encode i).length = 1 ∨ (encode i).length = 2) ∧ (∀ w ∈ encode i, w < 2 ^ 32) ∧
    decode ((encode i).getD 0 0) ((encode i).getD 1 0) = .ok (i, (encode i).length)

/-- If the decoder reads two words as an instruction of n words, the instruction is legal and its encoding is exactly the
first n of them; so a reserved field, a missing scene end, a misplaced prefix or an unlisted code is never dropped. A first
word with no PFX form and an assigned opcode that encodes no legal instruction is refused, and an unassigned opcode is read
as such. (R41, R46, R51, R55, R60, spec/02_instruction_words.md) -/
def Obligations.DecodingIsExact : Prop :=
  ∀ w0 w1 : Nat, w0 < 2 ^ 32 → w1 < 2 ^ 32 →
    (∀ i n, decode w0 w1 = .ok (i, n) → i.isWord = true ∧ i.wf = true ∧ encode i = [w0, w1].take n) ∧
    (isPfxWord w0 = false → wordAssigned w0 = false → decode w0 w1 = .ok (.unassignedOpcode (BitVec.ofNat 32 w0), 1)) ∧
    (∀ i, wordAssigned w0 = true → decode w0 w1 ≠ .ok (.unassignedOpcode i, 1))

/-- SREAD of $lane to g1; FMUL v2, v0, v1; FADD v3, l1, v4 with the scene end; EXIT; FFMA with its prefix; MOVK of a
literal; GLD; JNZ; FENCE; MONWAIT; CUE; ATOM: each word, with its fields in the places of the formats, decodes as the
instruction it stands for. EXIT with a nonzero reserved field, EXIT without its scene end, EXIT after a prefix and FADD into
a latch code are refused. (R44, R48, R49, R50, R55, R63, R64, spec/02_instruction_words.md) -/
def Obligations.DecodeWords : Prop :=
  (∀ w0 w1 n i, (w0, w1, n, i) ∈ ([
      (0x8CC10000, 0, 1, .sread false 1 0), (0x08408001, 0, 1, .fmul false false none 2 0 1),
      (0x4800FE04, 0, 1, .fadd true false none 3 124 4), (0x50E00000, 0, 1, .exit),
      (0x1FE19480, 0x08614103, 2, .ffma false false (some ⟨6, 2, true, 1, false⟩) 5 2 3),
      (0x0341E000, 0x000186A0, 2, .movkLiteral false false 7 0x186A0), (0x84040180, 0, 1, .gld false 4 0 3 0),
      (0xC8810010, 0, 1, .jnz 1 16), (0x1720000D, 0, 1, .fence false 1 5), (0x5702400C, 0, 1, .monwait false 9 false 12),
      (0x18004002, 0, 1, .cue false 1 0 false 2), (0x16818105, 0x00140000, 2, .atom false 6 2 5 0 0 0 1 1 false 0)] :
      List (Nat × Nat × Nat × Instr)) → decode w0 w1 = .ok (i, n)) ∧
  (∀ w0 w1, (w0, w1) ∈ ([(0x50E04000, 0), (0x10E00000, 0), (0x1FE00000, 0x50E00000), (0x081F0001, 0)] : List (Nat × Nat)) →
    (decode w0 w1).toOption = none)

/-- When the next turn is a warp's, its path issues, the words at its PC are fetched and decode to an instruction, the step
is exec of that instruction in the state after the fetch, in which the same path issues; the lines that an L2 cannot hold
then leave it, so that every set holds at most 12, and every byte reads as before. Words that decode to none raise the
illegal-instruction fault, after a PFX with the further word of the instruction; a failed translation is the
instruction-fetch fault. A fetch reads the four bytes at the translated address, little-endian, as they are or, where they
were written since the launch was accepted, as they were at some time since, and changes only translation entries, the
directory and where bytes are held, not what any byte of memory holds. An event's turn is exec of the event; in other turns
an L2, a directory or a memory-side cache gives up a line. That a step is one turn, and whose turn is next, are the model's
choice (log 1), and that lines leave at the end of a step is log 26; which word a fetch returns is a free value (log 3), and
AUX0 is 0 where the further word's fetch fails (log 13). (R41, R62, R207, R219, R220, R221, R389, R390,
spec/02_instruction_words.md, spec/19_faults_and_preemption.md) -/
def Obligations.StepRunsTheDecodedInstruction : Prop :=
  (∀ (s s2 s3 s4 : State) (w w0 w1 w2 : Nat) (x : Ix),
    let s1 := { s.begin with cur := w }
    let va := x.P.pc.toNat
    let vb := (va + 4) % 2 ^ 56
    let vc := (va + 8) % 2 ^ 56
    let pfx := isPfxWord w0
    s.turn = .issue w → s1.issuing = some x → x.P.wait = none →
    (∀ c, fetchWord x s1 va = .error c → StepIs s (exec (.instructionFetchFault c (BitVec.ofNat 64 va)) s1)) ∧
    (∀ c, fetchWord x s1 va = .ok (s2, w0) → needsSecond w0 = true → fetchWord x s2 vb = .error c →
      StepIs s (exec (.instructionFetchFault c (BitVec.ofNat 64 vb)) s1)) ∧
    (fetchWord x s1 va = .ok (s2, w0) → (needsSecond w0 = true ∧ fetchWord x s2 vb = .ok (s3, w1) ∨
        needsSecond w0 = false ∧ s3 = s2 ∧ w1 = 0) →
      (if pfx = true ∧ isTwoWord w1 = true then
        (fetchWord x s3 vc = .ok (s4, w2) ∨ (∃ c, fetchWord x s3 vc = .error c) ∧ s4 = s3 ∧ w2 = 0) else s4 = s3 ∧ w2 = 0) →
      s4.issuing = some x ∧
      (∀ i n, decode w0 w1 = .ok (i, n) → StepIs s (exec i s4)) ∧
      (∀ e, decode w0 w1 = .error e → ∃ t st, StepIs s (.next t) ∧ st.code = 1 ∧ TakesFault s4 t x st
        (x.record 3 1 0 (if pfx then w1 else w0) (if pfx then w2 else if isTwoWord w0 then w1 else 0) (if pfx then w0 else 0) x.low)))) ∧
  (∀ (s : State) (x : Ix) (va : Nat) (l : Xlat), canonical va = true → s.translate x.core x.T.ctx va .fetch = .ok l →
    ∃ u w, fetchWord x s va = .ok (u, w) ∧ Shared s u ∧
      (w = leNat ((List.range 4).map fun i => s.openByteAt (l.pa + i)) ∨
        ∃ e ∈ tget [] s.olds (l.pa / 4), x.T.launch < e.1 ∧ w = e.2.toNat)) ∧
  (∀ (s : State) (i : Instr), s.turn = .event i → i.isWord = false → i.wf = true → StepIs s (exec i s.begin)) ∧
  (∀ (s : State) (die line : Nat),
    (s.turn = .evict die line → ∃ u, StepIs s (.next u) ∧ Evicted s.begin u ∧ u.holds die line = false) ∧
    (s.turn = .dropDir line → ∃ u, StepIs s (.next u) ∧ Evicted s.begin u ∧ tget LineDir.zero u.dir line = LineDir.zero) ∧
    (s.turn = .hubEvict line → ∃ u, StepIs s (.next u) ∧ Evicted s.begin u ∧ tget false u.mscHeld (u.cellLine line) = false))

/-- After reset nothing runs: no team, warp, launch, copy, load or store, no offer, prompt, strike, handle or request to a
peer; every context is off, with LOG2N 4, DEADLINE 10,000 and all else 0; IPOOL is 0x60 and every TARENA 0; the semaphores
are free; both links are down; the peer windows are off with SIZE 0x10; the launch windows, CUEREL, the policy and
attestation registers are 0 and no policy is armed; of the core registers EOLH is 0xFFFFFFFF and the others 0; every clock
is 0; and the invariant of every step holds. (R204, R209, R274, R386, R416, R418, R419, R421, R425, R431,
spec/22_wear_and_platform.md) -/
def Obligations.ResetState : Prop :=
  let s := State.reset
  Inv s ∧ (∀ k, s.team k = none) ∧ (∀ w, s.warp w = none) ∧ s.launches = [] ∧ s.offers = [] ∧ s.gang = none ∧ s.copies = [] ∧
  s.prompts = [] ∧ s.strikes = [] ∧ (∀ c, tget [] s.casts c = []) ∧ s.loads = [] ∧ s.stores = [] ∧ s.sent = [] ∧ s.reply = none ∧ s.everEn = false ∧
  (∀ n, tget Handle.unbound s.handles n = .unbound) ∧ s.nextLaunch = 1 ∧ (∀ d, tget 0 s.clock d = 0) ∧
  (∀ n, tget Ctx.zero s.ctxs n = {
    en := false, root := 0, pbase := 0, phw0 := 0, rstride := 0, iscope := 0, iva := 0, ibusy := false, log2n := 4, rbase := 0
    pprod := 0, lost := false, pcons := 0, prval := 0, ptag := 0, miss := false, stopped := false, draining := false
    busy := false, asserted := false, deadline := 10000, timer := none, lsnum := 0, records := [] }) ∧
  s.ipool = 0x60 ∧ (∀ h, tget 0 s.slabs h = 0) ∧ s.relMask = 0 ∧ s.relCtx = 0 ∧
  (∀ n, tget 0 s.sems n = 0) ∧ (∀ p, tget Port.zero s.ports p = ⟨false, false, 0⟩) ∧
  (∀ p, tget PeerWin.zero s.peers p = ⟨false, false, 0x10, 0⟩) ∧ (∀ k, tget Window.zero s.windows k = ⟨0, 0, 0, false, false, false, false, 0⟩) ∧
  (∀ c, tget CoreRegs.zero s.cores c = {
    cprSlot := 0, stallCycles := 0, stallEvents := 0, hsel := 0, tslot := 0, top := 0, twarp := 0, tnew := false, tphw := 0
    tstrike := none, eolh := 0xFFFFFFFF }) ∧
  s.policy = 0 ∧ s.armed = none ∧ s.polBad = false ∧ s.nonce = 0 ∧ s.attBusy = false ∧ s.report = 0 ∧ s.thr = false ∧ s.throttled = 0

/-- From every state in which memory has its canonical form, the clocks of the dies are within 64 cycles of each other, and
the tables of teams, cast commands and semaphores have theirs (keys rising, no entry like an absent one; the canonical forms
are the model's own way to hold the state), every step, an instruction's, a fault's, another agent's event or the passing of
time, leads to such a state. (R23, R201, spec/09_memory_levels.md) -/
def Obligations.StepKeepsInvariant : Prop :=
  ∀ s t : State, Inv s → step s = .next t → Inv t

/-- Whatever runs, a step other than a module reset leaves DCMAP and LASTSEQ as they were, leaves MEMSPLIT and every TARENA
as they were once any context has had EN = 1, and never forgets that one has; and only the passing of time moves a clock,
which is the model's own turn (log 2). (R204, R274, R425, R431, spec/22_wear_and_platform.md) -/
def Obligations.OnlyResetChangesTheModule : Prop :=
  ∀ s t : State, s.turn ≠ .event .moduleReset → step s = .next t →
    t.dcmap = s.dcmap ∧ t.lastseq = s.lastseq ∧
    (s.everEn = true → t.everEn = true ∧ t.ipool = s.ipool ∧ t.slabs = s.slabs) ∧
    ((∀ cs, s.turn ≠ .elapse cs) → t.clock = s.clock)

/-- For instructions of every operand shape: if an operand is illegal (a register at or above the count, an odd pair, a
group out of line, a latch that was not written or is narrow in a pair field), the instruction takes the illegal- operand
fault with the first such field code in AUX0; if all are legal and one awaits a load in some lane of the path, nothing
happens in the step. A compare into k0 takes the fault with code 0. When an operand is legal is stated as R15 and R57 give
it; which field is reported, and that a destination that awaits a value waits too, which R19 says of reads, is the model's
choice (log 9), and a step in which an instruction waits changes nothing (log 8). (R15, R17, R19, R45, R57,
spec/01_lane_machine.md, spec/02_instruction_words.md) -/
def Obligations.IllegalOperands : Prop :=
  (∀ (s : State) (x : Ix) (e n w : Bool) (p : Option Pfx) (d a b : BitVec 7) (o : BitVec 5) (z : BitVec 2) (c : BitVec 3),
    let wide := fun (r : Nat) => if z = 3 then Use.group r 4 4 else .reg r
    (∀ i us, (i, us) ∈ ([
        (.iadd e n p d a b, [.reg d.toNat, .src a.toNat, .src b.toNat]), (.not e n p d a, [.reg d.toNat, .src a.toNat]),
        (.imad e n p d a b, [.reg d.toNat, .src a.toNat, .src b.toNat, .src (pfxC p d)]),
        (.add64 e n p d a b, [.regPair d.toNat, .srcPair a.toNat, .srcPair b.toNat]),
        (.lea e n p d a b, [.regPair d.toNat, .srcPair a.toNat, .src b.toNat]),
        (.ffma e n p d a b, [.reg d.toNat, .src a.toNat, .src b.toNat, .src (pfxC p d)]),
        (.hadd2 e n p d a b, [.reg d.toNat, .src a.toNat, .src b.toNat]), (.sqrt e n p d a, [.reg d.toNat, .src a.toNat]),
        (.shfl e n d a b, [.reg d.toNat, .src a.toNat, .src b.toNat]), (.brz a 0, [.src a.toNat]), (.brx a, [.srcPair a.toNat]),
        (.ldg e d a o z, [wide d.toNat, .srcPair a.toNat]), (.trap a 64, [.srcPair a.toNat]), (.lds e d a o z, [wide d.toNat, .src a.toNat])] :
        List (Instr × List Use)) → Starts s x i →
      (∀ u, us.find? (fun u => !u.ok x) = some u → ∃ t, exec i s = .next t ∧
        TakesFault s t x (i.stop x.T.width ⟨2, 0, 0, u.code, 0, none⟩) (x.record 3 2 0 0 u.code 0 x.low)) ∧
      ((∀ u ∈ us, u.ok x = true) → (∃ u ∈ us, u.busy x s x.lanes = true) → exec i s = .next s)) ∧
    (∀ i, i ∈ ([.iset e p w c 0 a b, .isetz e p w c 0 a b, .fset e p 0 0 a b] : List Instr) → Starts s x i → ∃ t,
      exec i s = .next t ∧ TakesFault s t x (i.stop x.T.width ⟨2, 0, 0, 0, 0, none⟩) (x.record 3 2 0 0 0 0 x.low))) ∧
  (∀ (x : Ix) (c n al : Nat),
    let limit := if x.T.regs < 124 then x.T.regs else 124
    let latch := fun (wide : Bool) => ∃ q L, x.P.scene = some q ∧ q.latches[c - 124]? = some (some L) ∧ (wide = true → L.wide = true)
    ((Use.src c).ok x = true ↔ if c < 124 then c < limit else latch false) ∧
    ((Use.srcPair c).ok x = true ↔ if c < 124 then c % 2 = 0 ∧ c + 1 < limit else latch true) ∧
    ((Use.reg c).ok x = true ↔ c < limit) ∧ ((Use.regPair c).ok x = true ↔ c % 2 = 0 ∧ c + 1 < limit) ∧
    ((Use.group c n al).ok x = true ↔ c % al = 0 ∧ c + n ≤ limit))

/-- LDG, STG, LDP, STP, LDS and STS with usable operands: the lowest lane whose address is not a multiple of the access size
takes the alignment fault; where all are aligned, the lowest lane with a non-canonical global address takes the translation
fault with cause 7, the lowest past 16 MiB the private-range fault, the lowest past the high- water mark the private-growth
fault with the highest byte needed, the lowest outside the team's scratch the scratch- range fault. Every branch, jump and
call takes the branch-target fault of the lowest lane whose target, taken or not, is misaligned or not canonical, after its
operands, an order that is the model's choice (log 9). Nothing is read or written. (R21, R90, R155, R251, R252, R253, R211,
R216, R217, R389, spec/11_memory_instructions.md, spec/01_lane_machine.md) -/
def Obligations.AccessAndTargetFaults : Prop :=
  ∀ (s : State) (x : Ix) (e : Bool) (d a : BitVec 7) (o : BitVec 5) (z : BitVec 2) (k : BitVec 3) (g : BitVec 6) (o14 : BitVec 14)
    (o16 : BitVec 16) (o21 : BitVec 21) (o22 : BitVec 22) (l : Nat),
    let n := [1, 2, 4, 16].getD z.toNat 0
    let reg := if z = 3 then Use.group d.toNat 4 4 else .reg d.toNat
    let src := if z = 3 then Use.group d.toNat 4 4 else .src d.toNat
    let glob := fun k => ((x.srcPair a.toNat k).toNat + o.toNat * n) % 2 ^ 56
    let off := fun k => (x.src a.toNat k).toNat + o.toNat * n
    let tgt := fun k => ((x.srcPair a.toNat k).setWidth 56).toNat
    let low := fun (bad : Nat → Prop) => l ∈ x.lanes ∧ bad l ∧ ∀ k ∈ x.lanes, k < l → ¬ bad k
    let canon := fun (va : Nat) => va < 2 ^ 51 ∨ 2 ^ 56 - 2 ^ 51 ≤ va
    let faults := fun (i : Instr) (code cause addr aux : Nat) => Starts s x i → ∃ t, exec i s = .next t ∧
      TakesFault s t x (i.stop x.T.width ⟨code, cause, addr, aux, 0, some l⟩) (x.record 3 code cause addr aux 0 l)
    (∀ i us aux, (i, us, aux) ∈ ([(.ldg e d a o z, [reg, .srcPair a.toNat], 0), (.stg e d a o z, [src, .srcPair a.toNat], 1)] :
        List (Instr × List Use × Nat)) → Usable s x us →
      (low (fun k => glob k % n ≠ 0) → faults i 10 0 (glob l) 0) ∧
      ((∀ k ∈ x.lanes, glob k % n = 0) → low (fun k => ¬ canon (glob k)) → faults i 14 7 (glob l) aux)) ∧
    (∀ i us, (i, us) ∈ ([(.ldp e d a o z, [reg, .src a.toNat]), (.stp e d a o z, [src, .src a.toNat])] : List (Instr × List Use)) →
      Usable s x us →
      (low (fun k => off k % n ≠ 0) → faults i 10 0 (off l) 0) ∧
      ((∀ k ∈ x.lanes, off k % n = 0) → low (fun k => 2 ^ 24 < off k + n) → faults i 12 0 (off l) 0) ∧
      ((∀ k ∈ x.lanes, off k % n = 0 ∧ off k + n ≤ 2 ^ 24) → low (fun k => 1024 * x.W.phw < off k + n) →
        ∀ k ∈ x.lanes, (∀ j ∈ x.lanes, off j ≤ off k) → faults i 13 0 (off k + n - 1) 0)) ∧
    (∀ i us, (i, us) ∈ ([(.lds e d a o z, [reg, .src a.toNat]), (.sts e d a o z, [src, .src a.toNat])] : List (Instr × List Use)) →
      Usable s x us → x.P.done = 0 →
      (low (fun k => off k % n ≠ 0) → faults i 10 0 (off l) 0) ∧
      ((∀ k ∈ x.lanes, off k % n = 0) → low (fun k => 2 ^ 32 ≤ off k ∨ x.T.scratchAt (off k) n = none) → faults i 11 0 (off l) 0)) ∧
    (let rel := fun (o : Int) (_ : Nat) => (x.P.pc + BitVec.ofInt 56 (4 * o)).toNat
     ∀ i us gs dst, (i, us, gs, dst) ∈ ([(.brx a, [.srcPair a.toNat], [], tgt), (.callx a, [.srcPair a.toNat], [], tgt),
         (.br o21, [], [], rel o21.toInt), (.call o21, [], [], rel o21.toInt), (.brm k o14, [], [], rel o14.toInt),
         (.brz a o14, [.src a.toNat], [], rel o14.toInt), (.brnz a o14, [.src a.toNat], [], rel o14.toInt),
         (.jmp o22, [], [], rel o22.toInt), (.jz g o16, [], [g.toNat], rel o16.toInt), (.jnz g o16, [], [g.toNat], rel o16.toInt),
         (.gcall o22, [], [], rel o22.toInt), (.gcallRegister g, [], [g.toNat], fun _ => ((x.W.greg g.toNat).setWidth 56).toNat)] :
         List (Instr × List Use × List Nat × (Nat → Nat))) →
       Usable s x us → UsableG s x gs → low (fun k => dst k % 4 ≠ 0 ∨ ¬ canon (dst k)) → faults i 3 0 (dst l) 0)

/-- A legal instruction within its scene's length that is reserved to another role than the warp's raises the role fault
(code 6) at that instruction, whatever its operands, its prefix and the state of any engine; the record names the warp's
role and the opcode. One that breaks an encoding rule too raises the illegal-instruction fault instead. No word takes
effect. (R147) -/
def Obligations.RoleFault : Prop :=
  ∀ (s : State) (x : Ix) (i : Instr) (r : Role), s.issuing = some x → i.role? = some r → x.W.role ≠ r →
    let pfx := (i.prefix?.map pfxWord).getD 0
    let role := match x.W.role with | .copy => 0 | .matrix => 1 | .vector => 2
    let op := if i.word1 < 2 ^ 31 then i.word1 / 2 ^ 21 % 2 ^ 8 else i.word1 / 2 ^ 22 % 2 ^ 7
    let faults := fun (t : Trap) => ∃ u, exec i s = .next u ∧
      TakesFault s u x (i.stop x.T.width t) (x.record 3 t.code t.cause t.addr t.aux0 t.aux1 x.low)
    (i.wf = true → overlong x i = false → faults ⟨6, role, 0, op, 0, none⟩) ∧
    ((i.wf = false ∨ overlong x i = true) → faults ⟨1, 0, i.word1, i.ext?.getD 0, pfx, none⟩)

/-- A read takes a free semaphore for the reader's agent and returns GOT = 1; a read by the owner returns GOT = 1 and
changes nothing; any other read returns GOT = 0 and changes nothing; OWNER is the owner after the read. A write by the owner
frees the semaphore whatever it writes; a write by another agent frees it only with BREAK = 1, and else is ignored. A
semaphore is free at reset. Nothing else changes: taking or freeing one is neither an acquire nor a release. That a 4-byte
access to the half that holds the fields is the access, and that a device's write fires the monitors of its line, are logs
16 and 23. (R271, R414, R415, R418) -/
def Obligations.Semaphores : Prop :=
  ∀ (s : State) (agent : BitVec 2) (n v pa : Nat) (wide : Bool), n < 32 → agent ≠ 0 →
    let o := tget 0 s.sems n
    let off := 0x4000 + 8 * n
    let r := s.regRead agent off wide
    let u := s.regWrite agent off wide v
    let now := fun (t : State) (o' : BitVec 2) =>
      t = { s with sems := t.sems } ∧ ∀ m, tget 0 t.sems m = if m = n then o' else tget 0 s.sems m
    (o = 0 → now r.1 agent ∧ r.2 = 1 + 2 * agent.toNat) ∧ (o = agent → now r.1 o ∧ r.2 = 1 + 2 * o.toNat) ∧
    (o ≠ 0 → o ≠ agent → now r.1 o ∧ r.2 = 2 * o.toNat) ∧ ((o = agent ∨ v.testBit 4 = true) → now u 0) ∧
    (o ≠ agent → v.testBit 4 = false → u = s) ∧ tget 0 State.reset.sems n = 0 ∧
    (regionOf pa = 2 → pa % 2 ^ 48 = off → ∀ out, s.devRead pa out = ((s.regRead 3 off false).1, some (s.regRead 3 off false).2) ∧
      s.devWrite pa v out = (s.regWrite 3 off false v).fireReg 3 off)
end

