-- ==== Sys2Proof/Laws/Table.lean ====
section
/-! SUPPORT. Sparse tables: a read after a write, and that every operation keeps the canonical form. -/

namespace Sys2Proof.Machine

set_option Elab.async false

variable {α : Type}

theorem tget_terase (d : α) (t : Table α) (i j : Nat) : tget d (terase t i) j = if j = i then d else tget d t j := by
  induction t with
  | nil => simp [terase, tget]
  | cons e t ih =>
    obtain ⟨k, v⟩ := e
    by_cases hk : k = i
    · subst hk
      by_cases hj : j = k
      · subst hj; simpa [terase, tget] using ih
      · have : ¬ k = j := fun h => hj h.symm
        simpa [terase, tget, hj, this] using ih
    · by_cases hj : k = j
      · subst hj; simp [terase, tget, hk]
      · simpa [terase, tget, hk, hj] using ih

theorem tget_tinsert (d : α) (t : Table α) (i j : Nat) (x : α) (h : ∀ e ∈ t, e.1 ≠ i) :
    tget d (tinsert t i x) j = if j = i then x else tget d t j := by
  induction t with
  | nil =>
    by_cases hj : j = i
    · simp [tinsert, tget, hj]
    · have : ¬ i = j := fun h => hj h.symm
      simp [tinsert, tget, hj, this]
  | cons e t ih =>
    obtain ⟨k, v⟩ := e
    have hk : k ≠ i := h (k, v) (by simp)
    have ih := ih fun e he => h e (by simp [he])
    unfold tinsert
    split
    · by_cases hj : j = i
      · simp [tget, hj]
      · have : ¬ i = j := fun h => hj h.symm
        simp [tget, hj, this]
    · by_cases hj : k = j
      · subst hj; simp [tget, hk]
      · simp [tget, hj, ih]

theorem terase_keys (t : Table α) (i : Nat) : ∀ e ∈ terase t i, e.1 ≠ i ∧ e ∈ t := by
  induction t with
  | nil => simp [terase]
  | cons e t ih =>
    obtain ⟨k, v⟩ := e
    intro f hf
    by_cases hk : k = i
    · simp only [terase, hk, if_pos] at hf
      exact ⟨(ih f hf).1, by simp [(ih f hf).2]⟩
    · simp only [terase, hk, if_false, List.mem_cons] at hf
      rcases hf with rfl | hf
      · exact ⟨hk, by simp⟩
      · exact ⟨(ih f hf).1, by simp [(ih f hf).2]⟩

/-- A read after a write. -/
theorem tget_tput [DecidableEq α] (d : α) (t : Table α) (i j : Nat) (x : α) :
    tget d (tput d t i x) j = if j = i then x else tget d t j := by
  unfold tput
  split
  · next h => rw [tget_terase]; split <;> simp_all
  · rw [tget_tinsert _ _ _ _ _ fun e he => (terase_keys t i e he).1, tget_terase]
    split <;> simp_all

@[simp] theorem tget_tput_same [DecidableEq α] (d : α) (t : Table α) (i : Nat) (x : α) : tget d (tput d t i x) i = x := by
  simp [tget_tput]

theorem tget_tput_ne [DecidableEq α] (d : α) (t : Table α) {i j : Nat} (x : α) (h : j ≠ i) :
    tget d (tput d t i x) j = tget d t j := by simp [tget_tput, h]

@[simp] theorem tget_nil (d : α) (i : Nat) : tget d ([] : Table α) i = d := rfl

theorem twfFrom_mono [DecidableEq α] (d : α) {lo lo' : Nat} (h : lo' ≤ lo) :
    ∀ {t : Table α}, twfFrom d lo t = true → twfFrom d lo' t = true
  | [], _ => rfl
  | (k, v) :: t, ht => by
    simp only [twfFrom, Bool.and_eq_true, decide_eq_true_eq] at ht ⊢
    exact ⟨⟨by omega, ht.1.2⟩, ht.2⟩

theorem twfFrom_terase [DecidableEq α] (d : α) (i : Nat) :
    ∀ {t : Table α} {lo : Nat}, twfFrom d lo t = true → twfFrom d lo (terase t i) = true
  | [], _, _ => rfl
  | (k, v) :: t, lo, h => by
    simp only [twfFrom, Bool.and_eq_true, decide_eq_true_eq] at h
    have ih := twfFrom_terase d i h.2
    unfold terase
    split
    · exact twfFrom_mono d (by omega) ih
    · simp only [twfFrom, Bool.and_eq_true, decide_eq_true_eq]
      exact ⟨h.1, ih⟩

theorem twfFrom_tinsert [DecidableEq α] (d : α) (i : Nat) (x : α) (hx : x ≠ d) :
    ∀ {t : Table α} {lo : Nat}, lo ≤ i → (∀ e ∈ t, e.1 ≠ i) → twfFrom d lo t = true → twfFrom d lo (tinsert t i x) = true
  | [], lo, hlo, _, _ => by simp [tinsert, twfFrom, hlo, hx]
  | (k, v) :: t, lo, hlo, hk, h => by
    simp only [twfFrom, Bool.and_eq_true, decide_eq_true_eq] at h
    have hki : k ≠ i := hk (k, v) (by simp)
    unfold tinsert
    split
    · simp only [twfFrom, Bool.and_eq_true, decide_eq_true_eq]
      exact ⟨⟨hlo, hx⟩, ⟨by omega, h.1.2⟩, h.2⟩
    · simp only [twfFrom, Bool.and_eq_true, decide_eq_true_eq]
      exact ⟨h.1, twfFrom_tinsert d i x hx (by omega) (fun e he => hk e (by simp [he])) h.2⟩

/-- A write keeps the canonical form. -/
theorem twf_tput [DecidableEq α] {d : α} {t : Table α} (i : Nat) (x : α) (h : twf d t = true) :
    twf d (tput d t i x) = true := by
  unfold tput
  split
  · exact twfFrom_terase d i h
  · next hx => exact twfFrom_tinsert d i x hx (Nat.zero_le _) (fun e he => (terase_keys t i e he).1) (twfFrom_terase d i h)

theorem twf_tputs [DecidableEq α] {d : α} : ∀ (l : List (Nat × α)) {t : Table α}, twf d t = true → twf d (tputs d t l) = true
  | [], _, h => h
  | (i, x) :: l, _, h => twf_tputs l (twf_tput i x h)

theorem twfFrom_filter [DecidableEq α] (d : α) (f : Nat × α → Bool) :
    ∀ {t : Table α} {lo : Nat}, twfFrom d lo t = true → twfFrom d lo (t.filter f) = true
  | [], _, _ => rfl
  | (k, v) :: t, lo, h => by
    simp only [twfFrom, Bool.and_eq_true, decide_eq_true_eq] at h
    have ih := twfFrom_filter d f h.2
    by_cases hf : f (k, v) = true
    · simp only [List.filter_cons, hf, if_true, twfFrom, Bool.and_eq_true, decide_eq_true_eq]
      exact ⟨h.1, ih⟩
    · simp only [List.filter_cons, hf]
      exact twfFrom_mono d (by omega) ih

theorem twf_tclear [DecidableEq α] {d : α} {t : Table α} (lo hi : Nat) (h : twf d t = true) : twf d (tclear t lo hi) = true :=
  twfFrom_filter d _ h

theorem twf_foldl_tput [DecidableEq α] {β : Type} {d : α} (k : β → Nat) (v : β → α) :
    ∀ (l : List β) {t : Table α}, twf d t = true → twf d (l.foldl (fun t b => tput d t (k b) (v b)) t) = true
  | [], _, h => h
  | b :: l, _, h => twf_foldl_tput k v l (twf_tput (k b) (v b) h)

/-- The canonical form determines a table: equal reads, equal tables. -/
theorem tget_lt [DecidableEq α] (d : α) : ∀ {t : Table α} {lo i : Nat}, twfFrom d lo t = true → i < lo → tget d t i = d
  | [], _, _, _, _ => rfl
  | (k, v) :: t, lo, i, h, hi => by
    simp only [twfFrom, Bool.and_eq_true, decide_eq_true_eq] at h
    have : ¬ k = i := by omega
    simp only [tget, this, if_false]
    exact tget_lt d h.2 (by omega)

theorem twfFrom_ext [DecidableEq α] (d : α) : ∀ {t u : Table α} {lo : Nat}, twfFrom d lo t = true → twfFrom d lo u = true →
    (∀ i, tget d t i = tget d u i) → t = u
  | [], [], _, _, _, _ => rfl
  | [], (k, v) :: u, lo, _, hu, h => by
    have hk := h k
    simp only [twfFrom, Bool.and_eq_true, decide_eq_true_eq] at hu
    simp only [tget, if_true] at hk
    exact absurd hk.symm hu.1.2
  | (k, v) :: t, [], lo, ht, _, h => by
    have hk := h k
    simp only [twfFrom, Bool.and_eq_true, decide_eq_true_eq] at ht
    simp only [tget, if_true] at hk
    exact absurd hk ht.1.2
  | (k, v) :: t, (m, w) :: u, lo, ht, hu, h => by
    simp only [twfFrom, Bool.and_eq_true, decide_eq_true_eq] at ht hu
    have hkm : k = m := by
      rcases Nat.lt_trichotomy k m with hlt | heq | hgt
      · have hk := h k
        have hm : ¬ m = k := by omega
        simp only [tget, if_true, hm, if_false] at hk
        rw [tget_lt d hu.2 (by omega)] at hk
        exact absurd hk ht.1.2
      · exact heq
      · have hm := h m
        have hk : ¬ k = m := by omega
        simp only [tget, if_true, hk, if_false] at hm
        rw [tget_lt d ht.2 (by omega)] at hm
        exact absurd hm.symm hu.1.2
    subst hkm
    have hv : v = w := by have := h k; simpa [tget] using this
    subst hv
    have htu : t = u := twfFrom_ext d ht.2 hu.2 fun i => by
      have hi := h i
      simp only [tget] at hi
      by_cases hki : k = i
      · rw [tget_lt d ht.2 (by omega), tget_lt d hu.2 (by omega)]
      · simpa [hki] using hi
    rw [htu]

theorem twf_ext [DecidableEq α] {d : α} {t u : Table α} (ht : twf d t = true) (hu : twf d u = true)
    (h : ∀ i, tget d t i = tget d u i) : t = u := twfFrom_ext d ht hu h

end Sys2Proof.Machine
end

