-- ==== Sys2Proof/Laws/State.lean ====
section
/-! SUPPORT. One lemma per field per update of the state, and reads of warps and teams after writes. -/

namespace Sys2Proof.Machine

set_option Elab.async false
@[simp] theorem State.setWarp_mem (s : State) (w : Nat) (W : Warp) : (s.setWarp w W).mem = s.mem := rfl
@[simp] theorem State.setWarp_mscHeld (s : State) (w : Nat) (W : Warp) : (s.setWarp w W).mscHeld = s.mscHeld := rfl
@[simp] theorem State.setWarp_mscDirty (s : State) (w : Nat) (W : Warp) : (s.setWarp w W).mscDirty = s.mscDirty := rfl
@[simp] theorem State.setWarp_dirty (s : State) (w : Nat) (W : Warp) : (s.setWarp w W).dirty = s.dirty := rfl
@[simp] theorem State.setWarp_dir (s : State) (w : Nat) (W : Warp) : (s.setWarp w W).dir = s.dir := rfl
@[simp] theorem State.setWarp_olds (s : State) (w : Nat) (W : Warp) : (s.setWarp w W).olds = s.olds := rfl
@[simp] theorem State.setWarp_rels (s : State) (w : Nat) (W : Warp) : (s.setWarp w W).rels = s.rels := rfl
@[simp] theorem State.setWarp_l1 (s : State) (w : Nat) (W : Warp) : (s.setWarp w W).l1 = s.l1 := rfl
@[simp] theorem State.setWarp_tlb (s : State) (w : Nat) (W : Warp) : (s.setWarp w W).tlb = s.tlb := rfl
@[simp] theorem State.setWarp_scratch (s : State) (w : Nat) (W : Warp) : (s.setWarp w W).scratch = s.scratch := rfl
@[simp] theorem State.setWarp_empty (s : State) (w : Nat) (W : Warp) : (s.setWarp w W).empty = s.empty := rfl
@[simp] theorem State.setWarp_banks (s : State) (w : Nat) (W : Warp) : (s.setWarp w W).banks = s.banks := rfl
@[simp] theorem State.setWarp_teams (s : State) (w : Nat) (W : Warp) : (s.setWarp w W).teams = s.teams := rfl
@[simp] theorem State.setWarp_copies (s : State) (w : Nat) (W : Warp) : (s.setWarp w W).copies = s.copies := rfl
@[simp] theorem State.setWarp_casts (s : State) (w : Nat) (W : Warp) : (s.setWarp w W).casts = s.casts := rfl
@[simp] theorem State.setWarp_loads (s : State) (w : Nat) (W : Warp) : (s.setWarp w W).loads = s.loads := rfl
@[simp] theorem State.setWarp_stores (s : State) (w : Nat) (W : Warp) : (s.setWarp w W).stores = s.stores := rfl
@[simp] theorem State.setWarp_launches (s : State) (w : Nat) (W : Warp) : (s.setWarp w W).launches = s.launches := rfl
@[simp] theorem State.setWarp_nextLaunch (s : State) (w : Nat) (W : Warp) : (s.setWarp w W).nextLaunch = s.nextLaunch := rfl
@[simp] theorem State.setWarp_offers (s : State) (w : Nat) (W : Warp) : (s.setWarp w W).offers = s.offers := rfl
@[simp] theorem State.setWarp_origin (s : State) (w : Nat) (W : Warp) : (s.setWarp w W).origin = s.origin := rfl
@[simp] theorem State.setWarp_gang (s : State) (w : Nat) (W : Warp) : (s.setWarp w W).gang = s.gang := rfl
@[simp] theorem State.setWarp_windows (s : State) (w : Nat) (W : Warp) : (s.setWarp w W).windows = s.windows := rfl
@[simp] theorem State.setWarp_ctxs (s : State) (w : Nat) (W : Warp) : (s.setWarp w W).ctxs = s.ctxs := rfl
@[simp] theorem State.setWarp_everEn (s : State) (w : Nat) (W : Warp) : (s.setWarp w W).everEn = s.everEn := rfl
@[simp] theorem State.setWarp_handles (s : State) (w : Nat) (W : Warp) : (s.setWarp w W).handles = s.handles := rfl
@[simp] theorem State.setWarp_prompts (s : State) (w : Nat) (W : Warp) : (s.setWarp w W).prompts = s.prompts := rfl
@[simp] theorem State.setWarp_strikes (s : State) (w : Nat) (W : Warp) : (s.setWarp w W).strikes = s.strikes := rfl
@[simp] theorem State.setWarp_ipool (s : State) (w : Nat) (W : Warp) : (s.setWarp w W).ipool = s.ipool := rfl
@[simp] theorem State.setWarp_slabs (s : State) (w : Nat) (W : Warp) : (s.setWarp w W).slabs = s.slabs := rfl
@[simp] theorem State.setWarp_relMask (s : State) (w : Nat) (W : Warp) : (s.setWarp w W).relMask = s.relMask := rfl
@[simp] theorem State.setWarp_relCtx (s : State) (w : Nat) (W : Warp) : (s.setWarp w W).relCtx = s.relCtx := rfl
@[simp] theorem State.setWarp_ports (s : State) (w : Nat) (W : Warp) : (s.setWarp w W).ports = s.ports := rfl
@[simp] theorem State.setWarp_sems (s : State) (w : Nat) (W : Warp) : (s.setWarp w W).sems = s.sems := rfl
@[simp] theorem State.setWarp_peers (s : State) (w : Nat) (W : Warp) : (s.setWarp w W).peers = s.peers := rfl
@[simp] theorem State.setWarp_sent (s : State) (w : Nat) (W : Warp) : (s.setWarp w W).sent = s.sent := rfl
@[simp] theorem State.setWarp_reply (s : State) (w : Nat) (W : Warp) : (s.setWarp w W).reply = s.reply := rfl
@[simp] theorem State.setWarp_cores (s : State) (w : Nat) (W : Warp) : (s.setWarp w W).cores = s.cores := rfl
@[simp] theorem State.setWarp_wear (s : State) (w : Nat) (W : Warp) : (s.setWarp w W).wear = s.wear := rfl
@[simp] theorem State.setWarp_dcmap (s : State) (w : Nat) (W : Warp) : (s.setWarp w W).dcmap = s.dcmap := rfl
@[simp] theorem State.setWarp_lastseq (s : State) (w : Nat) (W : Warp) : (s.setWarp w W).lastseq = s.lastseq := rfl
@[simp] theorem State.setWarp_policy (s : State) (w : Nat) (W : Warp) : (s.setWarp w W).policy = s.policy := rfl
@[simp] theorem State.setWarp_armed (s : State) (w : Nat) (W : Warp) : (s.setWarp w W).armed = s.armed := rfl
@[simp] theorem State.setWarp_polBad (s : State) (w : Nat) (W : Warp) : (s.setWarp w W).polBad = s.polBad := rfl
@[simp] theorem State.setWarp_nonce (s : State) (w : Nat) (W : Warp) : (s.setWarp w W).nonce = s.nonce := rfl
@[simp] theorem State.setWarp_attBusy (s : State) (w : Nat) (W : Warp) : (s.setWarp w W).attBusy = s.attBusy := rfl
@[simp] theorem State.setWarp_attNonce (s : State) (w : Nat) (W : Warp) : (s.setWarp w W).attNonce = s.attNonce := rfl
@[simp] theorem State.setWarp_report (s : State) (w : Nat) (W : Warp) : (s.setWarp w W).report = s.report := rfl
@[simp] theorem State.setWarp_watts (s : State) (w : Nat) (W : Warp) : (s.setWarp w W).watts = s.watts := rfl
@[simp] theorem State.setWarp_temps (s : State) (w : Nat) (W : Warp) : (s.setWarp w W).temps = s.temps := rfl
@[simp] theorem State.setWarp_thr (s : State) (w : Nat) (W : Warp) : (s.setWarp w W).thr = s.thr := rfl
@[simp] theorem State.setWarp_throttled (s : State) (w : Nat) (W : Warp) : (s.setWarp w W).throttled = s.throttled := rfl
@[simp] theorem State.setWarp_clock (s : State) (w : Nat) (W : Warp) : (s.setWarp w W).clock = s.clock := rfl
@[simp] theorem State.setWarp_agenda (s : State) (w : Nat) (W : Warp) : (s.setWarp w W).agenda = s.agenda := rfl
@[simp] theorem State.setWarp_cur (s : State) (w : Nat) (W : Warp) : (s.setWarp w W).cur = s.cur := rfl
@[simp] theorem State.setWarp_nextId (s : State) (w : Nat) (W : Warp) : (s.setWarp w W).nextId = s.nextId := rfl
@[simp] theorem State.setWarp_free (s : State) (w : Nat) (W : Warp) : (s.setWarp w W).free = s.free := rfl

@[simp] theorem State.setTeam_mem (s : State) (k : Nat) (T : Team) : (s.setTeam k T).mem = s.mem := rfl
@[simp] theorem State.setTeam_mscHeld (s : State) (k : Nat) (T : Team) : (s.setTeam k T).mscHeld = s.mscHeld := rfl
@[simp] theorem State.setTeam_mscDirty (s : State) (k : Nat) (T : Team) : (s.setTeam k T).mscDirty = s.mscDirty := rfl
@[simp] theorem State.setTeam_dirty (s : State) (k : Nat) (T : Team) : (s.setTeam k T).dirty = s.dirty := rfl
@[simp] theorem State.setTeam_dir (s : State) (k : Nat) (T : Team) : (s.setTeam k T).dir = s.dir := rfl
@[simp] theorem State.setTeam_olds (s : State) (k : Nat) (T : Team) : (s.setTeam k T).olds = s.olds := rfl
@[simp] theorem State.setTeam_rels (s : State) (k : Nat) (T : Team) : (s.setTeam k T).rels = s.rels := rfl
@[simp] theorem State.setTeam_l1 (s : State) (k : Nat) (T : Team) : (s.setTeam k T).l1 = s.l1 := rfl
@[simp] theorem State.setTeam_tlb (s : State) (k : Nat) (T : Team) : (s.setTeam k T).tlb = s.tlb := rfl
@[simp] theorem State.setTeam_scratch (s : State) (k : Nat) (T : Team) : (s.setTeam k T).scratch = s.scratch := rfl
@[simp] theorem State.setTeam_empty (s : State) (k : Nat) (T : Team) : (s.setTeam k T).empty = s.empty := rfl
@[simp] theorem State.setTeam_banks (s : State) (k : Nat) (T : Team) : (s.setTeam k T).banks = s.banks := rfl
@[simp] theorem State.setTeam_warps (s : State) (k : Nat) (T : Team) : (s.setTeam k T).warps = s.warps := rfl
@[simp] theorem State.setTeam_copies (s : State) (k : Nat) (T : Team) : (s.setTeam k T).copies = s.copies := rfl
@[simp] theorem State.setTeam_casts (s : State) (k : Nat) (T : Team) : (s.setTeam k T).casts = s.casts := rfl
@[simp] theorem State.setTeam_loads (s : State) (k : Nat) (T : Team) : (s.setTeam k T).loads = s.loads := rfl
@[simp] theorem State.setTeam_stores (s : State) (k : Nat) (T : Team) : (s.setTeam k T).stores = s.stores := rfl
@[simp] theorem State.setTeam_launches (s : State) (k : Nat) (T : Team) : (s.setTeam k T).launches = s.launches := rfl
@[simp] theorem State.setTeam_nextLaunch (s : State) (k : Nat) (T : Team) : (s.setTeam k T).nextLaunch = s.nextLaunch := rfl
@[simp] theorem State.setTeam_offers (s : State) (k : Nat) (T : Team) : (s.setTeam k T).offers = s.offers := rfl
@[simp] theorem State.setTeam_origin (s : State) (k : Nat) (T : Team) : (s.setTeam k T).origin = s.origin := rfl
@[simp] theorem State.setTeam_gang (s : State) (k : Nat) (T : Team) : (s.setTeam k T).gang = s.gang := rfl
@[simp] theorem State.setTeam_windows (s : State) (k : Nat) (T : Team) : (s.setTeam k T).windows = s.windows := rfl
@[simp] theorem State.setTeam_ctxs (s : State) (k : Nat) (T : Team) : (s.setTeam k T).ctxs = s.ctxs := rfl
@[simp] theorem State.setTeam_everEn (s : State) (k : Nat) (T : Team) : (s.setTeam k T).everEn = s.everEn := rfl
@[simp] theorem State.setTeam_handles (s : State) (k : Nat) (T : Team) : (s.setTeam k T).handles = s.handles := rfl
@[simp] theorem State.setTeam_prompts (s : State) (k : Nat) (T : Team) : (s.setTeam k T).prompts = s.prompts := rfl
@[simp] theorem State.setTeam_strikes (s : State) (k : Nat) (T : Team) : (s.setTeam k T).strikes = s.strikes := rfl
@[simp] theorem State.setTeam_ipool (s : State) (k : Nat) (T : Team) : (s.setTeam k T).ipool = s.ipool := rfl
@[simp] theorem State.setTeam_slabs (s : State) (k : Nat) (T : Team) : (s.setTeam k T).slabs = s.slabs := rfl
@[simp] theorem State.setTeam_relMask (s : State) (k : Nat) (T : Team) : (s.setTeam k T).relMask = s.relMask := rfl
@[simp] theorem State.setTeam_relCtx (s : State) (k : Nat) (T : Team) : (s.setTeam k T).relCtx = s.relCtx := rfl
@[simp] theorem State.setTeam_ports (s : State) (k : Nat) (T : Team) : (s.setTeam k T).ports = s.ports := rfl
@[simp] theorem State.setTeam_sems (s : State) (k : Nat) (T : Team) : (s.setTeam k T).sems = s.sems := rfl
@[simp] theorem State.setTeam_peers (s : State) (k : Nat) (T : Team) : (s.setTeam k T).peers = s.peers := rfl
@[simp] theorem State.setTeam_sent (s : State) (k : Nat) (T : Team) : (s.setTeam k T).sent = s.sent := rfl
@[simp] theorem State.setTeam_reply (s : State) (k : Nat) (T : Team) : (s.setTeam k T).reply = s.reply := rfl
@[simp] theorem State.setTeam_cores (s : State) (k : Nat) (T : Team) : (s.setTeam k T).cores = s.cores := rfl
@[simp] theorem State.setTeam_wear (s : State) (k : Nat) (T : Team) : (s.setTeam k T).wear = s.wear := rfl
@[simp] theorem State.setTeam_dcmap (s : State) (k : Nat) (T : Team) : (s.setTeam k T).dcmap = s.dcmap := rfl
@[simp] theorem State.setTeam_lastseq (s : State) (k : Nat) (T : Team) : (s.setTeam k T).lastseq = s.lastseq := rfl
@[simp] theorem State.setTeam_policy (s : State) (k : Nat) (T : Team) : (s.setTeam k T).policy = s.policy := rfl
@[simp] theorem State.setTeam_armed (s : State) (k : Nat) (T : Team) : (s.setTeam k T).armed = s.armed := rfl
@[simp] theorem State.setTeam_polBad (s : State) (k : Nat) (T : Team) : (s.setTeam k T).polBad = s.polBad := rfl
@[simp] theorem State.setTeam_nonce (s : State) (k : Nat) (T : Team) : (s.setTeam k T).nonce = s.nonce := rfl
@[simp] theorem State.setTeam_attBusy (s : State) (k : Nat) (T : Team) : (s.setTeam k T).attBusy = s.attBusy := rfl
@[simp] theorem State.setTeam_attNonce (s : State) (k : Nat) (T : Team) : (s.setTeam k T).attNonce = s.attNonce := rfl
@[simp] theorem State.setTeam_report (s : State) (k : Nat) (T : Team) : (s.setTeam k T).report = s.report := rfl
@[simp] theorem State.setTeam_watts (s : State) (k : Nat) (T : Team) : (s.setTeam k T).watts = s.watts := rfl
@[simp] theorem State.setTeam_temps (s : State) (k : Nat) (T : Team) : (s.setTeam k T).temps = s.temps := rfl
@[simp] theorem State.setTeam_thr (s : State) (k : Nat) (T : Team) : (s.setTeam k T).thr = s.thr := rfl
@[simp] theorem State.setTeam_throttled (s : State) (k : Nat) (T : Team) : (s.setTeam k T).throttled = s.throttled := rfl
@[simp] theorem State.setTeam_clock (s : State) (k : Nat) (T : Team) : (s.setTeam k T).clock = s.clock := rfl
@[simp] theorem State.setTeam_agenda (s : State) (k : Nat) (T : Team) : (s.setTeam k T).agenda = s.agenda := rfl
@[simp] theorem State.setTeam_cur (s : State) (k : Nat) (T : Team) : (s.setTeam k T).cur = s.cur := rfl
@[simp] theorem State.setTeam_nextId (s : State) (k : Nat) (T : Team) : (s.setTeam k T).nextId = s.nextId := rfl
@[simp] theorem State.setTeam_free (s : State) (k : Nat) (T : Team) : (s.setTeam k T).free = s.free := rfl

@[simp] theorem State.begin_mem (s : State) : (s.begin).mem = s.mem := rfl
@[simp] theorem State.begin_mscHeld (s : State) : (s.begin).mscHeld = s.mscHeld := rfl
@[simp] theorem State.begin_mscDirty (s : State) : (s.begin).mscDirty = s.mscDirty := rfl
@[simp] theorem State.begin_dirty (s : State) : (s.begin).dirty = s.dirty := rfl
@[simp] theorem State.begin_dir (s : State) : (s.begin).dir = s.dir := rfl
@[simp] theorem State.begin_olds (s : State) : (s.begin).olds = s.olds := rfl
@[simp] theorem State.begin_rels (s : State) : (s.begin).rels = s.rels := rfl
@[simp] theorem State.begin_l1 (s : State) : (s.begin).l1 = s.l1 := rfl
@[simp] theorem State.begin_tlb (s : State) : (s.begin).tlb = s.tlb := rfl
@[simp] theorem State.begin_scratch (s : State) : (s.begin).scratch = s.scratch := rfl
@[simp] theorem State.begin_empty (s : State) : (s.begin).empty = s.empty := rfl
@[simp] theorem State.begin_banks (s : State) : (s.begin).banks = s.banks := rfl
@[simp] theorem State.begin_teams (s : State) : (s.begin).teams = s.teams := rfl
@[simp] theorem State.begin_warps (s : State) : (s.begin).warps = s.warps := rfl
@[simp] theorem State.begin_copies (s : State) : (s.begin).copies = s.copies := rfl
@[simp] theorem State.begin_casts (s : State) : (s.begin).casts = s.casts := rfl
@[simp] theorem State.begin_loads (s : State) : (s.begin).loads = s.loads := rfl
@[simp] theorem State.begin_stores (s : State) : (s.begin).stores = s.stores := rfl
@[simp] theorem State.begin_launches (s : State) : (s.begin).launches = s.launches := rfl
@[simp] theorem State.begin_nextLaunch (s : State) : (s.begin).nextLaunch = s.nextLaunch := rfl
@[simp] theorem State.begin_offers (s : State) : (s.begin).offers = s.offers := rfl
@[simp] theorem State.begin_origin (s : State) : (s.begin).origin = s.origin := rfl
@[simp] theorem State.begin_gang (s : State) : (s.begin).gang = s.gang := rfl
@[simp] theorem State.begin_windows (s : State) : (s.begin).windows = s.windows := rfl
@[simp] theorem State.begin_ctxs (s : State) : (s.begin).ctxs = s.ctxs := rfl
@[simp] theorem State.begin_everEn (s : State) : (s.begin).everEn = s.everEn := rfl
@[simp] theorem State.begin_handles (s : State) : (s.begin).handles = s.handles := rfl
@[simp] theorem State.begin_prompts (s : State) : (s.begin).prompts = s.prompts := rfl
@[simp] theorem State.begin_strikes (s : State) : (s.begin).strikes = s.strikes := rfl
@[simp] theorem State.begin_ipool (s : State) : (s.begin).ipool = s.ipool := rfl
@[simp] theorem State.begin_slabs (s : State) : (s.begin).slabs = s.slabs := rfl
@[simp] theorem State.begin_relMask (s : State) : (s.begin).relMask = s.relMask := rfl
@[simp] theorem State.begin_relCtx (s : State) : (s.begin).relCtx = s.relCtx := rfl
@[simp] theorem State.begin_ports (s : State) : (s.begin).ports = s.ports := rfl
@[simp] theorem State.begin_sems (s : State) : (s.begin).sems = s.sems := rfl
@[simp] theorem State.begin_peers (s : State) : (s.begin).peers = s.peers := rfl
@[simp] theorem State.begin_sent (s : State) : (s.begin).sent = s.sent := rfl
@[simp] theorem State.begin_reply (s : State) : (s.begin).reply = s.reply := rfl
@[simp] theorem State.begin_cores (s : State) : (s.begin).cores = s.cores := rfl
@[simp] theorem State.begin_wear (s : State) : (s.begin).wear = s.wear := rfl
@[simp] theorem State.begin_dcmap (s : State) : (s.begin).dcmap = s.dcmap := rfl
@[simp] theorem State.begin_lastseq (s : State) : (s.begin).lastseq = s.lastseq := rfl
@[simp] theorem State.begin_policy (s : State) : (s.begin).policy = s.policy := rfl
@[simp] theorem State.begin_armed (s : State) : (s.begin).armed = s.armed := rfl
@[simp] theorem State.begin_polBad (s : State) : (s.begin).polBad = s.polBad := rfl
@[simp] theorem State.begin_nonce (s : State) : (s.begin).nonce = s.nonce := rfl
@[simp] theorem State.begin_attBusy (s : State) : (s.begin).attBusy = s.attBusy := rfl
@[simp] theorem State.begin_attNonce (s : State) : (s.begin).attNonce = s.attNonce := rfl
@[simp] theorem State.begin_report (s : State) : (s.begin).report = s.report := rfl
@[simp] theorem State.begin_watts (s : State) : (s.begin).watts = s.watts := rfl
@[simp] theorem State.begin_temps (s : State) : (s.begin).temps = s.temps := rfl
@[simp] theorem State.begin_thr (s : State) : (s.begin).thr = s.thr := rfl
@[simp] theorem State.begin_throttled (s : State) : (s.begin).throttled = s.throttled := rfl
@[simp] theorem State.begin_clock (s : State) : (s.begin).clock = s.clock := rfl
@[simp] theorem State.begin_cur (s : State) : (s.begin).cur = s.cur := rfl
@[simp] theorem State.begin_nextId (s : State) : (s.begin).nextId = s.nextId := rfl

@[simp] theorem State.mapWarps_mem (s : State) (g : Warp → Warp) : (s.mapWarps g).mem = s.mem := rfl
@[simp] theorem State.mapWarps_mscHeld (s : State) (g : Warp → Warp) : (s.mapWarps g).mscHeld = s.mscHeld := rfl
@[simp] theorem State.mapWarps_mscDirty (s : State) (g : Warp → Warp) : (s.mapWarps g).mscDirty = s.mscDirty := rfl
@[simp] theorem State.mapWarps_dirty (s : State) (g : Warp → Warp) : (s.mapWarps g).dirty = s.dirty := rfl
@[simp] theorem State.mapWarps_dir (s : State) (g : Warp → Warp) : (s.mapWarps g).dir = s.dir := rfl
@[simp] theorem State.mapWarps_olds (s : State) (g : Warp → Warp) : (s.mapWarps g).olds = s.olds := rfl
@[simp] theorem State.mapWarps_rels (s : State) (g : Warp → Warp) : (s.mapWarps g).rels = s.rels := rfl
@[simp] theorem State.mapWarps_l1 (s : State) (g : Warp → Warp) : (s.mapWarps g).l1 = s.l1 := rfl
@[simp] theorem State.mapWarps_tlb (s : State) (g : Warp → Warp) : (s.mapWarps g).tlb = s.tlb := rfl
@[simp] theorem State.mapWarps_scratch (s : State) (g : Warp → Warp) : (s.mapWarps g).scratch = s.scratch := rfl
@[simp] theorem State.mapWarps_empty (s : State) (g : Warp → Warp) : (s.mapWarps g).empty = s.empty := rfl
@[simp] theorem State.mapWarps_banks (s : State) (g : Warp → Warp) : (s.mapWarps g).banks = s.banks := rfl
@[simp] theorem State.mapWarps_teams (s : State) (g : Warp → Warp) : (s.mapWarps g).teams = s.teams := rfl
@[simp] theorem State.mapWarps_copies (s : State) (g : Warp → Warp) : (s.mapWarps g).copies = s.copies := rfl
@[simp] theorem State.mapWarps_casts (s : State) (g : Warp → Warp) : (s.mapWarps g).casts = s.casts := rfl
@[simp] theorem State.mapWarps_loads (s : State) (g : Warp → Warp) : (s.mapWarps g).loads = s.loads := rfl
@[simp] theorem State.mapWarps_stores (s : State) (g : Warp → Warp) : (s.mapWarps g).stores = s.stores := rfl
@[simp] theorem State.mapWarps_launches (s : State) (g : Warp → Warp) : (s.mapWarps g).launches = s.launches := rfl
@[simp] theorem State.mapWarps_nextLaunch (s : State) (g : Warp → Warp) : (s.mapWarps g).nextLaunch = s.nextLaunch := rfl
@[simp] theorem State.mapWarps_offers (s : State) (g : Warp → Warp) : (s.mapWarps g).offers = s.offers := rfl
@[simp] theorem State.mapWarps_origin (s : State) (g : Warp → Warp) : (s.mapWarps g).origin = s.origin := rfl
@[simp] theorem State.mapWarps_gang (s : State) (g : Warp → Warp) : (s.mapWarps g).gang = s.gang := rfl
@[simp] theorem State.mapWarps_windows (s : State) (g : Warp → Warp) : (s.mapWarps g).windows = s.windows := rfl
@[simp] theorem State.mapWarps_ctxs (s : State) (g : Warp → Warp) : (s.mapWarps g).ctxs = s.ctxs := rfl
@[simp] theorem State.mapWarps_everEn (s : State) (g : Warp → Warp) : (s.mapWarps g).everEn = s.everEn := rfl
@[simp] theorem State.mapWarps_handles (s : State) (g : Warp → Warp) : (s.mapWarps g).handles = s.handles := rfl
@[simp] theorem State.mapWarps_prompts (s : State) (g : Warp → Warp) : (s.mapWarps g).prompts = s.prompts := rfl
@[simp] theorem State.mapWarps_strikes (s : State) (g : Warp → Warp) : (s.mapWarps g).strikes = s.strikes := rfl
@[simp] theorem State.mapWarps_ipool (s : State) (g : Warp → Warp) : (s.mapWarps g).ipool = s.ipool := rfl
@[simp] theorem State.mapWarps_slabs (s : State) (g : Warp → Warp) : (s.mapWarps g).slabs = s.slabs := rfl
@[simp] theorem State.mapWarps_relMask (s : State) (g : Warp → Warp) : (s.mapWarps g).relMask = s.relMask := rfl
@[simp] theorem State.mapWarps_relCtx (s : State) (g : Warp → Warp) : (s.mapWarps g).relCtx = s.relCtx := rfl
@[simp] theorem State.mapWarps_ports (s : State) (g : Warp → Warp) : (s.mapWarps g).ports = s.ports := rfl
@[simp] theorem State.mapWarps_sems (s : State) (g : Warp → Warp) : (s.mapWarps g).sems = s.sems := rfl
@[simp] theorem State.mapWarps_peers (s : State) (g : Warp → Warp) : (s.mapWarps g).peers = s.peers := rfl
@[simp] theorem State.mapWarps_sent (s : State) (g : Warp → Warp) : (s.mapWarps g).sent = s.sent := rfl
@[simp] theorem State.mapWarps_reply (s : State) (g : Warp → Warp) : (s.mapWarps g).reply = s.reply := rfl
@[simp] theorem State.mapWarps_cores (s : State) (g : Warp → Warp) : (s.mapWarps g).cores = s.cores := rfl
@[simp] theorem State.mapWarps_wear (s : State) (g : Warp → Warp) : (s.mapWarps g).wear = s.wear := rfl
@[simp] theorem State.mapWarps_dcmap (s : State) (g : Warp → Warp) : (s.mapWarps g).dcmap = s.dcmap := rfl
@[simp] theorem State.mapWarps_lastseq (s : State) (g : Warp → Warp) : (s.mapWarps g).lastseq = s.lastseq := rfl
@[simp] theorem State.mapWarps_policy (s : State) (g : Warp → Warp) : (s.mapWarps g).policy = s.policy := rfl
@[simp] theorem State.mapWarps_armed (s : State) (g : Warp → Warp) : (s.mapWarps g).armed = s.armed := rfl
@[simp] theorem State.mapWarps_polBad (s : State) (g : Warp → Warp) : (s.mapWarps g).polBad = s.polBad := rfl
@[simp] theorem State.mapWarps_nonce (s : State) (g : Warp → Warp) : (s.mapWarps g).nonce = s.nonce := rfl
@[simp] theorem State.mapWarps_attBusy (s : State) (g : Warp → Warp) : (s.mapWarps g).attBusy = s.attBusy := rfl
@[simp] theorem State.mapWarps_attNonce (s : State) (g : Warp → Warp) : (s.mapWarps g).attNonce = s.attNonce := rfl
@[simp] theorem State.mapWarps_report (s : State) (g : Warp → Warp) : (s.mapWarps g).report = s.report := rfl
@[simp] theorem State.mapWarps_watts (s : State) (g : Warp → Warp) : (s.mapWarps g).watts = s.watts := rfl
@[simp] theorem State.mapWarps_temps (s : State) (g : Warp → Warp) : (s.mapWarps g).temps = s.temps := rfl
@[simp] theorem State.mapWarps_thr (s : State) (g : Warp → Warp) : (s.mapWarps g).thr = s.thr := rfl
@[simp] theorem State.mapWarps_throttled (s : State) (g : Warp → Warp) : (s.mapWarps g).throttled = s.throttled := rfl
@[simp] theorem State.mapWarps_clock (s : State) (g : Warp → Warp) : (s.mapWarps g).clock = s.clock := rfl
@[simp] theorem State.mapWarps_agenda (s : State) (g : Warp → Warp) : (s.mapWarps g).agenda = s.agenda := rfl
@[simp] theorem State.mapWarps_cur (s : State) (g : Warp → Warp) : (s.mapWarps g).cur = s.cur := rfl
@[simp] theorem State.mapWarps_nextId (s : State) (g : Warp → Warp) : (s.mapWarps g).nextId = s.nextId := rfl
@[simp] theorem State.mapWarps_free (s : State) (g : Warp → Warp) : (s.mapWarps g).free = s.free := rfl

@[simp] theorem State.mapWarpsOn_mem (s : State) (d : Nat) (g : Warp → Warp) : (s.mapWarpsOn d g).mem = s.mem := rfl
@[simp] theorem State.mapWarpsOn_mscHeld (s : State) (d : Nat) (g : Warp → Warp) : (s.mapWarpsOn d g).mscHeld = s.mscHeld := rfl
@[simp] theorem State.mapWarpsOn_mscDirty (s : State) (d : Nat) (g : Warp → Warp) : (s.mapWarpsOn d g).mscDirty = s.mscDirty := 
  rfl
@[simp] theorem State.mapWarpsOn_dirty (s : State) (d : Nat) (g : Warp → Warp) : (s.mapWarpsOn d g).dirty = s.dirty := rfl
@[simp] theorem State.mapWarpsOn_dir (s : State) (d : Nat) (g : Warp → Warp) : (s.mapWarpsOn d g).dir = s.dir := rfl
@[simp] theorem State.mapWarpsOn_olds (s : State) (d : Nat) (g : Warp → Warp) : (s.mapWarpsOn d g).olds = s.olds := rfl
@[simp] theorem State.mapWarpsOn_rels (s : State) (d : Nat) (g : Warp → Warp) : (s.mapWarpsOn d g).rels = s.rels := rfl
@[simp] theorem State.mapWarpsOn_l1 (s : State) (d : Nat) (g : Warp → Warp) : (s.mapWarpsOn d g).l1 = s.l1 := rfl
@[simp] theorem State.mapWarpsOn_tlb (s : State) (d : Nat) (g : Warp → Warp) : (s.mapWarpsOn d g).tlb = s.tlb := rfl
@[simp] theorem State.mapWarpsOn_scratch (s : State) (d : Nat) (g : Warp → Warp) : (s.mapWarpsOn d g).scratch = s.scratch := rfl
@[simp] theorem State.mapWarpsOn_empty (s : State) (d : Nat) (g : Warp → Warp) : (s.mapWarpsOn d g).empty = s.empty := rfl
@[simp] theorem State.mapWarpsOn_banks (s : State) (d : Nat) (g : Warp → Warp) : (s.mapWarpsOn d g).banks = s.banks := rfl
@[simp] theorem State.mapWarpsOn_teams (s : State) (d : Nat) (g : Warp → Warp) : (s.mapWarpsOn d g).teams = s.teams := rfl
@[simp] theorem State.mapWarpsOn_copies (s : State) (d : Nat) (g : Warp → Warp) : (s.mapWarpsOn d g).copies = s.copies := rfl
@[simp] theorem State.mapWarpsOn_casts (s : State) (d : Nat) (g : Warp → Warp) : (s.mapWarpsOn d g).casts = s.casts := rfl
@[simp] theorem State.mapWarpsOn_loads (s : State) (d : Nat) (g : Warp → Warp) : (s.mapWarpsOn d g).loads = s.loads := rfl
@[simp] theorem State.mapWarpsOn_stores (s : State) (d : Nat) (g : Warp → Warp) : (s.mapWarpsOn d g).stores = s.stores := rfl
@[simp] theorem State.mapWarpsOn_launches (s : State) (d : Nat) (g : Warp → Warp) : (s.mapWarpsOn d g).launches = s.launches := 
  rfl
@[simp] theorem State.mapWarpsOn_nextLaunch (s : State) (d : Nat) (g : Warp → Warp) : (s.mapWarpsOn d g).nextLaunch = s.nextLaunch := 
  rfl
@[simp] theorem State.mapWarpsOn_offers (s : State) (d : Nat) (g : Warp → Warp) : (s.mapWarpsOn d g).offers = s.offers := rfl
@[simp] theorem State.mapWarpsOn_origin (s : State) (d : Nat) (g : Warp → Warp) : (s.mapWarpsOn d g).origin = s.origin := rfl
@[simp] theorem State.mapWarpsOn_gang (s : State) (d : Nat) (g : Warp → Warp) : (s.mapWarpsOn d g).gang = s.gang := rfl
@[simp] theorem State.mapWarpsOn_windows (s : State) (d : Nat) (g : Warp → Warp) : (s.mapWarpsOn d g).windows = s.windows := rfl
@[simp] theorem State.mapWarpsOn_ctxs (s : State) (d : Nat) (g : Warp → Warp) : (s.mapWarpsOn d g).ctxs = s.ctxs := rfl
@[simp] theorem State.mapWarpsOn_everEn (s : State) (d : Nat) (g : Warp → Warp) : (s.mapWarpsOn d g).everEn = s.everEn := rfl
@[simp] theorem State.mapWarpsOn_handles (s : State) (d : Nat) (g : Warp → Warp) : (s.mapWarpsOn d g).handles = s.handles := rfl
@[simp] theorem State.mapWarpsOn_prompts (s : State) (d : Nat) (g : Warp → Warp) : (s.mapWarpsOn d g).prompts = s.prompts := rfl
@[simp] theorem State.mapWarpsOn_strikes (s : State) (d : Nat) (g : Warp → Warp) : (s.mapWarpsOn d g).strikes = s.strikes := rfl
@[simp] theorem State.mapWarpsOn_ipool (s : State) (d : Nat) (g : Warp → Warp) : (s.mapWarpsOn d g).ipool = s.ipool := rfl
@[simp] theorem State.mapWarpsOn_slabs (s : State) (d : Nat) (g : Warp → Warp) : (s.mapWarpsOn d g).slabs = s.slabs := rfl
@[simp] theorem State.mapWarpsOn_relMask (s : State) (d : Nat) (g : Warp → Warp) : (s.mapWarpsOn d g).relMask = s.relMask := rfl
@[simp] theorem State.mapWarpsOn_relCtx (s : State) (d : Nat) (g : Warp → Warp) : (s.mapWarpsOn d g).relCtx = s.relCtx := rfl
@[simp] theorem State.mapWarpsOn_ports (s : State) (d : Nat) (g : Warp → Warp) : (s.mapWarpsOn d g).ports = s.ports := rfl
@[simp] theorem State.mapWarpsOn_sems (s : State) (d : Nat) (g : Warp → Warp) : (s.mapWarpsOn d g).sems = s.sems := rfl
@[simp] theorem State.mapWarpsOn_peers (s : State) (d : Nat) (g : Warp → Warp) : (s.mapWarpsOn d g).peers = s.peers := rfl
@[simp] theorem State.mapWarpsOn_sent (s : State) (d : Nat) (g : Warp → Warp) : (s.mapWarpsOn d g).sent = s.sent := rfl
@[simp] theorem State.mapWarpsOn_reply (s : State) (d : Nat) (g : Warp → Warp) : (s.mapWarpsOn d g).reply = s.reply := rfl
@[simp] theorem State.mapWarpsOn_cores (s : State) (d : Nat) (g : Warp → Warp) : (s.mapWarpsOn d g).cores = s.cores := rfl
@[simp] theorem State.mapWarpsOn_wear (s : State) (d : Nat) (g : Warp → Warp) : (s.mapWarpsOn d g).wear = s.wear := rfl
@[simp] theorem State.mapWarpsOn_dcmap (s : State) (d : Nat) (g : Warp → Warp) : (s.mapWarpsOn d g).dcmap = s.dcmap := rfl
@[simp] theorem State.mapWarpsOn_lastseq (s : State) (d : Nat) (g : Warp → Warp) : (s.mapWarpsOn d g).lastseq = s.lastseq := rfl
@[simp] theorem State.mapWarpsOn_policy (s : State) (d : Nat) (g : Warp → Warp) : (s.mapWarpsOn d g).policy = s.policy := rfl
@[simp] theorem State.mapWarpsOn_armed (s : State) (d : Nat) (g : Warp → Warp) : (s.mapWarpsOn d g).armed = s.armed := rfl
@[simp] theorem State.mapWarpsOn_polBad (s : State) (d : Nat) (g : Warp → Warp) : (s.mapWarpsOn d g).polBad = s.polBad := rfl
@[simp] theorem State.mapWarpsOn_nonce (s : State) (d : Nat) (g : Warp → Warp) : (s.mapWarpsOn d g).nonce = s.nonce := rfl
@[simp] theorem State.mapWarpsOn_attBusy (s : State) (d : Nat) (g : Warp → Warp) : (s.mapWarpsOn d g).attBusy = s.attBusy := rfl
@[simp] theorem State.mapWarpsOn_attNonce (s : State) (d : Nat) (g : Warp → Warp) : (s.mapWarpsOn d g).attNonce = s.attNonce := 
  rfl
@[simp] theorem State.mapWarpsOn_report (s : State) (d : Nat) (g : Warp → Warp) : (s.mapWarpsOn d g).report = s.report := rfl
@[simp] theorem State.mapWarpsOn_watts (s : State) (d : Nat) (g : Warp → Warp) : (s.mapWarpsOn d g).watts = s.watts := rfl
@[simp] theorem State.mapWarpsOn_temps (s : State) (d : Nat) (g : Warp → Warp) : (s.mapWarpsOn d g).temps = s.temps := rfl
@[simp] theorem State.mapWarpsOn_thr (s : State) (d : Nat) (g : Warp → Warp) : (s.mapWarpsOn d g).thr = s.thr := rfl
@[simp] theorem State.mapWarpsOn_throttled (s : State) (d : Nat) (g : Warp → Warp) : (s.mapWarpsOn d g).throttled = s.throttled := 
  rfl
@[simp] theorem State.mapWarpsOn_clock (s : State) (d : Nat) (g : Warp → Warp) : (s.mapWarpsOn d g).clock = s.clock := rfl
@[simp] theorem State.mapWarpsOn_agenda (s : State) (d : Nat) (g : Warp → Warp) : (s.mapWarpsOn d g).agenda = s.agenda := rfl
@[simp] theorem State.mapWarpsOn_cur (s : State) (d : Nat) (g : Warp → Warp) : (s.mapWarpsOn d g).cur = s.cur := rfl
@[simp] theorem State.mapWarpsOn_nextId (s : State) (d : Nat) (g : Warp → Warp) : (s.mapWarpsOn d g).nextId = s.nextId := rfl
@[simp] theorem State.mapWarpsOn_free (s : State) (d : Nat) (g : Warp → Warp) : (s.mapWarpsOn d g).free = s.free := rfl

@[simp] theorem State.fireLine_mem (s : State) (l : Nat) : (s.fireLine l).mem = s.mem := rfl
@[simp] theorem State.fireLine_mscHeld (s : State) (l : Nat) : (s.fireLine l).mscHeld = s.mscHeld := rfl
@[simp] theorem State.fireLine_mscDirty (s : State) (l : Nat) : (s.fireLine l).mscDirty = s.mscDirty := rfl
@[simp] theorem State.fireLine_dirty (s : State) (l : Nat) : (s.fireLine l).dirty = s.dirty := rfl
@[simp] theorem State.fireLine_dir (s : State) (l : Nat) : (s.fireLine l).dir = s.dir := rfl
@[simp] theorem State.fireLine_olds (s : State) (l : Nat) : (s.fireLine l).olds = s.olds := rfl
@[simp] theorem State.fireLine_rels (s : State) (l : Nat) : (s.fireLine l).rels = s.rels := rfl
@[simp] theorem State.fireLine_l1 (s : State) (l : Nat) : (s.fireLine l).l1 = s.l1 := rfl
@[simp] theorem State.fireLine_tlb (s : State) (l : Nat) : (s.fireLine l).tlb = s.tlb := rfl
@[simp] theorem State.fireLine_scratch (s : State) (l : Nat) : (s.fireLine l).scratch = s.scratch := rfl
@[simp] theorem State.fireLine_empty (s : State) (l : Nat) : (s.fireLine l).empty = s.empty := rfl
@[simp] theorem State.fireLine_banks (s : State) (l : Nat) : (s.fireLine l).banks = s.banks := rfl
@[simp] theorem State.fireLine_teams (s : State) (l : Nat) : (s.fireLine l).teams = s.teams := rfl
@[simp] theorem State.fireLine_copies (s : State) (l : Nat) : (s.fireLine l).copies = s.copies := rfl
@[simp] theorem State.fireLine_casts (s : State) (l : Nat) : (s.fireLine l).casts = s.casts := rfl
@[simp] theorem State.fireLine_loads (s : State) (l : Nat) : (s.fireLine l).loads = s.loads := rfl
@[simp] theorem State.fireLine_stores (s : State) (l : Nat) : (s.fireLine l).stores = s.stores := rfl
@[simp] theorem State.fireLine_launches (s : State) (l : Nat) : (s.fireLine l).launches = s.launches := rfl
@[simp] theorem State.fireLine_nextLaunch (s : State) (l : Nat) : (s.fireLine l).nextLaunch = s.nextLaunch := rfl
@[simp] theorem State.fireLine_offers (s : State) (l : Nat) : (s.fireLine l).offers = s.offers := rfl
@[simp] theorem State.fireLine_origin (s : State) (l : Nat) : (s.fireLine l).origin = s.origin := rfl
@[simp] theorem State.fireLine_gang (s : State) (l : Nat) : (s.fireLine l).gang = s.gang := rfl
@[simp] theorem State.fireLine_windows (s : State) (l : Nat) : (s.fireLine l).windows = s.windows := rfl
@[simp] theorem State.fireLine_ctxs (s : State) (l : Nat) : (s.fireLine l).ctxs = s.ctxs := rfl
@[simp] theorem State.fireLine_everEn (s : State) (l : Nat) : (s.fireLine l).everEn = s.everEn := rfl
@[simp] theorem State.fireLine_handles (s : State) (l : Nat) : (s.fireLine l).handles = s.handles := rfl
@[simp] theorem State.fireLine_prompts (s : State) (l : Nat) : (s.fireLine l).prompts = s.prompts := rfl
@[simp] theorem State.fireLine_strikes (s : State) (l : Nat) : (s.fireLine l).strikes = s.strikes := rfl
@[simp] theorem State.fireLine_ipool (s : State) (l : Nat) : (s.fireLine l).ipool = s.ipool := rfl
@[simp] theorem State.fireLine_slabs (s : State) (l : Nat) : (s.fireLine l).slabs = s.slabs := rfl
@[simp] theorem State.fireLine_relMask (s : State) (l : Nat) : (s.fireLine l).relMask = s.relMask := rfl
@[simp] theorem State.fireLine_relCtx (s : State) (l : Nat) : (s.fireLine l).relCtx = s.relCtx := rfl
@[simp] theorem State.fireLine_ports (s : State) (l : Nat) : (s.fireLine l).ports = s.ports := rfl
@[simp] theorem State.fireLine_sems (s : State) (l : Nat) : (s.fireLine l).sems = s.sems := rfl
@[simp] theorem State.fireLine_peers (s : State) (l : Nat) : (s.fireLine l).peers = s.peers := rfl
@[simp] theorem State.fireLine_sent (s : State) (l : Nat) : (s.fireLine l).sent = s.sent := rfl
@[simp] theorem State.fireLine_reply (s : State) (l : Nat) : (s.fireLine l).reply = s.reply := rfl
@[simp] theorem State.fireLine_cores (s : State) (l : Nat) : (s.fireLine l).cores = s.cores := rfl
@[simp] theorem State.fireLine_wear (s : State) (l : Nat) : (s.fireLine l).wear = s.wear := rfl
@[simp] theorem State.fireLine_dcmap (s : State) (l : Nat) : (s.fireLine l).dcmap = s.dcmap := rfl
@[simp] theorem State.fireLine_lastseq (s : State) (l : Nat) : (s.fireLine l).lastseq = s.lastseq := rfl
@[simp] theorem State.fireLine_policy (s : State) (l : Nat) : (s.fireLine l).policy = s.policy := rfl
@[simp] theorem State.fireLine_armed (s : State) (l : Nat) : (s.fireLine l).armed = s.armed := rfl
@[simp] theorem State.fireLine_polBad (s : State) (l : Nat) : (s.fireLine l).polBad = s.polBad := rfl
@[simp] theorem State.fireLine_nonce (s : State) (l : Nat) : (s.fireLine l).nonce = s.nonce := rfl
@[simp] theorem State.fireLine_attBusy (s : State) (l : Nat) : (s.fireLine l).attBusy = s.attBusy := rfl
@[simp] theorem State.fireLine_attNonce (s : State) (l : Nat) : (s.fireLine l).attNonce = s.attNonce := rfl
@[simp] theorem State.fireLine_report (s : State) (l : Nat) : (s.fireLine l).report = s.report := rfl
@[simp] theorem State.fireLine_watts (s : State) (l : Nat) : (s.fireLine l).watts = s.watts := rfl
@[simp] theorem State.fireLine_temps (s : State) (l : Nat) : (s.fireLine l).temps = s.temps := rfl
@[simp] theorem State.fireLine_thr (s : State) (l : Nat) : (s.fireLine l).thr = s.thr := rfl
@[simp] theorem State.fireLine_throttled (s : State) (l : Nat) : (s.fireLine l).throttled = s.throttled := rfl
@[simp] theorem State.fireLine_clock (s : State) (l : Nat) : (s.fireLine l).clock = s.clock := rfl
@[simp] theorem State.fireLine_agenda (s : State) (l : Nat) : (s.fireLine l).agenda = s.agenda := rfl
@[simp] theorem State.fireLine_cur (s : State) (l : Nat) : (s.fireLine l).cur = s.cur := rfl
@[simp] theorem State.fireLine_nextId (s : State) (l : Nat) : (s.fireLine l).nextId = s.nextId := rfl
@[simp] theorem State.fireLine_free (s : State) (l : Nat) : (s.fireLine l).free = s.free := rfl

@[simp] theorem State.fireLineOn_mem (s : State) (d l : Nat) : (s.fireLineOn d l).mem = s.mem := rfl
@[simp] theorem State.fireLineOn_mscHeld (s : State) (d l : Nat) : (s.fireLineOn d l).mscHeld = s.mscHeld := rfl
@[simp] theorem State.fireLineOn_mscDirty (s : State) (d l : Nat) : (s.fireLineOn d l).mscDirty = s.mscDirty := rfl
@[simp] theorem State.fireLineOn_dirty (s : State) (d l : Nat) : (s.fireLineOn d l).dirty = s.dirty := rfl
@[simp] theorem State.fireLineOn_dir (s : State) (d l : Nat) : (s.fireLineOn d l).dir = s.dir := rfl
@[simp] theorem State.fireLineOn_olds (s : State) (d l : Nat) : (s.fireLineOn d l).olds = s.olds := rfl
@[simp] theorem State.fireLineOn_rels (s : State) (d l : Nat) : (s.fireLineOn d l).rels = s.rels := rfl
@[simp] theorem State.fireLineOn_l1 (s : State) (d l : Nat) : (s.fireLineOn d l).l1 = s.l1 := rfl
@[simp] theorem State.fireLineOn_tlb (s : State) (d l : Nat) : (s.fireLineOn d l).tlb = s.tlb := rfl
@[simp] theorem State.fireLineOn_scratch (s : State) (d l : Nat) : (s.fireLineOn d l).scratch = s.scratch := rfl
@[simp] theorem State.fireLineOn_empty (s : State) (d l : Nat) : (s.fireLineOn d l).empty = s.empty := rfl
@[simp] theorem State.fireLineOn_banks (s : State) (d l : Nat) : (s.fireLineOn d l).banks = s.banks := rfl
@[simp] theorem State.fireLineOn_teams (s : State) (d l : Nat) : (s.fireLineOn d l).teams = s.teams := rfl
@[simp] theorem State.fireLineOn_copies (s : State) (d l : Nat) : (s.fireLineOn d l).copies = s.copies := rfl
@[simp] theorem State.fireLineOn_casts (s : State) (d l : Nat) : (s.fireLineOn d l).casts = s.casts := rfl
@[simp] theorem State.fireLineOn_loads (s : State) (d l : Nat) : (s.fireLineOn d l).loads = s.loads := rfl
@[simp] theorem State.fireLineOn_stores (s : State) (d l : Nat) : (s.fireLineOn d l).stores = s.stores := rfl
@[simp] theorem State.fireLineOn_launches (s : State) (d l : Nat) : (s.fireLineOn d l).launches = s.launches := rfl
@[simp] theorem State.fireLineOn_nextLaunch (s : State) (d l : Nat) : (s.fireLineOn d l).nextLaunch = s.nextLaunch := rfl
@[simp] theorem State.fireLineOn_offers (s : State) (d l : Nat) : (s.fireLineOn d l).offers = s.offers := rfl
@[simp] theorem State.fireLineOn_origin (s : State) (d l : Nat) : (s.fireLineOn d l).origin = s.origin := rfl
@[simp] theorem State.fireLineOn_gang (s : State) (d l : Nat) : (s.fireLineOn d l).gang = s.gang := rfl
@[simp] theorem State.fireLineOn_windows (s : State) (d l : Nat) : (s.fireLineOn d l).windows = s.windows := rfl
@[simp] theorem State.fireLineOn_ctxs (s : State) (d l : Nat) : (s.fireLineOn d l).ctxs = s.ctxs := rfl
@[simp] theorem State.fireLineOn_everEn (s : State) (d l : Nat) : (s.fireLineOn d l).everEn = s.everEn := rfl
@[simp] theorem State.fireLineOn_handles (s : State) (d l : Nat) : (s.fireLineOn d l).handles = s.handles := rfl
@[simp] theorem State.fireLineOn_prompts (s : State) (d l : Nat) : (s.fireLineOn d l).prompts = s.prompts := rfl
@[simp] theorem State.fireLineOn_strikes (s : State) (d l : Nat) : (s.fireLineOn d l).strikes = s.strikes := rfl
@[simp] theorem State.fireLineOn_ipool (s : State) (d l : Nat) : (s.fireLineOn d l).ipool = s.ipool := rfl
@[simp] theorem State.fireLineOn_slabs (s : State) (d l : Nat) : (s.fireLineOn d l).slabs = s.slabs := rfl
@[simp] theorem State.fireLineOn_relMask (s : State) (d l : Nat) : (s.fireLineOn d l).relMask = s.relMask := rfl
@[simp] theorem State.fireLineOn_relCtx (s : State) (d l : Nat) : (s.fireLineOn d l).relCtx = s.relCtx := rfl
@[simp] theorem State.fireLineOn_ports (s : State) (d l : Nat) : (s.fireLineOn d l).ports = s.ports := rfl
@[simp] theorem State.fireLineOn_sems (s : State) (d l : Nat) : (s.fireLineOn d l).sems = s.sems := rfl
@[simp] theorem State.fireLineOn_peers (s : State) (d l : Nat) : (s.fireLineOn d l).peers = s.peers := rfl
@[simp] theorem State.fireLineOn_sent (s : State) (d l : Nat) : (s.fireLineOn d l).sent = s.sent := rfl
@[simp] theorem State.fireLineOn_reply (s : State) (d l : Nat) : (s.fireLineOn d l).reply = s.reply := rfl
@[simp] theorem State.fireLineOn_cores (s : State) (d l : Nat) : (s.fireLineOn d l).cores = s.cores := rfl
@[simp] theorem State.fireLineOn_wear (s : State) (d l : Nat) : (s.fireLineOn d l).wear = s.wear := rfl
@[simp] theorem State.fireLineOn_dcmap (s : State) (d l : Nat) : (s.fireLineOn d l).dcmap = s.dcmap := rfl
@[simp] theorem State.fireLineOn_lastseq (s : State) (d l : Nat) : (s.fireLineOn d l).lastseq = s.lastseq := rfl
@[simp] theorem State.fireLineOn_policy (s : State) (d l : Nat) : (s.fireLineOn d l).policy = s.policy := rfl
@[simp] theorem State.fireLineOn_armed (s : State) (d l : Nat) : (s.fireLineOn d l).armed = s.armed := rfl
@[simp] theorem State.fireLineOn_polBad (s : State) (d l : Nat) : (s.fireLineOn d l).polBad = s.polBad := rfl
@[simp] theorem State.fireLineOn_nonce (s : State) (d l : Nat) : (s.fireLineOn d l).nonce = s.nonce := rfl
@[simp] theorem State.fireLineOn_attBusy (s : State) (d l : Nat) : (s.fireLineOn d l).attBusy = s.attBusy := rfl
@[simp] theorem State.fireLineOn_attNonce (s : State) (d l : Nat) : (s.fireLineOn d l).attNonce = s.attNonce := rfl
@[simp] theorem State.fireLineOn_report (s : State) (d l : Nat) : (s.fireLineOn d l).report = s.report := rfl
@[simp] theorem State.fireLineOn_watts (s : State) (d l : Nat) : (s.fireLineOn d l).watts = s.watts := rfl
@[simp] theorem State.fireLineOn_temps (s : State) (d l : Nat) : (s.fireLineOn d l).temps = s.temps := rfl
@[simp] theorem State.fireLineOn_thr (s : State) (d l : Nat) : (s.fireLineOn d l).thr = s.thr := rfl
@[simp] theorem State.fireLineOn_throttled (s : State) (d l : Nat) : (s.fireLineOn d l).throttled = s.throttled := rfl
@[simp] theorem State.fireLineOn_clock (s : State) (d l : Nat) : (s.fireLineOn d l).clock = s.clock := rfl
@[simp] theorem State.fireLineOn_agenda (s : State) (d l : Nat) : (s.fireLineOn d l).agenda = s.agenda := rfl
@[simp] theorem State.fireLineOn_cur (s : State) (d l : Nat) : (s.fireLineOn d l).cur = s.cur := rfl
@[simp] theorem State.fireLineOn_nextId (s : State) (d l : Nat) : (s.fireLineOn d l).nextId = s.nextId := rfl
@[simp] theorem State.fireLineOn_free (s : State) (d l : Nat) : (s.fireLineOn d l).free = s.free := rfl

@[simp] theorem State.wakeYields_mem (s : State) (w r : Nat) : (s.wakeYields w r).mem = s.mem := rfl
@[simp] theorem State.wakeYields_mscHeld (s : State) (w r : Nat) : (s.wakeYields w r).mscHeld = s.mscHeld := rfl
@[simp] theorem State.wakeYields_mscDirty (s : State) (w r : Nat) : (s.wakeYields w r).mscDirty = s.mscDirty := rfl
@[simp] theorem State.wakeYields_dirty (s : State) (w r : Nat) : (s.wakeYields w r).dirty = s.dirty := rfl
@[simp] theorem State.wakeYields_dir (s : State) (w r : Nat) : (s.wakeYields w r).dir = s.dir := rfl
@[simp] theorem State.wakeYields_olds (s : State) (w r : Nat) : (s.wakeYields w r).olds = s.olds := rfl
@[simp] theorem State.wakeYields_rels (s : State) (w r : Nat) : (s.wakeYields w r).rels = s.rels := rfl
@[simp] theorem State.wakeYields_l1 (s : State) (w r : Nat) : (s.wakeYields w r).l1 = s.l1 := rfl
@[simp] theorem State.wakeYields_tlb (s : State) (w r : Nat) : (s.wakeYields w r).tlb = s.tlb := rfl
@[simp] theorem State.wakeYields_scratch (s : State) (w r : Nat) : (s.wakeYields w r).scratch = s.scratch := rfl
@[simp] theorem State.wakeYields_empty (s : State) (w r : Nat) : (s.wakeYields w r).empty = s.empty := rfl
@[simp] theorem State.wakeYields_banks (s : State) (w r : Nat) : (s.wakeYields w r).banks = s.banks := rfl
@[simp] theorem State.wakeYields_teams (s : State) (w r : Nat) : (s.wakeYields w r).teams = s.teams := rfl
@[simp] theorem State.wakeYields_copies (s : State) (w r : Nat) : (s.wakeYields w r).copies = s.copies := rfl
@[simp] theorem State.wakeYields_casts (s : State) (w r : Nat) : (s.wakeYields w r).casts = s.casts := rfl
@[simp] theorem State.wakeYields_loads (s : State) (w r : Nat) : (s.wakeYields w r).loads = s.loads := rfl
@[simp] theorem State.wakeYields_stores (s : State) (w r : Nat) : (s.wakeYields w r).stores = s.stores := rfl
@[simp] theorem State.wakeYields_launches (s : State) (w r : Nat) : (s.wakeYields w r).launches = s.launches := rfl
@[simp] theorem State.wakeYields_nextLaunch (s : State) (w r : Nat) : (s.wakeYields w r).nextLaunch = s.nextLaunch := rfl
@[simp] theorem State.wakeYields_offers (s : State) (w r : Nat) : (s.wakeYields w r).offers = s.offers := rfl
@[simp] theorem State.wakeYields_origin (s : State) (w r : Nat) : (s.wakeYields w r).origin = s.origin := rfl
@[simp] theorem State.wakeYields_gang (s : State) (w r : Nat) : (s.wakeYields w r).gang = s.gang := rfl
@[simp] theorem State.wakeYields_windows (s : State) (w r : Nat) : (s.wakeYields w r).windows = s.windows := rfl
@[simp] theorem State.wakeYields_ctxs (s : State) (w r : Nat) : (s.wakeYields w r).ctxs = s.ctxs := rfl
@[simp] theorem State.wakeYields_everEn (s : State) (w r : Nat) : (s.wakeYields w r).everEn = s.everEn := rfl
@[simp] theorem State.wakeYields_handles (s : State) (w r : Nat) : (s.wakeYields w r).handles = s.handles := rfl
@[simp] theorem State.wakeYields_prompts (s : State) (w r : Nat) : (s.wakeYields w r).prompts = s.prompts := rfl
@[simp] theorem State.wakeYields_strikes (s : State) (w r : Nat) : (s.wakeYields w r).strikes = s.strikes := rfl
@[simp] theorem State.wakeYields_ipool (s : State) (w r : Nat) : (s.wakeYields w r).ipool = s.ipool := rfl
@[simp] theorem State.wakeYields_slabs (s : State) (w r : Nat) : (s.wakeYields w r).slabs = s.slabs := rfl
@[simp] theorem State.wakeYields_relMask (s : State) (w r : Nat) : (s.wakeYields w r).relMask = s.relMask := rfl
@[simp] theorem State.wakeYields_relCtx (s : State) (w r : Nat) : (s.wakeYields w r).relCtx = s.relCtx := rfl
@[simp] theorem State.wakeYields_ports (s : State) (w r : Nat) : (s.wakeYields w r).ports = s.ports := rfl
@[simp] theorem State.wakeYields_sems (s : State) (w r : Nat) : (s.wakeYields w r).sems = s.sems := rfl
@[simp] theorem State.wakeYields_peers (s : State) (w r : Nat) : (s.wakeYields w r).peers = s.peers := rfl
@[simp] theorem State.wakeYields_sent (s : State) (w r : Nat) : (s.wakeYields w r).sent = s.sent := rfl
@[simp] theorem State.wakeYields_reply (s : State) (w r : Nat) : (s.wakeYields w r).reply = s.reply := rfl
@[simp] theorem State.wakeYields_cores (s : State) (w r : Nat) : (s.wakeYields w r).cores = s.cores := rfl
@[simp] theorem State.wakeYields_wear (s : State) (w r : Nat) : (s.wakeYields w r).wear = s.wear := rfl
@[simp] theorem State.wakeYields_dcmap (s : State) (w r : Nat) : (s.wakeYields w r).dcmap = s.dcmap := rfl
@[simp] theorem State.wakeYields_lastseq (s : State) (w r : Nat) : (s.wakeYields w r).lastseq = s.lastseq := rfl
@[simp] theorem State.wakeYields_policy (s : State) (w r : Nat) : (s.wakeYields w r).policy = s.policy := rfl
@[simp] theorem State.wakeYields_armed (s : State) (w r : Nat) : (s.wakeYields w r).armed = s.armed := rfl
@[simp] theorem State.wakeYields_polBad (s : State) (w r : Nat) : (s.wakeYields w r).polBad = s.polBad := rfl
@[simp] theorem State.wakeYields_nonce (s : State) (w r : Nat) : (s.wakeYields w r).nonce = s.nonce := rfl
@[simp] theorem State.wakeYields_attBusy (s : State) (w r : Nat) : (s.wakeYields w r).attBusy = s.attBusy := rfl
@[simp] theorem State.wakeYields_attNonce (s : State) (w r : Nat) : (s.wakeYields w r).attNonce = s.attNonce := rfl
@[simp] theorem State.wakeYields_report (s : State) (w r : Nat) : (s.wakeYields w r).report = s.report := rfl
@[simp] theorem State.wakeYields_watts (s : State) (w r : Nat) : (s.wakeYields w r).watts = s.watts := rfl
@[simp] theorem State.wakeYields_temps (s : State) (w r : Nat) : (s.wakeYields w r).temps = s.temps := rfl
@[simp] theorem State.wakeYields_thr (s : State) (w r : Nat) : (s.wakeYields w r).thr = s.thr := rfl
@[simp] theorem State.wakeYields_throttled (s : State) (w r : Nat) : (s.wakeYields w r).throttled = s.throttled := rfl
@[simp] theorem State.wakeYields_clock (s : State) (w r : Nat) : (s.wakeYields w r).clock = s.clock := rfl
@[simp] theorem State.wakeYields_agenda (s : State) (w r : Nat) : (s.wakeYields w r).agenda = s.agenda := rfl
@[simp] theorem State.wakeYields_cur (s : State) (w r : Nat) : (s.wakeYields w r).cur = s.cur := rfl
@[simp] theorem State.wakeYields_nextId (s : State) (w r : Nat) : (s.wakeYields w r).nextId = s.nextId := rfl
@[simp] theorem State.wakeYields_free (s : State) (w r : Nat) : (s.wakeYields w r).free = s.free := rfl

@[simp] theorem State.settle_mem (s : State) (h : Nat → Bool) : (s.settle h).mem = s.mem := rfl
@[simp] theorem State.settle_mscHeld (s : State) (h : Nat → Bool) : (s.settle h).mscHeld = s.mscHeld := rfl
@[simp] theorem State.settle_mscDirty (s : State) (h : Nat → Bool) : (s.settle h).mscDirty = s.mscDirty := rfl
@[simp] theorem State.settle_dirty (s : State) (h : Nat → Bool) : (s.settle h).dirty = s.dirty := rfl
@[simp] theorem State.settle_dir (s : State) (h : Nat → Bool) : (s.settle h).dir = s.dir := rfl
@[simp] theorem State.settle_olds (s : State) (h : Nat → Bool) : (s.settle h).olds = s.olds := rfl
@[simp] theorem State.settle_rels (s : State) (h : Nat → Bool) : (s.settle h).rels = s.rels := rfl
@[simp] theorem State.settle_l1 (s : State) (h : Nat → Bool) : (s.settle h).l1 = s.l1 := rfl
@[simp] theorem State.settle_tlb (s : State) (h : Nat → Bool) : (s.settle h).tlb = s.tlb := rfl
@[simp] theorem State.settle_scratch (s : State) (h : Nat → Bool) : (s.settle h).scratch = s.scratch := rfl
@[simp] theorem State.settle_empty (s : State) (h : Nat → Bool) : (s.settle h).empty = s.empty := rfl
@[simp] theorem State.settle_banks (s : State) (h : Nat → Bool) : (s.settle h).banks = s.banks := rfl
@[simp] theorem State.settle_teams (s : State) (h : Nat → Bool) : (s.settle h).teams = s.teams := rfl
@[simp] theorem State.settle_warps (s : State) (h : Nat → Bool) : (s.settle h).warps = s.warps := rfl
@[simp] theorem State.settle_copies (s : State) (h : Nat → Bool) : (s.settle h).copies = s.copies := rfl
@[simp] theorem State.settle_casts (s : State) (h : Nat → Bool) : (s.settle h).casts = s.casts := rfl
@[simp] theorem State.settle_stores (s : State) (h : Nat → Bool) : (s.settle h).stores = s.stores := rfl
@[simp] theorem State.settle_launches (s : State) (h : Nat → Bool) : (s.settle h).launches = s.launches := rfl
@[simp] theorem State.settle_nextLaunch (s : State) (h : Nat → Bool) : (s.settle h).nextLaunch = s.nextLaunch := rfl
@[simp] theorem State.settle_offers (s : State) (h : Nat → Bool) : (s.settle h).offers = s.offers := rfl
@[simp] theorem State.settle_origin (s : State) (h : Nat → Bool) : (s.settle h).origin = s.origin := rfl
@[simp] theorem State.settle_gang (s : State) (h : Nat → Bool) : (s.settle h).gang = s.gang := rfl
@[simp] theorem State.settle_windows (s : State) (h : Nat → Bool) : (s.settle h).windows = s.windows := rfl
@[simp] theorem State.settle_ctxs (s : State) (h : Nat → Bool) : (s.settle h).ctxs = s.ctxs := rfl
@[simp] theorem State.settle_everEn (s : State) (h : Nat → Bool) : (s.settle h).everEn = s.everEn := rfl
@[simp] theorem State.settle_handles (s : State) (h : Nat → Bool) : (s.settle h).handles = s.handles := rfl
@[simp] theorem State.settle_prompts (s : State) (h : Nat → Bool) : (s.settle h).prompts = s.prompts := rfl
@[simp] theorem State.settle_strikes (s : State) (h : Nat → Bool) : (s.settle h).strikes = s.strikes := rfl
@[simp] theorem State.settle_ipool (s : State) (h : Nat → Bool) : (s.settle h).ipool = s.ipool := rfl
@[simp] theorem State.settle_slabs (s : State) (h : Nat → Bool) : (s.settle h).slabs = s.slabs := rfl
@[simp] theorem State.settle_relMask (s : State) (h : Nat → Bool) : (s.settle h).relMask = s.relMask := rfl
@[simp] theorem State.settle_relCtx (s : State) (h : Nat → Bool) : (s.settle h).relCtx = s.relCtx := rfl
@[simp] theorem State.settle_ports (s : State) (h : Nat → Bool) : (s.settle h).ports = s.ports := rfl
@[simp] theorem State.settle_sems (s : State) (h : Nat → Bool) : (s.settle h).sems = s.sems := rfl
@[simp] theorem State.settle_peers (s : State) (h : Nat → Bool) : (s.settle h).peers = s.peers := rfl
@[simp] theorem State.settle_sent (s : State) (h : Nat → Bool) : (s.settle h).sent = s.sent := rfl
@[simp] theorem State.settle_reply (s : State) (h : Nat → Bool) : (s.settle h).reply = s.reply := rfl
@[simp] theorem State.settle_cores (s : State) (h : Nat → Bool) : (s.settle h).cores = s.cores := rfl
@[simp] theorem State.settle_wear (s : State) (h : Nat → Bool) : (s.settle h).wear = s.wear := rfl
@[simp] theorem State.settle_dcmap (s : State) (h : Nat → Bool) : (s.settle h).dcmap = s.dcmap := rfl
@[simp] theorem State.settle_lastseq (s : State) (h : Nat → Bool) : (s.settle h).lastseq = s.lastseq := rfl
@[simp] theorem State.settle_policy (s : State) (h : Nat → Bool) : (s.settle h).policy = s.policy := rfl
@[simp] theorem State.settle_armed (s : State) (h : Nat → Bool) : (s.settle h).armed = s.armed := rfl
@[simp] theorem State.settle_polBad (s : State) (h : Nat → Bool) : (s.settle h).polBad = s.polBad := rfl
@[simp] theorem State.settle_nonce (s : State) (h : Nat → Bool) : (s.settle h).nonce = s.nonce := rfl
@[simp] theorem State.settle_attBusy (s : State) (h : Nat → Bool) : (s.settle h).attBusy = s.attBusy := rfl
@[simp] theorem State.settle_attNonce (s : State) (h : Nat → Bool) : (s.settle h).attNonce = s.attNonce := rfl
@[simp] theorem State.settle_report (s : State) (h : Nat → Bool) : (s.settle h).report = s.report := rfl
@[simp] theorem State.settle_watts (s : State) (h : Nat → Bool) : (s.settle h).watts = s.watts := rfl
@[simp] theorem State.settle_temps (s : State) (h : Nat → Bool) : (s.settle h).temps = s.temps := rfl
@[simp] theorem State.settle_thr (s : State) (h : Nat → Bool) : (s.settle h).thr = s.thr := rfl
@[simp] theorem State.settle_throttled (s : State) (h : Nat → Bool) : (s.settle h).throttled = s.throttled := rfl
@[simp] theorem State.settle_clock (s : State) (h : Nat → Bool) : (s.settle h).clock = s.clock := rfl
@[simp] theorem State.settle_agenda (s : State) (h : Nat → Bool) : (s.settle h).agenda = s.agenda := rfl
@[simp] theorem State.settle_cur (s : State) (h : Nat → Bool) : (s.settle h).cur = s.cur := rfl
@[simp] theorem State.settle_nextId (s : State) (h : Nat → Bool) : (s.settle h).nextId = s.nextId := rfl
@[simp] theorem State.settle_free (s : State) (h : Nat → Bool) : (s.settle h).free = s.free := rfl

@[simp] theorem State.setEmpty_mem (s : State) (a : Nat × Nat × Nat) (e : Bool) : (s.setEmpty a e).mem = s.mem := by
  cases e <;> rfl
@[simp] theorem State.setEmpty_mscHeld (s : State) (a : Nat × Nat × Nat) (e : Bool) : (s.setEmpty a e).mscHeld = s.mscHeld := by
  cases e <;> rfl
@[simp] theorem State.setEmpty_mscDirty (s : State) (a : Nat × Nat × Nat) (e : Bool) : (s.setEmpty a e).mscDirty = s.mscDirty := by
  cases e <;> rfl
@[simp] theorem State.setEmpty_dirty (s : State) (a : Nat × Nat × Nat) (e : Bool) : (s.setEmpty a e).dirty = s.dirty := by
  cases e <;> rfl
@[simp] theorem State.setEmpty_dir (s : State) (a : Nat × Nat × Nat) (e : Bool) : (s.setEmpty a e).dir = s.dir := by
  cases e <;> rfl
@[simp] theorem State.setEmpty_olds (s : State) (a : Nat × Nat × Nat) (e : Bool) : (s.setEmpty a e).olds = s.olds := by
  cases e <;> rfl
@[simp] theorem State.setEmpty_rels (s : State) (a : Nat × Nat × Nat) (e : Bool) : (s.setEmpty a e).rels = s.rels := by
  cases e <;> rfl
@[simp] theorem State.setEmpty_l1 (s : State) (a : Nat × Nat × Nat) (e : Bool) : (s.setEmpty a e).l1 = s.l1 := by cases e <;> rfl
@[simp] theorem State.setEmpty_tlb (s : State) (a : Nat × Nat × Nat) (e : Bool) : (s.setEmpty a e).tlb = s.tlb := by
  cases e <;> rfl
@[simp] theorem State.setEmpty_scratch (s : State) (a : Nat × Nat × Nat) (e : Bool) : (s.setEmpty a e).scratch = s.scratch := by
  cases e <;> rfl
@[simp] theorem State.setEmpty_banks (s : State) (a : Nat × Nat × Nat) (e : Bool) : (s.setEmpty a e).banks = s.banks := by
  cases e <;> rfl
@[simp] theorem State.setEmpty_teams (s : State) (a : Nat × Nat × Nat) (e : Bool) : (s.setEmpty a e).teams = s.teams := by
  cases e <;> rfl
@[simp] theorem State.setEmpty_warps (s : State) (a : Nat × Nat × Nat) (e : Bool) : (s.setEmpty a e).warps = s.warps := by
  cases e <;> rfl
@[simp] theorem State.setEmpty_copies (s : State) (a : Nat × Nat × Nat) (e : Bool) : (s.setEmpty a e).copies = s.copies := by
  cases e <;> rfl
@[simp] theorem State.setEmpty_casts (s : State) (a : Nat × Nat × Nat) (e : Bool) : (s.setEmpty a e).casts = s.casts := by
  cases e <;> rfl
@[simp] theorem State.setEmpty_stores (s : State) (a : Nat × Nat × Nat) (e : Bool) : (s.setEmpty a e).stores = s.stores := by
  cases e <;> rfl
@[simp] theorem State.setEmpty_launches (s : State) (a : Nat × Nat × Nat) (e : Bool) : (s.setEmpty a e).launches = s.launches := by
  cases e <;> rfl
@[simp] theorem State.setEmpty_nextLaunch (s : State) (a : Nat × Nat × Nat) (e : Bool) : (s.setEmpty a e).nextLaunch = s.nextLaunch := by
  cases e <;> rfl
@[simp] theorem State.setEmpty_offers (s : State) (a : Nat × Nat × Nat) (e : Bool) : (s.setEmpty a e).offers = s.offers := by
  cases e <;> rfl
@[simp] theorem State.setEmpty_origin (s : State) (a : Nat × Nat × Nat) (e : Bool) : (s.setEmpty a e).origin = s.origin := by
  cases e <;> rfl
@[simp] theorem State.setEmpty_gang (s : State) (a : Nat × Nat × Nat) (e : Bool) : (s.setEmpty a e).gang = s.gang := by
  cases e <;> rfl
@[simp] theorem State.setEmpty_windows (s : State) (a : Nat × Nat × Nat) (e : Bool) : (s.setEmpty a e).windows = s.windows := by
  cases e <;> rfl
@[simp] theorem State.setEmpty_ctxs (s : State) (a : Nat × Nat × Nat) (e : Bool) : (s.setEmpty a e).ctxs = s.ctxs := by
  cases e <;> rfl
@[simp] theorem State.setEmpty_everEn (s : State) (a : Nat × Nat × Nat) (e : Bool) : (s.setEmpty a e).everEn = s.everEn := by
  cases e <;> rfl
@[simp] theorem State.setEmpty_handles (s : State) (a : Nat × Nat × Nat) (e : Bool) : (s.setEmpty a e).handles = s.handles := by
  cases e <;> rfl
@[simp] theorem State.setEmpty_prompts (s : State) (a : Nat × Nat × Nat) (e : Bool) : (s.setEmpty a e).prompts = s.prompts := by
  cases e <;> rfl
@[simp] theorem State.setEmpty_strikes (s : State) (a : Nat × Nat × Nat) (e : Bool) : (s.setEmpty a e).strikes = s.strikes := by
  cases e <;> rfl
@[simp] theorem State.setEmpty_ipool (s : State) (a : Nat × Nat × Nat) (e : Bool) : (s.setEmpty a e).ipool = s.ipool := by
  cases e <;> rfl
@[simp] theorem State.setEmpty_slabs (s : State) (a : Nat × Nat × Nat) (e : Bool) : (s.setEmpty a e).slabs = s.slabs := by
  cases e <;> rfl
@[simp] theorem State.setEmpty_relMask (s : State) (a : Nat × Nat × Nat) (e : Bool) : (s.setEmpty a e).relMask = s.relMask := by
  cases e <;> rfl
@[simp] theorem State.setEmpty_relCtx (s : State) (a : Nat × Nat × Nat) (e : Bool) : (s.setEmpty a e).relCtx = s.relCtx := by
  cases e <;> rfl
@[simp] theorem State.setEmpty_ports (s : State) (a : Nat × Nat × Nat) (e : Bool) : (s.setEmpty a e).ports = s.ports := by
  cases e <;> rfl
@[simp] theorem State.setEmpty_sems (s : State) (a : Nat × Nat × Nat) (e : Bool) : (s.setEmpty a e).sems = s.sems := by
  cases e <;> rfl
@[simp] theorem State.setEmpty_peers (s : State) (a : Nat × Nat × Nat) (e : Bool) : (s.setEmpty a e).peers = s.peers := by
  cases e <;> rfl
@[simp] theorem State.setEmpty_sent (s : State) (a : Nat × Nat × Nat) (e : Bool) : (s.setEmpty a e).sent = s.sent := by
  cases e <;> rfl
@[simp] theorem State.setEmpty_reply (s : State) (a : Nat × Nat × Nat) (e : Bool) : (s.setEmpty a e).reply = s.reply := by
  cases e <;> rfl
@[simp] theorem State.setEmpty_cores (s : State) (a : Nat × Nat × Nat) (e : Bool) : (s.setEmpty a e).cores = s.cores := by
  cases e <;> rfl
@[simp] theorem State.setEmpty_wear (s : State) (a : Nat × Nat × Nat) (e : Bool) : (s.setEmpty a e).wear = s.wear := by
  cases e <;> rfl
@[simp] theorem State.setEmpty_dcmap (s : State) (a : Nat × Nat × Nat) (e : Bool) : (s.setEmpty a e).dcmap = s.dcmap := by
  cases e <;> rfl
@[simp] theorem State.setEmpty_lastseq (s : State) (a : Nat × Nat × Nat) (e : Bool) : (s.setEmpty a e).lastseq = s.lastseq := by
  cases e <;> rfl
@[simp] theorem State.setEmpty_policy (s : State) (a : Nat × Nat × Nat) (e : Bool) : (s.setEmpty a e).policy = s.policy := by
  cases e <;> rfl
@[simp] theorem State.setEmpty_armed (s : State) (a : Nat × Nat × Nat) (e : Bool) : (s.setEmpty a e).armed = s.armed := by
  cases e <;> rfl
@[simp] theorem State.setEmpty_polBad (s : State) (a : Nat × Nat × Nat) (e : Bool) : (s.setEmpty a e).polBad = s.polBad := by
  cases e <;> rfl
@[simp] theorem State.setEmpty_nonce (s : State) (a : Nat × Nat × Nat) (e : Bool) : (s.setEmpty a e).nonce = s.nonce := by
  cases e <;> rfl
@[simp] theorem State.setEmpty_attBusy (s : State) (a : Nat × Nat × Nat) (e : Bool) : (s.setEmpty a e).attBusy = s.attBusy := by
  cases e <;> rfl
@[simp] theorem State.setEmpty_attNonce (s : State) (a : Nat × Nat × Nat) (e : Bool) : (s.setEmpty a e).attNonce = s.attNonce := by
  cases e <;> rfl
@[simp] theorem State.setEmpty_report (s : State) (a : Nat × Nat × Nat) (e : Bool) : (s.setEmpty a e).report = s.report := by
  cases e <;> rfl
@[simp] theorem State.setEmpty_watts (s : State) (a : Nat × Nat × Nat) (e : Bool) : (s.setEmpty a e).watts = s.watts := by
  cases e <;> rfl
@[simp] theorem State.setEmpty_temps (s : State) (a : Nat × Nat × Nat) (e : Bool) : (s.setEmpty a e).temps = s.temps := by
  cases e <;> rfl
@[simp] theorem State.setEmpty_thr (s : State) (a : Nat × Nat × Nat) (e : Bool) : (s.setEmpty a e).thr = s.thr := by
  cases e <;> rfl
@[simp] theorem State.setEmpty_throttled (s : State) (a : Nat × Nat × Nat) (e : Bool) : (s.setEmpty a e).throttled = s.throttled := by
  cases e <;> rfl
@[simp] theorem State.setEmpty_clock (s : State) (a : Nat × Nat × Nat) (e : Bool) : (s.setEmpty a e).clock = s.clock := by
  cases e <;> rfl
@[simp] theorem State.setEmpty_agenda (s : State) (a : Nat × Nat × Nat) (e : Bool) : (s.setEmpty a e).agenda = s.agenda := by
  cases e <;> rfl
@[simp] theorem State.setEmpty_cur (s : State) (a : Nat × Nat × Nat) (e : Bool) : (s.setEmpty a e).cur = s.cur := by
  cases e <;> rfl
@[simp] theorem State.setEmpty_nextId (s : State) (a : Nat × Nat × Nat) (e : Bool) : (s.setEmpty a e).nextId = s.nextId := by
  cases e <;> rfl
@[simp] theorem State.setEmpty_free (s : State) (a : Nat × Nat × Nat) (e : Bool) : (s.setEmpty a e).free = s.free := by
  cases e <;> rfl

@[simp] theorem State.l1Drop_mem (s : State) (c : Nat) (f : L1Line → Bool) : (s.l1Drop c f).mem = s.mem := rfl
@[simp] theorem State.l1Drop_mscHeld (s : State) (c : Nat) (f : L1Line → Bool) : (s.l1Drop c f).mscHeld = s.mscHeld := rfl
@[simp] theorem State.l1Drop_mscDirty (s : State) (c : Nat) (f : L1Line → Bool) : (s.l1Drop c f).mscDirty = s.mscDirty := rfl
@[simp] theorem State.l1Drop_dirty (s : State) (c : Nat) (f : L1Line → Bool) : (s.l1Drop c f).dirty = s.dirty := rfl
@[simp] theorem State.l1Drop_dir (s : State) (c : Nat) (f : L1Line → Bool) : (s.l1Drop c f).dir = s.dir := rfl
@[simp] theorem State.l1Drop_olds (s : State) (c : Nat) (f : L1Line → Bool) : (s.l1Drop c f).olds = s.olds := rfl
@[simp] theorem State.l1Drop_rels (s : State) (c : Nat) (f : L1Line → Bool) : (s.l1Drop c f).rels = s.rels := rfl
@[simp] theorem State.l1Drop_tlb (s : State) (c : Nat) (f : L1Line → Bool) : (s.l1Drop c f).tlb = s.tlb := rfl
@[simp] theorem State.l1Drop_scratch (s : State) (c : Nat) (f : L1Line → Bool) : (s.l1Drop c f).scratch = s.scratch := rfl
@[simp] theorem State.l1Drop_empty (s : State) (c : Nat) (f : L1Line → Bool) : (s.l1Drop c f).empty = s.empty := rfl
@[simp] theorem State.l1Drop_banks (s : State) (c : Nat) (f : L1Line → Bool) : (s.l1Drop c f).banks = s.banks := rfl
@[simp] theorem State.l1Drop_teams (s : State) (c : Nat) (f : L1Line → Bool) : (s.l1Drop c f).teams = s.teams := rfl
@[simp] theorem State.l1Drop_warps (s : State) (c : Nat) (f : L1Line → Bool) : (s.l1Drop c f).warps = s.warps := rfl
@[simp] theorem State.l1Drop_copies (s : State) (c : Nat) (f : L1Line → Bool) : (s.l1Drop c f).copies = s.copies := rfl
@[simp] theorem State.l1Drop_casts (s : State) (c : Nat) (f : L1Line → Bool) : (s.l1Drop c f).casts = s.casts := rfl
@[simp] theorem State.l1Drop_loads (s : State) (c : Nat) (f : L1Line → Bool) : (s.l1Drop c f).loads = s.loads := rfl
@[simp] theorem State.l1Drop_stores (s : State) (c : Nat) (f : L1Line → Bool) : (s.l1Drop c f).stores = s.stores := rfl
@[simp] theorem State.l1Drop_launches (s : State) (c : Nat) (f : L1Line → Bool) : (s.l1Drop c f).launches = s.launches := rfl
@[simp] theorem State.l1Drop_nextLaunch (s : State) (c : Nat) (f : L1Line → Bool) : (s.l1Drop c f).nextLaunch = s.nextLaunch := 
  rfl
@[simp] theorem State.l1Drop_offers (s : State) (c : Nat) (f : L1Line → Bool) : (s.l1Drop c f).offers = s.offers := rfl
@[simp] theorem State.l1Drop_origin (s : State) (c : Nat) (f : L1Line → Bool) : (s.l1Drop c f).origin = s.origin := rfl
@[simp] theorem State.l1Drop_gang (s : State) (c : Nat) (f : L1Line → Bool) : (s.l1Drop c f).gang = s.gang := rfl
@[simp] theorem State.l1Drop_windows (s : State) (c : Nat) (f : L1Line → Bool) : (s.l1Drop c f).windows = s.windows := rfl
@[simp] theorem State.l1Drop_ctxs (s : State) (c : Nat) (f : L1Line → Bool) : (s.l1Drop c f).ctxs = s.ctxs := rfl
@[simp] theorem State.l1Drop_everEn (s : State) (c : Nat) (f : L1Line → Bool) : (s.l1Drop c f).everEn = s.everEn := rfl
@[simp] theorem State.l1Drop_handles (s : State) (c : Nat) (f : L1Line → Bool) : (s.l1Drop c f).handles = s.handles := rfl
@[simp] theorem State.l1Drop_prompts (s : State) (c : Nat) (f : L1Line → Bool) : (s.l1Drop c f).prompts = s.prompts := rfl
@[simp] theorem State.l1Drop_strikes (s : State) (c : Nat) (f : L1Line → Bool) : (s.l1Drop c f).strikes = s.strikes := rfl
@[simp] theorem State.l1Drop_ipool (s : State) (c : Nat) (f : L1Line → Bool) : (s.l1Drop c f).ipool = s.ipool := rfl
@[simp] theorem State.l1Drop_slabs (s : State) (c : Nat) (f : L1Line → Bool) : (s.l1Drop c f).slabs = s.slabs := rfl
@[simp] theorem State.l1Drop_relMask (s : State) (c : Nat) (f : L1Line → Bool) : (s.l1Drop c f).relMask = s.relMask := rfl
@[simp] theorem State.l1Drop_relCtx (s : State) (c : Nat) (f : L1Line → Bool) : (s.l1Drop c f).relCtx = s.relCtx := rfl
@[simp] theorem State.l1Drop_ports (s : State) (c : Nat) (f : L1Line → Bool) : (s.l1Drop c f).ports = s.ports := rfl
@[simp] theorem State.l1Drop_sems (s : State) (c : Nat) (f : L1Line → Bool) : (s.l1Drop c f).sems = s.sems := rfl
@[simp] theorem State.l1Drop_peers (s : State) (c : Nat) (f : L1Line → Bool) : (s.l1Drop c f).peers = s.peers := rfl
@[simp] theorem State.l1Drop_sent (s : State) (c : Nat) (f : L1Line → Bool) : (s.l1Drop c f).sent = s.sent := rfl
@[simp] theorem State.l1Drop_reply (s : State) (c : Nat) (f : L1Line → Bool) : (s.l1Drop c f).reply = s.reply := rfl
@[simp] theorem State.l1Drop_cores (s : State) (c : Nat) (f : L1Line → Bool) : (s.l1Drop c f).cores = s.cores := rfl
@[simp] theorem State.l1Drop_wear (s : State) (c : Nat) (f : L1Line → Bool) : (s.l1Drop c f).wear = s.wear := rfl
@[simp] theorem State.l1Drop_dcmap (s : State) (c : Nat) (f : L1Line → Bool) : (s.l1Drop c f).dcmap = s.dcmap := rfl
@[simp] theorem State.l1Drop_lastseq (s : State) (c : Nat) (f : L1Line → Bool) : (s.l1Drop c f).lastseq = s.lastseq := rfl
@[simp] theorem State.l1Drop_policy (s : State) (c : Nat) (f : L1Line → Bool) : (s.l1Drop c f).policy = s.policy := rfl
@[simp] theorem State.l1Drop_armed (s : State) (c : Nat) (f : L1Line → Bool) : (s.l1Drop c f).armed = s.armed := rfl
@[simp] theorem State.l1Drop_polBad (s : State) (c : Nat) (f : L1Line → Bool) : (s.l1Drop c f).polBad = s.polBad := rfl
@[simp] theorem State.l1Drop_nonce (s : State) (c : Nat) (f : L1Line → Bool) : (s.l1Drop c f).nonce = s.nonce := rfl
@[simp] theorem State.l1Drop_attBusy (s : State) (c : Nat) (f : L1Line → Bool) : (s.l1Drop c f).attBusy = s.attBusy := rfl
@[simp] theorem State.l1Drop_attNonce (s : State) (c : Nat) (f : L1Line → Bool) : (s.l1Drop c f).attNonce = s.attNonce := rfl
@[simp] theorem State.l1Drop_report (s : State) (c : Nat) (f : L1Line → Bool) : (s.l1Drop c f).report = s.report := rfl
@[simp] theorem State.l1Drop_watts (s : State) (c : Nat) (f : L1Line → Bool) : (s.l1Drop c f).watts = s.watts := rfl
@[simp] theorem State.l1Drop_temps (s : State) (c : Nat) (f : L1Line → Bool) : (s.l1Drop c f).temps = s.temps := rfl
@[simp] theorem State.l1Drop_thr (s : State) (c : Nat) (f : L1Line → Bool) : (s.l1Drop c f).thr = s.thr := rfl
@[simp] theorem State.l1Drop_throttled (s : State) (c : Nat) (f : L1Line → Bool) : (s.l1Drop c f).throttled = s.throttled := rfl
@[simp] theorem State.l1Drop_clock (s : State) (c : Nat) (f : L1Line → Bool) : (s.l1Drop c f).clock = s.clock := rfl
@[simp] theorem State.l1Drop_agenda (s : State) (c : Nat) (f : L1Line → Bool) : (s.l1Drop c f).agenda = s.agenda := rfl
@[simp] theorem State.l1Drop_cur (s : State) (c : Nat) (f : L1Line → Bool) : (s.l1Drop c f).cur = s.cur := rfl
@[simp] theorem State.l1Drop_nextId (s : State) (c : Nat) (f : L1Line → Bool) : (s.l1Drop c f).nextId = s.nextId := rfl
@[simp] theorem State.l1Drop_free (s : State) (c : Nat) (f : L1Line → Bool) : (s.l1Drop c f).free = s.free := rfl

@[simp] theorem State.hubPut_mscHeld (s : State) (pa : Nat) (b : Byte) : (s.hubPut pa b).mscHeld = s.mscHeld := by
  unfold State.hubPut; dsimp only; split <;> rfl
@[simp] theorem State.hubPut_dirty (s : State) (pa : Nat) (b : Byte) : (s.hubPut pa b).dirty = s.dirty := by
  unfold State.hubPut; dsimp only; split <;> rfl
@[simp] theorem State.hubPut_dir (s : State) (pa : Nat) (b : Byte) : (s.hubPut pa b).dir = s.dir := by
  unfold State.hubPut; dsimp only; split <;> rfl
@[simp] theorem State.hubPut_olds (s : State) (pa : Nat) (b : Byte) : (s.hubPut pa b).olds = s.olds := by
  unfold State.hubPut; dsimp only; split <;> rfl
@[simp] theorem State.hubPut_rels (s : State) (pa : Nat) (b : Byte) : (s.hubPut pa b).rels = s.rels := by
  unfold State.hubPut; dsimp only; split <;> rfl
@[simp] theorem State.hubPut_l1 (s : State) (pa : Nat) (b : Byte) : (s.hubPut pa b).l1 = s.l1 := by
  unfold State.hubPut; dsimp only; split <;> rfl
@[simp] theorem State.hubPut_tlb (s : State) (pa : Nat) (b : Byte) : (s.hubPut pa b).tlb = s.tlb := by
  unfold State.hubPut; dsimp only; split <;> rfl
@[simp] theorem State.hubPut_scratch (s : State) (pa : Nat) (b : Byte) : (s.hubPut pa b).scratch = s.scratch := by
  unfold State.hubPut; dsimp only; split <;> rfl
@[simp] theorem State.hubPut_empty (s : State) (pa : Nat) (b : Byte) : (s.hubPut pa b).empty = s.empty := by
  unfold State.hubPut; dsimp only; split <;> rfl
@[simp] theorem State.hubPut_banks (s : State) (pa : Nat) (b : Byte) : (s.hubPut pa b).banks = s.banks := by
  unfold State.hubPut; dsimp only; split <;> rfl
@[simp] theorem State.hubPut_teams (s : State) (pa : Nat) (b : Byte) : (s.hubPut pa b).teams = s.teams := by
  unfold State.hubPut; dsimp only; split <;> rfl
@[simp] theorem State.hubPut_warps (s : State) (pa : Nat) (b : Byte) : (s.hubPut pa b).warps = s.warps := by
  unfold State.hubPut; dsimp only; split <;> rfl
@[simp] theorem State.hubPut_copies (s : State) (pa : Nat) (b : Byte) : (s.hubPut pa b).copies = s.copies := by
  unfold State.hubPut; dsimp only; split <;> rfl
@[simp] theorem State.hubPut_casts (s : State) (pa : Nat) (b : Byte) : (s.hubPut pa b).casts = s.casts := by
  unfold State.hubPut; dsimp only; split <;> rfl
@[simp] theorem State.hubPut_loads (s : State) (pa : Nat) (b : Byte) : (s.hubPut pa b).loads = s.loads := by
  unfold State.hubPut; dsimp only; split <;> rfl
@[simp] theorem State.hubPut_stores (s : State) (pa : Nat) (b : Byte) : (s.hubPut pa b).stores = s.stores := by
  unfold State.hubPut; dsimp only; split <;> rfl
@[simp] theorem State.hubPut_launches (s : State) (pa : Nat) (b : Byte) : (s.hubPut pa b).launches = s.launches := by
  unfold State.hubPut; dsimp only; split <;> rfl
@[simp] theorem State.hubPut_nextLaunch (s : State) (pa : Nat) (b : Byte) : (s.hubPut pa b).nextLaunch = s.nextLaunch := by
  unfold State.hubPut; dsimp only; split <;> rfl
@[simp] theorem State.hubPut_offers (s : State) (pa : Nat) (b : Byte) : (s.hubPut pa b).offers = s.offers := by
  unfold State.hubPut; dsimp only; split <;> rfl
@[simp] theorem State.hubPut_origin (s : State) (pa : Nat) (b : Byte) : (s.hubPut pa b).origin = s.origin := by
  unfold State.hubPut; dsimp only; split <;> rfl
@[simp] theorem State.hubPut_gang (s : State) (pa : Nat) (b : Byte) : (s.hubPut pa b).gang = s.gang := by
  unfold State.hubPut; dsimp only; split <;> rfl
@[simp] theorem State.hubPut_windows (s : State) (pa : Nat) (b : Byte) : (s.hubPut pa b).windows = s.windows := by
  unfold State.hubPut; dsimp only; split <;> rfl
@[simp] theorem State.hubPut_ctxs (s : State) (pa : Nat) (b : Byte) : (s.hubPut pa b).ctxs = s.ctxs := by
  unfold State.hubPut; dsimp only; split <;> rfl
@[simp] theorem State.hubPut_everEn (s : State) (pa : Nat) (b : Byte) : (s.hubPut pa b).everEn = s.everEn := by
  unfold State.hubPut; dsimp only; split <;> rfl
@[simp] theorem State.hubPut_handles (s : State) (pa : Nat) (b : Byte) : (s.hubPut pa b).handles = s.handles := by
  unfold State.hubPut; dsimp only; split <;> rfl
@[simp] theorem State.hubPut_prompts (s : State) (pa : Nat) (b : Byte) : (s.hubPut pa b).prompts = s.prompts := by
  unfold State.hubPut; dsimp only; split <;> rfl
@[simp] theorem State.hubPut_strikes (s : State) (pa : Nat) (b : Byte) : (s.hubPut pa b).strikes = s.strikes := by
  unfold State.hubPut; dsimp only; split <;> rfl
@[simp] theorem State.hubPut_ipool (s : State) (pa : Nat) (b : Byte) : (s.hubPut pa b).ipool = s.ipool := by
  unfold State.hubPut; dsimp only; split <;> rfl
@[simp] theorem State.hubPut_slabs (s : State) (pa : Nat) (b : Byte) : (s.hubPut pa b).slabs = s.slabs := by
  unfold State.hubPut; dsimp only; split <;> rfl
@[simp] theorem State.hubPut_relMask (s : State) (pa : Nat) (b : Byte) : (s.hubPut pa b).relMask = s.relMask := by
  unfold State.hubPut; dsimp only; split <;> rfl
@[simp] theorem State.hubPut_relCtx (s : State) (pa : Nat) (b : Byte) : (s.hubPut pa b).relCtx = s.relCtx := by
  unfold State.hubPut; dsimp only; split <;> rfl
@[simp] theorem State.hubPut_ports (s : State) (pa : Nat) (b : Byte) : (s.hubPut pa b).ports = s.ports := by
  unfold State.hubPut; dsimp only; split <;> rfl
@[simp] theorem State.hubPut_sems (s : State) (pa : Nat) (b : Byte) : (s.hubPut pa b).sems = s.sems := by
  unfold State.hubPut; dsimp only; split <;> rfl
@[simp] theorem State.hubPut_peers (s : State) (pa : Nat) (b : Byte) : (s.hubPut pa b).peers = s.peers := by
  unfold State.hubPut; dsimp only; split <;> rfl
@[simp] theorem State.hubPut_sent (s : State) (pa : Nat) (b : Byte) : (s.hubPut pa b).sent = s.sent := by
  unfold State.hubPut; dsimp only; split <;> rfl
@[simp] theorem State.hubPut_reply (s : State) (pa : Nat) (b : Byte) : (s.hubPut pa b).reply = s.reply := by
  unfold State.hubPut; dsimp only; split <;> rfl
@[simp] theorem State.hubPut_cores (s : State) (pa : Nat) (b : Byte) : (s.hubPut pa b).cores = s.cores := by
  unfold State.hubPut; dsimp only; split <;> rfl
@[simp] theorem State.hubPut_wear (s : State) (pa : Nat) (b : Byte) : (s.hubPut pa b).wear = s.wear := by
  unfold State.hubPut; dsimp only; split <;> rfl
@[simp] theorem State.hubPut_dcmap (s : State) (pa : Nat) (b : Byte) : (s.hubPut pa b).dcmap = s.dcmap := by
  unfold State.hubPut; dsimp only; split <;> rfl
@[simp] theorem State.hubPut_lastseq (s : State) (pa : Nat) (b : Byte) : (s.hubPut pa b).lastseq = s.lastseq := by
  unfold State.hubPut; dsimp only; split <;> rfl
@[simp] theorem State.hubPut_policy (s : State) (pa : Nat) (b : Byte) : (s.hubPut pa b).policy = s.policy := by
  unfold State.hubPut; dsimp only; split <;> rfl
@[simp] theorem State.hubPut_armed (s : State) (pa : Nat) (b : Byte) : (s.hubPut pa b).armed = s.armed := by
  unfold State.hubPut; dsimp only; split <;> rfl
@[simp] theorem State.hubPut_polBad (s : State) (pa : Nat) (b : Byte) : (s.hubPut pa b).polBad = s.polBad := by
  unfold State.hubPut; dsimp only; split <;> rfl
@[simp] theorem State.hubPut_nonce (s : State) (pa : Nat) (b : Byte) : (s.hubPut pa b).nonce = s.nonce := by
  unfold State.hubPut; dsimp only; split <;> rfl
@[simp] theorem State.hubPut_attBusy (s : State) (pa : Nat) (b : Byte) : (s.hubPut pa b).attBusy = s.attBusy := by
  unfold State.hubPut; dsimp only; split <;> rfl
@[simp] theorem State.hubPut_attNonce (s : State) (pa : Nat) (b : Byte) : (s.hubPut pa b).attNonce = s.attNonce := by
  unfold State.hubPut; dsimp only; split <;> rfl
@[simp] theorem State.hubPut_report (s : State) (pa : Nat) (b : Byte) : (s.hubPut pa b).report = s.report := by
  unfold State.hubPut; dsimp only; split <;> rfl
@[simp] theorem State.hubPut_watts (s : State) (pa : Nat) (b : Byte) : (s.hubPut pa b).watts = s.watts := by
  unfold State.hubPut; dsimp only; split <;> rfl
@[simp] theorem State.hubPut_temps (s : State) (pa : Nat) (b : Byte) : (s.hubPut pa b).temps = s.temps := by
  unfold State.hubPut; dsimp only; split <;> rfl
@[simp] theorem State.hubPut_thr (s : State) (pa : Nat) (b : Byte) : (s.hubPut pa b).thr = s.thr := by
  unfold State.hubPut; dsimp only; split <;> rfl
@[simp] theorem State.hubPut_throttled (s : State) (pa : Nat) (b : Byte) : (s.hubPut pa b).throttled = s.throttled := by
  unfold State.hubPut; dsimp only; split <;> rfl
@[simp] theorem State.hubPut_clock (s : State) (pa : Nat) (b : Byte) : (s.hubPut pa b).clock = s.clock := by
  unfold State.hubPut; dsimp only; split <;> rfl
@[simp] theorem State.hubPut_agenda (s : State) (pa : Nat) (b : Byte) : (s.hubPut pa b).agenda = s.agenda := by
  unfold State.hubPut; dsimp only; split <;> rfl
@[simp] theorem State.hubPut_cur (s : State) (pa : Nat) (b : Byte) : (s.hubPut pa b).cur = s.cur := by
  unfold State.hubPut; dsimp only; split <;> rfl
@[simp] theorem State.hubPut_nextId (s : State) (pa : Nat) (b : Byte) : (s.hubPut pa b).nextId = s.nextId := by
  unfold State.hubPut; dsimp only; split <;> rfl
@[simp] theorem State.hubPut_free (s : State) (pa : Nat) (b : Byte) : (s.hubPut pa b).free = s.free := by
  unfold State.hubPut; dsimp only; split <;> rfl

@[simp] theorem State.mscFill_mem (s : State) (l : Nat) : (s.mscFill l).mem = s.mem := by unfold State.mscFill; split <;> rfl
@[simp] theorem State.mscFill_mscDirty (s : State) (l : Nat) : (s.mscFill l).mscDirty = s.mscDirty := by
  unfold State.mscFill; split <;> rfl
@[simp] theorem State.mscFill_dirty (s : State) (l : Nat) : (s.mscFill l).dirty = s.dirty := by
  unfold State.mscFill; split <;> rfl
@[simp] theorem State.mscFill_dir (s : State) (l : Nat) : (s.mscFill l).dir = s.dir := by unfold State.mscFill; split <;> rfl
@[simp] theorem State.mscFill_olds (s : State) (l : Nat) : (s.mscFill l).olds = s.olds := by unfold State.mscFill; split <;> rfl
@[simp] theorem State.mscFill_rels (s : State) (l : Nat) : (s.mscFill l).rels = s.rels := by unfold State.mscFill; split <;> rfl
@[simp] theorem State.mscFill_l1 (s : State) (l : Nat) : (s.mscFill l).l1 = s.l1 := by unfold State.mscFill; split <;> rfl
@[simp] theorem State.mscFill_tlb (s : State) (l : Nat) : (s.mscFill l).tlb = s.tlb := by unfold State.mscFill; split <;> rfl
@[simp] theorem State.mscFill_scratch (s : State) (l : Nat) : (s.mscFill l).scratch = s.scratch := by
  unfold State.mscFill; split <;> rfl
@[simp] theorem State.mscFill_empty (s : State) (l : Nat) : (s.mscFill l).empty = s.empty := by
  unfold State.mscFill; split <;> rfl
@[simp] theorem State.mscFill_banks (s : State) (l : Nat) : (s.mscFill l).banks = s.banks := by
  unfold State.mscFill; split <;> rfl
@[simp] theorem State.mscFill_teams (s : State) (l : Nat) : (s.mscFill l).teams = s.teams := by
  unfold State.mscFill; split <;> rfl
@[simp] theorem State.mscFill_warps (s : State) (l : Nat) : (s.mscFill l).warps = s.warps := by
  unfold State.mscFill; split <;> rfl
@[simp] theorem State.mscFill_copies (s : State) (l : Nat) : (s.mscFill l).copies = s.copies := by
  unfold State.mscFill; split <;> rfl
@[simp] theorem State.mscFill_casts (s : State) (l : Nat) : (s.mscFill l).casts = s.casts := by
  unfold State.mscFill; split <;> rfl
@[simp] theorem State.mscFill_loads (s : State) (l : Nat) : (s.mscFill l).loads = s.loads := by
  unfold State.mscFill; split <;> rfl
@[simp] theorem State.mscFill_stores (s : State) (l : Nat) : (s.mscFill l).stores = s.stores := by
  unfold State.mscFill; split <;> rfl
@[simp] theorem State.mscFill_launches (s : State) (l : Nat) : (s.mscFill l).launches = s.launches := by
  unfold State.mscFill; split <;> rfl
@[simp] theorem State.mscFill_nextLaunch (s : State) (l : Nat) : (s.mscFill l).nextLaunch = s.nextLaunch := by
  unfold State.mscFill; split <;> rfl
@[simp] theorem State.mscFill_offers (s : State) (l : Nat) : (s.mscFill l).offers = s.offers := by
  unfold State.mscFill; split <;> rfl
@[simp] theorem State.mscFill_origin (s : State) (l : Nat) : (s.mscFill l).origin = s.origin := by
  unfold State.mscFill; split <;> rfl
@[simp] theorem State.mscFill_gang (s : State) (l : Nat) : (s.mscFill l).gang = s.gang := by unfold State.mscFill; split <;> rfl
@[simp] theorem State.mscFill_windows (s : State) (l : Nat) : (s.mscFill l).windows = s.windows := by
  unfold State.mscFill; split <;> rfl
@[simp] theorem State.mscFill_ctxs (s : State) (l : Nat) : (s.mscFill l).ctxs = s.ctxs := by unfold State.mscFill; split <;> rfl
@[simp] theorem State.mscFill_everEn (s : State) (l : Nat) : (s.mscFill l).everEn = s.everEn := by
  unfold State.mscFill; split <;> rfl
@[simp] theorem State.mscFill_handles (s : State) (l : Nat) : (s.mscFill l).handles = s.handles := by
  unfold State.mscFill; split <;> rfl
@[simp] theorem State.mscFill_prompts (s : State) (l : Nat) : (s.mscFill l).prompts = s.prompts := by
  unfold State.mscFill; split <;> rfl
@[simp] theorem State.mscFill_strikes (s : State) (l : Nat) : (s.mscFill l).strikes = s.strikes := by
  unfold State.mscFill; split <;> rfl
@[simp] theorem State.mscFill_ipool (s : State) (l : Nat) : (s.mscFill l).ipool = s.ipool := by
  unfold State.mscFill; split <;> rfl
@[simp] theorem State.mscFill_slabs (s : State) (l : Nat) : (s.mscFill l).slabs = s.slabs := by
  unfold State.mscFill; split <;> rfl
@[simp] theorem State.mscFill_relMask (s : State) (l : Nat) : (s.mscFill l).relMask = s.relMask := by
  unfold State.mscFill; split <;> rfl
@[simp] theorem State.mscFill_relCtx (s : State) (l : Nat) : (s.mscFill l).relCtx = s.relCtx := by
  unfold State.mscFill; split <;> rfl
@[simp] theorem State.mscFill_ports (s : State) (l : Nat) : (s.mscFill l).ports = s.ports := by
  unfold State.mscFill; split <;> rfl
@[simp] theorem State.mscFill_sems (s : State) (l : Nat) : (s.mscFill l).sems = s.sems := by unfold State.mscFill; split <;> rfl
@[simp] theorem State.mscFill_peers (s : State) (l : Nat) : (s.mscFill l).peers = s.peers := by
  unfold State.mscFill; split <;> rfl
@[simp] theorem State.mscFill_sent (s : State) (l : Nat) : (s.mscFill l).sent = s.sent := by unfold State.mscFill; split <;> rfl
@[simp] theorem State.mscFill_reply (s : State) (l : Nat) : (s.mscFill l).reply = s.reply := by
  unfold State.mscFill; split <;> rfl
@[simp] theorem State.mscFill_cores (s : State) (l : Nat) : (s.mscFill l).cores = s.cores := by
  unfold State.mscFill; split <;> rfl
@[simp] theorem State.mscFill_wear (s : State) (l : Nat) : (s.mscFill l).wear = s.wear := by unfold State.mscFill; split <;> rfl
@[simp] theorem State.mscFill_dcmap (s : State) (l : Nat) : (s.mscFill l).dcmap = s.dcmap := by
  unfold State.mscFill; split <;> rfl
@[simp] theorem State.mscFill_lastseq (s : State) (l : Nat) : (s.mscFill l).lastseq = s.lastseq := by
  unfold State.mscFill; split <;> rfl
@[simp] theorem State.mscFill_policy (s : State) (l : Nat) : (s.mscFill l).policy = s.policy := by
  unfold State.mscFill; split <;> rfl
@[simp] theorem State.mscFill_armed (s : State) (l : Nat) : (s.mscFill l).armed = s.armed := by
  unfold State.mscFill; split <;> rfl
@[simp] theorem State.mscFill_polBad (s : State) (l : Nat) : (s.mscFill l).polBad = s.polBad := by
  unfold State.mscFill; split <;> rfl
@[simp] theorem State.mscFill_nonce (s : State) (l : Nat) : (s.mscFill l).nonce = s.nonce := by
  unfold State.mscFill; split <;> rfl
@[simp] theorem State.mscFill_attBusy (s : State) (l : Nat) : (s.mscFill l).attBusy = s.attBusy := by
  unfold State.mscFill; split <;> rfl
@[simp] theorem State.mscFill_attNonce (s : State) (l : Nat) : (s.mscFill l).attNonce = s.attNonce := by
  unfold State.mscFill; split <;> rfl
@[simp] theorem State.mscFill_report (s : State) (l : Nat) : (s.mscFill l).report = s.report := by
  unfold State.mscFill; split <;> rfl
@[simp] theorem State.mscFill_watts (s : State) (l : Nat) : (s.mscFill l).watts = s.watts := by
  unfold State.mscFill; split <;> rfl
@[simp] theorem State.mscFill_temps (s : State) (l : Nat) : (s.mscFill l).temps = s.temps := by
  unfold State.mscFill; split <;> rfl
@[simp] theorem State.mscFill_thr (s : State) (l : Nat) : (s.mscFill l).thr = s.thr := by unfold State.mscFill; split <;> rfl
@[simp] theorem State.mscFill_throttled (s : State) (l : Nat) : (s.mscFill l).throttled = s.throttled := by
  unfold State.mscFill; split <;> rfl
@[simp] theorem State.mscFill_clock (s : State) (l : Nat) : (s.mscFill l).clock = s.clock := by
  unfold State.mscFill; split <;> rfl
@[simp] theorem State.mscFill_agenda (s : State) (l : Nat) : (s.mscFill l).agenda = s.agenda := by
  unfold State.mscFill; split <;> rfl
@[simp] theorem State.mscFill_cur (s : State) (l : Nat) : (s.mscFill l).cur = s.cur := by unfold State.mscFill; split <;> rfl
@[simp] theorem State.mscFill_nextId (s : State) (l : Nat) : (s.mscFill l).nextId = s.nextId := by
  unfold State.mscFill; split <;> rfl
@[simp] theorem State.mscFill_free (s : State) (l : Nat) : (s.mscFill l).free = s.free := by unfold State.mscFill; split <;> rfl

@[simp] theorem State.noteOld_mem (s : State) (pas : List Nat) : (s.noteOld pas).mem = s.mem := by
  unfold State.noteOld; split <;> rfl
@[simp] theorem State.noteOld_mscHeld (s : State) (pas : List Nat) : (s.noteOld pas).mscHeld = s.mscHeld := by
  unfold State.noteOld; split <;> rfl
@[simp] theorem State.noteOld_mscDirty (s : State) (pas : List Nat) : (s.noteOld pas).mscDirty = s.mscDirty := by
  unfold State.noteOld; split <;> rfl
@[simp] theorem State.noteOld_dirty (s : State) (pas : List Nat) : (s.noteOld pas).dirty = s.dirty := by
  unfold State.noteOld; split <;> rfl
@[simp] theorem State.noteOld_dir (s : State) (pas : List Nat) : (s.noteOld pas).dir = s.dir := by
  unfold State.noteOld; split <;> rfl
@[simp] theorem State.noteOld_rels (s : State) (pas : List Nat) : (s.noteOld pas).rels = s.rels := by
  unfold State.noteOld; split <;> rfl
@[simp] theorem State.noteOld_l1 (s : State) (pas : List Nat) : (s.noteOld pas).l1 = s.l1 := by
  unfold State.noteOld; split <;> rfl
@[simp] theorem State.noteOld_tlb (s : State) (pas : List Nat) : (s.noteOld pas).tlb = s.tlb := by
  unfold State.noteOld; split <;> rfl
@[simp] theorem State.noteOld_scratch (s : State) (pas : List Nat) : (s.noteOld pas).scratch = s.scratch := by
  unfold State.noteOld; split <;> rfl
@[simp] theorem State.noteOld_empty (s : State) (pas : List Nat) : (s.noteOld pas).empty = s.empty := by
  unfold State.noteOld; split <;> rfl
@[simp] theorem State.noteOld_banks (s : State) (pas : List Nat) : (s.noteOld pas).banks = s.banks := by
  unfold State.noteOld; split <;> rfl
@[simp] theorem State.noteOld_teams (s : State) (pas : List Nat) : (s.noteOld pas).teams = s.teams := by
  unfold State.noteOld; split <;> rfl
@[simp] theorem State.noteOld_warps (s : State) (pas : List Nat) : (s.noteOld pas).warps = s.warps := by
  unfold State.noteOld; split <;> rfl
@[simp] theorem State.noteOld_copies (s : State) (pas : List Nat) : (s.noteOld pas).copies = s.copies := by
  unfold State.noteOld; split <;> rfl
@[simp] theorem State.noteOld_casts (s : State) (pas : List Nat) : (s.noteOld pas).casts = s.casts := by
  unfold State.noteOld; split <;> rfl
@[simp] theorem State.noteOld_loads (s : State) (pas : List Nat) : (s.noteOld pas).loads = s.loads := by
  unfold State.noteOld; split <;> rfl
@[simp] theorem State.noteOld_stores (s : State) (pas : List Nat) : (s.noteOld pas).stores = s.stores := by
  unfold State.noteOld; split <;> rfl
@[simp] theorem State.noteOld_launches (s : State) (pas : List Nat) : (s.noteOld pas).launches = s.launches := by
  unfold State.noteOld; split <;> rfl
@[simp] theorem State.noteOld_nextLaunch (s : State) (pas : List Nat) : (s.noteOld pas).nextLaunch = s.nextLaunch := by
  unfold State.noteOld; split <;> rfl
@[simp] theorem State.noteOld_offers (s : State) (pas : List Nat) : (s.noteOld pas).offers = s.offers := by
  unfold State.noteOld; split <;> rfl
@[simp] theorem State.noteOld_origin (s : State) (pas : List Nat) : (s.noteOld pas).origin = s.origin := by
  unfold State.noteOld; split <;> rfl
@[simp] theorem State.noteOld_gang (s : State) (pas : List Nat) : (s.noteOld pas).gang = s.gang := by
  unfold State.noteOld; split <;> rfl
@[simp] theorem State.noteOld_windows (s : State) (pas : List Nat) : (s.noteOld pas).windows = s.windows := by
  unfold State.noteOld; split <;> rfl
@[simp] theorem State.noteOld_ctxs (s : State) (pas : List Nat) : (s.noteOld pas).ctxs = s.ctxs := by
  unfold State.noteOld; split <;> rfl
@[simp] theorem State.noteOld_everEn (s : State) (pas : List Nat) : (s.noteOld pas).everEn = s.everEn := by
  unfold State.noteOld; split <;> rfl
@[simp] theorem State.noteOld_handles (s : State) (pas : List Nat) : (s.noteOld pas).handles = s.handles := by
  unfold State.noteOld; split <;> rfl
@[simp] theorem State.noteOld_prompts (s : State) (pas : List Nat) : (s.noteOld pas).prompts = s.prompts := by
  unfold State.noteOld; split <;> rfl
@[simp] theorem State.noteOld_strikes (s : State) (pas : List Nat) : (s.noteOld pas).strikes = s.strikes := by
  unfold State.noteOld; split <;> rfl
@[simp] theorem State.noteOld_ipool (s : State) (pas : List Nat) : (s.noteOld pas).ipool = s.ipool := by
  unfold State.noteOld; split <;> rfl
@[simp] theorem State.noteOld_slabs (s : State) (pas : List Nat) : (s.noteOld pas).slabs = s.slabs := by
  unfold State.noteOld; split <;> rfl
@[simp] theorem State.noteOld_relMask (s : State) (pas : List Nat) : (s.noteOld pas).relMask = s.relMask := by
  unfold State.noteOld; split <;> rfl
@[simp] theorem State.noteOld_relCtx (s : State) (pas : List Nat) : (s.noteOld pas).relCtx = s.relCtx := by
  unfold State.noteOld; split <;> rfl
@[simp] theorem State.noteOld_ports (s : State) (pas : List Nat) : (s.noteOld pas).ports = s.ports := by
  unfold State.noteOld; split <;> rfl
@[simp] theorem State.noteOld_sems (s : State) (pas : List Nat) : (s.noteOld pas).sems = s.sems := by
  unfold State.noteOld; split <;> rfl
@[simp] theorem State.noteOld_peers (s : State) (pas : List Nat) : (s.noteOld pas).peers = s.peers := by
  unfold State.noteOld; split <;> rfl
@[simp] theorem State.noteOld_sent (s : State) (pas : List Nat) : (s.noteOld pas).sent = s.sent := by
  unfold State.noteOld; split <;> rfl
@[simp] theorem State.noteOld_reply (s : State) (pas : List Nat) : (s.noteOld pas).reply = s.reply := by
  unfold State.noteOld; split <;> rfl
@[simp] theorem State.noteOld_cores (s : State) (pas : List Nat) : (s.noteOld pas).cores = s.cores := by
  unfold State.noteOld; split <;> rfl
@[simp] theorem State.noteOld_wear (s : State) (pas : List Nat) : (s.noteOld pas).wear = s.wear := by
  unfold State.noteOld; split <;> rfl
@[simp] theorem State.noteOld_dcmap (s : State) (pas : List Nat) : (s.noteOld pas).dcmap = s.dcmap := by
  unfold State.noteOld; split <;> rfl
@[simp] theorem State.noteOld_lastseq (s : State) (pas : List Nat) : (s.noteOld pas).lastseq = s.lastseq := by
  unfold State.noteOld; split <;> rfl
@[simp] theorem State.noteOld_policy (s : State) (pas : List Nat) : (s.noteOld pas).policy = s.policy := by
  unfold State.noteOld; split <;> rfl
@[simp] theorem State.noteOld_armed (s : State) (pas : List Nat) : (s.noteOld pas).armed = s.armed := by
  unfold State.noteOld; split <;> rfl
@[simp] theorem State.noteOld_polBad (s : State) (pas : List Nat) : (s.noteOld pas).polBad = s.polBad := by
  unfold State.noteOld; split <;> rfl
@[simp] theorem State.noteOld_nonce (s : State) (pas : List Nat) : (s.noteOld pas).nonce = s.nonce := by
  unfold State.noteOld; split <;> rfl
@[simp] theorem State.noteOld_attBusy (s : State) (pas : List Nat) : (s.noteOld pas).attBusy = s.attBusy := by
  unfold State.noteOld; split <;> rfl
@[simp] theorem State.noteOld_attNonce (s : State) (pas : List Nat) : (s.noteOld pas).attNonce = s.attNonce := by
  unfold State.noteOld; split <;> rfl
@[simp] theorem State.noteOld_report (s : State) (pas : List Nat) : (s.noteOld pas).report = s.report := by
  unfold State.noteOld; split <;> rfl
@[simp] theorem State.noteOld_watts (s : State) (pas : List Nat) : (s.noteOld pas).watts = s.watts := by
  unfold State.noteOld; split <;> rfl
@[simp] theorem State.noteOld_temps (s : State) (pas : List Nat) : (s.noteOld pas).temps = s.temps := by
  unfold State.noteOld; split <;> rfl
@[simp] theorem State.noteOld_thr (s : State) (pas : List Nat) : (s.noteOld pas).thr = s.thr := by
  unfold State.noteOld; split <;> rfl
@[simp] theorem State.noteOld_throttled (s : State) (pas : List Nat) : (s.noteOld pas).throttled = s.throttled := by
  unfold State.noteOld; split <;> rfl
@[simp] theorem State.noteOld_clock (s : State) (pas : List Nat) : (s.noteOld pas).clock = s.clock := by
  unfold State.noteOld; split <;> rfl
@[simp] theorem State.noteOld_agenda (s : State) (pas : List Nat) : (s.noteOld pas).agenda = s.agenda := by
  unfold State.noteOld; split <;> rfl
@[simp] theorem State.noteOld_cur (s : State) (pas : List Nat) : (s.noteOld pas).cur = s.cur := by
  unfold State.noteOld; split <;> rfl
@[simp] theorem State.noteOld_nextId (s : State) (pas : List Nat) : (s.noteOld pas).nextId = s.nextId := by
  unfold State.noteOld; split <;> rfl
@[simp] theorem State.noteOld_free (s : State) (pas : List Nat) : (s.noteOld pas).free = s.free := by
  unfold State.noteOld; split <;> rfl

@[simp] theorem State.clearRels_mem (s : State) (pas : List Nat) : (s.clearRels pas).mem = s.mem := rfl
@[simp] theorem State.clearRels_mscHeld (s : State) (pas : List Nat) : (s.clearRels pas).mscHeld = s.mscHeld := rfl
@[simp] theorem State.clearRels_mscDirty (s : State) (pas : List Nat) : (s.clearRels pas).mscDirty = s.mscDirty := rfl
@[simp] theorem State.clearRels_dirty (s : State) (pas : List Nat) : (s.clearRels pas).dirty = s.dirty := rfl
@[simp] theorem State.clearRels_dir (s : State) (pas : List Nat) : (s.clearRels pas).dir = s.dir := rfl
@[simp] theorem State.clearRels_olds (s : State) (pas : List Nat) : (s.clearRels pas).olds = s.olds := rfl
@[simp] theorem State.clearRels_l1 (s : State) (pas : List Nat) : (s.clearRels pas).l1 = s.l1 := rfl
@[simp] theorem State.clearRels_tlb (s : State) (pas : List Nat) : (s.clearRels pas).tlb = s.tlb := rfl
@[simp] theorem State.clearRels_scratch (s : State) (pas : List Nat) : (s.clearRels pas).scratch = s.scratch := rfl
@[simp] theorem State.clearRels_empty (s : State) (pas : List Nat) : (s.clearRels pas).empty = s.empty := rfl
@[simp] theorem State.clearRels_banks (s : State) (pas : List Nat) : (s.clearRels pas).banks = s.banks := rfl
@[simp] theorem State.clearRels_teams (s : State) (pas : List Nat) : (s.clearRels pas).teams = s.teams := rfl
@[simp] theorem State.clearRels_warps (s : State) (pas : List Nat) : (s.clearRels pas).warps = s.warps := rfl
@[simp] theorem State.clearRels_copies (s : State) (pas : List Nat) : (s.clearRels pas).copies = s.copies := rfl
@[simp] theorem State.clearRels_casts (s : State) (pas : List Nat) : (s.clearRels pas).casts = s.casts := rfl
@[simp] theorem State.clearRels_loads (s : State) (pas : List Nat) : (s.clearRels pas).loads = s.loads := rfl
@[simp] theorem State.clearRels_stores (s : State) (pas : List Nat) : (s.clearRels pas).stores = s.stores := rfl
@[simp] theorem State.clearRels_launches (s : State) (pas : List Nat) : (s.clearRels pas).launches = s.launches := rfl
@[simp] theorem State.clearRels_nextLaunch (s : State) (pas : List Nat) : (s.clearRels pas).nextLaunch = s.nextLaunch := rfl
@[simp] theorem State.clearRels_offers (s : State) (pas : List Nat) : (s.clearRels pas).offers = s.offers := rfl
@[simp] theorem State.clearRels_origin (s : State) (pas : List Nat) : (s.clearRels pas).origin = s.origin := rfl
@[simp] theorem State.clearRels_gang (s : State) (pas : List Nat) : (s.clearRels pas).gang = s.gang := rfl
@[simp] theorem State.clearRels_windows (s : State) (pas : List Nat) : (s.clearRels pas).windows = s.windows := rfl
@[simp] theorem State.clearRels_ctxs (s : State) (pas : List Nat) : (s.clearRels pas).ctxs = s.ctxs := rfl
@[simp] theorem State.clearRels_everEn (s : State) (pas : List Nat) : (s.clearRels pas).everEn = s.everEn := rfl
@[simp] theorem State.clearRels_handles (s : State) (pas : List Nat) : (s.clearRels pas).handles = s.handles := rfl
@[simp] theorem State.clearRels_prompts (s : State) (pas : List Nat) : (s.clearRels pas).prompts = s.prompts := rfl
@[simp] theorem State.clearRels_strikes (s : State) (pas : List Nat) : (s.clearRels pas).strikes = s.strikes := rfl
@[simp] theorem State.clearRels_ipool (s : State) (pas : List Nat) : (s.clearRels pas).ipool = s.ipool := rfl
@[simp] theorem State.clearRels_slabs (s : State) (pas : List Nat) : (s.clearRels pas).slabs = s.slabs := rfl
@[simp] theorem State.clearRels_relMask (s : State) (pas : List Nat) : (s.clearRels pas).relMask = s.relMask := rfl
@[simp] theorem State.clearRels_relCtx (s : State) (pas : List Nat) : (s.clearRels pas).relCtx = s.relCtx := rfl
@[simp] theorem State.clearRels_ports (s : State) (pas : List Nat) : (s.clearRels pas).ports = s.ports := rfl
@[simp] theorem State.clearRels_sems (s : State) (pas : List Nat) : (s.clearRels pas).sems = s.sems := rfl
@[simp] theorem State.clearRels_peers (s : State) (pas : List Nat) : (s.clearRels pas).peers = s.peers := rfl
@[simp] theorem State.clearRels_sent (s : State) (pas : List Nat) : (s.clearRels pas).sent = s.sent := rfl
@[simp] theorem State.clearRels_reply (s : State) (pas : List Nat) : (s.clearRels pas).reply = s.reply := rfl
@[simp] theorem State.clearRels_cores (s : State) (pas : List Nat) : (s.clearRels pas).cores = s.cores := rfl
@[simp] theorem State.clearRels_wear (s : State) (pas : List Nat) : (s.clearRels pas).wear = s.wear := rfl
@[simp] theorem State.clearRels_dcmap (s : State) (pas : List Nat) : (s.clearRels pas).dcmap = s.dcmap := rfl
@[simp] theorem State.clearRels_lastseq (s : State) (pas : List Nat) : (s.clearRels pas).lastseq = s.lastseq := rfl
@[simp] theorem State.clearRels_policy (s : State) (pas : List Nat) : (s.clearRels pas).policy = s.policy := rfl
@[simp] theorem State.clearRels_armed (s : State) (pas : List Nat) : (s.clearRels pas).armed = s.armed := rfl
@[simp] theorem State.clearRels_polBad (s : State) (pas : List Nat) : (s.clearRels pas).polBad = s.polBad := rfl
@[simp] theorem State.clearRels_nonce (s : State) (pas : List Nat) : (s.clearRels pas).nonce = s.nonce := rfl
@[simp] theorem State.clearRels_attBusy (s : State) (pas : List Nat) : (s.clearRels pas).attBusy = s.attBusy := rfl
@[simp] theorem State.clearRels_attNonce (s : State) (pas : List Nat) : (s.clearRels pas).attNonce = s.attNonce := rfl
@[simp] theorem State.clearRels_report (s : State) (pas : List Nat) : (s.clearRels pas).report = s.report := rfl
@[simp] theorem State.clearRels_watts (s : State) (pas : List Nat) : (s.clearRels pas).watts = s.watts := rfl
@[simp] theorem State.clearRels_temps (s : State) (pas : List Nat) : (s.clearRels pas).temps = s.temps := rfl
@[simp] theorem State.clearRels_thr (s : State) (pas : List Nat) : (s.clearRels pas).thr = s.thr := rfl
@[simp] theorem State.clearRels_throttled (s : State) (pas : List Nat) : (s.clearRels pas).throttled = s.throttled := rfl
@[simp] theorem State.clearRels_clock (s : State) (pas : List Nat) : (s.clearRels pas).clock = s.clock := rfl
@[simp] theorem State.clearRels_agenda (s : State) (pas : List Nat) : (s.clearRels pas).agenda = s.agenda := rfl
@[simp] theorem State.clearRels_cur (s : State) (pas : List Nat) : (s.clearRels pas).cur = s.cur := rfl
@[simp] theorem State.clearRels_nextId (s : State) (pas : List Nat) : (s.clearRels pas).nextId = s.nextId := rfl
@[simp] theorem State.clearRels_free (s : State) (pas : List Nat) : (s.clearRels pas).free = s.free := rfl

@[simp] theorem State.modWarp_mem (s : State) (k : Nat) (g : Warp → Warp) : (s.modWarp k g).mem = s.mem := by
  unfold State.modWarp; split <;> rfl
@[simp] theorem State.modWarp_mscHeld (s : State) (k : Nat) (g : Warp → Warp) : (s.modWarp k g).mscHeld = s.mscHeld := by
  unfold State.modWarp; split <;> rfl
@[simp] theorem State.modWarp_mscDirty (s : State) (k : Nat) (g : Warp → Warp) : (s.modWarp k g).mscDirty = s.mscDirty := by
  unfold State.modWarp; split <;> rfl
@[simp] theorem State.modWarp_dirty (s : State) (k : Nat) (g : Warp → Warp) : (s.modWarp k g).dirty = s.dirty := by
  unfold State.modWarp; split <;> rfl
@[simp] theorem State.modWarp_dir (s : State) (k : Nat) (g : Warp → Warp) : (s.modWarp k g).dir = s.dir := by
  unfold State.modWarp; split <;> rfl
@[simp] theorem State.modWarp_olds (s : State) (k : Nat) (g : Warp → Warp) : (s.modWarp k g).olds = s.olds := by
  unfold State.modWarp; split <;> rfl
@[simp] theorem State.modWarp_rels (s : State) (k : Nat) (g : Warp → Warp) : (s.modWarp k g).rels = s.rels := by
  unfold State.modWarp; split <;> rfl
@[simp] theorem State.modWarp_l1 (s : State) (k : Nat) (g : Warp → Warp) : (s.modWarp k g).l1 = s.l1 := by
  unfold State.modWarp; split <;> rfl
@[simp] theorem State.modWarp_tlb (s : State) (k : Nat) (g : Warp → Warp) : (s.modWarp k g).tlb = s.tlb := by
  unfold State.modWarp; split <;> rfl
@[simp] theorem State.modWarp_scratch (s : State) (k : Nat) (g : Warp → Warp) : (s.modWarp k g).scratch = s.scratch := by
  unfold State.modWarp; split <;> rfl
@[simp] theorem State.modWarp_empty (s : State) (k : Nat) (g : Warp → Warp) : (s.modWarp k g).empty = s.empty := by
  unfold State.modWarp; split <;> rfl
@[simp] theorem State.modWarp_banks (s : State) (k : Nat) (g : Warp → Warp) : (s.modWarp k g).banks = s.banks := by
  unfold State.modWarp; split <;> rfl
@[simp] theorem State.modWarp_teams (s : State) (k : Nat) (g : Warp → Warp) : (s.modWarp k g).teams = s.teams := by
  unfold State.modWarp; split <;> rfl
@[simp] theorem State.modWarp_copies (s : State) (k : Nat) (g : Warp → Warp) : (s.modWarp k g).copies = s.copies := by
  unfold State.modWarp; split <;> rfl
@[simp] theorem State.modWarp_casts (s : State) (k : Nat) (g : Warp → Warp) : (s.modWarp k g).casts = s.casts := by
  unfold State.modWarp; split <;> rfl
@[simp] theorem State.modWarp_loads (s : State) (k : Nat) (g : Warp → Warp) : (s.modWarp k g).loads = s.loads := by
  unfold State.modWarp; split <;> rfl
@[simp] theorem State.modWarp_stores (s : State) (k : Nat) (g : Warp → Warp) : (s.modWarp k g).stores = s.stores := by
  unfold State.modWarp; split <;> rfl
@[simp] theorem State.modWarp_launches (s : State) (k : Nat) (g : Warp → Warp) : (s.modWarp k g).launches = s.launches := by
  unfold State.modWarp; split <;> rfl
@[simp] theorem State.modWarp_nextLaunch (s : State) (k : Nat) (g : Warp → Warp) : (s.modWarp k g).nextLaunch = s.nextLaunch := by
  unfold State.modWarp; split <;> rfl
@[simp] theorem State.modWarp_offers (s : State) (k : Nat) (g : Warp → Warp) : (s.modWarp k g).offers = s.offers := by
  unfold State.modWarp; split <;> rfl
@[simp] theorem State.modWarp_origin (s : State) (k : Nat) (g : Warp → Warp) : (s.modWarp k g).origin = s.origin := by
  unfold State.modWarp; split <;> rfl
@[simp] theorem State.modWarp_gang (s : State) (k : Nat) (g : Warp → Warp) : (s.modWarp k g).gang = s.gang := by
  unfold State.modWarp; split <;> rfl
@[simp] theorem State.modWarp_windows (s : State) (k : Nat) (g : Warp → Warp) : (s.modWarp k g).windows = s.windows := by
  unfold State.modWarp; split <;> rfl
@[simp] theorem State.modWarp_ctxs (s : State) (k : Nat) (g : Warp → Warp) : (s.modWarp k g).ctxs = s.ctxs := by
  unfold State.modWarp; split <;> rfl
@[simp] theorem State.modWarp_everEn (s : State) (k : Nat) (g : Warp → Warp) : (s.modWarp k g).everEn = s.everEn := by
  unfold State.modWarp; split <;> rfl
@[simp] theorem State.modWarp_handles (s : State) (k : Nat) (g : Warp → Warp) : (s.modWarp k g).handles = s.handles := by
  unfold State.modWarp; split <;> rfl
@[simp] theorem State.modWarp_prompts (s : State) (k : Nat) (g : Warp → Warp) : (s.modWarp k g).prompts = s.prompts := by
  unfold State.modWarp; split <;> rfl
@[simp] theorem State.modWarp_strikes (s : State) (k : Nat) (g : Warp → Warp) : (s.modWarp k g).strikes = s.strikes := by
  unfold State.modWarp; split <;> rfl
@[simp] theorem State.modWarp_ipool (s : State) (k : Nat) (g : Warp → Warp) : (s.modWarp k g).ipool = s.ipool := by
  unfold State.modWarp; split <;> rfl
@[simp] theorem State.modWarp_slabs (s : State) (k : Nat) (g : Warp → Warp) : (s.modWarp k g).slabs = s.slabs := by
  unfold State.modWarp; split <;> rfl
@[simp] theorem State.modWarp_relMask (s : State) (k : Nat) (g : Warp → Warp) : (s.modWarp k g).relMask = s.relMask := by
  unfold State.modWarp; split <;> rfl
@[simp] theorem State.modWarp_relCtx (s : State) (k : Nat) (g : Warp → Warp) : (s.modWarp k g).relCtx = s.relCtx := by
  unfold State.modWarp; split <;> rfl
@[simp] theorem State.modWarp_ports (s : State) (k : Nat) (g : Warp → Warp) : (s.modWarp k g).ports = s.ports := by
  unfold State.modWarp; split <;> rfl
@[simp] theorem State.modWarp_sems (s : State) (k : Nat) (g : Warp → Warp) : (s.modWarp k g).sems = s.sems := by
  unfold State.modWarp; split <;> rfl
@[simp] theorem State.modWarp_peers (s : State) (k : Nat) (g : Warp → Warp) : (s.modWarp k g).peers = s.peers := by
  unfold State.modWarp; split <;> rfl
@[simp] theorem State.modWarp_sent (s : State) (k : Nat) (g : Warp → Warp) : (s.modWarp k g).sent = s.sent := by
  unfold State.modWarp; split <;> rfl
@[simp] theorem State.modWarp_reply (s : State) (k : Nat) (g : Warp → Warp) : (s.modWarp k g).reply = s.reply := by
  unfold State.modWarp; split <;> rfl
@[simp] theorem State.modWarp_cores (s : State) (k : Nat) (g : Warp → Warp) : (s.modWarp k g).cores = s.cores := by
  unfold State.modWarp; split <;> rfl
@[simp] theorem State.modWarp_wear (s : State) (k : Nat) (g : Warp → Warp) : (s.modWarp k g).wear = s.wear := by
  unfold State.modWarp; split <;> rfl
@[simp] theorem State.modWarp_dcmap (s : State) (k : Nat) (g : Warp → Warp) : (s.modWarp k g).dcmap = s.dcmap := by
  unfold State.modWarp; split <;> rfl
@[simp] theorem State.modWarp_lastseq (s : State) (k : Nat) (g : Warp → Warp) : (s.modWarp k g).lastseq = s.lastseq := by
  unfold State.modWarp; split <;> rfl
@[simp] theorem State.modWarp_policy (s : State) (k : Nat) (g : Warp → Warp) : (s.modWarp k g).policy = s.policy := by
  unfold State.modWarp; split <;> rfl
@[simp] theorem State.modWarp_armed (s : State) (k : Nat) (g : Warp → Warp) : (s.modWarp k g).armed = s.armed := by
  unfold State.modWarp; split <;> rfl
@[simp] theorem State.modWarp_polBad (s : State) (k : Nat) (g : Warp → Warp) : (s.modWarp k g).polBad = s.polBad := by
  unfold State.modWarp; split <;> rfl
@[simp] theorem State.modWarp_nonce (s : State) (k : Nat) (g : Warp → Warp) : (s.modWarp k g).nonce = s.nonce := by
  unfold State.modWarp; split <;> rfl
@[simp] theorem State.modWarp_attBusy (s : State) (k : Nat) (g : Warp → Warp) : (s.modWarp k g).attBusy = s.attBusy := by
  unfold State.modWarp; split <;> rfl
@[simp] theorem State.modWarp_attNonce (s : State) (k : Nat) (g : Warp → Warp) : (s.modWarp k g).attNonce = s.attNonce := by
  unfold State.modWarp; split <;> rfl
@[simp] theorem State.modWarp_report (s : State) (k : Nat) (g : Warp → Warp) : (s.modWarp k g).report = s.report := by
  unfold State.modWarp; split <;> rfl
@[simp] theorem State.modWarp_watts (s : State) (k : Nat) (g : Warp → Warp) : (s.modWarp k g).watts = s.watts := by
  unfold State.modWarp; split <;> rfl
@[simp] theorem State.modWarp_temps (s : State) (k : Nat) (g : Warp → Warp) : (s.modWarp k g).temps = s.temps := by
  unfold State.modWarp; split <;> rfl
@[simp] theorem State.modWarp_thr (s : State) (k : Nat) (g : Warp → Warp) : (s.modWarp k g).thr = s.thr := by
  unfold State.modWarp; split <;> rfl
@[simp] theorem State.modWarp_throttled (s : State) (k : Nat) (g : Warp → Warp) : (s.modWarp k g).throttled = s.throttled := by
  unfold State.modWarp; split <;> rfl
@[simp] theorem State.modWarp_clock (s : State) (k : Nat) (g : Warp → Warp) : (s.modWarp k g).clock = s.clock := by
  unfold State.modWarp; split <;> rfl
@[simp] theorem State.modWarp_agenda (s : State) (k : Nat) (g : Warp → Warp) : (s.modWarp k g).agenda = s.agenda := by
  unfold State.modWarp; split <;> rfl
@[simp] theorem State.modWarp_cur (s : State) (k : Nat) (g : Warp → Warp) : (s.modWarp k g).cur = s.cur := by
  unfold State.modWarp; split <;> rfl
@[simp] theorem State.modWarp_nextId (s : State) (k : Nat) (g : Warp → Warp) : (s.modWarp k g).nextId = s.nextId := by
  unfold State.modWarp; split <;> rfl
@[simp] theorem State.modWarp_free (s : State) (k : Nat) (g : Warp → Warp) : (s.modWarp k g).free = s.free := by
  unfold State.modWarp; split <;> rfl

@[simp] theorem State.modTeam_mem (s : State) (k : Nat) (g : Team → Team) : (s.modTeam k g).mem = s.mem := by
  unfold State.modTeam; split <;> rfl
@[simp] theorem State.modTeam_mscHeld (s : State) (k : Nat) (g : Team → Team) : (s.modTeam k g).mscHeld = s.mscHeld := by
  unfold State.modTeam; split <;> rfl
@[simp] theorem State.modTeam_mscDirty (s : State) (k : Nat) (g : Team → Team) : (s.modTeam k g).mscDirty = s.mscDirty := by
  unfold State.modTeam; split <;> rfl
@[simp] theorem State.modTeam_dirty (s : State) (k : Nat) (g : Team → Team) : (s.modTeam k g).dirty = s.dirty := by
  unfold State.modTeam; split <;> rfl
@[simp] theorem State.modTeam_dir (s : State) (k : Nat) (g : Team → Team) : (s.modTeam k g).dir = s.dir := by
  unfold State.modTeam; split <;> rfl
@[simp] theorem State.modTeam_olds (s : State) (k : Nat) (g : Team → Team) : (s.modTeam k g).olds = s.olds := by
  unfold State.modTeam; split <;> rfl
@[simp] theorem State.modTeam_rels (s : State) (k : Nat) (g : Team → Team) : (s.modTeam k g).rels = s.rels := by
  unfold State.modTeam; split <;> rfl
@[simp] theorem State.modTeam_l1 (s : State) (k : Nat) (g : Team → Team) : (s.modTeam k g).l1 = s.l1 := by
  unfold State.modTeam; split <;> rfl
@[simp] theorem State.modTeam_tlb (s : State) (k : Nat) (g : Team → Team) : (s.modTeam k g).tlb = s.tlb := by
  unfold State.modTeam; split <;> rfl
@[simp] theorem State.modTeam_scratch (s : State) (k : Nat) (g : Team → Team) : (s.modTeam k g).scratch = s.scratch := by
  unfold State.modTeam; split <;> rfl
@[simp] theorem State.modTeam_empty (s : State) (k : Nat) (g : Team → Team) : (s.modTeam k g).empty = s.empty := by
  unfold State.modTeam; split <;> rfl
@[simp] theorem State.modTeam_banks (s : State) (k : Nat) (g : Team → Team) : (s.modTeam k g).banks = s.banks := by
  unfold State.modTeam; split <;> rfl
@[simp] theorem State.modTeam_warps (s : State) (k : Nat) (g : Team → Team) : (s.modTeam k g).warps = s.warps := by
  unfold State.modTeam; split <;> rfl
@[simp] theorem State.modTeam_copies (s : State) (k : Nat) (g : Team → Team) : (s.modTeam k g).copies = s.copies := by
  unfold State.modTeam; split <;> rfl
@[simp] theorem State.modTeam_casts (s : State) (k : Nat) (g : Team → Team) : (s.modTeam k g).casts = s.casts := by
  unfold State.modTeam; split <;> rfl
@[simp] theorem State.modTeam_loads (s : State) (k : Nat) (g : Team → Team) : (s.modTeam k g).loads = s.loads := by
  unfold State.modTeam; split <;> rfl
@[simp] theorem State.modTeam_stores (s : State) (k : Nat) (g : Team → Team) : (s.modTeam k g).stores = s.stores := by
  unfold State.modTeam; split <;> rfl
@[simp] theorem State.modTeam_launches (s : State) (k : Nat) (g : Team → Team) : (s.modTeam k g).launches = s.launches := by
  unfold State.modTeam; split <;> rfl
@[simp] theorem State.modTeam_nextLaunch (s : State) (k : Nat) (g : Team → Team) : (s.modTeam k g).nextLaunch = s.nextLaunch := by
  unfold State.modTeam; split <;> rfl
@[simp] theorem State.modTeam_offers (s : State) (k : Nat) (g : Team → Team) : (s.modTeam k g).offers = s.offers := by
  unfold State.modTeam; split <;> rfl
@[simp] theorem State.modTeam_origin (s : State) (k : Nat) (g : Team → Team) : (s.modTeam k g).origin = s.origin := by
  unfold State.modTeam; split <;> rfl
@[simp] theorem State.modTeam_gang (s : State) (k : Nat) (g : Team → Team) : (s.modTeam k g).gang = s.gang := by
  unfold State.modTeam; split <;> rfl
@[simp] theorem State.modTeam_windows (s : State) (k : Nat) (g : Team → Team) : (s.modTeam k g).windows = s.windows := by
  unfold State.modTeam; split <;> rfl
@[simp] theorem State.modTeam_ctxs (s : State) (k : Nat) (g : Team → Team) : (s.modTeam k g).ctxs = s.ctxs := by
  unfold State.modTeam; split <;> rfl
@[simp] theorem State.modTeam_everEn (s : State) (k : Nat) (g : Team → Team) : (s.modTeam k g).everEn = s.everEn := by
  unfold State.modTeam; split <;> rfl
@[simp] theorem State.modTeam_handles (s : State) (k : Nat) (g : Team → Team) : (s.modTeam k g).handles = s.handles := by
  unfold State.modTeam; split <;> rfl
@[simp] theorem State.modTeam_prompts (s : State) (k : Nat) (g : Team → Team) : (s.modTeam k g).prompts = s.prompts := by
  unfold State.modTeam; split <;> rfl
@[simp] theorem State.modTeam_strikes (s : State) (k : Nat) (g : Team → Team) : (s.modTeam k g).strikes = s.strikes := by
  unfold State.modTeam; split <;> rfl
@[simp] theorem State.modTeam_ipool (s : State) (k : Nat) (g : Team → Team) : (s.modTeam k g).ipool = s.ipool := by
  unfold State.modTeam; split <;> rfl
@[simp] theorem State.modTeam_slabs (s : State) (k : Nat) (g : Team → Team) : (s.modTeam k g).slabs = s.slabs := by
  unfold State.modTeam; split <;> rfl
@[simp] theorem State.modTeam_relMask (s : State) (k : Nat) (g : Team → Team) : (s.modTeam k g).relMask = s.relMask := by
  unfold State.modTeam; split <;> rfl
@[simp] theorem State.modTeam_relCtx (s : State) (k : Nat) (g : Team → Team) : (s.modTeam k g).relCtx = s.relCtx := by
  unfold State.modTeam; split <;> rfl
@[simp] theorem State.modTeam_ports (s : State) (k : Nat) (g : Team → Team) : (s.modTeam k g).ports = s.ports := by
  unfold State.modTeam; split <;> rfl
@[simp] theorem State.modTeam_sems (s : State) (k : Nat) (g : Team → Team) : (s.modTeam k g).sems = s.sems := by
  unfold State.modTeam; split <;> rfl
@[simp] theorem State.modTeam_peers (s : State) (k : Nat) (g : Team → Team) : (s.modTeam k g).peers = s.peers := by
  unfold State.modTeam; split <;> rfl
@[simp] theorem State.modTeam_sent (s : State) (k : Nat) (g : Team → Team) : (s.modTeam k g).sent = s.sent := by
  unfold State.modTeam; split <;> rfl
@[simp] theorem State.modTeam_reply (s : State) (k : Nat) (g : Team → Team) : (s.modTeam k g).reply = s.reply := by
  unfold State.modTeam; split <;> rfl
@[simp] theorem State.modTeam_cores (s : State) (k : Nat) (g : Team → Team) : (s.modTeam k g).cores = s.cores := by
  unfold State.modTeam; split <;> rfl
@[simp] theorem State.modTeam_wear (s : State) (k : Nat) (g : Team → Team) : (s.modTeam k g).wear = s.wear := by
  unfold State.modTeam; split <;> rfl
@[simp] theorem State.modTeam_dcmap (s : State) (k : Nat) (g : Team → Team) : (s.modTeam k g).dcmap = s.dcmap := by
  unfold State.modTeam; split <;> rfl
@[simp] theorem State.modTeam_lastseq (s : State) (k : Nat) (g : Team → Team) : (s.modTeam k g).lastseq = s.lastseq := by
  unfold State.modTeam; split <;> rfl
@[simp] theorem State.modTeam_policy (s : State) (k : Nat) (g : Team → Team) : (s.modTeam k g).policy = s.policy := by
  unfold State.modTeam; split <;> rfl
@[simp] theorem State.modTeam_armed (s : State) (k : Nat) (g : Team → Team) : (s.modTeam k g).armed = s.armed := by
  unfold State.modTeam; split <;> rfl
@[simp] theorem State.modTeam_polBad (s : State) (k : Nat) (g : Team → Team) : (s.modTeam k g).polBad = s.polBad := by
  unfold State.modTeam; split <;> rfl
@[simp] theorem State.modTeam_nonce (s : State) (k : Nat) (g : Team → Team) : (s.modTeam k g).nonce = s.nonce := by
  unfold State.modTeam; split <;> rfl
@[simp] theorem State.modTeam_attBusy (s : State) (k : Nat) (g : Team → Team) : (s.modTeam k g).attBusy = s.attBusy := by
  unfold State.modTeam; split <;> rfl
@[simp] theorem State.modTeam_attNonce (s : State) (k : Nat) (g : Team → Team) : (s.modTeam k g).attNonce = s.attNonce := by
  unfold State.modTeam; split <;> rfl
@[simp] theorem State.modTeam_report (s : State) (k : Nat) (g : Team → Team) : (s.modTeam k g).report = s.report := by
  unfold State.modTeam; split <;> rfl
@[simp] theorem State.modTeam_watts (s : State) (k : Nat) (g : Team → Team) : (s.modTeam k g).watts = s.watts := by
  unfold State.modTeam; split <;> rfl
@[simp] theorem State.modTeam_temps (s : State) (k : Nat) (g : Team → Team) : (s.modTeam k g).temps = s.temps := by
  unfold State.modTeam; split <;> rfl
@[simp] theorem State.modTeam_thr (s : State) (k : Nat) (g : Team → Team) : (s.modTeam k g).thr = s.thr := by
  unfold State.modTeam; split <;> rfl
@[simp] theorem State.modTeam_throttled (s : State) (k : Nat) (g : Team → Team) : (s.modTeam k g).throttled = s.throttled := by
  unfold State.modTeam; split <;> rfl
@[simp] theorem State.modTeam_clock (s : State) (k : Nat) (g : Team → Team) : (s.modTeam k g).clock = s.clock := by
  unfold State.modTeam; split <;> rfl
@[simp] theorem State.modTeam_agenda (s : State) (k : Nat) (g : Team → Team) : (s.modTeam k g).agenda = s.agenda := by
  unfold State.modTeam; split <;> rfl
@[simp] theorem State.modTeam_cur (s : State) (k : Nat) (g : Team → Team) : (s.modTeam k g).cur = s.cur := by
  unfold State.modTeam; split <;> rfl
@[simp] theorem State.modTeam_nextId (s : State) (k : Nat) (g : Team → Team) : (s.modTeam k g).nextId = s.nextId := by
  unfold State.modTeam; split <;> rfl
@[simp] theorem State.modTeam_free (s : State) (k : Nat) (g : Team → Team) : (s.modTeam k g).free = s.free := by
  unfold State.modTeam; split <;> rfl

@[simp] theorem State.setWarp_warps (s : State) (w : Nat) (W : Warp) :
    (s.setWarp w W).warps = tput none s.warps w (some W) := rfl

@[simp] theorem State.setTeam_teams (s : State) (k : Nat) (T : Team) :
    (s.setTeam k T).teams = tput none s.teams k (some T) := rfl


@[simp] theorem State.setWarp_team (s : State) (w : Nat) (W : Warp) (k : Nat) : (s.setWarp w W).team k = s.team k := rfl
@[simp] theorem State.setTeam_warp (s : State) (k : Nat) (T : Team) (w : Nat) : (s.setTeam k T).warp w = s.warp w := rfl
@[simp] theorem State.begin_warp (s : State) (w : Nat) : s.begin.warp w = s.warp w := rfl
@[simp] theorem State.begin_team (s : State) (k : Nat) : s.begin.team k = s.team k := rfl

theorem State.setWarp_warp (s : State) (w : Nat) (W : Warp) (v : Nat) :
    (s.setWarp w W).warp v = if v = w then some W else s.warp v := by simp [State.warp, tget_tput]

@[simp] theorem State.setWarp_warp_same (s : State) (w : Nat) (W : Warp) : (s.setWarp w W).warp w = some W := by
  simp [State.setWarp_warp]

theorem State.setTeam_team (s : State) (k : Nat) (T : Team) (j : Nat) :
    (s.setTeam k T).team j = if j = k then some T else s.team j := by simp [State.team, tget_tput]

@[simp] theorem State.setTeam_team_same (s : State) (k : Nat) (T : Team) : (s.setTeam k T).team k = some T := by
  simp [State.setTeam_team]

theorem State.modWarp_eq {s : State} {w : Nat} {W : Warp} (h : s.warp w = some W) (f : Warp → Warp) :
    s.modWarp w f = s.setWarp w (f W) := by simp [State.modWarp, h]

theorem State.modTeam_eq {s : State} {k : Nat} {T : Team} (h : s.team k = some T) (f : Team → Team) :
    s.modTeam k f = s.setTeam k (f T) := by simp [State.modTeam, h]

theorem State.modWarp_warp (s : State) (w : Nat) (f : Warp → Warp) (v : Nat) :
    (s.modWarp w f).warp v = if v = w then (s.warp v).map f else s.warp v := by
  unfold State.modWarp
  split
  · next W h => rw [State.setWarp_warp]; split <;> simp_all
  · next h => split <;> simp_all

@[simp] theorem State.modWarp_team (s : State) (w : Nat) (f : Warp → Warp) (k : Nat) : (s.modWarp w f).team k = s.team k := by
  simp [State.team]

end Sys2Proof.Machine
end

