-- ==== Sys2Proof/Laws/Barriers.lean ====
section
/-! SUPPORT. Barriers: when every covered thread has arrived, and what completing a barrier does. -/

namespace Sys2Proof.Machine

set_option Elab.async false

theorem foldl_or (l : Nat) : ∀ (ps : List Path) (m : Mask),
    (ps.foldl (fun m P => m ||| P.lanes) m).getLsbD l = true ↔ m.getLsbD l = true ∨ ∃ P ∈ ps, P.lanes.getLsbD l = true
  | [], m => by simp
  | P :: ps, m => by
    rw [List.foldl_cons, foldl_or l ps]
    simp only [BitVec.getLsbD_or, Bool.or_eq_true, List.mem_cons, exists_eq_or_imp]
    tauto

theorem arrived_iff (W : Warp) (b : Block) : W.arrived b = true ↔ ∀ l, l < 64 →
    ((∃ P ∈ W.paths, P.block = some b ∧ P.lanes.getLsbD l = true) ↔ W.live.getLsbD l = true ∧ W.exited.getLsbD l = false) := by
  unfold Warp.arrived
  rw [decide_eq_true_eq]
  constructor
  · intro h l hl
    have := congrArg (fun m => m.getLsbD l = true) h
    simp only [foldl_or, BitVec.getLsbD_and, BitVec.getLsbD_not, hl, decide_true, Bool.true_and, Bool.and_eq_true, Bool.not_eq_true'] at this
    rw [← this]
    simp [List.mem_filter, and_assoc]
  · intro h
    apply BitVec.eq_of_getLsbD_eq
    intro l hl
    have := h l hl
    rw [Bool.eq_iff_iff, foldl_or]
    simp only [BitVec.getLsbD_and, BitVec.getLsbD_not, hl, decide_true, Bool.true_and, Bool.and_eq_true, Bool.not_eq_true', ← this]
    simp [List.mem_filter, and_assoc]

theorem mem_warpsOf {s : State} {T : Team} {e : Nat × Warp} : e ∈ s.warpsOf T ↔ e.1 ∈ T.slots ∧ s.warp e.1 = some e.2 := by
  obtain ⟨w, W⟩ := e
  unfold State.warpsOf
  simp only [List.mem_filterMap, Option.map_eq_some_iff, Prod.mk.injEq]
  constructor
  · rintro ⟨v, hv, V, hV, rfl, rfl⟩; exact ⟨hv, hV⟩
  · rintro ⟨h1, h2⟩; exact ⟨w, h1, W, h2, rfl, rfl⟩

theorem barrierDone_iff (u : State) (ts : List Team) (b : Block) : u.barrierDone ts b = true ↔
    (∀ T ∈ ts, T.started = true ∧ ∀ v ∈ T.slots, ∀ V, u.warp v = some V → ∀ l, l < 64 →
            ((∃ P ∈ V.paths, P.block = some b ∧ P.lanes.getLsbD l = true) ↔ V.live.getLsbD l = true ∧ V.exited.getLsbD l = false)) ∧
          ∃ T ∈ ts, ∃ v ∈ T.slots, ∃ V P, u.warp v = some V ∧ P ∈ V.paths ∧ P.block = some b := by
  unfold State.barrierDone
  simp only [Bool.and_eq_true, List.all_eq_true, List.any_eq_true, arrived_iff, mem_warpsOf, Warp.waits, decide_eq_true_eq]
  constructor
  · rintro ⟨⟨h1, T, hT, ⟨v, V⟩, ⟨hv, hV⟩, P, hP, hb⟩, h3⟩
    exact ⟨fun T hT => ⟨h1 T hT, fun v hv V hV => h3 T hT (v, V) ⟨hv, hV⟩⟩, T, hT, v, hv, V, P, hV, hP, hb⟩
  · rintro ⟨h1, T, hT, v, hv, V, P, hV, hP, hb⟩
    exact ⟨⟨fun T hT => (h1 T hT).1, T, hT, (v, V), ⟨hv, hV⟩, P, hP, hb⟩, fun T hT e he => (h1 T hT).2 e.1 he.1 e.2 he.2⟩

/-- The warp with its paths that wait at `b` ready again. -/
def unb (b : Block) (V : Warp) : Warp := { V with paths := V.paths.map fun P => if P.block = some b then { P with block := none } else P }
theorem unb_unb (b : Block) (V : Warp) : unb b (unb b V) = unb b V := by
  unfold unb
  simp only [List.map_map]
  congr 1
  refine List.map_congr_left fun P _ => ?_
  simp only [Function.comp]
  split <;> simp_all

theorem unb_slots (b : Block) : ∀ (ws : List Nat) (s : State),
    let u := ws.foldl (fun s w => s.modWarp w (unb b)) s
    u = { s with warps := u.warps } ∧ ∀ v, u.warp v = (s.warp v).map fun V => if v ∈ ws then unb b V else V
  | [], s => ⟨rfl, fun v => by simp⟩
  | w :: ws, s => by
    obtain ⟨h1, h2⟩ := unb_slots b ws (s.modWarp w (unb b))
    simp only [List.foldl_cons]
    refine ⟨?_, fun v => ?_⟩
    · rw [h1]
      have : s.modWarp w (unb b) = { s with warps := (s.modWarp w (unb b)).warps } := by
        unfold State.modWarp; split <;> rfl
      rw [this]
    · rw [h2 v, State.modWarp_warp]
      by_cases hv : v = w
      · subst hv
        cases s.warp v with
        | none => simp
        | some V => by_cases hm : v ∈ ws <;> simp [hm, unb_unb]
      · simp [hv]

theorem unb_teams (b : Block) : ∀ (ts : List Team) (s : State),
    let u := ts.foldl (fun s T => T.slots.foldl (fun s w => s.modWarp w (unb b)) s) s
    u = { s with warps := u.warps } ∧ ∀ v, u.warp v = (s.warp v).map fun V => if ∃ T ∈ ts, v ∈ T.slots then unb b V else V
  | [], s => ⟨rfl, fun v => by simp⟩
  | T :: ts, s => by
    obtain ⟨h1, h2⟩ := unb_teams b ts (T.slots.foldl (fun s w => s.modWarp w (unb b)) s)
    obtain ⟨k1, k2⟩ := unb_slots b T.slots s
    simp only [List.foldl_cons]
    refine ⟨?_, fun v => ?_⟩
    · rw [h1, k1]
    · rw [h2 v, k2 v]
      cases s.warp v with
      | none => rfl
      | some V =>
        by_cases hm : v ∈ T.slots <;> by_cases hn : ∃ T ∈ ts, v ∈ T.slots <;> simp [hm, hn, unb_unb]

theorem l1_cores (c : Nat) : ∀ (cs : List Nat) (s : State),
    let u := cs.foldl (fun s k => s.l1Drop k fun e => decide (e.ctx = c)) s
    u = { s with l1 := u.l1 } ∧ ∀ L, L ∈ u.l1 ↔ L ∈ s.l1 ∧ (L.core ∈ cs → L.ctx ≠ c)
  | [], s => ⟨rfl, fun L => by simp⟩
  | k :: cs, s => by
    obtain ⟨h1, h2⟩ := l1_cores c cs (s.l1Drop k fun e => decide (e.ctx = c))
    simp only [List.foldl_cons]
    refine ⟨by rw [h1]; rfl, fun L => ?_⟩
    rw [h2 L]
    simp only [State.l1Drop, List.mem_filter, List.mem_cons, Bool.not_eq_true', Bool.and_eq_false_iff, decide_eq_false_iff_not]
    tauto

theorem l1_teams (sc : Nat) : ∀ (ts : List Team) (s : State),
    let u := ts.foldl (fun s T => if wideScope T sc then T.cores.foldl (fun s c => s.l1Drop c fun e => decide (e.ctx = T.ctx)) s else s) s
    u = { s with l1 := u.l1 } ∧ ∀ L, L ∈ u.l1 ↔ L ∈ s.l1 ∧ ∀ T ∈ ts, wideScope T sc = true → L.core ∈ T.cores → L.ctx ≠ T.ctx
  | [], s => ⟨rfl, fun L => by simp⟩
  | T :: ts, s => by
    obtain ⟨h1, h2⟩ := l1_teams sc ts (if wideScope T sc then T.cores.foldl (fun s c => s.l1Drop c fun e => decide (e.ctx = T.ctx)) s else s)
    simp only [List.foldl_cons]
    by_cases hw : wideScope T sc = true
    · simp only [hw, if_true] at h1 h2 ⊢
      obtain ⟨k1, k2⟩ := l1_cores T.ctx T.cores s
      refine ⟨by rw [h1, k1], fun L => ?_⟩
      rw [h2 L, k2 L]
      simp only [List.mem_cons, forall_eq_or_imp, hw, true_implies]
      tauto
    · simp only [hw] at h1 h2 ⊢
      refine ⟨h1, fun L => ?_⟩
      refine (h2 L).trans ?_
      simp [hw]

theorem checkBarrier_spec (u : State) (k : Nat) (T : Team) (b : Block) (sc : Nat) (hk : u.team k = some T) (hsc : (if b = .bar then 1 else 5) = sc) :
    let ts := u.covered T b
    let t := u.checkBarrier k b
    (¬ u.barrierDone ts b = true → t = u) ∧ (u.barrierDone ts b = true → t = { u with warps := t.warps, l1 := t.l1 } ∧
          (∀ v, t.warp v = (u.warp v).map fun V => if ∃ T ∈ ts, v ∈ T.slots then unb b V else V) ∧
          ∀ L, L ∈ t.l1 ↔ L ∈ u.l1 ∧ ∀ T ∈ ts, wideScope T sc = true → L.core ∈ T.cores → L.ctx ≠ T.ctx) := by
  intro ts t
  have ht : t = if u.barrierDone ts b then u.passBarrier ts b else u := by
    show u.checkBarrier k b = _
    unfold State.checkBarrier; simp only [hk]; rfl
  refine ⟨fun h => by rw [ht, if_neg h], fun h => ?_⟩
  rw [if_pos h] at ht
  have hp : u.passBarrier ts b = ts.foldl (fun s T => if wideScope T sc then T.cores.foldl (fun s c => s.l1Drop c fun e => decide (e.ctx = T.ctx)) s else s)
     (ts.foldl (fun s T => T.slots.foldl (fun s w => s.modWarp w (unb b)) s) u) := by
    unfold State.passBarrier; rw [hsc]; rfl
  obtain ⟨a1, a2⟩ := unb_teams b ts u
  obtain ⟨b1, b2⟩ := l1_teams sc ts (ts.foldl (fun s T => T.slots.foldl (fun s w => s.modWarp w (unb b)) s) u)
  generalize ts.foldl (fun s T => T.slots.foldl (fun s w => s.modWarp w (unb b)) s) u = m at a1 a2 b1 b2 hp
  rw [ht, hp]
  generalize (ts.foldl (fun s T => if wideScope T sc then T.cores.foldl (fun s c => s.l1Drop c fun e => decide (e.ctx = T.ctx)) s else s) m) = q at b1 b2
  refine ⟨by rw [b1, a1], fun v => ?_, fun L => ?_⟩
  · have : q.warp v = m.warp v := by rw [b1]; rfl
    rw [this, a2 v]
  · rw [b2 L]
    have : m.l1 = u.l1 := by rw [a1]
    rw [this]


/-- A barrier at which no path waits does not open. -/
theorem checkBarrier_idle {s : State} {t : Nat} {b : Block} (h : ∀ v V, s.warp v = some V → ∀ P ∈ V.paths, P.block ≠ some b) :
    s.checkBarrier t b = s := by
  unfold State.checkBarrier
  split
  · rfl
  · rw [if_neg]
    rw [barrierDone_iff]
    rintro ⟨_, T, _, v, _, V, P, hV, hP, hb⟩
    exact h v V hV P hP hb


end Sys2Proof.Machine
end

