-- ==== Sys2Proof/Laws/Bytes.lean ====
section
/-! SUPPORT. The bytes of memory: what writing back, sharing, owning, recalling and writing lines does to the value a byte
reads as. -/

namespace Sys2Proof.Machine

set_option Elab.async false

theorem tget_tclear {α : Type} (d : α) (t : Table α) (lo hi i : Nat) :
    tget d (tclear t lo hi) i = if lo ≤ i ∧ i < hi then d else tget d t i := by
  unfold tclear
  induction t with
  | nil => simp [tget]
  | cons e t ih =>
    obtain ⟨k, v⟩ := e
    by_cases hc : lo ≤ k ∧ k < hi
    · rw [List.filter_cons_of_neg (by simp [hc]), ih]
      by_cases hi' : lo ≤ i ∧ i < hi
      · rw [if_pos hi', if_pos hi']
      · have : ¬ k = i := fun h => hi' (h ▸ hc)
        rw [if_neg hi', if_neg hi']
        simp [tget, this]
    · have hq : (!(decide (lo ≤ k) && decide (k < hi))) = true := by
        rw [Bool.not_eq_true', ← Bool.decide_and]
        exact decide_eq_false hc
      rw [List.filter_cons_of_pos (p := fun e : Nat × α => !(decide (lo ≤ e.1) && decide (e.1 < hi))) hq]
      by_cases hk : k = i
      · subst hk
        rw [if_neg hc]
        simp only [tget, if_true]
      · simp only [tget, hk, if_false, ih]

/-! ## Hubs and memory-side caches (09 R221) -/

theorem hubByte_getD (s : State) (pa : Nat) :
    s.hubByte pa = (tget none s.mscDirty (s.cellOf pa)).getD (tget 0 s.mem (s.cellOf pa)) := by
  unfold State.hubByte; cases tget none s.mscDirty (s.cellOf pa) <;> rfl

/-- The storage cells of an address depend on the memory split alone. -/
theorem cellOf_congr {s t : State} (h : t.ipool = s.ipool) (pa : Nat) : t.cellOf pa = s.cellOf pa := by
  unfold State.cellOf State.hubLocal State.backed State.ipoolGiB
  rw [h]
  by_cases hr : regionOf pa < 2
  · have h0 : regionOf pa = 0 ∨ regionOf pa = 1 := by omega
    rcases h0 with h0 | h0 <;> simp [h0]
  · simp [hr]

/-- The hub and the hub-local address of a backed address of the stacks, and the address that they give (09 R203). -/
theorem cellOf_stack {s : State} {pa : Nat} (h : regionOf pa < 2) (hb : s.backed pa = true) :
    ∃ hub loc, hub < 8 ∧ loc < 2 ^ 37 ∧ s.cellOf pa = hub * 2 ^ 37 + loc ∧
      ((loc < s.ipoolGiB * 2 ^ 30 ∧ pa = loc / 4096 * 32768 + hub * 4096 + loc % 4096) ∨
        (s.ipoolGiB * 2 ^ 30 ≤ loc ∧ pa = 2 ^ 48 + hub * 2 ^ 40 + (loc - s.ipoolGiB * 2 ^ 30))) := by
  have hi : s.ipoolGiB < 128 := s.ipool.isLt
  refine ⟨hubOf pa, s.hubLocal pa, ?_, ?_, if_pos ⟨h, hb⟩, ?_⟩
  · unfold hubOf; split <;> omega
  all_goals
    have h01 : pa / 2 ^ 48 = 0 ∨ pa / 2 ^ 48 = 1 := by unfold regionOf at h; omega
    unfold State.backed regionOf at hb
    unfold State.hubLocal regionOf
    rcases h01 with h0 | h0
  · simp only [h0, if_true, decide_eq_true_eq] at hb ⊢; omega
  · simp only [h0, Nat.one_ne_zero, if_false, if_true, Bool.and_eq_true, decide_eq_true_eq] at hb ⊢; omega
  · left
    unfold hubOf regionOf
    simp only [h0, if_true, decide_eq_true_eq] at hb ⊢; omega
  · right
    unfold hubOf regionOf
    simp only [h0, Nat.one_ne_zero, if_false, if_true, Bool.and_eq_true, decide_eq_true_eq] at hb ⊢; omega

/-- Different addresses have different storage (09 R203): within the stacks, hub and hub-local address name one of them. -/
theorem cellOf_inj {s : State} {pa q : Nat} (h : s.cellOf pa = s.cellOf q) : pa = q := by
  have hs : ∀ pa, (regionOf pa < 2 ∧ s.backed pa = true) ∨ s.cellOf pa = 2 ^ 52 + pa := fun pa => by
    by_cases hp : regionOf pa < 2 ∧ s.backed pa = true
    · exact .inl hp
    · exact .inr (if_neg hp)
  rcases hs pa with hp | hp <;> rcases hs q with hq | hq
  · obtain ⟨u, l, hu, hl, he, ho⟩ := cellOf_stack hp.1 hp.2
    obtain ⟨u', l', hu', hl', he', ho'⟩ := cellOf_stack hq.1 hq.2
    have : u = u' ∧ l = l' := by omega
    obtain ⟨rfl, rfl⟩ := this
    omega
  · obtain ⟨u, l, hu, hl, he, -⟩ := cellOf_stack hp.1 hp.2
    omega
  · obtain ⟨u, l, hu, hl, he, -⟩ := cellOf_stack hq.1 hq.2
    omega
  · omega

/-- A byte that arrives at its hub is the hub's value of it. -/
theorem hubByte_hubPut (s : State) (pa q : Nat) (b : Byte) : (s.hubPut pa b).hubByte q = if q = pa then b else s.hubByte q := by
  have hq : (s.hubPut pa b).cellOf q = s.cellOf q := cellOf_congr (by simp) q
  have hi : s.cellOf q = s.cellOf pa ↔ q = pa := ⟨cellOf_inj, fun h => h ▸ rfl⟩
  rw [hubByte_getD, hubByte_getD, hq]
  unfold State.hubPut
  dsimp only
  cases tget false s.mscHeld (s.cellOf pa / 128) <;> by_cases h : q = pa <;> simp [tget_tput, h, hi]

@[simp] theorem hubByte_mscFill (s : State) (line pa : Nat) : (s.mscFill line).hubByte pa = s.hubByte pa := by
  unfold State.hubByte; rw [cellOf_congr (State.mscFill_ipool s line)]; simp

/-- Only where bytes are held and what the caches hold differ. -/
def Held (s t : State) : Prop :=
  t = { s with mem := t.mem, mscHeld := t.mscHeld, mscDirty := t.mscDirty, dirty := t.dirty, dir := t.dir }

theorem Held.refl (s : State) : Held s s := rfl
theorem Held.trans {s t u : State} (h : Held s t) (k : Held t u) : Held s u := by
  unfold Held at *
  rw [k, h]
theorem held_foldl {β : Type} {f : State → β → State} (h : ∀ s b, Held s (f s b)) : ∀ (l : List β) (s : State), Held s (l.foldl f s)
  | [], s => .refl s
  | b :: l, s => (h s b).trans (held_foldl h l (f s b))
theorem Held.reaches {s t : State} (h : Held s t) (pa : Nat) : t.reaches pa = s.reaches pa := by rw [h]; rfl

theorem held_mscFill (s : State) (line : Nat) : Held s (s.mscFill line) := by
  unfold Held State.mscFill; split <;> rfl
theorem held_hubPut (s : State) (pa : Nat) (b : Byte) : Held s (s.hubPut pa b) := by
  unfold Held State.hubPut; dsimp only; split <;> rfl

theorem putFrom_succ (d : Table (Option Byte)) (base n : Nat) (s : State) : s.putFrom d base (n + 1) =
    match tget none d (base + n) with | some b => (s.putFrom d base n).hubPut (base + n) b | none => s.putFrom d base n := by
  unfold State.putFrom
  rw [List.range_succ, List.foldl_append]
  rfl

theorem putFrom_spec (d : Table (Option Byte)) (base : Nat) (s : State) : ∀ n,
    Held s (s.putFrom d base n) ∧ (s.putFrom d base n).dirty = s.dirty ∧ (s.putFrom d base n).dir = s.dir ∧
    (s.putFrom d base n).mscHeld = s.mscHeld ∧
    ∀ pa, (s.putFrom d base n).hubByte pa =
      if base ≤ pa ∧ pa < base + n then (tget none d pa).getD (s.hubByte pa) else s.hubByte pa
  | 0 => ⟨.refl s, rfl, rfl, rfl, fun pa => by rw [if_neg (by omega)]; rfl⟩
  | n + 1 => by
    obtain ⟨h1, h2, h3, h4, h5⟩ := putFrom_spec d base s n
    rw [putFrom_succ]
    have split : ∀ pa, ¬ pa = base + n → ((base ≤ pa ∧ pa < base + (n + 1)) ↔ (base ≤ pa ∧ pa < base + n)) := fun pa h => by omega
    cases hb : tget none d (base + n) with
    | none =>
      refine ⟨h1, h2, h3, h4, fun pa => (h5 pa).trans ?_⟩
      by_cases he : pa = base + n
      · subst he; rw [if_neg (by omega), if_pos (by omega), hb]; rfl
      · simp only [split pa he]
    | some b =>
      refine ⟨h1.trans (held_hubPut _ _ _), by simpa using h2, by simpa using h3, by simpa using h4, fun pa => ?_⟩
      show ((s.putFrom d base n).hubPut (base + n) b).hubByte pa = _
      rw [hubByte_hubPut]
      by_cases he : pa = base + n
      · subst he; rw [if_pos rfl, if_pos (by omega), hb]; rfl
      · rw [if_neg he, h5 pa]; simp only [split pa he]

theorem writeBack_eq (s : State) (line : Nat) : s.writeBack line =
    { (s.mscFill line).putFrom s.dirty (128 * line) 128 with dirty := tclear s.dirty (128 * line) (128 * line + 128) } := rfl

/-! ## L2 (09 R220) -/

theorem byteAt_getD (s : State) (pa : Nat) : s.byteAt pa = (tget none s.dirty pa).getD (s.hubByte pa) := by
  unfold State.byteAt; cases tget none s.dirty pa <;> rfl

theorem line_iff (line pa : Nat) : (128 * line ≤ pa ∧ pa < 128 * line + 128) ↔ pa / 128 = line := by omega

/-- Writing a line back takes it out of the bytes held unwritten. -/
theorem dirty_writeBack (s : State) (line pa : Nat) :
    tget none (s.writeBack line).dirty pa = if pa / 128 = line then none else tget none s.dirty pa := by
  rw [writeBack_eq]
  simp only [tget_tclear, line_iff]

theorem held_writeBack (s : State) (line : Nat) : Held s (s.writeBack line) := by
  rw [writeBack_eq]
  exact (((held_mscFill s line).trans (putFrom_spec _ _ _ 128).1).trans rfl)

@[simp] theorem dir_writeBack (s : State) (line : Nat) : (s.writeBack line).dir = s.dir := by
  have h := (putFrom_spec s.dirty (128 * line) (s.mscFill line) 128).2.2.1
  rw [writeBack_eq]
  dsimp only
  rw [h, State.mscFill_dir]

/-- Writing a line back changes where its bytes are held, not what they are. -/
@[simp] theorem byteAt_writeBack (s : State) (line pa : Nat) : (s.writeBack line).byteAt pa = s.byteAt pa := by
  have hh : (s.writeBack line).hubByte pa = if pa / 128 = line then (tget none s.dirty pa).getD (s.hubByte pa) else s.hubByte pa := by
    refine ((putFrom_spec s.dirty (128 * line) (s.mscFill line) 128).2.2.2.2 pa).trans ?_
    simp only [line_iff, hubByte_mscFill]
  unfold State.byteAt
  rw [dirty_writeBack, hh]
  by_cases h : pa / 128 = line
  · simp only [h, if_true]; cases tget none s.dirty pa <;> rfl
  · simp only [h, if_false]

@[simp] theorem byteAt_mscFill (s : State) (line pa : Nat) : (s.mscFill line).byteAt pa = s.byteAt pa := by
  unfold State.byteAt; simp

@[simp] theorem byteAt_dir (s : State) (d : Table LineDir) (pa : Nat) : ({ s with dir := d } : State).byteAt pa = s.byteAt pa := rfl

@[simp] theorem byteAt_share (s : State) (die line pa : Nat) : (s.share die line).byteAt pa = s.byteAt pa := by
  unfold State.share
  dsimp only
  split
  · rfl
  · rw [byteAt_dir, byteAt_mscFill]; split <;> simp

theorem held_share (s : State) (die line : Nat) : Held s (s.share die line) := by
  unfold State.share
  dsimp only
  split
  · exact .refl s
  · have h1 : Held s (match (tget LineDir.zero s.dir line).owner with | some _ => s.writeBack line | none => s) := by
      split
      · exact held_writeBack s line
      · exact .refl s
    exact (h1.trans (held_mscFill _ line)).trans rfl

@[simp] theorem byteAt_fireLine (s : State) (line pa : Nat) : (s.fireLine line).byteAt pa = s.byteAt pa := rfl
@[simp] theorem byteAt_fireLineOn (s : State) (die line pa : Nat) : (s.fireLineOn die line).byteAt pa = s.byteAt pa := rfl
@[simp] theorem byteAt_own (s : State) (die line pa : Nat) : (s.own die line).byteAt pa = s.byteAt pa := rfl

@[simp] theorem byteAt_recall (s : State) (line pa : Nat) : (s.recall line).byteAt pa = s.byteAt pa :=
  byteAt_writeBack s line pa

@[simp] theorem byteAt_ownLine (s : State) (die line pa : Nat) : (s.ownLine die line).byteAt pa = s.byteAt pa := by
  unfold State.ownLine; simp

@[simp] theorem byteAt_evict (s : State) (die line pa : Nat) : (s.evict die line).byteAt pa = s.byteAt pa := by
  unfold State.evict
  dsimp only
  split
  · rw [byteAt_fireLineOn, byteAt_dir]; split <;> simp
  · rfl

theorem byteAt_foldl {β : Type} {f : State → β → State} {pa : Nat} (h : ∀ s b, (f s b).byteAt pa = s.byteAt pa) :
    ∀ (l : List β) (s : State), (l.foldl f s).byteAt pa = s.byteAt pa
  | [], _ => rfl
  | b :: l, s => (byteAt_foldl h l (f s b)).trans (h s b)

theorem tget_memFrom (d : Table (Option Byte)) (base pa : Nat) (m : Table Byte) : ∀ n, tget 0 (memFrom d base n m) pa =
    if base ≤ pa ∧ pa < base + n then (tget none d pa).getD (tget 0 m pa) else tget 0 m pa
  | 0 => by rw [if_neg (by omega)]; rfl
  | n + 1 => by
    have ih := tget_memFrom d base pa m n
    have hs : memFrom d base (n + 1) m =
        match tget none d (base + n) with | some b => tput 0 (memFrom d base n m) (base + n) b | none => memFrom d base n m := by
      unfold memFrom; rw [List.range_succ, List.foldl_append]; rfl
    rw [hs]
    by_cases he : pa = base + n
    · subst he
      rw [if_neg (by omega)] at ih
      rw [if_pos (by omega)]
      cases hb : tget none d (base + n) with
      | none => exact ih
      | some b => simp
    · have hiff : (base ≤ pa ∧ pa < base + (n + 1)) ↔ (base ≤ pa ∧ pa < base + n) := by omega
      simp only [hiff]
      cases hb : tget none d (base + n) with
      | none => exact ih
      | some b => rw [tget_tput, if_neg he]; exact ih

/-- A memory-side cache that gives up a line changes where its bytes are held, not what they are. -/
@[simp] theorem byteAt_mscDrop (s : State) (line pa : Nat) : (s.mscDrop line).byteAt pa = s.byteAt pa := by
  have hh : (s.mscDrop line).hubByte pa = s.hubByte pa := by
    have hc : (s.mscDrop line).cellOf pa = s.cellOf pa := cellOf_congr (by unfold State.mscDrop; rfl) pa
    rw [hubByte_getD, hubByte_getD, hc]
    unfold State.mscDrop
    simp only [tget_tclear, line_iff, tget_memFrom]
    by_cases h : s.cellOf pa / 128 = s.cellLine line
    · simp only [h, if_true]; rfl
    · simp only [h, if_false]
  have hd : (s.mscDrop line).dirty = s.dirty := by unfold State.mscDrop; rfl
  simp only [byteAt_getD, hh, hd]

theorem held_mscDrop (s : State) (line : Nat) : Held s (s.mscDrop line) := by unfold Held State.mscDrop; rfl

@[simp] theorem byteAt_hubEvict (s : State) (line pa : Nat) : (s.hubEvict line).byteAt pa = s.byteAt pa := by
  unfold State.hubEvict; split <;> simp

@[simp] theorem byteAt_writeBackAll (s : State) (pa : Nat) : s.writeBackAll.byteAt pa = s.byteAt pa :=
  byteAt_foldl (fun _ _ => by simp) _ _

theorem held_writeBackAll (s : State) : Held s s.writeBackAll := held_foldl held_writeBack _ _

@[simp] theorem byteAt_shareBytes (s : State) (die : Nat) (pas : List Nat) (pa : Nat) :
    (s.shareBytes die pas).byteAt pa = s.byteAt pa := by
  unfold State.shareBytes
  exact byteAt_foldl (fun _ _ => by simp) _ _

theorem held_shareBytes (s : State) (die : Nat) (pas : List Nat) : Held s (s.shareBytes die pas) :=
  held_foldl (fun s l => held_share s die l) _ _

/-- Reading lines into an L2 changes nothing but where bytes are held and what the caches hold. -/
theorem shareBytes_eq (s : State) (die : Nat) (pas : List Nat) :
    s.shareBytes die pas = { s with mem := (s.shareBytes die pas).mem, mscHeld := (s.shareBytes die pas).mscHeld,
                                    mscDirty := (s.shareBytes die pas).mscDirty, dirty := (s.shareBytes die pas).dirty,
                                    dir := (s.shareBytes die pas).dir } := held_shareBytes s die pas

theorem Shared.refl (s : State) : Shared s s := ⟨rfl, fun _ => rfl⟩
theorem Shared.trans {s t u : State} (h : Shared s t) (k : Shared t u) : Shared s u :=
  ⟨by rw [k.1, h.1], fun pa => (k.2 pa).trans (h.2 pa)⟩
theorem shared_foldl {β : Type} {f : State → β → State} (h : ∀ s b, Shared s (f s b)) : ∀ (l : List β) (s : State), Shared s (l.foldl f s)
  | [], s => .refl s
  | b :: l, s => (h s b).trans (shared_foldl h l (f s b))
theorem Held.shared {s t : State} (h : Held s t) (hb : ∀ pa, t.byteAt pa = s.byteAt pa) : Shared s t := by
  refine ⟨?_, hb⟩
  unfold Held at h
  rw [h]
theorem shared_shareBytes (s : State) (die pas) : Shared s (s.shareBytes die pas) :=
  (held_shareBytes s die pas).shared (byteAt_shareBytes s die pas)
theorem shared_walkLines (s : State) (core ctx va) : Shared s (s.walkLines core ctx va) := shared_shareBytes _ _ _
theorem shared_tlb (s : State) (b : List TlbEntry) : Shared s { s with tlb := b } := ⟨rfl, fun _ => rfl⟩

/-- Keeping the leaf of a translation changes only what caches and the translation unit hold (09 R207). -/
theorem shared_keepLeaf (s : State) (core ctx va t) : Shared s (s.keepLeaf core ctx va t) := by
  unfold State.keepLeaf
  split
  · exact .refl s
  · exact (shared_walkLines s core ctx va).trans (shared_tlb _ _)

/-- So does a translation's walk (09 R207). -/
theorem shared_walkFor (s : State) (core ctx va) : Shared s (s.walkFor core ctx va) := by
  unfold State.walkFor
  split
  · exact .refl s
  · exact shared_walkLines s core ctx va

/-- So does keeping none after a translation that failed (09 R208). -/
theorem shared_dropLeaf (s : State) (core ctx va c) : Shared s (s.dropLeaf core ctx va c) := by
  unfold State.dropLeaf
  dsimp only
  split
  · exact shared_tlb _ _
  · exact (shared_walkFor s core ctx va).trans (shared_tlb _ _)

/-! ## Writes -/

theorem tget_foldl_some (pa : Nat) : ∀ (bs : List (Nat × Byte)) (d : Table (Option Byte)),
    tget none (bs.foldl (fun d e => tput none d e.1 (some e.2)) d) pa =
      bs.foldl (fun v e => if e.1 = pa then some e.2 else v) (tget none d pa)
  | [], _ => rfl
  | e :: bs, d => by
    rw [List.foldl_cons, tget_foldl_some pa bs, tget_tput, List.foldl_cons]
    by_cases h : e.1 = pa
    · simp [h]
    · have : ¬ pa = e.1 := fun h' => h h'.symm
      simp [h, this]

theorem foldl_last (pa : Nat) (q : Nat × Byte → Bool) : ∀ (bs : List (Nat × Byte)) (v : Byte) (o : Option Byte),
    ((bs.filter q).foldl (fun v e => if e.1 = pa then some e.2 else v) o).getD v =
      bs.foldl (fun v e => if e.1 = pa ∧ q e = true then e.2 else v) (o.getD v)
  | [], _, _ => rfl
  | e :: bs, v, o => by
    by_cases hq : q e = true
    · rw [List.filter_cons_of_pos hq, List.foldl_cons, List.foldl_cons]
      by_cases h : e.1 = pa
      · simp only [h, hq, if_true, and_self]
        exact foldl_last pa q bs v (some e.2)
      · simp only [h, if_false, false_and]
        exact foldl_last pa q bs v o
    · rw [List.filter_cons_of_neg hq, List.foldl_cons]
      rw [if_neg fun h => hq h.2]
      exact foldl_last pa q bs v o

@[simp] theorem byteAt_noteOld (s : State) (pas : List Nat) (pa : Nat) : (s.noteOld pas).byteAt pa = s.byteAt pa := by
  unfold State.byteAt State.hubByte; rw [cellOf_congr (t := s.noteOld pas) (s := s) (by simp)]; simp
@[simp] theorem byteAt_clearRels (s : State) (pas : List Nat) (pa : Nat) : (s.clearRels pas).byteAt pa = s.byteAt pa := rfl

/-- A byte after writes are performed: the last value written to it, where its address is reached. -/
theorem byteAt_performBytes (s : State) (die : Nat) (bs : List (Nat × Byte)) (pa : Nat) :
    (s.performBytes die bs).byteAt pa = bs.foldl (fun v e => if e.1 = pa ∧ s.reaches e.1 = true then e.2 else v) (s.byteAt pa) := by
  unfold State.performBytes
  dsimp only
  rw [byteAt_foldl (fun _ _ => by simp), byteAt_getD]
  generalize hu : (s.noteOld _).clearRels _ = u
  have hd : u.dirty = s.dirty := by subst hu; simp
  have hh : ∀ d, ({ u with dirty := d } : State).hubByte pa = s.hubByte pa := fun d => by
    subst hu
    unfold State.hubByte
    rw [cellOf_congr (t := { (s.noteOld _).clearRels _ with dirty := d }) (s := s) (by simp)]
    simp
  rw [hh, byteAt_getD]
  simp only [tget_foldl_some, hd]
  exact foldl_last pa (fun e => s.reaches e.1) bs (s.hubByte pa) (tget none s.dirty pa)

end Sys2Proof.Machine
end

