-- ==== Sys2Proof/Laws/Paths.lean ====
section
/-! SUPPORT. Lanes and paths: what issuing means, retiring an instruction, ending a scene, and the frame `run`. -/

namespace Sys2Proof.Machine

set_option Elab.async false

/-! ## Lanes -/

theorem mem_lanesOf {m : Mask} {l : Nat} : l ∈ lanesOf m ↔ l < 64 ∧ m.getLsbD l = true := by
  simp [lanesOf, allLanes, List.mem_filter]

theorem lanesOf_nodup (m : Mask) : (lanesOf m).Nodup := List.Nodup.filter _ List.nodup_range

theorem Ix.lanes_lt {x : Ix} {l : Nat} (h : l ∈ x.lanes) : l < 64 := (mem_lanesOf.mp h).1

/-! ## The issuing path -/

/-- What it is that a path issues. -/
theorem issuing_spec {s : State} {x : Ix} (h : s.issuing = some x) :
    s.cur = x.w ∧ s.warp x.w = some x.W ∧ x.W.running = some x.low ∧ x.W.path x.low = some x.P ∧ s.team x.W.team = some x.T := by
  unfold State.issuing at h
  split at h
  · cases h
  · next W hW =>
    split at h
    · cases h
    · next r hr =>
      split at h
      · next P T hP hT =>
        cases h
        have hl : lowest P.lanes = r := by
          have := List.find?_some hP
          simpa using this
        simp only [Ix.low, hl]
        exact ⟨trivial, hW, hr, hP, hT⟩
      · cases h

theorem issuing_mk {s : State} {W : Warp} {r : Nat} {P : Path} {T : Team} (h1 : s.warp s.cur = some W)
    (h2 : W.running = some r) (h3 : W.path r = some P) (h4 : s.team W.team = some T) : s.issuing = some ⟨s.cur, W, P, T⟩ := by
  simp [State.issuing, h1, h2, h3, h4]

/-! ## Paths of a warp -/

theorem path_low {W : Warp} {r : Nat} {P : Path} (h : W.path r = some P) : lowest P.lanes = r := by
  have := List.find?_some h
  simpa using this

theorem path_modPath (W : Warp) (r : Nat) (f : Path → Path) (hf : ∀ P, (f P).lanes = P.lanes) (q : Nat) :
    (W.modPath r f).path q = if q = r then (W.path q).map f else W.path q := by
  unfold Warp.path Warp.modPath
  simp only [List.find?_map]
  have hc : (fun P : Path => decide (lowest P.lanes = q)) ∘ (fun P => if lowest P.lanes = r then f P else P) =
      fun P : Path => decide (lowest P.lanes = q) := by
    funext P
    simp only [Function.comp]
    split <;> simp [hf]
  rw [hc]
  cases hq : W.paths.find? fun P => decide (lowest P.lanes = q) with
  | none => simp
  | some P =>
    have hP : lowest P.lanes = q := by simpa using List.find?_some hq
    by_cases h : q = r
    · subst h; simp [hP]
    · have : ¬ lowest P.lanes = r := fun h' => h (hP.symm.trans h')
      simp [h, this]

@[simp] theorem modPath_running (W : Warp) (r : Nat) (f : Path → Path) : (W.modPath r f).running = W.running := rfl
@[simp] theorem modPath_body (W : Warp) (r : Nat) (f : Path → Path) : (W.modPath r f).body = W.body := rfl
@[simp] theorem body_body (W : Warp) : W.body.body = W.body := rfl

/-! ## Waking the yields of a wing -/

theorem tget_map_keyed {α : Type} (t : Table (Option α)) (g : Nat → Option α → Option α) (hg : ∀ k, g k none = none) (v : Nat) :
    tget none (t.map fun e => (e.1, g e.1 e.2)) v = g v (tget none t v) := by
  induction t with
  | nil => simp [tget, hg]
  | cons e t ih =>
    obtain ⟨k, a⟩ := e
    by_cases hk : k = v
    · subst hk; simp [tget]
    · simp [tget, hk, ih]

/-- What the end of a scene of path r of warp w makes of the yields of another path. -/
def wakeYield (own : Bool) (r : Nat) (P : Path) : Path :=
  match P.block with
  | some (.yield _) => if own && decide (lowest P.lanes = r) then P else { P with block := none }
  | _ => P

theorem wakeYield_lanes (own : Bool) (r : Nat) (P : Path) : (wakeYield own r P).lanes = P.lanes := by
  unfold wakeYield; split <;> [split; skip] <;> rfl

@[simp] theorem standsBy_lanes (e : Bool) (P : Path) : (P.standsBy e).lanes = P.lanes := by
  unfold Path.standsBy; split <;> [split; skip] <;> rfl

@[simp] theorem standsBy_false (P : Path) : P.standsBy false = P := by
  unfold Path.standsBy; split <;> rfl

@[simp] theorem warp_standsBy_false (W : Warp) : W.standsBy false = W := by
  simp [Warp.standsBy, show Path.standsBy false = id from funext standsBy_false]

theorem wakeYield_other {own : Bool} {r : Nat} {P : Path} (h : own = false ∨ lowest P.lanes ≠ r) : wakeYield own r P = P.standsBy true := by
  have : (own && decide (lowest P.lanes = r)) = false := by rcases h with h | h <;> simp [h]
  unfold wakeYield Path.standsBy
  rw [this]
  rfl

theorem wakeYield_own (r : Nat) (P : Path) (h : lowest P.lanes = r) : wakeYield true r P = P := by
  unfold wakeYield; split <;> simp [h]

/-- A warp of the wing after `wakeYields`. -/
def Warp.woken (W : Warp) (own : Bool) (r : Nat) : Warp := { W with paths := W.paths.map (wakeYield own r) }

/-- An entry of the table of warps after `wakeYields`. -/
def wakeEntry (w r k : Nat) (o : Option Warp) : Option Warp :=
  if k / 12 = w / 12 then o.map fun W => W.woken (decide (k = w)) r else o

theorem woken_false (W : Warp) (r : Nat) : W.woken false r = W.standsBy true := by
  unfold Warp.woken Warp.standsBy
  rw [show wakeYield false r = Path.standsBy true from funext fun P => wakeYield_other (.inl rfl)]

theorem woken_body (W : Warp) (own : Bool) (r : Nat) : (W.woken own r).body = W.body := rfl

theorem woken_path (W : Warp) (own : Bool) (r q : Nat) : (W.woken own r).path q = (W.path q).map (wakeYield own r) := by
  unfold Warp.path Warp.woken
  simp only [List.find?_map]
  have hc : (fun P : Path => decide (lowest P.lanes = q)) ∘ wakeYield own r = fun P : Path => decide (lowest P.lanes = q) := by
    funext P; simp [Function.comp, wakeYield_lanes]
  rw [hc]

theorem wakeYields_warp (s : State) (w r v : Nat) :
    (s.wakeYields w r).warp v = if v / 12 = w / 12 then (s.warp v).map fun W => W.woken (decide (v = w)) r else s.warp v := by
  have h : (s.wakeYields w r).warps = s.warps.map fun e => (e.1, wakeEntry w r e.1 e.2) := by
    unfold State.wakeYields wakeEntry
    simp only
    apply List.map_congr_left
    intro e _
    by_cases he : e.1 / 12 = w / 12
    · simp only [he, decide_true, if_true]
      congr 2
    · simp [he]
  unfold State.warp
  rw [h, tget_map_keyed _ (wakeEntry w r) (by intro k; unfold wakeEntry; split <;> rfl)]
  rfl

/-! ## Retiring -/

/-- What retiring an instruction does: the path goes on past it, and nothing else changes. -/
theorem retire_spec {s : State} {x : Ix} {i : Instr} {l : Option Latch} {W : Warp} (hw : s.warp x.w = some W)
    (hp : W.path x.low = some x.P) (hr : W.running = some x.low) :
    OnlyWarp s (retire x i s l) x.w i.endsScene ∧
    ∃ V, (retire x i s l).warp x.w = some V ∧ V.body = W.body ∧ V.path x.low = some (x.after i l) ∧
      V.running = (if i.endsScene then none else some x.low) ∧
      ∀ r, r ≠ x.low → V.path r = (W.path r).map (Path.standsBy i.endsScene) := by
  have hadv : ∀ P : Path, (P.advance i.len l x.skids).lanes = P.lanes := fun _ => rfl
  have hsc : ∀ P : Path, ({ P with scene := none } : Path).lanes = P.lanes := fun _ => rfl
  unfold retire
  rw [State.modWarp_eq hw]
  by_cases he : i.endsScene = true
  · simp only [he, if_true]
    unfold State.endScene
    rw [State.modWarp_eq (State.setWarp_warp_same _ _ _)]
    refine ⟨⟨rfl, ?_⟩, ?_⟩
    · intro v hv
      rw [wakeYields_warp, State.setWarp_warp, State.setWarp_warp]
      by_cases hg : v / 12 = x.w / 12
      · simp [hv, hg, woken_false]
      · simp [hv, hg, show Warp.standsBy false = id from funext warp_standsBy_false]
    · rw [wakeYields_warp]
      simp only [State.setWarp_warp_same, if_true, Option.map_some, decide_true]
      refine ⟨_, rfl, rfl, ?_, rfl, ?_⟩
      · rw [woken_path]
        show Option.map _ (((W.modPath x.low _).modPath x.low _).path x.low) = _
        rw [path_modPath _ _ _ hsc, if_pos rfl, path_modPath _ _ _ hadv, if_pos rfl, hp]
        simp only [Option.map_some]
        rw [wakeYield_own _ _ (by rfl)]
        simp [Ix.after, Path.advance, he]
      · intro r hne
        rw [woken_path]
        show Option.map _ (((W.modPath x.low _).modPath x.low _).path r) = _
        rw [path_modPath _ _ _ hsc, if_neg hne, path_modPath _ _ _ hadv, if_neg hne]
        cases hq : W.path r with
        | none => rfl
        | some P => simp [wakeYield_other (own := true) (.inr ((path_low hq).trans_ne hne))]
  · simp only [he]
    refine ⟨⟨rfl, ?_⟩, _, State.setWarp_warp_same _ _ _, rfl, ?_, ?_, ?_⟩
    · intro v hv
      rw [if_neg (by decide), State.setWarp_warp, if_neg hv]
      simp [show Warp.standsBy false = id from funext warp_standsBy_false]
    · rw [path_modPath _ _ _ hadv, if_pos rfl, hp]
      simp [Ix.after, Path.advance, he]
    · simpa using hr
    · intro r hne
      rw [path_modPath _ _ _ hadv, if_neg hne]
      simp [show Path.standsBy false = id from funext standsBy_false]

theorem OnlyWarp.setWarp {s t : State} {w : Nat} {W : Warp} {e : Bool} (h : OnlyWarp (s.setWarp w W) t w e) : OnlyWarp s t w e := by
  obtain ⟨h1, h2⟩ := h
  refine ⟨by rw [h1]; rfl, fun v hv => ?_⟩
  have := h2 v hv
  rwa [State.setWarp_warp, if_neg hv] at this

/-! ## The frame of an instruction -/

theorem entryTrap_none {s : State} {x : Ix} {i : Instr} (h : Starts s x i) : entryTrap x i = none := by
  obtain ⟨_, h1, h2, h3⟩ := h
  unfold entryTrap
  rw [h1, h2]
  simp only [Bool.not_true, Bool.or_self, Bool.false_eq_true, if_false]
  split
  · next r hr => rw [if_pos (h3 r hr)]
  · rfl

/-- An instruction that starts has its effect. -/
theorem run_starts {s : State} {x : Ix} {i : Instr} {body : Ix → Res} (h : Starts s x i) :
    run i s body = .next (finish x i s (body x)) := by
  unfold run
  rw [h.1]
  simp only [entryTrap_none h]

/-- An instruction whose effect leaves its warp `W`, and its warp's paths alone, completes. -/
theorem completes_in {s s1 s' : State} {x : Ix} {i : Instr} {l : Option Latch} {W : Warp} {body : Ix → Res} (h : Starts s x i)
    (hx : exec i s = run i s body) (hb : body x = .ok s' l) (hs : s' = s1.setWarp x.w W) (hp : W.paths = x.W.paths)
    (hr : W.running = x.W.running) : ∃ t, CompletesIn s s1 t x i l W := by
  obtain ⟨_, _, h3, h4, _⟩ := issuing_spec h.1
  have hp' : W.path x.low = some x.P := by rw [← h4]; simp [Warp.path, hp]
  have := retire_spec (s := s1.setWarp x.w W) (x := x) (i := i) (l := l) (State.setWarp_warp_same _ _ _) hp' (by rw [hr, h3])
  obtain ⟨ho, V, hV, hb', hpath, hrun, hoth⟩ := this
  refine ⟨retire x i (s1.setWarp x.w W) l, ?_, ho.setWarp, V, hV, hb', hpath, hrun, ?_⟩
  · rw [hx, run_starts h, hb]; simp [finish, hs]
  · intro r hne
    rw [hoth r hne]
    simp [Warp.path, hp]

/-- An instruction that changes nothing of its warp but its path completes. -/
theorem completes_other {s s1 : State} {x : Ix} {i : Instr} {l : Option Latch} {body : Ix → Res} (h : Starts s x i)
    (hx : exec i s = run i s body) (hb : body x = .ok s1 l) (hw : s1.warp x.w = some x.W) :
    ∃ t, CompletesIn s s1 t x i l x.W := by
  obtain ⟨_, _, h3, h4, _⟩ := issuing_spec h.1
  obtain ⟨ho, V, hV, hb', hpath, hrun, hoth⟩ := retire_spec (i := i) (l := l) hw h4 h3
  exact ⟨retire x i s1 l, by rw [hx, run_starts h, hb]; rfl, ho, V, hV, hb', hpath, hrun, hoth⟩

/-- An instruction with no effect outside its warp completes. -/
theorem completes_ok {s s' : State} {x : Ix} {i : Instr} {l : Option Latch} {W : Warp} {body : Ix → Res} (h : Starts s x i)
    (hx : exec i s = run i s body) (hb : body x = .ok s' l) (hs : s' = s.setWarp x.w W) (hp : W.paths = x.W.paths)
    (hr : W.running = x.W.running) : ∃ t, Completes s t x i l W := completes_in h hx hb hs hp hr

/-- An instruction that changes nothing but its path completes. -/
theorem completes_same {s : State} {x : Ix} {i : Instr} {l : Option Latch} {body : Ix → Res} (h : Starts s x i)
    (hx : exec i s = run i s body) (hb : body x = .ok s l) : ∃ t, Completes s t x i l x.W :=
  completes_other h hx hb (issuing_spec h.1).2.1

end Sys2Proof.Machine
end

