-- ==== Sys2Proof/Laws/Transfer.lean ====
section
/-! SUPPORT. What a control transfer and a block past the scene end do. -/

namespace Sys2Proof.Machine

set_option Elab.async false

/-! ## The scene-end bit of a word -/

theorem bit30_lane {op d a b : Nat} {e n : Bool} (ho : op < 256) (hs : d * 2 ^ 14 + a * 2 ^ 7 + b < 2 ^ 21) :
    bit (laneWord op e n d a b) 30 = e := by
  unfold bit laneWord
  have : (op * 2 ^ 21 + e.toNat * 2 ^ 30 + n.toNat * 2 ^ 29 + d * 2 ^ 14 + a * 2 ^ 7 + b) / 2 ^ 30 % 2 = e.toNat := by
    cases e <;> cases n <;> simp only [Bool.toNat_true, Bool.toNat_false] <;> omega
  rw [this]
  cases e <;> rfl

theorem bit30_uni {op d a b f : Nat} {e : Bool} 
    (hs : op * 2 ^ 22 + d * 2 ^ 16 + a * 2 ^ 10 + b * 2 ^ 4 + f < 2 ^ 30) :
    bit (uniWord op e d a b f) 30 = e := by
  unfold bit uniWord
  have : (2 ^ 31 + op * 2 ^ 22 + e.toNat * 2 ^ 30 + d * 2 ^ 16 + a * 2 ^ 10 + b * 2 ^ 4 + f) / 2 ^ 30 % 2 = e.toNat := by
    cases e <;> simp only [Bool.toNat_true, Bool.toNat_false] <;> omega
  rw [this]
  cases e <;> rfl

/-! ## Splitting a path -/

theorem mem_insertPath {P Q : Path} : ∀ {l : List Path}, Q ∈ insertPath P l ↔ Q = P ∨ Q ∈ l
  | [] => by simp [insertPath]
  | R :: l => by
    unfold insertPath
    split
    · simp
    · simp only [List.mem_cons, mem_insertPath]; tauto

theorem mem_insertPaths (mk : VAddr → Path) {Q : Path} : ∀ (ts : List VAddr) (l : List Path),
    Q ∈ ts.foldl (fun l t => insertPath (mk t) l) l ↔ Q ∈ l ∨ ∃ t ∈ ts, Q = mk t
  | [], l => by simp
  | t :: ts, l => by
    rw [List.foldl_cons, mem_insertPaths mk ts, mem_insertPath]
    simp only [List.mem_cons, exists_eq_or_imp]
    tauto

theorem mem_targets {t : VAddr} : ∀ {f : List (Nat × VAddr)}, t ∈ targets f ↔ ∃ e ∈ f, e.2 = t
  | [] => by simp [targets]
  | (l, u) :: f => by
    simp only [targets, List.mem_cons, List.mem_filter, mem_targets, exists_eq_or_imp]
    by_cases h : u = t
    · simp [h]
    · have : t ≠ u := fun hc => h hc.symm
      simp [h, this]

theorem lanesTo_map (ls : List Nat) (tgt : Nat → VAddr) (t : VAddr) :
    lanesTo (ls.map fun l => (l, tgt l)) t = maskOf (ls.filter fun l => decide (tgt l = t)) := by
  unfold lanesTo
  rw [List.filter_map, List.map_map]
  congr 1
  induction ls with
  | nil => rfl
  | cons a ls ih => by_cases h : tgt a = t <;> simp [h, Function.comp_def]

/-- What a transfer does, from a state in which the issuing warp is `W`. -/
theorem transfer_core {s s' : State} {x : Ix} {i : Instr} {W : Warp} {tgt : Nat → VAddr} {body : Ix → Res} (h : Starts s x i)
    (hx : exec i s = run i s body) (hb : body x = .move s' (x.lanes.map fun l => (l, tgt l))) (hs : s'.warp x.w = some W)
    (hp : W.paths = x.W.paths) (hr : W.running = x.W.running) (he : i.endsScene = true) :
    ∃ t, Transfers s s' t x i W tgt := by
  obtain ⟨_, _, h3, h4, _⟩ := issuing_spec h.1
  have hp' : W.path x.low = some x.P := by rw [← h4]; simp [Warp.path, hp]
  have hadv : ∀ P : Path, (P.advance i.len none x.skids).lanes = P.lanes := fun _ => rfl
  have hsc : ∀ P : Path, ({ P with scene := none } : Path).lanes = P.lanes := fun _ => rfl
  have := retire_spec (s := s') (x := x) (i := i) (l := none) hs hp' (by rw [hr, h3])
  obtain ⟨ho, V, hV, hbody, hpath, hrun, _⟩ := this
  refine ⟨transfer x i s' (x.lanes.map fun l => (l, tgt l)), by rw [hx, run_starts h, hb]; rfl, ?_, V.split x.low (x.lanes.map fun l => (l, tgt l)), ?_, ?_, ?_, ?_⟩
  · rw [transfer, State.modWarp_eq hV]
    obtain ⟨o1, o2⟩ := ho
    refine ⟨by rw [o1]; rfl, fun v hv => ?_⟩
    rw [State.setWarp_warp, if_neg hv]
    rw [he] at o2
    exact o2 v hv
  · rw [transfer, State.modWarp_eq hV, State.setWarp_warp_same]
  · rw [Warp.split, hpath]; exact hbody
  · rw [Warp.split, hpath]
    simpa [he] using hrun
  · intro Q
    have hpaths : V.paths = x.W.paths.map fun P =>
        if lowest P.lanes = x.low then { P.advance i.len none x.skids with scene := none } else P.standsBy true := by
      have hV2 := hV
      rw [retire, State.modWarp_eq hs, if_pos he, State.endScene,
        State.modWarp_eq (State.setWarp_warp_same _ _ _), wakeYields_warp, if_pos rfl, State.setWarp_warp_same] at hV2
      simp only [Option.map_some, Option.some.injEq] at hV2
      rw [← hV2]
      simp only [Warp.woken, Warp.modPath, List.map_map, hp]
      refine List.map_congr_left fun P _ => ?_
      simp only [Function.comp]
      by_cases hl : lowest P.lanes = x.low
      · rw [if_pos hl, if_pos hl, if_pos (hadv P ▸ hl)]
        simp only [decide_true]
        rw [wakeYield_own _ _ (by exact hl)]
      · rw [if_neg hl, if_neg hl, if_neg hl, wakeYield_other (.inr hl)]
    rw [Warp.split, hpath]
    simp only [mem_insertPaths, mem_targets, Warp.dropPath, List.mem_filter, hpaths, List.mem_map, decide_eq_true_eq]
    constructor
    · rintro (⟨⟨P, hP, rfl⟩, hne⟩ | ⟨u, ⟨e, ⟨l, hl, rfl⟩, rfl⟩, rfl⟩)
      · by_cases hl : lowest P.lanes = x.low
        · rw [if_pos hl] at hne; exact absurd hl hne
        · exact .inl ⟨P, hP, hl, if_neg hl⟩
      · exact .inr ⟨l, hl, by simp only [Ix.moved, lanesTo_map]⟩
    · rintro (⟨P, hP, hl, rfl⟩ | ⟨l, hl, rfl⟩)
      · exact .inl ⟨⟨P, hP, if_neg hl⟩, by rwa [standsBy_lanes]⟩
      · exact .inr ⟨tgt l, ⟨(l, tgt l), ⟨l, hl, rfl⟩, rfl⟩, by simp only [Ix.moved, lanesTo_map]⟩

/-- What a transfer does whose effect left the issuing warp `W`. -/
theorem transfer_spec {s s1 s' : State} {x : Ix} {i : Instr} {W : Warp} {tgt : Nat → VAddr} {body : Ix → Res} (h : Starts s x i)
    (hx : exec i s = run i s body) (hb : body x = .move s' (x.lanes.map fun l => (l, tgt l))) (hs : s' = s1.setWarp x.w W)
    (hp : W.paths = x.W.paths) (hr : W.running = x.W.running) (he : i.endsScene = true) :
    ∃ t, Transfers s s1 t x i W tgt := by
  obtain ⟨t, h1, h2, h3⟩ := transfer_core (W := W) h hx hb (by rw [hs]; exact State.setWarp_warp_same _ _ _) hp hr he
  rw [hs] at h2
  exact ⟨t, h1, h2.setWarp, h3⟩

/-- A path that retires an instruction that ends its scene and is blocked past it. -/
theorem block_spec {s1 : State} {x : Ix} {i : Instr} {b : Block} (hw : s1.warp x.w = some x.W) (hp : x.W.path x.low = some x.P)
    (hr : x.W.running = some x.low) (he : i.endsScene = true) :
    BlockedPast s1 ((retire x i s1 none).modWarp x.w fun W => W.modPath x.low fun P => { P with block := some b }) x i b := by
  have hl : ∀ P : Path, ({ P with block := some b } : Path).lanes = P.lanes := fun _ => rfl
  obtain ⟨ho, V, hV, hbody, hpath, hrun, hoth⟩ := retire_spec (i := i) (l := none) hw hp hr
  rw [State.modWarp_eq hV]
  obtain ⟨o1, o2⟩ := ho
  refine ⟨⟨by rw [o1]; rfl, fun v hv => ?_⟩, _, State.setWarp_warp_same _ _ _, hbody, ?_, ?_, ?_⟩
  · rw [State.setWarp_warp, if_neg hv]
    rw [he] at o2
    exact o2 v hv
  · simpa [he] using hrun
  · rw [path_modPath _ _ _ hl, if_pos rfl, hpath]; rfl
  · intro r hne
    rw [path_modPath _ _ _ hl, if_neg hne, hoth r hne, he]

end Sys2Proof.Machine
end

