-- ==== Sys2Proof/Laws/Control.lean ====
section
/-! SUPPORT. Lemmas of control transfers and memory accesses: targets, scene-end bits, translation entries kept, the return
stack, and the lanes of checked accesses. -/

namespace Sys2Proof.Machine

set_option Elab.async false

theorem target_ok_iff {t : VAddr} : (t.toNat % 4 = 0 ∧ (t.toNat < 2 ^ 51 ∨ 2 ^ 56 - 2 ^ 51 ≤ t.toNat)) ↔ targetOk t = true := by
  unfold targetOk canonical
  have := t.isLt
  simp only [Bool.and_eq_true, Bool.or_eq_true, decide_eq_true_eq]
  omega

theorem targetTrap_none {f : List (Nat × VAddr)} (h : ∀ e ∈ f, targetOk e.2 = true) : targetTrap f = none := by
  unfold targetTrap
  rw [List.find?_eq_none.mpr fun e he => by simp [h e he]]
  rfl

theorem endsScene_uni {op d a b f : Nat} {i : Instr} (hi : i.word1 = uniWord op true d a b f) (hs : op * 2 ^ 22 + d * 2 ^ 16 + a * 2 ^ 10 + b * 2 ^ 4 + f < 2 ^ 30) : i.endsScene = true := by
  unfold Instr.endsScene; rw [hi]; exact bit30_uni hs
theorem endsScene_lane {op d a b : Nat} {n : Bool} {i : Instr} (hi : i.word1 = laneWord op true n d a b) (ho : op < 256) (hs : d * 2 ^ 14 + a * 2 ^ 7 + b < 2 ^ 21) : i.endsScene = true := by
  unfold Instr.endsScene; rw [hi]; exact bit30_lane ho hs

theorem shared_keepLeaves (x : Ix) (s : State) (as : List MemAcc) : Shared s (x.keepLeaves s as) :=
  shared_foldl (fun s a => by split; exacts [shared_keepLeaf _ _ _ _ _, .refl s]) as s

theorem stack_trans {A B C : Warp} (h : B = { A with stack := B.stack, spill := B.spill }) (h2 : C = { B with stack := C.stack, spill := C.spill }) :
    C = { A with stack := C.stack, spill := C.spill } := by rw [h2, h]
theorem push_spec (ra : VAddr) : ∀ (ls : List Nat) (W : Warp), ls.Nodup →
    let U := ls.foldl (fun W l => W.push l ra) W
    U = { W with stack := U.stack, spill := U.spill } ∧ ∀ l,
      (l ∈ ls → U.stackOf l = ra :: (if 8 ≤ (W.stackOf l).length then (W.stackOf l).dropLast else W.stackOf l) ∧
        U.spillOf l = W.spillOf l + (if 8 ≤ (W.stackOf l).length then 1 else 0)) ∧
      (l ∉ ls → U.stackOf l = W.stackOf l ∧ U.spillOf l = W.spillOf l)
  | [], W, _ => by refine ⟨rfl, fun l => ⟨fun h => absurd h (by simp), fun _ => ⟨rfl, rfl⟩⟩⟩
  | a :: ls, W, hn => by
    have hn' := List.nodup_cons.mp hn
    obtain ⟨h1, h2⟩ := push_spec ra ls (W.push a ra) hn'.2
    have hp : W.push a ra = { W with stack := (W.push a ra).stack, spill := (W.push a ra).spill } := by
      unfold Warp.push; split <;> rfl
    have hst : ∀ l, (W.push a ra).stackOf l = (if l = a then ra :: (if 8 ≤ (W.stackOf l).length then (W.stackOf l).dropLast else W.stackOf l) else W.stackOf l) ∧
        (W.push a ra).spillOf l = (if l = a then W.spillOf l + (if 8 ≤ (W.stackOf l).length then 1 else 0) else W.spillOf l) := fun l => by
      by_cases hl : l = a
      · subst hl
        unfold Warp.push
        split <;> simp [Warp.setStack, Warp.stackOf, Warp.spillOf]
      · unfold Warp.push
        split <;> simp [Warp.setStack, Warp.stackOf, Warp.spillOf, tget_tput, hl]
    refine ⟨?_, fun l => ⟨fun hl => ?_, fun hl => ?_⟩⟩
    · exact stack_trans hp h1
    · rcases List.mem_cons.mp hl with rfl | hm
      · have := (h2 l).2 hn'.1
        exact ⟨this.1.trans (by rw [(hst l).1, if_pos rfl]), this.2.trans (by rw [(hst l).2, if_pos rfl])⟩
      · have hne : l ≠ a := fun h => hn'.1 (h ▸ hm)
        have := (h2 l).1 hm
        rw [(hst l).1, (hst l).2, if_neg hne, if_neg hne] at this
        exact this
    · have hne : l ≠ a := fun h => hl (by simp [h])
      have := (h2 l).2 fun h => hl (by simp [h])
      rw [(hst l).1, (hst l).2, if_neg hne, if_neg hne] at this
      exact this

theorem firstLane_none {ls : List Nat} {f : Nat → Option Trap} (h : ∀ l ∈ ls, f l = none) : firstLane ls f = none := by
  unfold firstLane
  rw [List.findSome?_eq_none_iff]
  intro l hl
  rw [h l hl]; rfl


/-! ## Lanes of accesses -/

theorem mapM_ok {α β : Type} {f : α → Except Trap β} : ∀ {l : List α} {r : List β}, l.mapM f = .ok r → List.Forall₂ (fun a b => f a = .ok b) l r
  | [], r, h => by cases h; exact .nil
  | a :: l, r, h => by
    rw [List.mapM_cons] at h
    cases ha : f a with
    | error e => rw [ha] at h; cases h
    | ok b =>
      rw [ha] at h
      cases hl : l.mapM f with
      | error e => rw [hl] at h; cases h
      | ok r' =>
        rw [hl] at h
        cases h
        exact .cons ha (mapM_ok hl)

theorem mapM_all {α β : Type} {f : α → Except Trap β} (g : α → β) : ∀ {l : List α}, (∀ a ∈ l, f a = .ok (g a)) → l.mapM f = .ok (l.map g)
  | [], _ => rfl
  | a :: l, h => by
    rw [List.mapM_cons, h a (by simp), mapM_all g fun b hb => h b (by simp [hb])]
    rfl

theorem xlate_lane {x : Ix} {s k l vas a} (h : x.xlate s k l vas = .ok a) : a.lane = l ∧ a.vas = vas := by
  unfold Ix.xlate at h
  dsimp only at h
  repeat' split at h
  all_goals first | cases h; exact ⟨rfl, rfl⟩ | cases h

theorem forall₂_map {α β γ : Type} {R : α → β → Prop} {f : β → γ} {g : α → γ} (h : ∀ a b, R a b → f b = g a) :
    ∀ {l : List α} {r : List β}, List.Forall₂ R l r → r.map f = l.map g
  | _, _, .nil => rfl
  | _, _, .cons h1 h2 => by rw [List.map_cons, List.map_cons, h _ _ h1, forall₂_map h h2]

theorem xlates_vas {x : Ix} {s k} {vas : Nat → List Nat} : ∀ {ls as},
    List.Forall₂ (fun l a => x.xlate s k l (vas l) = .ok a) ls as → ∀ a ∈ as, a.vas = vas a.lane
  | _, _, .nil, _, h => nomatch h
  | _, _, .cons h1 h2, a, h => by
    rcases List.mem_cons.mp h with rfl | h
    · rw [(xlate_lane h1).2, (xlate_lane h1).1]
    · exact xlates_vas h2 a h

theorem checkAcc_lanes {x : Ix} {s k n lock lanes vas as} (h : x.checkAcc s k n lock lanes vas = .ok as) :
    as.map (·.lane) = lanes ∧ ∀ a ∈ as, a.vas = vas a.lane := by
  unfold Ix.checkAcc at h
  cases hm : lanes.mapM fun l => x.xlate s k l (vas l) with
  | error e => rw [hm] at h; cases h
  | ok as' =>
    rw [hm] at h
    dsimp only at h
    repeat' split at h
    all_goals first | cases h; done | skip
    all_goals
      cases h
      have hf := mapM_ok hm
      refine ⟨(forall₂_map (f := MemAcc.lane) (g := fun l => l) (fun l a ha => (xlate_lane ha).1) hf).trans (List.map_id _), fun a ha => ?_⟩
      exact xlates_vas hf a ha

theorem globalAcc_lanes {x : Ix} {s k n lanes addr as} (h : x.globalAcc s k n lanes addr = .ok as) :
    as.map (·.lane) = lanes ∧ ∀ a ∈ as, a.vas = List.range' (addr a.lane) n := by
  unfold Ix.globalAcc at h
  split at h
  · cases h
  · split at h
    · cases h
    · exact checkAcc_lanes h

theorem privateAcc_lanes {x : Ix} {s k n lanes off as} (h : x.privateAcc s k n lanes off = .ok as) :
    as.map (·.lane) = lanes ∧ ∀ a ∈ as, a.vas = (List.range n).map fun i => s.privVa x.T.ctx x.w a.lane (off a.lane + i) := by
  unfold Ix.privateAcc at h
  split at h
  · cases h
  · split at h
    · cases h
    · dsimp only at h
      split at h
      · cases h
      · exact checkAcc_lanes h

theorem pop_spec : ∀ (ls : List Nat) (W : Warp), ls.Nodup →
    let U := ls.foldl Warp.pop W
    U = { W with stack := U.stack, spill := U.spill } ∧ ∀ l,
      (l ∈ ls → U.stackOf l = (W.stackOf l).tail ∧ U.spillOf l = W.spillOf l - (if (W.stackOf l).isEmpty then 1 else 0)) ∧
      (l ∉ ls → U.stackOf l = W.stackOf l ∧ U.spillOf l = W.spillOf l)
  | [], W, _ => by refine ⟨rfl, fun l => ⟨fun h => absurd h (by simp), fun _ => ⟨rfl, rfl⟩⟩⟩
  | a :: ls, W, hn => by
    have hn' := List.nodup_cons.mp hn
    obtain ⟨h1, h2⟩ := pop_spec ls (W.pop a) hn'.2
    have hp : W.pop a = { W with stack := (W.pop a).stack, spill := (W.pop a).spill } := by
      unfold Warp.pop; split <;> rfl
    have hst : ∀ l, (W.pop a).stackOf l = (if l = a then (W.stackOf l).tail else W.stackOf l) ∧
        (W.pop a).spillOf l = (if l = a then W.spillOf l - (if (W.stackOf l).isEmpty then 1 else 0) else W.spillOf l) := fun l => by
      by_cases hl : l = a
      · subst hl
        unfold Warp.pop
        split
        · next h => simp [Warp.setStack, Warp.stackOf, Warp.spillOf] at h ⊢; simp [h]
        · next h => simp [Warp.setStack, Warp.stackOf, Warp.spillOf] at h ⊢; simp [h]
      · unfold Warp.pop
        split <;> simp [Warp.setStack, Warp.stackOf, Warp.spillOf, tget_tput, hl]
    refine ⟨stack_trans hp h1, fun l => ⟨fun hl => ?_, fun hl => ?_⟩⟩
    · rcases List.mem_cons.mp hl with rfl | hm
      · have := (h2 l).2 hn'.1
        exact ⟨this.1.trans (by rw [(hst l).1, if_pos rfl]), this.2.trans (by rw [(hst l).2, if_pos rfl])⟩
      · have hne : l ≠ a := fun h => hn'.1 (h ▸ hm)
        have := (h2 l).1 hm
        rw [(hst l).1, (hst l).2, if_neg hne, if_neg hne] at this
        exact this
    · have hne : l ≠ a := fun h => hl (by simp [h])
      have := (h2 l).2 fun h => hl (by simp [h])
      rw [(hst l).1, (hst l).2, if_neg hne, if_neg hne] at this
      exact this

end Sys2Proof.Machine
end

