-- ==== Sys2Proof/Laws/Fault.lean ====
section
/-! SUPPORT. Taking a fault: what firing monitors, holding a team and `raise` do. -/

namespace Sys2Proof.Machine

set_option Elab.async false

/-! ## Waking MONWAITs -/

theorem OnlyFired.refl (W : Warp) : OnlyFired W W := ⟨rfl, fun _ => rfl, fun _ => rfl⟩

theorem OnlyFired.trans {A B C : Warp} (h : OnlyFired A B) (k : OnlyFired B C) : OnlyFired A C := by
  obtain ⟨h1, h2, h3⟩ := h
  obtain ⟨k1, k2, k3⟩ := k
  refine ⟨k1.trans h1, fun r => (k2 r).trans (h2 r), fun hn => ?_⟩
  have hb := h3 hn
  have hc := k3 (by rw [hb]; exact hn)
  rw [hc, hb]

theorem setRegs_paths (c : Bool) (d : Nat) (v : Nat → Word) : ∀ (ls : List Nat) (W : Warp),
    (ls.foldl (fun W l => if c then W else W.setReg l d (v l)) W).paths = W.paths ∧
    (ls.foldl (fun W l => if c then W else W.setReg l d (v l)) W).running = W.running
  | [], _ => ⟨rfl, rfl⟩
  | l :: ls, W => by
    have := setRegs_paths c d v ls (if c then W else W.setReg l d (v l))
    rw [List.foldl_cons]
    cases c <;> exact this

@[simp] theorem unmonitored_lanes (P : Path) : P.unmonitored.lanes = P.lanes := by
  unfold Path.unmonitored; split <;> rfl
@[simp] theorem unmonitored_pc (P : Path) : P.unmonitored.pc = P.pc := by
  unfold Path.unmonitored; split <;> rfl
@[simp] theorem unmonitored_scene (P : Path) : P.unmonitored.scene = P.scene := by
  unfold Path.unmonitored; split <;> rfl
@[simp] theorem unmonitored_stop (P : Path) : P.unmonitored.stop = P.stop := by
  unfold Path.unmonitored; split <;> rfl

theorem unblock_path {W : Warp} {q : Nat} {P : Path} (hP : W.path q = some P) {t n d} (hb : P.block = some (.monwait t n d)) (r : Nat) :
    ((W.modPath q fun P => { P with block := none }).path r).map Path.unmonitored = (W.path r).map Path.unmonitored := by
  have hl : ∀ P : Path, ({ P with block := none } : Path).lanes = P.lanes := fun _ => rfl
  rw [path_modPath _ _ _ hl]
  split
  · next h => subst h; rw [hP]; simp [Path.unmonitored, hb]
  · rfl

theorem path_congr {V W : Warp} (h : V.paths = W.paths) (r : Nat) : V.path r = W.path r := by simp [Warp.path, h]

theorem path_mem {W : Warp} {r : Nat} {P : Path} (h : W.path r = some P) : P ∈ W.paths := List.mem_of_find?_eq_some h

theorem wakePath_spec (force : Path → Bool) (W : Warp) (r : Nat) :
    (W.wakePath force r).running = W.running ∧
    (∀ q, ((W.wakePath force r).path q).map Path.unmonitored = (W.path q).map Path.unmonitored) ∧
    ((∀ P, W.path r = some P → ∀ t n d, P.block ≠ some (.monwait t n d)) → W.wakePath force r = W) := by
  unfold Warp.wakePath
  split
  · exact ⟨rfl, fun _ => rfl, fun _ => rfl⟩
  · next P hP =>
    split
    · next t n d hb =>
      dsimp only
      split
      · refine ⟨(setRegs_paths n _ _ _ W).2, fun q => ?_, fun h => absurd hb (h P hP t n d)⟩
        have hp := fun q => path_congr (setRegs_paths n d.toNat (fun l => if (match tget none W.mon l with | some m => m.fired | none => false) then 1 else 0) (lanesOf P.lanes) W).1 q
        refine (unblock_path ((hp r).trans hP) hb q).trans ?_
        exact congrArg _ (hp q)
      · exact ⟨rfl, fun _ => rfl, fun _ => rfl⟩
    · exact ⟨rfl, fun _ => rfl, fun _ => rfl⟩

/-- Waking MONWAITs unblocks paths and changes nothing else of them; where none waits there, it changes nothing. -/
theorem wakeMon_spec (W : Warp) (force : Path → Bool) : OnlyFired W (W.wakeMon force) ∧ (W.noMonwait → W.wakeMon force = W) := by
  have aux : ∀ (rs : List Nat) (V : Warp), V.running = W.running →
      (∀ r, (V.path r).map Path.unmonitored = (W.path r).map Path.unmonitored) →
      (rs.foldl (Warp.wakePath force) V).running = W.running ∧
      (∀ r, ((rs.foldl (Warp.wakePath force) V).path r).map Path.unmonitored = (W.path r).map Path.unmonitored) ∧
      (V.noMonwait → rs.foldl (Warp.wakePath force) V = V) := by
    intro rs
    induction rs with
    | nil => exact fun V h1 h2 => ⟨h1, h2, fun _ => rfl⟩
    | cons r rs ih =>
      intro V h1 h2
      rw [List.foldl_cons]
      obtain ⟨g1, g2, g3⟩ := wakePath_spec force V r
      obtain ⟨k1, k2, k3⟩ := ih (V.wakePath force r) (g1.trans h1) fun q => (g2 q).trans (h2 q)
      refine ⟨k1, k2, fun hn => ?_⟩
      have hV := g3 fun P hP => hn P (path_mem hP)
      rw [hV] at k3 ⊢
      exact k3 hn
  have := aux (W.paths.map fun P => lowest P.lanes) W rfl (fun _ => rfl)
  exact ⟨⟨this.1, this.2.1, fun h => by rw [show W.wakeMon force = W from this.2.2 h]⟩, this.2.2⟩

theorem fireMon_spec (W : Warp) (hit : Monitor → Bool) : OnlyFired W (W.fireMon hit) := by
  unfold Warp.fireMon
  have h := wakeMon_spec { W with mon := W.mon.map fun (e : Nat × Option Monitor) =>
    (e.1, e.2.map fun m => if hit m then { m with fired := true } else m) } fun _ => false
  exact ⟨h.1.1, h.1.2.1, fun hn => by rw [h.2 hn]⟩

/-! ## Holding a team -/

theorem stopWait_idle {W : Warp} (h : W.running = none) : W.stopWait = W := by simp [Warp.stopWait, h]

/-- Holding the warps of a list. -/
theorem holdWarps_spec : ∀ (ws : List Nat) (s : State) (u : State),
    u = ws.foldl (fun s w => s.modWarp w fun W => (W.stopWait).fireMon fun _ => true) s →
    u = { s with warps := u.warps } ∧ (∀ v, v ∉ ws → u.warp v = s.warp v) ∧
    ∀ v W, s.warp v = some W → W.running = none → ∃ V, u.warp v = some V ∧ OnlyFired W V
  | [], s, u, h => by subst h; exact ⟨rfl, fun _ _ => rfl, fun v W hW _ => ⟨W, hW, OnlyFired.refl W⟩⟩
  | w :: ws, s, u, h => by
    rw [List.foldl_cons] at h
    obtain ⟨h1, h2, h3⟩ := holdWarps_spec ws _ u h
    refine ⟨?_, fun v hv => ?_, fun v W hW hr => ?_⟩
    · rw [h1]
      have : s.modWarp w (fun W => (W.stopWait).fireMon fun _ => true) =
          { s with warps := (s.modWarp w fun W => (W.stopWait).fireMon fun _ => true).warps } := by
        unfold State.modWarp; split <;> rfl
      rw [this]
    · rw [h2 v fun hc => hv (by simp [hc]), State.modWarp_warp, if_neg fun hc => hv (by simp [hc])]
    · by_cases hv : v = w
      · subst hv
        have hf := fireMon_spec W fun _ => true
        obtain ⟨V, hV, hQ⟩ := h3 v (W.fireMon fun _ => true)
          (by rw [State.modWarp_warp, if_pos rfl, hW]; simp [stopWait_idle hr]) (hf.1.trans hr)
        exact ⟨V, hV, hf.trans hQ⟩
      · exact h3 v W (by rw [State.modWarp_warp, if_neg hv, hW]) hr

/-- Raising the hold of a team: its record takes the change; its warps' waiting paths stop and its monitors fire; nothing
else changes. -/
theorem holdTeam_spec {s u : State} {k : Nat} {T : Team} {f : Hold → Hold} (hT : s.team k = some T) (hu : u = s.holdTeam k f) :
    SameStore s u ∧ u.team k = some { T with hold := some (f (T.hold.getD Hold.empty)) } ∧
    (∀ j, j ≠ k → u.team j = s.team j) ∧ (∀ v, v ∉ T.slots → u.warp v = s.warp v) ∧
    ∀ v W, s.warp v = some W → W.running = none → ∃ V, u.warp v = some V ∧ OnlyFired W V := by
  subst hu
  unfold State.holdTeam
  simp only [hT]
  split
  · next h hh =>
    refine ⟨rfl, ?_, fun j hj => ?_, fun _ _ => rfl, fun v W hW _ => ⟨W, hW, OnlyFired.refl W⟩⟩
    · simp [hh]
    · rw [State.setTeam_team, if_neg hj]
  · next hh =>
    obtain ⟨h1, h2, h3⟩ := holdWarps_spec T.slots (s.setTeam k { T with hold := some (f Hold.empty) }) _ rfl
    generalize T.slots.foldl (fun s w => s.modWarp w fun W => (W.stopWait).fireMon fun _ => true)
      (s.setTeam k { T with hold := some (f Hold.empty) }) = u at h1 h2 h3
    have hteam : ∀ j, u.team j = if j = k then some { T with hold := some (f Hold.empty) } else s.team j := fun j => by
      rw [h1]; exact State.setTeam_team _ _ _ _
    have hu : u = { s with warps := u.warps, teams := u.teams } := by rw [h1]; rfl
    exact ⟨hu, (hteam k).trans (by simp [hh]), fun j hj => (hteam j).trans (if_neg hj), fun v hv => h2 v hv, h3⟩

/-! ## Taking a fault -/

/-- What `raise` does, but for what a failed translation leaves. -/
theorem hold_fault {s : State} {x : Ix} {st : Stop} (hW : s.warp x.w = some x.W) (hP : x.W.path x.low = some x.P)
    (hT : s.team x.W.team = some x.T) (r : EvRec) :
    let u := (s.modWarp x.w fun W =>
      { W.modPath x.low (fun P => { P with stop := some st, wait := none, got := [] }) with running := none }).holdTeam x.W.team
      fun h => { h with recs := h.recs ++ [r] }
    SameStore s u ∧
    (∃ T h, u.team x.W.team = some T ∧ T = { x.T with hold := T.hold } ∧ T.hold = some h ∧
      h.recs = (match x.T.hold with | some h0 => h0.recs | none => []) ++ [r]) ∧
    (∀ k, k ≠ x.W.team → u.team k = s.team k) ∧ (∀ v, v ≠ x.w → v ∉ x.T.slots → u.warp v = s.warp v) ∧
    ∃ V P, u.warp x.w = some V ∧ V.running = none ∧ V.path x.low = some P ∧
      P.pc = x.P.pc ∧ P.lanes = x.P.lanes ∧ P.scene = x.P.scene ∧ P.stop = some st ∧
      (x.W.noMonwait → { V with paths := [], running := none, mon := [] } = { x.W with paths := [], running := none, mon := [] }) := by
  have hl : ∀ P : Path, ({ P with stop := some st, wait := none, got := [] } : Path).lanes = P.lanes := fun _ => rfl
  let W1 : Warp := { x.W.modPath x.low (fun P => { P with stop := some st, wait := none, got := [] }) with running := none }
  have hs1 : s.modWarp x.w (fun W => { W.modPath x.low (fun P => { P with stop := some st, wait := none, got := [] }) with running := none }) =
      s.setWarp x.w W1 := State.modWarp_eq hW _
  simp only [hs1]
  obtain ⟨ho, ht, hto, hwo, hw⟩ := holdTeam_spec (s := s.setWarp x.w W1) (k := x.W.team) (T := x.T)
    (f := fun h => { h with recs := h.recs ++ [r] }) hT rfl
  generalize (s.setWarp x.w W1).holdTeam x.W.team _ = u at ho ht hto hwo hw
  obtain ⟨V, hV, hr1, hpath, hno⟩ := hw x.w W1 (State.setWarp_warp_same _ _ _) rfl
  refine ⟨by unfold SameStore at ho ⊢; rw [ho]; rfl, ?_, fun k hk => hto k hk, fun v hv hv2 => ?_, V, ?_⟩
  · refine ⟨_, _, ht, rfl, rfl, ?_⟩
    cases x.T.hold <;> rfl
  · rw [hwo v hv2, State.setWarp_warp, if_neg hv]
  · have hp1 : W1.path x.low = some { x.P with stop := some st, wait := none, got := [] } := by
      show (x.W.modPath x.low _).path x.low = _
      rw [path_modPath _ _ _ hl, if_pos rfl, hP]; rfl
    have := hpath x.low
    rw [hp1] at this
    cases hQ : V.path x.low with
    | none => rw [hQ] at this; cases this
    | some Q =>
      rw [hQ] at this
      have hQ2 : Q.unmonitored = Path.unmonitored { x.P with stop := some st, wait := none, got := [] } := Option.some.inj this
      refine ⟨Q, hV, hr1, rfl, by simpa using congrArg (·.pc) hQ2, by simpa using congrArg (·.lanes) hQ2,
        by simpa using congrArg (·.scene) hQ2, by simpa using congrArg (·.stop) hQ2, ?_⟩
      intro hn
      have hn1 : W1.noMonwait := by
        intro P' hP' a b c
        obtain ⟨P0, hP0, rfl⟩ := List.mem_map.mp hP'
        have := hn P0 hP0 a b c
        split
        · exact this
        · exact this
      rw [hno hn1]
      rfl

/-- What `raise` does to a state in which the path still issues. -/
theorem raise_spec {s : State} {x : Ix} {st : Stop} {t : Trap} (h : s.issuing = some x) (hc : st.code = t.code) (hk : st.cause = t.cause) :
    TakesFault s (raise x s st t) x st (x.record 3 t.code t.cause t.addr t.aux0 t.aux1 (t.lane.getD x.low)) := by
  obtain ⟨_, hW, _, hP, hT⟩ := issuing_spec h
  unfold TakesFault
  rw [hc, hk]
  have ha : (x.record 3 t.code t.cause t.addr t.aux0 t.aux1 (t.lane.getD x.low)).addr = t.addr := rfl
  rw [ha]
  unfold raise
  by_cases h14 : t.code = 14
  · simp only [h14, if_true]
    obtain ⟨e, hb⟩ := shared_dropLeaf s x.core x.T.ctx t.addr t.cause
    generalize s.dropLeaf x.core x.T.ctx t.addr t.cause = s1 at e hb
    have eW : ∀ w, s1.warp w = s.warp w := fun w => by rw [e]; rfl
    have eT : ∀ k, s1.team k = s.team k := fun k => by rw [e]; rfl
    obtain ⟨a1, a2, a3, a4, a5⟩ := hold_fault (s := s1) (st := st) ((eW _).trans hW) hP ((eT _).trans hT)
      (x.record 3 14 t.cause t.addr t.aux0 t.aux1 (t.lane.getD x.low))
    refine ⟨a1, fun pa => ?_, a2, fun k hk => (a3 k hk).trans (eT k), fun v h1 h2 => (a4 v h1 h2).trans (eW v), a5⟩
    unfold SameStore at a1
    rw [← hb pa, a1]; rfl
  · simp only [h14, if_false]
    obtain ⟨a1, a2, a3, a4, a5⟩ := hold_fault (s := s) (st := st) hW hP hT
      (x.record 3 t.code t.cause t.addr t.aux0 t.aux1 (t.lane.getD x.low))
    refine ⟨a1, fun pa => ?_, a2, a3, a4, a5⟩
    unfold SameStore at a1
    rw [a1]; rfl

/-- An instruction whose effect is a fault in an unchanged state takes it. -/
theorem takes_fault {s : State} {x : Ix} {i : Instr} {t : Trap} {body : Ix → Res} (h : Starts s x i)
    (hx : exec i s = run i s body) (hb : body x = .trap s t) :
    ∃ u, exec i s = .next u ∧
      TakesFault s u x (i.stop x.T.width t) (x.record 3 t.code t.cause t.addr t.aux0 t.aux1 (t.lane.getD x.low)) :=
  ⟨_, by rw [hx, run_starts h, hb]; rfl, raise_spec h.1 rfl rfl⟩

/-- An instruction that may not start takes the fault of its entry checks. -/
theorem entry_fault {s : State} {x : Ix} {i : Instr} {t : Trap} {body : Ix → Res} (h : s.issuing = some x)
    (hx : exec i s = run i s body) (he : entryTrap x i = some t) :
    ∃ u, exec i s = .next u ∧
      TakesFault s u x (i.stop x.T.width t) (x.record 3 t.code t.cause t.addr t.aux0 t.aux1 (t.lane.getD x.low)) :=
  ⟨_, by rw [hx, run, h]; simp only [he], raise_spec h rfl rfl⟩

end Sys2Proof.Machine
end

