-- ==== Sys2Proof/Laws/Kept.lean ====
section
/-! SUPPORT. What every instruction and event but module reset keeps (`Kept`): the canonical forms of memory and of the tables
of teams, cast commands and semaphores, the module's identity, its clocks, and, once a context has been enabled, the memory
split and the arenas. One lemma for each operation. -/

namespace Sys2Proof.Machine

set_option Elab.async false

/-- A table keeps its canonical form. -/
def WfTo {α : Type} [DecidableEq α] (d : α) (m m' : List (Nat × α)) : Prop := twf d m = true → twf d m' = true
/-- A field is the same. -/
def Same {α : Type} (a b : α) : Prop := b = a
/-- Once a context has been enabled one stays so, and the memory split and the arenas stay. -/
def PoolTo (e : Bool) (p : BitVec 7) (l : Table (BitVec 6)) (e' : Bool) (p' : BitVec 7) (l' : Table (BitVec 6)) : Prop :=
  e = true → e' = true ∧ p' = p ∧ l' = l

/-- What every instruction and event but module reset keeps from `s` to `t`. -/
def Kept (s t : State) : Prop :=
  WfTo (0 : Byte) s.mem t.mem ∧ WfTo none s.teams t.teams ∧ WfTo [] s.casts t.casts ∧ WfTo (0 : BitVec 2) s.sems t.sems ∧
  Same s.dcmap t.dcmap ∧ Same s.lastseq t.lastseq ∧ Same s.clock t.clock ∧
  PoolTo s.everEn s.ipool s.slabs t.everEn t.ipool t.slabs

/-! ## The fields kept -/

@[simp] theorem WfTo.refl {α : Type} [DecidableEq α] (d : α) (m : List (Nat × α)) : WfTo d m m := id
@[simp] theorem wfTo_put {α : Type} [DecidableEq α] {d : α} {m m' : List (Nat × α)} (k v) (h : WfTo d m m') : WfTo d m (tput d m' k v) :=
  fun hm => twf_tput k v (h hm)
@[simp] theorem Same.refl {α : Type} (a : α) : Same a a := rfl
@[simp] theorem PoolTo.refl (e p l) : PoolTo e p l e p l := fun h => ⟨h, rfl, rfl⟩

@[simp] theorem Kept.refl (s : State) : Kept s s :=
  ⟨.refl _ _, .refl _ _, .refl _ _, .refl _ _, .refl _, .refl _, .refl _, .refl _ _ _⟩
theorem Kept.trans {s t u : State} (h : Kept s t) (k : Kept t u) : Kept s u := by
  obtain ⟨h1, h2, h3, h4, h5, h6, h7, h8⟩ := h
  obtain ⟨k1, k2, k3, k4, k5, k6, k7, k8⟩ := k
  exact ⟨k1 ∘ h1, k2 ∘ h2, k3 ∘ h3, k4 ∘ h4, Eq.trans k5 h5, Eq.trans k6 h6, Eq.trans k7 h7, fun he =>
    have a := h8 he
    have b := k8 a.1
    ⟨b.1, b.2.1.trans a.2.1, b.2.2.trans a.2.2⟩⟩

theorem Kept.wf {s t : State} (h : Kept s t) : Memory.wf s.mem = true → Memory.wf t.mem = true := h.1
theorem Kept.canon {s t : State} (h : Kept s t) : s.Canon → t.Canon := fun c => ⟨h.2.1 c.1, h.2.2.1 c.2.1, h.2.2.2.1 c.2.2⟩
theorem Kept.dcmap {s t : State} (h : Kept s t) : t.dcmap = s.dcmap := h.2.2.2.2.1
theorem Kept.lastseq {s t : State} (h : Kept s t) : t.lastseq = s.lastseq := h.2.2.2.2.2.1
theorem Kept.clock {s t : State} (h : Kept s t) : t.clock = s.clock := h.2.2.2.2.2.2.1
theorem Kept.pool {s t : State} (h : Kept s t) : s.everEn = true → t.everEn = true ∧ t.ipool = s.ipool ∧ t.slabs = s.slabs :=
  h.2.2.2.2.2.2.2

section
variable {s u : State}

@[simp] theorem kept_mk (x1 x2 x3 x4 x5 x6 x7 x8 x9 x10 x11 x12 x13 x14 x15 x16 x17 x18 x19 x20 x21 x22 x23 x24 x25 x26 x27 x28 x29 x30 x31
    x32 x33 x34 x35 x36 x37 x38 x39 x40 x41 x42 x43 x44 x45 x46 x47 x48 x49 x50 x51 x52 x53 x54 x55 x56 x57 x58) :
    Kept s ⟨x1, x2, x3, x4, x5, x6, x7, x8, x9, x10, x11, x12, x13, x14, x15, x16, x17, x18, x19, x20, x21, x22, x23, x24, x25,
    x26, x27, x28, x29, x30, x31, x32, x33, x34, x35, x36, x37, x38, x39, x40, x41, x42, x43, x44, x45, x46, x47, x48,
    x49, x50, x51, x52, x53, x54, x55, x56, x57, x58⟩ ↔
      WfTo (0 : Byte) s.mem x1 ∧ WfTo none s.teams x13 ∧ WfTo [] s.casts x16 ∧ WfTo (0 : BitVec 2) s.sems x35 ∧
      Same s.dcmap x41 ∧ Same s.lastseq x42 ∧ Same s.clock x54 ∧ PoolTo s.everEn s.ipool s.slabs x26 x30 x31 := Iff.rfl
@[simp] theorem kept_mem (h : Kept s u) : WfTo (0#8) s.mem u.mem := h.1
@[simp] theorem kept_teams (h : Kept s u) : WfTo none s.teams u.teams := h.2.1
@[simp] theorem kept_casts (h : Kept s u) : WfTo [] s.casts u.casts := h.2.2.1
@[simp] theorem kept_sems (h : Kept s u) : WfTo (0#2) s.sems u.sems := h.2.2.2.1
@[simp] theorem kept_dcmap (h : Kept s u) : Same s.dcmap u.dcmap := h.2.2.2.2.1
@[simp] theorem kept_lastseq (h : Kept s u) : Same s.lastseq u.lastseq := h.2.2.2.2.2.1
@[simp] theorem kept_clock (h : Kept s u) : Same s.clock u.clock := h.2.2.2.2.2.2.1
@[simp] theorem kept_pool (h : Kept s u) : PoolTo s.everEn s.ipool s.slabs u.everEn u.ipool u.slabs := h.2.2.2.2.2.2.2

theorem kept_foldl {β : Type} {f : State → β → State} (hf : ∀ v b, Kept s v → Kept s (f v b)) : ∀ (l : List β) (u : State),
    Kept s u → Kept s (l.foldl f u)
  | [], _, h => h
  | b :: l, u, h => kept_foldl hf l (f u b) (hf u b h)

/-! ## Warps and teams -/

@[simp] theorem kept_setWarp (w W) (h : Kept s u) : Kept s (u.setWarp w W) := h

@[simp] theorem kept_setTeam (w W) (h : Kept s u) : Kept s (u.setTeam w W) := by
  unfold State.setTeam
  simp (maxDischargeDepth := 20) [h]

@[simp] theorem kept_modWarp (w f) (h : Kept s u) : Kept s (u.modWarp w f) := by
  unfold State.modWarp
  try dsimp only
  repeat' split
  all_goals simp (maxDischargeDepth := 20) [h]

@[simp] theorem kept_modTeam (w f) (h : Kept s u) : Kept s (u.modTeam w f) := by
  unfold State.modTeam
  try dsimp only
  repeat' split
  all_goals simp (maxDischargeDepth := 20) [h]

@[simp] theorem kept_mapWarps (f) (h : Kept s u) : Kept s (u.mapWarps f) := h

@[simp] theorem kept_mapWarpsOn (d f) (h : Kept s u) : Kept s (u.mapWarpsOn d f) := h

@[simp] theorem kept_fireLine (l) (h : Kept s u) : Kept s (u.fireLine l) := h

@[simp] theorem kept_fireLineOn (d l) (h : Kept s u) : Kept s (u.fireLineOn d l) := h

/-! ## Memory and its places of execution -/

@[simp] theorem kept_mscFill (l) (h : Kept s u) : Kept s (u.mscFill l) := by
  unfold State.mscFill
  try dsimp only
  repeat' split
  all_goals simp (maxDischargeDepth := 20) [h]

@[simp] theorem kept_hubPut (pa b) (h : Kept s u) : Kept s (u.hubPut pa b) := by
  unfold State.hubPut
  try dsimp only
  repeat' split
  all_goals simp (maxDischargeDepth := 20) [h]

theorem wfTo_memFrom {m m' : List Host.Cell} (d : Table (Option Byte)) (base n : Nat) (h : WfTo (0 : Byte) m m') :
    WfTo (0 : Byte) m (memFrom d base n m') := by
  unfold memFrom
  generalize List.range n = r
  induction r generalizing m' with
  | nil => exact h
  | cons i r ih =>
    rw [List.foldl_cons]
    refine ih ?_
    split
    · exact wfTo_put _ _ h
    · exact h

@[simp] theorem kept_mscDrop (l) (h : Kept s u) : Kept s (u.mscDrop l) := by
  unfold State.mscDrop
  rw [kept_mk]
  exact ⟨wfTo_memFrom _ _ _ h.1, h.2⟩

@[simp] theorem kept_putFrom (d b n) (h : Kept s u) : Kept s (u.putFrom d b n) := by
  unfold State.putFrom
  try dsimp only
  refine kept_foldl (fun _ _ h => ?_) _ _ ?_
  · repeat' split
    all_goals simp (maxDischargeDepth := 20) [h]
  · simp (maxDischargeDepth := 20) [h]

@[simp] theorem kept_writeBack (l) (h : Kept s u) : Kept s (u.writeBack l) := by
  have := kept_putFrom u.dirty (128 * l) 128 (kept_mscFill l h)
  exact this

@[simp] theorem kept_share (d l) (h : Kept s u) : Kept s (u.share d l) := by
  unfold State.share
  try dsimp only
  repeat' split
  all_goals simp (maxDischargeDepth := 20) [h]

@[simp] theorem kept_own (d l) (h : Kept s u) : Kept s (u.own d l) := h

@[simp] theorem kept_recall (l) (h : Kept s u) : Kept s (u.recall l) := by
  exact kept_writeBack l h

@[simp] theorem kept_recallAll (h : Kept s u) : Kept s u.recallAll :=
  kept_foldl (fun _ _ h => kept_recall _ h) _ _ h

@[simp] theorem kept_evict (d l) (h : Kept s u) : Kept s (u.evict d l) := by
  unfold State.evict
  try dsimp only
  repeat' split
  all_goals simp (maxDischargeDepth := 20) [h]

@[simp] theorem kept_l2Trim (h : Kept s u) : Kept s u.l2Trim := by
  unfold State.l2Trim
  dsimp only
  split
  · exact h
  · refine kept_foldl (fun _ _ h => ?_) _ _ h
    split <;> simp (maxDischargeDepth := 20) [h]

@[simp] theorem kept_hubEvict (l) (h : Kept s u) : Kept s (u.hubEvict l) := by
  unfold State.hubEvict
  try dsimp only
  repeat' split
  all_goals simp (maxDischargeDepth := 20) [h]

@[simp] theorem kept_writeBackAll (h : Kept s u) : Kept s (u.writeBackAll) := by
  unfold State.writeBackAll
  try dsimp only
  refine kept_foldl (fun _ _ h => ?_) _ _ ?_ <;> simp (maxDischargeDepth := 20) [h]

@[simp] theorem kept_noteOld (l) (h : Kept s u) : Kept s (u.noteOld l) := by
  unfold State.noteOld
  try dsimp only
  repeat' split
  all_goals simp (maxDischargeDepth := 20) [h]

@[simp] theorem kept_clearRels (l) (h : Kept s u) : Kept s (u.clearRels l) := h

@[simp] theorem kept_ownLine (d l) (h : Kept s u) : Kept s (u.ownLine d l) := h

@[simp] theorem kept_performBytes (d bs) (h : Kept s u) : Kept s (u.performBytes d bs) := by
  unfold State.performBytes
  refine kept_foldl (fun _ _ h => kept_ownLine _ _ h) _ _ ?_
  simp (maxDischargeDepth := 20) [h]

@[simp] theorem kept_shareBytes (d l) (h : Kept s u) : Kept s (u.shareBytes d l) := by
  unfold State.shareBytes
  try dsimp only
  refine kept_foldl (fun _ _ h => ?_) _ _ ?_ <;> simp (maxDischargeDepth := 20) [h]

@[simp] theorem kept_walkLines (c x v) (h : Kept s u) : Kept s (u.walkLines c x v) := by
  exact kept_shareBytes _ _ h

@[simp] theorem kept_keepLeaf (c x v t) (h : Kept s u) : Kept s (u.keepLeaf c x v t) := by
  unfold State.keepLeaf
  try dsimp only
  repeat' split
  all_goals simp (maxDischargeDepth := 20) [h]

@[simp] theorem kept_walkFor (c x v) (h : Kept s u) : Kept s (u.walkFor c x v) := by
  unfold State.walkFor
  split <;> simp (maxDischargeDepth := 20) [h]

@[simp] theorem kept_dropLeaf (c x v k) (h : Kept s u) : Kept s (u.dropLeaf c x v k) := by
  unfold State.dropLeaf
  try dsimp only
  repeat' split
  all_goals simp (maxDischargeDepth := 20) [h]

/-! ## Holds, faults, scenes -/

@[simp] theorem kept_holdTeam (t f) (h : Kept s u) : Kept s (u.holdTeam t f) := by
  unfold State.holdTeam
  split
  · exact h
  · split
    · exact kept_setTeam _ _ h
    · dsimp only
      refine kept_foldl (fun _ _ h => kept_modWarp _ _ h) _ _ (kept_setTeam _ _ h)

@[simp] theorem kept_raise (x st t) (h : Kept s u) : Kept s (raise x u st t) := by
  unfold raise
  dsimp only
  refine kept_holdTeam _ _ (kept_modWarp _ _ ?_)
  split <;> simp (maxDischargeDepth := 20) [h]

@[simp] theorem kept_wakeYields (w r) (h : Kept s u) : Kept s (u.wakeYields w r) := h

@[simp] theorem kept_endScene (w r) (h : Kept s u) : Kept s (u.endScene w r) := by
  exact kept_wakeYields _ _ (kept_modWarp _ _ h)

@[simp] theorem kept_retire (x i l) (h : Kept s u) : Kept s (retire x i u l) := by
  unfold retire
  try dsimp only
  repeat' split
  all_goals simp (maxDischargeDepth := 20) [h]

@[simp] theorem kept_transfer (x i f) (h : Kept s u) : Kept s (transfer x i u f) := by
  exact kept_modWarp _ _ (kept_retire _ _ _ h)

@[simp] theorem kept_waitAt (x i k) (h : Kept s u) : Kept s (waitAt x i u k) := by
  unfold waitAt
  try dsimp only
  repeat' split
  all_goals simp (maxDischargeDepth := 20) [h]

/-! ## L1, stores and loads -/

@[simp] theorem kept_l1Drop (c f) (h : Kept s u) : Kept s (u.l1Drop c f) := h

@[simp] theorem kept_l1Pass (c x v) (h : Kept s u) : Kept s (u.l1Pass c x v) := h

@[simp] theorem kept_peerSend (p n o) (h : Kept s u) : Kept s (u.peerSend p n o) := by
  unfold State.peerSend
  repeat' split
  all_goals exact h

@[simp] theorem kept_l1Fill (c x v p) (h : Kept s u) : Kept s (u.l1Fill c x v p) := h

@[simp] theorem kept_settle (f) (h : Kept s u) : Kept s (u.settle f) := h

@[simp] theorem kept_fillFor (o) (h : Kept s u) : Kept s (u.fillFor o) := by
  unfold State.fillFor
  try dsimp only
  refine kept_foldl (fun _ _ h => ?_) _ _ ?_
  · repeat' split
    all_goals simp (maxDischargeDepth := 20) [h]
  · simp (maxDischargeDepth := 20) [h]

@[simp] theorem kept_l1Update (p) (h : Kept s u) : Kept s (u.l1Update p) := h

@[simp] theorem kept_acquire (x : Ix) (sc) (h : Kept s u) : Kept s (x.acquire u sc) := by
  unfold Ix.acquire
  try dsimp only
  repeat' split
  all_goals simp (maxDischargeDepth := 20) [h]

@[simp] theorem kept_setEmpty (a e) (h : Kept s u) : Kept s (u.setEmpty a e) := by
  unfold State.setEmpty
  try dsimp only
  repeat' split
  all_goals simp (maxDischargeDepth := 20) [h]

@[simp] theorem kept_scratchPut (a bs) (h : Kept s u) : Kept s (u.scratchPut a bs) := h

@[simp] theorem kept_scratchStore (a bs) (h : Kept s u) : Kept s (u.scratchStore a bs) := h

@[simp] theorem kept_keepLeaves (x : Ix) (as) (h : Kept s u) : Kept s (x.keepLeaves u as) := by
  unfold Ix.keepLeaves
  try dsimp only
  refine kept_foldl (fun _ _ h => ?_) _ _ ?_
  · repeat' split
    all_goals simp (maxDischargeDepth := 20) [h]
  · simp (maxDischargeDepth := 20) [h]

@[simp] theorem kept_addPart (os) (h : Kept s u) : Kept s (u.addPart os) := h

@[simp] theorem kept_addLoads (os) (h : Kept s u) : Kept s (u.addLoads os) := h

@[simp] theorem kept_addStores (ps) (h : Kept s u) : Kept s (u.addStores ps) := h

/-! ## The arbiter -/

@[simp] theorem kept_ageOthers (f cs c) (h : Kept s u) : Kept s (u.ageOthers f cs c) := by
  unfold State.ageOthers
  try dsimp only
  refine kept_foldl (fun _ _ h => ?_) _ _ ?_
  · repeat' split
    all_goals simp (maxDischargeDepth := 20) [h]
  · simp (maxDischargeDepth := 20) [h]

@[simp] theorem kept_startScene (c) (h : Kept s u) : Kept s (u.startScene c) := by
  unfold State.startScene
  dsimp only
  refine kept_modWarp _ _ ?_
  repeat' split
  all_goals exact h

/-! ## Handles and errors in returned data -/

@[simp] theorem kept_setHandle (c k v) (h : Kept s u) : Kept s (u.setHandle c k v) := h

@[simp] theorem kept_lateFault (o t hit) (h : Kept s u) : Kept s (u.lateFault o t hit) := by
  unfold State.lateFault
  split
  · exact h
  · split
    · exact h
    · dsimp only
      refine kept_holdTeam _ _ (kept_modWarp _ _ ?_)
      split <;> simp (maxDischargeDepth := 20) [h]

@[simp] theorem kept_backOut (o t) (h : Kept s u) : Kept s (u.backOut o t) := by
  unfold State.backOut
  split
  · exact kept_raise _ _ _ (kept_modWarp _ _ h)
  · split
    · exact h
    · exact kept_lateFault _ _ _ h

@[simp] theorem kept_requery (o) (h : Kept s u) : Kept s (u.requery o) := by
  unfold State.requery
  dsimp only
  repeat' split
  all_goals first | exact h | exact kept_lateFault _ _ _ h

@[simp] theorem kept_cueDone (g) (h : Kept s u) : Kept s (u.cueDone g) := by
  unfold State.cueDone
  dsimp only
  split
  · exact h
  · split
    · exact kept_backOut _ _ h
    · exact kept_foldl (fun _ _ h => kept_modWarp _ _ h) _ _ (by simp [h])

@[simp] theorem kept_cuerel (c m) (h : Kept s u) : Kept s (u.cuerel c m) := by
  unfold State.cuerel
  try dsimp only
  refine kept_foldl (fun _ _ h => ?_) _ _ ?_
  · repeat' split
    all_goals simp (maxDischargeDepth := 20) [h]
  · simp (maxDischargeDepth := 20) [h]

@[simp] theorem kept_writeCuerel (v) (h : Kept s u) : Kept s (u.writeCuerel v) := by
  unfold State.writeCuerel
  try dsimp only
  repeat' split
  all_goals simp (maxDischargeDepth := 20) [h]

/-! ## Launches -/

@[simp] theorem kept_setWindow (p w W) (h : Kept s u) : Kept s (u.setWindow p w W) := h

@[simp] theorem kept_windowGo (p w) (h : Kept s u) : Kept s (u.windowGo p w) := by
  unfold State.windowGo
  try dsimp only
  repeat' split
  all_goals simp (maxDischargeDepth := 20) [h]

@[simp] theorem kept_answerOffer (a o) (h : Kept s u) : Kept s (u.answerOffer a o) := by
  unfold State.answerOffer
  cases a <;> cases o <;> simp (maxDischargeDepth := 20) [h]

@[simp] theorem kept_decideOffer (o) (h : Kept s u) : Kept s (u.decideOffer o) := by
  unfold State.decideOffer
  try dsimp only
  repeat' split
  all_goals simp (maxDischargeDepth := 20) [h]

@[simp] theorem kept_grantOn (c g b) (h : Kept s u) : Kept s (u.grantOn c g b) := by
  unfold State.grantOn
  refine kept_foldl ?_ _ _ (kept_foldl ?_ _ _ h) <;> exact fun _ _ h => h

@[simp] theorem kept_placeTeam (L p) (h : Kept s u) : Kept s (u.placeTeam L p).1 := by
  unfold State.placeTeam
  dsimp only
  split <;> simp (maxDischargeDepth := 20) [h]

@[simp] theorem kept_placeTeams : ∀ (n : Nat) (u : State) (L), Kept s u → Kept s (State.placeTeams n u L)
  | 0, _, _, h => h
  | n + 1, u, L, h => by
    unfold State.placeTeams
    repeat' split
    · exact h
    · exact h
    · exact kept_placeTeams n _ _ (kept_placeTeam _ _ h)

theorem kept_placeList : ∀ (l : List Place) (r : State × Launch), Kept s r.1 →
    Kept s (l.foldl (fun (r : State × Launch) p => r.1.placeTeam r.2 p) r).1
  | [], _, h => h
  | p :: l, r, h => kept_placeList l _ (kept_placeTeam r.2 p h)

@[simp] theorem kept_gangRule (L) (h : Kept s u) : Kept s (u.gangRule L) := by
  unfold State.gangRule
  extract_lets g g'
  split
  · exact kept_placeList _ (u, L) h
  · exact h

@[simp] theorem kept_placeOthers (l : List Launch) (h : Kept s u) : Kept s (u.placeOthers l) :=
  kept_foldl (fun s L h => by split
                              · exact h
                              · exact kept_placeTeams _ _ _ h) _ _ h

@[simp] theorem kept_passOver (l first) (h : Kept s u) : Kept s (u.passOver l first) := by
  unfold State.passOver
  split
  · exact kept_placeOthers _ h
  · split
    · extract_lets t
      split
      · exact kept_gangRule _ h
      · exact kept_placeOthers _ (kept_gangRule _ h)
    · extract_lets later t
      have ht : Kept s t := kept_placeOthers _ (kept_gangRule _ (kept_placeOthers _ h))
      repeat' split
      all_goals exact ht

@[simp] theorem kept_placementPass (h : Kept s u) : Kept s u.placementPass := kept_passOver _ _ h

@[simp] theorem kept_startOne (t) (h : Kept s u) : Kept s (u.startOne t) := by
  unfold State.startOne
  split
  · exact h
  · split
    · exact h
    · dsimp only
      refine kept_foldl ?_ _ _ (kept_setTeam _ _ (kept_foldl ?_ _ _ h)) <;> exact fun _ _ h => h

@[simp] theorem kept_startTeam (t) (h : Kept s u) : Kept s (u.startTeam t) := by
  unfold State.startTeam
  repeat' split
  · exact h
  · exact kept_foldl (fun _ _ h => kept_startOne _ h) _ _ h
  · exact kept_startOne _ h

@[simp] theorem kept_notify (e) (h : Kept s u) : Kept s (u.notify e) := h

@[simp] theorem kept_hubWrite (bs) (h : Kept s u) : Kept s (u.hubWrite bs) := by
  unfold State.hubWrite
  dsimp only
  refine kept_foldl (fun _ _ h => kept_hubPut _ _ h) _ _ (kept_foldl (fun _ _ h => kept_mscFill _ (kept_recall _ h)) _ _ ?_)
  exact kept_clearRels _ (kept_noteOld _ h)

@[simp] theorem kept_completeLaunch (L n) (h : Kept s u) : Kept s (u.completeLaunch L n) := by
  unfold State.completeLaunch
  extract_lets s1 va v
  have h1 : Kept s s1 := h
  split
  · exact h1
  · split
    · exact kept_foldl (fun _ _ h => kept_hubWrite _ h) _ _ (kept_writeBackAll h1)
    · exact h1

@[simp] theorem kept_checkDrain (c) (h : Kept s u) : Kept s (u.checkDrain c) := by
  unfold State.checkDrain
  try dsimp only
  repeat' split
  all_goals simp (maxDischargeDepth := 20) [h]

@[simp] theorem kept_freeTeam (t T) (h : Kept s u) : Kept s (u.freeTeam t T) := by
  unfold State.freeTeam
  simp (maxDischargeDepth := 20) [h]

@[simp] theorem kept_retireTeam (t T) (h : Kept s u) : Kept s (u.retireTeam t T) := by
  unfold State.retireTeam
  dsimp only
  refine kept_checkDrain _ ?_
  have h1 := kept_freeTeam t T h
  repeat' split
  · exact h1
  · exact kept_completeLaunch _ _ h1
  · exact h1

/-! ## Prompts, resumption, run control -/

@[simp] theorem kept_modCtx (n f) (h : Kept s u) : Kept s (u.modCtx n f) := h

@[simp] theorem kept_holdContext (c) (h : Kept s u) : Kept s (u.holdContext c) := by
  unfold State.holdContext
  try dsimp only
  refine kept_foldl (fun _ _ h => ?_) _ _ ?_
  · repeat' split
    all_goals simp (maxDischargeDepth := 20) [h]
  · simp (maxDischargeDepth := 20) [h]

@[simp] theorem kept_resumeTeam (t T p) (h : Kept s u) : Kept s (u.resumeTeam t T p) := by
  unfold State.resumeTeam
  dsimp only
  refine kept_foldl (fun _ _ h => kept_modWarp _ _ h) _ _ ?_
  have h1 := kept_setTeam t { T with hold := none } h
  split <;> exact h1

@[simp] theorem kept_resumeAsserted (t) (h : Kept s u) : Kept s (u.resumeAsserted t) := by
  unfold State.resumeAsserted
  try dsimp only
  repeat' split
  all_goals simp (maxDischargeDepth := 20) [h]

@[simp] theorem kept_writePring (c v) (h : Kept s u) : Kept s (u.writePring c v) := by
  unfold State.writePring
  try dsimp only
  repeat' split
  all_goals simp (maxDischargeDepth := 20) [h]

@[simp] theorem kept_writePcons (c v) (h : Kept s u) : Kept s (u.writePcons c v) := by
  unfold State.writePcons
  try dsimp only
  repeat' split
  all_goals simp (maxDischargeDepth := 20) [h]

@[simp] theorem kept_replyPrompt (c t) (h : Kept s u) : Kept s (u.replyPrompt c t) := by
  unfold State.replyPrompt
  try dsimp only
  repeat' split
  all_goals simp (maxDischargeDepth := 20) [h]

@[simp] theorem kept_ctlHold (c t) (h : Kept s u) : Kept s (u.ctlHold c t) := by
  unfold State.ctlHold
  try dsimp only
  repeat' split
  all_goals simp (maxDischargeDepth := 20) [h]

@[simp] theorem kept_ctlResume (c t p) (h : Kept s u) : Kept s (u.ctlResume c t p) := by
  unfold State.ctlResume
  try dsimp only
  repeat' split
  all_goals simp (maxDischargeDepth := 20) [h]

@[simp] theorem kept_ctlNewhw (c t w p) (h : Kept s u) : Kept s (u.ctlNewhw c t w p) := by
  unfold State.ctlNewhw
  try dsimp only
  repeat' split
  all_goals simp (maxDischargeDepth := 20) [h]

@[simp] theorem kept_preempt (c) (h : Kept s u) : Kept s (u.preempt c) := by
  unfold State.preempt
  dsimp only
  refine kept_checkDrain _ ?_
  repeat' split
  all_goals exact h

@[simp] theorem kept_resumeCtx (c) (h : Kept s u) : Kept s (u.resumeCtx c) := by
  unfold State.resumeCtx
  dsimp only
  split
  · refine kept_foldl (fun _ _ h => ?_) _ _ h
    repeat' split
    all_goals simp (maxDischargeDepth := 20) [h]
  · exact h

/-! ## Strikes -/

@[simp] theorem kept_setBank (c b B) (h : Kept s u) : Kept s (u.setBank c b B) := h

@[simp] theorem kept_keepExecuting (c bs) (h : Kept s u) : Kept s (u.keepExecuting c bs) := by
  unfold State.keepExecuting
  refine kept_foldl ?_ _ _ h
  exact fun _ _ h => h

@[simp] theorem kept_endTeam (t T) (h : Kept s u) : Kept s (u.endTeam t T) := by
  unfold State.endTeam
  extract_lets mine s1 s2 s3 s4
  have h2 : Kept s s2 := kept_foldl (fun _ _ h => kept_modWarp _ _ h) _ _ (kept_setTeam _ _ h)
  have h3 : Kept s s3 := ⟨h2.1, h2.2.1, fun hc => twf_foldl_tput _ _ _ (h2.2.2.1 hc), h2.2.2.2⟩
  split <;> simp (maxDischargeDepth := 20) [s4, h3]

@[simp] theorem kept_beginStrike (k) (h : Kept s u) : Kept s (u.beginStrike k) := by
  unfold State.beginStrike
  exact kept_foldl (fun _ _ h => kept_endTeam _ _ h) _ _ h

@[simp] theorem kept_strikeContext (c k) (h : Kept s u) : Kept s (u.strikeContext c k) := by
  unfold State.strikeContext
  try dsimp only
  repeat' split
  all_goals simp (maxDischargeDepth := 20) [h]

@[simp] theorem kept_strikeKey (k) (h : Kept s u) : Kept s (u.strikeKey k) := by
  unfold State.strikeKey
  try dsimp only
  repeat' split
  all_goals simp (maxDischargeDepth := 20) [h]

@[simp] theorem kept_strikeLaunch (c k) (h : Kept s u) : Kept s (u.strikeLaunch c k) := by
  unfold State.strikeLaunch
  try dsimp only
  repeat' split
  all_goals simp (maxDischargeDepth := 20) [h]

@[simp] theorem kept_emptyQueues (c bs) (h : Kept s u) : Kept s (u.emptyQueues c bs) := by
  unfold State.emptyQueues
  refine kept_foldl ?_ _ _ h
  exact fun _ _ h => h

@[simp] theorem kept_purge (c) (h : Kept s u) : Kept s (u.purge c) := h

@[simp] theorem kept_ctlStrike (c t) (h : Kept s u) : Kept s (u.ctlStrike c t) := by
  unfold State.ctlStrike
  try dsimp only
  repeat' split
  all_goals simp (maxDischargeDepth := 20) [h]

/-! ## Rings and copies -/

@[simp] theorem kept_setRing (t q r) (h : Kept s u) : Kept s (u.setRing t q r) := by
  exact kept_modTeam _ _ h

@[simp] theorem kept_emptyRange (T o n) (h : Kept s u) : Kept s (u.emptyRange T o n) := by
  unfold State.emptyRange
  refine kept_foldl ?_ _ _ h
  exact fun _ _ h => h

@[simp] theorem kept_wakeRing (T q) (h : Kept s u) : Kept s (u.wakeRing T q) := by
  unfold State.wakeRing
  try dsimp only
  refine kept_foldl (fun _ _ h => ?_) _ _ ?_ <;> simp (maxDischargeDepth := 20) [h]

@[simp] theorem kept_setCopy (c) (h : Kept s u) : Kept s (u.setCopy c) := h

@[simp] theorem kept_keyPut (k m v) (h : Kept s u) : Kept s (u.keyPut k m v) := h

@[simp] theorem kept_issueCopy (x c) (h : Kept s u) : Kept s (issueCopy x u c) := by
  unfold issueCopy
  dsimp only
  have h1 : Kept s (c.scratchDests.foldl (fun s r => State.emptyRange s x.T r.1 r.2) u) :=
    kept_foldl (fun _ _ h => kept_emptyRange _ _ _ h) _ _ h
  repeat' split
  all_goals simp (maxDischargeDepth := 20) [h1]

@[simp] theorem kept_fillDone (a c o) (h : Kept s u) : Kept s (u.fillDone a c o) := by
  unfold State.fillDone
  try dsimp only
  repeat' split
  all_goals simp (maxDischargeDepth := 20) [h]

@[simp] theorem kept_engWalks (c x vs) (h : Kept s u) : Kept s (u.engWalks c x vs) := by
  unfold State.engWalks
  refine kept_foldl (fun _ _ h => ?_) _ _ h
  split <;> simp (maxDischargeDepth := 20) [h]

@[simp] theorem kept_parkCopy (c a b v) (h : Kept s u) : Kept s (u.parkCopy c a b v) := by
  unfold State.parkCopy
  dsimp only
  have h1 : Kept s (if a = 14 then u.dropLeaf c.core c.ctx v b else u) := by split <;> simp [h]
  generalize (if a = 14 then u.dropLeaf c.core c.ctx v b else u) = w at h1
  repeat' split
  all_goals exact h1

@[simp] theorem kept_resumeCopy (c t) (h : Kept s u) : Kept s (u.resumeCopy c t) := by
  unfold State.resumeCopy
  try dsimp only
  repeat' split
  all_goals simp (maxDischargeDepth := 20) [h]

theorem kept_copyRead {T c r v k} (h : Kept s u) (hm : u.copyRead T c r = .ok v k) : Kept s v := by
  unfold State.copyRead at hm
  dsimp only at hm
  repeat' split at hm
  all_goals first | (cases hm; done) | skip
  all_goals cases hm; simp (maxDischargeDepth := 20) [h]

theorem kept_copyPut {T c p v k} (h : Kept s u) (hm : u.copyPut T c p = .ok v k) : Kept s v := by
  unfold State.copyPut at hm
  dsimp only at hm
  repeat' split at hm
  all_goals first | (cases hm; done) | skip
  all_goals cases hm; simp (maxDischargeDepth := 20) [h]

theorem kept_move {c v k} (h : Kept s u) (hm : u.move c = .ok v k) : Kept s v := by
  unfold State.move at hm
  split at hm
  · cases hm
  · split at hm
    · cases hm
    · split at hm
      · exact kept_copyPut h hm
      · split at hm
        · exact kept_copyRead h hm
        · cases hm; exact h

@[simp] theorem kept_advance (c) (h : Kept s u) : Kept s (u.advance c) := by
  unfold State.advance
  split
  · next hm => exact kept_setCopy _ (kept_move h hm)
  · exact h

@[simp] theorem kept_runToBoundary : ∀ (n : Nat) (u : State) (id), Kept s u → Kept s (State.runToBoundary n u id)
  | 0, _, _, h => h
  | n + 1, u, id, h => by
    unfold State.runToBoundary
    repeat' split
    · exact h
    · exact h
    · next hm => exact kept_runToBoundary n _ _ (kept_setCopy _ (kept_move h hm))
    · exact h

@[simp] theorem kept_stopCopies (t) (h : Kept s u) : Kept s (u.stopCopies t) := by
  unfold State.stopCopies
  exact kept_foldl (fun _ _ h => kept_runToBoundary _ _ _ h) _ _ h

@[simp] theorem kept_dropTeam (t T) (h : Kept s u) : Kept s (u.dropTeam t T) := by
  unfold State.dropTeam
  try dsimp only
  repeat' split
  all_goals simp (maxDischargeDepth := 20) [h]

@[simp] theorem kept_finishStrike (k) (h : Kept s u) : Kept s (u.finishStrike k) := by
  unfold State.finishStrike
  extract_lets s1 s2 s3 s4 r
  have h3 : Kept s s3 := kept_checkDrain _ (kept_foldl (fun _ _ h => kept_dropTeam _ _ h) _ _ h)
  have h4 : Kept s s4 := kept_foldl (fun _ _ h => kept_completeLaunch _ _ h) _ _ h3
  split <;> exact h4

/-! ## Banks -/

@[simp] theorem kept_bankExec (c b f) (h : Kept s u) : Kept s (u.bankExec c b f) := by
  unfold State.bankExec
  try dsimp only
  repeat' split
  all_goals simp (maxDischargeDepth := 20) [h]

@[simp] theorem kept_switchBanks (c bs m) (h : Kept s u) : Kept s (u.switchBanks c bs m) := by
  unfold State.switchBanks
  refine kept_foldl ?_ _ _ h
  exact fun _ _ h => h

/-! ## Registers -/

@[simp] theorem kept_semRead (a n) (h : Kept s u) : Kept s (u.semRead a n).1 := by unfold State.semRead; simp [h]
@[simp] theorem kept_regRead (a o w) (h : Kept s u) : Kept s (u.regRead a o w).1 := by
  unfold State.regRead
  dsimp only
  repeat' split
  all_goals first | exact h | simp (maxDischargeDepth := 20) [h]

@[simp] theorem kept_writeWindow (p w o v a b) (h : Kept s u) : Kept s (u.writeWindow p w o v a b) := by
  unfold State.writeWindow
  try dsimp only
  repeat' split
  all_goals simp (maxDischargeDepth := 20) [h]

@[simp] theorem kept_semWrite (a n b) (h : Kept s u) : Kept s (u.semWrite a n b) := by
  unfold State.semWrite
  try dsimp only
  repeat' split
  all_goals simp (maxDischargeDepth := 20) [h]

@[simp] theorem kept_writePeerwin (p v) (h : Kept s u) : Kept s (u.writePeerwin p v) := by
  unfold State.writePeerwin
  try dsimp only
  repeat' split
  all_goals simp (maxDischargeDepth := 20) [h]

@[simp] theorem kept_writeCxinv (n v l) (h : Kept s u) : Kept s (u.writeCxinv n v l) := by
  unfold State.writeCxinv
  try dsimp only
  repeat' split
  all_goals simp (maxDischargeDepth := 20) [h]

@[simp] theorem kept_runOp (n o) (h : Kept s u) : Kept s (u.runOp n o) := by
  unfold State.runOp
  try dsimp only
  repeat' split
  all_goals simp (maxDischargeDepth := 20) [h]

@[simp] theorem kept_writeRun (n o v a b) (h : Kept s u) : Kept s (u.writeRun n o v a b) := by
  unfold State.writeRun
  try dsimp only
  repeat' split
  all_goals simp (maxDischargeDepth := 20) [h]

@[simp] theorem kept_modCore (c f) (h : Kept s u) : Kept s (u.modCore c f) := h

@[simp] theorem kept_teamctlGo (c) (h : Kept s u) : Kept s (u.teamctlGo c) := by
  unfold State.teamctlGo
  try dsimp only
  repeat' split
  all_goals simp (maxDischargeDepth := 20) [h]

@[simp] theorem kept_writeCore (c o v a b) (h : Kept s u) : Kept s (u.writeCore c o v a b) := by
  unfold State.writeCore
  try dsimp only
  repeat' split
  all_goals simp (maxDischargeDepth := 20) [h]

@[simp] theorem kept_armPolicy (h : Kept s u) : Kept s (u.armPolicy) := by
  unfold State.armPolicy
  dsimp only
  split <;> exact h

@[simp] theorem kept_writePolicy (o v a b) (h : Kept s u) : Kept s (u.writePolicy o v a b) := h

@[simp] theorem kept_attest (h : Kept s u) : Kept s (u.attest) := by
  unfold State.attest
  try dsimp only
  repeat' split
  all_goals simp (maxDischargeDepth := 20) [h]

@[simp] theorem kept_writePlatform (o v a b) (h : Kept s u) : Kept s (u.writePlatform o v a b) := by
  unfold State.writePlatform
  try dsimp only
  repeat' split
  all_goals simp (maxDischargeDepth := 20) [h]

@[simp] theorem kept_writeMemsplit (v) (h : Kept s u) : Kept s (u.writeMemsplit v) := by
  unfold State.writeMemsplit
  split
  · exact h
  · next hn =>
    unfold State.setSplit
    split
    · exact h
    · have k := kept_recallAll h
      exact ⟨k.1, k.2.1, k.2.2.1, k.2.2.2.1, k.2.2.2.2.1, k.2.2.2.2.2.1, k.2.2.2.2.2.2.1, fun he => by simp [(h.pool he).1] at hn⟩

@[simp] theorem kept_writeTarena (k v) (h : Kept s u) : Kept s (u.writeTarena k v) := by
  unfold State.writeTarena
  split
  · exact h
  · next hn =>
    rw [kept_mk]
    refine ⟨h.1, h.2.1, h.2.2.1, h.2.2.2.1, h.2.2.2.2.1, h.2.2.2.2.2.1, h.2.2.2.2.2.2.1, fun he => ?_⟩
    simp [(h.pool he).1] at hn

@[simp] theorem kept_writeCx (n r v) (h : Kept s u) : Kept s (u.writeCx n r v) := by
  unfold State.writeCx
  repeat' split
  · exact h
  · rw [kept_mk]
    refine ⟨h.1, h.2.1, h.2.2.1, h.2.2.2.1, h.2.2.2.2.1, h.2.2.2.2.2.1, h.2.2.2.2.2.2.1, fun he => ?_⟩
    have := h.pool he
    exact ⟨by simp [this.1], this.2⟩
  · exact h
  · exact h
  · exact h

@[simp] theorem kept_regWrite64 (a o v l k) (h : Kept s u) : Kept s (u.regWrite64 a o v l k) := by
  unfold State.regWrite64
  try dsimp only
  repeat' split
  all_goals simp (maxDischargeDepth := 20) [h]

@[simp] theorem kept_regWrite (a o w v) (h : Kept s u) : Kept s (u.regWrite a o w v) := by
  unfold State.regWrite
  try dsimp only
  repeat' split
  all_goals simp (maxDischargeDepth := 20) [h]

@[simp] theorem kept_fireReg (a o) (h : Kept s u) : Kept s (u.fireReg a o) := by
  unfold State.fireReg
  try dsimp only
  repeat' split
  all_goals simp (maxDischargeDepth := 20) [h]

/-! ## Hosts, links and peers -/

@[simp] theorem kept_answer (e d) (h : Kept s u) : Kept s (u.answer e d) := h

@[simp] theorem kept_hubShare (l) (h : Kept s u) : Kept s (u.hubShare l) := by
  unfold State.hubShare
  try dsimp only
  repeat' split
  all_goals simp (maxDischargeDepth := 20) [h]

@[simp] theorem kept_hostRead (pas) (h : Kept s u) : Kept s (u.hostRead pas) := by
  unfold State.hostRead
  exact kept_foldl (fun _ _ h => kept_hubShare _ h) _ _ h

@[simp] theorem kept_hostWrite (bs) (h : Kept s u) : Kept s (u.hostWrite bs) := by
  unfold State.hostWrite
  try dsimp only
  repeat' split
  all_goals simp (maxDischargeDepth := 20) [h]

@[simp] theorem kept_settlePeers (p) (h : Kept s u) : Kept s (u.settlePeers p) := by
  unfold State.settlePeers
  exact kept_foldl (fun _ _ h => kept_peerSend _ _ _ h) _ _ h

@[simp] theorem kept_peerAtomic (pas o t v c) (h : Kept s u) : Kept s (u.peerAtomic pas o t v c) := by
  unfold State.peerAtomic
  try dsimp only
  repeat' split
  all_goals simp (maxDischargeDepth := 20) [h]

/-! ## Barriers, rejoins, casts, accesses -/

@[simp] theorem kept_deadlock (x r) (h : Kept s u) : Kept s (deadlock x u r) := by
  unfold deadlock
  try dsimp only
  repeat' split
  all_goals simp (maxDischargeDepth := 20) [h]

@[simp] theorem kept_passBarrier (ts b) (h : Kept s u) : Kept s (u.passBarrier ts b) := by
  unfold State.passBarrier
  refine kept_foldl (fun v T h => ?_) _ _ (kept_foldl (fun _ T h => kept_foldl (fun _ w h => kept_modWarp _ _ h) _ _ h) _ _ h)
  by_cases hw : wideScope T (if b = .bar then 1 else 5) = true
  · rw [if_pos hw]; refine kept_foldl ?_ _ _ h; exact fun _ _ h => h
  · rw [if_neg hw]; exact h

@[simp] theorem kept_checkBarrier (t b) (h : Kept s u) : Kept s (u.checkBarrier t b) := by
  unfold State.checkBarrier
  try dsimp only
  repeat' split
  all_goals simp (maxDischargeDepth := 20) [h]

@[simp] theorem kept_discardLoads (w l) (h : Kept s u) : Kept s (u.discardLoads w l) := h

@[simp] theorem kept_deliver (o v) (h : Kept s u) : Kept s (u.deliver o v) := by
  unfold State.deliver
  simp (maxDischargeDepth := 20) [h]

@[simp] theorem kept_failLoad (o) (h : Kept s u) : Kept s (u.failLoad o) := by
  exact kept_backOut _ _ h

@[simp] theorem kept_setCastQueue (c q) (h : Kept s u) : Kept s (u.setCastQueue c q) := by
  unfold State.setCastQueue
  simp (maxDischargeDepth := 20) [h]

@[simp] theorem kept_admitCast (c) (h : Kept s u) : Kept s (u.admitCast c) := by
  unfold State.admitCast
  try dsimp only
  repeat' split
  all_goals simp (maxDischargeDepth := 20) [h]

@[simp] theorem kept_begin (h : Kept s u) : Kept s (u.begin) := h

@[simp] theorem kept_obtain (d l) (h : Kept s u) : Kept s (u.obtain d l) := h

@[simp] theorem kept_tagBytes (p r) (h : Kept s u) : Kept s (u.tagBytes p r) := h

@[simp] theorem kept_atomWrite (d t b) (h : Kept s u) : Kept s (u.atomWrite d t b) := by
  unfold State.atomWrite
  cases d <;> exact kept_tagBytes _ _ (by simp (maxDischargeDepth := 20) [h])

@[simp] theorem kept_sysRelease (c) (h : Kept s u) : Kept s (u.sysRelease c) := by
  unfold State.sysRelease
  try dsimp only
  repeat' split
  all_goals simp (maxDischargeDepth := 20) [h]

@[simp] theorem kept_scratchPerform (p) (h : Kept s u) : Kept s (u.scratchPerform p) := h

@[simp] theorem kept_memPerform (p) (h : Kept s u) : Kept s (u.memPerform p) := by
  unfold State.memPerform
  simp (maxDischargeDepth := 20) [h]

@[simp] theorem kept_free (n : Nat) (h : Kept s u) : Kept s { u with free := n } := h

@[simp] theorem kept_devWrite (p v out) (h : Kept s u) : Kept s (u.devWrite p v out) := by
  unfold State.devWrite
  split
  · exact kept_fireReg _ _ (kept_regWrite _ _ _ _ h)
  · have h1 : Kept s { u.peerSend out 4 (.write (BitVec.ofNat 64 v)) with free := u.free + 1 } := kept_peerSend out 4 _ h
    dsimp only
    split <;> exact h1

@[simp] theorem kept_devRead (p out) (h : Kept s u) : Kept s (u.devRead p out).1 := by
  unfold State.devRead
  split
  · exact kept_regRead _ _ _ h
  · split
    · exact h
    · exact kept_free _ (kept_peerSend out 4 _ h)

@[simp] theorem kept_readAt (x : Ix) (a) (h : Kept s u) : Kept s (x.readAt u a).1 := by
  unfold Ix.readAt
  split
  · exact kept_devRead _ _ h
  · split
    · exact kept_shareBytes _ _ h
    · exact h

/-- The state after reads: where they went well, and where one met a data error. -/
def readTo {α : Type} : Except (State × Trap) (State × α) → State
  | .ok r => r.1
  | .error r => r.1

theorem kept_readAll (x : Ix) : ∀ (as : List MemAcc) {u : State}, Kept s u → Kept s (readTo (x.readAll u as))
  | [], _, h => h
  | a :: as, u, h => by
    unfold Ix.readAll
    have h1 := kept_readAt x a h
    split
    · next hq => rw [hq] at h1; exact h1
    · next v b hq =>
      rw [hq] at h1
      have h2 := kept_readAll x as h1
      cases hk : x.readAll v as <;> rw [hk] at h2 <;> exact h2

theorem kept_readRecord {x : Ix} {l v n} {r : State × Nat} (h : Kept s u) (hr : x.readRecord u l v n = .ok r) : Kept s r.1 := by
  unfold Ix.readRecord at hr
  repeat' split at hr
  all_goals cases hr
  exact kept_shareBytes _ _ (kept_l1Pass _ _ _ (kept_keepLeaves _ _ h))

theorem kept_streamRead (x : Ix) (l v n) (h : Kept s u) : Kept s (readTo (x.streamRead u l v n)) := by
  unfold Ix.streamRead
  split
  · exact h
  · next as _ =>
    have h1 := kept_keepLeaves x as h
    dsimp only
    split
    · exact h1
    · have h2 := kept_readAll x as (kept_l1Pass x.core x.T.ctx (as.flatMap (·.vas)) h1)
      split <;> next hq => rw [hq] at h2; exact h2

theorem kept_streamOk {x : Ix} {l v n} {r : State × Nat} (h : Kept s u) (hr : x.streamRead u l v n = .ok r) : Kept s r.1 := by
  have h1 := kept_streamRead x l v n h
  rw [hr] at h1
  exact h1
theorem kept_streamErr {x : Ix} {l v n} {r : State × Trap} (h : Kept s u) (hr : x.streamRead u l v n = .error r) : Kept s r.1 := by
  have h1 := kept_streamRead x l v n h
  rw [hr] at h1
  exact h1

@[simp] theorem kept_writeAt (x : Ix) (a bs) (h : Kept s u) : Kept s (x.writeAt u a bs) := by
  unfold Ix.writeAt
  split <;> simp (maxDischargeDepth := 20) [h]

@[simp] theorem kept_atomMem (x : Ix) (tg a f) (h : Kept s u) : Kept s (x.atomMem u tg a f).1 := by
  unfold Ix.atomMem
  extract_lets s1 old bytes s2 die
  have h1 : Kept s s1 := h
  have h2 : Kept s s2 := kept_foldl (fun _ _ h => kept_recall _ h) _ _ h1
  split
  · split
    · exact kept_atomWrite _ _ _ h2
    · exact h2
  · split
    · exact kept_atomWrite _ _ _ h1
    · exact kept_foldl (fun _ _ h => kept_obtain _ _ h) _ _ h1

@[simp] theorem kept_atomAll (x : Ix) (own op ty v c f as) (h : Kept s u) : Kept s (x.atomAll u own op ty v c f as).1 := by
  unfold Ix.atomAll
  have : ∀ (as : List MemAcc) (r : State × List (Nat × Nat)), Kept s r.1 → Kept s (as.foldl (fun r a =>
      if uncached a.pa then
        (({ r.1.peerSend (r.1.peerAt a.pa) 8 (peerAsk op ty (v a.lane) (c a.lane)) with free := r.1.free + 1 }).fireLine (a.pa / 128),
          r.2 ++ [(a.lane, (Config.peerData r.1.free a.pa).toNat)])
      else
        let t := x.atomMem r.1 (x.tag own a.lane) a (f a.lane)
        (t.1, r.2 ++ [(a.lane, t.2)])) r).1 := by
    intro as
    induction as with
    | nil => exact fun _ h => h
    | cons a as ih =>
      intro r hr
      rw [List.foldl_cons]
      refine ih _ ?_
      split
      · exact kept_fireLine _ (kept_free _ (kept_peerSend _ _ _ hr))
      · exact kept_atomMem _ _ _ _ hr
  exact this as (u, []) h

@[simp] theorem kept_replies (x : Ix) (d w n rs) (h : Kept s u) : Kept s (x.replies u d w n rs) := by
  unfold Ix.replies
  split <;> exact h

@[simp] theorem kept_fenceRelease (x : Ix) (sc) (h : Kept s u) : Kept s (x.fenceRelease u sc) := by
  unfold Ix.fenceRelease
  split <;> simp (maxDischargeDepth := 20) [h]

theorem kept_devReturn (o err) {k : State → Nat → State} (hk : ∀ v n, Kept s v → Kept s (k v n)) (h : Kept s u) :
    Kept s (u.devReturn o err k) := by
  unfold State.devReturn
  dsimp only
  have h1 := kept_devRead (o.addrs.headD (0, 0)).2 o.peer h
  repeat' split
  · exact kept_failLoad _ h1
  · exact hk _ _ h1
  · exact kept_failLoad _ h1
  · exact h

@[simp] theorem kept_returnLoad (o err) (h : Kept s u) : Kept s (u.returnLoad o err) := by
  unfold State.returnLoad
  split
  · exact kept_devReturn _ _ (fun _ _ h => kept_deliver _ _ h) h
  · split <;> simp (maxDischargeDepth := 20) [h]

@[simp] theorem kept_returnArm (o v) (h : Kept s u) : Kept s (u.returnArm o v) := by
  unfold State.returnArm
  dsimp only
  split <;> simp (maxDischargeDepth := 20) [h]

@[simp] theorem kept_remake (o) (h : Kept s u) : Kept s (u.remake o) := by
  unfold State.remake
  dsimp only
  repeat' split
  all_goals first
    | exact h
    | exact kept_lateFault _ _ _ h
    | exact kept_keepLeaves _ _ (u := { u with loads := _ }) h

/-! ## The frame of an instruction -/

/-- The states an effect comes to all have a property. -/
def Res.Good (P : State → Prop) : Res → Prop
  | .ok s _ => P s
  | .move s _ => P s
  | .gone s => P s
  | .block s _ => P s
  | .again _ => True
  | .trap s _ => P s
  | .wait s _ => P s
  | .stall => True

theorem kept_finish {x i} (h0 : Kept s u) : ∀ {r : Res}, r.Good (Kept s) → Kept s (finish x i u r)
  | .ok _ _, h => kept_retire _ _ _ h
  | .move _ _, h => kept_transfer _ _ _ h
  | .gone _, h => h
  | .block _ _, h => kept_modWarp _ _ (kept_retire _ _ _ h)
  | .again _, _ => kept_wakeYields _ _ (kept_modWarp _ _ h0)
  | .trap _ _, h => kept_raise _ _ _ h
  | .wait _ _, h => kept_waitAt _ _ _ h
  | .stall, _ => h0

end

theorem kept_run {s t : State} {i : Instr} {body : Ix → Res} (hb : ∀ x, (body x).Good (Kept s)) (h : run i s body = .next t) :
    Kept s t := by
  unfold run at h
  split at h
  · cases h
  · split at h
    · cases h; exact kept_raise _ _ _ (.refl s)
    · cases h; exact kept_finish (.refl s) (hb _)

@[simp] theorem kept_trapWaiters {s u : State} (h : Kept s u) : Kept s u.trapWaiters :=
  kept_foldl (fun _ e h => kept_finish (r := .trap _ e.2) h h) _ _ h

end Sys2Proof.Machine
end

