-- ==== Sys2Proof/Laws/Effects.lean ====
section
/-! SUPPORT. Every arm of `exec` but module reset keeps what `Kept` says; so does every step. -/

namespace Sys2Proof.Machine

set_option Elab.async false

/-! ## Shared effects -/

theorem good_withOperands {x : Ix} {s : State} {us} {k : Unit → Res} (h : (k ()).Good (Kept s)) : (withOperands x s us k).Good (Kept s) := by
  unfold withOperands
  repeat' split
  · exact Kept.refl s
  · trivial
  · exact h

theorem good_withUniform {x : Ix} {s : State} {us} {k : Unit → Res} (h : (k ()).Good (Kept s)) : (withUniform x s us k).Good (Kept s) := by
  unfold withUniform
  split
  · trivial
  · exact h

theorem good_writeResult {x : Ix} {s s1 : State} {n w d vs} (h : Kept s s1) : (writeResult x s1 n w d vs).Good (Kept s) := by
  unfold writeResult
  cases n <;> exact h

theorem good_laneOp (x s n p d us f) : (laneOp x s n p d us f).Good (Kept s) := good_withOperands (good_writeResult (.refl s))
theorem good_laneOp64 (x s n p d us f) : (laneOp64 x s n p d us f).Good (Kept s) := good_withOperands (good_writeResult (.refl s))
theorem good_laneMaskOp (x s p kd us f) : (laneMaskOp x s p kd us f).Good (Kept s) := by
  unfold laneMaskOp
  split
  · exact Kept.refl s
  · exact good_withOperands ((Kept.refl s : Kept s s))
theorem good_uniOp (x s d gs f) : (uniOp x s d gs f).Good (Kept s) := good_withUniform ((Kept.refl s : Kept s s))
theorem good_maskOp (x s kd m) : (maskOp x s kd m).Good (Kept s) := by
  unfold maskOp
  split
  · exact Kept.refl s
  · exact (Kept.refl s : Kept s s)
theorem good_crossMask (x s n d us f) : (crossMask x s n d us f).Good (Kept s) := by
  unfold crossMask
  split
  · exact good_laneOp64 _ _ _ _ _ _ _
  · exact good_laneOp _ _ _ _ _ _ _
theorem good_writeWithRes (x s n p d i f) : (writeWithRes x s n p d i f).Good (Kept s) := (Kept.refl s : Kept s s)
theorem good_branch (s a f) : (branch s a f).Good (Kept s) := by
  unfold branch
  split <;> exact Kept.refl s
theorem good_branchIf (x : Ix) (s t f) : (x.branchIf s t f).Good (Kept s) := by
  unfold Ix.branchIf
  exact good_branch _ _ _

theorem kept_pushAll {x : Ix} {s s1 : State} (h : x.pushAll s = .ok s1) : Kept s s1 := by
  unfold Ix.pushAll at h
  repeat' split at h
  all_goals cases h
  exact kept_keepLeaves _ _ (.refl s)

theorem good_call (x : Ix) (s f) : (x.call s f).Good (Kept s) := by
  unfold Ix.call
  split
  · exact Kept.refl s
  · split
    · exact Kept.refl s
    · next h => exact kept_pushAll h

theorem good_returns {x : Ix} {s : State} {k : State → List (Nat × VAddr) → Res} (hk : ∀ t f, Kept s t → (k t f).Good (Kept s)) :
    (x.returns s k).Good (Kept s) := by
  unfold Ix.returns
  dsimp only
  repeat' split
  all_goals first | exact Kept.refl s | trivial | skip
  exact hk _ _ (kept_keepLeaves _ _ (kept_foldl (fun _ _ h => kept_fillFor _ h) _ _ (.refl s)))

theorem good_arrive (x i s sc b) : (arrive x i s sc b).Good (Kept s) := by
  unfold arrive
  split
  · trivial
  · exact kept_checkBarrier _ _ (kept_modWarp _ _ (kept_retire _ _ _ (.refl s)))

/-! ## Memory -/

theorem good_issueLoads {x : Ix} {s s1 : State} {as sg u d n c} (h : Kept s s1) : (x.issueLoads s1 as sg u d n c).Good (Kept s) := by
  unfold Ix.issueLoads
  dsimp only
  repeat' split
  all_goals first | exact h | trivial

theorem good_issueStores {x : Ix} {s s1 : State} {n as v c o} (h : Kept s s1) : (x.issueStores s1 n as v c o).Good (Kept s) := by
  unfold Ix.issueStores
  dsimp only
  split
  · trivial
  · exact h

theorem good_globalLoad (x s d a o z sg) : (globalLoad x s d a o z sg).Good (Kept s) := by
  refine good_withOperands ?_
  split
  · exact Kept.refl s
  · exact good_issueLoads (kept_keepLeaves _ _ (.refl s))

theorem good_privateLoad (x s d a o z sg) : (privateLoad x s d a o z sg).Good (Kept s) := by
  refine good_withOperands ?_
  split
  · exact Kept.refl s
  · exact good_issueLoads (kept_keepLeaves _ _ (.refl s))

theorem good_scratchLoad (x : Ix) (s n ls off sg u d r) : (x.scratchLoad s n ls off sg u d r).Good (Kept s) := by
  unfold Ix.scratchLoad
  split
  · exact Kept.refl s
  · extract_lets ready again os os'
    split
    · show Kept s (if again = true then s.addPart os' else s.addLoads os')
      split <;> exact Kept.refl s
    · exact kept_modWarp _ _ (kept_addPart os' (.refl s))

theorem good_scratchStores (x : Ix) (s n ls off v) : (x.scratchStores s n ls off v).Good (Kept s) := by
  unfold Ix.scratchStores
  split <;> exact Kept.refl s

theorem good_ldsBody (x s d a o z sg) : (ldsBody x s d a o z sg).Good (Kept s) := good_withOperands (good_scratchLoad _ _ _ _ _ _ _ _ _)
theorem good_gldsBody (x s d a z o) : (gldsBody x s d a z o).Good (Kept s) := good_withUniform (good_scratchLoad _ _ _ _ _ _ _ _ _)

theorem kept_pairs {β γ : Type} {s : State} {f : State × γ → β → State × γ} (hf : ∀ r b, Kept s r.1 → Kept s (f r b).1) :
    ∀ (l : List β) (r : State × γ), Kept s r.1 → Kept s (l.foldl f r).1
  | [], _, h => h
  | b :: l, r, h => kept_pairs hf l (f r b) (hf r b h)

theorem good_atomBody (x s d a b op ty ord sc sp nr c) : (atomBody x s d a b op ty ord sc sp nr c).Good (Kept s) := by
  unfold atomBody
  extract_lets wide srcU us n val f rel waits narrow own before after
  have hbefore : ∀ u, Kept s u → Kept s (before u) := fun u h => by
    show Kept s (if narrow = true then _ else u)
    split
    · exact h
    · exact h
  have hafter : ∀ u, Kept s u → Kept s (after u) := fun u h => by
    have h1 : Kept s (if rel = true then State.sysRelease u sc.toNat else u) := by
      split
      · exact kept_sysRelease _ h
      · exact h
    show Kept s (if ord = 1 ∨ ord = 3 then x.acquire (if rel = true then State.sysRelease u sc.toNat else u) sc.toNat else _)
    split
    · exact kept_acquire _ _ h1
    · exact h1
  refine good_withOperands ?_
  split
  · split
    · exact Kept.refl s
    · split
      · trivial
      · extract_lets ready r s1
        have h1 : Kept s s1 := by
          refine kept_replies _ _ _ _ _ (kept_pairs (fun r e h => ?_) _ (s, []) (.refl s))
          dsimp only
          split
          · exact kept_scratchStore _ _ h
          · exact h
        split
        · exact hafter _ h1
        · exact kept_modWarp _ _ h1
  · split
    · exact Kept.refl s
    · split
      · trivial
      · split
        · dsimp only
          split
          · exact kept_free _ (kept_peerSend _ _ _ (.refl s))
          · exact Kept.refl s
        · exact hafter _ (kept_replies _ _ _ _ _ (kept_atomAll _ _ _ _ _ _ _ _ (hbefore _ (kept_keepLeaves _ _ (.refl s)))))

/-! ## Banks and rings -/

theorem good_enterBanks (x : Ix) (s m k) : (x.enterBanks s m k).Good (Kept s) := by
  unfold Ix.enterBanks
  dsimp only
  split
  · exact Kept.refl s
  · split
    · exact Kept.refl s
    · exact (kept_foldl (fun _ _ h => kept_setBank _ _ _ h) _ _ (.refl s) : Kept s _)

theorem good_mashBody (x s d a b c f g p k h m) : (mashBody x s d a b c f g p k h m).Good (Kept s) := by
  unfold mashBody
  split
  · exact Kept.refl s
  · refine good_withOperands ?_
    extract_lets mask
    split
    · exact Kept.refl s
    · exact good_enterBanks _ _ _ _

theorem good_cellBody (x s a k) : (cellBody x s a k).Good (Kept s) := by
  refine good_withOperands ?_
  dsimp only
  split
  · exact Kept.refl s
  · exact good_enterBanks _ _ _ _

theorem good_withSlot {x : Ix} {s : State} {q n} {k : Ring → Res} (h : ∀ r, (k r).Good (Kept s)) : (x.withSlot s q n k).Good (Kept s) := by
  unfold Ix.withSlot
  split
  · exact Kept.refl s
  · split
    · exact Kept.refl s
    · exact h _

/-! ## Copies and casts -/

theorem good_copyEnter {x : Ix} {s s1 : State} {c rv q t} (h : Kept s s1) : (copyEnter x s1 c rv q t).Good (Kept s) := by
  unfold copyEnter
  have h1 := kept_engWalks c.core c.ctx (pageStarts c.writtenRows) h
  dsimp only
  repeat' split
  all_goals first | exact h | exact h1 | trivial | exact kept_issueCopy _ _ h1

theorem good_copyBody (x s d a b o r v q t l m) : (copyBody x s d a b o r v q t l m).Good (Kept s) := by
  unfold copyBody
  extract_lets lead
  split
  · exact Kept.refl s
  · split
    · exact Kept.refl s
    · split
      · trivial
      · split
        · exact Kept.refl s
        · next h =>
          have hk := kept_readRecord (.refl s) h
          dsimp only at hk
          extract_lets r' org
          split
          · exact hk
          · split
            · exact hk
            · split
              · trivial
              · split
                · exact hk
                · split
                  · exact hk
                  · split
                    · exact hk
                    · split
                      · exact hk
                      · exact good_copyEnter hk

/-- The states a read of the scan comes to are kept. -/
def Got.Good {α : Type} (s : State) : Got α → Prop
  | .ok t _ _ => Kept s t
  | .full t _ _ => Kept s t
  | .fault t _ => Kept s t

theorem good_bind {α β : Type} {s : State} {g : Got α} {onFull : α → β} {k : State → Nat → α → Got β} (h : g.Good s)
    (hk : ∀ t n v, Kept s t → (k t n v).Good s) : (g.bind onFull k).Good s := by
  cases g with
  | ok t n v => exact hk t n v h
  | full t n v => exact h
  | fault t _ => exact h

theorem good_search {x : Ix} {s : State} {lane} : ∀ (fuel : Nat) {t : State} {n k w}, Kept s t → (x.search lane fuel t n k w).Good s
  | 0, _, _, _, _, h => h
  | fuel + 1, t, n, k, w, h => by
    unfold Ix.search
    split
    · exact h
    · dsimp only
      generalize (match k.word with | some (i, v) => if i = w then some v else none | none => none) = cached
      split
      · split
        · exact h
        · exact good_search fuel h
      · split
        · exact h
        · split
          · next hr => exact kept_streamErr h hr
          · next hr =>
            have hk := kept_streamOk h hr
            split
            · exact hk
            · exact good_search fuel hk

theorem good_ended {x : Ix} {s t : State} {lane n k} (h : Kept s t) : (x.ended lane t n k).Good s := by
  unfold Ix.ended
  split
  · split
    · exact h
    · split
      · exact h
      · exact good_bind (good_search _ h) fun _ _ _ h => h
  · exact h

theorem good_headOf {x : Ix} {s t : State} {lane r st n k} (h : Kept s t) : (x.headOf lane r st t n k).Good s := by
  unfold Ix.headOf
  split
  · exact h
  · dsimp only
    split
    · split <;> exact h
    · split
      · exact h
      · split
        · next hr => exact kept_streamErr h hr
        · next hr =>
          have hk := kept_streamOk h hr
          split <;> exact hk
    · split
      · exact h
      · split
        · next hr => exact kept_streamErr h hr
        · next hr =>
          have hk := kept_streamOk h hr
          split
          · split
            · exact hk
            · split <;> exact hk
          · split
            · exact hk
            · split
              · next hr2 => exact kept_streamErr hk hr2
              · next hr2 =>
                have hk2 := kept_streamOk hk hr2
                split
                · next hr3 => exact kept_streamErr hk2 hr3
                · next hr3 =>
                  have hk3 := kept_streamOk hk2 hr3
                  split <;> exact hk3

theorem good_castRound {x : Ix} {s t : State} {mode lane r n p} (h : Kept s t) : (x.castRound mode lane r t n p).Good s := by
  unfold Ix.castRound
  dsimp only
  refine good_bind (good_ended h) fun t n ea h => ?_
  split
  · split
    · exact h
    · exact good_bind (good_headOf h) fun t n k h => h
  · split
    · exact h
    · refine good_bind (good_ended h) fun t n eb h => ?_
      split
      · exact h
      · refine good_bind ?_ fun t n ka h => good_bind ?_ fun t n kb h => ?_
        · split
          · exact h
          · exact good_headOf h
        · split
          · exact h
          · exact good_headOf h
        · exact h

theorem good_castScan {x : Ix} {s : State} {mode lane r room} : ∀ (fuel : Nat) {t : State} {n p}, Kept s t →
    (x.castScan mode lane r room fuel t n p).Good s
  | 0, _, _, _, h => h
  | fuel + 1, t, n, p, h => by
    unfold Ix.castScan
    split
    · exact h
    · exact good_bind (good_castRound h) fun t n p h => good_castScan fuel h

theorem good_rowPointer {x : Ix} {s t : State} {lane r A B i n p} (h : Kept s t) : (x.rowPointer lane r A B i t n p).Good s := by
  unfold Ix.rowPointer
  split
  · exact h
  · split
    · exact h
    · split
      · next hr => exact kept_streamErr h hr
      · next hr =>
        have hk := kept_streamOk h hr
        repeat' split
        all_goals exact hk

theorem good_rowScan {x : Ix} {s : State} {lane r room A B z} : ∀ (fuel : Nat) {t : State} {n p}, Kept s t →
    (x.rowScan lane r room A B z fuel t n p).Good s
  | 0, _, _, _, h => h
  | fuel + 1, t, n, p, h => by
    unfold Ix.rowScan
    split
    · exact h
    · split
      · exact h
      · split
        · exact h
        split
        · exact h
        · dsimp only
          refine good_bind ?_ fun t n q h => good_bind (good_rowPointer h) fun t n q h => ?_
          · split
            · exact h
            · exact good_rowPointer h
          · split
            · exact good_rowScan fuel h
            · split
              · exact h
              · split
                · next hr => exact kept_streamErr h hr
                · next hr => exact good_rowScan fuel (kept_streamOk h hr)

theorem kept_castRecords (x : Ix) (s : State) (m v) : Kept s (readTo (x.castRecords s m v)) := by
  unfold Ix.castRecords
  split
  · next h1 => exact kept_streamErr (.refl s) h1
  · next h1 =>
    have hk := kept_streamOk (.refl s) h1
    split
    · next h2 =>
      split at h2
      · cases h2
      · exact kept_streamErr hk h2
    · next v _ h2 =>
      have hk2 : Kept s v := by
        split at h2
        · cases h2; exact hk
        · exact kept_streamOk hk h2
      split <;> exact hk2

theorem good_castResult {x : Ix} {s t : State} {n d c k g o b w0 w1 w2 w3} (h : Kept s t) :
    (x.castResult t n d c k g o b w0 w1 w2 w3).Good (Kept s) := kept_modWarp _ _ h

theorem good_castBody (x s d a m c k g) : (castBody x s d a m c k g).Good (Kept s) := by
  unfold castBody
  have h0 := kept_castRecords x s m.toNat (x.castVa a)
  dsimp only
  split
  · next h => rw [h] at h0; exact h0
  · next h =>
    have hk := h0
    rw [h] at hk
    change Kept s _ at hk
    split
    · have hg : ∀ A B z (p : Rows), (x.rowScan x.low (x.castVa a) x.lanes.length A B z castFuel _ 0 p).Good s :=
        fun A B z p => good_rowScan castFuel hk
      split
      · next hr => exact (Eq.mp (congrArg (Got.Good s) hr) (hg _ _ _ _) :)
      · next hr => exact good_castResult (Eq.mp (congrArg (Got.Good s) hr) (hg _ _ _ _))
      · next hr => exact good_castResult (Eq.mp (congrArg (Got.Good s) hr) (hg _ _ _ _))
    · have hg : ∀ (p : Progress), (x.castScan m.toNat x.low (x.castVa a) x.lanes.length castFuel _ 0 p).Good s :=
        fun p => good_castScan castFuel hk
      split
      · next hr => exact (Eq.mp (congrArg (Got.Good s) hr) (hg _) :)
      · next hr =>
        have h2 := Eq.mp (congrArg (Got.Good s) hr) (hg _)
        split <;> exact good_castResult h2
      · next hr =>
        have h2 := Eq.mp (congrArg (Got.Good s) hr) (hg _)
        split <;> exact good_castResult h2

theorem kept_rowEnds {x : Ix} {s u : State} (v A B) (hu : Kept s u) : Kept s (readTo (x.rowEnds u v A B)) := by
  unfold Ix.rowEnds
  split
  · exact hu
  · split
    · next h1 => exact kept_streamErr hu h1
    · next h1 =>
      have hk := kept_streamOk hu h1
      split
      · next h2 => exact kept_streamErr hk h2
      · next h2 =>
        have hk2 := kept_streamOk hk h2
        repeat' split
        all_goals exact hk2

theorem kept_splitSearch {x : Ix} {s : State} (v A r0 r1 t) : ∀ (fuel : Nat) {u : State} (lo hi : Nat), Kept s u →
    Kept s (readTo (x.splitSearch v A r0 r1 t fuel u lo hi))
  | 0, _, _, _, hu => hu
  | fuel + 1, u, lo, hi, hu => by
    unfold Ix.splitSearch
    split
    · exact hu
    · dsimp only
      split
      · next hr => exact kept_streamErr hu hr
      · next hr =>
        have hk := kept_streamOk hu hr
        repeat' split
        · exact hk
        · exact hk
        · exact kept_splitSearch v A r0 r1 t fuel _ _ hk
        · exact kept_splitSearch v A r0 r1 t fuel _ _ hk

end Sys2Proof.Machine
end

