-- ==== Sys2Proof/Laws/Operands.lean ====
section
/-! SUPPORT. What the operand forms and the result forms of lane and uniform instructions do. -/

namespace Sys2Proof.Machine

set_option Elab.async false

/-! ## Vector registers -/

theorem setReg_reg (W : Warp) (l r : Nat) (x : Word) {l' r' : Nat} (hr : r < 128) (hr' : r' < 128) :
    (W.setReg l r x).reg l' r' = if l' = l ∧ r' = r then x else W.reg l' r' := by
  unfold Warp.setReg Warp.reg
  rw [tget_tput]
  have : (128 * l' + r' = 128 * l + r) ↔ (l' = l ∧ r' = r) := by constructor <;> omega
  simp only [this]

theorem setDst_eq (W : Warp) (wide : Bool) (l r : Nat) (x : DWord) : W.setDst wide l r x = { W with v := (W.setDst wide l r x).v } := by
  cases wide <;> rfl

theorem vOnly_trans {A B C : Warp} (h : B = { A with v := B.v }) (h2 : C = { B with v := C.v }) : C = { A with v := C.v } := by
  rw [h2, h]

theorem writeLanes_eq (wide : Bool) (d : Nat) : ∀ (vs : List (Nat × DWord)) (W : Warp),
    W.writeLanes wide d vs = { W with v := (W.writeLanes wide d vs).v }
  | [], _ => rfl
  | e :: vs, W =>
    vOnly_trans (setDst_eq W wide e.1 d e.2) (writeLanes_eq wide d vs (W.setDst wide e.1 d e.2))

theorem setDst_reg (W : Warp) (wide : Bool) (l d : Nat) (x : DWord) {l' r' : Nat} (hd : d + 1 < 128 ∨ wide = false ∧ d < 128)
    (hr' : r' < 128) :
    (W.setDst wide l d x).reg l' r' =
      if l' = l ∧ r' = d then x.setWidth 32
      else if wide = true ∧ l' = l ∧ r' = d + 1 then (x >>> 32).setWidth 32 else W.reg l' r' := by
  cases wide with
  | false =>
    simp only [Warp.setDst, Bool.false_eq_true, if_false, false_and]
    exact setReg_reg _ _ _ _ (by omega) hr'
  | true =>
    simp only [Warp.setDst, if_true, true_and]
    rw [setReg_reg _ _ _ _ (by rcases hd with h | h; omega; cases h.1) hr', setReg_reg _ _ _ _ (by omega) hr']
    by_cases h : l' = l ∧ r' = d
    · have : ¬ (l' = l ∧ r' = d + 1) := by omega
      simp [h]
    · by_cases h2 : l' = l ∧ r' = d + 1 <;> simp [h, h2]

theorem writeLanes_frame (wide : Bool) (d : Nat) {l r : Nat} (hd : d + 1 < 128 ∨ wide = false ∧ d < 128) (hr : r < 128) :
    ∀ (vs : List (Nat × DWord)) (W : Warp), ((∀ e ∈ vs, e.1 ≠ l) ∨ (r ≠ d ∧ (wide = false ∨ r ≠ d + 1))) →
    (W.writeLanes wide d vs).reg l r = W.reg l r
  | [], _, _ => rfl
  | e :: vs, W, h => by
    show ((W.setDst wide e.1 d e.2).writeLanes wide d vs).reg l r = _
    rw [writeLanes_frame wide d hd hr vs _ (h.imp (fun h e' he' => h e' (by simp [he'])) id), setDst_reg _ _ _ _ _ hd hr]
    rcases h with h | h
    · have : l ≠ e.1 := fun hl => h e (by simp) hl.symm
      simp [this]
    · rcases h.2 with h2 | h2 <;> simp [h.1, h2]

theorem halves (x : BitVec 64) : ((x >>> 32).setWidth 32 ++ x.setWidth 32 : BitVec (32 + 32)) = x := by
  apply BitVec.eq_of_toNat_eq
  rw [BitVec.toNat_append]
  have hx := x.isLt
  simp only [BitVec.toNat_setWidth, BitVec.toNat_ushiftRight, Nat.shiftRight_eq_div_pow]
  rw [← Nat.shiftLeft_add_eq_or_of_lt (Nat.mod_lt _ (by decide)), Nat.shiftLeft_eq]
  omega

theorem pair_setDst (W : Warp) (l d : Nat) (x : DWord) (hd : d + 1 < 128) : (W.setDst true l d x).pair l d = x := by
  unfold Warp.pair
  rw [setDst_reg _ _ _ _ _ (.inl hd) hd, setDst_reg _ _ _ _ _ (.inl hd) (by omega)]
  simp only [true_and, if_true]
  rw [if_neg (by omega)]
  exact halves x

/-- The value a register or pair takes in a lane of the list. -/
theorem writeLanes_value (wide : Bool) (d : Nat) {l : Nat} {x : DWord} (hd : d + 1 < 128 ∨ wide = false ∧ d < 128) :
    ∀ (vs : List (Nat × DWord)) (W : Warp), (vs.map (·.1)).Nodup → (l, x) ∈ vs →
    (if wide then (W.writeLanes wide d vs).pair l d else ((W.writeLanes wide d vs).reg l d).setWidth 64) =
      (if wide then x else (x.setWidth 32).setWidth 64)
  | [], _, _, h => by cases h
  | e :: vs, W, hn, h => by
    have hn' : e.1 ∉ vs.map (·.1) ∧ (vs.map (·.1)).Nodup := by simpa using hn
    show (if wide then ((W.setDst wide e.1 d e.2).writeLanes wide d vs).pair l d
      else (((W.setDst wide e.1 d e.2).writeLanes wide d vs).reg l d).setWidth 64) = _
    rcases List.mem_cons.mp h with he | hmem
    · subst he
      have hf : ∀ e' ∈ vs, e'.1 ≠ l := fun e' he' hl => hn'.1 (List.mem_map.mpr ⟨e', he', hl⟩)
      cases wide with
      | false =>
        have hd' : d < 128 := by rcases hd with h | h; omega; exact h.2
        simp only [Bool.false_eq_true, if_false]
        rw [writeLanes_frame false d hd hd' vs _ (.inl hf), setDst_reg _ _ _ _ _ hd hd']
        simp
      | true =>
        have hd' : d + 1 < 128 := by rcases hd with h | h; exact h; cases h.1
        simp only [if_true]
        unfold Warp.pair
        rw [writeLanes_frame true d hd hd' vs _ (.inl hf), writeLanes_frame true d hd (by omega) vs _ (.inl hf)]
        exact pair_setDst W l d x hd'
    · exact writeLanes_value wide d hd vs _ hn'.2 hmem

/-! ## Lane results -/

theorem laneVals_keys (x : Ix) (p : Option Pfx) (wide : Bool) (d : Nat) (f : Nat → DWord) :
    (laneVals x p wide d f).map (·.1) = x.lanes := by
  simp [laneVals, Function.comp_def]

theorem withOperands_usable {s : State} {x : Ix} {us : List Use} {k : Unit → Res} (h : Usable s x us) :
    withOperands x s us k = k () := by
  have h1 : operandTrap x us = none := by
    unfold operandTrap
    rw [List.find?_eq_none.mpr (fun u hu => by simp [(h u hu).1])]
    rfl
  have h2 : us.any (Use.busy x s x.lanes) = false := List.any_eq_false.mpr fun u hu => by simp [(h u hu).2]
  unfold withOperands
  rw [h1]
  simp only [h2, Bool.false_eq_true, if_false]

theorem writeResult_spec {s : State} {x : Ix} {i : Instr} {n : Bool} {p : Option Pfx} {wide : Bool} {d : Nat} {f : Nat → DWord}
    {body : Ix → Res} (h : Starts s x i) (hx : exec i s = run i s body)
    (hd : d + 1 < 128 ∨ wide = false ∧ d < 128)
    (hb : body x = writeResult x s n wide d (laneVals x p wide d f)) : LaneResult s x i n p wide d f := by
  have hn : ((laneVals x p wide d f).map (·.1)).Nodup := by rw [laneVals_keys]; exact lanesOf_nodup _
  cases n with
  | true =>
    obtain ⟨t, ht⟩ := completes_same (l := some (latchOf wide (laneVals x p wide d f))) h hx (by rw [hb]; rfl)
    exact ⟨t, x.W, ht, rfl, fun _ _ _ _ _ => rfl, fun _ _ hc => by cases hc⟩
  | false =>
    have hW := writeLanes_eq wide d (laneVals x p wide d f) x.W
    obtain ⟨t, ht⟩ := completes_ok (W := x.W.writeLanes wide d (laneVals x p wide d f))
      (l := some (latchOf wide (laneVals x p wide d f))) h hx (by rw [hb]; rfl) rfl (by rw [hW]) (by rw [hW])
    refine ⟨t, _, ht, hW, ?_, ?_⟩
    · intro l r _ hr hc
      rcases hc with hc | hc | hc
      · cases hc
      · refine writeLanes_frame wide d hd hr _ _ (.inl fun e he hl => hc ?_)
        rw [← laneVals_keys x p wide d f, ← hl]
        exact List.mem_map.mpr ⟨e, he, rfl⟩
      · exact writeLanes_frame wide d hd hr _ _ (.inr hc)
    · intro l hl _
      have hm : (l, if (x.active p).getLsbD l then f l else if pfxZ p then 0 else x.W.dstVal wide l d) ∈ laneVals x p wide d f :=
        List.mem_map.mpr ⟨l, hl, rfl⟩
      have := writeLanes_value wide d hd _ x.W hn hm
      rw [this]
      cases wide with
      | true => simp only [if_true, Warp.dstVal]
      | false =>
        simp only [Bool.false_eq_true, if_false, Warp.dstVal]
        split <;> [rfl; skip]
        split
        · rfl
        · bv_omega

theorem reg_lt {x : Ix} {d : BitVec 7} (h : (Use.reg d.toNat).ok x = true) : d.toNat < 124 := by
  have h : d.toNat < min x.T.regs 124 := of_decide_eq_true h
  omega

theorem regPair_lt {x : Ix} {d : BitVec 7} (h : (Use.regPair d.toNat).ok x = true) : d.toNat + 1 < 124 := by
  simp only [Use.ok, Bool.and_eq_true] at h
  have h : d.toNat + 1 < min x.T.regs 124 := of_decide_eq_true h.2
  omega

/-- A lane instruction with a 32-bit result. -/
theorem laneOp_spec {s : State} {x : Ix} {i : Instr} {n : Bool} {p : Option Pfx} {d : BitVec 7} {us : List Use} {f : Nat → Word}
    {body : Ix → Res} (h : Starts s x i) (hx : exec i s = run i s body) (hu : Usable s x (.reg d.toNat :: us))
    (hb : body x = laneOp x s n p d us f) : LaneResult s x i n p false d.toNat fun l => (f l).setWidth 64 := by
  have hd := reg_lt (d := d) (hu (.reg d.toNat) (List.mem_cons_self ..)).1
  exact writeResult_spec h hx (.inr ⟨rfl, by omega⟩) (by rw [hb, laneOp, withOperands_usable hu])

/-- A lane instruction with a 64-bit result. -/
theorem laneOp64_spec {s : State} {x : Ix} {i : Instr} {n : Bool} {p : Option Pfx} {d : BitVec 7} {us : List Use}
    {f : Nat → DWord} {body : Ix → Res} (h : Starts s x i) (hx : exec i s = run i s body)
    (hu : Usable s x (.regPair d.toNat :: us)) (hb : body x = laneOp64 x s n p d us f) : LaneResult s x i n p true d.toNat f := by
  have hd := regPair_lt (d := d) (hu (.regPair d.toNat) (List.mem_cons_self ..)).1
  exact writeResult_spec h hx (.inl (by omega)) (by rw [hb, laneOp64, withOperands_usable hu])

/-! ## Residue registers -/

theorem setRes_res (W : Warp) (l n : Nat) (x : Word) {l' n' : Nat} (hn : n < 8) (hn' : n' < 8) :
    (W.setRes l n x).res l' n' = if l' = l ∧ n' = n then x else W.res l' n' := by
  unfold Warp.setRes Warp.res
  rw [tget_tput]
  have : (8 * l' + n' = 8 * l + n) ↔ (l' = l ∧ n' = n) := by constructor <;> omega
  simp only [this]

/-- Writing a residue register in the lanes of a list. -/
theorem setRes_fold (k : Nat) (g : Nat → Word) (hk : k < 8) : ∀ (ls : List Nat) (W : Warp),
    ls.foldl (fun W l => W.setRes l k (g l)) W = { W with e := (ls.foldl (fun W l => W.setRes l k (g l)) W).e } ∧
    ∀ l r, r < 8 → (ls.foldl (fun W l => W.setRes l k (g l)) W).res l r = if l ∈ ls ∧ r = k then g l else W.res l r
  | [], _ => ⟨rfl, fun _ _ _ => by simp⟩
  | a :: ls, W => by
    obtain ⟨h1, h2⟩ := setRes_fold k g hk ls (W.setRes a k (g a))
    rw [List.foldl_cons]
    refine ⟨by rw [h1]; rfl, fun l r hr => ?_⟩
    rw [h2 l r hr, setRes_res _ _ _ _ hk hr]
    by_cases hm : l ∈ ls
    · by_cases hr2 : r = k <;> simp [hm, hr2]
    · by_cases hl : l = a
      · subst hl; by_cases hr2 : r = k <;> simp [hm, hr2]
      · simp [hm, hl]

/-- A lane instruction that also writes a residue register. -/
theorem writeWithRes_spec {s : State} {x : Ix} {i : Instr} {n p d} {k : BitVec 3} {f : Nat → Nat × Word}
    {body : Ix → Res} (h : Starts s x i) (hx : exec i s = run i s body) (hd : d < 128)
    (hb : body x = writeWithRes x s n p d k.toNat f) : ResidueResult s x i n p d k.toNat f := by
  have hn : ((laneVals x p false d fun l => BitVec.ofNat 64 (f l).1).map (·.1)).Nodup := by rw [laneVals_keys]; exact lanesOf_nodup _
  let vs := laneVals x p false d fun l => BitVec.ofNat 64 (f l).1
  let W0 := if n then x.W else x.W.writeLanes false d vs
  obtain ⟨e1, e2⟩ := setRes_fold k.toNat (fun l => (f l).2) k.isLt (lanesOf (x.active p)) W0
  have hW0 : W0 = { x.W with v := W0.v } := by
    show (if n then _ else _) = _
    cases n
    · exact writeLanes_eq _ _ _ _
    · rfl
  obtain ⟨t, ht⟩ := completes_ok (W := (lanesOf (x.active p)).foldl (fun W l => W.setRes l k.toNat (f l).2) W0)
      (l := some (latchOf false vs)) h hx (by rw [hb]; rfl) rfl (by rw [e1, hW0]) (by rw [e1, hW0])
  have hreg : ∀ l r, ((lanesOf (x.active p)).foldl (fun W l => W.setRes l k.toNat (f l).2) W0).reg l r = W0.reg l r := fun l r => by
    rw [e1]; rfl
  refine ⟨t, _, ht, by rw [e1, hW0], ?_, ?_, ?_⟩
  · intro l r _ hr hc
    rw [hreg]
    show (if n then _ else _ : Warp).reg l r = _
    cases n
    · simp only [Bool.false_eq_true, if_false, false_or] at hc ⊢
      rcases hc with hc | hc
      · refine writeLanes_frame false d (.inr ⟨rfl, hd⟩) hr _ _ (.inl fun e he hl => hc ?_)
        rw [← laneVals_keys x p false d fun l => BitVec.ofNat 64 (f l).1, ← hl]
        exact List.mem_map.mpr ⟨e, he, rfl⟩
      · exact writeLanes_frame false d (.inr ⟨rfl, hd⟩) hr _ _ (.inr ⟨hc, .inl rfl⟩)
    · rfl
  · intro l hl hnf
    subst hnf
    rw [hreg]
    have hm : (l, if (x.active p).getLsbD l then BitVec.ofNat 64 (f l).1 else if pfxZ p then 0 else x.W.dstVal false l d) ∈ vs :=
      List.mem_map.mpr ⟨l, hl, rfl⟩
    have := writeLanes_value false d (.inr ⟨rfl, hd⟩) _ x.W hn hm
    simp only [Bool.false_eq_true, if_false, Warp.dstVal] at this
    have h2 : (x.W.writeLanes false d vs).reg l d = (if (x.active p).getLsbD l = true then BitVec.ofNat 64 (f l).1 else if pfxZ p = true then 0 else BitVec.setWidth 64 (x.W.reg l d)).setWidth 32 := by
      apply BitVec.eq_of_toNat_eq
      have h3 := ((x.W.writeLanes false d vs).reg l d).isLt
      generalize (x.W.writeLanes false d vs).reg l d = u at this h3 ⊢
      generalize (if (x.active p).getLsbD l = true then BitVec.ofNat 64 (f l).1 else if pfxZ p = true then 0 else BitVec.setWidth 64 (x.W.reg l d)) = v at this ⊢
      have := congrArg BitVec.toNat this
      simp only [BitVec.toNat_setWidth] at this ⊢
      omega
    show (x.W.writeLanes false d vs).reg l d = _
    rw [h2]
    split
    · apply BitVec.eq_of_toNat_eq; simp
    · split
      · rfl
      · simp
  · intro l r hl hr
    rw [e2 l r hr]
    have : W0.res l r = x.W.res l r := by rw [hW0]; rfl
    simp only [mem_lanesOf, hl, true_and, this]

/-! ## Mask and uniform results -/

theorem mem_maskOf {ls : List Nat} (h : ∀ l ∈ ls, l < 64) (l : Nat) : (maskOf ls).getLsbD l = decide (l ∈ ls) := by
  have aux : ∀ (ls : List Nat) (m : Mask), (∀ l ∈ ls, l < 64) →
      (ls.foldl (fun m l => m ||| laneBit l) m).getLsbD l = (m.getLsbD l || decide (l ∈ ls)) := by
    intro ls
    induction ls with
    | nil => intro m _; simp
    | cons a ls ih =>
      intro m hm
      rw [List.foldl_cons, ih _ fun k hk => hm k (by simp [hk])]
      have ha : a < 64 := hm a (by simp)
      have hb : (laneBit a).getLsbD l = decide (l = a) := by
        unfold laneBit
        rw [BitVec.getLsbD_ofNat, Nat.testBit_two_pow]
        by_cases hl : l = a
        · simp [hl, ha]
        · have : ¬ a = l := fun h => hl h.symm
          simp [hl, this]
      simp [BitVec.getLsbD_or, hb, Bool.or_assoc]
  rw [maskOf, aux ls 0 h]
  simp

theorem laneMaskOp_spec {s : State} {x : Ix} {i : Instr} {p : Option Pfx} {kd : BitVec 3} {us : List Use} {f : Nat → Bool}
    {body : Ix → Res} (h : Starts s x i) (hx : exec i s = run i s body) (hk : kd ≠ 0) (hu : Usable s x us)
    (hb : body x = laneMaskOp x s p kd us f) : MaskResult s x i p kd.toNat f := by
  let hit := maskOf (x.lanes.filter fun l => (x.active p).getLsbD l && f l)
  let ls := if pfxZ p then x.P.lanes else x.active p
  have hb' : body x = .ok (s.setWarp x.w (x.W.setKLanes kd.toNat ls hit)) none := by
    rw [hb, laneMaskOp, if_neg hk, withOperands_usable hu]
  obtain ⟨t, ht⟩ := completes_ok (W := x.W.setKLanes kd.toNat ls hit) h hx hb' rfl rfl rfl
  refine ⟨t, _, ht, rfl, fun n hn => by simp [Warp.setKLanes, tget_tput, hn], fun l hl => ?_⟩
  have hhit : hit.getLsbD l = (decide (l ∈ x.lanes) && ((x.active p).getLsbD l && f l)) := by
    show (maskOf _).getLsbD l = _
    rw [mem_maskOf fun k hk => Ix.lanes_lt (List.mem_filter.mp hk).1]
    by_cases hm : l ∈ x.lanes <;> simp [List.mem_filter, hm]
  have hlane : x.P.lanes.getLsbD l = decide (l ∈ x.lanes) := by
    by_cases hm : l ∈ x.lanes
    · simp [hm, (mem_lanesOf.mp hm).2]
    · have : ¬ x.P.lanes.getLsbD l = true := fun h => hm (mem_lanesOf.mpr ⟨hl, h⟩)
      simp [hm, this]
  have hact : (x.active p).getLsbD l = true → l ∈ x.lanes := fun ha => by
    have : x.P.lanes.getLsbD l = true := by
      simp only [Ix.active, BitVec.getLsbD_and, Bool.and_eq_true] at ha
      exact ha.1
    simpa [hlane] using this
  simp only [Warp.setKLanes, tget_tput, if_true, BitVec.getLsbD_or, BitVec.getLsbD_and, BitVec.getLsbD_not, hhit]
  by_cases ha : (x.active p).getLsbD l = true
  · have hm := hact ha
    have hls : ls.getLsbD l = true := by
      show (if _ then _ else _ : Mask).getLsbD l = true
      split
      · simp [hlane, hm]
      · exact ha
    rw [hls, ha]; simp [hm]
  · have ha' : (x.active p).getLsbD l = false := by simpa using ha
    by_cases hz : pfxZ p = true
    · have hls : ls.getLsbD l = decide (l ∈ x.lanes) := by
        show (if _ then _ else _ : Mask).getLsbD l = _
        rw [if_pos hz, hlane]
      rw [hls, ha']; by_cases hm : l ∈ x.lanes <;> simp [hz, hm, hl]
    · have hls : ls.getLsbD l = false := by
        show (if _ then _ else _ : Mask).getLsbD l = _
        rw [if_neg hz, ha']
      rw [hls, ha']; simp [hz, hl]

theorem withUniform_usable {s : State} {x : Ix} {gs : List Nat} {k : Unit → Res} (h : UsableG s x gs) :
    withUniform x s gs k = k () := by
  unfold withUniform
  have : gs.any (s.busyG x.w) = false := List.any_eq_false.mpr fun g hg => by simp [h g hg]
  rw [this]; rfl

theorem greg_setG (W : Warp) (d n : Nat) (v : DWord) :
    (W.setG d v).greg n = if n = 63 then 0 else if n = d then v else W.greg n := by
  unfold Warp.setG Warp.greg
  by_cases hn : n = 63
  · simp [hn]
  · by_cases hd : d = 63
    · have : n ≠ d := fun h => hn (h.trans hd)
      simp [hn, hd]
    · simp [hn, hd, tget_tput]

theorem setG_eq (W : Warp) (d : Nat) (v : DWord) : W.setG d v = { W with g := (W.setG d v).g } := by
  unfold Warp.setG; split <;> rfl

theorem setG_spec {s : State} {x : Ix} {i : Instr} {l : Option Latch} {d : Nat} {v : DWord} {body : Ix → Res}
    (h : Starts s x i) (hx : exec i s = run i s body) (hb : body x = .ok (s.setWarp x.w (x.W.setG d v)) l) :
    UniResult s x i l d v := by
  obtain ⟨t, ht⟩ := completes_ok (W := x.W.setG d v) h hx hb rfl (by rw [setG_eq]) (by rw [setG_eq])
  refine ⟨t, _, ht, setG_eq _ _ _, ?_, fun n hn => ?_⟩
  · rw [greg_setG]; simp
  · rw [greg_setG, if_neg hn]
    split
    · next h63 => simp [Warp.greg, h63]
    · rfl

theorem uniOp_spec {s : State} {x : Ix} {i : Instr} {d : BitVec 6} {gs : List Nat} {f : Unit → DWord} {body : Ix → Res}
    (h : Starts s x i) (hx : exec i s = run i s body) (hu : UsableG s x (d.toNat :: gs))
    (hb : body x = uniOp x s d gs f) : UniResult s x i none d.toNat (f ()) :=
  setG_spec h hx (by rw [hb, uniOp, withUniform_usable hu])

theorem setK_spec {s : State} {x : Ix} {i : Instr} {kd : Nat} {m : Mask} {body : Ix → Res} (h : Starts s x i)
    (hx : exec i s = run i s body) (hb : body x = .ok (s.setWarp x.w (x.W.setK x.T.width kd m)) none) :
    MaskWrite s x i kd m := by
  obtain ⟨t, ht⟩ := completes_ok (W := x.W.setK x.T.width kd m) h hx hb rfl rfl rfl
  exact ⟨t, _, ht, rfl, by simp [Warp.setK], fun n hn => by simp [Warp.setK, tget_tput, hn]⟩

end Sys2Proof.Machine
end

