-- ==== Sys2Proof/Laws/Mem.lean ====
section
/-! SUPPORT. Memory instructions: operands, data and addresses as the rules write them, issuing loads, and writes of scratch
places. -/

namespace Sys2Proof.Machine

set_option Elab.async false

/-- A read of a register or a peer window changes only semaphores, what was sent to peers, and the free values used. -/
theorem devRead_frame (s : State) (pa out) :
    (s.devRead pa out).1 = { s with sems := (s.devRead pa out).1.sems, sent := (s.devRead pa out).1.sent, free := (s.devRead pa out).1.free } := by
  unfold State.devRead
  split
  · unfold State.regRead State.semRead
    dsimp only
    repeat' split
    all_goals rfl
  · split
    · rfl
    · unfold State.peerSend
      repeat' split
      all_goals rfl

theorem Shared.reaches {s t : State} (h : Shared s t) (pa : Nat) : t.reaches pa = s.reaches pa := by rw [h.1]; rfl
theorem Shared.nextId {s t : State} (h : Shared s t) : t.nextId = s.nextId := by rw [h.1]
theorem Shared.loads {s t : State} (h : Shared s t) : t.loads = s.loads := by rw [h.1]
theorem Shared.stores {s t : State} (h : Shared s t) : t.stores = s.stores := by rw [h.1]
theorem Shared.warp {s t : State} (h : Shared s t) (w : Nat) : t.warp w = s.warp w := by rw [h.1]; rfl
theorem Shared.peerAt {s t : State} (h : Shared s t) (pa : Nat) : t.peerAt pa = s.peerAt pa := by rw [h.1]; rfl
theorem Shared.outst {s t : State} (h : Shared s t) (x : Ix) (i a sg u d n) : x.outst t i a sg u d n = x.outst s i a sg u d n := by
  unfold Ix.outst; rw [h.nextId, h.peerAt]
theorem Shared.pstore {s t : State} (h : Shared s t) (x : Ix) (i a bs) : x.pstore t i a bs = x.pstore s i a bs := by
  unfold Ix.pstore; rw [h.nextId, h.peerAt]
theorem Shared.served {s t : State} (h : Shared s t) (o : Outst) : t.served o = s.served o := by
  have e1 : t.l1Line = s.l1Line := by rw [h.1]; rfl
  unfold State.served
  simp only [e1, h.reaches]
theorem Shared.deadLink {s t : State} (h : Shared s t) (o : Outst) : t.deadLink o = s.deadLink o := by
  have e1 : t.peerDead = s.peerDead := by rw [h.1]; rfl
  unfold State.deadLink
  rw [e1, h.served]
theorem Shared.collRoom {s t : State} (h : Shared s t) (c n) : t.collRoom c n = s.collRoom c n := by
  unfold State.collRoom State.collEntries
  rw [h.loads, h.stores]

theorem room_false {s : State} {c n : Nat} {b : Bool} (h : b = true → (s.collEntries c).length + n ≤ 64) : (b && !s.collRoom c n) = false := by
  cases b with
  | false => rfl
  | true => simpa [State.collRoom] using h rfl

/-- Loads over links that are up, with room in the collector where they need it, are outstanding by their parts, and the
instruction completes. -/
theorem issueLoads_spec {x : Ix} {s u : State} {as : List MemAcc} {i : Instr} {signed uni : Bool} {d nreg : Nat} {collect : Bool} {body : Ix → Res}
    (hx : exec i s = run i s body) (hu : Shared s u) (hb : body x = x.issueLoads u as signed uni d nreg collect)
    (hl : ∀ a ∈ as, s.deadLink (x.outst s 0 a signed uni d nreg) = false)
    (hroom : (collect && decide (1 < (accLines as).length)) = true → (s.collEntries x.core).length + (accLines as).length ≤ 64) (h : Starts s x i) :
    ∃ t, CompletesIn s (u.addLoads ((as.flatMap MemAcc.parts).zipIdx.map fun e => { x.outst s e.2 e.1.1 signed uni (d + e.1.2) (partRegs nreg) with
      coll := if collect && decide (1 < (accLines as).length) then some (e.1.1.va / 128) else none, lock := collect || uni })) t x i none x.W := by
  refine completes_other h hx ?_ ((hu.warp x.w).trans (issuing_spec h.1).2.1)
  have hf : as.find? (fun a => u.deadLink (x.outst u 0 a signed uni d nreg)) = none :=
    List.find?_eq_none.mpr fun a ha => by rw [hu.outst, hu.deadLink, hl a ha]; decide
  rw [hb]
  unfold Ix.issueLoads
  dsimp only
  rw [hf, hu.collRoom]
  dsimp only
  rw [room_false hroom]
  simp only [hu.outst]
  rfl

/-- Stores with room in the collector where they need it are unperformed by their parts, and the instruction completes. -/
theorem issueStores_spec {x : Ix} {s u : State} {n : Nat} {as : List MemAcc} {i : Instr} {v : Nat → Nat} {collect : Bool} {body : Ix → Res}
    (hx : exec i s = run i s body) (hu : Shared s u) (hb : body x = x.issueStores u n as v collect none)
    (hroom : (collect && decide (1 < (accLines as).length)) = true → (s.collEntries x.core).length + (accLines as).length ≤ 64) (h : Starts s x i) :
    ∃ t, CompletesIn s (u.addStores ((as.flatMap MemAcc.parts).zipIdx.map fun e => { x.pstore s e.2 e.1.1 ((leBytes n (v e.1.1.lane)).drop (4 * e.1.2)) with
      coll := if collect && decide (1 < (accLines as).length) then some (e.1.1.va / 128) else none, rel := x.tag none e.1.1.lane })) t x i none x.W := by
  refine completes_other h hx ?_ ((hu.warp x.w).trans (issuing_spec h.1).2.1)
  rw [hb]
  unfold Ix.issueStores
  dsimp only
  rw [hu.collRoom, room_false hroom]
  simp only [hu.pstore]
  rfl

theorem memBytes_eq (z : BitVec 2) : memBytes z.toNat = [1, 2, 4, 16].getD z.toNat 0 := by revert z; decide
theorem memBytes_bool (z : Bool) : memBytes z.toNat = [1, 2, 4, 16].getD z.toNat 0 := by revert z; decide
theorem memBytes_pos (z : Nat) : 0 < memBytes z := by unfold memBytes; split <;> decide
theorem dst_eq (d : BitVec 7) (z : BitVec 2) : loadDst d z.toNat = if z = 3 then .group d.toNat 4 4 else .reg d.toNat := by
  unfold loadDst
  by_cases h : z = 3
  · subst h; rfl
  · rw [if_neg h, if_neg]; intro hc; exact h (by bv_omega)
theorem dst_bool (d : BitVec 7) (z : Bool) : loadDst d z.toNat = .reg d.toNat := by cases z <;> rfl
theorem regs_eq (z : BitVec 2) : memRegs z.toNat = if z = 3 then 4 else 1 := by revert z; decide
theorem regs_bool (z : Bool) : memRegs z.toNat = 1 := by revert z; decide
theorem gaddr_eq (x : Ix) (a : BitVec 7) (off l : Nat) : x.gaddr a off l = ((x.srcPair a.toNat l).toNat + off) % 2 ^ 56 := by
  unfold Ix.gaddr
  exact Nat.mod_mod_of_dvd _ (by decide)

theorem sext_eq (w v : Nat) (hw : 0 < w) : sext w v = (BitVec.ofNat w v).toInt := by
  have h2 : 2 ^ w = 2 * 2 ^ (w - 1) := by
    obtain ⟨k, rfl⟩ : ∃ k, w = k + 1 := ⟨w - 1, by omega⟩
    rw [Nat.pow_succ]; simp; omega
  unfold sext
  rw [BitVec.toInt_eq_toNat_cond, BitVec.toNat_ofNat]
  have : (v % 2 ^ w < 2 ^ (w - 1)) ↔ 2 * (v % 2 ^ w) < 2 ^ w := by omega
  by_cases h : v % 2 ^ w < 2 ^ (w - 1)
  · simp only [h, this.mp h, if_true]
  · have h3 : ¬ 2 * (v % 2 ^ w) < 2 ^ w := fun hc => h (this.mpr hc)
    simp only [h, h3, if_false]

theorem terase_none {α : Type} {t : Table α} {i : Nat} (h : ∀ e ∈ t, e.1 ≠ i) : terase t i = t := by
  induction t with
  | nil => rfl
  | cons e t ih =>
    obtain ⟨k, v⟩ := e
    have hk : k ≠ i := h (k, v) (by simp)
    rw [terase, if_neg hk, ih fun e he => h e (by simp [he])]

theorem terase_tinsert {α : Type} {t : Table α} {i : Nat} {x : α} (h : ∀ e ∈ t, e.1 ≠ i) : terase (tinsert t i x) i = t := by
  induction t with
  | nil => simp [tinsert, terase]
  | cons e t ih =>
    obtain ⟨k, v⟩ := e
    have hk : k ≠ i := h (k, v) (by simp)
    unfold tinsert
    split
    · rw [terase, if_pos rfl, terase_none h]
    · rw [terase, if_neg hk, ih fun e he => h e (by simp [he])]

theorem tput_tput {α : Type} [DecidableEq α] (d : α) (t : Table α) (i : Nat) (x y : α) : tput d (tput d t i x) i y = tput d t i y := by
  have hk := fun e he => (terase_keys t i e he).1
  have : terase (tput d t i x) i = terase t i := by
    unfold tput
    split
    · exact terase_none hk
    · exact terase_tinsert hk
  unfold tput at this ⊢
  rw [this]

theorem setWarp_setWarp (s : State) (w : Nat) (A B : Warp) : (s.setWarp w A).setWarp w B = s.setWarp w B := by
  unfold State.setWarp; rw [tput_tput]

theorem leBytes_length : ∀ n v, (leBytes n v).length = n
  | 0, _ => rfl
  | n + 1, v => by simp [leBytes, leBytes_length n]

theorem leBytes_get : ∀ n v j, j < n → (leBytes n v)[j]? = some (BitVec.ofNat 8 (v / 256 ^ j))
  | 0, _, _, h => absurd h (by omega)
  | n + 1, v, 0, _ => by simp [leBytes]
  | n + 1, v, j + 1, h => by
    rw [leBytes, List.getElem?_cons_succ, leBytes_get n (v / 256) j (by omega), Nat.div_div_eq_div_mul, Nat.pow_succ']

theorem putBytes_get (k : Nat) : ∀ (bs : List Byte) (t : Table Byte) (i : Nat),
    tget 0 (Prod.fst (List.foldl (fun (r : Table Byte × Nat) (b : Byte) => ((tput 0 r.1 r.2 b, r.2 + 1) : Table Byte × Nat)) (t, i) bs)) k =
      if i ≤ k ∧ k < i + bs.length then (bs[k - i]?).getD 0 else tget 0 t k
  | [], t, i => by simp
  | b :: bs, t, i => by
    rw [List.foldl_cons, putBytes_get k bs, tget_tput]
    by_cases h : k = i
    · subst h
      rw [if_neg (by omega), if_pos rfl, if_pos (by simp)]
      simp
    · by_cases h2 : i ≤ k ∧ k < i + (b :: bs).length
      · have : i + 1 ≤ k ∧ k < i + 1 + bs.length := by simp only [List.length_cons] at h2; omega
        rw [if_pos this, if_pos h2]
        obtain ⟨j, rfl⟩ : ∃ j, k = i + 1 + j := ⟨k - (i + 1), by omega⟩
        have e1 : i + 1 + j - (i + 1) = j := by omega
        have e2 : i + 1 + j - i = j + 1 := by omega
        rw [e1, e2, List.getElem?_cons_succ]
      · have : ¬ (i + 1 ≤ k ∧ k < i + 1 + bs.length) := by simp only [List.length_cons] at h2; omega
        rw [if_neg this, if_neg h, if_neg h2]

theorem scratchPut_get (s : State) (a : Nat × Nat × Nat) (n v k : Nat) :
    tget 0 (s.scratchPut a (leBytes n v)).scratch k =
      if scratchKey a ≤ k ∧ k < scratchKey a + n then BitVec.ofNat 8 (v / 256 ^ (k - scratchKey a)) else tget 0 s.scratch k := by
  refine Eq.trans (putBytes_get k (leBytes n v) s.scratch (scratchKey a)) ?_
  rw [leBytes_length]
  by_cases h : scratchKey a ≤ k ∧ k < scratchKey a + n
  · rw [if_pos h, if_pos h, leBytes_get _ _ _ (by omega)]; rfl
  · rw [if_neg h, if_neg h]

theorem scratchStores_spec (n : Nat) (v : Nat → Nat) : ∀ (as : List (Nat × Nat × Nat × Nat)) (s : State),
    let u := as.foldl (fun s p => s.scratchStore p.2 (leBytes n (v p.1))) s
    u = { s with scratch := u.scratch, empty := u.empty } ∧
    (∀ k, tget 0 u.scratch k = as.foldl (fun b p => if scratchKey p.2 ≤ k ∧ k < scratchKey p.2 + n then
          BitVec.ofNat 8 (v p.1 / 256 ^ (k - scratchKey p.2)) else b) (tget 0 s.scratch k)) ∧
    ∀ j, tget false u.empty j = if ∃ p ∈ as, lineKey p.2 = j then false else tget false s.empty j
  | [], s => ⟨rfl, fun _ => rfl, fun _ => by simp⟩
  | p :: as, s => by
    obtain ⟨h1, h2, h3⟩ := scratchStores_spec n v as (s.scratchStore p.2 (leBytes n (v p.1)))
    simp only [List.foldl_cons]
    refine ⟨by rw [h1]; rfl, fun k => ?_, fun j => ?_⟩
    · rw [h2 k]
      have : tget 0 (s.scratchStore p.2 (leBytes n (v p.1))).scratch k = _ := scratchPut_get s p.2 n (v p.1) k
      rw [this]
    · rw [h3 j]
      have : tget false (s.scratchStore p.2 (leBytes n (v p.1))).empty j = if j = lineKey p.2 then false else tget false s.empty j := by
        show tget false (tput false s.empty (lineKey p.2) false) j = _
        rw [tget_tput]
      rw [this]
      by_cases hj : ∃ q ∈ as, lineKey q.2 = j
      · rw [if_pos hj, if_pos]; obtain ⟨q, hq, he⟩ := hj; exact ⟨q, by simp [hq], he⟩
      · rw [if_neg hj]
        by_cases hk : j = lineKey p.2
        · rw [if_pos hk, if_pos ⟨p, by simp, hk.symm⟩]
        · rw [if_neg hk, if_neg]
          rintro ⟨q, hq, he⟩
          rcases List.mem_cons.mp hq with rfl | hq
          · exact hk he.symm
          · exact hj ⟨q, hq, he⟩

/-- Lines made empty by the lanes of an EMPTY: only their bits, and the loads that had found them full, differ. -/
theorem empties_spec : ∀ (as : List (Nat × Nat × Nat × Nat)) (s : State),
    let u := as.foldl (fun s p => s.setEmpty p.2 true) s
    u = { s with empty := u.empty, loads := u.loads } ∧
    u.loads = (as.foldl (fun s p => s.settle fun loc => isScratch loc && decide (locLine loc = lineKey p.2)) s).loads ∧
    ∀ j, tget false u.empty j = if ∃ p ∈ as, lineKey p.2 = j then true else tget false s.empty j
  | [], s => ⟨rfl, rfl, fun _ => by simp⟩
  | p :: as, s => by
    obtain ⟨h1, h2, h3⟩ := empties_spec as (s.setEmpty p.2 true)
    simp only [List.foldl_cons]
    refine ⟨by rw [h1]; rfl, ?_, fun j => ?_⟩
    · rw [h2]
      have : ∀ (l : List (Nat × Nat × Nat × Nat)) (a b : State), a = { b with empty := a.empty } →
          (l.foldl (fun s p => s.settle fun loc => isScratch loc && decide (locLine loc = lineKey p.2)) a).loads =
          (l.foldl (fun s p => s.settle fun loc => isScratch loc && decide (locLine loc = lineKey p.2)) b).loads := fun l => by
        induction l with
        | nil => intro a b h; rw [h]; rfl
        | cons q l ih => intro a b h; exact ih _ _ (by rw [h]; rfl)
      exact this as _ _ rfl
    rw [h3 j]
    have : tget false (s.setEmpty p.2 true).empty j = if j = lineKey p.2 then true else tget false s.empty j := by
      show tget false (tput false s.empty (lineKey p.2) true) j = _
      rw [tget_tput]
    rw [this]
    by_cases hj : ∃ q ∈ as, lineKey q.2 = j
    · rw [if_pos hj, if_pos]; obtain ⟨q, hq, he⟩ := hj; exact ⟨q, by simp [hq], he⟩
    · rw [if_neg hj]
      by_cases hk : j = lineKey p.2
      · rw [if_pos hk, if_pos ⟨p, by simp, hk.symm⟩]
      · rw [if_neg hk, if_neg]
        rintro ⟨q, hq, he⟩
        rcases List.mem_cons.mp hq with rfl | hq
        · exact hk he.symm
        · exact hj ⟨q, hq, he⟩

theorem scratchAcc_lanes {x : Ix} {s n lanes off as} (h : x.scratchAcc s n lanes off = .ok as) :
    List.Forall₂ (fun l e => e.1 = l ∧ x.T.scratchAt (off l) n = some e.2) lanes as := by
  unfold Ix.scratchAcc at h
  split at h
  · cases h
  · split at h
    · cases h
    · next as' hm =>
      split at h
      · cases h
      · cases h
        refine List.Forall₂.imp (fun l e he => ?_) (mapM_ok hm)
        split at he
        · next a ha =>
          cases he
          split at ha
          · exact ⟨rfl, ha⟩
          · cases ha
        · cases he

theorem join4 {a b c e : Nat} (hb : b < 2 ^ 32) (hc : c < 2 ^ 32) (he : e < 2 ^ 32) :
    ((a <<< 32 ||| b) <<< 32 ||| c) <<< 32 ||| e = e + b * 2 ^ 64 + c * 2 ^ 32 + a * 2 ^ 96 := by
  rw [← Nat.shiftLeft_add_eq_or_of_lt hb, ← Nat.shiftLeft_add_eq_or_of_lt hc, ← Nat.shiftLeft_add_eq_or_of_lt he]
  simp only [Nat.shiftLeft_eq]
  have e1 : (2:Nat) ^ 64 = 2 ^ 32 * 2 ^ 32 := by norm_num
  have e2 : (2:Nat) ^ 96 = 2 ^ 32 * 2 ^ 32 * 2 ^ 32 := by norm_num
  rw [e1, e2]
  generalize (2:Nat) ^ 32 = m
  ring

theorem fold4 (f : Nat → Nat → Nat) : (List.range 4).foldl f 0 = f (f (f (f 0 0) 1) 2) 3 := rfl

theorem storeVal_eq (x : Ix) (d : BitVec 7) (z : BitVec 2) (l : Nat) : x.storeVal d z.toNat l =
    if z = 3 then (x.W.reg l (d.toNat + 3) ++ x.W.reg l (d.toNat + 2) ++ x.W.reg l (d.toNat + 1) ++ x.W.reg l d.toNat : BitVec 128).toNat else (x.src d.toNat l).toNat := by
  unfold Ix.storeVal
  by_cases h : z = 3
  · have hz : z.toNat = 3 := by rw [h]; rfl
    rw [if_pos h, if_pos hz]
    have h0 := (x.W.reg l d.toNat).isLt
    have h1 := (x.W.reg l (d.toNat + 1)).isLt
    have h2 := (x.W.reg l (d.toNat + 2)).isLt
    rw [BitVec.toNat_append, BitVec.toNat_append, BitVec.toNat_append, join4 h2 h1 h0]
    rw [fold4]
    simp only [Nat.add_zero, Nat.mul_zero, Nat.pow_zero, Nat.mul_one, Nat.zero_add, Nat.reduceMul]
    omega
  · rw [if_neg h, if_neg]; intro hc; exact h (by bv_omega)

theorem src_eq (d : BitVec 7) (z : BitVec 2) : storeSrc d z.toNat = if z = 3 then .group d.toNat 4 4 else .src d.toNat := by
  unfold storeSrc
  by_cases h : z = 3
  · subst h; rfl
  · rw [if_neg h, if_neg]; intro hc; exact h (by bv_omega)


end Sys2Proof.Machine
end

