-- ==== Sys2Proof/Laws/Loads.lean ====
section
/-! SUPPORT. Reading memory: sharing lines and filling caches change no byte, and what reading the accesses of an instruction
gives. -/

namespace Sys2Proof.Machine

set_option Elab.async false

theorem shared_share (s : State) (die l) : Shared s (s.share die l) := (held_share s die l).shared fun _ => byteAt_share _ _ _ _
theorem Shared.loadByte {s t : State} (h : Shared s t) (o : Outst) (a : Nat × Nat) : t.loadByte o a = s.loadByte o a := by
  have e1 : t.l1Line = s.l1Line := by rw [h.1]; rfl
  have e2 : ∀ w l i f, t.storeByte w l i f = s.storeByte w l i f := fun w l i f => by rw [h.1]; rfl
  have e3 : t.atVa = s.atVa := by rw [h.1]; rfl
  have e4 : t.locByte = s.locByte := by
    funext loc
    unfold State.locByte
    rw [h.2, h.1]
  unfold State.loadByte
  rw [e1, e3, e4]
  simp only [e2]
/-- Reading accesses to reachable memory, in order. -/
theorem readAll_mem {x : Ix} : ∀ {as : List MemAcc} {s : State}, (∀ a ∈ as, uncached a.pa = false ∧ a.pas.all s.reaches = true) →
    ∃ s1, x.readAll s as = .ok (s1, as.map fun a => leNat ((a.vas.zip a.pas).map (s.loadByte { x.outst s 0 a false false 0 0 with nc := true }))) ∧ Shared s s1
  | [], s, _ => ⟨s, rfl, Shared.refl s⟩
  | a :: as, s, h => by
    have h1 := shared_shareBytes s (s.dieOf x.core) a.pas
    obtain ⟨s2, h2, h3⟩ := readAll_mem (x := x) (as := as) (s := s.shareBytes (s.dieOf x.core) a.pas) fun b hb => by
      have := h b (by simp [hb])
      refine ⟨this.1, ?_⟩
      rw [show (s.shareBytes (s.dieOf x.core) a.pas).reaches = s.reaches from funext h1.reaches]
      exact this.2
    refine ⟨s2, ?_, h1.trans h3⟩
    unfold Ix.readAll Ix.readAt Ix.readNow
    rw [if_neg (by rw [(h a (by simp)).1]; decide), if_pos (h a (by simp)).2]
    simp only
    rw [h2]
    refine congrArg (fun l => Except.ok (s2, leNat _ :: l)) (List.map_congr_left fun b _ => congrArg leNat (List.map_congr_left fun e _ => ?_))
    rw [h1.loadByte, h1.outst]

theorem readNow_mem {x : Ix} {s : State} {a : MemAcc} {bs} (h : x.readNow s a = some bs) :
    a.pas.all s.reaches = true ∧ (a.vas.zip a.pas).map (s.loadByte { x.outst s 0 a false false 0 0 with nc := true }) = bs := by
  unfold Ix.readNow at h
  split at h
  · next hr => exact ⟨hr, Option.some.inj h⟩
  · cases h

theorem Cached.refl (s : State) : Cached s s := ⟨rfl, fun _ => rfl⟩
theorem Cached.trans {s t u : State} (h : Cached s t) (k : Cached t u) : Cached s u :=
  ⟨by rw [k.1, h.1], fun pa => (k.2 pa).trans (h.2 pa)⟩
theorem Shared.cached {s t : State} (h : Shared s t) : Cached s t := ⟨by rw [h.1], h.2⟩
theorem cached_l1Fill (s : State) (c x v p) : Cached s (s.l1Fill c x v p) := ⟨rfl, fun _ => rfl⟩
theorem cached_l1Drop (s : State) (c f) : Cached s (s.l1Drop c f) := ⟨rfl, fun _ => rfl⟩
theorem cached_foldl {β : Type} {f : State → β → State} (h : ∀ s b, Cached s (f s b)) : ∀ (l : List β) (s : State), Cached s (l.foldl f s)
  | [], s => Cached.refl s
  | b :: l, s => (h s b).trans (cached_foldl h l (f s b))

theorem cached_fillFor (s : State) (o : Outst) : Cached s (s.fillFor o) := by
  unfold State.fillFor
  refine cached_foldl (fun s a => ?_) _ _
  dsimp only
  split
  · exact Cached.refl s
  · split
    · split
      · exact (shared_share _ _ _).cached
      · exact (shared_share _ _ _).cached.trans (cached_l1Fill _ _ _ _ _)
    · exact Cached.refl s

theorem filter_map_eq {α β : Type} (g : α → β) (p : β → Bool) (q : α → Bool) : ∀ (l : List α), (∀ a ∈ l, p (g a) = q a) →
    (l.map g).filter p = (l.filter q).map g
  | [], _ => rfl
  | a :: l, h => by
    have ih := filter_map_eq g p q l fun b hb => h b (by simp [hb])
    have ha := h a (by simp)
    rw [List.map_cons, List.filter_cons, List.filter_cons, ha, ih]
    split <;> rfl

theorem zip_map_self {α β : Type} (f : α → β) : ∀ l : List α, l.zip (l.map f) = l.map fun a => (a, f a)
  | [] => rfl
  | a :: l => by simp [zip_map_self f l]

theorem zipIdx_map {α β : Type} (g : α → β) : ∀ (l : List α) (k : Nat), (l.map g).zipIdx k = (l.zipIdx k).map fun e => (g e.1, e.2)
  | [], _ => rfl
  | a :: l, k => by simp [zipIdx_map g l]

theorem acquire_eq (x : Ix) (s : State) (sc : Nat) : x.acquire s sc = { s with l1 := (x.acquire s sc).l1 } := by
  unfold Ix.acquire; split <;> rfl

end Sys2Proof.Machine
end

