-- ==== Sys2Proof/Laws/PerInstr.lean ====
section
/-! SUPPORT. Laws made per instruction: the first word of every instruction that has words is a 32-bit word (02 R41). -/

namespace Sys2Proof.Laws.Words

set_option Elab.async false

/-- The first word of the instruction is a 32-bit word. -/
def Statement (i : Instr) : Prop := i.isWord = true → i.word1 < 2 ^ 32

theorem fits {x y z r : Nat} (hx : x < 256) (hy : y ≤ 1) (hz : z ≤ 1) (hr : r < 2097152) :
    x * 2097152 + y * 1073741824 + z * 536870912 + r < 4294967296 := by omega

theorem lane {op d a b : Nat} {e n : Bool} (ho : op < 256) (h : d * 2 ^ 14 + a * 2 ^ 7 + b < 2 ^ 21) :
    laneWord op e n d a b < 2 ^ 32 := by
  have h1 : laneWord op e n d a b = op * 2097152 + e.toNat * 1073741824 + n.toNat * 536870912 + (d * 2 ^ 14 + a * 2 ^ 7 + b) := by
    simp only [laneWord, Nat.add_assoc, Nat.reducePow]
  exact Nat.lt_of_le_of_lt (Nat.le_of_eq h1) (fits ho e.toNat_le n.toNat_le h)

theorem uni {op d a b f : Nat} {e : Bool} (ho : op < 128) (h : d * 2 ^ 16 + a * 2 ^ 10 + b * 2 ^ 4 + f < 2 ^ 22) :
    uniWord op e d a b f < 2 ^ 32 := by
  have := Bool.toNat_le e
  unfold uniWord
  omega

theorem iadd (e n : Bool) (p : Option Pfx) (d a b : BitVec 7) : Statement (.iadd e n p d a b) :=
    fun _ => lane (by omega) (by have := d.isLt; have := a.isLt; have := b.isLt; omega)

theorem isub (e n : Bool) (p : Option Pfx) (d a b : BitVec 7) : Statement (.isub e n p d a b) :=
    fun _ => lane (by omega) (by have := d.isLt; have := a.isLt; have := b.isLt; omega)

theorem imul (e n : Bool) (p : Option Pfx) (d a b : BitVec 7) : Statement (.imul e n p d a b) :=
    fun _ => lane (by omega) (by have := d.isLt; have := a.isLt; have := b.isLt; omega)

theorem imulhs (e n : Bool) (p : Option Pfx) (d a b : BitVec 7) : Statement (.imulhs e n p d a b) :=
    fun _ => lane (by omega) (by have := d.isLt; have := a.isLt; have := b.isLt; omega)

theorem imulhz (e n : Bool) (p : Option Pfx) (d a b : BitVec 7) : Statement (.imulhz e n p d a b) :=
    fun _ => lane (by omega) (by have := d.isLt; have := a.isLt; have := b.isLt; omega)

theorem imad (e n : Bool) (p : Option Pfx) (d a b : BitVec 7) : Statement (.imad e n p d a b) :=
    fun _ => lane (by omega) (by have := d.isLt; have := a.isLt; have := b.isLt; omega)

theorem imadw (e n : Bool) (p : Option Pfx) (d a b : BitVec 7) : Statement (.imadw e n p d a b) :=
    fun _ => lane (by omega) (by have := d.isLt; have := a.isLt; have := b.isLt; omega)

theorem imin (e n : Bool) (p : Option Pfx) (d a b : BitVec 7) : Statement (.imin e n p d a b) :=
    fun _ => lane (by omega) (by have := d.isLt; have := a.isLt; have := b.isLt; omega)

theorem imax (e n : Bool) (p : Option Pfx) (d a b : BitVec 7) : Statement (.imax e n p d a b) :=
    fun _ => lane (by omega) (by have := d.isLt; have := a.isLt; have := b.isLt; omega)

theorem iminz (e n : Bool) (p : Option Pfx) (d a b : BitVec 7) : Statement (.iminz e n p d a b) :=
    fun _ => lane (by omega) (by have := d.isLt; have := a.isLt; have := b.isLt; omega)

theorem imaxz (e n : Bool) (p : Option Pfx) (d a b : BitVec 7) : Statement (.imaxz e n p d a b) :=
    fun _ => lane (by omega) (by have := d.isLt; have := a.isLt; have := b.isLt; omega)

theorem iabs (e n : Bool) (p : Option Pfx) (d a : BitVec 7) : Statement (.iabs e n p d a) :=
    fun _ => lane (by omega) (by have := d.isLt; have := a.isLt; omega)

theorem ineg (e n : Bool) (p : Option Pfx) (d a : BitVec 7) : Statement (.ineg e n p d a) :=
    fun _ => lane (by omega) (by have := d.isLt; have := a.isLt; omega)

theorem add64 (e n : Bool) (p : Option Pfx) (d a b : BitVec 7) : Statement (.add64 e n p d a b) :=
    fun _ => lane (by omega) (by have := d.isLt; have := a.isLt; have := b.isLt; omega)

theorem sub64 (e n : Bool) (p : Option Pfx) (d a b : BitVec 7) : Statement (.sub64 e n p d a b) :=
    fun _ => lane (by omega) (by have := d.isLt; have := a.isLt; have := b.isLt; omega)

theorem lea (e n : Bool) (p : Option Pfx) (d a b : BitVec 7) : Statement (.lea e n p d a b) :=
    fun _ => lane (by omega) (by have := d.isLt; have := a.isLt; have := b.isLt; omega)

theorem iaddi (e n : Bool) (p : Option Pfx) (d a i : BitVec 7) : Statement (.iaddi e n p d a i) :=
    fun _ => lane (by omega) (by have := d.isLt; have := a.isLt; have := i.isLt; omega)

theorem and (e n : Bool) (p : Option Pfx) (d a b : BitVec 7) : Statement (.and e n p d a b) :=
    fun _ => lane (by omega) (by have := d.isLt; have := a.isLt; have := b.isLt; omega)

theorem or (e n : Bool) (p : Option Pfx) (d a b : BitVec 7) : Statement (.or e n p d a b) :=
    fun _ => lane (by omega) (by have := d.isLt; have := a.isLt; have := b.isLt; omega)

theorem xor (e n : Bool) (p : Option Pfx) (d a b : BitVec 7) : Statement (.xor e n p d a b) :=
    fun _ => lane (by omega) (by have := d.isLt; have := a.isLt; have := b.isLt; omega)

theorem andn (e n : Bool) (p : Option Pfx) (d a b : BitVec 7) : Statement (.andn e n p d a b) :=
    fun _ => lane (by omega) (by have := d.isLt; have := a.isLt; have := b.isLt; omega)

theorem not (e n : Bool) (p : Option Pfx) (d a : BitVec 7) : Statement (.not e n p d a) :=
    fun _ => lane (by omega) (by have := d.isLt; have := a.isLt; omega)

theorem andi (e n : Bool) (p : Option Pfx) (d a i : BitVec 7) : Statement (.andi e n p d a i) :=
    fun _ => lane (by omega) (by have := d.isLt; have := a.isLt; have := i.isLt; omega)

theorem ori (e n : Bool) (p : Option Pfx) (d a i : BitVec 7) : Statement (.ori e n p d a i) :=
    fun _ => lane (by omega) (by have := d.isLt; have := a.isLt; have := i.isLt; omega)

theorem xori (e n : Bool) (p : Option Pfx) (d a i : BitVec 7) : Statement (.xori e n p d a i) :=
    fun _ => lane (by omega) (by have := d.isLt; have := a.isLt; have := i.isLt; omega)

theorem mov (e n : Bool) (p : Option Pfx) (d a : BitVec 7) (w : Bool) : Statement (.mov e n p d a w) :=
    fun _ => lane (by omega) (by have := d.isLt; have := a.isLt; have := w.toNat_le; omega)

theorem movk (e n : Bool) (d : BitVec 7) (i : BitVec 14) : Statement (.movk e n d i) :=
    fun _ => lane (by omega) (by have := d.isLt; have := i.isLt; omega)

theorem movkLiteral (e n : Bool) (d : BitVec 7) (lit : BitVec 32) : Statement (.movkLiteral e n d lit) :=
    fun _ => lane (by omega) (by have := d.isLt; omega)

theorem movs (e n : Bool) (d i : BitVec 7) : Statement (.movs e n d i) :=
    fun _ => lane (by omega) (by have := d.isLt; have := i.isLt; omega)

theorem shl (e n : Bool) (p : Option Pfx) (d a b : BitVec 7) : Statement (.shl e n p d a b) :=
    fun _ => lane (by omega) (by have := d.isLt; have := a.isLt; have := b.isLt; omega)

theorem shr (e n : Bool) (p : Option Pfx) (d a b : BitVec 7) : Statement (.shr e n p d a b) :=
    fun _ => lane (by omega) (by have := d.isLt; have := a.isLt; have := b.isLt; omega)

theorem sar (e n : Bool) (p : Option Pfx) (d a b : BitVec 7) : Statement (.sar e n p d a b) :=
    fun _ => lane (by omega) (by have := d.isLt; have := a.isLt; have := b.isLt; omega)

theorem rol (e n : Bool) (p : Option Pfx) (d a b : BitVec 7) : Statement (.rol e n p d a b) :=
    fun _ => lane (by omega) (by have := d.isLt; have := a.isLt; have := b.isLt; omega)

theorem shli (e n : Bool) (p : Option Pfx) (d a : BitVec 7) (i : BitVec 5) : Statement (.shli e n p d a i) :=
    fun _ => lane (by omega) (by have := d.isLt; have := a.isLt; have := i.isLt; omega)

theorem shri (e n : Bool) (p : Option Pfx) (d a : BitVec 7) (i : BitVec 5) : Statement (.shri e n p d a i) :=
    fun _ => lane (by omega) (by have := d.isLt; have := a.isLt; have := i.isLt; omega)

theorem sari (e n : Bool) (p : Option Pfx) (d a : BitVec 7) (i : BitVec 5) : Statement (.sari e n p d a i) :=
    fun _ => lane (by omega) (by have := d.isLt; have := a.isLt; have := i.isLt; omega)

theorem bfx (e n : Bool) (p : Option Pfx) (d a b : BitVec 7) : Statement (.bfx e n p d a b) :=
    fun _ => lane (by omega) (by have := d.isLt; have := a.isLt; have := b.isLt; omega)

theorem bfxs (e n : Bool) (p : Option Pfx) (d a b : BitVec 7) : Statement (.bfxs e n p d a b) :=
    fun _ => lane (by omega) (by have := d.isLt; have := a.isLt; have := b.isLt; omega)

theorem bfi (e n : Bool) (p : Option Pfx) (d a b : BitVec 7) : Statement (.bfi e n p d a b) :=
    fun _ => lane (by omega) (by have := d.isLt; have := a.isLt; have := b.isLt; omega)

theorem popc (e n : Bool) (p : Option Pfx) (d a : BitVec 7) : Statement (.popc e n p d a) :=
    fun _ => lane (by omega) (by have := d.isLt; have := a.isLt; omega)

theorem clz (e n : Bool) (p : Option Pfx) (d a : BitVec 7) : Statement (.clz e n p d a) :=
    fun _ => lane (by omega) (by have := d.isLt; have := a.isLt; omega)

theorem brev (e n : Bool) (p : Option Pfx) (d a : BitVec 7) : Statement (.brev e n p d a) :=
    fun _ => lane (by omega) (by have := d.isLt; have := a.isLt; omega)

theorem iset (e : Bool) (p : Option Pfx) (w : Bool) (c k : BitVec 3) (a b : BitVec 7) : Statement (.iset e p w c k a b) :=
    fun _ => lane (by omega) (by have := w.toNat_le; have := c.isLt; have := k.isLt; have := a.isLt; have := b.isLt; omega)

theorem isetz (e : Bool) (p : Option Pfx) (w : Bool) (c k : BitVec 3) (a b : BitVec 7) : Statement (.isetz e p w c k a b) :=
    fun _ => lane (by omega) (by have := w.toNat_le; have := c.isLt; have := k.isLt; have := a.isLt; have := b.isLt; omega)

theorem fset (e : Bool) (p : Option Pfx) (c : BitVec 4) (k : BitVec 3) (a b : BitVec 7) : Statement (.fset e p c k a b) :=
    fun _ => lane (by omega) (by have := c.isLt; have := k.isLt; have := a.isLt; have := b.isLt; omega)

theorem sel (e n : Bool) (k : BitVec 3) (d a b : BitVec 7) : Statement (.sel e n k d a b) :=
    fun _ => lane (by omega) (by have := d.isLt; have := a.isLt; have := b.isLt; omega)

theorem fclass (e n : Bool) (p : Option Pfx) (d a t : BitVec 7) : Statement (.fclass e n p d a t) :=
    fun _ => lane (by omega) (by have := d.isLt; have := a.isLt; have := t.isLt; omega)

theorem fadd (e n : Bool) (p : Option Pfx) (d a b : BitVec 7) : Statement (.fadd e n p d a b) :=
    fun _ => lane (by omega) (by have := d.isLt; have := a.isLt; have := b.isLt; omega)

theorem fsub (e n : Bool) (p : Option Pfx) (d a b : BitVec 7) : Statement (.fsub e n p d a b) :=
    fun _ => lane (by omega) (by have := d.isLt; have := a.isLt; have := b.isLt; omega)

theorem fmul (e n : Bool) (p : Option Pfx) (d a b : BitVec 7) : Statement (.fmul e n p d a b) :=
    fun _ => lane (by omega) (by have := d.isLt; have := a.isLt; have := b.isLt; omega)

theorem ffma (e n : Bool) (p : Option Pfx) (d a b : BitVec 7) : Statement (.ffma e n p d a b) :=
    fun _ => lane (by omega) (by have := d.isLt; have := a.isLt; have := b.isLt; omega)

theorem fmin (e n : Bool) (p : Option Pfx) (d a b : BitVec 7) : Statement (.fmin e n p d a b) :=
    fun _ => lane (by omega) (by have := d.isLt; have := a.isLt; have := b.isLt; omega)

theorem fmax (e n : Bool) (p : Option Pfx) (d a b : BitVec 7) : Statement (.fmax e n p d a b) :=
    fun _ => lane (by omega) (by have := d.isLt; have := a.isLt; have := b.isLt; omega)

theorem fabs (e n : Bool) (p : Option Pfx) (d a : BitVec 7) : Statement (.fabs e n p d a) :=
    fun _ => lane (by omega) (by have := d.isLt; have := a.isLt; omega)

theorem fneg (e n : Bool) (p : Option Pfx) (d a : BitVec 7) : Statement (.fneg e n p d a) :=
    fun _ => lane (by omega) (by have := d.isLt; have := a.isLt; omega)

theorem frnd (e n : Bool) (p : Option Pfx) (d a : BitVec 7) : Statement (.frnd e n p d a) :=
    fun _ => lane (by omega) (by have := d.isLt; have := a.isLt; omega)

theorem fscl (e n : Bool) (p : Option Pfx) (d a b : BitVec 7) : Statement (.fscl e n p d a b) :=
    fun _ => lane (by omega) (by have := d.isLt; have := a.isLt; have := b.isLt; omega)

theorem fexp (e n : Bool) (p : Option Pfx) (d a : BitVec 7) : Statement (.fexp e n p d a) :=
    fun _ => lane (by omega) (by have := d.isLt; have := a.isLt; omega)

theorem hadd2 (e n : Bool) (p : Option Pfx) (d a b : BitVec 7) : Statement (.hadd2 e n p d a b) :=
    fun _ => lane (by omega) (by have := d.isLt; have := a.isLt; have := b.isLt; omega)

theorem hmul2 (e n : Bool) (p : Option Pfx) (d a b : BitVec 7) : Statement (.hmul2 e n p d a b) :=
    fun _ => lane (by omega) (by have := d.isLt; have := a.isLt; have := b.isLt; omega)

theorem hfma2 (e n : Bool) (p : Option Pfx) (d a b : BitVec 7) : Statement (.hfma2 e n p d a b) :=
    fun _ => lane (by omega) (by have := d.isLt; have := a.isLt; have := b.isLt; omega)

theorem hmin2 (e n : Bool) (p : Option Pfx) (d a b : BitVec 7) : Statement (.hmin2 e n p d a b) :=
    fun _ => lane (by omega) (by have := d.isLt; have := a.isLt; have := b.isLt; omega)

theorem hmax2 (e n : Bool) (p : Option Pfx) (d a b : BitVec 7) : Statement (.hmax2 e n p d a b) :=
    fun _ => lane (by omega) (by have := d.isLt; have := a.isLt; have := b.isLt; omega)

theorem hdot2 (e n : Bool) (p : Option Pfx) (d a b : BitVec 7) : Statement (.hdot2 e n p d a b) :=
    fun _ => lane (by omega) (by have := d.isLt; have := a.isLt; have := b.isLt; omega)

theorem badd2 (e n : Bool) (p : Option Pfx) (d a b : BitVec 7) : Statement (.badd2 e n p d a b) :=
    fun _ => lane (by omega) (by have := d.isLt; have := a.isLt; have := b.isLt; omega)

theorem bmul2 (e n : Bool) (p : Option Pfx) (d a b : BitVec 7) : Statement (.bmul2 e n p d a b) :=
    fun _ => lane (by omega) (by have := d.isLt; have := a.isLt; have := b.isLt; omega)

theorem bfma2 (e n : Bool) (p : Option Pfx) (d a b : BitVec 7) : Statement (.bfma2 e n p d a b) :=
    fun _ => lane (by omega) (by have := d.isLt; have := a.isLt; have := b.isLt; omega)

theorem bmin2 (e n : Bool) (p : Option Pfx) (d a b : BitVec 7) : Statement (.bmin2 e n p d a b) :=
    fun _ => lane (by omega) (by have := d.isLt; have := a.isLt; have := b.isLt; omega)

theorem bmax2 (e n : Bool) (p : Option Pfx) (d a b : BitVec 7) : Statement (.bmax2 e n p d a b) :=
    fun _ => lane (by omega) (by have := d.isLt; have := a.isLt; have := b.isLt; omega)

theorem bdot2 (e n : Bool) (p : Option Pfx) (d a b : BitVec 7) : Statement (.bdot2 e n p d a b) :=
    fun _ => lane (by omega) (by have := d.isLt; have := a.isLt; have := b.isLt; omega)

theorem rcp (e n : Bool) (p : Option Pfx) (d a : BitVec 7) : Statement (.rcp e n p d a) :=
    fun _ => lane (by omega) (by have := d.isLt; have := a.isLt; omega)

theorem rsq (e n : Bool) (p : Option Pfx) (d a : BitVec 7) : Statement (.rsq e n p d a) :=
    fun _ => lane (by omega) (by have := d.isLt; have := a.isLt; omega)

theorem sqrt (e n : Bool) (p : Option Pfx) (d a : BitVec 7) : Statement (.sqrt e n p d a) :=
    fun _ => lane (by omega) (by have := d.isLt; have := a.isLt; omega)

theorem exp2 (e n : Bool) (p : Option Pfx) (d a : BitVec 7) : Statement (.exp2 e n p d a) :=
    fun _ => lane (by omega) (by have := d.isLt; have := a.isLt; omega)

theorem log2 (e n : Bool) (p : Option Pfx) (d a : BitVec 7) : Statement (.log2 e n p d a) :=
    fun _ => lane (by omega) (by have := d.isLt; have := a.isLt; omega)

theorem sin (e n : Bool) (p : Option Pfx) (d a : BitVec 7) : Statement (.sin e n p d a) :=
    fun _ => lane (by omega) (by have := d.isLt; have := a.isLt; omega)

theorem cos (e n : Bool) (p : Option Pfx) (d a : BitVec 7) : Statement (.cos e n p d a) :=
    fun _ => lane (by omega) (by have := d.isLt; have := a.isLt; omega)

theorem tanh (e n : Bool) (p : Option Pfx) (d a : BitVec 7) : Statement (.tanh e n p d a) :=
    fun _ => lane (by omega) (by have := d.isLt; have := a.isLt; omega)

theorem cvt (e n : Bool) (p : Option Pfx) (d a : BitVec 7) (r s : Bool) (t : BitVec 5) : Statement (.cvt e n p d a r s t) :=
    fun _ => lane (by omega) (by have := d.isLt; have := a.isLt; have := r.toNat_le; have := s.toNat_le; have := t.isLt; omega)

theorem cvtr (e n : Bool) (p : Option Pfx) (d a : BitVec 7) (i : BitVec 3) (s : Bool) (f : BitVec 2) : Statement (.cvtr e n p d a i s f) :=
    fun _ => lane (by omega) (by have := d.isLt; have := a.isLt; have := i.isLt; have := s.toNat_le; have := f.isLt; omega)

theorem rsdrd (e n : Bool) (d : BitVec 7) (i : BitVec 3) : Statement (.rsdrd e n d i) :=
    fun _ => lane (by omega) (by have := d.isLt; have := i.isLt; omega)

theorem rsdwr (e : Bool) (a : BitVec 7) (i : BitVec 3) : Statement (.rsdwr e a i) :=
    fun _ => lane (by omega) (by have := a.isLt; have := i.isLt; omega)

theorem mxsc (e n : Bool) (p : Option Pfx) (d a : BitVec 7) (f b : BitVec 2) : Statement (.mxsc e n p d a f b) :=
    fun _ => lane (by omega) (by have := d.isLt; have := a.isLt; have := f.isLt; have := b.isLt; omega)

theorem mxq (e n : Bool) (p : Option Pfx) (d a : BitVec 7) (f b : BitVec 2) (s : BitVec 3) : Statement (.mxq e n p d a f b s) :=
    fun _ => lane (by omega) (by have := d.isLt; have := a.isLt; have := f.isLt; have := b.isLt; have := s.isLt; omega)

theorem mxqr (e n : Bool) (p : Option Pfx) (d a : BitVec 7) (f b : BitVec 2) (i : BitVec 3) : Statement (.mxqr e n p d a f b i) :=
    fun _ => lane (by omega) (by have := d.isLt; have := a.isLt; have := f.isLt; have := b.isLt; have := i.isLt; omega)

theorem mxdq (e n : Bool) (p : Option Pfx) (d a : BitVec 7) (f b : BitVec 2) (s : BitVec 3) : Statement (.mxdq e n p d a f b s) :=
    fun _ => lane (by omega) (by have := d.isLt; have := a.isLt; have := f.isLt; have := b.isLt; have := s.isLt; omega)

theorem smxacc (e n : Bool) (p : Option Pfx) (d a b : BitVec 7) : Statement (.smxacc e n p d a b) :=
    fun _ => lane (by omega) (by have := d.isLt; have := a.isLt; have := b.isLt; omega)

theorem smxfin (e n : Bool) (p : Option Pfx) (d a b : BitVec 7) : Statement (.smxfin e n p d a b) :=
    fun _ => lane (by omega) (by have := d.isLt; have := a.isLt; have := b.isLt; omega)

theorem br (o : BitVec 21) : Statement (.br o) := fun _ => lane (by omega) (by have := o.isLt; omega)

theorem brz (a : BitVec 7) (o : BitVec 14) : Statement (.brz a o) :=
    fun _ => lane (by omega) (by have := a.isLt; have := o.isLt; omega)

theorem brnz (a : BitVec 7) (o : BitVec 14) : Statement (.brnz a o) :=
    fun _ => lane (by omega) (by have := a.isLt; have := o.isLt; omega)

theorem brx (a : BitVec 7) : Statement (.brx a) := fun _ => lane (by omega) (by have := a.isLt; omega)

theorem call (o : BitVec 21) : Statement (.call o) := fun _ => lane (by omega) (by have := o.isLt; omega)

theorem callx (a : BitVec 7) : Statement (.callx a) := fun _ => lane (by omega) (by have := a.isLt; omega)

theorem ret : Statement (.ret) := fun _ => lane (by omega) (by omega)

theorem exit : Statement (.exit) := fun _ => lane (by omega) (by omega)

theorem enrol (e : Bool) (j k : BitVec 3) : Statement (.enrol e j k) :=
    fun _ => lane (by omega) (by have := j.isLt; have := k.isLt; omega)

theorem rejoin (j : BitVec 3) : Statement (.rejoin j) := fun _ => lane (by omega) (by have := j.isLt; omega)

theorem strike (e : Bool) (j k : BitVec 3) : Statement (.strike e j k) :=
    fun _ => lane (by omega) (by have := j.isLt; have := k.isLt; omega)

theorem brm (k : BitVec 3) (o : BitVec 14) : Statement (.brm k o) :=
    fun _ => lane (by omega) (by have := k.isLt; have := o.isLt; omega)

theorem vote (e n : Bool) (d a : BitVec 7) (m : BitVec 2) : Statement (.vote e n d a m) :=
    fun _ => lane (by omega) (by have := d.isLt; have := a.isLt; have := m.isLt; omega)

theorem shfl (e n : Bool) (d a b : BitVec 7) : Statement (.shfl e n d a b) :=
    fun _ => lane (by omega) (by have := d.isLt; have := a.isLt; have := b.isLt; omega)

theorem redux (e n : Bool) (d a : BitVec 7) (o : BitVec 3) (f : Bool) : Statement (.redux e n d a o f) :=
    fun _ => lane (by omega) (by have := d.isLt; have := a.isLt; have := o.isLt; have := f.toNat_le; omega)

theorem scan (e n : Bool) (d a : BitVec 7) (o : BitVec 3) (f x : Bool) : Statement (.scan e n d a o f x) :=
    fun _ => lane (by omega) (by have := d.isLt; have := a.isLt; have := o.isLt; have := f.toNat_le; have := x.toNat_le; omega)

theorem matchKeys (e n : Bool) (d a : BitVec 7) (k : BitVec 2) : Statement (.matchKeys e n d a k) :=
    fun _ => lane (by omega) (by have := d.isLt; have := a.isLt; have := k.isLt; omega)

theorem compact (e n : Bool) (d a b : BitVec 7) : Statement (.compact e n d a b) :=
    fun _ => lane (by omega) (by have := d.isLt; have := a.isLt; have := b.isLt; omega)

theorem rdlane (e : Bool) (g : BitVec 6) (a : BitVec 7) (w : Bool) (n : BitVec 6) : Statement (.rdlane e g a w n) :=
    fun _ => lane (by omega) (by have := g.isLt; have := a.isLt; have := w.toNat_le; have := n.isLt; omega)

theorem bcast (e n : Bool) (d : BitVec 7) (g : BitVec 6) (w : Bool) : Statement (.bcast e n d g w) :=
    fun _ => lane (by omega) (by have := d.isLt; have := g.isLt; have := w.toNat_le; omega)

theorem ldg (e : Bool) (d a : BitVec 7) (o : BitVec 5) (z : BitVec 2) : Statement (.ldg e d a o z) :=
    fun _ => lane (by omega) (by have := d.isLt; have := a.isLt; have := o.isLt; have := z.isLt; omega)

theorem ldgs (e : Bool) (d a : BitVec 7) (o : BitVec 5) (z : Bool) : Statement (.ldgs e d a o z) :=
    fun _ => lane (by omega) (by have := d.isLt; have := a.isLt; have := o.isLt; have := z.toNat_le; omega)

theorem lds (e : Bool) (d a : BitVec 7) (o : BitVec 5) (z : BitVec 2) : Statement (.lds e d a o z) :=
    fun _ => lane (by omega) (by have := d.isLt; have := a.isLt; have := o.isLt; have := z.isLt; omega)

theorem ldss (e : Bool) (d a : BitVec 7) (o : BitVec 5) (z : Bool) : Statement (.ldss e d a o z) :=
    fun _ => lane (by omega) (by have := d.isLt; have := a.isLt; have := o.isLt; have := z.toNat_le; omega)

theorem ldp (e : Bool) (d a : BitVec 7) (o : BitVec 5) (z : BitVec 2) : Statement (.ldp e d a o z) :=
    fun _ => lane (by omega) (by have := d.isLt; have := a.isLt; have := o.isLt; have := z.isLt; omega)

theorem ldps (e : Bool) (d a : BitVec 7) (o : BitVec 5) (z : Bool) : Statement (.ldps e d a o z) :=
    fun _ => lane (by omega) (by have := d.isLt; have := a.isLt; have := o.isLt; have := z.toNat_le; omega)

theorem lda (e : Bool) (d a : BitVec 7) (s : BitVec 3) (r : Bool) (z : BitVec 2) : Statement (.lda e d a s r z) :=
    fun _ => lane (by omega) (by have := d.isLt; have := a.isLt; have := s.isLt; have := r.toNat_le; have := z.isLt; omega)

theorem pref (e : Bool) (h : BitVec 2) (a : BitVec 7) (o : BitVec 5) (z : BitVec 2) : Statement (.pref e h a o z) :=
    fun _ => lane (by omega) (by have := h.isLt; have := a.isLt; have := o.isLt; have := z.isLt; omega)

theorem fchk (e n : Bool) (d a : BitVec 7) (o : BitVec 5) (z : BitVec 2) : Statement (.fchk e n d a o z) :=
    fun _ => lane (by omega) (by have := d.isLt; have := a.isLt; have := o.isLt; have := z.isLt; omega)

theorem stg (e : Bool) (d a : BitVec 7) (o : BitVec 5) (z : BitVec 2) : Statement (.stg e d a o z) :=
    fun _ => lane (by omega) (by have := d.isLt; have := a.isLt; have := o.isLt; have := z.isLt; omega)

theorem sts (e : Bool) (d a : BitVec 7) (o : BitVec 5) (z : BitVec 2) : Statement (.sts e d a o z) :=
    fun _ => lane (by omega) (by have := d.isLt; have := a.isLt; have := o.isLt; have := z.isLt; omega)

theorem stp (e : Bool) (d a : BitVec 7) (o : BitVec 5) (z : BitVec 2) : Statement (.stp e d a o z) :=
    fun _ => lane (by omega) (by have := d.isLt; have := a.isLt; have := o.isLt; have := z.isLt; omega)

theorem strel (e : Bool) (d a : BitVec 7) (s : BitVec 3) (z : BitVec 2) : Statement (.strel e d a s z) :=
    fun _ => lane (by omega) (by have := d.isLt; have := a.isLt; have := s.isLt; have := z.isLt; omega)

theorem atom (e : Bool) (d a b : BitVec 7) (op : BitVec 4) (ty : BitVec 3) (ord : BitVec 2) (sc : BitVec 3) (sp : BitVec 2) (noret : Bool) (c : BitVec 7) : Statement (.atom e d a b op ty ord sc sp noret c) :=
    fun _ => lane (by omega) (by have := d.isLt; have := a.isLt; have := b.isLt; omega)

theorem mcst (e : Bool) (d a : BitVec 7) (o : BitVec 5) (z : BitVec 2) : Statement (.mcst e d a o z) :=
    fun _ => lane (by omega) (by have := d.isLt; have := a.isLt; have := o.isLt; have := z.isLt; omega)

theorem empty (e : Bool) (a : BitVec 7) (o : BitVec 5) (z : BitVec 2) : Statement (.empty e a o z) :=
    fun _ => lane (by omega) (by have := a.isLt; have := o.isLt; have := z.isLt; omega)

theorem monarm (e : Bool) (d a : BitVec 7) (o : BitVec 5) (z : BitVec 2) : Statement (.monarm e d a o z) :=
    fun _ => lane (by omega) (by have := d.isLt; have := a.isLt; have := o.isLt; have := z.isLt; omega)

theorem monwait (n : Bool) (d : BitVec 7) (f : Bool) (t : BitVec 5) : Statement (.monwait n d f t) :=
    fun _ => lane (by omega) (by have := d.isLt; have := f.toNat_le; have := t.isLt; omega)

theorem fence (e : Bool) (k : BitVec 2) (s : BitVec 3) : Statement (.fence e k s) :=
    fun _ => lane (by omega) (by have := k.isLt; have := s.isLt; omega)

theorem cue (e : Bool) (d a : BitVec 7) (x : Bool) (h : BitVec 4) : Statement (.cue e d a x h) :=
    fun _ => lane (by omega) (by have := d.isLt; have := a.isLt; have := x.toNat_le; have := h.isLt; omega)

theorem copy (e : Bool) (d a b : BitVec 7) (opt : BitVec 3) (dir : BitVec 2) (rv : Bool) (q : BitVec 3) (sreg : BitVec 7) (lk : BitVec 3) (slreg : BitVec 7) : Statement (.copy e d a b opt dir rv q sreg lk slreg) :=
    fun _ => lane (by omega) (by have := d.isLt; have := a.isLt; have := b.isLt; omega)

theorem cast (e : Bool) (d a : BitVec 7) (mode cur : BitVec 2) (kd : BitVec 3) (gs : BitVec 6) : Statement (.cast e d a mode cur kd gs) :=
    fun _ => lane (by omega) (by have := d.isLt; have := a.isLt; omega)

theorem casti (e : Bool) (a : BitVec 7) (m c : BitVec 2) : Statement (.casti e a m c) :=
    fun _ => lane (by omega) (by have := a.isLt; have := m.isLt; have := c.isLt; omega)

theorem castsplit (e : Bool) (c : BitVec 2) (a b : BitVec 7) : Statement (.castsplit e c a b) :=
    fun _ => lane (by omega) (by have := c.isLt; have := a.isLt; have := b.isLt; omega)

theorem castrd (e n : Bool) (d : BitVec 7) (c : BitVec 2) : Statement (.castrd e n d c) :=
    fun _ => lane (by omega) (by have := d.isLt; have := c.isLt; omega)

theorem castwr (e : Bool) (a : BitVec 7) (c : BitVec 2) : Statement (.castwr e a c) :=
    fun _ => lane (by omega) (by have := a.isLt; have := c.isLt; omega)

theorem mash (e : Bool) (d a : BitVec 7) (bsel : BitVec 2) (clr : Bool) (fa fw : BitVec 2) (pm1 : BitVec 4) (kg : BitVec 5) (half : Bool) (bmask : BitVec 16) : Statement (.mash e d a bsel clr fa fw pm1 kg half bmask) :=
    fun _ => lane (by omega) (by have := d.isLt; have := a.isLt; have := bsel.isLt; omega)

theorem rack (e : Bool) (a : BitVec 7) : Statement (.rack e a) := fun _ => lane (by omega) (by have := a.isLt; omega)

theorem colrd (e : Bool) (d a : BitVec 7) : Statement (.colrd e d a) :=
    fun _ => lane (by omega) (by have := d.isLt; have := a.isLt; omega)

theorem colclr (e : Bool) (a : BitVec 7) (l : Bool) (r : BitVec 4) : Statement (.colclr e a l r) :=
    fun _ => lane (by omega) (by have := a.isLt; have := l.toNat_le; have := r.isLt; omega)

theorem mstat (e n : Bool) (d : BitVec 7) (c : Bool) (b : BitVec 5) : Statement (.mstat e n d c b) :=
    fun _ => lane (by omega) (by have := d.isLt; have := c.toNat_le; have := b.isLt; omega)

theorem trap (d : BitVec 7) (c : BitVec 8) : Statement (.trap d c) :=
    fun _ => lane (by omega) (by have := d.isLt; have := c.isLt; omega)

theorem brk (t : BitVec 8) : Statement (.brk t) := fun _ => lane (by omega) (by have := t.isLt; omega)

theorem nop (e : Bool) : Statement (.nop e) := fun _ => lane (by omega) (by omega)

theorem hint (e x : Bool) (h : BitVec 4) (y : BitVec 21) : Statement (.hint e x h y) :=
    fun _ => lane (by have := h.isLt; omega) (by have := h.isLt; have := y.isLt; omega)

theorem gadd (e : Bool) (d a b : BitVec 6) : Statement (.gadd e d a b) :=
    fun _ => uni (by omega) (by have := d.isLt; have := a.isLt; have := b.isLt; omega)

theorem gsub (e : Bool) (d a b : BitVec 6) : Statement (.gsub e d a b) :=
    fun _ => uni (by omega) (by have := d.isLt; have := a.isLt; have := b.isLt; omega)

theorem gmul (e : Bool) (d a b : BitVec 6) : Statement (.gmul e d a b) :=
    fun _ => uni (by omega) (by have := d.isLt; have := a.isLt; have := b.isLt; omega)

theorem gand (e : Bool) (d a b : BitVec 6) : Statement (.gand e d a b) :=
    fun _ => uni (by omega) (by have := d.isLt; have := a.isLt; have := b.isLt; omega)

theorem gor (e : Bool) (d a b : BitVec 6) : Statement (.gor e d a b) :=
    fun _ => uni (by omega) (by have := d.isLt; have := a.isLt; have := b.isLt; omega)

theorem gxor (e : Bool) (d a b : BitVec 6) : Statement (.gxor e d a b) :=
    fun _ => uni (by omega) (by have := d.isLt; have := a.isLt; have := b.isLt; omega)

theorem gshl (e : Bool) (d a b : BitVec 6) : Statement (.gshl e d a b) :=
    fun _ => uni (by omega) (by have := d.isLt; have := a.isLt; have := b.isLt; omega)

theorem gshr (e : Bool) (d a b : BitVec 6) : Statement (.gshr e d a b) :=
    fun _ => uni (by omega) (by have := d.isLt; have := a.isLt; have := b.isLt; omega)

theorem gsar (e : Bool) (d a b : BitVec 6) : Statement (.gsar e d a b) :=
    fun _ => uni (by omega) (by have := d.isLt; have := a.isLt; have := b.isLt; omega)

theorem gmin (e : Bool) (d a b : BitVec 6) (u : Bool) : Statement (.gmin e d a b u) :=
    fun _ => uni (by omega) (by have := d.isLt; have := a.isLt; have := b.isLt; have := u.toNat_le; omega)

theorem gmax (e : Bool) (d a b : BitVec 6) (u : Bool) : Statement (.gmax e d a b u) :=
    fun _ => uni (by omega) (by have := d.isLt; have := a.isLt; have := b.isLt; have := u.toNat_le; omega)

theorem gaddi (e : Bool) (d a : BitVec 6) (i : BitVec 10) : Statement (.gaddi e d a i) :=
    fun _ => uni (by omega) (by have := d.isLt; have := a.isLt; have := i.isLt; omega)

theorem gmovk (e : Bool) (d : BitVec 6) (i : BitVec 16) : Statement (.gmovk e d i) :=
    fun _ => uni (by omega) (by have := d.isLt; have := i.isLt; omega)

theorem gmovkLiteral (e : Bool) (d : BitVec 6) (lit : BitVec 32) : Statement (.gmovkLiteral e d lit) :=
    fun _ => uni (by omega) (by have := d.isLt; omega)

theorem gmov (e : Bool) (d a : BitVec 6) : Statement (.gmov e d a) :=
    fun _ => uni (by omega) (by have := d.isLt; have := a.isLt; omega)

theorem gset (e : Bool) (d a b : BitVec 6) (c : BitVec 4) : Statement (.gset e d a b c) :=
    fun _ => uni (by omega) (by have := d.isLt; have := a.isLt; have := b.isLt; have := c.isLt; omega)

theorem gsel (e : Bool) (d a b : BitVec 6) (f : BitVec 4) : Statement (.gsel e d a b f) :=
    fun _ => uni (by omega) (by have := d.isLt; have := a.isLt; have := b.isLt; have := f.isLt; omega)

theorem gld (e : Bool) (d a : BitVec 6) (z : BitVec 2) (o : BitVec 7) : Statement (.gld e d a z o) :=
    fun _ => uni (by omega) (by have := d.isLt; have := a.isLt; have := z.isLt; have := o.isLt; omega)

theorem glds (e : Bool) (d a : BitVec 6) (z : BitVec 2) (o : BitVec 7) : Statement (.glds e d a z o) :=
    fun _ => uni (by omega) (by have := d.isLt; have := a.isLt; have := z.isLt; have := o.isLt; omega)

theorem gst (e : Bool) (d a : BitVec 6) (s : Bool) (z : BitVec 2) (o : BitVec 7) : Statement (.gst e d a s z o) :=
    fun _ => uni (by omega) (by have := d.isLt; have := a.isLt; have := s.toNat_le; have := z.isLt; have := o.isLt; omega)

theorem kand (e : Bool) (d a b : BitVec 3) : Statement (.kand e d a b) :=
    fun _ => uni (by omega) (by have := d.isLt; have := a.isLt; have := b.isLt; omega)

theorem kor (e : Bool) (d a b : BitVec 3) : Statement (.kor e d a b) :=
    fun _ => uni (by omega) (by have := d.isLt; have := a.isLt; have := b.isLt; omega)

theorem kxor (e : Bool) (d a b : BitVec 3) : Statement (.kxor e d a b) :=
    fun _ => uni (by omega) (by have := d.isLt; have := a.isLt; have := b.isLt; omega)

theorem knot (e : Bool) (d a : BitVec 3) : Statement (.knot e d a) :=
    fun _ => uni (by omega) (by have := d.isLt; have := a.isLt; omega)

theorem kmov (e : Bool) (d a : BitVec 6) (f : BitVec 2) : Statement (.kmov e d a f) :=
    fun _ => uni (by omega) (by have := d.isLt; have := a.isLt; have := f.isLt; omega)

theorem jmp (o : BitVec 22) : Statement (.jmp o) := fun _ => uni (by omega) (by have := o.isLt; omega)

theorem jz (a : BitVec 6) (o : BitVec 16) : Statement (.jz a o) :=
    fun _ => uni (by omega) (by have := a.isLt; have := o.isLt; omega)

theorem jnz (a : BitVec 6) (o : BitVec 16) : Statement (.jnz a o) :=
    fun _ => uni (by omega) (by have := a.isLt; have := o.isLt; omega)

theorem gcall (o : BitVec 22) : Statement (.gcall o) := fun _ => uni (by omega) (by have := o.isLt; omega)

theorem gcallRegister (g : BitVec 6) : Statement (.gcallRegister g) := fun _ => uni (by omega) (by have := g.isLt; omega)

theorem yield : Statement (.yield) := fun _ => uni (by omega) (by omega)

theorem bar : Statement (.bar) := fun _ => uni (by omega) (by omega)

theorem barg : Statement (.barg) := fun _ => uni (by omega) (by omega)

theorem launch (e : Bool) (d a : BitVec 6) : Statement (.launch e d a) :=
    fun _ => uni (by omega) (by have := d.isLt; have := a.isLt; omega)

theorem sread (e : Bool) (d : BitVec 6) (i : BitVec 10) : Statement (.sread e d i) :=
    fun _ => uni (by omega) (by have := d.isLt; have := i.isLt; omega)

theorem partset (e : Bool) (p : BitVec 10) : Statement (.partset e p) := fun _ => uni (by omega) (by have := p.isLt; omega)

theorem rset (e : Bool) (q : BitVec 3) (a b : BitVec 6) : Statement (.rset e q a b) :=
    fun _ => uni (by omega) (by have := q.isLt; have := a.isLt; have := b.isLt; omega)

theorem racq (d : BitVec 6) (q : BitVec 3) : Statement (.racq d q) :=
    fun _ => uni (by omega) (by have := d.isLt; have := q.isLt; omega)

theorem rpub (e : Bool) (a : BitVec 6) (q : BitVec 3) : Statement (.rpub e a q) :=
    fun _ => uni (by omega) (by have := a.isLt; have := q.isLt; omega)

theorem rwait (a : BitVec 6) (q : BitVec 3) : Statement (.rwait a q) :=
    fun _ => uni (by omega) (by have := a.isLt; have := q.isLt; omega)

theorem rfree (e : Bool) (a : BitVec 6) (q : BitVec 3) : Statement (.rfree e a q) :=
    fun _ => uni (by omega) (by have := a.isLt; have := q.isLt; omega)

theorem cwait : Statement (.cwait) := fun _ => uni (by omega) (by omega)

theorem bank (e : Bool) (a : BitVec 6) (m : Bool) : Statement (.bank e a m) :=
    fun _ => uni (by omega) (by have := a.isLt; have := m.toNat_le; omega)

theorem mwait (a : BitVec 6) : Statement (.mwait a) := fun _ => uni (by omega) (by have := a.isLt; omega)

theorem hang (e : Bool) (d a b : BitVec 6) (h : BitVec 4) : Statement (.hang e d a b h) :=
    fun _ => uni (by omega) (by have := d.isLt; have := a.isLt; have := b.isLt; have := h.isLt; omega)

theorem unhang (e : Bool) (h : BitVec 4) : Statement (.unhang e h) := fun _ => uni (by omega) (by have := h.isLt; omega)

theorem unassignedOpcode (word : BitVec 32) : Statement (.unassignedOpcode word) := fun _ => word.isLt

theorem sceneStart (core wing : Nat) : Statement (.sceneStart core wing) := fun h => nomatch h

theorem yieldWake (w lane : Nat) : Statement (.yieldWake w lane) := fun h => nomatch h

theorem monwaitTimeout (w lane : Nat) : Statement (.monwaitTimeout w lane) := fun h => nomatch h

theorem loadDataReturn (id : Nat) (err : Bool) : Statement (.loadDataReturn id err) := fun h => nomatch h

theorem atomicReply (id : Nat) : Statement (.atomicReply id) := fun h => nomatch h

theorem storePerformed (id : Nat) : Statement (.storePerformed id) := fun h => nomatch h

theorem emptyLineRelease (w : Nat) : Statement (.emptyLineRelease w) := fun h => nomatch h

theorem collectorEntryLeave (grp line : Nat) : Statement (.collectorEntryLeave grp line) := fun h => nomatch h

theorem queryTransaction (grp row : Nat) (bad : BitVec 64) : Statement (.queryTransaction grp row bad) := fun h => nomatch h

theorem hangFinish (ctx h : Nat) : Statement (.hangFinish ctx h) := fun h => nomatch h

theorem unhangFinish (ctx h : Nat) : Statement (.unhangFinish ctx h) := fun h => nomatch h

theorem bankQueueEntry (w : Nat) : Statement (.bankQueueEntry w) := fun h => nomatch h

theorem kStep (core bank : Nat) : Statement (.kStep core bank) := fun h => nomatch h

theorem rackExecute (core bank : Nat) : Statement (.rackExecute core bank) := fun h => nomatch h

theorem colclrExecute (core bank : Nat) : Statement (.colclrExecute core bank) := fun h => nomatch h

theorem steepExecute (core bank : Nat) : Statement (.steepExecute core bank) := fun h => nomatch h

theorem colrdRead (w : Nat) : Statement (.colrdRead w) := fun h => nomatch h

theorem bankSwitch (w : Nat) : Statement (.bankSwitch w) := fun h => nomatch h

theorem copyIssue (w : Nat) : Statement (.copyIssue w) := fun h => nomatch h

theorem copyStart (id : Nat) : Statement (.copyStart id) := fun h => nomatch h

theorem copyWrite (id : Nat) : Statement (.copyWrite id) := fun h => nomatch h

theorem copyComplete (id : Nat) : Statement (.copyComplete id) := fun h => nomatch h

theorem copyPark (id : Nat) (err : Bool) : Statement (.copyPark id err) := fun h => nomatch h

theorem copyResume (core slot : Nat) : Statement (.copyResume core slot) := fun h => nomatch h

theorem castCommandStart (core : Nat) : Statement (.castCommandStart core) := fun h => nomatch h

theorem castCommandStop (core : Nat) : Statement (.castCommandStop core) := fun h => nomatch h

theorem launchWindowGo (port win : Nat) : Statement (.launchWindowGo port win) := fun h => nomatch h

theorem launchOfferOutcome (n : Nat) : Statement (.launchOfferOutcome n) := fun h => nomatch h

theorem placementPass : Statement (.placementPass) := fun h => nomatch h

theorem teamStart (tid : Nat) : Statement (.teamStart tid) := fun h => nomatch h

theorem teamRetire (tid : Nat) : Statement (.teamRetire tid) := fun h => nomatch h

theorem holdComplete (tid : Nat) : Statement (.holdComplete tid) := fun h => nomatch h

theorem eventRecordWrite (ctx : Nat) : Statement (.eventRecordWrite ctx) := fun h => nomatch h

theorem teamHold (core slot : Nat) : Statement (.teamHold core slot) := fun h => nomatch h

theorem teamResume (core slot : Nat) : Statement (.teamResume core slot) := fun h => nomatch h

theorem teamResumePast (core slot : Nat) : Statement (.teamResumePast core slot) := fun h => nomatch h

theorem teamLaunchStrike (core slot : Nat) : Statement (.teamLaunchStrike core slot) := fun h => nomatch h

theorem newhw (core slot warp phw : Nat) : Statement (.newhw core slot warp phw) := fun h => nomatch h

theorem promptReply (ctx tag : Nat) : Statement (.promptReply ctx tag) := fun h => nomatch h

theorem pringWrite (ctx : Nat) (v : BitVec 64) : Statement (.pringWrite ctx v) := fun h => nomatch h

theorem pconsWrite (ctx : Nat) (v : BitVec 32) : Statement (.pconsWrite ctx v) := fun h => nomatch h

theorem contextPreempt (ctx : Nat) : Statement (.contextPreempt ctx) := fun h => nomatch h

theorem contextResume (ctx : Nat) : Statement (.contextResume ctx) := fun h => nomatch h

theorem contextStrike (ctx : Nat) : Statement (.contextStrike ctx) := fun h => nomatch h

theorem deadlineExpiry (ctx : Nat) : Statement (.deadlineExpiry ctx) := fun h => nomatch h

theorem strikeComplete (n : Nat) : Statement (.strikeComplete n) := fun h => nomatch h

theorem launchStrike (ctx : Nat) : Statement (.launchStrike ctx) := fun h => nomatch h

theorem invalidatePage (ctx : Nat) (iva : BitVec 40) : Statement (.invalidatePage ctx iva) := fun h => nomatch h

theorem invalidateLargePage (ctx : Nat) (iva : BitVec 40) : Statement (.invalidateLargePage ctx iva) := fun h => nomatch h

theorem invalidateContext (ctx : Nat) (iva : BitVec 40) : Statement (.invalidateContext ctx iva) := fun h => nomatch h

theorem invalidationComplete (ctx : Nat) : Statement (.invalidationComplete ctx) := fun h => nomatch h

theorem contextRegisterWrite (ctx : Nat) (reg : BitVec 2) (v : BitVec 64) : Statement (.contextRegisterWrite ctx reg v) :=
    fun h => nomatch h

theorem memsplitWrite (v : BitVec 64) : Statement (.memsplitWrite v) := fun h => nomatch h

theorem tarenaWrite (hub : Nat) (v : BitVec 64) : Statement (.tarenaWrite hub v) := fun h => nomatch h

theorem cuerelGo (v : BitVec 64) : Statement (.cuerelGo v) := fun h => nomatch h

theorem semaphoreRead (agent : BitVec 2) (sem : BitVec 5) : Statement (.semaphoreRead agent sem) := fun h => nomatch h

theorem semaphoreWrite (agent : BitVec 2) (sem : BitVec 5) : Statement (.semaphoreWrite agent sem) := fun h => nomatch h

theorem semaphoreBreak (sem : BitVec 5) : Statement (.semaphoreBreak sem) := fun h => nomatch h

theorem peerwinWrite (p : BitVec 3) (v : BitVec 64) : Statement (.peerwinWrite p v) := fun h => nomatch h

theorem policyWrite (off : Nat) (v : BitVec 32) : Statement (.policyWrite off v) := fun h => nomatch h

theorem policyArm : Statement (.policyArm) := fun h => nomatch h

theorem attestationGo : Statement (.attestationGo) := fun h => nomatch h

theorem reportComplete : Statement (.reportComplete) := fun h => nomatch h

theorem registerWrite (agent : BitVec 2) (off : BitVec 22) (wide : Bool) (v : BitVec 64) : Statement (.registerWrite agent off wide v) :=
    fun h => nomatch h

theorem hostCxlMemRequest (port : Bool) (off len : Nat) (data : Option Nat) : Statement (.hostCxlMemRequest port off len data) :=
    fun h => nomatch h

theorem hostSnoop (port : Bool) (line : Nat) (data : Option Nat) : Statement (.hostSnoop port line data) :=
    fun h => nomatch h

theorem linkDown (port : Bool) : Statement (.linkDown port) := fun h => nomatch h

theorem linkUp (port f256 : Bool) (lanes : BitVec 5) : Statement (.linkUp port f256 lanes) := fun h => nomatch h

theorem moduleReset : Statement (.moduleReset) := fun h => nomatch h

theorem guardBandStep (core : Nat) (margin : BitVec 10) : Statement (.guardBandStep core margin) := fun h => nomatch h

theorem eolhRefresh (core : Nat) (v : BitVec 32) : Statement (.eolhRefresh core v) := fun h => nomatch h

theorem throttle (die : Nat) (power : BitVec 16) (temp : BitVec 8) (watts : BitVec 16) : Statement (.throttle die power temp watts) :=
    fun h => nomatch h

theorem instructionFetchFault (cause : Nat) (va : BitVec 64) : Statement (.instructionFetchFault cause va) :=
    fun h => nomatch h

theorem monitorLost (w lane : Nat) : Statement (.monitorLost w lane) := fun h => nomatch h

theorem peerModuleRequest (a : PortAddr) (len : Nat) (kind : BitVec 2) (op ty : BitVec 3) (v cmp : BitVec 64) : Statement (.peerModuleRequest a len kind op ty v cmp) :=
    fun h => nomatch h

end Sys2Proof.Laws.Words
end

