-- ==== Sys2Proof/Laws/Perform.lean ====
section
/-! SUPPORT. Performing writes and atomics: the bytes they leave, and that elsewhere only monitors fire. -/

namespace Sys2Proof.Machine

set_option Elab.async false

theorem OnlyFired.fire (W : Warp) (hit : Monitor → Bool) : OnlyFired W (W.fireMon hit) := fireMon_spec W hit

theorem WarpsFire.refl (s : State) : WarpsFire s s := fun _ W h => ⟨W, h, OnlyFired.refl W⟩
theorem WarpsFire.trans {s t u : State} (h : WarpsFire s t) (k : WarpsFire t u) : WarpsFire s u := fun w W hW => by
  obtain ⟨V, hV, h1⟩ := h w W hW
  obtain ⟨U, hU, h2⟩ := k w V hV
  exact ⟨U, hU, h1.trans h2⟩
theorem warpsFire_of_warps {s t : State} (h : t.warps = s.warps) : WarpsFire s t := fun w W hW => ⟨W, by
  unfold State.warp at *; rw [h]; exact hW, OnlyFired.refl W⟩

theorem Written.refl (s : State) : Written s s := ⟨rfl, .refl s⟩
theorem Written.trans {s t u : State} (h : Written s t) (k : Written t u) : Written s u := ⟨by rw [k.1, h.1], h.2.trans k.2⟩
theorem Written.of_same {s t : State} (h : t = { s with
    mem := t.mem, mscHeld := t.mscHeld, mscDirty := t.mscDirty, dirty := t.dirty, dir := t.dir, tlb := t.tlb, l1 := t.l1, olds := t.olds, rels := t.rels }) :
    Written s t := ⟨by rw [h], warpsFire_of_warps (by rw [h])⟩
theorem Cached.written {s t : State} (h : Cached s t) : Written s t := .of_same (by rw [h.1])
theorem Held.written {s t : State} (h : Held s t) : Written s t := .of_same (by unfold Held at h; rw [h])

theorem mapWarps_warp (s : State) (f : Warp → Warp) (w : Nat) : (s.mapWarps f).warp w = (s.warp w).map f := by
  have := tget_map_keyed s.warps (fun _ o => o.map f) (fun _ => rfl) w
  exact this

theorem written_fireLine (s : State) (l : Nat) : Written s (s.fireLine l) := by
  refine ⟨rfl, fun w W hW => ⟨W.fireMon fun m => decide (m.pa / 128 = l), ?_, fireMon_spec W _⟩⟩
  unfold State.fireLine
  rw [mapWarps_warp, hW]
  rfl

theorem written_foldl {β : Type} {f : State → β → State} (h : ∀ s b, Written s (f s b)) : ∀ (l : List β) (s : State), Written s (l.foldl f s)
  | [], s => Written.refl s
  | b :: l, s => (h s b).trans (written_foldl h l (f s b))

theorem Written.reaches {s t : State} (h : Written s t) (pa : Nat) : t.reaches pa = s.reaches pa := by rw [h.1]; rfl
theorem Written.nextId {s t : State} (h : Written s t) : t.nextId = s.nextId := by rw [h.1]
theorem Written.loads {s t : State} (h : Written s t) : t.loads = s.loads := by rw [h.1]

theorem written_writeBack (s : State) (l : Nat) : Written s (s.writeBack l) := (held_writeBack s l).written

theorem written_recall (s : State) (l : Nat) : Written s (s.recall l) := by
  unfold State.recall
  exact (written_writeBack s l).trans (.trans (.of_same rfl) (written_fireLine _ _))

theorem written_ownLine (s : State) (die l : Nat) : Written s (s.ownLine die l) := by
  unfold State.ownLine
  exact .trans (.of_same rfl) (written_fireLine _ _)

theorem written_noteOld (s : State) (pas : List Nat) : Written s (s.noteOld pas) := by
  unfold State.noteOld
  split
  · exact .refl s
  · exact .of_same rfl

theorem written_performBytes (s : State) (die : Nat) (bs : List (Nat × Byte)) : Written s (s.performBytes die bs) := by
  unfold State.performBytes
  dsimp only
  exact ((written_noteOld s _).trans (.of_same rfl)).trans (written_foldl (fun s l => written_ownLine s die l) _ _)

theorem written_hubPut (s : State) (pa b) : Written s (s.hubPut pa b) := (held_hubPut s pa b).written

theorem written_hubWrite (s : State) (bs : List (Nat × Byte)) : Written s (s.hubWrite bs) := by
  unfold State.hubWrite
  dsimp only
  exact ((written_noteOld s _).trans (.of_same rfl)).trans
    ((written_foldl (fun s l => (written_recall s l).trans (held_mscFill _ _).written) _ _).trans
      (written_foldl (fun s (e : Nat × Byte) => written_hubPut s e.1 e.2) _ _))

theorem written_obtain (s : State) (die l : Nat) : Written s (s.obtain die l) := by
  refine ⟨rfl, fun w W hW => ?_⟩
  have h := tget_map_keyed s.warps (fun k o => if ((tget LineDir.zero s.dir l).sharers &&& ~~~(BitVec.ofNat 16 (2 ^ die))).getLsbD ((s.own die l).dieOf (coreOf k)) then
    o.map fun W => W.fireMon fun m => decide (m.pa / 128 = l) else o) (fun k => by split <;> rfl) w
  have hW' : tget none s.warps w = some W := hW
  rw [hW'] at h
  split at h
  · exact ⟨W.fireMon fun m => decide (m.pa / 128 = l), h, fireMon_spec W _⟩
  · exact ⟨W, h, OnlyFired.refl W⟩

theorem byteAt_obtain (s : State) (die l pa : Nat) : (s.obtain die l).byteAt pa = s.byteAt pa := rfl

/-! ## Writing at the hub -/

theorem dirty_recalls (pa : Nat) : ∀ (ls : List Nat) (s : State),
    tget none (ls.foldl (fun s l => (s.recall l).mscFill l) s).dirty pa = if pa / 128 ∈ ls then none else tget none s.dirty pa
  | [], s => by simp
  | l :: ls, s => by
    rw [List.foldl_cons, dirty_recalls pa ls]
    have : tget none ((s.recall l).mscFill l).dirty pa = if pa / 128 = l then none else tget none s.dirty pa := by
      rw [State.mscFill_dirty]
      exact dirty_writeBack s l pa
    rw [this]
    by_cases h1 : pa / 128 ∈ ls
    · simp [h1]
    · by_cases h2 : pa / 128 = l
      · simp [h2]
      · simp [h1, h2]

theorem hubPuts_spec (pa : Nat) : ∀ (bs : List (Nat × Byte)) (s : State),
    (bs.foldl (fun s e => s.hubPut e.1 e.2) s).dirty = s.dirty ∧
    (bs.foldl (fun s e => s.hubPut e.1 e.2) s).hubByte pa = bs.foldl (fun v e => if e.1 = pa then e.2 else v) (s.hubByte pa)
  | [], _ => ⟨rfl, rfl⟩
  | e :: bs, s => by
    obtain ⟨h1, h2⟩ := hubPuts_spec pa bs (s.hubPut e.1 e.2)
    refine ⟨by rw [List.foldl_cons, h1, State.hubPut_dirty], ?_⟩
    rw [List.foldl_cons, h2, hubByte_hubPut, List.foldl_cons]
    by_cases h : e.1 = pa
    · simp [h]
    · have : ¬ pa = e.1 := fun h' => h h'.symm
      simp [h, this]

theorem foldl_filter_last (pa : Nat) (q : Nat × Byte → Bool) : ∀ (bs : List (Nat × Byte)) (v : Byte),
    (bs.filter q).foldl (fun v e => if e.1 = pa then e.2 else v) v = bs.foldl (fun v e => if e.1 = pa ∧ q e = true then e.2 else v) v
  | [], _ => rfl
  | e :: bs, v => by
    by_cases hq : q e = true
    · rw [List.filter_cons_of_pos hq, List.foldl_cons, List.foldl_cons, foldl_filter_last pa q bs]
      simp [hq]
    · rw [List.filter_cons_of_neg hq, List.foldl_cons, if_neg fun h => hq h.2]
      exact foldl_filter_last pa q bs v

theorem foldl_last_none (pa : Nat) : ∀ (bs : List (Nat × Byte)) (v : Byte), (∀ e ∈ bs, e.1 ≠ pa) →
    bs.foldl (fun v e => if e.1 = pa then e.2 else v) v = v
  | [], _, _ => rfl
  | e :: bs, v, h => by
    rw [List.foldl_cons, if_neg (h e (by simp))]
    exact foldl_last_none pa bs v fun e he => h e (by simp [he])

/-- A byte after writes at the hub: the last value written to it, where its address is reached. -/
theorem byteAt_hubWrite (s : State) (bs : List (Nat × Byte)) (pa : Nat) :
    (s.hubWrite bs).byteAt pa = bs.foldl (fun v e => if e.1 = pa ∧ s.reaches e.1 = true then e.2 else v) (s.byteAt pa) := by
  rw [← foldl_filter_last pa (fun e => s.reaches e.1)]
  unfold State.hubWrite
  generalize bs.filter (fun e => s.reaches e.1) = cs
  dsimp only
  have h0 : ((s.noteOld (cs.map (·.1))).clearRels (cs.map (·.1))).byteAt pa = s.byteAt pa := by rw [byteAt_clearRels, byteAt_noteOld]
  generalize (s.noteOld (cs.map (·.1))).clearRels (cs.map (·.1)) = s0 at h0
  have hd := dirty_recalls pa (linesOf (cs.map (·.1))) s0
  have hb : (List.foldl (fun s l => (State.recall s l).mscFill l) s0 (linesOf (cs.map (·.1)))).byteAt pa = s0.byteAt pa :=
    byteAt_foldl (fun _ _ => by rw [byteAt_mscFill, byteAt_recall]) _ _
  generalize List.foldl (fun s l => (State.recall s l).mscFill l) s0 (linesOf (cs.map (·.1))) = u at hd hb
  rw [← h0, ← hb]
  obtain ⟨h1, h2⟩ := hubPuts_spec pa cs u
  rw [byteAt_getD, h1, h2, byteAt_getD]
  by_cases hm : ∃ e ∈ cs, e.1 = pa
  · obtain ⟨e, he, rfl⟩ := hm
    have : e.1 / 128 ∈ linesOf (cs.map (·.1)) := by
      unfold linesOf
      rw [List.mem_eraseDups]
      exact List.mem_map.mpr ⟨e.1, List.mem_map.mpr ⟨e, he, rfl⟩, rfl⟩
    rw [if_pos this] at hd
    rw [hd]
    rfl
  · have hn : ∀ e ∈ cs, e.1 ≠ pa := fun e he hc => hm ⟨e, he, hc⟩
    rw [foldl_last_none pa cs _ hn, foldl_last_none pa cs _ hn]

/-! ## Performing stores and atomics of a path -/

theorem xlate_pas {x : Ix} {s k l vas a} (h : x.xlate s k l vas = .ok a) : a.pas.length = a.vas.length := by
  unfold Ix.xlate at h
  dsimp only at h
  split at h
  · next pas hp =>
    cases h
    split at hp
    · have hf : ∀ (vs : List Nat) (ps : List Nat), (vs.mapM fun v => (s.l1Line x.core x.T.ctx (v / 128)).map fun l => l.pline * 128 + v % 128) = some ps →
          ps.length = vs.length := by
        intro vs
        induction vs with
        | nil => intro ps h; cases h; rfl
        | cons v vs ih =>
          intro ps h
          rw [List.mapM_cons] at h
          cases hv : (s.l1Line x.core x.T.ctx (v / 128)).map fun l => l.pline * 128 + v % 128 with
          | none => rw [hv] at h; cases h
          | some p =>
            rw [hv] at h
            cases hr : vs.mapM fun v => (s.l1Line x.core x.T.ctx (v / 128)).map fun l => l.pline * 128 + v % 128 with
            | none => rw [hr] at h; cases h
            | some q => rw [hr] at h; cases h; simp [ih q hr]
      exact hf vas pas hp
    · cases hp
  · split at h
    · cases h
    · split at h
      · cases h
      · split at h
        · cases h
        · cases h; simp

theorem written_writeAt {x : Ix} {s : State} {a : MemAcc} {bs} (h : uncached a.pa = false) : Written s (x.writeAt s a bs) := by
  unfold Ix.writeAt
  rw [if_neg (by rw [h]; decide)]
  exact (written_performBytes _ _ _).trans (.of_same rfl)

theorem byteAt_writeAt {x : Ix} {s : State} {a : MemAcc} {bs} (h : uncached a.pa = false) (pa : Nat) :
    (x.writeAt s a bs).byteAt pa = (a.pas.zip bs).foldl (fun v e => if e.1 = pa ∧ s.reaches e.1 = true then e.2 else v) (s.byteAt pa) := by
  unfold Ix.writeAt
  rw [if_neg (by rw [h]; decide)]
  exact byteAt_performBytes _ _ _ _

theorem Shared.written {s t : State} (h : Shared s t) : Written s t := h.cached.written
theorem byteAt_keepLeaves (x : Ix) (s : State) (as) (pa : Nat) : (x.keepLeaves s as).byteAt pa = s.byteAt pa := (shared_keepLeaves x s as).2 pa

/-- Writes of several accesses, in order. -/
theorem writes_spec {x : Ix} (v : MemAcc → List Byte) : ∀ (as : List MemAcc) (s : State), (∀ a ∈ as, uncached a.pa = false) →
    Written s (as.foldl (fun s a => x.writeAt s a (v a)) s) ∧
    ∀ pa, (as.foldl (fun s a => x.writeAt s a (v a)) s).byteAt pa = as.foldl (fun b a => (a.pas.zip (v a)).foldl
      (fun b e => if e.1 = pa ∧ s.reaches e.1 = true then e.2 else b) b) (s.byteAt pa)
  | [], s, _ => ⟨Written.refl s, fun _ => rfl⟩
  | a :: as, s, h => by
    have ha := h a (by simp)
    have h1 := written_writeAt (x := x) (s := s) (bs := v a) ha
    obtain ⟨h2, h3⟩ := writes_spec v as (x.writeAt s a (v a)) fun b hb => h b (by simp [hb])
    refine ⟨h1.trans h2, fun pa => ?_⟩
    rw [List.foldl_cons, h3, byteAt_writeAt ha, List.foldl_cons, funext h1.reaches]

end Sys2Proof.Machine
end

