-- ==== Sys2Proof/Laws/Rejoin.lean ====
section
/-! SUPPORT. Rejoin registers: the paths a retiring instruction leaves, what a release and a parking make of a warp, and what
EXIT makes of it. -/

namespace Sys2Proof.Machine

set_option Elab.async false

/-- Path P gone on past instruction i as the issuing path goes on. -/
def Ix.passed (x : Ix) (i : Instr) (l : Option Latch) (P : Path) : Path :=
  { P.advance i.len l x.skids with scene := if i.endsScene then none else P.scene.map fun c => c.push i.len l }

theorem after_eq (x : Ix) (i : Instr) (l : Option Latch) : x.after i l = x.passed i l x.P := rfl

theorem retire_paths {s : State} {x : Ix} {i : Instr} {l : Option Latch} {W V : Warp} (hw : s.warp x.w = some W)
    (hV : (retire x i s l).warp x.w = some V) : V.paths = W.paths.map fun P =>
      if lowest P.lanes = x.low then x.passed i l P else P.standsBy i.endsScene := by
  have hadv : ∀ P : Path, (P.advance i.len l x.skids).lanes = P.lanes := fun _ => rfl
  by_cases he : i.endsScene = true
  · rw [retire, State.modWarp_eq hw, if_pos he, State.endScene,
      State.modWarp_eq (State.setWarp_warp_same _ _ _), wakeYields_warp, if_pos rfl, State.setWarp_warp_same] at hV
    simp only [Option.map_some, Option.some.injEq] at hV
    rw [← hV]
    simp only [Warp.woken, Warp.modPath, List.map_map]
    refine List.map_congr_left fun P _ => ?_
    simp only [Function.comp]
    by_cases hl : lowest P.lanes = x.low
    · rw [if_pos hl, if_pos hl, if_pos (hadv P ▸ hl), Ix.passed]
      simp only [he, if_true, decide_true]
      rw [wakeYield_own _ _ (by exact hl)]
    · rw [if_neg hl, if_neg hl, if_neg hl, wakeYield_other (.inr hl), he]
  · rw [retire, State.modWarp_eq hw, if_neg he, State.setWarp_warp_same] at hV
    cases hV
    simp only [Warp.modPath]
    refine List.map_congr_left fun P _ => ?_
    by_cases hl : lowest P.lanes = x.low
    · simp [hl, Ix.passed, he, Path.advance]
    · simp [hl, he]

theorem mem_lanes_maskOf {ls : List Nat} (h : ∀ l ∈ ls, l < 64) (k : Nat) : k ∈ lanesOf (maskOf ls) ↔ k ∈ ls := by
  rw [mem_lanesOf, mem_maskOf h]
  simp only [decide_eq_true_eq]
  exact ⟨fun h => h.2, fun hk => ⟨h k hk, hk⟩⟩

theorem lowest_mem {m : Mask} (h : lanesOf m ≠ []) : lowest m ∈ lanesOf m := by
  unfold lowest
  cases hl : lanesOf m with
  | nil => exact absurd hl h
  | cons a t => simp

theorem freshPaths (cont : Nat → VAddr) (ls : List Nat) (ps : List Path) (Q : Path) :
    Q ∈ (targets (ls.map fun l => (l, cont l))).foldl (fun ps t => insertPath (Path.fresh (lanesTo (ls.map fun l => (l, cont l)) t) t) ps) ps ↔
    Q ∈ ps ∨ ∃ l ∈ ls, Q = Path.fresh (maskOf (ls.filter fun k => decide (cont k = cont l))) (cont l) := by
  rw [mem_insertPaths (fun t => Path.fresh (lanesTo (ls.map fun l => (l, cont l)) t) t)]
  simp only [mem_targets, lanesTo_map, List.mem_map]
  constructor
  · rintro (h | ⟨t, ⟨e, ⟨l, hl, rfl⟩, rfl⟩, rfl⟩)
    · exact .inl h
    · exact .inr ⟨l, hl, rfl⟩
  · rintro (h | ⟨l, hl, rfl⟩)
    · exact .inl h
    · exact .inr ⟨cont l, ⟨(l, cont l), ⟨l, hl, rfl⟩, rfl⟩, rfl⟩

theorem fresh_low {cont : Nat → VAddr} {ar : Mask} {l : Nat} (hl : l ∈ lanesOf ar) (pc : VAddr) :
    lowest (Path.fresh (maskOf ((lanesOf ar).filter fun k => decide (cont k = cont l))) pc).lanes ∈ lanesOf ar := by
  have hb : ∀ k ∈ (lanesOf ar).filter (fun k => decide (cont k = cont l)), k < 64 := fun k hk => (mem_lanesOf.mp (List.mem_filter.mp hk).1).1
  have hm : l ∈ lanesOf (maskOf ((lanesOf ar).filter fun k => decide (cont k = cont l))) :=
    (mem_lanes_maskOf hb l).mpr (List.mem_filter.mpr ⟨hl, by simp⟩)
  have := lowest_mem (List.ne_nil_of_mem hm)
  exact (List.mem_filter.mp ((mem_lanes_maskOf hb _).mp this)).1

theorem path_insertPath {P : Path} {r : Nat} (h : lowest P.lanes ≠ r) : ∀ ps : List Path,
    (insertPath P ps).find? (fun P => decide (lowest P.lanes = r)) = ps.find? fun P => decide (lowest P.lanes = r)
  | [] => by simp [insertPath, h]
  | Q :: ps => by
    unfold insertPath
    split
    · simp [h]
    · by_cases hq : lowest Q.lanes = r
      · simp [hq]
      · simp [hq, path_insertPath h ps]

theorem path_insertPaths (mk : VAddr → Path) {r : Nat} : ∀ (ts : List VAddr) (ps : List Path), (∀ t ∈ ts, lowest (mk t).lanes ≠ r) →
    (ts.foldl (fun ps t => insertPath (mk t) ps) ps).find? (fun P => decide (lowest P.lanes = r)) = ps.find? fun P => decide (lowest P.lanes = r)
  | [], _, _ => rfl
  | t :: ts, ps, h => by
    rw [List.foldl_cons, path_insertPaths mk ts _ fun t' ht => h t' (by simp [ht]), path_insertPath (h t (by simp))]

theorem foldl_tput_get {α : Type} [DecidableEq α] (d : α) (v : Nat → α) : ∀ (ls : List Nat) (t : Table α) (k : Nat),
    tget d (ls.foldl (fun t l => tput d t l (v l)) t) k = if k ∈ ls then v k else tget d t k
  | [], t, k => by simp
  | l :: ls, t, k => by
    rw [List.foldl_cons, foldl_tput_get d v ls, tget_tput]
    by_cases h : k ∈ ls
    · simp [h]
    · by_cases hk : k = l
      · subst hk; simp [h]
      · simp [h, hk]

theorem setJoin_join (W : Warp) (n m : Nat) (r : Rejoin) : (W.setJoin n r).join m = if m = n then r else W.join m := by
  simp [Warp.join, Warp.setJoin, tget_tput]

theorem release_spec (W : Warp) (n : Nat) :
    let r := W.join n
    let U := (W.release n).1
    ((W.release n).2 = decide (r.ar ≠ 0 ∧ r.en = r.ar)) ∧
    (¬ (r.ar ≠ 0 ∧ r.en = r.ar) → U = W) ∧
    ((r.ar ≠ 0 ∧ r.en = r.ar) → U = { W with j := U.j, cont := U.cont, paths := U.paths } ∧ U.join n = ⟨0, 0⟩ ∧ (∀ m, m ≠ n → U.join m = W.join m) ∧
      (∀ l, l ∉ lanesOf r.ar → tget 0 U.cont l = tget 0 W.cont l) ∧
      (∀ q, q ∉ lanesOf r.ar → U.path q = W.path q) ∧
      ∀ Q, Q ∈ U.paths ↔ Q ∈ W.paths ∨ ∃ l ∈ lanesOf r.ar, Q = Path.fresh (maskOf ((lanesOf r.ar).filter fun k => decide (tget 0 W.cont k = tget 0 W.cont l))) (tget 0 W.cont l)) := by
  intro r U
  by_cases h : r.ar ≠ 0 ∧ r.en = r.ar
  · have hU : W.release n = ({ W.setJoin n Rejoin.zero with
        paths := (targets ((lanesOf r.ar).map fun l => (l, tget 0 W.cont l))).foldl (fun ps t => insertPath (Path.fresh (lanesTo ((lanesOf r.ar).map fun l => (l, tget 0 W.cont l)) t) t) ps) W.paths
        cont := (lanesOf r.ar).foldl (fun c l => tput 0 c l 0) W.cont }, true) := by
      unfold Warp.release
      exact if_pos h
    refine ⟨by rw [hU]; exact (decide_eq_true h).symm, fun hc => absurd h hc, fun _ => ?_⟩
    have hU1 : U = _ := congrArg Prod.fst hU
    simp only at hU1
    rw [hU1]
    refine ⟨rfl, ?_, fun m hm => ?_, fun l hl => ?_, fun q hq => ?_, fun Q => ?_⟩
    · exact Eq.trans (b := (W.setJoin n Rejoin.zero).join n) rfl ((setJoin_join W n n _).trans (if_pos rfl))
    · exact Eq.trans (b := (W.setJoin n Rejoin.zero).join m) rfl ((setJoin_join W n m _).trans (if_neg hm))
    · show tget 0 (List.foldl _ _ _) l = _
      rw [foldl_tput_get 0 (fun _ => 0), if_neg hl]
    · refine path_insertPaths (fun t => Path.fresh (lanesTo ((lanesOf r.ar).map fun l => (l, tget 0 W.cont l)) t) t) _ _ fun t ht => ?_
      obtain ⟨e, he, rfl⟩ := mem_targets.mp ht
      obtain ⟨l, hl, rfl⟩ := List.mem_map.mp he
      rw [lanesTo_map]
      intro hc
      exact hq (hc ▸ fresh_low (cont := fun l => tget 0 W.cont l) hl (tget 0 W.cont l))
    · exact freshPaths (fun l => tget 0 W.cont l) _ _ Q
  · have hU : W.release n = (W, false) := by unfold Warp.release; exact if_neg h
    exact ⟨by rw [hU]; exact (decide_eq_false h).symm, fun _ => congrArg Prod.fst hU, fun hc => absurd hc h⟩

theorem body_j {V W : Warp} (h : V.body = W.body) : V.j = W.j := by
  have := congrArg Warp.j h; exact this
theorem body_cont {V W : Warp} (h : V.body = W.body) : V.cont = W.cont := by
  have := congrArg Warp.cont h; exact this

theorem drop_paths {x : Ix} {i : Instr} {l : Option Latch} {V W : Warp} (h : V.paths = W.paths.map fun P =>
      if lowest P.lanes = x.low then x.passed i l P else P.standsBy i.endsScene) (Q : Path) :
    Q ∈ (V.dropPath x.low).paths ↔ ∃ P ∈ W.paths, lowest P.lanes ≠ x.low ∧ Q = P.standsBy i.endsScene := by
  simp only [Warp.dropPath, List.mem_filter, h, List.mem_map, decide_eq_true_eq]
  constructor
  · rintro ⟨⟨P, hP, rfl⟩, hne⟩
    by_cases hl : lowest P.lanes = x.low
    · rw [if_pos hl] at hne; exact absurd hl hne
    · exact ⟨P, hP, hl, if_neg hl⟩
  · rintro ⟨P, hP, hl, rfl⟩
    exact ⟨⟨P, hP, if_neg hl⟩, by rwa [standsBy_lanes]⟩

theorem park_spec {W : Warp} {P Q : Path} {n : Nat} {c : VAddr} (h : W.path (lowest P.lanes) = some Q) :
    let L := P.lanes &&& (W.join n).en
    let rest := P.lanes &&& ~~~(W.join n).en
    let A := W.park n P c
    A = { W with j := A.j, cont := A.cont, paths := A.paths } ∧ A.join n = ⟨(W.join n).en, (W.join n).ar ||| L⟩ ∧
      (∀ m, m ≠ n → A.join m = W.join m) ∧ (∀ l, tget 0 A.cont l = if l ∈ lanesOf L then c else tget 0 W.cont l) ∧
      ∀ R, R ∈ A.paths ↔ R ∈ (W.dropPath (lowest P.lanes)).paths ∨ rest ≠ 0 ∧ R = { Q with lanes := rest } := by
  intro L rest A
  have hrest : P.lanes &&& ~~~L = rest := by
    show P.lanes &&& ~~~(P.lanes &&& (W.join n).en) = P.lanes &&& ~~~(W.join n).en
    apply BitVec.eq_of_getLsbD_eq
    intro i hi
    simp only [BitVec.getLsbD_and, BitVec.getLsbD_not, hi, decide_true, Bool.true_and]
    cases P.lanes.getLsbD i <;> simp
  have hjj : ∀ m, (W.setJoin n ⟨(W.join n).en, (W.join n).ar ||| L⟩).join m = if m = n then ⟨(W.join n).en, (W.join n).ar ||| L⟩ else W.join m := fun m => setJoin_join _ _ _ _
  have hcont : ∀ l, tget 0 ((lanesOf L).foldl (fun k l => tput 0 k l c) W.cont) l = if l ∈ lanesOf L then c else tget 0 W.cont l := fun l =>
    foldl_tput_get 0 (fun _ => c) _ _ _
  have hA : A = W.park n P c := rfl
  unfold Warp.park at hA
  dsimp only at hA
  split at hA
  · next hn => exact absurd (Eq.trans hn.symm h) (by simp)
  · next Q' hn =>
    have hQ : Q' = Q := Option.some.inj (Eq.trans hn.symm h)
    subst hQ
    have hr : P.lanes &&& ~~~(P.lanes &&& (W.join n).en) = rest := hrest
    rw [hr] at hA
    split at hA
    · next h0 =>
      rw [hA]
      refine ⟨rfl, (hjj _).trans (if_pos rfl), fun m hm => (hjj m).trans (if_neg hm), hcont, fun R => ?_⟩
      simp only [ne_eq, h0, not_true_eq_false, false_and, or_false]; rfl
    · next h0 =>
      rw [hA]
      refine ⟨rfl, (hjj _).trans (if_pos rfl), fun m hm => (hjj m).trans (if_neg hm), hcont, fun R => ?_⟩
      simp only [mem_insertPath, ne_eq, h0, not_false_iff, true_and]
      exact Or.comm


theorem releases_one {n : Nat} : ∀ (ms : List Nat) (W : Warp), ms.Nodup → (∀ m ∈ ms, m ≠ n → (W.join m).ar = 0) →
    W.releases ms = if n ∈ ms then W.release n else (W, false)
  | [], W, _, _ => rfl
  | m :: ms, W, hn, h => by
    have hn' := List.nodup_cons.mp hn
    unfold Warp.releases
    dsimp only
    by_cases hm : m = n
    · subst hm
      obtain ⟨r1, r2, r3⟩ := release_spec W m
      have hj : ∀ k ∈ ms, k ≠ m → ((W.release m).1.join k).ar = 0 := fun k hk hkm => by
        by_cases hc : (W.join m).ar ≠ 0 ∧ (W.join m).en = (W.join m).ar
        · rw [(r3 hc).2.2.1 k hkm]; exact h k (by simp [hk]) hkm
        · rw [r2 hc]; exact h k (by simp [hk]) hkm
      rw [releases_one ms _ hn'.2 hj, if_neg hn'.1, if_pos (by simp)]
      simp
    · have hr : W.release m = (W, false) := by
        unfold Warp.release
        exact if_neg fun hc => hc.1 (h m (by simp) hm)
      rw [hr, releases_one ms W hn'.2 fun k hk => h k (by simp [hk])]
      have : (n ∈ m :: ms) ↔ n ∈ ms := by simp [Ne.symm hm]
      by_cases hc : n ∈ ms
      · rw [if_pos hc, if_pos (this.mpr hc)]; simp
      · rw [if_neg hc, if_neg fun h => hc (this.mp h)]; simp

theorem setJoins_spec (L : Mask) : ∀ (ms : List Nat) (W : Warp), ms.Nodup →
    let U := ms.foldl (fun W n => W.setJoin n ⟨(W.join n).en &&& ~~~L, (W.join n).ar⟩) W
    U = { W with j := U.j } ∧ ∀ m, U.join m = if m ∈ ms then ⟨(W.join m).en &&& ~~~L, (W.join m).ar⟩ else W.join m
  | [], W, _ => ⟨rfl, fun m => by simp⟩
  | a :: ms, W, hn => by
    have hn' := List.nodup_cons.mp hn
    obtain ⟨h1, h2⟩ := setJoins_spec L ms (W.setJoin a ⟨(W.join a).en &&& ~~~L, (W.join a).ar⟩) hn'.2
    simp only [List.foldl_cons]
    refine ⟨by rw [h1]; rfl, fun m => ?_⟩
    rw [h2 m]
    simp only [setJoin_join]
    by_cases hm : m = a
    · subst hm; simp [hn'.1]
    · simp [hm]

/-- What the warp of a path that exits becomes, where at most register n has parked lanes. -/
theorem exitPath_spec {W : Warp} {P : Path} {n : Nat} (hn : n < 8) (hz : ∀ m, m < 8 → m ≠ n → (W.join m).ar = 0) :
    let L := P.lanes
    let J := W.join n
    let released := J.en &&& L ≠ 0 ∧ J.ar ≠ 0 ∧ J.en &&& ~~~L = J.ar
    let U := (W.exitPath P).1
    ((W.exitPath P).2 = true ↔ released) ∧
    U = { W with exited := W.exited ||| L, stack := U.stack, spill := U.spill, mon := U.mon, j := U.j, cont := U.cont, paths := U.paths } ∧
    (∀ l, l ∈ lanesOf L → U.stackOf l = [] ∧ U.spillOf l = 0 ∧ tget none U.mon l = none) ∧
    (∀ l, l ∉ lanesOf L → U.stackOf l = W.stackOf l ∧ U.spillOf l = W.spillOf l ∧ tget none U.mon l = tget none W.mon l) ∧
    (∀ m, m < 8 → U.join m = if m = n ∧ released then ⟨0, 0⟩ else ⟨(W.join m).en &&& ~~~L, (W.join m).ar⟩) ∧
    (∀ l, l ∉ lanesOf J.ar → tget 0 U.cont l = tget 0 W.cont l) ∧
    ∀ Q, Q ∈ U.paths ↔ Q ∈ (W.dropPath (lowest P.lanes)).paths ∨ released ∧ ∃ l ∈ lanesOf J.ar, Q = Path.fresh
            (maskOf ((lanesOf J.ar).filter fun k => decide (tget 0 W.cont k = tget 0 W.cont l))) (tget 0 W.cont l) := by
  intro L J released U
  have hnd : ((List.range 8).filter fun n => decide ((W.join n).en &&& P.lanes ≠ 0)).Nodup := List.Nodup.filter _ List.nodup_range
  obtain ⟨h1, h2⟩ := setJoins_spec L _ W hnd
  have hmem : ∀ m, m ∈ ((List.range 8).filter fun n => decide ((W.join n).en &&& P.lanes ≠ 0)) ↔ m < 8 ∧ (W.join m).en &&& L ≠ 0 := fun m => by
    simp only [List.mem_filter, List.mem_range, decide_eq_true_eq]; rfl
  have hkeep : ∀ m, (W.join m).en &&& L = 0 → (W.join m).en &&& ~~~L = (W.join m).en := fun m h => by
    apply BitVec.eq_of_getLsbD_eq
    intro i hi
    have := congrArg (fun z => z.getLsbD i) h
    simp only [BitVec.getLsbD_and, BitVec.getLsbD_not, hi, decide_true, Bool.true_and] at this ⊢
    cases he : (W.join m).en.getLsbD i
    · rfl
    · rw [he] at this
      have : L.getLsbD i = false := by simpa using this
      rw [this]; rfl
  have hU : W.exitPath P = Warp.releases { (List.foldl (fun W n => W.setJoin n ⟨(W.join n).en &&& ~~~L, (W.join n).ar⟩) W ((List.range 8).filter fun n => decide ((W.join n).en &&& P.lanes ≠ 0))).dropPath (lowest P.lanes) with
      exited := (List.foldl (fun W n => W.setJoin n ⟨(W.join n).en &&& ~~~L, (W.join n).ar⟩) W ((List.range 8).filter fun n => decide ((W.join n).en &&& P.lanes ≠ 0))).exited ||| L
      stack := (lanesOf L).foldl (fun t l => tput [] t l []) (List.foldl (fun W n => W.setJoin n ⟨(W.join n).en &&& ~~~L, (W.join n).ar⟩) W ((List.range 8).filter fun n => decide ((W.join n).en &&& P.lanes ≠ 0))).stack
      spill := (lanesOf L).foldl (fun t l => tput 0 t l 0) (List.foldl (fun W n => W.setJoin n ⟨(W.join n).en &&& ~~~L, (W.join n).ar⟩) W ((List.range 8).filter fun n => decide ((W.join n).en &&& P.lanes ≠ 0))).spill
      mon := (lanesOf L).foldl (fun t l => tput none t l none) (List.foldl (fun W n => W.setJoin n ⟨(W.join n).en &&& ~~~L, (W.join n).ar⟩) W ((List.range 8).filter fun n => decide ((W.join n).en &&& P.lanes ≠ 0))).mon }
      ((List.range 8).filter fun n => decide ((W.join n).en &&& P.lanes ≠ 0)) := rfl
  generalize List.foldl (fun W n => W.setJoin n ⟨(W.join n).en &&& ~~~L, (W.join n).ar⟩) W ((List.range 8).filter fun n => decide ((W.join n).en &&& P.lanes ≠ 0)) = A at h1 h2 hU
  have hB : ∃ B : Warp, W.exitPath P = B.releases ((List.range 8).filter fun n => decide ((W.join n).en &&& P.lanes ≠ 0)) ∧
      B = { W with exited := W.exited ||| L, stack := B.stack, spill := B.spill, mon := B.mon, j := B.j, paths := B.paths } ∧
      (∀ l, B.stackOf l = if l ∈ lanesOf L then [] else W.stackOf l) ∧ (∀ l, B.spillOf l = if l ∈ lanesOf L then 0 else W.spillOf l) ∧
      (∀ l, tget none B.mon l = if l ∈ lanesOf L then none else tget none W.mon l) ∧
      (∀ m, B.join m = A.join m) ∧ B.paths = (W.dropPath (lowest P.lanes)).paths := by
    refine ⟨_, hU, ?_, ?_, ?_, ?_, fun m => rfl, ?_⟩
    · rw [h1]; rfl
    · intro l; rw [h1]; exact foldl_tput_get [] (fun _ => []) _ _ _
    · intro l; rw [h1]; exact foldl_tput_get 0 (fun _ => 0) _ _ _
    · intro l; rw [h1]; exact foldl_tput_get none (fun _ => none) _ _ _
    · rw [h1]; rfl
  clear hU
  obtain ⟨B, hU, b1, b2, b3, b4, b5, b6⟩ := hB
  have hjoin : ∀ m, m < 8 → B.join m = ⟨(W.join m).en &&& ~~~L, (W.join m).ar⟩ := fun m hm => by
    rw [b5, h2]
    by_cases h : (W.join m).en &&& L = 0
    · rw [if_neg fun hc => ((hmem m).mp hc).2 h, hkeep m h]
    · rw [if_pos ((hmem m).mpr ⟨hm, h⟩)]
  rw [releases_one (n := n) _ B hnd fun m hm hmn => by rw [hjoin m ((hmem m).mp hm).1]; exact hz m ((hmem m).mp hm).1 hmn] at hU
  have hstk : ∀ V : Warp, V.stack = B.stack → V.spill = B.spill → V.mon = B.mon →
      (∀ l, l ∈ lanesOf L → V.stackOf l = [] ∧ V.spillOf l = 0 ∧ tget none V.mon l = none) ∧
      (∀ l, l ∉ lanesOf L → V.stackOf l = W.stackOf l ∧ V.spillOf l = W.spillOf l ∧ tget none V.mon l = tget none W.mon l) := fun V e1 e2 e3 => by
    have c2 : ∀ l, V.stackOf l = _ := fun l => (by unfold Warp.stackOf; rw [e1] : V.stackOf l = B.stackOf l).trans (b2 l)
    have c3 : ∀ l, V.spillOf l = _ := fun l => (by unfold Warp.spillOf; rw [e2] : V.spillOf l = B.spillOf l).trans (b3 l)
    have c4 : ∀ l, tget none V.mon l = _ := fun l => (by rw [e3] : tget none V.mon l = tget none B.mon l).trans (b4 l)
    refine ⟨fun l hl => ?_, fun l hl => ?_⟩
    · exact ⟨(c2 l).trans (if_pos hl), (c3 l).trans (if_pos hl), (c4 l).trans (if_pos hl)⟩
    · exact ⟨(c2 l).trans (if_neg hl), (c3 l).trans (if_neg hl), (c4 l).trans (if_neg hl)⟩
  have hnone : ¬ released → W.exitPath P = (B, false) ∨ W.exitPath P = (B.release n) ∧ ¬ ((B.join n).ar ≠ 0 ∧ (B.join n).en = (B.join n).ar) := fun hr => by
    by_cases hc : n < 8 ∧ (W.join n).en &&& L ≠ 0
    · rw [if_pos ((hmem n).mpr hc)] at hU
      refine .inr ⟨hU, fun hk => hr ⟨hc.2, ?_⟩⟩
      rw [hjoin n hn] at hk
      exact hk
    · rw [if_neg fun h => hc ((hmem n).mp h)] at hU
      exact .inl hU
  obtain ⟨r1, r2, r3⟩ := release_spec B n
  have hcont : B.cont = W.cont := by rw [b1]
  by_cases hrel : released
  · have hc : n < 8 ∧ (W.join n).en &&& L ≠ 0 := ⟨hn, hrel.1⟩
    rw [if_pos ((hmem n).mpr hc)] at hU
    have hk : (B.join n).ar ≠ 0 ∧ (B.join n).en = (B.join n).ar := by rw [hjoin n hn]; exact hrel.2
    obtain ⟨u1, u2, u3, u4, _, u6⟩ := r3 hk
    have har : (B.join n).ar = J.ar := by rw [hjoin n hn]
    rw [har, hcont] at u4 u6
    have hUe : U = (B.release n).1 := congrArg Prod.fst hU
    generalize (B.release n).1 = U' at u1 u2 u3 u4 u6 hUe
    rw [hUe]
    have e1 : U'.stack = B.stack := by rw [u1]
    have e2 : U'.spill = B.spill := by rw [u1]
    have e3 : U'.mon = B.mon := by rw [u1]
    have := hstk U' e1 e2 e3
    refine ⟨⟨fun _ => hrel, fun _ => by rw [hU, r1]; exact decide_eq_true hk⟩, ?_, this.1, this.2, fun m hm => ?_, u4, fun Q => ?_⟩
    · rw [u1, b1]
    · by_cases hmn : m = n
      · subst hmn; rw [u2, if_pos ⟨rfl, hrel⟩]
      · rw [if_neg fun h => hmn h.1, u3 m hmn, hjoin m hm]
    · rw [u6, b6]; simp only [hrel, true_and]
  · have hUB : U = B ∧ ((W.exitPath P).2 = true ↔ released) := by
      rcases hnone hrel with h | ⟨h, hk⟩
      · exact ⟨congrArg Prod.fst h, by rw [h]; simp [hrel]⟩
      · exact ⟨(congrArg Prod.fst h).trans (r2 hk), by rw [h, r1, decide_eq_false hk]; simp [hrel]⟩
    rw [hUB.1]
    have := hstk B rfl rfl rfl
    refine ⟨hUB.2, ?_, this.1, this.2, fun m hm => ?_, fun l _ => by rw [hcont], fun Q => ?_⟩
    · rw [b1]
    · rw [if_neg fun h => hrel h.2, hjoin m hm]
    · rw [b6]; simp only [hrel, false_and, or_false]

theorem endScene_spec {s : State} {w r : Nat} {W : Warp} (hw : s.warp w = some W) :
    s.endScene w r = { s with warps := (s.endScene w r).warps } ∧
    (∀ v, v ≠ w → (s.endScene w r).warp v = if v / 12 = w / 12 then (s.warp v).map (Warp.standsBy true) else s.warp v) ∧
    (s.endScene w r).warp w = some (({ W.modPath r (fun P => { P with scene := none }) with running := none } : Warp).woken true r) := by
  unfold State.endScene
  rw [State.modWarp_eq hw]
  refine ⟨rfl, fun v hv => ?_, ?_⟩
  · rw [wakeYields_warp, State.setWarp_warp, if_neg hv]
    simp [hv, woken_false]
  · rw [wakeYields_warp, State.setWarp_warp_same]
    simp

theorem drop_map {r : Nat} {e : Bool} {W B : Warp} {f : Machine.Path → Machine.Path} (hB : B.paths = W.paths.map f)
    (hl : ∀ P, (f P).lanes = P.lanes) (hu : ∀ P, lowest P.lanes ≠ r → f P = P.standsBy e) (Q : Path) :
    Q ∈ (B.dropPath r).paths ↔ ∃ P ∈ W.paths, lowest P.lanes ≠ r ∧ Q = P.standsBy e := by
  simp only [Warp.dropPath, List.mem_filter, hB, List.mem_map, decide_eq_true_eq]
  constructor
  · rintro ⟨⟨P, hP, rfl⟩, hne⟩
    rw [hl] at hne
    exact ⟨P, hP, hne, hu P hne⟩
  · rintro ⟨P, hP, hne, rfl⟩
    exact ⟨⟨P, hP, hu P hne⟩, by rwa [standsBy_lanes]⟩


end Sys2Proof.Machine
end

