-- ==== Sys2Proof/Laws/Steps.lean ====
section
/-! SUPPORT. What each instruction and event keeps: all of them together, with a lemma for each whose effect has several
branches. -/

namespace Sys2Proof.Machine

set_option Elab.async false

theorem keeps_mov {s s' : State} {e n p d a w} (h : exec (.mov e n p d a w) s = .next s') : Kept s s' := by
  refine kept_run (fun x => ?_) h
  show (if w then laneOp64 _ _ _ _ _ _ _ else laneOp _ _ _ _ _ _ _).Good _
  dsimp only; split
  · exact good_laneOp64 _ _ _ _ _ _ _
  · exact good_laneOp _ _ _ _ _ _ _

theorem keeps_movs {s s' : State} {e n d im} (h : exec (.movs e n d im) s = .next s') : Kept s s' := by
  refine kept_run (fun x => ?_) h
  split
  · exact good_laneOp64 _ _ _ _ _ _ _
  · exact good_laneOp _ _ _ _ _ _ _

theorem keeps_iset {s s' : State} {e p w c k a b} (h : exec (.iset e p w c k a b) s = .next s') : Kept s s' := by
  refine kept_run (fun x => ?_) h
  split <;> exact good_laneMaskOp _ _ _ _ _ _

theorem keeps_isetz {s s' : State} {e p w c k a b} (h : exec (.isetz e p w c k a b) s = .next s') : Kept s s' := by
  refine kept_run (fun x => ?_) h
  split <;> exact good_laneMaskOp _ _ _ _ _ _

theorem keeps_cvt {s s' : State} {e n p d a r sel t} (h : exec (.cvt e n p d a r sel t) s = .next s') :
    Kept s s' := by
  refine kept_run (fun x => ?_) h
  dsimp only; split
  · split <;> exact good_laneOp _ _ _ _ _ _ _
  · split
    · exact good_laneOp64 _ _ _ _ _ _ _
    · exact good_laneOp _ _ _ _ _ _ _

theorem keeps_ret {s s' : State} (h : exec (.ret) s = .next s') : Kept s s' := by
  refine kept_run (fun x => good_returns fun t f ht => ?_) h
  split
  · exact Kept.refl s
  · exact kept_setWarp _ _ ht

theorem keeps_exit {s s' : State} (h : exec (.exit) s = .next s') : Kept s s' := by
  refine kept_run (fun x => ?_) h
  have h1 : Kept s ((s.endScene x.w x.low).discardLoads x.w x.P.lanes) := kept_endScene _ _ (.refl s)
  dsimp only
  split
  · exact h1
  · split
    · exact kept_checkBarrier _ _ (kept_checkBarrier _ _ (kept_deadlock _ _ (kept_setWarp _ _ (kept_modTeam _ _ h1))))
    · exact kept_checkBarrier _ _ (kept_deadlock _ _ (kept_setWarp _ _ (kept_modTeam _ _ h1)))

theorem keeps_rejoin {s s' : State} {j} (h : exec (.rejoin j) s = .next s') : Kept s s' := by
  refine kept_run (fun x => ?_) h
  have h1 := kept_retire x (.rejoin j) none (Kept.refl s)
  dsimp only
  split
  · exact h1
  · split
    · exact h1
    · exact kept_deadlock _ _ (kept_setWarp _ _ h1)

theorem keeps_vote {s s' : State} {e n d a m} (h : exec (.vote e n d a m) s = .next s') : Kept s s' := by
  refine kept_run (fun x => ?_) h
  dsimp only; split
  · exact good_laneOp _ _ _ _ _ _ _
  · exact good_laneOp _ _ _ _ _ _ _
  · exact good_crossMask _ _ _ _ _ _
  · exact good_laneOp _ _ _ _ _ _ _

theorem keeps_matchKeys {s s' : State} {e n d a k} (h : exec (.matchKeys e n d a k) s = .next s') : Kept s s' := by
  refine kept_run (fun x => ?_) h
  split <;> exact good_crossMask _ _ _ _ _ _

theorem keeps_rdlane {s s' : State} {e g a w n} (h : exec (.rdlane e g a w n) s = .next s') : Kept s s' := by
  refine kept_run (fun x => ?_) h
  split
  · exact Kept.refl s
  · exact good_withOperands (good_uniOp _ _ _ _ _)

theorem keeps_bcast {s s' : State} {e n d g w} (h : exec (.bcast e n d g w) s = .next s') : Kept s s' := by
  refine kept_run (fun x => good_withUniform ?_) h
  split
  · exact good_laneOp64 _ _ _ _ _ _ _
  · exact good_laneOp _ _ _ _ _ _ _

theorem keeps_lda {s s' : State} {e d a sc r z} (h : exec (.lda e d a sc r z) s = .next s') : Kept s s' := by
  refine kept_run (fun x => good_withOperands ?_) h
  dsimp only
  split
  · exact Kept.refl s
  · split
    · trivial
    · have h0 := fun as => kept_readAll x as (.refl s)
      split
      · next hr => exact (Eq.mp (congrArg (fun r => Kept s (readTo r)) hr) (h0 _) :)
      · next hr =>
        have hk := (Eq.mp (congrArg (fun r => Kept s (readTo r)) hr) (h0 _) :)
        split
        · exact Kept.refl s
        · refine kept_addLoads _ (kept_acquire _ _ (kept_keepLeaves _ _ (kept_foldl (fun v a h => ?_) _ _ hk)))
          split
          · exact kept_fillFor _ h
          · exact h

theorem keeps_fchk {s s' : State} {e n d a o z} (h : exec (.fchk e n d a o z) s = .next s') : Kept s s' := by
  refine kept_run (fun x => good_withOperands ?_) h
  dsimp only; split
  · exact Kept.refl s
  · exact good_writeResult (.refl s)

theorem keeps_stg {s s' : State} {e d a o z} (h : exec (.stg e d a o z) s = .next s') : Kept s s' := by
  refine kept_run (fun x => good_withOperands ?_) h
  split
  · exact Kept.refl s
  · exact good_issueStores (kept_keepLeaves _ _ (.refl s))

theorem keeps_stp {s s' : State} {e d a o z} (h : exec (.stp e d a o z) s = .next s') : Kept s s' := by
  refine kept_run (fun x => good_withOperands ?_) h
  split
  · exact Kept.refl s
  · exact good_issueStores (kept_keepLeaves _ _ (.refl s))

theorem keeps_strel {s s' : State} {e d a sc z} (h : exec (.strel e d a sc z) s = .next s') : Kept s s' := by
  refine kept_run (fun x => good_withOperands ?_) h
  dsimp only
  split
  · exact Kept.refl s
  · split
    · trivial
    · split
      · exact kept_sysRelease _ (kept_foldl (fun _ _ h => kept_writeAt _ _ _ h) _ _ (kept_keepLeaves _ _ (.refl s)))
      · exact good_issueStores (kept_keepLeaves _ _ (.refl s))

theorem keeps_mcst {s s' : State} {e d a o z} (h : exec (.mcst e d a o z) s = .next s') : Kept s s' := by
  refine kept_run (fun x => good_withOperands ?_) h
  dsimp only
  split
  · exact Kept.refl s
  · split
    · trivial
    · exact (kept_keepLeaves x _ (.refl s) :)

theorem keeps_empty {s s' : State} {e a o z} (h : exec (.empty e a o z) s = .next s') : Kept s s' := by
  refine kept_run (fun x => good_withOperands ?_) h
  dsimp only
  split
  · exact Kept.refl s
  · split
    · trivial
    · exact kept_foldl (fun _ _ h => kept_setEmpty _ _ h) _ _ (.refl s)

theorem keeps_monarm {s s' : State} {e d a o z} (h : exec (.monarm e d a o z) s = .next s') : Kept s s' := by
  refine kept_run (fun x => good_withOperands ?_) h
  dsimp only
  split
  · exact Kept.refl s
  · split
    · exact Kept.refl s
    · exact kept_addLoads _ (kept_modWarp _ _ (kept_foldl (fun _ _ h => kept_shareBytes _ _ h) _ _ (kept_keepLeaves _ _ (.refl s))))

theorem keeps_monwait {s s' : State} {n d f t} (h : exec (.monwait n d f t) s = .next s') : Kept s s' := by
  refine kept_run (fun x => good_withOperands ?_) h
  dsimp only
  split
  · trivial
  · exact kept_modWarp _ _ (kept_retire _ _ _ (.refl s))

theorem keeps_fence {s s' : State} {e k sc} (h : exec (.fence e k sc) s = .next s') : Kept s s' := by
  refine kept_run (fun x => ?_) h
  split
  · trivial
  · have h1 : Kept s (if k = 0 then s else x.fenceRelease s sc.toNat) := by
      split
      · exact .refl s
      · exact kept_fenceRelease _ _ (.refl s)
    dsimp only
    split
    · exact h1
    · exact kept_acquire _ _ h1

theorem keeps_cue {s s' : State} {e d a x i} (h : exec (.cue e d a x i) s = .next s') : Kept s s' := by
  refine kept_run (fun x => good_withOperands ?_) h
  dsimp only
  split
  · exact Kept.refl s
  · trivial
  · split
    · exact Kept.refl s
    · split
      · exact Kept.refl s
      · trivial

theorem keeps_cast {s s' : State} {e d a mode cur kd gs} (h : exec (.cast e d a mode cur kd gs) s = .next s') : Kept s s' := by
  refine kept_run (fun x => good_withOperands ?_) h
  split
  · exact Kept.refl s
  · refine good_withUniform ?_
    split
    · exact Kept.refl s
    · split
      · trivial
      · split
        · exact kept_setCastQueue _ _ (.refl s)
        · exact Kept.refl s

theorem keeps_casti {s s' : State} {e a m c} (h : exec (.casti e a m c) s = .next s') : Kept s s' := by
  refine kept_run (fun x => good_withOperands ?_) h
  dsimp only
  split
  · trivial
  · have h0 := fun v => kept_castRecords x s m.toNat v
    split
    · next hr => exact (Eq.mp (congrArg (fun r => Kept s (readTo r)) hr) (h0 _) :)
    · next hr =>
      have hk := (Eq.mp (congrArg (fun r => Kept s (readTo r)) hr) (h0 _) :)
      split
      · have h1 := fun v A B => kept_rowEnds (x := x) v A B hk
        split
        · next hr2 => exact (Eq.mp (congrArg (fun r => Kept s (readTo r)) hr2) (h1 _ _ _) :)
        · next hr2 => exact kept_modWarp _ _ (Eq.mp (congrArg (fun r => Kept s (readTo r)) hr2) (h1 _ _ _) :)
      · split <;> exact kept_modWarp _ _ hk

theorem keeps_castsplit {s s' : State} {e c a b} (h : exec (.castsplit e c a b) s = .next s') : Kept s s' := by
  refine kept_run (fun x => good_withOperands ?_) h
  dsimp only
  split
  · trivial
  · have h0 := fun v => kept_castRecords x s 3 v
    split
    · next hr => exact (Eq.mp (congrArg (fun r => Kept s (readTo r)) hr) (h0 _) :)
    · next hr =>
      have hk := (Eq.mp (congrArg (fun r => Kept s (readTo r)) hr) (h0 _) :)
      split
      · exact hk
      · have h1 := fun v A B => kept_rowEnds (x := x) v A B hk
        split
        · next hr2 => exact (Eq.mp (congrArg (fun r => Kept s (readTo r)) hr2) (h1 _ _ _) :)
        · next hr2 =>
          have hk2 := (Eq.mp (congrArg (fun r => Kept s (readTo r)) hr2) (h1 _ _ _) :)
          have h2 := fun v A r0 r1 t lo hi => kept_splitSearch (x := x) v A r0 r1 t 33 lo hi hk2
          split
          · next hr3 => exact (Eq.mp (congrArg (fun r => Kept s (readTo r)) hr3) (h2 _ _ _ _ _ _ _) :)
          · next hr3 => exact kept_modWarp _ _ (Eq.mp (congrArg (fun r => Kept s (readTo r)) hr3) (h2 _ _ _ _ _ _ _) :)

theorem keeps_castrd {s s' : State} {e n d c} (h : exec (.castrd e n d c) s = .next s') : Kept s s' := by
  refine kept_run (fun x => good_withOperands ?_) h
  cases n <;> exact Kept.refl s

theorem keeps_colrd {s s' : State} {e d a} (h : exec (.colrd e d a) s = .next s') : Kept s s' := by
  refine kept_run (fun x => good_withOperands ?_) h
  dsimp only
  repeat' split
  all_goals exact Kept.refl s

theorem keeps_mstat {s s' : State} {e n d c b} (h : exec (.mstat e n d c b) s = .next s') : Kept s s' := by
  refine kept_run (fun x => good_withOperands ?_) h
  dsimp only
  split
  · exact Kept.refl s
  · refine good_writeResult ?_
    cases c <;> exact Kept.refl s

theorem keeps_trap {s s' : State} {d c} (h : exec (.trap d c) s = .next s') : Kept s s' := by
  refine kept_run (fun x => good_withOperands (good_withUniform ?_)) h
  have h1 := kept_retire x (.trap d c) none (Kept.refl s)
  dsimp only
  split
  · exact kept_notify _ (kept_modWarp _ _ h1 :)
  · exact kept_holdContext _ (kept_modCtx _ _ (kept_notify _ h1))

theorem keeps_gld {s s' : State} {e d a z o} (h : exec (.gld e d a z o) s = .next s') : Kept s s' := by
  refine kept_run (fun x => good_withUniform ?_) h
  split
  · exact Kept.refl s
  · exact good_issueLoads (kept_keepLeaves _ _ (.refl s))

theorem keeps_gst {s s' : State} {e d a sp z o} (h : exec (.gst e d a sp z o) s = .next s') : Kept s s' := by
  refine kept_run (fun x => good_withUniform ?_) h
  dsimp only
  split
  · exact good_scratchStores _ _ _ _ _ _
  · split
    · exact Kept.refl s
    · exact good_issueStores (kept_keepLeaves _ _ (.refl s))

theorem keeps_kmov {s s' : State} {e d a f} (h : exec (.kmov e d a f) s = .next s') : Kept s s' := by
  refine kept_run (fun x => ?_) h
  split
  · exact good_maskOp _ _ _ _
  · split
    · exact Kept.refl s
    · exact good_withUniform (good_maskOp _ _ _ _)
  · exact good_uniOp _ _ _ _ _

theorem keeps_barg {s s' : State} (h : exec .barg s = .next s') : Kept s s' := by
  refine kept_run (fun x => ?_) h
  split
  · exact good_arrive _ _ _ _ _
  · exact Kept.refl s

theorem keeps_launch {s s' : State} {e d a} (h : exec (.launch e d a) s = .next s') : Kept s s' := by
  refine kept_run (fun x => good_withUniform ?_) h
  dsimp only
  split
  · exact Kept.refl s
  · split
    · trivial
    · split
      · exact Kept.refl s
      · next hr => exact (kept_readRecord (.refl s) hr :)

theorem keeps_partset {s s' : State} {e p} (h : exec (.partset e p) s = .next s') : Kept s s' := by
  refine kept_run (fun x => ?_) h
  dsimp only
  split <;> exact Kept.refl s

theorem keeps_rset {s s' : State} {e q a b} (h : exec (.rset e q a b) s = .next s') : Kept s s' := by
  refine kept_run (fun x => good_withUniform ?_) h
  dsimp only
  repeat' split
  all_goals first | exact Kept.refl s | trivial | skip
  exact kept_wakeRing _ _ (kept_setRing _ _ _ (kept_emptyRange _ _ _ (.refl s)))

theorem keeps_racq {s s' : State} {d q} (h : exec (.racq d q) s = .next s') : Kept s s' := by
  refine kept_run (fun x => good_withUniform ?_) h
  dsimp only
  split
  · exact Kept.refl s
  · split
    · trivial
    · exact kept_setRing _ _ _ (kept_setWarp _ _ (.refl s))

theorem keeps_rpub {s s' : State} {e a q} (h : exec (.rpub e a q) s = .next s') : Kept s s' := by
  refine kept_run (fun x => good_withUniform ?_) h
  dsimp only
  split
  · exact Kept.refl s
  · refine good_withSlot fun r => ?_
    repeat' split
    · exact Kept.refl s
    · trivial
    · exact kept_setRing _ _ _ (.refl s)

theorem keeps_rwait {s s' : State} {a q} (h : exec (.rwait a q) s = .next s') : Kept s s' := by
  refine kept_run (fun x => good_withUniform ?_) h
  dsimp only
  split
  · exact Kept.refl s
  · refine good_withSlot fun r => ?_
    split
    · exact Kept.refl s
    · trivial

theorem keeps_rfree {s s' : State} {e a q} (h : exec (.rfree e a q) s = .next s') : Kept s s' := by
  refine kept_run (fun x => good_withUniform ?_) h
  dsimp only
  split
  · exact Kept.refl s
  · refine good_withSlot fun r => ?_
    repeat' split
    · exact Kept.refl s
    · exact Kept.refl s
    · trivial
    · exact kept_setRing _ _ _ (kept_emptyRange _ _ _ (.refl s))

theorem kept_releaseLine {s u : State} (w) (hu : Kept s u) : Kept s (u.releaseLine w) := by
  unfold State.releaseLine
  split
  · exact hu
  · split
    · exact hu
    · split
      · exact hu.trans (kept_finish (.refl u) (good_ldsBody _ _ _ _ _ _ _))
      · exact hu.trans (kept_finish (.refl u) (good_ldsBody _ _ _ _ _ _ _))
      · exact hu.trans (kept_finish (.refl u) (good_atomBody _ _ _ _ _ _ _ _ _ _ _ _))
      · exact hu.trans (kept_finish (.refl u) (good_gldsBody _ _ _ _ _ _))
      · exact hu

theorem kept_switch {s u : State} (x : Ix) (bs m) (hu : Kept s u) : Kept s (x.switch u bs m) :=
  kept_switchBanks _ _ _ (kept_settle _ (kept_foldl (fun _ r h => kept_releaseLine r.1.w h) _ _ hu))

theorem keeps_bank {s s' : State} {e a m} (h : exec (.bank e a m) s = .next s') : Kept s s' := by
  refine kept_run (fun x => good_withUniform ?_) h
  dsimp only
  repeat' split
  · exact Kept.refl s
  · exact kept_trapWaiters (kept_switch _ _ _ (.refl s))
  · exact Kept.refl s

theorem keeps_mwait {s s' : State} {a} (h : exec (.mwait a) s = .next s') : Kept s s' := by
  refine kept_run (fun x => good_withUniform ?_) h
  dsimp only
  split <;> exact Kept.refl s

theorem keeps_hang {s s' : State} {e d a b i} (h : exec (.hang e d a b i) s = .next s') : Kept s s' := by
  refine kept_run (fun x => good_withUniform ?_) h
  dsimp only
  repeat' split
  all_goals first | exact Kept.refl s | exact kept_keepLeaves x [_] (.refl s)

theorem keeps_unhang {s s' : State} {e i} (h : exec (.unhang e i) s = .next s') : Kept s s' := by
  refine kept_run (fun x => ?_) h
  repeat' split
  all_goals exact Kept.refl s

theorem keeps_sceneStart {s s' : State} {core wing} (h : exec (.sceneStart core wing) s = .next s') : Kept s s' := by
  cases h
  repeat' split
  · exact (kept_startScene _ (kept_ageOthers _ _ _ (.refl s)) :)
  all_goals exact .refl s

theorem keeps_loadDataReturn {s s' : State} {id err} (h : exec (.loadDataReturn id err) s = .next s') : Kept s s' := by
  cases h
  repeat' split
  all_goals first | exact .refl s | exact kept_failLoad _ (.refl s) | exact kept_deliver _ _ (.refl s) |
    exact kept_returnLoad _ _ (.refl s) | exact kept_remake _ (.refl s) |
    exact kept_devReturn _ _ (fun _ _ h => kept_returnArm _ _ h) (.refl s)

theorem keeps_atomicReply {s s' : State} {id} (h : exec (.atomicReply id) s = .next s') : Kept s s' := by
  cases h
  repeat' split
  all_goals first | exact .refl s | exact kept_deliver _ _ (.refl s)

theorem keeps_storePerformed {s s' : State} {id} (h : exec (.storePerformed id) s = .next s') : Kept s s' := by
  cases h
  dsimp only
  repeat' split
  · exact .refl s
  · exact kept_scratchPerform _ (.refl s)
  · exact kept_devWrite _ _ _ (.refl s)
  · exact kept_memPerform _ (.refl s)
  · exact .refl s

theorem keeps_emptyLineRelease {s s' : State} {w} (h : exec (.emptyLineRelease w) s = .next s') : Kept s s' := by
  cases h
  exact kept_releaseLine w (.refl s)

theorem keeps_collectorEntryLeave {s s' : State} {grp line} (h : exec (.collectorEntryLeave grp line) s = .next s') : Kept s s' := by
  cases h
  dsimp only
  split <;> exact .refl s

theorem keeps_queryTransaction {s s' : State} {grp row bad} (h : exec (.queryTransaction grp row bad) s = .next s') : Kept s s' := by
  cases h
  split
  · split
    · exact .refl s
    · exact kept_requery _ (.refl s)
  · dsimp only
    split
    · exact .refl s
    · exact kept_cueDone _ (.refl s)

theorem keeps_hangFinish {s s' : State} {ctx i} (h : exec (.hangFinish ctx i) s = .next s') : Kept s s' := by
  cases h
  split
  · split
    · exact .refl s
    · split
      · exact kept_modWarp _ _ (.refl s)
      · exact kept_modWarp _ _ (kept_setHandle _ _ _ (kept_foldl (fun _ _ h => kept_mscDrop _ (kept_recall _ h)) _ _ (.refl s)))
  · exact .refl s

theorem keeps_unhangFinish {s s' : State} {ctx i} (h : exec (.unhangFinish ctx i) s = .next s') : Kept s s' := by
  cases h
  dsimp only
  split
  · exact .refl s
  · refine kept_foldl (fun _ _ h => kept_retire _ _ _ h) _ _ ?_
    repeat' split
    all_goals exact .refl s

theorem keeps_bankQueueEntry {s s' : State} {w} (h : exec (.bankQueueEntry w) s = .next s') : Kept s s' := by
  cases h
  split
  · exact .refl s
  · split
    · exact .refl s
    · split
      · exact kept_finish (.refl s) (good_mashBody _ _ _ _ _ _ _ _ _ _ _ _)
      · exact kept_finish (.refl s) (good_cellBody _ _ _ _)
      · exact kept_finish (.refl s) (good_cellBody _ _ _ _)
      · exact .refl s

theorem keeps_steepExecute {s s' : State} {core bank} (h : exec (.steepExecute core bank) s = .next s') : Kept s s' := by
  cases h
  dsimp only
  repeat' split
  all_goals first | exact .refl s | exact kept_setBank _ _ _ (kept_advance _ (.refl s)) | exact kept_advance _ (.refl s)

theorem keeps_colrdRead {s s' : State} {w} (h : exec (.colrdRead w) s = .next s') : Kept s s' := by
  cases h
  dsimp only
  repeat' split
  all_goals first | exact .refl s | exact kept_finish (.refl s) (Kept.refl s)

theorem keeps_bankSwitch {s s' : State} {w} (h : exec (.bankSwitch w) s = .next s') : Kept s s' := by
  cases h
  repeat' split
  all_goals first | exact .refl s | exact kept_trapWaiters (kept_retire _ _ _ (kept_switch _ _ _ (.refl s)))

theorem keeps_copyIssue {s s' : State} {w} (h : exec (.copyIssue w) s = .next s') : Kept s s' := by
  cases h
  repeat' split
  all_goals first | exact .refl s | exact kept_finish (.refl s) (good_copyBody _ _ _ _ _ _ _ _ _ _ _ _)

theorem keeps_copyStart {s s' : State} {id} (h : exec (.copyStart id) s = .next s') : Kept s s' := by
  cases h
  dsimp only
  repeat' split
  all_goals first | exact .refl s | exact kept_setCopy _ (kept_engWalks _ _ _ (.refl s)) | exact kept_engWalks _ _ _ (.refl s)

theorem keeps_copyWrite {s s' : State} {id} (h : exec (.copyWrite id) s = .next s') : Kept s s' := by
  cases h
  repeat' split
  all_goals first | exact .refl s | exact kept_advance _ (.refl s)

theorem keeps_copyComplete {s s' : State} {id} (h : exec (.copyComplete id) s = .next s') : Kept s s' := by
  cases h
  dsimp only
  repeat' split
  all_goals first | exact .refl s | exact kept_setRing _ _ _ (.refl s)

theorem keeps_copyPark {s s' : State} {id err} (h : exec (.copyPark id err) s = .next s') : Kept s s' := by
  cases h
  dsimp only
  repeat' split
  all_goals first | exact .refl s | exact kept_parkCopy _ _ _ _ (.refl s)

theorem keeps_castCommandStart {s s' : State} {core} (h : exec (.castCommandStart core) s = .next s') : Kept s s' := by
  cases h
  split
  · exact kept_setCastQueue _ _ (.refl s)
  · exact .refl s

theorem keeps_castCommandStop {s s' : State} {core} (h : exec (.castCommandStop core) s = .next s') : Kept s s' := by
  cases h
  refine kept_admitCast _ ?_
  have h1 : ∀ c l, Kept s (s.setCastQueue c l) := fun c l => kept_setCastQueue c l (.refl s)
  dsimp only
  repeat' split
  all_goals first | exact .refl s | exact h1 _ _ | exact (h1 _ _).trans (kept_finish (.refl _) (good_castBody _ _ _ _ _ _ _ _))

theorem keeps_launchWindowGo {s s' : State} {port win} (h : exec (.launchWindowGo port win) s = .next s') : Kept s s' := by
  cases h
  split
  · exact kept_windowGo _ _ (.refl s)
  · exact .refl s

theorem keeps_launchOfferOutcome {s s' : State} {n} (h : exec (.launchOfferOutcome n) s = .next s') : Kept s s' := by
  cases h
  split
  · exact kept_decideOffer _ (.refl s)
  · exact .refl s

theorem keeps_teamRetire {s s' : State} {tid} (h : exec (.teamRetire tid) s = .next s') : Kept s s' := by
  cases h
  repeat' split
  all_goals first | exact .refl s | exact kept_retireTeam _ _ (.refl s)

theorem keeps_holdComplete {s s' : State} {tid} (h : exec (.holdComplete tid) s = .next s') : Kept s s' := by
  cases h
  dsimp only
  split
  · exact .refl s
  · split
    · exact .refl s
    · split
      · exact .refl s
      · have h1 : ∀ l T, Kept s (List.foldl State.notify (s.setTeam tid T) l) :=
          fun l T => kept_foldl (fun _ _ h => kept_notify _ h) _ _ (kept_setTeam _ _ (.refl s))
        split
        · exact kept_resumeAsserted _ (h1 _ _)
        · exact h1 _ _

theorem keeps_eventRecordWrite {s s' : State} {ctx} (h : exec (.eventRecordWrite ctx) s = .next s') : Kept s s' := by
  cases h
  dsimp only
  split
  · exact .refl s
  · split
    · exact .refl s
    · exact kept_modCtx _ _ (kept_hubWrite _ (.refl s))

theorem keeps_deadlineExpiry {s s' : State} {ctx} (h : exec (.deadlineExpiry ctx) s = .next s') : Kept s s' := by
  cases h
  repeat' split
  all_goals first | exact .refl s | exact kept_strikeContext _ _ (.refl s)

theorem keeps_strikeComplete {s s' : State} {n} (h : exec (.strikeComplete n) s = .next s') : Kept s s' := by
  cases h
  repeat' split
  all_goals first | exact .refl s | exact kept_finishStrike _ (.refl s)

theorem keeps_invalidationComplete {s s' : State} {ctx} (h : exec (.invalidationComplete ctx) s = .next s') : Kept s s' := by
  cases h
  dsimp only
  split <;> exact .refl s

theorem keeps_semaphoreRead {s s' : State} {agent sem} (h : exec (.semaphoreRead agent sem) s = .next s') : Kept s s' := by
  cases h
  split
  · exact (kept_semRead _ _ (.refl s) :)
  · exact .refl s

theorem keeps_semaphoreWrite {s s' : State} {agent sem} (h : exec (.semaphoreWrite agent sem) s = .next s') : Kept s s' := by
  cases h
  split
  · exact kept_fireReg _ _ (kept_semWrite _ _ _ (.refl s))
  · exact .refl s

theorem keeps_reportComplete {s s' : State} (h : exec (.reportComplete) s = .next s') : Kept s s' := by
  cases h
  split <;> exact .refl s

theorem keeps_registerWrite {s s' : State} {agent off wide v} (h : exec (.registerWrite agent off wide v) s = .next s') : Kept s s' := by
  cases h
  repeat' split
  all_goals first | exact .refl s | exact kept_fireReg _ _ (kept_regWrite _ _ _ _ (.refl s))

theorem keeps_hostCxlMemRequest {s s' : State} {port off len data} (h : exec (.hostCxlMemRequest port off len data) s = .next s') : Kept s s' := by
  change execHostCxlMemRequest port off len data s = _ at h
  unfold execHostCxlMemRequest at h
  split at h
  · cases h
  · split at h
    · cases h; exact .refl s
    · cases data <;> cases h
      · exact kept_hostRead _ (.refl s)
      · exact kept_hostWrite _ (.refl s)

theorem keeps_hostSnoop {s s' : State} {port line data} (h : exec (.hostSnoop port line data) s = .next s') : Kept s s' := by
  cases h
  dsimp only
  repeat' split
  · exact kept_recall _ (.refl s)
  · exact kept_hubWrite _ (kept_recall _ (.refl s))
  · exact .refl s

theorem keeps_linkDown {s s' : State} {port} (h : exec (.linkDown port) s = .next s') : Kept s s' := by
  cases h
  dsimp only
  refine kept_foldl (fun _ _ h => kept_fireLine _ h) _ _ ?_
  have h1 := kept_settlePeers port (kept_settle (fun loc => decide (hostPort (regionOf loc) = some port.toNat)) (Kept.refl s))
  exact ⟨h1.1, h1.2.1, h1.2.2.1, fun hc => twfFrom_filter _ _ (h1.2.2.2.1 hc), h1.2.2.2.2⟩

theorem keeps_linkUp {s s' : State} {port f256 lanes} (h : exec (.linkUp port f256 lanes) s = .next s') : Kept s s' := by
  cases h
  split <;> exact .refl s

theorem keeps_guardBandStep {s s' : State} {core margin} (h : exec (.guardBandStep core margin) s = .next s') : Kept s s' := by
  cases h
  dsimp only
  split <;> exact .refl s

theorem keeps_eolhRefresh {s s' : State} {core v} (h : exec (.eolhRefresh core v) s = .next s') : Kept s s' := by
  cases h
  split
  · exact .refl s
  · exact kept_modCore _ _ (.refl s)

theorem keeps_throttle {s s' : State} {die power temp watts} (h : exec (.throttle die power temp watts) s = .next s') : Kept s s' := by
  cases h
  dsimp only
  split <;> exact .refl s

theorem keeps_instructionFetchFault {s s' : State} {cause va} (h : exec (.instructionFetchFault cause va) s = .next s') : Kept s s' := by
  change execInstructionFetchFault cause va s = _ at h
  unfold execInstructionFetchFault at h
  split at h
  · cases h; exact .refl s
  · cases h; exact kept_raise _ _ _ (.refl s)

theorem keeps_peerModuleRequest {s s' : State} {a len kind op ty v cmp} (h : exec (.peerModuleRequest a len kind op ty v cmp) s = .next s') : Kept s s' := by
  change execPeerModuleRequest a len kind op ty v cmp s = _ at h
  unfold execPeerModuleRequest at h
  dsimp only at h
  repeat' split at h
  · cases h
  all_goals cases h
  · exact .refl s
  · exact kept_hostRead _ (.refl s)
  · exact kept_hostWrite _ (.refl s)
  · exact kept_peerAtomic _ _ _ _ _ (.refl s)
  · exact kept_answer _ _ (.refl s)
  · exact kept_answer _ _ (.refl s)

/-- Every instruction and event but MODULE_RESET keeps what `Kept` says. -/
theorem exec_kept {i : Instr} {s s' : State} (hi : i ≠ .moduleReset) (h : exec i s = .next s') : Kept s s' := by
  cases i with
  | iadd => exact kept_run (fun x => good_laneOp _ _ _ _ _ _ _) h
  | isub => exact kept_run (fun x => good_laneOp _ _ _ _ _ _ _) h
  | imul => exact kept_run (fun x => good_laneOp _ _ _ _ _ _ _) h
  | imulhs => exact kept_run (fun x => good_laneOp _ _ _ _ _ _ _) h
  | imulhz => exact kept_run (fun x => good_laneOp _ _ _ _ _ _ _) h
  | imad => exact kept_run (fun x => good_laneOp _ _ _ _ _ _ _) h
  | imadw => exact kept_run (fun x => good_laneOp64 _ _ _ _ _ _ _) h
  | imin => exact kept_run (fun x => good_laneOp _ _ _ _ _ _ _) h
  | imax => exact kept_run (fun x => good_laneOp _ _ _ _ _ _ _) h
  | iminz => exact kept_run (fun x => good_laneOp _ _ _ _ _ _ _) h
  | imaxz => exact kept_run (fun x => good_laneOp _ _ _ _ _ _ _) h
  | iabs => exact kept_run (fun x => good_laneOp _ _ _ _ _ _ _) h
  | ineg => exact kept_run (fun x => good_laneOp _ _ _ _ _ _ _) h
  | add64 => exact kept_run (fun x => good_laneOp64 _ _ _ _ _ _ _) h
  | sub64 => exact kept_run (fun x => good_laneOp64 _ _ _ _ _ _ _) h
  | lea => exact kept_run (fun x => good_laneOp64 _ _ _ _ _ _ _) h
  | iaddi => exact kept_run (fun x => good_laneOp _ _ _ _ _ _ _) h
  | and => exact kept_run (fun x => good_laneOp _ _ _ _ _ _ _) h
  | or => exact kept_run (fun x => good_laneOp _ _ _ _ _ _ _) h
  | xor => exact kept_run (fun x => good_laneOp _ _ _ _ _ _ _) h
  | andn => exact kept_run (fun x => good_laneOp _ _ _ _ _ _ _) h
  | not => exact kept_run (fun x => good_laneOp _ _ _ _ _ _ _) h
  | andi => exact kept_run (fun x => good_laneOp _ _ _ _ _ _ _) h
  | ori => exact kept_run (fun x => good_laneOp _ _ _ _ _ _ _) h
  | xori => exact kept_run (fun x => good_laneOp _ _ _ _ _ _ _) h
  | mov => exact keeps_mov h
  | movk => exact kept_run (fun x => good_laneOp _ _ _ _ _ _ _) h
  | movkLiteral => exact kept_run (fun x => good_laneOp _ _ _ _ _ _ _) h
  | movs => exact keeps_movs h
  | shl => exact kept_run (fun x => good_laneOp _ _ _ _ _ _ _) h
  | shr => exact kept_run (fun x => good_laneOp _ _ _ _ _ _ _) h
  | sar => exact kept_run (fun x => good_laneOp _ _ _ _ _ _ _) h
  | rol => exact kept_run (fun x => good_laneOp _ _ _ _ _ _ _) h
  | shli => exact kept_run (fun x => good_laneOp _ _ _ _ _ _ _) h
  | shri => exact kept_run (fun x => good_laneOp _ _ _ _ _ _ _) h
  | sari => exact kept_run (fun x => good_laneOp _ _ _ _ _ _ _) h
  | bfx => exact kept_run (fun x => good_laneOp _ _ _ _ _ _ _) h
  | bfxs => exact kept_run (fun x => good_laneOp _ _ _ _ _ _ _) h
  | bfi => exact kept_run (fun x => good_laneOp _ _ _ _ _ _ _) h
  | popc => exact kept_run (fun x => good_laneOp _ _ _ _ _ _ _) h
  | clz => exact kept_run (fun x => good_laneOp _ _ _ _ _ _ _) h
  | brev => exact kept_run (fun x => good_laneOp _ _ _ _ _ _ _) h
  | iset => exact keeps_iset h
  | isetz => exact keeps_isetz h
  | fset => exact kept_run (fun x => good_laneMaskOp _ _ _ _ _ _) h
  | sel => exact kept_run (fun x => good_laneOp _ _ _ _ _ _ _) h
  | fclass => exact kept_run (fun x => good_laneOp _ _ _ _ _ _ _) h
  | fadd => exact kept_run (fun x => good_laneOp _ _ _ _ _ _ _) h
  | fsub => exact kept_run (fun x => good_laneOp _ _ _ _ _ _ _) h
  | fmul => exact kept_run (fun x => good_laneOp _ _ _ _ _ _ _) h
  | ffma => exact kept_run (fun x => good_laneOp _ _ _ _ _ _ _) h
  | fmin => exact kept_run (fun x => good_laneOp _ _ _ _ _ _ _) h
  | fmax => exact kept_run (fun x => good_laneOp _ _ _ _ _ _ _) h
  | fabs => exact kept_run (fun x => good_laneOp _ _ _ _ _ _ _) h
  | fneg => exact kept_run (fun x => good_laneOp _ _ _ _ _ _ _) h
  | frnd => exact kept_run (fun x => good_laneOp _ _ _ _ _ _ _) h
  | fscl => exact kept_run (fun x => good_laneOp _ _ _ _ _ _ _) h
  | fexp => exact kept_run (fun x => good_laneOp _ _ _ _ _ _ _) h
  | hadd2 => exact kept_run (fun x => good_laneOp _ _ _ _ _ _ _) h
  | hmul2 => exact kept_run (fun x => good_laneOp _ _ _ _ _ _ _) h
  | hfma2 => exact kept_run (fun x => good_laneOp _ _ _ _ _ _ _) h
  | hmin2 => exact kept_run (fun x => good_laneOp _ _ _ _ _ _ _) h
  | hmax2 => exact kept_run (fun x => good_laneOp _ _ _ _ _ _ _) h
  | hdot2 => exact kept_run (fun x => good_laneOp _ _ _ _ _ _ _) h
  | badd2 => exact kept_run (fun x => good_laneOp _ _ _ _ _ _ _) h
  | bmul2 => exact kept_run (fun x => good_laneOp _ _ _ _ _ _ _) h
  | bfma2 => exact kept_run (fun x => good_laneOp _ _ _ _ _ _ _) h
  | bmin2 => exact kept_run (fun x => good_laneOp _ _ _ _ _ _ _) h
  | bmax2 => exact kept_run (fun x => good_laneOp _ _ _ _ _ _ _) h
  | bdot2 => exact kept_run (fun x => good_laneOp _ _ _ _ _ _ _) h
  | rcp => exact kept_run (fun x => good_laneOp _ _ _ _ _ _ _) h
  | rsq => exact kept_run (fun x => good_laneOp _ _ _ _ _ _ _) h
  | sqrt => exact kept_run (fun x => good_laneOp _ _ _ _ _ _ _) h
  | exp2 => exact kept_run (fun x => good_laneOp _ _ _ _ _ _ _) h
  | log2 => exact kept_run (fun x => good_laneOp _ _ _ _ _ _ _) h
  | sin => exact kept_run (fun x => good_laneOp _ _ _ _ _ _ _) h
  | cos => exact kept_run (fun x => good_laneOp _ _ _ _ _ _ _) h
  | tanh => exact kept_run (fun x => good_laneOp _ _ _ _ _ _ _) h
  | cvt => exact keeps_cvt h
  | cvtr => exact kept_run (fun x => good_withOperands (good_writeWithRes _ _ _ _ _ _ _)) h
  | rsdrd => exact kept_run (fun x => good_laneOp _ _ _ _ _ _ _) h
  | rsdwr => refine kept_run (fun x => good_withOperands ?_) h; exact Kept.refl s
  | mxsc => exact kept_run (fun x => good_laneOp _ _ _ _ _ _ _) h
  | mxq => exact kept_run (fun x => good_laneOp _ _ _ _ _ _ _) h
  | mxqr => exact kept_run (fun x => good_withOperands (good_writeWithRes _ _ _ _ _ _ _)) h
  | mxdq => exact kept_run (fun x => good_laneOp _ _ _ _ _ _ _) h
  | smxacc => exact kept_run (fun x => good_laneOp64 _ _ _ _ _ _ _) h
  | smxfin => exact kept_run (fun x => good_laneOp _ _ _ _ _ _ _) h
  | br => exact kept_run (fun x => good_branch _ _ _) h
  | brz => exact kept_run (fun x => good_withOperands (good_branchIf _ _ _ _)) h
  | brnz => exact kept_run (fun x => good_withOperands (good_branchIf _ _ _ _)) h
  | brx => exact kept_run (fun x => good_withOperands (good_branch _ _ _)) h
  | call => exact kept_run (fun x => good_call _ _ _) h
  | callx => exact kept_run (fun x => good_withOperands (good_call _ _ _)) h
  | ret => exact keeps_ret h
  | exit => exact keeps_exit h
  | enrol => refine kept_run (fun x => ?_) h; exact Kept.refl s
  | rejoin => exact keeps_rejoin h
  | strike => refine kept_run (fun x => ?_) h; exact Kept.refl s
  | brm => exact kept_run (fun x => good_branchIf _ _ _ _) h
  | vote => exact keeps_vote h
  | shfl => exact kept_run (fun x => good_laneOp _ _ _ _ _ _ _) h
  | redux => exact kept_run (fun x => good_laneOp _ _ _ _ _ _ _) h
  | scan => exact kept_run (fun x => good_laneOp _ _ _ _ _ _ _) h
  | matchKeys => exact keeps_matchKeys h
  | compact => exact kept_run (fun x => good_laneOp _ _ _ _ _ _ _) h
  | rdlane => exact keeps_rdlane h
  | bcast => exact keeps_bcast h
  | ldg => exact kept_run (fun x => good_globalLoad _ _ _ _ _ _ _) h
  | ldgs => exact kept_run (fun x => good_globalLoad _ _ _ _ _ _ _) h
  | lds => exact kept_run (fun x => good_ldsBody _ _ _ _ _ _ _) h
  | ldss => exact kept_run (fun x => good_ldsBody _ _ _ _ _ _ _) h
  | ldp => exact kept_run (fun x => good_privateLoad _ _ _ _ _ _ _) h
  | ldps => exact kept_run (fun x => good_privateLoad _ _ _ _ _ _ _) h
  | lda => exact keeps_lda h
  | pref => refine kept_run (fun x => ?_) h; exact Kept.refl s
  | fchk => exact keeps_fchk h
  | stg => exact keeps_stg h
  | sts => exact kept_run (fun x => good_withOperands (good_scratchStores _ _ _ _ _ _)) h
  | stp => exact keeps_stp h
  | strel => exact keeps_strel h
  | atom => exact kept_run (fun x => good_atomBody _ _ _ _ _ _ _ _ _ _ _ _) h
  | mcst => exact keeps_mcst h
  | empty => exact keeps_empty h
  | monarm => exact keeps_monarm h
  | monwait => exact keeps_monwait h
  | fence => exact keeps_fence h
  | cue => exact keeps_cue h
  | copy => exact kept_run (fun x => good_copyBody _ _ _ _ _ _ _ _ _ _ _ _) h
  | cast => exact keeps_cast h
  | casti => exact keeps_casti h
  | castsplit => exact keeps_castsplit h
  | castrd => exact keeps_castrd h
  | castwr => refine kept_run (fun x => good_withOperands ?_) h; exact Kept.refl s
  | mash => exact kept_run (fun x => good_mashBody _ _ _ _ _ _ _ _ _ _ _ _) h
  | rack => exact kept_run (fun x => good_cellBody _ _ _ _) h
  | colrd => exact keeps_colrd h
  | colclr => exact kept_run (fun x => good_cellBody _ _ _ _) h
  | mstat => exact keeps_mstat h
  | trap => exact keeps_trap h
  | brk => refine kept_run (fun x => ?_) h; exact kept_holdTeam _ _ (kept_modWarp _ _ (kept_retire _ _ _ (.refl s)))
  | nop => refine kept_run (fun x => ?_) h; exact Kept.refl s
  | hint => refine kept_run (fun x => ?_) h; exact Kept.refl s
  | gadd => exact kept_run (fun x => good_uniOp _ _ _ _ _) h
  | gsub => exact kept_run (fun x => good_uniOp _ _ _ _ _) h
  | gmul => exact kept_run (fun x => good_uniOp _ _ _ _ _) h
  | gand => exact kept_run (fun x => good_uniOp _ _ _ _ _) h
  | gor => exact kept_run (fun x => good_uniOp _ _ _ _ _) h
  | gxor => exact kept_run (fun x => good_uniOp _ _ _ _ _) h
  | gshl => exact kept_run (fun x => good_uniOp _ _ _ _ _) h
  | gshr => exact kept_run (fun x => good_uniOp _ _ _ _ _) h
  | gsar => exact kept_run (fun x => good_uniOp _ _ _ _ _) h
  | gmin => exact kept_run (fun x => good_uniOp _ _ _ _ _) h
  | gmax => exact kept_run (fun x => good_uniOp _ _ _ _ _) h
  | gaddi => exact kept_run (fun x => good_uniOp _ _ _ _ _) h
  | gmovk => exact kept_run (fun x => good_uniOp _ _ _ _ _) h
  | gmovkLiteral => exact kept_run (fun x => good_uniOp _ _ _ _ _) h
  | gmov => exact kept_run (fun x => good_uniOp _ _ _ _ _) h
  | gset => exact kept_run (fun x => good_uniOp _ _ _ _ _) h
  | gsel => exact kept_run (fun x => good_uniOp _ _ _ _ _) h
  | gld => exact keeps_gld h
  | glds => exact kept_run (fun x => good_gldsBody _ _ _ _ _ _) h
  | gst => exact keeps_gst h
  | kand => exact kept_run (fun x => good_maskOp _ _ _ _) h
  | kor => exact kept_run (fun x => good_maskOp _ _ _ _) h
  | kxor => exact kept_run (fun x => good_maskOp _ _ _ _) h
  | knot => exact kept_run (fun x => good_maskOp _ _ _ _) h
  | kmov => exact keeps_kmov h
  | jmp => exact kept_run (fun x => good_branch _ _ _) h
  | jz => exact kept_run (fun x => good_withUniform (good_branchIf _ _ _ _)) h
  | jnz => exact kept_run (fun x => good_withUniform (good_branchIf _ _ _ _)) h
  | gcall => exact kept_run (fun x => good_call _ _ _) h
  | gcallRegister => exact kept_run (fun x => good_withUniform (good_call _ _ _)) h
  | yield => refine kept_run (fun x => ?_) h; exact Kept.refl s
  | bar => exact kept_run (fun x => good_arrive _ _ _ _ _) h
  | barg => exact keeps_barg h
  | launch => exact keeps_launch h
  | sread => exact kept_run (fun x => good_uniOp _ _ _ _ _) h
  | partset => exact keeps_partset h
  | rset => exact keeps_rset h
  | racq => exact keeps_racq h
  | rpub => exact keeps_rpub h
  | rwait => exact keeps_rwait h
  | rfree => exact keeps_rfree h
  | cwait => refine kept_run (fun x => ?_) h; exact Kept.refl s
  | bank => exact keeps_bank h
  | mwait => exact keeps_mwait h
  | hang => exact keeps_hang h
  | unhang => exact keeps_unhang h
  | unassignedOpcode => refine kept_run (fun x => ?_) h; exact Kept.refl s
  | sceneStart => exact keeps_sceneStart h
  | yieldWake => cases h; exact kept_modWarp _ _ (.refl s)
  | monwaitTimeout => cases h; exact kept_modWarp _ _ (.refl s)
  | loadDataReturn => exact keeps_loadDataReturn h
  | atomicReply => exact keeps_atomicReply h
  | storePerformed => exact keeps_storePerformed h
  | emptyLineRelease => exact keeps_emptyLineRelease h
  | collectorEntryLeave => exact keeps_collectorEntryLeave h
  | queryTransaction => exact keeps_queryTransaction h
  | hangFinish => exact keeps_hangFinish h
  | unhangFinish => exact keeps_unhangFinish h
  | bankQueueEntry => exact keeps_bankQueueEntry h
  | kStep => cases h; exact kept_bankExec _ _ _ (.refl s)
  | rackExecute => cases h; exact kept_bankExec _ _ _ (.refl s)
  | colclrExecute => cases h; exact kept_bankExec _ _ _ (.refl s)
  | steepExecute => exact keeps_steepExecute h
  | colrdRead => exact keeps_colrdRead h
  | bankSwitch => exact keeps_bankSwitch h
  | copyIssue => exact keeps_copyIssue h
  | copyStart => exact keeps_copyStart h
  | copyWrite => exact keeps_copyWrite h
  | copyComplete => exact keeps_copyComplete h
  | copyPark => exact keeps_copyPark h
  | copyResume => cases h; exact kept_resumeCopy _ _ (.refl s)
  | castCommandStart => exact keeps_castCommandStart h
  | castCommandStop => exact keeps_castCommandStop h
  | launchWindowGo => exact keeps_launchWindowGo h
  | launchOfferOutcome => exact keeps_launchOfferOutcome h
  | placementPass => cases h; exact kept_placementPass (.refl s)
  | teamStart => cases h; exact kept_startTeam _ (.refl s)
  | teamRetire => exact keeps_teamRetire h
  | holdComplete => exact keeps_holdComplete h
  | eventRecordWrite => exact keeps_eventRecordWrite h
  | teamHold => cases h; exact kept_ctlHold _ _ (.refl s)
  | teamResume => cases h; exact kept_ctlResume _ _ _ (.refl s)
  | teamResumePast => cases h; exact kept_ctlResume _ _ _ (.refl s)
  | teamLaunchStrike => cases h; exact kept_ctlStrike _ _ (.refl s)
  | newhw => cases h; exact kept_ctlNewhw _ _ _ _ (.refl s)
  | promptReply => cases h; exact kept_replyPrompt _ _ (.refl s)
  | pringWrite => cases h; exact kept_writePring _ _ (.refl s)
  | pconsWrite => cases h; exact kept_writePcons _ _ (.refl s)
  | contextPreempt => cases h; exact kept_preempt _ (.refl s)
  | contextResume => cases h; exact kept_resumeCtx _ (.refl s)
  | contextStrike => cases h; exact kept_strikeContext _ _ (.refl s)
  | deadlineExpiry => exact keeps_deadlineExpiry h
  | strikeComplete => exact keeps_strikeComplete h
  | launchStrike => cases h; exact kept_strikeLaunch _ _ (.refl s)
  | invalidatePage => cases h; exact kept_writeCxinv _ _ _ (.refl s)
  | invalidateLargePage => cases h; exact kept_writeCxinv _ _ _ (.refl s)
  | invalidateContext => cases h; exact kept_writeCxinv _ _ _ (.refl s)
  | invalidationComplete => exact keeps_invalidationComplete h
  | contextRegisterWrite => cases h; exact kept_writeCx _ _ _ (.refl s)
  | memsplitWrite => cases h; exact kept_writeMemsplit _ (.refl s)
  | tarenaWrite => cases h; exact kept_writeTarena _ _ (.refl s)
  | cuerelGo => cases h; exact kept_writeCuerel _ (.refl s)
  | semaphoreRead => exact keeps_semaphoreRead h
  | semaphoreWrite => exact keeps_semaphoreWrite h
  | semaphoreBreak => cases h; exact kept_semWrite _ _ _ (.refl s)
  | peerwinWrite => cases h; exact kept_writePeerwin _ _ (.refl s)
  | policyWrite => cases h; exact kept_writePolicy _ _ _ _ (.refl s)
  | policyArm => cases h; exact kept_armPolicy (.refl s)
  | attestationGo => cases h; exact kept_attest (.refl s)
  | reportComplete => exact keeps_reportComplete h
  | registerWrite => exact keeps_registerWrite h
  | hostCxlMemRequest => exact keeps_hostCxlMemRequest h
  | hostSnoop => exact keeps_hostSnoop h
  | linkDown => exact keeps_linkDown h
  | linkUp => exact keeps_linkUp h
  | moduleReset => exact absurd rfl hi
  | guardBandStep => exact keeps_guardBandStep h
  | eolhRefresh => exact keeps_eolhRefresh h
  | throttle => exact keeps_throttle h
  | instructionFetchFault => exact keeps_instructionFetchFault h
  | monitorLost => cases h; exact kept_modWarp _ _ (.refl s)
  | peerModuleRequest => exact keeps_peerModuleRequest h

end Sys2Proof.Machine
end

