-- ==== Sys2Proof/Laws/Turn.lean ====
section
/-! SUPPORT. What a fetch and a whole step keep: `Kept` for every turn but a module reset and a passage of time. -/

namespace Sys2Proof.Machine

set_option Elab.async false

theorem kept_fetchWord {x : Ix} {s s1 : State} {va w} (h : fetchWord x s va = .ok (s1, w)) : Kept s s1 := by
  unfold fetchWord at h
  repeat' split at h
  all_goals cases h
  exact kept_shareBytes _ _ (kept_keepLeaf _ _ _ _ (.refl s))

/-- The states a fetch comes to have a property. -/
def Fetched.Good (P : State → Prop) : Fetched → Prop
  | .fail _ _ => True
  | .illegal s _ _ => P s
  | .instr s _ => P s

theorem good_readWords {s u : State} (x : Ix) (w0 w1 w2) (h : Kept s u) : (readWords x u w0 w1 w2).Good (Kept s) := by
  unfold readWords
  repeat' split
  all_goals exact h

theorem good_fetch (x : Ix) (s : State) : (fetch x s).Good (Kept s) := by
  unfold fetch
  dsimp only
  split
  · trivial
  · next h =>
    split
    · split
      · trivial
      · next k =>
        have hk := (kept_fetchWord h).trans (kept_fetchWord k)
        split
        · split
          · exact good_readWords _ _ _ _ hk
          · next l => exact good_readWords _ _ _ _ (hk.trans (kept_fetchWord l))
        · exact good_readWords _ _ _ _ hk
    · exact good_readWords _ _ _ _ (kept_fetchWord h)

theorem accept_ne_reset {j i : Instr} {ws : List Nat} {e n} (hw : ws ≠ []) (h : accept j ws e = .ok (i, n)) : i ≠ .moduleReset := by
  rintro rfl
  unfold accept at h
  repeat' split at h
  all_goals cases h
  next h _ => exact hw h.symm

theorem decode_ne_reset {a b n : Nat} {i : Instr} (h : decode a b = .ok (i, n)) : i ≠ .moduleReset := by
  unfold decode at h
  repeat' split at h
  all_goals first | exact accept_ne_reset (by simp) h | (cases h; done) | (cases h; nofun)

theorem readWords_ne_reset {x : Ix} {s u : State} {a b c : Nat} {i : Instr} (h : readWords x s a b c = .instr u i) : i ≠ .moduleReset := by
  unfold readWords at h
  repeat' split at h
  all_goals cases h
  next h => exact decode_ne_reset h

/-- No instruction that a fetch brings is a module reset. -/
theorem fetch_ne_reset {x : Ix} {s u : State} {i : Instr} (h : fetch x s = .instr u i) : i ≠ .moduleReset := by
  unfold fetch at h
  dsimp only at h
  repeat' split at h
  all_goals first | exact readWords_ne_reset h | cases h

theorem kept_issueStep {s t : State} (h : issueStep s = .next t) : Kept s t := by
  unfold issueStep at h
  repeat' split at h
  · cases h; exact .refl s
  · cases h; exact .refl s
  · exact exec_kept (i := .instructionFetchFault _ _) nofun h
  · next x _ _ _ _ s1 tr st hf =>
    have hg := good_fetch x s
    rw [hf] at hg
    cases h
    exact kept_raise _ _ _ hg
  · next x _ _ _ _ s1 i hf =>
    have hg := good_fetch x s
    rw [hf] at hg
    exact Kept.trans hg (exec_kept (fetch_ne_reset hf) h)

theorem kept_castRead {s u : State} (w va n) (h : Kept s u) : Kept s (u.castRead w va n) := by
  unfold State.castRead
  repeat' split
  all_goals first | exact h | skip
  next x _ _ a _ _ _ _ _ hr =>
    have hk := kept_readAt (x := x) (a := a) (kept_l1Pass x.core x.T.ctx a.vas (kept_keepLeaves x [a] h))
    rw [hr] at hk
    exact kept_modWarp _ _ hk

/-- What a turn keeps, where it is neither a module reset nor a passage of time. -/
theorem kept_takeTurn {s t : State} (hr : s.turn ≠ .event .moduleReset) (he : ∀ cs, s.turn ≠ .elapse cs) (h : takeTurn s = .next t) :
    Kept s t := by
  have hb : Kept s s.begin := kept_begin (.refl s)
  unfold takeTurn at h
  dsimp only at h
  split at h
  · next w _ => exact Kept.trans (t := { s.begin with cur := w }) hb (kept_issueStep h)
  · next i hi =>
    split at h
    · cases h; exact hb
    · exact hb.trans (exec_kept (fun e => hr (e ▸ hi)) h)
  · next cs hc => exact absurd hc (he cs)
  · cases h; exact kept_evict _ _ hb
  · cases h; exact kept_recall _ hb
  · cases h; exact kept_hubEvict _ hb
  · cases h; exact kept_castRead _ _ _ hb

/-- A step is its turn, and then the lines that the L2s cannot hold leave them. -/
theorem step_eq {s t : State} (h : step s = .next t) : ∃ u, takeTurn s = .next u ∧ t = u.l2Trim := by
  unfold step at h
  split at h
  · next u hu => cases h; exact ⟨u, hu, rfl⟩
  · next hn => exact absurd h (hn t)

/-- What a step keeps, where its turn is neither a module reset nor a passage of time. -/
theorem kept_step {s t : State} (hr : s.turn ≠ .event .moduleReset) (he : ∀ cs, s.turn ≠ .elapse cs) (h : step s = .next t) :
    Kept s t := by
  obtain ⟨u, hu, rfl⟩ := step_eq h
  exact kept_l2Trim (kept_takeTurn hr he hu)

end Sys2Proof.Machine
end

