-- ==== Sys2Proof/Tests/Slice0.lean ====
section
/-! SUPPORT. The model's own tests: ill-formed terms that the check refuses, words of the spec's examples, a concrete
state and operands for the hypotheses of every statement, and single steps with results worked out from the rules. -/

namespace Sys2Proof.Tests

open Sys2Proof Sys2Proof.Machine

set_option maxRecDepth 100000
set_option Elab.async false

/-! ## Helpers -/

/-- A placed warp of role `r` with two live lanes in one path whose scene begins at 0x20000. v0:v1 of its lanes hold the
addresses 0x20100 and 0x20104 of its one mapped page, v2 the numbers 7 and 9, g1 and g2 the numbers 5 and 0x20100. -/
def warp (r : Role) : Warp :=
  { placedWarp with
    role := r, live := 3, phw := 1, paths := [{ Path.fresh 3 0x20000 with scene := some ⟨0, []⟩ }]
    v := [(0, 0x20100), (2, 7), (128, 0x20104), (130, 9)], g := [(1, 5), (2, 0x20100)] }

/-- A state in which that warp issues. The page at 0 is mapped to 0x30000, and that at 0x30000 to the last 64 KiB of the
arena of hub 0, one slab in a near pool of 16 GiB. -/
def st (r : Role) : State :=
  let s := (State.reset.install.place 0x1C000 8 0x3000F).place 0x1C018 8 (2 ^ 48 + 0x3FFFF000F)
  { s with ipool := 80, slabs := [(0, 1)] }.setWarp 0 (warp r)

/-- A state with the issuing warp changed. -/
def tweak (s : State) (f : Warp → Warp) : State := s.modWarp 0 f

/-- The issuing path of a state. -/
def ix (s : State) : Ix :=
  match s.issuing with
  | some x => x
  | none => ⟨0, placedWarp, Path.fresh 0 0, placedTeam⟩

/-- An instruction starts on the issuing path. -/
def startsB (s : State) (i : Instr) : Bool :=
  decide (s.issuing = some (ix s)) && i.wf && !overlong (ix s) i &&
    match i.role? with | some r => decide ((ix s).W.role = r) | none => true

theorem starts_of {s : State} {i : Instr} (h : startsB s i = true) : Starts s (ix s) i := by
  simp only [startsB, Bool.and_eq_true, decide_eq_true_eq, Bool.not_eq_true'] at h
  refine ⟨h.1.1.1, h.1.1.2, h.1.2, fun r hr => ?_⟩
  have := h.2
  rw [hr] at this
  simpa using this

theorem starts_all {s : State} {l : List Instr} (h : l.all (startsB s) = true) : ∀ i ∈ l, Starts s (ix s) i :=
  fun i hi => starts_of (List.all_eq_true.mp h i hi)

theorem usable_of {s : State} {us : List Use} (h : (us.all fun u => u.ok (ix s) && !u.busy (ix s) s (ix s).lanes) = true) :
    Usable s (ix s) us := fun u hu => by simpa using List.all_eq_true.mp h u hu

theorem usableG_of {s : State} {gs : List Nat} (h : (gs.all fun g => !s.busyG (ix s).w g) = true) : UsableG s (ix s) gs :=
  fun g hg => by simpa using List.all_eq_true.mp h g hg

/-- Operands and instructions that start with them. -/
def ready (s : State) (us : List Use) (l : List Instr) : Prop := Usable s (ix s) us ∧ ∀ i ∈ l, Starts s (ix s) i

theorem ready_of {s : State} {us : List Use} {l : List Instr}
    (h : ((us.all fun u => u.ok (ix s) && !u.busy (ix s) s (ix s).lanes) && l.all (startsB s)) = true) : ready s us l := by
  rw [Bool.and_eq_true] at h
  exact ⟨usable_of h.1, starts_all h.2⟩

/-- Uniform operands and instructions that start with them. -/
def readyG (s : State) (gs : List Nat) (l : List Instr) : Prop := UsableG s (ix s) gs ∧ ∀ i ∈ l, Starts s (ix s) i

theorem readyG_of {s : State} {gs : List Nat} {l : List Instr}
    (h : ((gs.all fun g => !s.busyG (ix s).w g) && l.all (startsB s)) = true) : readyG s gs l := by
  rw [Bool.and_eq_true] at h
  exact ⟨usableG_of h.1, starts_all h.2⟩

/-- Lists of operands, each with instructions that start with them. -/
def readies (s : State) (l : List (List Use × List Instr)) : Prop := ∀ p ∈ l, ready s p.1 p.2

theorem readies_of {s : State} {l : List (List Use × List Instr)}
    (h : (l.all fun p => (p.1.all fun u => u.ok (ix s) && !u.busy (ix s) s (ix s).lanes) && p.2.all (startsB s)) = true) : readies s l :=
  fun p hp => ready_of (List.all_eq_true.mp h p hp)

/-- The code and cause of the record of the fault that instruction `i` takes. -/
def faultOf (i : Instr) (s : State) : Option (Nat × Nat) :=
  match exec i s with
  | .next t => ((((t.team 0).bind (·.hold)).map (·.recs)).bind (·.getLast?)).map fun r => (r.code, r.cause)
  | _ => none

/-- Each instruction starts in its state and takes the fault of that code and cause. -/
def faults (l : List (State × Instr × Nat × Nat)) : Prop := ∀ e ∈ l, Starts e.1 (ix e.1) e.2.1 ∧ faultOf e.2.1 e.1 = some e.2.2

theorem faults_of {l : List (State × Instr × Nat × Nat)}
    (h : (l.all fun e => startsB e.1 e.2.1 && decide (faultOf e.2.1 e.1 = some e.2.2)) = true) : faults l := fun e he => by
  have := List.all_eq_true.mp h e he
  rw [Bool.and_eq_true] at this
  exact ⟨starts_of this.1, of_decide_eq_true this.2⟩

/-- A result that is no fault. -/
def okB {ε α : Type} (r : Except ε α) : Bool := match r with | .ok _ => true | .error _ => false

theorem ok_sat {ε α : Type} {r : Except ε α} {P : α → Prop} [DecidablePred P]
    (h : (match r with | .ok a => decide (P a) | .error _ => false) = true) : ∃ a, r = .ok a ∧ P a := by
  cases r with
  | ok a => exact ⟨a, rfl, by simpa using h⟩
  | error e => simp at h

/-! ## Ill-formed terms: one for each check -/

/-- A prefix. -/
def pfx (c : BitVec 7) (rm : BitVec 3) (sat : Bool) : Option Pfx := some ⟨c, 0, false, rm, sat⟩

/-- The uses of a prefix: no mode of that number, and c, rm and sat only where the instruction uses them (02 R50, R51). -/
theorem test_refuses_prefixes : ([Instr.ffma false false (pfx 3 5 false) 1 2 3, .fadd false false (pfx 3 0 false) 1 2 3,
    .iadd false false (pfx 0 1 false) 1 2 3, .lea false false (pfx 0 0 true) 2 4 5, .cvt false false (pfx 0 0 true) 1 2 false true 10] :
    List Instr).all (fun i => !i.wf) = true := by decide +kernel

/-- A latch code in a destination field (02 R45). -/
theorem test_refuses_latch_destinations : ([Instr.iadd false false none 124 2 3, .ldg false 127 2 0 0, .mash false 124 0 0 false 0 0 0 0 false 1,
    .copy false 125 0 0 0 0 false 0 0 0 0] : List Instr).all (fun i => !i.wf) = true := by decide +kernel

/-- Codes that the descriptions do not list (02 R60). -/
theorem test_refuses_unlisted_codes : ([Instr.movk false false 1 0x2000, .movs false false 1 11, .iset false none false 6 1 2 3,
    .isetz false none false 7 1 2 3, .fset false none 14 1 2 3, .fclass false false none 1 2 5, .cvt false false none 1 2 false false 12,
    .cvt false false none 1 2 true true 10, .cvtr false false none 1 2 0 true 1, .mxsc false false none 1 2 3 0, .mxq false false none 1 2 3 0 0,
    .mxq false false none 1 2 0 0 4, .mxqr false false none 1 2 3 0 0, .mxdq false false none 1 2 1 0 7, .redux false false 1 2 3 true,
    .scan false false 1 2 7 true false, .matchKeys false false 1 2 3, .lda false 1 2 0 false 3, .lda false 1 2 7 false 0, .lda false 1 2 3 true 0,
    .pref false 2 2 0 0, .strel false 1 2 0 3, .strel false 1 2 7 0, .monarm false 1 2 0 3, .monwait false 1 true 1, .fence false 0 7] :
    List Instr).all (fun i => !i.wf) = true := by decide +kernel

/-- Codes of the two-word, system and uniform instructions (02 R60). -/
theorem test_refuses_more_codes : ([Instr.atom false 1 2 3 8 0 0 0 0 false 0, .atom false 1 2 3 0 5 0 0 0 false 0, .atom false 1 2 3 3 4 0 0 0 false 0,
    .atom false 1 2 3 0 0 0 7 0 false 0, .atom false 1 2 3 0 0 0 0 3 false 0, .atom false 1 2 3 0 0 0 0 0 true 0, .atom false 1 2 3 0 0 0 0 0 false 4,
    .copy false 1 2 3 5 0 false 0 0 0 0, .copy false 1 2 3 0 3 false 0 0 0 0, .copy false 1 2 3 0 0 false 1 0 0 0, .copy false 1 2 3 0 0 false 0 0 0 1,
    .copy false 1 2 3 0 0 false 0 1 0 0, .copy false 1 2 3 2 0 false 0 124 0 0, .copy false 1 2 3 0 0 true 0 0 0 124,
    .mash false 1 2 0 false 3 0 0 0 false 1, .mash false 1 2 0 false 0 3 0 0 false 1, .mash false 1 2 0 false 0 0 0 0 false 0,
    .colclr false 1 true 1, .trap 1 128, .hint false false 15 0, .gmovk false 1 0x8000, .gset false 1 2 3 10, .kmov false 8 1 0, .kmov false 1 8 0,
    .kmov false 8 1 1, .kmov false 1 8 2, .kmov false 1 1 3, .gcall 0x200000, .gcall 0x20003F, .sread false 1 11, .unassignedOpcode 0] :
    List Instr).all (fun i => !i.wf) = true := by decide +kernel

/-- Events of agents that the module does not have. -/
theorem test_refuses_events : ([Instr.sceneStart 512 0, .sceneStart 0 4, .yieldWake 24576 0, .yieldWake 0 64, .monwaitTimeout 24576 0, .emptyLineRelease 24576,
    .bankQueueEntry 24576, .colrdRead 24576, .bankSwitch 24576, .copyIssue 24576, .monitorLost 0 64, .hangFinish 64 0, .hangFinish 0 16,
    .unhangFinish 0 16, .kStep 512 0, .kStep 0 32, .rackExecute 0 32, .colclrExecute 0 32, .steepExecute 512 0, .copyResume 0 16,
    .castCommandStart 512, .castCommandStop 512, .launchWindowGo 2 0, .launchWindowGo 0 64, .eventRecordWrite 64, .teamHold 0 16, .teamResume 512 0,
    .teamResumePast 0 16, .teamLaunchStrike 0 16, .newhw 512 0 0 0, .promptReply 64 0, .promptReply 0 65536, .pringWrite 64 0, .pconsWrite 64 0,
    .contextPreempt 64, .contextResume 64, .contextStrike 64, .deadlineExpiry 64, .launchStrike 64, .invalidatePage 64 0, .invalidateLargePage 64 0,
    .invalidateContext 64 0, .invalidationComplete 64, .contextRegisterWrite 64 0 0, .tarenaWrite 8 0, .policyWrite 448 0, .policyWrite 2 0,
    .guardBandStep 512 0, .eolhRefresh 512 0, .throttle 16 0 0 0, .instructionFetchFault 0 0, .instructionFetchFault 8 0] : List Instr).all
    (fun i => !i.wf) = true := by decide +kernel

/-! ## States and operands that meet the hypotheses of the statements -/

/-- A prefix with the saturate bit, and one with a fourth operand. -/
def psat : Option Pfx := some ⟨0, 1, true, 0, true⟩
def pc : Option Pfx := some ⟨5, 0, false, 0, false⟩
def psix : Option Pfx := some ⟨6, 0, false, 0, true⟩

theorem witness_IntegerArithmetic : readies (st .copy) [
    ([.reg 123, .src 0, .src 2], [.iadd true true psat 123 0 2, .isub false false none 123 0 2, .imul false false psat 123 0 2,
      .imulhs false false none 123 0 2, .imulhz false false none 123 0 2, .imin false false none 123 0 2, .imax false false none 123 0 2,
      .iminz false false none 123 0 2, .imaxz false false none 123 0 2]),
    ([.reg 3, .src 0, .src 2, .src (pfxC pc 3)], [.imad false false pc 3 0 2]),
    ([.reg 3, .src 0], [.iabs false false psat 3 0, .ineg false false none 3 0, .iaddi true false none 3 0 127]),
    ([.regPair 122, .src 0, .src 2, .srcPair (pfxC psix 122)], [.imadw false false psix 122 0 2]),
    ([.regPair 4, .srcPair 0, .srcPair 2], [.add64 false false none 4 0 2, .sub64 false false psat 4 0 2]),
    ([.regPair 4, .srcPair 0, .src 2], [.lea false false none 4 0 2])] := readies_of (by decide +kernel)

theorem witness_PartitionSizes : (0x8D000008 : Nat) < 2 ^ 32 ∧ 0x8D000008 / 2 ^ 31 = 1 ∧ 0x8D000008 / 2 ^ 29 % 2 = 0 ∧
    0x8D000008 / 2 ^ 22 % 2 ^ 7 = 0x34 ∧ (ix (st .copy)).T.width = 32 ∧
    ∀ z ∈ [(0 : BitVec 10), 1, 2, 32, 33, 64, 1023], Starts (st .copy) (ix (st .copy)) (.partset true z) := by
  refine ⟨by decide, by decide, by decide, by decide, by decide +kernel, fun z hz => ?_⟩
  simp only [List.mem_cons, List.not_mem_nil, or_false] at hz
  rcases hz with rfl | rfl | rfl | rfl | rfl | rfl | rfl <;> exact starts_of (by decide +kernel)

theorem witness_LogicAndShifts : readies (st .copy) [
    ([.reg 3, .src 0, .src 2], [.and false false none 3 0 2, .or false false none 3 0 2, .xor false false none 3 0 2,
      .andn false false none 3 0 2, .shl false false none 3 0 2, .shr false false none 3 0 2, .sar false false none 3 0 2,
      .rol false false none 3 0 2, .bfx false false none 3 0 2, .bfxs false false none 3 0 2]),
    ([.reg 3, .src 0], [.not false false none 3 0, .andi false false none 3 0 127, .ori false false none 3 0 1,
      .xori false false none 3 0 1, .mov false false none 3 0 false, .shli false false none 3 0 31, .shri false false none 3 0 0,
      .sari false false none 3 0 31, .popc false false none 3 0, .clz false false none 3 0, .brev false false none 3 0]),
    ([.regPair 4, .srcPair 0], [.mov false false none 4 0 true]),
    ([.reg 3], [.movk false false 3 0x3FFF, .movkLiteral false false 3 0xFFFFFFFF, .movs false false 3 8, .movs false false 3 0]),
    ([.regPair 4], [.movs false false 4 9, .movs false false 4 10]),
    ([.reg 3, .src 0, .src 2, .src (pfxC pc 3)], [.bfi false false pc 3 0 2])] := readies_of (by decide +kernel)

/-- A state whose lanes have `a` and `b` in v0, and 0 in v1. -/
def offsets (a b : Word) : State := tweak (st .copy) fun W => (W.setReg 0 0 a).setReg 1 0 b

/-- A state in which the page at 0x40000 is that of the module's registers, and that at 0x50000 may only be read; the lanes have
the same addresses as in `offsets`. -/
def paged (a b : Word) : State := ((offsets a b).place 0x1C020 8 (2 ^ 49 + 0xF)).place 0x1C028 8 0x50003

/-- A result that is a fault. -/
def bad {ε α : Type} (r : Except ε α) : Bool := match r with | .ok _ => false | .error _ => true

/-- Every access of these states in global memory, that fails or not, and its instruction. -/
def globals (s : State) : List (Instr × Bool) :=
  let x := ix s
  let at' := fun l => (x.srcPair 0 l).toNat
  [(.ldg false 3 0 0 2, bad (x.globalAcc s .load 4 x.lanes at')), (.ldgs false 3 0 0 true, bad (x.globalAcc s .load 2 x.lanes at')),
    (.stg false 3 0 0 2, bad (x.globalAcc s .store 4 x.lanes at')), (.lda false 3 0 6 true 2, bad (x.globalAcc s .fresh 4 x.lanes at')),
    (.lda false 3 0 0 false 2, bad (x.globalAcc s .load 4 x.lanes at')), (.strel false 3 0 0 2, bad (x.globalAcc s .store 4 x.lanes at')),
    (.mcst false 3 0 0 2, bad (x.globalAcc s .mcst 4 x.lanes at')), (.monarm false 3 0 0 2, bad (x.globalAcc s .fresh 4 x.lanes at')),
    (.atom false 0 0 2 0 1 0 0 0 true 0, bad (x.globalAcc s (.atomic 1) 4 x.lanes at')),
    (.gld false 3 2 2 0, bad (x.globalAcc s .fresh 4 [x.low] fun _ => (x.W.greg 2).toNat)),
    (.gst false 3 2 false 2 0, bad (x.globalAcc s .store 4 [x.low] fun _ => (x.W.greg 2).toNat))]

/-- Every one of these instructions starts, and its access fails. -/
def allFail (s : State) (l : List (Instr × Bool)) : Bool := l.all fun e => startsB s e.1 && e.2

theorem witness_AccessChecks :
    (let s := tweak (offsets 0x20101 0x20104) fun W => { W with g := [(2, 0x20101)] }
     let x := ix s
     let at' := fun l => (x.src 0 l).toNat
     readies s [([.reg 3, .srcPair 0], []), ([.src 3, .srcPair 0], []), ([.srcPair 0, .src 2], []), ([.src 0, .reg 3], [])] ∧
     UsableG s x [3, 2] ∧ allFail s (globals s) = true ∧ x.P.done = 0 ∧
     allFail s [(.ldp false 3 0 0 2, bad (x.privateAcc s .load 4 x.lanes at')), (.ldps false 3 0 0 true, bad (x.privateAcc s .load 2 x.lanes at')),
       (.stp false 3 0 0 2, bad (x.privateAcc s .store 4 x.lanes at')),
       (.atom false 0 0 2 0 1 0 0 2 true 0, bad (x.privateAcc s (.atomic 1) 4 x.lanes at')), (.lds false 3 0 0 2, bad (x.scratchAcc s 4 x.lanes at')),
       (.ldss false 3 0 0 true, bad (x.scratchAcc s 2 x.lanes at')), (.sts false 3 0 0 2, bad (x.scratchAcc s 4 x.lanes at')),
       (.empty false 0 0 2, bad (x.scratchAcc s 4 x.lanes at')), (.fchk false false 3 0 0 2, bad (x.scratchAcc s 4 x.lanes at')),
       (.atom false 0 0 2 0 1 0 0 1 true 0, bad (x.scratchAcc s 4 x.lanes at')),
       (.glds false 3 2 2 0, bad (x.scratchAcc s 4 [x.low] fun _ => (x.W.greg 2).toNat % 2 ^ 32)),
       (.gst false 3 2 true 2 0, bad (x.scratchAcc s 4 [x.low] fun _ => (x.W.greg 2).toNat % 2 ^ 32))] = true) ∧
    faults [(offsets 0x20101 0x20104, .ldg false 3 0 0 2, 10, 0),
      (tweak (offsets 0 0) fun W => W.setReg 0 1 (2 ^ 19), .stg false 3 0 0 2, 14, 7),
      (offsets 0x20100 0x70000, .ldg false 3 0 0 2, 14, 1),
      (paged 0x20100 0x50000, .stg false 3 0 0 2, 14, 2),
      (paged 0x40000 0x20100, .ldg false 3 0 0 1, 15, 0)] ∧
    faults [(paged 0x40000 0x20100, .atom false 0 0 2 0 1 0 0 0 true 0, 15, 0),
      (offsets 0x1000000 4, .ldp false 3 0 0 2, 12, 0),
      (offsets 0xFFFFFC 4, .ldp false 3 0 0 2, 13, 0),
      (offsets 0x400 4, .ldps false 3 0 0 true, 13, 0),
      (offsets 0x400 4, .atom false 0 0 2 0 1 0 0 2 true 0, 13, 0),
      ((offsets 0 4).place 0x1C000 8 0, .stp false 3 0 0 2, 14, 1),
      (offsets 4 0x40000000, .lds false 3 0 0 2, 11, 0),
      ({ offsets 4 0 with banks := [(0, { Bank.zero with mash := true })] }, .sts false 3 0 0 2, 17, 0)] ∧
    (st .copy).translate 0 1 0x20000 .load = .error 6 ∧
    (let s := ((((paged 0 0).place 0x1C030 8 0x6004F).place 0x1C038 8 0x40000000000F).place 0x18008 8 0x200003)
     (s.walkReads 0 0x60000).length = 4 ∧ s.openWord64 0x1C030 = 0x6004F ∧ s.walk 0 0x60000 = .error 4 ∧ s.walk 0 0x80000 = .error 1 ∧
     (s.leafOf 0 0 0x50000).toOption.isSome = true ∧ s.translate 0 0 0x50000 .store = .error 2 ∧ s.translate 0 0 0x50000 .fetch = .error 3 ∧
     s.translate 0 0 0x70000 .load = .error 5 ∧ (s.walkReads 0 0x200000).length = 3 ∧ (s.walk 0 0x200000).toOption.isSome = true) := by
  refine ⟨⟨readies_of ?_, usableG_of ?_, ?_, ?_, ?_⟩, faults_of ?_, faults_of ?_, ?_⟩ <;> decide +kernel

theorem witness_ComparesAndSelect : (7 : BitVec 3) ≠ 0 ∧ readies (st .copy) [
    ([.src 0, .src 2], [.iset false none false 5 7 0 2, .isetz false none false 0 7 0 2, .fset false none 13 7 0 2]),
    ([.srcPair 0, .srcPair 2], [.iset false none true 5 7 0 2, .isetz false none true 5 7 0 2]),
    ([.reg 3, .src 0, .src 2], [.sel false false 7 3 0 2]), ([.reg 3, .src 0], [.fclass false false none 3 0 4])] :=
  ⟨by decide, readies_of (by decide +kernel)⟩

theorem witness_UniformScalar :
    readyG (st .copy) [63, 1, 2, 15] [.gadd true 63 1 2, .gsub false 63 1 2, .gmul false 63 1 2, .gand false 63 1 2, .gor false 63 1 2,
      .gxor false 63 1 2, .gshl false 63 1 2, .gshr false 63 1 2, .gsar false 63 1 2, .gmin false 63 1 2 true, .gmax false 63 1 2 false,
      .gset false 63 1 2 9, .gsel false 63 1 2 15, .gaddi false 63 1 0x3FF, .gmov false 63 1, .gmovk false 63 0x7FFF,
      .gmovkLiteral false 63 0xFFFFFFFF, .sread false 63 10] :=
  readyG_of (by decide +kernel)

theorem witness_MaskAndTileInstructions : (1 : BitVec 3) ≠ 0 ∧ (32 : BitVec 10).toNat ∈ [2, 4, 8, 16, 32, 64] ∧
    (32 : BitVec 10).toNat ≤ (ix (st .copy)).T.width ∧ (ix (st .copy)).T.width < (64 : BitVec 10).toNat ∧
    (1 : BitVec 10).toNat ∉ [2, 4, 8, 16, 32, 64] ∧
    readyG (st .copy) [63, 2] [.kand false 1 0 2, .kor false 1 0 2, .kxor false 1 0 2, .knot false 1 0, .kmov false 1 0 0, .kmov false 1 63 1,
      .kmov false 63 7 2, .partset true 32, .kand false 0 1 2, .kor false 0 1 2, .kxor false 0 1 2, .knot false 0 1, .kmov false 0 1 0,
      .kmov false 0 63 1, .partset true 1, .partset true 64] := by
  refine ⟨by decide, by decide, by decide +kernel, ?_, by decide, readyG_of ?_⟩ <;> decide +kernel

theorem witness_FloatingArithmetic : readies (st .copy) [
    ([.reg 3, .src 0, .src 2], [.fadd false false (some ⟨0, 0, false, 4, true⟩) 3 0 2, .fsub false false none 3 0 2,
      .fmul false false none 3 0 2, .fmin false false none 3 0 2, .fmax false false none 3 0 2, .fscl false false none 3 0 2,
      .hadd2 false false none 3 0 2, .hmul2 false false none 3 0 2, .hmin2 false false none 3 0 2, .hmax2 false false none 3 0 2,
      .badd2 false false none 3 0 2, .bmul2 false false none 3 0 2, .bmin2 false false none 3 0 2, .bmax2 false false none 3 0 2]),
    ([.reg 3, .src 0, .src 2, .src (pfxC pc 3)], [.ffma false false pc 3 0 2, .hfma2 false false pc 3 0 2, .hdot2 false false pc 3 0 2,
      .bfma2 false false pc 3 0 2, .bdot2 false false pc 3 0 2]),
    ([.reg 3, .src 0], [.fabs false false none 3 0, .fneg false false none 3 0, .frnd false false none 3 0, .fexp false false none 3 0])] :=
  readies_of (by decide +kernel)

/-- A record of a tensor of element type `e` at `at'` that a copy can use: 32 elements in one dimension, boxes of 8. -/
def rec1 (e at' : Nat) : BitVec 512 := BitVec.ofNat 512 (at' + 1 <<< 56 + e <<< 60 + 32 <<< 64 + 7 <<< 328)

/-- A state whose record at v0 is `r`. -/
def recorded (s : State) (r : Nat) : State := s.place 0x20100 64 r

/-- A state whose record at v0 is that of a tensor of 8-bit elements. -/
def copying : State := recorded (st .copy) (rec1 0 0x20200).toNat

/-- The COPY of these states. -/
abbrev copyI : Instr := .copy false 0 0 12 0 2 false 0 0 0 0

/-- A state whose team has ring q7: two slots of one line from 128, one arrival each, slot 0 open and slot 1 filled. -/
def ringed (ap : Nat) : State :=
  (st .copy).setTeam 0 { placedTeam with rings := [(7, some ⟨128, 1, 2, 1, 0, 1, true, ap, [⟨.opened, true, 0, 0⟩, ⟨.filled, true, 1, 0⟩]⟩)] }

/-- A state whose warp has role `r` and whose team has bank 0 of its core as its only bank, in mash mode with operations `ops`. -/
def banked (r : Role) (m : Bool) (ops : List BankOp) : State :=
  { (st r).setTeam 0 { placedTeam with mash := 1, place := { placedTeam.place with banks0 := [0] } } with
    banks := [(0, { Bank.zero with mash := m, ops := ops })] }

/-- The record of a steep of one block, of 8-bit elements at 0x20200 with their scale at 0x20300. -/
def steepRec : Nat := 0x20200 + 2 <<< 56 + 32 <<< 64 + 1 <<< 88 + 31 <<< 328 + 0x20300 <<< 388

/-- A state with registers of lane 0 set. -/
def withRegs (s : State) (l : List (Nat × Word)) : State := tweak s fun W => l.foldl (fun (W : Warp) e => W.setReg 0 e.1 e.2) W

/-- A state with g1 and g2 set. -/
def withG (s : State) (a b : DWord) : State := tweak s fun W => { W with g := [(1, a), (2, b)] }

/-- A state whose first bank of core 0 is in mash mode. -/
def mashed (s : State) : State := { s with banks := [(0, { Bank.zero with mash := true })] }

/-- A state with h0 hung, one row of 32-bit entries, and h1 hanging for the first rows of 0x30000. -/
def hungOf (s : State) : State :=
  { s with handles := [(0, .hung (2 ^ 48 + 0x3FFFF0000) 1 2 true), (1, .hanging 0 63 0x30000 (2 ^ 48 + 0x3FFFF0000) 64 2 3 9)] }

/-- A COPY to scratch at v12, with or without an arrival at the slot of q7 that v14 names. -/
abbrev copyIn (rv : Bool) : Instr := .copy false 12 0 13 0 0 rv (if rv then 7 else 0) 0 0 (if rv then 14 else 0)

/-- A COPY of MXINT8 or MXFP8 blocks into the bank that v12 names. -/
abbrev steepI : Instr := .copy false 12 0 16 3 0 false 0 0 0 0

theorem witness_EngineFaults :
    UsableG (ringed 0) (ix (ringed 0)) [1, 2] ∧
    (copying.issuing = some (ix copying) ∧ lowest (ix copying).P.lanes = 0 ∧
      ∀ u ∈ copyUses 0 0 12 0 2 false 0 0, u.ok (ix copying) = true ∧ u.busy (ix copying) copying [0] = false) ∧
    faults [(withRegs copying [(0, 0x70000)], copyI, 14, 1),
      (copying, .copy false 0 1 12 0 2 false 0 0 0 0, 2, 0),
      (st .copy, copyI, 19, 1),
      (recorded (st .copy) (0x20200 + 2 <<< 56 + 32 <<< 64 + 32 <<< 88 + 7 <<< 328 + 7 <<< 340), .copy false 0 0 123 0 2 false 0 0 0 0, 2, 0)] ∧
    faults [(recorded (st .copy) (0x20200 + 3 <<< 56 + 256 <<< 64 + 256 <<< 88 + 256 <<< 112 + 255 <<< 328 + 255 <<< 340 + 255 <<< 352), copyI, 19, 2),
      (recorded (st .copy) (rec1 4 0x20200).toNat, .copy false 0 0 2 0 2 false 0 0 0 0, 19, 3),
      (recorded (st .copy) steepRec, steepI, 2, 0),
      (recorded (banked .copy true []) (steepRec + 32 <<< 328), steepI, 19, 4)] ∧
    faults [(withRegs copying [(12, 0x100000)], copyIn false, 11, 0),
      (copying, copyIn true, 20, 1),
      (recorded (withRegs (ringed 0) [(14, 2)]) (rec1 0 0x20200).toNat, copyIn true, 20, 2),
      (recorded (withRegs (ringed 0) [(14, 1)]) (rec1 0 0x20200).toNat, copyIn true, 20, 3)] ∧
    faults [(recorded (banked .copy false []) steepRec, steepI, 17, 0),
      (mashed copying, copyIn false, 17, 0),
      (hungOf (withRegs copying [(4, 0x30000)]), .copy false 4 0 12 0 2 false 0 0 0 0, 16, 4)] ∧
    faults [(withG (st .copy) 129 0x100, .rset false 7 1 2, 2, 0),
      (withG (st .copy) 128 1, .rset false 7 1 2, 2, 0),
      (withG (st .copy) 0x800000 0x100, .rset false 7 1 2, 2, 0),
      (withG (mashed (st .copy)) 128 0x100, .rset false 7 1 2, 17, 0)] ∧
    faults [(withG ((ringed 0).modTeam 0 fun T => { T with rings := [(7, some ⟨128, 1, 2, 2, 0, 1, true, 0, [⟨.opened, true, 0, 1⟩, ⟨.free, true, 0, 0⟩]⟩)] })
        128 0x100, .rset false 7 1 2, 20, 5),
      (st .copy, .racq 1 7, 20, 1),
      (withG (ringed 0) 32 0, .rpub false 1 7, 2, 0),
      (withG (st .copy) 31 0, .rpub false 1 7, 20, 1)] ∧
    faults [(withG (ringed 0) 2 0, .rpub false 1 7, 20, 2),
      (withG (ringed 0) 1 0, .rpub false 1 7, 20, 3),
      (withG (ringed 0) 0x20 0, .rwait 1 7, 2, 0),
      (withG (st .copy) 0x11F 0, .rwait 1 7, 20, 1)] ∧
    faults [(withG (ringed 0) 2 0, .rwait 1 7, 20, 2),
      (withG (ringed 0) 2 0, .rfree false 1 7, 20, 2),
      (withG (ringed 0) 0 0, .rfree false 1 7, 20, 4),
      (withG (mashed (ringed 0)) 1 0, .rfree false 1 7, 17, 0)] := by
  refine ⟨usableG_of ?_, ?_, faults_of ?_, faults_of ?_, faults_of ?_, faults_of ?_, faults_of ?_, faults_of ?_, faults_of ?_, faults_of ?_⟩ <;>
    decide +kernel

theorem witness_SpecialFunctions :
    ready (st .vector) [.reg 3, .src 0] [.rcp false false none 3 0, .rsq false false none 3 0, .sqrt false false none 3 0,
      .exp2 false false none 3 0, .log2 false false none 3 0, .sin false false none 3 0, .cos false false none 3 0,
      .tanh false false none 3 0] := ready_of (by decide +kernel)

theorem witness_Conversions : readies (st .vector) [
    ([.regPair 4, .src 0], [.cvt false false none 4 0 false false 3, .cvt false false none 4 0 false false 7]),
    ([.reg 3, .src 0], [.cvt false false none 3 0 false true 10, .cvt false false none 3 0 true false 11, .cvtr false false none 3 0 7 true 2,
      .rsdrd false false 3 7, .rsdwr false 0 7]),
    ([.reg 3, .srcPair 0], [.cvt false false none 3 0 true false 3])] := readies_of (by decide +kernel)

theorem witness_MicroscaledFormats :
    readies (st .vector) [([.reg 3, .src 0, .src (pfxC pc 3)], [.mxsc false false none 3 0 2 3, .mxq false false pc 3 0 2 3 7,
      .mxqr false false pc 3 0 0 3 7, .mxdq false false pc 3 0 1 0 3]), ([.regPair 4, .src 0, .src 2], [.smxacc false false none 4 0 2]),
      ([.reg 3, .src 0, .srcPair 2], [.smxfin false false none 3 0 2])] ∧ (ix (st .vector)).T.width ≠ 16 ∧
    let s := (st .vector).setTeam 0 { placedTeam with width := 16, threads := 16 }
    (ix s).T.width = 16 ∧ ready s [.reg 3, .srcPair 0] [.mxsc false false none 3 0 0 0] := by
  refine ⟨readies_of ?_, ?_, ?_, ready_of ?_⟩ <;> decide +kernel

/-- A team of 64 lanes to a warp. -/
def wide : State := (st .vector).setTeam 0 { placedTeam with width := 64, threads := 64 }

theorem witness_CrossLane :
    readies (st .copy) [([.reg 3, .src 0], [.vote false false 3 0 0, .vote false false 3 0 1, .vote false false 3 0 3,
        .redux false false 3 0 7 false, .redux false false 3 0 2 true, .scan false false 3 0 2 true true, .vote false false 3 0 2,
        .matchKeys false false 3 0 0, .matchKeys false false 3 0 2]), ([.reg 3, .srcPair 0], [.matchKeys false false 3 0 1]),
      ([.reg 3, .src 0, .src 2], [.shfl false false 3 0 2, .compact false false 3 0 2]), ([.regPair 4], [.bcast false false 4 62 true]),
      ([.reg 3], [.bcast false false 3 62 false]), ([.srcPair 0], [.rdlane false 62 0 true 31]),
      ([.src 0], [.rdlane false 62 0 false 31, .rdlane false 62 0 true 32])] ∧
    readies wide [([.regPair 4, .src 0], [.vote false false 4 0 2, .matchKeys false false 4 0 0, .matchKeys false false 4 0 2]),
      ([.regPair 4, .srcPair 0], [.matchKeys false false 4 0 1])] ∧ UsableG (st .copy) (ix (st .copy)) [62] ∧
    (ix (st .copy)).T.width = 32 ∧ (ix wide).T.width = 64 ∧ (31 : BitVec 6).toNat < 32 ∧ 32 ≤ (32 : BitVec 6).toNat := by
  refine ⟨readies_of ?_, readies_of ?_, usableG_of ?_, ?_⟩ <;> decide +kernel

/-- An aligned, canonical target. -/
abbrev good (t : VAddr) : Prop := t.toNat % 4 = 0 ∧ (t.toNat < 2 ^ 51 ∨ 2 ^ 56 - 2 ^ 51 ≤ t.toNat)

theorem witness_Branches :
    (∀ o ∈ ([1, -8192, 8191] : List Int), good ((ix (st .copy)).P.pc + BitVec.ofInt 56 (4 * o))) ∧
    readyG (st .copy) [1] [.br 1, .brm 7 0x1FFF, .jmp 0x1FFF, .jz 1 0x1FFF, .jnz 1 1] ∧
    readies (st .copy) [([.src 2], [.brz 2 0x1FFF, .brnz 2 0x2000]), ([.srcPair 0], [.brx 0])] ∧
    ∀ l ∈ (ix (st .copy)).lanes, good (((ix (st .copy)).srcPair 0 l).setWidth 56) := by
  refine ⟨?_, readyG_of ?_, readies_of ?_, ?_⟩ <;> decide +kernel

/-- A state whose lane 0 has eight return addresses and `n` spilled, and whose lane 1 has one spilled. -/
def deep (n : Nat) : State := tweak (st .copy) fun W => { W with stack := [(0, List.replicate 8 0x20040)], spill := [(0, n), (1, 1)] }

/-- The page of the lanes' private memory is not mapped. -/
def unmapped (s : State) : State := s.place 0x1C000 8 0

theorem witness_Calls :
    (let x := ix (deep 1)
     let full := x.lanes.filter fun l => decide (8 ≤ (x.W.stackOf l).length)
     full = [0] ∧ (∀ l ∈ full, x.W.spillOf l ≠ 8192) ∧ (∀ l ∈ x.lanes, good ((x.srcPair 0 l).setWidth 56)) ∧
     good ((x.W.greg 2).setWidth 56) ∧ good (x.P.pc + 4) ∧ readies (deep 1) [([.srcPair 0], [.callx 0])] ∧
     readyG (deep 1) [2] [.call 1, .gcall 1, .gcallRegister 2] ∧
     ∃ as, x.privateAcc (deep 1) .store 8 full (fun l => 8 * x.W.spillOf l) = .ok as ∧ as.length = 1) ∧
    (ix (deep 8192)).W.spillOf 0 = 8192 ∧ faults [(deep 8192, .call 1, 5, 0), (deep 128, .call 1, 13, 0),
      (unmapped (deep 1), .callx 0, 14, 1)] := by
  refine ⟨⟨?_, ?_, ?_, ?_, ?_, readies_of ?_, readyG_of ?_, ok_sat ?_⟩, ?_, faults_of ?_⟩ <;> decide +kernel

theorem witness_Returns :
    (let x := ix (deep 1)
     let empty := x.lanes.filter fun l => (x.W.stackOf l).isEmpty
     empty = [1] ∧ (∀ l ∈ empty, x.W.spillOf l ≠ 0) ∧ Starts (deep 1) x .ret ∧ good (0x20040 : VAddr) ∧
     ∃ as, x.privateAcc (deep 1) .load 8 empty (fun l => 8 * (x.W.spillOf l - 1)) = .ok as ∧ ∀ a ∈ as,
       (deep 1).laneLoadOn x.w a.lane a.pas = false ∧ (deep 1).served (x.outst (deep 1) 0 a false false 0 0) = true ∧
       good (BitVec.ofNat 56 ((deep 1).loadValue (x.outst (deep 1) 0 a false false 0 0)))) ∧
    faults [(st .copy, .ret, 4, 0), (unmapped (deep 1), .ret, 14, 1), ((deep 1).place 0x30004 4 3, .ret, 3, 0),
      ((deep 1).place 0x1C000 8 (2 ^ 50 + 0xF), .ret, 23, 0)] := by
  refine ⟨⟨?_, ?_, starts_of ?_, ?_, ok_sat ?_⟩, faults_of ?_⟩ <;> decide +kernel

/-- A state whose lane 2 is parked in j0, where lanes 0 to 2 are enrolled, and with lane 0 alone enrolled in j1, and j2 waiting
for a lane 3 that no path has. -/
def parked : State :=
  tweak (st .copy) fun W => { W with live := 15, j := [(0, ⟨7, 4⟩), (1, ⟨1, 0⟩), (2, ⟨15, 0⟩)], cont := [(2, 0x20040)] }

theorem witness_RejoinRegisters :
    let x := ix parked
    let named := x.P.lanes &&& x.W.mask x.P 0
    let J := x.W.join 0
    let K := x.W.join 2
    (∀ i ∈ [Instr.enrol false 7 0, .strike false 7 0, .strike true 0 0, .rejoin 7, .rejoin 2, .rejoin 1, .rejoin 0], Starts parked x i) ∧
    ¬ ((x.W.join 7).en &&& ~~~named ≠ (x.W.join 7).en ∧ (x.W.join 7).ar ≠ 0 ∧ (x.W.join 7).en &&& ~~~named = (x.W.join 7).ar) ∧
    (J.en &&& ~~~named ≠ J.en ∧ J.ar ≠ 0 ∧ J.en &&& ~~~named = J.ar ∧ x.low ∉ lanesOf J.ar) ∧
    (x.P.lanes &&& (x.W.join 7).en = 0 ∧ x.P.lanes &&& J.en ≠ 0 ∧ J.en = J.ar ||| (x.P.lanes &&& J.en)) ∧
    (x.P.lanes &&& (x.W.join 1).en ≠ 0 ∧ x.P.lanes &&& ~~~(x.W.join 1).en ≠ 0) ∧
    (x.P.lanes &&& K.en ≠ 0 ∧ x.P.lanes &&& ~~~K.en = 0 ∧ K.en ≠ K.ar ||| (x.P.lanes &&& K.en) ∧
      (∀ P ∈ x.W.paths, lowest P.lanes = x.low) ∧ x.W.live &&& ~~~x.W.exited ≠ 0) := by
  refine ⟨starts_all ?_, ?_, ?_, ?_, ?_, ?_⟩ <;> decide +kernel

/-- A state with a second path, of lane 2, blocked at the barrier, where lane 0 and 1 exit. -/
def atBarrier : State :=
  tweak (st .copy) fun W => { W with live := 7, paths := W.paths ++ [{ Path.fresh 4 0x20040 with block := some .bar }] }

theorem witness_ExitEndsThreads :
    (∀ s ∈ [st .copy, parked, atBarrier, tweak parked fun W => { W with j := [] }], Starts s (ix s) .exit) ∧
    (let x := ix parked
     (x.W.join 0).en &&& x.P.lanes ≠ 0 ∧ (x.W.join 0).ar ≠ 0 ∧ (x.W.join 0).en &&& ~~~x.P.lanes = (x.W.join 0).ar) ∧
    (let x := ix (tweak parked fun W => { W with j := [] })
     (∀ P ∈ x.W.paths, lowest P.lanes = x.low) ∧ x.W.live &&& ~~~(x.W.exited ||| x.P.lanes) ≠ 0 ∧ ∀ n, n < 8 → (x.W.join n).ar = 0) ∧
    (let x := ix atBarrier
     (∃ P ∈ x.W.paths, lowest P.lanes ≠ x.low ∧ P.block = some .bar) ∧ x.W.live &&& ~~~(x.W.exited ||| x.P.lanes) = 4) ∧
    (ix (st .copy)).W.live &&& ~~~((ix (st .copy)).W.exited ||| (ix (st .copy)).P.lanes) = 0 := by
  refine ⟨fun s hs => ?_, ?_, ?_, ?_, ?_⟩
  · simp only [List.mem_cons, List.not_mem_nil, or_false] at hs
    rcases hs with rfl | rfl | rfl | rfl <;> exact starts_of (by decide +kernel)
  all_goals decide +kernel

/-- A state whose team is of a gang. -/
def gang : State := (st .copy).setTeam 0 { placedTeam with gang := true }

theorem witness_BarriersAndYield :
    (∀ i ∈ [Instr.yield, .barg, .bar], Starts (st .copy) (ix (st .copy)) i) ∧ Starts gang (ix gang) .barg ∧
    (ix (st .copy)).T.gang = false ∧ (ix (st .copy)).releaseWaits (st .copy) 1 = false ∧ (ix gang).T.gang = true ∧
    (ix gang).releaseWaits gang 5 = false := by
  refine ⟨starts_all ?_, starts_of ?_, ?_⟩ <;> decide +kernel

theorem witness_NoEffectAndFences :
    (∀ i ∈ [Instr.nop true, .hint false true 14 0x1FFFFF, .pref false 1 127 31 3, .fence false 0 6, .fence true 3 0, .fence true 1 6],
      Starts (st .copy) (ix (st .copy)) i) ∧
    (st .copy).loadsOut 0 3 = false ∧ (∀ sc, sc < 7 → (ix (st .copy)).releaseWaits (st .copy) sc = false) ∧
    wideScope (ix (st .copy)).T 0 = false ∧ wideScope (ix (st .copy)).T 6 = true := by
  refine ⟨starts_all ?_, ?_⟩ <;> decide +kernel

/-- The accesses of a list go over no link that is down, and their lines find room in the collector. -/
abbrev served (s : State) (as : List MemAcc) : Prop :=
  as ≠ [] ∧ (∀ a ∈ as, s.deadLink ((ix s).outst s 0 a false false 0 0) = false) ∧ (s.collEntries 0).length + (accLines as).length ≤ 64

/-- A state whose two lanes have addresses in two lines. -/
def spread : State := tweak (st .copy) fun W => W.setReg 1 0 0x20180

/-- A state whose lanes have the addresses of semaphores 30 and 31 of the module. -/
def atSems : State := paged 0x440F0 0x440F8

/-- A state in which lane 0 has an address of a page at a host whose link is down. -/
def atHost : State := (offsets 0x40000 0x20100).place 0x1C020 8 (2 ^ 50 + 0xF)

/-- Every address of a list is of a register or a peer window, or none is. -/
abbrev device (b : Bool) (as : List MemAcc) : Prop := ∀ a ∈ as, uncached a.pa = b

theorem witness_MemoryLoads :
    let x := ix spread
    let at' := fun l => (x.srcPair 0 l).toNat
    readies spread [([.group 4 4 4, .srcPair 0], [.ldg false 4 0 31 3]), ([.reg 123, .srcPair 0], [.ldgs false 123 0 0 true]),
      ([.group 4 4 4, .src 4], [.ldp false 4 4 31 3]), ([.reg 3, .src 4], [.ldps false 3 4 0 false])] ∧
    readyG spread [63, 2] [.gld false 63 2 3 127] ∧
    (∃ as, x.globalAcc spread .load 16 x.lanes (fun l => (at' l + 31 * 16) % 2 ^ 56) = .ok as ∧ served spread as ∧ (accLines as).length = 2) ∧
    (∃ as, x.globalAcc spread .load 2 x.lanes (fun l => at' l % 2 ^ 56) = .ok as ∧ served spread as) ∧
    (∃ as, x.privateAcc spread .load 16 x.lanes (fun l => (x.src 4 l).toNat + 31 * 16) = .ok as ∧ served spread as) ∧
    (∃ as, x.privateAcc spread .load 1 x.lanes (fun l => (x.src 4 l).toNat) = .ok as ∧ served spread as) ∧
    (∃ as, x.globalAcc spread .fresh 8 [x.low] (fun _ => ((x.W.greg 2).toNat + 127 * 8) % 2 ^ 56) = .ok as ∧ served spread as) ∧
    (∃ as, (ix atSems).globalAcc atSems .load 4 (ix atSems).lanes (fun l => ((ix atSems).srcPair 0 l).toNat % 2 ^ 56) = .ok as ∧
      served atSems as ∧ device true as) ∧
    readies atSems [([.reg 3, .srcPair 0], [.ldg false 3 0 0 2])] ∧ faults [(atHost, .ldg false 3 0 0 2, 23, 0)] := by
  refine ⟨readies_of ?_, readyG_of ?_, ok_sat ?_, ok_sat ?_, ok_sat ?_, ok_sat ?_, ok_sat ?_, ok_sat ?_, readies_of ?_, faults_of ?_⟩ <;>
    decide +kernel

/-- A state in which the first line of the team's scratch is empty. -/
def drained : State := { st .copy with empty := [(0, true)] }

theorem witness_ScratchLoads :
    (let s := st .copy
     let x := ix s
     x.P.wait = none ∧ x.P.done = 0 ∧ readies s [([.group 4 4 4, .src 8], [.lds false 4 8 31 3])] ∧ readyG s [63, 3] [.glds false 63 3 3 127] ∧
     (∃ as, x.scratchAcc s 16 x.lanes (fun l => (x.src 8 l).toNat + 31 * 16) = .ok as ∧ ∀ p ∈ as, s.isEmpty p.2 = false) ∧
     ∃ as, x.scratchAcc s 8 [x.low] (fun _ => (x.W.greg 3).toNat % 2 ^ 32 + 127 * 8) = .ok as ∧ ∀ p ∈ as, s.isEmpty p.2 = false) ∧
    (let x := ix drained
     readies drained [([.reg 3, .src 8], [.lds false 3 8 0 2, .ldss false 3 8 0 true])] ∧ x.T.hold = none ∧
     ∃ as, x.scratchAcc drained 2 x.lanes (fun l => (x.src 8 l).toNat) = .ok as ∧ ∃ p ∈ as, drained.isEmpty p.2 = true) ∧
    (let s := tweak (st .copy) fun W => W.modPath 0 fun P => { P with done := 1 }
     ((ix s).lanes.filter fun l => !(ix s).P.done.getLsbD l) = [1] ∧ startsB s (.lds false 3 8 0 2) = true) := by
  refine ⟨⟨?_, ?_, readies_of ?_, readyG_of ?_, ok_sat ?_, ok_sat ?_⟩, ⟨readies_of ?_, ?_, ok_sat ?_⟩, ?_⟩ <;> decide +kernel

theorem witness_ScratchWrites :
    let s := st .copy
    let x := ix s
    readies s [([.group 4 4 4, .src 8], [.sts false 4 8 31 3]), ([.src 2, .src 8], [.sts false 2 8 0 0]), ([.src 8], [.empty false 8 31 3]),
      ([.reg 3, .src 8], [.fchk false false 3 8 31 3])] ∧ readyG s [63, 3] [.gst false 63 3 true 3 127] ∧
    (x.scratchOut s = false ∧ s.loadsOut x.w x.P.lanes = false) ∧
    (∃ as, x.scratchAcc s 16 x.lanes (fun l => (x.src 8 l).toNat + 31 * 16) = .ok as ∧ as ≠ []) ∧
    ∃ as, x.scratchAcc s 8 [x.low] (fun _ => (x.W.greg 3).toNat % 2 ^ 32 + 127 * 8) = .ok as ∧ as ≠ [] := by
  refine ⟨readies_of ?_, readyG_of ?_, ?_, ok_sat ?_, ok_sat ?_⟩ <;> decide +kernel

theorem witness_MemoryStores :
    let x := ix spread
    let at' := fun l => (x.srcPair 0 l).toNat
    readies spread [([.group 4 4 4, .srcPair 0], [.stg false 4 0 31 3]), ([.src 2, .src 4], [.stp false 2 4 31 0]),
      ([.src 2, .srcPair 0], [.strel false 2 0 0 2])] ∧ readyG spread [63, 2] [.gst false 63 2 false 0 127] ∧
    (∃ as, x.globalAcc spread .store 16 x.lanes (fun l => (at' l + 31 * 16) % 2 ^ 56) = .ok as ∧ served spread as) ∧
    (∃ as, x.privateAcc spread .store 1 x.lanes (fun l => (x.src 4 l).toNat + 31) = .ok as ∧ served spread as) ∧
    (∃ as, x.globalAcc spread .store 1 [x.low] (fun _ => ((x.W.greg 2).toNat + 127) % 2 ^ 56) = .ok as ∧ served spread as) ∧
    (∃ as, x.globalAcc spread .store 4 x.lanes (fun l => at' l % 2 ^ 56) = .ok as ∧ served spread as) ∧
    (∃ as, (ix atSems).globalAcc atSems .store 4 (ix atSems).lanes (fun l => ((ix atSems).srcPair 0 l).toNat % 2 ^ 56) = .ok as ∧
      served atSems as ∧ device true as) ∧
    readies atSems [([.src 2, .srcPair 0], [.stg false 2 0 0 2])] ∧ wideScope x.T 0 = false ∧ x.releaseWaits spread 0 = false := by
  refine ⟨readies_of ?_, readyG_of ?_, ok_sat ?_, ok_sat ?_, ok_sat ?_, ok_sat ?_, ok_sat ?_, readies_of ?_, ?_⟩ <;> decide +kernel

theorem witness_Retiring : (st .copy).warp (ix (st .copy)).w = some (ix (st .copy)).W ∧
    (ix (st .copy)).W.path (ix (st .copy)).low = some (ix (st .copy)).P ∧ (ix (st .copy)).W.running = some (ix (st .copy)).low := by
  decide +kernel

/-- A load of four bytes by lane 1, into v124 to v127. -/
def load1 : Outst :=
  { id := 5, grp := 5, w := 0, lane := 1, ctx := 0, kind := .load, addrs := (List.range 4).map fun i => (0x20100 + i, 0x20100 + i)
    signed := true, nc := true, value := 0, uni := false, dest := 124, nreg := 4, coll := none, pc := 0x20000, scene := some ⟨0, []⟩
    size := 1, count := 0, failed := false, lock := true, peer := none }

/-- A store of one byte by lane 1. -/
def store1 : PStore :=
  { id := 6, grp := 6, w := 0, lane := 1, ctx := 0, bytes := [(0x20104, 0x20104, 0xA5)], coll := none, mcst := false, span := []
    rel := none, peer := none }

/-- A state in which the byte of lane 0 carries the value of a narrow release of another core, before which that core has issued a
store that is not performed. -/
def released : State := { spread with stores := [{ store1 with id := 0, w := 48 }], rels := [(0x20100, [(1, 3)])] }

theorem witness_LoadAcquire :
    let x := ix spread
    let at' := fun l => (x.srcPair 0 l).toNat % 2 ^ 56
    readies spread [([.reg 3, .srcPair 0], [.lda false 3 0 6 true 2, .lda false 3 0 0 false 0])] ∧ wideScope x.T 6 = true ∧
    wideScope x.T 0 = false ∧
    (∃ as, x.globalAcc spread .fresh 4 x.lanes at' = .ok as ∧ served spread as ∧ device false as ∧ spread.devBusy x.w as = false ∧
      spread.promotes (as.flatMap (·.pas)) = false ∧ released.promotes (as.flatMap (·.pas)) = true ∧
      okB (x.readAll spread (as.map fun a => { a with nc := true })) = true ∧ (∀ a ∈ as, a.pas.all spread.reaches = true) ∧
      ∀ a ∈ as, spread.laneLoadOn x.w a.lane a.pas = false ∧ spread.coreStoreOn x.core a.pas = false) ∧
    (∃ as, x.globalAcc spread .load 1 x.lanes at' = .ok as ∧ served spread as ∧ ∀ a ∈ as, spread.laneLoadOn x.w a.lane a.pas = false) ∧
    (∃ as, (ix atSems).globalAcc atSems .fresh 4 (ix atSems).lanes (fun l => ((ix atSems).srcPair 0 l).toNat % 2 ^ 56) = .ok as ∧
      device true as) ∧
    faults [(atHost, .lda false 3 0 6 true 2, 23, 0)] := by
  refine ⟨readies_of ?_, ?_, ?_, ok_sat ?_, ok_sat ?_, ok_sat ?_, faults_of ?_⟩ <;> decide +kernel

/-- A state whose lane 0 has an address in a replicated page, and lane 1 in another. -/
def replicated : State := (offsets 0x40000 0x20100).place 0x1C020 8 (2 ^ 48 + 0x3FFFF002F)

theorem witness_ReleaseStoreAndMulticast :
    let x := ix spread
    let at' := fun l => (x.srcPair 0 l).toNat % 2 ^ 56
    readies spread [([.src 2, .srcPair 0], [.strel false 2 0 6 2, .strel false 2 0 5 0])] ∧ wideScope x.T 6 = true ∧
    x.releaseWaits spread 6 = false ∧ (∃ as, x.globalAcc spread .store 4 x.lanes at' = .ok as ∧ served spread as ∧ device false as) ∧
    (∃ as, (ix atSems).globalAcc atSems .store 4 (ix atSems).lanes (fun l => ((ix atSems).srcPair 0 l).toNat % 2 ^ 56) = .ok as ∧
      device true as) ∧ readies atSems [([.src 2, .srcPair 0], [.strel false 2 0 5 2])] ∧
    readies replicated [([.src 2, .srcPair 0], [.mcst false 2 0 0 2])] ∧ replicated.mcstCount 0 < 8 ∧
    ∃ as, (ix replicated).globalAcc replicated .mcst 4 (ix replicated).lanes (fun l => ((ix replicated).srcPair 0 l).toNat % 2 ^ 56) = .ok as ∧
      as.map (fun a => (a.replicas replicated 0).length) = [16, 1] ∧
      ∀ a ∈ as, ∀ l ∈ a.replicas replicated 0, uncached (l.headD 0) = false := by
  refine ⟨readies_of ?_, ?_, ?_, ok_sat ?_, ok_sat ?_, readies_of ?_, readies_of ?_, ?_, ok_sat ?_⟩ <;> decide +kernel

/-- A state in which the page at 0x40000 is peer window 0 of the module, whose port 0 is up. -/
def atPeer : State :=
  let s := (offsets 0x40008 0x40000).place 0x1C020 8 (8 * 2 ^ 48 + 0xF)
  { s with ports := [(0, ⟨true, false, 16⟩)], peers := tput PeerWin.zero s.peers 0 ⟨true, false, 48, 0⟩ }

theorem witness_Atomics :
    (let s := st .copy
     let x := ix s
     readies s [([.reg 3, .src 8, .src 2, .src 2], [.atom false 3 8 2 7 0 2 6 1 false 2, .atom false 3 8 2 7 0 2 6 2 false 2]),
       ([.srcPair 0, .srcPair 2], [.atom false 0 0 2 6 3 0 0 0 true 0])] ∧ x.scratchOut s = false ∧
     (s.loadsOut x.w x.P.lanes = false ∧ x.releaseWaits s 6 = false ∧ x.P.done = 0) ∧
     (∃ as, x.scratchAcc s 4 x.lanes (fun l => (x.src 8 l).toNat) = .ok as ∧ ∀ p ∈ as, s.isEmpty p.2 = false) ∧
     ∃ as, x.privateAcc s (.atomic 0) 4 x.lanes (fun l => (x.src 8 l).toNat) = .ok as ∧ served s as ∧ device false as) ∧
    (let x := ix drained
     startsB drained (.atom false 3 8 2 0 0 0 0 1 false 0) = true ∧ x.T.hold = none ∧
     ∃ as, x.scratchAcc drained 4 x.lanes (fun l => (x.src 8 l).toNat) = .ok as ∧ ∃ p ∈ as, drained.isEmpty p.2 = true) ∧
    (let s := tweak (st .copy) fun W => W.setReg 1 0 0x20108
     ∃ as, (ix s).globalAcc s (.atomic 3) 8 (ix s).lanes (fun l => ((ix s).srcPair 0 l).toNat % 2 ^ 56) = .ok as ∧ served s as ∧
      device false as ∧ s.devBusy 0 as = false ∧ ∀ a ∈ as, s.coreStoreOn (ix s).core a.pas = false) ∧
    (readies atPeer [([.srcPair 0, .srcPair 2], [.atom false 0 0 2 0 2 0 0 0 true 0])] ∧
     ∃ as, (ix atPeer).globalAcc atPeer (.atomic 2) 8 (ix atPeer).lanes (fun l => ((ix atPeer).srcPair 0 l).toNat % 2 ^ 56) = .ok as ∧
      device true as ∧ ∀ a ∈ as, atPeer.portUp (atPeer.peerWin a.pa).port.toNat = true) ∧
    faults [(atHost, .atom false 0 0 2 0 1 0 0 0 true 0, 23, 0), ({ atPeer with ports := [] }, .atom false 0 0 2 0 2 0 0 0 true 0, 23, 0)] := by
  refine ⟨⟨readies_of ?_, ?_, ?_, ok_sat ?_, ok_sat ?_⟩, ⟨?_, ?_, ok_sat ?_⟩, ok_sat ?_, ⟨readies_of ?_, ok_sat ?_⟩, faults_of ?_⟩ <;>
    decide +kernel

/-- A state whose lane 0 has a monitor that has fired. -/
def fired : State := tweak (st .copy) fun W => { W with mon := [(0, some ⟨0x20100, 4, 0, true⟩)] }

theorem witness_Monitors :
    (let x := ix spread
     readies spread [([.src 2, .srcPair 0], [.monarm false 2 0 31 2])] ∧
     ∃ as, x.globalAcc spread .fresh 4 x.lanes (fun l => ((x.srcPair 0 l).toNat + 31 * 4) % 2 ^ 56) = .ok as ∧ served spread as ∧
       device false as ∧ ∀ a ∈ as, a.pas.all spread.reaches = true) ∧
    (readies atSems [([.src 2, .srcPair 0], [.monarm false 2 0 0 2])] ∧
     ∃ as, (ix atSems).globalAcc atSems .fresh 4 (ix atSems).lanes (fun l => ((ix atSems).srcPair 0 l).toNat % 2 ^ 56) = .ok as ∧
       device true as ∧ ∀ a ∈ as, atSems.peerDead (atSems.peerAt a.pa) = false) ∧
    (let s := { st .copy with loads := [{ load1 with kind := .monitor, nreg := 0 }] }
     readies s [([.reg 3], [.monwait false 3 false 0])] ∧ ∃ o ∈ s.loads, o.kind = .monitor ∧ o.w = (ix s).w ∧ o.lane ∈ (ix s).lanes) ∧
    (readies (st .copy) [([.reg 3], [.monwait false 3 true 0, .monwait true 3 false 31])] ∧ (ix (st .copy)).W.mon = []) ∧
    (readies fired [([.reg 3], [.monwait false 3 false 31])] ∧ (∃ l ∈ (ix fired).lanes, ∃ m, tget none (ix fired).W.mon l = some m ∧ m.fired = true) ∧
     (∀ P ∈ (ix fired).W.paths, P.block = none) ∧ (ix fired).P.block = none) ∧
    faults [(atHost, .monarm false 2 0 0 2, 23, 0)] := by
  refine ⟨⟨readies_of ?_, ok_sat ?_⟩, ⟨readies_of ?_, ok_sat ?_⟩, ⟨readies_of ?_, ?_⟩, ⟨readies_of ?_, ?_⟩,
    ⟨readies_of ?_, ⟨0, ?_, _, rfl, rfl⟩, ?_⟩, faults_of ?_⟩ <;> decide +kernel

/-- A state whose path waits for `k` at instruction `i`. -/
def waiting (s : State) (k : WaitKind) (i : Instr) : State :=
  tweak s fun W => W.modPath 0 fun P => { P with wait := some ⟨k, i⟩ }

/-- A load and a store of semaphore 31 by lane 1. -/
def loadSem : Outst := { load1 with addrs := (List.range 4).map fun i => (0x440F8 + i, 2 ^ 49 + 0x40F8 + i), nreg := 1 }
def storeSem : PStore := { store1 with bytes := (List.range 4).map fun i => (0x440F8 + i, 2 ^ 49 + 0x40F8 + i, 0) }

/-- The reply to a MONARM of that semaphore, which compares with `v`. -/
def monSem (v : Nat) : Outst := { loadSem with kind := .monitor, nreg := 0, value := BitVec.ofNat 128 v }

/-- A state whose team is held. -/
def holding (s : State) : State := s.modTeam 0 fun T => { T with hold := some Hold.empty }

/-- A load of four bytes of the core's scratch by lane 1. -/
def loadScr : Outst := { load1 with addrs := (List.range 4).map fun i => (scrLoc + i, scrLoc + i) }

/-- A store of a byte of the core's scratch by lane 1. -/
def storeScr : PStore := { store1 with bytes := [(scrLoc + 5, scrLoc + 5, 1)] }

theorem witness_MemoryEvents :
    (let s := { st .copy with loads := [load1, { load1 with id := 7, kind := .value }, { load1 with id := 8, kind := .value, addrs := [] },
       { load1 with id := 9 }, { loadSem with id := 10 }, { loadSem with id := 11 }] }
     let lookup := fun n => s.loads.find? (fun q => decide (q.id = n))
     lookup 5 = some load1 ∧ load1.coll = none ∧ (s.warp 0).isSome = true ∧ load1.lane < 64 ∧ load1.dest + load1.nreg ≤ 128 ∧
     load1.kind = .load ∧ s.loadBefore load1 = false ∧ uncached 0x20100 = false ∧ s.served load1 = true ∧
     (lookup 7).map (·.kind) = some .value ∧ (lookup 8).map (·.addrs) = some [] ∧ uncached (2 ^ 49 + 0x40F8) = true ∧
     s.devFirst 0 1 10 = true ∧ s.devFirst 0 1 11 = false ∧ (s.devRead (2 ^ 49 + 0x40F8) none).2.isSome = true) ∧
    (let s := { st .copy with stores := [store1, { store1 with id := 9 }, { storeScr with id := 10 }, { storeSem with id := 11 }] }
     s.stores.find? (fun q => decide (q.id = 6)) = some store1 ∧ store1.coll = none ∧
     (∀ q ∈ s.stores, ∀ r ∈ s.stores, q.id ≠ 9 → r.id < q.id → q.w / 48 = r.w / 48 → ∀ a ∈ r.bytes, ∀ b ∈ q.bytes, a.2.1 ≠ b.2.1) ∧
     s.stores.map (fun p => (p.scratch, p.device)) = [(false, false), (false, false), (true, false), (false, true)] ∧
     s.devFirst 0 1 11 = true) ∧
    (∀ v ∈ [6, 7], let s := { st .copy with loads := [monSem v] }
     (monSem v).kind = .monitor ∧ (monSem v).nreg = 0 ∧ s.devFirst 0 1 5 = true ∧ (s.devRead (2 ^ 49 + 0x40F8) none).2 = some 7) ∧
    (∀ o ∈ [load1, { load1 with addrs := (List.range 4).map fun i => (0x70000 + i, 0x70000 + i) }, loadScr, { load1 with kind := .value },
        monSem 7], let s := { st .copy with loads := [{ o with failed := true }] }
     let x := o.issuer (warp .copy) placedTeam
     s.heldWarp 0 = false ∧ (holding s).heldWarp 0 = true ∧ o.addrs ≠ [] ∧
     isScratch (o.addrs.headD (0, 0)).2 = decide (o = loadScr) ∧
     (isScratch (o.addrs.headD (0, 0)).2 = true ∨ okB (x.checkAcc s .fresh 4 true [1] fun _ => o.addrs.map (·.1)) =
       decide ((o.addrs.headD (0, 0)).1 ≠ 0x70000 ∧ (o.addrs.headD (0, 0)).1 ≠ 0x440F8))) ∧
    ((tget Bank.zero (st .copy).banks 0).mash = false ∧ (tget Bank.zero (mashed (st .copy)).banks 0).mash = true ∧
     tget false drained.empty (locLine scrLoc) = true) ∧
    (let q := { load1 with kind := .cue, coll := some 7 }
     let s := { st .vector with loads := [q, { q with grp := 4 }] }
     (∃ o ∈ s.loads, o.grp = 5 ∧ o.kind = .cue) ∧ (∃ o ∈ s.loads, (o.kind = .cue ↔ True) ∧ o.w = 0 ∧ o.grp < 5 ∧ o.coll = some 7) ∧
     ∀ o ∈ s.loads, ¬ (o.w = 0 ∧ o.grp < 4 ∧ o.coll = some 7)) ∧
    (let s := { st .copy with loads := [{ load1 with coll := some 0x402 }], stores := [{ store1 with grp := 5, coll := some 0x402 }] }
     (∀ o ∈ s.loads, o.grp = 5 → o.w = 0 ∧ o.kind = .load) ∧ (∀ p ∈ s.stores, p.grp = 5 → p.w = 0) ∧ (∃ o ∈ s.loads, o.grp = 5) ∧
     (∀ o ∈ s.loads, o.kind = .load → o.w = 0 → o.grp < 5 → o.coll ≠ some 0x402) ∧
     ∀ p ∈ s.stores, p.w = 0 → p.grp < 5 → p.coll ≠ some 0x402) ∧
    (let s := waiting (st .copy) .emptyLine (.lds false 3 8 0 2)
     s.waiter 0 = some (ix s, ⟨.emptyLine, .lds false 3 8 0 2⟩) ∧ Usable s (ix s) [.reg 3, .src 8] ∧
     ∃ as, (ix s).scratchAcc s 4 ((ix s).lanes.filter fun l => !(ix s).P.done.getLsbD l) (fun l => ((ix s).src 8 l).toNat) = .ok as ∧
       ∀ p ∈ as, s.isEmpty p.2 = false) := by
  refine ⟨?_, ?_, ?_, ?_, ?_, ?_, ?_, ?_, usable_of ?_, ok_sat ?_⟩ <;> decide +kernel

/-- A copy of 32 bytes out of a tensor at 0x20200 to global memory at 0x20100, not started: 8 elements of 32 bits. -/
def layout : Nat := 0x20200 + 2 ^ 56 + 2 * 2 ^ 60 + 8 * 2 ^ 64 + 7 * 2 ^ 328
def copy0 : Copy :=
  { id := 0, core := 0, team := 0, ctx := 0, w := 0, lane := 0, pc := 0x20000, words := 0, opt := 0, dir := 2, record := BitVec.ofNat 512 layout
    raddr := 0x20100, org := [0], dense := 0x20100, sdense := 0, ring := none, bank := none, started := false, unit := 0, park := none
    stalled := false, got := [], put := [] }

/-- A query of lane `l` of h0 whose table of one row begins at the arena's last 64 KiB. -/
def query (l : Nat) (c : Option Nat) : Outst :=
  { load1 with lane := l, kind := .cue, dest := 127, nreg := 1, coll := c, addrs := [(7, 2 ^ 48 + 0x3FFFF0000)] }

/-- The row of its entry. -/
abbrev rowQ : Nat := (2 ^ 48 + 0x3FFFF0000) / 1024

/-- The vector warp's state with h0 hung and h1 hanging. -/
def hung : State := hungOf (st .vector)

theorem witness_CueTables :
    (let s := withG (st .copy) 0x240 0x30000
     UsableG s (ix s) [63, 2, 1] ∧ Starts s (ix s) (.hang false 63 2 1 15) ∧
     (s.handle 0 15 = .unbound ∧ ((ix s).W.greg 1).toNat < 2 ^ 10 ∧ 1 ≤ ((ix s).W.greg 1).toNat % 2 ^ 8 ∧
       ((ix s).W.greg 1).toNat % 2 ^ 8 ≤ 64 ∧ ((ix s).W.greg 1).toNat / 2 ^ 8 ≠ 3 ∧ ((ix s).W.greg 2).toNat % 1024 = 0) ∧
     ∃ m, (ix s).xlate s .fresh (ix s).low [0x30000] = .ok m ∧ s.inArena m.pa = true ∧ m.pa % 65536 + 1024 * 64 ≤ 65536) ∧
    (let s := tweak hung fun W => (W.setReg 0 2 255).setReg 1 2 255
     readies s [([.reg 123, .src 2], [.cue false 123 2 true 0])] ∧ s.handle 0 0 = .hung (2 ^ 48 + 0x3FFFF0000) 1 2 true ∧
     (∀ l ∈ (ix s).lanes, 2 ^ 2 * ((ix s).src 2 l).toNat < 1024 * 1) ∧ (ix s).W.role = .vector ∧ (s.collEntries 0).length + 2 ≤ 64) ∧
    (let s := { hung with loads := [query 0 (some 7)] }
     Starts hung (ix hung) (.unhang true 0) ∧ Starts s (ix s) (.unhang true 0) ∧ hung.queriesOut 0 0 = false ∧ s.queriesOut 0 0 = true) ∧
    (hung.handle 0 1 = .hanging 0 63 0x30000 (2 ^ 48 + 0x3FFFF0000) 64 2 3 9 ∧ hung.hangReady 0 (2 ^ 48 + 0x3FFFF0000) 64 3 9 = true ∧
     hung.copyOverlaps 0 0x30000 (1024 * 64) = false ∧
     { hung with copies := [{ copy0 with dense := 0x3FFFC }] }.copyOverlaps 0 0x30000 (1024 * 64) = true) ∧
    (let got := { query 63 none with kind := .cueGot, value := 5 }
     let s := { hung with loads := [query 0 none, got] }
     let comes := fun (o : Outst) => o.kind = .cue ∧ o.coll = none ∧ (o.addrs.headD (0, 0)).2 / 1024 = rowQ
     comes (query 0 none) ∧ got.kind = .cueGot ∧ s.loads.Pairwise (fun o p => o.lane ≠ p.lane) ∧
     (∀ o ∈ s.loads, o.w = 0 ∧ o.lane < 64 ∧ o.uni = false ∧ o.dest = 127 ∧ o.nreg = 1 ∧ o.failed = false) ∧
     s.loads = s.loads.filter (fun o => decide (o.grp = 5))) ∧
    (let other := { query 63 none with addrs := [(8, 2 ^ 50)] }
     let s := { hung with loads := [query 0 none, other] }
     other.grp = 5 ∧ other.kind = .cue ∧ (other.addrs.headD (0, 0)).2 / 1024 ≠ rowQ ∧ ∀ o ∈ s.loads, o.failed = false) ∧
    (∀ a ∈ [7, 0x400, 2 ^ 33 + 7], let q := { query 0 none with failed := true, addrs := [(a, 0)] }
     let s := { hung with loads := [q] }
     s.loads.find? (fun q => decide (q.kind = .cue) && q.failed && decide (q.grp = 5)) = some q ∧ s.heldWarp 0 = false ∧
     (holding s).heldWarp 0 = true ∧ (s.handle 0 (a / 2 ^ 32) = if a = 2 ^ 33 + 7 then .unbound else .hung (2 ^ 48 + 0x3FFFF0000) 1 2 true) ∧
     (a % 2 ^ 32 * 2 ^ 2 < 1 * 1024 ↔ a ≠ 0x400) ∧ (s.collEntries 0).length + 1 ≤ 64) := by
  refine ⟨⟨usableG_of ?_, starts_of ?_, ?_, ok_sat ?_⟩, ⟨readies_of ?_, ?_⟩, ⟨starts_of ?_, starts_of ?_, ?_⟩, ?_, ?_, ?_, ?_⟩ <;> decide +kernel

theorem witness_StageRings :
    (let s := withG (st .copy) 128 0xFF1F
     readyG s [1, 2] [.rset true 7 1 2] ∧ (∀ i p, i < 32 → (ix s).T.scratchAt (128 + 128 * i) 1 = some p → (s.bankOf p).mash = false) ∧
     ((ix s).W.greg 1).toNat = 128 + 2 ^ 32 * (1 - 1) ∧ ((ix s).W.greg 2).toNat = 32 - 1 + 2 ^ 8 * 255 ∧
     (ix s).T.scratchAt 128 (128 * 1 * 32) ≠ none ∧ tget none (ix s).T.rings 7 = none ∧ (ix s).scratchOut s = false) ∧
    (readyG (ringed 1) [63] [.racq 63 7] ∧ ∃ r, tget none (ix (ringed 1)).T.rings 7 = some r ∧ (r.slot r.ap).st ≠ .free) ∧
    (let s := (ringed 1).modTeam 0 fun T => { T with rings := [(7, some ⟨128, 1, 2, 1, 1, 0, true, 1, [⟨.opened, true, 0, 0⟩, ⟨.free, true, 0, 0⟩]⟩)] }
     readyG s [63] [.racq 63 7] ∧ ∃ r, tget none (ix s).T.rings 7 = some r ∧ (r.slot r.ap).st = .free) ∧
    (readyG (ringed 0) [3] [.rpub false 3 7] ∧ (ix (ringed 0)).releaseWaits (ringed 0) 1 = false ∧
     ∃ r, tget none (ix (ringed 0)).T.rings 7 = some r ∧ 0 < r.scount ∧ (r.slot 0).st = .opened ∧ (r.slot 0).arr + (r.slot 0).res < r.exp) ∧
    (let s := withG (ringed 0) 0x101 0x100
     readyG s [1, 2] [.rwait 1 7, .rwait 2 7] ∧ (((ix s).W.greg 1).toNat = 1 + 2 ^ 8 ∧ ((ix s).W.greg 2).toNat = 0 + 2 ^ 8) ∧
     ∃ r, tget none (ix s).T.rings 7 = some r ∧ (r.slot 1).st = .filled ∧ (r.slot 1).ph = true ∧ (r.slot 0).st ≠ .filled) ∧
    (let s := withG (ringed 0) 1 0
     readyG s [1] [.rfree false 1 7] ∧ (ix s).scratchOut s = false ∧ ∃ r, tget none (ix s).T.rings 7 = some r ∧ 1 < r.scount ∧
       (r.slot 1).st = .filled ∧ r.base % 128 = 0 ∧ 1 ≤ r.ssize ∧ (s.bankOf (0, 0, 256)).mash = false ∧
       (ix s).T.scratchAt (r.base + 128 * r.ssize * 1) 1 = some (0, 0, 256)) := by
  refine ⟨⟨readyG_of ?_, fun i p _ h => ?_, ?_⟩, ⟨readyG_of ?_, _, rfl, ?_⟩, ⟨readyG_of ?_, _, rfl, ?_⟩,
    ⟨readyG_of ?_, ?_, _, rfl, ?_⟩, ⟨readyG_of ?_, ?_, _, rfl, ?_⟩, ⟨readyG_of ?_, ?_, _, rfl, ?_⟩⟩
  case refine_2 =>
    show (tget Bank.zero [] (32 * p.1 + p.2.1)).mash = false
    rfl
  all_goals decide +kernel

/-- A state with that record whose lane 0 has in v4 an address of its other page, and the COPY out of the tensor to it. -/
def leaving : State := withRegs copying [(4, 0x30100)]
abbrev copyO : Instr := .copy false 4 0 12 0 2 false 0 0 0 0

/-- The state after a COPY has read its record and translated the pages that it writes, and the copy out of the tensor that it then
issues. -/
def recRead0 (s : State) : State :=
  match (ix s).readRecord s 0 0x20100 64 with
  | .ok (t, _) => t
  | .error _ => s
def recRead (s : State) : State :=
  (recRead0 s).engWalks 0 0 (pageStarts { copy0 with dense := 0x30100, record := rec1 0 0x20200, id := (recRead0 s).nextId }.writtenRows)
def copyOf (s : State) : Copy := { copy0 with dense := 0x30100, record := rec1 0 0x20200, id := (recRead0 s).nextId }

/-- With no table hung nothing is denied. -/
theorem no_hungPage {s : State} {c : Copy} (h : s.hungRanges = []) : s.hungPage c = none := by
  unfold State.hungPage
  rw [List.findSome?_eq_none_iff]
  intro e _
  split <;> simp [State.hitsHung, h]

/-- That copy enters an engine with a place. -/
theorem enters_of {s t : State} {x : Ix} (h : ((s.copies.filter fun k => k.core = 0).length < 24 ∧ x.scratchOut s = false)) :
    ∃ u, CopyEnters s u x (copyOf t) := by
  refine ⟨{ s with copies := s.copies ++ [copyOf t], nextId := s.nextId + 1 }, h.1, nofun, h.2, rfl, rfl, fun j => ?_, rfl, rfl⟩
  have : (copyOf t).scratchDests = [] := rfl
  simp [this]

/-- An engine with no place. -/
def crowded : State := { leaving with copies := List.replicate 24 { copy0 with ctx := 1 } }

/-- The state in which it waits. -/
abbrev copyWaits : State := waiting leaving .copyPlace copyO

theorem reads_record {s : State}
    (h : (match (ix s).readRecord s 0 0x20100 64 with | .ok (_, n) => decide (rec1 0 0x20200 = BitVec.ofNat 512 n) | .error _ => false) = true) :
    ∃ u n, (ix s).readRecord s 0 0x20100 64 = .ok (u, n) ∧ (copyOf s).record = BitVec.ofNat 512 n ∧
      recRead s = u.engWalks (copyOf s).core (copyOf s).ctx (pageStarts (copyOf s).writtenRows) := by
  cases hr : (ix s).readRecord s 0 0x20100 64 with
  | ok v =>
    rw [hr] at h
    refine ⟨v.1, v.2, rfl, of_decide_eq_true h, ?_⟩
    have : recRead0 s = v.1 := by simp only [recRead0, hr]
    unfold recRead
    rw [this]
    unfold copyOf
    rw [this]
    rfl
  | error e => rw [hr] at h; cases h

theorem leaving_passes : CopyPasses leaving (ix leaving) 4 0 12 0 2 false 0 0 0 0 (recRead leaving) (copyOf leaving) := by
  refine ⟨?_, ?_, reads_record ?_, ?_, ?_, ?_, ?_, ?_, ?_, ?_, nofun, ?_, nofun, nofun, ?_, no_hungPage ?_⟩ <;> decide +kernel

theorem waits_passes : CopyPasses copyWaits (ix copyWaits) 4 0 12 0 2 false 0 0 0 0 (recRead copyWaits) (copyOf copyWaits) := by
  refine ⟨?_, ?_, reads_record ?_, ?_, ?_, ?_, ?_, ?_, ?_, ?_, nofun, ?_, nofun, nofun, ?_, no_hungPage ?_⟩ <;> decide +kernel

theorem crowded_passes : CopyPasses crowded (ix crowded) 4 0 12 0 2 false 0 0 0 0 (recRead crowded) (copyOf crowded) := by
  refine ⟨?_, ?_, reads_record ?_, ?_, ?_, ?_, ?_, ?_, ?_, ?_, nofun, ?_, nofun, nofun, ?_, no_hungPage ?_⟩ <;> decide +kernel

theorem witness_TileCopies :
    (let s := tweak leaving fun W => { W with k := [(2, 4)] }
     Starts s (ix s) (.copy true 4 0 12 0 2 false 0 0 2 0) ∧ (ix s).P.lanes &&& (ix s).W.mask (ix s).P 2 = 0) ∧
    (CopyPasses leaving (ix leaving) 4 0 12 0 2 false 0 0 0 0 (recRead leaving) (copyOf leaving) ∧
      (∃ u, CopyEnters (recRead leaving) u (ix leaving) (copyOf leaving)) ∧ Starts leaving (ix leaving) copyO) ∧
    (copyWaits.waiter 0 = some (ix copyWaits, ⟨.copyPlace, copyO⟩) ∧
      CopyPasses copyWaits (ix copyWaits) 4 0 12 0 2 false 0 0 0 0 (recRead copyWaits) (copyOf copyWaits) ∧
      ∃ u, CopyEnters (recRead copyWaits) u (ix copyWaits) (copyOf copyWaits)) ∧
    (CopyPasses crowded (ix crowded) 4 0 12 0 2 false 0 0 0 0 (recRead crowded) (copyOf crowded) ∧ Starts crowded (ix crowded) copyO ∧
      (ix crowded).T.hold = none ∧ 24 ≤ ((recRead crowded).copies.filter fun k => k.core = (copyOf crowded).core).length) ∧
    Starts crowded (ix crowded) .cwait ∧
    (let s := { leaving with copies := [{ copy0 with started := true }, { copy0 with id := 3 }] }
     s.copies.find? (fun k => k.id = 3) = some { copy0 with id := 3 } ∧ (∀ k ∈ s.copies, k.core = 0 → k.started = true ∨ 3 ≤ k.id) ∧
     (s.copies.filter fun k => k.core = 0 && (k.started && k.park.isNone && s.atHead k)).length < 8 ∧ s.stores = [] ∧ s.loads = [] ∧
     ∀ k ∈ copy0.locks, s.mcstOn 0 0 k.2.1 k.2.2 = false) := by
  refine ⟨⟨starts_of ?_, ?_⟩, ⟨leaving_passes, enters_of ?_, starts_of ?_⟩, ⟨?_, waits_passes, enters_of ?_⟩,
    ⟨crowded_passes, starts_of ?_, ?_⟩, starts_of ?_, ?_⟩ <;> decide +kernel

/-- A copy that moves 8 bytes out of a tensor at `at'`, or into one. -/
def moving (dir at' : Nat) : Copy := { copy0 with dir := dir, dense := if dir = 2 then 0x20110 else 0, record := rec1 0 at', started := true }

/-- A state whose engine holds it. -/
def engine (c : Copy) : State := { st .copy with copies := [c] }

/-- With every park slot taken none is free. -/
theorem no_freePark {s : State} {core : Nat} (h : ∀ i, i < 16 → ((s.engineCopies core).any fun c => c.park = some i) = true) :
    s.freePark core = none := by
  unfold State.freePark
  simp only [List.find?_eq_none, List.mem_map]
  rintro i ⟨j, -, rfl⟩
  simp [h _ (Nat.mod_lt _ (by decide))]

/-- A copy of a state moves: it is held, has begun, and has not written all. -/
abbrev movesIn (c : Copy) (s : State) : Prop :=
  s.copies.find? (fun k => k.id = c.id) = some c ∧ s.moving c = true ∧ c.unit < c.units ∧ s.team c.team = some placedTeam

theorem witness_CopyData :
    (let c := moving 0 0x20200
     let s := engine c
     movesIn c s ∧ c.bank = none ∧ c.put = [] ∧ c.nextRead = some (.global 0x20200) ∧
     ∃ m, s.engXlat 0 0 0x20200 .load = .ok m ∧ s.deadRead m.pa = false) ∧
    (let c := moving 1 0x20200
     movesIn c (engine c) ∧ c.nextRead = some (.scratch 0) ∧ placedTeam.scratchAt 0 1 = some (0, 0, 0) ∧ (engine c).isEmpty (0, 0, 0) = false ∧
     { engine c with empty := [(0, true)] }.isEmpty (0, 0, 0) = true) ∧
    (let c := { moving 0 0x20200 with got := [7], put := [⟨.scratch 3, 0xFF, 7⟩] }
     movesIn c (engine c) ∧ placedTeam.scratchAt 3 1 = some (0, 0, 3)) ∧
    (let c := { moving 2 0x20200 with got := [7], put := [⟨.global 0x20110, 0xFF, 7⟩] }
     movesIn c (engine c) ∧ ∃ m, (engine c).engXlat 0 0 0x20110 .store = .ok m ∧ (engine c).hitsHung m.pa 1 = false) ∧
    (∀ d ∈ [0, 1, 2], let c := { moving d 0x20200 with got := [7] }
     c.opt < 2 ∧ recElem c.record ≠ 4 ∧ recElem c.record ≠ 5 ∧ c.got.length = c.reads.length ∧ c.got.length = elemBits (recElem c.record) / 8) ∧
    (let c := { moving 0 0x20200 with unit := 8, ring := some (7, 0) }
     c.started = true ∧ c.unit = c.units ∧ { c with ring := none }.units = 8 ∧
     ∃ T, (ringed 1).team c.team = some T ∧ ∃ r, tget none T.rings 7 = some r ∧ 0 < r.slots.length ∧ (r.slot 0).arr + 1 = r.exp) ∧
    (let c := moving 0 0xE0000
     let s := engine c
     let t := { s with copies := c :: (List.range 16).map fun i => { c with id := 1 + i, park := some i } }
     t.freePark c.core = none ∧ movesIn c s ∧ movesIn c t ∧ c.stalled = false ∧ c.put = [] ∧ c.nextRead = some (.global 0xE0000) ∧
     s.engXlat 0 0 0xE0000 .load = .error (14, 1) ∧ t.engXlat 0 0 0xE0000 .load = .error (14, 1) ∧ (s.freePark c.core).isSome = true) ∧
    (let c := { moving 2 0x20200 with got := [7], put := [⟨.global 0xE0000, 0xFF, 7⟩] }
     movesIn c (engine c) ∧ (engine c).engXlat 0 0 0xE0000 .store = .error (14, 1)) ∧
    (let c := { moving 0 0x20200 with park := some 3 }
     ((engine c).copies.filter fun k => k.core = c.core).find? (fun k => k.park = some 3) = some c) := by
  refine ⟨⟨?_, ?_, ?_, ?_, ok_sat ?_⟩, ?_, ?_, ⟨?_, ok_sat ?_⟩, ?_, ⟨?_, ?_, ?_, _, rfl, _, rfl, ?_⟩, ⟨no_freePark ?_, ?_⟩, ?_, ?_⟩ <;>
    decide +kernel

/-- A stream record. -/
def stream (base count enc : Nat) : Nat := base + count <<< 64 + enc <<< 96

/-- A state with pages 0x40000, 0x50000 and 0x60000 mapped too, and stream records `ra` at 0x2FFE0, whose address lane 0 has in
v0, and `rb` after it; words are stored at 0x4FFFC, 0x50000 and 0x60000. No page is read twice. -/
def sparse (ra rb v0 v1 v2 : Nat) : State :=
  let s := (((st .copy).place 0x1C020 8 0x4000F).place 0x1C028 8 0x5000F).place 0x1C030 8 0x6000F
  let s := (s.place 0x2FFE0 32 ra).place (2 ^ 48 + 0x3FFFF0000) 32 rb
  tweak (((s.place 0x4FFFC 4 v0).place 0x50000 4 v1).place 0x60000 4 v2) fun W => W.setReg 0 0 0x2FFE0

/-- Two bitmaps, and the row pointers 0, 1 with one column. -/
def bitmaps : State := sparse (stream 0x50000 1 2) (stream 0x60000 1 2) 0 6 2
def rowsOf : State := tweak (sparse (stream 0x4FFFC 2 0) (stream 0x60000 1 0) 0 1 7) fun W => W.setCur 0 0 0 1 0

/-- The CAST of mode `m`, and the state in which the engine runs it. -/
abbrev castI (m : BitVec 2) : Instr := .cast false 4 0 m 0 1 3
def casting (s : State) (m : BitVec 2) : State := waiting { s with casts := [(0, [⟨0, true⟩])] } .castRun (castI m)

/-- A scan stops with results of which `p` holds. -/
def stopsB {α : Type} (g : Got α) (p : α → Bool) : Bool :=
  match g with
  | .ok _ _ v => p v
  | .full _ _ v => p v
  | .fault _ _ => false
def Stops {α : Type} (g : Got α) (p : α → Bool) : Prop := ∃ s n v, (g = .ok s n v ∨ g = .full s n v) ∧ p v = true

theorem stops_of {α : Type} {g : Got α} {p : α → Bool} (h : stopsB g p = true) : Stops g p := by
  cases g with
  | ok s n v => exact ⟨s, n, v, .inl rfl, h⟩
  | full s n v => exact ⟨s, n, v, .inr rfl, h⟩
  | fault s t => cases h

/-- The scans that CAST_COMMAND_STOP makes in a state. -/
def scanOf (s : State) (m : Nat) (a : State × Nat × Nat) : Got Progress :=
  let w := fun j => ((tget 0 (ix s).W.c 0).extractLsb' (32 * j) 32).toNat
  (ix s).castScan m (ix s).low 0x2FFE0 (ix s).lanes.length castFuel a.1 0
    ⟨⟨Stream.of a.2.1, w 0, w 1, none, none, none, false⟩, ⟨Stream.of a.2.2, w 2, w 3, none, none, none, false⟩, [], false⟩
def rowScanOf (s : State) (a : State × Nat × Nat) : Got Rows :=
  let w := fun j => ((tget 0 (ix s).W.c 0).extractLsb' (32 * j) 32).toNat
  (ix s).rowScan (ix s).low 0x2FFE0 (ix s).lanes.length (Stream.of a.2.1) (Stream.of a.2.2) (w 2) castFuel a.1 0 ⟨w 0, w 1, [], [], false⟩

/-- The records are read, and of what that gives the scan stops. -/
theorem records_sat {ε β α : Type} {r : Except ε β} {f : β → Got α} {p : α → Bool}
    (h : (match r with | .ok a => stopsB (f a) p | .error _ => false) = true) : ∃ a, r = .ok a ∧ Stops (f a) p := by
  cases r with
  | ok a => exact ⟨a, rfl, stops_of h⟩
  | error e => cases h

/-- The row pointers at the ends are 0 and 1, and the search from them ends. -/
def splits (a : State × Nat × Nat) (r : Except (State × Trap) (State × Nat × Nat)) : Bool :=
  match r with
  | .ok (s, 0, 1) => okB ((ix rowsOf).splitSearch 0x2FFE0 (Stream.of a.2.1) 0 1 0 33 s 0 ((Stream.of a.2.1).count - 1))
  | _ => false

theorem witness_SparseCasting :
    (let s := { bitmaps with casts := [(0, List.replicate 9 ⟨1, false⟩)] }
     readies bitmaps [([.group 4 3 1, .srcPair 0], [castI 0]), ([.srcPair 0], [.casti false 0 1 0]),
       ([.group 4 4 4], [.castrd false false 4 0, .castwr false 4 0])] ∧ readies s [([.group 4 3 1, .srcPair 0], [castI 0])] ∧
     bitmaps.castWaits 0 0 = false ∧ ((ix bitmaps).srcPair 0 (ix bitmaps).low).toNat % 2 ^ 56 = 0x2FFE0 ∧ tget [] bitmaps.casts 0 = [] ∧
     9 ≤ (tget [] s.casts 0).length ∧ (ix s).T.hold = none ∧ okB ((ix bitmaps).castRecords bitmaps 1 0x2FFE0) = true) ∧
    (let s := casting bitmaps 0
     s.waiter 0 = some (ix s, ⟨.castRun, castI 0⟩) ∧
     ∃ a, (ix s).castRecords { s with casts := tput [] s.casts 0 [] } 0 0x2FFE0 = .ok a ∧
       Stops (scanOf s 0 a) fun p => p.done && decide (p.out = [(1, 0, 0)] ∧ p.a.pos = 2)) ∧
    (let s := casting bitmaps 2
     s.waiter 0 = some (ix s, ⟨.castRun, castI 2⟩) ∧
     ∃ a, (ix s).castRecords { s with casts := tput [] s.casts 0 [] } 2 0x2FFE0 = .ok a ∧
       Stops (scanOf s 2 a) fun p => decide (p.out = [(1, 0, 0xFFFFFFFF), (2, 1, 0xFFFFFFFF)])) ∧
    (let s := casting rowsOf 3
     s.waiter 0 = some (ix s, ⟨.castRun, castI 3⟩) ∧
     ∃ a, (ix s).castRecords { s with casts := tput [] s.casts 0 [] } 3 0x2FFE0 = .ok a ∧
       Stops (rowScanOf s a) fun p => decide (p.out = [(7, 0, 0)])) ∧
    (let p : Progress := ⟨⟨Stream.of (stream 0x40000 2 0), 1, 3, some (5, 1, 2, 5), none, none, false⟩,
       ⟨Stream.of (stream 0x50000 2 1), 0, 0, some (9, 0, 1, 9), none, none, false⟩, [], false⟩
     p.a.r.enc < 2 ∧ p.b.r.enc < 2 ∧ p.a.pos < p.a.r.count ∧ p.b.pos < p.b.r.count) ∧
    (let s := tweak rowsOf fun W => W.setReg 0 2 0x20001
     readies rowsOf [([.srcPair 0], [.casti false 0 3 0])] ∧ readies s [([.regPair 0, .reg 2], [.castsplit false 0 0 2])] ∧
     ∃ a, (ix rowsOf).castRecords rowsOf 3 0x2FFE0 = .ok a ∧
       splits a ((ix rowsOf).rowEnds a.1 0x2FFE0 (Stream.of a.2.1) (Stream.of a.2.2)) = true) := by
  refine ⟨⟨readies_of ?_, readies_of ?_, ?_⟩, ⟨?_, records_sat ?_⟩, ⟨?_, records_sat ?_⟩, ⟨?_, records_sat ?_⟩, ?_,
    ⟨readies_of ?_, readies_of ?_, ok_sat ?_⟩⟩ <;> decide +kernel

/-- The path has just issued the one word before its PC, at its scene's start. -/
def issued (s : State) : State := tweak s fun W => W.modPath 0 fun P => { P with pc := 0x20004, count := 1 }

/-- A walk of stream `r` at entry `pos`, whose last index was `last`. -/
abbrev walk (r : Nat) (pos last : Nat) (bit : Option Nat) : Walk := ⟨Stream.of r, pos, last, none, bit, none, false⟩

theorem witness_UnitFaults :
    faults [(tweak (banked .matrix true []) fun W => { W with live := 7 }, .mash false 4 8 3 true 0 2 15 31 false 1, 7, 0),
      (hungOf (withG (st .copy) 0x240 0x30000), .hang false 3 2 1 0, 18, 3),
      (withG (st .copy) 0 0x30000, .hang false 63 2 1 0, 2, 0),
      (withG (st .copy) 0x41 0x30000, .hang false 63 2 1 0, 2, 0)] ∧
    faults [(withG (st .copy) 0x240 0x30001, .hang false 63 2 1 0, 10, 0),
      (withG (st .copy) 0x240 0x70000, .hang false 63 2 1 0, 14, 1),
      (withG (st .copy) 0x240 0x20000, .hang false 63 2 1 0, 18, 4),
      (st .copy, .unhang false 0, 18, 1)] ∧
    faults [(st .vector, .cue false 123 2 true 0, 18, 1),
      (withRegs hung [(2, 256)], .cue false 123 2 true 0, 18, 2)] ∧
    (let q := query 0 none
     let s := { issued hung with loads := [q] }
     let u := { hung with loads := [{ q with kind := .cueBad, lane := 1 }, q] }
     s.loads.filter (fun o => decide (o.grp = 5)) = [] ++ q :: [] ∧ q.kind = .cue ∧ q.coll = none ∧ q.failed = false ∧ q.nreg ≠ 0 ∧
     (q.addrs.headD (0, 0)).2 / 1024 = rowQ ∧ (1 : BitVec 64).getLsbD q.lane = true ∧ (s.issuerOf q).isSome = true ∧
     faultOf (.queryTransaction 5 rowQ 1) s = some (18, 5) ∧
     u.loads.filter (fun o => decide (o.grp = 5)) = [] ++ { q with kind := .cueBad, lane := 1 } :: [q] ∧
     u.issuerOf { q with kind := .cueBad, lane := 1 } = none ∧ faultOf (.queryTransaction 5 rowQ 0) u = some (18, 5)) ∧
    (let s := { issued (st .vector) with loads := [load1] }
     load1.coll = none ∧ load1.kind = .load ∧ load1.failed = false ∧ s.loadBefore load1 = false ∧ (s.issuerOf load1).isSome = true ∧
     faultOf (.loadDataReturn 5 true) s = some (23, 0) ∧ (st .vector).issuerOf load1 = none ∧ load1.nreg ≠ 0 ∧
     faultOf (.loadDataReturn 5 true) { st .vector with loads := [load1] } = some (23, 0) ∧
     faultOf (.loadDataReturn 5 true) { st .vector with loads := [{ load1 with nreg := 0 }] } = none) ∧
    (let o := { load1 with addrs := [(0x40000, 2 ^ 50)] }
     let s := { issued (st .vector) with loads := [o] }
     uncached (2 ^ 50) = false ∧ s.served o = false ∧ faultOf (.loadDataReturn 5 false) s = some (23, 0)) ∧
    (let o := { load1 with addrs := [(0x40000, 2 ^ 51)], peer := some (false, 0) }
     let s := { issued (st .vector) with loads := [o] }
     uncached (2 ^ 51) = true ∧ s.devFirst 0 1 5 = true ∧ (s.devRead (2 ^ 51) o.peer).2 = none ∧ faultOf (.loadDataReturn 5 false) s = some (23, 0)) ∧
    (let ends := (sparse (stream 0x4FFFC 2 0) (stream 0x60000 1 0) 0 1 7).place 0x1C028 8 0
     let mid := withRegs ((sparse (stream 0x4FFFC 0x4002 0) (stream 0x60000 1 0) 0 0 1).place 0x1C028 8 0) [(2, 0x20001)]
     (∀ s ∈ [ends, mid], s.castWaits (ix s).w (ix s).low = false) ∧
     faults [(sparse (stream 0x50000 1 3) (stream 0x60000 1 2) 0 6 2, .casti false 0 1 0, 21, 1),
      (ends, .casti false 0 3 0, 14, 1),
      (withRegs (sparse (stream 0x50000 1 3) (stream 0x60000 1 2) 0 6 2) [(2, 0x20001)], .castsplit false 0 0 2, 21, 1),
      (withRegs rowsOf [(2, 0x20002)], .castsplit false 0 0 2, 21, 1)] ∧
    faults [(withRegs ends [(2, 0x20001)], .castsplit false 0 0 2, 14, 1),
      (mid, .castsplit false 0 0 2, 14, 1)]) ∧
    (∀ e ∈ [(casting (sparse (stream 0x50000 1 3) (stream 0x60000 1 2) 0 6 2) 0, 21, 1),
        (casting (tweak rowsOf fun W => W.setCur 0 0 0 5 0) 3, 21, 2), (casting (sparse (stream 0x4FFFC 2 0) 0 5 3 0) 2, 22, 0)],
      tget [] e.1.casts 0 = ⟨0, true⟩ :: [] ∧ (e.1.waiter 0).isSome = true ∧
      (e.1.waiter 0).all (fun q => decide (q.2.kind ≠ .castPlace)) = true ∧ e.1.warps.map (·.1) = [0] ∧ faultOf (.castCommandStop 0) e.1 = some e.2) ∧
    (let s := sparse 0 0 5 3 0xFFFF
     let k := walk (stream 0x4FFFC 2 0) 1 5 none
     k.head = none ∧ k.r.enc = 0 ∧ k.pos ≠ 0 ∧ (∃ a, (ix s).streamRead s 0 (k.r.base + 4 * k.pos) 4 = .ok a ∧ a.2 ≤ k.last) ∧
     let k := walk (stream 0x60000 2 1) 0 5 none
     k.head = none ∧ k.r.enc = 1 ∧ ∃ a, (ix s).streamRead s 0 (k.r.base + 2 * k.pos) 2 = .ok a ∧ a.2 = 0xFFFF ∧ k.r.count < k.pos + 3) ∧
    (let k := walk (stream 0x60000 2 2) 0 0 (some (2 ^ 32))
     k.head = none ∧ k.r.enc = 2 ∧ 2 ^ 32 ≤ k.r.first + 2 ^ 32 ∧ ([] : List (Nat × Nat × Nat)).length < 1 ∧ (Stream.of (stream 0x60000 1 0)).count < 2) := by
  refine ⟨faults_of ?_, faults_of ?_, faults_of ?_, ?_, ?_, ?_, ?_, ⟨?_, faults_of ?_, faults_of ?_⟩, ?_, ⟨?_, ?_, ?_, ok_sat ?_, ?_, ?_, ok_sat ?_⟩, ?_⟩ <;> decide +kernel

/-- Operations that fill a queue. -/
def five : List BankOp := List.replicate 5 ⟨3, .rack⟩

theorem witness_MatrixInstructions :
    (let s := banked .matrix true []
     let one := withRegs s [(9, 1)]
     readies s [([.group 4 4 4, .src 8], [.mash false 4 8 3 true 0 2 15 31 false 1])] ∧
     readies one [([.src 9], [.rack true 9, .colclr false 9 true 0, .colclr false 9 false 15])] ∧ (ix s).P.lanes = (ix s).W.live ∧
     ((ix s).T.banksOn 0) = [0] ∧ ((ix one).src 9 (ix one).low).toNat = 1 ∧
     ∀ k, (k = 0 → (s.bank 0 k).ops.length < 5 ∧ s.bankClosed 0 k = false ∧ (s.bank 0 k).mash = true)) ∧
    (let i := Instr.rack false 9
     let s := withRegs (waiting (banked .matrix true []) .bankPlace i) [(9, 1)]
     Usable s (ix s) [.src 9] ∧ s.waiter 0 = some (ix s, ⟨.bankPlace, i⟩)) ∧
    (let s := withRegs (banked .matrix true five) [(9, 1)]
     readies s [([.src 9], [.rack true 9])] ∧ 5 ≤ (tget Bank.zero s.banks 0).ops.length ∧ (ix s).T.hold = none) ∧
    (let s := withRegs (banked .matrix true []) [(9, 2 ^ 8 * 15 + 2 ^ 16 * 480)]
     let t := { s with banks := [(0, { Bank.zero with ops := five })] }
     readies s [([.reg 123, .src 9], [.colrd false 123 9]), ([.reg 123], [.mstat false false 123 true 0])] ∧
     readies t [([.reg 123, .src 9], [.colrd false 123 9])] ∧ ((ix s).src 9 (ix s).low).toNat = 2 ^ 8 * 15 + 2 ^ 16 * 480 ∧
     (tget Bank.zero t.banks 0).ops ≠ [] ∧ (ix t).T.hold = none) ∧
    (let i := Instr.colrd false 123 8
     let s := waiting (banked .matrix true five) (.colrd 3) i
     s.waiter 0 = some (ix s, ⟨.colrd 3, i⟩) ∧ ∀ o ∈ (tget Bank.zero s.banks 0).ops, 3 ≤ o.id) ∧
    (let mash := fun (d : BitVec 7) (m : BitVec 16) => Instr.mash false d 8 3 true 0 2 15 31 false m
     let at9 := fun (m : Bool) (v : Word) => withRegs (banked .matrix m []) [(9, v)]
     faults [(banked .matrix true [], mash 5 1, 2, 0), (banked .matrix true [], mash 4 2, 2, 0), (banked .matrix false [], mash 4 1, 17, 0),
       (at9 true 2, .rack false 9, 2, 0), (at9 false 1, .rack false 9, 17, 0), (at9 true 2, .colclr false 9 true 0, 2, 0),
       (at9 false 1, .colclr false 9 false 3, 17, 0)] ∧
     faults [(at9 true 0x20, .colrd false 123 9, 2, 0), (at9 true 1, .colrd false 123 9, 2, 0),
       (at9 true (2 ^ 16 * 481), .colrd false 123 9, 2, 0), (banked .matrix true [], .mstat false false 123 true 1, 2, 0),
       (withG (banked .copy true []) 2 0, .bank false 1 false, 2, 0), (withG (banked .copy true []) 2 0, .mwait 1, 2, 0)]) := by
  refine ⟨⟨readies_of ?_, readies_of ?_, ?_, ?_, ?_, ?_⟩, ⟨usable_of ?_, ?_⟩, ⟨readies_of ?_, ?_⟩, ⟨readies_of ?_, readies_of ?_, ?_⟩, ?_,
    faults_of ?_, faults_of ?_⟩
  case refine_6 =>
    rintro k rfl
    decide +kernel
  all_goals decide +kernel

theorem witness_BankSwitching :
    (let s := withG (banked .copy true []) 1 0
     readyG s [1] [.bank false 1 false, .mwait 1] ∧ ((ix s).W.greg 1).toNat = 1 ∧ (ix s).T.mash = 1 ∧ (tget Bank.zero s.banks 0).ops = [] ∧
     s.copyWrites (ix s).W.team (ix s).T (ix s).core 0 = false ∧ s.storesTo 0 = false) ∧
    (let i := Instr.bank false 1 false
     let s := withG (waiting (banked .copy true []) (.bankSwitch [0]) i) 1 0
     let t := withG (waiting (banked .copy true five) (.bankSwitch [0]) i) 1 0
     s.waiter 0 = some (ix s, ⟨.bankSwitch [0], i⟩) ∧ s.storesTo 0 = false ∧ t.waiter 0 = some (ix t, ⟨.bankSwitch [0], i⟩) ∧
     (t.bank 0 0).ops ≠ []) ∧
    (let s := withG (banked .copy true five) 1 0
     readyG s [1] [.bank false 1 false, .mwait 1] ∧ (tget Bank.zero s.banks 0).ops ≠ [] ∧ (ix s).T.hold = none) ∧
    (∀ e ∈ [(true, true), (true, false), (false, true)],
      let s := { waiting (st .copy) .emptyLine (.lds false 3 8 0 2) with
        empty := if e.2 then [(0, true)] else [], banks := [(0, { Bank.zero with mash := e.1 })] }
      s.lineWaiters = [(ix s, .lds false 3 8 0 2)] ∧
      ∃ u, (ix s).scratchUse (.lds false 3 8 0 2) = some u ∧ u.1 = 4 ∧ (u.2.1.filter fun l => !(ix s).P.done.getLsbD l) = [0, 1] ∧
        (∀ l ∈ u.2.1, (ix s).T.scratchAt (u.2.2 l) u.1 = some (0, 0, 0)) ∧ (s.bankOf (0, 0, 0)).mash = e.1 ∧ s.isEmpty (0, 0, 0) = e.2) := by
  refine ⟨⟨readyG_of ?_, ?_⟩, ?_, ⟨readyG_of ?_, ?_⟩, fun e he => ?_⟩
  case refine_6 =>
    simp only [List.mem_cons, List.not_mem_nil, or_false] at he
    rcases he with rfl | rfl | rfl <;> exact ⟨by decide +kernel, _, rfl, by decide +kernel⟩
  all_goals decide +kernel

/-- A steep of one block of elements of type `e`, with their scale at 0x20300 or, for `opt` 4, formed from the block. -/
def steepOf (opt e : Nat) : Copy :=
  { copy0 with opt := opt, dir := 0, dense := 0, started := true, bank := some 0, org := [0, 0], record := BitVec.ofNat 512 (steepRec + e <<< 60) }

/-- A bank of the copy warp's team that executes a copy's steep. -/
def steeping (c : Copy) : State := { banked .copy true [⟨0, .steep 0⟩] with copies := [c] }

theorem witness_BankOperations :
    (∀ e ∈ [(0, false, 16), (0, true, 1), (3, false, 16), (15, false, 16), (3, true, 2)],
      let op := BankOpKind.mash 2 2 31 e.2.2 e.2.1 0 0
      let s := { banked .matrix true [] with banks := [(0, { Bank.zero with mash := true, cnt := e.1, ops := [⟨1, op⟩, ⟨2, .rack⟩] })] }
      (tget Bank.zero s.banks (32 * 0 + 0)).ops = ⟨1, op⟩ :: [⟨2, .rack⟩] ∧ 2 < 3 ∧ (tget Bank.zero s.banks 0).cnt = e.1) ∧
    (∀ k ∈ [BankOpKind.rack, .colclr (some 15), .colclr none], (tget Bank.zero (banked .matrix true [⟨1, k⟩]).banks (32 * 0 + 0)).ops = [⟨1, k⟩]) ∧
    (∀ e ∈ [(3, 0), (3, 4), (3, 5), (4, 6), (4, 7)], let c := steepOf e.1 e.2
      let s := steeping c
      s.copies.find? (fun k => k.id = 0) = some c ∧ s.moving c = true ∧ (s.team c.team).isSome = true ∧ c.bank = some 0 ∧ c.core = 0 ∧
      c.unit < c.units ∧ c.steep = true ∧ c.nextRead = some (.global 0x20200)) ∧
    (∃ l, (steeping (steepOf 3 0)).engXlat 0 0 0x20200 .load = .ok l ∧ (steeping (steepOf 3 0)).deadRead l.pa = false) ∧
    (∀ e ∈ [(3, 0, 33), (3, 5, 17), (4, 6, 32)], let c := { steepOf e.1 e.2.1 with got := List.replicate e.2.2 0x11 }
      c.reads.length ≤ c.got.length ∧ (c.loaded.put.map (·.place))[0]? = some (.array 0) ∧
      (c.loaded.put.map (·.place))[32]? = some (.scale 0 0)) := by
  refine ⟨?_, ?_, ?_, ok_sat ?_, ?_⟩ <;> decide +kernel

theorem noMonwait_of {W : Warp} (h : (W.paths.all fun P => match P.block with | some (.monwait ..) => false | _ => true) = true) :
    W.noMonwait := fun P hP t n d hb => by
  have := List.all_eq_true.mp h P hP
  simp [hb] at this

theorem witness_TrapsAndBreaks :
    let s := st .vector
    readies s [([.srcPair 0], [.trap 0 63, .trap 0 64])] ∧ UsableG s (ix s) [0] ∧ (ix s).W.noMonwait ∧ Starts s (ix s) (.brk 255) ∧
    Starts s (ix s) (.unassignedOpcode 0x03800000) ∧ s.prompts.length < 65536 ∧ twf none s.teams = true := by
  refine ⟨readies_of ?_, usableG_of ?_, noMonwait_of ?_, starts_of ?_, starts_of ?_, ?_⟩ <;> decide +kernel

/-- A legal record of `n` + 1 teams of 32 threads in one warp. -/
def launchRec (n : Nat) : BitVec 512 := BitVec.ofNat 512 (0x20000 + n <<< 128 + 32 <<< 160 + 1 <<< 172)

/-- A launch of one team with number 5 and key `k`, in context 0. -/
def launch1 (k : Nat) : Launch := ⟨launchRec 0, 0, 5, k, none, 0, 0⟩

theorem witness_Launching :
    (let s := (st .vector).place 0x20100 64 (launchRec 0).toNat
     readyG s [3, 2] [.launch false 3 2] ∧ (((ix s).W.greg 2).toNat % 2 ^ 56 = 0x20100 ∧ (ix s).releaseWaits s 5 = false) ∧
     ∃ a, (ix s).readRecord s (ix s).low 0x20100 64 = .ok a ∧ a.2 = (launchRec 0).toNat) ∧
    ((tget Window.zero State.reset.windows 63).busy = false ∧
      (tget Window.zero { State.reset with windows := [(127, { Window.zero with busy := true })] }.windows 127).busy = true) ∧
    (refusalReason State.reset (launchRec 3) = 0 ∧ refusalReason State.reset 1 = 2) ∧
    (let s := { st .vector with offers := [⟨.window true 63, launchRec 0, 0⟩, ⟨.device 0 62, 1, 0⟩], nextLaunch := 0xFFFFFFFF }
     s.offers[0]? = some ⟨.window true 63, launchRec 0, 0⟩ ∧ s.offers[1]? = some ⟨.device 0 62, 1, 0⟩ ∧ (s.warp 0).isSome = true) := by
  refine ⟨⟨readyG_of ?_, ?_, ok_sat ?_⟩, ?_⟩ <;> decide +kernel

/-- A team that has not started, of a gang or not, and one whose warp has ended. -/
def unstarted (g : Bool) : State :=
  (st .vector).setTeam 3 { placedTeam with started := false, gang := g, launch := 5, place := { placedTeam.place with wslots := [1, 2] } }
def ended : State := { tweak (st .vector) (fun W => { W with exited := 3 }) with launches := [launch1 0, launch1 7] }

/-- A gang of two teams with key 3, and the state in which it stands between two launches that are no gangs. -/
def gang2 : Launch := { launch1 3 with record := launchRec 1 + 1 <<< 187 }
def ganged (g : Option Gang) : State := { State.reset with launches := [launch1 1, gang2, launch1 4], gang := g }

theorem witness_TeamLifetimes :
    (State.reset.readyLaunches.find? (fun L => lrGang L.record) = none ∧
      let s := { State.reset with launches := [launch1 1], dcmap := 1 }
      s.readyLaunches = [launch1 1] ∧ lrGang (launchRec 0) = false ∧ (s.findPlace (s.teamsTaken ++ s.reservedTaken) (launch1 1)).isSome = true) ∧
    (∀ g ∈ [none, some (⟨3, [], 15⟩ : Gang), some ⟨3, [], 16⟩], let s := ganged g
      s.readyLaunches = [launch1 1] ++ gang2 :: [launch1 4] ∧ gang2 ∉ [launch1 1] ∧ s.readyLaunches.find? (fun L => lrGang L.record) = some gang2 ∧
      s.gang = g) ∧
    (let s := unstarted false
     ∃ T, s.team 3 = some T ∧ T.started = false ∧ T.gang = false ∧ s.struck T.ctx T.launch = false) ∧
    (let s := unstarted true
     (∀ i ∈ [0, 3], ∀ j ∈ [0, 3], i ≠ j → ∀ U V, s.team i = some U → s.team j = some V → ∀ w ∈ U.slots, w ∉ V.slots) ∧
     ∃ T, s.team 3 = some T ∧ T.gang = true ∧ twf none s.teams = true) ∧
    (ended.team 0 = some placedTeam ∧ placedTeam.started = true ∧ ended.struck placedTeam.ctx placedTeam.launch = false ∧
      (placedTeam.slots.all fun w => match ended.warp w with | some W => decide (W.live &&& ~~~W.exited = 0) | none => true) = true ∧
      ended.copies = [] ∧ ended.stores = [] ∧ placedTeam.place.banks0 = [] ∧ placedTeam.place.banks1 = [] ∧
      ended.launches.find? (fun L => L.key = placedTeam.launch) = some (launch1 0) ∧ 0 + 1 = lrTeams (launch1 0).record) ∧
    (let s := { ended with launches := [{ launch1 0 with record := launchRec 1 }] }
     ∃ L, s.launches.find? (fun L => L.key = placedTeam.launch) = some L ∧ L.retired + 1 ≠ lrTeams L.record) ∧
    (let L := { launch1 0 with record := launchRec 0 + BitVec.ofNat 512 (0x20100 <<< 320) }
     lrCompl L.record = 0x20100 ∧ ∃ pas, { ended with launches := [L] }.moduleStore 0 0x20100 = .ok pas ∧ pas ≠ []) := by
  refine ⟨?_, ?_, ⟨_, rfl, ?_⟩, ⟨?_, _, rfl, ?_⟩, ?_, ⟨_, rfl, ?_⟩, ⟨?_, ok_sat ?_⟩⟩
  case refine_4 =>
    intro i hi j hj hij U V hU hV
    simp only [List.mem_cons, List.not_mem_nil, or_false] at hi hj
    rcases hi with rfl | rfl <;> rcases hj with rfl | rfl
    · exact absurd rfl hij
    · cases hU; cases hV; decide
    · cases hU; cases hV; decide
    · exact absurd rfl hij
  all_goals decide +kernel

/-- A state whose team is held, complete or not, with one record; its path waits in MWAIT for the operation `n`. -/
def held (c : Bool) (n : Nat) : State :=
  let s := (banked .vector true []).modTeam 0 fun T => { T with hold := some { Hold.empty with complete := c, recs := if c then [] else [EvRec.zero] } }
  let s := { s with banks := [(0, { Bank.zero with mash := true, ops := if c then [⟨3, .rack⟩] else [] })] }
  tweak s fun W => { W with running := none, paths := W.paths.map fun P =>
    if c then { P with block := some (.mwait 0 1 [n] none), scene := none } else { P with stop := some ⟨11, 0, 1, false, none, false⟩, skid := 1 } }

/-- The hold of a state is complete, its warp did not deadlock, and no path of it stopped where OP 2 may not go past. -/
def resumable (s : State) : Bool :=
  (s.team 0).any fun T => (T.hold.any (·.complete)) && !s.struck T.ctx T.launch && decide (T.slots[0]? = some 0) &&
    T.slots.all fun w => (s.warp w).all fun W => W.dead.isNone && W.paths.all fun P => P.stop.all fun c => decide (c.code ≠ 13) && !c.fetch

theorem witness_HoldsAndResumption :
    (∃ T h, (held false 0).team 0 = some T ∧ T.hold = some h ∧ h.complete = false ∧ h.resume = false ∧ (∀ r ∈ h.recs, r.ctx = 0) ∧
      (held false 0).holdDone T = true) ∧
    (let s := { State.reset with ctxs := [(63, { Ctx.zero with records := [EvRec.zero] })] }
     let c := tget Ctx.zero s.ctxs 63
     c.records = EvRec.zero :: [] ∧ (c.pprod - c.pcons).toNat ≠ 2 ^ c.log2n.toNat ∧ ((16 : Word) - c.pcons).toNat = 2 ^ c.log2n.toNat) ∧
    ((st .vector).teamAt 0 0 = some 0 ∧ (st .vector).team 0 = some placedTeam ∧ placedTeam.hold = none ∧
      (st .vector).struck placedTeam.ctx placedTeam.launch = false ∧
      ((tweak (st .vector) fun W => { W with running := none }).warp 0).map (·.running) = some none) ∧
    ((∀ n ∈ [3, 9], (held true n).teamAt 0 0 = some 0 ∧ resumable (held true n) = true) ∧
      (∃ e ∈ (held true 3).banks, ∃ o ∈ e.2.ops, o.id ∈ [3]) ∧ ¬ ∃ e ∈ (held true 9).banks, ∃ o ∈ e.2.ops, o.id ∈ [9]) ∧
    (let s := (held false 0).modTeam 0 fun T => { T with hold := some { Hold.empty with complete := true } }
     s.teamAt 0 0 = some 0 ∧ resumable s = true) := by
  refine ⟨⟨_, _, rfl, rfl, ?_⟩, ?_, ?_, ?_, ?_⟩ <;> decide +kernel

/-- A state with context 0 in the state `f` makes of that of `st`. -/
def inCtx (f : Ctx → Ctx) : State := { st .vector with ctxs := tput Ctx.zero (st .vector).ctxs 0 (f (tget Ctx.zero (st .vector).ctxs 0)) }

theorem witness_ContextControl :
    (let s := { st .vector with prompts := [⟨0, 7, 0⟩] }
     s.prompts.find? (fun p => decide (p.ctx = 0 ∧ p.tag = 7 % 65536)) = some ⟨0, 7, 0⟩ ∧ (s.warp 0).isSome = true ∧
     s.prompts.find? (fun p => decide (p.ctx = 0 ∧ p.tag = 8 % 65536)) = none) ∧
    (let C := tget Ctx.zero (st .vector).ctxs 0
     let v : DWord := 2 ^ 12 * 5 + 16
     C.pprod = C.pcons ∧ 4 ≤ v.toNat % 32 ∧ v.toNat % 32 ≤ 16 ∧ cachedRegion (regionOf (v.toNat / 2 ^ 12 % 2 ^ 40 * 4096)) = true) ∧
    (let s := inCtx fun C => { C with pprod := 3, pcons := 0xFFFFFFFF }
     let C := tget Ctx.zero s.ctxs 0
     ((2 : Word) - C.pcons).toNat ≤ (C.pprod - C.pcons).toNat ∧ (C.pprod - C.pcons).toNat < ((4 : Word) - C.pcons).toNat) ∧
    ((st .vector).resident 0 = true ∧ (st .vector).resident 1 = false ∧
      let s := { st .vector with gang := some ⟨7, [], 0⟩, launches := [launch1 7] }
      ∃ g L, s.gang = some g ∧ L ∈ s.launches ∧ L.key = g.launch ∧ L.ctx = 0) ∧
    ((tget Ctx.zero (st .vector).ctxs 0).asserted = false ∧
      let s := (inCtx fun C => { C with asserted := true }).setTeam 0 { placedTeam with hold := some { Hold.empty with byAssert := true } }
      (tget Ctx.zero s.ctxs 0).asserted = true ∧ twf none s.teams = true ∧
      ∃ T h, s.team 0 = some T ∧ T.hold = some h ∧ h.complete = false ∧ h.byAssert = true) := by
  refine ⟨?_, ?_, ?_, ⟨?_, ?_, _, _, rfl, List.mem_cons_self, rfl, rfl⟩, ?_, ?_, ?_, _, _, rfl, rfl, rfl, rfl⟩ <;> decide +kernel

theorem witness_Strikes :
    (let s := { inCtx (fun C => { C with draining := true, timer := some 0, lsnum := 5 }) with launches := [launch1 0, launch1 7] }
     let C := tget Ctx.zero s.ctxs 0
     (twf none s.teams = true ∧ twf [] s.casts = true ∧ C.busy = false ∧ C.timer = some 0 ∧ C.draining = true ∧ 0 ≤ tget 0 s.clock 0) ∧
     (launch1 0 ∈ s.launches ∧ (launch1 0).ctx = 0 ∧ (∀ M ∈ s.launches, M.key = 0 → M = launch1 0) ∧ s.struck 0 0 = false) ∧
     s.launches.find? (fun M => decide (M.ctx = 0 ∧ M.lnum = C.lsnum.toNat)) = some (launch1 0) ∧
     s.teamAt 0 0 = some 0 ∧ s.team 0 = some placedTeam ∧ placedTeam.ctx = 0 ∧ placedTeam.launch = 0) ∧
    (tget Ctx.zero (inCtx fun C => { C with busy := true }).ctxs 0).busy = true ∧
    ∀ k ∈ [(⟨0, none, 0, 1⟩ : Strike), ⟨0, some 1, 5, 3⟩],
      let s := { st .vector with strikes := [k] }
      s.strikes[0]? = some k ∧ s.strikeReady k = true ∧ k.ctx = 0 := by
  refine ⟨?_, ?_, ?_⟩ <;> decide +kernel

theorem witness_TranslationControl :
    ((tget Ctx.zero (st .vector).ctxs 0).ibusy = false ∧
      let C := tget Ctx.zero (inCtx fun C => { C with ibusy := true, iscope := 1, iva := 2 }).ctxs 0
      C.ibusy = true ∧ C.iscope ≠ 3) ∧
    ((st .vector).resident 0 = true ∧ (st .vector).resident 1 = false ∧ (∀ L ∈ (st .vector).launches, L.ctx ≠ 1)) ∧
    (let v : DWord := 32
     State.reset.everEn = false ∧ v.toNat % 2 ^ 7 ≤ 96 ∧ ∀ h, h < 8 → (tget 0 State.reset.slabs h).toNat * 2 ^ 27 ≤ (96 - v.toNat % 2 ^ 7) * 2 ^ 30) ∧
    (let s := { State.reset with ipool := 92 }
     s.everEn = false ∧ (32 : DWord).toNat % 2 ^ 6 ≤ 32 ∧ (32 : DWord).toNat % 2 ^ 6 * 2 ^ 27 ≤ (96 - s.ipool.toNat) * 2 ^ 30) ∧
    { State.reset with everEn := true }.everEn ≠ false := by
  refine ⟨?_, ?_, ?_, ?_, ?_⟩ <;> decide +kernel

/-- A state with both links up, in which semaphore 5 is the second port's. -/
def linked : State := { st .vector with ports := [(0, ⟨true, false, 16⟩), (1, ⟨true, true, 8⟩)], sems := [(5, 2)] }

theorem witness_PlatformRegisters :
    ((tget Port.zero linked.ports 0).up = true ∧ tget 0 linked.sems 5 = 2 ∧ (1 : BitVec 2) ≠ 2 ∧ (tget Port.zero State.reset.ports 0).up = false) ∧
    (let v : DWord := 1 + 2 ^ 2 * 48 + 2 ^ 47
     let size := v.toNat / 2 ^ 2 % 2 ^ 6
     16 ≤ size ∧ size ≤ 48 ∧ v.toNat / 2 ^ 16 % 2 ^ (size - 16) ≠ 0) ∧
    (let v : DWord := 1 + 2 ^ 2 * 48 + 2 ^ 48
     v.toNat / 2 ^ 2 % 2 ^ 6 = 48 ∧ v.toNat / 2 ^ 16 % 2 ^ (48 - 16) = 0) ∧
    (State.reset.attBusy = false ∧ { State.reset with attBusy := true }.attBusy = true) ∧
    (let s := { linked with ctxs := [(63, { Ctx.zero with pprod := 2 })] }
     ((1 : DWord).setWidth 32 - (tget Ctx.zero s.ctxs 63).pcons).toNat ≤ ((tget Ctx.zero s.ctxs 63).pprod - (tget Ctx.zero s.ctxs 63).pcons).toNat) := by
  refine ⟨?_, ?_, ?_, ?_, ?_⟩ <;> decide +kernel

theorem witness_HostsAndLinks :
    ((tget Port.zero linked.ports (BitVec.ofBool true).toNat).up = true ∧ (tget Port.zero State.reset.ports 0).up = false) ∧
    (768 * 2 ^ 30 < (768 * 2 ^ 30 - 8) + 9 ∧ 8 + 8 ≤ 768 * 2 ^ 30 ∧ 8 % 8 = 0) ∧
    (∀ pa ∈ (List.range 8).map (fun i => linked.hdmPa (8 + i)), linked.hitsHung pa 1 = false) ∧
    (∃ pa ∈ (List.range 2).map (fun i => hung.hdmPa (640 * 2 ^ 30 + 0x3FFFEFFFF + i)), hung.hitsHung pa 1 = true) ∧
    (hostPort (regionOf (128 * (2 ^ 41 * 4))) = some 0 ∧ hostPort (regionOf (128 * (2 ^ 41 * 6))) = some 1 ∧ twf 0 linked.sems = true ∧
      (16 : BitVec 5) ∈ [(4 : BitVec 5), 8, 16]) ∧
    (let s := { linked with loads := [load1, { load1 with addrs := [(0x40000, 2 ^ 50)] }, { load1 with peer := some (false, 7) },
       { load1 with kind := .value }, { load1 with failed := true }] }
     ((∀ a ∈ load1.addrs, hostPort (regionOf (128 * (a.2 / 128))) ≠ some 0) ∧ load1.peer = none) ∧
     (∃ o ∈ s.loads, o.kind = .load ∧ o.failed = false ∧ ∃ a ∈ o.addrs, hostPort (regionOf (128 * (a.2 / 128))) = some 0) ∧
     (∃ o ∈ s.loads, o.kind = .load ∧ o.failed = false ∧ o.peer = some (false, 7)) ∧
     (∃ o ∈ s.loads, o.kind ≠ .load) ∧ ∃ o ∈ s.loads, o.failed = true) ∧
    ((st .copy).ipool ≠ 0x60 ∧ State.reset.ipool = 0x60) ∧
    (State.reset.armed = none ∧ { State.reset with armed := some 5 }.armed = some 5 ∧ 0 < coreCount State.reset.dcmap ∧
      0 < coreCount (State.reset.dcmap ||| 2) ∧ physCore State.reset.dcmap 1 = 1) := by
  refine ⟨?_, ?_, ?_, ?_, ?_, ?_, ?_, ?_⟩ <;> decide +kernel

/-- A state in which two paths of a wing are ready, one of them with a full counter. -/
def choosing : State :=
  let s := tweak (st .vector) fun W => { W with running := none, paths := [Path.fresh 3 0x20000] }
  (s.setWarp 1 { warp .vector with running := none, paths := [{ Path.fresh 3 0x20000 with age := 16, full := 1 }] }).setTeam 0
    { placedTeam with place := { placedTeam.place with wslots := [0, 1] } }

/-- A state whose lane 0 waits in MONWAIT until cycle 0. -/
def timing : State := tweak (st .copy) fun W => { W with
  running := none, mon := [(0, some ⟨0x20100, 4, 0, false⟩)]
  paths := W.paths.map fun P => { P with scene := none, block := some (.monwait (some 0) false 3) } }

theorem witness_ModuleEvents :
    (0 < coreCount State.reset.dcmap ∧ State.reset.pick 0 3 = none) ∧
    (∃ c W T, choosing.pick 0 0 = some c ∧ choosing.warp c.w = some W ∧ choosing.team W.team = some T ∧ W.path (lowest c.P.lanes) = some c.P ∧
      c.w = 1 ∧ (choosing.readyPaths 0 0).length = 2 ∧ (∀ o ∈ choosing.readyPaths 0 0, partOf o.w o.width &&& choosing.heldPart 0 0 = 0) ∧
      ∀ e ∈ choosing.warps, ∀ U, e.2 = some U → (U.paths.map fun P => lowest P.lanes).Nodup) ∧
    (let s := tweak choosing fun W => { W with running := some 0 }
     (∃ f, s.readyPaths 0 0 = [f] ∧ f.P.age = 16 ∧ 32 ≤ f.width ∧ partOf f.w f.width &&& s.heldPart 0 0 ≠ 0) ∧ s.pick 0 0 = none) ∧
    (let s := tweak (st .copy) fun W => { W with paths := W.paths.map fun P => { P with block := some (.yield 0) } }
     (s.warp 0).isSome = true) ∧
    (∃ W P, timing.warp 0 = some W ∧ P ∈ W.paths ∧ lowest P.lanes = 0 ∧ P.block = some (.monwait (some 0) false 3) ∧ W.paths = [P] ∧
      W.mon = [(0, some ⟨0x20100, 4, 0, false⟩)] ∧ 0 ≤ timing.clockOf (0 / 48)) ∧
    (let s := tweak (st .copy) fun W => { W with mon := [(63, some ⟨0x20100, 4, 0, false⟩)] }
     ∃ W m, s.warp 0 = some W ∧ tget none W.mon 63 = some m ∧ W.noMonwait) ∧
    (st .copy).issuing = some (ix (st .copy)) ∧ (12000 : BitVec 16).toNat ≤ 12000 := by
  refine ⟨?_, ⟨_, _, _, rfl, rfl, rfl, rfl, rfl, ?_⟩, ⟨⟨_, rfl, ?_⟩, ?_⟩, ?_, ⟨_, _, rfl, List.mem_cons_self, ?_, rfl, rfl, rfl, Nat.zero_le _⟩,
    ⟨_, _, rfl, rfl, noMonwait_of ?_⟩, ?_⟩ <;> decide +kernel

/-- The fetch of a word gives one for which `p` holds. -/
theorem fetch_sat {x : Ix} {s : State} {va : Nat} {p : Nat → Bool}
    (h : (match fetchWord x s va with | .ok a => p a.2 | .error _ => false) = true) : ∃ u w, fetchWord x s va = .ok (u, w) ∧ p w = true := by
  cases hf : fetchWord x s va with
  | ok a => exact ⟨a.1, a.2, rfl, by simpa [hf] using h⟩
  | error e => simp [hf] at h

/-- A state whose next turn is warp 0's, with a word at the end of its page and one at the start of the next. -/
def fetching (w0 w1 : Nat) : State :=
  let s := ((st .copy).place 0x2FFFC 4 w0).place (2 ^ 48 + 0x3FFFF0000) 4 w1
  { tweak s (fun W => W.modPath 0 fun P => { P with pc := 0x2FFFC }) with agenda := [.issue 0] }

/-- The state in which it fetches. -/
abbrev fetchState (w0 w1 : Nat) : State := { (fetching w0 w1).begin with cur := 0 }

/-- The second word of an FFMA with its form prefix. -/
def secondWord (w0 w1 : Nat) : Bool :=
  let s := fetchState w0 w1
  match fetchWord (ix s) s 0x2FFFC with
  | .ok a => decide (a.2 = w0) && needsSecond a.2 && (match fetchWord (ix s) a.1 0x30000 with | .ok b => decide (b.2 = w1) | .error _ => false)
  | .error _ => false

theorem witness_StepRunsTheDecodedInstruction :
    (let s := fetching 0x50E00000 0
     (s.turn = .issue 0 ∧ (fetchState 0x50E00000 0).issuing = some (ix (fetchState 0x50E00000 0)) ∧
       (ix (fetchState 0x50E00000 0)).P.wait = none ∧ (ix (fetchState 0x50E00000 0)).P.pc.toNat = 0x2FFFC ∧ needsSecond 0x50E00000 = false) ∧
     ∃ u w, fetchWord (ix (fetchState 0x50E00000 0)) (fetchState 0x50E00000 0) 0x2FFFC = .ok (u, w) ∧ decide (w = 0x50E00000) = true) ∧
    (secondWord 0x1FE19480 0x08614103 = true ∧ secondWord 0x1FE00000 0x50E00000 = true ∧ (decode 0x1FE00000 0x50E00000).toOption = none) ∧
    (let s := fetching 0 0
     let x := ix s
     fetchWord x s 0x70000 = .error 1 ∧ canonical 0x2FFFC = true ∧
     (match s.translate x.core x.T.ctx 0x2FFFC .fetch with | .ok _ => true | .error _ => false) = true) ∧
    (let s := { State.reset with agenda := [.event .placementPass] }
     s.turn = .event .placementPass ∧ Instr.placementPass.isWord = false ∧ Instr.placementPass.wf = true) ∧
    (∀ k ∈ [Turn.evict 15 7, .dropDir 7, .hubEvict 7], { State.reset with agenda := [k] }.turn = k) := by
  refine ⟨⟨?_, fetch_sat ?_⟩, ?_, ?_, ?_, ?_⟩ <;> decide +kernel

theorem reset_inv : Inv State.reset := ⟨rfl, fun _ _ _ _ => Nat.zero_le _, rfl, rfl, rfl⟩

/-- A step leads to a next state. -/
def nextB (s : State) : Bool := match step s with | .next _ => true | _ => false

theorem next_of {s : State} (h : nextB s = true) : ∃ t, step s = .next t := by
  unfold nextB at h
  cases hs : step s with
  | next t => exact ⟨t, rfl⟩
  | fault f => simp [hs] at h
  | refused r => simp [hs] at h

theorem witness_StepKeepsInvariant :
    Inv State.reset ∧ (∃ t, step State.reset = .next t) ∧ ∃ t, step (fetching 0x50E00000 0) = .next t :=
  ⟨reset_inv, next_of (by decide +kernel), next_of (by decide +kernel)⟩

theorem witness_OnlyResetChangesTheModule :
    let s := { fetching 0x50E00000 0 with everEn := true }
    s.turn ≠ .event .moduleReset ∧ s.everEn = true ∧ (∃ t, step s = .next t) ∧ ∀ cs, s.turn ≠ .elapse cs := by
  refine ⟨by decide +kernel, rfl, next_of (by decide +kernel), fun cs h => ?_⟩
  have : ({ fetching 0x50E00000 0 with everEn := true } : State).turn = .issue 0 := by decide +kernel
  cases this.symm.trans h

theorem witness_IllegalOperands :
    faults [(st .vector, .iadd false false none 2 125 124, 2, 0),
      (st .vector, .not false false none 2 125, 2, 0),
      (st .vector, .imad false false pc 2 2 125, 2, 0),
      (st .vector, .add64 false false none 3 0 0, 2, 0),
      (st .vector, .lea false false none 3 0 2, 2, 0),
      (st .vector, .ffma false false pc 2 2 125, 2, 0)] ∧
    faults [(st .vector, .hadd2 false false none 2 125 2, 2, 0),
      (st .vector, .sqrt false false none 2 125, 2, 0),
      (st .vector, .shfl false false 2 125 2, 2, 0),
      (st .vector, .brz 125 0, 2, 0),
      (st .vector, .brx 1, 2, 0),
      (st .vector, .ldg false 2 1 0 2, 2, 0)] ∧
    faults [(st .vector, .trap 1 64, 2, 0),
      (st .vector, .lds false 2 125 0 3, 2, 0),
      (st .vector, .iset false none false 5 0 2 2, 2, 0),
      (st .vector, .isetz false none false 5 0 2 2, 2, 0),
      (st .vector, .fset false none 0 0 2 2, 2, 0)] ∧
    (let s := { st .vector with loads := [{ load1 with dest := 2, nreg := 1 }] }
     (∀ u ∈ [Use.reg 2, .src 2, .src 2], u.ok (ix s) = true) ∧ startsB s (.iadd false false none 2 2 2) = true ∧
     ∃ u ∈ [Use.reg 2, .src 2, .src 2], u.busy (ix s) s (ix s).lanes = true) := by
  refine ⟨faults_of ?_, faults_of ?_, faults_of ?_, ?_⟩ <;> decide +kernel

theorem witness_AccessAndTargetFaults :
    (∀ p ∈ [((0x20101 : Word), (0x20104 : Word)), (0x20100, 0x20102), (0x1000000, 4), (4, 0xFFFFFC), (0, 0x400)],
      readies (offsets p.1 p.2) [([.reg 3, .src 0, .srcPair 0], [.ldg false 3 0 0 2, .stg false 3 0 0 2, .ldp false 3 0 0 2, .stp false 3 0 0 2,
        .lds false 3 0 0 2, .sts false 3 0 0 2])]) ∧
    (let s := tweak (offsets 0 0) fun W => W.setReg 0 1 (2 ^ 19)
     readies s [([.srcPair 0], [.brx 0, .callx 0])] ∧ ((ix s).srcPair 0 0).toNat = 2 ^ 51 ∧ ¬ ((ix s).srcPair 0 0).toNat < 2 ^ 51) ∧
    (let s := tweak (withG (st .copy) 0x20102 0) fun W => W.modPath 0 fun P => { P with pc := 2 ^ 51 - 4 }
     faults [(s, .br 1, 3, 0), (s, .call 1, 3, 0), (s, .brm 7 1, 3, 0), (s, .brz 2 1, 3, 0), (s, .brnz 2 1, 3, 0), (s, .jmp 1, 3, 0),
       (s, .jz 1 1, 3, 0), (s, .jnz 1 1, 3, 0), (s, .gcall 1, 3, 0), (s, .gcallRegister 1, 3, 0)]) ∧
    ((∀ k ∈ (ix (offsets 0x1000000 4)).lanes, ((ix (offsets 0x1000000 4)).src 0 k).toNat % 4 = 0) ∧
      2 ^ 24 < 0x1000000 + 4 ∧ 1024 * (ix (offsets 0 0x400)).W.phw < 0x400 + 4 ∧ (ix (offsets 0x20000 4)).T.scratchAt 0x20000 4 = none ∧
      (ix (offsets 0x20000 4)).P.done = 0) := by
  refine ⟨fun p hp => ?_, ⟨readies_of ?_, ?_⟩, faults_of ?_, ?_⟩
  · simp only [List.mem_cons, List.not_mem_nil, or_false] at hp
    rcases hp with rfl | rfl | rfl | rfl | rfl <;> exact readies_of (by decide +kernel)
  all_goals decide +kernel

theorem witness_RoleFault :
    let s := st .vector
    let i := Instr.copy false 0 0 12 0 2 false 0 0 0 0
    s.issuing = some (ix s) ∧ i.role? = some .copy ∧ (ix s).W.role ≠ .copy ∧ i.wf = true ∧ overlong (ix s) i = false ∧
    (Instr.copy false 0 0 12 7 3 false 0 0 0 0).wf = false := by
  decide +kernel

theorem witness_Semaphores : tget 0 linked.sems 5 = 2 ∧ tget 0 linked.sems 31 = 0 ∧ (31 : Nat) < 32 ∧ (3 : BitVec 2) ≠ 0 ∧
    regionOf (2 * 2 ^ 48 + 0x40F8) = 2 ∧ (2 * 2 ^ 48 + 0x40F8) % 2 ^ 48 = 0x4000 + 8 * 31 := by decide +kernel

theorem witness_Decoding :
    (∃ i : Instr, i.isWord = true ∧ i.wf = true ∧ (encode i).length = 2) ∧ isPfxWord 0x03800000 = false ∧ wordAssigned 0x03800000 = false ∧
    wordAssigned 0x50E00000 = true := by
  refine ⟨⟨.ffma false false (some ⟨6, 2, true, 1, false⟩) 5 2 3, ?_⟩, ?_⟩ <;> decide +kernel

/-! ## Decoding: for every row of the opcode table that has words, a word put together from the row's fixed bits and fields
(02 R63, R64; spec/opcode_table.json), and the words that the spec writes out -/

/-- Each pair of words decodes to its instruction, of its number of words. -/
def decodesTo (l : List (Nat × Nat × Nat × Instr)) : Bool :=
  l.all fun e => decide ((decode e.1 e.2.1).toOption = some (e.2.2.2, e.2.2.1)) && decide (encode e.2.2.2 = [e.1, e.2.1].take e.2.2.1)

theorem test_decode_integer : decodesTo [
    (0x400CEA07, 0, 1, .iadd true false none 51 84 7),
    (0x002BE588, 0, 1, .isub false false none 47 75 8),
    (0x00431C36, 0, 1, .imul false false none 12 56 54),
    (0x006323B7, 0, 1, .imulhs false false none 12 71 55),
    (0x009E8ED1, 0, 1, .imulhz false false none 122 29 81),
    (0x20A1CE86, 0, 1, .imad false true none 7 29 6),
    (0x20CD89C6, 0, 1, .imadw false true none 54 19 70),
    (0x20F234D8, 0, 1, .imin false true none 72 105 88),
    (0x0112E552, 0, 1, .imax false false none 75 74 82),
    (0x212363DC, 0, 1, .iminz false true none 13 71 92),
    (0x01540DC0, 0, 1, .imaxz false false none 80 27 64),
    (0x616F2580, 0, 1, .iabs true true none 60 75),
    (0x6189D000, 0, 1, .ineg true true none 39 32),
    (0x01A2E527, 0, 1, .add64 false false none 11 74 39),
    (0x61D79D25, 0, 1, .sub64 true true none 94 58 37),
    (0x01F09B16, 0, 1, .lea false false none 66 54 22),
    (0x421E1FB6, 0, 1, .iaddi true false none 120 63 54),
    (0x0238A44A, 0, 1, .and false false none 98 72 74),
    (0x625656CD, 0, 1, .or true true none 89 45 77),
    (0x6262760C, 0, 1, .xor true true none 9 108 12),
    (0x6296AB09, 0, 1, .andn true true none 90 86 9),
    (0x22B4E500, 0, 1, .not false true none 83 74),
    (0x62D71972, 0, 1, .andi true true none 92 50 114),
    (0x42FE5E2E, 0, 1, .ori true false none 121 60 46),
    (0x0310041C, 0, 1, .xori false false none 64 8 28),
    (0x4337D001, 0, 1, .mov true false none 95 32 true),
    (0x6342DABC, 0, 1, .movk true true 11 6844),
    (0x0341E000, 0x000186A0, 2, .movkLiteral false false 7 100000),
    (0x236D0009, 0, 1, .movs false true 52 9)] = true := by decide +kernel

theorem test_decode_shifts_and_compares : decodesTo [
    (0x441A5C6F, 0, 1, .shl true false none 105 56 111),
    (0x642BAC72, 0, 1, .shr true true none 46 88 114),
    (0x44450597, 0, 1, .sar true false none 20 11 23),
    (0x04754F02, 0, 1, .rol false false none 85 30 2),
    (0x44889281, 0, 1, .shli true false none 34 37 1),
    (0x24B15814, 0, 1, .shri false true none 69 48 20),
    (0x44D67711, 0, 1, .sari true false none 89 110 17),
    (0x24FD3864, 0, 1, .bfx false true none 116 112 100),
    (0x650D198E, 0, 1, .bfxs true true none 52 51 14),
    (0x65220C89, 0, 1, .bfi true true none 8 25 9),
    (0x25454780, 0, 1, .popc false true none 21 15),
    (0x45638080, 0, 1, .clz true false none 14 1),
    (0x059E9780, 0, 1, .brev false false none 122 47),
    (0x060BCDCF, 0, 1, .iset false none false 5 7 27 79),
    (0x462990FB, 0, 1, .isetz true none false 4 6 33 123),
    (0x465B57BD, 0, 1, .fset true none 13 5 47 61),
    (0x1FE02800, 0x2669550A, 2, .sel false true 5 37 42 10),
    (0x069B5F84, 0, 1, .fclass false false none 109 63 4)] = true := by decide +kernel

theorem test_decode_floating : decodesTo [
    (0x680F940B, 0, 1, .fadd true true none 62 40 11),
    (0x0838165F, 0, 1, .fsub false false none 96 44 95),
    (0x685AEC95, 0, 1, .fmul true true none 107 89 21),
    (0x087EBD44, 0, 1, .ffma false false none 122 122 68),
    (0x48966376, 0, 1, .fmin true false none 89 70 118),
    (0x28B4F78C, 0, 1, .fmax false true none 83 111 12),
    (0x68DD4B00, 0, 1, .fabs true true none 117 22),
    (0x48F16300, 0, 1, .fneg true false none 69 70),
    (0x4913F400, 0, 1, .frnd true false none 79 104),
    (0x093A5A5F, 0, 1, .fscl false false none 105 52 95),
    (0x0950E000, 0, 1, .fexp false false none 67 64)] = true := by decide +kernel

theorem test_decode_packed : decodesTo [
    (0x4A013324, 0, 1, .hadd2 true false none 4 102 36),
    (0x6A266CCE, 0, 1, .hmul2 true true none 25 89 78),
    (0x6A5A3C5D, 0, 1, .hfma2 true true none 104 120 93),
    (0x6A62CE8E, 0, 1, .hmin2 true true none 11 29 14),
    (0x2A86961B, 0, 1, .hmax2 false true none 26 44 27),
    (0x4AAFBAD4, 0, 1, .hdot2 true false none 62 117 84),
    (0x4ADAEA90, 0, 1, .badd2 true false none 107 85 16),
    (0x4AEFB917, 0, 1, .bmul2 true false none 62 114 23),
    (0x6B0333FA, 0, 1, .bfma2 true true none 12 103 122),
    (0x6B2D307A, 0, 1, .bmin2 true true none 52 96 122),
    (0x0B458884, 0, 1, .bmax2 false false none 22 17 4),
    (0x2B7A2A13, 0, 1, .bdot2 false true none 104 84 19)] = true := by decide +kernel

theorem test_decode_special_and_conversion : decodesTo [
    (0x6C052380, 0, 1, .rcp true true none 20 71),
    (0x0C20B380, 0, 1, .rsq false false none 2 103),
    (0x0C4E3800, 0, 1, .sqrt false false none 56 112),
    (0x0C611080, 0, 1, .exp2 false false none 4 33),
    (0x2C904F80, 0, 1, .log2 false true none 65 31),
    (0x6CB19B00, 0, 1, .sin true true none 70 54),
    (0x0CDD6F80, 0, 1, .cos false false none 117 95),
    (0x6CF56580, 0, 1, .tanh true true none 85 75),
    (0x4D114A2A, 0, 1, .cvt true false none 69 20 false true 10),
    (0x2D390C5A, 0, 1, .cvtr false true none 100 24 5 true 2),
    (0x0D45C002, 0, 1, .rsdrd false false 23 2),
    (0x4D602806, 0, 1, .rsdwr true 80 6)] = true := by decide +kernel

theorem test_decode_microscaled : decodesTo [
    (0x0E0AAC58, 0, 1, .mxsc false false none 42 88 2 3),
    (0x4E3CA42B, 0, 1, .mxq true false none 114 72 1 1 3),
    (0x0E49034D, 0, 1, .mxqr false false none 36 6 2 1 5),
    (0x4E78B9CE, 0, 1, .mxdq true false none 98 115 2 1 6),
    (0x6E93E0CE, 0, 1, .smxacc true true none 79 65 78),
    (0x2EAEA145, 0, 1, .smxfin false true none 58 66 69)] = true := by decide +kernel

theorem test_decode_lane_control : decodesTo [
    (0x5019D5EA, 0, 1, .br 1693162),
    (0x502FA080, 0, 1, .brz 62 8320),
    (0x505E4FDA, 0, 1, .brnz 121 4058),
    (0x50602D00, 0, 1, .brx 90),
    (0x5090BE23, 0, 1, .call 1097251),
    (0x50A03880, 0, 1, .callx 113),
    (0x50C00000, 0, 1, .ret),
    (0x50E00000, 0, 1, .exit),
    (0x51014002, 0, 1, .enrol true 5 2),
    (0x5121C000, 0, 1, .rejoin 7),
    (0x51408004, 0, 1, .strike true 2 4),
    (0x5160591D, 0, 1, .brm 1 6429)] = true := by decide +kernel

theorem test_decode_cross_lane : decodesTo [
    (0x7202AB20, 0, 1, .vote true true 10 86 1),
    (0x52272B27, 0, 1, .shfl true false 28 86 39),
    (0x125E6E28, 0, 1, .redux false false 121 92 2 true),
    (0x52687964, 0, 1, .scan true false 33 114 6 false true),
    (0x32877040, 0, 1, .matchKeys false true 29 96 2),
    (0x32BC9F95, 0, 1, .compact false true 114 63 21),
    (0x12C2EDE1, 0, 1, .rdlane false 11 91 true 33),
    (0x72ED8681, 0, 1, .bcast true true 54 13 true)] = true := by decide +kernel

theorem test_decode_loads : decodesTo [
    (0x54032EB1, 0, 1, .ldg true 12 93 12 1),
    (0x5431DDBC, 0, 1, .ldgs true 71 59 15 false),
    (0x544AE1D2, 0, 1, .lds true 43 67 20 2),
    (0x1463FB68, 0, 1, .ldss false 15 118 26 false),
    (0x1482D125, 0, 1, .ldp false 11 34 9 1),
    (0x14A8F095, 0, 1, .ldps false 35 97 5 true),
    (0x54CD0A59, 0, 1, .lda true 52 20 5 true 1),
    (0x54E06D2D, 0, 1, .pref true 1 90 11 1),
    (0x5519EC9A, 0, 1, .fchk true false 103 89 6 2)] = true := by decide +kernel

theorem test_decode_stores : decodesTo [
    (0x1608FC87, 0, 1, .stg false 35 121 1 3),
    (0x1639D10F, 0, 1, .sts false 103 34 3 3),
    (0x16425171, 0, 1, .stp false 9 34 28 1),
    (0x56609662, 0, 1, .strel true 2 44 6 2),
    (0x56820301, 0x03E00000, 2, .atom true 8 6 1 0 1 3 6 0 false 0),
    (0x56BDFB27, 0, 1, .mcst true 119 118 9 3),
    (0x16C00347, 0, 1, .empty false 6 17 3),
    (0x16FE4799, 0, 1, .monarm false 121 15 6 1),
    (0x7701C006, 0, 1, .monwait true 7 false 6),
    (0x17200016, 0, 1, .fence false 2 6)] = true := by decide +kernel

theorem test_decode_engines : decodesTo [
    (0x58113105, 0, 1, .cue true 68 98 false 5),
    (0x18250108, 0x04002540, 2, .copy false 20 2 8 0 0 true 0 0 1 21),
    (0x184A0100, 0x02380000, 2, .cast false 40 2 0 0 1 7),
    (0x5860208F, 0, 1, .casti true 65 3 3),
    (0x188096E7, 0, 1, .castsplit false 2 45 103),
    (0x38A14001, 0, 1, .castrd false true 5 1),
    (0x18C02F03, 0, 1, .castwr false 94 3),
    (0x1A040600, 0x90800001, 2, .mash false 16 12 0 true 0 2 1 0 false 1)] = true := by decide +kernel

theorem test_decode_matrix : decodesTo [
    (0x1A202100, 0, 1, .rack false 66),
    (0x5A483C00, 0, 1, .colrd true 32 120),
    (0x5A60070B, 0, 1, .colclr true 14 false 11),
    (0x7A918031, 0, 1, .mstat true true 70 true 17)] = true := by decide +kernel

theorem test_decode_traps_and_hints : decodesTo [
    (0x5C0A005A, 0, 1, .trap 40 90),
    (0x5C2000B1, 0, 1, .brk 177),
    (0x1C400000, 0, 1, .nop false),
    (0x3F265B22, 0, 1, .hint false true 9 416546)] = true := by decide +kernel

theorem test_decode_uniform : decodesTo [
    (0x801A5FF0, 0, 1, .gadd false 26 23 63),
    (0x80762410, 0, 1, .gsub false 54 9 1),
    (0x80A9C390, 0, 1, .gmul false 41 48 57),
    (0xC0DC2C40, 0, 1, .gand true 28 11 4),
    (0x812BD990, 0, 1, .gor false 43 54 25),
    (0xC16742D0, 0, 1, .gxor true 39 16 45),
    (0xC18378C0, 0, 1, .gshl true 3 30 12),
    (0x81D27410, 0, 1, .gshr false 18 29 1),
    (0xC218F960, 0, 1, .gsar true 24 62 22),
    (0xC2500FE1, 0, 1, .gmin true 16 3 62 true),
    (0x82973011, 0, 1, .gmax false 23 12 1 true),
    (0xC2C67D1E, 0, 1, .gaddi true 6 31 286),
    (0x83109ABC, 0, 1, .gmovk false 16 39612),
    (0x832A8000, 0xDEADBEEF, 2, .gmovkLiteral false 42 0xDEADBEEF),
    (0x83464400, 0, 1, .gmov false 6 17),
    (0x838A6A69, 0, 1, .gset false 10 26 38 9),
    (0x83DA0945, 0, 1, .gsel false 26 2 20 5),
    (0x840699EE, 0, 1, .gld false 6 38 3 110),
    (0x846BE9E5, 0, 1, .glds false 43 58 3 101),
    (0xC4B156A5, 0, 1, .gst true 49 21 true 1 37),
    (0x84C11C70, 0, 1, .kand false 1 7 7),
    (0xC5061870, 0, 1, .kor true 6 6 7),
    (0x85451C50, 0, 1, .kxor false 5 7 5),
    (0x85871800, 0, 1, .knot false 7 6),
    (0x85EA1402, 0, 1, .kmov false 42 5 2)] = true := by decide +kernel

theorem test_decode_control_and_system : decodesTo [
    (0xC8057225, 0, 1, .jmp 356901),
    (0xC8420AB8, 0, 1, .jz 2 2744),
    (0xC889A31B, 0, 1, .jnz 9 41755),
    (0xC8FFFFB7, 0, 1, .gcall 4194231),
    (0xC8E00018, 0, 1, .gcallRegister 24),
    (0xC9000000, 0, 1, .yield),
    (0xCC000000, 0, 1, .bar),
    (0xCC400000, 0, 1, .barg),
    (0x8C99D800, 0, 1, .launch false 25 54),
    (0xCCE4000A, 0, 1, .sread true 36 10),
    (0x8D000283, 0, 1, .partset false 643),
    (0x90068EC0, 0, 1, .rset false 6 35 44),
    (0xD0500004, 0, 1, .racq 16 4),
    (0xD0800404, 0, 1, .rpub true 1 4),
    (0xD0C0D001, 0, 1, .rwait 52 1),
    (0x9100AC05, 0, 1, .rfree false 43 5),
    (0xD1400000, 0, 1, .cwait),
    (0x9180C001, 0, 1, .bank false 48 true),
    (0xD1C04400, 0, 1, .mwait 17),
    (0x9237450C, 0, 1, .hang false 55 17 16 12),
    (0x92400004, 0, 1, .unhang false 4)] = true := by decide +kernel

theorem test_decode_spec_words : decodesTo [
    (0x8CC10000, 0, 1, .sread false 1 0),
    (0x4800FE04, 0, 1, .fadd true false none 3 124 4),
    (0x1FE19480, 0x08614103, 2, .ffma false false (some ⟨6, 2, true, 1, false⟩) 5 2 3),
    (0x00E2FE0A, 0, 1, .imin false false none 11 124 10),
    (0x01E3017C, 0, 1, .lea false false none 12 2 124),
    (0x0608400A, 0, 1, .iset false none false 4 1 0 10),
    (0x5022C00C, 0, 1, .brz 11 12),
    (0x1FE00800, 0x0E050048, 2, .mxsc false false (some ⟨0, 1, false, 0, false⟩) 20 0 2 1),
    (0x8D000008, 0, 1, .partset false 8),
    (0x1200C140, 0, 1, .vote false false 3 2 2),
    (0x12610084, 0, 1, .scan false false 4 1 0 false true),
    (0x52A1C082, 0, 1, .compact true false 7 1 2),
    (0x82C70BF8, 0, 1, .gaddi false 7 2 0x3F8),
    (0x84821901, 0, 1, .gst false 2 6 false 2 1),
    (0x83891C86, 0, 1, .gset false 9 7 8 6),
    (0x12E28201, 0, 1, .bcast false false 10 4 true),
    (0x51200000, 0, 1, .rejoin 0)] = true := by decide +kernel

theorem test_decode_more_spec_words : decodesTo [
    (0x14020212, 0, 1, .ldg false 8 4 4 2),
    (0x14C0C152, 0, 1, .lda false 3 2 5 false 2),
    (0x1620C10A, 0, 1, .sts false 3 2 2 2),
    (0x92050832, 0, 1, .hang false 5 2 3 2),
    (0x92400002, 0, 1, .unhang false 2),
    (0x16820301, 0x03940000, 2, .atom false 8 6 1 0 1 3 1 1 false 0),
    (0x16888A13, 0x42500000, 2, .atom false 34 20 19 4 1 0 5 0 false 0),
    (0x1A040600, 0x10840001, 2, .mash false 16 12 0 false 0 2 1 1 false 1),
    (0x1A450300, 0, 1, .colrd false 20 6),
    (0x90001050, 0, 1, .rset false 0 4 5),
    (0xD0460000, 0, 1, .racq 6 0),
    (0x18600100, 0, 1, .casti false 2 0 0),
    (0x18800206, 0, 1, .castsplit false 0 4 6),
    (0x51608027, 0, 1, .brm 2 39),
    (0xC83FFFB7, 0, 1, .jmp 0x3FFFB7),
    (0x0D204002, 0, 1, .cvtr false false none 1 0 0 false 2),
    (0x5C018046, 0, 1, .trap 6 0x46),
    (0x5C200003, 0, 1, .brk 3)] = true := by decide +kernel

/-! ## Single steps, with results worked out in the spec or from its rules by hand -/

/-- Warp 0 after an instruction. -/
def warpAfter (i : Instr) (s : State) : Warp :=
  match exec i s with
  | .next t => (t.warp 0).getD placedWarp
  | _ => placedWarp

/-- The state after an instruction. -/
def after (i : Instr) (s : State) : State := match exec i s with | .next t => t | _ => s

/-- A state with `n` lanes live, in one path, with the value `f l r` in registers 0 to 9 of lane l. -/
def lanesOf4 (r : Role) (n : Nat) (f : Nat → Nat → Word) : State :=
  tweak (st r) fun W => (List.range (10 * n)).foldl (fun (W : Warp) i => W.setReg (i / 10) (i % 10) (f (i / 10) (i % 10)))
    { W with live := lanesBelow n, paths := W.paths.map fun P => { P with lanes := lanesBelow n } }

/-- The registers `r` of the first `n` lanes. -/
def col (W : Warp) (n r : Nat) : List Word := (List.range n).map fun l => W.reg l r

/-- The second SMXACC of the spec's row of four lanes (04, one row of four lanes). -/
theorem test_smxacc_row : let s := tweak (lanesOf4 .vector 4 fun l r =>
      if r = 0 then [0x40400000, 0x3F800000, 0, 0x40600000].getD l 0 else if r = 1 then 0x3F800000 else if r = 8 then 0x3FF00000 else
      if r = 9 then 2 else 0) fun W => { W with part := 4 }
    let W := warpAfter (.smxacc false false none 8 0 1) s
    col W 4 8 = [0x3FEE827A, 0x3FEE827A, 0x3FEE827A, 0x3FEE827A] ∧ col W 4 9 = [4, 4, 4, 4] := by decide +kernel

/-- The lanes of the spec's clamping example: IMIN, LEA and ISET (03). -/
def clamp : State := lanesOf4 .vector 4 fun l r =>
  if r = 0 then [0xFFFFFFFB, 7, 99, 250].getD l 0 else if r = 1 then [0, 28, 396, 396].getD l 0 else if r = 2 then 0x10000 else if r = 6 then 99 else 0

theorem test_imin_example : col (warpAfter (.imin false false none 7 0 6) clamp) 4 7 = [0xFFFFFFFB, 7, 99, 99] := by decide +kernel
theorem test_lea_example : col (warpAfter (.lea false false none 4 2 1) clamp) 4 4 = [0x10000, 0x1001C, 0x1018C, 0x1018C] := by decide +kernel
theorem test_iset_example : tget 0 (warpAfter (.iset false none false 4 1 0 6) (tweak clamp fun W => { W with k := [(1, 0xF5)] })).k 1 = 0xF8 := by
  decide +kernel
theorem test_brz_splits : let W := warpAfter (.brz 1 12) clamp
    (W.paths.map fun P => (P.lanes, P.pc)) = [(1, 0x20030), (14, 0x20004)] ∧ W.running = none := by decide +kernel

/-- Sums at the ends of the number range (03 R75, R76). -/
def ends : State := lanesOf4 .vector 2 fun l r => if r = 0 then [0x7FFFFFFF, 0x80000000].getD l 0 else [1, 0xFFFFFFFF].getD l 0
theorem test_iadd_wraps : col (warpAfter (.iadd false false none 2 0 1) ends) 2 2 = [0x80000000, 0x7FFFFFFF] := by decide +kernel
theorem test_iadd_saturates : col (warpAfter (.iadd false false (some ⟨0, 0, false, 0, true⟩) 2 0 1) ends) 2 2 = [0x7FFFFFFF, 0x80000000] := by
  decide +kernel
theorem test_imulhs : col (warpAfter (.imulhs false false none 2 0 1) ends) 2 2 = [0, 0] := by decide +kernel
theorem test_iabs_least : col (warpAfter (.iabs false false none 2 0) ends) 2 2 = [0x7FFFFFFF, 0x80000000] := by decide +kernel

/-- Shift counts of 32 and more (03 R82). -/
theorem test_shl_by_32 : col (warpAfter (.shl false false none 2 0 1) (lanesOf4 .vector 2 fun l r => if r = 0 then 3 else [32, 31].getD l 0)) 2 2 =
    [0, 0x80000000] := by decide +kernel
theorem test_sar_by_40 : col (warpAfter (.sar false false none 2 0 1) (lanesOf4 .vector 2 fun l r => if r = 0 then [0x80000000, 4].getD l 0 else 40)) 2 2 =
    [0xFFFFFFFF, 0] := by decide +kernel

/-- 1 + 2^-24 is a tie, rounded to even; toward +infinity it is the next number (00 R9; 04 R102). -/
def tie : State := lanesOf4 .vector 2 fun _ r => if r = 0 then 0x3F800000 else 0x33800000
theorem test_fadd_tie : col (warpAfter (.fadd false false none 2 0 1) tie) 2 2 = [0x3F800000, 0x3F800000] := by decide +kernel
theorem test_fadd_up : col (warpAfter (.fadd false false (some ⟨0, 0, false, 2, false⟩) 2 0 1) tie) 2 2 = [0x3F800001, 0x3F800001] := by decide +kernel
theorem test_fmin_zeros : col (warpAfter (.fmin false false none 2 0 1) (lanesOf4 .vector 2 fun l r => if r = l then 0x80000000 else 0)) 2 2 =
    [0x80000000, 0x80000000] := by decide +kernel
theorem test_exp2_example : col (warpAfter (.exp2 false false none 2 0) (lanesOf4 .vector 1 fun _ _ => 0xBF000000)) 1 2 = [0x3F3504F3] := by decide +kernel

/-- A ballot, and an exclusive sum (06). -/
theorem test_vote_ballot : col (warpAfter (.vote false false 3 2 2) (lanesOf4 .vector 4 fun l r => if r = 2 then [1, 0, 5, 9].getD l 0 else 0)) 4 3 =
    [13, 13, 13, 13] := by decide +kernel
theorem test_scan_excl : col (warpAfter (.scan false false 4 1 0 false true) (lanesOf4 .vector 4 fun l r => if r = 1 then [3, 5, 7, 11].getD l 0 else 0)) 4 4 =
    [0, 3, 8, 15] := by decide +kernel
theorem test_gset_signed : (warpAfter (.gset false 9 7 8 2) (tweak (st .vector) fun W => { W with g := [(7, 2 ^ 64 - 1), (8, 5)] })).greg 9 = 1 := by
  decide +kernel
theorem test_g63_is_zero : (warpAfter (.gaddi false 63 63 1) (st .vector)).greg 63 = 0 := by decide +kernel

/-- A scratch store, a trap that asserts, and the fault record of a misaligned load (11 R252; 19 R393, R395, R389). -/
theorem test_sts_byte : (after (.sts false 2 8 3 0) (st .vector)).stores.map (·.bytes) = [[(scrLoc + 3, scrLoc + 3, 7)], [(scrLoc + 3, scrLoc + 3, 9)]] := by
  decide +kernel
theorem test_scratch_store_performed : let t := after (.storePerformed 6) { st .vector with stores := [storeScr], empty := [(0, true)] }
    tget 0 t.scratch 5 = 1 ∧ tget 0 t.scratch 4 = 0 ∧ tget false t.empty 0 = false := by decide +kernel
theorem test_trap_asserts : let t := after (.trap 0 64) (st .vector)
    let c := tget Ctx.zero t.ctxs 0
    c.stopped = true ∧ c.asserted = true ∧ c.records.map (fun r => (r.kind, r.code)) = [(2, 64)] := by decide +kernel
theorem test_alignment_fault : let t := after (.ldg false 3 2 0 2) (st .vector)
    ((t.team 0).bind (·.hold)).map (fun h => h.recs.map fun r => (r.kind, r.code, r.addr, r.lane)) = some [(3, 10, 7, 0)] := by decide +kernel

end Sys2Proof.Tests
end

section
/-! Every step keeps the invariant `Inv` (O55): the turns that `kept_step` covers, a passage of time, and a module reset. -/

namespace Sys2Proof.Machine

/-- Every clock is within 64 cycles of every other, as `Inv` says it (01 R23). -/
def ClocksNear (c : Table Nat) : Prop := ∀ d e, d < 16 → e < 16 → tget 0 c d ≤ tget 0 c e + 64

/-- What `clocksAgree` tests is that every two clocks are near: the greatest is within 64 of the least. -/
theorem clocksNear_of_agree {c : Table Nat} (h : clocksAgree c = true) : ClocksNear c := by
  intro d e hd he
  unfold clocksAgree at h
  dsimp only at h
  have mem : ∀ k, k < 16 → tget 0 c k ∈ (List.range Config.dies).map fun d => tget 0 c d := fun k hk =>
    List.mem_map.mpr ⟨k, List.mem_range.mpr hk, rfl⟩
  generalize (List.range Config.dies).map (fun d => tget 0 c d) = l at h mem
  have hspread := of_decide_eq_true h
  have hmax : tget 0 c d ≤ l.foldl max 0 := List.le_max_of_mem (List.mem_cons_of_mem 0 (mem d hd))
  have hmin : l.foldl min (l.headD 0) ≤ tget 0 c e := List.min_le_of_mem (List.mem_cons_of_mem _ (mem e he))
  omega

/-- What keeps everything that `Kept` lists keeps the invariant. -/
theorem Kept.inv {s t : State} (h : Kept s t) (hi : Inv s) : Inv t := by
  obtain ⟨hmem, hclock, hcanon⟩ := hi
  exact ⟨h.wf hmem, h.clock ▸ hclock, h.canon hcanon⟩

/-- A passage of time moves the clocks only where they stay near, and touches no table of the invariant. -/
theorem inv_elapse {s : State} (cs : List Nat) (hi : Inv s) : Inv (s.elapse cs) := by
  obtain ⟨hmem, hclock, hcanon⟩ := hi
  unfold State.elapse
  dsimp only
  split
  · next hagree => exact ⟨hmem, clocksNear_of_agree hagree, hcanon⟩
  · exact ⟨hmem, hclock, hcanon⟩

/-- A change of the memory split writes lines back, which keeps memory canonical. -/
theorem wf_setSplit {s : State} (v : BitVec 7) (h : Memory.wf s.mem = true) : Memory.wf (s.setSplit v).mem = true := by
  unfold State.setSplit
  split
  · exact h
  · exact (kept_recallAll (Kept.refl s)).wf h

/-- Module reset keeps memory and gives every other part of the invariant its reset value. -/
theorem inv_moduleReset {s t : State} (hi : Inv s) (h : execModuleReset s = .next t) : Inv t := by
  cases h
  exact ⟨wf_setSplit _ hi.1, fun _ _ _ _ => Nat.zero_le _, rfl, rfl, rfl⟩

theorem exec_moduleReset (s : State) : exec .moduleReset s = execModuleReset s := rfl

/-- A turn of a module reset is the reset. -/
theorem takeTurn_moduleReset {s : State} (h : s.turn = .event .moduleReset) : takeTurn s = execModuleReset s.begin := by
  have hword : (Instr.isWord .moduleReset || !Instr.wf .moduleReset) = false := rfl
  unfold takeTurn
  rw [h]
  simp only [hword, Bool.false_eq_true, if_false, exec_moduleReset]

/-- A turn of a passage of time is the passage. -/
theorem takeTurn_elapse {s : State} {cs : List Nat} (h : s.turn = .elapse cs) : takeTurn s = .next (s.begin.elapse cs) := by
  unfold takeTurn
  rw [h]

/-- Every turn keeps the invariant. -/
theorem inv_takeTurn {s t : State} (hi : Inv s) (h : takeTurn s = .next t) : Inv t := by
  have hbegin : Inv s.begin := hi
  by_cases hr : s.turn = .event .moduleReset
  · exact inv_moduleReset hbegin (takeTurn_moduleReset hr ▸ h)
  · by_cases he : ∃ cs, s.turn = .elapse cs
    · obtain ⟨cs, he⟩ := he
      rw [takeTurn_elapse he] at h
      exact Host.Outcome.next.inj h ▸ inv_elapse cs hbegin
    · exact (kept_takeTurn hr (fun cs hc => he ⟨cs, hc⟩) h).inv hi

/-- Settles O55: a step is a turn, which keeps the invariant, and evictions, which keep it too. -/
theorem stepKeepsInvariant : Obligations.StepKeepsInvariant := by
  unfold Obligations.StepKeepsInvariant
  intro s t hi h
  obtain ⟨u, hu, rfl⟩ := step_eq h
  exact (kept_l2Trim (Kept.refl u)).inv (inv_takeTurn hi hu)

end Sys2Proof.Machine
end

section
/-! The uniform scalar instructions (O6): what each 64-bit operation computes, and that each writes its result in g_d. -/

namespace Sys2Proof.Machine

/-! ## 64-bit operations as the rules state them (06 R150) -/

theorem add_eq_ofInt (a b : DWord) : a + b = BitVec.ofInt 64 (a.toInt + b.toInt) := by
  rw [BitVec.ofInt_add, BitVec.ofInt_toInt, BitVec.ofInt_toInt]

theorem sub_eq_ofInt (a b : DWord) : a - b = BitVec.ofInt 64 (a.toInt - b.toInt) := by
  apply BitVec.eq_of_toInt_eq
  rw [BitVec.toInt_sub, BitVec.toInt_ofInt]

theorem mul_eq_ofInt (a b : DWord) : a * b = BitVec.ofInt 64 (a.toInt * b.toInt) := by
  rw [BitVec.ofInt_mul, BitVec.ofInt_toInt, BitVec.ofInt_toInt]

theorem shl64_eq (a b : DWord) : shl64 a b = BitVec.ofNat 64 (a.toNat * 2 ^ b.toNat) := by
  apply BitVec.eq_of_toNat_eq
  unfold shl64
  split
  · next h =>
    obtain ⟨k, hk⟩ := Nat.exists_eq_add_of_le h
    rw [BitVec.toNat_ofNat, hk, Nat.pow_add, Nat.mul_left_comm, Nat.mul_mod_right]
    rfl
  · rw [BitVec.toNat_shiftLeft, BitVec.toNat_ofNat, Nat.shiftLeft_eq]

theorem shr64_eq (a b : DWord) : shr64 a b = BitVec.ofNat 64 (a.toNat / 2 ^ b.toNat) := by
  apply BitVec.eq_of_toNat_eq
  have hlt : a.toNat / 2 ^ b.toNat < 2 ^ 64 := Nat.lt_of_le_of_lt (Nat.div_le_self _ _) a.isLt
  rw [BitVec.toNat_ofNat, Nat.mod_eq_of_lt hlt]
  unfold shr64
  split
  · next h =>
    have : a.toNat < 2 ^ b.toNat := Nat.lt_of_lt_of_le a.isLt (Nat.pow_le_pow_right (by decide) h)
    rw [Nat.div_eq_of_lt this]
    rfl
  · rw [BitVec.toNat_ushiftRight, Nat.shiftRight_eq_div_pow]

/-- Past 63 places the quotient of a 64-bit integer is its sign. -/
theorem toInt_div_pow (a : DWord) (n : Nat) : a.toInt / 2 ^ n = a.toInt / 2 ^ min n 63 := by
  by_cases h : n ≤ 63
  · rw [Nat.min_eq_left h]
  · have hpow : (2 : Int) ^ 63 ≤ 2 ^ n := pow_le_pow_right₀ (by decide) (by omega)
    have hlo : -2 ^ 63 ≤ a.toInt := BitVec.le_toInt a
    have hhi : a.toInt < 2 ^ 63 := BitVec.toInt_lt
    rw [Nat.min_eq_right (by omega)]
    rcases lt_or_ge a.toInt 0 with hneg | hpos
    · rw [Int.ediv_eq_neg_one_of_neg_of_le hneg (by omega), Int.ediv_eq_neg_one_of_neg_of_le hneg (by omega)]
    · rw [Int.ediv_eq_zero_of_lt hpos (by omega), Int.ediv_eq_zero_of_lt hpos hhi]

theorem sar64_eq (a b : DWord) : sar64 a b = BitVec.ofInt 64 (a.toInt / 2 ^ b.toNat) := by
  unfold sar64
  rw [toInt_div_pow, ← BitVec.ofInt_toInt (x := a.sshiftRight _), BitVec.toInt_sshiftRight, Int.shiftRight_eq_div_pow]
  norm_cast

theorem signExtend_eq_ofInt {w : Nat} (v : BitVec w) : v.signExtend 64 = BitVec.ofInt 64 v.toInt := rfl

/-- The order of GMIN and GMAX (06 R150). -/
def uniLess (u : Bool) (v w : DWord) : Prop := if u then v.toNat < w.toNat else v.toInt < w.toInt

theorem uniCond64_less (u : Bool) (v w : DWord) : uniCond64 (if u then 6 else 2) v w = true ↔ uniLess u v w := by
  cases u <;> simp [uniCond64, uniLess]

theorem uniLess_asymm {u : Bool} {v w : DWord} (h : uniLess u v w) : ¬ uniLess u w v := by
  unfold uniLess at *
  cases u <;> simp at h ⊢ <;> omega

theorem uniLess_irrefl (u : Bool) (v : DWord) : ¬ uniLess u v v := fun h => uniLess_asymm h h

/-! ## Instructions on g registers -/

section
variable {s : State} {x : Ix} {i : Instr} {body : Ix → Res} {d a b : BitVec 6}

theorem uniBin_spec {f : DWord → DWord → DWord} (h : Starts s x i) (hx : exec i s = run i s body)
    (hu : UsableG s x [d.toNat, a.toNat, b.toNat]) (hb : body x = uniBin x s d a b f) :
    UniResult s x i none d.toNat (f (x.W.greg a.toNat) (x.W.greg b.toNat)) := uniOp_spec h hx hu hb

/-- An instruction that gives the second operand where `c` holds and else the first. -/
theorem uniPick_spec {c : DWord → DWord → Bool} (h : Starts s x i) (hx : exec i s = run i s body)
    (hu : UsableG s x [d.toNat, a.toNat, b.toNat]) (hb : body x = uniBin x s d a b fun v w => if c v w then w else v)
    {less : DWord → DWord → Prop} (hc : ∀ v w, c v w = true ↔ less w v) (has : ∀ v w, less v w → ¬ less w v) (hir : ∀ v, ¬ less v v) :
    ∃ v, (v = x.W.greg a.toNat ∨ v = x.W.greg b.toNat) ∧ ¬ less (x.W.greg a.toNat) v ∧ ¬ less (x.W.greg b.toNat) v ∧
      UniResult s x i none d.toNat v := by
  have hr := uniBin_spec h hx hu hb
  split at hr
  · next hcond => exact ⟨_, .inr rfl, has _ _ ((hc _ _).mp hcond), hir _, hr⟩
  · next hcond => exact ⟨_, .inl rfl, hir _, fun hl => hcond ((hc _ _).mpr hl), hr⟩

end

/-- The conditions of GSET in the order of their codes (06 R150). -/
theorem uniCond64_iff (c : Nat) (hc : c ≤ 9) (A B : DWord) : uniCond64 c A B = true ↔
    (([A = B, A ≠ B, A.toInt < B.toInt, A.toInt ≤ B.toInt, A.toInt > B.toInt, A.toInt ≥ B.toInt, A.toNat < B.toNat,
      A.toNat ≤ B.toNat, A.toNat > B.toNat, A.toNat ≥ B.toNat] : List Prop)[c]?).getD False := by
  unfold uniCond64
  interval_cases c <;> simp

/-- The special registers in the order of their numbers (01 R23, R24). -/
theorem special_eq (x : Ix) (s : State) (m l : Nat) (hm : m ≤ 10) : x.special s m l =
    (([BitVec.ofNat 64 l, BitVec.ofNat 64 x.W.index, BitVec.ofNat 64 x.T.idx, BitVec.ofNat 64 x.core,
      BitVec.ofNat 64 (s.dieOf x.core), BitVec.ofNat 64 x.T.lnum, BitVec.ofNat 64 x.T.width, BitVec.ofNat 64 x.W.part, x.T.rolesReg,
      BitVec.ofNat 64 (s.clockOf x.core), x.W.seq] : List DWord)[m]?).getD 0 := by
  unfold Ix.special
  interval_cases m <;> rfl

/-- The fields of an instruction that starts are legal. -/
theorem Starts.fields {s : State} {x : Ix} {i : Instr} (h : Starts s x i) : i.fieldsOk = true := by
  have hwf := h.2.1
  unfold Instr.wf at hwf
  exact (Bool.and_eq_true_iff.mp hwf).2

/-- Settles O6: each instruction is one write of g_d with the value its operation gives. -/
theorem uniformScalar : Obligations.UniformScalar := by
  unfold Obligations.UniformScalar
  intro s x e u d a b f c k h lit A B less holds special
  refine ⟨fun hu i v hm hs => ?_, fun hu hs => ?_, fun hu hs => ?_, fun hu hs => ?_, fun hu hs => ?_, fun hu i v hm hs => ?_,
    fun hu i v hm hs => ?_⟩
  · simp only [List.mem_cons, Prod.mk.injEq, List.not_mem_nil, or_false] at hm
    rcases hm with ⟨rfl, rfl⟩ | ⟨rfl, rfl⟩ | ⟨rfl, rfl⟩ | ⟨rfl, rfl⟩ | ⟨rfl, rfl⟩ | ⟨rfl, rfl⟩ | ⟨rfl, rfl⟩ | ⟨rfl, rfl⟩ | ⟨rfl, rfl⟩
    · rw [← add_eq_ofInt]; exact uniBin_spec hs rfl hu rfl
    · rw [← sub_eq_ofInt]; exact uniBin_spec hs rfl hu rfl
    · rw [← mul_eq_ofInt]; exact uniBin_spec hs rfl hu rfl
    · exact uniBin_spec hs rfl hu rfl
    · exact uniBin_spec hs rfl hu rfl
    · exact uniBin_spec hs rfl hu rfl
    · rw [← shl64_eq]; exact uniBin_spec hs rfl hu rfl
    · rw [← shr64_eq]; exact uniBin_spec hs rfl hu rfl
    · rw [← sar64_eq]; exact uniBin_spec hs rfl hu rfl
  · exact uniPick_spec hs rfl hu rfl (fun v w => uniCond64_less u w v) (fun _ _ => uniLess_asymm) (uniLess_irrefl u)
  · exact uniPick_spec hs rfl hu rfl (less := fun w v => uniLess u v w) (fun v w => uniCond64_less u v w)
      (fun _ _ => uniLess_asymm) (uniLess_irrefl u)
  · have hc := uniCond64_iff c.toNat (of_decide_eq_true hs.fields) A B
    have hr := uniBin_spec hs rfl hu rfl
    split at hr
    · next hcond => exact ⟨1, .inl ⟨rfl, hc.mp hcond⟩, hr⟩
    · next hcond => exact ⟨0, .inr ⟨rfl, fun hh => hcond (hc.mpr hh)⟩, hr⟩
  · exact uniOp_spec hs rfl hu rfl
  · simp only [List.mem_cons, Prod.mk.injEq, List.not_mem_nil, or_false] at hm
    rcases hm with ⟨rfl, rfl⟩ | ⟨rfl, rfl⟩
    · rw [BitVec.ofInt_add, BitVec.ofInt_toInt, ← signExtend_eq_ofInt]; exact uniOp_spec hs rfl hu rfl
    · exact uniOp_spec hs rfl hu rfl
  · simp only [List.mem_cons, Prod.mk.injEq, List.not_mem_nil, or_false] at hm
    rcases hm with ⟨rfl, rfl⟩ | ⟨rfl, rfl⟩ | ⟨rfl, rfl⟩
    · exact uniOp_spec hs rfl hu rfl
    · exact uniOp_spec hs rfl hu rfl
    · rw [show special k.toNat x.low = x.special s k.toNat x.low from
        (special_eq x s k.toNat x.low (of_decide_eq_true hs.fields)).symm]
      exact uniOp_spec hs rfl hu rfl

end Sys2Proof.Machine
end

section
/-! The mask instructions and PARTSET (O7): a write of a mask register below the warp width, and the faults of k0 and of a size
the width does not allow. -/

namespace Sys2Proof.Machine

/-- A mask register as the path reads it, k0 being its lanes (01 R17). -/
theorem mask_eq (x : Ix) (k : BitVec 3) :
    x.W.mask x.P k.toNat = if k = 0 then x.P.lanes else tget 0 x.W.k k.toNat := by
  have hk : k.toNat = 0 ↔ k = 0 := BitVec.toNat_inj (y := 0)
  unfold Warp.mask
  simp only [hk]

theorem toNat_setWidth6 (k : BitVec 3) : (k.setWidth 6).toNat = k.toNat :=
  BitVec.toNat_setWidth_of_le (by decide)

section
variable {s : State} {x : Ix} {i : Instr} {body : Ix → Res} {m : Mask}

theorem maskOp_spec {kd : Nat} (h : Starts s x i) (hx : exec i s = run i s body) (hk : kd ≠ 0) (hb : body x = maskOp x s kd m) :
    MaskWrite s x i kd m := setK_spec h hx (by rw [hb, maskOp, if_neg hk])

end

/-- The sizes that PARTSET takes (05 R143). -/
theorem partOk_iff (width p : Nat) : partOk width p = true ↔ p ∈ [2, 4, 8, 16, 32, 64] ∧ p ≤ width := by
  unfold partOk
  rw [Bool.and_eq_true, List.contains_iff_mem, decide_eq_true_eq]

/-- Settles O7: each mask instruction is `maskOp` of its value, and PARTSET writes $part where `partOk` holds. -/
theorem maskAndTileInstructions : Obligations.MaskAndTileInstructions := by
  unfold Obligations.MaskAndTileInstructions
  intro s x e d a b dk ak z K
  have hK : ∀ k, K k = x.W.mask x.P k.toNat := fun k => (mask_eq x k).symm
  refine ⟨fun hd i m hm hs => ?_, fun hd hu hs => ?_, fun hu hs => ?_, fun i hi hs => ?_, fun hz hs => ?_, fun hz hw hs => ?_⟩
  · have hd' : d.toNat ≠ 0 := fun hc => hd (BitVec.eq_of_toNat_eq hc)
    simp only [List.mem_cons, Prod.mk.injEq, List.not_mem_nil, or_false, hK] at hm
    rcases hm with ⟨rfl, rfl⟩ | ⟨rfl, rfl⟩ | ⟨rfl, rfl⟩ | ⟨rfl, rfl⟩ | ⟨rfl, rfl⟩
    · exact maskOp_spec hs rfl hd' rfl
    · exact maskOp_spec hs rfl hd' rfl
    · exact maskOp_spec hs rfl hd' rfl
    · exact maskOp_spec hs rfl hd' rfl
    · rw [← toNat_setWidth6 d, ← toNat_setWidth6 a]
      exact maskOp_spec hs rfl (by rwa [toNat_setWidth6]) rfl
  · have hd' : d.setWidth 6 ≠ 0 := fun hc => hd (BitVec.eq_of_toNat_eq (by rw [← toNat_setWidth6 d, hc]; rfl))
    rw [← toNat_setWidth6 d]
    refine maskOp_spec hs rfl (fun hc => hd' (BitVec.eq_of_toNat_eq hc)) ?_
    exact (if_neg hd').trans (withUniform_usable hu)
  · rw [hK, ← toNat_setWidth6 a]
    exact uniOp_spec hs rfl hu rfl
  · simp only [List.mem_cons, List.not_mem_nil, or_false] at hi
    rcases hi with rfl | rfl | rfl | rfl | rfl | rfl <;> exact takes_fault hs rfl rfl
  · refine takes_fault hs rfl (if_neg ?_)
    rw [partOk_iff]
    rintro ⟨hmem, hle⟩
    rcases hz with hz | hz
    · exact hz hmem
    · omega
  · exact completes_ok hs rfl (if_pos ((partOk_iff _ _).mpr ⟨hz, hw⟩)) rfl rfl rfl

end Sys2Proof.Machine
end

section
/-! Branches (O14): where every target is good, the lanes of the path go to their next PCs. -/

namespace Sys2Proof.Machine

/-! ## Every control transfer ends its scene (02 R42) -/

theorem endsScene_br (o : BitVec 21) : (Instr.br o).endsScene = true :=
  endsScene_lane rfl (by decide) (by have := o.isLt; omega)
theorem endsScene_brz (a : BitVec 7) (o : BitVec 14) : (Instr.brz a o).endsScene = true :=
  endsScene_lane rfl (by decide) (by have := a.isLt; have := o.isLt; omega)
theorem endsScene_brnz (a : BitVec 7) (o : BitVec 14) : (Instr.brnz a o).endsScene = true :=
  endsScene_lane rfl (by decide) (by have := a.isLt; have := o.isLt; omega)
theorem endsScene_brx (a : BitVec 7) : (Instr.brx a).endsScene = true :=
  endsScene_lane rfl (by decide) (by have := a.isLt; omega)
theorem endsScene_brm (k : BitVec 3) (o : BitVec 14) : (Instr.brm k o).endsScene = true :=
  endsScene_lane rfl (by decide) (by have := k.isLt; have := o.isLt; omega)
theorem endsScene_jmp (o : BitVec 22) : (Instr.jmp o).endsScene = true :=
  endsScene_uni rfl (by have := o.isLt; omega)
theorem endsScene_jz (a : BitVec 6) (o : BitVec 16) : (Instr.jz a o).endsScene = true :=
  endsScene_uni rfl (by have := a.isLt; have := o.isLt; omega)
theorem endsScene_jnz (a : BitVec 6) (o : BitVec 16) : (Instr.jnz a o).endsScene = true :=
  endsScene_uni rfl (by have := a.isLt; have := o.isLt; omega)

/-! ## Branches with good targets -/

section
variable {s : State} {x : Ix} {i : Instr} {body : Ix → Res}

theorem branch_ok {all f : List (Nat × VAddr)} (h : ∀ e ∈ all, targetOk e.2 = true) : branch s all f = .move s f := by
  unfold branch
  rw [targetTrap_none h]

theorem toAll_ok {t : VAddr} (h : targetOk t = true) : ∀ e ∈ x.toAll t, targetOk e.2 = true := by
  intro e he
  obtain ⟨l, _, rfl⟩ := List.mem_map.mp he
  exact h

/-- A branch whose targets are all good moves each lane to its next PC. -/
theorem branch_spec {all : List (Nat × VAddr)} {tgt : Nat → VAddr} (h : Starts s x i) (hx : exec i s = run i s body)
    (hb : body x = branch s all (x.lanes.map fun l => (l, tgt l))) (hall : ∀ e ∈ all, targetOk e.2 = true)
    (he : i.endsScene = true) : ∃ t, Transfers s s t x i x.W tgt :=
  transfer_core h hx (hb.trans (branch_ok hall)) (issuing_spec h.1).2.1 rfl rfl he

/-- A conditional branch with a good target: the lanes that take it go there, the others to the next word (03 R90). -/
theorem branchIf_spec {dest : VAddr} {taken : Nat → Bool} {p : Nat → Prop} (h : Starts s x i) (hx : exec i s = run i s body)
    (hb : body x = x.branchIf s dest taken) (hd : targetOk dest = true) (he : i.endsScene = true)
    (hp : ∀ l, taken l = true ↔ p l) :
    ∃ t tgt, Transfers s s t x i x.W tgt ∧ ∀ l, (p l → tgt l = dest) ∧ (¬ p l → tgt l = x.P.pc + 4) := by
  obtain ⟨t, ht⟩ := branch_spec h hx hb (toAll_ok hd) he
  exact ⟨t, _, ht, fun l => ⟨fun hl => if_pos ((hp l).mpr hl), fun hl => if_neg fun hc => hl ((hp l).mp hc)⟩⟩

/-- An unconditional branch with a good target. -/
theorem branchAll_spec {dest : VAddr} (h : Starts s x i) (hx : exec i s = run i s body)
    (hb : body x = branch s (x.toAll dest) (x.toAll dest)) (hd : targetOk dest = true) (he : i.endsScene = true) :
    ∃ t tgt, Transfers s s t x i x.W tgt ∧ ∀ l, (True → tgt l = dest) ∧ (¬ True → tgt l = x.P.pc + 4) := by
  obtain ⟨t, ht⟩ := branch_spec (tgt := fun _ => dest) h hx hb (toAll_ok hd) he
  exact ⟨t, _, ht, fun _ => ⟨fun _ => rfl, fun hc => absurd trivial hc⟩⟩

end

/-- Settles O14: after its operand, each branch is `branch` or `branchIf` with a target that is good. -/
theorem branches : Obligations.Branches := by
  unfold Obligations.Branches
  intro s x a k g o14 o16 o21 o22 A G dest good goes
  refine ⟨fun hg hs => ?_, fun hu hg hs => ?_, fun hu hg hs => ?_, fun hg hs => ?_, fun hg hs => ?_, fun hu hg hs => ?_,
    fun hu hg hs => ?_, fun hu hg hs => ?_⟩
  · exact branchAll_spec hs rfl rfl (target_ok_iff.mp hg) (endsScene_br o21)
  · exact branchIf_spec hs rfl (withOperands_usable hu) (target_ok_iff.mp hg) (endsScene_brz a o14) fun _ => decide_eq_true_iff
  · exact branchIf_spec hs rfl (withOperands_usable hu) (target_ok_iff.mp hg) (endsScene_brnz a o14) fun _ => decide_eq_true_iff
  · exact branchIf_spec hs rfl rfl (target_ok_iff.mp hg) (endsScene_brm k o14) fun _ => Iff.rfl
  · exact branchAll_spec hs rfl rfl (target_ok_iff.mp hg) (endsScene_jmp o22)
  · exact branchIf_spec hs rfl (withUniform_usable hu) (target_ok_iff.mp hg) (endsScene_jz g o16) fun _ => decide_eq_true_iff
  · exact branchIf_spec hs rfl (withUniform_usable hu) (target_ok_iff.mp hg) (endsScene_jnz g o16) fun _ => decide_eq_true_iff
  · refine branch_spec hs rfl (withOperands_usable hu) (fun e he => ?_) (endsScene_brx a)
    obtain ⟨l, hl, rfl⟩ := List.mem_map.mp he
    exact target_ok_iff.mp (hg l hl)

end Sys2Proof.Machine
end

section
/-! The lowest lane of a check: what `firstLane` and `targetTrap` give where a lane fails and no lower one does. -/

namespace Sys2Proof.Machine

theorem lanesOf_sorted (m : Mask) : (lanesOf m).Pairwise (· < ·) := List.pairwise_lt_range.filter _

/-- What comes before an element of a sorted list is below it. -/
theorem sorted_split {ls : List Nat} (hs : ls.Pairwise (· < ·)) {l : Nat} (hl : l ∈ ls) :
    ∃ as bs, ls = as ++ l :: bs ∧ ∀ k ∈ as, k < l := by
  obtain ⟨as, bs, rfl⟩ := List.append_of_mem hl
  exact ⟨as, bs, rfl, fun k hk => (List.pairwise_append.mp hs).2.2 k hk l List.mem_cons_self⟩

/-- A check fails at the lowest lane that fails. -/
theorem firstLane_some {ls : List Nat} {f : Nat → Option Trap} {l : Nat} {t : Trap} (hs : ls.Pairwise (· < ·)) (hl : l ∈ ls)
    (hf : f l = some t) (hlow : ∀ k ∈ ls, k < l → f k = none) : firstLane ls f = some { t with lane := some l } := by
  obtain ⟨as, bs, rfl, hlt⟩ := sorted_split hs hl
  unfold firstLane
  refine List.findSome?_eq_some_iff.mpr ⟨as, l, bs, rfl, by rw [hf]; rfl, fun k hk => ?_⟩
  rw [hlow k (List.mem_append_left _ hk) (hlt k hk)]
  rfl

/-- The branch-target fault is that of the lowest lane with a bad target. -/
theorem targetTrap_some {ls : List Nat} {tgt : Nat → VAddr} {l : Nat} (hs : ls.Pairwise (· < ·)) (hl : l ∈ ls)
    (hbad : targetOk (tgt l) = false) (hlow : ∀ k ∈ ls, k < l → targetOk (tgt k) = true) :
    targetTrap (ls.map fun k => (k, tgt k)) = some ⟨3, 0, (tgt l).toNat, 0, 0, some l⟩ := by
  obtain ⟨as, bs, rfl, hlt⟩ := sorted_split hs hl
  have hfind : (as ++ l :: bs).find? (fun k => !targetOk (tgt k)) = some l := by
    refine List.find?_eq_some_iff_append.mpr ⟨by simp [hbad], as, bs, rfl, fun k hk => ?_⟩
    simp [hlow k (List.mem_append_left _ hk) (hlt k hk)]
  unfold targetTrap
  rw [List.find?_map, Function.comp_def, hfind]
  rfl

end Sys2Proof.Machine
end

section
/-! Calls (O15): the push of the return address, with its spills and faults, and the transfer. -/

namespace Sys2Proof.Machine

theorem endsScene_call (o : BitVec 21) : (Instr.call o).endsScene = true :=
  endsScene_lane rfl (by decide) (by have := o.isLt; omega)
theorem endsScene_callx (a : BitVec 7) : (Instr.callx a).endsScene = true :=
  endsScene_lane rfl (by decide) (by have := a.isLt; omega)
theorem endsScene_gcall (o : BitVec 22) : (Instr.gcall o).endsScene = true :=
  endsScene_uni rfl (by have := o.isLt; omega)
theorem endsScene_gcallRegister (g : BitVec 6) : (Instr.gcallRegister g).endsScene = true :=
  endsScene_uni rfl (by have := g.isLt; omega)

/-! ## The push (03 R93, R95, R96) -/

/-- The private stores by which full lanes spill their oldest entries. -/
def Ix.spills (x : Ix) (s : State) : Except Trap (List MemAcc) :=
  x.privateAcc s .store 8 x.spilling fun l => 8 * x.W.spillOf l

/-- The warp after the push. -/
def Ix.pushed (x : Ix) : Warp := x.lanes.foldl (fun W l => W.push l x.next) x.W

/-- The unperformed stores of the spills `as`. -/
def Ix.spillStores (x : Ix) (s : State) (as : List MemAcc) : List PStore :=
  as.zipIdx.map fun e => x.pstore s e.2 e.1 (leBytes 8 (((x.W.stackOf e.1.lane).getLast?).getD 0).toNat)

section
variable {s : State} {x : Ix}

/-- A lane that has spilled 8,192 entries overflows: the fault is the lowest such lane's. -/
theorem pushAll_overflow {l : Nat} (hl : l ∈ x.spilling) (h : x.W.spillOf l = 8192)
    (hlow : ∀ k ∈ x.spilling, k < l → x.W.spillOf k ≠ 8192) : x.pushAll s = .error ⟨5, 0, 0, 0, 0, some l⟩ := by
  unfold Ix.pushAll
  have hsorted : x.spilling.Pairwise (· < ·) := (lanesOf_sorted _).filter _
  rw [firstLane_some hsorted hl (if_pos h) fun k hk hlt => if_neg (hlow k hk hlt)]
  rfl

theorem pushAll_error {tr : Trap} (h : ∀ l ∈ x.spilling, x.W.spillOf l ≠ 8192) (hs : x.spills s = .error tr) :
    x.pushAll s = .error tr := by
  unfold Ix.spills at hs
  unfold Ix.pushAll
  simp only [firstLane_none fun l hl => if_neg (h l hl), hs]

theorem pushAll_ok {as : List MemAcc} (h : ∀ l ∈ x.spilling, x.W.spillOf l ≠ 8192) (hs : x.spills s = .ok as) :
    x.pushAll s = .ok (((x.keepLeaves s as).addStores (x.spillStores s as)).setWarp x.w x.pushed) := by
  unfold Ix.spills at hs
  unfold Ix.pushAll
  simp only [firstLane_none fun l hl => if_neg (h l hl), hs]
  rfl

/-- Stores added after translations are those of the state before, and the new ones. -/
theorem addStores_keepLeaves (as : List MemAcc) (ps : List PStore) : (x.keepLeaves s as).addStores ps =
    { x.keepLeaves s as with nextId := s.nextId + ps.length, stores := s.stores ++ ps } := by
  have hu := shared_keepLeaves x s as
  unfold State.addStores
  rw [hu.nextId, hu.stores]

/-! ## The call -/

variable {i : Instr} {body : Ix → Res} {tgt : Nat → VAddr}

theorem map_targets_ok (hg : ∀ l ∈ x.lanes, targetOk (tgt l) = true) :
    ∀ e ∈ x.lanes.map fun l => (l, tgt l), targetOk e.2 = true := by
  intro e he
  obtain ⟨l, hl, rfl⟩ := List.mem_map.mp he
  exact hg l hl

theorem call_error {f : List (Nat × VAddr)} {tr : Trap} (hg : ∀ e ∈ f, targetOk e.2 = true) (hp : x.pushAll s = .error tr) :
    x.call s f = .trap s tr := by
  unfold Ix.call
  simp only [targetTrap_none hg, hp]

theorem call_ok {f : List (Nat × VAddr)} {u : State} (hg : ∀ e ∈ f, targetOk e.2 = true) (hp : x.pushAll s = .ok u) :
    x.call s f = .move u f := by
  unfold Ix.call
  simp only [targetTrap_none hg, hp]

theorem call_traps {tr : Trap} (h : Starts s x i) (hx : exec i s = run i s body)
    (hb : body x = x.call s (x.lanes.map fun l => (l, tgt l))) (hg : ∀ l ∈ x.lanes, targetOk (tgt l) = true)
    (hp : x.pushAll s = .error tr) : Traps s x i tr :=
  takes_fault h hx (hb.trans (call_error (map_targets_ok hg) hp))

/-- The push changes only the return stacks and spill counts of the warp, lane by lane. -/
theorem pushed_spec (x : Ix) : x.pushed = { x.W with stack := x.pushed.stack, spill := x.pushed.spill } ∧ ∀ l,
    (l ∈ x.lanes → x.pushed.stackOf l = x.next :: (if 8 ≤ (x.W.stackOf l).length then (x.W.stackOf l).dropLast else x.W.stackOf l) ∧
      x.pushed.spillOf l = x.W.spillOf l + (if 8 ≤ (x.W.stackOf l).length then 1 else 0)) ∧
    (l ∉ x.lanes → x.pushed.stackOf l = x.W.stackOf l ∧ x.pushed.spillOf l = x.W.spillOf l) :=
  push_spec x.next x.lanes x.W (lanesOf_nodup _)

/-- A call whose spills pass their checks pushes and moves. -/
theorem call_moves {as : List MemAcc} (h : Starts s x i) (hx : exec i s = run i s body)
    (hb : body x = x.call s (x.lanes.map fun l => (l, tgt l))) (hg : ∀ l ∈ x.lanes, targetOk (tgt l) = true)
    (ho : ∀ l ∈ x.spilling, x.W.spillOf l ≠ 8192) (hs : x.spills s = .ok as) (he : i.endsScene = true) :
    ∃ t, Transfers s { x.keepLeaves s as with
      nextId := s.nextId + as.length, stores := s.stores ++ x.spillStores s as } t x i x.pushed tgt := by
  obtain ⟨hpush, _⟩ := pushed_spec x
  refine transfer_spec h hx (hb.trans (call_ok (map_targets_ok hg) (pushAll_ok ho hs))) ?_ (by rw [hpush]) (by rw [hpush]) he
  rw [addStores_keepLeaves, Ix.spillStores, List.length_map, List.length_zipIdx]

end

/-- Settles O15: each call is `Ix.call` with good targets, whose push overflows, fails a check, or spills. -/
theorem calls : Obligations.Calls := by
  unfold Obligations.Calls
  intro s x a g o21 o22 good full spills calls
  have key : ∀ {i : Instr} {body : Ix → Res} {tgt : Nat → VAddr}, exec i s = run i s body →
      body x = x.call s (x.lanes.map fun l => (l, tgt l)) → i.endsScene = true → calls i tgt := by
    intro i body tgt hx hb he hgood hs
    have hg : ∀ l ∈ x.lanes, targetOk (tgt l) = true := fun l hl => target_ok_iff.mp (hgood l hl)
    refine ⟨fun l hl h8 hlow => call_traps hs hx hb hg (pushAll_overflow hl h8 hlow), fun ho =>
      ⟨fun tr htr => call_traps hs hx hb hg (pushAll_error ho htr), fun as has => ?_⟩⟩
    obtain ⟨t, ht⟩ := call_moves hs hx hb hg ho has he
    obtain ⟨hW, hlanes⟩ := pushed_spec x
    refine ⟨x.keepLeaves s as, t, x.pushed, shared_keepLeaves x s as, ht, hW, fun l => ?_⟩
    obtain ⟨hin, hout⟩ := hlanes l
    exact ⟨fun hl => (hin hl).1, fun hl => (hin hl).2, hout⟩
  exact ⟨key rfl rfl (endsScene_call o21), fun hu => key rfl (withOperands_usable hu) (endsScene_callx a),
    key rfl rfl (endsScene_gcall o22), fun hu => key rfl (withUniform_usable hu) (endsScene_gcallRegister g)⟩

end Sys2Proof.Machine
end

section
/-! Illegal operands (O57): the first illegal operand in field order faults, an awaited one stalls, and when an operand is legal. -/

namespace Sys2Proof.Machine

section
variable {s : State} {x : Ix} {i : Instr} {body : Ix → Res} {us : List Use} {k : Unit → Res}

theorem withOperands_illegal {u : Use} (h : us.find? (fun u => !u.ok x) = some u) :
    withOperands x s us k = .trap s (Trap.operand u.code) := by
  unfold withOperands operandTrap
  rw [h]
  rfl

theorem withOperands_awaited (hok : ∀ u ∈ us, u.ok x = true) (hb : ∃ u ∈ us, u.busy x s x.lanes = true) :
    withOperands x s us k = .stall := by
  have hfind : us.find? (fun u => !u.ok x) = none := List.find?_eq_none.mpr fun u hu => by simp [hok u hu]
  have hany : us.any (Use.busy x s x.lanes) = true := List.any_eq_true.mpr hb
  unfold withOperands operandTrap
  rw [hfind]
  exact if_pos hany

/-- An instruction that checks and awaits the operands `us` first: the first illegal one faults; where all are legal and one is
awaited, the step changes nothing (01 R15, R19; log 8). -/
theorem operands_spec (h : Starts s x i) (hx : exec i s = run i s body) (hb : body x = withOperands x s us k) :
    (∀ u, us.find? (fun u => !u.ok x) = some u → Traps s x i (Trap.operand u.code)) ∧
    ((∀ u ∈ us, u.ok x = true) → (∃ u ∈ us, u.busy x s x.lanes = true) → exec i s = .next s) := by
  refine ⟨fun u hu => takes_fault h hx (hb.trans (withOperands_illegal hu)), fun hok hbusy => ?_⟩
  rw [hx, run_starts h, hb, withOperands_awaited hok hbusy]
  rfl

/-- A lane instruction checks and awaits its destination, then its sources. -/
theorem laneOp_operands {n : Bool} {p : Option Pfx} {d : BitVec 7} {f : Nat → Word} (h : Starts s x i) (hx : exec i s = run i s body)
    (hb : body x = laneOp x s n p d us f) :
    (∀ u, (Use.reg d.toNat :: us).find? (fun u => !u.ok x) = some u → Traps s x i (Trap.operand u.code)) ∧
    ((∀ u ∈ Use.reg d.toNat :: us, u.ok x = true) → (∃ u ∈ Use.reg d.toNat :: us, u.busy x s x.lanes = true) → exec i s = .next s) :=
  operands_spec h hx hb

theorem laneMaskOp_k0 {p : Option Pfx} {f : Nat → Bool} : laneMaskOp x s p 0 us f = .trap s (Trap.operand 0) := if_pos rfl

/-! ## When an operand is legal (01 R15; 02 R57) -/

/-- The bound of legal register codes: the team's registers, and 124. -/
theorem regLimit_eq (T : Team) : T.regLimit = if T.regs < 124 then T.regs else 124 := by
  unfold Team.regLimit
  split <;> omega

theorem latch_eq_some {n : Nat} {L : Latch} :
    x.latch n = some L ↔ ∃ q, x.P.scene = some q ∧ q.latches[n - 1]? = some (some L) := by
  unfold Ix.latch
  cases x.P.scene with
  | none => simp
  | some q => simp [Option.getD_eq_iff]

variable {c : Nat}

theorem src_ok_iff : (Use.src c).ok x = true ↔
    if c < 124 then c < x.T.regLimit else ∃ L, x.latch (c - 123) = some L := by
  by_cases h : c < 124
  · simp [Use.ok, h]
  · simp [Use.ok, h, Option.isSome_iff_exists]

theorem srcPair_ok_iff : (Use.srcPair c).ok x = true ↔
    if c < 124 then c % 2 = 0 ∧ c + 1 < x.T.regLimit else ∃ L, x.latch (c - 123) = some L ∧ L.wide = true := by
  by_cases h : c < 124
  · simp [Use.ok, h]
  · cases hl : x.latch (c - 123) <;> simp [Use.ok, h, hl]

end

/-- Settles O57: every instruction listed is `withOperands` of its operands, a compare into k0 faults, and legality is as `Use.ok`
says it. -/
theorem illegalOperands : Obligations.IllegalOperands := by
  unfold Obligations.IllegalOperands
  constructor
  · intro s x e n w p d a b o z c wide
    refine ⟨fun i us hm hs => ?_, fun i hm hs => ?_⟩
    · have hwide : loadDst d z.toNat = wide d.toNat := dst_eq d z
      rw [← hwide] at hm
      simp only [List.mem_cons, Prod.mk.injEq, List.not_mem_nil, or_false] at hm
      rcases hm with ⟨rfl, rfl⟩ | ⟨rfl, rfl⟩ | ⟨rfl, rfl⟩ | ⟨rfl, rfl⟩ | ⟨rfl, rfl⟩ | ⟨rfl, rfl⟩ | ⟨rfl, rfl⟩ | ⟨rfl, rfl⟩ |
        ⟨rfl, rfl⟩ | ⟨rfl, rfl⟩ | ⟨rfl, rfl⟩ | ⟨rfl, rfl⟩ | ⟨rfl, rfl⟩ | ⟨rfl, rfl⟩
      · exact laneOp_operands hs rfl rfl
      · exact laneOp_operands hs rfl rfl
      · exact laneOp_operands hs rfl rfl
      · exact operands_spec hs rfl rfl
      · exact operands_spec hs rfl rfl
      · exact laneOp_operands hs rfl rfl
      · exact laneOp_operands hs rfl rfl
      · exact laneOp_operands hs rfl rfl
      · exact laneOp_operands hs rfl rfl
      · exact operands_spec hs rfl rfl
      · exact operands_spec hs rfl rfl
      · exact operands_spec hs rfl rfl
      · exact operands_spec hs rfl rfl
      · exact operands_spec hs rfl rfl
    · simp only [List.mem_cons, List.not_mem_nil, or_false] at hm
      rcases hm with rfl | rfl | rfl
      · exact takes_fault hs rfl (by split <;> exact laneMaskOp_k0)
      · exact takes_fault hs rfl (by split <;> exact laneMaskOp_k0)
      · exact takes_fault hs rfl laneMaskOp_k0
  · intro x c n al limit latch
    have hlimit : x.T.regLimit = limit := regLimit_eq x.T
    have hlatch : ∀ b, latch b ↔ ∃ L, x.latch (c - 123) = some L ∧ (b = true → L.wide = true) := fun b => by
      simp only [latch, latch_eq_some, show c - 123 - 1 = c - 124 by omega]
      exact ⟨fun ⟨q, L, hq, hL, hw⟩ => ⟨L, ⟨q, hq, hL⟩, hw⟩, fun ⟨L, ⟨q, hq, hL⟩, hw⟩ => ⟨q, L, hq, hL, hw⟩⟩
    rw [← hlimit, hlatch, hlatch, src_ok_iff, srcPair_ok_iff]
    simp [Use.ok]

end Sys2Proof.Machine
end

section
/-! Access and target faults (O58): the lowest lane with a misaligned, non-canonical or out-of-range address, and the lowest with
a bad target. -/

namespace Sys2Proof.Machine

/-- Lane `l` is the lowest of a list that is bad. -/
def LowestBad (ls : List Nat) (bad : Nat → Prop) (l : Nat) : Prop := l ∈ ls ∧ bad l ∧ ∀ k ∈ ls, k < l → ¬ bad k

theorem LowestBad.congr {ls : List Nat} {bad bad' : Nat → Prop} {l : Nat} (h : LowestBad ls bad l) (hb : ∀ k ∈ ls, bad k ↔ bad' k) :
    LowestBad ls bad' l :=
  ⟨h.1, (hb l h.1).mp h.2.1, fun k hk hlt hc => h.2.2 k hk hlt ((hb k hk).mpr hc)⟩

/-! ## Checks lane by lane -/

section
variable {ls : List Nat} {l : Nat} (hs : ls.Pairwise (· < ·))

include hs in
theorem firstLane_lowest {p : Nat → Prop} [DecidablePred p] {g : Nat → Trap} (h : LowestBad ls (fun k => ¬ p k) l) :
    firstLane ls (fun k => if p k then none else some (g k)) = some { g l with lane := some l } :=
  firstLane_some hs h.1 (if_neg h.2.1) fun k hk hlt => if_pos (not_not.mp (h.2.2 k hk hlt))

/-- A check of every element fails with the error of the first that fails. -/
theorem mapM_error {α β : Type} {f : α → Except Trap β} {a : α} {t : Trap} (ha : f a = .error t) (bs : List α) :
    ∀ as : List α, (∀ k ∈ as, ∃ b, f k = .ok b) → (as ++ a :: bs).mapM f = .error t
  | [], _ => by rw [List.nil_append, List.mapM_cons, ha]; rfl
  | k :: as, h => by
    obtain ⟨b, hb⟩ := h k List.mem_cons_self
    rw [List.cons_append, List.mapM_cons, hb, mapM_error ha bs as fun j hj => h j (List.mem_cons_of_mem _ hj)]
    rfl

/-! ## Addresses (01 R21; 09 R211, R216, R217; 11 R251 to R253) -/

theorem canonical_iff {va : Nat} (h : va < 2 ^ 56) : canonical va = true ↔ va < 2 ^ 51 ∨ 2 ^ 56 - 2 ^ 51 ≤ va := by
  unfold canonical
  simp only [Bool.or_eq_true, decide_eq_true_eq]
  omega

variable {x : Ix} {s : State} {k : MemKind} {n : Nat} {adr : Nat → Nat}

include hs in
theorem globalAcc_misaligned (h : LowestBad ls (fun k => ¬ adr k % n = 0) l) :
    x.globalAcc s k n ls adr = .error ⟨10, 0, adr l, 0, 0, some l⟩ := by
  unfold Ix.globalAcc
  simp only [firstLane_lowest hs h]

include hs in
theorem globalAcc_noncanonical (ha : ∀ k ∈ ls, adr k % n = 0) (h : LowestBad ls (fun k => ¬ canonical (adr k) = true) l) :
    x.globalAcc s k n ls adr = .error (Trap.translation 7 (adr l) k.writes (some l)) := by
  unfold Ix.globalAcc
  simp only [firstLane_none fun l hl => if_pos (ha l hl), firstLane_lowest hs h, Trap.translation]

include hs in
theorem privateAcc_misaligned (h : LowestBad ls (fun k => ¬ adr k % n = 0) l) :
    x.privateAcc s k n ls adr = .error ⟨10, 0, adr l, 0, 0, some l⟩ := by
  unfold Ix.privateAcc
  simp only [firstLane_lowest hs h]

include hs in
theorem privateAcc_range (ha : ∀ k ∈ ls, adr k % n = 0) (h : LowestBad ls (fun k => ¬ adr k + n ≤ 2 ^ 24) l) :
    x.privateAcc s k n ls adr = .error ⟨12, 0, adr l, 0, 0, some l⟩ := by
  unfold Ix.privateAcc
  simp only [firstLane_none fun l hl => if_pos (ha l hl), firstLane_lowest hs h]

/-- The greatest of a list of values, one of which is at least every other. -/
theorem foldl_max_eq {f : Nat → Nat} {j : Nat} (hj : j ∈ ls) (hmax : ∀ k ∈ ls, f k ≤ f j) : (ls.map f).foldl max 0 = f j := by
  refine (List.max_eq_iff (l := 0 :: ls.map f) (List.cons_ne_nil _ _)).mpr ⟨List.mem_cons_of_mem _ (List.mem_map_of_mem hj), ?_⟩
  simpa using hmax

include hs in
theorem privateAcc_growth {j : Nat} (ha : ∀ k ∈ ls, adr k % n = 0) (hr : ∀ k ∈ ls, adr k + n ≤ 2 ^ 24)
    (h : LowestBad ls (fun k => ¬ adr k + n ≤ 1024 * x.W.phw) l) (hj : j ∈ ls) (hmax : ∀ k ∈ ls, adr k ≤ adr j) :
    x.privateAcc s k n ls adr = .error ⟨13, 0, adr j + n - 1, 0, 0, some l⟩ := by
  have htop : (ls.map fun l => adr l + n - 1).foldl max 0 = adr j + n - 1 :=
    foldl_max_eq (f := fun l => adr l + n - 1) hj fun k hk => by have := hmax k hk; omega
  unfold Ix.privateAcc
  simp only [firstLane_none fun l hl => if_pos (ha l hl), firstLane_none fun l hl => if_pos (hr l hl), firstLane_lowest hs h, htop]

include hs in
theorem scratchAcc_misaligned (h : LowestBad ls (fun k => ¬ adr k % n = 0) l) :
    x.scratchAcc s n ls adr = .error ⟨10, 0, adr l, 0, 0, some l⟩ := by
  unfold Ix.scratchAcc
  simp only [firstLane_lowest hs h]

/-- The place of a scratch access, where the offset is a 32-bit one (09 R211). -/
def Ix.scratchPlace (x : Ix) (off n : Nat) : Option (Nat × Nat × Nat) := if off < 2 ^ 32 then x.T.scratchAt off n else none

theorem scratchPlace_none {off : Nat} : x.scratchPlace off n = none ↔ 2 ^ 32 ≤ off ∨ x.T.scratchAt off n = none := by
  unfold Ix.scratchPlace
  split <;> simp <;> omega

include hs in
theorem scratchAcc_range (ha : ∀ k ∈ ls, adr k % n = 0) (h : LowestBad ls (fun k => x.scratchPlace (adr k) n = none) l) :
    x.scratchAcc s n ls adr = .error ⟨11, 0, adr l, 0, 0, some l⟩ := by
  obtain ⟨hl, hbad, hlow⟩ := h
  obtain ⟨as, bs, rfl, hlt⟩ := sorted_split hs hl
  unfold Ix.scratchPlace at hbad hlow
  unfold Ix.scratchAcc
  rw [firstLane_none fun l hl => if_pos (ha l hl)]
  dsimp only
  rw [mapM_error (t := ⟨11, 0, adr l, 0, 0, some l⟩) (by rw [hbad]) bs as fun k hk => ?_]
  obtain ⟨p, hp⟩ := Option.ne_none_iff_exists'.mp (hlow k (List.mem_append_left _ hk) (hlt k hk))
  exact ⟨(k, p), by rw [hp]⟩

end

/-! ## Memory instructions -/

section
variable {s : State} {x : Ix} {e : Bool} {d a : BitVec 7} {o : BitVec 5} {z : BitVec 2} {t : Trap}

theorem ldg_traps (h : Starts s x (.ldg e d a o z)) (hu : Usable s x [loadDst d z.toNat, .srcPair a.toNat])
    (ht : x.globalAcc s .load (memBytes z.toNat) x.lanes (x.gaddr a (o.toNat * memBytes z.toNat)) = .error t) :
    Traps s x (.ldg e d a o z) t := by
  refine takes_fault (body := fun x => globalLoad x s d a o z.toNat false) h rfl ?_
  simp only [globalLoad, withOperands_usable hu, ht]

theorem stg_traps (h : Starts s x (.stg e d a o z)) (hu : Usable s x [storeSrc d z.toNat, .srcPair a.toNat])
    (ht : x.globalAcc s .store (memBytes z.toNat) x.lanes (x.gaddr a (o.toNat * memBytes z.toNat)) = .error t) :
    Traps s x (.stg e d a o z) t := by
  refine takes_fault h rfl ((withOperands_usable hu).trans ?_)
  simp only [ht]

theorem ldp_traps (h : Starts s x (.ldp e d a o z)) (hu : Usable s x [loadDst d z.toNat, .src a.toNat])
    (ht : x.privateAcc s .load (memBytes z.toNat) x.lanes (x.soff a (o.toNat * memBytes z.toNat)) = .error t) :
    Traps s x (.ldp e d a o z) t := by
  refine takes_fault (body := fun x => privateLoad x s d a o z.toNat false) h rfl ?_
  simp only [privateLoad, withOperands_usable hu, ht]

theorem stp_traps (h : Starts s x (.stp e d a o z)) (hu : Usable s x [storeSrc d z.toNat, .src a.toNat])
    (ht : x.privateAcc s .store (memBytes z.toNat) x.lanes (x.soff a (o.toNat * memBytes z.toNat)) = .error t) :
    Traps s x (.stp e d a o z) t := by
  refine takes_fault h rfl ((withOperands_usable hu).trans ?_)
  simp only [ht]

/-- No lane of the path has performed its access: every lane does (11 R254). -/
theorem lanes_notDone (h : x.P.done = 0) : x.lanes.filter (fun l => !x.P.done.getLsbD l) = x.lanes :=
  List.filter_eq_self.mpr fun l _ => by simp [h]

theorem lds_traps (h : Starts s x (.lds e d a o z)) (hu : Usable s x [loadDst d z.toNat, .src a.toNat]) (hd : x.P.done = 0)
    (ht : x.scratchAcc s (memBytes z.toNat) x.lanes (x.soff a (o.toNat * memBytes z.toNat)) = .error t) :
    Traps s x (.lds e d a o z) t := by
  refine takes_fault (body := fun x => ldsBody x s d a o z.toNat false) h rfl ?_
  simp only [ldsBody, withOperands_usable hu, Ix.scratchLoad, lanes_notDone hd, ht]

theorem sts_traps (h : Starts s x (.sts e d a o z)) (hu : Usable s x [storeSrc d z.toNat, .src a.toNat])
    (ht : x.scratchAcc s (memBytes z.toNat) x.lanes (x.soff a (o.toNat * memBytes z.toNat)) = .error t) :
    Traps s x (.sts e d a o z) t := by
  refine takes_fault h rfl ((withOperands_usable hu).trans ?_)
  simp only [Ix.scratchStores, ht]

/-! ## Control transfers (01 R21; 03 R90) -/

variable {i : Instr} {body : Ix → Res} {tgt : Nat → VAddr} {l : Nat}

theorem branch_bad {all f : List (Nat × VAddr)} (h : targetTrap all = some t) : branch s all f = .trap s t := by
  unfold branch
  simp only [h]

theorem call_bad {f : List (Nat × VAddr)} (h : targetTrap f = some t) : x.call s f = .trap s t := by
  unfold Ix.call
  simp only [h]

/-- A transfer that checks the targets `tgt` of its lanes takes the fault of the lowest lane with a bad one. -/
theorem target_traps (h : Starts s x i) (hx : exec i s = run i s body)
    (hb : ∀ t, targetTrap (x.lanes.map fun k => (k, tgt k)) = some t → body x = .trap s t)
    (hl : LowestBad x.lanes (fun k => (tgt k).toNat % 4 ≠ 0 ∨ ¬ ((tgt k).toNat < 2 ^ 51 ∨ 2 ^ 56 - 2 ^ 51 ≤ (tgt k).toNat)) l) :
    Traps s x i ⟨3, 0, (tgt l).toNat, 0, 0, some l⟩ := by
  have hbad : ∀ k, ((tgt k).toNat % 4 ≠ 0 ∨ ¬ ((tgt k).toNat < 2 ^ 51 ∨ 2 ^ 56 - 2 ^ 51 ≤ (tgt k).toNat)) ↔
      ¬ targetOk (tgt k) = true := fun k => by rw [← target_ok_iff]; tauto
  obtain ⟨hm, hf, hlow⟩ := hl.congr fun k _ => hbad k
  exact takes_fault h hx (hb _ (targetTrap_some (lanesOf_sorted _) hm (Bool.eq_false_iff.mpr hf)
    fun k hk hlt => not_not.mp (hlow k hk hlt)))

end

/-- Settles O58: the checks of each access in the order of 11 R253, and the target check of each transfer. -/
theorem accessAndTargetFaults : Obligations.AccessAndTargetFaults := by
  unfold Obligations.AccessAndTargetFaults
  intro s x e d a o z k g o14 o16 o21 o22 l n reg src glob off tgt low canon faults
  have hn : memBytes z.toNat = n := memBytes_eq z
  have hlow : ∀ bad, low bad → LowestBad x.lanes bad l := fun _ h => h
  have hsorted : x.lanes.Pairwise (· < ·) := lanesOf_sorted _
  have hreg : loadDst d z.toNat = reg := dst_eq d z
  have hsrc : storeSrc d z.toNat = src := src_eq d z
  have hglob : x.gaddr a (o.toNat * n) = glob := funext fun k => gaddr_eq x a _ k
  have hcanon : ∀ k ∈ x.lanes, ¬ canon (glob k) ↔ ¬ canonical (glob k) = true := fun k _ =>
    not_congr (canonical_iff (Nat.mod_lt _ (by decide))).symm
  refine ⟨fun i us aux hm hu => ?_, fun i us hm hu => ?_, fun i us hm hu hd => ?_, ?_⟩
  · simp only [List.mem_cons, Prod.mk.injEq, List.not_mem_nil, or_false] at hm
    rcases hm with ⟨rfl, rfl, rfl⟩ | ⟨rfl, rfl, rfl⟩
    · have key : ∀ t, x.globalAcc s .load n x.lanes glob = .error t → Starts s x (.ldg e d a o z) → Traps s x (.ldg e d a o z) t :=
        fun t ht hs => ldg_traps hs (hreg ▸ hu) (by rw [hn, hglob, ht])
      exact ⟨fun hl => key _ (globalAcc_misaligned hsorted hl), fun ha hl =>
        key _ (globalAcc_noncanonical hsorted ha ((hlow _ hl).congr hcanon))⟩
    · have key : ∀ t, x.globalAcc s .store n x.lanes glob = .error t → Starts s x (.stg e d a o z) → Traps s x (.stg e d a o z) t :=
        fun t ht hs => stg_traps hs (hsrc ▸ hu) (by rw [hn, hglob, ht])
      exact ⟨fun hl => key _ (globalAcc_misaligned hsorted hl), fun ha hl =>
        key _ (globalAcc_noncanonical hsorted ha ((hlow _ hl).congr hcanon))⟩
  · have key : ∃ k, ∀ t, x.privateAcc s k n x.lanes off = .error t → Starts s x i → Traps s x i t := by
      simp only [List.mem_cons, Prod.mk.injEq, List.not_mem_nil, or_false] at hm
      rcases hm with ⟨rfl, rfl⟩ | ⟨rfl, rfl⟩
      · exact ⟨.load, fun t ht hs => ldp_traps hs (hreg ▸ hu) (by rw [hn]; exact ht)⟩
      · exact ⟨.store, fun t ht hs => stp_traps hs (hsrc ▸ hu) (by rw [hn]; exact ht)⟩
    obtain ⟨k, key⟩ := key
    refine ⟨fun hl => key _ (privateAcc_misaligned hsorted hl), fun ha hl => key _ (privateAcc_range hsorted ha ?_),
      fun ha hl j hj hmax => key _ (privateAcc_growth hsorted (fun k hk => (ha k hk).1) (fun k hk => (ha k hk).2) ?_ hj hmax)⟩
    · exact (hlow _ hl).congr fun _ _ => Nat.not_le.symm
    · exact (hlow _ hl).congr fun _ _ => Nat.not_le.symm
  · have key : ∀ t, x.scratchAcc s n x.lanes off = .error t → Starts s x i → Traps s x i t := by
      simp only [List.mem_cons, Prod.mk.injEq, List.not_mem_nil, or_false] at hm
      rcases hm with ⟨rfl, rfl⟩ | ⟨rfl, rfl⟩
      · exact fun t ht hs => lds_traps hs (hreg ▸ hu) hd (by rw [hn]; exact ht)
      · exact fun t ht hs => sts_traps hs (hsrc ▸ hu) (by rw [hn]; exact ht)
    exact ⟨fun hl => key _ (scratchAcc_misaligned hsorted hl), fun ha hl =>
      key _ (scratchAcc_range hsorted ha ((hlow _ hl).congr fun _ _ => scratchPlace_none.symm))⟩
  · intro rel i us gs dst hm hu hg hl hs
    simp only [List.mem_cons, Prod.mk.injEq, List.not_mem_nil, or_false] at hm
    rcases hm with ⟨rfl, rfl, rfl, rfl⟩ | ⟨rfl, rfl, rfl, rfl⟩ | ⟨rfl, rfl, rfl, rfl⟩ | ⟨rfl, rfl, rfl, rfl⟩ | ⟨rfl, rfl, rfl, rfl⟩ |
      ⟨rfl, rfl, rfl, rfl⟩ | ⟨rfl, rfl, rfl, rfl⟩ | ⟨rfl, rfl, rfl, rfl⟩ | ⟨rfl, rfl, rfl, rfl⟩ | ⟨rfl, rfl, rfl, rfl⟩ |
      ⟨rfl, rfl, rfl, rfl⟩ | ⟨rfl, rfl, rfl, rfl⟩
    · exact target_traps (tgt := fun k => (x.srcPair a.toNat k).setWidth 56) hs rfl (fun t ht => (withOperands_usable hu).trans (branch_bad ht)) (hlow _ hl)
    · exact target_traps (tgt := fun k => (x.srcPair a.toNat k).setWidth 56) hs rfl (fun t ht => (withOperands_usable hu).trans (call_bad ht)) (hlow _ hl)
    · exact target_traps (tgt := fun _ => x.rel o21) hs rfl (fun t ht => branch_bad ht) (hlow _ hl)
    · exact target_traps (tgt := fun _ => x.rel o21) hs rfl (fun t ht => call_bad ht) (hlow _ hl)
    · exact target_traps (tgt := fun _ => x.rel o14) hs rfl (fun t ht => branch_bad ht) (hlow _ hl)
    · exact target_traps (tgt := fun _ => x.rel o14) hs rfl (fun t ht => (withOperands_usable hu).trans (branch_bad ht)) (hlow _ hl)
    · exact target_traps (tgt := fun _ => x.rel o14) hs rfl (fun t ht => (withOperands_usable hu).trans (branch_bad ht)) (hlow _ hl)
    · exact target_traps (tgt := fun _ => x.rel o22) hs rfl (fun t ht => branch_bad ht) (hlow _ hl)
    · exact target_traps (tgt := fun _ => x.rel o16) hs rfl (fun t ht => (withUniform_usable hg).trans (branch_bad ht)) (hlow _ hl)
    · exact target_traps (tgt := fun _ => x.rel o16) hs rfl (fun t ht => (withUniform_usable hg).trans (branch_bad ht)) (hlow _ hl)
    · exact target_traps (tgt := fun _ => x.rel o22) hs rfl (fun t ht => call_bad ht) (hlow _ hl)
    · exact target_traps (tgt := fun _ => (x.W.greg g.toNat).setWidth 56) hs rfl (fun t ht => (withUniform_usable hg).trans (call_bad ht)) (hlow _ hl)

end Sys2Proof.Machine
end

section
/-! The wing arbiter: its order is strict, what `State.pick` chooses, and what counting a start against the other ready paths and
starting a scene change. -/

namespace Sys2Proof.Machine

/-! ## The order of arbitration (05 R141) -/

/-- The lower slot, then the lower lane. -/
def Cand.ties (a b : Cand) : Prop := a.w < b.w ∨ (a.w = b.w ∧ lowest a.P.lanes < lowest b.P.lanes)

/-- Full counters first, by when they filled, then the higher counter, then the lower slot and lane. -/
def Cand.first (a b : Cand) : Prop :=
  (a.P.age = 16 ∧ b.P.age ≠ 16) ∨
  (a.P.age = 16 ∧ b.P.age = 16 ∧ (a.P.full < b.P.full ∨ (a.P.full = b.P.full ∧ a.ties b))) ∨
  (a.P.age ≠ 16 ∧ b.P.age ≠ 16 ∧ (b.P.age < a.P.age ∨ (a.P.age = b.P.age ∧ a.ties b)))

theorem ties_iff (a b : Cand) :
    (if a.w ≠ b.w then decide (a.w < b.w) else decide (lowest a.P.lanes < lowest b.P.lanes)) = true ↔ a.ties b := by
  unfold Cand.ties
  split <;> simp <;> omega

theorem candBefore_iff (a b : Cand) : candBefore a b = true ↔ a.first b := by
  have ht := ties_iff a b
  unfold candBefore Cand.first
  by_cases ha : a.P.age = 16 <;> by_cases hb : b.P.age = 16
  · by_cases hf : a.P.full = b.P.full
    · simpa [ha, hb, hf] using ht
    · simp [ha, hb, hf]
  · simp [ha, hb]
  · simp [ha, hb]
  · by_cases he : a.P.age = b.P.age
    · simpa [he, hb] using ht
    · simp [ha, hb, he]

theorem Cand.first_irrefl (a : Cand) : ¬ a.first a := by
  unfold Cand.first Cand.ties
  omega

theorem Cand.first_trans {a b c : Cand} (h : a.first b) (k : b.first c) : a.first c := by
  unfold Cand.first Cand.ties at *
  omega

/-- Paths neither of which comes first are both full or neither, and are of one warp. -/
theorem Cand.eq_of_not_first {a b : Cand} (h : ¬ a.first b) (k : ¬ b.first a) : (a.P.age = 16 ↔ b.P.age = 16) ∧ a.w = b.w := by
  unfold Cand.first Cand.ties at *
  omega

theorem firstCand_eq_none : ∀ {l : List Cand}, firstCand l = none ↔ l = []
  | [] => by simp [firstCand]
  | a :: l => by
    unfold firstCand
    split <;> [split; skip] <;> simp

/-- The first of a list is in it, and none of the list comes before it. -/
theorem firstCand_spec : ∀ {l : List Cand} {c : Cand}, firstCand l = some c → c ∈ l ∧ ∀ o ∈ l, ¬ o.first c
  | [], _, h => by cases h
  | a :: l, c, h => by
    unfold firstCand at h
    split at h
    · next b hb =>
      obtain ⟨hmem, hmin⟩ := firstCand_spec hb
      split at h
      · next hab =>
        cases h
        have hab := (candBefore_iff _ _).mp hab
        refine ⟨List.mem_cons_self, fun o ho => ?_⟩
        rcases List.mem_cons.mp ho with rfl | ho
        · exact o.first_irrefl
        · exact fun hc => hmin o ho (Cand.first_trans hc hab)
      · next hab =>
        cases h
        refine ⟨List.mem_cons_of_mem _ hmem, fun o ho => ?_⟩
        rcases List.mem_cons.mp ho with rfl | ho
        · exact fun hc => hab ((candBefore_iff _ _).mpr hc)
        · exact hmin o ho
    · next hn =>
      cases h
      rw [firstCand_eq_none.mp hn]
      exact ⟨List.mem_cons_self, fun o ho => List.mem_singleton.mp ho ▸ o.first_irrefl⟩

/-! ## Ready paths (05 R133) -/

section
variable {s : State} {core wing : Nat} {o : Cand}

/-- The ready paths of a warp. -/
def State.readyOf (s : State) (w : Nat) : List Cand :=
  match s.warp w with
  | none => []
  | some W =>
    match s.team W.team with
    | none => []
    | some T =>
      if T.hold.isSome || W.running.isSome then []
      else (W.mayStart.filter fun P => !s.waiting T W P).map fun P => ⟨w, T.width, P⟩

theorem readyPaths_eq (s : State) (core wing : Nat) :
    s.readyPaths core wing = (List.range' (48 * core + 12 * wing) 12).flatMap s.readyOf := rfl

/-- A warp with ready paths has a team, whose width they have, and they are some of those that may start. -/
theorem readyOf_eq (s : State) (w : Nat) : s.readyOf w = [] ∨ ∃ (W : Warp) (T : Team) (Ps : List Path), s.warp w = some W ∧ s.team W.team = some T ∧
    Ps.Sublist W.mayStart ∧ s.readyOf w = Ps.map fun P => ⟨w, T.width, P⟩ := by
  unfold State.readyOf
  split
  · exact .inl rfl
  · next W hW =>
    split
    · exact .inl rfl
    · next T hT =>
      split
      · exact .inl rfl
      · exact .inr ⟨W, T, _, hW, hT, List.filter_sublist, rfl⟩

/-- A ready path is of a warp of the wing, and one that may start. -/
theorem mem_readyPaths (h : o ∈ s.readyPaths core wing) : 48 * core + 12 * wing ≤ o.w ∧ o.w < 48 * core + 12 * wing + 12 ∧
    ∃ W T, s.warp o.w = some W ∧ s.team W.team = some T ∧ o.width = T.width ∧ o.P ∈ W.mayStart := by
  rw [readyPaths_eq] at h
  obtain ⟨w, hw, ho⟩ := List.mem_flatMap.mp h
  obtain ⟨hlo, hhi⟩ := List.mem_range'_1.mp hw
  rcases readyOf_eq s w with hnil | ⟨W, T, Ps, hW, hT, hsub, hmap⟩
  · rw [hnil] at ho; cases ho
  · rw [hmap] at ho
    obtain ⟨P, hP, rfl⟩ := List.mem_map.mp ho
    exact ⟨hlo, hhi, W, T, hW, hT, rfl, hsub.subset hP⟩

theorem mayStart_sublist (W : Warp) : W.mayStart.Sublist W.paths := by
  unfold Warp.mayStart
  split
  · exact List.filter_sublist
  · exact List.Sublist.refl _

/-- Where a path of the warp is inside its scene, only such paths may start (01 R20). -/
theorem mayStart_inside {W : Warp} {P Q : Path} (hP : P ∈ W.mayStart) (hQ : Q ∈ W.paths) (hi : Q.inside = true) : P.inside = true := by
  unfold Warp.mayStart at hP
  rw [if_pos (List.any_eq_true.mpr ⟨Q, hQ, hi⟩)] at hP
  exact (List.mem_filter.mp hP).2

/-- Ready paths of one warp have its team's width. -/
theorem ready_width {p : Cand} (ho : o ∈ s.readyPaths core wing) (hp : p ∈ s.readyPaths core wing) (hw : o.w = p.w) :
    o.width = p.width := by
  obtain ⟨_, _, W, T, hW, hT, hwidth, _⟩ := mem_readyPaths ho
  obtain ⟨_, _, W', T', hW', hT', hwidth', _⟩ := mem_readyPaths hp
  rw [hw, hW'] at hW
  cases hW
  rw [hT'] at hT
  cases hT
  rw [hwidth, hwidth']

/-- The warp and the lowest lane of a path. -/
def Cand.key (o : Cand) : Nat × Nat := (o.w, lowest o.P.lanes)

theorem readyOf_keys (s : State) (w : Nat) : ∀ k ∈ (s.readyOf w).map Cand.key, k.1 = w := by
  intro k hk
  obtain ⟨o, ho, rfl⟩ := List.mem_map.mp hk
  rcases readyOf_eq s w with hnil | ⟨_, _, _, _, _, _, hmap⟩
  · rw [hnil] at ho; cases ho
  · rw [hmap] at ho
    obtain ⟨P, _, rfl⟩ := List.mem_map.mp ho
    rfl

/-- Where the paths of every warp have lowest lanes of their own, the ready paths have keys of their own. -/
theorem ready_keys_nodup (h : ∀ v U, s.warp v = some U → (U.paths.map fun P => lowest P.lanes).Nodup) :
    ((s.readyPaths core wing).map Cand.key).Nodup := by
  rw [readyPaths_eq, List.map_flatMap, List.nodup_flatMap]
  constructor
  · intro w _
    rcases readyOf_eq s w with hnil | ⟨W, T, Ps, hW, _, hsub, hmap⟩
    · rw [hnil]; exact List.nodup_nil
    · have hn := ((h w W hW).sublist ((hsub.trans (mayStart_sublist W)).map fun P => lowest P.lanes)).map (Prod.mk_right_injective w)
      rw [List.map_map] at hn
      rw [hmap, List.map_map]
      exact hn
  · refine List.Pairwise.imp (fun {v w} hne k hv hw => ?_) (List.nodup_range' (s := 48 * core + 12 * wing) (n := 12))
    exact hne ((readyOf_keys s v k hv).symm.trans (readyOf_keys s w k hw))

/-! ## The choice (05 R141) -/

/-- A ready path whose part of the wing is free. -/
def State.mayRun (s : State) (core wing : Nat) (o : Cand) : Prop :=
  o ∈ s.readyPaths core wing ∧ partOf o.w o.width &&& s.heldPart core wing = 0

/-- A path wider than a half and with a full counter comes first of all ready paths and waits for the other half. -/
def State.wideWaits (s : State) (core wing : Nat) : Prop :=
  ∃ f ∈ s.readyPaths core wing, (∀ o ∈ s.readyPaths core wing, ¬ o.first f) ∧ f.P.age = 16 ∧ 32 ≤ f.width ∧
    partOf f.w f.width &&& s.heldPart core wing ≠ 0

theorem partsMeet_iff (a b : Nat) : partsMeet a b = true ↔ a &&& b ≠ 0 := decide_eq_true_iff

theorem pick_wide (h : s.wideWaits core wing) : s.pick core wing = none := by
  obtain ⟨f, hf, hmin, hage, hwidth, hpart⟩ := h
  unfold State.pick
  cases hg : firstCand (s.readyPaths core wing) with
  | none => rw [firstCand_eq_none.mp hg] at hf; cases hf
  | some g =>
    obtain ⟨hgm, hgmin⟩ := firstCand_spec hg
    obtain ⟨hfull, hw⟩ := Cand.eq_of_not_first (hmin g hgm) (hgmin f hf)
    have hwd := ready_width hgm hf hw
    simp [hg, hfull.mpr hage, hw, hwd, hwidth, (partsMeet_iff _ _).mpr hpart]

theorem pick_narrow (h : ¬ s.wideWaits core wing) :
    s.pick core wing = firstCand ((s.readyPaths core wing).filter fun c => !partsMeet (partOf c.w c.width) (s.heldPart core wing)) := by
  unfold State.pick
  cases hg : firstCand (s.readyPaths core wing) with
  | none => simp only [hg, Bool.false_eq_true, if_false]
  | some g =>
    obtain ⟨hgm, hgmin⟩ := firstCand_spec hg
    simp only [hg]
    refine if_neg fun hc => h ?_
    simp only [Bool.and_eq_true, decide_eq_true_eq, partsMeet_iff] at hc
    obtain ⟨⟨hage, hwidth⟩, hpart⟩ := hc
    exact ⟨g, hgm, hgmin, hage, hwidth, hpart⟩

theorem mem_filter_mayRun : o ∈ ((s.readyPaths core wing).filter fun c => !partsMeet (partOf c.w c.width) (s.heldPart core wing)) ↔
    s.mayRun core wing o := by
  simp [State.mayRun, List.mem_filter, partsMeet]

/-- No path starts where the first waits for a half or none may run. -/
theorem pick_eq_none : s.pick core wing = none ↔ s.wideWaits core wing ∨ ∀ o, ¬ s.mayRun core wing o := by
  by_cases h : s.wideWaits core wing
  · simp [h, pick_wide h]
  · rw [pick_narrow h, firstCand_eq_none, List.eq_nil_iff_forall_not_mem]
    simp only [mem_filter_mayRun, h, false_or]

/-- The path that starts may run, and none that may run comes before it. -/
theorem pick_spec {c : Cand} (h : s.pick core wing = some c) : s.mayRun core wing c ∧ ∀ o, s.mayRun core wing o → ¬ o.first c := by
  have hn : ¬ s.wideWaits core wing := fun hc => by rw [pick_wide hc] at h; cases h
  rw [pick_narrow hn] at h
  obtain ⟨hm, hmin⟩ := firstCand_spec h
  exact ⟨mem_filter_mayRun.mp hm, fun o ho => hmin o (mem_filter_mayRun.mpr ho)⟩

end

end Sys2Proof.Machine
end

section
/-! SCENE_START: what counting a start against the other ready paths of the wing changes, and what the start of the chosen one
does. -/

namespace Sys2Proof.Machine

/-! ## Paths by warp and lowest lane -/

/-- The path of warp `w` whose lowest lane is `r`. -/
def State.pathAt (s : State) (w r : Nat) : Option Path := (s.warp w).bind (·.path r)

theorem pathAt_eq {s : State} {w : Nat} {W : Warp} (h : s.warp w = some W) (r : Nat) : s.pathAt w r = W.path r := by
  simp [State.pathAt, h]

theorem pathAt_modPath (s : State) (w r : Nat) {g : Path → Path} (hg : ∀ P, (g P).lanes = P.lanes) (v q : Nat) :
    (s.modWarp w fun W => W.modPath r g).pathAt v q = if v = w ∧ q = r then (s.pathAt v q).map g else s.pathAt v q := by
  unfold State.pathAt
  rw [State.modWarp_warp]
  by_cases hv : v = w
  · cases hW : s.warp v with
    | none => simp [hv]
    | some W => simp [hv, path_modPath W r g hg]
  · simp [hv]

/-- Where the paths of a warp have lowest lanes of their own, each is the path of its lowest lane. -/
theorem path_of_mem {W : Warp} (hn : (W.paths.map fun P => lowest P.lanes).Nodup) {P : Path} (hP : P ∈ W.paths) :
    W.path (lowest P.lanes) = some P := by
  cases h : W.path (lowest P.lanes) with
  | none => exact absurd (List.find?_eq_none.mp h P hP) (by simp)
  | some Q => rw [List.inj_on_of_nodup_map hn (path_mem h) hP (path_low h)]

/-! ## Ageing counters (05 R140) -/

/-- A path but for its ageing counter. -/
def Path.unaged (P : Path) : Path := { P with age := 0, full := 0 }

/-- One more start counted against a path, which is numbered `f` where that fills its counter. -/
def Path.aged (f : Nat) (P : Path) : Path := { P with age := min 16 (P.age + 1), full := if P.age = 15 then f else P.full }

/-- Two states differ at most in ageing counters. -/
def SameButAges (s t : State) : Prop :=
  t = { s with warps := t.warps } ∧
  (∀ v, (t.warp v).map (fun V => (V.body, V.running)) = (s.warp v).map fun V => (V.body, V.running)) ∧
  ∀ v r, (t.pathAt v r).map Path.unaged = (s.pathAt v r).map Path.unaged

theorem SameButAges.refl (s : State) : SameButAges s s := ⟨rfl, fun _ => rfl, fun _ _ => rfl⟩

theorem SameButAges.trans {s t u : State} (h : SameButAges s t) (k : SameButAges t u) : SameButAges s u := by
  obtain ⟨h1, h2, h3⟩ := h
  obtain ⟨k1, k2, k3⟩ := k
  exact ⟨by rw [k1, h1], fun v => (k2 v).trans (h2 v), fun v r => (k3 v r).trans (h3 v r)⟩

theorem modWarp_frame (s : State) (w : Nat) (f : Warp → Warp) : s.modWarp w f = { s with warps := (s.modWarp w f).warps } := by
  unfold State.modWarp
  split <;> rfl

theorem aged_lanes (f : Nat) (P : Path) : (P.aged f).lanes = P.lanes := rfl

theorem pathAt_aged (f : Nat) (s : State) (w r v q : Nat) : (s.modWarp w fun W => W.modPath r (Path.aged f)).pathAt v q =
    if v = w ∧ q = r then (s.pathAt v q).map (Path.aged f) else s.pathAt v q :=
  pathAt_modPath s w r (aged_lanes f) v q

theorem sameButAges_aged (f w r : Nat) (s : State) : SameButAges s (s.modWarp w fun W => W.modPath r (Path.aged f)) := by
  refine ⟨modWarp_frame _ _ _, fun v => ?_, fun v q => ?_⟩
  · rw [State.modWarp_warp]
    split
    · rw [Option.map_map]; rfl
    · rfl
  · rw [pathAt_aged]
    split
    · rw [Option.map_map]; rfl
    · rfl

/-- A start of `c` counted against `o`, where it takes a part that `o` needs. -/
def State.ageOne (f : Nat) (c : Cand) (s : State) (o : Cand) : State :=
  if decide (o = c) || !partsMeet (partOf o.w o.width) (partOf c.w c.width) then s
  else s.modWarp o.w fun W => W.modPath (lowest o.P.lanes) (Path.aged f)

theorem ageOthers_eq (s : State) (f : Nat) (cs : List Cand) (c : Cand) : s.ageOthers f cs c = cs.foldl (State.ageOne f c) s := rfl

theorem sameButAges_ageOthers (f : Nat) (c : Cand) : ∀ (cs : List Cand) (s : State), SameButAges s (s.ageOthers f cs c)
  | [], s => SameButAges.refl s
  | o :: cs, s => by
    rw [ageOthers_eq, List.foldl_cons]
    refine SameButAges.trans ?_ (sameButAges_ageOthers f c cs _)
    unfold State.ageOne
    split
    · exact SameButAges.refl s
    · exact sameButAges_aged _ _ _ _

theorem ageOne_other (f : Nat) (c : Cand) (s : State) {o p : Cand} (h : o.key ≠ p.key) :
    (State.ageOne f c s o).pathAt p.w (lowest p.P.lanes) = s.pathAt p.w (lowest p.P.lanes) := by
  unfold State.ageOne
  split
  · rfl
  · rw [pathAt_aged, if_neg fun ⟨h1, h2⟩ => h (Prod.ext h1.symm h2.symm)]

theorem ageOne_same (f : Nat) {c : Cand} (s : State) {o : Cand} (h : o ≠ c) :
    (State.ageOne f c s o).pathAt o.w (lowest o.P.lanes) = if partOf o.w o.width &&& partOf c.w c.width = 0
      then s.pathAt o.w (lowest o.P.lanes) else (s.pathAt o.w (lowest o.P.lanes)).map (Path.aged f) := by
  unfold State.ageOne
  by_cases hp : partOf o.w o.width &&& partOf c.w c.width = 0
  · simp [partsMeet, hp]
  · rw [if_neg (by simp [partsMeet, hp, h]), if_neg hp, pathAt_aged, if_pos ⟨rfl, rfl⟩]

theorem ageOthers_untouched (f : Nat) (c : Cand) {p : Cand} : ∀ (cs : List Cand) (s : State), p.key ∉ cs.map Cand.key →
    (cs.foldl (State.ageOne f c) s).pathAt p.w (lowest p.P.lanes) = s.pathAt p.w (lowest p.P.lanes)
  | [], _, _ => rfl
  | o :: cs, s, h => by
    rw [List.map_cons, List.mem_cons, not_or] at h
    rw [List.foldl_cons, ageOthers_untouched f c cs _ h.2, ageOne_other f c s (Ne.symm h.1)]

/-- Each ready path but the one that starts is counted once. -/
theorem ageOthers_once (f : Nat) {c o : Cand} (hc : o ≠ c) (cs : List Cand) (s : State) (hn : (cs.map Cand.key).Nodup) (ho : o ∈ cs) :
    (cs.foldl (State.ageOne f c) s).pathAt o.w (lowest o.P.lanes) = if partOf o.w o.width &&& partOf c.w c.width = 0
      then s.pathAt o.w (lowest o.P.lanes) else (s.pathAt o.w (lowest o.P.lanes)).map (Path.aged f) := by
  induction cs generalizing s with
  | nil => cases ho
  | cons p cs ih =>
    rw [List.map_cons, List.nodup_cons] at hn
    obtain ⟨hp, hn⟩ := hn
    rw [List.foldl_cons]
    rcases List.mem_cons.mp ho with rfl | ho
    · rw [ageOthers_untouched f c cs _ hp, ageOne_same f s hc]
    · have hk : p.key ≠ o.key := fun h => hp (h ▸ List.mem_map_of_mem ho)
      rw [ih _ hn ho, ageOne_other f c s hk]

/-! ## The number of a counter that fills (05 R141) -/

section
variable {α : Type} {g : Nat → α → Nat}

theorem le_foldl_init (hg : ∀ n a, n ≤ g n a) : ∀ (l : List α) (n : Nat), n ≤ l.foldl g n
  | [], n => Nat.le_refl n
  | a :: l, n => (hg n a).trans (le_foldl_init hg l _)

theorem le_foldl_mem (hg : ∀ n a, n ≤ g n a) {a : α} {b : Nat} (hb : ∀ n, b ≤ g n a) : ∀ (l : List α) (n : Nat), a ∈ l → b ≤ l.foldl g n
  | c :: l, n, ha => by
    rcases List.mem_cons.mp ha with rfl | ha
    · exact (hb n).trans (le_foldl_init hg l _)
    · exact le_foldl_mem hg hb l _ ha

end

theorem le_fullest (ps : List Path) (n : Nat) : n ≤ ps.foldl (fun n P => max n P.full) n :=
  le_foldl_init (fun n P => Nat.le_max_left n P.full) ps n

/-- It is greater than that of every path of the wing. -/
theorem full_lt_nextFull {s : State} {core wing v : Nat} {V : Warp} {P : Path} (hlo : 48 * core + 12 * wing ≤ v)
    (hhi : v < 48 * core + 12 * wing + 12) (hV : s.warp v = some V) (hP : P ∈ V.paths) : P.full < s.nextFull core wing := by
  refine Nat.lt_succ_of_le (le_foldl_mem (fun n w => ?_) (fun n => ?_) _ 0 (List.mem_range'_1.mpr ⟨hlo, hhi⟩))
  · split
    · exact le_fullest _ n
    · exact Nat.le_refl n
  · simp only [hV]
    exact le_foldl_mem (fun n P => Nat.le_max_left n P.full) (fun n => Nat.le_max_right n P.full) _ n hP

/-! ## The start -/

/-- A path whose scene starts, or goes on. -/
def Path.started (P : Path) : Path := { P with age := 0, full := 0, block := none, scene := some (P.scene.getD ⟨0, []⟩) }

theorem started_unaged (P : Path) : P.unaged.started = P.started := rfl

/-- The warp of a path whose scene starts. -/
def Warp.started (W : Warp) (c : Cand) : Warp :=
  { W.modPath (lowest c.P.lanes) Path.started with
    running := some (lowest c.P.lanes), seq := if c.P.scene.isSome then W.seq else W.seq + 1 }

theorem started_path (W : Warp) (c : Cand) (r : Nat) :
    (W.started c).path r = if r = lowest c.P.lanes then (W.path r).map Path.started else W.path r :=
  path_modPath W _ Path.started (fun _ => rfl) r

theorem startScene_spec {u : State} {c : Cand} {U : Warp} {T : Team} (hU : u.warp c.w = some U) (hT : u.team U.team = some T) :
    ∃ l, u.startScene c = ({ u with l1 := l } : State).setWarp c.w (U.started c) ∧
      ∀ L, L ∈ l ↔ L ∈ u.l1 ∧ ¬ ((∃ ids, c.P.block = some (.cwait ids)) ∧ L.core = c.w / 48 ∧ L.ctx = T.ctx) := by
  unfold State.startScene
  simp only [hU, hT]
  split
  · next T' ids hT' hb =>
    cases hT'
    have hdrop : (u.l1Drop (coreOf c.w) fun e => decide (e.ctx = T.ctx)).warp c.w = some U := hU
    refine ⟨(u.l1Drop (coreOf c.w) fun e => decide (e.ctx = T.ctx)).l1, State.modWarp_eq hdrop _, fun L => ?_⟩
    by_cases hL : L.core = c.w / 48 <;> simp [State.l1Drop, List.mem_filter, hb, coreOf, hL]
  · next hno =>
    refine ⟨u.l1, State.modWarp_eq hU _, fun L => ?_⟩
    have : ¬ ∃ ids, c.P.block = some (.cwait ids) := fun ⟨ids, h⟩ => hno T ids rfl h
    simp [this]

/-! ## SCENE_START -/

section
variable {s : State} {core wing : Nat} {c : Cand} {W : Warp} {T : Team}

theorem sceneStart_none (hc : core < coreCount s.dcmap) (hw : wing < 4) (h : s.pick core wing = none) :
    exec (.sceneStart core wing) s = .next s := by
  refine congrArg Host.Outcome.next ((if_pos ⟨hc, hw⟩).trans ?_)
  rw [h]

theorem sceneStart_some (hc : core < coreCount s.dcmap) (hw : wing < 4) (h : s.pick core wing = some c) :
    exec (.sceneStart core wing) s = .next { (s.ageOthers (s.nextFull core wing) (s.readyPaths core wing) c).startScene c with cur := c.w } := by
  refine congrArg Host.Outcome.next ((if_pos ⟨hc, hw⟩).trans ?_)
  rw [h]

/-- A start of `c` in `u`, the state after the counting, gives `t`: what it changes of `s`. -/
theorem start_spec {u : State} {T : Team} (hu : SameButAges s u) (hW : s.warp c.w = some W) (hT : s.team W.team = some T)
    (hP : W.path (lowest c.P.lanes) = some c.P) : ∃ (t : State) (V : Warp), { u.startScene c with cur := c.w } = t ∧
      t = { s with warps := t.warps, l1 := t.l1, cur := c.w } ∧ t.warp c.w = some V ∧
      V = { W with paths := V.paths, running := some (lowest c.P.lanes), seq := if c.P.scene = none then W.seq + 1 else W.seq } ∧
      V.path (lowest c.P.lanes) = some c.P.started ∧
      (∀ v r, ¬ (v = c.w ∧ r = lowest c.P.lanes) → t.pathAt v r = u.pathAt v r) ∧
      (∀ v, v ≠ c.w → t.warp v = u.warp v) ∧
      ∀ L, L ∈ t.l1 ↔ L ∈ s.l1 ∧ ¬ ((∃ ids, c.P.block = some (.cwait ids)) ∧ L.core = c.w / 48 ∧ L.ctx = T.ctx) := by
  obtain ⟨hframe, hbody, hpaths⟩ := hu
  have hb := hbody c.w
  rw [hW, Option.map_some, Option.map_eq_some_iff] at hb
  obtain ⟨U, hU, hUW⟩ := hb
  have hUW : U.body = W.body := (Prod.mk.inj hUW).1
  have hUW : U = { W with paths := U.paths, running := U.running } := by
    have := congrArg (fun B : Warp => { B with paths := U.paths, running := U.running }) hUW
    exact this
  have hteam : u.team U.team = some T := by rw [hUW, hframe]; exact hT
  obtain ⟨l, hl, hmem⟩ := startScene_spec hU hteam
  have hwarp : ∀ v, State.warp { u.startScene c with cur := c.w } v = if v = c.w then some (U.started c) else u.warp v := fun v => by
    rw [hl]
    exact State.setWarp_warp _ _ _ v
  refine ⟨{ u.startScene c with cur := c.w }, U.started c, rfl, ?_, (hwarp _).trans (if_pos rfl), ?_, ?_, fun v r hne => ?_,
    fun v hv => (hwarp v).trans (if_neg hv), fun L => ?_⟩
  · rw [hl, hframe]; rfl
  · have hseq : (if c.P.scene.isSome then U.seq else U.seq + 1) = if c.P.scene = none then W.seq + 1 else W.seq := by
      rw [hUW]
      cases c.P.scene <;> rfl
    unfold Warp.started
    rw [hseq, hUW]
    rfl
  · have hp := hpaths c.w (lowest c.P.lanes)
    rw [pathAt_eq hU, pathAt_eq hW, hP, Option.map_some, Option.map_eq_some_iff] at hp
    obtain ⟨P, hUP, hun⟩ := hp
    rw [started_path, if_pos rfl, hUP, Option.map_some, ← started_unaged P, hun, started_unaged]
  · unfold State.pathAt
    rw [hwarp]
    by_cases hv : v = c.w
    · rw [if_pos hv, hv, hU, Option.bind_some, Option.bind_some, started_path, if_neg fun h => hne ⟨hv, h⟩]
    · rw [if_neg hv]
  · rw [hl]
    refine (hmem L).trans ?_
    rw [hframe]

/-- The path of a ready candidate. -/
theorem ready_pathAt (hn : ∀ v U, s.warp v = some U → (U.paths.map fun P => lowest P.lanes).Nodup) {o : Cand}
    (ho : o ∈ s.readyPaths core wing) : s.pathAt o.w (lowest o.P.lanes) = some o.P := by
  obtain ⟨_, _, W, _, hW, _, _, hP⟩ := mem_readyPaths ho
  rw [pathAt_eq hW]
  exact path_of_mem (hn o.w W hW) ((mayStart_sublist W).subset hP)

/-- A ready path but the one that starts is counted against, once, where the start takes a part it needs. -/
theorem counted_spec (hn : ∀ v U, s.warp v = some U → (U.paths.map fun P => lowest P.lanes).Nodup) {o : Cand}
    (ho : o ∈ s.readyPaths core wing) (hc : o ≠ c) :
    (s.ageOthers (s.nextFull core wing) (s.readyPaths core wing) c).pathAt o.w (lowest o.P.lanes) =
      some (if partOf o.w o.width &&& partOf c.w c.width = 0 then o.P else o.P.aged (s.nextFull core wing)) := by
  rw [ageOthers_eq, ageOthers_once _ hc _ _ (ready_keys_nodup hn) ho, ready_pathAt hn ho]
  split <;> rfl

theorem start_others (hn : ∀ v U, s.warp v = some U → (U.paths.map fun P => lowest P.lanes).Nodup) {o : Cand} {t : State}
    (ho : o ∈ s.readyPaths core wing) (hready : c ∈ s.readyPaths core wing) (hc : o ≠ c)
    (ht : ∀ v r, ¬ (v = c.w ∧ r = lowest c.P.lanes) →
      t.pathAt v r = (s.ageOthers (s.nextFull core wing) (s.readyPaths core wing) c).pathAt v r) :
    ∃ U Q, t.warp o.w = some U ∧ U.path (lowest o.P.lanes) = some Q ∧
      Q.age = (if partOf o.w o.width &&& partOf c.w c.width = 0 then o.P.age else min 16 (o.P.age + 1)) ∧
      (o.P.age = 15 → Q.age = 16 → ∀ v V P, v / 12 = o.w / 12 → s.warp v = some V → P ∈ V.paths → P.full < Q.full) := by
  have hkey : ¬ (o.w = c.w ∧ lowest o.P.lanes = lowest c.P.lanes) := fun ⟨h1, h2⟩ =>
    hc (List.inj_on_of_nodup_map (ready_keys_nodup hn) ho hready (Prod.ext h1 h2))
  have hp := (ht _ _ hkey).trans (counted_spec hn ho hc)
  obtain ⟨U, hU, hQ⟩ := Option.bind_eq_some_iff.mp hp
  refine ⟨U, _, hU, hQ, ?_, fun h15 h16 v V P hv hV hP => ?_⟩
  · split <;> rfl
  · obtain ⟨hlo, hhi, _⟩ := mem_readyPaths ho
    split at h16
    · omega
    · next hpart =>
      rw [if_neg hpart]
      unfold Path.aged
      dsimp only
      rw [if_pos h15]
      exact full_lt_nextFull (by omega) (by omega) hV hP

end

end Sys2Proof.Machine
end

section
/-! The events of a module (O49): scene starts, the ends of YIELD and MONWAIT, lost monitors, fetch faults, wear and throttling. -/

namespace Sys2Proof.Machine

/-! ## MONWAIT (11 R272) -/

/-- The monitor of a lane has fired. -/
def Warp.hit (W : Warp) (l : Nat) : Bool := match tget none W.mon l with | some m => m.fired | none => false

/-- A register write in each lane of a list, unless there is none to make (`n`). -/
def Warp.setRegs (W : Warp) (n : Bool) (ls : List Nat) (d : Nat) (v : Nat → Word) : Warp :=
  ls.foldl (fun W l => if n then W else W.setReg l d (v l)) W

/-- A warp whose path `P` wakes from MONWAIT. -/
def Warp.monWoken (W : Warp) (P : Path) (n : Bool) (d : Nat) : Warp :=
  { W.setRegs n (lanesOf P.lanes) d (fun l => if W.hit l then 1 else 0) with
    mon := (lanesOf P.lanes).foldl (fun m l => tput none m l none) (W.setRegs n (lanesOf P.lanes) d fun l => if W.hit l then 1 else 0).mon
  }.modPath (lowest P.lanes) fun P => { P with block := none }

section
variable {W : Warp} {force : Path → Bool} {P : Path} {n : Bool}

theorem wakePath_forced {lim d} (hP : W.path (lowest P.lanes) = some P) (hb : P.block = some (.monwait lim n d)) (hf : force P = true) :
    W.wakePath force (lowest P.lanes) = W.monWoken P n d.toNat := by
  unfold Warp.wakePath
  simp only [hP, hb]
  rw [if_pos (by rw [hf]; rfl)]
  rfl

/-- Where one path alone waits in MONWAIT, waking the warp wakes that path. -/
theorem wakeMon_one (hP : P ∈ W.paths) (hf : ∀ r, r ≠ lowest P.lanes → W.wakePath force r = W)
    (hw : (W.wakePath force (lowest P.lanes)).noMonwait) : W.wakeMon force = W.wakePath force (lowest P.lanes) := by
  have hdone : ∀ rs : List Nat, rs.foldl (Warp.wakePath force) (W.wakePath force (lowest P.lanes)) = W.wakePath force (lowest P.lanes) := by
    intro rs
    induction rs with
    | nil => rfl
    | cons r rs ih =>
      rw [List.foldl_cons, (wakePath_spec force _ r).2.2 fun Q hQ => hw Q (path_mem hQ)]
      exact ih
  have hfold : ∀ rs : List Nat, lowest P.lanes ∈ rs → rs.foldl (Warp.wakePath force) W = W.wakePath force (lowest P.lanes) := by
    intro rs
    induction rs with
    | nil => exact fun h => nomatch h
    | cons r rs ih =>
      intro h
      rw [List.foldl_cons]
      by_cases hr : r = lowest P.lanes
      · rw [hr]; exact hdone rs
      · rw [hf r hr]
        exact ih ((List.mem_cons.mp h).resolve_left (Ne.symm hr))
  exact hfold _ (List.mem_map_of_mem hP)

theorem setRegs_spec (n : Bool) {d : Nat} (hd : d < 128) (v : Nat → Word) : ∀ (ls : List Nat) (W : Warp),
    W.setRegs n ls d v = { W with v := (W.setRegs n ls d v).v } ∧
    ∀ l r, r < 128 → (W.setRegs n ls d v).reg l r = if n = false ∧ l ∈ ls ∧ r = d then v l else W.reg l r
  | [], W => ⟨rfl, fun l r _ => by simp [Warp.setRegs]⟩
  | a :: ls, W => by
    obtain ⟨hframe, hreg⟩ := setRegs_spec n hd v ls (if n then W else W.setReg a d (v a))
    have hstep : W.setRegs n (a :: ls) d v = (if n then W else W.setReg a d (v a)).setRegs n ls d v := rfl
    rw [hstep]
    cases n with
    | true => exact ⟨hframe, fun l r hr => (hreg l r hr).trans (by simp)⟩
    | false =>
      refine ⟨hframe, fun l r hr => (hreg l r hr).trans ?_⟩
      have hone : (W.setReg a d (v a)).reg l r = if l = a ∧ r = d then v a else W.reg l r := setReg_reg W a d (v a) hd hr
      simp only [Bool.false_eq_true, if_false, hone, true_and, List.mem_cons]
      by_cases hl : l ∈ ls
      · by_cases hrd : r = d <;> simp [hl, hrd]
      · by_cases hla : l = a
        · subst hla; simp [hl]
        · simp [hl, hla]

/-- What waking a path changes of its warp. -/
theorem monWoken_spec (W : Warp) (P : Path) (n : Bool) {d : Nat} (hd : d < 128) :
    W.monWoken P n d = { W with
      v := (W.monWoken P n d).v, mon := (W.monWoken P n d).mon
      paths := W.paths.map fun Q => if lowest Q.lanes = lowest P.lanes then { Q with block := none } else Q } ∧
    (∀ l r, r < 128 → (W.monWoken P n d).reg l r =
      if n = false ∧ l ∈ lanesOf P.lanes ∧ r = d then (if W.hit l then 1 else 0) else W.reg l r) ∧
    ∀ l, tget none (W.monWoken P n d).mon l = if l ∈ lanesOf P.lanes then none else tget none W.mon l := by
  obtain ⟨hframe, hreg⟩ := setRegs_spec n hd (fun l => if W.hit l then 1 else 0) (lanesOf P.lanes) W
  refine ⟨?_, hreg, fun l => ?_⟩
  · unfold Warp.monWoken Warp.modPath
    rw [hframe]
  · refine (foldl_tput_get none (fun _ => none) (lanesOf P.lanes) _ l).trans ?_
    rw [hframe]

/-- Where `P` alone waits in MONWAIT and is told to wake, waking the warp wakes it. -/
theorem wakeMon_forced {lim d} (hP : P ∈ W.paths) (hb : P.block = some (.monwait lim n d))
    (ho : ∀ Q ∈ W.paths, Q = P ∨ (lowest Q.lanes ≠ lowest P.lanes ∧ ∀ t n d, Q.block ≠ some (.monwait t n d)))
    (hf : force P = true) : W.wakeMon force = W.monWoken P n d.toNat := by
  have hpath : W.path (lowest P.lanes) = some P := by
    cases h : W.path (lowest P.lanes) with
    | none => exact absurd (List.find?_eq_none.mp h P hP) (by simp)
    | some Q => exact congrArg some ((ho Q (path_mem h)).resolve_right fun hq => hq.1 (path_low h))
  have hwoken := wakePath_forced hpath hb hf
  refine (wakeMon_one hP (fun r hr => (wakePath_spec _ W r).2.2 fun Q hQ => ?_) ?_).trans hwoken
  · exact ((ho Q (path_mem hQ)).resolve_left fun hq => hr (hq ▸ (path_low hQ).symm)).2
  · rw [hwoken, (monWoken_spec W P n d.isLt).1]
    intro Q' hQ'
    obtain ⟨Q, hQ, rfl⟩ := List.mem_map.mp hQ'
    rcases ho Q hQ with rfl | ⟨hne, hno⟩
    · simp
    · rwa [if_neg hne]

end

/-! ## Bits of a die -/

theorem getLsbD_dieBit {die j : Nat} (hj : j < 16) : (BitVec.ofNat 16 (2 ^ die)).getLsbD j = decide (die = j) := by
  rw [BitVec.getLsbD_ofNat, Nat.testBit_two_pow]
  simp [hj]

/-! ## The obligation -/

section
variable {s : State} {core wing w lane : Nat}

theorem sceneStart_spec (hc : core < coreCount s.dcmap) (hw : wing < 4) {c : Cand} {W : Warp} {T : Team} (h : s.pick core wing = some c)
    (hW : s.warp c.w = some W) (hT : s.team W.team = some T) (hP : W.path (lowest c.P.lanes) = some c.P) :
    ∃ t V, exec (.sceneStart core wing) s = .next t ∧ t = { s with warps := t.warps, l1 := t.l1, cur := c.w } ∧
      t.warp c.w = some V ∧
      V = { W with paths := V.paths, running := some (lowest c.P.lanes), seq := if c.P.scene = none then W.seq + 1 else W.seq } ∧
      V.path (lowest c.P.lanes) = some c.P.started ∧
      (∀ v r, ¬ (v = c.w ∧ r = lowest c.P.lanes) → (t.pathAt v r).map Path.unaged = (s.pathAt v r).map Path.unaged) ∧
      (∀ v, v ≠ c.w → (t.warp v).map (fun V => (V.body, V.running)) = (s.warp v).map fun V => (V.body, V.running)) ∧
      ((∀ v U, s.warp v = some U → (U.paths.map fun P => lowest P.lanes).Nodup) → ∀ o ∈ s.readyPaths core wing, o ≠ c →
        ∃ U Q, t.warp o.w = some U ∧ U.path (lowest o.P.lanes) = some Q ∧
          Q.age = (if partOf o.w o.width &&& partOf c.w c.width = 0 then o.P.age else min 16 (o.P.age + 1)) ∧
          (o.P.age = 15 → Q.age = 16 → ∀ v V P, v / 12 = o.w / 12 → s.warp v = some V → P ∈ V.paths → P.full < Q.full)) ∧
      (∀ L, L ∈ t.l1 ↔ L ∈ s.l1 ∧ ¬ ((∃ ids, c.P.block = some (.cwait ids)) ∧ L.core = c.w / 48 ∧ L.ctx = T.ctx)) := by
  have hu := sameButAges_ageOthers (s.nextFull core wing) c (s.readyPaths core wing) s
  obtain ⟨t, V, ht, hframe, hV, hVW, hpath, hothers, hwarps, hl1⟩ := start_spec hu hW hT hP
  obtain ⟨_, hbody, hun⟩ := hu
  refine ⟨t, V, ht ▸ sceneStart_some hc hw h, hframe, hV, hVW, hpath, fun v r hne => ?_, fun v hv => ?_, fun hn o ho hoc => ?_, hl1⟩
  · rw [hothers v r hne]; exact hun v r
  · rw [hwarps v hv]; exact hbody v
  · exact start_others hn ho (pick_spec h).1.1 hoc hothers

theorem yieldWake_spec {W : Warp} (hW : s.warp w = some W) : ∃ V, exec (.yieldWake w lane) s = .next (s.setWarp w V) ∧ V = { W with
    paths := W.paths.map fun P => match P.block with
      | some (.yield t) => if lowest P.lanes = lane ∧ t ≤ s.clockOf (w / 48) then { P with block := none } else P
      | _ => P } := by
  refine ⟨_, congrArg Host.Outcome.next (State.modWarp_eq hW _), ?_⟩
  unfold Warp.modPath
  refine congrArg (fun ps => { W with paths := ps }) (List.map_congr_left fun P _ => ?_)
  obtain ⟨lanes, pc, age, full, block, scene, wait, done, skid, stop, count, got⟩ := P
  cases block with
  | none => exact ite_self _
  | some b =>
    cases b with
    | yield t => exact (ite_and ..).symm
    | _ => exact ite_self _

theorem monwaitTimeout_spec {W : Warp} {P : Path} {lim : Nat} {n : Bool} {d} (hW : s.warp w = some W) (hP : P ∈ W.paths)
    (hlow : lowest P.lanes = lane) (hb : P.block = some (.monwait (some lim) n d))
    (ho : ∀ Q ∈ W.paths, Q = P ∨ (lowest Q.lanes ≠ lane ∧ ∀ t n d, Q.block ≠ some (.monwait t n d)))
    (hlim : lim ≤ s.clockOf (w / 48)) : exec (.monwaitTimeout w lane) s = .next (s.setWarp w (W.monWoken P n d.toNat)) := by
  subst hlow
  refine congrArg Host.Outcome.next ((State.modWarp_eq hW _).trans (congrArg _ (wakeMon_forced hP hb ho ?_)))
  simp [hb, coreOf, hlim]

theorem monitorLost_spec {W : Warp} {m : Monitor} (hW : s.warp w = some W) (hm : tget none W.mon lane = some m) (hn : W.noMonwait) :
    exec (.monitorLost w lane) s = .next (s.setWarp w { W with mon := tput none W.mon lane (some { m with fired := true }) }) := by
  refine congrArg Host.Outcome.next ((State.modWarp_eq hW _).trans (congrArg _ ?_))
  rw [hm]
  exact (wakeMon_spec _ _).2 hn

theorem fetchFault_eq {x : Ix} (cause : Nat) (va : DWord) (h : s.issuing = some x) : exec (.instructionFetchFault cause va) s =
    .next (raise x s ⟨14, cause, 1, false, none, true⟩ ⟨14, cause, va.toNat, 2, 0, none⟩) := by
  change execInstructionFetchFault cause va s = _
  unfold execInstructionFetchFault
  rw [h]

theorem guardBandStep_spec (hc : core < coreCount s.dcmap) (m : BitVec 10) :
    exec (.guardBandStep core m) s = .next { s with wear := tput Wear.zero s.wear (physCore s.dcmap core) ⟨m,
      if m.toNat < 50 ∧ (tget Wear.zero s.wear (physCore s.dcmap core)).gband.toNat < 40
        then (tget Wear.zero s.wear (physCore s.dcmap core)).gband + 1 else (tget Wear.zero s.wear (physCore s.dcmap core)).gband,
      (tget Wear.zero s.wear (physCore s.dcmap core)).worn ||
        decide (m.toNat < 50 ∧ (tget Wear.zero s.wear (physCore s.dcmap core)).gband = 40)⟩ } := by
  refine congrArg Host.Outcome.next ((if_neg (Nat.not_le.mpr hc)).trans ?_)
  simp only [Bool.and_eq_true, decide_eq_true_eq, Bool.decide_and]

theorem throttle_spec {die : Nat} {power watts : BitVec 16} {temp : BitVec 8} (hd : die < 16) (hw : watts.toNat ≤ 12000) :
    ∃ t, exec (.throttle die power temp watts) s = .next t ∧
      t = { s with throttled := t.throttled, watts := watts, temps := tput 0 s.temps die (BitVec.ofNat 8 (min 105 temp.toNat))
                   thr := decide (t.throttled ≠ 0) } ∧
      ∀ j, j < 16 → (t.throttled.getLsbD j = true ↔ if j = die then 600 < power.toNat ∨ 105 < temp.toNat else s.throttled.getLsbD j = true) := by
  refine ⟨_, congrArg Host.Outcome.next (if_pos ⟨hd, hw⟩), rfl, fun j hj => ?_⟩
  dsimp only
  by_cases hp : dieWatts < power.toNat ∨ junctionMax < temp.toNat
  · rw [if_pos hp, BitVec.getLsbD_or, getLsbD_dieBit hj]
    by_cases hjd : j = die
    · simpa [hjd, dieWatts, junctionMax] using hp
    · simp [hjd, Ne.symm hjd]
  · rw [if_neg hp, BitVec.getLsbD_and, BitVec.getLsbD_not, getLsbD_dieBit hj]
    by_cases hjd : j = die
    · simpa [hjd, dieWatts, junctionMax] using hp
    · simp [hjd, Ne.symm hjd, hj]

end

/-- Settles O49: the choice is `pick_spec`, the start `sceneStart_spec`, and each other event has its own lemma. -/
theorem moduleEvents : Obligations.ModuleEvents := by
  unfold Obligations.ModuleEvents
  intro s core wing w lane
  refine ⟨fun hc hw => ?_, fun W hW => yieldWake_spec hW, fun W P lim n d hW hP hlow hb ho hmon hlim => ?_,
    fun W m hW hm hn => monitorLost_spec hW hm hn, fun x cause va h => ?_, fun hc m v => ⟨guardBandStep_spec hc m, ?_⟩,
    fun die power watts temp hd hw => throttle_spec hd hw⟩
  · refine ⟨pick_eq_none, sceneStart_none hc hw, fun c W T h hW hT hP => ⟨?_, sceneStart_spec hc hw h hW hT hP⟩⟩
    obtain ⟨hfree, hfirst⟩ := pick_spec h
    refine ⟨hfree, hfirst, fun Q hQ hi => ?_⟩
    obtain ⟨_, _, W', _, hW', _, _, hmay⟩ := mem_readyPaths hfree.1
    rw [hW] at hW'
    cases hW'
    exact mayStart_inside hmay hQ hi
  · obtain ⟨hframe, hreg, hmonV⟩ := monWoken_spec W P n d.isLt
    refine ⟨W.monWoken P n d.toNat, monwaitTimeout_spec hW hP hlow hb ho hlim, ?_, fun l r _ hr => ?_, hmonV⟩
    · rw [hlow] at hframe
      exact hframe
    · have hno : W.hit l = false := by
        unfold Warp.hit
        cases hm : tget none W.mon l with
        | none => rfl
        | some m => exact hmon l m hm
      rw [hreg l r hr, hno]
      rfl
  · exact ⟨_, fetchFault_eq cause va h,
      raise_spec (st := ⟨14, cause, 1, false, none, true⟩) (t := ⟨14, cause, va.toNat, 2, 0, none⟩) h rfl rfl⟩
  · exact congrArg Host.Outcome.next (if_neg (Nat.not_le.mpr hc))

end Sys2Proof.Machine
end

section
/-! The words of instructions (O50, O51, O52): the fields of a packed word, the opcode and the fields of a first word, and
that the decoder and the encoder agree. -/

namespace Sys2Proof

/-! ## Fields of a packed word -/

/-- A field above the low part of a packed word is a field of the high part. -/
theorem fld_high {x m y lo len : Nat} (h : m ≤ lo) (hy : y < 2 ^ m) : fld (x * 2 ^ m + y) lo len = fld x (lo - m) len := by
  obtain ⟨k, rfl⟩ := Nat.exists_eq_add_of_le h
  have hdiv : (x * 2 ^ m + y) / 2 ^ m = x := by
    rw [Nat.add_comm, Nat.add_mul_div_right _ _ (Nat.two_pow_pos m), Nat.div_eq_of_lt hy, Nat.zero_add]
  unfold fld
  rw [Nat.pow_add, ← Nat.div_div_eq_div_mul, hdiv, Nat.add_sub_cancel_left]

/-- A field above the zeros that fill the low part of a word. -/
theorem fld_shifted {x m lo len : Nat} (h : m ≤ lo) : fld (x * 2 ^ m) lo len = fld x (lo - m) len :=
  fld_high (y := 0) h (Nat.two_pow_pos m)

/-- A field inside the low part of a packed word is a field of that part. -/
theorem fld_low {x m y lo len : Nat} (h : lo + len ≤ m) : fld (x * 2 ^ m + y) lo len = fld y lo len := by
  obtain ⟨k, rfl⟩ := Nat.exists_eq_add_of_le h
  have hsplit : x * 2 ^ (lo + len + k) + y = y + 2 ^ lo * (2 ^ len * (x * 2 ^ k)) := by rw [Nat.pow_add, Nat.pow_add]; ring
  apply BitVec.eq_of_toNat_eq
  simp only [fld, BitVec.toNat_ofNat]
  rw [hsplit, Nat.add_mul_div_left _ _ (Nat.two_pow_pos lo), Nat.add_mul_mod_self_left]

theorem fld_self {n : Nat} (x : BitVec n) : fld x.toNat 0 n = x := by
  simp only [fld, Nat.pow_zero, Nat.div_one, BitVec.ofNat_toNat, BitVec.setWidth_eq]

theorem fld_zero_eq_iff {w n : Nat} {c : BitVec n} : fld w 0 n = c ↔ w % 2 ^ n = c.toNat := by
  simp only [fld, Nat.pow_zero, Nat.div_one, ← BitVec.toNat_inj, BitVec.toNat_ofNat]

/-- A bit is a field of length 1. -/
theorem bit_eq_fld (w lo : Nat) : bit w lo = decide (fld w lo 1 = 1#1) := by
  simp only [bit, fld, ← BitVec.toNat_inj, BitVec.toNat_ofNat, Nat.reducePow, Nat.reduceMod]

theorem decide_ofBool (b : Bool) : decide (BitVec.ofBool b = 1#1) = b := by cases b <;> rfl

/-! ## First words of the lane set (02 R44, R63) -/

/-- A lane-set word as packed fields: E, N and the opcode above bit 20, and the operand fields below. -/
theorem laneWord_eq (op : Nat) (e n : Bool) (d a b : Nat) :
    laneWord op e n d a b = ((e.toNat * 2 ^ 1 + n.toNat) * 2 ^ 8 + op) * 2 ^ 21 + (d * 2 ^ 14 + (a * 2 ^ 7 + b)) := by
  unfold laneWord
  omega

/-- What the decoder reads from a lane-set word of opcode `op`. -/
def laneAt (op : Nat) (p : Option Pfx) (w x : Nat) : Option Instr :=
  match op / 16 with
  | 0x0 => lane0 p w (op % 16)
  | 0x1 => lane1 p w x (op % 16)
  | 0x2 => lane2 p w (op % 16)
  | 0x3 => lane3 p w (op % 16)
  | 0x4 => lane4 p w (op % 16)
  | 0x5 => lane5 p w (op % 16)
  | 0x6 => lane6 p w (op % 16)
  | 0x7 => lane7 p w (op % 16)
  | 0x8 => lane8 w (op % 16)
  | 0x9 => lane9 w (op % 16)
  | 0xA => laneA w (op % 16)
  | 0xB => laneB w x (op % 16)
  | 0xC => laneC w x (op % 16)
  | 0xD => laneD w x (op % 16)
  | 0xE => laneE w (op % 16)
  | 0xF => some (.hint (bit w 30) (bit w 29) (fld w 21 4) (fld w 0 21))
  | _ => none

theorem laneCand_eq (p : Option Pfx) (w x : Nat) : laneCand p w x = laneAt (w / 2 ^ 21 % 256) p w x := by
  have hlow : w / 2 ^ 21 % 256 % 16 = w / 2 ^ 21 % 16 := Nat.mod_mod_of_dvd _ (by decide)
  unfold laneCand laneAt
  rw [hlow] <;> rfl

section Lane
variable {op d a b : Nat} {e n : Bool} (ho : op < 256) (hr : d * 2 ^ 14 + a * 2 ^ 7 + b < 2 ^ 21)
include ho hr

theorem laneWord_lt : laneWord op e n d a b < 2 ^ 31 := by
  have := e.toNat_le
  have := n.toNat_le
  have hdiv : laneWord op e n d a b / 2 ^ 21 < 2 ^ 10 := by
    unfold laneWord
    omega
  exact Nat.lt_of_lt_of_eq (Nat.lt_mul_of_div_lt hdiv (by decide)) (by decide)

theorem laneWord_op : laneWord op e n d a b / 2 ^ 21 % 256 = op := by
  have := e.toNat_le
  have := n.toNat_le
  unfold laneWord
  omega

theorem cand_laneWord (p : Option Pfx) (x : Nat) :
    cand p (laneWord op e n d a b) x = laneAt op p (laneWord op e n d a b) x := by
  unfold cand
  rw [if_pos (laneWord_lt ho hr), laneCand_eq, laneWord_op ho hr]

theorem isPfxWord_laneWord : isPfxWord (laneWord op e n d a b) = decide (op = 0xFF) := by
  unfold isPfxWord
  rw [laneWord_op ho hr, decide_eq_true (laneWord_lt ho hr), Bool.true_and]

/-- Which lane-set words have a second word: ATOM, COPY, CAST and MASH, and MOVK of a literal. -/
theorem isTwoWord_laneWord : isTwoWord (laneWord op e n d a b) =
    (decide (op = 0xB4) || decide (op = 0xC1) || decide (op = 0xC2) || decide (op = 0xD0) ||
      (decide (op = 0x1A) && decide (laneWord op e n d a b % 2 ^ 14 = 0x2000))) := by
  unfold isTwoWord
  rw [if_pos (laneWord_lt ho hr), laneWord_op ho hr]

end Lane

/-! ## First words of the uniform set (02 R48, R64) -/

/-- A uniform-set word as packed fields: E, a zero and the opcode above bit 21, and the operand fields below. -/
theorem uniWord_eq (op : Nat) (e : Bool) (d a b f : Nat) :
    uniWord op e d a b f = ((1 * 2 ^ 1 + e.toNat) * 2 ^ 8 + op) * 2 ^ 22 + (d * 2 ^ 16 + (a * 2 ^ 10 + (b * 2 ^ 4 + f))) := by
  unfold uniWord
  omega

/-- What the decoder reads from a uniform-set word of opcode `op`. -/
def uniAt (op w x : Nat) : Option Instr :=
  match op / 16 with
  | 0x0 => uni0 w x (op % 16)
  | 0x1 => uni1 w (op % 16)
  | 0x2 => uni2 w (op % 16)
  | 0x3 => uni3 w (op % 16)
  | 0x4 => uni4 w (op % 16)
  | _ => none

theorem uniCand_eq (w x : Nat) : uniCand w x = uniAt (w / 2 ^ 22 % 128) w x := by
  have hlow : w / 2 ^ 22 % 128 % 16 = w / 2 ^ 22 % 16 := Nat.mod_mod_of_dvd _ (by decide)
  unfold uniCand uniAt
  rw [hlow] <;> rfl

section Uniform
variable {op d a b f : Nat} {e : Bool} (ho : op < 128) (hr : d * 2 ^ 16 + a * 2 ^ 10 + b * 2 ^ 4 + f < 2 ^ 22)

theorem le_uniWord : 2 ^ 31 ≤ uniWord op e d a b f := by
  unfold uniWord
  omega

include hr

theorem uniWord_op (ho : op < 128) : uniWord op e d a b f / 2 ^ 22 % 128 = op := by
  have := e.toNat_le
  unfold uniWord
  omega

theorem uniWord_mod : uniWord op e d a b f % 2 ^ 22 = d * 2 ^ 16 + a * 2 ^ 10 + b * 2 ^ 4 + f := by
  unfold uniWord
  omega

include ho

theorem cand_uniWord (p : Option Pfx) (x : Nat) : cand p (uniWord op e d a b f) x = uniAt op (uniWord op e d a b f) x := by
  unfold cand
  rw [if_neg (Nat.not_lt.mpr le_uniWord), uniCand_eq, uniWord_op hr ho]

/-- Of the uniform-set words only GMOVK of a literal has a second word. -/
theorem isTwoWord_uniWord : isTwoWord (uniWord op e d a b f) =
    (decide (op = 0x0C) && decide (uniWord op e d a b f % 2 ^ 16 = 0x8000)) := by
  unfold isTwoWord
  rw [if_neg (Nat.not_lt.mpr le_uniWord), uniWord_op hr ho]

end Uniform

theorem isPfxWord_uniWord (op : Nat) (e : Bool) (d a b f : Nat) : isPfxWord (uniWord op e d a b f) = false := by
  unfold isPfxWord
  rw [decide_eq_false (Nat.not_lt.mpr le_uniWord), Bool.false_and]

/-! ## The PFX word (02 R50) -/

/-- A PFX word as packed fields below its opcode. -/
theorem pfxWord_eq (p : Pfx) : pfxWord p = 0xFF * 2 ^ 21 +
    (p.c.toNat * 2 ^ 14 + (p.k.toNat * 2 ^ 11 + ((BitVec.ofBool p.z).toNat * 2 ^ 10 + (p.rm.toNat * 2 ^ 7 + (BitVec.ofBool p.sat).toNat * 2 ^ 6)))) := by
  unfold pfxWord
  rw [BitVec.toNat_ofBool, BitVec.toNat_ofBool]
  omega

theorem pfxOf_pfxWord (p : Pfx) : pfxOf (pfxWord p) = p := by
  unfold pfxOf
  simp (disch := omega) only [pfxWord_eq, bit_eq_fld, fld_high, fld_low, fld_shifted, fld_self, decide_ofBool, Nat.reduceSub]

theorem isPfxWord_pfxWord (p : Pfx) : isPfxWord (pfxWord p) = true := by
  unfold isPfxWord
  rw [pfxWord_eq, Bool.and_eq_true, decide_eq_true_iff, decide_eq_true_iff]
  omega

theorem pfxWord_lt (p : Pfx) : pfxWord p < 2 ^ 32 := by
  rw [pfxWord_eq]
  omega

/-! ## The words of an instruction -/

/-- The words of instruction `i` after PFX `p` are read as `i`: its first word is no PFX word and tells whether a further word
follows, and the fields that the decoder finds in its words are those of `i`. -/
structure Instr.ReadsAs (i : Instr) (p : Option Pfx) : Prop where
  words : encode i = (p.map pfxWord).toList ++ [i.word1] ++ i.ext?.toList
  word_lt : i.word1 < 2 ^ 32
  notPfx : isPfxWord i.word1 = false
  two : isTwoWord i.word1 = i.ext?.isSome
  fields : cand p i.word1 (i.ext?.getD 0) = some i
  ext_lt : ∀ x, i.ext? = some x → x < 2 ^ 32 ∧ p = none

/-- The words of instruction `i` are read as `i`, after a PFX word or none. -/
def Instr.Reads (i : Instr) : Prop := ∃ p, i.ReadsAs p

section Reads
variable {i j : Instr} {p : Option Pfx} {op d a b f x : Nat} {e n : Bool}

/-- A lane-set instruction of one word. -/
theorem lane_reads (hw : i.word1 = laneWord op e n d a b) (hp : encode i = (p.map pfxWord).toList ++ [i.word1] ++ i.ext?.toList) (hx : i.ext? = none)
    (ho : op < 0xFF) (hr : d * 2 ^ 14 + a * 2 ^ 7 + b < 2 ^ 21) (h2 : isTwoWord (laneWord op e n d a b) = false)
    (hc : laneAt op p (laneWord op e n d a b) 0 = some j)
    (hj : j = i) : i.Reads := by
  have ho' : op < 256 := by omega
  refine ⟨_, hp, hw ▸ Laws.Words.lane ho' hr, hw ▸ ?_, ?_, ?_, fun _ h => nomatch hx.symm.trans h⟩
  · rw [isPfxWord_laneWord ho' hr, decide_eq_false (by omega)]
  · rw [hw, h2, hx]
    rfl
  · rw [hx, hw, ← hj, ← hc]
    exact cand_laneWord ho' hr _ _

/-- A lane-set instruction of one word whose opcode has no form of two words. -/
theorem lane_reads_one (hw : i.word1 = laneWord op e n d a b) (hp : encode i = (p.map pfxWord).toList ++ [i.word1] ++ i.ext?.toList) (hx : i.ext? = none)
    (ho : op ∉ [0x1A, 0xB4, 0xC1, 0xC2, 0xD0] ∧ op < 0xFF) (hr : d * 2 ^ 14 + a * 2 ^ 7 + b < 2 ^ 21)
    (hc : laneAt op p (laneWord op e n d a b) 0 = some j)
    (hj : j = i) : i.Reads := by
  obtain ⟨hone, hlt⟩ := ho
  refine lane_reads hw hp hx hlt hr ?_ hc hj
  rw [isTwoWord_laneWord (by omega) hr]
  simp only [List.mem_cons, List.not_mem_nil, or_false, not_or] at hone
  simp [hone]

/-- A lane-set instruction of two words. -/
theorem lane_reads_two (hw : i.word1 = laneWord op e n d a b) (hp : encode i = ((none : Option Pfx).map pfxWord).toList ++ [i.word1] ++ i.ext?.toList) (hx : i.ext? = some x)
    (ho : op < 0xFF) (hr : d * 2 ^ 14 + a * 2 ^ 7 + b < 2 ^ 21) (h2 : isTwoWord (laneWord op e n d a b) = true)
    (hlt : x < 2 ^ 32) (hc : laneAt op none (laneWord op e n d a b) x = some j) (hj : j = i) : i.Reads := by
  have ho' : op < 256 := by omega
  refine ⟨_, hp, hw ▸ Laws.Words.lane ho' hr, hw ▸ ?_, ?_, ?_, fun y h => ?_⟩
  · rw [isPfxWord_laneWord ho' hr, decide_eq_false (by omega)]
  · rw [hw, h2, hx]
    rfl
  · rw [hx, hw, ← hj, ← hc]
    exact cand_laneWord ho' hr _ _
  · cases hx.symm.trans h
    exact ⟨hlt, rfl⟩

/-- A field of a uniform-set word that reaches above bit 3 is as well one of the bits from 0 up. -/
theorem uniWord_carry (op : Nat) (e : Bool) (d a b f : Nat) : uniWord op e d a b f = uniWord op e d a 0 (b * 2 ^ 4 + f) := by
  unfold uniWord
  omega

/-- A uniform-set instruction of two words. -/
theorem uni_reads_two (hw : i.word1 = uniWord op e d a b f) (hp : encode i = ((none : Option Pfx).map pfxWord).toList ++ [i.word1] ++ i.ext?.toList) (hx : i.ext? = some x)
    (ho : op < 128) (hr : d * 2 ^ 16 + a * 2 ^ 10 + b * 2 ^ 4 + f < 2 ^ 22) (h2 : isTwoWord (uniWord op e d a b f) = true)
    (hlt : x < 2 ^ 32) (hc : uniAt op (uniWord op e d a b f) x = some j) (hj : j = i) : i.Reads := by
  refine ⟨_, hp, hw ▸ Laws.Words.uni ho hr, hw ▸ isPfxWord_uniWord _ _ _ _ _ _, ?_, ?_, fun y h => ?_⟩
  · rw [hw, h2, hx]
    rfl
  · rw [hx, hw, ← hj, ← hc]
    exact cand_uniWord ho hr _ _
  · cases hx.symm.trans h
    exact ⟨hlt, rfl⟩

/-- A uniform-set instruction of one word. -/
theorem uni_reads (hw : i.word1 = uniWord op e d a b f) (hp : encode i = ((none : Option Pfx).map pfxWord).toList ++ [i.word1] ++ i.ext?.toList) (hx : i.ext? = none)
    (ho : op < 128) (hr : d * 2 ^ 16 + a * 2 ^ 10 + b * 2 ^ 4 + f < 2 ^ 22) (h2 : isTwoWord (uniWord op e d a b f) = false)
    (hc : uniAt op (uniWord op e d a b f) 0 = some j) (hj : j = i) : i.Reads := by
  refine ⟨_, hp, hw ▸ Laws.Words.uni ho hr, hw ▸ isPfxWord_uniWord _ _ _ _ _ _, ?_, ?_, fun _ h => nomatch hx.symm.trans h⟩
  · rw [hw, h2, hx]
    rfl
  · rw [hx, hw, ← hj, ← hc]
    exact cand_uniWord ho hr _ _

/-- A uniform-set instruction of one word whose opcode is not that of GMOVK. -/
theorem uni_reads_one (hw : i.word1 = uniWord op e d a b f) (hp : encode i = ((none : Option Pfx).map pfxWord).toList ++ [i.word1] ++ i.ext?.toList) (hx : i.ext? = none)
    (ho : op ≠ 0x0C ∧ op < 128) (hr : d * 2 ^ 16 + a * 2 ^ 10 + b * 2 ^ 4 + f < 2 ^ 22)
    (hc : uniAt op (uniWord op e d a b f) 0 = some j) (hj : j = i) : i.Reads := by
  obtain ⟨hone, hlt⟩ := ho
  refine uni_reads hw hp hx hlt hr ?_ hc hj
  rw [isTwoWord_uniWord hlt hr, decide_eq_false hone, Bool.false_and]

end Reads

/-! ### Instructions that share an opcode, or a field, with another -/

/-- SEL carries its mask register in its PFX word, which it must have (03 R87). -/
theorem reads_sel (e n : Bool) (k : BitVec 3) (d a b : BitVec 7) : (Instr.sel e n k d a b).Reads :=
  lane_reads_one (p := some ⟨0, k, false, 0, false⟩) rfl rfl rfl (by decide) (by omega) rfl (by
    simp (disch := omega) only [laneWord_eq, bit_eq_fld, ← BitVec.toNat_ofBool, fld_high, fld_low, fld_self, decide_ofBool,
      Nat.reduceSub])

/-- The constant of a short MOVK is not the one that marks a literal (02 R44). -/
theorem reads_movk (e n : Bool) (d : BitVec 7) {c : BitVec 14} (hlit : ¬ c = 0x2000) : (Instr.movk e n d c).Reads := by
  have hne : c.toNat ≠ 0x2000 := fun h => hlit (BitVec.eq_of_toNat_eq h)
  have hlow : laneWord 0x1A e n d.toNat 0 c.toNat % 2 ^ 14 = c.toNat := by unfold laneWord; omega
  refine lane_reads rfl rfl rfl (by decide) (by omega) ?_ rfl ?_
  · rw [isTwoWord_laneWord (by decide) (by omega), hlow, decide_eq_false hne]
    rfl
  · simp (disch := omega) only [laneWord_eq, bit_eq_fld, ← BitVec.toNat_ofBool, fld_high, fld_low, fld_self, decide_ofBool,
      Nat.reduceSub, Nat.zero_mul, Nat.zero_add, if_neg hlit]

theorem reads_movkLiteral (e n : Bool) (d : BitVec 7) (lit : BitVec 32) : (Instr.movkLiteral e n d lit).Reads := by
  have hlit : fld 0x2000 0 14 = (0x2000 : BitVec 14) := by decide
  have hlow : laneWord 0x1A e n d.toNat 0 0x2000 % 2 ^ 14 = 0x2000 := by unfold laneWord; omega
  refine lane_reads_two rfl rfl rfl (by decide) (by omega) ?_ lit.isLt rfl ?_
  · rw [isTwoWord_laneWord (by decide) (by omega), hlow]
    rfl
  · simp (disch := omega) only [laneWord_eq, bit_eq_fld, ← BitVec.toNat_ofBool, fld_high, fld_low, fld_self, decide_ofBool,
      Nat.reduceSub, Nat.zero_mul, Nat.zero_add, hlit, if_true]

/-- The low digit of a hint's opcode is a field; 0xFF is the opcode of PFX (02 R61, R63). -/
theorem reads_hint (e n : Bool) {h : BitVec 4} (y : BitVec 21) (hpfx : h ≠ 15) : (Instr.hint e n h y).Reads := by
  have hne : h.toNat ≠ 15 := fun hh => hpfx (BitVec.eq_of_toNat_eq hh)
  have hop : 0xF0 + h.toNat = 15 * 2 ^ 4 + h.toNat := by omega
  have hrow : (15 * 2 ^ 4 + h.toNat) / 16 = 15 := by omega
  refine lane_reads_one (congrArg (laneWord · e n 0 0 y.toNat) hop) rfl rfl ⟨?_, by omega⟩ (by omega)
    (by simp only [laneAt, hrow]; rfl) ?_
  · simp only [List.mem_cons, List.not_mem_nil, or_false]
    omega
  · simp (disch := omega) only [laneWord_eq, bit_eq_fld, ← BitVec.toNat_ofBool, fld_high, fld_low, fld_self, decide_ofBool,
      Nat.reduceSub, Nat.zero_mul, Nat.zero_add]

/-- GST has its offset, its size and its space in one field (06 R152). -/
theorem reads_gst (e : Bool) (d a : BitVec 6) (sp : Bool) (z : BitVec 2) (o : BitVec 7) : (Instr.gst e d a sp z o).Reads := by
  have hz : ((BitVec.ofBool sp).toNat * 2 ^ 5 + z.toNat * 2 ^ 3) * 2 ^ 4 + o.toNat =
      (BitVec.ofBool sp).toNat * 2 ^ 9 + (z.toNat * 2 ^ 7 + o.toNat) := by omega
  have hw := uniWord_carry 0x12 e d.toNat a.toNat (sp.toNat * 2 ^ 5 + z.toNat * 2 ^ 3) o.toNat
  rw [← BitVec.toNat_ofBool sp, hz] at hw
  refine uni_reads_one (.trans ?_ hw) rfl rfl (by decide) (by omega) rfl ?_
  · rw [BitVec.toNat_ofBool]
    rfl
  · simp (disch := omega) only [uniWord_eq, bit_eq_fld, ← BitVec.toNat_ofBool, fld_high, fld_low, fld_self, decide_ofBool,
      Nat.reduceSub, Nat.zero_mul, Nat.zero_add]

/-- The constant of a short GMOVK is not the one that marks a literal (02 R49). -/
theorem reads_gmovk (e : Bool) (d : BitVec 6) {c : BitVec 16} (hlit : ¬ c = 0x8000) : (Instr.gmovk e d c).Reads := by
  have hne : c.toNat ≠ 0x8000 := fun h => hlit (BitVec.eq_of_toNat_eq h)
  have hlow : uniWord 0x0C e d.toNat 0 0 c.toNat % 2 ^ 16 = c.toNat := by unfold uniWord; omega
  refine uni_reads rfl rfl rfl (by decide) (by omega) ?_ rfl ?_
  · rw [isTwoWord_uniWord (by decide) (by omega), hlow, decide_eq_false hne]
    rfl
  · simp (disch := omega) only [uniWord_eq, bit_eq_fld, ← BitVec.toNat_ofBool, fld_high, fld_low, fld_self, decide_ofBool,
      Nat.reduceSub, Nat.zero_mul, Nat.zero_add, if_neg hlit]

theorem reads_gmovkLiteral (e : Bool) (d : BitVec 6) (lit : BitVec 32) : (Instr.gmovkLiteral e d lit).Reads := by
  have hlit : fld 0x8000 0 16 = (0x8000 : BitVec 16) := by decide
  have hlow : uniWord 0x0C e d.toNat 0 0 0x8000 % 2 ^ 16 = 0x8000 := by unfold uniWord; omega
  refine uni_reads_two rfl rfl rfl (by decide) (by omega) ?_ lit.isLt rfl ?_
  · rw [isTwoWord_uniWord (by decide) (by omega), hlow]
    rfl
  · simp (disch := omega) only [uniWord_eq, bit_eq_fld, ← BitVec.toNat_ofBool, fld_high, fld_low, fld_self, decide_ofBool,
      Nat.reduceSub, Nat.zero_mul, Nat.zero_add, hlit, if_true]

/-- The offset of a relative GCALL is none of those that name a register (06 R156). -/
theorem reads_gcall {o : BitVec 22} (hreg : ¬ (0x200000 ≤ o.toNat ∧ o.toNat ≤ 0x20003F)) : (Instr.gcall o).Reads := by
  have hlow : uniWord 0x23 true 0 0 0 o.toNat % 2 ^ 22 = o.toNat := by rw [uniWord_mod (by omega)]; omega
  refine uni_reads_one rfl rfl rfl (by decide) (by omega) rfl ?_
  rw [hlow, if_neg hreg]
  simp (disch := omega) only [uniWord_eq, fld_low, fld_self, Nat.zero_mul, Nat.zero_add]

theorem reads_gcallRegister (g : BitVec 6) : (Instr.gcallRegister g).Reads := by
  have hlow : uniWord 0x23 true 0 0 0 (0x8000 * 2 ^ 6 + g.toNat) % 2 ^ 22 = 0x8000 * 2 ^ 6 + g.toNat := by
    rw [uniWord_mod (by omega)]
    omega
  have hreg : 0x200000 ≤ 0x8000 * 2 ^ 6 + g.toNat ∧ 0x8000 * 2 ^ 6 + g.toNat ≤ 0x20003F := by omega
  refine uni_reads_one (f := 0x8000 * 2 ^ 6 + g.toNat) rfl rfl rfl (by decide) (by omega) rfl ?_
  rw [hlow, if_pos hreg]
  simp (disch := omega) only [uniWord_eq, fld_low, fld_self, Nat.zero_mul, Nat.zero_add]

/-! ### All instructions -/

/-- The words of every legal instruction with an assigned opcode are read as that instruction: the fields that its format
gives its operands stand apart in its word, and the decoder's table has its opcode at the same place as the encoder's. -/
theorem reads_of_fieldsOk (i : Instr) (hw : i.isWord = true) (hf : i.fieldsOk = true) (hu : ∀ w, i ≠ .unassignedOpcode w) :
    i.Reads := by
  cases i with
  -- with a PFX word or none, without and with a field of one bit
  | iadd | isub | imul | imulhs | imulhz | imad | imadw | imin | imax | iminz | imaxz | iabs | ineg | add64 | sub64 | lea |
    iaddi | and | or | xor | andn | not | andi | ori | xori | shl | shr | sar | rol | shli | shri | sari | bfx | bfxs | bfi |
    popc | clz | brev | fset | fclass | fadd | fsub | fmul | ffma | fmin | fmax | fabs | fneg | frnd | fscl | fexp | hadd2 |
    hmul2 | hfma2 | hmin2 | hmax2 | hdot2 | badd2 | bmul2 | bfma2 | bmin2 | bmax2 | bdot2 | rcp | rsq | sqrt | exp2 | log2 |
    sin | cos | tanh | mxsc | mxq | mxqr | mxdq | smxacc | smxfin =>
    exact lane_reads_one rfl rfl rfl (by decide) (by omega) rfl (by
      simp (disch := omega) only [laneWord_eq, bit_eq_fld, ← BitVec.toNat_ofBool, fld_high, fld_low, fld_shifted, fld_self,
        decide_ofBool, Nat.reduceSub, Nat.add_zero, Nat.add_assoc]
      rfl)
  | mov | iset | isetz | cvt | cvtr =>
    exact lane_reads_one rfl rfl rfl (by decide) (by simp only [← BitVec.toNat_ofBool]; omega) rfl (by
      simp (disch := omega) only [laneWord_eq, bit_eq_fld, ← BitVec.toNat_ofBool, fld_high, fld_low, fld_self, decide_ofBool,
        Nat.reduceSub, Nat.add_assoc]
      rfl)
  -- other instructions of the lane set, without and with a field of one bit
  | movs | rsdrd | rsdwr | br | brz | brnz | brx | call | callx | ret | exit | enrol | rejoin | strike | brm | vote | shfl |
    matchKeys | compact | ldg | lds | ldp | pref | fchk | stg | sts | stp | strel | mcst | empty | monarm | fence | casti |
    castsplit | castrd | castwr | rack | colrd | trap | brk | nop =>
    exact lane_reads_one rfl rfl rfl (by decide) (by omega) rfl (by
      simp (disch := omega) only [laneWord_eq, bit_eq_fld, ← BitVec.toNat_ofBool, fld_high, fld_low, fld_shifted, fld_self,
        decide_ofBool, Nat.reduceSub, Nat.zero_mul, Nat.zero_add, Nat.add_zero])
  | redux | scan | rdlane | bcast | ldgs | ldss | ldps | lda | monwait | cue | colclr | mstat =>
    exact lane_reads_one rfl rfl rfl (by decide) (by simp only [← BitVec.toNat_ofBool]; omega) rfl (by
      simp (disch := omega) only [laneWord_eq, bit_eq_fld, ← BitVec.toNat_ofBool, fld_high, fld_low, fld_shifted, fld_self,
        decide_ofBool, Nat.reduceSub, Nat.zero_mul, Nat.zero_add, Nat.add_assoc])
  | sel e n k d a b => exact reads_sel e n k d a b
  | movk e n d c => exact reads_movk e n d (of_decide_eq_true hf)
  | movkLiteral e n d lit => exact reads_movkLiteral e n d lit
  | hint e n h y => exact reads_hint e n y (of_decide_eq_true hf)
  -- the two-word forms
  | cast =>
    refine lane_reads_two rfl rfl rfl (by decide) (by omega) ?_ (by omega) rfl ?_
    · rw [isTwoWord_laneWord (by decide) (by omega)]
      rfl
    · simp (disch := omega) only [laneWord_eq, bit_eq_fld, ← BitVec.toNat_ofBool, fld_high, fld_low, fld_shifted, fld_self,
        decide_ofBool, Nat.reduceSub, Nat.add_zero, Nat.add_assoc]
  | atom | copy | mash =>
    refine lane_reads_two rfl rfl rfl (by decide) (by omega) ?_ (by simp only [← BitVec.toNat_ofBool]; omega) rfl ?_
    · rw [isTwoWord_laneWord (by decide) (by omega)]
      rfl
    · simp (disch := omega) only [laneWord_eq, bit_eq_fld, ← BitVec.toNat_ofBool, fld_high, fld_low, fld_shifted, fld_self,
        decide_ofBool, Nat.reduceSub, Nat.add_assoc]
  -- the uniform set
  | gadd | gsub | gmul | gand | gor | gxor | gshl | gshr | gsar | gaddi | gmov | gset | gsel | kand | kor | kxor | knot |
    kmov | jmp | jz | jnz | yield | bar | barg | launch | sread | partset | rset | racq | rpub | rwait | rfree | cwait |
    mwait | hang | unhang =>
    exact uni_reads_one rfl rfl rfl (by decide) (by omega) rfl (by
      simp (disch := omega) only [uniWord_eq, bit_eq_fld, ← BitVec.toNat_ofBool, fld_high, fld_low, fld_shifted, fld_self,
        decide_ofBool, Nat.reduceSub, Nat.zero_mul, Nat.zero_add, Nat.add_zero])
  | gmin | gmax | bank =>
    exact uni_reads_one rfl rfl rfl (by decide) (by simp only [← BitVec.toNat_ofBool]; omega) rfl (by
      simp (disch := omega) only [uniWord_eq, bit_eq_fld, ← BitVec.toNat_ofBool, fld_high, fld_low, fld_self, decide_ofBool,
        Nat.reduceSub, Nat.zero_mul, Nat.zero_add])
  | gld e d a z o | glds e d a z o =>
    have hz : z.toNat * 2 ^ 3 * 2 ^ 4 = z.toNat * 2 ^ 7 := by omega
    exact uni_reads_one (uniWord_carry _ _ _ _ _ _) rfl rfl (by decide) (by omega) rfl (by
      simp (disch := omega) only [hz, uniWord_eq, bit_eq_fld, ← BitVec.toNat_ofBool, fld_high, fld_low, fld_self, decide_ofBool,
        Nat.reduceSub, Nat.zero_mul, Nat.zero_add])
  | gst e d a sp z o => exact reads_gst e d a sp z o
  | gmovk e d c => exact reads_gmovk e d (of_decide_eq_true hf)
  | gmovkLiteral e d lit => exact reads_gmovkLiteral e d lit
  | gcall o =>
    refine reads_gcall fun ⟨hlo, hhi⟩ => ?_
    have hf' : (!(decide (0x200000 ≤ o.toNat) && decide (o.toNat ≤ 0x20003F))) = true := hf
    rw [decide_eq_true hlo, decide_eq_true hhi] at hf'
    exact nomatch hf'
  | gcallRegister g => exact reads_gcallRegister g
  | unassignedOpcode w => exact absurd rfl (hu w)
  | _ => exact nomatch hw

/-! ## The decoder's tables have no other opcodes (02 R60, R63, R64) -/

/-- Opcode by opcode, the lane set's table has an entry only for an assigned opcode. -/
theorem laneAt_unassigned {op : Nat} (ho : op < 256) (h : laneAssigned op = false) (p : Option Pfx) (w x : Nat) :
    laneAt op p w x = none := by
  have hrow : (laneAssigned op || (laneAt op p w x).isNone) = true := by
    clear h
    interval_cases op <;> rfl
  rwa [h, Bool.false_or, Option.isNone_iff_eq_none] at hrow

/-- Opcode by opcode, the uniform set's table has an entry only for an assigned opcode. -/
theorem uniAt_unassigned {op : Nat} (ho : op < 128) (h : uniAssigned op = false) (w x : Nat) : uniAt op w x = none := by
  have hrow : (uniAssigned op || (uniAt op w x).isNone) = true := by
    clear h
    interval_cases op <;> rfl
  rwa [h, Bool.false_or, Option.isNone_iff_eq_none] at hrow

/-- The decoder finds no instruction in a word with an unassigned opcode. -/
theorem cand_unassigned {w : Nat} (h : wordAssigned w = false) (p : Option Pfx) (x : Nat) : cand p w x = none := by
  unfold wordAssigned at h
  unfold cand
  by_cases hlane : w < 2 ^ 31
  · rw [if_pos hlane] at h ⊢
    rw [laneCand_eq]
    exact laneAt_unassigned (Nat.mod_lt _ (by decide)) h _ _ _
  · rw [if_neg hlane] at h ⊢
    rw [uniCand_eq]
    exact uniAt_unassigned (Nat.mod_lt _ (by decide)) h _ _

/-! ## Decoding and encoding -/

theorem encode_unassigned (w : BitVec 32) : encode (.unassignedOpcode w) = [w.toNat] := rfl

theorem isPfxWord_assigned {w : Nat} (h : isPfxWord w = true) : wordAssigned w = true := by
  obtain ⟨hlane, hop⟩ := (Bool.and_eq_true _ _).mp h
  unfold wordAssigned
  rw [if_pos (of_decide_eq_true hlane), of_decide_eq_true hop]
  rfl

/-- The decoder accepts exactly the words of a legal instruction. -/
theorem accept_eq_ok {i j : Instr} {ws : List Nat} {e : DecodeError} {n : Nat} :
    accept i ws e = .ok (j, n) ↔ j = i ∧ n = ws.length ∧ encode i = ws ∧ i.wf = true := by
  unfold accept
  split
  · next he =>
    split
    · next hf => simp only [Except.ok.injEq, Prod.mk.injEq, he, hf, and_true, eq_comm]
    · next hf => simp only [reduceCtorEq, hf, and_false]
  · next he => simp only [reduceCtorEq, he, false_and, and_false]

theorem accept_encode {i : Instr} (hf : i.wf = true) (e : DecodeError) : accept i (encode i) e = .ok (i, (encode i).length) :=
  accept_eq_ok.mpr ⟨rfl, rfl, rfl, hf⟩

/-- How the decoder goes on at a first word that is no PFX word. -/
theorem decode_noPfx {w0 w1 : Nat} (h : isPfxWord w0 = false) : decode w0 w1 = match cand none w0 w1 with
    | some i => accept i (if isTwoWord w0 then [w0, w1] else [w0]) .badBits
    | none => if wordAssigned w0 then .error .badBits else .ok (.unassignedOpcode (BitVec.ofNat 32 w0), 1) := by
  unfold decode
  rw [if_neg (Bool.eq_false_iff.mp h)] <;> rfl

/-- How the decoder goes on after a PFX word. -/
theorem decode_pfx {w0 w1 : Nat} (h : isPfxWord w0 = true) : decode w0 w1 = match cand (some (pfxOf w0)) w1 0 with
    | some i => accept i [w0, w1] .badPrefix
    | none => .error .badPrefix := by
  unfold decode
  rw [if_pos h] <;> rfl

/-- A word with an unassigned opcode is read as such (02 R60). -/
theorem decode_unassigned {w0 : Nat} (w1 : Nat) (h : wordAssigned w0 = false) :
    decode w0 w1 = .ok (.unassignedOpcode (BitVec.ofNat 32 w0), 1) := by
  have hpfx : isPfxWord w0 = false := Bool.eq_false_iff.mpr fun hp => Bool.eq_false_iff.mp h (isPfxWord_assigned hp)
  rw [decode_noPfx hpfx, cand_unassigned h]
  simp only [h, Bool.false_eq_true, if_false]

/-- What the decoder accepts is the encoding of a legal instruction, or else a word with an unassigned opcode. -/
theorem decode_ok {w0 w1 n : Nat} {i : Instr} (h : decode w0 w1 = .ok (i, n)) :
    (encode i = [w0, w1].take n ∧ i.wf = true ∧ 0 < n) ∨
    (wordAssigned w0 = false ∧ i = .unassignedOpcode (BitVec.ofNat 32 w0) ∧ n = 1) := by
  by_cases hp : isPfxWord w0 = true
  · rw [decode_pfx hp] at h
    split at h
    · obtain ⟨rfl, rfl, he, hf⟩ := accept_eq_ok.mp h
      exact .inl ⟨he, hf, Nat.succ_pos _⟩
    · exact nomatch h
  · rw [decode_noPfx (Bool.eq_false_iff.mpr hp)] at h
    split at h
    · obtain ⟨rfl, rfl, he, hf⟩ := accept_eq_ok.mp h
      refine .inl ⟨?_, hf, ?_⟩
      · rw [he]
        split <;> rfl
      · split <;> exact Nat.succ_pos _
    · split at h
      · exact nomatch h
      · next ha =>
        cases h
        exact .inr ⟨Bool.eq_false_iff.mpr ha, rfl, rfl⟩

/-- The words of an instruction that are read as it decode as it, after its PFX word and with its further word. -/
theorem Instr.Reads.decode {i : Instr} (h : i.Reads) (hf : i.wf = true) :
    ((encode i).length = 1 ∨ (encode i).length = 2) ∧ (∀ w ∈ encode i, w < 2 ^ 32) ∧
    Sys2Proof.decode ((encode i).getD 0 0) ((encode i).getD 1 0) = .ok (i, (encode i).length) := by
  obtain ⟨p, henc, hlt, hnp, htwo, hcand, hext⟩ := h
  have hacc := accept_encode hf
  cases p with
  | some p =>
    have hx : i.ext? = none := Option.eq_none_iff_forall_ne_some.mpr fun x hx => nomatch (hext x hx).2
    rw [hx] at henc hcand
    replace henc : encode i = [pfxWord p, i.word1] := henc
    rw [henc] at hacc ⊢
    refine ⟨.inr rfl, List.forall_mem_cons.mpr ⟨pfxWord_lt p, List.forall_mem_singleton.mpr hlt⟩, ?_⟩
    rw [List.getD_cons_zero, List.getD_cons_succ, List.getD_cons_zero, decode_pfx (isPfxWord_pfxWord p), pfxOf_pfxWord, ← hacc .badPrefix]
    simp only [Option.getD_none] at hcand
    rw [hcand]
  | none =>
    cases hx : i.ext? with
    | some x =>
      rw [hx] at henc hcand
      replace henc : encode i = [i.word1, x] := henc
      rw [henc] at hacc ⊢
      refine ⟨.inr rfl, List.forall_mem_cons.mpr ⟨hlt, List.forall_mem_singleton.mpr (hext x hx).1⟩, ?_⟩
      rw [List.getD_cons_zero, List.getD_cons_succ, List.getD_cons_zero, decode_noPfx hnp, htwo, hx, ← hacc .badBits]
      simp only [Option.getD_some] at hcand
      rw [hcand]
      rfl
    | none =>
      rw [hx] at henc hcand
      replace henc : encode i = [i.word1] := henc
      rw [henc] at hacc ⊢
      refine ⟨.inl rfl, List.forall_mem_singleton.mpr hlt, ?_⟩
      rw [List.getD_cons_zero, decode_noPfx hnp, htwo, hx, ← hacc .badBits]
      simp only [Option.getD_none] at hcand
      simp only [List.getD_cons_succ, List.getD_nil]
      rw [hcand]
      rfl

/-- The words of every well-formed instruction decode as it. -/
theorem decode_encode (i : Instr) (hw : i.isWord = true) (hf : i.wf = true) :
    ((encode i).length = 1 ∨ (encode i).length = 2) ∧ (∀ w ∈ encode i, w < 2 ^ 32) ∧
    decode ((encode i).getD 0 0) ((encode i).getD 1 0) = .ok (i, (encode i).length) := by
  have hfields : i.fieldsOk = true := ((Bool.and_eq_true _ _).mp hf).2
  by_cases hu : ∃ w, i = .unassignedOpcode w
  · obtain ⟨w, rfl⟩ := hu
    rw [encode_unassigned]
    refine ⟨.inl rfl, List.forall_mem_singleton.mpr w.isLt, ?_⟩
    have hun : (!wordAssigned w.toNat) = true := hfields
    have := decode_unassigned (w0 := w.toNat) 0 (Bool.not_eq_true' _ |>.mp hun)
    rwa [BitVec.ofNat_toNat, BitVec.setWidth_eq] at this
  · exact (reads_of_fieldsOk i hw hfields fun w h => hu ⟨w, h⟩).decode hf

/-- An instruction whose words are some words has words. -/
theorem isWord_of_encode {i : Instr} {w : Nat} {ws : List Nat} (h : encode i = w :: ws) : i.isWord = true := by
  cases hw : i.isWord with
  | true => rfl
  | false =>
    unfold encode at h
    rw [hw] at h
    exact nomatch h

/-- Settles O50: the words of an instruction are read as it, and the decoder accepts them because they are its encoding. -/
theorem decodingAndEncodingAgree : Obligations.DecodingAndEncodingAgree := by
  unfold Obligations.DecodingAndEncodingAgree
  exact decode_encode

/-- Settles O51: the decoder accepts only encodings (`decode_ok`), and its tables have no unassigned opcode. -/
theorem decodingIsExact : Obligations.DecodingIsExact := by
  unfold Obligations.DecodingIsExact
  intro w0 w1 hw0 _
  refine ⟨fun i n h => ?_, fun _ h => decode_unassigned w1 h, fun v ha h => ?_⟩
  · rcases decode_ok h with ⟨he, hf, hn⟩ | ⟨ha, rfl, rfl⟩
    · obtain ⟨k, rfl⟩ := Nat.exists_eq_succ_of_ne_zero hn.ne'
      exact ⟨isWord_of_encode he, hf, he⟩
    · have hv : (BitVec.ofNat 32 w0).toNat = w0 := Nat.mod_eq_of_lt hw0
      refine ⟨rfl, ?_, by rw [encode_unassigned, hv]; rfl⟩
      show (!wordAssigned (BitVec.ofNat 32 w0).toNat) = true
      rw [hv, ha]
      rfl
  · rcases decode_ok h with ⟨he, hf, _⟩ | ⟨hna, _⟩
    · have hv : v.toNat = w0 := List.head_eq_of_cons_eq he
      have hun : (!wordAssigned v.toNat) = true := hf
      rw [hv, ha] at hun
      exact nomatch hun
    · exact nomatch ha.symm.trans hna

/-- The decoder can be run on a list of words and instructions. -/
theorem decodes_of_all {l : List (Nat × Nat × Nat × Instr)}
    (h : (l.all fun e => decide (decode e.1 e.2.1 = .ok (e.2.2.2, e.2.2.1))) = true) {w0 w1 n : Nat} {i : Instr}
    (hm : (w0, w1, n, i) ∈ l) : decode w0 w1 = .ok (i, n) :=
  of_decide_eq_true (List.all_eq_true.mp h _ hm)

/-- The decoder can be run on a list of words that it refuses. -/
theorem refuses_of_all {l : List (Nat × Nat)} (h : (l.all fun e => (decode e.1 e.2).toOption.isNone) = true) {w0 w1 : Nat}
    (hm : (w0, w1) ∈ l) : (decode w0 w1).toOption = none :=
  Option.isNone_iff_eq_none.mp (List.all_eq_true.mp h _ hm)

/-- Settles O52: the decoder is run on each pair of words. -/
theorem decodeWords : Obligations.DecodeWords := by
  unfold Obligations.DecodeWords
  exact ⟨fun _ _ _ _ h => decodes_of_all (by decide) h, fun _ _ h => refuses_of_all (by decide) h⟩

end Sys2Proof
end

section
/-! What retiring an instruction changes (O26). -/

namespace Sys2Proof.Machine

/-- Settles O26: the statement is `retire_spec`. -/
theorem retiring : Obligations.Retiring := by
  unfold Obligations.Retiring
  exact fun _ _ _ _ _ hW hP hr => retire_spec hW hP hr

end Sys2Proof.Machine
end

section
/-! TRAP, BRK and an unassigned opcode (O40): where a path stands that stopped past its scene, the tag of a prompt, and the
hold of every team of a context. -/

namespace Sys2Proof.Machine

set_option Elab.async false

/-! ## A path past the end of its scene -/

theorem endsScene_trap (d : BitVec 7) (c : BitVec 8) : (Instr.trap d c).endsScene = true :=
  endsScene_lane rfl (by decide) (by have := d.isLt; have := c.isLt; omega)
theorem endsScene_brk (c : BitVec 8) : (Instr.brk c).endsScene = true :=
  endsScene_lane rfl (by decide) (by have := c.isLt; omega)

/-- Changing the paths of a warp without blocking any brings no wait in MONWAIT. -/
theorem noMonwait_map {V W : Warp} {f : Path → Path} (hn : W.noMonwait) (hV : V.paths = W.paths.map f)
    (hf : ∀ P, (f P).block = P.block ∨ (f P).block = none) : V.noMonwait := by
  intro Q hQ t n d
  rw [hV] at hQ
  obtain ⟨P, hP, rfl⟩ := List.mem_map.mp hQ
  rcases hf P with h | h <;> rw [h]
  · exact hn P hP t n d
  · exact nofun

theorem noMonwait_modPath {W : Warp} {r : Nat} {f : Path → Path} (hn : W.noMonwait) (hf : ∀ P, (f P).block = P.block) :
    (W.modPath r f).noMonwait :=
  noMonwait_map hn rfl fun P => .inl (by split; exacts [hf P, rfl])

theorem noMonwait_woken {W : Warp} {own : Bool} {r : Nat} (hn : W.noMonwait) : (W.woken own r).noMonwait :=
  noMonwait_map hn rfl fun P => by
    unfold wakeYield
    split
    · split
      · exact .inl rfl
      · exact .inr rfl
    · exact .inl rfl

theorem retire_noMonwait {s : State} {x : Ix} {i : Instr} {l : Option Latch} {W V : Warp} (hw : s.warp x.w = some W)
    (he : i.endsScene = true) (hn : W.noMonwait) (hV : (retire x i s l).warp x.w = some V) : V.noMonwait := by
  unfold retire State.endScene at hV
  rw [if_pos he, State.modWarp_eq hw, State.modWarp_eq (State.setWarp_warp_same _ _ _), wakeYields_warp, if_pos rfl,
    State.setWarp_warp_same] at hV
  cases hV
  exact noMonwait_woken (W := { (_ : Warp).modPath _ _ with running := none })
    (noMonwait_modPath (noMonwait_modPath hn fun _ => rfl) fun _ => rfl)

/-- Warp `U` is that of the issuing path but for its paths, and runs none of them; the issuing path has become `P`, and no
path has come to wait in MONWAIT. -/
def StandsAt (x : Ix) (P : Path) (U : Warp) : Prop :=
  U.body = x.W.body ∧ U.running = none ∧ U.path x.low = some P ∧ (x.W.noMonwait → U.noMonwait)

/-- What retiring an instruction that ends its scene leaves: its path stands past it, and only warps change. -/
theorem retire_standsAt {s : State} {x : Ix} {i : Instr} {l : Option Latch} (h : s.issuing = some x) (he : i.endsScene = true) :
    OnlyWarp s (retire x i s l) x.w true ∧ ∃ V, (retire x i s l).warp x.w = some V ∧ StandsAt x (x.after i l) V ∧
      ∀ r, r ≠ x.low → V.path r = (x.W.path r).map (Path.standsBy true) := by
  obtain ⟨_, hW, hr, hP, _⟩ := issuing_spec h
  obtain ⟨ho, V, hV, hb, hpath, hrun, hoth⟩ := retire_spec (i := i) (l := l) hW hP hr
  rw [he] at ho hrun hoth
  exact ⟨ho, V, hV, ⟨hb, hrun, hpath, fun hn => retire_noMonwait hW he hn hV⟩, hoth⟩

/-- Stopping a path leaves it where it stands. -/
theorem StandsAt.stopped {x : Ix} {P : Path} {U : Warp} (h : StandsAt x P U) (k : Stop) :
    StandsAt x { P with stop := some k } (U.modPath x.low fun P => { P with stop := some k }) := by
  obtain ⟨hb, hr, hp, hn⟩ := h
  have hl : ∀ P : Path, ({ P with stop := some k } : Path).lanes = P.lanes := fun _ => rfl
  exact ⟨hb, hr, by rw [path_modPath _ _ _ hl, if_pos rfl, hp]; rfl, fun h => noMonwait_modPath (hn h) fun _ => rfl⟩

/-- A warp that runs none of its paths, after the monitors that a hold fires. -/
theorem StandsAt.fired {x : Ix} {P : Path} {U V : Warp} (h : StandsAt x P U) (hf : OnlyFired U V) :
    V.running = none ∧ (V.path x.low).map Path.unmonitored = some P.unmonitored ∧
    (x.W.noMonwait → { V with paths := [], running := none, mon := [] } = { x.W with paths := [], running := none, mon := [] }) := by
  obtain ⟨hb, hr, hp, hn⟩ := h
  obtain ⟨fr, fp, fm⟩ := hf
  refine ⟨fr.trans hr, by rw [fp, hp]; rfl, fun h => ?_⟩
  rw [fm (hn h)]
  exact congrArg (fun B : Warp => { B with mon := [] }) hb

/-! ## The tag of a prompt -/

/-- Fewer than `n` numbers leave one of the first `n` out. -/
theorem exists_unused {n : Nat} {used : List Nat} (h : used.length < n) : ∃ t < n, t ∉ used := by
  by_contra hc
  have hsub : List.range n ⊆ used := fun t ht => by
    by_contra hu
    exact hc ⟨t, List.mem_range.mp ht, hu⟩
  have := (List.nodup_range.subperm hsub).length_le
  rw [List.length_range] at this
  omega

theorem find?_spec {α : Type} {p : α → Bool} {l : List α} {a b : α} (hb : b ∈ l) (hp : p b = true) :
    p ((l.find? p).getD a) = true ∧ (l.find? p).getD a ∈ l := by
  cases hf : l.find? p with
  | none => exact absurd hp (List.find?_eq_none.mp hf b hb)
  | some c => exact ⟨List.find?_some hf, List.mem_of_find?_eq_some hf⟩

/-- While fewer prompts are pending than there are tags, a prompt gets one that no prompt of its context has. -/
theorem freshTag_spec {s : State} {ctx : Nat} (h : s.prompts.length < 65536) :
    s.freshTag ctx < 65536 ∧ ∀ p ∈ s.prompts, p.ctx = ctx → p.tag ≠ s.freshTag ctx := by
  unfold State.freshTag
  dsimp only
  generalize (Config.promptTag s.free).toNat = t0
  generalize 65536 = n at h
  obtain ⟨t, ht, hu⟩ := exists_unused (used := s.prompts.map (·.tag)) (by rwa [List.length_map])
  have hn : 0 < n := by omega
  have hmem : t ∈ (List.range n).map fun i => (t0 + i) % n := by
    refine List.mem_map.mpr ⟨(t + (n - t0 % n)) % n, List.mem_range.mpr (Nat.mod_lt _ hn), ?_⟩
    have := Nat.mod_lt t0 hn
    rw [Nat.add_mod_mod, ← Nat.mod_add_mod, show t0 % n + (t + (n - t0 % n)) = t + n by omega, Nat.add_mod_right, Nat.mod_eq_of_lt ht]
  obtain ⟨hq, hm⟩ := find?_spec (p := fun t => !s.prompts.any fun p => decide (p.ctx = ctx) && decide (p.tag = t)) (a := t0) hmem (by
    simp only [Bool.not_eq_true', List.any_eq_false, Bool.and_eq_true, decide_eq_true_eq, not_and]
    exact fun p hp _ he => hu (List.mem_map.mpr ⟨p, hp, he⟩))
  generalize List.find? _ _ = o at hq hm
  refine ⟨?_, fun p hp hc he => ?_⟩
  · obtain ⟨i, _, hi⟩ := List.mem_map.mp hm
    rw [← hi]
    exact Nat.mod_lt _ hn
  · simp only [Bool.not_eq_true', List.any_eq_false, Bool.and_eq_true, decide_eq_true_eq, not_and] at hq
    exact hq p hp hc he

/-! ## Holding every team of a context -/

/-- A team held because its context asserted. -/
def Team.asserted (T : Team) : Team := { T with hold := some { T.hold.getD Hold.empty with byAssert := true } }

/-- One step of `holdContext`: an entry of the table of teams. -/
def holdEntry (ctx : Nat) (s : State) (e : Nat × Option Team) : State :=
  match e.2 with
  | some T => if T.ctx = ctx then s.holdTeam e.1 fun h => { h with byAssert := true } else s
  | none => s

theorem holdContext_eq (s : State) (ctx : Nat) : s.holdContext ctx = s.teams.foldl (holdEntry ctx) s := rfl

/-- Warps that run no path keep standing, though their monitors fire. -/
def IdleFired (s u : State) : Prop := ∀ v W, s.warp v = some W → W.running = none → ∃ V, u.warp v = some V ∧ OnlyFired W V

theorem IdleFired.refl (s : State) : IdleFired s s := fun _ W h _ => ⟨W, h, OnlyFired.refl W⟩
theorem IdleFired.trans {s t u : State} (h : IdleFired s t) (k : IdleFired t u) : IdleFired s u := fun v W hW hr => by
  obtain ⟨V, hV, hf⟩ := h v W hW hr
  obtain ⟨U, hU, hg⟩ := k v V hV (hf.1.trans hr)
  exact ⟨U, hU, hf.trans hg⟩

theorem SameStore.refl (s : State) : SameStore s s := rfl
theorem SameStore.trans {s t u : State} (h : SameStore s t) (k : SameStore t u) : SameStore s u := by
  unfold SameStore at *; rw [k, h]

/-- The entry of team `k` is held where the team is of the context; no other team changes. -/
theorem holdEntry_spec {s : State} {ctx k : Nat} {T : Team} (hT : s.team k = some T) :
    SameStore s (holdEntry ctx s (k, some T)) ∧ IdleFired s (holdEntry ctx s (k, some T)) ∧
    (holdEntry ctx s (k, some T)).team k = some (if T.ctx = ctx then T.asserted else T) ∧
    ∀ j, j ≠ k → (holdEntry ctx s (k, some T)).team j = s.team j := by
  unfold holdEntry
  dsimp only
  split
  · obtain ⟨ho, ht, hto, _, hw⟩ := holdTeam_spec (f := fun h => { h with byAssert := true }) hT rfl
    exact ⟨ho, hw, ht, hto⟩
  · exact ⟨.refl s, .refl s, hT, fun _ _ => rfl⟩

/-- Holding the teams of a context whose numbers stand in the rest `es` of the table, which begins at `lo`. -/
theorem holdEntries_spec (ctx : Nat) : ∀ (es : Table (Option Team)) (lo : Nat) (s : State), twfFrom none lo es = true →
    (∀ k, lo ≤ k → s.team k = tget none es k) →
    SameStore s (es.foldl (holdEntry ctx) s) ∧ IdleFired s (es.foldl (holdEntry ctx) s) ∧
    (∀ k, k < lo → (es.foldl (holdEntry ctx) s).team k = s.team k) ∧
    ∀ k T, lo ≤ k → s.team k = some T → (es.foldl (holdEntry ctx) s).team k = some (if T.ctx = ctx then T.asserted else T)
  | [], _, s, _, hs => ⟨.refl s, .refl s, fun _ _ => rfl, fun k T hk hT => by cases (hs k hk).symm.trans hT⟩
  | (_, none) :: _, _, _, hwf, _ => by simp [twfFrom] at hwf
  | (k0, some T0) :: es, lo, s, hwf, hs => by
    simp only [twfFrom, Bool.and_eq_true, decide_eq_true_eq] at hwf
    obtain ⟨⟨hlo, _⟩, hwf⟩ := hwf
    have hT0 : s.team k0 = some T0 := by rw [hs k0 hlo]; simp [tget]
    obtain ⟨ho, hw, ht, hto⟩ := holdEntry_spec (ctx := ctx) hT0
    obtain ⟨ihS, ihW, ihlt, ihge⟩ := holdEntries_spec ctx es (k0 + 1) (holdEntry ctx s (k0, some T0)) hwf fun k hk => by
      rw [hto k (by omega), hs k (by omega), tget, if_neg (by omega)]
    rw [List.foldl_cons]
    refine ⟨ho.trans ihS, hw.trans ihW, fun k hk => by rw [ihlt k (by omega), hto k (by omega)], fun k T hk hT => ?_⟩
    rcases Nat.lt_trichotomy k k0 with h | rfl | h
    · have : s.team k = none := by rw [hs k hk, tget, if_neg (by omega)]; exact tget_lt none hwf (by omega)
      cases this.symm.trans hT
    · cases hT0.symm.trans hT
      rw [ihlt k (by omega), ht]
    · exact ihge k T h ((hto k (by omega)).trans hT)

/-- Holding the teams of a context holds each of them and leaves the others. -/
theorem holdContext_spec {s : State} (ctx : Nat) (hwf : twf none s.teams = true) :
    SameStore s (s.holdContext ctx) ∧ IdleFired s (s.holdContext ctx) ∧
    ∀ k T, s.team k = some T → (s.holdContext ctx).team k = some (if T.ctx = ctx then T.asserted else T) := by
  rw [holdContext_eq]
  obtain ⟨hS, hW, _, hT⟩ := holdEntries_spec ctx s.teams 0 s hwf fun _ _ => rfl
  exact ⟨hS, hW, fun k T h => hT k T (Nat.zero_le k) h⟩

/-! ## The instructions -/

/-- Queueing a record for a context and then changing its register set is one change of it. -/
theorem notify_modCtx (s : State) (e : EvRec) (f : Ctx → Ctx) : (s.notify e).modCtx e.ctx f = { s with
    ctxs := tput Ctx.zero s.ctxs e.ctx (f { tget Ctx.zero s.ctxs e.ctx with records := (tget Ctx.zero s.ctxs e.ctx).records ++ [e] }) } := by
  unfold State.notify State.modCtx State.ctx
  dsimp only
  rw [tput_tput, tget_tput_same]

/-- TRAP with a code below 64: the prompt. -/
theorem trap_prompt {s : State} {x : Ix} {d : BitVec 7} {c : BitVec 8} (hc : c.toNat < 64) (hu : Usable s x [.srcPair d.toNat])
    (hg : UsableG s x [0]) (hp : s.prompts.length < 65536) (h : Starts s x (.trap d c)) :
    let C := tget Ctx.zero s.ctxs x.T.ctx
    ∃ t tag, tag < 65536 ∧ (∀ p ∈ s.prompts, p.ctx = x.T.ctx → p.tag ≠ tag) ∧
      CompletesIn s { s with
        prompts := s.prompts ++ [⟨x.T.ctx, tag, x.w⟩]
        ctxs := tput Ctx.zero s.ctxs x.T.ctx { C with
          records := C.records ++ [{ x.record 1 c.toNat 0 (x.srcPair d.toNat x.low).toNat 0 0 x.low with tag := tag }] } }
        t x (.trap d c) none { x.W with prompt := some tag } := by
  obtain ⟨ho, V, hV, ⟨hb, hr, hpath, _⟩, hoth⟩ := retire_standsAt (l := none) h.1 (endsScene_trap d c)
  have hx : exec (.trap d c) s = execTrap d c s := rfl
  rw [execTrap, run_starts h, withOperands_usable hu, if_pos hc, withUniform_usable hg] at hx
  simp only [if_pos hc, finish] at hx
  obtain ⟨hfree, hunused⟩ := freshTag_spec (ctx := x.T.ctx) hp
  generalize retire x (.trap d c) s none = u at ho hV hx
  obtain ⟨hs, hwarps⟩ := ho
  have htag : u.freshTag x.T.ctx = s.freshTag x.T.ctx := by rw [hs]; rfl
  rw [htag, State.modWarp_eq hV] at hx
  generalize s.freshTag x.T.ctx = tag at hfree hunused hx
  refine ⟨_, tag, hfree, hunused, hx, ?_, { V with prompt := some tag }, State.setWarp_warp_same _ _ _,
    congrArg (fun B : Warp => { B with prompt := some tag }) hb, ?_⟩
  · rw [endsScene_trap]
    refine ⟨by rw [hs]; rfl, fun v hv => ?_⟩
    exact (State.setWarp_warp _ _ _ _).trans ((if_neg hv).trans (hwarps v hv))
  · unfold PathDone
    rw [endsScene_trap]
    exact ⟨hpath, hr, hoth⟩

/-- TRAP with a code of 64 or more: the assertion. -/
theorem trap_assertion {s : State} {x : Ix} {d : BitVec 7} {c : BitVec 8} (hc : ¬ c.toNat < 64) (hu : Usable s x [.srcPair d.toNat])
    (hwf : twf none s.teams = true) (h : Starts s x (.trap d c)) :
    let C := tget Ctx.zero s.ctxs x.T.ctx
    ∃ t V, exec (.trap d c) s = .next t ∧ SameStore { s with ctxs := tput Ctx.zero s.ctxs x.T.ctx { C with
        records := C.records ++ [x.record 2 c.toNat 0 (x.srcPair d.toNat x.low).toNat 0 0 x.low], stopped := true, asserted := true } } t ∧
      (∀ k T, s.team k = some T → t.team k = some (if T.ctx = x.T.ctx then T.asserted else T)) ∧
      t.warp x.w = some V ∧ V.running = none ∧
      (V.path x.low).map Path.unmonitored = some (x.after (.trap d c) none).unmonitored ∧
      (x.W.noMonwait → { V with paths := [], running := none, mon := [] } = { x.W with paths := [], running := none, mon := [] }) := by
  obtain ⟨⟨hs, _⟩, U, hU, hst, _⟩ := retire_standsAt (l := none) h.1 (endsScene_trap d c)
  have hx : exec (.trap d c) s = execTrap d c s := rfl
  rw [execTrap, run_starts h, withOperands_usable hu, if_neg hc, withUniform_usable fun _ hg => absurd hg List.not_mem_nil] at hx
  simp only [if_neg hc, finish] at hx
  generalize retire x (.trap d c) s none = u at hs hU hx
  generalize hu1 : (u.notify _).modCtx x.T.ctx _ = u1 at hx
  have hctx : SameStore { s with ctxs := tput Ctx.zero s.ctxs x.T.ctx { tget Ctx.zero s.ctxs x.T.ctx with
      records := (tget Ctx.zero s.ctxs x.T.ctx).records ++ [x.record 2 c.toNat 0 (x.srcPair d.toNat x.low).toNat 0 0 x.low],
      stopped := true, asserted := true } } u1 := by
    rw [← hu1, hs]
    exact notify_modCtx _ (x.record 2 c.toNat 0 (x.srcPair d.toNat x.low).toNat 0 0 x.low) _
  have hteams : u1.teams = s.teams := by rw [← hu1, hs]; rfl
  obtain ⟨hS, hW, hT⟩ := holdContext_spec (s := u1) x.T.ctx (hteams ▸ hwf)
  obtain ⟨V, hV, hf⟩ := hW x.w U (by rw [← hu1]; exact hU) hst.2.1
  refine ⟨_, V, hx, hctx.trans hS, fun k T hk => hT k T ?_, hV, hst.fired hf⟩
  unfold State.team
  rwa [hteams]

/-- BRK. -/
theorem brk_hold {s : State} {x : Ix} {c : BitVec 8} (h : Starts s x (.brk c)) :
    ∃ t V, exec (.brk c) s = .next t ∧ SameStore s t ∧
      t.team x.W.team = some { x.T with hold := some { x.T.hold.getD Hold.empty with
        recs := (x.T.hold.getD Hold.empty).recs ++ [x.record 4 c.toNat 0 0 0 0 x.low] } } ∧
      (∀ k, k ≠ x.W.team → t.team k = s.team k) ∧ t.warp x.w = some V ∧ V.running = none ∧
      (V.path x.low).map Path.unmonitored = some
        ({ x.after (.brk c) none with stop := some ⟨0xFF, 0, 1, true, none, false⟩ } : Path).unmonitored ∧
      (x.W.noMonwait → { V with paths := [], running := none, mon := [] } = { x.W with paths := [], running := none, mon := [] }) := by
  obtain ⟨⟨hs, _⟩, U, hU, hst, _⟩ := retire_standsAt (l := none) h.1 (endsScene_brk c)
  have hx : exec (.brk c) s = execBrk c s := rfl
  rw [execBrk, run_starts h] at hx
  dsimp only [finish] at hx
  generalize retire x (.brk c) s none = u at hs hU hx
  rw [State.modWarp_eq hU] at hx
  have hteam : ∀ k, (u.setWarp x.w (U.modPath x.low fun P => { P with stop := some ⟨0xFF, 0, 1, true, none, false⟩ })).team k = s.team k :=
    fun k => by rw [hs]; rfl
  obtain ⟨hS, hT, hTo, _, hW⟩ := holdTeam_spec (f := fun h => { h with recs := h.recs ++ [x.record 4 c.toNat 0 0 0 0 x.low] })
    ((hteam _).trans (issuing_spec h.1).2.2.2.2) rfl
  have hst' := hst.stopped ⟨0xFF, 0, 1, true, none, false⟩
  obtain ⟨V, hV, hf⟩ := hW x.w _ (State.setWarp_warp_same _ _ _) hst'.2.1
  refine ⟨_, V, hx, ?_, hT, fun k hk => (hTo k hk).trans (hteam k), hV, hst'.fired hf⟩
  unfold SameStore at hS ⊢
  rw [hS, hs]
  rfl

/-- Settles O40: the prompt and the assertion of TRAP, the stop of BRK, and the illegal-instruction fault, each by the lemma
of its case. -/
theorem trapsAndBreaks : Obligations.TrapsAndBreaks := by
  unfold Obligations.TrapsAndBreaks
  exact fun s x d c w => ⟨trap_prompt, fun hc => trap_assertion (by omega), brk_hold, fun h => takes_fault h rfl rfl⟩

end Sys2Proof.Machine
end

section
/-! One step (O53): what leaves the L2s at its end, what a fetch reads, and the turns. -/

namespace Sys2Proof.Machine

set_option Elab.async false

/-! ## Counting the entries of a table -/

theorem countP_tinsert {α : Type} (q : Nat × α → Bool) (i : Nat) (x : α) : ∀ t : Table α,
    (tinsert t i x).countP q = t.countP q + if q (i, x) then 1 else 0
  | [] => by simp [tinsert, List.countP_cons]
  | (k, v) :: t => by
    unfold tinsert
    split
    · rw [List.countP_cons]
    · rw [List.countP_cons, countP_tinsert q i x t, List.countP_cons]
      omega

/-- What `terase` leaves of a table whose entry at `i` counts is less by one at least. -/
theorem countP_terase {α : Type} {q : Nat × α → Bool} {d : α} {i : Nat} (hd : q (i, d) = false) : ∀ t : Table α,
    (terase t i).countP q + (if q (i, tget d t i) then 1 else 0) ≤ t.countP q
  | [] => by simp [terase, tget, hd]
  | (k, v) :: t => by
    have ih := countP_terase hd t
    rw [List.countP_cons]
    by_cases hk : k = i
    · subst hk
      simp only [terase, tget, if_true]
      omega
    · simp only [terase, tget, hk, if_false, List.countP_cons]
      omega

/-- An entry put in place of one that counts where it does itself adds nothing to a count. -/
theorem countP_tput_le {α : Type} [DecidableEq α] {q : Nat × α → Bool} {d : α} {t : Table α} {i : Nat} {x : α}
    (hd : q (i, d) = false) (hx : q (i, x) = true → q (i, tget d t i) = true) : (tput d t i x).countP q ≤ t.countP q := by
  have he := countP_terase hd t
  unfold tput
  split
  · omega
  · rw [countP_tinsert]
    by_cases h : q (i, x) = true
    · rw [if_pos (hx h)] at he
      rwa [if_pos h]
    · rw [if_neg h]
      omega

/-! ## Lines that leave an L2 -/

theorem Evicted.refl (s : State) : Evicted s s := ⟨rfl, .refl s, fun _ => rfl⟩
theorem Evicted.trans {s t u : State} (h : Evicted s t) (k : Evicted t u) : Evicted s u := by
  obtain ⟨h1, h2, h3⟩ := h
  obtain ⟨k1, k2, k3⟩ := k
  exact ⟨by rw [k1, h1], h2.trans k2, fun pa => (k3 pa).trans (h3 pa)⟩

theorem Held.evicted {s t : State} (h : Held s t) (hb : ∀ pa, t.byteAt pa = s.byteAt pa) : Evicted s t := by
  unfold Held at h
  exact ⟨by rw [h], warpsFire_of_warps (by rw [h]), hb⟩

theorem evicted_fireLine (s : State) (l : Nat) : Evicted s (s.fireLine l) := ⟨rfl, (written_fireLine s l).2, fun _ => rfl⟩

theorem warpsFire_fireLineOn (s : State) (die l : Nat) : WarpsFire s (s.fireLineOn die l) := fun w W hW => by
  have h := tget_map_keyed s.warps (fun k o => if s.dieOf (coreOf k) = die then o.map fun W => W.fireMon fun m => decide (m.pa / 128 = l) else o)
    (fun k => by split <;> rfl) w
  have hW' : tget none s.warps w = some W := hW
  rw [hW'] at h
  split at h
  · exact ⟨W.fireMon fun m => decide (m.pa / 128 = l), h, fireMon_spec W _⟩
  · exact ⟨W, h, OnlyFired.refl W⟩

theorem evicted_recall (s : State) (l : Nat) : Evicted s (s.recall l) :=
  ((held_writeBack s l).evicted fun _ => byteAt_writeBack _ _ _).trans
    (.trans ⟨rfl, warpsFire_of_warps rfl, fun _ => rfl⟩ (evicted_fireLine _ _))

theorem recall_dir (s : State) (l : Nat) : tget LineDir.zero (s.recall l).dir l = LineDir.zero :=
  tget_tput_same LineDir.zero (s.writeBack l).dir l LineDir.zero

/-- What the directory has of a line that leaves the L2 of a die. -/
def LineDir.without (e : LineDir) (die : Nat) : LineDir :=
  ⟨e.sharers &&& ~~~(BitVec.ofNat 16 (2 ^ die)), if decide (e.owner = some die) then none else e.owner⟩

theorem without_sharers (e : LineDir) (die d : Nat) :
    (e.without die).sharers.getLsbD d = (e.sharers.getLsbD d && !decide (die = d)) := by
  unfold LineDir.without
  by_cases hd : d < 16
  · rw [BitVec.getLsbD_and, BitVec.getLsbD_not, BitVec.getLsbD_ofNat, Nat.testBit_two_pow]
    simp [hd]
  · simp [BitVec.getLsbD_of_ge e.sharers d (by omega)]

/-- A die's L2 that evicts a line it holds writes it back where it owns it, gives it up, and fires its monitors. -/
theorem evict_eq {s : State} {die line : Nat} (h : s.holds die line = true) : s.evict die line =
    (({ (if decide ((tget LineDir.zero s.dir line).owner = some die) then s.writeBack line else s) with
      dir := tput LineDir.zero s.dir line ((tget LineDir.zero s.dir line).without die) } : State).fireLineOn die line) := by
  unfold State.evict
  rw [if_pos h]
  dsimp only
  congr 2
  split <;> simp [LineDir.without, *]

theorem evict_none {s : State} {die line : Nat} (h : s.holds die line = false) : s.evict die line = s := by
  unfold State.evict
  rw [if_neg (by simp [h])]

theorem evict_dir {s : State} {die line : Nat} (h : s.holds die line = true) :
    (s.evict die line).dir = tput LineDir.zero s.dir line ((tget LineDir.zero s.dir line).without die) := by
  rw [evict_eq h]; rfl

theorem evicted_evict (s : State) (die line : Nat) : Evicted s (s.evict die line) := by
  cases h : s.holds die line with
  | false => rw [evict_none h]; exact .refl s
  | true =>
    rw [evict_eq h]
    have hw : Evicted s (if decide ((tget LineDir.zero s.dir line).owner = some die) then s.writeBack line else s) := by
      split
      · exact (held_writeBack s line).evicted fun _ => byteAt_writeBack _ _ _
      · exact .refl s
    exact hw.trans (.trans ⟨rfl, warpsFire_of_warps rfl, fun _ => rfl⟩ ⟨rfl, warpsFire_fireLineOn _ _ _, fun _ => rfl⟩)

/-- The L2s of `t` hold no line that those of `s` do not, and no set more lines. -/
def Fewer (s t : State) : Prop :=
  (∀ d l, t.holds d l = true → s.holds d l = true) ∧ ∀ d n, t.l2Ways d n ≤ s.l2Ways d n

theorem Fewer.refl (s : State) : Fewer s s := ⟨fun _ _ h => h, fun _ _ => le_rfl⟩
theorem Fewer.trans {s t u : State} (h : Fewer s t) (k : Fewer t u) : Fewer s u := by
  obtain ⟨h1, h2⟩ := h
  obtain ⟨k1, k2⟩ := k
  exact ⟨fun d l hl => h1 d l (k1 d l hl), fun d n => (k2 d n).trans (h2 d n)⟩

theorem l2Over_iff {s : State} {p : Nat × Nat} : s.l2Over p = true ↔ s.holds p.1 p.2 = true ∧ 12 < s.l2Ways p.1 (l2Set p.2) := by
  unfold State.l2Over
  rw [Bool.and_eq_true, decide_eq_true_eq]

theorem Fewer.over {s t : State} (h : Fewer s t) {p : Nat × Nat} (hp : t.l2Over p = true) : s.l2Over p = true := by
  obtain ⟨hh, hw⟩ := h
  obtain ⟨h1, h2⟩ := l2Over_iff.mp hp
  exact l2Over_iff.mpr ⟨hh _ _ h1, h2.trans_le (hw _ _)⟩

/-- After an eviction a die holds what it held but for the line evicted. -/
theorem holds_evict (s : State) (die line d l : Nat) :
    (s.evict die line).holds d l = (s.holds d l && !(decide (die = d) && decide (l = line))) := by
  cases h : s.holds die line with
  | false =>
    rw [evict_none h]
    by_cases hd : die = d ∧ l = line
    · obtain ⟨rfl, rfl⟩ := hd
      simp [h]
    · simp [show ¬ (die = d ∧ l = line) from hd, ← Bool.decide_and]
  | true =>
    unfold State.holds
    rw [evict_dir h, tget_tput]
    by_cases hl : l = line
    · subst hl
      rw [if_pos rfl, without_sharers]
      simp
    · simp [hl]

theorem fewer_evict (s : State) (die line : Nat) : Fewer s (s.evict die line) := by
  refine ⟨fun d l hl => ?_, fun d n => ?_⟩
  · rw [holds_evict] at hl
    exact Bool.and_elim_left hl
  · cases h : s.holds die line with
    | false => rw [evict_none h]
    | true =>
      unfold State.l2Ways
      rw [evict_dir h, ← List.countP_eq_length_filter, ← List.countP_eq_length_filter]
      refine countP_tput_le (by simp [LineDir.zero]) fun hx => ?_
      simp only [Bool.and_eq_true, without_sharers] at hx ⊢
      exact ⟨hx.1, hx.2.1⟩

/-- One line that leaves where its set is over. -/
def trimLine (s : State) (p : Nat × Nat) : State := if s.l2Over p then s.evict p.1 p.2 else s

theorem trimLine_spec (s : State) (p : Nat × Nat) :
    Evicted s (trimLine s p) ∧ Fewer s (trimLine s p) ∧ (trimLine s p).l2Over p = false := by
  unfold trimLine
  split
  · refine ⟨evicted_evict _ _ _, fewer_evict _ _ _, ?_⟩
    unfold State.l2Over
    rw [holds_evict]
    simp
  · next h => exact ⟨.refl s, .refl s, by simpa using h⟩

theorem trimLines_spec : ∀ (ps : List (Nat × Nat)) (s : State),
    Evicted s (ps.foldl trimLine s) ∧ Fewer s (ps.foldl trimLine s) ∧ ∀ p ∈ ps, (ps.foldl trimLine s).l2Over p = false
  | [], s => ⟨.refl s, .refl s, nofun⟩
  | p :: ps, s => by
    obtain ⟨he, hf, hp⟩ := trimLine_spec s p
    obtain ⟨ie, ih, ip⟩ := trimLines_spec ps (trimLine s p)
    rw [List.foldl_cons]
    refine ⟨he.trans ie, hf.trans ih, fun q hq => ?_⟩
    rcases List.mem_cons.mp hq with rfl | hq
    · exact Bool.eq_false_iff.mpr fun h => by rw [ih.over h] at hp; cases hp
    · exact ip q hq

/-- A line that an L2 holds stands in the directory, and the die is one of the 16. -/
theorem mem_of_holds {s : State} {die line : Nat} (h : s.holds die line = true) :
    die < 16 ∧ ∃ e, (line, e) ∈ s.dir := by
  have hd : die < 16 := by
    by_contra hc
    rw [State.holds, BitVec.getLsbD_of_ge _ _ (by omega)] at h
    cases h
  refine ⟨hd, ?_⟩
  have key : ∀ t : Table LineDir, (tget LineDir.zero t line).sharers.getLsbD die = true → ∃ e, (line, e) ∈ t := by
    intro t
    induction t with
    | nil => simp [tget, LineDir.zero]
    | cons e t ih =>
      obtain ⟨k, v⟩ := e
      by_cases hk : k = line
      · subst hk; exact fun _ => ⟨v, List.mem_cons_self⟩
      · intro ht
        rw [tget, if_neg hk] at ht
        obtain ⟨e, he⟩ := ih ht
        exact ⟨e, List.mem_cons_of_mem _ he⟩
  exact key s.dir h

/-- At the end of a step lines only leave L2s, and no set of an L2 holds more lines than its ways. -/
theorem l2Trim_spec (s : State) : Evicted s s.l2Trim ∧ ∀ die line, s.l2Trim.holds die line = true → s.l2Trim.l2Ways die (l2Set line) ≤ 12 := by
  unfold State.l2Trim
  split
  · next h => exact ⟨.refl s, fun _ _ _ => (List.length_filter_le _ _).trans h⟩
  · dsimp only
    generalize hps : List.filter _ _ = ps
    generalize Config.l2Victim s.free % ps.length = k
    obtain ⟨he, hf, hp⟩ := trimLines_spec (ps.drop k ++ ps.take k) s
    refine ⟨he, fun die line hh => ?_⟩
    by_contra hc
    have ho := l2Over_iff (p := (die, line)) |>.mpr ⟨hh, Nat.lt_of_not_le hc⟩
    obtain ⟨hd, e, hm⟩ := mem_of_holds (hf.1 _ _ hh)
    have hmem : (die, line) ∈ ps := by
      rw [← hps]
      exact List.mem_filter.mpr ⟨List.mem_flatMap.mpr ⟨_, hm, List.mem_map.mpr ⟨die, List.mem_range.mpr hd, rfl⟩⟩, hf.over ho⟩
    have hmem' : (die, line) ∈ ps.drop k ++ ps.take k := by
      rw [← List.take_append_drop k ps] at hmem
      exact List.mem_append.mpr (List.mem_append.mp hmem).symm
    exact absurd ho (Bool.eq_false_iff.mp (hp _ hmem'))

/-- A step is its turn, and then the lines that the L2s cannot hold leave them. -/
theorem stepIs_turn {s : State} {o : Host.Outcome State Fault Refusal} (h : takeTurn s = o) : StepIs s o := by
  subst h
  unfold StepIs step
  refine ⟨fun t ht => ?_, fun hn => ?_⟩
  · rw [ht]
    obtain ⟨he, hw⟩ := l2Trim_spec t
    exact ⟨_, rfl, he, hw⟩
  · split
    · next t ht => exact absurd ht (hn t)
    · rfl

/-! ## Fetching -/

/-- Reading and translating memory leaves the path that issues. -/
theorem Shared.issuing {s t : State} (h : Shared s t) : t.issuing = s.issuing := by rw [h.1]; rfl

theorem fetchWord_shared {x : Ix} {s u : State} {va w : Nat} (h : fetchWord x s va = .ok (u, w)) : Shared s u := by
  unfold fetchWord at h
  split at h
  · cases h
  · split at h
    · cases h
    · cases h
      exact (shared_keepLeaf _ _ _ _ _).trans (shared_shareBytes _ _ _)

/-- A fetched word is the word as it stands, or one of those noted of it since the launch was accepted (02 R62). -/
theorem fetched_spec (s : State) (key va pa : Nat) :
    s.fetched key va pa = leNat ((List.range 4).map fun i => s.openByteAt (pa + i)) ∨
      ∃ e ∈ tget [] s.olds (pa / 4), key < e.1 ∧ s.fetched key va pa = e.2.toNat := by
  unfold State.fetched
  dsimp only
  split
  · exact .inl rfl
  · split
    · exact .inl rfl
    · split
      · next w hw =>
        have hm := List.mem_of_getElem? hw
        unfold State.oldWords at hm
        obtain ⟨e, he, hv⟩ := List.mem_map.mp hm
        obtain ⟨he, hk⟩ := List.mem_filter.mp he
        exact .inr ⟨e, he, of_decide_eq_true hk, by rw [hv]⟩
      · exact .inl rfl

/-- A fetch from a canonical address that translates. -/
theorem fetchWord_ok {x : Ix} {s : State} {va : Nat} {l : Xlat} (hc : canonical va = true)
    (hl : s.translate x.core x.T.ctx va .fetch = .ok l) : fetchWord x s va =
      .ok ((s.keepLeaf x.core x.T.ctx va l).shareBytes (s.dieOf x.core) [l.pa], s.fetched x.T.launch va l.pa) := by
  unfold fetchWord
  simp only [hc, hl, Bool.not_true, Bool.false_eq_true, if_false]

theorem fetchWord_spec {x : Ix} {s : State} {va : Nat} {l : Xlat} (hc : canonical va = true)
    (hl : s.translate x.core x.T.ctx va .fetch = .ok l) :
    ∃ u w, fetchWord x s va = .ok (u, w) ∧ Shared s u ∧
      (w = leNat ((List.range 4).map fun i => s.openByteAt (l.pa + i)) ∨
        ∃ e ∈ tget [] s.olds (l.pa / 4), x.T.launch < e.1 ∧ w = e.2.toNat) :=
  ⟨_, _, fetchWord_ok hc hl, fetchWord_shared (fetchWord_ok hc hl), fetched_spec _ _ _ _⟩

/-- The first two words stand fetched in `s3`: the second where the first needs one. -/
def TwoFetched (x : Ix) (s1 s3 : State) (w0 w1 : Nat) : Prop :=
  ∃ s2, fetchWord x s1 x.P.pc.toNat = .ok (s2, w0) ∧
    (needsSecond w0 = true ∧ fetchWord x s2 ((x.P.pc.toNat + 4) % 2 ^ 56) = .ok (s3, w1) ∨ needsSecond w0 = false ∧ s3 = s2 ∧ w1 = 0)

/-- The further word of a two-word form after a PFX stands fetched in `s4`, as 0 where that fails. -/
def ThirdFetched (x : Ix) (s3 s4 : State) (w0 w1 w2 : Nat) : Prop :=
  if isPfxWord w0 = true ∧ isTwoWord w1 = true then
    (fetchWord x s3 ((x.P.pc.toNat + 8) % 2 ^ 56) = .ok (s4, w2) ∨
      (∃ c, fetchWord x s3 ((x.P.pc.toNat + 8) % 2 ^ 56) = .error c) ∧ s4 = s3 ∧ w2 = 0)
  else s4 = s3 ∧ w2 = 0

section Fetch
variable {x : Ix} {s1 s3 s4 : State} {w0 w1 w2 : Nat} (h : TwoFetched x s1 s3 w0 w1) (k : ThirdFetched x s3 s4 w0 w1 w2)
include h k

theorem fetched_shared : Shared s1 s4 := by
  obtain ⟨s2, h0, h1⟩ := h
  have h3 : Shared s1 s3 := by
    rcases h1 with ⟨_, h1⟩ | ⟨_, rfl, _⟩
    · exact (fetchWord_shared h0).trans (fetchWord_shared h1)
    · exact fetchWord_shared h0
  unfold ThirdFetched at k
  split at k
  · rcases k with k | ⟨_, rfl, _⟩
    · exact h3.trans (fetchWord_shared k)
    · exact h3
  · obtain ⟨rfl, _⟩ := k
    exact h3

/-- What a fetch brings whose words are fetched. -/
theorem fetch_eq_readWords : fetch x s1 = readWords x s4 w0 w1 w2 := by
  obtain ⟨s2, h0, h1⟩ := h
  unfold fetch
  simp only [h0]
  rcases h1 with ⟨hn, h1⟩ | ⟨hn, rfl, rfl⟩
  · rw [if_pos hn]
    simp only [h1]
    unfold ThirdFetched at k
    by_cases hp : isPfxWord w0 = true ∧ isTwoWord w1 = true
    · rw [if_pos hp] at k
      rw [if_pos (by rw [hp.1, hp.2]; rfl)]
      rcases k with k | ⟨⟨c, k⟩, rfl, rfl⟩ <;> simp only [k]
    · rw [if_neg hp] at k
      obtain ⟨rfl, rfl⟩ := k
      rw [if_neg (by rwa [Bool.and_eq_true])]
  · have hp : ¬ (isPfxWord w0 = true ∧ isTwoWord 0 = true) := by
      rintro ⟨hp, _⟩
      rw [needsSecond, hp] at hn
      cases hn
    rw [ThirdFetched, if_neg hp] at k
    obtain ⟨rfl, rfl⟩ := k
    rw [if_neg (by rw [hn]; exact Bool.false_ne_true)]

end Fetch

/-- Words that decode to an instruction are read as it. -/
theorem readWords_ok {x : Ix} {s : State} {w0 w1 w2 n : Nat} {i : Instr} (h : decode w0 w1 = .ok (i, n)) :
    readWords x s w0 w1 w2 = .instr s i := by
  unfold readWords
  rw [h]

/-- The illegal-instruction fault of words: the instruction's first word, its further word if its form has one, and the PFX
before it. -/
def illegalTrap (w0 w1 w2 : Nat) : Trap :=
  ⟨1, 0, if isPfxWord w0 then w1 else w0, if isPfxWord w0 then w2 else if isTwoWord w0 then w1 else 0,
    if isPfxWord w0 then w0 else 0, none⟩

/-- Words that decode to none are the illegal-instruction fault. -/
theorem readWords_error {x : Ix} {s : State} {w0 w1 w2 : Nat} {e : DecodeError} (h : decode w0 w1 = .error e) :
    ∃ st, readWords x s w0 w1 w2 = .illegal s (illegalTrap w0 w1 w2) st ∧ st.code = 1 ∧ st.cause = 0 := by
  unfold readWords illegalTrap
  rw [h]
  dsimp only
  by_cases hp : isPfxWord w0 = true
  · simp only [if_pos hp]
    exact ⟨_, rfl, rfl, rfl⟩
  · simp only [if_neg hp]
    split <;> exact ⟨_, rfl, rfl, rfl⟩

/-! ## The turns -/

theorem takeTurn_issue {s : State} {w : Nat} (ht : s.turn = .issue w) : takeTurn s = issueStep { s.begin with cur := w } := by
  unfold takeTurn
  simp only [ht]

section Issue
variable {s t : State} {x : Ix} (hi : s.issuing = some x) (hw : x.P.wait = none)
include hi hw

theorem issueStep_fail {cause va : Nat} (hf : fetch x s = .fail cause va) :
    issueStep s = execInstructionFetchFault cause (BitVec.ofNat 64 va) s := by
  unfold issueStep
  simp only [hi, hw, hf]

theorem issueStep_illegal {tr : Trap} {st : Stop} (hf : fetch x s = .illegal t tr st) : issueStep s = .next (raise x t st tr) := by
  unfold issueStep
  simp only [hi, hw, hf]

theorem issueStep_instr {i : Instr} (hf : fetch x s = .instr t i) : issueStep s = exec i t := by
  unfold issueStep
  simp only [hi, hw, hf]

end Issue

/-- The fetch of the first word fails to translate. -/
theorem fetch_fail_first {x : Ix} {s : State} {c : Nat} (h : fetchWord x s x.P.pc.toNat = .error c) :
    fetch x s = .fail c x.P.pc.toNat := by
  unfold fetch
  simp only [h]

/-- The fetch of the second word fails to translate. -/
theorem fetch_fail_second {x : Ix} {s s2 : State} {w0 c : Nat} (h : fetchWord x s x.P.pc.toNat = .ok (s2, w0))
    (hn : needsSecond w0 = true) (h2 : fetchWord x s2 ((x.P.pc.toNat + 4) % 2 ^ 56) = .error c) :
    fetch x s = .fail c ((x.P.pc.toNat + 4) % 2 ^ 56) := by
  unfold fetch
  simp only [h, hn, if_true, h2]

/-- The turn of an event that is one is its execution. -/
theorem takeTurn_event {s : State} {i : Instr} (ht : s.turn = .event i) (hw : i.isWord = false) (hf : i.wf = true) :
    takeTurn s = exec i s.begin := by
  unfold takeTurn
  simp only [ht, hw, hf]
  exact if_neg (by decide)

theorem takeTurn_evict {s : State} {die line : Nat} (ht : s.turn = .evict die line) : takeTurn s = .next (s.begin.evict die line) := by
  unfold takeTurn
  simp only [ht]

theorem takeTurn_dropDir {s : State} {line : Nat} (ht : s.turn = .dropDir line) : takeTurn s = .next (s.begin.recall line) := by
  unfold takeTurn
  simp only [ht]

theorem takeTurn_hubEvict {s : State} {line : Nat} (ht : s.turn = .hubEvict line) : takeTurn s = .next (s.begin.hubEvict line) := by
  unfold takeTurn
  simp only [ht]

theorem evict_holds (s : State) (die line : Nat) : (s.evict die line).holds die line = false := by
  rw [holds_evict]; simp

theorem evicted_hubEvict (s : State) (line : Nat) : Evicted s (s.hubEvict line) := by
  unfold State.hubEvict
  split
  · exact (held_mscDrop s line).evicted fun _ => byteAt_mscDrop _ _ _
  · exact .refl s

theorem hubEvict_mscHeld (s : State) (line : Nat) : tget false (s.hubEvict line).mscHeld ((s.hubEvict line).cellLine line) = false := by
  unfold State.hubEvict
  split
  · have hc : (s.mscDrop line).cellLine line = s.cellLine line := congrArg (· / 128) (cellOf_congr (by unfold State.mscDrop; rfl) _)
    rw [hc]
    exact tget_tput_same false s.mscHeld (s.cellLine line) false
  · next h => simpa using h

/-- Settles O53: a turn of a warp by what its fetch brings, the fetch, the turn of an event, and the three turns in which a
line is given up. -/
theorem stepRunsTheDecodedInstruction : Obligations.StepRunsTheDecodedInstruction := by
  unfold Obligations.StepRunsTheDecodedInstruction
  refine ⟨?_, fun s x va l hc hl => fetchWord_spec hc hl, fun s i ht hw hf => stepIs_turn (takeTurn_event ht hw hf),
    fun s die line => ⟨fun ht => ?_, fun ht => ?_, fun ht => ?_⟩⟩
  · intro s s2 s3 s4 w w0 w1 w2 x s1 va vb vc pfx ht hi hw
    have hturn := takeTurn_issue ht
    refine ⟨fun c hc => stepIs_turn (hturn.trans (issueStep_fail hi hw (fetch_fail_first hc))),
      fun c h0 hn hc => stepIs_turn (hturn.trans (issueStep_fail hi hw (fetch_fail_second h0 hn hc))), fun h0 h1 h2 => ?_⟩
    have hf := fetch_eq_readWords ⟨s2, h0, h1⟩ h2
    have hi4 : s4.issuing = some x := (fetched_shared ⟨s2, h0, h1⟩ h2).issuing.trans hi
    refine ⟨hi4, fun i n hd => stepIs_turn (hturn.trans (issueStep_instr hi hw (hf.trans (readWords_ok hd)))), fun e hd => ?_⟩
    obtain ⟨st, hr, hcode, hcause⟩ := readWords_error (x := x) (s := s4) (w2 := w2) hd
    exact ⟨_, st, stepIs_turn (hturn.trans (issueStep_illegal hi hw (hf.trans hr))), hcode,
      raise_spec (t := illegalTrap w0 w1 w2) hi4 hcode hcause⟩
  · exact ⟨_, stepIs_turn (takeTurn_evict ht), evicted_evict _ _ _, evict_holds _ _ _⟩
  · exact ⟨_, stepIs_turn (takeTurn_dropDir ht), evicted_recall _ _, recall_dir _ _⟩
  · exact ⟨_, stepIs_turn (takeTurn_hubEvict ht), evicted_hubEvict _ _, hubEvict_mscHeld _ _⟩

end Sys2Proof.Machine
end

section
/-! Integer arithmetic (O1): the exact results of the rules, and that each instruction is one lane operation with its value. -/

namespace Sys2Proof.Machine

/-! ## Lane operations by the value of each lane -/

section
variable {s : State} {x : Ix} {i : Instr} {n : Bool} {p : Option Pfx} {d : BitVec 7} {us : List Use} {body : Ix → Res}

/-- A lane instruction whose 32-bit result is `f` in each lane. -/
theorem laneOp_value {f g : Nat → Word} (h : Starts s x i) (hx : exec i s = run i s body) (hu : Usable s x (.reg d.toNat :: us))
    (hb : body x = laneOp x s n p d us g) (hv : ∀ l, g l = f l) : LaneResult s x i n p false d.toNat fun l => (f l).setWidth 64 := by
  obtain rfl : g = f := funext hv
  exact laneOp_spec h hx hu hb

/-- A lane instruction whose 64-bit result is `f` in each lane. -/
theorem laneOp64_value {f g : Nat → DWord} (h : Starts s x i) (hx : exec i s = run i s body) (hu : Usable s x (.regPair d.toNat :: us))
    (hb : body x = laneOp64 x s n p d us g) (hv : ∀ l, g l = f l) : LaneResult s x i n p true d.toNat f := by
  obtain rfl : g = f := funext hv
  exact laneOp64_spec h hx hu hb

end

/-! ## Results of the rules (03 R75 to R78) -/

theorem sat32_eq_fit (p : Option Pfx) (i : Int) : sat32 p i = fit p 32 i := rfl

theorem sat64_eq_fit (p : Option Pfx) (i : Int) : sat64 p i = fit p 64 i := rfl

/-- The product of two 32-bit integers fits in 64 bits. -/
theorem toInt_mul_signExtend (u v : Word) : (u.signExtend 64 * v.signExtend 64).toInt = u.toInt * v.toInt := by
  rw [BitVec.toInt_mul, BitVec.toInt_signExtend_of_le (by decide), BitVec.toInt_signExtend_of_le (by decide)]
  have hu := BitVec.le_toInt u
  have hv := BitVec.le_toInt v
  have hu' := BitVec.toInt_lt (x := u)
  have hv' := BitVec.toInt_lt (x := v)
  norm_num at hu hv hu' hv'
  have hlo : -2 ^ 62 ≤ u.toInt * v.toInt := by nlinarith
  have hhi : u.toInt * v.toInt ≤ 2 ^ 62 := by nlinarith
  apply Int.bmod_eq_of_le <;> omega

/-- The high word of a signed product (03 R76). -/
theorem mulhs_eq (u v : Word) :
    BitVec.ofInt 32 (u.toInt * v.toInt / 2 ^ 32) = (((u.signExtend 64) * (v.signExtend 64)) >>> 32).setWidth 32 := by
  have hshift : u.toInt * v.toInt / 2 ^ 32 = ((u.signExtend 64 * v.signExtend 64).sshiftRight 32).toInt := by
    rw [BitVec.toInt_sshiftRight, Int.shiftRight_eq_div_pow, toInt_mul_signExtend]
    rfl
  rw [hshift]
  generalize u.signExtend 64 * v.signExtend 64 = P
  change (P.sshiftRight 32).signExtend 32 = _
  rw [BitVec.signExtend_eq_setWidth_of_le _ (by decide)]
  ext i hi
  simp [BitVec.getLsbD_sshiftRight, show ¬ 64 ≤ i by omega, show 32 + i < 64 by omega]

/-- The high word of an unsigned product (03 R76). -/
theorem mulhz_eq (u v : Word) :
    BitVec.ofNat 32 (u.toNat * v.toNat / 2 ^ 32) = (((u.setWidth 64) * (v.setWidth 64)) >>> 32).setWidth 32 := by
  have hlt : u.toNat * v.toNat < 2 ^ 64 := by have := u.isLt; have := v.isLt; nlinarith
  apply BitVec.eq_of_toNat_eq
  rw [BitVec.toNat_setWidth, BitVec.toNat_ushiftRight, BitVec.toNat_mul, BitVec.toNat_setWidth_of_le (by decide),
    BitVec.toNat_setWidth_of_le (by decide), BitVec.toNat_ofNat, Nat.mod_eq_of_lt hlt, Nat.shiftRight_eq_div_pow]

theorem imin_eq (u v : Word) : (if v.toInt < u.toInt then v else u) = BitVec.ofInt 32 (min u.toInt v.toInt) := by
  split
  · next h => rw [min_eq_right h.le, BitVec.ofInt_toInt]
  · next h => rw [min_eq_left (not_lt.mp h), BitVec.ofInt_toInt]

theorem imax_eq (u v : Word) : (if u.toInt < v.toInt then v else u) = BitVec.ofInt 32 (max u.toInt v.toInt) := by
  split
  · next h => rw [max_eq_right h.le, BitVec.ofInt_toInt]
  · next h => rw [max_eq_left (not_lt.mp h), BitVec.ofInt_toInt]

theorem iminz_eq (u v : Word) : (if v.toNat < u.toNat then v else u) = BitVec.ofNat 32 (min u.toNat v.toNat) := by
  split
  · next h => rw [min_eq_right h.le, BitVec.ofNat_toNat, BitVec.setWidth_eq]
  · next h => rw [min_eq_left (not_lt.mp h), BitVec.ofNat_toNat, BitVec.setWidth_eq]

theorem imaxz_eq (u v : Word) : (if u.toNat < v.toNat then v else u) = BitVec.ofNat 32 (max u.toNat v.toNat) := by
  split
  · next h => rw [max_eq_right h.le, BitVec.ofNat_toNat, BitVec.setWidth_eq]
  · next h => rw [max_eq_left (not_lt.mp h), BitVec.ofNat_toNat, BitVec.setWidth_eq]

theorem lea_eq (u : DWord) (v : Word) : u + v.signExtend 64 = BitVec.ofInt 64 (u.toInt + v.toInt) := by
  rw [signExtend_eq_ofInt, BitVec.ofInt_add, BitVec.ofInt_toInt]

/-- Settles O1: each instruction is a lane operation whose value in each lane is the exact result of its rule. -/
theorem integerArithmetic : Obligations.IntegerArithmetic := by
  unfold Obligations.IntegerArithmetic
  intro s x e n p d a b A B C P
  refine ⟨fun hu i f hm hs => ?_, fun hu i f hm hs => ?_, fun hu i f hm hs => ?_, fun hu i f hm hs => ?_, fun hu i f hm hs => ?_,
    fun hu i f hm hs => ?_⟩ <;> simp only [List.mem_cons, Prod.mk.injEq, List.not_mem_nil, or_false] at hm
  · rcases hm with ⟨rfl, rfl⟩ | ⟨rfl, rfl⟩ | ⟨rfl, rfl⟩ | ⟨rfl, rfl⟩ | ⟨rfl, rfl⟩ | ⟨rfl, rfl⟩ | ⟨rfl, rfl⟩ | ⟨rfl, rfl⟩ | ⟨rfl, rfl⟩
    · exact laneOp_value hs rfl hu rfl fun _ => sat32_eq_fit p _
    · exact laneOp_value hs rfl hu rfl fun _ => sat32_eq_fit p _
    · exact laneOp_value hs rfl hu rfl fun _ => sat32_eq_fit p _
    · exact laneOp_value hs rfl hu rfl fun _ => mulhs_eq _ _
    · exact laneOp_value hs rfl hu rfl fun _ => mulhz_eq _ _
    · exact laneOp_value hs rfl hu rfl fun _ => imin_eq _ _
    · exact laneOp_value hs rfl hu rfl fun _ => imax_eq _ _
    · exact laneOp_value hs rfl hu rfl fun _ => iminz_eq _ _
    · exact laneOp_value hs rfl hu rfl fun _ => imaxz_eq _ _
  · obtain ⟨rfl, rfl⟩ := hm
    exact laneOp_value hs rfl hu rfl fun _ => sat32_eq_fit p _
  · rcases hm with ⟨rfl, rfl⟩ | ⟨rfl, rfl⟩ | ⟨rfl, rfl⟩
    · exact laneOp_value hs rfl hu rfl fun l => (sat32_eq_fit p _).trans (congrArg (fit p 32) (Int.natCast_natAbs _))
    · exact laneOp_value hs rfl hu rfl fun _ => sat32_eq_fit p _
    · exact laneOp_value hs rfl hu rfl fun _ => sat32_eq_fit p _
  · obtain ⟨rfl, rfl⟩ := hm
    exact laneOp64_value hs rfl hu rfl fun _ => sat64_eq_fit p _
  · rcases hm with ⟨rfl, rfl⟩ | ⟨rfl, rfl⟩
    · exact laneOp64_value hs rfl hu rfl fun _ => sat64_eq_fit p _
    · exact laneOp64_value hs rfl hu rfl fun _ => sat64_eq_fit p _
  · obtain ⟨rfl, rfl⟩ := hm
    exact laneOp64_value hs rfl hu rfl fun _ => lea_eq _ _

end Sys2Proof.Machine
end

section
/-! Logic, moves, shifts and bit fields (O3): the values of the rules, and that each instruction is one lane operation with its
value. -/

namespace Sys2Proof.Machine

/-! ## Immediates (03 R79, R80) -/

theorem zeroExt_eq (b : BitVec 7) : b.setWidth 32 = BitVec.ofNat 32 b.toNat := (BitVec.ofNat_toNat 32 b).symm

/-! ## Shifts and rotations (03 R82) -/

theorem shlW_eq (u : Word) (c : Nat) : shlW u c = BitVec.ofNat 32 (u.toNat * 2 ^ c) := by
  apply BitVec.eq_of_toNat_eq
  unfold shlW
  split
  · next h =>
    obtain ⟨k, rfl⟩ := Nat.exists_eq_add_of_le h
    rw [BitVec.toNat_ofNat, Nat.pow_add, Nat.mul_left_comm, Nat.mul_mod_right]
    rfl
  · rw [BitVec.toNat_shiftLeft, BitVec.toNat_ofNat, Nat.shiftLeft_eq]

theorem shrW_eq (u : Word) (c : Nat) : shrW u c = BitVec.ofNat 32 (u.toNat / 2 ^ c) := by
  apply BitVec.eq_of_toNat_eq
  rw [BitVec.toNat_ofNat, Nat.mod_eq_of_lt (Nat.lt_of_le_of_lt (Nat.div_le_self _ _) u.isLt)]
  unfold shrW
  split
  · next h => rw [Nat.div_eq_of_lt (Nat.lt_of_lt_of_le u.isLt (Nat.pow_le_pow_right (by decide) h))]; rfl
  · rw [BitVec.toNat_ushiftRight, Nat.shiftRight_eq_div_pow]

/-- An integer of at most k bits beside its sign has its sign as the quotient by any greater power. -/
theorem ediv_pow_of_bounds {i : Int} {k n : Nat} (hlo : -2 ^ k ≤ i) (hhi : i < 2 ^ k) (h : k ≤ n) : i / 2 ^ n = i / 2 ^ k := by
  have hpow : (2 : Int) ^ k ≤ 2 ^ n := pow_le_pow_right₀ (by decide) h
  rcases lt_or_ge i 0 with hneg | hpos
  · rw [Int.ediv_eq_neg_one_of_neg_of_le hneg (by omega), Int.ediv_eq_neg_one_of_neg_of_le hneg (by omega)]
  · rw [Int.ediv_eq_zero_of_lt hpos (by omega), Int.ediv_eq_zero_of_lt hpos hhi]

theorem sarW_eq (u : Word) (c : Nat) : sarW u c = BitVec.ofInt 32 (u.toInt / 2 ^ c) := by
  unfold sarW
  by_cases h : c ≤ 32
  · rw [Nat.min_eq_left h]
  · have hlo : -2 ^ 32 ≤ u.toInt := le_trans (by norm_num) (BitVec.le_toInt u)
    have hhi : u.toInt < 2 ^ 32 := lt_trans BitVec.toInt_lt (by norm_num)
    rw [Nat.min_eq_right (by omega), ediv_pow_of_bounds (n := c) hlo hhi (by omega)]

theorem rolW_eq (u : Word) (c : Nat) : rolW u c = u.rotateLeft c := BitVec.rotateLeft_def.symm

/-! ## Bit fields (03 R83) -/

theorem bfxW_eq (u v : Word) : bfxW u v = (u.extractLsb' (bfPos v) (bfLen v)).setWidth 32 := by
  apply BitVec.eq_of_toNat_eq
  rw [bfxW, BitVec.toNat_ofNat, BitVec.toNat_setWidth, BitVec.extractLsb'_toNat, Nat.shiftRight_eq_div_pow]

/-- The signed reading of n in w bits is that of a bit vector with the low w bits of n. -/
theorem sext_eq_toInt {w n : Nat} {X : BitVec w} (hw : w ≠ 0) (hX : X.toNat = n % 2 ^ w) : sext w n = X.toInt := by
  obtain ⟨k, rfl⟩ := Nat.exists_eq_succ_of_ne_zero hw
  rw [BitVec.toInt_eq_toNat_cond, hX, sext, Nat.succ_sub_one, Nat.pow_succ]
  by_cases h : n % (2 ^ k * 2) < 2 ^ k
  · rw [if_pos h, if_pos (by omega)]
  · rw [if_neg h, if_neg (by omega)]

theorem bfxsW_eq (u v : Word) : bfxsW u v = (u.extractLsb' (bfPos v) (bfLen v)).signExtend 32 := by
  unfold bfxsW
  split
  · next h => rw [h, BitVec.eq_nil (u.extractLsb' (bfPos v) 0)]; rfl
  · next h => exact congrArg (BitVec.ofInt 32) (sext_eq_toInt h (by rw [BitVec.extractLsb'_toNat, Nat.shiftRight_eq_div_pow]))

/-- The mask of the field of BFI. -/
theorem bfiMask_eq (len pos : Nat) (h : len ≤ 32) :
    BitVec.ofNat 32 ((2 ^ len - 1) * 2 ^ pos) = (BitVec.allOnes len).setWidth 32 <<< pos := by
  apply BitVec.eq_of_toNat_eq
  rw [BitVec.toNat_ofNat, BitVec.toNat_shiftLeft, BitVec.toNat_setWidth_of_le h, BitVec.toNat_allOnes, Nat.shiftLeft_eq]

theorem bfLen_le (v : Word) : bfLen v ≤ 32 := (min_le_left _ _).trans (min_le_right _ _)

theorem bfiW_eq (u v c : Word) : bfiW u v c =
    (c &&& ~~~((BitVec.allOnes (bfLen v)).setWidth 32 <<< bfPos v)) |||
      ((u <<< bfPos v) &&& ((BitVec.allOnes (bfLen v)).setWidth 32 <<< bfPos v)) := by
  rw [bfiW, bfiMask_eq _ _ (bfLen_le v)]

/-! ## Counts (03 R84) -/

theorem popcW_eq (u : Word) : popcW u = BitVec.ofNat 32 ((List.range 32).countP u.getLsbD) :=
  congrArg (BitVec.ofNat 32) List.countP_eq_length_filter.symm

theorem size_eq_log2 {n : Nat} (h : n ≠ 0) : n.size = n.log2 + 1 :=
  le_antisymm (Nat.size_le.mpr Nat.lt_log2_self) (Nat.lt_size.mpr (Nat.log2_self_le h))

theorem clzW_eq (u : Word) : clzW u = BitVec.ofNat 32 (32 - u.toNat.size) := by
  unfold clzW
  split
  · next h => rw [h]; rfl
  · next h => rw [size_eq_log2 fun hc => h (BitVec.eq_of_toNat_eq hc), Nat.add_comm, ← Nat.sub_sub]

/-- Settles O3: each instruction is a lane operation whose value in each lane is that of its rule. -/
theorem logicAndShifts : Obligations.LogicAndShifts := by
  unfold Obligations.LogicAndShifts
  intro s x e n p d a b k c lit A B N C pos len M special
  refine ⟨fun hu i f hm hs => ?_, fun hu i f hm hs => ?_, fun hu i f hm hs => ?_, fun hu i f hm hs => ?_, fun hu hb hs => ?_,
    fun hu hb hs => ?_, fun hu i f hm hs => ?_, fun hu i f hm hs => ?_, fun hu i f hm hs => ?_⟩
  · simp only [List.mem_cons, Prod.mk.injEq, List.not_mem_nil, or_false] at hm
    rcases hm with ⟨rfl, rfl⟩ | ⟨rfl, rfl⟩ | ⟨rfl, rfl⟩ | ⟨rfl, rfl⟩
    · exact laneOp_spec hs rfl hu rfl
    · exact laneOp_spec hs rfl hu rfl
    · exact laneOp_spec hs rfl hu rfl
    · exact laneOp_spec hs rfl hu rfl
  · simp only [List.mem_cons, Prod.mk.injEq, List.not_mem_nil, or_false] at hm
    rcases hm with ⟨rfl, rfl⟩ | ⟨rfl, rfl⟩ | ⟨rfl, rfl⟩ | ⟨rfl, rfl⟩ | ⟨rfl, rfl⟩
    · exact laneOp_spec hs rfl hu rfl
    · exact laneOp_value hs rfl hu rfl fun l => congrArg (A l &&& ·) (zeroExt_eq b)
    · exact laneOp_value hs rfl hu rfl fun l => congrArg (A l ||| ·) (zeroExt_eq b)
    · exact laneOp_value hs rfl hu rfl fun l => congrArg (A l ^^^ ·) (zeroExt_eq b)
    · exact laneOp_spec hs rfl hu rfl
  · simp only [List.mem_cons, Prod.mk.injEq, List.not_mem_nil, or_false] at hm
    obtain ⟨rfl, rfl⟩ := hm
    exact laneOp64_spec hs rfl hu rfl
  · simp only [List.mem_cons, Prod.mk.injEq, List.not_mem_nil, or_false] at hm
    rcases hm with ⟨rfl, rfl⟩ | ⟨rfl, rfl⟩
    · exact laneOp_spec hs rfl hu rfl
    · exact laneOp_spec hs rfl hu rfl
  · exact laneOp_value hs rfl hu (if_neg (by omega)) fun l =>
      congrArg (BitVec.setWidth 32) (special_eq x s b.toNat l (of_decide_eq_true hs.fields))
  · exact laneOp64_value hs rfl hu (if_pos hb) fun l => special_eq x s b.toNat l (of_decide_eq_true hs.fields)
  · simp only [List.mem_cons, Prod.mk.injEq, List.not_mem_nil, or_false] at hm
    rcases hm with ⟨rfl, rfl⟩ | ⟨rfl, rfl⟩ | ⟨rfl, rfl⟩ | ⟨rfl, rfl⟩ | ⟨rfl, rfl⟩ | ⟨rfl, rfl⟩
    · exact laneOp_value hs rfl hu rfl fun l => shlW_eq (A l) (N l)
    · exact laneOp_value hs rfl hu rfl fun l => shrW_eq (A l) (N l)
    · exact laneOp_value hs rfl hu rfl fun l => sarW_eq (A l) (N l)
    · exact laneOp_value hs rfl hu rfl fun l => rolW_eq (A l) (N l)
    · exact laneOp_value hs rfl hu rfl fun l => bfxW_eq (A l) (B l)
    · exact laneOp_value hs rfl hu rfl fun l => bfxsW_eq (A l) (B l)
  · simp only [List.mem_cons, Prod.mk.injEq, List.not_mem_nil, or_false] at hm
    obtain ⟨rfl, rfl⟩ := hm
    exact laneOp_value hs rfl hu rfl fun l => bfiW_eq (A l) (B l) (C l)
  · simp only [List.mem_cons, Prod.mk.injEq, List.not_mem_nil, or_false] at hm
    rcases hm with ⟨rfl, rfl⟩ | ⟨rfl, rfl⟩ | ⟨rfl, rfl⟩ | ⟨rfl, rfl⟩ | ⟨rfl, rfl⟩ | ⟨rfl, rfl⟩
    · exact laneOp_value hs rfl hu rfl fun l => shlW_eq (A l) c.toNat
    · exact laneOp_value hs rfl hu rfl fun l => shrW_eq (A l) c.toNat
    · exact laneOp_value hs rfl hu rfl fun l => sarW_eq (A l) c.toNat
    · exact laneOp_value hs rfl hu rfl fun l => popcW_eq (A l)
    · exact laneOp_value hs rfl hu rfl fun l => clzW_eq (A l)
    · exact laneOp_spec hs rfl hu rfl

end Sys2Proof.Machine
end

section
/-! Compares into mask registers, SEL and FCLASS (O5): the conditions by their codes, and the class mask as a 64-bit value. -/

namespace Sys2Proof.Machine

/-- The conditions of ISET and ISETZ in the order of their codes (03 R85). -/
theorem intCond_eq (c : Nat) (hc : c ≤ 5) (u v : Int) : intCond c u v =
    ([decide (u = v), decide (u ≠ v), decide (u < v), decide (u ≤ v), decide (u > v), decide (u ≥ v)][c]?).getD false := by
  interval_cases c <;> rfl

/-- A compare whose condition is `f` in each lane. -/
theorem laneMaskOp_value {s : State} {x : Ix} {i : Instr} {p : Option Pfx} {kd : BitVec 3} {us : List Use} {body : Ix → Res}
    {f g : Nat → Bool} (h : Starts s x i) (hx : exec i s = run i s body) (hk : kd ≠ 0) (hu : Usable s x us)
    (hb : body x = laneMaskOp x s p kd us g) (hv : ∀ l, g l = f l) : MaskResult s x i p kd.toNat f := by
  obtain rfl : g = f := funext hv
  exact laneMaskOp_spec h hx hk hu hb

/-- The class mask has nine bits (03 R88). -/
theorem classMask_le (F : Fmt) (b : Nat) : classMask F b ≤ 2 ^ 8 := by
  unfold classMask
  cases Val.ofBits F b with
  | nan => exact le_rfl
  | inf neg => cases neg <;> simp
  | fin neg m => dsimp only; split <;> [skip; split] <;> cases neg <;> simp

theorem setWidth_classMask (F : Fmt) (b : Nat) :
    (BitVec.ofNat 32 (classMask F b)).setWidth 64 = BitVec.ofNat 64 (classMask F b) := by
  apply BitVec.eq_of_toNat_eq
  have := classMask_le F b
  simp only [BitVec.toNat_setWidth, BitVec.toNat_ofNat]
  omega

/-- Settles O5: the compares are mask operations with the condition of their code; SEL and FCLASS are lane operations. -/
theorem comparesAndSelect : Obligations.ComparesAndSelect := by
  unfold Obligations.ComparesAndSelect
  intro s x e n p d a b t k kd c g A B PA PB holds
  refine ⟨fun hk hu i f hm hs => ?_, fun hk hu i f hm hs => ?_, fun hu hs => ?_, fun hu hs => ?_⟩
  · simp only [List.mem_cons, Prod.mk.injEq, List.not_mem_nil, or_false] at hm
    rcases hm with ⟨rfl, rfl⟩ | ⟨rfl, rfl⟩ | ⟨rfl, rfl⟩
    · exact laneMaskOp_value hs rfl hk hu rfl fun _ => intCond_eq c.toNat (of_decide_eq_true hs.fields) _ _
    · exact laneMaskOp_value hs rfl hk hu rfl fun _ => intCond_eq c.toNat (of_decide_eq_true hs.fields) _ _
    · exact laneMaskOp_spec hs rfl hk hu rfl
  · simp only [List.mem_cons, Prod.mk.injEq, List.not_mem_nil, or_false] at hm
    rcases hm with ⟨rfl, rfl⟩ | ⟨rfl, rfl⟩
    · exact laneMaskOp_value hs rfl hk hu rfl fun _ => intCond_eq c.toNat (of_decide_eq_true hs.fields) _ _
    · exact laneMaskOp_value hs rfl hk hu rfl fun _ => intCond_eq c.toNat (of_decide_eq_true hs.fields) _ _
  · exact laneOp_spec hs rfl hu rfl
  · simp only [← setWidth_classMask]
    exact laneOp_spec hs rfl hu rfl

end Sys2Proof.Machine
end

section
/-! Instructions without effect and FENCE (O21): what its acquire and its release do, and that it completes with both. -/

namespace Sys2Proof.Machine

/-! ## What an acquire and a write-back do -/

/-- A wide acquire drops the lines of the team's context from the core's L1, and nothing else changes there (10 R235). -/
theorem mem_acquire_l1 (x : Ix) (s : State) (sc : Nat) (L : L1Line) : L ∈ (x.acquire s sc).l1 ↔
    L ∈ s.l1 ∧ ¬ (wideScope x.T sc = true ∧ L.core = x.core ∧ L.ctx = x.T.ctx) := by
  unfold Ix.acquire
  split
  · next h => simp [State.l1Drop, h, imp_iff_not_or]
  · next h => simp [h]

/-- An acquire at a narrow scope does nothing (10 R235). -/
theorem acquire_narrow {x : Ix} {sc : Nat} (h : wideScope x.T sc = false) (s : State) : x.acquire s sc = s :=
  if_neg (by rw [h]; decide)

theorem dirty_writeBacks (pa : Nat) : ∀ (lines : List Nat) (s : State),
    tget none (lines.foldl State.writeBack s).dirty pa = if pa / 128 ∈ lines then none else tget none s.dirty pa
  | [], _ => by simp
  | line :: lines, s => by
    rw [List.foldl_cons, dirty_writeBacks pa lines, dirty_writeBack]
    by_cases h : pa / 128 ∈ lines <;> simp [h]

/-- An entry that is not the default stands in the table. -/
theorem mem_keys_of_tget {α : Type} {d : α} {t : Table α} {i : Nat} (h : tget d t i ≠ d) : i ∈ t.map (·.1) := by
  induction t with
  | nil => exact absurd rfl h
  | cons e t ih =>
    rw [List.map_cons, List.mem_cons]
    by_cases he : e.1 = i
    · exact .inl he.symm
    · exact .inr (ih (by simpa [tget, he] using h))

/-- After every L2 has written back, none holds a byte unwritten (10 R248). -/
theorem dirty_writeBackAll (s : State) (pa : Nat) : tget none s.writeBackAll.dirty pa = none := by
  unfold State.writeBackAll
  rw [dirty_writeBacks]
  by_cases h : tget none s.dirty pa = none
  · rw [h, ite_self]
  · obtain ⟨e, he, hpa⟩ := List.mem_map.mp (mem_keys_of_tget h)
    exact if_pos (List.mem_eraseDups.mpr (List.mem_map.mpr ⟨e, he, by rw [hpa]⟩))

theorem shared_writeBackAll (s : State) : Shared s s.writeBackAll := (held_writeBackAll s).shared (byteAt_writeBackAll s)

/-! ## FENCE (11 R268) -/

/-- The release of a FENCE of kind `k`: kind 0 does none. -/
def Ix.fenceReleased (x : Ix) (k : BitVec 2) (s : State) (sc : Nat) : State := if k = 0 then s else x.fenceRelease s sc

/-- The acquire of a FENCE of kind `k`: kind 1 does none. -/
def Ix.fenceAcquired (x : Ix) (k : BitVec 2) (s : State) (sc : Nat) : State := if k = 1 then s else x.acquire s sc

theorem fenceAcquired_eq (x : Ix) (k : BitVec 2) (s : State) (sc : Nat) :
    x.fenceAcquired k s sc = { s with l1 := (x.fenceAcquired k s sc).l1 } := by
  unfold Ix.fenceAcquired
  split
  · rfl
  · exact acquire_eq x s sc

theorem mem_fenceAcquired_l1 (x : Ix) (k : BitVec 2) (s : State) (sc : Nat) (L : L1Line) : L ∈ (x.fenceAcquired k s sc).l1 ↔
    L ∈ s.l1 ∧ ¬ (k ≠ 1 ∧ wideScope x.T sc = true ∧ L.core = x.core ∧ L.ctx = x.T.ctx) := by
  unfold Ix.fenceAcquired
  split
  · next h => exact ⟨fun hL => ⟨hL, fun hc => hc.1 h⟩, And.left⟩
  · next h => rw [mem_acquire_l1, and_iff_right h]

section
variable {s u : State} {x : Ix} {e : Bool} {k : BitVec 2} {sc : BitVec 3}

/-- A FENCE that has nothing to wait for does its release, then its acquire. -/
theorem exec_fence (hl : s.loadsOut x.w x.P.lanes = false) (hr : k ≠ 0 → x.releaseWaits s sc.toNat = false) :
    ∃ body, exec (.fence e k sc) s = run (.fence e k sc) s body ∧
      body x = .ok (x.fenceAcquired k (x.fenceReleased k s sc.toNat) sc.toNat) none := by
  refine ⟨_, rfl, if_neg ?_⟩
  rw [hl, Bool.false_or, Bool.and_eq_true, decide_eq_true_eq]
  rintro ⟨hk, hwait⟩
  exact absurd hwait (by rw [hr hk]; decide)

/-- A FENCE whose release leaves `u`, and its warp as it was, completes with the acquire in `u`. -/
theorem fence_completes (h : Starts s x (.fence e k sc)) (hl : s.loadsOut x.w x.P.lanes = false)
    (hr : k ≠ 0 → x.releaseWaits s sc.toNat = false) (hu : x.fenceReleased k s sc.toNat = u) (hw : u.warp x.w = some x.W) :
    ∃ t, CompletesIn s { u with l1 := t.l1 } t x (.fence e k sc) none x.W ∧ ∀ L, L ∈ t.l1 ↔
      L ∈ u.l1 ∧ ¬ (k ≠ 1 ∧ wideScope x.T sc.toNat = true ∧ L.core = x.core ∧ L.ctx = x.T.ctx) := by
  obtain ⟨body, hx, hb⟩ := exec_fence (e := e) hl hr
  rw [hu] at hb
  have hacq := fenceAcquired_eq x k u sc.toNat
  obtain ⟨t, ht⟩ := completes_other h hx hb (by rw [hacq]; exact hw)
  have hl1 : t.l1 = (x.fenceAcquired k u sc.toNat).l1 := by rw [ht.2.1.1]
  refine ⟨t, ?_, fun L => ?_⟩
  · rw [hl1, ← hacq]
    exact ht
  · rw [hl1]
    exact mem_fenceAcquired_l1 x k u sc.toNat L

/-- A narrow release takes an identifier, which the lanes of the path note (10 R236). -/
theorem fence_narrow (h : Starts s x (.fence e k sc)) (hl : s.loadsOut x.w x.P.lanes = false)
    (hr : k ≠ 0 → x.releaseWaits s sc.toNat = false) (hk : k ≠ 0) (hwide : wideScope x.T sc.toNat = false) :
    ∃ t W, CompletesIn s { s with nextId := s.nextId + 1 } t x (.fence e k sc) none W ∧ W = { x.W with fenced := W.fenced } ∧
      ∀ l, tget 0 W.fenced l = if l ∈ x.lanes then s.nextId + 1 else tget 0 x.W.fenced l := by
  obtain ⟨body, hx, hb⟩ := exec_fence (e := e) hl hr
  have hrel : x.fenceReleased k s sc.toNat = ({ s with nextId := s.nextId + 1 } : State).setWarp x.w
      { x.W with fenced := x.lanes.foldl (fun t l => tput 0 t l (s.nextId + 1)) x.W.fenced } := by
    unfold Ix.fenceReleased Ix.fenceRelease
    rw [if_neg hk, if_neg (by rw [hwide]; decide)]
    exact State.modWarp_eq (s := { s with nextId := s.nextId + 1 }) (issuing_spec h.1).2.1 _
  have hacq : ∀ u, x.fenceAcquired k u sc.toNat = u := fun u => by
    unfold Ix.fenceAcquired
    rw [acquire_narrow hwide, ite_self]
  rw [hacq] at hb
  obtain ⟨t, ht⟩ := completes_in h hx hb hrel rfl rfl
  exact ⟨t, _, ht, rfl, foldl_tput_get 0 (fun _ => s.nextId + 1) x.lanes x.W.fenced⟩

end

/-- Settles O21: NOP, HINT and PREF leave the state alone; FENCE does its release and its acquire by kind and scope. -/
theorem noEffectAndFences : Obligations.NoEffectAndFences := by
  unfold Obligations.NoEffectAndFences
  intro s x e b h y k sc a o z
  refine ⟨fun i hi hs => ?_, fun hl hr hs => ?_⟩
  · simp only [List.mem_cons, List.not_mem_nil, or_false] at hi
    rcases hi with rfl | rfl | rfl
    · exact completes_same hs rfl rfl
    · exact completes_same hs rfl rfl
    · exact completes_same hs rfl rfl
  intro i wide acquires
  have hW := (issuing_spec hs.1).2.1
  refine ⟨fun hk => ?_, fun hk h6 => ?_, fun hk hn => fence_narrow hs hl hr hk hn⟩
  · refine fence_completes hs hl hr ?_ hW
    unfold Ix.fenceReleased Ix.fenceRelease State.sysRelease
    rcases hk with hk | ⟨hw, h6⟩
    · exact if_pos hk
    · have hsys : sc.toNat ≠ scSystem := fun hc => h6 (BitVec.eq_of_toNat_eq hc)
      rw [if_pos (show wideScope x.T sc.toNat = true from hw), if_neg hsys, ite_self]
  · have hrel : x.fenceReleased k s sc.toNat = s.writeBackAll := by
      subst h6
      exact if_neg hk
    have hsh := shared_writeBackAll s
    obtain ⟨t, ht, hacq⟩ := fence_completes (e := e) hs hl hr hrel (by rw [hsh.1]; exact hW)
    refine ⟨s.writeBackAll, t, hsh, dirty_writeBackAll s, ht, fun L => ?_⟩
    rw [hacq L, show s.writeBackAll.l1 = s.l1 by rw [hsh.1]]

end Sys2Proof.Machine
end

section
/-! Returns (O16): the return addresses that RET takes from the hardware entries and by a refill, its faults in their order, and
the pop. -/

namespace Sys2Proof.Machine

theorem endsScene_ret : Instr.ret.endsScene = true := endsScene_lane rfl (by decide) (by decide)

/-- The loads by which lanes without a hardware entry refill (03 R94). -/
def Ix.refill (x : Ix) (s : State) : Except Trap (List MemAcc) :=
  x.privateAcc s .load 8 x.refilling fun l => 8 * (x.W.spillOf l - 1)

/-- The load of one return address. -/
def Ix.refillLoad (x : Ix) (s : State) (a : MemAcc) : Outst := x.outst s 0 a false false 0 0

/-- The address that lane `l` returns to: its newest hardware entry, or the one that the accesses `as` load (03 R94). -/
def Ix.returnTo (x : Ix) (s : State) (as : List MemAcc) (l : Nat) : VAddr :=
  match x.W.stackOf l with
  | t :: _ => t
  | [] => ((as.find? fun a => decide (a.lane = l)).map fun a => BitVec.ofNat 56 (s.loadValue (x.refillLoad s a))).getD 0

/-- The state after the loads `as` have brought their lines into L1 and their leaves are kept (03 R96). -/
def Ix.refilled (x : Ix) (s : State) (as : List MemAcc) : State :=
  x.keepLeaves (as.foldl (fun s' a => s'.fillFor (x.refillLoad s a)) s) as

theorem cached_refilled (x : Ix) (s : State) (as : List MemAcc) : Cached s (x.refilled s as) :=
  (cached_foldl (fun _ _ => cached_fillFor _ _) as s).trans (shared_keepLeaves _ _ _).cached

section
variable {s : State} {x : Ix} {k : State → List (Nat × VAddr) → Res} {as : List MemAcc}

theorem returns_empty {l : Nat} (hl : l ∈ x.refilling) (h : x.W.spillOf l = 0)
    (hlow : ∀ k ∈ x.refilling, k < l → x.W.spillOf k ≠ 0) : x.returns s k = .trap s ⟨4, 0, 0, 0, 0, some l⟩ := by
  unfold Ix.returns
  have hsorted : x.refilling.Pairwise (· < ·) := (lanesOf_sorted _).filter _
  rw [firstLane_some hsorted hl (if_pos h) fun k hk hlt => if_neg (hlow k hk hlt)]
  rfl

theorem returns_error {tr : Trap} (h : ∀ l ∈ x.refilling, x.W.spillOf l ≠ 0) (hr : x.refill s = .error tr) :
    x.returns s k = .trap s tr := by
  unfold Ix.refill at hr
  unfold Ix.returns
  simp only [firstLane_none fun l hl => if_neg (h l hl), hr]

/-- Where the refill passes its checks and no older load of a lane is outstanding, its data error is that of the first load
that cannot be served. -/
theorem returns_unserved {pre post : List MemAcc} {a : MemAcc} (h : ∀ l ∈ x.refilling, x.W.spillOf l ≠ 0)
    (hr : x.refill s = .ok as) (hon : ∀ a ∈ as, s.laneLoadOn x.w a.lane a.pas = false) (has : as = pre ++ a :: post)
    (hpre : ∀ b ∈ pre, s.served (x.refillLoad s b) = true) (ha : s.served (x.refillLoad s a) = false) :
    x.returns s k = .trap s ⟨23, 0, a.va, 0, 0, some a.lane⟩ := by
  have hany : as.any (fun a => s.laneLoadOn x.w a.lane a.pas) = false := List.any_eq_false.mpr fun a ha => by simp [hon a ha]
  have hfind : as.find? (fun a => !s.served (x.refillLoad s a)) = some a :=
    List.find?_eq_some_iff_append.mpr ⟨by simp [ha], pre, post, has, fun b hb => by simp [hpre b hb]⟩
  unfold Ix.refill at hr
  unfold Ix.refillLoad at hfind
  unfold Ix.returns
  simp only [firstLane_none fun l hl => if_neg (h l hl), hr, hany, hfind, Bool.false_eq_true, if_false]
  rfl

/-- Where every load is served, the lanes return to their addresses. -/
theorem returns_ok (h : ∀ l ∈ x.refilling, x.W.spillOf l ≠ 0) (hr : x.refill s = .ok as)
    (hon : ∀ a ∈ as, s.laneLoadOn x.w a.lane a.pas = false) (hserved : ∀ a ∈ as, s.served (x.refillLoad s a) = true) :
    x.returns s k = k (x.refilled s as) (x.lanes.map fun l => (l, x.returnTo s as l)) := by
  have hany : as.any (fun a => s.laneLoadOn x.w a.lane a.pas) = false := List.any_eq_false.mpr fun a ha => by simp [hon a ha]
  have hfind : as.find? (fun a => !s.served (x.refillLoad s a)) = none :=
    List.find?_eq_none.mpr fun a ha => by simp [hserved a ha]
  unfold Ix.refill at hr
  unfold Ix.refillLoad at hfind
  unfold Ix.returns
  simp only [firstLane_none fun l hl => if_neg (h l hl), hr, hany, hfind, Bool.false_eq_true, if_false, List.find?_map, Option.map_map]
  rfl

/-! ## RET -/

/-- What RET does with the addresses: a bad one faults, good ones move the path and pop. -/
def Ix.retTo (x : Ix) (s s1 : State) (f : List (Nat × VAddr)) : Res :=
  match targetTrap f with
  | some t => .trap s t
  | none => .move (s1.setWarp x.w (x.lanes.foldl Warp.pop x.W)) f

theorem exec_ret (s : State) : exec .ret s = run .ret s fun x => x.returns s (x.retTo s) := rfl

theorem retTo_bad {s1 : State} {tgt : Nat → VAddr} {l : Nat} (hl : l ∈ x.lanes) (hbad : targetOk (tgt l) = false)
    (hlow : ∀ k ∈ x.lanes, k < l → targetOk (tgt k) = true) :
    x.retTo s s1 (x.lanes.map fun l => (l, tgt l)) = .trap s ⟨3, 0, (tgt l).toNat, 0, 0, some l⟩ := by
  unfold Ix.retTo
  rw [targetTrap_some (ls := x.lanes) (lanesOf_sorted _) hl hbad hlow]

theorem retTo_good {s1 : State} {tgt : Nat → VAddr} (hg : ∀ l ∈ x.lanes, targetOk (tgt l) = true) :
    x.retTo s s1 (x.lanes.map fun l => (l, tgt l)) =
      .move (s1.setWarp x.w (x.lanes.foldl Warp.pop x.W)) (x.lanes.map fun l => (l, tgt l)) := by
  unfold Ix.retTo
  rw [targetTrap_none (map_targets_ok hg)]

end

theorem not_good_iff {t : VAddr} :
    (¬ (t.toNat % 4 = 0 ∧ (t.toNat < 2 ^ 51 ∨ 2 ^ 56 - 2 ^ 51 ≤ t.toNat))) ↔ targetOk t = false := by
  rw [target_ok_iff, Bool.not_eq_true]

/-- Settles O16: RET is `Ix.returns` with its faults in order, then the target check and the pop. -/
theorem returns : Obligations.Returns := by
  unfold Obligations.Returns
  intro s x as empty refill load entry good hs
  refine ⟨fun l hl h0 hlow => takes_fault hs (exec_ret s) (returns_empty hl h0 hlow), fun hne =>
    ⟨fun tr htr => takes_fault hs (exec_ret s) (returns_error hne htr), fun hok hon =>
    ⟨fun pre a post has hpre ha => takes_fault hs (exec_ret s) (returns_unserved hne hok hon has hpre ha), fun hserved => ?_⟩⟩⟩
  have hret : x.returns s (x.retTo s) = x.retTo s (x.refilled s as) (x.lanes.map fun l => (l, x.returnTo s as l)) :=
    returns_ok hne hok hon hserved
  refine ⟨fun l hl hbad hlow => ?_, fun hgood => ?_⟩
  · exact takes_fault hs (exec_ret s) (hret.trans
      (retTo_bad hl (not_good_iff.mp hbad) fun k hk hlt => target_ok_iff.mp (hlow k hk hlt)))
  · obtain ⟨hW, hlanes⟩ := pop_spec x.lanes x.W (lanesOf_nodup _)
    obtain ⟨t, ht⟩ := transfer_spec hs (exec_ret s) (hret.trans (retTo_good fun l hl => target_ok_iff.mp (hgood l hl))) rfl
      (by rw [hW]) (by rw [hW]) endsScene_ret
    exact ⟨x.refilled s as, t, _, cached_refilled x s as, ht, hW, hlanes⟩

end Sys2Proof.Machine
end

section
/-! What EXIT makes of a warp: the lanes leave every rejoin register, and every register that this changed is checked for release
in turn (03 R97; 05 R135, R136). -/

namespace Sys2Proof.Machine

/-! ## Releases of several registers -/

/-- Rejoin register n is released when it is checked: its AR is nonzero and equals EN (05 R136). -/
def Warp.releasing (W : Warp) (n : Nat) : Bool := decide ((W.join n).ar ≠ 0 ∧ (W.join n).en = (W.join n).ar)

/-- Lane l is parked in one of the registers `ms` that are released. -/
def Warp.freed (W : Warp) (ms : List Nat) (l : Nat) : Bool := ms.any fun m => W.releasing m && (W.join m).ar.getLsbD l

/-- The continuation of lane l once the registers `ms` are checked. -/
def Warp.contAfter (W : Warp) (ms : List Nat) (l : Nat) : VAddr := if W.freed ms l then 0 else tget 0 W.cont l

/-- Path Q is one of those that the lanes of `ar` go on as, one for each continuation (05 R136). -/
def FreshFrom (cont : Nat → VAddr) (ar : Mask) (Q : Path) : Prop :=
  ∃ l ∈ lanesOf ar, Q = Path.fresh (maskOf ((lanesOf ar).filter fun k => decide (cont k = cont l))) (cont l)

/-- Warp U differs from W in rejoin registers, continuations and paths alone. -/
def OnlyRejoins (W U : Warp) : Prop := U = { W with j := U.j, cont := U.cont, paths := U.paths }

theorem OnlyRejoins.refl (W : Warp) : OnlyRejoins W W := rfl
theorem OnlyRejoins.trans {A B C : Warp} (h : OnlyRejoins A B) (k : OnlyRejoins B C) : OnlyRejoins A C := by
  unfold OnlyRejoins at *
  rw [k, h]

theorem release_idle {W : Warp} {n : Nat} (h : W.releasing n = false) : W.release n = (W, false) :=
  if_neg (of_decide_eq_false h)

/-- A release clears the continuations of the lanes parked in the register. -/
theorem release_cont {W : Warp} {n : Nat} (h : W.releasing n = true) (l : Nat) :
    tget 0 (W.release n).1.cont l = if l ∈ lanesOf (W.join n).ar then 0 else tget 0 W.cont l := by
  unfold Warp.release
  rw [if_pos (of_decide_eq_true h)]
  exact foldl_tput_get 0 (fun _ => 0) _ _ _

/-- What checking one register does. -/
theorem release_one (W : Warp) (n : Nat) :
    let A := (W.release n).1
    (W.release n).2 = W.releasing n ∧ OnlyRejoins W A ∧
    (∀ m, A.join m = if m = n ∧ W.releasing n = true then ⟨0, 0⟩ else W.join m) ∧
    (∀ l, tget 0 A.cont l = W.contAfter [n] l) ∧
    ∀ Q, Q ∈ A.paths ↔ Q ∈ W.paths ∨ W.releasing n = true ∧ FreshFrom (fun l => tget 0 W.cont l) (W.join n).ar Q := by
  obtain ⟨hfst, -, hrel⟩ := release_spec W n
  cases h : W.releasing n with
  | false =>
    rw [release_idle h]
    simp only [Bool.false_eq_true, and_false, if_false, false_and, or_false]
    exact ⟨trivial, .refl W, fun _ => trivial, fun l => by simp [Warp.contAfter, Warp.freed, h], fun _ => trivial⟩
  | true =>
    obtain ⟨heq, hn, hm, -, -, hpaths⟩ := hrel (of_decide_eq_true h)
    refine ⟨hfst.trans h, heq, fun m => ?_, fun l => ?_, fun Q => ?_⟩
    · by_cases hmn : m = n
      · subst hmn; rw [hn, if_pos ⟨rfl, rfl⟩]
      · rw [hm m hmn, if_neg fun hc => hmn hc.1]
    · rw [release_cont h, Warp.contAfter]
      refine if_congr ?_ rfl rfl
      simp only [Warp.freed, List.any_cons, List.any_nil, Bool.or_false, h, Bool.true_and, mem_lanesOf]
      exact ⟨And.right, fun hl => ⟨BitVec.lt_of_getLsbD hl, hl⟩⟩
    · rw [hpaths Q]
      exact or_congr Iff.rfl (and_iff_right rfl).symm

theorem freed_cons (W : Warp) (n : Nat) (ms : List Nat) (l : Nat) : W.freed (n :: ms) l = (W.freed [n] l || W.freed ms l) := by
  simp [Warp.freed]

theorem freed_congr {A W : Warp} {ms : List Nat} (h : ∀ m ∈ ms, A.join m = W.join m) (l : Nat) : A.freed ms l = W.freed ms l := by
  unfold Warp.freed Warp.releasing
  rw [Bool.eq_iff_iff, List.any_eq_true, List.any_eq_true]
  exact exists_congr fun m => and_congr_right fun hm => by rw [h m hm]

/-- What checking the registers of a rising list in turn does: each that is to be released is cleared, and its lanes go on at the
continuations that those before it have left. -/
theorem releases_spec : ∀ (ms : List Nat) (W : Warp), ms.Pairwise (· < ·) →
    let U := (W.releases ms).1
    ((W.releases ms).2 = true ↔ ∃ n ∈ ms, W.releasing n = true) ∧ OnlyRejoins W U ∧
    (∀ m, U.join m = if m ∈ ms ∧ W.releasing m = true then ⟨0, 0⟩ else W.join m) ∧
    (∀ l, tget 0 U.cont l = W.contAfter ms l) ∧
    ∀ Q, Q ∈ U.paths ↔ Q ∈ W.paths ∨ ∃ n ∈ ms, W.releasing n = true ∧
      FreshFrom (W.contAfter (ms.filter fun m => decide (m < n))) (W.join n).ar Q
  | [], W, _ => by simp [Warp.releases, OnlyRejoins.refl, Warp.contAfter, Warp.freed]
  | n :: ms, W, hs => by
    obtain ⟨hlt, hs'⟩ := List.pairwise_cons.mp hs
    obtain ⟨a1, a2, a3, a4, a5⟩ := release_one W n
    obtain ⟨b1, b2, b3, b4, b5⟩ := releases_spec ms (W.release n).1 hs'
    have hU : W.releases (n :: ms) = (((W.release n).1.releases ms).1, (W.release n).2 || ((W.release n).1.releases ms).2) := rfl
    rw [hU]
    generalize (W.release n).1 = A at a2 a3 a4 a5 b1 b2 b3 b4 b5
    have hjoin : ∀ m ∈ ms, A.join m = W.join m := fun m hm => by rw [a3 m, if_neg fun hc => absurd (hlt m hm) (by omega)]
    have hrel : ∀ m ∈ ms, A.releasing m = W.releasing m := fun m hm => by unfold Warp.releasing; rw [hjoin m hm]
    have hcont : ∀ ks, (∀ m ∈ ks, m ∈ ms) → A.contAfter ks = W.contAfter (n :: ks) := fun ks hks => funext fun l => by
      unfold Warp.contAfter
      rw [freed_congr fun m hm => hjoin m (hks m hm), a4 l, freed_cons]
      unfold Warp.contAfter
      by_cases hn : W.freed [n] l = true <;> simp [hn]
    refine ⟨?_, a2.trans b2, fun m => ?_, fun l => ?_, fun Q => ?_⟩
    · rw [Bool.or_eq_true, a1, b1, List.exists_mem_cons_iff]
      exact or_congr Iff.rfl (exists_congr fun m => and_congr_right fun hm => by rw [hrel m hm])
    · rw [b3 m]
      by_cases hm : m ∈ ms
      · have hne : m ≠ n := fun hc => absurd (hlt m hm) (by omega)
        simp only [hm, hrel m hm, hjoin m hm, List.mem_cons, or_true, true_and]
      · rw [if_neg fun hc => hm hc.1, a3 m]
        simp only [List.mem_cons, hm, or_false]
        by_cases hmn : m = n
        · subst hmn; rfl
        · simp [hmn]
    · rw [b4 l, hcont ms fun _ => id]
    · have hhead : (n :: ms).filter (fun m => decide (m < n)) = [] :=
        List.filter_eq_nil_iff.mpr fun m hm => by
          rcases List.mem_cons.mp hm with rfl | hm
          · simp
          · have := hlt m hm; simp; omega
      rw [b5 Q, a5 Q, List.exists_mem_cons_iff, hhead, or_assoc]
      refine or_congr Iff.rfl (or_congr Iff.rfl (exists_congr fun m => and_congr_right fun hm => ?_))
      rw [hrel m hm, hjoin m hm, hcont _ fun k hk => (List.mem_filter.mp hk).1, List.filter_cons_of_pos (by simpa using hlt m hm)]

/-! ## The lanes leave -/

/-- The rejoin registers in which some of the lanes are enrolled. -/
def Warp.enrolling (W : Warp) (L : Mask) : List Nat := (List.range 8).filter fun n => decide ((W.join n).en &&& L ≠ 0)

theorem enrolling_sorted (W : Warp) (L : Mask) : (W.enrolling L).Pairwise (· < ·) := List.pairwise_lt_range.filter _

theorem mem_enrolling {W : Warp} {L : Mask} {n : Nat} : n ∈ W.enrolling L ↔ n < 8 ∧ (W.join n).en &&& L ≠ 0 := by
  unfold Warp.enrolling
  rw [List.mem_filter, List.mem_range, decide_eq_true_eq]

/-- The warp once path P has left it, before any register is checked. -/
def Warp.leave (W : Warp) (P : Path) : Warp :=
  let V := (W.enrolling P.lanes).foldl (fun W n => W.setJoin n ⟨(W.join n).en &&& ~~~P.lanes, (W.join n).ar⟩) W
  { V.dropPath (lowest P.lanes) with
    exited := V.exited ||| P.lanes
    stack := (lanesOf P.lanes).foldl (fun t l => tput [] t l []) V.stack
    spill := (lanesOf P.lanes).foldl (fun t l => tput 0 t l 0) V.spill
    mon := (lanesOf P.lanes).foldl (fun t l => tput none t l none) V.mon }

theorem exitPath_eq (W : Warp) (P : Path) : W.exitPath P = (W.leave P).releases (W.enrolling P.lanes) := rfl

/-- A register in which none of the lanes is enrolled keeps its EN. -/
theorem and_not_of_disjoint {en L : Mask} (h : en &&& L = 0) : en &&& ~~~L = en := by
  apply BitVec.eq_of_getLsbD_eq
  intro i hi
  have hb := congrArg (fun z => z.getLsbD i) h
  simp only [BitVec.getLsbD_and, BitVec.getLsbD_not, hi, decide_true, Bool.true_and] at hb ⊢
  cases he : en.getLsbD i with
  | false => rfl
  | true => rw [he, Bool.true_and] at hb; simp [hb]

section
variable (W : Warp) (P : Path)

theorem leave_eq : W.leave P = { W with
    exited := W.exited ||| P.lanes, stack := (W.leave P).stack, spill := (W.leave P).spill, mon := (W.leave P).mon
    j := (W.leave P).j, paths := (W.dropPath (lowest P.lanes)).paths } := by
  obtain ⟨hV, -⟩ := setJoins_spec P.lanes (W.enrolling P.lanes) W (enrolling_sorted W P.lanes).nodup
  unfold Warp.leave
  dsimp only at hV ⊢
  rw [hV]
  rfl

theorem leave_lane (l : Nat) :
    (W.leave P).stackOf l = (if l ∈ lanesOf P.lanes then [] else W.stackOf l) ∧
    (W.leave P).spillOf l = (if l ∈ lanesOf P.lanes then 0 else W.spillOf l) ∧
    tget none (W.leave P).mon l = (if l ∈ lanesOf P.lanes then none else tget none W.mon l) := by
  obtain ⟨hV, -⟩ := setJoins_spec P.lanes (W.enrolling P.lanes) W (enrolling_sorted W P.lanes).nodup
  unfold Warp.leave Warp.stackOf Warp.spillOf
  dsimp only at hV ⊢
  rw [hV]
  exact ⟨foldl_tput_get [] (fun _ => []) _ _ _, foldl_tput_get 0 (fun _ => 0) _ _ _, foldl_tput_get none (fun _ => none) _ _ _⟩

theorem leave_join {m : Nat} (hm : m < 8) : (W.leave P).join m = ⟨(W.join m).en &&& ~~~P.lanes, (W.join m).ar⟩ := by
  obtain ⟨-, hjoin⟩ := setJoins_spec P.lanes (W.enrolling P.lanes) W (enrolling_sorted W P.lanes).nodup
  refine (hjoin m).trans ?_
  by_cases h : (W.join m).en &&& P.lanes = 0
  · rw [if_neg fun hc => (mem_enrolling.mp hc).2 h, and_not_of_disjoint h]
  · rw [if_pos (mem_enrolling.mpr ⟨hm, h⟩)]

theorem leave_cont : (W.leave P).cont = W.cont := by rw [leave_eq]

end

/-! ## The whole of EXIT's effect on the warp -/

/-- EXIT of the lanes L releases rejoin register n: it changes its EN, which then equals its nonzero AR (05 R135, R136). -/
def Warp.Releases (W : Warp) (L : Mask) (n : Nat) : Prop :=
  n < 8 ∧ (W.join n).en &&& L ≠ 0 ∧ (W.join n).ar ≠ 0 ∧ (W.join n).en &&& ~~~L = (W.join n).ar

/-- A register below n that EXIT of the lanes L releases holds lane l. -/
def Warp.LeftBelow (W : Warp) (L : Mask) (n l : Nat) : Prop := ∃ m, m < n ∧ W.Releases L m ∧ (W.join m).ar.getLsbD l = true

/-- The continuation of lane l when EXIT of path P has checked the registers below n. -/
def Warp.exitCont (W : Warp) (P : Path) (n : Nat) : Nat → VAddr :=
  (W.leave P).contAfter ((W.enrolling P.lanes).filter fun m => decide (m < n))

section
variable {W : Warp} {P : Path}

theorem releasing_leave_iff {n : Nat} :
    (n ∈ W.enrolling P.lanes ∧ (W.leave P).releasing n = true) ↔ W.Releases P.lanes n := by
  rw [mem_enrolling, and_assoc]
  refine and_congr_right fun hn => ?_
  rw [Warp.releasing, leave_join W P hn, decide_eq_true_eq]

theorem freed_leave_iff {n l : Nat} :
    (W.leave P).freed ((W.enrolling P.lanes).filter fun m => decide (m < n)) l = true ↔ W.LeftBelow P.lanes n l := by
  have har : ∀ {m}, m ∈ W.enrolling P.lanes → ((W.leave P).join m).ar = (W.join m).ar := fun hm => by
    rw [leave_join W P (mem_enrolling.mp hm).1]
  unfold Warp.freed Warp.LeftBelow
  rw [List.any_eq_true]
  refine exists_congr fun m => ?_
  rw [List.mem_filter, decide_eq_true_eq, Bool.and_eq_true, ← releasing_leave_iff]
  constructor
  · rintro ⟨⟨hm, hlt⟩, hr, hl⟩
    exact ⟨hlt, ⟨hm, hr⟩, har hm ▸ hl⟩
  · rintro ⟨hlt, ⟨hm, hr⟩, hl⟩
    exact ⟨⟨hm, hlt⟩, hr, (har hm).symm ▸ hl⟩

theorem exitCont_left {n l : Nat} (h : W.LeftBelow P.lanes n l) : W.exitCont P n l = 0 := if_pos (freed_leave_iff.mpr h)

theorem exitCont_kept {n l : Nat} (h : ¬ W.LeftBelow P.lanes n l) : W.exitCont P n l = tget 0 W.cont l := by
  rw [← leave_cont W P]
  exact if_neg fun hc => h (freed_leave_iff.mp hc)

theorem enrolling_filter (W : Warp) (L : Mask) : (W.enrolling L).filter (fun m => decide (m < 8)) = W.enrolling L :=
  List.filter_eq_self.mpr fun _ hm => decide_eq_true (mem_enrolling.mp hm).1

/-- What the warp of a path that exits becomes (03 R97; 05 R135, R136). -/
theorem exitPath_result (W : Warp) (P : Path) :
    let U := (W.exitPath P).1
    ((W.exitPath P).2 = true ↔ ∃ n, W.Releases P.lanes n) ∧
    U = { W with
      exited := W.exited ||| P.lanes, stack := U.stack, spill := U.spill, mon := U.mon, j := U.j, cont := U.cont, paths := U.paths } ∧
    (∀ l, l ∈ lanesOf P.lanes → U.stackOf l = [] ∧ U.spillOf l = 0 ∧ tget none U.mon l = none) ∧
    (∀ l, l ∉ lanesOf P.lanes → U.stackOf l = W.stackOf l ∧ U.spillOf l = W.spillOf l ∧ tget none U.mon l = tget none W.mon l) ∧
    (∀ m, m < 8 → (W.Releases P.lanes m → U.join m = ⟨0, 0⟩) ∧
      (¬ W.Releases P.lanes m → U.join m = ⟨(W.join m).en &&& ~~~P.lanes, (W.join m).ar⟩)) ∧
    (∀ l, tget 0 U.cont l = W.exitCont P 8 l) ∧
    ∀ Q, Q ∈ U.paths ↔ Q ∈ (W.dropPath (lowest P.lanes)).paths ∨
      ∃ n, W.Releases P.lanes n ∧ FreshFrom (W.exitCont P n) (W.join n).ar Q := by
  obtain ⟨hany, hU, hjoin, hcont, hpaths⟩ := releases_spec _ (W.leave P) (enrolling_sorted W P.lanes)
  rw [← exitPath_eq] at hany hU hjoin hcont hpaths
  have hleave := leave_eq W P
  dsimp only
  generalize W.exitPath P = r at hany hU hjoin hcont hpaths
  have hlane : ∀ l, r.1.stackOf l = (W.leave P).stackOf l ∧ r.1.spillOf l = (W.leave P).spillOf l ∧
      tget none r.1.mon l = tget none (W.leave P).mon l := fun l => by rw [hU]; exact ⟨rfl, rfl, rfl⟩
  refine ⟨?_, ?_, fun l hl => ?_, fun l hl => ?_, fun m hm => ?_, fun l => ?_, fun Q => ?_⟩
  · rw [hany]
    exact exists_congr fun n => releasing_leave_iff
  · unfold OnlyRejoins at hU
    rw [hU, hleave]
  · obtain ⟨h1, h2, h3⟩ := hlane l
    obtain ⟨k1, k2, k3⟩ := leave_lane W P l
    rw [h1, h2, h3, k1, k2, k3, if_pos hl, if_pos hl, if_pos hl]
    exact ⟨rfl, rfl, rfl⟩
  · obtain ⟨h1, h2, h3⟩ := hlane l
    obtain ⟨k1, k2, k3⟩ := leave_lane W P l
    rw [h1, h2, h3, k1, k2, k3, if_neg hl, if_neg hl, if_neg hl]
    exact ⟨rfl, rfl, rfl⟩
  · rw [hjoin m, leave_join W P hm]
    exact ⟨fun h => if_pos (releasing_leave_iff.mpr h), fun h => if_neg fun hc => h (releasing_leave_iff.mp hc)⟩
  · rw [hcont l, Warp.exitCont, enrolling_filter]
  · rw [hpaths Q, hleave]
    refine or_congr Iff.rfl (exists_congr fun n => ?_)
    rw [← hleave, ← and_assoc, releasing_leave_iff]
    exact and_congr_right fun h => by rw [leave_join W P h.1]; rfl

end

end Sys2Proof.Machine
end

section
/-! EXIT (O19): the scene ends, the lanes leave, the warp that no path is left in deadlocks, and the barriers are checked. -/

namespace Sys2Proof.Machine

/-! ## Checking a barrier, raising the rejoin deadlock -/

/-- A barrier is checked as 06 R173 and R175 say. -/
theorem checkBarrier_checked {u : State} {k sc : Nat} {T : Team} {b : Block} (hT : u.team k = some T)
    (hsc : (if b = .bar then 1 else 5) = sc) : BarrierChecked u (u.checkBarrier k b) T b sc := by
  obtain ⟨hno, hyes⟩ := checkBarrier_spec u k T b sc hT hsc
  rw [barrierDone_iff] at hno hyes
  exact ⟨hno, hyes⟩

/-- A barrier leaves the teams as they are. -/
theorem BarrierChecked.team {u t : State} {T : Team} {b : Block} {sc : Nat} (h : BarrierChecked u t T b sc) (k : Nat) :
    t.team k = u.team k := by
  obtain ⟨hno, hyes⟩ := h
  rcases Classical.em _ with hd | hd
  · rw [(hyes hd).1]; rfl
  · rw [hno hd]

/-- No deadlock where a register was released, a path is left, or every thread has exited (05 R138). -/
theorem deadlock_none {x : Ix} {s : State} {V : Warp} {rel : Bool} (hV : s.warp x.w = some V)
    (h : rel = true ∨ V.paths ≠ [] ∨ V.live &&& ~~~V.exited = 0) : deadlock x s rel = s := by
  unfold deadlock
  simp only [hV]
  refine if_neg fun hc => ?_
  simp only [Bool.and_eq_true, List.isEmpty_iff, decide_eq_true_eq, Bool.not_eq_true'] at hc
  obtain ⟨⟨hp, hl⟩, hr⟩ := hc
  rcases h with h | h | h
  · rw [hr] at h; cases h
  · exact h hp
  · exact hl h

/-- Where no path is left, threads have not exited and nothing was released, the warp deadlocks (05 R138). -/
theorem deadlock_spec {x : Ix} {s1 s : State} {V W : Warp} (hs : OnlyWarp s1 s x.w true) (hV : s.warp x.w = some V)
    (hT : s.team x.W.team = some x.T) (hp : V.paths = []) (hr : V.running = none) (hl : V.live &&& ~~~V.exited ≠ 0)
    (hb : V.body = W.body) : Deadlocks s1 (deadlock x s false) x W := by
  let D : Warp := { V with dead := some (x.P.pc, x.low, x.words) }
  have hd : deadlock x s false = (s.setWarp x.w D).holdTeam x.W.team fun h =>
      { h with recs := h.recs ++ [x.record 3 8 0 0 0 0 x.low] } := by
    unfold deadlock
    simp only [hV]
    exact if_pos (by rw [hp, decide_eq_true hl]; rfl)
  obtain ⟨hstore, hteam, hteams, hwarps, hfired⟩ := holdTeam_spec (s := s.setWarp x.w D) hT hd
  obtain ⟨hframe, hothers⟩ := hs
  obtain ⟨U, hU, hrun, -, hmon⟩ := hfired x.w D (State.setWarp_warp_same _ _ _) hr
  have hmon : U = { D with mon := U.mon } := hmon fun P hP => by rw [show D.paths = [] from hp] at hP; cases hP
  refine ⟨?_, ⟨_, _, hteam, rfl, rfl, ?_⟩, fun k hk => ?_, fun v hv hslot => ?_, U, hU, ?_, hrun.trans hr, ?_⟩
  · unfold SameStore at hstore ⊢
    rw [hstore, hframe]
    rfl
  · cases x.T.hold <;> rfl
  · rw [hteams k hk, hframe]
    rfl
  · rw [hwarps v hslot, State.setWarp_warp, if_neg hv]
    exact hothers v hv
  · rw [hmon]; exact hp
  · rw [hmon]
    exact congrArg (fun B : Warp => { B with dead := some (x.P.pc, x.low, x.words), mon := U.mon }) hb

/-! ## EXIT -/

/-- The issuing warp once the scene of its path has ended. -/
def Ix.sceneEnded (x : Ix) : Warp :=
  ({ x.W.modPath x.low (fun P => { P with scene := none }) with running := none } : Warp).woken true x.low

/-- What EXIT does outside the warp: the loads of the lanes are discarded, and the team notes the identifier that is next. -/
def Ix.leaves (x : Ix) (s : State) : State := { s with
  teams := tput none s.teams x.W.team (some { x.T with last := s.nextId })
  loads := s.loads.map fun o =>
    if o.w = x.w ∧ x.P.lanes.getLsbD o.lane = true ∧ o.uni = false then { o with nreg := 0 } else o }

/-- The state once the path has exited, before deadlock and barriers. -/
def Ix.exitState (x : Ix) (s : State) : State :=
  ({ x.leaves s with warps := (s.endScene x.w x.low).warps }).setWarp x.w (x.sceneEnded.exitPath x.P).1

section
variable {s : State} {x : Ix}

theorem leaves_team (x : Ix) (s : State) : (x.leaves s).team x.W.team = some { x.T with last := s.nextId } :=
  tget_tput_same none s.teams x.W.team (some { x.T with last := s.nextId })

theorem discardLoads_eq (s : State) (w : Nat) (L : Mask) : s.discardLoads w L = { s with
    loads := s.loads.map fun o => if o.w = w ∧ L.getLsbD o.lane = true ∧ o.uni = false then { o with nreg := 0 } else o } := by
  unfold State.discardLoads
  simp only [Bool.and_eq_true, decide_eq_true_eq, Bool.not_eq_true', and_assoc]

/-- The state in which the scene has ended and the loads of the lanes are discarded, when the team has noted the identifier. -/
theorem exit_leaves (hW : s.warp x.w = some x.W) (hT : s.team x.W.team = some x.T) :
    let u := (s.endScene x.w x.low).discardLoads x.w x.P.lanes
    u.warp x.w = some x.sceneEnded ∧
    u.modTeam x.W.team (fun T => { T with last := u.nextId }) = { x.leaves s with warps := (s.endScene x.w x.low).warps } := by
  obtain ⟨hframe, -, hwarp⟩ := endScene_spec (r := x.low) hW
  have hu : (s.endScene x.w x.low).discardLoads x.w x.P.lanes =
      { s with warps := (s.endScene x.w x.low).warps, loads := (x.leaves s).loads } := by
    rw [discardLoads_eq, hframe]
    rfl
  dsimp only
  refine ⟨hwarp, ?_⟩
  rw [hu]
  exact State.modTeam_eq (s := { s with warps := (s.endScene x.w x.low).warps, loads := (x.leaves s).loads }) hT _

theorem exec_exit (h : Starts s x .exit) : exec .exit s = .next
    (let v := (deadlock x (x.exitState s) (x.sceneEnded.exitPath x.P).2).checkBarrier x.W.team .bar
     if x.T.gang then v.checkBarrier x.W.team .barg else v) := by
  obtain ⟨-, hW, -, -, hT⟩ := issuing_spec h.1
  obtain ⟨hwarp, hleaves⟩ := exit_leaves hW hT
  refine (run_starts h).trans (congrArg Host.Outcome.next ?_)
  simp only [hwarp, hleaves]
  rfl

/-- EXIT changes no warp but its own, beside the YIELDs that the end of its scene ends. -/
theorem exitState_onlyWarp (hW : s.warp x.w = some x.W) : OnlyWarp (x.leaves s) (x.exitState s) x.w true := by
  obtain ⟨-, hothers, -⟩ := endScene_spec (r := x.low) hW
  refine ⟨rfl, fun v hv => ?_⟩
  refine (State.setWarp_warp _ _ _ _).trans ((if_neg hv).trans ((hothers v hv).trans ?_))
  by_cases hwing : v / 12 = x.w / 12
  · simp only [hwing, if_true, decide_true, Bool.and_self]
    rfl
  · simp only [hwing, if_false, decide_false, Bool.and_false]
    rw [show Warp.standsBy false = id from funext warp_standsBy_false, Option.map_id]
    rfl

/-- The other paths stand by as the path leaves. -/
theorem mem_sceneEnded_drop (x : Ix) (Q : Path) : Q ∈ (x.sceneEnded.dropPath x.low).paths ↔
    ∃ P ∈ x.W.paths, lowest P.lanes ≠ x.low ∧ Q = P.standsBy true := by
  refine drop_map (f := fun P => wakeYield true x.low (if lowest P.lanes = x.low then { P with scene := none } else P))
    (List.map_map ..) (fun P => ?_) (fun P hP => ?_) Q
  · rw [wakeYield_lanes]
    split <;> rfl
  · rw [if_neg hP]
    exact wakeYield_other (.inr hP)

/-- The warp that EXIT leaves, but for its paths. -/
def Ix.exited (x : Ix) : Warp := { (x.sceneEnded.exitPath x.P).1 with paths := x.W.paths, running := x.W.running }

theorem exited_eq (x : Ix) : x.exited = { x.W with
    exited := x.W.exited ||| x.P.lanes, stack := x.exited.stack, spill := x.exited.spill, mon := x.exited.mon, j := x.exited.j
    cont := x.exited.cont } := by
  obtain ⟨-, hU, -⟩ := exitPath_result x.sceneEnded x.P
  unfold Ix.exited
  rw [hU]
  rfl

theorem exited_body (x : Ix) : (x.sceneEnded.exitPath x.P).1.body = x.exited.body := rfl

/-- The paths that EXIT leaves: the others, and the fresh ones of the registers it releases. -/
theorem mem_exitPath_paths (x : Ix) (Q : Path) : Q ∈ (x.sceneEnded.exitPath x.P).1.paths ↔
    (∃ P ∈ x.W.paths, lowest P.lanes ≠ x.low ∧ Q = P.standsBy true) ∨
    ∃ n, x.W.Releases x.P.lanes n ∧ FreshFrom (x.sceneEnded.exitCont x.P n) (x.W.join n).ar Q := by
  obtain ⟨-, -, -, -, -, -, hpaths⟩ := exitPath_result x.sceneEnded x.P
  exact (hpaths Q).trans (or_congr (mem_sceneEnded_drop x Q) Iff.rfl)

theorem exitPath_frame (x : Ix) : let U := (x.sceneEnded.exitPath x.P).1
    U.running = none ∧ U.live = x.W.live ∧ U.exited = x.W.exited ||| x.P.lanes := by
  obtain ⟨-, hU, -⟩ := exitPath_result x.sceneEnded x.P
  dsimp only
  rw [hU]
  exact ⟨rfl, rfl, rfl⟩

/-- An EXIT that releases a register, leaves a path, or is the last of its warp's threads moves its path. -/
theorem exit_moves (hW : s.warp x.w = some x.W) (h : (∃ n, x.W.Releases x.P.lanes n) ∨ (∃ P ∈ x.W.paths, lowest P.lanes ≠ x.low) ∨
      x.W.live &&& ~~~(x.W.exited ||| x.P.lanes) = 0) :
    MovesTo (x.leaves s) (deadlock x (x.exitState s) (x.sceneEnded.exitPath x.P).2) x x.exited fun Q =>
      ∃ n, x.W.Releases x.P.lanes n ∧ FreshFrom (x.sceneEnded.exitCont x.P n) (x.W.join n).ar Q := by
  obtain ⟨hrun, hlive, hexited⟩ := exitPath_frame x
  obtain ⟨hany, -⟩ := exitPath_result x.sceneEnded x.P
  have hwarp : (x.exitState s).warp x.w = some (x.sceneEnded.exitPath x.P).1 := State.setWarp_warp_same _ _ _
  rw [deadlock_none hwarp]
  · exact ⟨exitState_onlyWarp hW, _, hwarp, exited_body x, hrun, mem_exitPath_paths x⟩
  · refine h.imp hany.mpr (Or.imp (fun ⟨P, hP, hne⟩ => ?_) fun h0 => by rw [hlive, hexited, h0])
    exact List.ne_nil_of_mem ((mem_exitPath_paths x _).mpr (.inl ⟨P, hP, hne, rfl⟩))

/-- An EXIT that leaves its warp no path and threads that have not exited, and releases nothing, deadlocks it (05 R138). -/
theorem exit_deadlocks (hW : s.warp x.w = some x.W) (hno : ∀ n, ¬ x.W.Releases x.P.lanes n)
    (halone : ¬ ∃ P ∈ x.W.paths, lowest P.lanes ≠ x.low) (h0 : x.W.live &&& ~~~(x.W.exited ||| x.P.lanes) ≠ 0) :
    Deadlocks (x.leaves s) (deadlock x (x.exitState s) (x.sceneEnded.exitPath x.P).2) { x with T := { x.T with last := s.nextId } }
      x.exited := by
  obtain ⟨hrun, hlive, hexited⟩ := exitPath_frame x
  obtain ⟨hany, -⟩ := exitPath_result x.sceneEnded x.P
  have hrel : (x.sceneEnded.exitPath x.P).2 = false := Bool.eq_false_iff.mpr fun hc => (hany.mp hc).elim hno
  have hpaths : (x.sceneEnded.exitPath x.P).1.paths = [] := List.eq_nil_iff_forall_not_mem.mpr fun Q hQ => by
    rcases (mem_exitPath_paths x Q).mp hQ with ⟨P, hP, hne, -⟩ | ⟨n, hn, -⟩
    · exact halone ⟨P, hP, hne⟩
    · exact hno n hn
  rw [hrel]
  exact deadlock_spec (x := { x with T := { x.T with last := s.nextId } }) (exitState_onlyWarp hW) (State.setWarp_warp_same _ _ _)
    (leaves_team x s) hpaths hrun (by rw [hlive, hexited]; exact h0) (exited_body x)

end

/-- Settles O19: the warp is that of `exitPath_result`, which moves its paths or deadlocks, and the barriers are checked after. -/
theorem exitEndsThreads : Obligations.ExitEndsThreads := by
  unfold Obligations.ExitEndsThreads
  intro s x L J released left cont y s1 fresh gone other hs
  obtain ⟨-, hW, -⟩ := issuing_spec hs.1
  obtain ⟨-, -, hin, hout, hjoin, hcont, -⟩ := exitPath_result x.sceneEnded x.P
  have hgone : gone x.exited := ⟨exited_eq x, hin, hout, hjoin, fun l _ =>
    ⟨fun h => (hcont l).trans (exitCont_left h), fun h => (hcont l).trans (exitCont_kept h)⟩⟩
  have hfresh : fresh = fun Q => ∃ n, x.W.Releases x.P.lanes n ∧ FreshFrom (x.sceneEnded.exitCont x.P n) (x.W.join n).ar Q := by
    have hc : cont = x.sceneEnded.exitCont x.P := funext fun n => funext fun l => by
      by_cases h : left n l
      · exact (if_pos h).trans (exitCont_left (W := x.sceneEnded) h).symm
      · exact (if_neg h).trans (exitCont_kept (W := x.sceneEnded) h).symm
    rw [← hc]
    rfl
  have hmoves := exit_moves (s := s) hW
  have hdead := exit_deadlocks (s := s) hW
  have hexec := exec_exit hs
  obtain ⟨T, hT⟩ : ∃ T, (deadlock x (x.exitState s) (x.sceneEnded.exitPath x.P).2).team x.W.team = some T := by
    by_cases h : (∃ n, released n) ∨ other ∨ x.W.live &&& ~~~(x.W.exited ||| L) = 0
    · obtain ⟨⟨hu, -⟩, -⟩ := hmoves h
      exact ⟨y.T, by rw [hu]; exact leaves_team x s⟩
    · rw [not_or, not_or, not_exists] at h
      obtain ⟨hno, halone, h0⟩ := h
      obtain ⟨-, ⟨T, _, hT, -⟩, -⟩ := hdead hno halone h0
      exact ⟨T, hT⟩
  generalize deadlock x (x.exitState s) (x.sceneEnded.exitPath x.P).2 = u at hmoves hdead hexec hT
  have hbar := checkBarrier_checked (b := .bar) hT (if_pos rfl)
  have hteam : (u.checkBarrier x.W.team .bar).team x.W.team = some T := (hbar.team _).trans hT
  refine ⟨u, _, _, T, x.exited, hgone, fun h => ?_, hdead, hT, hbar, fun hg => ?_, fun hg => ?_, hexec⟩
  · rw [hfresh]
    exact hmoves h
  · rw [if_pos hg]
    exact checkBarrier_checked hteam (if_neg (by decide))
  · rw [hg]
    rfl

end Sys2Proof.Machine
end

section
/-! Floating-point arithmetic (O8) and the special functions (O10): each shared operation rounds the exact value of a lane, or of
an element, once, and each instruction is one of them. -/

namespace Sys2Proof.Machine

/-! ## Shared operations by the value of each lane (04 R102, R106, R107) -/

section
variable {s : State} {x : Ix} {i : Instr} {n : Bool} {p : Option Pfx} {d a b : BitVec 7} {F : Fmt} {body : Ix → Res}

/-- An instruction on one FP32 source rounds its value to FP32 once. -/
theorem fUn_spec {f : Val → Val} (h : Starts s x i) (hx : exec i s = run i s body) (hu : Usable s x [.reg d.toNat, .src a.toNat])
    (hb : body x = fUn x s n p d a f) :
    LaneResult s x i n p false d.toNat fun l =>
      (BitVec.ofNat 32 (rnd f32 (pfxRnd p) (f (.ofF32 (x.src a.toNat l))))).setWidth 64 := laneOp_spec h hx hu hb

/-- An instruction on two FP32 sources rounds its value to FP32 once. -/
theorem fBin_spec {f : Val → Val → Val} (h : Starts s x i) (hx : exec i s = run i s body)
    (hu : Usable s x [.reg d.toNat, .src a.toNat, .src b.toNat]) (hb : body x = fBin x s n p d a b f) :
    LaneResult s x i n p false d.toNat fun l =>
      (BitVec.ofNat 32 (rnd f32 (pfxRnd p) (f (.ofF32 (x.src a.toNat l)) (.ofF32 (x.src b.toNat l))))).setWidth 64 :=
  laneOp_spec h hx hu hb

/-- A packed instruction rounds each element's value to the 16-bit format once. -/
theorem pBin_spec {f : Val → Val → Val} (h : Starts s x i) (hx : exec i s = run i s body)
    (hu : Usable s x [.reg d.toNat, .src a.toNat, .src b.toNat]) (hb : body x = pBin F x s n p d a b f) :
    LaneResult s x i n p false d.toNat fun l =>
      (pack16 fun j => rnd F (pfxRnd p) (f (elem16 F (x.src a.toNat l) j) (elem16 F (x.src b.toNat l) j))).setWidth 64 :=
  laneOp_spec h hx hu hb

/-- The packed multiply-add rounds each element's exact sum to the 16-bit format once. -/
theorem pFma_spec (h : Starts s x i) (hx : exec i s = run i s body)
    (hu : Usable s x [.reg d.toNat, .src a.toNat, .src b.toNat, .src (pfxC p d)]) (hb : body x = pFma F x s n p d a b) :
    LaneResult s x i n p false d.toNat fun l =>
      (pack16 fun j => rnd F (pfxRnd p) (sumVal (pfxRnd p).mode
        [mulVal (elem16 F (x.src a.toNat l) j) (elem16 F (x.src b.toNat l) j), elem16 F (x.src (pfxC p d) l) j])).setWidth 64 :=
  laneOp_spec h hx hu hb

/-- The dot product rounds the exact sum of its two products and its FP32 value to FP32 once. -/
theorem pDot_spec (h : Starts s x i) (hx : exec i s = run i s body)
    (hu : Usable s x [.reg d.toNat, .src a.toNat, .src b.toNat, .src (pfxC p d)]) (hb : body x = pDot F x s n p d a b) :
    LaneResult s x i n p false d.toNat fun l =>
      (BitVec.ofNat 32 (rnd f32 (pfxRnd p) (sumVal (pfxRnd p).mode
        [mulVal (elem16 F (x.src a.toNat l) 0) (elem16 F (x.src b.toNat l) 0),
          mulVal (elem16 F (x.src a.toNat l) 1) (elem16 F (x.src b.toNat l) 1), .ofF32 (x.src (pfxC p d) l)]))).setWidth 64 :=
  laneOp_spec h hx hu hb

end

/-! ## FMIN and FMAX by the order of 04 R103 -/

theorem minVal_false (u v : Val) :
    minVal false u v = if u.isNan then v else if v.isNan then u else if ltSigned v u then v else u := rfl

theorem minVal_true (u v : Val) :
    minVal true u v = if u.isNan then v else if v.isNan then u else if ltSigned u v then v else u := rfl

/-- Settles O8: each instruction is one of the shared operations, or a lane operation with the bits or the exponent of its
operand. -/
theorem floatingArithmetic : Obligations.FloatingArithmetic := by
  unfold Obligations.FloatingArithmetic
  intro s x e n p d a b A B C fu fv mode
  refine ⟨fun hu i f hm hs => ?_, fun hu i f hm hs => ?_, fun hu i f hm hs => ?_, fun hu i f hm hs => ?_, fun hu i f hm hs => ?_,
    fun hu i f hm hs => ?_, fun hu i f hm hs => ?_⟩ <;> simp only [List.mem_cons, Prod.mk.injEq, List.not_mem_nil, or_false] at hm
  · rcases hm with ⟨rfl, rfl⟩ | ⟨rfl, rfl⟩ | ⟨rfl, rfl⟩ | ⟨rfl, rfl⟩ | ⟨rfl, rfl⟩ | ⟨rfl, rfl⟩
    · exact fBin_spec (f := fun u v => sumVal mode [u, v]) hs rfl hu rfl
    · exact fBin_spec (f := fun u v => sumVal mode [u, v.negate]) hs rfl hu rfl
    · exact fBin_spec (f := mulVal) hs rfl hu rfl
    · exact laneOp_value hs rfl hu rfl fun l => congrArg (rnd32 (pfxRnd p)) (minVal_false (fu l) (fv l))
    · exact laneOp_value hs rfl hu rfl fun l => congrArg (rnd32 (pfxRnd p)) (minVal_true (fu l) (fv l))
    · exact laneOp_spec hs rfl hu rfl
  · obtain ⟨rfl, rfl⟩ := hm
    exact laneOp_spec hs rfl hu rfl
  · rcases hm with ⟨rfl, rfl⟩ | ⟨rfl, rfl⟩ | ⟨rfl, rfl⟩ | ⟨rfl, rfl⟩
    · exact laneOp_spec hs rfl hu rfl
    · exact laneOp_spec hs rfl hu rfl
    · exact fUn_spec (f := integralVal mode) hs rfl hu rfl
    · exact laneOp_spec hs rfl hu rfl
  · rcases hm with ⟨rfl, rfl⟩ | ⟨rfl, rfl⟩ | ⟨rfl, rfl⟩ | ⟨rfl, rfl⟩
    · exact pBin_spec (F := f16) (f := fun u v => sumVal mode [u, v]) hs rfl hu rfl
    · exact pBin_spec (F := f16) (f := mulVal) hs rfl hu rfl
    · exact pBin_spec (F := f16) (f := minVal false) hs rfl hu rfl
    · exact pBin_spec (F := f16) (f := minVal true) hs rfl hu rfl
  · rcases hm with ⟨rfl, rfl⟩ | ⟨rfl, rfl⟩
    · exact pFma_spec (F := f16) hs rfl hu rfl
    · exact pDot_spec (F := f16) hs rfl hu rfl
  · rcases hm with ⟨rfl, rfl⟩ | ⟨rfl, rfl⟩ | ⟨rfl, rfl⟩ | ⟨rfl, rfl⟩
    · exact pBin_spec (F := bf16) (f := fun u v => sumVal mode [u, v]) hs rfl hu rfl
    · exact pBin_spec (F := bf16) (f := mulVal) hs rfl hu rfl
    · exact pBin_spec (F := bf16) (f := minVal false) hs rfl hu rfl
    · exact pBin_spec (F := bf16) (f := minVal true) hs rfl hu rfl
  · rcases hm with ⟨rfl, rfl⟩ | ⟨rfl, rfl⟩
    · exact pFma_spec (F := bf16) hs rfl hu rfl
    · exact pDot_spec (F := bf16) hs rfl hu rfl

/-- Settles O10: each instruction rounds the value of its function once. -/
theorem specialFunctions : Obligations.SpecialFunctions := by
  unfold Obligations.SpecialFunctions
  intro s x e n p d a fu hu i f hm hs
  simp only [List.mem_cons, Prod.mk.injEq, List.not_mem_nil, or_false] at hm
  rcases hm with ⟨rfl, rfl⟩ | ⟨rfl, rfl⟩ | ⟨rfl, rfl⟩ | ⟨rfl, rfl⟩ | ⟨rfl, rfl⟩ | ⟨rfl, rfl⟩ | ⟨rfl, rfl⟩ | ⟨rfl, rfl⟩
  · exact fUn_spec (f := divVal (.fin false 1 0 false)) hs rfl hu rfl
  · exact fUn_spec (f := rsqVal) hs rfl hu rfl
  · exact fUn_spec (f := sqrtVal) hs rfl hu rfl
  · exact fUn_spec (f := exp2Val) hs rfl hu rfl
  · exact fUn_spec (f := log2Val) hs rfl hu rfl
  · exact fUn_spec (f := trigVal 0) hs rfl hu rfl
  · exact fUn_spec (f := trigVal 1) hs rfl hu rfl
  · exact fUn_spec (f := tanhVal) hs rfl hu rfl

end Sys2Proof.Machine
end

section
/-! Conversions and the residue registers (O11): CVT by direction and width, and the instructions that write residues. -/

namespace Sys2Proof.Machine

/-! ## Instructions that write residue registers (01 R39; 04 R111, R112) -/

section
variable {s : State} {x : Ix} {i : Instr} {k : BitVec 3} {body : Ix → Res}

/-- A lane instruction on usable operands that also writes a residue register. -/
theorem residueOp_spec {n : Bool} {p : Option Pfx} {d : BitVec 7} {us : List Use} {f : Nat → Nat × Word} (h : Starts s x i)
    (hx : exec i s = run i s body) (hu : Usable s x (.reg d.toNat :: us))
    (hb : body x = withOperands x s (.reg d.toNat :: us) fun _ => writeWithRes x s n p d.toNat k.toNat f) :
    ResidueResult s x i n p d.toNat k.toNat f := by
  have hd := reg_lt (hu (.reg d.toNat) List.mem_cons_self).1
  exact writeWithRes_spec h hx (by omega) (by rw [hb, withOperands_usable hu])

/-- Writing a residue register in every lane of the path. -/
theorem setRes_lanes_spec {g : Nat → Word} (h : Starts s x i) (hx : exec i s = run i s body)
    (hb : body x = .ok (s.setWarp x.w (x.lanes.foldl (fun W l => W.setRes l k.toNat (g l)) x.W)) none) :
    ∃ t W, Completes s t x i none W ∧ W = { x.W with e := W.e } ∧
      ∀ l r, l < 64 → r < 8 → W.res l r = if l ∈ x.lanes ∧ r = k.toNat then g l else x.W.res l r := by
  obtain ⟨heq, hres⟩ := setRes_fold k.toNat g k.isLt x.lanes x.W
  obtain ⟨t, ht⟩ := completes_ok h hx hb rfl (by rw [heq]) (by rw [heq])
  exact ⟨t, _, ht, heq, fun l r _ => hres l r⟩

end

/-- An FP32 pattern as a 64-bit value. -/
theorem setWidth_rnd32 (r : Rnd) (v : Val) : (rnd32 r v).setWidth 64 = BitVec.ofNat 64 (rnd f32 r v % 2 ^ 32) := by
  apply BitVec.eq_of_toNat_eq
  simp only [rnd32, BitVec.toNat_setWidth, BitVec.toNat_ofNat]

/-- Settles O11: CVT is one of four lane operations, by its direction and by whether its type takes a pair; CVTR, RSDRD and RSDWR
are one operation each. -/
theorem conversions : Obligations.Conversions := by
  unfold Obligations.Conversions
  intro s x e n ns p d a k t g A rd wide
  have hwide : (decide (t = 3) || decide (t = 7)) = true ↔ wide := by
    rw [Bool.or_eq_true, decide_eq_true_eq, decide_eq_true_eq]
  refine ⟨fun hw hu hs => ?_, fun hw hu hs => ?_, fun hw hu hs => ?_, fun hw hu hs => ?_, fun hu hs => ?_, fun hu hs => ?_,
    fun hu hs => ?_⟩
  · exact laneOp64_spec hs rfl hu ((if_neg Bool.false_ne_true).trans (if_pos (hwide.mpr hw)))
  · exact laneOp_spec hs rfl hu ((if_neg Bool.false_ne_true).trans (if_neg fun hc => hw (hwide.mp hc)))
  · simp only [← setWidth_rnd32]
    exact laneOp_spec hs rfl hu ((if_pos rfl).trans (if_pos (hwide.mpr hw)))
  · simp only [← setWidth_rnd32]
    exact laneOp_spec hs rfl hu ((if_pos rfl).trans (if_neg fun hc => hw (hwide.mp hc)))
  · exact residueOp_spec hs rfl hu rfl
  · exact laneOp_spec hs rfl hu rfl
  · exact setRes_lanes_spec hs rfl (withOperands_usable hu)

end Sys2Proof.Machine
end

section
/-! Microscaled formats and the online softmax (O12): the scales of a warp's two blocks, the slots of elements, and that each
instruction is one lane operation. -/

namespace Sys2Proof.Machine

/-! ## Shared scales of blocks of 32 lanes (04 R113 to R115) -/

/-- The shared scale of block `blk` of a mask's lanes, each of which gives the values `elems`. -/
def blockScale (f : Nat) (m : Mask) (elems : Nat → List Val) (blk : Nat) : Nat :=
  mxScale f (((lanesOf m).filter fun l => l / 32 = blk).flatMap elems)

/-- A mask has no lanes past its second block. -/
theorem blockScale_past (f : Nat) (m : Mask) (elems : Nat → List Val) (blk : Nat) : blockScale f m elems (blk + 2) = 0 := by
  have hnone : ((lanesOf m).filter fun l => decide (l / 32 = blk + 2)) = [] :=
    List.filter_eq_nil_iff.mpr fun l hl hc => by
      have hlt := (mem_lanesOf.mp hl).1
      have hblk := of_decide_eq_true hc
      omega
  rw [blockScale, hnone]
  rfl

/-- The scales of the two blocks of a mask are those of all. -/
theorem blockScales_getD (f : Nat) (m : Mask) (elems : Nat → List Val) (blk : Nat) :
    ([blockScale f m elems 0, blockScale f m elems 1][blk]?).getD 0 = blockScale f m elems blk :=
  match blk with
  | 0 => rfl
  | 1 => rfl
  | blk + 2 => (blockScale_past f m elems blk).symm

/-! ## Elements (04 R114, R116) -/

theorem mxSlot_eq (f : BitVec 2) (i : Nat) : mxSlot f.toNat i = if f = 2 then (4 * i, 4) else (8 * i, 8) := by
  have hf : f.toNat = 2 ↔ f = 2 := BitVec.toNat_inj (y := 2)
  simp only [mxSlot, hf]

theorem mxQuant_eq (f mode code : Nat) (v : Val) : mxQuant f mode code v =
    if code = 255 ∨ v.isNan then 0 else mxRound f mode (v.scale (127 - (code : Int))) := by
  simp only [mxQuant, Bool.or_eq_true, decide_eq_true_eq]

/-- Settles O12: each instruction is one lane operation, MXSC with the scale of the lane's block, MXQ and MXDQ at the slot of
their element. -/
theorem microscaledFormats : Obligations.MicroscaledFormats := by
  unfold Obligations.MicroscaledFormats
  intro s x e n p d a b f y sl k A act code slot elems
  have hslot : mxSlot f.toNat sl.toNat = slot := mxSlot_eq f sl.toNat
  refine ⟨fun hu hs => ?_, fun hu hs => ?_, fun hu hs => ?_, fun hu hs => ?_, fun hu hs => ?_, fun hu hs => ?_⟩
  · exact laneOp_value hs rfl hu rfl fun l =>
      congrArg (setBits (x.W.reg l d.toNat) (8 * y.toNat) 8) (blockScales_getD f.toNat (x.active p) elems (l / 32))
  · rw [← hslot]
    exact laneOp_value hs rfl hu rfl fun _ => congrArg (setBits _ _ _) (mxQuant_eq ..)
  · exact residueOp_spec hs rfl hu rfl
  · rw [← hslot]
    exact laneOp_spec hs rfl hu rfl
  · exact laneOp64_spec hs rfl hu rfl
  · exact laneOp_spec hs rfl hu rfl

end Sys2Proof.Machine
end

section
/-! YIELD, BAR and BARG (O20): a path blocks past the end of its scene, and a barrier is checked. -/

namespace Sys2Proof.Machine

theorem endsScene_yield : Instr.yield.endsScene = true := endsScene_uni rfl (by decide)
theorem endsScene_bar : Instr.bar.endsScene = true := endsScene_uni rfl (by decide)
theorem endsScene_barg : Instr.barg.endsScene = true := endsScene_uni rfl (by decide)

/-- Blocking a path past its scene leaves the teams as they are. -/
theorem BlockedPast.team {s t : State} {x : Ix} {i : Instr} {b : Block} (h : BlockedPast s t x i b) (k : Nat) :
    t.team k = s.team k := by
  obtain ⟨⟨hframe, -⟩, -⟩ := h
  rw [hframe]
  rfl

section
variable {s : State} {x : Ix} {i : Instr} {body : Ix → Res} {b : Block}

/-- An instruction whose effect is to block its path blocks it past the scene. -/
theorem blocks_past (h : Starts s x i) (hx : exec i s = run i s body) (hb : body x = .block s b) (he : i.endsScene = true) :
    ∃ t, exec i s = .next t ∧ BlockedPast s t x i b := by
  obtain ⟨-, hW, hrun, hP, -⟩ := issuing_spec h.1
  exact ⟨_, by rw [hx, run_starts h, hb]; rfl, block_spec hW hP hrun he⟩

/-- An arrival whose release has nothing to wait for blocks its path, and the barrier is checked (06 R173, R175). -/
theorem arrives {sc : Nat} (h : Starts s x i) (hx : exec i s = run i s body) (hb : body x = arrive x i s sc b)
    (hrel : x.releaseWaits s sc = false) (he : i.endsScene = true) (hsc : (if b = .bar then 1 else 5) = sc) :
    ∃ u t, BlockedPast s u x i b ∧ exec i s = .next t ∧ BarrierChecked u t x.T b sc := by
  obtain ⟨-, hW, hrun, hP, hT⟩ := issuing_spec h.1
  have hblock := block_spec (b := b) hW hP hrun he
  refine ⟨_, _, hblock, ?_, checkBarrier_checked ((hblock.team _).trans hT) hsc⟩
  rw [hx, run_starts h, hb, arrive, hrel]
  rfl

end

/-- Settles O20: YIELD blocks its path, BARG outside a gang faults, and BAR and BARG in a gang are arrivals. -/
theorem barriersAndYield : Obligations.BarriersAndYield := by
  unfold Obligations.BarriersAndYield
  intro s x
  refine ⟨fun hs => blocks_past hs rfl rfl endsScene_yield, fun hs hg => takes_fault hs rfl (by rw [hg]; rfl),
    fun i b sc hi hrel hs => ?_⟩
  rcases hi with ⟨rfl, rfl, rfl⟩ | ⟨rfl, rfl, rfl, hg⟩
  · exact arrives hs rfl rfl hrel endsScene_bar (if_pos rfl)
  · exact arrives hs rfl (if_pos hg) hrel endsScene_barg (if_neg (by decide))

end Sys2Proof.Machine
end

section
/-! The role fault (O59): the checks of an instruction's encoding, then of its warp's role, before anything else. -/

namespace Sys2Proof.Machine

/-- An instruction reserved to a role runs in the frame of the issuing path. -/
theorem exec_reserved {i : Instr} {r : Role} (h : i.role? = some r) (s : State) : ∃ body, exec i s = run i s body := by
  cases i
  case copy | cast | casti | castsplit | castrd | castwr => exact ⟨_, rfl⟩
  case mash | rack | colrd | colclr | mstat => exact ⟨_, rfl⟩
  case rcp | rsq | sqrt | exp2 | log2 | sin | cos | tanh | cvt | cvtr | rsdrd | rsdwr => exact ⟨_, rfl⟩
  case mxsc | mxq | mxqr | mxdq | smxacc | smxfin | cue => exact ⟨_, rfl⟩
  all_goals cases h

section
variable {x : Ix} {i : Instr}

/-- The encoding is checked first (02 R51, R54, R55, R60). -/
theorem entryTrap_illegal (h : i.wf = false ∨ overlong x i = true) : entryTrap x i = some i.illegal := by
  unfold entryTrap
  refine if_pos ?_
  rcases h with h | h
  · rw [h]; rfl
  · rw [h, Bool.or_true]

/-- The role is checked second (05 R147). -/
theorem entryTrap_role {r : Role} (hwf : i.wf = true) (hlen : overlong x i = false) (hr : i.role? = some r) (hne : x.W.role ≠ r) :
    entryTrap x i = some ⟨6, x.W.role.code, 0, opcodeOf i.word1, 0, none⟩ := by
  unfold entryTrap
  rw [hwf, hlen, hr]
  exact if_neg hne

end

/-- Settles O59: both faults are those of `entryTrap`, whose checks come before the effect. -/
theorem roleFault : Obligations.RoleFault := by
  unfold Obligations.RoleFault
  intro s x i r hi hr hne pfx role op faults
  obtain ⟨body, hx⟩ := exec_reserved hr s
  have hrole : x.W.role.code = role := by cases h : x.W.role <;> simp only [role, h] <;> rfl
  refine ⟨fun hwf hlen => ?_, fun h => entry_fault hi hx (entryTrap_illegal h)⟩
  rw [← hrole]
  exact entry_fault hi hx (entryTrap_role hwf hlen hr hne)

end Sys2Proof.Machine
end

section
/-! Cross-lane instructions (O13): each is one lane operation on the tile of the lane, or one write of a uniform register. -/

namespace Sys2Proof.Machine

section
variable {s : State} {x : Ix} {i : Instr} {n : Bool} {d : BitVec 7} {us : List Use} {body : Ix → Res}

/-- A mask result takes a pair at width 64 and else a register (06 R164). -/
theorem crossMask_spec {f g : Nat → Mask} (hx : exec i s = run i s body) (hb : body x = crossMask x s n d us g) (hv : ∀ l, g l = f l) :
    (x.T.width = 64 → Usable s x (.regPair d.toNat :: us) → Starts s x i → LaneResult s x i n none true d.toNat f) ∧
    (x.T.width ≠ 64 → Usable s x (.reg d.toNat :: us) → Starts s x i →
      LaneResult s x i n none false d.toNat fun l => ((f l).setWidth 32).setWidth 64) := by
  refine ⟨fun hw hu hs => laneOp64_value hs hx hu (hb.trans (if_pos hw)) hv, fun hw hu hs => ?_⟩
  exact laneOp_value (f := fun l => (f l).setWidth 32) hs hx hu (hb.trans (if_neg hw)) fun l => congrArg _ (hv l)

end

/-! ## Values (06 R166 to R170) -/

theorem any_decide_iff {p : Nat → Prop} [DecidablePred p] {ls : List Nat} :
    (ls.any fun k => decide (p k)) = true ↔ ∃ k ∈ ls, p k := by
  simp only [List.any_eq_true, decide_eq_true_eq]

theorem all_decide_iff {p : Nat → Prop} [DecidablePred p] {ls : List Nat} :
    (ls.all fun k => decide (p k)) = true ↔ ∀ k ∈ ls, p k := by
  simp only [List.all_eq_true, decide_eq_true_eq]

/-- The four modes of SHFL in the order of their codes. -/
theorem shflIndex_eq (P i : Nat) (sel : Word) : shflIndex P i sel =
    (([sel.toNat % 64 % P, if i < sel.toNat % 64 then i else i - sel.toNat % 64,
      if P ≤ i + sel.toNat % 64 then i else i + sel.toNat % 64,
      i ^^^ (sel.toNat % 64 % P)] : List Nat)[sel.toNat / 2 ^ 8 % 4]?).getD 0 := by
  have hmode : sel.toNat / 2 ^ 8 % 4 < 4 := Nat.mod_lt _ (by decide)
  unfold shflIndex
  generalize sel.toNat / 2 ^ 8 % 4 = mode at hmode
  interval_cases mode <;> rfl

/-- Lane l of COMPACT takes the value of the participant of its rank, or 0. -/
theorem compact_eq (f : Nat → Word) (ks : List Nat) (r : Nat) :
    (match ks[r]? with | some k => f k | none => 0) = ((ks.map f)[r]?).getD 0 := by
  rw [List.getElem?_map]
  cases ks[r]? <;> rfl

/-- The lanes of a scan: those below, and the lane itself unless it is exclusive. -/
theorem scan_filter (ex : Bool) (l : Nat) (ks : List Nat) :
    (ks.filter fun k => decide (k < l) || (!ex && decide (k = l))) = ks.filter fun k => decide (k < l ∨ ex = false ∧ k = l) := by
  refine List.filter_congr fun k _ => ?_
  rw [Bool.eq_iff_iff]
  simp only [Bool.or_eq_true, Bool.and_eq_true, Bool.not_eq_true', decide_eq_true_eq]

/-- The lanes whose .f32 key equals that of lane l, with l itself. -/
theorem f32_filter (A : Nat → Word) (l : Nat) (ks : List Nat) : (ks.filter fun j => decide (j = l) || f32KeyEq (A j) (A l)) =
    ks.filter fun k => decide (k = l ∨ floatCond 0 (.ofF32 (A k)) (.ofF32 (A l)) = true) := by
  refine List.filter_congr fun k _ => ?_
  rw [Bool.eq_iff_iff]
  simp only [Bool.or_eq_true, decide_eq_true_eq, f32KeyEq]

/-- Settles O13: each instruction is one cross-lane operation with the value above, BCAST a lane operation, and RDLANE a write of
a uniform register where n is a lane of the warp. -/
theorem crossLane : Obligations.CrossLane := by
  unfold Obligations.CrossLane
  intro s x e n f ex w d a b o g k A P tile maskResult
  refine ⟨fun hu i v hm hs => ?_, crossMask_spec rfl rfl fun _ => rfl, crossMask_spec rfl rfl fun _ => rfl,
    crossMask_spec rfl rfl fun _ => rfl, crossMask_spec rfl rfl fun l => congrArg maskOf (f32_filter A l (tile l)), fun hu hs => ?_,
    fun hu hs => ?_, fun hg hu hs => ?_, fun hg hu hs => ?_, fun hk hs => takes_fault hs rfl (if_pos hk), fun hk hu hg hs => ?_⟩
  · simp only [List.mem_cons, Prod.mk.injEq, List.not_mem_nil, or_false] at hm
    rcases hm with ⟨rfl, rfl⟩ | ⟨rfl, rfl⟩ | ⟨rfl, rfl⟩ | ⟨rfl, rfl⟩ | ⟨rfl, rfl⟩
    · exact laneOp_value hs rfl hu rfl fun _ => if_congr any_decide_iff rfl rfl
    · exact laneOp_value hs rfl hu rfl fun _ => if_congr all_decide_iff rfl rfl
    · exact laneOp_value hs rfl hu rfl fun _ => if_congr all_decide_iff rfl rfl
    · exact laneOp_spec hs rfl hu rfl
    · exact laneOp_value hs rfl hu rfl fun l => congrArg (fun ks => combine o.toNat f (List.map A ks)) (scan_filter ex l (tile l))
  · exact laneOp_value hs rfl hu rfl fun l => congrArg
      (fun j => if x.P.lanes.getLsbD (l / P * P + j) then A (l / P * P + j) else A l) (shflIndex_eq P (l % P) (x.src b.toNat l))
  · exact laneOp_value hs rfl hu rfl fun l => compact_eq A _ _
  · exact laneOp64_spec hs rfl hu (withUniform_usable hg)
  · exact laneOp_spec hs rfl hu (withUniform_usable hg)
  · have hn := Nat.not_le.mpr hk
    exact uniOp_spec (f := fun _ => if x.P.lanes.getLsbD k.toNat then
      (if w then x.srcPair a.toNat k.toNat else (A k.toNat).setWidth 64) else 0) hs rfl hg ((if_neg hn).trans (withOperands_usable hu))

end Sys2Proof.Machine
end

section
/-! Rejoin registers (O18). The statement fails: where STRIKE releases a register it says of every path at the issuing path's lowest
lane what it became, each counting towards its own skid, and no premise says that there is one such path. The machine counts as the
issuing path does (19 R379 step 5). The counterexample holds two paths of lane 0, which no state that keeps 05 R122 does. -/

namespace Sys2Proof.Machine

/-- A path of lane 0 in a scene of which `n` words have issued. -/
def twinPath (n : Nat) : Path := { Path.fresh 1 0x20000 with scene := some ⟨n, []⟩ }

/-- A warp with two paths of lane 0, its lane 1 parked in j0, where both lanes are enrolled. -/
def twinWarp : Warp := { placedWarp with live := 3, paths := [twinPath 0, twinPath 1], j := [(0, ⟨3, 2⟩)], cont := [(1, 0x20040)] }

/-- Its team, which is held, so that instructions count towards the skid. -/
def twinTeam : Team := { placedTeam with hold := some Hold.empty }

/-- A state in which the first of the two paths issues, at the first word of its scene. -/
def twinState : State := (State.reset.setTeam 0 twinTeam).setWarp 0 twinWarp

/-- Its issuing path. -/
def twinIx : Ix := ⟨0, twinWarp, twinPath 0, twinTeam⟩

/-- The paths of warp 0 after an instruction. -/
def pathsAfter (i : Instr) (s : State) : List Path :=
  match exec i s with
  | .next t => ((t.warp 0).map (·.paths)).getD []
  | _ => []

theorem pathsAfter_eq {i : Instr} {s t : State} {V : Warp} (h : exec i s = .next t) (hV : t.warp 0 = some V) :
    pathsAfter i s = V.paths := by
  unfold pathsAfter
  rw [h]
  simp only [hV, Option.map_some, Option.getD_some]

theorem strike_starts_twins : Starts twinState twinIx (.strike true 0 0) :=
  ⟨by decide, by decide, by decide, fun _ h => nomatch h⟩

/-- The issuing path is at the first word of its scene, which does not count, so no path's skid grows. -/
theorem strike_counts_no_skid : ∀ Q ∈ pathsAfter (.strike true 0 0) twinState, Q.skid = 0 := by decide

/-- Refutes O18: of the second path of lane 0, past the first word of its scene, the statement says that its skid is 1, and the
machine leaves no path with a skid. -/
theorem not_rejoinRegisters : ¬ Obligations.RejoinRegisters := by
  unfold Obligations.RejoinRegisters
  intro h
  obtain ⟨-, -, hrelease, -⟩ := h twinState twinIx true 0 0
  obtain ⟨t, V, hexec, -, hV, -, -, -, -, -, hpaths⟩ :=
    hrelease _ rfl (by decide) (by decide) (by decide) (by decide) strike_starts_twins
  have hsecond : Ix.after { twinIx with P := twinPath 1 } (.strike true 0 0) none ∈ V.paths :=
    (hpaths _).mpr (.inr (.inl ⟨twinPath 1, by decide, by decide, rfl⟩))
  rw [← pathsAfter_eq hexec hV] at hsecond
  have hskid := strike_counts_no_skid _ hsecond
  exact absurd hskid (by decide)

end Sys2Proof.Machine
end

section
/-! Grants (07 R188): what placing a team does to scratch and banks. -/

namespace Sys2Proof.Machine

/-- Between `s` and `t` the granules `gs` of scratch (2048 × core + granule) are made zero and full, the banks `bs` (32 × core +
bank) are made as they are granted, and the banks `ss` are put in storage mode (07 R188). -/
def Granted (s t : State) (gs bs ss : List Nat) : Prop :=
  t = { s with scratch := t.scratch, empty := t.empty, banks := t.banks } ∧
  (∀ k, tget 0 t.scratch k = if k / 4096 ∈ gs then 0 else tget 0 s.scratch k) ∧
  (∀ k, tget false t.empty k = if k / 32 ∈ gs then false else tget false s.empty k) ∧
  ∀ k, tget Bank.zero t.banks k = if k ∈ bs then Bank.zero
    else if k ∈ ss then { tget Bank.zero s.banks k with mash := false } else tget Bank.zero s.banks k

theorem Granted.refl (s : State) : Granted s s [] [] [] :=
  ⟨rfl, fun _ => (if_neg List.not_mem_nil).symm, fun _ => (if_neg List.not_mem_nil).symm,
    fun _ => ((if_neg List.not_mem_nil).trans (if_neg List.not_mem_nil)).symm⟩

/-- Only which granules and banks are listed matters. -/
theorem Granted.congr {s t : State} {gs gs' bs bs' ss ss' : List Nat} (h : Granted s t gs bs ss) (hg : ∀ g, g ∈ gs' ↔ g ∈ gs)
    (hb : ∀ b, b ∈ bs' ↔ b ∈ bs) (hs : ∀ b, b ∈ ss' ↔ b ∈ ss) : Granted s t gs' bs' ss' := by
  unfold Granted at *
  simpa only [hg, hb, hs] using h

theorem Granted.trans {s t u : State} {gs gs' bs bs' ss ss' : List Nat} (h : Granted s t gs bs ss) (k : Granted t u gs' bs' ss') :
    Granted s u (gs ++ gs') (bs ++ bs') (ss ++ ss') := by
  obtain ⟨hframe, hscr, hempty, hbanks⟩ := h
  obtain ⟨kframe, kscr, kempty, kbanks⟩ := k
  refine ⟨by rw [kframe, hframe], fun n => ?_, fun n => ?_, fun n => ?_⟩
  · rw [kscr, hscr]
    by_cases h1 : n / 4096 ∈ gs <;> by_cases h2 : n / 4096 ∈ gs' <;> simp [h1, h2]
  · rw [kempty, hempty]
    by_cases h1 : n / 32 ∈ gs <;> by_cases h2 : n / 32 ∈ gs' <;> simp [h1, h2]
  · rw [kbanks, hbanks]
    have hz : ({ Bank.zero with mash := false } : Bank) = Bank.zero := rfl
    by_cases h1 : n ∈ bs <;> by_cases h2 : n ∈ bs' <;> by_cases h3 : n ∈ ss <;> by_cases h4 : n ∈ ss' <;> simp [h1, h2, h3, h4, hz]

/-- Grants one after the other. -/
theorem granted_foldl {f : State → Nat → State} {G B S : Nat → List Nat} (h : ∀ s b, Granted s (f s b) (G b) (B b) (S b)) :
    ∀ (l : List Nat) (s : State), Granted s (l.foldl f s) (l.flatMap G) (l.flatMap B) (l.flatMap S)
  | [], s => .refl s
  | b :: l, s => (h s b).trans (granted_foldl h l (f s b))

/-- A single granule is made zero and full, and its bank is put in storage mode. -/
theorem granted_granule (core : Nat) (s : State) (g : Nat) : Granted s
    { s with
      scratch := tclear s.scratch (core * 2 ^ 23 + 4096 * g) (core * 2 ^ 23 + 4096 * g + 4096)
      empty := tclear s.empty ((core * 2 ^ 23 + 4096 * g) / 128) ((core * 2 ^ 23 + 4096 * g) / 128 + 32)
      banks := tput Bank.zero s.banks (32 * core + g / 64) { tget Bank.zero s.banks (32 * core + g / 64) with mash := false } }
    [2048 * core + g] [] [32 * core + g / 64] := by
  refine ⟨rfl, fun k => ?_, fun k => ?_, fun k => ?_⟩
  · rw [tget_tclear]
    refine if_congr ?_ rfl rfl
    rw [List.mem_singleton]
    omega
  · rw [tget_tclear]
    refine if_congr ?_ rfl rfl
    rw [List.mem_singleton]
    omega
  · rw [tget_tput, if_neg List.not_mem_nil]
    by_cases hk : k = 32 * core + g / 64
    · rw [if_pos hk, if_pos (List.mem_singleton.mpr hk), hk]
    · rw [if_neg hk, if_neg fun h => hk (List.mem_singleton.mp h)]

/-- A whole bank is made zero and full. -/
theorem granted_bank (core : Nat) (s : State) (b : Nat) : Granted s
    { s with
      scratch := tclear s.scratch (core * 2 ^ 23 + b * 2 ^ 18) (core * 2 ^ 23 + b * 2 ^ 18 + 2 ^ 18)
      empty := tclear s.empty ((core * 2 ^ 23 + b * 2 ^ 18) / 128) ((core * 2 ^ 23 + b * 2 ^ 18) / 128 + 2 ^ 11)
      banks := tput Bank.zero s.banks (32 * core + b) Bank.zero }
    ((bankGran [b]).map (2048 * core + ·)) [32 * core + b] [] := by
  have hmem : ∀ k, k ∈ (bankGran [b]).map (2048 * core + ·) ↔ 2048 * core + 64 * b ≤ k ∧ k < 2048 * core + 64 * b + 64 := fun k => by
    simp only [bankGran, List.flatMap_cons, List.flatMap_nil, List.append_nil, List.mem_map, List.mem_range, exists_exists_and_eq_and]
    exact ⟨fun ⟨i, hi, he⟩ => by omega, fun ⟨h1, h2⟩ => ⟨k - (2048 * core + 64 * b), by omega, by omega⟩⟩
  refine ⟨rfl, fun k => ?_, fun k => ?_, fun k => ?_⟩
  · rw [tget_tclear]
    refine if_congr ?_ rfl rfl
    rw [hmem]
    omega
  · rw [tget_tclear]
    refine if_congr ?_ rfl rfl
    rw [hmem]
    omega
  · rw [tget_tput, if_neg (c := k ∈ []) List.not_mem_nil]
    exact if_congr List.mem_singleton.symm rfl rfl

/-- What a team is granted on a core (07 R188). -/
theorem granted_grantOn (s : State) (core : Nat) (gran banks : List Nat) :
    Granted s (s.grantOn core gran banks) ((gran ++ bankGran banks).map (2048 * core + ·)) (banks.map (32 * core + ·))
      (gran.map fun g => 32 * core + g / 64) := by
  have h := (granted_foldl (granted_granule core) gran s).trans (granted_foldl (granted_bank core) banks _)
  refine h.congr (fun g => ?_) (fun b => ?_) (fun b => ?_)
  · simp [bankGran, Nat.add_assoc, eq_comm (a := g)]
  · simp [eq_comm (a := b)]
  · simp [eq_comm (a := b)]

/-! ## A place (07 R187; 05 R129) -/

/-- The single granules of a place, as `Granted` numbers them. -/
def Place.single (p : Place) : List Nat :=
  p.gran0.map (fun g => 2048 * p.core + g) ++ if p.pair then p.gran1.map (fun g => 2048 * (p.core + 1) + g) else []

/-- All granules of a place. -/
def Place.granules (p : Place) : List Nat :=
  p.single ++ (bankGran p.banks0).map (fun g => 2048 * p.core + g) ++
    if p.pair then (bankGran p.banks1).map (fun g => 2048 * (p.core + 1) + g) else []

/-- The banks of a place. -/
def Place.bankKeys (p : Place) : List Nat :=
  p.banks0.map (32 * p.core + ·) ++ if p.pair then p.banks1.map (32 * (p.core + 1) + ·) else []

/-- Grants on the core of a place, and on the second core of a pair. -/
def State.grantAt (s : State) (p : Place) : State :=
  let u := s.grantOn p.core p.gran0 p.banks0
  if p.pair then u.grantOn (p.core + 1) p.gran1 p.banks1 else u

/-- The bank of a granule. -/
theorem granule_bank (core g : Nat) : (2048 * core + g) / 64 = 32 * core + g / 64 := by omega

theorem granted_grantAt (s : State) (p : Place) : Granted s (s.grantAt p) p.granules p.bankKeys (p.single.map (· / 64)) := by
  have h := granted_grantOn s p.core p.gran0 p.banks0
  unfold State.grantAt Place.granules Place.bankKeys Place.single
  cases hp : p.pair with
  | false =>
    refine h.congr (fun g => ?_) (fun b => ?_) (fun b => ?_)
    · simp
    · simp
    · simp [Function.comp_def, granule_bank]
  | true =>
    refine (h.trans (granted_grantOn _ (p.core + 1) p.gran1 p.banks1)).congr (fun g => ?_) (fun b => ?_) (fun b => ?_)
    · simp only [if_true, List.map_append, List.mem_append]
      tauto
    · simp
    · simp [Function.comp_def, granule_bank]

/-- Placing a team is what the rules of placement say (07 R187 to R189). -/
theorem placed_placeTeam (s : State) (L : Launch) (p : Place) : Placed s (s.placeTeam L p).1 L (s.placeTeam L p).2 p := by
  let o := L.origin.getD s.origin
  let M : Launch := { L with origin := some o, placed := L.placed + 1 }
  let v : State := { s with
    origin := if L.origin.isNone then (s.origin + 1) % coreCount s.dcmap else s.origin
    launches := s.launches.map fun N => if N = L then M else N }
  have hplace : s.placeTeam L p = ((v.grantAt p).setTeam (16 * p.core + p.slot0) (L.team L.placed p), M) := rfl
  obtain ⟨hframe, hscr, hempty, hbanks⟩ := granted_grantAt v p
  rw [hplace]
  generalize v.grantAt p = u at hframe hscr hempty hbanks
  refine ⟨rfl, ?_, hscr, hempty, hbanks⟩
  have horigin : v.origin = if L.origin = none then (s.origin + 1) % coreCount s.dcmap else s.origin :=
    if_congr Option.isNone_iff_eq_none rfl rfl
  rw [← horigin]
  unfold State.setTeam
  rw [hframe]

end Sys2Proof.Machine
end

section
/-! Placement passes (07 R189, R192, R193): what placing, reserving and a whole pass come to. -/

namespace Sys2Proof.Machine

/-! ## Teams placed one after the other -/

/-- A team is placed while its launch has one to place, in the first place with room, reserved room counting as used. -/
def Placeable (u : State) (N : Launch) (p : Place) : Prop :=
  N.placed < lrTeams N.record ∧ u.findPlace (u.teamsTaken ++ u.reservedTaken) N = some p

/-- `placeTeams` stops where the launch has no team to place, where there is no room, or where its fuel is out. -/
theorem placeTeams_spec : ∀ (n : Nat) (s : State) (L : Launch), ∃ ps M, PlacedEach Placeable ps s L (State.placeTeams n s L) M ∧
    (lrTeams M.record ≤ M.placed ∨
      (State.placeTeams n s L).findPlace ((State.placeTeams n s L).teamsTaken ++ (State.placeTeams n s L).reservedTaken) M = none ∨
      ps.length = n)
  | 0, s, L => ⟨[], L, ⟨rfl, rfl⟩, .inr (.inr rfl)⟩
  | n + 1, s, L => by
    unfold State.placeTeams
    by_cases hfull : lrTeams L.record ≤ L.placed
    · rw [if_pos hfull]
      exact ⟨[], L, ⟨rfl, rfl⟩, .inl hfull⟩
    · rw [if_neg hfull]
      cases hfind : s.findPlace (s.teamsTaken ++ s.reservedTaken) L with
      | none => exact ⟨[], L, ⟨rfl, rfl⟩, .inr (.inl hfind)⟩
      | some p =>
        obtain ⟨ps, M, heach, hstop⟩ := placeTeams_spec n (s.placeTeam L p).1 (s.placeTeam L p).2
        exact ⟨p :: ps, M, ⟨⟨Nat.not_le.mp hfull, hfind⟩, _, _, placed_placeTeam s L p, heach⟩,
          hstop.imp id (Or.imp id (congrArg (· + 1)))⟩

theorem placedAll_placeTeams (s : State) (L : Launch) : PlacedAll s (State.placeTeams maxTeams s L) L :=
  placeTeams_spec maxTeams s L

theorem placedLaunches_placeOthers : ∀ (ls : List Launch) (s : State), PlacedLaunches ls s (s.placeOthers ls)
  | [], _ => rfl
  | L :: ls, s => by
    refine ⟨if lrGang L.record then s else State.placeTeams maxTeams s L, ?_, placedLaunches_placeOthers ls _⟩
    split
    · rfl
    · exact placedAll_placeTeams s L

theorem placedEach_foldl : ∀ (ps : List Place) (s : State) (L : Launch), ∃ M, PlacedEach (fun _ _ _ => True) ps s L
    (ps.foldl (fun (r : State × Launch) p => r.1.placeTeam r.2 p) (s, L)).1 M
  | [], _, L => ⟨L, rfl, rfl⟩
  | p :: ps, s, L => by
    obtain ⟨M, heach⟩ := placedEach_foldl ps (s.placeTeam L p).1 (s.placeTeam L p).2
    exact ⟨M, trivial, _, _, placed_placeTeam s L p, heach⟩

/-! ## The gang rule (07 R192) -/

/-- The place that gang `L` reserves next, when `rs` are reserved. -/
def State.nextReserved (s : State) (L : Launch) (rs : List Place) : Option Place :=
  s.findPlace (s.teamsTaken ++ rs.map fun q => ⟨q, lrBytes L.record⟩) L

/-- `reserve` adds places one by one, each the next with room, and stops where every team has one, where there is no room, or
where its fuel is out. -/
theorem reserve_spec (s : State) (L : Launch) : ∀ (n : Nat) (g : Gang), ∃ ps,
    State.reserve n s L g = { g with reserved := g.reserved ++ ps } ∧
    (∀ i p, ps[i]? = some p →
      g.reserved.length + i < lrTeams L.record ∧ s.nextReserved L (g.reserved ++ ps.take i) = some p) ∧
    (lrTeams L.record ≤ g.reserved.length + ps.length ∨ s.nextReserved L (g.reserved ++ ps) = none ∨ ps.length = n)
  | 0, g => ⟨[], by rw [List.append_nil]; rfl, fun i p h => by simp at h, .inr (.inr rfl)⟩
  | n + 1, g => by
    unfold State.reserve
    by_cases hfull : lrTeams L.record ≤ g.reserved.length
    · rw [if_pos hfull]
      exact ⟨[], by rw [List.append_nil], fun i p h => by simp at h, .inl hfull⟩
    · rw [if_neg hfull]
      cases hfind : s.nextReserved L g.reserved with
      | none =>
        unfold State.nextReserved at hfind
        rw [hfind]
        exact ⟨[], by rw [List.append_nil], fun i p h => by simp at h, .inr (.inl (by rw [List.append_nil]; exact hfind))⟩
      | some q =>
        obtain ⟨ps, heq, hps, hstop⟩ := reserve_spec s L n { g with reserved := g.reserved ++ [q] }
        have hfind' := hfind
        unfold State.nextReserved at hfind'
        rw [hfind']
        simp only [List.append_assoc, List.singleton_append, List.length_append, List.length_singleton] at heq hps hstop
        refine ⟨q :: ps, heq, fun i p hi => ?_, ?_⟩
        · cases i with
          | zero =>
            obtain rfl : q = p := Option.some.inj hi
            refine ⟨by omega, ?_⟩
            rw [List.take_zero, List.append_nil]
            exact hfind
          | succ i =>
            obtain ⟨hlt, hnext⟩ := hps i p hi
            exact ⟨by omega, hnext⟩
        · rw [List.length_cons]
          exact hstop.imp (fun h => by omega) (Or.imp id (by omega))

/-- The gang that reserves under the gang rule: the reserving one, or gang `G` with nothing reserved. -/
def State.reserving (s : State) (G : Launch) : Gang :=
  match s.gang with
  | some g => if g.launch = G.key then g else ⟨G.key, [], 0⟩
  | none => ⟨G.key, [], 0⟩

theorem gangRule_eq (s : State) (G : Launch) : s.gangRule G =
    let g := State.reserve maxTeams s G (s.reserving G)
    if g.reserved.length = lrTeams G.record then
      { (g.reserved.foldl (fun (r : State × Launch) p => r.1.placeTeam r.2 p) (s, G)).1 with gang := none }
    else { s with gang := some g } := rfl

theorem gangRule_spec (s : State) (G : Launch) : GangRule s (s.gangRule G) G := by
  obtain ⟨ps, heq, hps, hstop⟩ := reserve_spec s G maxTeams (s.reserving G)
  have hrule := gangRule_eq s G
  rw [heq] at hrule
  simp only [List.length_append] at hrule
  refine ⟨ps, hps, hstop, fun hall => ?_, fun hnot => hrule.trans (if_neg hnot)⟩
  obtain ⟨M, heach⟩ := placedEach_foldl ((s.reserving G).reserved ++ ps) s G
  exact ⟨_, M, heach, hrule.trans (if_pos hall)⟩

/-! ## A pass (07 R189, R192, R193) -/

/-- The state in which a pass begins: the reserving gang is the first ready one, or there is none. -/
def State.passState (s : State) : State := { s with gang := s.gangOf (s.readyLaunches.find? fun L => lrGang L.record) }

/-- The age of the reserving gang grows where a later launch placed a team in the pass. -/
def State.aged (t : State) (later : List Launch) : State := { t with
  gang := t.gang.map fun g =>
    if later.any fun L => t.launches.any fun M => decide (M.key = L.key) && decide (L.placed < M.placed) then
      { g with age := min 16 (g.age + 1) } else g }

variable {s : State} {ready before later : List Launch} {G : Launch}

theorem passOver_none : s.passOver ready none = s.placeOthers ready := rfl

theorem passOver_old (h : s.gang.map Gang.age = some 16) : s.passOver ready (some G) =
    if (s.gangRule G).gang.isSome then s.gangRule G else (s.gangRule G).placeOthers (ready.filter fun L => decide (L ≠ G)) := if_pos h

theorem takeWhile_before (h : G ∉ before) : (before ++ G :: later).takeWhile (fun L => decide (L ≠ G)) = before := by
  rw [List.takeWhile_append_of_pos fun L hL => decide_eq_true (ne_of_mem_of_not_mem hL h), List.takeWhile_cons_of_neg (by simp),
    List.append_nil]

theorem drop_dropWhile_before (h : G ∉ before) :
    ((before ++ G :: later).dropWhile fun L => decide (L ≠ G)).drop 1 = later := by
  rw [List.dropWhile_append_of_pos fun L hL => decide_eq_true (ne_of_mem_of_not_mem hL h), List.dropWhile_cons_of_neg (by simp)]
  rfl

theorem aged_of_none {t : State} (h : t.gang = none) : t.aged later = t := by
  unfold State.aged
  rw [h, Option.map_none, ← h]

theorem aged_of_some {t : State} {g : Gang} (h : t.gang = some g) : t.aged later =
    if later.any fun L => t.launches.any fun M => decide (M.key = L.key) && decide (L.placed < M.placed) then
      { t with gang := some { g with age := min 16 (g.age + 1) } } else t := by
  unfold State.aged
  rw [h, Option.map_some]
  split
  · rfl
  · rw [← h]

theorem passOver_young (hage : s.gang.map Gang.age ≠ some 16) (h : G ∉ before) : s.passOver (before ++ G :: later) (some G) =
    (((s.placeOthers before).gangRule G).placeOthers later).aged later := by
  unfold State.passOver
  simp only [if_neg hage, takeWhile_before h, drop_dropWhile_before h]
  generalize ((s.placeOthers before).gangRule G).placeOthers later = t
  cases hg : t.gang with
  | none => exact (aged_of_none hg).symm
  | some g => exact (aged_of_some hg).symm

end Sys2Proof.Machine
end

section
/-! Starting teams (07 R188, R192): the warps of one team, and of every team of a gang. -/

namespace Sys2Proof.Machine

/-! ## The warps of a team -/

/-- Warps written one after the other: each slot has the last one written to it. -/
theorem setWarps_spec (f : Nat → Warp) : ∀ (es : List (Nat × Nat)) (s : State),
    let t := es.foldl (fun s e => s.setWarp e.1 (f e.2)) s
    t = { s with warps := t.warps } ∧ (∀ w, (∀ e ∈ es, e.1 ≠ w) → t.warp w = s.warp w) ∧
    ∀ (i : Nat) (e : Nat × Nat), es[i]? = some e →
      (∀ (j : Nat) (e' : Nat × Nat), i < j → es[j]? = some e' → e'.1 ≠ e.1) → t.warp e.1 = some (f e.2)
  | [], s => ⟨rfl, fun _ _ => rfl, fun i e h => by simp at h⟩
  | a :: es, s => by
    obtain ⟨hframe, hother, hlast⟩ := setWarps_spec f es (s.setWarp a.1 (f a.2))
    rw [List.foldl_cons]
    refine ⟨hframe, fun w hw => ?_, fun i e hi hno => ?_⟩
    · rw [hother w fun e he => hw e (List.mem_cons_of_mem a he), State.setWarp_warp,
        if_neg fun h => hw a List.mem_cons_self h.symm]
    · cases i with
      | zero =>
        obtain rfl : a = e := Option.some.inj hi
        rw [hother a.1 fun e he => ?_, State.setWarp_warp_same]
        obtain ⟨j, hj⟩ := List.getElem?_of_mem he
        exact hno (j + 1) e (Nat.succ_pos j) hj
      | succ i => exact hlast i e hi fun j e' hij hj => hno (j + 1) e' (Nat.succ_lt_succ hij) hj

/-- As `Obligations.TeamLifetimes` says it: in `t`, every warp of team `T`, at key `k`, stands as it starts (01 R13; 05 R122, R123,
R145). -/
def Begun (s t : State) (k : Nat) (T : Team) : Prop :=
  ∀ i w, T.slots[i]? = some w → (∀ j, i < j → T.slots[j]? ≠ some w) →
    let live := lanesBelow (min T.width (T.threads - i * T.width))
    ∃ W, t.warp w = some W ∧ W = { W with
        team := k, index := i, live := live, exited := 0, running := none, v := [], e := [], stack := [], spill := [], k := []
        j := [], cont := [], c := [], part := T.width, seq := 0, phw := (tget Ctx.zero s.ctxs T.ctx).phw0.toNat, mon := []
        fenced := [], prompt := none, dead := none, paths := [Path.fresh live T.entry] } ∧
      (∀ n, W.greg n = if n = 0 then T.args else 0) ∧
      W.role = if T.copyw + T.matw + T.vecw = 0 then .vector else if i < T.copyw then .copy
        else if i < T.copyw + T.matw then .matrix else .vector

theorem roleOf_eq (T : Team) (i : Nat) : T.roleOf i = if T.copyw + T.matw + T.vecw = 0 then .vector
    else if i < T.copyw then .copy else if i < T.copyw + T.matw then .matrix else .vector := by
  unfold Team.roleOf
  exact if_congr (by omega) rfl rfl

/-- The uniform registers of a warp that starts are zero, but for the argument in g0 (07 R188). -/
theorem warpAt_greg (T : Team) (key phw i n : Nat) : (T.warpAt key phw i).greg n = if n = 0 then T.args else 0 := by
  unfold Warp.greg
  by_cases h63 : n = 63
  · rw [if_pos h63, if_neg (by omega)]
  · rw [if_neg h63]
    exact tget_tput 0 [] 0 n T.args

theorem begun_of_warpAt {s t : State} {k : Nat} {T : Team} (h : ∀ i w, T.slots[i]? = some w → (∀ j, i < j → T.slots[j]? ≠ some w) →
    t.warp w = some (T.warpAt k (tget Ctx.zero s.ctxs T.ctx).phw0.toNat i)) : Begun s t k T := fun i w hi hlast =>
  ⟨_, h i w hi hlast, rfl, warpAt_greg T k _ i, roleOf_eq T i⟩

/-- A team that begins stays begun while its warps are as they are. -/
theorem Begun.keep {s s' t u : State} {k : Nat} {T : Team} (h : Begun s' t k T) (hc : s'.ctxs = s.ctxs)
    (hw : ∀ w ∈ T.slots, u.warp w = t.warp w) : Begun s u k T := by
  intro i w hi hlast
  rw [hw w (List.mem_of_getElem? hi), ← hc]
  exact h i w hi hlast

/-! ## One team (07 R188) -/

/-- A team starts: it has not started, and no strike of its launch is under way. -/
def State.starts (s : State) (T : Team) : Prop := T.started = false ∧ s.struck T.ctx T.launch = false

section
variable {s : State} {k : Nat} {T : Team}

theorem startOne_none (h : s.team k = none) : s.startOne k = s := by
  unfold State.startOne
  rw [h]

theorem startOne_idle (hT : s.team k = some T) (h : ¬ s.starts T) : s.startOne k = s := by
  unfold State.startOne
  simp only [hT]
  refine if_pos ?_
  unfold State.starts at h
  cases h1 : T.started with
  | true => rfl
  | false =>
    cases h2 : s.struck T.ctx T.launch with
    | true => rfl
    | false => exact absurd ⟨h1, h2⟩ h

/-- What starting one team does. -/
theorem startOne_spec (hT : s.team k = some T) (h : s.starts T) :
    let t := s.startOne k
    t = { s with teams := tput none s.teams k (some { T with started := true }), warps := t.warps, l1 := t.l1 } ∧
    (∀ w, w ∉ T.slots → t.warp w = s.warp w) ∧ Begun s t k T ∧
    ∀ L, L ∈ t.l1 ↔ L ∈ s.l1 ∧ ¬ (L.core ∈ T.cores ∧ L.ctx = T.ctx) := by
  obtain ⟨h1, h2⟩ := h
  obtain ⟨lframe, hl1⟩ := l1_cores T.ctx T.cores s
  have hstart : s.startOne k = (T.slots.zipIdx).foldl
      (fun u e => u.setWarp e.1 (T.warpAt k (tget Ctx.zero s.ctxs T.ctx).phw0.toNat e.2))
      ((T.cores.foldl (fun s c => s.l1Drop c fun e => decide (e.ctx = T.ctx)) s).setTeam k { T with started := true }) := by
    unfold State.startOne
    simp only [hT, h1, h2, Bool.or_self, Bool.false_eq_true, if_false]
    rw [lframe]
  generalize T.cores.foldl (fun s c => s.l1Drop c fun e => decide (e.ctx = T.ctx)) s = u at lframe hl1 hstart
  obtain ⟨wframe, hother, hlast⟩ := setWarps_spec (T.warpAt k (tget Ctx.zero s.ctxs T.ctx).phw0.toNat) T.slots.zipIdx
    (u.setTeam k { T with started := true })
  dsimp only
  rw [hstart]
  generalize List.foldl _ _ T.slots.zipIdx = t at wframe hother hlast
  refine ⟨by rw [wframe, lframe]; rfl, fun w hw => ?_, begun_of_warpAt fun i w hi hno => ?_, fun L => ?_⟩
  · rw [hother w fun e he hc => hw ?_, State.setTeam_warp, lframe]
    · rfl
    · rw [← hc]
      exact List.fst_mem_of_mem_zipIdx he
  · refine hlast i (w, i) (by rw [List.getElem?_zipIdx, hi]; simp) fun j e' hij hj hc => hno j hij ?_
    rw [List.getElem?_zipIdx] at hj
    obtain ⟨v, hv, rfl⟩ := Option.map_eq_some_iff.mp hj
    rw [hv]
    exact congrArg some hc
  · rw [wframe]
    show L ∈ u.l1 ↔ _
    rw [hl1]
    tauto

end

/-! ## The teams of a gang (07 R192; 05 R131) -/

/-- Teams hold distinct warp slots. -/
def State.Apart (s : State) : Prop := ∀ j i U V w, j ≠ i → s.team j = some U → s.team i = some V → w ∈ U.slots → w ∉ V.slots

/-- What starting the teams `ks` makes of a team at key `j`. -/
def State.begins (s : State) (ks : List Nat) (j : Nat) (U : Team) : Team :=
  { U with started := U.started || (decide (j ∈ ks) && !s.struck U.ctx U.launch) }

/-- What starting the teams `ks` in turn does: `t` is `s` but for their warps, the teams that start, and lines of L1s. -/
def BeginAll (s t : State) (ks : List Nat) : Prop :=
  t = { s with teams := t.teams, warps := t.warps, l1 := t.l1 } ∧
  (∀ j, t.team j = (s.team j).map (s.begins ks j)) ∧
  (∀ w, (∀ j ∈ ks, ∀ U, s.team j = some U → s.starts U → w ∉ U.slots) → t.warp w = s.warp w) ∧
  (∀ j ∈ ks, ∀ U, s.team j = some U → s.starts U → Begun s t j U) ∧
  ∀ L, L ∈ t.l1 ↔ L ∈ s.l1 ∧ ¬ ∃ j ∈ ks, ∃ U, s.team j = some U ∧ s.starts U ∧ L.core ∈ U.cores ∧ L.ctx = U.ctx

theorem begins_of_not_mem {s : State} {ks : List Nat} {j : Nat} (U : Team) (h : j ∉ ks) : s.begins ks j U = U := by
  unfold State.begins
  rw [decide_eq_false h, Bool.false_and, Bool.or_false]

/-- A team that does not start is left as it is. -/
theorem begins_idle {s : State} {ks : List Nat} {j : Nat} {U : Team} (h : ¬ s.starts U) : s.begins ks j U = U := by
  unfold State.begins State.starts at *
  cases h1 : U.started with
  | true => rw [Bool.true_or, ← h1]
  | false =>
    cases h2 : s.struck U.ctx U.launch with
    | true => rw [Bool.not_true, Bool.and_false, Bool.or_false, ← h1]
    | false => exact absurd ⟨h1, h2⟩ h

theorem begins_starts {s : State} {ks : List Nat} {j : Nat} {U : Team} (h : s.starts U) (hj : j ∈ ks) :
    s.begins ks j U = { U with started := true } := by
  unfold State.begins
  rw [h.2, decide_eq_true hj, Bool.not_false, Bool.and_true, Bool.or_true]

/-- The teams once one has started. -/
theorem startOne_team {s : State} {k : Nat} {T : Team} (hT : s.team k = some T) (hs : s.starts T) (j : Nat) :
    (s.startOne k).team j = if j = k then some { T with started := true } else s.team j := by
  have hteams := congrArg State.teams (startOne_spec hT hs).1
  unfold State.team
  rw [hteams]
  exact tget_tput none s.teams k j (some { T with started := true })

/-- A head that does not start leaves what starting the rest does. -/
theorem BeginAll.cons_idle {s t : State} {k : Nat} {ks : List Nat} (h : BeginAll s t ks)
    (hk : ∀ U, s.team k = some U → ¬ s.starts U) : BeginAll s t (k :: ks) := by
  obtain ⟨hframe, hteam, hwarp, hbegun, hl1⟩ := h
  refine ⟨hframe, fun j => ?_, fun w hw => hwarp w fun j hj => hw j (List.mem_cons_of_mem k hj), fun j hj U hU hs => ?_, fun L => ?_⟩
  · rw [hteam j]
    cases hj : s.team j with
    | none => rfl
    | some U =>
      by_cases hs : s.starts U
      · have hne : j ≠ k := fun hc => hk U (hc ▸ hj) hs
        simp only [Option.map_some, State.begins, List.mem_cons, hne, false_or]
      · rw [Option.map_some, Option.map_some, begins_idle hs, begins_idle hs]
  · rcases List.mem_cons.mp hj with rfl | hj
    · exact absurd hs (hk U hU)
    · exact hbegun j hj U hU hs
  · rw [hl1 L]
    refine and_congr_right fun _ => not_congr ?_
    rw [List.exists_mem_cons_iff]
    exact ⟨.inr, fun h => h.elim (fun ⟨U, hU, hs, _⟩ => absurd hs (hk U hU)) id⟩

/-- The head starts, then the rest. -/
theorem BeginAll.cons_starts {s u : State} {k : Nat} {T : Team} {ks : List Nat} (hT : s.team k = some T) (hs : s.starts T)
    (hk : k ∉ ks) (hap : s.Apart) (h : BeginAll (s.startOne k) u ks) : BeginAll s u (k :: ks) := by
  obtain ⟨gframe, gother, gbegun, gl1⟩ := startOne_spec hT hs
  obtain ⟨hframe, hteam, hwarp, hbegun, hl1⟩ := h
  have gteam := startOne_team hT hs
  generalize s.startOne k = t at gframe gother gbegun gl1 gteam hframe hteam hwarp hbegun hl1
  have hkT : t.team k = some { T with started := true } := (gteam k).trans (if_pos rfl)
  have hjT : ∀ j, j ≠ k → t.team j = s.team j := fun j hj => (gteam j).trans (if_neg hj)
  have hne : ∀ j ∈ ks, j ≠ k := fun j hj hc => hk (hc ▸ hj)
  have hstruck : ∀ c l, t.struck c l = s.struck c l := fun c l => by rw [gframe]; rfl
  have hstarts : ∀ U, t.starts U ↔ s.starts U := fun U => by unfold State.starts; rw [hstruck]
  refine ⟨by rw [hframe, gframe], fun j => ?_, fun w hw => ?_, fun j hj U hU hUs => ?_, fun L => ?_⟩
  · rw [hteam j]
    by_cases hj : j = k
    · subst hj
      rw [hkT, hT, Option.map_some, Option.map_some, begins_of_not_mem _ hk, begins_starts hs List.mem_cons_self]
    · rw [hjT j hj]
      refine congrArg (fun f => (s.team j).map f) (funext fun U => ?_)
      simp only [State.begins, hstruck, List.mem_cons, hj, false_or]
  · rw [hwarp w fun j hj U hU hUs => ?_, gother w (hw k List.mem_cons_self T hT hs)]
    exact hw j (List.mem_cons_of_mem k hj) U ((hjT j (hne j hj)) ▸ hU) ((hstarts U).mp hUs)
  · rcases List.mem_cons.mp hj with rfl | hj
    · obtain rfl : T = U := Option.some.inj (hT.symm.trans hU)
      refine gbegun.keep rfl fun w hw => hwarp w fun i hi V hV _ => ?_
      exact hap j i T V w (hne i hi).symm hT ((hjT i (hne i hi)) ▸ hV) hw
    · refine (hbegun j hj U ((hjT j (hne j hj)).trans hU) ((hstarts U).mpr hUs)).keep ?_ fun _ _ => rfl
      rw [gframe]
  · rw [hl1 L, gl1 L, List.exists_mem_cons_iff, not_or, and_assoc]
    refine and_congr_right fun _ => and_congr (not_congr ?_) (not_congr (exists_congr fun j => and_congr_right fun hj => ?_))
    · exact ⟨fun h => ⟨T, hT, hs, h⟩, fun ⟨U, hU, _, h⟩ => Option.some.inj (hT.symm.trans hU) ▸ h⟩
    · rw [hjT j (hne j hj)]
      simp only [hstarts]

theorem startOne_apart {s : State} {k : Nat} {T : Team} (hT : s.team k = some T) (hs : s.starts T) (h : s.Apart) :
    (s.startOne k).Apart := by
  have hteam : ∀ j U, (s.startOne k).team j = some U → ∃ V, s.team j = some V ∧ V.slots = U.slots := fun j U hU => by
    rw [startOne_team hT hs] at hU
    by_cases hj : j = k
    · rw [if_pos hj] at hU
      obtain rfl := Option.some.inj hU
      exact ⟨T, hj ▸ hT, rfl⟩
    · rw [if_neg hj] at hU
      exact ⟨U, hU, rfl⟩
  intro j i U V w hji hU hV hw
  obtain ⟨U', hU', hUs⟩ := hteam j U hU
  obtain ⟨V', hV', hVs⟩ := hteam i V hV
  exact hVs ▸ h j i U' V' w hji hU' hV' (hUs ▸ hw)

/-- Starting teams of distinct keys in turn. -/
theorem startAll_spec : ∀ (ks : List Nat) (s : State), ks.Nodup → s.Apart → BeginAll s (ks.foldl State.startOne s) ks
  | [], s, _, _ => by
    refine ⟨rfl, fun j => ?_, fun _ _ => rfl, fun j hj => absurd hj List.not_mem_nil, fun L => ?_⟩
    · cases hj : s.team j with
      | none => exact hj
      | some U => exact hj.trans (congrArg some (begins_of_not_mem U List.not_mem_nil).symm)
    · simp
  | k :: ks, s, hn, hap => by
    obtain ⟨hk, hn⟩ := List.nodup_cons.mp hn
    rw [List.foldl_cons]
    cases hT : s.team k with
    | none =>
      rw [startOne_none hT]
      exact (startAll_spec ks s hn hap).cons_idle fun U hU => by rw [hT] at hU; cases hU
    | some T =>
      by_cases hs : s.starts T
      · exact .cons_starts hT hs hk hap (startAll_spec ks _ hn (startOne_apart hT hs hap))
      · rw [startOne_idle hT hs]
        exact (startAll_spec ks s hn hap).cons_idle fun U hU => by rw [← Option.some.inj (hT.symm.trans hU)]; exact hs

/-! ## The entries of a table in canonical form -/

theorem mem_of_tget_some {α : Type} {t : Table (Option α)} {k : Nat} {a : α} (h : tget none t k = some a) : (k, some a) ∈ t := by
  induction t with
  | nil => cases h
  | cons e t ih =>
    obtain ⟨i, b⟩ := e
    unfold tget at h
    split at h
    · next hi => rw [hi, h]; exact List.mem_cons_self
    · exact List.mem_cons_of_mem _ (ih h)

theorem keys_of_twf {α : Type} [DecidableEq α] : ∀ {t : Table (Option α)} {lo : Nat}, twfFrom none lo t = true →
    (t.map (·.1)).Pairwise (· < ·) ∧ (∀ e ∈ t, lo ≤ e.1 ∧ tget none t e.1 = e.2)
  | [], _, _ => ⟨.nil, fun _ h => absurd h List.not_mem_nil⟩
  | (k, a) :: t, lo, h => by
    simp only [twfFrom, Bool.and_eq_true, decide_eq_true_eq] at h
    obtain ⟨⟨hlo, -⟩, h⟩ := h
    obtain ⟨hsorted, hget⟩ := keys_of_twf h
    refine ⟨List.pairwise_cons.mpr ⟨fun i hi => ?_, hsorted⟩, fun e he => ?_⟩
    · obtain ⟨e, he, rfl⟩ := List.mem_map.mp hi
      exact (hget e he).1
    · rcases List.mem_cons.mp he with rfl | he
      · exact ⟨hlo, if_pos rfl⟩
      · obtain ⟨hle, heq⟩ := hget e he
        exact ⟨by omega, (if_neg (by omega)).trans heq⟩

/-! ## TEAM_START -/

/-- The entries of the teams of launch `l`. -/
def State.teamsOf (s : State) (l : Nat) : List (Nat × Option Team) :=
  s.teams.filter fun e => match e.2 with | some U => decide (U.launch = l) | none => false

theorem mem_teamsOf {s : State} {l j : Nat} (hwf : twf none s.teams = true) :
    j ∈ (s.teamsOf l).map (·.1) ↔ ∃ U, s.team j = some U ∧ U.launch = l := by
  obtain ⟨-, hget⟩ := keys_of_twf hwf
  unfold State.teamsOf
  constructor
  · intro h
    obtain ⟨⟨i, o⟩, he, rfl⟩ := List.mem_map.mp h
    obtain ⟨he, hl⟩ := List.mem_filter.mp he
    cases o with
    | none => cases hl
    | some U => exact ⟨U, (hget _ he).2, of_decide_eq_true hl⟩
  · rintro ⟨U, hU, hl⟩
    exact List.mem_map.mpr ⟨(j, some U), List.mem_filter.mpr ⟨mem_of_tget_some hU, decide_eq_true hl⟩, rfl⟩

theorem startTeam_gang {s : State} {k : Nat} {T : Team} (hT : s.team k = some T) (hg : T.gang = true) :
    s.startTeam k = ((s.teamsOf T.launch).map (·.1)).foldl State.startOne s := by
  unfold State.startTeam
  simp only [hT, hg, if_true]
  rw [List.foldl_map]
  rfl

theorem startTeam_single {s : State} {k : Nat} {T : Team} (hT : s.team k = some T) (hg : T.gang = false) :
    s.startTeam k = s.startOne k := by
  unfold State.startTeam
  simp only [hT, hg, Bool.false_eq_true, if_false]

/-- Starting a gang starts every team of its launch. -/
theorem startTeam_spec {s : State} {k : Nat} {T : Team} (hT : s.team k = some T) (hg : T.gang = true)
    (hwf : twf none s.teams = true) (hap : s.Apart) : BeginAll s (s.startTeam k) ((s.teamsOf T.launch).map (·.1)) := by
  rw [startTeam_gang hT hg]
  refine startAll_spec _ s (List.Nodup.sublist (List.filter_sublist.map _) ?_) hap
  exact (keys_of_twf hwf).1.nodup

end Sys2Proof.Machine
end

section
/-! Retiring a team (07 R190, R191): when it may, what it frees, and the completion of its launch. -/

namespace Sys2Proof.Machine

/-! ## The completion word (07 R191) -/

/-- The bytes of a 64-bit word at an address. -/
def wordBytes (v q : Nat) : List (Nat × Byte) := (leBytes 8 v).zipIdx.map fun e => (q + e.2, e.1)

theorem mem_wordBytes {v q : Nat} {e : Nat × Byte} :
    e ∈ wordBytes v q ↔ ∃ i, i < 8 ∧ e = (q + i, BitVec.ofNat 8 (v / 256 ^ i)) := by
  have hget : ∀ i, (leBytes 8 v)[i]? = if i < 8 then some (BitVec.ofNat 8 (v / 256 ^ i)) else none := fun i => by
    split
    · next h => exact leBytes_get 8 v i h
    · next h => exact List.getElem?_eq_none (by rw [leBytes_length]; omega)
  unfold wordBytes
  simp only [List.mem_map, Prod.exists, List.mem_zipIdx_iff_getElem?, hget]
  constructor
  · rintro ⟨b, i, hi, rfl⟩
    split at hi
    · next h => exact ⟨i, h, by rw [← Option.some.inj hi]⟩
    · cases hi
  · rintro ⟨i, hi, rfl⟩
    exact ⟨_, i, if_pos hi, rfl⟩

/-- Writes that all give a byte one value leave it there, where there is one or it stood there. -/
theorem foldl_writes_value {a : Nat} {b : Byte} {f : Nat → Bool} : ∀ (bs : List (Nat × Byte)) (v : Byte), f a = true →
    (∀ e ∈ bs, e.1 = a → e.2 = b) → (v = b ∨ ∃ e ∈ bs, e.1 = a) →
    bs.foldl (fun v e => if e.1 = a ∧ f e.1 = true then e.2 else v) v = b
  | [], v, _, _, h => h.elim id fun ⟨_, he, _⟩ => absurd he List.not_mem_nil
  | e :: bs, v, hf, hb, h => by
    rw [List.foldl_cons]
    refine foldl_writes_value bs _ hf (fun c hc => hb c (List.mem_cons_of_mem e hc)) ?_
    by_cases he : e.1 = a
    · rw [if_pos ⟨he, he ▸ hf⟩]
      exact .inl (hb e List.mem_cons_self he)
    · rw [if_neg fun hc => he hc.1]
      refine h.imp id fun ⟨c, hc, hca⟩ => ⟨c, ?_, hca⟩
      exact (List.mem_cons.mp hc).resolve_left fun hce => he (hce ▸ hca)

/-- A byte of words written at the hub, each of which that covers it gives it the same value. -/
theorem byteAt_words {v a : Nat} {b : Byte} (pas : List Nat) (s : State) (hr : s.reaches a = true)
    (hb : ∀ q ∈ pas, ∀ i, i < 8 → q + i = a → BitVec.ofNat 8 (v / 256 ^ i) = b)
    (h : s.byteAt a = b ∨ ∃ q ∈ pas, ∃ i, i < 8 ∧ q + i = a) :
    (pas.foldl (fun s q => s.hubWrite (wordBytes v q)) s).byteAt a = b := by
  induction pas generalizing s with
  | nil => exact h.elim id fun ⟨_, hq, _⟩ => absurd hq List.not_mem_nil
  | cons q pas ih =>
    rw [List.foldl_cons]
    refine ih _ (((written_hubWrite s _).reaches a).trans hr) (fun p hp => hb p (List.mem_cons_of_mem q hp)) ?_
    by_cases hhead : s.byteAt a = b ∨ ∃ i, i < 8 ∧ q + i = a
    · refine .inl ?_
      rw [byteAt_hubWrite]
      refine foldl_writes_value (f := s.reaches) _ _ hr (fun e he hea => ?_) (hhead.imp id fun ⟨i, hi, hia⟩ => ?_)
      · obtain ⟨i, hi, rfl⟩ := mem_wordBytes.mp he
        exact hb q List.mem_cons_self i hi hea
      · exact ⟨_, mem_wordBytes.mpr ⟨i, hi, rfl⟩, hia⟩
    · obtain ⟨hne, hno⟩ := not_or.mp hhead
      obtain ⟨p, hp, hcover⟩ := h.resolve_left hne
      exact .inr ⟨p, (List.mem_cons.mp hp).resolve_left fun hpq => hno (hpq ▸ hcover), hcover⟩

/-! ## What the end of a team may change -/

/-- Between `s` and `t` memory is written, monitors may have fired, and launches, gang and contexts differ; no warp comes into
being. -/
def Ended (s t : State) : Prop :=
  t = { s with
    mem := t.mem, mscHeld := t.mscHeld, mscDirty := t.mscDirty, dirty := t.dirty, dir := t.dir, tlb := t.tlb, l1 := t.l1
    olds := t.olds, rels := t.rels, warps := t.warps, launches := t.launches, gang := t.gang, ctxs := t.ctxs } ∧
  WarpsFire s t ∧ ∀ w, s.warp w = none → t.warp w = none

theorem Ended.trans {s t u : State} (h : Ended s t) (k : Ended t u) : Ended s u := by
  obtain ⟨hframe, hfire, hnone⟩ := h
  obtain ⟨kframe, kfire, knone⟩ := k
  exact ⟨by rw [kframe, hframe], hfire.trans kfire, fun w hw => knone w (hnone w hw)⟩

theorem Ended.of_tables {s t : State} (h : t = { s with launches := t.launches, gang := t.gang, ctxs := t.ctxs }) : Ended s t := by
  have hw : t.warps = s.warps := by rw [h]
  exact ⟨by rw [h], warpsFire_of_warps hw, fun w hn => by unfold State.warp at *; rw [hw]; exact hn⟩

theorem Written.ended {s t : State} (h : Written s t) (hn : ∀ w, s.warp w = none → t.warp w = none) : Ended s t :=
  ⟨by rw [h.1], h.2, hn⟩

theorem ended_foldl {β : Type} {f : State → β → State} (h : ∀ s b, Ended s (f s b)) : ∀ (l : List β) (s : State), Ended s (l.foldl f s)
  | [], _ => .of_tables rfl
  | b :: l, s => (h s b).trans (ended_foldl h l (f s b))

theorem Held.ended {s t : State} (h : Held s t) : Ended s t := by
  refine h.written.ended fun w hw => ?_
  rw [h]
  exact hw

theorem ended_recall (s : State) (l : Nat) : Ended s (s.recall l) := by
  refine (written_recall s l).ended fun w hw => ?_
  unfold State.recall State.fireLine
  rw [mapWarps_warp]
  have hheld := held_writeBack s l
  generalize s.writeBack l = u at hheld
  rw [hheld]
  show Option.map _ (s.warp w) = none
  rw [hw]
  rfl

theorem ended_hubWrite (s : State) (bs : List (Nat × Byte)) : Ended s (s.hubWrite bs) := by
  have hnote : ∀ pas, Ended s ((s.noteOld pas).clearRels pas) := fun pas =>
    ((written_noteOld s pas).trans (.of_same rfl)).ended fun w hw => by unfold State.noteOld; split <;> exact hw
  unfold State.hubWrite
  exact ((hnote _).trans (ended_foldl (fun s l => (ended_recall s l).trans (held_mscFill _ l).ended) _ _)).trans
    (ended_foldl (fun s (e : Nat × Byte) => (held_hubPut s e.1 e.2).ended) _ _)

/-! ## The completion of a launch -/

/-- A launch leaves the store, and a gang's reservations go with it. -/
def State.forget (s : State) (L : Launch) : State := { s with
  launches := s.launches.filter fun M => decide (M ≠ L)
  gang := match s.gang with | some g => if g.launch = L.key then none else some g | none => none }

/-- Where the module stores depends on the contexts and on the memory that a walk reads (09 R207). -/
theorem moduleStore_congr {s t : State} (hc : t.ctxs = s.ctxs) (hb : t.backed = s.backed) (hw : ∀ a, t.openWord64 a = s.openWord64 a)
    (ctx va : Nat) : t.moduleStore ctx va = s.moduleStore ctx va := by
  have hwalk : t.walk ctx va = s.walk ctx va := by simp only [State.walk, hc, hw]
  have hrep : t.replica = s.replica := by unfold State.replica; rw [hc]
  unfold State.moduleStore
  rw [hc, hwalk, hb, hrep]

theorem moduleStore_tables (s : State) (ls : List Launch) (g : Option Gang) (ctx va : Nat) :
    { s with launches := ls, gang := g }.moduleStore ctx va = s.moduleStore ctx va := by
  refine moduleStore_congr ?_ ?_ (fun _ => ?_) ctx va <;> rfl

section
variable {s : State} {L : Launch} {n : Nat}

theorem completeLaunch_silent (h : lrCompl L.record = 0) : s.completeLaunch L n = s.forget L := by
  unfold State.completeLaunch
  dsimp only
  rw [if_pos h]
  rfl

theorem completeLaunch_ok {pas : List Nat} (h : lrCompl L.record ≠ 0) (hs : s.moduleStore L.ctx (lrCompl L.record) = .ok pas) :
    s.completeLaunch L n =
      pas.foldl (fun s q => s.hubWrite (wordBytes (L.lnum + n * 2 ^ 32) q)) (s.forget L).writeBackAll := by
  unfold State.completeLaunch
  dsimp only
  rw [if_neg h, moduleStore_tables, hs]
  rfl

theorem completeLaunch_error {c : Nat} (h : lrCompl L.record ≠ 0) (hs : s.moduleStore L.ctx (lrCompl L.record) = .error c) :
    s.completeLaunch L n = (s.forget L).notify { EvRec.zero with
      kind := 6, code := 14, cause := c, ctx := L.ctx, lnum := L.lnum, addr := lrCompl L.record, aux0 := L.lnum + n * 2 ^ 32 } := by
  unfold State.completeLaunch
  dsimp only
  rw [if_neg h, moduleStore_tables, hs]
  rfl

theorem ended_completeLaunch (s : State) (L : Launch) (n : Nat) : Ended s (s.completeLaunch L n) := by
  have hforget : Ended s (s.forget L) := .of_tables rfl
  by_cases h : lrCompl L.record = 0
  · rw [completeLaunch_silent h]
    exact hforget
  · cases hs : s.moduleStore L.ctx (lrCompl L.record) with
    | error c =>
      rw [completeLaunch_error h hs]
      exact hforget.trans (.of_tables rfl)
    | ok pas =>
      rw [completeLaunch_ok h hs]
      exact (hforget.trans (held_writeBackAll _).ended).trans (ended_foldl (fun s q => ended_hubWrite s _) _ _)

theorem launches_completeLaunch (s : State) (L : Launch) (n : Nat) :
    (s.completeLaunch L n).launches = s.launches.filter fun M => decide (M ≠ L) := by
  by_cases h : lrCompl L.record = 0
  · rw [completeLaunch_silent h]
    rfl
  · cases hs : s.moduleStore L.ctx (lrCompl L.record) with
    | error c =>
      rw [completeLaunch_error h hs]
      rfl
    | ok pas =>
      rw [completeLaunch_ok h hs]
      have hw : Written (s.forget L) _ := (held_writeBackAll (s.forget L)).written.trans
        (written_foldl (fun s q => written_hubWrite s (wordBytes (L.lnum + n * 2 ^ 32) q)) pas _)
      rw [hw.1]
      rfl

/-- A byte of the completion word that no other replica covers. -/
theorem byteAt_completeLaunch {pas : List Nat} {pa i : Nat} (h : lrCompl L.record ≠ 0)
    (hs : s.moduleStore L.ctx (lrCompl L.record) = .ok pas) (hpa : pa ∈ pas) (hi : i < 8)
    (halone : ∀ q ∈ pas, pa + i < q + 8 → q < pa + i + 1 → q = pa) (hr : s.reaches (pa + i) = true) :
    (s.completeLaunch L n).byteAt (pa + i) = BitVec.ofNat 8 ((L.lnum + n * 2 ^ 32) / 256 ^ i) := by
  rw [completeLaunch_ok h hs]
  refine byteAt_words pas _ (((held_writeBackAll _).reaches _).trans hr) (fun q hq j hj he => ?_) (.inr ⟨pa, hpa, i, hi, rfl⟩)
  have hqpa : q = pa := halone q hq (by omega) (by omega)
  rw [show j = i by omega]

end

end Sys2Proof.Machine
end

section
/-! TEAM_RETIRE (07 R190, R191): what it frees, and what it leaves of launches and memory. -/

namespace Sys2Proof.Machine

/-! ## When a team may retire -/

/-- A team that has ended, with the stores of its cores performed that its launch's completion orders, may retire. -/
theorem mayRetire_of {s : State} {k : Nat} {T : Team} (hstarted : T.started = true) (hstruck : s.struck T.ctx T.launch = false)
    (hended : ∀ w ∈ T.slots, ∀ W, s.warp w = some W → W.live &&& ~~~W.exited = 0) (hcopies : ∀ c ∈ s.copies, c.team ≠ k)
    (hbanks0 : ∀ b ∈ T.place.banks0, (tget Bank.zero s.banks (32 * T.place.core + b)).ops = [])
    (hbanks1 : ∀ b ∈ T.place.banks1, (tget Bank.zero s.banks (32 * (T.place.core + 1) + b)).ops = [])
    (hstores : ∀ p ∈ s.stores, p.w ∉ T.slots ∧ (p.w / 48 ∈ T.cores → T.last ≤ p.id)) : s.mayRetire k T = true := by
  have hcopy : (s.copies.any fun c => decide (c.team = k)) = false :=
    List.any_eq_false.mpr fun c hc => by simpa using hcopies c hc
  have hb0 : (T.place.banks0.all fun b => s.bankIdle T.place.core b) = true :=
    List.all_eq_true.mpr fun b hb => List.isEmpty_iff.mpr (hbanks0 b hb)
  have hb1 : (T.place.banks1.all fun b => s.bankIdle (T.place.core + 1) b) = true :=
    List.all_eq_true.mpr fun b hb => List.isEmpty_iff.mpr (hbanks1 b hb)
  have hown : (s.stores.any fun p => T.slots.contains p.w) = false :=
    List.any_eq_false.mpr fun p hp => by simpa using (hstores p hp).1
  have hbefore : (T.cores.any fun c => s.storesBefore c T.last) = false :=
    List.any_eq_false.mpr fun c hc => Bool.not_eq_true _ ▸ List.any_eq_false.mpr fun p hp => by
      simp only [Bool.and_eq_true, decide_eq_true_eq]
      rintro ⟨rfl, hlt⟩
      exact absurd ((hstores p hp).2 hc) (Nat.not_le.mpr hlt)
  unfold State.mayRetire
  rw [hstarted, hstruck, hcopy, hb0, hb1, hown, hbefore]
  simp only [Bool.not_false, Bool.true_and, Bool.and_true]
  refine List.all_eq_true.mpr fun w hw => ?_
  split
  · next W hW => exact decide_eq_true (hended w hw W hW)
  · rfl

/-! ## What a team frees -/

section
variable {s : State} {k : Nat} {T : Team}

theorem freeTeam_team (j : Nat) : (s.freeTeam k T).team j = if j = k then none else s.team j := tget_tput none s.teams k j none

theorem freeTeam_warp (w : Nat) : (s.freeTeam k T).warp w = if w ∈ T.slots then none else s.warp w :=
  foldl_tput_get none (fun _ => none) T.slots s.warps w

/-! ## What becomes of the launch -/

/-- One more team of launch `L` has retired. -/
def State.counted (s : State) (L : Launch) : State := { s with
  launches := s.launches.map fun M => if M = L then { L with retired := L.retired + 1 } else M }

theorem ended_checkDrain (s : State) (n : Nat) : Ended s (s.checkDrain n) := by
  unfold State.checkDrain
  dsimp only
  split <;> exact .of_tables rfl

/-- A drain that ends touches the contexts alone (19 R396). -/
theorem checkDrain_eq (s : State) (n : Nat) : s.checkDrain n = { s with ctxs := (s.checkDrain n).ctxs } := by
  unfold State.checkDrain
  dsimp only
  split <;> rfl

theorem retireTeam_orphan (h : s.launches.find? (fun L => L.key = T.launch) = none) :
    s.retireTeam k T = (s.freeTeam k T).checkDrain T.ctx := by
  have hfree : (s.freeTeam k T).launches.find? (fun L => L.key = T.launch) = none := h
  unfold State.retireTeam
  simp only [hfree]

section
variable {L : Launch}

theorem retireTeam_counts (h : s.launches.find? (fun L => L.key = T.launch) = some L) (hn : L.retired + 1 ≠ lrTeams L.record) :
    s.retireTeam k T = ((s.freeTeam k T).counted L).checkDrain T.ctx := by
  have hfree : (s.freeTeam k T).launches.find? (fun L => L.key = T.launch) = some L := h
  unfold State.retireTeam
  simp only [hfree, if_neg hn]
  rfl

theorem retireTeam_completes (h : s.launches.find? (fun L => L.key = T.launch) = some L) (hn : L.retired + 1 = lrTeams L.record) :
    s.retireTeam k T =
      (((s.freeTeam k T).counted L).completeLaunch { L with retired := L.retired + 1 } 1).checkDrain T.ctx := by
  have hfree : (s.freeTeam k T).launches.find? (fun L => L.key = T.launch) = some L := h
  unfold State.retireTeam
  simp only [hfree, if_pos hn]
  rfl

end

theorem ended_retireTeam : Ended (s.freeTeam k T) (s.retireTeam k T) := by
  cases h : s.launches.find? (fun L => L.key = T.launch) with
  | none =>
    rw [retireTeam_orphan h]
    exact ended_checkDrain _ _
  | some L =>
    have hcounted : Ended (s.freeTeam k T) ((s.freeTeam k T).counted L) := .of_tables rfl
    by_cases hn : L.retired + 1 = lrTeams L.record
    · rw [retireTeam_completes h hn]
      exact (hcounted.trans (ended_completeLaunch _ _ _)).trans (ended_checkDrain _ _)
    · rw [retireTeam_counts h hn]
      exact hcounted.trans (ended_checkDrain _ _)

/-- The launches after the last team of `L` has retired. -/
theorem mem_completed {L M : Launch} (h : s.launches.find? (fun L => L.key = T.launch) = some L)
    (hn : L.retired + 1 = lrTeams L.record) :
    (M ∈ (s.retireTeam k T).launches → M ∈ s.launches ∧ M ≠ L) ∧
    (M ∈ s.launches → M.key ≠ T.launch → M ∈ (s.retireTeam k T).launches) := by
  have hkey : L.key = T.launch := by simpa using List.find?_some h
  have hlist : (s.retireTeam k T).launches =
      (s.launches.map fun M => if M = L then { L with retired := L.retired + 1 } else M).filter
        fun M => decide (M ≠ { L with retired := L.retired + 1 }) := by
    rw [retireTeam_completes h hn, checkDrain_eq]
    exact launches_completeLaunch _ _ _
  rw [hlist]
  constructor
  · intro hM
    obtain ⟨hM, hne⟩ := List.mem_filter.mp hM
    obtain ⟨N, hN, rfl⟩ := List.mem_map.mp hM
    split at hne
    · exact absurd rfl (of_decide_eq_true hne)
    · next hNL => rw [if_neg hNL]; exact ⟨hN, hNL⟩
  · intro hM hother
    refine List.mem_filter.mpr ⟨List.mem_map.mpr ⟨M, hM, if_neg ?_⟩, decide_eq_true ?_⟩
    · rintro rfl
      exact hother hkey
    · rintro rfl
      exact hother hkey

/-- The completion word of a launch whose last team retires. -/
theorem byteAt_retireTeam {L : Launch} {pas : List Nat} {pa i : Nat} (h : s.launches.find? (fun L => L.key = T.launch) = some L)
    (hn : L.retired + 1 = lrTeams L.record) (hc : lrCompl L.record ≠ 0) (hs : s.moduleStore L.ctx (lrCompl L.record) = .ok pas)
    (hpa : pa ∈ pas) (hi : i < 8) (halone : ∀ q ∈ pas, pa + i < q + 8 → q < pa + i + 1 → q = pa) (hr : s.reaches (pa + i) = true) :
    (s.retireTeam k T).byteAt (pa + i) = BitVec.ofNat 8 ((L.lnum + 2 ^ 32) / 256 ^ i) := by
  rw [retireTeam_completes h hn, checkDrain_eq]
  have hstore : ((s.freeTeam k T).counted L).moduleStore L.ctx (lrCompl L.record) = .ok pas := by
    rw [← hs]
    refine moduleStore_congr ?_ ?_ (fun _ => ?_) _ _ <;> rfl
  exact (byteAt_completeLaunch (L := { L with retired := L.retired + 1 }) hc hstore hpa hi halone hr).trans
    (by rw [Nat.one_mul])

end

end Sys2Proof.Machine
end

section
/-! The life of a team, settled: placement passes, TEAM_START and TEAM_RETIRE (07 R187 to R193). -/

namespace Sys2Proof.Machine

/-! ## The placement pass -/

section
variable {s : State} {before later : List Launch} {G : Launch}

theorem exec_placementPass {first : Option Launch} (h : s.readyLaunches.find? (fun L => lrGang L.record) = first) :
    exec .placementPass s = .next (s.passState.passOver s.readyLaunches first) := by
  rw [← h]
  rfl

theorem pass_none (h : s.readyLaunches.find? (fun L => lrGang L.record) = none) :
    ∃ t, exec .placementPass s = .next t ∧ PlacedLaunches s.readyLaunches s.passState t :=
  ⟨_, exec_placementPass h, placedLaunches_placeOthers _ _⟩

theorem pass_old (h : s.readyLaunches.find? (fun L => lrGang L.record) = some G) (hage : s.passState.gang.map Gang.age = some 16) :
    ∃ u t, exec .placementPass s = .next t ∧ GangRule s.passState u G ∧ (u.gang ≠ none → t = u) ∧
      (u.gang = none → PlacedLaunches (s.readyLaunches.filter fun L => decide (L ≠ G)) u t) := by
  refine ⟨_, _, exec_placementPass h, gangRule_spec _ _, fun hg => ?_, fun hg => ?_⟩
  · rw [passOver_old hage, if_pos (Option.isSome_iff_ne_none.mpr hg)]
  · rw [passOver_old hage, if_neg (by rw [hg]; exact Bool.false_ne_true)]
    exact placedLaunches_placeOthers _ _

theorem pass_young (hready : s.readyLaunches = before ++ G :: later) (hG : G ∉ before)
    (h : s.readyLaunches.find? (fun L => lrGang L.record) = some G) (hage : s.passState.gang.map Gang.age ≠ some 16) :
    ∃ u1 u2 u3, exec .placementPass s = .next (u3.aged later) ∧ PlacedLaunches before s.passState u1 ∧ GangRule u1 u2 G ∧
      PlacedLaunches later u2 u3 := by
  refine ⟨_, _, _, ?_, placedLaunches_placeOthers _ _, gangRule_spec _ _, placedLaunches_placeOthers _ _⟩
  rw [exec_placementPass h, hready, passOver_young hage hG]

end

/-! ## Start and retirement -/

section
variable {s : State} {k : Nat} {T : Team}

/-- TEAM_START of a team that is no gang's. -/
theorem start_single (hT : s.team k = some T) (hs : s.starts T) (hg : T.gang = false) : ∃ t, exec (.teamStart k) s = .next t ∧
    t = { s with teams := tput none s.teams k (some { T with started := true }), warps := t.warps, l1 := t.l1 } ∧
    (∀ w, w ∉ T.slots → t.warp w = s.warp w) ∧ Begun s t k T ∧
    ∀ L, L ∈ t.l1 ↔ L ∈ s.l1 ∧ ¬ (L.core ∈ T.cores ∧ L.ctx = T.ctx) :=
  ⟨s.startOne k, congrArg _ (startTeam_single hT hg), startOne_spec hT hs⟩

/-- TEAM_START of a team of a gang. -/
theorem start_gang (hT : s.team k = some T) (hg : T.gang = true) (hwf : twf none s.teams = true) (hap : s.Apart) :
    ∃ t, exec (.teamStart k) s = .next t ∧ t = { s with teams := t.teams, warps := t.warps, l1 := t.l1 } ∧
      (∀ j U, s.team j = some U →
        t.team j = some { U with started := U.started || (decide (U.launch = T.launch) && !s.struck U.ctx U.launch) }) ∧
      (∀ j U, s.team j = some U → U.launch = T.launch → s.starts U → Begun s t j U) ∧
      ∀ L, L ∈ t.l1 ↔ L ∈ s.l1 ∧
        ¬ ∃ j U, s.team j = some U ∧ U.launch = T.launch ∧ s.starts U ∧ L.core ∈ U.cores ∧ L.ctx = U.ctx := by
  have hmem : ∀ {j U}, s.team j = some U → (j ∈ (s.teamsOf T.launch).map (·.1) ↔ U.launch = T.launch) := fun {j U} hU =>
    (mem_teamsOf hwf).trans ⟨fun ⟨V, hV, hl⟩ => Option.some.inj (hU.symm.trans hV) ▸ hl, fun hl => ⟨U, hU, hl⟩⟩
  obtain ⟨hframe, hteams, -, hbegun, hl1⟩ := startTeam_spec hT hg hwf hap
  refine ⟨s.startTeam k, rfl, hframe, fun j U hU => ?_, fun j U hU hl hs => hbegun j ((hmem hU).mpr hl) U hU hs, fun L => ?_⟩
  · rw [hteams, hU]
    show some (s.begins _ j U) = _
    unfold State.begins
    rw [decide_eq_decide.mpr (hmem hU)]
  · rw [hl1]
    refine and_congr_right fun _ => not_congr ⟨fun ⟨j, hj, U, hU, h⟩ => ⟨j, U, hU, (hmem hU).mp hj, h⟩,
      fun ⟨j, U, hU, hl, h⟩ => ⟨j, (hmem hU).mpr hl, U, hU, h⟩⟩

theorem exec_teamRetire (hT : s.team k = some T) (h : s.mayRetire k T = true) :
    exec (.teamRetire k) s = .next (s.retireTeam k T) := by
  show Host.Outcome.next _ = _
  simp only [hT, h, if_true]

theorem retireTeam_team (j : Nat) : (s.retireTeam k T).team j = if j = k then none else s.team j := by
  obtain ⟨hframe, -, -⟩ := ended_retireTeam (s := s) (k := k) (T := T)
  refine Eq.trans ?_ (freeTeam_team (s := s) (T := T) j)
  rw [hframe]
  rfl

/-- What a team's retirement leaves of what its warps used (07 R190). -/
theorem retireTeam_frame : (s.retireTeam k T).loads = s.loads.filter (fun o => !T.slots.contains o.w) ∧
    (s.retireTeam k T).scratch = s.scratch ∧ (s.retireTeam k T).empty = s.empty ∧ (s.retireTeam k T).banks = s.banks ∧
    (s.retireTeam k T).stores = s.stores ∧ (s.retireTeam k T).copies = s.copies := by
  obtain ⟨hframe, -, -⟩ := ended_retireTeam (s := s) (k := k) (T := T)
  rw [hframe]
  exact ⟨rfl, rfl, rfl, rfl, rfl, rfl⟩

/-- No warp of a team that has retired is left. -/
theorem retireTeam_warp_none {w : Nat} (h : w ∈ T.slots ∨ s.warp w = none) : (s.retireTeam k T).warp w = none := by
  obtain ⟨-, -, hnone⟩ := ended_retireTeam (s := s) (k := k) (T := T)
  refine hnone w ?_
  rw [freeTeam_warp]
  split
  · rfl
  · next hw => exact h.resolve_left hw

/-- Of the other warps only monitors fire. -/
theorem retireTeam_warp_other {w : Nat} {W : Warp} (hw : w ∉ T.slots) (hW : s.warp w = some W) :
    ∃ V, (s.retireTeam k T).warp w = some V ∧ OnlyFired W V := by
  obtain ⟨-, hfire, -⟩ := ended_retireTeam (s := s) (k := k) (T := T)
  exact hfire w W (by rw [freeTeam_warp, if_neg hw, hW])

/-- A team's retirement that is not its launch's last only counts it (07 R191). -/
theorem retireTeam_counted {L : Launch} (h : s.launches.find? (fun L => L.key = T.launch) = some L)
    (hn : L.retired + 1 ≠ lrTeams L.record) : (s.retireTeam k T).mem = s.mem ∧ (s.retireTeam k T).dirty = s.dirty ∧
    (s.retireTeam k T).launches = s.launches.map fun M => if M = L then { L with retired := L.retired + 1 } else M := by
  rw [retireTeam_counts h hn, checkDrain_eq]
  exact ⟨rfl, rfl, rfl⟩

end

/-- Settles O42: the pass by the greedy rule for each launch and the gang's rule between them, TEAM_START by the list of a gang's
teams, and TEAM_RETIRE by what freeing the team, counting it and completing its launch each leave unchanged. -/
theorem teamLifetimes : Obligations.TeamLifetimes := by
  unfold Obligations.TeamLifetimes
  intro s
  refine ⟨?_, ⟨fun k T hT hs hg => start_single hT hs hg, fun k T hT hg hwf hap => start_gang hT hg hwf hap⟩, ?_⟩
  · intro ready first v
    have hv : v = s.passState := by
      unfold State.passState State.gangOf
      rfl
    clear_value v
    subst hv
    refine ⟨pass_none, fun G before later hready hG hfirst => ⟨pass_old hfirst, fun hage => ?_⟩⟩
    obtain ⟨u1, u2, u3, hexec, h1, h2, h3⟩ := pass_young hready hG hfirst hage
    exact ⟨u1, u2, u3, _, hexec, h1, h2, h3, rfl⟩
  · intro k T hT hstarted hstruck hended hcopies hbanks0 hbanks1 hstores
    have hmay := mayRetire_of hstarted hstruck hended hcopies hbanks0 hbanks1 hstores
    obtain ⟨hloads, hscratch, hempty, hbanks, hst, hcp⟩ := retireTeam_frame (s := s) (k := k) (T := T)
    exact ⟨_, exec_teamRetire hT hmay, (retireTeam_team k).trans (if_pos rfl), fun j hj => (retireTeam_team j).trans (if_neg hj),
      fun w hw => retireTeam_warp_none hw, fun w W hw hW => retireTeam_warp_other hw hW, hloads, hscratch, hempty, hbanks, hst, hcp,
      fun L hL => ⟨fun hn => retireTeam_counted hL hn, fun hn => ⟨fun M => (mem_completed hL hn).1, fun M => (mem_completed hL hn).2,
        fun pas hc hs pa hpa i hi halone hr => byteAt_retireTeam hL hn hc hs hpa hi halone hr⟩⟩⟩

end Sys2Proof.Machine
end

section
/-! PARTSET by its rule (O2): its words, the sizes that a warp width allows, and that the fault for any other size leaves $part. -/

namespace Sys2Proof.Machine

/-! ## Holding a team leaves $part (06 R159; 19 R379) -/

theorem setRegs_part (c : Bool) (d : Nat) (v : Nat → Word) (ls : List Nat) (W : Warp) :
    (ls.foldl (fun W l => if c then W else W.setReg l d (v l)) W).part = W.part :=
  List.foldlRecOn (motive := fun V : Warp => V.part = W.part) ls _ rfl fun V hV l _ => by cases c <;> exact hV

theorem wakePath_part (force : Path → Bool) (W : Warp) (r : Nat) : (W.wakePath force r).part = W.part := by
  unfold Warp.wakePath
  split
  · rfl
  · split
    · dsimp only
      split
      · exact setRegs_part _ _ _ _ _
      · rfl
    · rfl

theorem fireMon_part (W : Warp) (hit : Monitor → Bool) : (W.fireMon hit).part = W.part := by
  unfold Warp.fireMon Warp.wakeMon
  exact List.foldlRecOn (motive := fun V : Warp => V.part = W.part) _ _ rfl fun V hV r _ => (wakePath_part _ V r).trans hV

theorem stopWait_part (W : Warp) : W.stopWait.part = W.part := by
  unfold Warp.stopWait
  repeat' split
  all_goals rfl

theorem modWarp_part {f : Warp → Warp} (hf : ∀ W, (f W).part = W.part) (s : State) (w v : Nat) :
    ((s.modWarp w f).warp v).map Warp.part = (s.warp v).map Warp.part := by
  rw [State.modWarp_warp]
  split
  · rw [Option.map_map]
    exact Option.map_congr fun W _ => hf W
  · rfl

theorem holdTeam_part (s : State) (k : Nat) (f : Hold → Hold) (v : Nat) :
    ((s.holdTeam k f).warp v).map Warp.part = (s.warp v).map Warp.part := by
  unfold State.holdTeam
  split
  · rfl
  · split
    · rfl
    · exact List.foldlRecOn (motive := fun t : State => (t.warp v).map Warp.part = (s.warp v).map Warp.part) _ _ rfl
        fun t ht w _ => (modWarp_part (fun W => (fireMon_part _ _).trans (stopWait_part W)) t w v).trans ht

/-- A fault changes no $part. -/
theorem raise_part {x : Ix} {s : State} {st : Stop} {t : Trap} (h : t.code ≠ 14) (v : Nat) :
    ((raise x s st t).warp v).map Warp.part = (s.warp v).map Warp.part := by
  unfold raise
  rw [if_neg h]
  exact (holdTeam_part _ _ _ v).trans (modWarp_part (fun _ => by rfl) s x.w v)

/-! ## The words of PARTSET -/

/-- The fields of PARTSET give back a word of its opcode exactly where bits [21:10] are 0. -/
theorem uniWord_partset {w : Nat} (h31 : w / 2 ^ 31 = 1) (h29 : w / 2 ^ 29 % 2 = 0)
    (hop : w / 2 ^ 22 % 2 ^ 7 = 0x34) : uniWord 0x34 (bit w 30) 0 0 0 (fld w 0 10).toNat = w ↔ w / 2 ^ 10 % 2 ^ 12 = 0 := by
  have hp : (fld w 0 10).toNat = w % 2 ^ 10 := by simp [fld]
  have he : (bit w 30).toNat = w / 2 ^ 30 % 2 := by
    unfold bit
    rcases Nat.mod_two_eq_zero_or_one (w / 2 ^ 30) with h | h <;> rw [h] <;> rfl
  unfold uniWord
  rw [hp, he]
  omega

theorem decode_partset {w : Nat} (w1 : Nat) (h31 : w / 2 ^ 31 = 1) (h29 : w / 2 ^ 29 % 2 = 0)
    (hop : w / 2 ^ 22 % 2 ^ 7 = 0x34) : (decode w w1).toOption =
      if w / 2 ^ 10 % 2 ^ 12 = 0 then some (.partset (bit w 30) (fld w 0 10), 1) else none := by
  have hlane : ¬ w < 2 ^ 31 := by omega
  have hop' : w / 2 ^ 22 % 128 = 0x34 := hop
  have hpfx : isPfxWord w = false := by rw [isPfxWord, decide_eq_false hlane, Bool.false_and]
  have htwo : isTwoWord w = false := by
    unfold isTwoWord
    rw [if_neg hlane, hop']
    rfl
  have hcand : cand none w w1 = some (.partset (bit w 30) (fld w 0 10)) := by
    unfold cand
    rw [if_neg hlane, uniCand_eq, hop']
    rfl
  have hwords : encode (.partset (bit w 30) (fld w 0 10)) = [w] ↔ w / 2 ^ 10 % 2 ^ 12 = 0 :=
    List.singleton_inj.trans (uniWord_partset h31 h29 hop)
  rw [decode_noPfx hpfx, hcand, htwo]
  show (if encode (.partset (bit w 30) (fld w 0 10)) = [w] then _ else _ : Except DecodeError (Instr × Nat)).toOption = _
  by_cases hz : w / 2 ^ 10 % 2 ^ 12 = 0
  · rw [if_pos (hwords.mpr hz), if_pos hz]
    rfl
  · rw [if_neg (mt hwords.mp hz), if_neg hz]
    rfl

/-- The sizes that the width of a warp allows, width by width (05 R143). -/
theorem partOk_iff_width {width p : Nat} (h : width = 16 ∨ width = 32 ∨ width = 64) : partOk width p = true ↔
    width = 16 ∧ p ∈ [2, 4, 8, 16] ∨ width = 32 ∧ p ∈ [2, 4, 8, 16, 32] ∨ width = 64 ∧ p ∈ [2, 4, 8, 16, 32, 64] := by
  rw [partOk_iff]
  simp only [List.mem_cons, List.not_mem_nil, or_false]
  omega

/-- Settles O2: the words by the decoder, the allowed sizes by `partOk`, and the fault by what holding a team keeps. -/
theorem partitionSizes : Obligations.PartitionSizes := by
  unfold Obligations.PartitionSizes
  refine ⟨fun w w1 _ h31 h29 hop => ?_, fun s x e z hs => ?_⟩
  · have hfld : fld w 0 10 = BitVec.ofNat 10 w := by simp only [fld, Nat.pow_zero, Nat.div_one]
    exact (decode_partset w1 h31 h29 hop).trans (by rw [hfld]; rfl)
  intro allowed hwidth
  refine ⟨fun ha => ?_, fun ha => ?_⟩
  · exact completes_ok hs rfl (if_pos ((partOk_iff_width hwidth).mpr ha)) rfl rfl rfl
  · have hexec : exec (.partset e z) s = .next (raise x s ((Instr.partset e z).stop x.T.width (Trap.operand z.toNat))
        (Trap.operand z.toNat)) := by
      refine (run_starts hs).trans (congrArg (fun r => Host.Outcome.next (finish x (.partset e z) s r)) (if_neg ?_))
      exact fun hc => ha ((partOk_iff_width hwidth).mp hc)
    have hpart := raise_part (x := x) (s := s) (st := (Instr.partset e z).stop x.T.width (Trap.operand z.toNat))
      (t := Trap.operand z.toNat) (by decide : (2 : Nat) ≠ 14) x.w
    rw [(issuing_spec hs.1).2.1] at hpart
    obtain ⟨V, hV, hp⟩ := Option.map_eq_some_iff.mp hpart
    exact ⟨_, V, hexec, hV, hp, raise_spec hs.1 rfl rfl⟩

end Sys2Proof.Machine
end

section
/-! Loads of memory (O22): what issuing checked loads comes to, over a link that is down and over links that are up. -/

namespace Sys2Proof.Machine

/-- An instruction whose effect is a fault, after what only reads and translates memory, takes it. -/
theorem trapsIn_shared {s u : State} {x : Ix} {i : Instr} {t : Trap} {body : Ix → Res} (h : Starts s x i)
    (hx : exec i s = run i s body) (hu : Shared s u) (hb : body x = .trap u t) : TrapsIn s u x i t :=
  ⟨_, by rw [hx, run_starts h, hb]; rfl, raise_spec (hu.issuing.trans h.1) rfl rfl⟩

/-- The outstanding loads of the parts of an instruction's accesses `as` (10 R227; 11 R255; 17 R371). -/
def Ix.partLoads (x : Ix) (s : State) (as : List MemAcc) (signed uni : Bool) (d nreg : Nat) (collect : Bool) : List Outst :=
  let parts := as.flatMap MemAcc.parts
  parts.zipIdx.map fun p =>
    { x.outst s p.2 p.1.1 signed uni (d + p.1.2) (partRegs nreg) with
      size := parts.length
      coll := if collect && decide (1 < (accLines as).length) then some (p.1.1.va / 128) else none
      lock := collect || uni }

/-- What the checked loads `as` of instruction `i` do: the data error of the lowest lane whose link is down, or outstanding loads
and completion. -/
def LoadsIssue (s : State) (x : Ix) (i : Instr) (as : List MemAcc) (signed uni : Bool) (d nreg : Nat) (collect : Bool) : Prop :=
  let dead := fun a => s.deadLink (x.outst s 0 a signed uni d nreg)
  (∀ pre a post, as = pre ++ a :: post → (∀ b ∈ pre, dead b = false) → dead a = true →
    ∃ u, Shared s u ∧ TrapsIn s u x i (dataTrap a.va a.lane)) ∧
  ((∀ a ∈ as, dead a = false) →
    ((collect && decide (1 < (accLines as).length)) = true → (s.collEntries x.core).length + (accLines as).length ≤ 64) →
    ∃ u t, Shared s u ∧ CompletesIn s { u with
      nextId := s.nextId + (as.flatMap MemAcc.parts).length
      loads := s.loads ++ x.partLoads s as signed uni d nreg collect } t x i none x.W)

section
variable {s u : State} {x : Ix} {i : Instr} {as : List MemAcc} {signed uni collect : Bool} {d nreg : Nat} {body : Ix → Res}

/-- Loads over a link that is down raise the data error of the first of them. -/
theorem issueLoads_dead (hu : Shared s u) {pre post : List MemAcc} {a : MemAcc} (has : as = pre ++ a :: post)
    (hpre : ∀ b ∈ pre, s.deadLink (x.outst s 0 b signed uni d nreg) = false)
    (ha : s.deadLink (x.outst s 0 a signed uni d nreg) = true) :
    x.issueLoads u as signed uni d nreg collect = .trap u (dataTrap a.va a.lane) := by
  have hfind : as.find? (fun a => u.deadLink (x.outst u 0 a signed uni d nreg)) = some a := by
    simp only [hu.outst, hu.deadLink]
    exact List.find?_eq_some_iff_append.mpr ⟨ha, pre, post, has, fun b hb => by rw [hpre b hb]; rfl⟩
  unfold Ix.issueLoads
  dsimp only
  rw [hfind]

theorem addLoads_partLoads (hu : Shared s u) : (u.addLoads ((as.flatMap MemAcc.parts).zipIdx.map fun p =>
    { x.outst s p.2 p.1.1 signed uni (d + p.1.2) (partRegs nreg) with
      coll := if collect && decide (1 < (accLines as).length) then some (p.1.1.va / 128) else none, lock := collect || uni })) =
    { u with
      nextId := s.nextId + (as.flatMap MemAcc.parts).length
      loads := s.loads ++ x.partLoads s as signed uni d nreg collect } := by
  unfold State.addLoads State.addPart Ix.partLoads
  simp only [List.map_map, List.length_map, List.length_zipIdx, hu.loads, hu.nextId]
  rfl

/-- An instruction whose effect is to issue checked loads, once the leaves of their translations are kept. -/
theorem loadsIssue (h : Starts s x i) (hx : exec i s = run i s body)
    (hb : body x = x.issueLoads (x.keepLeaves s as) as signed uni d nreg collect) :
    LoadsIssue s x i as signed uni d nreg collect := by
  have hu := shared_keepLeaves x s as
  refine ⟨fun pre a post has hpre ha => ⟨_, hu, trapsIn_shared h hx hu (hb.trans (issueLoads_dead hu has hpre ha))⟩,
    fun hl hroom => ?_⟩
  obtain ⟨t, ht⟩ := issueLoads_spec hx hu hb hl hroom h
  exact ⟨_, t, hu, addLoads_partLoads hu ▸ ht⟩

end

section
variable {s : State} {x : Ix} {d a : BitVec 7} {o : BitVec 5} {z n r : Nat} {signed : Bool} {as : List MemAcc}
  (hn : memBytes z = n) (hr : memRegs z = r)
include hn hr

/-- LDG and LDGS whose accesses pass their checks. -/
theorem globalLoad_ok (hu : Usable s x [loadDst d z, .srcPair a.toNat])
    (h : x.globalAcc s .load n x.lanes (fun l => ((x.srcPair a.toNat l).toNat + o.toNat * n) % 2 ^ 56) = .ok as) :
    globalLoad x s d a o z signed = x.issueLoads (x.keepLeaves s as) as signed false d.toNat r true := by
  have haddr : x.gaddr a (o.toNat * n) = fun l => ((x.srcPair a.toNat l).toNat + o.toNat * n) % 2 ^ 56 :=
    funext fun l => gaddr_eq x a _ l
  unfold globalLoad
  rw [withOperands_usable hu, hn, hr, haddr, h]

/-- LDP and LDPS whose accesses pass their checks. -/
theorem privateLoad_ok (hu : Usable s x [loadDst d z, .src a.toNat])
    (h : x.privateAcc s .load n x.lanes (x.soff a (o.toNat * n)) = .ok as) :
    privateLoad x s d a o z signed = x.issueLoads (x.keepLeaves s as) as signed false d.toNat r false := by
  unfold privateLoad
  rw [withOperands_usable hu, hn, hr, h]

end

/-- Settles O22: each instruction issues its checked loads, which `loadsIssue` describes. -/
theorem memoryLoads : Obligations.MemoryLoads := by
  unfold Obligations.MemoryLoads
  intro s x e zb d a o z gd ga o7 loads bytes dst glob priv unif
  refine ⟨fun hu as has hs => ?_, fun hu as has hs => ?_, fun hu as has hs => ?_, fun hu as has hs => ?_, fun hu as has hs => ?_⟩
  · exact loadsIssue (body := fun x => globalLoad x s d a o z.toNat false) hs rfl
      (globalLoad_ok (memBytes_eq z) (regs_eq z) (dst_eq d z ▸ hu) has)
  · exact loadsIssue (body := fun x => globalLoad x s d a o zb.toNat true) hs rfl
      (globalLoad_ok (memBytes_bool zb) (regs_bool zb) (dst_bool d zb ▸ hu) has)
  · exact loadsIssue (body := fun x => privateLoad x s d a o z.toNat false) hs rfl
      (privateLoad_ok (memBytes_eq z) (regs_eq z) (dst_eq d z ▸ hu) has)
  · exact loadsIssue (body := fun x => privateLoad x s d a o zb.toNat true) hs rfl
      (privateLoad_ok (memBytes_bool zb) (regs_bool zb) (dst_bool d zb ▸ hu) has)
  · have hunif : ((x.W.greg ga.toNat).toNat + o7.toNat * uniBytes z) % 2 ^ 64 % 2 ^ 56 = unif :=
      Nat.mod_mod_of_dvd _ (by decide)
    have hacc : x.globalAcc s .fresh (uniBytes z) [x.low] (fun _ => unif) = .ok as := has
    exact loadsIssue hs rfl ((withUniform_usable hu).trans (by rw [hunif, hacc]))

end Sys2Proof.Machine
end

section
/-! Loads of scratch (O23): the lanes of full lines take their entries, and the path goes on or waits for the other lanes. -/

namespace Sys2Proof.Machine

/-- The lanes of a list of scratch accesses whose line is full (09 R214). -/
def State.fullOf (s : State) (as : List (Nat × Nat × Nat × Nat)) : List (Nat × Nat × Nat × Nat) := as.filter fun p => !s.isEmpty p.2

/-- The parts of the scratch accesses `as` whose line is full (10 R227). -/
def State.fullParts (s : State) (as : List (Nat × Nat × Nat × Nat)) (n : Nat) (off : Nat → Nat) : List (MemAcc × Nat) :=
  ((s.fullOf as).map (scratchMem n off)).flatMap MemAcc.parts

/-- The entries of the parts: outstanding loads at the first execution of the instruction, later their values as they stand. -/
def Ix.scratchEntries (x : Ix) (s : State) (parts : List (MemAcc × Nat)) (signed uni : Bool) (d nreg size : Nat) : List Outst :=
  parts.zipIdx.map fun p =>
    let o := x.outst s p.2 p.1.1 signed uni (d + p.1.2) (partRegs nreg)
    if x.P.wait = none ∧ x.P.done = 0 then { o with size := size }
    else { o with kind := .value, value := BitVec.ofNat 128 (s.loadValue o) }

/-- The state with the entries of the parts. -/
def Ix.scratchTaken (x : Ix) (s : State) (parts : List (MemAcc × Nat)) (signed uni : Bool) (d nreg size : Nat) : State :=
  { s with nextId := s.nextId + parts.length, loads := s.loads ++ x.scratchEntries s parts signed uni d nreg size }

section
variable {s : State} {x : Ix} {n : Nat} {lanes : List Nat} {off : Nat → Nat} {signed uni : Bool} {d nreg : Nat}
  {as : List (Nat × Nat × Nat × Nat)} {i : Instr} {body : Ix → Res}

theorem fullOf_length : (s.fullOf as).length = as.length ↔ ∀ p ∈ as, s.isEmpty p.2 = false := by
  unfold State.fullOf
  rw [List.length_filter_eq_length_iff]
  simp only [Bool.not_eq_true']

/-- The path executes the instruction again, with lanes done. -/
theorem again_iff : (x.P.wait.isSome || decide (x.P.done ≠ 0)) = true ↔ ¬ (x.P.wait = none ∧ x.P.done = 0) := by
  rw [Bool.or_eq_true, decide_eq_true_iff, Option.isSome_iff_ne_none, not_and_or]

/-- A scratch load takes the loads of the lanes of full lines, and is done where no line is empty; else the path waits with those
lanes done. -/
theorem scratchLoad_eq (hacc : x.scratchAcc s n (lanes.filter fun l => !x.P.done.getLsbD l) off = .ok as) :
    x.scratchLoad s n lanes off signed uni d nreg =
      if (s.fullOf as).length = as.length then
        .ok (x.scratchTaken s (s.fullParts as n off) signed uni d nreg (s.fullParts as n off).length) none
      else .wait ((x.scratchTaken s (s.fullParts as n off) signed uni d nreg 0).modWarp x.w fun W => W.modPath x.low fun P =>
        { P with done := P.done ||| maskOf ((s.fullOf as).map (·.1)) }) .emptyLine := by
  unfold Ix.scratchLoad Ix.scratchTaken Ix.scratchEntries State.addLoads State.addPart
  rw [hacc]
  by_cases hfirst : x.P.wait = none ∧ x.P.done = 0
  · have hagain : (x.P.wait.isSome || decide (x.P.done ≠ 0)) = false := Bool.eq_false_iff.mpr fun h => again_iff.mp h hfirst
    simp only [hagain, Bool.false_eq_true, if_false, if_pos hfirst, List.map_map, List.length_map, List.length_zipIdx]
    rfl
  · simp only [again_iff.mpr hfirst, if_true, if_neg hfirst, List.map_map, List.length_map, List.length_zipIdx]
    rfl

/-- A path that waits in place after a change of itself, its team not being held. -/
theorem waitAt_modPath {f : Path → Path} {k : WaitKind} (hw : s.warp x.w = some x.W) (hh : x.T.hold = none)
    (hf : ∀ P, (f P).lanes = P.lanes) : waitAt x i (s.modWarp x.w fun W => W.modPath x.low f) k =
      s.setWarp x.w (x.W.modPath x.low fun P => { f P with wait := some ⟨k, i⟩ }) := by
  have hpaths : (x.W.modPath x.low f).modPath x.low (fun P => { P with wait := some ⟨k, i⟩ }) =
      x.W.modPath x.low fun P => { f P with wait := some ⟨k, i⟩ } := by
    unfold Warp.modPath
    simp only [List.map_map]
    congr 1
    refine List.map_congr_left fun P _ => ?_
    by_cases h : lowest P.lanes = x.low
    · simp only [Function.comp, if_pos h, hf]
    · simp only [Function.comp, if_neg h]
  unfold waitAt
  rw [hh, State.modWarp_eq hw, State.modWarp_eq (State.setWarp_warp_same _ _ _), setWarp_setWarp, hpaths]
  rfl

/-- What the checked scratch loads `as` of instruction `i` do: entries and completion where every line is full; else the entries
of the lanes of full lines, and the path waits. -/
def ScratchLoadsIssue (s : State) (x : Ix) (i : Instr) (n : Nat) (off : Nat → Nat) (signed uni : Bool) (d nreg : Nat)
    (as : List (Nat × Nat × Nat × Nat)) : Prop :=
  ((∀ p ∈ as, s.isEmpty p.2 = false) → ∃ t, CompletesIn s (x.scratchTaken s (s.fullParts as n off) signed uni d nreg
    (s.fullParts as n off).length) t x i none x.W) ∧
  ((∃ p ∈ as, s.isEmpty p.2 = true) → x.T.hold = none →
    exec i s = .next ((x.scratchTaken s (s.fullParts as n off) signed uni d nreg 0).setWarp x.w (x.W.modPath x.low fun P =>
      { P with done := P.done ||| maskOf ((s.fullOf as).map (·.1)), wait := some ⟨.emptyLine, i⟩ })))

/-- An instruction whose effect is a scratch load. -/
theorem scratchLoadsIssue (h : Starts s x i) (hx : exec i s = run i s body)
    (hb : body x = x.scratchLoad s n lanes off signed uni d nreg)
    (hacc : x.scratchAcc s n (lanes.filter fun l => !x.P.done.getLsbD l) off = .ok as) :
    ScratchLoadsIssue s x i n off signed uni d nreg as := by
  have hw : s.warp x.w = some x.W := (issuing_spec h.1).2.1
  rw [scratchLoad_eq hacc] at hb
  refine ⟨fun hfull => ?_, fun ⟨p, hp, hempty⟩ hh => ?_⟩
  · rw [if_pos (fullOf_length.mpr hfull)] at hb
    exact completes_other h hx hb hw
  · rw [if_neg fun hlen => Bool.false_ne_true ((fullOf_length.mp hlen p hp).symm.trans hempty)] at hb
    rw [hx, run_starts h, hb]
    exact congrArg _ (waitAt_modPath hw hh fun _ => rfl)

end

/-- Settles O23: each instruction is a scratch load, which `scratchLoadsIssue` describes. -/
theorem scratchLoads : Obligations.ScratchLoads := by
  unfold Obligations.ScratchLoads
  intro s x e zb d a o z gd ga o7 loads bytes off
  refine ⟨fun hu as has hs => ?_, fun hu as has hs => ?_, fun hu as has hs => ?_⟩
  · rw [← dst_eq] at hu
    refine scratchLoadsIssue (body := fun x => ldsBody x s d a o z.toNat false) hs rfl ((withOperands_usable hu).trans ?_) has
    rw [memBytes_eq, regs_eq]
    rfl
  · rw [← dst_bool d zb] at hu
    refine scratchLoadsIssue (body := fun x => ldsBody x s d a o zb.toNat true) hs rfl ((withOperands_usable hu).trans ?_) has
    rw [memBytes_bool, regs_bool]
    rfl
  · exact scratchLoadsIssue (body := fun x => gldsBody x s gd ga z o7) hs rfl (withUniform_usable hu) has

end Sys2Proof.Machine
end

section
/-! Stores to scratch, EMPTY and FCHK (O24). -/

namespace Sys2Proof.Machine

section
variable {s : State} {x : Ix} {n : Nat} {lanes : List Nat} {off : Nat → Nat} {as : List (Nat × Nat × Nat × Nat)} {i : Instr}
  {body : Ix → Res}

/-- The stores of the parts of the scratch accesses `as`, with the low bytes of the lanes' data `v` (10 R227; 11 R257). -/
def Ix.scratchPStores (x : Ix) (s : State) (as : List (Nat × Nat × Nat × Nat)) (n : Nat) (off v : Nat → Nat) : List PStore :=
  ((as.map (scratchMem n off)).flatMap MemAcc.parts).zipIdx.map fun p =>
    x.pstore s p.2 { p.1.1 with vas := p.1.1.pas } ((leBytes n (v p.1.1.lane)).drop (4 * p.1.2))

/-- An instruction whose effect is to store to scratch completes with unperformed stores, and no other effect. -/
theorem scratchStores_completes {v : Nat → Nat} (h : Starts s x i) (hx : exec i s = run i s body)
    (hb : body x = x.scratchStores s n lanes off v) (hacc : x.scratchAcc s n lanes off = .ok as) :
    ∃ t, CompletesIn s { s with
      nextId := s.nextId + ((as.map (scratchMem n off)).flatMap MemAcc.parts).length
      stores := s.stores ++ x.scratchPStores s as n off v } t x i none x.W := by
  refine completes_other h hx (hb.trans ?_) (issuing_spec h.1).2.1
  unfold Ix.scratchStores State.addStores
  rw [hacc]
  simp only [List.length_map, List.length_zipIdx]
  rfl

/-- An instruction whose effect is to make lines empty completes, and changes only their bits and the loads that read them. -/
theorem empties_completes (h : Starts s x i) (hx : exec i s = run i s body)
    (hb : body x = .ok (as.foldl (fun s p => s.setEmpty p.2 true) s) none) :
    ∃ t, CompletesIn s { s with empty := t.empty, loads := t.loads } t x i none x.W ∧
      t.loads = (as.foldl (fun u p => u.settle fun loc => isScratch loc && decide (locLine loc = lineKey p.2)) s).loads ∧
      ∀ j, tget false t.empty j = if ∃ p ∈ as, lineKey p.2 = j then true else tget false s.empty j := by
  obtain ⟨hframe, hloads, hempty⟩ := empties_spec as s
  generalize as.foldl (fun s p => s.setEmpty p.2 true) s = u at hb hframe hloads hempty
  have hw : u.warp x.w = some x.W := by
    rw [hframe]
    exact (issuing_spec h.1).2.1
  obtain ⟨t, ht⟩ := completes_other h hx hb hw
  have hframe' : t = { u with warps := t.warps } := ht.2.1.1
  have htl : t.loads = u.loads := by rw [hframe']
  have hte : t.empty = u.empty := by rw [hframe']
  refine ⟨t, ?_, htl.trans hloads, fun j => hte ▸ hempty j⟩
  rw [htl, hte, ← hframe]
  exact ht

/-- Without a prefix every lane of the path is selected (02 R53). -/
theorem laneVals_none (x : Ix) (wide : Bool) (d : Nat) (f : Nat → DWord) :
    laneVals x none wide d f = x.lanes.map fun l => (l, f l) := by
  refine List.map_congr_left fun l hl => ?_
  have hactive : (x.active none).getLsbD l = true := by
    have hbit : x.P.lanes.getLsbD l = true := (mem_lanesOf.mp hl).2
    show (x.P.lanes &&& x.P.lanes).getLsbD l = true
    rw [BitVec.and_self, hbit]
  rw [if_pos hactive]

/-- What FCHK finds in each lane is the result of a lane instruction without a prefix. -/
theorem fullChecks_laneVals (d : Nat) (hacc : x.scratchAcc s n x.lanes off = .ok as) :
    as.map (fun p => (p.1, if s.isEmpty p.2 then 0 else 1)) = laneVals x none false d fun l =>
      if ∃ p, x.T.scratchAt (off l) n = some p ∧ s.isEmpty p = true then 0 else 1 := by
  rw [laneVals_none, eq_comm, ← List.forall₂_eq_eq_eq, List.forall₂_map_left_iff, List.forall₂_map_right_iff]
  refine (scratchAcc_lanes hacc).imp fun l p ⟨hl, hp⟩ => ?_
  simp only [hl, hp, Option.some.injEq, exists_eq_left']

end

/-- Settles O24: each instruction stores to scratch, makes lines empty, or writes a result in each lane. -/
theorem scratchWrites : Obligations.ScratchWrites := by
  unfold Obligations.ScratchWrites
  intro s x e n d a o z gd ga o7 writes bytes off data
  have hbytes : bytes = memBytes z.toNat := (memBytes_eq z).symm
  have hoff : off = x.soff a (o.toNat * memBytes z.toNat) := by rw [← hbytes]; rfl
  refine ⟨fun hu as has hs => ?_, fun hu as has hs => ?_, fun as hu hout hloads has hs => ?_, fun as hu has hs => ?_⟩
  · rw [← src_eq] at hu
    refine scratchStores_completes hs rfl ((withOperands_usable hu).trans ?_) has
    rw [memBytes_eq, funext (storeVal_eq x d z)]
    rfl
  · exact scratchStores_completes (v := fun _ => (x.W.greg gd.toNat).toNat) hs rfl ((withUniform_usable hu).trans (if_pos rfl)) has
  · rw [hbytes, hoff] at has
    refine empties_completes hs rfl ((withOperands_usable hu).trans ?_)
    dsimp only
    rw [has, hout, hloads]
    rfl
  · rw [hbytes, hoff] at has
    have hd := reg_lt (d := d) (hu _ List.mem_cons_self).1
    refine writeResult_spec hs rfl (.inr ⟨rfl, by omega⟩) ((withOperands_usable hu).trans ?_)
    dsimp only
    rw [has]
    simp only [hbytes, hoff]
    exact congrArg (writeResult x s n false d.toNat) (fullChecks_laneVals d.toNat has)

end Sys2Proof.Machine
end

section
/-! Launches (O41): the record that LAUNCH reads, the GO of a launch window, and what becomes of an offer. -/

namespace Sys2Proof.Machine

section
variable {s : State}

/-! ## LAUNCH (06 R177) -/

/-- Reading a record changes no byte of memory: the lines it reads past leave the L1, and leaves are kept. -/
theorem cached_readRecord {x : Ix} {lane va n v : Nat} {s1 : State} (h : x.readRecord s lane va n = .ok (s1, v)) : Cached s s1 := by
  unfold Ix.readRecord at h
  split at h
  · cases h
  · next as _ =>
    split at h
    · next a _ =>
      split at h
      · cases h
        exact ((shared_keepLeaves x s _).cached.trans (cached_l1Drop _ _ _)).trans (shared_shareBytes _ _ _).cached
      · cases h
    · cases h

theorem launch_completes {x : Ix} {e : Bool} {d a : BitVec 6} {s1 : State} {n : Nat} (hu : UsableG s x [d.toNat, a.toNat])
    (hal : (x.W.greg a.toNat).toNat % 2 ^ 56 % 64 = 0) (hrel : x.releaseWaits s 5 = false)
    (hrec : x.readRecord s x.low ((x.W.greg a.toNat).toNat % 2 ^ 56) 64 = .ok (s1, n)) (h : Starts s x (.launch e d a)) :
    ∃ t, CompletesIn s { s1 with offers := s1.offers ++ [⟨.device x.w d, BitVec.ofNat 512 n, x.T.ctx⟩] } t x (.launch e d a) none x.W := by
  have hw : s1.warp x.w = some x.W := by
    rw [(cached_readRecord hrec).1]
    exact (issuing_spec h.1).2.1
  refine completes_other h rfl ((withUniform_usable hu).trans ?_) hw
  dsimp only
  rw [if_neg (not_not.mpr hal), hrel, if_neg Bool.false_ne_true, hrec]

/-! ## Windows (07 R181) -/

theorem exec_launchWindowGo (port : Bool) {win : Nat} (h : win < 64) :
    exec (.launchWindowGo port.toNat win) s = .next (s.windowGo port win) := by
  have hport : decide (port.toNat = 1) = port := by cases port <;> rfl
  show Host.Outcome.next _ = _
  rw [if_pos ⟨port.toNat_lt, h⟩, hport]

/-! ## The outcome of an offer (07 R179, R183) -/

/-- What becomes of an offer. -/
def State.offerResult (s : State) (o : Offer) : OfferResult :=
  if refusalReason s o.record ≠ 0 then .bad (refusalReason s o.record)
  else if refusalReason s o.record = 0 ∧ s.launches.length < 512 then .accepted s.nextLaunch else .full

/-- The state after the `n`-th offer is decided, before its source learns the outcome: an accepted record has entered the store
with the next number. -/
def State.offerDecided (s : State) (n : Nat) (o : Offer) : State :=
  let taken := refusalReason s o.record = 0 ∧ s.launches.length < 512
  { s with
    offers := s.offers.eraseIdx n
    launches := if taken then s.launches ++ [(⟨o.record, o.ctx, s.nextLaunch.toNat, s.nextId, none, 0, 0⟩ : Launch)] else s.launches
    nextId := if taken then s.nextId + 1 else s.nextId
    nextLaunch := if taken then (if s.nextLaunch = 0xFFFFFFFF then 1 else s.nextLaunch + 1) else s.nextLaunch }

/-- Launch numbers go from 1 to 2^32 - 1, then 1 again (07 R183). -/
theorem nextNumber_eq (n : Word) : nextNumber n = if n = 0xFFFFFFFF then 1 else n + 1 := by
  have hlast : n + 1 = 0 ↔ n = 0xFFFFFFFF := by bv_omega
  unfold nextNumber
  simp only [hlast]

variable {n : Nat} {o : Offer}

/-- An offer is decided, and its source learns the outcome. -/
theorem exec_launchOfferOutcome (h : s.offers[n]? = some o) :
    exec (.launchOfferOutcome n) s = .next ((s.offerDecided n o).answerOffer o.src (s.offerResult o)) := by
  show Host.Outcome.next (match s.offers[n]? with | some o => { s with offers := s.offers.eraseIdx n }.decideOffer o | none => s) = _
  have hreason : refusalReason { s with offers := s.offers.eraseIdx n } o.record = refusalReason s o.record := rfl
  rw [h]
  unfold State.decideOffer State.offerDecided State.offerResult
  simp only [hreason]
  by_cases hwhy : refusalReason s o.record = 0
  · by_cases hroom : s.launches.length < 512
    · simp [hwhy, hroom, nextNumber_eq]
    · simp [hwhy, hroom]
  · simp [hwhy]

/-- The value that LAUNCH's register takes for an outcome (06 R177). -/
def OfferResult.value : OfferResult → DWord
  | .bad _ => 2
  | .full => 1
  | .accepted n => BitVec.ofNat 64 (n.toNat * 2 ^ 32)

/-- A launch window after an outcome (07 R181). -/
def OfferResult.inWindow (W : Window) : OfferResult → Window
  | .bad why => { W with bad := true, why := BitVec.ofNat 4 why }
  | .full => { W with refused := true }
  | .accepted n => { W with acc := true, lnum := n }

theorem answerOffer_window (port : Bool) (win : Nat) (r : OfferResult) : s.answerOffer (.window port win) r =
    { s with
      windows := tput Window.zero s.windows (64 * port.toNat + win)
        (r.inWindow { tget Window.zero s.windows (64 * port.toNat + win) with busy := false }) } := by
  cases r <;> rfl

theorem answerOffer_device {w : Nat} {W : Warp} (h : s.warp w = some W) (gd : BitVec 6) (r : OfferResult) :
    s.answerOffer (.device w gd) r = s.setWarp w (W.setG gd.toNat r.value) := by
  refine (State.modWarp_eq h _).trans (congrArg (fun v => s.setWarp w (W.setG gd.toNat v)) ?_)
  cases r with
  | bad _ => rfl
  | full => rfl
  | accepted n =>
    apply BitVec.eq_of_toNat_eq
    show (n ++ (0 : Word)).toNat = (BitVec.ofNat 64 (n.toNat * 2 ^ 32)).toNat
    rw [BitVec.toNat_append, BitVec.toNat_ofNat, Nat.shiftLeft_eq]
    show n.toNat * 2 ^ 32 ||| 0 = _
    have := n.isLt
    rw [Nat.or_zero, Nat.mod_eq_of_lt (by omega)]

theorem offerResult_value : (s.offerResult o).value = if refusalReason s o.record ≠ 0 then 2
    else if refusalReason s o.record = 0 ∧ s.launches.length < 512 then BitVec.ofNat 64 (s.nextLaunch.toNat * 2 ^ 32) else 1 := by
  unfold State.offerResult
  rw [apply_ite OfferResult.value, apply_ite OfferResult.value]
  rfl

theorem offerResult_inWindow (W : Window) : (s.offerResult o).inWindow W =
    if refusalReason s o.record ≠ 0 then { W with bad := true, why := BitVec.ofNat 4 (refusalReason s o.record) }
    else if refusalReason s o.record = 0 ∧ s.launches.length < 512 then { W with acc := true, lnum := s.nextLaunch }
    else { W with refused := true } := by
  unfold State.offerResult
  rw [apply_ite (OfferResult.inWindow W), apply_ite (OfferResult.inWindow W)]
  rfl

end

/-- A register after LAUNCH's answer; g63 stays 0 (01 R18). -/
theorem greg_answer (W : Warp) (d k : Nat) (v : DWord) :
    (W.setG d v).greg k = if k = d ∧ k ≠ 63 then v else W.greg k := by
  rw [greg_setG]
  by_cases h63 : k = 63
  · rw [if_pos h63, if_neg fun h => h.2 h63, Warp.greg, if_pos h63]
  · rw [if_neg h63]
    simp only [h63, ne_eq, not_false_eq_true, and_true]

/-- Settles O41: LAUNCH completes with its record read, a GO offers the record of its window, and an offer is decided before its
source learns the outcome. -/
theorem launching : Obligations.Launching := by
  unfold Obligations.Launching
  intro s
  refine ⟨fun x e d a s1 n => ?_, fun port win hwin => ?_, fun n o ho => ?_⟩
  · intro va hu hal hrel hrec hs
    have hc := cached_readRecord hrec
    have hoffers : s1.offers = s.offers := by rw [hc.1]
    exact ⟨hc, hoffers ▸ launch_completes hu hal hrel hrec hs⟩
  · intro k W
    rw [exec_launchWindowGo port hwin]
    exact ⟨fun hbusy => congrArg _ (if_pos hbusy), fun hidle => congrArg _ (if_neg (Bool.eq_false_iff.mp hidle))⟩
  · intro why taken s1
    rw [exec_launchOfferOutcome ho]
    refine ⟨fun port win hsrc => ?_, fun w gd W hsrc hW => ?_⟩
    · rw [hsrc, answerOffer_window, offerResult_inWindow]
      rfl
    · refine ⟨W.setG gd.toNat (s.offerResult o).value, ?_, setG_eq _ _ _, fun k => ?_⟩
      · rw [hsrc]
        exact congrArg _ (answerOffer_device (s := s.offerDecided n o) hW gd _)
      · rw [greg_answer, offerResult_value]

end Sys2Proof.Machine
end

section
/-! Beginning a strike (19 R398 steps 1 and 2): which teams it ends, and what ending them changes. -/

namespace Sys2Proof.Machine

/-! ## The teams of a strike -/

/-- A strike hits a team of its context and, where it is of a launch, of that launch. -/
def Strike.hits (k : Strike) (T : Team) : Prop := T.ctx = k.ctx ∧ (k.launch = none ∨ k.launch = some T.launch)

theorem mem_struckTeams {s : State} {k : Strike} {j : Nat} {T : Team} (hwf : twf none s.teams = true) :
    (j, T) ∈ s.struckTeams k ↔ s.team j = some T ∧ k.hits T := by
  obtain ⟨-, hget⟩ := keys_of_twf hwf
  unfold State.struckTeams
  rw [List.mem_filterMap]
  constructor
  · rintro ⟨⟨i, o⟩, he, h⟩
    cases o with
    | none => cases h
    | some U =>
      dsimp only at h
      split at h
      · next hits =>
        cases h
        exact ⟨(hget _ he).2, hits⟩
      · cases h
  · rintro ⟨hT, hits⟩
    exact ⟨(j, some T), mem_of_tget_some hT, if_pos hits⟩

/-- A warp slot of one of the teams of a list. -/
def anySlot (es : List (Nat × Team)) (w : Nat) : Bool := es.any fun e => e.2.slots.contains w

/-- A bank of one of the teams of a list. -/
def anyBank (es : List (Nat × Team)) (j : Nat) : Bool := es.any fun e => e.2.bankKeys.contains j

theorem anySlot_iff {s : State} {k : Strike} (hwf : twf none s.teams = true) {w : Nat} :
    anySlot (s.struckTeams k) w = true ↔ ∃ j T, s.team j = some T ∧ k.hits T ∧ w ∈ T.slots := by
  simp only [anySlot, List.any_eq_true, Prod.exists, mem_struckTeams hwf, List.contains_iff_mem, and_assoc]

theorem anyBank_iff {s : State} {k : Strike} (hwf : twf none s.teams = true) {i : Nat} :
    anyBank (s.struckTeams k) i = true ↔ ∃ j T, s.team j = some T ∧ k.hits T ∧ i ∈ T.bankKeys := by
  simp only [anyBank, List.any_eq_true, Prod.exists, mem_struckTeams hwf, List.contains_iff_mem, and_assoc]

/-! ## Changing every bank of a team -/

/-- Change banks of a core. -/
def State.modBanks (s : State) (g : Bank → Bank) (core : Nat) (bs : List Nat) : State :=
  bs.foldl (fun s b => s.setBank core b (g (s.bank core b))) s

/-- Change the banks of a team. -/
def State.modTeamBanks (s : State) (g : Bank → Bank) (T : Team) : State :=
  let u := s.modBanks g T.place.core T.place.banks0
  if T.place.pair then u.modBanks g (T.place.core + 1) T.place.banks1 else u

section
variable {g : Bank → Bank} (hg : ∀ B, g (g B) = g B)
include hg

theorem modBanks_spec (core : Nat) : ∀ (bs : List Nat) (s : State),
    s.modBanks g core bs = { s with banks := (s.modBanks g core bs).banks } ∧
    ∀ j, tget Bank.zero (s.modBanks g core bs).banks j =
      if j ∈ bs.map (32 * core + ·) then g (tget Bank.zero s.banks j) else tget Bank.zero s.banks j
  | [], _ => ⟨rfl, fun _ => rfl⟩
  | b :: bs, s => by
    obtain ⟨hframe, hbanks⟩ := modBanks_spec core bs (s.setBank core b (g (s.bank core b)))
    have hcons : s.modBanks g core (b :: bs) = (s.setBank core b (g (s.bank core b))).modBanks g core bs := rfl
    rw [hcons]
    refine ⟨hframe, fun j => ?_⟩
    have hset : tget Bank.zero (s.setBank core b (g (s.bank core b))).banks j =
        if j = 32 * core + b then g (tget Bank.zero s.banks j) else tget Bank.zero s.banks j := by
      refine (tget_tput _ _ _ _ _).trans ?_
      split
      · next hj => rw [hj]; rfl
      · rfl
    rw [hbanks, hset]
    simp only [List.map_cons, List.mem_cons]
    by_cases hj : j = 32 * core + b
    · simp only [hj, true_or, if_true, hg, ite_self]
    · simp only [hj, false_or, if_false]

theorem modTeamBanks_spec (s : State) (T : Team) :
    s.modTeamBanks g T = { s with banks := (s.modTeamBanks g T).banks } ∧
    ∀ j, tget Bank.zero (s.modTeamBanks g T).banks j =
      if T.bankKeys.contains j then g (tget Bank.zero s.banks j) else tget Bank.zero s.banks j := by
  obtain ⟨hframe, hbanks⟩ := modBanks_spec hg T.place.core T.place.banks0 s
  simp only [List.contains_iff_mem]
  unfold State.modTeamBanks Team.bankKeys
  dsimp only
  cases T.place.pair with
  | false =>
    simp only [Bool.false_eq_true, if_false, List.append_nil]
    exact ⟨hframe, hbanks⟩
  | true =>
    simp only [if_true, List.mem_append]
    obtain ⟨hframe1, hbanks1⟩ := modBanks_spec hg (T.place.core + 1) T.place.banks1 (s.modBanks g T.place.core T.place.banks0)
    refine ⟨by rw [hframe1, hframe], fun j => ?_⟩
    rw [hbanks1, hbanks]
    by_cases h0 : j ∈ T.place.banks0.map (32 * T.place.core + ·)
    · simp only [h0, if_true, hg, ite_self, true_or]
    · simp only [h0, if_false, false_or]

end

/-- A bank whose executing operation alone stays. -/
def Bank.executing (B : Bank) : Bank := { B with ops := B.ops.take 1 }

theorem Bank.executing_executing (B : Bank) : B.executing.executing = B.executing := by
  unfold Bank.executing
  simp only [List.take_take, Nat.min_self]

/-! ## Entries of a table -/

theorem tget_of_mem {α : Type} [DecidableEq α] {d : α} : ∀ {t : Table α} {lo : Nat} {e : Nat × α}, twfFrom d lo t = true →
    e ∈ t → lo ≤ e.1 ∧ tget d t e.1 = e.2
  | [], _, _, _, h => absurd h List.not_mem_nil
  | (k, v) :: t, lo, e, hwf, h => by
    simp only [twfFrom, Bool.and_eq_true, decide_eq_true_eq] at hwf
    obtain ⟨⟨hlo, -⟩, hwf⟩ := hwf
    rcases List.mem_cons.mp h with rfl | h
    · exact ⟨hlo, if_pos rfl⟩
    · obtain ⟨hle, heq⟩ := tget_of_mem hwf h
      exact ⟨by omega, (if_neg (by omega)).trans heq⟩

theorem tget_eq_default {α : Type} {d : α} {i : Nat} : ∀ {t : Table α}, i ∉ t.map (·.1) → tget d t i = d
  | [], _ => rfl
  | (k, v) :: t, h => by
    rw [List.map_cons, List.mem_cons, not_or] at h
    exact (if_neg (Ne.symm h.1)).trans (tget_eq_default h.2)

/-- A change of the entries of a table, one after the other, that keeps what unlisted keys read as. -/
theorem tget_mapEntries {α : Type} [DecidableEq α] {d : α} {f : α → α} (hf : f d = d) {t : Table α} (hwf : twf d t = true)
    (k : Nat) : tget d (t.foldl (fun u e => tput d u e.1 (f e.2)) t) k = f (tget d t k) := by
  have hfold : t.foldl (fun u e => tput d u e.1 (f e.2)) t =
      (t.map (·.1)).foldl (fun u i => tput d u i (f (tget d t i))) t := by
    rw [List.foldl_map]
    refine List.foldl_ext _ _ t fun u e he => ?_
    rw [(tget_of_mem hwf he).2]
  rw [hfold, foldl_tput_get d fun i => f (tget d t i)]
  split
  · rfl
  · next hk => rw [tget_eq_default hk, hf]

/-! ## Ending teams (19 R398 step 2) -/

/-- What becomes of an outstanding entry when the warps of `mine` issue nothing more: a load of such a warp is discarded on
return, and what else such a warp waits for is dropped. -/
def Outst.silenced (mine : Nat → Bool) (o : Outst) : Option Outst :=
  if mine o.w then (if o.kind = .load ∧ o.failed = false then some { o with nreg := 0 } else none) else some o

theorem mem_silenced {mine : Nat → Bool} {os : List Outst} {o : Outst} : o ∈ os.filterMap (Outst.silenced mine) ↔
    ∃ p ∈ os, (mine p.w = false ∧ o = p) ∨
      (mine p.w = true ∧ p.kind = .load ∧ p.failed = false ∧ o = { p with nreg := 0 }) := by
  rw [List.mem_filterMap]
  refine exists_congr fun p => and_congr_right fun _ => ?_
  unfold Outst.silenced
  cases mine p.w with
  | false => simp [@eq_comm _ o]
  | true =>
    by_cases h : p.kind = .load ∧ p.failed = false
    · simp [h, @eq_comm _ o]
    · simp only [if_true, if_neg h, Bool.true_eq_false, false_and, true_and, false_or, reduceCtorEq, false_iff]
      exact fun ⟨hk, hf, _⟩ => h ⟨hk, hf⟩

/-- Between `s` and `t` the warps of `mine` end, and the banks of `bank` keep what executes; teams differ. -/
structure Silenced (s t : State) (mine bank : Nat → Bool) : Prop where
  frame : t = { s with
    teams := t.teams, warps := t.warps, prompts := t.prompts, casts := t.casts, loads := t.loads, banks := t.banks }
  warps : ∀ w, t.warp w = if mine w then (s.warp w).map Warp.end else s.warp w
  prompts : t.prompts = s.prompts.filter fun p => !mine p.w
  casts : twf [] s.casts = true → twf [] t.casts = true ∧
    ∀ core, tget [] t.casts core = (tget [] s.casts core).filter fun c => c.started || !mine c.w
  loads : t.loads = s.loads.filterMap (Outst.silenced mine)
  banks : ∀ j, tget Bank.zero t.banks j = if bank j then (tget Bank.zero s.banks j).executing else tget Bank.zero s.banks j

theorem Silenced.refl (s : State) : Silenced s s (fun _ => false) fun _ => false where
  frame := rfl
  warps _ := rfl
  prompts := (List.filter_eq_self.mpr fun _ _ => rfl).symm
  casts h := ⟨h, fun _ => (List.filter_eq_self.mpr fun _ _ => Bool.or_true _).symm⟩
  loads := (congrFun List.filterMap_some_fun s.loads).symm
  banks _ := rfl

theorem Silenced.trans {s t u : State} {m1 m2 b1 b2 : Nat → Bool} (h : Silenced s t m1 b1) (k : Silenced t u m2 b2) :
    Silenced s u (fun w => m1 w || m2 w) fun j => b1 j || b2 j where
  frame := by rw [k.frame, h.frame]
  warps w := by
    rw [k.warps, h.warps]
    cases m1 w <;> cases m2 w
    · rfl
    · rfl
    · rfl
    · exact Option.map_map _ _ _
  prompts := by
    rw [k.prompts, h.prompts, List.filter_filter]
    refine List.filter_congr fun p _ => ?_
    rw [Bool.not_or, Bool.and_comm]
  casts hc := by
    obtain ⟨hwf, hcasts⟩ := h.casts hc
    obtain ⟨kwf, kcasts⟩ := k.casts hwf
    refine ⟨kwf, fun core => ?_⟩
    rw [kcasts, hcasts, List.filter_filter]
    refine List.filter_congr fun c _ => ?_
    cases c.started
    · simp only [Bool.false_or, Bool.not_or, Bool.and_comm]
    · rfl
  loads := by
    rw [k.loads, h.loads, List.filterMap_filterMap]
    refine List.filterMap_congr fun o _ => ?_
    unfold Outst.silenced
    by_cases ho : o.kind = .load ∧ o.failed = false <;> cases hm : m1 o.w <;> cases hn : m2 o.w <;> simp [ho, hm, hn]
  banks j := by
    rw [k.banks, h.banks]
    cases b1 j <;> cases b2 j
    · rfl
    · rfl
    · rfl
    · exact Bank.executing_executing _

/-- Ending the warps of a team. -/
theorem endWarps_spec : ∀ (ws : List Nat) (s : State),
    ws.foldl (fun s w => s.modWarp w Warp.end) s = { s with warps := (ws.foldl (fun s w => s.modWarp w Warp.end) s).warps } ∧
    ∀ v, (ws.foldl (fun s w => s.modWarp w Warp.end) s).warp v = if ws.contains v then (s.warp v).map Warp.end else s.warp v
  | [], _ => ⟨rfl, fun _ => rfl⟩
  | w :: ws, s => by
    obtain ⟨hframe, hwarps⟩ := endWarps_spec ws (s.modWarp w Warp.end)
    rw [List.foldl_cons]
    refine ⟨by rw [hframe, modWarp_frame], fun v => ?_⟩
    rw [hwarps, State.modWarp_warp]
    simp only [List.contains_iff_mem, List.mem_cons]
    by_cases hv : v = w
    · simp only [hv, true_or, if_true]
      split
      · exact Option.map_map _ _ _
      · rfl
    · simp only [hv, false_or, if_false]

theorem filterMap_silenced (mine : Nat → Bool) (os : List Outst) :
    (os.filter fun o => !(mine o.w && (decide (o.kind ≠ .load) || o.failed))).map
      (fun o => if mine o.w then { o with nreg := 0 } else o) = os.filterMap (Outst.silenced mine) := by
  rw [← List.filterMap_eq_map, List.filterMap_filter]
  refine List.filterMap_congr fun o _ => ?_
  unfold Outst.silenced
  by_cases hm : mine o.w = true
  · by_cases hk : o.kind = .load <;> by_cases hf : o.failed = false <;> simp [hm, hk, hf]
  · simp [hm]

/-- What ending a team does before it turns to the banks. -/
def State.endWork (s : State) (j : Nat) (T : Team) : State :=
  let u := T.slots.foldl (fun s w => s.modWarp w Warp.end) (s.setTeam j { T with started := true })
  { u with
    prompts := u.prompts.filter fun p => !T.slots.contains p.w
    casts := u.casts.foldl (fun t e => tput [] t e.1 (e.2.filter fun c => c.started || !T.slots.contains c.w)) u.casts
    loads := (u.loads.filter fun o => !(T.slots.contains o.w && (decide (o.kind ≠ .load) || o.failed))).map fun o =>
      if T.slots.contains o.w then { o with nreg := 0 } else o }

theorem endTeam_eq (s : State) (j : Nat) (T : Team) : s.endTeam j T = (s.endWork j T).modTeamBanks Bank.executing T := rfl

theorem endWork_eq (s : State) (j : Nat) (T : Team) : s.endWork j T = { s with
    teams := tput none s.teams j (some { T with started := true }), warps := (s.endWork j T).warps
    prompts := s.prompts.filter fun p => !T.slots.contains p.w
    casts := s.casts.foldl (fun t e => tput [] t e.1 (e.2.filter fun c => c.started || !T.slots.contains c.w)) s.casts
    loads := s.loads.filterMap (Outst.silenced T.slots.contains) } := by
  rw [← filterMap_silenced]
  unfold State.endWork
  dsimp only
  rw [(endWarps_spec T.slots (s.setTeam j { T with started := true })).1]
  rfl

theorem silenced_endTeam (s : State) (j : Nat) (T : Team) :
    Silenced s (s.endTeam j T) T.slots.contains T.bankKeys.contains := by
  obtain ⟨hframe, hbanks⟩ := modTeamBanks_spec Bank.executing_executing (s.endWork j T) T
  have hwarps := (endWarps_spec T.slots (s.setTeam j { T with started := true })).2
  rw [endTeam_eq]
  generalize (s.endWork j T).modTeamBanks Bank.executing T = t at hframe hbanks
  have hwork := endWork_eq s j T
  refine ⟨by rw [hframe, hwork], fun w => ?_, by rw [hframe, hwork], fun hc => ?_, by rw [hframe, hwork], fun i => ?_⟩
  · rw [hframe]
    exact hwarps w
  · rw [hframe, hwork]
    exact ⟨twf_foldl_tput _ _ _ hc, fun core => tget_mapEntries (f := List.filter _) rfl hc core⟩
  · rw [hbanks, hwork]

theorem endTeam_team (s : State) (j : Nat) (T : Team) (i : Nat) :
    (s.endTeam j T).team i = if i = j then some { T with started := true } else s.team i := by
  obtain ⟨hframe, -⟩ := modTeamBanks_spec Bank.executing_executing (s.endWork j T) T
  have hteams : (s.endTeam j T).teams = tput none s.teams j (some { T with started := true }) := by
    rw [endTeam_eq, hframe, endWork_eq]
  unfold State.team
  rw [hteams, tget_tput]

theorem silenced_endTeams : ∀ (es : List (Nat × Team)) (s : State),
    Silenced s (es.foldl (fun s e => s.endTeam e.1 e.2) s) (anySlot es) (anyBank es)
  | [], s => .refl s
  | e :: es, s => (silenced_endTeam s e.1 e.2).trans (silenced_endTeams es _)

/-- The teams after those of a list of teams of `s` have ended. -/
theorem endTeams_team {s : State} {i : Nat} : ∀ (es : List (Nat × Team)) (u : State), (∀ e ∈ es, s.team e.1 = some e.2) →
    (es.foldl (fun s e => s.endTeam e.1 e.2) u).team i =
      if i ∈ es.map (·.1) then (s.team i).map fun T => { T with started := true } else u.team i
  | [], _, _ => rfl
  | e :: es, u, h => by
    rw [List.foldl_cons, endTeams_team es _ fun a ha => h a (List.mem_cons_of_mem e ha), endTeam_team]
    simp only [List.map_cons, List.mem_cons]
    by_cases hi : i = e.1
    · simp only [hi, true_or, if_true, h e List.mem_cons_self, Option.map_some, ite_self]
    · simp only [hi, false_or, if_false]

/-! ## The beginning of a strike -/

/-- A strike begins by ending the teams it hits. -/
theorem strikeBegins_beginStrike {s : State} (k : Strike) (hteams : twf none s.teams = true) (hcasts : twf [] s.casts = true) :
    StrikeBegins s (s.beginStrike k) k := by
  have hend : s.beginStrike k =
      (s.struckTeams k).foldl (fun s e => s.endTeam e.1 e.2) { s with strikes := s.strikes ++ [k] } := rfl
  obtain ⟨hframe, hwarps, hprompts, hcast, hloads, hbanks⟩ :=
    silenced_endTeams (s.struckTeams k) { s with strikes := s.strikes ++ [k] }
  have hteam := fun i => endTeams_team (s := s) (i := i) (s.struckTeams k) { s with strikes := s.strikes ++ [k] } fun e he =>
    ((mem_struckTeams hteams).mp he).1
  rw [← hend] at hframe hwarps hprompts hcast hloads hbanks hteam
  generalize s.beginStrike k = t at hframe hwarps hprompts hcast hloads hbanks hteam
  have hmine := fun w => anySlot_iff (k := k) hteams (w := w)
  have hbank := fun j => anyBank_iff (k := k) hteams (i := j)
  refine ⟨hframe, fun j T hT => ⟨fun hits => ?_, fun hno => ?_⟩, fun w W hW => ⟨fun hm => ?_, fun hm => ?_⟩, fun p => ?_,
    fun core c => ?_, fun o ho => ?_, fun o ho => ?_, fun j => ⟨fun hb => ?_, fun hb => ?_⟩⟩
  · have hj : j ∈ (s.struckTeams k).map (·.1) := List.mem_map.mpr ⟨(j, T), (mem_struckTeams hteams).mpr ⟨hT, hits⟩, rfl⟩
    rw [hteam, if_pos hj, hT]
    rfl
  · have hj : j ∉ (s.struckTeams k).map (·.1) := fun hc => by
      obtain ⟨⟨i, U⟩, he, rfl⟩ := List.mem_map.mp hc
      obtain ⟨hU, hits⟩ := (mem_struckTeams hteams).mp he
      exact hno (Option.some.inj (hU.symm.trans hT) ▸ hits)
    rw [hteam, if_neg hj]
    exact hT
  · rw [hwarps, if_pos ((hmine w).mpr hm)]
    exact congrArg (Option.map Warp.end) hW
  · rw [hwarps, if_neg (mt (hmine w).mp hm)]
    exact hW
  · rw [hprompts, List.mem_filter, Bool.not_eq_true', ← Bool.not_eq_true, hmine]
    rfl
  · rw [(hcast hcasts).2, List.mem_filter, Bool.or_eq_true, Bool.not_eq_true', ← Bool.not_eq_true, hmine]
    rfl
  · have hfalse : anySlot (s.struckTeams k) o.w = false := Bool.eq_false_iff.mpr (mt (hmine _).mp ho)
    rw [hloads, mem_silenced]
    constructor
    · rintro ⟨p, hp, ⟨-, rfl⟩ | ⟨hm, -, -, rfl⟩⟩
      · exact hp
      · exact absurd hm (Bool.eq_false_iff.mp hfalse)
    · exact fun hp => ⟨o, hp, .inl ⟨hfalse, rfl⟩⟩
  · have htrue := (hmine _).mpr ho
    rw [hloads, mem_silenced]
    refine exists_congr fun p => and_congr_right fun _ => ⟨?_, fun ⟨hk, hf, he⟩ => .inr ⟨?_, hk, hf, he⟩⟩
    · rintro (⟨hm, rfl⟩ | ⟨-, h⟩)
      · exact absurd htrue (Bool.eq_false_iff.mp hm)
      · exact h
    · rw [he] at htrue
      exact htrue
  · exact (hbanks j).trans (if_pos ((hbank j).mpr hb))
  · exact (hbanks j).trans (if_neg (mt (hbank j).mp hb))

end Sys2Proof.Machine
end

section
/-! What the end of a struck team changes (19 R398 steps 3 and 4): its copies run to a boundary and stop, the queues of its banks
are emptied, and it is freed. -/

namespace Sys2Proof.Machine

/-! ## Copies that move (16 R336) -/

/-- Between `s` and `t` copies move and stop: memory, scratch and what leaves for peers change, monitors fire, and no bank's queue
changes. -/
def CopiesMove (s t : State) : Prop :=
  t = { s with
    mem := t.mem, mscHeld := t.mscHeld, mscDirty := t.mscDirty, dirty := t.dirty, dir := t.dir, olds := t.olds, rels := t.rels
    l1 := t.l1, tlb := t.tlb, warps := t.warps, scratch := t.scratch, empty := t.empty, banks := t.banks, copies := t.copies
    sent := t.sent } ∧
  ∀ j, (tget Bank.zero t.banks j).ops = (tget Bank.zero s.banks j).ops

theorem CopiesMove.refl (s : State) : CopiesMove s s := ⟨rfl, fun _ => rfl⟩

theorem CopiesMove.trans {s t u : State} (h : CopiesMove s t) (k : CopiesMove t u) : CopiesMove s u :=
  ⟨by rw [k.1, h.1], fun j => (k.2 j).trans (h.2 j)⟩

theorem Written.copiesMove {s t : State} (h : Written s t) : CopiesMove s t := by
  obtain ⟨hframe, -⟩ := h
  exact ⟨by rw [hframe], fun _ => by rw [hframe]⟩

theorem copiesMove_peerSend (s : State) (p : Option (Bool × Nat)) (n : Nat) (op : PeerOp) : CopiesMove s (s.peerSend p n op) := by
  unfold State.peerSend
  repeat' split
  · exact ⟨rfl, fun _ => rfl⟩
  · exact .refl s
  · exact .refl s

theorem copiesMove_fillDone (s : State) (a : Nat × Nat × Nat) (c : Copy) (o : Nat) : CopiesMove s (s.fillDone a c o) := by
  unfold State.fillDone
  split
  · exact .refl s
  · exact ⟨rfl, fun _ => rfl⟩

theorem copiesMove_setScale (s : State) (core b i : Nat) (v : Byte) :
    CopiesMove s (s.setBank core b { s.bank core b with sw := tput 0x7F (s.bank core b).sw i v }) := by
  refine ⟨rfl, fun j => ?_⟩
  refine (congrArg Bank.ops (tget_tput Bank.zero s.banks _ j _)).trans ?_
  split
  · next hj => rw [hj]; rfl
  · rfl

theorem copiesMove_copyRead {s t : State} {T : Team} {c c' : Copy} {r : CopySrc} (h : s.copyRead T c r = .ok t c') : CopiesMove s t := by
  cases r with
  | scratch o =>
    unfold State.copyRead at h
    dsimp only at h
    repeat' split at h
    · cases h
    · cases h; exact .refl s
    · cases h
  | global va =>
    unfold State.copyRead at h
    dsimp only at h
    repeat' split at h
    · cases h
    · cases h
    · cases h
      exact ((shared_walkFor s _ _ _).trans (shared_shareBytes _ _ _)).written.copiesMove.trans (copiesMove_peerSend _ _ _ _)

theorem copiesMove_copyPut {s t : State} {T : Team} {c c' : Copy} {p : CopyPut} (h : s.copyPut T c p = .ok t c') : CopiesMove s t := by
  unfold State.copyPut at h
  dsimp only at h
  repeat' split at h
  · cases h
    exact CopiesMove.trans ⟨rfl, fun _ => rfl⟩ (copiesMove_fillDone _ _ _ _)
  · cases h
    exact .refl s
  · cases h
    exact ⟨rfl, fun _ => rfl⟩
  · cases h
    exact copiesMove_setScale s _ _ _ _
  · cases h
  · cases h
  · cases h
    exact ((shared_walkFor s _ _ _).written.trans (written_performBytes _ _ _)).copiesMove.trans (copiesMove_peerSend _ _ _ _)

theorem copiesMove_move {s t : State} {c c' : Copy} (h : s.move c = .ok t c') : CopiesMove s t := by
  unfold State.move at h
  repeat' split at h
  · cases h
  · cases h
  · exact copiesMove_copyPut h
  · exact copiesMove_copyRead h
  · cases h; exact .refl s

theorem copiesMove_runToBoundary : ∀ (n : Nat) (s : State) (id : Nat), CopiesMove s (State.runToBoundary n s id)
  | 0, s, _ => .refl s
  | n + 1, s, id => by
    unfold State.runToBoundary
    split
    · exact .refl s
    · split
      · exact .refl s
      · split
        · next hm => exact ((copiesMove_move hm).trans ⟨rfl, fun _ => rfl⟩).trans (copiesMove_runToBoundary n _ id)
        · exact .refl s

theorem copiesMove_foldl {β : Type} {f : State → β → State} (h : ∀ s b, CopiesMove s (f s b)) : ∀ (l : List β) (s : State),
    CopiesMove s (l.foldl f s)
  | [], s => .refl s
  | b :: l, s => (h s b).trans (copiesMove_foldl h l (f s b))

theorem copiesMove_stopCopies (s : State) (j : Nat) : CopiesMove s (s.stopCopies j) := by
  have hrun := copiesMove_foldl (fun s id => copiesMove_runToBoundary runFuel s id)
    ((s.copies.filter fun c => decide (c.team = j)).map (·.id)) s
  unfold State.stopCopies
  exact hrun.trans ⟨rfl, fun _ => rfl⟩

/-- A team without copies stops none. -/
theorem stopCopies_none {s : State} {j : Nat} (h : ∀ c ∈ s.copies, c.team ≠ j) : s.stopCopies j = s := by
  have hnone : (s.copies.filter fun c => decide (c.team = j)) = [] :=
    List.filter_eq_nil_iff.mpr fun c hc => by simpa using h c hc
  have hall : (s.copies.filter fun c => decide (c.team ≠ j)) = s.copies :=
    List.filter_eq_self.mpr fun c hc => decide_eq_true (h c hc)
  have hpark : (s.copies.filter fun c => decide (c.team = j) && c.park.isSome) = [] :=
    List.filter_eq_nil_iff.mpr fun c hc => by simp [h c hc]
  unfold State.stopCopies
  simp only [hnone, List.map_nil, List.foldl_nil, hpark, hall, List.contains_nil, Bool.false_eq_true, if_false, List.map_id']

/-! ## The end of the teams -/

/-- A bank without operations. -/
def Bank.emptied (B : Bank) : Bank := { B with ops := [] }

/-- Between `s` and `t` the teams of `gone` are freed and the queues of the banks of `bank` emptied; what copies and warps leave
differs, and no launch, context, store or strike. -/
structure Dropped (s t : State) (gone bank : Nat → Bool) : Prop where
  frame : t = { s with
    mem := t.mem, mscHeld := t.mscHeld, mscDirty := t.mscDirty, dirty := t.dirty, dir := t.dir, olds := t.olds, rels := t.rels
    l1 := t.l1, tlb := t.tlb, warps := t.warps, scratch := t.scratch, empty := t.empty, banks := t.banks, copies := t.copies
    sent := t.sent, teams := t.teams, loads := t.loads, offers := t.offers, handles := t.handles }
  teams : ∀ j, t.team j = if gone j then none else s.team j
  ops : ∀ j, (tget Bank.zero t.banks j).ops = if bank j then [] else (tget Bank.zero s.banks j).ops

theorem Dropped.refl (s : State) : Dropped s s (fun _ => false) fun _ => false := ⟨rfl, fun _ => rfl, fun _ => rfl⟩

theorem Dropped.trans {s t u : State} {g1 g2 b1 b2 : Nat → Bool} (h : Dropped s t g1 b1) (k : Dropped t u g2 b2) :
    Dropped s u (fun j => g1 j || g2 j) fun j => b1 j || b2 j where
  frame := by rw [k.frame, h.frame]
  teams j := by
    rw [k.teams, h.teams]
    cases g1 j <;> cases g2 j <;> rfl
  ops j := by
    rw [k.ops, h.ops]
    cases b1 j <;> cases b2 j <;> rfl

theorem dropTeam_eq (s : State) (j : Nat) (T : Team) :
    s.dropTeam j T = ((s.stopCopies j).modTeamBanks Bank.emptied T).freeTeam j T := rfl

theorem dropped_dropTeam (s : State) (j : Nat) (T : Team) :
    Dropped s (s.dropTeam j T) (fun i => decide (i = j)) T.bankKeys.contains := by
  obtain ⟨hmove, hops⟩ := copiesMove_stopCopies s j
  obtain ⟨hframe, hbanks⟩ := modTeamBanks_spec (g := Bank.emptied) (fun _ => rfl) (s.stopCopies j) T
  rw [dropTeam_eq]
  generalize s.stopCopies j = u at hmove hops hframe hbanks
  generalize u.modTeamBanks Bank.emptied T = v at hframe hbanks
  refine ⟨?_, fun i => ?_, fun i => ?_⟩
  · unfold State.freeTeam
    rw [hframe, hmove]
  · rw [freeTeam_team, hframe, hmove]
    simp only [decide_eq_true_eq]
    rfl
  · show (tget Bank.zero v.banks i).ops = _
    rw [hbanks, ← hops]
    split <;> rfl

/-- A team of a list has this key. -/
def anyKey (es : List (Nat × Team)) (i : Nat) : Bool := es.any fun e => decide (i = e.1)

theorem anyKey_iff {s : State} {k : Strike} (hwf : twf none s.teams = true) {i : Nat} :
    anyKey (s.struckTeams k) i = true ↔ ∃ T, s.team i = some T ∧ k.hits T := by
  simp only [anyKey, List.any_eq_true, Prod.exists, mem_struckTeams hwf, decide_eq_true_eq]
  exact ⟨fun ⟨_, T, h, hi⟩ => hi ▸ ⟨T, h⟩, fun ⟨T, h⟩ => ⟨i, T, h, rfl⟩⟩

theorem dropped_dropTeams : ∀ (es : List (Nat × Team)) (s : State),
    Dropped s (es.foldl (fun s e => s.dropTeam e.1 e.2) s) (anyKey es) (anyBank es)
  | [], s => .refl s
  | e :: es, s => (dropped_dropTeam s e.1 e.2).trans (dropped_dropTeams es _)

/-- Teams without copies end without an access to memory. -/
theorem dropTeams_still : ∀ (es : List (Nat × Team)) (s : State), (∀ e ∈ es, ∀ c ∈ s.copies, c.team ≠ e.1) →
    let t := es.foldl (fun s e => s.dropTeam e.1 e.2) s
    t = { s with teams := t.teams, warps := t.warps, banks := t.banks, loads := t.loads, offers := t.offers, handles := t.handles }
  | [], _, _ => rfl
  | e :: es, s, h => by
    have hdrop : s.dropTeam e.1 e.2 = (s.modTeamBanks Bank.emptied e.2).freeTeam e.1 e.2 := by
      rw [dropTeam_eq, stopCopies_none (h e List.mem_cons_self)]
    obtain ⟨hframe, -⟩ := modTeamBanks_spec (g := Bank.emptied) (fun _ => rfl) s e.2
    have hfree : s.dropTeam e.1 e.2 = { s with
        teams := (s.dropTeam e.1 e.2).teams, warps := (s.dropTeam e.1 e.2).warps, banks := (s.dropTeam e.1 e.2).banks
        loads := (s.dropTeam e.1 e.2).loads, offers := (s.dropTeam e.1 e.2).offers, handles := (s.dropTeam e.1 e.2).handles } := by
      rw [hdrop, hframe]
      rfl
    have hcopies : (s.dropTeam e.1 e.2).copies = s.copies := by rw [hfree]
    have ih := dropTeams_still es (s.dropTeam e.1 e.2) fun a ha c hc => h a (List.mem_cons_of_mem e ha) c (hcopies ▸ hc)
    dsimp only at ih ⊢
    rw [List.foldl_cons, ih, hfree]

end Sys2Proof.Machine
end

section
/-! The completion of a strike (19 R398 steps 5 to 7, R399): the records that its context gets, and what becomes of its launches. -/

namespace Sys2Proof.Machine

/-! ## Records of a context (19 R387) -/

/-- Between `s` and `t` context `n` gets the records `rs`, its drain may end, and no other context changes. -/
def Reports (s t : State) (n : Nat) (rs : List EvRec) : Prop :=
  (∀ m, m ≠ n → tget Ctx.zero t.ctxs m = tget Ctx.zero s.ctxs m) ∧
  tget Ctx.zero t.ctxs n = { tget Ctx.zero s.ctxs n with
    draining := (tget Ctx.zero t.ctxs n).draining, timer := (tget Ctx.zero t.ctxs n).timer
    records := (tget Ctx.zero s.ctxs n).records ++ rs }

theorem Reports.of_ctxs {s t : State} {n : Nat} (h : t.ctxs = s.ctxs) : Reports s t n [] := by
  refine ⟨fun m _ => by rw [h], ?_⟩
  rw [h, List.append_nil]

theorem Reports.trans {s t u : State} {n : Nat} {rs qs : List EvRec} (h : Reports s t n rs) (k : Reports t u n qs) :
    Reports s u n (rs ++ qs) := by
  refine ⟨fun m hm => (k.1 m hm).trans (h.1 m hm), ?_⟩
  rw [k.2, h.2, List.append_assoc]

theorem reports_notify (s : State) (e : EvRec) : Reports s (s.notify e) e.ctx [e] := by
  have hself : tget Ctx.zero (s.notify e).ctxs e.ctx = { tget Ctx.zero s.ctxs e.ctx with
      records := (tget Ctx.zero s.ctxs e.ctx).records ++ [e] } := tget_tput_same _ _ _ _
  refine ⟨fun m hm => tget_tput_ne _ _ _ hm, ?_⟩
  rw [hself]

/-- The record of a drain that ends (19 R396), where it ends. -/
def State.drainRecords (s : State) (n : Nat) : List EvRec :=
  if (tget Ctx.zero s.ctxs n).draining && !s.resident n then [{ EvRec.zero with kind := 8, ctx := n }] else []

theorem reports_checkDrain (s : State) (n : Nat) : Reports s (s.checkDrain n) n (s.drainRecords n) := by
  unfold State.checkDrain State.drainRecords
  dsimp only
  split
  · refine Reports.trans (rs := []) ⟨fun m hm => tget_tput_ne _ _ _ hm, ?_⟩ (reports_notify _ { EvRec.zero with kind := 8, ctx := n })
    rw [tget_tput_same, List.append_nil]
  · exact .of_ctxs rfl

/-- The record of a launch whose completion word the module cannot write, for the cause `c` (07 R191). -/
def Launch.unwritten (L : Launch) (status c : Nat) : EvRec := { EvRec.zero with
  kind := 6, code := 14, cause := c, ctx := L.ctx, lnum := L.lnum, addr := lrCompl L.record, aux0 := L.lnum + status * 2 ^ 32 }

/-- The records of a launch that completes. -/
def State.completionRecords (s : State) (L : Launch) (status : Nat) : List EvRec :=
  if lrCompl L.record = 0 then [] else match s.moduleStore L.ctx (lrCompl L.record) with
    | .ok _ => []
    | .error c => [L.unwritten status c]

theorem Written.ctxs {s t : State} (h : Written s t) : t.ctxs = s.ctxs := by rw [h.1]

theorem reports_completeLaunch (s : State) (L : Launch) (n : Nat) :
    Reports s (s.completeLaunch L n) L.ctx (s.completionRecords L n) := by
  unfold State.completionRecords
  by_cases hc : lrCompl L.record = 0
  · rw [completeLaunch_silent hc, if_pos hc]
    exact .of_ctxs rfl
  · rw [if_neg hc]
    cases hs : s.moduleStore L.ctx (lrCompl L.record) with
    | ok pas =>
      rw [completeLaunch_ok hc hs]
      have hw := (held_writeBackAll (s.forget L)).written.trans
        (written_foldl (fun s q => written_hubWrite s (wordBytes (L.lnum + n * 2 ^ 32) q)) pas _)
      exact .of_ctxs hw.ctxs
    | error c =>
      rw [completeLaunch_error hc hs]
      exact Reports.trans (t := s.forget L) (rs := []) (.of_ctxs rfl) (reports_notify _ _)

/-- Where the module stores for a context does not depend on what a report changes of it. -/
theorem moduleStore_reports {s t : State} {n : Nat} {rs : List EvRec} (hframe : t = { s with ctxs := t.ctxs }) (h : Reports s t n rs)
    (va : Nat) : t.moduleStore n va = s.moduleStore n va := by
  obtain ⟨-, hctx⟩ := h
  have hen : (tget Ctx.zero t.ctxs n).en = (tget Ctx.zero s.ctxs n).en := by rw [hctx]
  have hroot : (tget Ctx.zero t.ctxs n).root = (tget Ctx.zero s.ctxs n).root := by rw [hctx]
  have hstride : (tget Ctx.zero t.ctxs n).rstride = (tget Ctx.zero s.ctxs n).rstride := by rw [hctx]
  have hword : t.openWord64 = s.openWord64 := by rw [hframe]; rfl
  have hbacked : t.backed = s.backed := by rw [hframe]; rfl
  unfold State.moduleStore State.walk State.replica
  rw [hen, hroot, hstride, hword, hbacked]

/-! ## The launches of a strike -/

/-- Launches complete with status 2, one after the other. -/
def State.completeStruck (s : State) (Ls : List Launch) : State := Ls.foldl (fun s L => s.completeLaunch L 2) s

theorem launches_completeStruck : ∀ (Ls : List Launch) (s : State),
    (s.completeStruck Ls).launches = s.launches.filter fun M => !decide (M ∈ Ls)
  | [], s => (List.filter_eq_self.mpr fun _ _ => by simp).symm
  | L :: Ls, s => by
    refine (launches_completeStruck Ls (s.completeLaunch L 2)).trans ?_
    rw [launches_completeLaunch, List.filter_filter]
    refine List.filter_congr fun M _ => ?_
    simp only [List.mem_cons, not_or, ← decide_not, Bool.decide_and, Bool.and_comm]

/-- The records of the launches that complete so. -/
def State.struckRecords (s : State) : List Launch → List EvRec
  | [] => []
  | L :: Ls => s.completionRecords L 2 ++ (s.completeLaunch L 2).struckRecords Ls

theorem reports_completeStruck {n : Nat} : ∀ (Ls : List Launch) (s : State), (∀ L ∈ Ls, L.ctx = n) →
    Reports s (s.completeStruck Ls) n (s.struckRecords Ls)
  | [], _, _ => .of_ctxs rfl
  | L :: Ls, s, h => by
    have hL := reports_completeLaunch s L 2
    rw [h L List.mem_cons_self] at hL
    exact hL.trans (reports_completeStruck Ls _ fun M hM => h M (List.mem_cons_of_mem L hM))

theorem ended_completeStruck (s : State) (Ls : List Launch) : Ended s (s.completeStruck Ls) :=
  ended_foldl (fun s L => ended_completeLaunch s L 2) Ls s

/-! ## The report of the strike -/

/-- The record of a strike's completion (19 R398 step 7). -/
def Strike.record (k : Strike) : EvRec := { EvRec.zero with kind := 7, cause := k.cause, ctx := k.ctx, lnum := k.lnum }

/-- Steps 6 and 7 of R398: a context that was struck leaves the caches and is busy no more; the strike is reported. -/
def State.reportStrike (s : State) (k : Strike) : State :=
  match k.launch with
  | some _ => s.notify k.record
  | none => ((s.purge k.ctx).notify k.record).modCtx k.ctx fun c => { c with busy := false }

section
variable {s : State} {k : Strike}

theorem reportStrike_frame : s.reportStrike k =
    { s with ctxs := (s.reportStrike k).ctxs, tlb := (s.reportStrike k).tlb, l1 := (s.reportStrike k).l1 } := by
  unfold State.reportStrike
  split <;> rfl

theorem reportStrike_launch {key : Nat} (h : k.launch = some key) : s.reportStrike k = s.notify k.record := by
  unfold State.reportStrike
  rw [h]

theorem reportStrike_context (h : k.launch = none) : s.reportStrike k = { s.purge k.ctx with
    ctxs := tput Ctx.zero s.ctxs k.ctx { tget Ctx.zero s.ctxs k.ctx with
      records := (tget Ctx.zero s.ctxs k.ctx).records ++ [k.record], busy := false } } := by
  unfold State.reportStrike
  rw [h]
  exact notify_modCtx (s.purge k.ctx) k.record _

theorem reportStrike_ctxs : (∀ m, m ≠ k.ctx → tget Ctx.zero (s.reportStrike k).ctxs m = tget Ctx.zero s.ctxs m) ∧
    (tget Ctx.zero (s.reportStrike k).ctxs k.ctx).records = (tget Ctx.zero s.ctxs k.ctx).records ++ [k.record] := by
  cases h : k.launch with
  | some key =>
    rw [reportStrike_launch h]
    obtain ⟨hother, hself⟩ := reports_notify s k.record
    exact ⟨hother, congrArg Ctx.records hself⟩
  | none =>
    rw [reportStrike_context h]
    exact ⟨fun m hm => tget_tput_ne _ _ _ hm, congrArg Ctx.records (tget_tput_same _ _ _ _)⟩

/-- A context that was struck is busy no more, and no cache or translation unit holds an entry of it. -/
theorem reportStrike_freed (h : k.launch = none) : (tget Ctx.zero (s.reportStrike k).ctxs k.ctx).busy = false ∧
    (∀ e ∈ (s.reportStrike k).tlb, e.ctx ≠ k.ctx) ∧ ∀ e ∈ (s.reportStrike k).l1, e.ctx ≠ k.ctx := by
  rw [reportStrike_context h]
  exact ⟨congrArg Ctx.busy (tget_tput_same _ _ _ _), fun e he => of_decide_eq_true (List.mem_filter.mp he).2,
    fun e he => of_decide_eq_true (List.mem_filter.mp he).2⟩

theorem ended_reportStrike : Ended s (s.reportStrike k) := by
  have hwarps : (s.reportStrike k).warps = s.warps := by rw [reportStrike_frame]
  refine ⟨by rw [reportStrike_frame], warpsFire_of_warps hwarps, fun w hw => ?_⟩
  unfold State.warp at hw ⊢
  rwa [hwarps]

theorem byteAt_reportStrike (pa : Nat) : (s.reportStrike k).byteAt pa = s.byteAt pa := by
  rw [reportStrike_frame]
  rfl

end

/-! ## The completion -/

/-- The launches that a strike takes from the store. -/
def State.struckLaunches (s : State) (k : Strike) : List Launch :=
  s.launches.filter fun L => decide (L.ctx = k.ctx ∧ (k.launch = none ∨ k.launch = some L.key))

theorem mem_struckLaunches {s : State} {k : Strike} {L : Launch} :
    L ∈ s.struckLaunches k ↔ L ∈ s.launches ∧ L.ctx = k.ctx ∧ (k.launch = none ∨ k.launch = some L.key) := by
  unfold State.struckLaunches
  rw [List.mem_filter, decide_eq_true_eq]

/-- The state after the teams of a strike have ended: it is over. -/
def State.strikeDropped (s : State) (k : Strike) : State :=
  let u := (s.struckTeams k).foldl (fun s e => s.dropTeam e.1 e.2) s
  { u with strikes := u.strikes.filter fun j => j ≠ k }

/-- The state in which a strike completes its launches: a drain may have ended with its teams (19 R396). -/
def State.strikeDrained (s : State) (k : Strike) : State := (s.strikeDropped k).checkDrain k.ctx

theorem finishStrike_eq (s : State) (k : Strike) :
    s.finishStrike k = ((s.strikeDrained k).completeStruck ((s.strikeDrained k).struckLaunches k)).reportStrike k := by
  unfold State.finishStrike State.struckLaunches
  simp only [Bool.decide_and]
  rfl

end Sys2Proof.Machine
end

section
/-! Strikes, settled (O45): how they begin, and what their completion leaves. -/

namespace Sys2Proof.Machine

/-! ## The beginning of a strike (19 R397 to R399) -/

section
variable {s : State} {n cause : Nat}

/-- A strike of a context that is not being struck stops the context and makes it busy, and begins. -/
theorem strikeContext_begins (hidle : (tget Ctx.zero s.ctxs n).busy = false) (hteams : twf none s.teams = true)
    (hcasts : twf [] s.casts = true) :
    StrikeBegins { s with ctxs := tput Ctx.zero s.ctxs n { tget Ctx.zero s.ctxs n with stopped := true, busy := true, timer := none } }
      (s.strikeContext n cause) ⟨n, none, 0, cause⟩ := by
  have hstrike : s.strikeContext n cause = (s.modCtx n fun c => { c with stopped := true, busy := true, timer := none }).beginStrike
      ⟨n, none, 0, cause⟩ := if_neg (Bool.eq_false_iff.mp hidle)
  rw [hstrike]
  exact strikeBegins_beginStrike _ hteams hcasts

/-- A strike of a launch whose key no other launch in the store has, and which is not being struck. -/
theorem strikeKey_eq {L : Launch} (hL : L ∈ s.launches) (hkey : ∀ M ∈ s.launches, M.key = L.key → M = L)
    (hidle : s.struck L.ctx L.key = false) : s.strikeKey L.key = s.beginStrike ⟨L.ctx, some L.key, L.lnum, 3⟩ := by
  have hfind : s.launches.find? (fun M => decide (M.key = L.key)) = some L := by
    obtain ⟨M, hM⟩ := Option.isSome_iff_exists.mp
      (List.find?_isSome (p := fun M => decide (M.key = L.key)).mpr ⟨L, hL, decide_eq_true rfl⟩)
    rw [hM, hkey M (List.mem_of_find?_eq_some hM) (of_decide_eq_true (List.find?_some hM :))]
  unfold State.strikeKey
  simp only [hfind, hidle, Bool.false_eq_true, if_false]

theorem strikeLaunch_eq {L : Launch} {lnum : Nat}
    (h : s.launches.find? (fun M => decide (M.ctx = n ∧ M.lnum = lnum)) = some L) :
    s.strikeLaunch n lnum = s.strikeKey L.key := by
  simp only [Bool.decide_and] at h
  unfold State.strikeLaunch
  rw [h]

/-- The team of a slot, unless it is being struck. -/
theorem ctlTeam_eq {core slot k : Nat} {T : Team} (hslot : s.teamAt core slot = some k) (hT : s.team k = some T)
    (hidle : s.struck T.ctx T.launch = false) : s.ctlTeam core slot = some (k, T) := by
  unfold State.ctlTeam
  simp only [hslot, hT, hidle, Bool.false_eq_true, if_false]

theorem ctlStrike_eq {core slot k : Nat} {T : Team} (h : s.ctlTeam core slot = some (k, T)) :
    s.ctlStrike core slot = { s.strikeKey T.launch with
      cores := tput CoreRegs.zero (s.strikeKey T.launch).cores core
        { tget CoreRegs.zero (s.strikeKey T.launch).cores core with tstrike := some T.launch } } := by
  unfold State.ctlStrike
  rw [h]

theorem exec_deadlineExpiry {d : Nat} (htimer : (tget Ctx.zero s.ctxs n).timer = some d)
    (hdrain : (tget Ctx.zero s.ctxs n).draining = true) (hd : d ≤ tget 0 s.clock 0) :
    exec (.deadlineExpiry n) s = .next (s.strikeContext n 2) := by
  have hctx : s.ctx n = tget Ctx.zero s.ctxs n := rfl
  have hexec : exec (.deadlineExpiry n) s = execDeadlineExpiry n s := rfl
  rw [hexec, execDeadlineExpiry]
  simp only [hctx, htimer, hdrain, decide_eq_true hd, Bool.and_self, if_true]

end

/-! ## The completion of a strike (19 R398, R399) -/

section
variable {s : State} {k : Strike}

theorem exec_strikeComplete {i : Nat} (hk : s.strikes[i]? = some k) (hready : s.strikeReady k = true) :
    exec (.strikeComplete i) s = .next (s.finishStrike k) := by
  have hexec : exec (.strikeComplete i) s = execStrikeComplete i s := rfl
  rw [hexec, execStrikeComplete]
  simp only [hk, hready, if_true]

/-- The teams of a strike end, and the strike leaves the strikes under way. -/
theorem dropped_strikeDropped (s : State) (k : Strike) : Dropped { s with strikes := s.strikes.filter fun j => j ≠ k }
    (s.strikeDropped k) (anyKey (s.struckTeams k)) (anyBank (s.struckTeams k)) := by
  obtain ⟨hframe, hteams, hops⟩ := dropped_dropTeams (s.struckTeams k) s
  unfold State.strikeDropped
  generalize (s.struckTeams k).foldl (fun s e => s.dropTeam e.1 e.2) s = u at hframe hteams hops
  exact ⟨by rw [hframe], hteams, hops⟩

theorem ended_finishStrike (s : State) (k : Strike) : Ended (s.strikeDropped k) (s.finishStrike k) := by
  rw [finishStrike_eq]
  exact ((ended_checkDrain _ k.ctx).trans (ended_completeStruck _ _)).trans ended_reportStrike

/-- What the completion leaves as the end of the teams left it. -/
theorem finishStrike_frame (s : State) (k : Strike) : (s.finishStrike k).strikes = (s.strikeDropped k).strikes ∧
    (s.finishStrike k).teams = (s.strikeDropped k).teams ∧ (s.finishStrike k).banks = (s.strikeDropped k).banks ∧
    (s.finishStrike k).stores = (s.strikeDropped k).stores := by
  obtain ⟨hframe, -, -⟩ := ended_finishStrike s k
  rw [hframe]
  exact ⟨rfl, rfl, rfl, rfl⟩

/-- Of the teams those that the strike hits are gone. -/
theorem finishStrike_team (hteams : twf none s.teams = true) {j : Nat} {T : Team} (hT : s.team j = some T) :
    (k.hits T → (s.finishStrike k).team j = none) ∧ (¬ k.hits T → (s.finishStrike k).team j = some T) := by
  obtain ⟨-, hteam, -, -⟩ := finishStrike_frame s k
  have hkey : (s.finishStrike k).team j = if anyKey (s.struckTeams k) j then none else s.team j :=
    (congrArg (tget none · j) hteam).trans ((dropped_strikeDropped s k).teams j)
  refine ⟨fun hits => hkey.trans (if_pos ((anyKey_iff hteams).mpr ⟨T, hT, hits⟩)), fun hno => ?_⟩
  refine (hkey.trans (if_neg fun h => ?_)).trans hT
  obtain ⟨U, hU, hits⟩ := (anyKey_iff hteams).mp h
  exact hno (Option.some.inj (hU.symm.trans hT) ▸ hits)

/-- Of the queues those of the banks of such teams are empty. -/
theorem finishStrike_ops (hteams : twf none s.teams = true) (j : Nat) :
    ((∃ i T, s.team i = some T ∧ k.hits T ∧ j ∈ T.bankKeys) → (tget Bank.zero (s.finishStrike k).banks j).ops = []) ∧
    (¬ (∃ i T, s.team i = some T ∧ k.hits T ∧ j ∈ T.bankKeys) →
      (tget Bank.zero (s.finishStrike k).banks j).ops = (tget Bank.zero s.banks j).ops) := by
  obtain ⟨-, -, hbanks, -⟩ := finishStrike_frame s k
  have hops := (dropped_strikeDropped s k).ops j
  rw [hbanks]
  exact ⟨fun h => hops.trans (if_pos ((anyBank_iff hteams).mpr h)), fun h => hops.trans (if_neg (mt (anyBank_iff hteams).mp h))⟩

theorem strikeDrained_launches (s : State) (k : Strike) : (s.strikeDrained k).launches = s.launches := by
  unfold State.strikeDrained
  rw [checkDrain_eq, (dropped_strikeDropped s k).frame]

theorem strikeDrained_struckLaunches (s : State) (k : Strike) : (s.strikeDrained k).struckLaunches k = s.struckLaunches k := by
  unfold State.struckLaunches
  rw [strikeDrained_launches]

theorem launches_finishStrike (s : State) (k : Strike) : (s.finishStrike k).launches =
    s.launches.filter fun L => !decide (L.ctx = k.ctx ∧ (k.launch = none ∨ k.launch = some L.key)) := by
  rw [finishStrike_eq, reportStrike_frame]
  show (State.completeStruck _ _).launches = _
  rw [launches_completeStruck, strikeDrained_struckLaunches, strikeDrained_launches]
  refine List.filter_congr fun L hL => ?_
  simp only [mem_struckLaunches, hL, true_and]

/-- The records between the context's own and that of the strike: that of a drain that ends, and those of completion words that
could not be written. -/
def State.strikeRecords (s : State) (k : Strike) : List EvRec :=
  (s.strikeDropped k).drainRecords k.ctx ++ (s.strikeDrained k).struckRecords (s.struckLaunches k)

theorem ctxs_finishStrike (s : State) (k : Strike) :
    (∀ m, m ≠ k.ctx → tget Ctx.zero (s.finishStrike k).ctxs m = tget Ctx.zero s.ctxs m) ∧
    (tget Ctx.zero (s.finishStrike k).ctxs k.ctx).records = (tget Ctx.zero s.ctxs k.ctx).records ++ s.strikeRecords k ++ [k.record] := by
  have hdropped : (s.strikeDropped k).ctxs = s.ctxs := by rw [(dropped_strikeDropped s k).frame]
  obtain ⟨hother, hself⟩ := (reports_checkDrain (s.strikeDropped k) k.ctx).trans (reports_completeStruck
    (s.struckLaunches k) (s.strikeDrained k) fun L hL => (mem_struckLaunches.mp hL).2.1)
  obtain ⟨kother, kself⟩ := reportStrike_ctxs (s := (s.strikeDrained k).completeStruck (s.struckLaunches k)) (k := k)
  rw [hdropped] at hother hself
  rw [finishStrike_eq, strikeDrained_struckLaunches]
  exact ⟨fun m hm => (kother m hm).trans (hother m hm), kself.trans (congrArg (· ++ [k.record]) (congrArg Ctx.records hself))⟩

/-! ## The completion word of the launch (07 R191) -/

theorem ctx_of_single {L : Launch} (hsingle : s.struckLaunches k = [L]) : L.ctx = k.ctx :=
  (mem_struckLaunches.mp (hsingle ▸ List.mem_singleton_self L)).2.1

section
variable {L : Launch} (hsingle : s.struckLaunches k = [L]) (hteams : twf none s.teams = true)
  (hcopies : ∀ c ∈ s.copies, ∀ T, s.team c.team = some T → ¬ k.hits T) (hc : lrCompl L.record ≠ 0)
include hteams hcopies

/-- Without copies of its teams a strike accesses memory for its launches' completion alone. -/
theorem strikeDropped_still : s.strikeDropped k = { s with
    teams := (s.strikeDropped k).teams, warps := (s.strikeDropped k).warps, banks := (s.strikeDropped k).banks
    loads := (s.strikeDropped k).loads, offers := (s.strikeDropped k).offers, handles := (s.strikeDropped k).handles
    strikes := (s.strikeDropped k).strikes } := by
  have hstill := dropTeams_still (s.struckTeams k) s fun e he c hcopy heq => by
    obtain ⟨hT, hits⟩ := (mem_struckTeams hteams).mp he
    exact hcopies c hcopy e.2 (heq ▸ hT) hits
  unfold State.strikeDropped
  dsimp only at hstill ⊢
  rw [hstill]

theorem moduleStore_strikeDrained (va : Nat) : (s.strikeDrained k).moduleStore k.ctx va = s.moduleStore k.ctx va := by
  refine (moduleStore_reports (checkDrain_eq _ _) (reports_checkDrain (s.strikeDropped k) k.ctx) va).trans ?_
  rw [strikeDropped_still hteams hcopies]
  refine moduleStore_congr ?_ ?_ (fun _ => ?_) _ _ <;> rfl

theorem reaches_strikeDrained (pa : Nat) : (s.strikeDrained k).reaches pa = s.reaches pa := by
  unfold State.strikeDrained
  rw [checkDrain_eq, strikeDropped_still hteams hcopies]
  rfl

include hsingle hc

/-- The bytes of the completion word, each that no other replica covers. -/
theorem byteAt_finishStrike {pas : List Nat} {pa i : Nat} (hs : s.moduleStore k.ctx (lrCompl L.record) = .ok pas) (hpa : pa ∈ pas)
    (hi : i < 8) (halone : ∀ q ∈ pas, pa + i < q + 8 → q < pa + i + 1 → q = pa) (hr : s.reaches (pa + i) = true) :
    (s.finishStrike k).byteAt (pa + i) = BitVec.ofNat 8 ((L.lnum + 2 * 2 ^ 32) / 256 ^ i) := by
  rw [finishStrike_eq, byteAt_reportStrike, strikeDrained_struckLaunches, hsingle]
  refine byteAt_completeLaunch (s := s.strikeDrained k) hc ?_ hpa hi halone ((reaches_strikeDrained hteams hcopies _).trans hr)
  rw [ctx_of_single hsingle, moduleStore_strikeDrained hteams hcopies, hs]

/-- The record of a completion word that the module cannot write. -/
theorem mem_strikeRecords {c : Nat} (hs : s.moduleStore k.ctx (lrCompl L.record) = .error c) : L.unwritten 2 c ∈ s.strikeRecords k := by
  have hrecord : (s.strikeDrained k).completionRecords L 2 = [L.unwritten 2 c] := by
    unfold State.completionRecords
    rw [if_neg hc, ctx_of_single hsingle, moduleStore_strikeDrained hteams hcopies, hs]
  unfold State.strikeRecords
  rw [hsingle, State.struckRecords, hrecord]
  exact List.mem_append_right _ (List.mem_append_left _ List.mem_cons_self)

end

end

/-- Settles O45: a strike begins by ending the teams that it hits, and its completion frees them, completes its launches and reports
it, each of which leaves the rest. -/
theorem strikes : Obligations.Strikes := by
  unfold Obligations.Strikes
  intro s n hteams hcasts C struck
  refine ⟨fun hbusy => congrArg Host.Outcome.next (if_pos hbusy), fun hidle => ⟨_, rfl, strikeContext_begins hidle hteams hcasts⟩,
    fun d htimer hdrain hidle hd =>
      ⟨_, exec_deadlineExpiry htimer hdrain hd, strikeContext_begins hidle hteams hcasts⟩,
    fun L hL hctx hkey hidle => ⟨fun hfind => ?_, fun core slot k T hslot hT hTctx hTl => ?_⟩, fun i k hk hready hctx => ?_⟩
  · subst hctx
    exact ⟨_, congrArg Host.Outcome.next ((strikeLaunch_eq hfind).trans (strikeKey_eq hL hkey hidle)),
      strikeBegins_beginStrike _ hteams hcasts⟩
  · subst hctx
    have hbegins := strikeBegins_beginStrike ⟨L.ctx, some L.key, L.lnum, 3⟩ hteams hcasts
    have hcores : (s.beginStrike ⟨L.ctx, some L.key, L.lnum, 3⟩).cores = s.cores := by rw [hbegins.1]
    refine ⟨_, hbegins, congrArg Host.Outcome.next ((ctlStrike_eq (ctlTeam_eq hslot hT (by rw [hTctx, hTl]; exact hidle))).trans ?_)⟩
    rw [hTl, strikeKey_eq hL hkey hidle, hcores]
  · subst hctx
    obtain ⟨hstrikes, -, -, hstores⟩ := finishStrike_frame s k
    have hframe := (dropped_strikeDropped s k).frame
    obtain ⟨hother, hrecords⟩ := ctxs_finishStrike s k
    refine ⟨s.finishStrike k, s.strikeRecords k, exec_strikeComplete hk hready, by rw [hstrikes, hframe],
      fun j T hT => finishStrike_team hteams hT, launches_finishStrike s k, hrecords, hother, fun j => ?_,
      fun L hsingle hcopies hc => ⟨?_, ?_⟩, fun h => ?_, by rw [hstores, hframe]⟩
    · simpa only [Strike.hits, and_assoc] using finishStrike_ops (k := k) hteams j
    · exact fun pas hs pa hpa i hi halone hr => byteAt_finishStrike hsingle hteams hcopies hc hs hpa hi halone hr
    · intro c hs
      have hmem := mem_strikeRecords hsingle hteams hcopies hc hs
      rwa [Launch.unwritten, ctx_of_single hsingle] at hmem
    · rw [finishStrike_eq]
      exact reportStrike_freed h

end Sys2Proof.Machine
end

section
/-! The module across resets (O54, O56): the state after reset meets the invariant, and what no other step may change. -/

namespace Sys2Proof.Machine

theorem inv_reset : Inv State.reset := ⟨rfl, fun _ _ _ _ => Nat.zero_le _, rfl, rfl, rfl⟩

/-- Settles O54: every table of the reset state is empty, and every other field is as the rules give it. -/
theorem resetState : Obligations.ResetState := by
  unfold Obligations.ResetState
  exact ⟨inv_reset, fun _ => rfl, fun _ => rfl, rfl, rfl, rfl, rfl, rfl, rfl, fun _ => rfl, rfl, rfl, rfl, rfl, rfl, fun _ => rfl, rfl,
    fun _ => rfl, fun _ => rfl, rfl, fun _ => rfl, rfl, rfl, fun _ => rfl, fun _ => rfl, fun _ => rfl, fun _ => rfl, fun _ => rfl,
    rfl, rfl, rfl, rfl, rfl, rfl, rfl, rfl⟩

/-- A passage of time moves clocks and the counts of stalled engines alone (log 2). -/
theorem elapse_frame (s : State) (cs : List Nat) :
    s.elapse cs = { s with clock := (s.elapse cs).clock, cores := (s.elapse cs).cores } := by
  unfold State.elapse
  dsimp only
  split <;> rfl

/-- Settles O56: a passage of time touches clocks alone, and every other turn keeps what `Kept` lists. -/
theorem onlyResetChangesTheModule : Obligations.OnlyResetChangesTheModule := by
  unfold Obligations.OnlyResetChangesTheModule
  intro s t hr h
  by_cases he : ∃ cs, s.turn = .elapse cs
  · obtain ⟨cs, he⟩ := he
    obtain ⟨u, hu, rfl⟩ := step_eq h
    rw [takeTurn_elapse he, elapse_frame] at hu
    cases hu
    have hk := kept_l2Trim (Kept.refl { s.begin with clock := (s.begin.elapse cs).clock, cores := (s.begin.elapse cs).cores })
    exact ⟨hk.dcmap, hk.lastseq, hk.pool, fun hne => absurd he (hne cs)⟩
  · have hk := kept_step hr (fun cs hc => he ⟨cs, hc⟩) h
    exact ⟨hk.dcmap, hk.lastseq, hk.pool, fun _ => hk.clock⟩

end Sys2Proof.Machine
end

section
/-! Stores to global and per-lane memory (O25): each part of a checked access is an unperformed store. -/

namespace Sys2Proof.Machine

/-- A store that is no release carries that of its lane's last FENCE (10 R230). -/
theorem tag_none (x : Ix) : x.tag none = fun l => if tget 0 x.W.fenced l = 0 then none else some (x.core, tget 0 x.W.fenced l - 1) := by
  funext l
  unfold Ix.tag
  cases tget 0 x.W.fenced l <;> rfl

/-- The stores of the parts of the accesses `as`, with the low bytes of the lanes' data `v` and the releases `rel` that they carry
(10 R227, R230; 11 R257; 17 R371). -/
def Ix.partStores (x : Ix) (s : State) (n : Nat) (as : List MemAcc) (v : Nat → Nat) (collect : Bool) (rel : Nat → Option (Nat × Nat)) :
    List PStore :=
  (as.flatMap MemAcc.parts).zipIdx.map fun p =>
    { x.pstore s p.2 p.1.1 ((leBytes n (v p.1.1.lane)).drop (4 * p.1.2)) with
      coll := if collect && decide (1 < (accLines as).length) then some (p.1.1.va / 128) else none
      rel := rel p.1.1.lane }

section
variable {s : State} {x : Ix} {i : Instr} {n : Nat} {as : List MemAcc} {v : Nat → Nat} {collect : Bool} {own : Option Nat}
  {body : Ix → Res} {rel : Nat → Option (Nat × Nat)}

/-- An instruction whose effect is to issue checked stores, once the leaves of their translations are kept, completes with them
unperformed. -/
theorem storesIssue (h : Starts s x i) (hx : exec i s = run i s body)
    (hb : body x = x.issueStores (x.keepLeaves s as) n as v collect own) (hrel : x.tag own = rel)
    (hroom : (collect && decide (1 < (accLines as).length)) = true → (s.collEntries x.core).length + (accLines as).length ≤ 64) :
    ∃ u t, Shared s u ∧ CompletesIn s { u with
      nextId := s.nextId + (as.flatMap MemAcc.parts).length
      stores := s.stores ++ x.partStores s n as v collect rel } t x i none x.W := by
  have hu := shared_keepLeaves x s as
  subst hrel
  have hstores : body x = .ok { x.keepLeaves s as with
      nextId := s.nextId + (as.flatMap MemAcc.parts).length
      stores := s.stores ++ x.partStores s n as v collect (x.tag own) } none := by
    rw [hb]
    unfold Ix.issueStores State.addStores Ix.partStores
    dsimp only
    rw [hu.collRoom, room_false hroom]
    simp only [hu.pstore, hu.stores, hu.nextId, List.length_map, List.length_zipIdx, Bool.false_eq_true, if_false]
  obtain ⟨t, ht⟩ := completes_other h hx hstores ((hu.warp x.w).trans (issuing_spec h.1).2.1)
  exact ⟨_, t, hu, ht⟩

end

/-- Settles O25: each instruction issues its checked stores, which `storesIssue` describes. -/
theorem memoryStores : Obligations.MemoryStores := by
  unfold Obligations.MemoryStores
  intro s x e d a o z sc gd ga o7 stores bytes glob data src
  have hbytes : memBytes z.toNat = bytes := memBytes_eq z
  have hval : x.storeVal d z.toNat = data := funext (storeVal_eq x d z)
  have hsrc : storeSrc d z.toNat = src := src_eq d z
  have hglob : ∀ off, x.gaddr a off = glob off := fun off => funext (gaddr_eq x a off)
  clear_value bytes glob data src
  subst hbytes hval hsrc
  refine ⟨fun hu as has hs => ?_, fun hu as has hs => ?_, fun hu as has hs => ?_, fun hu hwide hwait hz as has hs => ?_⟩
  · rw [← hglob] at has
    refine storesIssue hs rfl ((withOperands_usable hu).trans ?_) (tag_none x)
    simp only [has]
  · have hacc : x.privateAcc s .store (memBytes z.toNat) x.lanes (x.soff a (o.toNat * memBytes z.toNat)) = .ok as := has
    refine storesIssue hs rfl ((withOperands_usable hu).trans ?_) (tag_none x)
    simp only [hacc]
  · have haddr : ((x.W.greg ga.toNat).toNat + o7.toNat * uniBytes z) % 2 ^ 64 % 2 ^ 56 =
        ((x.W.greg ga.toNat).toNat + o7.toNat * 2 ^ z.toNat) % 2 ^ 56 := Nat.mod_mod_of_dvd _ (by decide)
    have hacc : x.globalAcc s .store (uniBytes z) [x.low] _ = .ok as := has
    refine storesIssue (n := uniBytes z) (v := fun _ => (x.W.greg gd.toNat).toNat) (collect := false) hs rfl
      ((withUniform_usable hu).trans ?_) (tag_none x)
    simp only [haddr, hacc, Bool.false_eq_true, if_false]
  · rw [← hglob] at has
    intro parts many fence rel
    have hval : x.storeVal d z.toNat = fun l => (x.src d.toNat l).toNat :=
      funext fun l => (storeVal_eq x d z l).trans (if_neg hz)
    have hrel : x.tag (some s.nextId) = rel := rfl
    refine storesIssue (v := fun l => (x.src d.toNat l).toNat) (collect := false) hs rfl ((withOperands_usable hu).trans ?_) hrel
    simp only [has, hwait, hwide, hval, Bool.false_eq_true, if_false]

end Sys2Proof.Machine
end

section
/-! Stage rings (O33): the lines of a scratch range, what emptying them and waking the paths at a ring change, and the five
instructions. -/

namespace Sys2Proof.Machine

/-! ## The lines of a range (09 R211, R214) -/

/-- A range that begins at a line and is `m` lines long has those lines. -/
theorem mem_linesIn {T : Team} {o m : Nat} (ho : o % 128 = 0) {p : Nat × Nat × Nat} :
    p ∈ T.linesIn o (128 * m) ↔ ∃ i, i < m ∧ T.scratchAt (o + 128 * i) 1 = some p := by
  unfold Team.linesIn
  split
  · next h0 =>
    obtain rfl : m = 0 := by omega
    simp
  · next h0 =>
    have hcount : (o + 128 * m - 1) / 128 - o / 128 + 1 = m := by omega
    have haddr : ∀ i, (o / 128 + i) * 128 = o + 128 * i := fun i => by omega
    simp only [hcount, haddr, List.mem_filterMap, List.mem_range]

/-- Emptying a range changes the bits of its lines, and the loads that had found one full have read it (09 R214). -/
theorem emptyRange_spec (T : Team) (o n : Nat) (s : State) :
    s.emptyRange T o n = { s with empty := (s.emptyRange T o n).empty, loads := (s.emptyRange T o n).loads } ∧
    (s.emptyRange T o n).loads =
      ((T.linesIn o n).foldl (fun u p => u.settle fun loc => isScratch loc && decide (locLine loc = lineKey p)) s).loads ∧
    ∀ j, tget false (s.emptyRange T o n).empty j = true ↔ (∃ p ∈ T.linesIn o n, lineKey p = j) ∨ tget false s.empty j = true := by
  obtain ⟨hframe, hloads, hempty⟩ := empties_spec ((T.linesIn o n).map fun p => (0, p)) s
  simp only [List.foldl_map] at hframe hloads hempty
  refine ⟨hframe, hloads, fun j => (congrArg (· = true) (hempty j)).to_iff.trans ?_⟩
  have hex : (∃ p ∈ (T.linesIn o n).map fun p => (0, p), lineKey p.2 = j) ↔ ∃ p ∈ T.linesIn o n, lineKey p = j := by
    simp only [List.mem_map, exists_exists_and_eq_and]
  rw [if_congr hex rfl rfl]
  split
  · next h => exact iff_of_true rfl (.inl h)
  · next h => rw [or_iff_right h]

/-- No line of a range lies in a bank in mash mode. -/
theorem mashLine_none {s : State} {T : Team} {o m : Nat} (ho : o % 128 = 0)
    (h : ∀ i p, i < m → T.scratchAt (o + 128 * i) 1 = some p → (s.bankOf p).mash = false) : s.mashLine T o (128 * m) = none := by
  unfold State.mashLine
  rw [List.find?_eq_none.mpr fun p hp => ?_]
  · rfl
  · obtain ⟨i, hi, hp⟩ := (mem_linesIn ho).mp hp
    rw [h i p hi hp]
    decide

/-! ## Waking the paths at a ring (16 R343) -/

/-- A path that waits at ring `q` executes its instruction again. -/
def Path.ringWoken (q : Nat) (P : Path) : Path :=
  match P.block with
  | some (.racq r) => if r = q then { P with block := some .woken } else P
  | some (.rwait r _ _) => if r = q then { P with block := some .woken } else P
  | _ => P

/-- A path but for its block is as it was. -/
theorem ringWoken_eq (q : Nat) (P : Path) : P.ringWoken q = { P with block := (P.ringWoken q).block } := by
  unfold Path.ringWoken
  split
  · split <;> rfl
  · split <;> rfl
  · rfl

@[simp] theorem ringWoken_lanes (q : Nat) (P : Path) : (P.ringWoken q).lanes = P.lanes := by rw [ringWoken_eq]

theorem ringWoken_ringWoken (q : Nat) (P : Path) : (P.ringWoken q).ringWoken q = P.ringWoken q := by
  unfold Path.ringWoken
  grind

theorem wakeRing_eq (W : Warp) (q : Nat) : W.wakeRing q = { W with paths := W.paths.map (Path.ringWoken q) } := by
  unfold Warp.wakeRing
  refine congrArg (fun ps => { W with paths := ps }) (List.map_congr_left fun P _ => ?_)
  unfold Path.ringWoken
  grind

theorem wakeRing_wakeRing (W : Warp) (q : Nat) : (W.wakeRing q).wakeRing q = W.wakeRing q := by
  simp only [wakeRing_eq, List.map_map, Function.comp_def, ringWoken_ringWoken]

/-- Waking a team's paths at a ring changes its warps alone, each as `Warp.wakeRing` says. -/
theorem wakeRings_spec (q : Nat) : ∀ (ws : List Nat) (s : State),
    let u := ws.foldl (fun s w => s.modWarp w fun W => W.wakeRing q) s
    u = { s with warps := u.warps } ∧ ∀ v, u.warp v = (s.warp v).map fun W => if v ∈ ws then W.wakeRing q else W
  | [], s => ⟨rfl, fun v => by simp⟩
  | w :: ws, s => by
    obtain ⟨hframe, hwarp⟩ := wakeRings_spec q ws (s.modWarp w fun W => W.wakeRing q)
    have hmod := modWarp_frame s w fun W => W.wakeRing q
    intro u
    refine ⟨hframe.trans (congrArg (fun m : State => { m with warps := u.warps }) hmod), fun v => (hwarp v).trans ?_⟩
    rw [State.modWarp_warp]
    by_cases hv : v = w
    · subst hv
      rw [if_pos rfl, Option.map_map]
      refine congrArg (Option.map · (s.warp v)) (funext fun W => ?_)
      simp only [Function.comp_apply, wakeRing_wakeRing, ite_self, List.mem_cons_self, if_true]
    · rw [if_neg hv]
      simp only [List.mem_cons, hv, false_or]

theorem wakeRing_spec (s : State) (T : Team) (q : Nat) : s.wakeRing T q = { s with warps := (s.wakeRing T q).warps } ∧
    ∀ v, (s.wakeRing T q).warp v = (s.warp v).map fun W => if v ∈ T.slots then W.wakeRing q else W := wakeRings_spec q T.slots s

/-- Where the team is at its key, its ring is replaced in the table of teams. -/
theorem setRing_eq {s : State} {k q : Nat} {T : Team} (h : s.team k = some T) (r : Ring) :
    s.setRing k q r = { s with teams := tput none s.teams k (some { T with rings := tput none T.rings q (some r) }) } :=
  State.modTeam_eq h _

/-! ## Paths that execute their ring instruction again, or go on (16 R343 to R346) -/

theorem wakeRing_path (W : Warp) (q r : Nat) : (W.wakeRing q).path r = (W.path r).map (Path.ringWoken q) := by
  have hlow : (fun P : Path => decide (lowest P.lanes = r)) ∘ Path.ringWoken q = fun P : Path => decide (lowest P.lanes = r) :=
    funext fun P => by rw [Function.comp_apply, ringWoken_lanes]
  rw [wakeRing_eq]
  exact List.find?_map.trans (by rw [hlow]; rfl)

/-- The issuing path, woken at a ring where its warp is one of the team's. -/
def Ix.ringWoken (x : Ix) (q : Nat) : Ix :=
  if x.w ∈ x.T.slots then { x with P := x.P.ringWoken q, W := { x.W with paths := x.W.paths.map (Path.ringWoken q) } } else x

section
variable {s : State} {x : Ix} {i : Instr} {body : Ix → Res}

/-- An instruction that blocks its path at itself changes only the path's block, and leaves its scene. -/
theorem exec_again {b : Block} (h : Starts s x i) (hx : exec i s = run i s body) (hb : body x = .again b) :
    exec i s = .next ((s.setWarp x.w { x.W.modPath x.low (fun P => { P with block := some b }) with running := none }).wakeYields
      x.w x.low) := by
  rw [hx, run_starts h, hb]
  exact congrArg (fun u : State => Host.Outcome.next (u.wakeYields x.w x.low)) (State.modWarp_eq (issuing_spec h.1).2.1 _)

/-- An instruction that wakes the paths of its team at a ring, its own among them, completes. -/
theorem completes_ringWoken {u : State} {q : Nat} (h : Starts s x i) (hx : exec i s = run i s body) (hb : body x = .ok u none)
    (hu : u.warp x.w = some (if x.w ∈ x.T.slots then x.W.wakeRing q else x.W)) :
    ∃ t, CompletesIn s u t (x.ringWoken q) i none x.W := by
  obtain ⟨-, -, hrun, hpath, -⟩ := issuing_spec h.1
  by_cases hmem : x.w ∈ x.T.slots
  · have hy : x.ringWoken q = { x with P := x.P.ringWoken q, W := x.W.wakeRing q } := by
      unfold Ix.ringWoken
      rw [if_pos hmem, wakeRing_eq]
    rw [hy]
    have hlow : lowest (x.P.ringWoken q).lanes = x.low := congrArg lowest (ringWoken_lanes q x.P)
    have hskid : Ix.skids { x with P := x.P.ringWoken q, W := x.W.wakeRing q } = x.skids := by
      unfold Ix.skids Ix.words
      dsimp only
      rw [ringWoken_eq q x.P]
    have hretire : retire x i u none = retire { x with P := x.P.ringWoken q, W := x.W.wakeRing q } i u none := by
      unfold retire
      rw [hskid]
      simp only [Ix.low, ringWoken_lanes]
    obtain ⟨ho, V, hV, hbody, hVpath, hVrun, hother⟩ := retire_spec (x := { x with P := x.P.ringWoken q, W := x.W.wakeRing q })
      (i := i) (l := none) (hu.trans (congrArg some (if_pos hmem))) (by
        rw [Ix.low, hlow, wakeRing_path, hpath]
        rfl) (by rw [wakeRing_eq]; exact hrun.trans (congrArg some hlow.symm))
    refine ⟨retire x i u none, ?_, hretire ▸ ho, V, hretire ▸ hV, hbody.trans ?_, hVpath, hVrun, hother⟩
    · rw [hx, run_starts h, hb]
      rfl
    · rw [wakeRing_eq]
      rfl
  · have hy : x.ringWoken q = x := if_neg hmem
    rw [hy]
    exact completes_other h hx hb (hu.trans (congrArg some (if_neg hmem)))

end

/-! ## The instructions (16 R343 to R347) -/

section
variable {s : State} {x : Ix}

/-- The bits of the lines that emptying `n` lines from `o` sets, as the rules name them. -/
theorem emptyRange_empty (T : Team) {o n : Nat} (ho : o % 128 = 0) (j : Nat) :
    tget false (s.emptyRange T o (128 * n)).empty j = true ↔
      (∃ i p, i < n ∧ T.scratchAt (o + 128 * i) 1 = some p ∧ lineKey p = j) ∨ tget false s.empty j = true := by
  rw [(emptyRange_spec T o (128 * n) s).2.2 j]
  simp only [mem_linesIn ho]
  grind

/-- RSET that meets no fault configures its ring, empties its lines and wakes the paths at it. -/
theorem rset_completes {e : Bool} {q : BitVec 3} {a b : BitVec 6} {base ssize scount exp : Nat}
    (hu : UsableG s x [a.toNat, b.toNat]) (hbase : base < 2 ^ 24) (hline : base % 128 = 0) (hs1 : 1 ≤ ssize) (hs2 : ssize ≤ 2 ^ 13)
    (hc1 : 1 ≤ scount) (hc2 : scount ≤ 32) (he1 : 1 ≤ exp) (he2 : exp < 2 ^ 8)
    (ha : (x.W.greg a.toNat).toNat = base + 2 ^ 32 * (ssize - 1)) (hb : (x.W.greg b.toNat).toNat = scount - 1 + 2 ^ 8 * exp)
    (hplace : x.T.scratchAt base (128 * ssize * scount) ≠ none)
    (hmash : s.mashLine x.T base (128 * ssize * scount) = none)
    (hres : ∀ r, tget none x.T.rings q.toNat = some r → ∀ i, i < r.scount → (r.slot i).res = 0) (hout : x.scratchOut s = false) :
    ∃ body, exec (.rset e q a b) s = run (.rset e q a b) s body ∧
      body x = .ok (((s.emptyRange x.T base (128 * ssize * scount)).setRing x.W.team q.toNat
        ⟨base, ssize, scount, exp, scount, 0, false, 0, List.replicate scount ⟨.free, false, 0, 0⟩⟩).wakeRing x.T q.toNat) none := by
  refine ⟨_, rfl, (withUniform_usable hu).trans ?_⟩
  dsimp only
  rw [ha, hb]
  have h1 : (base + 2 ^ 32 * (ssize - 1)) % 2 ^ 24 = base := by omega
  have h2 : (base + 2 ^ 32 * (ssize - 1)) / 2 ^ 32 % 2 ^ 13 + 1 = ssize := by omega
  have h3 : (scount - 1 + 2 ^ 8 * exp) % 2 ^ 5 + 1 = scount := by omega
  have h4 : (scount - 1 + 2 ^ 8 * exp) / 2 ^ 8 % 2 ^ 8 = exp := by omega
  rw [h1, h2, h3, h4, hmash, hout]
  rw [if_neg (by omega), if_neg (by omega), if_neg (by simpa using hplace)]
  cases hr : x.T.ring q.toNat with
  | none => rfl
  | some r =>
    have hidle : (List.range r.scount).find? (fun i => decide (0 < (r.slot i).res)) = none :=
      List.find?_eq_none.mpr fun i hi => by
        rw [hres r hr i (List.mem_range.mp hi)]
        decide
    dsimp only
    rw [hidle]
    rfl

theorem withSlot_eq {q : BitVec 3} {slot : Nat} {r : Ring} {k : Ring → Res} (hr : tget none x.T.rings q.toNat = some r)
    (hslot : slot < r.scount) : x.withSlot s q slot k = k r := by
  unfold Ix.withSlot Team.ring
  rw [hr]
  exact if_neg (by omega)

/-- RACQ of a free slot opens it. -/
theorem racq_completes {d : BitVec 6} {q : BitVec 3} {r : Ring} (hu : UsableG s x [d.toNat])
    (hr : tget none x.T.rings q.toNat = some r) (hs : Starts s x (.racq d q)) (hfree : (r.slot r.ap).st = .free) :
    ∃ t, CompletesIn s { s with teams := tput none s.teams x.W.team (some { x.T with rings := tput none x.T.rings q.toNat (some { r with
        slots := r.slots.set r.ap ⟨.opened, r.phase, 0, 0⟩, free := r.free - 1, ap := (r.ap + 1) % r.scount
        phase := if (r.ap + 1) % r.scount = 0 then !r.phase else r.phase }) }) } t x (.racq d q) none
      (x.W.setG d.toNat (BitVec.ofNat 64 (r.ap + if r.phase then 256 else 0))) := by
  have hphase : 256 * r.phase.toNat = if r.phase then 256 else 0 := by cases r.phase <;> rfl
  refine completes_in hs rfl ((withUniform_usable hu).trans ?_) rfl (by rw [setG_eq]) (by rw [setG_eq])
  unfold Team.ring
  rw [hr]
  dsimp only
  rw [if_neg (by rw [hfree]; decide), hphase]
  exact congrArg (Res.ok · none) (setRing_eq (s := s.setWarp x.w _) (issuing_spec hs.1).2.2.2.2 _)

/-- An arrival at an open slot, with the slot filled where it is the last (16 R345). -/
theorem arrive_eq {r : Ring} {i : Nat} (hopen : (r.slot i).st = .opened) : r.arrive i = { r with
    filled := if (r.slot i).arr + 1 = r.exp then r.filled + 1 else r.filled
    slots := r.slots.set i { r.slot i with
      arr := (r.slot i).arr + 1, st := if (r.slot i).arr + 1 = r.exp then .filled else .opened } } := by
  unfold Ring.arrive Ring.setSlot
  dsimp only
  split
  · rfl
  · rw [hopen]

/-- RPUB at an open slot that takes one more arrival counts it. -/
theorem rpub_completes {e : Bool} {q : BitVec 3} {a : BitVec 6} {r : Ring} {v : Nat} (hu : UsableG s x [a.toNat])
    (hv : (x.W.greg a.toNat).toNat = v) (hr : tget none x.T.rings q.toNat = some r) (h5 : v < 2 ^ 5) (hslot : v < r.scount)
    (hopen : (r.slot v).st = .opened) (hroom : (r.slot v).arr + (r.slot v).res < r.exp) (hwait : x.releaseWaits s 1 = false)
    (hs : Starts s x (.rpub e a q)) :
    ∃ t, CompletesIn s (s.setRing x.W.team q.toNat (r.arrive v)) t x (.rpub e a q) none x.W := by
  have hteam := (issuing_spec hs.1).2.2.2.2
  have htakes : r.takes v = true := by
    unfold Ring.takes
    rw [hopen, decide_eq_true hroom]
    rfl
  refine completes_other hs rfl ((withUniform_usable hu).trans ?_) (by rw [setRing_eq hteam]; exact (issuing_spec hs.1).2.1)
  dsimp only
  rw [hv, if_neg (by omega), withSlot_eq hr hslot, htakes, hwait]
  rfl

/-- The value that RWAIT takes from its register: a slot and a phase. -/
theorem rwait_body {q : BitVec 3} {a : BitVec 6} {r : Ring} {i : Nat} {ph : Bool} (hu : UsableG s x [a.toNat])
    (hr : tget none x.T.rings q.toNat = some r) (h5 : i < 2 ^ 5) (hslot : i < r.scount)
    (hv : (x.W.greg a.toNat).toNat = i + if ph then 2 ^ 8 else 0) :
    ∃ body, exec (.rwait a q) s = run (.rwait a q) s body ∧ body x =
      if (r.slot i).st = .filled ∧ (r.slot i).ph = ph then .ok (s.l1Drop x.core fun e => decide (e.ctx = x.T.ctx)) none
      else .again (.rwait q.toNat i ph) := by
  refine ⟨_, rfl, (withUniform_usable hu).trans ?_⟩
  dsimp only
  rw [hv]
  have hi : (i + if ph then 2 ^ 8 else 0) % 2 ^ 5 = i := by cases ph <;> simp <;> omega
  have hph : decide ((i + if ph then 2 ^ 8 else 0) / 2 ^ 8 % 2 = 1) = ph := by cases ph <;> simp <;> omega
  have hfits : (i + if ph then 2 ^ 8 else 0) = i + 2 ^ 8 * ((i + if ph then 2 ^ 8 else 0) / 2 ^ 8 % 2) := by
    cases ph <;> simp <;> omega
  rw [hi, hph, if_neg (not_not.mpr hfits), withSlot_eq hr hslot]

/-- RFREE of a filled slot frees it and empties its lines. -/
theorem rfree_completes {e : Bool} {q : BitVec 3} {a : BitVec 6} {r : Ring} {v : Nat} (hu : UsableG s x [a.toNat])
    (hv : (x.W.greg a.toNat).toNat = v) (hr : tget none x.T.rings q.toNat = some r) (h5 : v < 2 ^ 5) (hslot : v < r.scount)
    (hfilled : (r.slot v).st = .filled) (hmash : s.mashLine x.T (r.base + 128 * r.ssize * v) (128 * r.ssize) = none)
    (hout : x.scratchOut s = false) (hs : Starts s x (.rfree e a q)) :
    ∃ t, CompletesIn s ((s.emptyRange x.T (r.base + 128 * r.ssize * v) (128 * r.ssize)).setRing x.W.team q.toNat { r with
      free := r.free + 1, filled := r.filled - 1, slots := r.slots.set v { r.slot v with st := .free } }) t x (.rfree e a q) none x.W := by
  obtain ⟨-, hwarp, -, -, hteam⟩ := issuing_spec hs.1
  obtain ⟨hframe, -, -⟩ := emptyRange_spec x.T (r.base + 128 * r.ssize * v) (128 * r.ssize) s
  refine completes_other hs rfl ((withUniform_usable hu).trans ?_) ?_
  · dsimp only
    rw [hv, if_neg (by omega), withSlot_eq hr hslot, if_neg (not_not.mpr hfilled)]
    unfold Ring.range
    rw [hmash, hout]
    rfl
  · rw [setRing_eq (by rw [hframe]; exact hteam), hframe]
    exact hwarp

end

/-- Settles O33: each instruction by its lemma above. -/
theorem stageRings : Obligations.StageRings := by
  unfold Obligations.StageRings
  intro s x e q a b d u v rings empties storage settled woken again
  refine ⟨fun base ssize scount exp hu hbase hline hs1 hs2 hc1 hc2 he1 he2 ha hb hplace hstorage hres hout hs => ?_,
    fun r hu hr hs => ⟨fun hfree => ?_, fun hfree => ?_⟩, fun r hu hr h5 hslot hopen hroom hwait hs => ?_,
    fun r i ph hu hr h5 hslot hv hs => ?_, fun r hu hr h5 hslot hfilled hline hsize hout hstorage hs => ?_⟩
  · obtain ⟨-, hwarp, -, -, hteam⟩ := issuing_spec hs.1
    have hsize : 128 * ssize * scount = 128 * (ssize * scount) := Nat.mul_assoc _ _ _
    obtain ⟨body, hx, hbody⟩ := rset_completes (e := e) hu hbase hline hs1 hs2 hc1 hc2 he1 he2 ha hb hplace
      (by rw [hsize]; exact mashLine_none hline hstorage) hres hout
    obtain ⟨hframe, hloads, -⟩ := emptyRange_spec x.T base (128 * ssize * scount) s
    have hempty := emptyRange_empty (s := s) x.T (n := ssize * scount) hline
    rw [← hsize] at hempty
    generalize s.emptyRange x.T base (128 * ssize * scount) = E at hbody hframe hloads hempty
    rw [setRing_eq (by rw [hframe]; exact hteam)] at hbody
    obtain ⟨hwframe, hwarps⟩ := wakeRing_spec { E with teams := tput none E.teams x.W.team (some { x.T with
      rings := tput none x.T.rings q.toNat (some ⟨base, ssize, scount, exp, scount, 0, false, 0,
        List.replicate scount ⟨.free, false, 0, 0⟩⟩) }) } x.T q.toNat
    generalize State.wakeRing _ x.T q.toNat = U at hbody hwframe hwarps
    have hsame : ∀ w, U.warp w = (s.warp w).map fun W => if w ∈ x.T.slots then W.wakeRing q.toNat else W := by
      rw [hframe] at hwarps
      exact hwarps
    obtain ⟨t, ht⟩ := completes_ringWoken (q := q.toNat) hs hx hbody (by rw [hsame, hwarp]; rfl)
    have hU : U = { s with empty := U.empty, loads := U.loads, teams := U.teams, warps := U.warps } := by rw [hwframe, hframe]
    have htU : t = { U with warps := t.warps } := ht.2.1.1
    have hte : t.empty = E.empty := by rw [htU, hwframe]
    have htl : t.loads = E.loads := by rw [htU, hwframe]
    refine ⟨t, U, ht, fun j => hte ▸ hempty j, htl.trans hloads, ?_, fun w => ?_⟩
    · rw [hte, htl, hwframe, hframe]
    · rw [hsame]
      simp only [wakeRing_eq]
      rfl
  · obtain ⟨t, ht⟩ := racq_completes hu hr hs hfree
    refine ⟨t, _, ht, setG_eq _ _ _, fun n => ?_⟩
    rw [greg_setG]
    by_cases h63 : n = 63
    · rw [if_pos h63, if_neg fun h => h.2 h63, h63]
      rfl
    · simp only [h63, if_false, ne_eq, not_false_eq_true, and_true]
  · refine exec_again hs rfl ((withUniform_usable hu).trans ?_)
    unfold Team.ring
    rw [hr]
    exact if_pos hfree
  · obtain ⟨t, ht⟩ := rpub_completes hu rfl hr h5 hslot hopen hroom hwait hs
    rw [setRing_eq (issuing_spec hs.1).2.2.2.2, arrive_eq hopen] at ht
    exact ⟨t, ht⟩
  · obtain ⟨body, hx, hbody⟩ := rwait_body hu hr h5 hslot hv
    refine ⟨fun hst hph => ?_, fun hne => exec_again hs hx (hbody.trans (if_neg ?_))⟩
    · rw [if_pos ⟨hst, hph⟩] at hbody
      obtain ⟨t, ht⟩ := completes_other hs hx hbody (issuing_spec hs.1).2.1
      have hl1 : t.l1 = (s.l1Drop x.core fun e => decide (e.ctx = x.T.ctx)).l1 := by rw [ht.2.1.1]
      refine ⟨t, hl1 ▸ ht, fun L => ?_⟩
      rw [hl1]
      simp [State.l1Drop, imp_iff_not_or]
    · rintro ⟨hst, hph⟩
      exact hne.elim (· hst) (· hph)
  · have hline' : (r.base + 128 * r.ssize * u) % 128 = 0 := by
      rw [Nat.mul_assoc, Nat.add_mul_mod_self_left]
      exact hline
    obtain ⟨t, ht⟩ := rfree_completes hu rfl hr h5 hslot hfilled (mashLine_none hline' hstorage) hout hs
    obtain ⟨hframe, hloads, -⟩ := emptyRange_spec x.T (r.base + 128 * r.ssize * u) (128 * r.ssize) s
    have hempty := emptyRange_empty (s := s) x.T (n := r.ssize) hline'
    rw [setRing_eq (by rw [hframe]; exact (issuing_spec hs.1).2.2.2.2)] at ht
    have htE := ht.2.1.1
    have hte := congrArg State.empty htE
    have htl := congrArg State.loads htE
    refine ⟨t, ?_, fun j => ?_, ?_⟩
    · rw [hte, htl]
      rw [hframe] at ht
      exact ht
    · rw [hte]
      exact hempty j
    · exact htl.trans hloads

end Sys2Proof.Machine
end

section
/-! Control of translation (O46): invalidations, the registers of a context, MEMSPLIT and TARENA. -/

namespace Sys2Proof.Machine

/-! ## Recalling every line (09 R203, R220) -/

@[simp] theorem dirty_recall (s : State) (line pa : Nat) :
    tget none (s.recall line).dirty pa = if pa / 128 = line then none else tget none s.dirty pa := dirty_writeBack s line pa

@[simp] theorem dir_recall (s : State) (line l : Nat) :
    tget LineDir.zero (s.recall line).dir l = if l = line then LineDir.zero else tget LineDir.zero s.dir l := by
  show tget LineDir.zero (tput LineDir.zero (s.writeBack line).dir line LineDir.zero) l = _
  rw [tget_tput, dir_writeBack]

theorem dirty_foldl_recall (pa : Nat) : ∀ (lines : List Nat) (s : State),
    tget none (lines.foldl State.recall s).dirty pa = if pa / 128 ∈ lines then none else tget none s.dirty pa
  | [], _ => by simp
  | line :: lines, s => by
    rw [List.foldl_cons, dirty_foldl_recall pa lines, dirty_recall]
    by_cases h : pa / 128 ∈ lines <;> simp [h]

theorem dir_foldl_recall (l : Nat) : ∀ (lines : List Nat) (s : State),
    tget LineDir.zero (lines.foldl State.recall s).dir l = if l ∈ lines then LineDir.zero else tget LineDir.zero s.dir l
  | [], _ => by simp
  | line :: lines, s => by
    rw [List.foldl_cons, dir_foldl_recall l lines, dir_recall]
    by_cases h : l ∈ lines <;> simp [h]

theorem evicted_foldl {β : Type} {f : State → β → State} (h : ∀ s b, Evicted s (f s b)) :
    ∀ (l : List β) (s : State), Evicted s (l.foldl f s)
  | [], s => .refl s
  | b :: l, s => (h s b).trans (evicted_foldl h l (f s b))

/-- When every line has left every L2, no byte is unwritten and no die holds a line. -/
theorem recallAll_spec (s : State) : Evicted s s.recallAll ∧ (∀ pa, tget none s.recallAll.dirty pa = none) ∧
    ∀ l, tget LineDir.zero s.recallAll.dir l = LineDir.zero := by
  unfold State.recallAll
  refine ⟨evicted_foldl evicted_recall _ s, fun pa => ?_, fun l => ?_⟩
  · rw [dirty_foldl_recall]
    by_cases h : tget none s.dirty pa = none
    · rw [h, ite_self]
    · obtain ⟨e, he, hpa⟩ := List.mem_map.mp (mem_keys_of_tget h)
      exact if_pos (List.mem_eraseDups.mpr (List.mem_append_left _ (List.mem_map.mpr ⟨e, he, by rw [hpa]⟩)))
  · rw [dir_foldl_recall]
    by_cases h : tget LineDir.zero s.dir l = LineDir.zero
    · rw [h, ite_self]
    · exact if_pos (List.mem_eraseDups.mpr (List.mem_append_right _ (mem_keys_of_tget h)))

/-- A new IPOOL, after every line has left every L2 (log 21). -/
theorem setSplit_spec {s : State} {v : BitVec 7} (h : s.ipool ≠ v) : ∃ u, Evicted s u ∧ (∀ pa, tget none u.dirty pa = none) ∧
    (∀ l, tget LineDir.zero u.dir l = LineDir.zero) ∧ s.setSplit v = { u with ipool := v } := by
  obtain ⟨he, hdirty, hdir⟩ := recallAll_spec s
  exact ⟨_, he, hdirty, hdir, if_neg h⟩

/-! ## Invalidations (09 R210) -/

section
variable {s : State} {n : Nat}

/-- A write of CXINV with a legal scope starts an invalidation where none runs. -/
theorem writeCxinv_eq {scope : Nat} (hscope : scope < 3) (iva : BitVec 40) : s.writeCxinv n (iva.toNat * 2 ^ 16 + scope) true =
    if (s.ctx n).ibusy then s
    else { s with ctxs := tput Ctx.zero s.ctxs n { s.ctx n with iscope := BitVec.ofNat 2 scope, iva := iva, ibusy := true } } := by
  have hs : BitVec.ofNat 2 (iva.toNat * 2 ^ 16 + scope) = BitVec.ofNat 2 scope := BitVec.eq_of_toNat_eq (by
    simp only [BitVec.toNat_ofNat]
    omega)
  have hi : BitVec.ofNat 40 ((iva.toNat * 2 ^ 16 + scope) / 2 ^ 16) = iva := BitVec.eq_of_toNat_eq (by
    rw [BitVec.toNat_ofNat]
    have := iva.isLt
    omega)
  have hb : (true && decide ((iva.toNat * 2 ^ 16 + scope) % 4 ≠ 3)) = true := by
    rw [Bool.true_and, decide_eq_true_eq]
    omega
  unfold State.writeCxinv State.modCtx
  dsimp only
  rw [hs, hi, hb]

/-- The pages that an invalidation of a scope names, small ones and large ones (09 R210). -/
theorem invalHit_iff (scope iva page : Nat) : invalHit scope iva page = true ↔
    if scope = 0 then page = iva else if scope = 1 then page / 32 = iva / 32 else True := by
  unfold invalHit
  split <;> simp_all

theorem tlbHit_iff (e : TlbEntry) (scope iva : Nat) : e.hit scope iva = true ↔
    if e.large then (if scope = 2 then True else e.page / 32 = iva / 32)
    else if scope = 0 then e.page = iva else if scope = 1 then e.page / 32 = iva / 32 else True := by
  unfold TlbEntry.hit
  split
  · split <;> simp_all
  · exact invalHit_iff scope iva e.page

/-- A load of the invalidated range that is under way. -/
theorem invalLoad_iff (scope iva : Nat) (o : Outst) : (decide (o.ctx = n) && decide (o.kind = .load) && o.addrs.any fun a =>
    invalHit scope iva (a.1 / 2 ^ 16)) = true ↔ o.ctx = n ∧ o.kind = .load ∧ ∃ a ∈ o.addrs, invalHit scope iva (a.1 / 2 ^ 16) = true := by
  rw [Bool.and_eq_true, Bool.and_eq_true, decide_eq_true_eq, decide_eq_true_eq, List.any_eq_true, and_assoc]

/-- The end of an invalidation: the entries of its range leave, and the loads of it that are under way go past L1. -/
theorem invalidationComplete_eq (h : (s.ctx n).ibusy = true) :
    let hit := invalHit (s.ctx n).iscope.toNat (s.ctx n).iva.toNat
    exec (.invalidationComplete n) s = .next { s with
      ctxs := tput Ctx.zero s.ctxs n { s.ctx n with ibusy := false }
      tlb := s.tlb.filter fun e => !(decide (e.ctx = n) && e.hit (s.ctx n).iscope.toNat (s.ctx n).iva.toNat)
      l1 := s.l1.filter fun e => !(decide (e.ctx = n) && hit (e.vline / 512))
      loads := s.loads.map fun o => if decide (o.ctx = n) && decide (o.kind = .load) && o.addrs.any fun a => hit (a.1 / 2 ^ 16)
        then { o with nc := true } else o } := by
  refine congrArg Host.Outcome.next ((if_neg ?_).trans rfl)
  rw [h]
  decide

/-! ## Registers (09 R204, R209; 12 R274) -/

theorem ctxUsed_iff : s.ctxUsed n = true ↔ s.resident n = true ∨ ∃ L ∈ s.launches, L.ctx = n := by
  unfold State.ctxUsed
  simp only [Bool.or_eq_true, List.any_eq_true, decide_eq_true_eq]

/-- The fields of a register are the bits that its write takes. -/
theorem ofNat_div_toNat (v : DWord) (lo len : Nat) : BitVec.ofNat len (v.toNat / 2 ^ lo) = v.extractLsb' lo len :=
  BitVec.eq_of_toNat_eq (by rw [BitVec.toNat_ofNat, BitVec.extractLsb'_toNat, Nat.shiftRight_eq_div_pow])

theorem ofNat_mod_toNat (v : DWord) (len : Nat) : BitVec.ofNat len (v.toNat % 2 ^ len) = v.extractLsb' 0 len := by
  rw [← ofNat_div_toNat, Nat.pow_zero, Nat.div_one]
  exact BitVec.eq_of_toNat_eq (by rw [BitVec.toNat_ofNat, BitVec.toNat_ofNat, Nat.mod_mod])

theorem arenaFits_iff (slabs ipool : Nat) : arenaFits slabs ipool = true ↔ slabs * 2 ^ 27 ≤ (96 - ipool) * 2 ^ 30 :=
  decide_eq_true_iff

/-- MEMSPLIT takes a value that every TARENA leaves room for, before any context is enabled. -/
theorem writeMemsplit_eq (ipool : Nat) : s.writeMemsplit ipool =
    if s.everEn = false ∧ ipool ≤ 96 ∧ ∀ h, h < 8 → (tget 0 s.slabs h).toNat * 2 ^ 27 ≤ (96 - ipool) * 2 ^ 30
    then s.setSplit (BitVec.ofNat 7 ipool) else s := by
  unfold State.writeMemsplit
  rw [← ite_not (p := _ ∧ _)]
  refine if_congr ?_ rfl rfl
  simp only [Bool.or_eq_true, Bool.not_eq_true', decide_eq_true_eq, ← Bool.not_eq_true, List.all_eq_true, List.mem_range,
    arenaFits_iff, not_and_or, not_not, Nat.not_le, or_assoc]

/-- TARENA takes a value that fits the near pool, before any context is enabled. -/
theorem writeTarena_eq (hub slabs : Nat) : s.writeTarena hub slabs =
    if s.everEn = false ∧ slabs ≤ 32 ∧ slabs * 2 ^ 27 ≤ (96 - s.ipool.toNat) * 2 ^ 30
    then { s with slabs := tput 0 s.slabs hub (BitVec.ofNat 6 slabs) } else s := by
  unfold State.writeTarena
  rw [← ite_not (p := _ ∧ _)]
  refine if_congr ?_ rfl rfl
  simp only [Bool.or_eq_true, Bool.not_eq_true', decide_eq_true_eq, ← Bool.not_eq_true, arenaFits_iff, not_and_or, not_not,
    Nat.not_le, or_assoc]
  rfl

/-- The registers of a context that runs nothing take what is written (log 17). -/
theorem writeCx_eq (hused : s.ctxUsed n = false) (v : DWord) : let C := s.ctx n
    s.writeCx n 0 v.toNat = { s with
      ctxs := tput Ctx.zero s.ctxs n { C with en := v.getLsbD 0, root := v.extractLsb' 13 39 }, everEn := s.everEn || v.getLsbD 0 } ∧
    s.writeCx n 1 v.toNat = { s with ctxs := tput Ctx.zero s.ctxs n { C with pbase := v.extractLsb' 45 11 } } ∧
    s.writeCx n 2 v.toNat = { s with ctxs := tput Ctx.zero s.ctxs n { C with phw0 := v.extractLsb' 0 15 } } ∧
    s.writeCx n 3 v.toNat = { s with ctxs := tput Ctx.zero s.ctxs n { C with rstride := v.extractLsb' 21 31 } } := by
  have hphw : BitVec.ofNat 15 v.toNat = v.extractLsb' 0 15 := by rw [← ofNat_div_toNat, Nat.pow_zero, Nat.div_one]
  unfold State.writeCx State.modCtx
  simp only [hused, Bool.false_eq_true, if_false, ofNat_div_toNat, hphw, BitVec.testBit_toNat, and_self]

end

/-- Settles O46: each event is a write of a register, or the end of an invalidation. -/
theorem translationControl : Obligations.TranslationControl := by
  unfold Obligations.TranslationControl
  intro s n hub iva v C sets
  have hinval : ∀ scope, scope < 3 → ∀ i, exec i s = .next (s.writeCxinv n (iva.toNat * 2 ^ 16 + scope) true) →
      (C.ibusy = true → exec i s = .next s) ∧
      (C.ibusy = false → exec i s = .next (sets { C with iscope := BitVec.ofNat 2 scope, iva := iva, ibusy := true })) := by
    intro scope hscope i hi
    rw [hi, writeCxinv_eq hscope]
    refine ⟨fun h => ?_, fun h => ?_⟩
    · rw [show (s.ctx n).ibusy = true from h]
      rfl
    · rw [show (s.ctx n).ibusy = false from h]
      rfl
  refine ⟨fun e he => ?_, fun hidle => ?_, fun hbusy => ?_, ⟨fun hused r => ?_, fun hused => ?_⟩, ?_, ?_⟩
  · simp only [List.mem_cons, List.not_mem_nil, or_false] at he
    rcases he with rfl | rfl | rfl
    · exact hinval 0 (by decide) _ (by rw [Nat.add_zero]; rfl)
    · exact hinval 1 (by decide) _ rfl
    · exact hinval 2 (by decide) _ rfl
  · exact congrArg Host.Outcome.next (if_pos (by rw [State.ctx, hidle]; rfl))
  · intro small large _
    have hscope : ∀ k : BitVec 2, C.iscope.toNat = k.toNat ↔ C.iscope = k := fun k => BitVec.toNat_inj
    have hsmall : ∀ p, invalHit C.iscope.toNat C.iva.toNat p = true ↔ small p := fun p => by
      rw [invalHit_iff]
      exact Iff.of_eq (if_congr (hscope 0) rfl (if_congr (hscope 1) rfl rfl))
    have htlb : ∀ e : TlbEntry, e.hit C.iscope.toNat C.iva.toNat = true ↔ if e.large then large e.page else small e.page := fun e => by
      rw [tlbHit_iff]
      exact Iff.of_eq (if_congr Iff.rfl (if_congr (hscope 2) rfl rfl) (if_congr (hscope 0) rfl (if_congr (hscope 1) rfl rfl)))
    refine ⟨_, invalidationComplete_eq hbusy, rfl, fun e => ?_, fun e => ?_, List.length_map _, fun i o ho => ?_⟩
    · rw [List.mem_filter, Bool.not_eq_true', ← Bool.not_eq_true, Bool.and_eq_true, decide_eq_true_eq]
      exact and_congr_right' (not_congr (and_congr_right' (htlb e)))
    · rw [List.mem_filter, Bool.not_eq_true', ← Bool.not_eq_true, Bool.and_eq_true, decide_eq_true_eq]
      exact and_congr_right' (not_congr (and_congr_right' (hsmall _)))
    · intro hit
      have hhit := (invalLoad_iff (n := n) C.iscope.toNat C.iva.toNat o).trans
        (and_congr_right' (and_congr_right' (exists_congr fun a => and_congr_right' (hsmall (a.1 / 2 ^ 16)))))
      refine ⟨fun h => ?_, fun h => ?_⟩
      · rw [List.getElem?_map, ho]
        exact congrArg some (if_pos (hhit.mpr h))
      · rw [List.getElem?_map, ho]
        exact congrArg some (if_neg fun hc => h (hhit.mp hc))
  · exact congrArg Host.Outcome.next (if_pos (ctxUsed_iff.mpr hused))
  · exact (writeCx_eq (Bool.eq_false_iff.mpr fun h => hused (ctxUsed_iff.mp h)) v).imp (congrArg _)
      (And.imp (congrArg _) (And.imp (congrArg _) (congrArg _)))
  · intro fits pool legal
    have hexec : exec (.memsplitWrite v) s = .next (if legal then s.setSplit (v.extractLsb' 0 7) else s) := by
      rw [show v.extractLsb' 0 7 = BitVec.ofNat 7 pool from (ofNat_mod_toNat v _).symm]
      exact congrArg _ (writeMemsplit_eq pool)
    refine ⟨fun hl heq => ?_, fun hl hne => ?_, fun hl => hexec.trans (congrArg _ (if_neg hl))⟩
    · exact hexec.trans (congrArg _ ((if_pos hl).trans (if_pos heq.symm)))
    · obtain ⟨u, he, hdirty, hdir, hu⟩ := setSplit_spec (Ne.symm hne)
      exact ⟨u, he, hdirty, hdir, hexec.trans (congrArg _ ((if_pos hl).trans hu))⟩
  · intro slabs legal
    have hexec : exec (.tarenaWrite hub v) s = .next (if legal then { s with slabs := tput 0 s.slabs hub (v.extractLsb' 0 6) } else s) := by
      rw [show v.extractLsb' 0 6 = BitVec.ofNat 6 slabs from (ofNat_mod_toNat v _).symm]
      exact congrArg _ (writeTarena_eq hub slabs)
    exact ⟨fun hl => hexec.trans (congrArg _ (if_pos hl)), fun hl => hexec.trans (congrArg _ (if_neg hl))⟩

end Sys2Proof.Machine
end

section
/-! Hosts, peer modules, links and module reset (O48). -/

namespace Sys2Proof.Machine

/-! ## What an access at the hub leaves unchanged (21 R413) -/

/-- Every byte reads as before, and nothing but where bytes are held differs, once a hub has served a read of a line. -/
theorem hubShare_spec (s : State) (line : Nat) : Held s (s.hubShare line) ∧ ∀ pa, (s.hubShare line).byteAt pa = s.byteAt pa := by
  unfold State.hubShare
  dsimp only
  split
  · exact ⟨(held_writeBack s line).trans rfl, fun pa => byteAt_writeBack s line pa⟩
  · exact ⟨held_mscFill s line, byteAt_mscFill s line⟩

/-- A relation that every step of a fold keeps holds from its start to its end. -/
theorem foldl_keeps {α β γ : Type} (g : α → γ) {f : α → β → α} (h : ∀ a b, g (f a b) = g a) :
    ∀ (l : List β) (a : α), g (l.foldl f a) = g a
  | [], _ => rfl
  | b :: l, a => (foldl_keeps g h l (f a b)).trans (h a b)

theorem caches_hubWrite (s : State) (bs : List (Nat × Byte)) : (s.hubWrite bs).l1 = s.l1 ∧ (s.hubWrite bs).tlb = s.tlb := by
  have hrec : ∀ (t : State) l, ((t.recall l).mscFill l).l1 = t.l1 ∧ ((t.recall l).mscFill l).tlb = t.tlb := fun t l => by
    rw [State.mscFill_l1, State.mscFill_tlb]
    have h := held_writeBack t l
    exact ⟨(congrArg State.l1 h :), (congrArg State.tlb h :)⟩
  unfold State.hubWrite
  dsimp only
  refine ⟨?_, ?_⟩
  · rw [foldl_keeps State.l1 fun t (e : Nat × Byte) => State.hubPut_l1 t e.1 e.2, foldl_keeps State.l1 fun t l => (hrec t l).1,
      State.clearRels_l1, State.noteOld_l1]
  · rw [foldl_keeps State.tlb fun t (e : Nat × Byte) => State.hubPut_tlb t e.1 e.2, foldl_keeps State.tlb fun t l => (hrec t l).2,
      State.clearRels_tlb, State.noteOld_tlb]

theorem dir_recallFill (l : Nat) : ∀ (lines : List Nat) (s : State),
    tget LineDir.zero (lines.foldl (fun (s : State) l => (s.recall l).mscFill l) s).dir l =
      if l ∈ lines then LineDir.zero else tget LineDir.zero s.dir l
  | [], _ => by simp
  | line :: lines, s => by
    rw [List.foldl_cons, dir_recallFill l lines, State.mscFill_dir, dir_recall]
    by_cases h : l ∈ lines <;> simp [h]

/-- No die holds a line that was written at its hub. -/
theorem dir_hubWrite (s : State) (bs : List (Nat × Byte)) (l : Nat) : tget LineDir.zero (s.hubWrite bs).dir l =
    if l ∈ linesOf ((bs.filter fun e => s.reaches e.1).map (·.1)) then LineDir.zero else tget LineDir.zero s.dir l := by
  unfold State.hubWrite
  dsimp only
  rw [foldl_keeps State.dir fun t (e : Nat × Byte) => State.hubPut_dir t e.1 e.2, dir_recallFill, State.clearRels_dir,
    State.noteOld_dir]

/-! ## Requests of hosts and peer modules (21 R413, R420) -/

/-- A read at the hub is answered with the bytes, and changes none. -/
theorem hostRead_spec (s : State) (pas : List Nat) : (∀ pa, (s.hostRead pas).byteAt pa = s.byteAt pa) ∧ s.hostRead pas = { s with
    mem := (s.hostRead pas).mem, mscHeld := (s.hostRead pas).mscHeld, mscDirty := (s.hostRead pas).mscDirty
    dirty := (s.hostRead pas).dirty, dir := (s.hostRead pas).dir, reply := some ⟨false, leNat (pas.map s.byteAt)⟩ } := by
  have hh : Held s ((linesOf pas).foldl State.hubShare s) := held_foldl (fun s l => (hubShare_spec s l).1) _ s
  have hb := fun pa => byteAt_foldl (fun s l => (hubShare_spec s l).2 pa) (linesOf pas) s
  unfold State.hostRead State.answer
  generalize (linesOf pas).foldl State.hubShare s = u at hh hb
  refine ⟨hb, ?_⟩
  unfold Held at hh
  rw [hh]

/-- A write at the hub writes its bytes in order, and is answered. -/
theorem hubWrite_answered (s : State) (bs : List (Nat × Byte)) (answer : Nat) :
    Written s { (s.hubWrite bs).answer false answer with reply := s.reply } ∧
    ((s.hubWrite bs).answer false answer).l1 = s.l1 ∧ ((s.hubWrite bs).answer false answer).tlb = s.tlb ∧
    ((s.hubWrite bs).answer false answer).reply = some ⟨false, answer⟩ ∧ ∀ pa, ((s.hubWrite bs).answer false answer).byteAt pa =
      bs.foldl (fun b e => if e.1 = pa ∧ s.reaches e.1 = true then e.2 else b) (s.byteAt pa) := by
  have hw := written_hubWrite s bs
  obtain ⟨hl1, htlb⟩ := caches_hubWrite s bs
  have hb := byteAt_hubWrite s bs
  generalize s.hubWrite bs = u at hw hl1 htlb hb
  refine ⟨?_, hl1, htlb, rfl, hb⟩
  have hreply : u.reply = s.reply := by rw [hw.1]
  rw [← hreply]
  exact hw

/-- Some byte of an access is hung where one of its addresses is. -/
theorem any_zip_hung (s : State) {pas : List Nat} {bs : List Byte} (h : pas.length ≤ bs.length) :
    ((pas.zip bs).any fun b => s.hitsHung b.1 1) = pas.any fun pa => s.hitsHung pa 1 := by
  conv_rhs => rw [← List.map_fst_zip h, List.any_map]
  rfl

/-- A write with an answer, at the hub: none where a byte of it lies in a hung range, and the answer is an error there (12 R280). -/
theorem guardedWrite_spec {s t : State} {pas : List Nat} {bs : List Byte} {answer : Nat}
    (ht : t = if pas.any fun pa => s.hitsHung pa 1 then s.answer true 0 else (s.hubWrite (pas.zip bs)).answer false answer) :
    ((∃ pa ∈ pas, s.hitsHung pa 1 = true) → t = { s with reply := some ⟨true, 0⟩ }) ∧
    ((∀ pa ∈ pas, s.hitsHung pa 1 = false) → Written s { t with reply := s.reply } ∧
      t.l1 = s.l1 ∧ t.tlb = s.tlb ∧ t.reply = some ⟨false, answer⟩ ∧
      ∀ pa, t.byteAt pa = (pas.zip bs).foldl (fun b e => if e.1 = pa ∧ s.reaches e.1 = true then e.2 else b) (s.byteAt pa)) := by
  refine ⟨fun ⟨pa, hpa, hh⟩ => ?_, fun hno => ?_⟩
  · rw [if_pos (List.any_eq_true.mpr ⟨pa, hpa, hh⟩)] at ht
    exact ht
  · rw [if_neg fun h => ?_] at ht
    · subst ht
      exact hubWrite_answered s _ answer
    · obtain ⟨pa, hpa, hh⟩ := List.any_eq_true.mp h
      exact absurd hh (by simp [hno pa hpa])

theorem hostWrite_eq (s : State) {pas : List Nat} {bs : List Byte} (h : pas.length ≤ bs.length) : s.hostWrite (pas.zip bs) =
    if pas.any fun pa => s.hitsHung pa 1 then s.answer true 0 else (s.hubWrite (pas.zip bs)).answer false 0 := by
  unfold State.hostWrite
  rw [any_zip_hung s h]

/-- An 8-byte number has 64 bits. -/
theorem leNat_lt : ∀ bs : List Byte, leNat bs < 256 ^ bs.length
  | [] => by simp [leNat]
  | b :: bs => by
    have hb := b.isLt
    have ih := leNat_lt bs
    rw [leNat, List.length_cons, Nat.pow_succ]
    omega

/-- What a 64-bit integer atomic writes over `w`, where it writes. -/
def atomWord (less : Bool) (w v : DWord) : Nat → DWord
  | 0 => w + v
  | 1 => if less then v else w
  | 2 => if less then w else v
  | 3 => w &&& v
  | 4 => w ||| v
  | 5 => w ^^^ v
  | _ => v

theorem atomInt_eq {old : Nat} (h : old < 2 ^ 64) {op ty : BitVec 3} (hty : ty = 2 ∨ ty = 3) (v cmp : DWord) :
    let w := BitVec.ofNat 64 old
    atomInt op.toNat (decide (ty = 2)) 64 old v.toNat cmp.toNat = if op = 7 ∧ w ≠ cmp then none
      else some (atomWord (if ty = 2 then v.slt w else v.ult w) w v op.toNat).toNat := by
  intro w
  have hold : old = w.toNat := by rw [BitVec.toNat_ofNat, Nat.mod_eq_of_lt h]
  have hless : (if decide (ty = 2) then decide (sext 64 v.toNat < sext 64 old) else decide (v.toNat < old)) =
      (if ty = 2 then v.slt w else v.ult w) := by
    rw [hold]
    rcases hty with rfl | rfl
    · rw [decide_eq_true rfl, if_pos rfl, if_pos rfl, sext_eq 64 _ (by decide), sext_eq 64 _ (by decide), BitVec.ofNat_toNat,
        BitVec.ofNat_toNat, BitVec.setWidth_eq, BitVec.setWidth_eq, BitVec.slt_eq_decide]
    · rw [decide_eq_false (by decide), if_neg Bool.false_ne_true, if_neg (by decide), BitVec.ult_eq_decide]
  clear_value w
  subst hold
  unfold atomInt
  dsimp only
  rw [hless]
  generalize (if ty = 2 then v.slt w else v.ult w) = less
  by_cases h7 : op = 7
  · subst h7
    show (if w.toNat = cmp.toNat then some v.toNat else none) = _
    by_cases hc : w = cmp
    · rw [if_pos (by rw [hc]), if_neg fun h => h.2 hc]
      rfl
    · rw [if_neg fun h => hc (BitVec.eq_of_toNat_eq h), if_pos ⟨rfl, hc⟩]
  · rw [if_neg (show ¬ (op = 7 ∧ w ≠ cmp) from fun h => h7 h.1)]
    have hop : ∀ k : BitVec 3, k ≠ 7 → k = 0 ∨ k = 1 ∨ k = 2 ∨ k = 3 ∨ k = 4 ∨ k = 5 ∨ k = 6 := by decide
    rcases hop op h7 with rfl | rfl | rfl | rfl | rfl | rfl | rfl
    · exact congrArg some (BitVec.toNat_add w v).symm
    · cases less <;> rfl
    · cases less <;> rfl
    · exact congrArg some (BitVec.toNat_and w v).symm
    · exact congrArg some (BitVec.toNat_or w v).symm
    · exact congrArg some (BitVec.toNat_xor w v).symm
    · rfl

section
variable {s : State} {port : Bool} {off len : Nat}

/-- A request for bytes beyond the range stops (log 30). -/
theorem hdmRequests_beyond (data : Option Nat) (kind : BitVec 2) (op ty : BitVec 3) (v cmp : DWord) (h : 768 * 2 ^ 30 < off + len) :
    exec (.hostCxlMemRequest port off len data) s = .fault .hostOutsideHdm ∧
    exec (.peerModuleRequest ⟨port, off⟩ len kind op ty v cmp) s = .fault .hostOutsideHdm := ⟨if_pos h, if_pos h⟩

/-- A request over a link that is down does nothing. -/
theorem hdmRequests_down (data : Option Nat) (kind : BitVec 2) (op ty : BitVec 3) (v cmp : DWord) (h : off + len ≤ 768 * 2 ^ 30)
    (hup : s.portUp port.toNat = false) : exec (.hostCxlMemRequest port off len data) s = .next s ∧
    exec (.peerModuleRequest ⟨port, off⟩ len kind op ty v cmp) s = .next s := by
  have hup' : (!s.portUp port.toNat) = true := by rw [hup]; rfl
  exact ⟨(if_neg (Nat.not_lt.mpr h)).trans (if_pos hup'), (if_neg (Nat.not_lt.mpr h)).trans (if_pos hup')⟩

variable (h : off + len ≤ 768 * 2 ^ 30) (hup : s.portUp port.toNat = true)
include h hup

/-- A request of a host in the range, over a link that is up. -/
theorem hostRequest_eq (data : Option Nat) : exec (.hostCxlMemRequest port off len data) s =
    .next (match data with
      | none => s.hostRead ((List.range len).map fun i => s.hdmPa (off + i))
      | some v => s.hostWrite (((List.range len).map fun i => s.hdmPa (off + i)).zip (leBytes len v))) := by
  refine (if_neg (Nat.not_lt.mpr h)).trans ((if_neg ?_).trans rfl)
  rw [hup]
  decide

/-- A request of a peer module in the range, over a link that is up. -/
theorem peerRequest_eq (kind : BitVec 2) (op ty : BitVec 3) (v cmp : DWord) :
    let pas := (List.range len).map fun i => s.hdmPa (off + i)
    exec (.peerModuleRequest ⟨port, off⟩ len kind op ty v cmp) s = .next (match kind.toNat with
      | 0 => s.hostRead pas
      | 1 => s.hostWrite (pas.zip (leBytes len v.toNat))
      | 2 => if len = 8 ∧ off % 8 = 0 ∧ (ty = 2 ∨ ty = 3) then s.peerAtomic pas op ty v cmp else s.answer true 0
      | _ => s.answer true 0) := by
  refine (if_neg (Nat.not_lt.mpr h)).trans ((if_neg ?_).trans rfl)
  rw [hup]
  decide

end

/-- A 64-bit atomic of a peer module: the guarded write of its new value, or a read where it does not write (21 R420). -/
theorem peerAtomic_eq (s : State) {pas : List Nat} (hlen : pas.length = 8) {op ty : BitVec 3} (hty : ty = 2 ∨ ty = 3) (v cmp : DWord) :
    let old := leNat (pas.map s.byteAt)
    let w := BitVec.ofNat 64 old
    (op = 7 → w ≠ cmp → s.peerAtomic pas op ty v cmp = s.hostRead pas) ∧
    ((op = 7 → w = cmp) → s.peerAtomic pas op ty v cmp = if pas.any fun pa => s.hitsHung pa 1 then s.answer true 0
      else (s.hubWrite (pas.zip (leBytes 8 (atomWord (if ty = 2 then v.slt w else v.ult w) w v op.toNat).toNat))).answer false old) := by
  intro old w
  have hold : old < 2 ^ 64 := by
    have := leNat_lt (pas.map s.byteAt)
    rwa [List.length_map, hlen] at this
  have ha := atomInt_eq hold (op := op) hty v cmp
  unfold State.peerAtomic
  dsimp only
  refine ⟨fun hop hne => ?_, fun hc => ?_⟩
  · rw [ha.trans (if_pos ⟨hop, hne⟩)]
  · rw [ha.trans (if_neg fun h => h.2 (hc h.1))]

/-! ## The host takes a line back (09 R220) -/

/-- A byte after writes to consecutive addresses. -/
theorem foldl_consecutive (r : Nat → Bool) (base pa : Nat) : ∀ (bs : List Byte) (k : Nat) (b : Byte),
    ((bs.zipIdx k).map fun e => (base + e.2, e.1)).foldl (fun v (e : Nat × Byte) => if e.1 = pa ∧ r e.1 = true then e.2 else v) b =
      if base + k ≤ pa ∧ pa < base + k + bs.length ∧ r pa = true then (bs[pa - base - k]?).getD 0 else b
  | [], k, b => by
    rw [if_neg fun h => by
      have := h.1
      have := h.2.1
      simp only [List.length_nil] at this
      omega]
    rfl
  | c :: bs, k, b => by
    rw [List.zipIdx_cons, List.map_cons, List.foldl_cons, foldl_consecutive r base pa bs (k + 1)]
    by_cases hr : r pa = true
    · by_cases hpa : base + k = pa
      · subst hpa
        rw [if_neg fun h => absurd h.1 (by omega), if_pos ⟨rfl, hr⟩, if_pos ⟨le_refl _, by simp, hr⟩]
        simp
      · rw [if_neg fun h : _ ∧ _ => hpa h.1]
        by_cases hin : base + (k + 1) ≤ pa ∧ pa < base + (k + 1) + bs.length
        · rw [if_pos ⟨hin.1, hin.2, hr⟩, if_pos ⟨by omega, by rw [List.length_cons]; omega, hr⟩,
            show pa - base - k = (pa - base - (k + 1)) + 1 by omega, List.getElem?_cons_succ]
        · rw [if_neg fun h => hin ⟨h.1, h.2.1⟩, if_neg fun h => hin ⟨by omega, by
            have := h.2.1
            rw [List.length_cons] at this
            omega⟩]
    · have hno : ¬ (base + k = pa ∧ r (base + k) = true) := fun h => hr (h.1 ▸ h.2)
      rw [if_neg fun h => hr h.2.2, if_neg hno, if_neg fun h => hr h.2.2]

/-- The addresses of a line of host memory behind a link that is up are reached. -/
theorem reaches_hostLine {s : State} {line p pa : Nat} (hp : hostPort (regionOf (128 * line)) = some p) (hup : s.portUp p = true)
    (hpa : pa / 128 = line) : s.reaches pa = true := by
  have hreg : regionOf pa = regionOf (128 * line) := by
    unfold regionOf
    omega
  unfold State.reaches State.backed cachedRegion
  rw [hreg, hp]
  generalize regionOf (128 * line) = r at hp
  have hr : 4 ≤ r ∧ r < 8 := by
    unfold hostPort at hp
    by_cases h1 : r = 4 ∨ r = 5
    · omega
    · by_cases h2 : r = 6 ∨ r = 7
      · omega
      · rw [if_neg h1, if_neg h2] at hp
        cases hp
  dsimp only
  rw [if_neg (by omega), if_neg (by omega), if_neg (by omega), if_neg (by omega), if_pos hr.2, hup, decide_eq_true hr.1, decide_eq_true hr.2]
  simp

theorem mem_linesOf {pas : List Nat} {l : Nat} : l ∈ linesOf pas ↔ ∃ pa ∈ pas, pa / 128 = l := by
  unfold linesOf
  rw [List.mem_eraseDups, List.mem_map]

/-- A host's write of a line of its memory. -/
theorem snoopWrite_spec {s : State} {line p v : Nat} (hp : hostPort (regionOf (128 * line)) = some p) (hup : s.portUp p = true) :
    let t := s.hubWrite ((leBytes 128 v).zipIdx.map fun e => (128 * line + e.2, e.1))
    (∀ l, tget LineDir.zero t.dir l = if l = line then LineDir.zero else tget LineDir.zero s.dir l) ∧
    ∀ pa, t.byteAt pa = if pa / 128 = line then BitVec.ofNat 8 (v / 256 ^ (pa % 128)) else s.byteAt pa := by
  refine ⟨fun l => ?_, fun pa => ?_⟩
  · rw [dir_hubWrite]
    refine if_congr ?_ rfl rfl
    rw [mem_linesOf]
    refine ⟨fun ⟨pa, hpa, hl⟩ => ?_, fun hl => ⟨128 * line, ?_, by omega⟩⟩
    · obtain ⟨e, he, rfl⟩ := List.mem_map.mp hpa
      obtain ⟨e', he', rfl⟩ := List.mem_map.mp (List.mem_filter.mp he).1
      have := (List.mem_zipIdx he').2.1
      rw [leBytes_length] at this
      dsimp only at hl
      omega
    · refine List.mem_map.mpr ⟨(128 * line + 0, BitVec.ofNat 8 v), List.mem_filter.mpr ⟨List.mem_map.mpr ⟨(BitVec.ofNat 8 v, 0), ?_, rfl⟩,
        reaches_hostLine hp hup (by omega)⟩, by omega⟩
      rw [List.mem_zipIdx_iff_getElem?, leBytes_get 128 v 0 (by decide), Nat.pow_zero, Nat.div_one]
  · rw [byteAt_hubWrite, foldl_consecutive s.reaches, leBytes_length]
    by_cases hpa : pa / 128 = line
    · rw [if_pos hpa, if_pos ⟨by omega, by omega, reaches_hostLine hp hup hpa⟩, leBytes_get _ _ _ (by omega),
        show pa - 128 * line - 0 = pa % 128 by omega]
      rfl
    · rw [if_neg hpa, if_neg fun h => hpa (by
        have h1 := h.1
        have h2 := h.2.1
        omega)]

/-- HOST_SNOOP of a line of the host's memory. -/
theorem hostSnoop_spec {s : State} {port : Bool} {line : Nat} (data : Option Nat) (hp : hostPort (regionOf (128 * line)) = some port.toNat)
    (hup : s.portUp port.toNat = true) : ∃ t, exec (.hostSnoop port line data) s = .next t ∧
      Written s t ∧ t.l1 = s.l1 ∧ t.tlb = s.tlb ∧
      (∀ l, tget LineDir.zero t.dir l = if l = line then LineDir.zero else tget LineDir.zero s.dir l) ∧
      (data = none → ∀ pa, t.byteAt pa = s.byteAt pa) ∧
      ∀ v, data = some v → ∀ pa, t.byteAt pa = if pa / 128 = line then BitVec.ofNat 8 (v / 256 ^ (pa % 128)) else s.byteAt pa := by
  have hw := written_recall s line
  have hl1 : (s.recall line).l1 = s.l1 := (congrArg State.l1 (held_writeBack s line) :)
  have htlb : (s.recall line).tlb = s.tlb := (congrArg State.tlb (held_writeBack s line) :)
  have hdir := dir_recall s line
  have hb := byteAt_recall s line
  have hup' : (s.recall line).portUp port.toNat = true := by
    rw [hw.1]
    exact hup
  refine ⟨_, congrArg Host.Outcome.next (if_pos ⟨hp, hup⟩), ?_⟩
  dsimp only
  generalize s.recall line = u at hw hl1 htlb hdir hb hup'
  cases data with
  | none => exact ⟨hw, hl1, htlb, hdir, fun _ => hb, fun _ h => nomatch h⟩
  | some v =>
    obtain ⟨hd, hbytes⟩ := snoopWrite_spec (v := v) hp hup'
    obtain ⟨h1, h2⟩ := caches_hubWrite u ((leBytes 128 v).zipIdx.map fun e => (128 * line + e.2, e.1))
    refine ⟨hw.trans (written_hubWrite _ _), h1.trans hl1, h2.trans htlb, fun l => ?_, fun h => (nomatch h), fun v' hv' pa => ?_⟩
    · rw [hd l, hdir l]
      split <;> rfl
    · cases hv'
      rw [hbytes pa, hb pa]

/-! ## A link goes down (21 R417) -/

theorem tget_filter_key {α : Type} (d : α) (p : Nat → Bool) (i : Nat) : ∀ t : Table α,
    tget d (t.filter fun e => p e.1) i = if p i = true then tget d t i else d
  | [] => (ite_self d).symm
  | e :: t => by
    have ih := tget_filter_key d p i t
    by_cases hp : p e.1 = true
    · rw [List.filter_cons, if_pos hp]
      show (if e.1 = i then e.2 else tget d (t.filter fun e => p e.1) i) = if p i = true then (if e.1 = i then e.2 else tget d t i) else d
      rw [ih]
      by_cases hi : e.1 = i
      · rw [if_pos hi, if_pos hi, if_pos (hi ▸ hp)]
      · rw [if_neg hi, if_neg hi]
    · rw [List.filter_cons, if_neg hp, ih]
      show _ = if p i = true then (if e.1 = i then e.2 else tget d t i) else d
      by_cases hi : e.1 = i
      · rw [← hi, if_neg hp, if_neg hp]
      · rw [if_neg hi]

theorem tget_below {α : Type} [DecidableEq α] {d : α} : ∀ {t : Table α} {lo i : Nat}, twfFrom d lo t = true → i < lo → tget d t i = d
  | [], _, _, _, _ => rfl
  | (k, v) :: t, lo, i, h, hi => by
    obtain ⟨⟨hlo, -⟩, ht⟩ : (lo ≤ k ∧ v ≠ d) ∧ twfFrom d (k + 1) t = true := by
      rw [twfFrom, Bool.and_eq_true, Bool.and_eq_true, decide_eq_true_eq, decide_eq_true_eq] at h
      exact h
    rw [tget, if_neg (by omega)]
    exact tget_below ht (by omega)

/-- A table in canonical form without the values that `q` leaves out. -/
theorem tget_filter_value {α : Type} [DecidableEq α] (d : α) (q : α → Bool) (i : Nat) : ∀ {t : Table α} {lo : Nat}, twfFrom d lo t = true →
    tget d (t.filter fun e => q e.2) i = if q (tget d t i) = true then tget d t i else d
  | [], _, _ => (ite_self d).symm
  | (k, v) :: t, lo, h => by
    obtain ⟨-, ht⟩ : (lo ≤ k ∧ v ≠ d) ∧ twfFrom d (k + 1) t = true := by
      rw [twfFrom, Bool.and_eq_true, Bool.and_eq_true, decide_eq_true_eq, decide_eq_true_eq] at h
      exact h
    have ih := tget_filter_value d q i ht
    have hk : k = i → tget d t i = d := fun hk => tget_below ht (by omega)
    by_cases hq : q v = true
    · rw [List.filter_cons, if_pos hq, tget, tget, ih]
      by_cases hi : k = i
      · rw [if_pos hi, if_pos hi, if_pos hq]
      · rw [if_neg hi, if_neg hi]
    · rw [List.filter_cons, if_neg hq, tget, ih]
      by_cases hi : k = i
      · rw [hk hi, ite_self, if_pos hi, if_neg hq]
      · rw [if_neg hi]

/-- What leaves for peer modules is all that a sequence of requests changes. -/
theorem peerSends_frame {β : Type} (out : β → Option (Bool × Nat)) (size : β → Nat) (op : β → PeerOp) : ∀ (l : List β) (s : State),
    ∃ sent, l.foldl (fun s o => s.peerSend (out o) (size o) (op o)) s = { s with sent := sent }
  | [], s => ⟨s.sent, rfl⟩
  | b :: l, s => by
    obtain ⟨sent, h⟩ := peerSends_frame out size op l (s.peerSend (out b) (size b) (op b))
    refine ⟨sent, h.trans ?_⟩
    unfold State.peerSend
    split
    · split <;> rfl
    · rfl

theorem peerReads_frame (u : State) (l loads : List Outst) :
    ∃ sent, { l.foldl (fun s o => s.peerSend o.peer o.addrs.length .read) u with loads := loads } = { u with loads := loads, sent := sent } := by
  obtain ⟨sent, h⟩ := peerSends_frame (fun o : Outst => o.peer) (fun o => o.addrs.length) (fun _ => .read) l u
  exact ⟨sent, by rw [h]⟩

/-- A load of the memory of a port. -/
def Outst.ofPort (p : Nat) (o : Outst) : Prop := ∃ a ∈ o.addrs, hostPort (regionOf (128 * (a.2 / 128))) = some p

theorem pending_iff (o : Outst) : o.pending = true ↔ o.kind = .load ∧ o.failed = false := by
  unfold Outst.pending
  rw [Bool.and_eq_true, decide_eq_true_eq, Bool.not_eq_true']

theorem regionOf_line (pa : Nat) : regionOf (128 * (pa / 128)) = regionOf pa := by
  unfold regionOf
  omega

theorem settles_iff (p : Nat) (o : Outst) : (o.pending && o.addrs.any fun a => decide (hostPort (regionOf a.2) = some p)) = true ↔
    o.kind = .load ∧ o.failed = false ∧ o.ofPort p := by
  unfold Outst.ofPort
  simp only [Bool.and_eq_true, pending_iff, List.any_eq_true, decide_eq_true_eq, regionOf_line, and_assoc]

theorem settlesPeer_iff (port : Bool) (o : Outst) :
    (o.pending && match o.peer with | some q => decide (q.1 = port) | none => false) = true ↔
      o.kind = .load ∧ o.failed = false ∧ ∃ f, o.peer = some (port, f) := by
  rw [Bool.and_eq_true, pending_iff, and_assoc]
  refine and_congr_right fun _ => and_congr_right fun _ => ?_
  cases o.peer with
  | none => simp
  | some q =>
    obtain ⟨q, f⟩ := q
    simp

section
variable {s : State} {port : Bool} {i : Nat} {o : Outst}

/-- The state of LINK_DOWN before the lines of the port are dropped. -/
def State.portSettled (s : State) (port : Bool) : State :=
  (s.settle fun loc => decide (hostPort (regionOf loc) = some port.toNat)).settlePeers port

theorem portSettled_frame (s : State) (port : Bool) :
    ∃ sent, s.portSettled port = { s with loads := (s.portSettled port).loads, sent := sent } := by
  unfold State.portSettled State.settlePeers
  exact peerReads_frame (s.settle _) _ _

theorem portSettled_loads (s : State) (port : Bool) : (s.portSettled port).loads = (s.loads.map fun (o : Outst) =>
      if o.pending && o.addrs.any (fun a => decide (hostPort (regionOf a.2) = some port.toNat))
      then { o with kind := .value, value := BitVec.ofNat 128 (s.loadValue o) } else o).map fun (o : Outst) =>
      if o.pending && match o.peer with | some q => decide (q.1 = port) | none => false
      then { o with kind := .value, value := BitVec.ofNat 128 ((Config.peerData (s.free + o.id) (o.addrs.headD (0, 0)).2).toNat % 2 ^ 32) }
      else o := rfl

theorem portSettled_length : (s.portSettled port).loads.length = s.loads.length := by
  rw [portSettled_loads, List.length_map, List.length_map]

theorem portSettled_kept (hi : s.loads[i]? = some o) (h : o.kind ≠ .load ∨ o.failed = true ∨
    (¬ o.ofPort port.toNat ∧ ∀ f, o.peer ≠ some (port, f))) : (s.portSettled port).loads[i]? = some o := by
  have h1 : ¬ (o.kind = .load ∧ o.failed = false ∧ o.ofPort port.toNat) := fun ⟨hk, hf, hp⟩ => by
    rcases h with h | h | h
    · exact h hk
    · rw [hf] at h; cases h
    · exact h.1 hp
  have h2 : ¬ (o.kind = .load ∧ o.failed = false ∧ ∃ f, o.peer = some (port, f)) := fun ⟨hk, hf, f, hp⟩ => by
    rcases h with h | h | h
    · exact h hk
    · rw [hf] at h; cases h
    · exact h.2 f hp
  rw [portSettled_loads, List.getElem?_map, List.getElem?_map, hi, Option.map_some, Option.map_some,
    if_neg ((settles_iff _ o).not.mpr h1), if_neg ((settlesPeer_iff port o).not.mpr h2)]

theorem portSettled_memory (hi : s.loads[i]? = some o) (hk : o.kind = .load) (hf : o.failed = false) (hp : o.ofPort port.toNat) :
    (s.portSettled port).loads[i]? = some { o with kind := .value, value := BitVec.ofNat 128 (s.loadValue o) } := by
  rw [portSettled_loads, List.getElem?_map, List.getElem?_map, hi, Option.map_some, Option.map_some,
    if_pos ((settles_iff _ o).mpr ⟨hk, hf, hp⟩), if_neg ((settlesPeer_iff port _).not.mpr fun h => absurd h.1 (by simp))]

theorem portSettled_peer {f : Nat} (hi : s.loads[i]? = some o) (hk : o.kind = .load) (hf : o.failed = false) (hp : o.peer = some (port, f)) :
    ∃ v, (s.portSettled port).loads[i]? = some { o with kind := .value, value := v } := by
  by_cases hm : o.ofPort port.toNat
  · exact ⟨_, portSettled_memory hi hk hf hm⟩
  · rw [portSettled_loads, List.getElem?_map, List.getElem?_map, hi, Option.map_some, Option.map_some,
      if_neg ((settles_iff _ o).not.mpr fun h => hm h.2.2), if_pos ((settlesPeer_iff port o).mpr ⟨hk, hf, f, hp⟩)]
    exact ⟨_, rfl⟩

end

/-- What firing the monitors of lines changes. -/
theorem fireLines_spec (ls : List Nat) (s : State) : ∃ ws, ls.foldl (fun s l => s.fireLine l) s = { s with warps := ws } ∧
    WarpsFire s (ls.foldl (fun s l => s.fireLine l) s) := by
  have hw := (written_foldl written_fireLine ls s).2
  have hf : ∀ (ls : List Nat) (s : State), ∃ ws, ls.foldl (fun s l => s.fireLine l) s = { s with warps := ws } := by
    intro ls
    induction ls with
    | nil => exact fun s => ⟨s.warps, rfl⟩
    | cons l ls ih =>
      intro s
      obtain ⟨ws, h⟩ := ih (s.fireLine l)
      exact ⟨ws, h⟩
  obtain ⟨ws, h⟩ := hf ls s
  exact ⟨ws, h, hw⟩

/-- LINK_DOWN, but for the loads under way: the lines and semaphores of the port are dropped. -/
theorem linkDown_eq (s : State) (port : Bool) : ∃ sent ws, exec (.linkDown port) s = .next { s with
      loads := (s.portSettled port).loads, sent := sent
      ports := tput Port.zero s.ports port.toNat { tget Port.zero s.ports port.toNat with up := false }
      dirty := s.dirty.filter fun e => !portLine port.toNat (e.1 / 128)
      dir := s.dir.filter fun e => !portLine port.toNat e.1
      sems := s.sems.filter fun e => decide (e.2.toNat ≠ port.toNat + 1), warps := ws } ∧
    WarpsFire s { s with warps := ws } := by
  obtain ⟨sent, hu⟩ := portSettled_frame s port
  have hx : exec (.linkDown port) s = .next (((s.portSettled port).dir.map (·.1)).filter (portLine port.toNat) |>.foldl
      (fun s l => s.fireLine l) { s.portSettled port with
        ports := tput Port.zero (s.portSettled port).ports port.toNat { tget Port.zero (s.portSettled port).ports port.toNat with up := false }
        dirty := (s.portSettled port).dirty.filter fun e => !portLine port.toNat (e.1 / 128)
        dir := (s.portSettled port).dir.filter fun e => !portLine port.toNat e.1
        sems := (s.portSettled port).sems.filter fun e => decide (e.2.toNat ≠ port.toNat + 1) }) := rfl
  obtain ⟨ws, hws, hfire⟩ := fireLines_spec (((s.portSettled port).dir.map (·.1)).filter (portLine port.toNat)) { s.portSettled port with
        ports := tput Port.zero (s.portSettled port).ports port.toNat { tget Port.zero (s.portSettled port).ports port.toNat with up := false }
        dirty := (s.portSettled port).dirty.filter fun e => !portLine port.toNat (e.1 / 128)
        dir := (s.portSettled port).dir.filter fun e => !portLine port.toNat e.1
        sems := (s.portSettled port).sems.filter fun e => decide (e.2.toNat ≠ port.toNat + 1) }
  rw [hws] at hfire hx
  generalize (s.portSettled port) = u at hu hfire hx ⊢
  generalize u.loads = ls at hu ⊢
  subst hu
  exact ⟨sent, ws, hx, hfire⟩

section
variable (s : State) (p : Nat)

theorem dir_dropped (l : Nat) : tget LineDir.zero (s.dir.filter fun e => !portLine p e.1) l =
    if hostPort (regionOf (128 * l)) = some p then LineDir.zero else tget LineDir.zero s.dir l := by
  rw [tget_filter_key LineDir.zero (fun l => !portLine p l), ← ite_not]
  exact if_congr (by simp [portLine]) rfl rfl

theorem dirty_dropped (pa : Nat) : tget none (s.dirty.filter fun e => !portLine p (e.1 / 128)) pa =
    if hostPort (regionOf (128 * (pa / 128))) = some p then none else tget none s.dirty pa := by
  rw [tget_filter_key none (fun pa => !portLine p (pa / 128)), ← ite_not]
  exact if_congr (by simp [portLine]) rfl rfl

theorem sems_dropped (hwf : twf 0 s.sems = true) (n : Nat) : tget 0 (s.sems.filter fun e => decide (e.2.toNat ≠ p + 1)) n =
    if (tget 0 s.sems n).toNat = p + 1 then 0 else tget 0 s.sems n := by
  rw [tget_filter_value 0 (fun v => decide (v.toNat ≠ p + 1)) n hwf, ← ite_not]
  exact if_congr (by simp) rfl rfl

end

/-! ## Numbering the cores anew (22 R426, R431) -/

/-- The pairs of cores in service, in order. -/
def livePairs (dc : BitVec 256) (n : Nat) : List Nat := (List.range n).filter fun p => !dc.getLsbD p

theorem livePairs_at {dc : BitVec 256} {q : Nat} (hq : q < 256) (hlive : dc.getLsbD q = false) :
    (livePairs dc 256)[(livePairs dc q).length]? = some q := by
  have hsplit : List.range 256 = List.range q ++ q :: (List.range (255 - q)).map (q + 1 + ·) := by
    rw [show 256 = (q + 1) + (255 - q) by omega, List.range_add, List.range_succ, List.append_assoc]
    simp
  unfold livePairs
  rw [hsplit, List.filter_append, List.filter_cons_of_pos (by rw [hlive]; rfl), List.getElem?_append_right (le_refl _), Nat.sub_self]
  rfl

/-- A core in service: its pair, and its place in it. -/
theorem physCore_spec {dc : BitVec 256} {c : Nat} (hc : c < coreCount dc) : ∃ q, q < 256 ∧ dc.getLsbD q = false ∧
    (livePairs dc q).length = c / 2 ∧ physCore dc c = 2 * q + c % 2 := by
  have hlt : c / 2 < (livePairs dc 256).length := by
    have : c < 2 * (livePairs dc 256).length := hc
    omega
  have hget := List.getElem?_eq_getElem hlt
  obtain ⟨hmem, hlive⟩ := List.mem_filter.mp (List.getElem_mem hlt)
  rw [List.mem_range] at hmem
  refine ⟨(livePairs dc 256)[c / 2], hmem, by simpa using hlive, ?_, ?_⟩
  · have hat := livePairs_at hmem (dc := dc) (by simpa using hlive)
    obtain ⟨hlen, heq⟩ := List.getElem?_eq_some_iff.mp hat
    exact (List.nodup_range.filter _).getElem_inj_iff.mp heq
  · show 2 * ((livePairs dc 256)[c / 2]?).getD 0 + c % 2 = _
    rw [hget]
    rfl

theorem logicalCore_physCore {dc : BitVec 256} {c : Nat} (hc : c < coreCount dc) : logicalCore dc (physCore dc c) = some c := by
  obtain ⟨q, -, hlive, hlen, hp⟩ := physCore_spec hc
  have hq : (2 * q + c % 2) / 2 = q := by omega
  unfold logicalCore
  rw [hp, hq, if_neg (by rw [hlive]; decide)]
  show some (2 * (livePairs dc q).length + _) = _
  rw [hlen]
  exact congrArg some (by omega)

theorem physCore_of_logicalCore {dc : BitVec 256} {p c : Nat} (hp : p < 512) (h : logicalCore dc p = some c) : physCore dc c = p := by
  unfold logicalCore at h
  by_cases hlive : dc.getLsbD (p / 2) = true
  · rw [if_pos hlive] at h
    cases h
  · rw [if_neg hlive] at h
    have hat := livePairs_at (dc := dc) (q := p / 2) (by omega) (by simpa using hlive)
    have hc : 2 * (livePairs dc (p / 2)).length + p % 2 = c := Option.some.inj h
    show 2 * ((livePairs dc 256)[c / 2]?).getD 0 + c % 2 = p
    rw [show c / 2 = (livePairs dc (p / 2)).length by omega, hat, Option.getD_some]
    omega

theorem physCore_lt {dc : BitVec 256} {c : Nat} (hc : c < coreCount dc) : physCore dc c < 512 := by
  obtain ⟨q, hq, -, -, hp⟩ := physCore_spec hc
  omega

theorem tget_filterMap {α : Type} (d : α) (f : Nat × α → Option (Nat × α)) (k k' : Nat)
    (hsome : ∀ e e', f e = some e' → e'.2 = e.2 ∧ (e'.1 = k' ↔ e.1 = k)) (hnone : ∀ e, f e = none → e.1 ≠ k) :
    ∀ t : Table α, tget d (t.filterMap f) k' = tget d t k
  | [] => rfl
  | e :: t => by
    have ih := tget_filterMap d f k k' hsome hnone t
    cases hf : f e with
    | none =>
      rw [List.filterMap_cons_none hf, ih]
      exact (if_neg (hnone e hf)).symm
    | some e' =>
      obtain ⟨hv, hk⟩ := hsome e e' hf
      rw [List.filterMap_cons_some hf]
      show (if e'.1 = k' then e'.2 else tget d (t.filterMap f) k') = if e.1 = k then e.2 else tget d t k
      rw [ih, hv]
      exact if_congr hk rfl rfl

/-- What a physical core keeps it keeps under its new number. -/
theorem renumber_get {α : Type} (d : α) (t : Table α) {dc dc' : BitVec 256} {n c c' i : Nat} (hc : c < coreCount dc)
    (hc' : c' < coreCount dc') (h : physCore dc c = physCore dc' c') (hi : i < n) :
    tget d (renumber dc dc' n t) (c' * n + i) = tget d t (c * n + i) := by
  have hdiv : ∀ m, (m * n + i) / n = m := fun m => by
    rw [Nat.mul_comm, Nat.mul_add_div (by omega), Nat.div_eq_of_lt hi, Nat.add_zero]
  have hmod : ∀ m, (m * n + i) % n = i := fun m => by rw [Nat.mul_comm, Nat.mul_add_mod, Nat.mod_eq_of_lt hi]
  have hlog : logicalCore dc' (physCore dc c) = some c' := by rw [h, logicalCore_physCore hc']
  refine tget_filterMap d _ _ _ (fun e e' he => ?_) (fun e he hk => ?_) t
  · by_cases hlt : e.1 / n < coreCount dc
    · rw [if_pos hlt] at he
      obtain ⟨m, hm, rfl⟩ := Option.map_eq_some_iff.mp he
      refine ⟨rfl, fun hk => ?_, fun hk => ?_⟩
      · dsimp only at hk
        have hr : e.1 % n < n := Nat.mod_lt _ (by omega)
        have hm' : m = c' := by
          have h1 : (m * n + e.1 % n) / n = m := by
            rw [Nat.mul_comm, Nat.mul_add_div (by omega), Nat.div_eq_of_lt hr, Nat.add_zero]
          rw [hk, hdiv] at h1
          exact h1.symm
        subst hm'
        have hphys := physCore_of_logicalCore (physCore_lt hlt) hm
        have he1 : e.1 / n = c := by
          have h1 := logicalCore_physCore hlt
          rw [← hphys, ← h, logicalCore_physCore hc] at h1
          exact (Option.some.inj h1).symm
        have he2 : e.1 % n = i := Nat.add_left_cancel hk
        rw [← Nat.div_add_mod' e.1 n, he1, he2]
      · rw [hk, hdiv, hlog] at hm
        dsimp only
        rw [hk, hmod, Option.some.inj hm]
    · rw [if_neg hlt] at he
      cases he
  · rw [hk, hdiv, if_pos hc, hlog] at he
    cases he

/-- The policy that a reset applies takes cores out of service, and numbers the sequence. -/
theorem polMask_eq (p : BitVec 3584) : polMask p = p.extractLsb' 0 256 := by
  ext i hi
  simp [polMask]

theorem polSeq_eq (p : BitVec 3584) : polSeq p = p.extractLsb' 256 32 := by
  ext i hi
  simp [polSeq]

/-- What MODULE_RESET leaves, after every line has left every L2 where IPOOL changes. -/
def State.resetFrom (s u : State) : State := { State.reset with
  mem := u.mem, mscHeld := u.mscHeld, mscDirty := u.mscDirty, dirty := u.dirty, dir := u.dir, wear := s.wear, watts := s.watts
  scratch := renumber s.dcmap s.nextMap (2 ^ 23) s.scratch, empty := renumber s.dcmap s.nextMap (2 ^ 16) s.empty
  temps := s.temps, agenda := s.agenda, cur := s.cur, nextId := s.nextId, free := s.free, dcmap := s.nextMap
  lastseq := match s.armed with | some p => polSeq p | none => s.lastseq }

theorem moduleReset_eq (s : State) : ∃ u, exec .moduleReset s = .next (s.resetFrom u) ∧ Evicted s u ∧ (s.ipool = 0x60 → u = s) ∧
    (s.ipool ≠ 0x60 → (∀ pa, tget none u.dirty pa = none) ∧ ∀ l, tget LineDir.zero u.dir l = LineDir.zero) := by
  by_cases h : s.ipool = 0x60
  · have hs : s.setSplit State.reset.ipool = s := if_pos h
    refine ⟨s, ?_, .refl s, fun _ => rfl, fun hne => absurd h hne⟩
    show execModuleReset s = _
    unfold execModuleReset
    rw [hs]
    rfl
  · obtain ⟨u, he, hdirty, hdir, hs⟩ := setSplit_spec h
    refine ⟨u, ?_, he, fun h' => absurd h' h, fun _ => ⟨hdirty, hdir⟩⟩
    obtain ⟨m, h1, h2, h3, h4, ws, rfl⟩ : ∃ m h1 h2 h3 h4 ws, u = { s with
        mem := m, mscHeld := h1, mscDirty := h2, dirty := h3, dir := h4, warps := ws } := ⟨_, _, _, _, _, _, he.1⟩
    show execModuleReset s = _
    unfold execModuleReset
    rw [show State.reset.ipool = 0x60 from rfl, hs]
    rfl

/-! ## O48 -/

/-- Settles O48: requests of hosts and peer modules read and write at the hub; a link that goes down takes the lines of its
port with it; a reset numbers the cores anew. -/
theorem hostsAndLinks : Obligations.HostsAndLinks := by
  intro s
  refine ⟨fun port off len data kind op ty v cmp => ?_, fun port line data hp hup => ?_, fun port => ?_, fun port f lanes => ?_, ?_⟩
  · intro pas host peer old reads writes
    have hlen : pas.length = len := by
      show ((List.range len).map _).length = len
      rw [List.length_map, List.length_range]
    have hzip : ∀ d, pas.length ≤ (leBytes len d).length := fun d => by rw [hlen, leBytes_length]
    refine ⟨fun hbig => hdmRequests_beyond data kind op ty v cmp hbig, fun hin =>
      ⟨fun hdown => hdmRequests_down data kind op ty v cmp hin hdown, fun hup => ?_⟩⟩
    have hh := hostRequest_eq hin hup data
    have hq := peerRequest_eq hin hup kind op ty v cmp
    have hread : ∀ i : Instr, exec i s = .next (s.hostRead pas) → reads i := fun i hi => ⟨_, hi, hostRead_spec s pas⟩
    have hwrite : ∀ (i : Instr) (bs : List Byte) (answer : Nat), exec i s = .next (if pas.any fun pa => s.hitsHung pa 1 then s.answer true 0
        else (s.hubWrite (pas.zip bs)).answer false answer) → writes i bs answer := fun i bs answer hi => by
      obtain ⟨h1, h2⟩ := guardedWrite_spec (s := s) (pas := pas) (bs := bs) (answer := answer) rfl
      exact ⟨fun hhung => hi.trans (congrArg _ (h1 hhung)), fun hno => ⟨_, hi, h2 hno⟩⟩
    refine ⟨fun hd => hread _ ?_, fun d hd => hwrite _ _ _ ?_, fun hk => hread _ ?_, fun hk => hwrite _ _ _ ?_, fun hk h8 hal hty => ?_⟩
    · exact hh.trans (by rw [hd])
    · exact hh.trans (by rw [hd, ← hostWrite_eq s (hzip d)])
    · exact hq.trans (by rw [hk]; rfl)
    · exact hq.trans (by rw [hk, ← hostWrite_eq s (hzip v.toNat)]; rfl)
    · intro w less
      obtain ⟨hno, hyes⟩ := peerAtomic_eq s (pas := pas) (hlen.trans h8) (op := op) hty v cmp
      have hat : exec peer s = .next (s.peerAtomic pas op ty v cmp) :=
        hq.trans (by rw [hk]; exact congrArg Host.Outcome.next (if_pos ⟨h8, hal, hty⟩))
      refine ⟨fun hop hne => hread _ (hat.trans (congrArg _ (hno hop hne))), fun hc => hwrite _ _ _ ?_⟩
      exact hat.trans (congrArg _ ((hyes hc).trans rfl))
  · obtain ⟨t, ht, hw, hl1, htlb, hdir, hnone, hsome⟩ := hostSnoop_spec data hp hup
    refine ⟨t, ht, hw, hl1, htlb, hdir, fun pa => ?_⟩
    cases data with
    | none => exact hnone rfl pa
    | some v => exact hsome v rfl pa
  · intro mine
    obtain ⟨sent, ws, hx, hfire⟩ := linkDown_eq s port
    refine ⟨_, hx, rfl, hfire, fun pa => ?_, fun l => ?_, portSettled_length, fun i o hi h => portSettled_kept hi ?_,
      fun i o hi hk hf hp => portSettled_memory hi hk hf hp, fun i o f hi hk hf hp => portSettled_peer hi hk hf hp, sems_dropped s port.toNat⟩
    · have hb := byteAt_getD { s with dirty := s.dirty.filter fun e => !portLine port.toNat (e.1 / 128) } pa
      rw [dirty_dropped] at hb
      refine ⟨fun hm => ?_, fun hm => ?_⟩
      · rw [if_pos hm] at hb
        exact hb
      · rw [if_neg hm] at hb
        exact hb.trans (byteAt_getD s pa).symm
    · have hd := dir_dropped s port.toNat l
      exact ⟨fun hm => hd.trans (if_pos hm), fun hm => hd.trans (if_neg hm)⟩
    · exact h.imp_right (Or.imp_right fun ⟨ha, hp⟩ => ⟨fun ⟨a, hmem, hline⟩ => ha a hmem hline, hp⟩)
  · intro good
    have hgood : (firmwareOk && (decide (lanes = 4) || decide (lanes = 8) || decide (lanes = 16))) = true ↔ good := by
      simp [good, or_assoc]
    exact ⟨fun hg => congrArg Host.Outcome.next (if_pos (hgood.mpr hg)), fun hg => congrArg Host.Outcome.next (if_neg (hgood.not.mpr hg))⟩
  · obtain ⟨u, hx, he, hsame, hrec⟩ := moduleReset_eq s
    refine ⟨u, _, hx, he, hsame, hrec, rfl, fun ha => ?_, fun p hp => ?_, fun c c' hc hc' hcore => ?_⟩
    · unfold State.resetFrom State.nextMap
      rw [ha]
      exact ⟨rfl, rfl⟩
    · unfold State.resetFrom State.nextMap
      rw [hp, ← polMask_eq, ← polSeq_eq]
      exact ⟨rfl, rfl⟩
    · exact ⟨fun i hi => renumber_get 0 s.scratch hc hc' hcore hi, fun i hi => renumber_get false s.empty hc hc' hcore hi⟩

end Sys2Proof.Machine
end

section
/-! Loads that acquire (O27). -/

namespace Sys2Proof.Machine

/-! ## Reading at the place of execution (09 R223; 10 R236) -/

/-- Between `s` and `t` memory, registers and peer windows are only read: where bytes are held, the semaphores, what was sent to
peers and the free values used differ. -/
def Polled (s t : State) : Prop :=
  t = { s with mem := t.mem, mscHeld := t.mscHeld, mscDirty := t.mscDirty, dirty := t.dirty, dir := t.dir, tlb := t.tlb
               sems := t.sems, sent := t.sent, free := t.free }

section
variable {s t u : State}

theorem Polled.trans (h : Polled s t) (k : Polled t u) : Polled s u := by
  unfold Polled at *
  rw [k, h]
theorem Shared.polled (h : Shared s t) : Polled s t := by
  unfold Polled
  rw [h.1]
theorem Polled.nextId (h : Polled s t) : t.nextId = s.nextId := by rw [h]
theorem Polled.loads (h : Polled s t) : t.loads = s.loads := by rw [h]
theorem Polled.l1 (h : Polled s t) : t.l1 = s.l1 := by rw [h]
theorem Polled.warp (h : Polled s t) (w : Nat) : t.warp w = s.warp w := by rw [h]; rfl
theorem Polled.issuing (h : Polled s t) : t.issuing = s.issuing := by rw [h]; rfl

theorem polled_devRead (s : State) (pa out) : Polled s (s.devRead pa out).1 := by
  unfold Polled
  rw [devRead_frame]

theorem polled_readAt (x : Ix) (s : State) (a : MemAcc) : Polled s (x.readAt s a).1 := by
  unfold Ix.readAt
  split
  · exact polled_devRead s _ _
  · split
    · exact (shared_shareBytes s _ _).polled
    · rfl

/-- Reading the accesses of several lanes only reads, whether or not one fails. -/
theorem polled_readAll (x : Ix) : ∀ (as : List MemAcc) (s : State),
    (∀ u tr, x.readAll s as = .error (u, tr) → Polled s u) ∧ ∀ u vs, x.readAll s as = .ok (u, vs) → Polled s u
  | [], s => ⟨fun _ _ h => (by cases h), fun _ _ h => (by cases h; rfl)⟩
  | a :: as, s => by
    have ha := polled_readAt x s a
    unfold Ix.readAll
    generalize x.readAt s a = r at ha
    obtain ⟨s1, v⟩ := r
    obtain ⟨herr, hok⟩ := polled_readAll x as s1
    cases v with
    | none => exact ⟨fun _ _ h => (by cases h; exact ha), fun _ _ h => (by cases h)⟩
    | some bs =>
      dsimp only
      cases hr : x.readAll s1 as with
      | error e => exact ⟨fun u tr h => (by cases h; exact ha.trans (herr _ _ hr)), fun _ _ h => (by cases h)⟩
      | ok e => exact ⟨fun _ _ h => (by cases h), fun u vs h => (by cases h; exact ha.trans (hok _ _ hr))⟩

/-- A fault after what only reads is taken from there. -/
theorem trapsIn_polled {x : Ix} {i : Instr} {tr : Trap} {body : Ix → Res} (h : Starts s x i) (hx : exec i s = run i s body)
    (hu : Polled s u) (hb : body x = .trap u tr) : TrapsIn s u x i tr :=
  ⟨_, by rw [hx, run_starts h, hb]; rfl, raise_spec (hu.issuing.trans h.1) rfl rfl⟩

end

/-! ## LDA (11 R256) -/

/-- The access is read past L1: at a wide scope, of a page with NC = 1, of a register or a peer window. -/
def MemAcc.past (a : MemAcc) : Bool := a.nc || uncached a.pa

/-- The load that reads an access as a load reads it. -/
def Ix.nearLoad (x : Ix) (s : State) (a : MemAcc) : Option Outst := if a.past then none else some (x.outst s 0 a false false 0 0)

/-- What LDA does with its checked accesses, nothing being left to wait for. -/
def Ix.acquireLoad (x : Ix) (s : State) (d : BitVec 7) (sc : Nat) (as : List MemAcc) : Res :=
  match x.readAll s (as.filter fun a => (x.nearLoad s a).isNone) with
  | .error (s1, t) => .trap s1 t
  | .ok (s1, vs) =>
    match as.find? fun a => match x.nearLoad s a with | some o => s.deadLink o | none => false with
    | some a => .trap s (dataTrap a.va a.lane)
    | none =>
      let near := (as.filter fun a => (x.nearLoad s a).isSome).map fun a =>
        (a, leNat ((a.vas.zip a.pas).map (s1.loadByte (x.outst s1 0 a false false 0 0))))
      let all := (as.filter fun a => (x.nearLoad s a).isNone).zip vs ++ near
      let s2 := x.keepLeaves (as.foldl (fun t a => match x.nearLoad s a with | some o => t.fillFor o | none => t) s1) as
      .ok ((x.acquire s2 sc).addLoads (all.zipIdx.map fun e =>
        { x.formed s2 e.2 e.1.1.lane false d.toNat 1 (BitVec.ofNat 128 e.1.2) with addrs := e.1.1.vas.zip e.1.1.pas })) none

/-- An instruction whose effect on the issuing path is known. -/
theorem run_const {s : State} {x : Ix} {i : Instr} {body : Ix → Res} {res : Res} (h : Starts s x i) (hx : exec i s = run i s body)
    (hb : body x = res) : exec i s = run i s fun _ => res := by
  rw [hx, run_starts h, run_starts h, hb]

section
variable {s : State} {x : Ix} {d : BitVec 7} {sc : Nat} {as : List MemAcc}

theorem nearLoad_isNone (a : MemAcc) : (x.nearLoad s a).isNone = a.past := by
  unfold Ix.nearLoad
  cases a.past <;> rfl

theorem nearLoad_isSome (a : MemAcc) : (x.nearLoad s a).isSome = !a.past := by
  unfold Ix.nearLoad
  cases a.past <;> rfl

theorem acquireLoad_error {u : State} {tr : Trap} (h : x.readAll s (as.filter MemAcc.past) = .error (u, tr)) :
    x.acquireLoad s d sc as = .trap u tr := by
  unfold Ix.acquireLoad
  simp only [nearLoad_isNone]
  rw [h]

/-- The values of LDA, in order: those read past L1, then those read as a load reads them. -/
def Ix.acquired (x : Ix) (s1 : State) (as : List MemAcc) (vs : List Nat) : List (MemAcc × Nat) :=
  (as.filter MemAcc.past).zip vs ++ (as.filter fun a => !a.past).map fun a =>
    (a, leNat ((a.vas.zip a.pas).map (s1.loadByte (x.outst s1 0 a false false 0 0))))

theorem acquireLoad_ok {s1 : State} {vs : List Nat} (h : x.readAll s (as.filter MemAcc.past) = .ok (s1, vs))
    (hd : ∀ a ∈ as, a.past = false → s.deadLink (x.outst s 0 a false false 0 0) = false) :
    ∃ u, Cached s1 u ∧ (wideScope x.T sc = true → (∀ a ∈ as, a.nc = true) → u.l1 = s1.l1) ∧
      x.acquireLoad s d sc as = .ok ((x.acquire u sc).addLoads ((x.acquired s1 as vs).zipIdx.map fun e =>
        { x.formed u e.2 e.1.1.lane false d.toNat 1 (BitVec.ofNat 128 e.1.2) with addrs := e.1.1.vas.zip e.1.1.pas })) none := by
  have hfind : (as.find? fun a => match x.nearLoad s a with | some o => s.deadLink o | none => false) = none := by
    refine List.find?_eq_none.mpr fun a ha => ?_
    unfold Ix.nearLoad
    cases hp : a.past with
    | true => exact Bool.false_ne_true
    | false => exact fun hdead => by cases (hd a ha hp).symm.trans hdead
  have hfill : Cached s1 (as.foldl (fun t a => match x.nearLoad s a with | some o => t.fillFor o | none => t) s1) :=
    cached_foldl (fun t a => by
      split
      · exact cached_fillFor t _
      · exact .refl t) as s1
  have hsame : ∀ l : List MemAcc, (∀ a ∈ l, a.nc = true) →
      l.foldl (fun t a => match x.nearLoad s a with | some o => t.fillFor o | none => t) s1 = s1 := fun l => by
    induction l with
    | nil => exact fun _ => rfl
    | cons a l ih =>
      intro hl
      have ha : x.nearLoad s a = none := if_pos (by unfold MemAcc.past; rw [hl a (by simp), Bool.true_or])
      rw [List.foldl_cons, ha]
      exact ih fun b hb => hl b (by simp [hb])
  refine ⟨_, hfill.trans (shared_keepLeaves x _ as).cached, fun _ hnc => ?_, ?_⟩
  · rw [(shared_keepLeaves x _ as).1, hsame as hnc]
  · unfold Ix.acquireLoad
    simp only [nearLoad_isNone, nearLoad_isSome]
    rw [h]
    dsimp only
    rw [hfind]
    rfl

end

section
variable {s : State} {x : Ix} {e r : Bool} {d a : BitVec 7} {sc : BitVec 3} {z : BitVec 2} {as : List MemAcc}

/-- LDA whose accesses pass their checks waits, or reads. -/
theorem lda_exec (hs : Starts s x (.lda e d a sc r z)) (hu : Usable s x [.reg d.toNat, .srcPair a.toNat])
    (h : x.globalAcc s (if wideScope x.T sc.toNat then .fresh else .load) (memBytes z.toNat) x.lanes
      (fun l => (x.srcPair a.toNat l).toNat % 2 ^ 56) = .ok as) :
    exec (.lda e d a sc r z) s = run (.lda e d a sc r z) s fun _ =>
      if (r && s.promotes (as.flatMap (·.pas))) || (wideScope x.T sc.toNat && as.any fun a => s.coreStoreOn x.core a.pas) ||
          s.devBusy x.w as || as.any fun a => s.laneLoadOn x.w a.lane a.pas then .stall
      else x.acquireLoad s d sc.toNat (if wideScope x.T sc.toNat then as.map fun a => { a with nc := true } else as) := by
  have haddr : x.gaddr a 0 = fun l => (x.srcPair a.toNat l).toNat % 2 ^ 56 := funext fun l => gaddr_eq x a 0 l
  refine run_const hs rfl ?_
  show withOperands x s _ _ = _
  rw [withOperands_usable hu, haddr]
  dsimp only
  rw [h]
  rfl

/-- LDA with nothing to wait for. -/
theorem lda_reads (hs : Starts s x (.lda e d a sc r z)) (hu : Usable s x [.reg d.toNat, .srcPair a.toNat])
    (h : x.globalAcc s (if wideScope x.T sc.toNat then .fresh else .load) (memBytes z.toNat) x.lanes
      (fun l => (x.srcPair a.toNat l).toNat % 2 ^ 56) = .ok as) (hr : r = true → s.promotes (as.flatMap (·.pas)) = false)
    (hwait : ∀ a ∈ as, s.laneLoadOn x.w a.lane a.pas = false ∧ (wideScope x.T sc.toNat = true → s.coreStoreOn x.core a.pas = false))
    (hdev : s.devBusy x.w as = false) : exec (.lda e d a sc r z) s = run (.lda e d a sc r z) s fun _ =>
      x.acquireLoad s d sc.toNat (if wideScope x.T sc.toNat then as.map fun a => { a with nc := true } else as) := by
  rw [lda_exec hs hu h, if_neg]
  simp only [Bool.or_eq_true, Bool.and_eq_true, List.any_eq_true, not_or, not_and, not_exists, hdev]
  refine ⟨⟨⟨fun hr' hp => ?_, fun hw b hb hc => ?_⟩, Bool.false_ne_true⟩, fun b hb hl => ?_⟩
  · cases (hr hr').symm.trans hp
  · cases ((hwait b hb).2 hw).symm.trans hc
  · cases (hwait b hb).1.symm.trans hl

end

/-- The values of LDA are outstanding replies. -/
theorem addLoads_acquired {x : Ix} {d : BitVec 7} {s u v : State} (hn : u.nextId = s.nextId) (hl : u.loads = s.loads) (hv : v.nextId = s.nextId)
    (values : List (MemAcc × Nat)) : (u.addLoads (values.zipIdx.map fun e =>
        { x.formed v e.2 e.1.1.lane false d.toNat 1 (BitVec.ofNat 128 e.1.2) with addrs := e.1.1.vas.zip e.1.1.pas })) = { u with
      nextId := s.nextId + values.length
      loads := s.loads ++ values.zipIdx.map fun e =>
        { x.formed s e.2 e.1.1.lane false d.toNat 1 (BitVec.ofNat 128 e.1.2) with
          addrs := e.1.1.vas.zip e.1.1.pas, size := values.length } } := by
  unfold State.addLoads State.addPart Ix.formed
  rw [hn, hl, hv, List.map_map, List.length_map, List.length_map, List.length_zipIdx]
  rfl

/-- Settles O27: LDA waits, fails at an access that cannot be read, or leaves its values outstanding. -/
theorem loadAcquire : Obligations.LoadAcquire := by
  intro s x e r d a sc z as i wide bs past near hu h hs
  rw [← memBytes_eq] at h
  refine ⟨fun hr hp => ?_, fun hr hwait hdev => ⟨fun u tr herr => ?_, fun s1 vs hok hdead => ?_, fun hmem => ?_⟩⟩
  · refine (lda_exec hs hu h).trans ?_
    rw [if_pos (by rw [hr, hp]; rfl), run_starts hs]
    rfl
  · exact trapsIn_polled hs (lda_reads hs hu h hr hwait hdev) ((polled_readAll x _ s).1 u tr herr) (acquireLoad_error herr)
  · intro values
    have hpoll := (polled_readAll x _ s).2 s1 vs hok
    obtain ⟨u, hc, hl1, hbody⟩ := acquireLoad_ok (d := d) (sc := sc.toNat) hok hdead
    have hn : u.nextId = s.nextId := (by rw [hc.1] : u.nextId = s1.nextId).trans hpoll.nextId
    have hl : u.loads = s.loads := (by rw [hc.1] : u.loads = s1.loads).trans hpoll.loads
    have hw : u.warp x.w = some x.W := by
      have : u.warp x.w = s1.warp x.w := by rw [hc.1]; rfl
      rw [this, hpoll.warp]
      exact (issuing_spec hs.1).2.1
    have hacq : Cached u (x.acquire u sc.toNat) := by
      unfold Ix.acquire
      split
      · exact cached_l1Drop u _ _
      · exact .refl u
    have heq := acquire_eq x u sc.toNat
    rw [addLoads_acquired (s := s) ((by rw [heq] : (x.acquire u sc.toNat).nextId = u.nextId).trans hn)
      ((by rw [heq] : (x.acquire u sc.toNat).loads = u.loads).trans hl) hn] at hbody
    obtain ⟨t, ht⟩ := completes_other hs (lda_reads hs hu h hr hwait hdev) hbody ((by rw [heq]; rfl : (x.acquire u sc.toNat).warp x.w = u.warp x.w).trans hw)
    refine ⟨x.acquire u sc.toNat, t, hc.trans hacq, ht, fun hwide L => ?_⟩
    have ht1 : t.l1 = (x.acquire u sc.toNat).l1 := by
      obtain ⟨-, ⟨htf, -⟩, -⟩ := ht
      rw [htf]
    have hnc : ∀ b ∈ bs, b.nc = true := fun b hb => by
      have hbs : bs = as.map fun a => { a with nc := true } := if_pos hwide
      rw [hbs] at hb
      obtain ⟨b0, -, rfl⟩ := List.mem_map.mp hb
      rfl
    have hwide' : wideScope x.T sc.toNat = true := hwide
    rw [ht1, mem_acquire_l1, hl1 hwide hnc, hpoll.l1]
    simp only [hwide', true_and]
  · obtain ⟨s1, h1, h2⟩ := readAll_mem (x := x) (s := s) (as := bs.filter past) fun b hb =>
      hmem b (List.mem_filter.mp hb).1 (List.mem_filter.mp hb).2
    exact ⟨s1, h2, h1⟩

end Sys2Proof.Machine
end

section
/-! Wide release stores and multicast stores (O28). -/

namespace Sys2Proof.Machine

/-! ## STREL at a wide scope (11 R259; 10 R235) -/

theorem written_sysRelease (s : State) (sc : Nat) : Written s (s.sysRelease sc) ∧ ∀ pa, (s.sysRelease sc).byteAt pa = s.byteAt pa := by
  unfold State.sysRelease
  split
  · exact ⟨(shared_writeBackAll s).written, (shared_writeBackAll s).2⟩
  · exact ⟨.refl s, fun _ => rfl⟩

section
variable {s : State} {x : Ix} {e : Bool} {d a : BitVec 7} {sc : BitVec 3} {z : BitVec 2} {as : List MemAcc}

/-- A wide STREL whose release has nothing to wait for writes its lanes' bytes in order. -/
theorem strelWide_exec (hs : Starts s x (.strel e d a sc z)) (hu : Usable s x [.src d.toNat, .srcPair a.toNat])
    (h : x.globalAcc s .store (memBytes z.toNat) x.lanes (fun l => (x.srcPair a.toNat l).toNat % 2 ^ 56) = .ok as)
    (hwide : wideScope x.T sc.toNat = true) (hwait : x.releaseWaits s sc.toNat = false) : exec (.strel e d a sc z) s = .next (retire x (.strel e d a sc z)
      ((as.foldl (fun s a => x.writeAt s a (leBytes (memBytes z.toNat) (x.storeVal d z.toNat a.lane))) (x.keepLeaves s as)).sysRelease sc.toNat) none) := by
  have haddr : x.gaddr a 0 = fun l => (x.srcPair a.toNat l).toNat % 2 ^ 56 := funext fun l => gaddr_eq x a 0 l
  have hb : exec (.strel e d a sc z) s = run (.strel e d a sc z) s fun _ => .ok
      ((as.foldl (fun s a => x.writeAt s a (leBytes (memBytes z.toNat) (x.storeVal d z.toNat a.lane))) (x.keepLeaves s as)).sysRelease sc.toNat) none := by
    refine run_const hs rfl ?_
    show withOperands x s _ _ = _
    rw [withOperands_usable hu, haddr]
    dsimp only
    rw [h]
    dsimp only
    rw [hwait, if_neg Bool.false_ne_true, if_pos hwide]
  rw [hb, run_starts hs]
  rfl

end

/-! ## MCST (11 R260; 09 R222) -/

theorem Shared.replicas {s t : State} (h : Shared s t) (ctx : Nat) (a : MemAcc) : a.replicas t ctx = a.replicas s ctx := by
  rw [h.1]
  rfl

/-- The stores of the k-th access of an MCST of n bytes: one of each byte to each replica, or those of an STG. -/
def Ix.castStores (x : Ix) (s : State) (n base : Nat) (span : List (Nat × Nat)) (v : Nat → Nat) (r : MemAcc × Nat) : List PStore :=
  if 1 < (r.1.replicas s x.T.ctx).length then
    (r.1.replicas s x.T.ctx).zipIdx.flatMap fun q => (List.range n).map fun j =>
      { x.pstore s 0 { r.1 with vas := (r.1.vas.drop j).take 1, pas := (q.1.drop j).take 1 } ((leBytes n (v r.1.lane)).drop j) with
        id := base + 16 * (n * r.2 + j) + q.2, grp := base, mcst := true, span := span, rel := x.tag none r.1.lane }
  else r.1.parts.map fun p =>
    { x.pstore s 0 p.1 ((leBytes n (v r.1.lane)).drop (4 * p.2)) with
      id := base + 16 * n * r.2 + p.2, grp := base, rel := x.tag none r.1.lane }

section
variable {s : State} {x : Ix} {n base : Nat} {span : List (Nat × Nat)} {as : List MemAcc}

/-- A replicated page that no level bypasses is written byte by byte. -/
theorem replicaStores_eq {k v : Nat} {a : MemAcc} (h : ∀ l ∈ a.replicas s x.T.ctx, uncached (l.headD 0) = false) :
    x.replicaStores s base n span k a v = (a.replicas s x.T.ctx).zipIdx.flatMap fun q => (List.range n).map fun j =>
      { x.pstore s 0 { a with vas := (a.vas.drop j).take 1, pas := (q.1.drop j).take 1 } ((leBytes n v).drop j) with
        id := base + 16 * (n * k + j) + q.2, grp := base, mcst := true, span := span, rel := x.tag none a.lane } := by
  unfold Ix.replicaStores
  refine List.flatMap_congr fun q hq => ?_
  have hmem : q.1 ∈ a.replicas s x.T.ctx := by
    obtain ⟨-, -, hq'⟩ := List.mem_zipIdx hq
    rw [hq']
    exact List.getElem_mem _
  dsimp only
  rw [h q.1 hmem, if_neg Bool.false_ne_true, Nat.div_one]

theorem castStores_shared {u : State} (h : Shared s u) (v : Nat → Nat) (r : MemAcc × Nat) :
    x.castStores u n base span v r = x.castStores s n base span v r := by
  unfold Ix.castStores
  simp only [h.replicas, h.pstore]

end

section
variable {s : State} {x : Ix} {e : Bool} {d a : BitVec 7} {o : BitVec 5} {z : BitVec 2} {as : List MemAcc}

/-- The rows of memory that the replicas of an MCST's accesses occupy. -/
def Ix.castSpan (x : Ix) (s : State) (n : Nat) (as : List MemAcc) : List (Nat × Nat) :=
  (as.filter fun a => decide (1 < (a.replicas s x.T.ctx).length)).flatMap fun a => (a.replicas s x.T.ctx).map fun l => (l.headD 0, n)

theorem mcst_completes (hs : Starts s x (.mcst e d a o z)) (hu : Usable s x [storeSrc d z.toNat, .srcPair a.toNat])
    (h : x.globalAcc s .mcst (memBytes z.toNat) x.lanes (x.gaddr a (o.toNat * memBytes z.toNat)) = .ok as)
    (hroom : ∀ a ∈ as, 1 < (a.replicas s x.T.ctx).length → s.mcstCount x.core < 8 ∧
      ∀ l ∈ a.replicas s x.T.ctx, uncached (l.headD 0) = false) :
    let base := (s.nextId + 15) / 16 * 16
    ∃ u t, Shared s u ∧ CompletesIn s { u with
      nextId := base + 16 * memBytes z.toNat * as.length
      stores := s.stores ++ as.zipIdx.flatMap (x.castStores s (memBytes z.toNat) base (x.castSpan s (memBytes z.toNat) as) (x.storeVal d z.toNat)) }
      t x (.mcst e d a o z) none x.W := by
  intro base
  have hk := shared_keepLeaves x s as
  have hb : exec (.mcst e d a o z) s = run (.mcst e d a o z) s fun _ => .ok { x.keepLeaves s as with
      nextId := base + 16 * memBytes z.toNat * as.length
      stores := s.stores ++ as.zipIdx.flatMap (x.castStores s (memBytes z.toNat) base (x.castSpan s (memBytes z.toNat) as) (x.storeVal d z.toNat)) } none := by
    refine run_const hs rfl ?_
    show withOperands x s _ _ = _
    rw [withOperands_usable hu]
    dsimp only
    rw [h]
    dsimp only
    rw [if_neg fun hfull => by
      obtain ⟨hany, hcount⟩ := Bool.and_eq_true_iff.mp hfull
      obtain ⟨b, hb, hrep⟩ := List.any_eq_true.mp hany
      exact absurd (of_decide_eq_true hcount) (Nat.not_le.mpr (hroom b hb (of_decide_eq_true hrep)).1)]
    simp only [hk.nextId, hk.stores, hk.replicas]
    refine congrArg (fun l => Res.ok { x.keepLeaves s as with nextId := _, stores := s.stores ++ l } none) (List.flatMap_congr fun r hr => ?_)
    rw [← castStores_shared hk]
    unfold Ix.castStores
    rw [hk.replicas]
    by_cases hrep : 1 < (r.1.replicas s x.T.ctx).length
    · rw [if_pos (decide_eq_true hrep), if_pos hrep, ← hk.replicas]
      have hmem : r.1 ∈ as := by
        obtain ⟨-, -, hr'⟩ := List.mem_zipIdx hr
        rw [hr']
        exact List.getElem_mem _
      exact replicaStores_eq fun l hl => (hroom r.1 hmem hrep).2 l (hk.replicas x.T.ctx r.1 ▸ hl)
    · rw [if_neg (by simpa using hrep), if_neg hrep]
  obtain ⟨t, ht⟩ := completes_other hs hb rfl ((hk.warp x.w).trans (issuing_spec hs.1).2.1)
  exact ⟨_, t, hk, ht⟩

end

/-- Settles O28: a wide release store writes its bytes now; a multicast store is issued once for each replica. -/
theorem releaseStoreAndMulticast : Obligations.ReleaseStoreAndMulticast := by
  intro s x e d a o sc z as n data fence rel
  have hn : memBytes z.toNat = n := memBytes_eq z
  have hval : x.storeVal d z.toNat = data := funext (storeVal_eq x d z)
  have hrel : x.tag none = rel := tag_none x
  clear_value n data rel
  subst hn hval hrel
  refine ⟨fun hu hz h hwide hwait hs => ⟨fun hcached => ?_, fun hdev hsc => ?_⟩, fun hu h => ?_⟩
  · have hdata : ∀ l, x.storeVal d z.toNat l = (x.src d.toNat l).toNat := fun l => (storeVal_eq x d z l).trans (if_neg hz)
    have hk := shared_keepLeaves x s as
    obtain ⟨hw, hb⟩ := writes_spec (x := x) (fun a => leBytes (memBytes z.toNat) (x.storeVal d z.toNat a.lane)) as (x.keepLeaves s as) hcached
    obtain ⟨hw2, hb2⟩ := written_sysRelease (as.foldl (fun s a => x.writeAt s a (leBytes (memBytes z.toNat) (x.storeVal d z.toNat a.lane))) (x.keepLeaves s as)) sc.toNat
    refine ⟨_, strelWide_exec hs hu h hwide hwait, (hk.written.trans hw).trans hw2, fun pa => ?_, fun hsys pa => ?_⟩
    · rw [hb2, hb]
      simp only [hk.2, hk.reaches, hdata]
    · subst hsys
      exact dirty_writeBackAll _ pa
  · have hk := shared_keepLeaves x s as
    refine ⟨_, hk, (strelWide_exec hs hu h hwide hwait).trans ?_⟩
    have hno : ∀ u : State, u.sysRelease sc.toNat = u := fun u => if_neg fun h => hsc (BitVec.eq_of_toNat_eq h)
    rw [hno]
    refine congrArg (fun u => Host.Outcome.next (retire x (.strel e d a sc z) u none)) ?_
    refine List.foldl_ext _ _ _ fun u b hb => ?_
    exact if_pos (hdev b hb)
  · intro copies hroom hs base span
    rw [← src_eq] at hu
    exact mcst_completes hs hu (by rw [funext (gaddr_eq x a (o.toNat * memBytes z.toNat))]; exact h) hroom

end Sys2Proof.Machine
end

section
/-! Switching banks (O38). -/

namespace Sys2Proof.Machine

/-! ## Paths that wait (11 R254; 15 R323) -/

theorem waiter_spec {s : State} {w : Nat} {x : Ix} {k : Wait} (h : s.waiter w = some (x, k)) :
    x.w = w ∧ s.warp x.w = some x.W ∧ x.W.running = some x.low ∧ x.W.path x.low = some x.P ∧ s.team x.W.team = some x.T := by
  unfold State.waiter at h
  cases hi : ({ s with cur := w } : State).issuing with
  | none => rw [hi] at h; cases h
  | some y =>
    rw [hi] at h
    obtain ⟨v, -, hv⟩ := Option.map_eq_some_iff.mp h
    cases hv
    obtain ⟨hw, hW, hrun, hP, hT⟩ := issuing_spec hi
    exact ⟨hw.symm, hW, hrun, hP, hT⟩

/-- A path that waits takes a fault that is none of a translation. -/
theorem raise_waiting {s : State} {x : Ix} {st : Stop} {t : Trap} (hW : s.warp x.w = some x.W) (hP : x.W.path x.low = some x.P)
    (hT : s.team x.W.team = some x.T) (hcode : t.code ≠ 14) (hc : st.code = t.code) :
    TakesFault s (raise x s st t) x st (x.record 3 t.code t.cause t.addr t.aux0 t.aux1 (t.lane.getD x.low)) := by
  obtain ⟨hsame, hteam, hteams, hwarps, hpath⟩ := hold_fault (st := st) hW hP hT
    (x.record 3 t.code t.cause t.addr t.aux0 t.aux1 (t.lane.getD x.low))
  unfold TakesFault raise
  rw [hc, if_neg hcode, if_neg hcode]
  refine ⟨hsame, fun pa => ?_, hteam, hteams, hwarps, hpath⟩
  unfold SameStore at hsame
  rw [hsame]
  rfl

/-- The paths that wait on empty lines stand in the tables of warps and teams. -/
theorem waiter_congr {s t : State} (hw : t.warps = s.warps) (ht : t.teams = s.teams) (w : Nat) : t.waiter w = s.waiter w := by
  unfold State.waiter State.issuing State.warp State.team
  rw [hw, ht]

theorem lineWaiters_congr {s t : State} (hw : t.warps = s.warps) (ht : t.teams = s.teams) : t.lineWaiters = s.lineWaiters := by
  unfold State.lineWaiters
  rw [hw]
  simp only [waiter_congr hw ht]

theorem lineWaiter_spec {s : State} {y : Ix} {j : Instr} (h : (y, j) ∈ s.lineWaiters) :
    s.warp y.w = some y.W ∧ y.W.path y.low = some y.P ∧ s.team y.W.team = some y.T := by
  unfold State.lineWaiters at h
  obtain ⟨r, hr, hj⟩ := List.mem_filterMap.mp h
  obtain ⟨e, -, he⟩ := List.mem_filterMap.mp hr
  by_cases hk : r.2.kind = .emptyLine
  · rw [if_pos hk] at hj
    cases hj
    obtain ⟨-, hW, -, hP, hT⟩ := waiter_spec he
    exact ⟨hW, hP, hT⟩
  · rw [if_neg hk] at hj
    cases hj

theorem performFull_none {s : State} (h : s.lineWaiters = []) (bs : List Nat) : s.performFull bs = s := by
  unfold State.performFull
  rw [h]
  rfl

theorem trapWaiters_none {s : State} (h : s.lineWaiters = []) : s.trapWaiters = s := by
  unfold State.trapWaiters
  rw [h]
  rfl

/-! ## One path that waits on empty lines -/

section
variable {s : State} {y : Ix} {j : Instr} {n : Nat} {lanes bs : List Nat} {off : Nat → Nat}

theorem mem_waitingAt (hu : y.scratchUse j = some (n, lanes, off)) {l : Nat} {p : Nat × Nat × Nat} :
    (l, p) ∈ y.waitingAt j ↔ l ∈ lanes.filter (fun l => !y.P.done.getLsbD l) ∧ y.T.scratchAt (off l) n = some p := by
  unfold Ix.waitingAt
  rw [hu]
  simp only [List.mem_filterMap, Option.map_eq_some_iff, Prod.mk.injEq]
  constructor
  · rintro ⟨k, hk, q, hq, rfl, rfl⟩
    exact ⟨hk, hq⟩
  · rintro ⟨hl, hp⟩
    exact ⟨l, hl, p, hp, rfl, rfl⟩

theorem waitsOn_iff (hu : y.scratchUse j = some (n, lanes, off)) : ((y.waitingAt j).any fun e => bs.contains (32 * e.2.1 + e.2.2.1)) = true ↔
    ∃ l ∈ lanes.filter (fun l => !y.P.done.getLsbD l), ∃ p, y.T.scratchAt (off l) n = some p ∧ 32 * p.1 + p.2.1 ∈ bs := by
  rw [List.any_eq_true]
  constructor
  · rintro ⟨⟨l, p⟩, he, hb⟩
    obtain ⟨hl, hp⟩ := (mem_waitingAt hu).mp he
    exact ⟨l, hl, p, hp, List.contains_iff_mem.mp hb⟩
  · rintro ⟨l, hl, p, hp, hb⟩
    exact ⟨(l, p), (mem_waitingAt hu).mpr ⟨hl, hp⟩, List.contains_iff_mem.mpr hb⟩

variable (hw : s.lineWaiters = [(y, j)]) (hu : y.scratchUse j = some (n, lanes, off))
include hw hu

theorem performFull_on (h : ∃ l ∈ lanes.filter (fun l => !y.P.done.getLsbD l), ∃ p, y.T.scratchAt (off l) n = some p ∧ 32 * p.1 + p.2.1 ∈ bs) :
    s.performFull bs = s.releaseLine y.w := by
  unfold State.performFull
  rw [hw, List.filter_cons, if_pos ((waitsOn_iff hu).mpr h)]
  rfl

theorem performFull_off (h : ∀ l ∈ lanes.filter (fun l => !y.P.done.getLsbD l), ¬ ∃ p, y.T.scratchAt (off l) n = some p ∧ 32 * p.1 + p.2.1 ∈ bs) :
    s.performFull bs = s := by
  unfold State.performFull
  rw [hw, List.filter_cons, if_neg fun ha => by
    obtain ⟨l, hl, hp⟩ := (waitsOn_iff hu).mp ha
    exact h l hl hp]
  rfl

/-- The bank-mode fault of one waiting lane. -/
def Ix.cutAt (y : Ix) (s : State) (n : Nat) (off : Nat → Nat) (l : Nat) : Option Trap :=
  (y.T.scratchAt (off l) n).bind fun p =>
    if (s.bankOf p).mash && s.isEmpty p then some ⟨17, 0, 0, y.T.bankIndex p, 0, some l⟩ else none

omit hw in
theorem cutOff_eq : y.cutOff s j = (lanes.filter fun l => !y.P.done.getLsbD l).findSome? (y.cutAt s n off) := by
  unfold Ix.cutOff Ix.waitingAt
  rw [hu]
  dsimp only
  induction lanes.filter (fun l => !y.P.done.getLsbD l) with
  | nil => rfl
  | cons l todo ih =>
    rw [List.findSome?_cons, ← ih, List.filterMap_cons]
    unfold Ix.cutAt
    cases y.T.scratchAt (off l) n with
    | none => rfl
    | some p => exact List.findSome?_cons

omit hw hu in
theorem cutAt_none {l : Nat} (h : ¬ ∃ p, y.T.scratchAt (off l) n = some p ∧ (s.bankOf p).mash = true ∧ s.isEmpty p = true) :
    y.cutAt s n off l = none := by
  unfold Ix.cutAt
  cases hp : y.T.scratchAt (off l) n with
  | none => rfl
  | some p => exact if_neg fun hc => h ⟨p, hp, Bool.and_eq_true_iff.mp hc⟩

theorem trapWaiters_uncut (h : ∀ l ∈ lanes.filter (fun l => !y.P.done.getLsbD l),
    ¬ ∃ p, y.T.scratchAt (off l) n = some p ∧ (s.bankOf p).mash = true ∧ s.isEmpty p = true) : s.trapWaiters = s := by
  have hcut : y.cutOff s j = none := (cutOff_eq hu).trans (List.findSome?_eq_none_iff.mpr fun l hl => cutAt_none (h l hl))
  unfold State.trapWaiters
  rw [hw, List.filterMap_cons, hcut]
  rfl

/-- The lowest lane that waits on an empty line of a bank in mash mode takes the bank-mode fault. -/
theorem trapWaiters_cut {pre post : List Nat} {l : Nat} {p : Nat × Nat × Nat} (htodo : lanes.filter (fun l => !y.P.done.getLsbD l) = pre ++ l :: post)
    (hpre : ∀ k ∈ pre, ¬ ∃ p, y.T.scratchAt (off k) n = some p ∧ (s.bankOf p).mash = true ∧ s.isEmpty p = true)
    (hp : y.T.scratchAt (off l) n = some p) (hmash : (s.bankOf p).mash = true) (hempty : s.isEmpty p = true) :
    TakesFault s s.trapWaiters y (j.stop y.T.width ⟨17, 0, 0, y.T.bankIndex p, 0, some l⟩) (y.record 3 17 0 0 (y.T.bankIndex p) 0 l) := by
  have hat : y.cutAt s n off l = some ⟨17, 0, 0, y.T.bankIndex p, 0, some l⟩ := by
    unfold Ix.cutAt
    rw [hp]
    exact if_pos (by rw [hmash, hempty]; rfl)
  have hcut : y.cutOff s j = some ⟨17, 0, 0, y.T.bankIndex p, 0, some l⟩ := by
    rw [cutOff_eq hu, htodo, List.findSome?_append, List.findSome?_eq_none_iff.mpr fun k hk => cutAt_none (hpre k hk),
      List.findSome?_cons, hat]
    rfl
  have ht : s.trapWaiters = raise y s (j.stop y.T.width ⟨17, 0, 0, y.T.bankIndex p, 0, some l⟩) ⟨17, 0, 0, y.T.bankIndex p, 0, some l⟩ := by
    unfold State.trapWaiters
    rw [hw, List.filterMap_cons, hcut]
    rfl
  obtain ⟨hW, hP, hT⟩ := lineWaiter_spec (s := s) (y := y) (j := j) (by rw [hw]; exact List.mem_singleton_self _)
  rw [ht]
  exact raise_waiting hW hP hT (by decide : (17 : Nat) ≠ 14) rfl

end

/-! ## The switch (14 R294; 15 R323) -/

/-- The banks of a switch are in the new mode, and their lines are full in storage mode. -/
theorem switchBanks_spec (core : Nat) (m : Bool) : ∀ (bs : List Nat) (v : State),
    v.switchBanks core bs m = { v with banks := (v.switchBanks core bs m).banks, empty := (v.switchBanks core bs m).empty } ∧
    (∀ j, (∀ b ∈ bs, j ≠ 32 * core + b) → tget Bank.zero (v.switchBanks core bs m).banks j = tget Bank.zero v.banks j) ∧
    (∀ b ∈ bs, tget Bank.zero (v.switchBanks core bs m).banks (32 * core + b) = { tget Bank.zero v.banks (32 * core + b) with mash := m }) ∧
    ∀ j, tget false (v.switchBanks core bs m).empty j = true ↔ tget false v.empty j = true ∧
      ¬ (m = false ∧ ∃ b ∈ bs, core * 2 ^ 16 + b * 2 ^ 11 ≤ j ∧ j < core * 2 ^ 16 + b * 2 ^ 11 + 2 ^ 11)
  | [], v => ⟨rfl, fun _ _ => rfl, fun b hb => absurd hb (by simp), fun j => by simp [State.switchBanks]⟩
  | b :: bs, v => by
    let v1 : State := { v.setBank core b { v.bank core b with mash := m } with
      empty := if m then v.empty else tclear v.empty (core * 2 ^ 16 + b * 2 ^ 11) (core * 2 ^ 16 + b * 2 ^ 11 + 2 ^ 11) }
    obtain ⟨hframe, hother, hbanks, hempty⟩ := switchBanks_spec core m bs v1
    have hstep : v.switchBanks core (b :: bs) m = v1.switchBanks core bs m := rfl
    rw [hstep]
    have hb1 : ∀ j, tget Bank.zero v1.banks j =
        if j = 32 * core + b then { tget Bank.zero v.banks (32 * core + b) with mash := m } else tget Bank.zero v.banks j := fun j => tget_tput _ _ _ _ _
    have he1 : ∀ j, tget false v1.empty j = true ↔ tget false v.empty j = true ∧
        ¬ (m = false ∧ core * 2 ^ 16 + b * 2 ^ 11 ≤ j ∧ j < core * 2 ^ 16 + b * 2 ^ 11 + 2 ^ 11) := fun j => by
      cases m with
      | true => simp [v1]
      | false =>
        show tget false (tclear _ _ _) j = true ↔ _
        rw [tget_tclear]
        by_cases hin : core * 2 ^ 16 + b * 2 ^ 11 ≤ j ∧ j < core * 2 ^ 16 + b * 2 ^ 11 + 2 ^ 11
        · rw [if_pos hin]
          exact ⟨fun h => absurd h Bool.false_ne_true, fun h => absurd ⟨rfl, hin⟩ h.2⟩
        · rw [if_neg hin]
          exact ⟨fun h => ⟨h, fun hc => hin hc.2⟩, fun h => h.1⟩
    refine ⟨by rw [hframe]; rfl, fun j hj => ?_, fun c hc => ?_, fun j => ?_⟩
    · rw [hother j fun c hc => hj c (by simp [hc]), hb1, if_neg (hj b (by simp))]
    · by_cases hin : c ∈ bs
      · rw [hbanks c hin, hb1]
        by_cases hcb : c = b
        · rw [if_pos (by rw [hcb]), hcb]
        · rw [if_neg (by omega)]
      · have hcb : c = b := by simpa [hin] using hc
        subst hcb
        rw [hother _ fun q hq h => hin ((Nat.add_left_cancel h : c = q) ▸ hq), hb1, if_pos rfl]
    · rw [hempty, he1]
      refine ⟨fun ⟨⟨h, h1⟩, h2⟩ => ⟨h, fun ⟨hm, c, hc, hin⟩ => ?_⟩, fun ⟨h, hno⟩ =>
        ⟨⟨h, fun ⟨hm, hin⟩ => hno ⟨hm, b, by simp, hin⟩⟩, fun ⟨hm, c, hc, hin⟩ => hno ⟨hm, c, by simp [hc], hin⟩⟩⟩
      rcases List.mem_cons.mp hc with rfl | hc
      · exact h1 ⟨hm, hin⟩
      · exact h2 ⟨hm, c, hc, hin⟩

/-- The switch of banks given as 32 × core + bank, from the state in which the waits on full lines have ended. -/
theorem switch_spec (x : Ix) (s : State) (bs : List Nat) (m : Bool) : let v := s.performFull bs
    let u := x.switch s bs m
    u = { v with banks := u.banks, empty := u.empty, loads := u.loads } ∧
    u.loads = (v.settle fun loc => isScratch loc && bs.contains ((loc - scrLoc) / 2 ^ 18)).loads ∧
    (∀ j, (∀ q ∈ bs, j ≠ 32 * x.core + q % 32) → tget Bank.zero u.banks j = tget Bank.zero v.banks j) ∧
    (∀ q ∈ bs, tget Bank.zero u.banks (32 * x.core + q % 32) = { tget Bank.zero v.banks (32 * x.core + q % 32) with mash := m }) ∧
    ∀ j, tget false u.empty j = true ↔ tget false v.empty j = true ∧
      ¬ (m = false ∧ ∃ q ∈ bs, x.core * 2 ^ 16 + q % 32 * 2 ^ 11 ≤ j ∧ j < x.core * 2 ^ 16 + q % 32 * 2 ^ 11 + 2 ^ 11) := by
  intro v u
  obtain ⟨hframe, hother, hbanks, hempty⟩ := switchBanks_spec x.core m (bs.map (· % 32))
    (v.settle fun loc => isScratch loc && bs.contains ((loc - scrLoc) / 2 ^ 18))
  have hu : u = { v.settle (fun loc => isScratch loc && bs.contains ((loc - scrLoc) / 2 ^ 18)) with banks := u.banks, empty := u.empty } := hframe
  have hl : u.loads = (v.settle fun loc => isScratch loc && bs.contains ((loc - scrLoc) / 2 ^ 18)).loads := by
    rw [hu]
  refine ⟨?_, hl, fun j hj => hother j fun b hb => ?_, fun q hq => hbanks _ (List.mem_map_of_mem hq), fun j => (hempty j).trans ?_⟩
  · rw [hl]
    exact hu
  · obtain ⟨q, hq, rfl⟩ := List.mem_map.mp hb
    exact hj q hq
  · simp only [List.mem_map, exists_exists_and_eq_and]
    rfl

theorem mayswitch_iff {x : Ix} {s : State} {bs : List Nat} : x.mayswitch s bs = true ↔ ∀ q ∈ bs,
    (tget Bank.zero s.banks (32 * x.core + q % 32)).ops = [] ∧ s.copyWrites x.W.team x.T x.core (q % 32) = false ∧ s.storesTo q = false := by
  unfold Ix.mayswitch
  rw [List.all_eq_true]
  refine forall₂_congr fun q _ => ?_
  rw [Bool.and_eq_true, Bool.and_eq_true, List.isEmpty_iff, Bool.not_eq_true', Bool.not_eq_true', and_assoc]
  rfl

/-! ## BANK and MWAIT (15 R323 to R325) -/

/-- The banks of a mask that are in the other mode than `m`, as 32 × core + bank. -/
def Ix.toSwitch (x : Ix) (s : State) (mask : Nat) (m : Bool) : List Nat :=
  (((x.named mask).map (·.2)).filter fun b => (s.bank x.core b).mash != m).map fun b => 32 * x.core + b

theorem mem_zipIdx_filter {l : List Nat} {p : Nat → Bool} {b j : Nat} :
    (b, j) ∈ l.zipIdx.filter (fun e => p e.2) ↔ l[j]? = some b ∧ p j = true := by
  rw [List.mem_filter, List.mem_zipIdx_iff_getElem?]

theorem mem_toSwitch {x : Ix} {s : State} {mask : Nat} {m : Bool} {q : Nat} : q ∈ x.toSwitch s mask m ↔
    ∃ j b, (x.T.banksOn x.core)[j]? = some b ∧ mask.testBit j = true ∧ (tget Bank.zero s.banks (32 * x.core + b)).mash = !m ∧
      q = 32 * x.core + b := by
  unfold Ix.toSwitch Ix.named
  rw [List.map_map]
  constructor
  · intro h
    obtain ⟨b, hb, rfl⟩ := List.mem_map.mp h
    obtain ⟨hb, hm⟩ := List.mem_filter.mp hb
    obtain ⟨⟨b, j⟩, hj, rfl⟩ := List.mem_map.mp hb
    obtain ⟨hj, ht⟩ := mem_zipIdx_filter.mp hj
    exact ⟨j, b, hj, ht, bne_iff_ne.mp hm |> Bool.eq_not.mpr, rfl⟩
  · rintro ⟨j, b, hj, ht, hm, rfl⟩
    refine List.mem_map.mpr ⟨b, List.mem_filter.mpr ⟨List.mem_map.mpr ⟨(b, j), mem_zipIdx_filter.mpr ⟨hj, ht⟩, rfl⟩, ?_⟩, rfl⟩
    exact bne_iff_ne.mpr (Bool.eq_not.mp hm)

section
variable {s : State} {x : Ix} {e m : Bool} {a : BitVec 6}

theorem bank_exec (hs : Starts s x (.bank e a m)) (hu : UsableG s x [a.toNat]) (hmask : (x.W.greg a.toNat).toNat < 2 ^ x.T.mash)
    {bs : List Nat} (hbs : x.toSwitch s (x.W.greg a.toNat).toNat m = bs) : exec (.bank e a m) s = run (.bank e a m) s fun _ =>
      if x.mayswitch s bs then .ok ((x.switch s bs m).trapWaiters) none else .wait s (.bankSwitch bs) := by
  refine run_const hs rfl ?_
  show withUniform x s _ _ = _
  rw [withUniform_usable hu]
  have hbad : x.badMask (x.W.greg a.toNat).toNat = false := decide_eq_false (Nat.not_le.mpr hmask)
  dsimp only
  rw [hbad, if_neg Bool.false_ne_true, ← hbs]
  rfl

theorem bankSwitch_eq {w : Nat} {bs : List Nat} (h : s.waiter w = some (x, ⟨.bankSwitch bs, .bank e a m⟩)) : exec (.bankSwitch w) s =
    .next (if x.mayswitch s bs then (retire x (.bank e a m) (x.switch s bs m) none).trapWaiters else s) := by
  show execBankSwitch w s = _
  unfold execBankSwitch
  rw [h]

/-- Where no path waits on an empty line, a switch of the banks is all that BANK does. -/
theorem bank_completes (hs : Starts s x (.bank e a m)) {bs : List Nat} (hno : s.lineWaiters = [])
    (hx : exec (.bank e a m) s = run (.bank e a m) s fun _ => .ok ((x.switch s bs m).trapWaiters) none) :
    ∃ t, CompletesIn s (x.switch s bs m) t x (.bank e a m) none x.W := by
  obtain ⟨hframe, -⟩ := switch_spec x s bs m
  rw [performFull_none hno] at hframe
  have hw : (x.switch s bs m).warps = s.warps := by rw [hframe]
  have ht : (x.switch s bs m).teams = s.teams := by rw [hframe]
  rw [trapWaiters_none ((lineWaiters_congr hw ht).trans hno)] at hx
  refine completes_other hs hx rfl ?_
  unfold State.warp
  rw [hw]
  exact (issuing_spec hs.1).2.1

/-- The operations that the named banks of a core hold. -/
theorem mem_opsIn {T : Team} {core id : Nat} {mask : DWord} : id ∈ s.opsIn T core (mask.setWidth 32) ↔
    ∃ j k, (T.banksOn core)[j]? = some k ∧ j < 32 ∧ mask.toNat.testBit j = true ∧
      ∃ o ∈ (tget Bank.zero s.banks (32 * core + k)).ops, o.id = id := by
  have hbit : ∀ j, (mask.setWidth 32).getLsbD j = true ↔ j < 32 ∧ mask.toNat.testBit j = true := fun j => by
    rw [BitVec.getLsbD_setWidth, Bool.and_eq_true, decide_eq_true_eq]
    rfl
  unfold State.opsIn
  rw [List.mem_flatMap]
  constructor
  · rintro ⟨⟨k, j⟩, he, ho⟩
    obtain ⟨hk, hj⟩ := mem_zipIdx_filter.mp he
    obtain ⟨p, hp, rfl⟩ := List.mem_map.mp ho
    exact ⟨j, k, hk, ((hbit j).mp hj).1, ((hbit j).mp hj).2, p, hp, rfl⟩
  · rintro ⟨j, k, hk, hj, ht, o, ho, rfl⟩
    exact ⟨(k, j), mem_zipIdx_filter.mpr ⟨hk, (hbit j).mpr ⟨hj, ht⟩⟩, List.mem_map.mpr ⟨o, ho, rfl⟩⟩

/-- MWAIT blocks past the scene end. -/
theorem mwait_blocks (hs : Starts s x (.mwait a)) (hu : UsableG s x [a.toNat]) (hmask : (x.W.greg a.toNat).toNat < 2 ^ x.T.mash) :
    ∃ t, exec (.mwait a) s = .next t ∧ BlockedPast s t x (.mwait a) (.mwait x.core (BitVec.ofNat 32 (x.W.greg a.toNat).toNat)
      (s.opsIn x.T x.core ((x.W.greg a.toNat).setWidth 32)) x.P.scene) := by
  obtain ⟨-, hW, hrun, hP, -⟩ := issuing_spec hs.1
  have hx : exec (.mwait a) s = run (.mwait a) s fun _ =>
      .block s (.mwait x.core ((x.W.greg a.toNat).setWidth 32) (s.opsIn x.T x.core ((x.W.greg a.toNat).setWidth 32)) x.P.scene) := by
    refine run_const hs rfl ?_
    show withUniform x s _ _ = _
    rw [withUniform_usable hu]
    exact if_neg (by rw [Ix.badMask, decide_eq_true_eq]; omega)
  refine ⟨_, hx.trans (run_starts hs), ?_⟩
  rw [BitVec.ofNat_toNat]
  exact block_spec hW hP hrun (endsScene_uni rfl (by have := a.isLt; omega))

end

/-- Settles O38: BANK switches or waits for its banks; the switch ends the waits on their lines; MWAIT blocks for their operations. -/
theorem bankSwitching : Obligations.BankSwitching := by
  intro s x e m a bank mask idle switched i
  refine ⟨fun hu hmask hs => ?_, fun w bs hw => ?_, fun y j n lanes bs off hw hu => ?_, fun hu hmask hs => ?_⟩
  · have hx := bank_exec hs hu hmask rfl
    refine ⟨x.toSwitch s mask m, fun q => mem_toSwitch, fun hidle => ?_, fun hbusy hhold => ?_⟩
    · rw [if_pos (mayswitch_iff.mpr hidle)] at hx
      exact ⟨_, switch_spec x s _ m, hx.trans (run_starts hs), fun hno => ⟨performFull_none hno _, bank_completes hs hno hx⟩⟩
    · rw [if_neg (mayswitch_iff.not.mpr hbusy)] at hx
      rw [hx, run_starts hs]
      refine congrArg Host.Outcome.next ?_
      show waitAt x i s _ = _
      unfold waitAt
      dsimp only
      rw [hhold, State.modWarp_eq (issuing_spec hs.1).2.1]
      rfl
  · exact ⟨fun hidle => ⟨_, switch_spec x s bs m, (bankSwitch_eq hw).trans (congrArg _ (if_pos (mayswitch_iff.mpr hidle)))⟩,
      fun hbusy => (bankSwitch_eq hw).trans (congrArg _ (if_neg (mayswitch_iff.not.mpr hbusy)))⟩
  · intro todo on cut
    exact ⟨performFull_on hw hu, performFull_off hw hu, trapWaiters_uncut hw hu,
      fun pre l post p htodo hpre hp hmash hempty => trapWaiters_cut hw hu htodo hpre hp hmash hempty⟩
  · obtain ⟨t, ht, hb⟩ := mwait_blocks hs hu hmask
    exact ⟨t, _, ht, hb, fun id => mem_opsIn⟩

end Sys2Proof.Machine
end

section
/-! Memory events (O31): the reply to a MONARM that read what it compared with puts the warp of its lane back into the table of
warps. Where that table lists the warp twice, the state differs from the one that the statement gives. -/

namespace Sys2Proof.Machine

/-- The read of a MONARM by lane 1 that is outstanding: of CXINV of context 0, which reads 0, for a comparison with 0. -/
def armRead : Outst :=
  { id := 5, grp := 5, w := 0, lane := 1, ctx := 0, kind := .monitor, addrs := [(0x20100, 2 * 2 ^ 48 + 0x10020)], signed := false
    nc := true, value := 0, uni := false, dest := 0, nreg := 0, coll := none, pc := 0x20000, scene := some ⟨0, []⟩, size := 1
    count := 0, failed := false, lock := true, peer := none }

/-- A state with that read outstanding, whose table lists warp 0 twice. -/
def listedTwice : State := { State.reset with warps := [(0, some placedWarp), (0, some placedWarp)], loads := [armRead] }

/-- The entries of the table of warps after an event. -/
def warpEntries (i : Instr) (s : State) : Nat :=
  match exec i s with
  | .next t => t.warps.length
  | _ => 0

theorem warpEntries_eq {i : Instr} {s t : State} (h : exec i s = .next t) : warpEntries i s = t.warps.length := by
  unfold warpEntries
  rw [h]

/-- The reply leaves one entry. -/
theorem armReturn_entries : warpEntries (.loadDataReturn 5 false) listedTwice = 1 := by decide

/-- A read of CXINV gives 0 and changes nothing. -/
theorem armRead_value : listedTwice.devRead (2 * 2 ^ 48 + 0x10020) none = (listedTwice, some 0) := rfl

/-- Refutes O31: of the reply to a MONARM whose value is the one it compares with, the statement says that the warps are those
before, and the machine takes the second entry of warp 0 out of the table. -/
theorem not_memoryEvents : ¬ Obligations.MemoryEvents := by
  unfold Obligations.MemoryEvents
  intro h
  obtain ⟨hreturn, -⟩ := h listedTwice
  obtain ⟨-, hmonitor, -⟩ := hreturn 5 armRead placedWarp (by decide) rfl rfl (by decide) (by decide) rfl
  obtain ⟨-, hread⟩ := hmonitor rfl rfl
  obtain ⟨hequal, -⟩ := hread listedTwice 0 (by decide) armRead_value
  have hentries := warpEntries_eq (hequal rfl)
  rw [armReturn_entries] at hentries
  exact absurd hentries (by decide)

end Sys2Proof.Machine
end

section
/-! Checks of accesses (O4): the instruction takes the fault that the check of its access finds. -/

namespace Sys2Proof.Machine

/-! ## Instructions whose access fails its checks (11 R253) -/

section
variable {s : State} {x : Ix} {e n r noret z1 : Bool} {d a b c : BitVec 7} {o : BitVec 5} {z ord : BitVec 2} {sc ty : BitVec 3}
  {op : BitVec 4} {gd ga : BitVec 6} {go : BitVec 7} {t : Trap}

theorem ldgs_traps (h : Starts s x (.ldgs e d a o z1)) (hu : Usable s x [loadDst d z1.toNat, .srcPair a.toNat])
    (ht : x.globalAcc s .load (memBytes z1.toNat) x.lanes (x.gaddr a (o.toNat * memBytes z1.toNat)) = .error t) :
    Traps s x (.ldgs e d a o z1) t := by
  refine takes_fault (body := fun x => globalLoad x s d a o z1.toNat true) h rfl ?_
  simp only [globalLoad, withOperands_usable hu, ht]

theorem lda_traps (h : Starts s x (.lda e d a sc r z)) (hu : Usable s x [.reg d.toNat, .srcPair a.toNat])
    (ht : x.globalAcc s (if wideScope x.T sc.toNat then .fresh else .load) (memBytes z.toNat) x.lanes (x.gaddr a 0) = .error t) :
    Traps s x (.lda e d a sc r z) t := by
  refine takes_fault h rfl ((withOperands_usable hu).trans ?_)
  simp only [ht]

theorem strel_traps (h : Starts s x (.strel e d a sc z)) (hu : Usable s x [.src d.toNat, .srcPair a.toNat])
    (ht : x.globalAcc s .store (memBytes z.toNat) x.lanes (x.gaddr a 0) = .error t) : Traps s x (.strel e d a sc z) t := by
  refine takes_fault h rfl ((withOperands_usable hu).trans ?_)
  simp only [ht]

theorem mcst_traps (h : Starts s x (.mcst e d a o z)) (hu : Usable s x [storeSrc d z.toNat, .srcPair a.toNat])
    (ht : x.globalAcc s .mcst (memBytes z.toNat) x.lanes (x.gaddr a (o.toNat * memBytes z.toNat)) = .error t) :
    Traps s x (.mcst e d a o z) t := by
  refine takes_fault h rfl ((withOperands_usable hu).trans ?_)
  simp only [ht]

theorem monarm_traps (h : Starts s x (.monarm e d a o z)) (hu : Usable s x [.src d.toNat, .srcPair a.toNat])
    (ht : x.globalAcc s .fresh (memBytes z.toNat) x.lanes (x.gaddr a (o.toNat * memBytes z.toNat)) = .error t) :
    Traps s x (.monarm e d a o z) t := by
  refine takes_fault h rfl ((withOperands_usable hu).trans ?_)
  simp only [ht]

theorem gld_traps (h : Starts s x (.gld e gd ga z go)) (hu : UsableG s x [gd.toNat, ga.toNat])
    (ht : x.globalAcc s .fresh (uniBytes z) [x.low] (fun _ => ((x.W.greg ga.toNat).toNat + go.toNat * uniBytes z) % 2 ^ 64 % 2 ^ 56) = .error t) :
    Traps s x (.gld e gd ga z go) t := by
  refine takes_fault h rfl ((withUniform_usable hu).trans ?_)
  simp only [ht]

theorem gstGlobal_traps (h : Starts s x (.gst e gd ga false z go)) (hu : UsableG s x [gd.toNat, ga.toNat])
    (ht : x.globalAcc s .store (uniBytes z) [x.low] (fun _ => ((x.W.greg ga.toNat).toNat + go.toNat * uniBytes z) % 2 ^ 64 % 2 ^ 56) = .error t) :
    Traps s x (.gst e gd ga false z go) t := by
  refine takes_fault h rfl ((withUniform_usable hu).trans ?_)
  simp only [ht, Bool.false_eq_true, if_false]

theorem ldps_traps (h : Starts s x (.ldps e d a o z1)) (hu : Usable s x [loadDst d z1.toNat, .src a.toNat])
    (ht : x.privateAcc s .load (memBytes z1.toNat) x.lanes (x.soff a (o.toNat * memBytes z1.toNat)) = .error t) :
    Traps s x (.ldps e d a o z1) t := by
  refine takes_fault (body := fun x => privateLoad x s d a o z1.toNat true) h rfl ?_
  simp only [privateLoad, withOperands_usable hu, ht]

theorem ldss_traps (h : Starts s x (.ldss e d a o z1)) (hu : Usable s x [loadDst d z1.toNat, .src a.toNat]) (hd : x.P.done = 0)
    (ht : x.scratchAcc s (memBytes z1.toNat) x.lanes (x.soff a (o.toNat * memBytes z1.toNat)) = .error t) :
    Traps s x (.ldss e d a o z1) t := by
  refine takes_fault (body := fun x => ldsBody x s d a o z1.toNat true) h rfl ?_
  simp only [ldsBody, withOperands_usable hu, Ix.scratchLoad, lanes_notDone hd, ht]

theorem empty_traps (h : Starts s x (.empty e a o z)) (hu : Usable s x [.src a.toNat])
    (ht : x.scratchAcc s (memBytes z.toNat) x.lanes (x.soff a (o.toNat * memBytes z.toNat)) = .error t) :
    Traps s x (.empty e a o z) t := by
  refine takes_fault h rfl ((withOperands_usable hu).trans ?_)
  simp only [ht]

theorem fchk_traps (h : Starts s x (.fchk e n d a o z)) (hu : Usable s x [.reg d.toNat, .src a.toNat])
    (ht : x.scratchAcc s (memBytes z.toNat) x.lanes (x.soff a (o.toNat * memBytes z.toNat)) = .error t) :
    Traps s x (.fchk e n d a o z) t := by
  refine takes_fault h rfl ((withOperands_usable hu).trans ?_)
  simp only [ht]

theorem low_notDone (h : x.P.done = 0) : [x.low].filter (fun l => !x.P.done.getLsbD l) = [x.low] := by
  rw [h]
  simp

theorem glds_traps (h : Starts s x (.glds e gd ga z go)) (hu : UsableG s x [gd.toNat, ga.toNat]) (hd : x.P.done = 0)
    (ht : x.scratchAcc s (uniBytes z) [x.low] (fun _ => x.uoff ga z go) = .error t) : Traps s x (.glds e gd ga z go) t := by
  refine takes_fault (body := fun x => gldsBody x s gd ga z go) h rfl ?_
  simp only [gldsBody, withUniform_usable hu, Ix.scratchLoad, low_notDone hd, ht]

theorem gstScratch_traps (h : Starts s x (.gst e gd ga true z go)) (hu : UsableG s x [gd.toNat, ga.toNat])
    (ht : x.scratchAcc s (uniBytes z) [x.low] (fun _ => x.uoff ga z go) = .error t) : Traps s x (.gst e gd ga true z go) t := by
  refine takes_fault h rfl ((withUniform_usable hu).trans ?_)
  simp only [Ix.scratchStores, ht, if_true]

/-- The operands of ATOM: the register or pair of the old value, unless N is set, the address and the data (11 R264). -/
def atomUses (ty : BitVec 3) (op : BitVec 4) (noret : Bool) (d b c : BitVec 7) (addr : Use) : List Use :=
  let val := fun (q : BitVec 7) => if ty = 2 ∨ ty = 3 then Use.srcPair q.toNat else .src q.toNat
  (if noret then [] else [if ty = 2 ∨ ty = 3 then Use.regPair d.toNat else .reg d.toNat]) ++ [addr, val b] ++ if op = 7 then [val c] else []

variable {sp : BitVec 2}

/-- ATOM fails with its operands legal where the check of its access does. -/
theorem atom_traps (h : Starts s x (.atom e d a b op ty ord sc sp noret c))
    (hu : Usable s x (atomUses ty op noret d b c (if sp = 0 then .srcPair a.toNat else .src a.toNat)))
    (hglobal : sp = 0 → x.globalAcc s (.atomic ty.toNat) (atomBytes ty) x.lanes (x.gaddr a 0) = .error t)
    (hscratch : sp = 1 → x.P.done = 0 ∧ x.scratchAcc s (atomBytes ty) x.lanes (x.soff a 0) = .error t)
    (hprivate : sp ≠ 0 → sp ≠ 1 → x.privateAcc s (.atomic ty.toNat) (atomBytes ty) x.lanes (x.soff a 0) = .error t) :
    Traps s x (.atom e d a b op ty ord sc sp noret c) t := by
  refine takes_fault (body := fun x => atomBody x s d a b op ty ord sc sp noret c) h rfl ?_
  have hwide : (decide (ty = 2) || decide (ty = 3)) = decide (ty = 2 ∨ ty = 3) := by simp
  have hu' : Usable s x ((if noret then [] else [if decide (ty = 2) || decide (ty = 3) then Use.regPair d.toNat else .reg d.toNat]) ++
      [if sp = 0 then Use.srcPair a.toNat else .src a.toNat, if decide (ty = 2) || decide (ty = 3) then Use.srcPair b.toNat else .src b.toNat] ++
      if op = 7 then [if decide (ty = 2) || decide (ty = 3) then Use.srcPair c.toNat else .src c.toNat] else []) := by
    simp only [hwide, decide_eq_true_eq]
    exact hu
  unfold atomBody
  refine (withOperands_usable hu').trans ?_
  dsimp only
  by_cases h1 : sp = 1
  · rw [if_pos h1, lanes_notDone (hscratch h1).1, (hscratch h1).2]
  · rw [if_neg h1]
    by_cases h0 : sp = 0
    · rw [if_pos h0, hglobal h0]
    · rw [if_neg h0, hprivate h0 h1]

end

/-! ## The first lane that a check finds (11 R253) -/

/-- Lane `l` is the first of a list that is bad. -/
def FirstBad (lanes : List Nat) (bad : Nat → Prop) (l : Nat) : Prop := ∃ pre post, lanes = pre ++ l :: post ∧ bad l ∧ ∀ j ∈ pre, ¬ bad j

section
variable {lanes : List Nat} {bad : Nat → Prop} {l : Nat}

theorem FirstBad.mem (h : FirstBad lanes bad l) : l ∈ lanes := by
  obtain ⟨pre, post, rfl, -⟩ := h
  simp

theorem FirstBad.holds (h : FirstBad lanes bad l) : bad l := by
  obtain ⟨-, -, -, hl, -⟩ := h
  exact hl

/-- A search finds what it gives at the first bad lane, where it gives nothing at a lane that is not bad. -/
theorem findSome_first {α : Type} {g : Nat → Option α} {t : α} (h : FirstBad lanes bad l) (hl : g l = some t)
    (hg : ∀ j ∈ lanes, ¬ bad j → g j = none) : lanes.findSome? g = some t := by
  obtain ⟨pre, post, rfl, -, hpre⟩ := h
  exact List.findSome?_eq_some_iff.mpr ⟨pre, l, post, rfl, hl, fun j hj => hg j (by simp [hj]) (hpre j hj)⟩

theorem findSome_none {α : Type} {g : Nat → Option α} (h : ∀ j ∈ lanes, g j = none) : lanes.findSome? g = none :=
  List.findSome?_eq_none_iff.mpr h

theorem firstLane_first {p : Nat → Prop} [DecidablePred p] {g : Nat → Trap} (h : FirstBad lanes (fun j => ¬ p j) l) :
    firstLane lanes (fun j => if p j then none else some (g j)) = some { g l with lane := some l } :=
  findSome_first h (congrArg (Option.map _) (if_neg h.holds)) fun _ _ hj => congrArg (Option.map _) (if_pos (not_not.mp hj))

/-- A check of every lane fails with the error of the first that fails. -/
theorem mapM_first {β : Type} {f : Nat → Except Trap β} {t : Trap} (h : FirstBad lanes (fun j => ∃ e, f j = .error e) l)
    (hl : f l = .error t) : lanes.mapM f = .error t := by
  obtain ⟨pre, post, rfl, -, hpre⟩ := h
  refine mapM_error hl post pre fun k hk => ?_
  cases hf : f k with
  | ok b => exact ⟨b, rfl⟩
  | error e => exact absurd ⟨e, hf⟩ (hpre k hk)

theorem FirstBad.congr {bad' : Nat → Prop} (h : FirstBad lanes bad l) (hb : ∀ j, bad j ↔ bad' j) : FirstBad lanes bad' l := by
  obtain ⟨pre, post, hlanes, hl, hpre⟩ := h
  exact ⟨pre, post, hlanes, (hb l).mp hl, fun j hj hbad => hpre j hj ((hb j).mpr hbad)⟩

end

/-! ## Range locks (16 R350, R351; 12 R280) -/

/-- An access of a context to n bytes meets a range lock of a cause. -/
def State.Locked (s : State) (ctx : Nat) (k : MemKind) (va n : Nat) (all : List (List Nat)) (cause : Nat) : Prop :=
  (∃ q ∈ s.copies, q.ctx = ctx ∧ ∃ h ∈ q.locks, h.1 = cause ∧ overlap va n h.2.1 h.2.2 = true ∧ (k.writes = true ∨ cause = 2)) ∨
    (cause = 4 ∧ k.writes = true ∧ ∃ p ∈ all, ∃ pa ∈ p, s.hitsHung pa 1 = true)

/-- The causes of the range locks that an access meets. -/
def State.lockHits (s : State) (ctx : Nat) (k : MemKind) (va n : Nat) (pas : List Nat) : List Nat :=
  let hits := (s.copies.filter fun c => decide (c.ctx = ctx)).flatMap fun c => (c.locks.filter fun e => overlap va n e.2.1 e.2.2).map (·.1)
  if k.writes then hits ++ (if pas.any fun pa => s.hitsHung pa 1 then [4] else []) else hits.filter (· = 2)

section
variable {s : State} {ctx va n : Nat} {k : MemKind} {all : List (List Nat)}

theorem mem_copyLocks {cause : Nat} : cause ∈ ((s.copies.filter fun c => decide (c.ctx = ctx)).flatMap fun c =>
    (c.locks.filter fun e => overlap va n e.2.1 e.2.2).map (·.1)) ↔
      ∃ q ∈ s.copies, q.ctx = ctx ∧ ∃ h ∈ q.locks, h.1 = cause ∧ overlap va n h.2.1 h.2.2 = true := by
  simp only [List.mem_flatMap, List.mem_filter, List.mem_map, decide_eq_true_eq]
  constructor
  · rintro ⟨q, ⟨hq, hctx⟩, h, ⟨hh, ho⟩, hc⟩
    exact ⟨q, hq, hctx, h, hh, hc, ho⟩
  · rintro ⟨q, hq, hctx, h, hh, hc, ho⟩
    exact ⟨q, ⟨hq, hctx⟩, h, ⟨hh, ho⟩, hc⟩

theorem mem_lockHits {cause : Nat} : cause ∈ s.lockHits ctx k va n all.flatten ↔ s.Locked ctx k va n all cause := by
  unfold State.lockHits State.Locked
  dsimp only
  by_cases hw : k.writes = true
  · rw [if_pos hw, List.mem_append, mem_copyLocks]
    refine or_congr ⟨?_, ?_⟩ ?_
    · rintro ⟨q, hq, hctx, h, hh, hc, ho⟩
      exact ⟨q, hq, hctx, h, hh, hc, ho, .inl hw⟩
    · rintro ⟨q, hq, hctx, h, hh, hc, ho, -⟩
      exact ⟨q, hq, hctx, h, hh, hc, ho⟩
    · have hany : (all.flatten.any fun pa => s.hitsHung pa 1) = true ↔ ∃ p ∈ all, ∃ pa ∈ p, s.hitsHung pa 1 = true := by
        simp only [List.any_eq_true, List.mem_flatten]
        constructor
        · rintro ⟨pa, ⟨p, hp, hpa⟩, hh⟩
          exact ⟨p, hp, pa, hpa, hh⟩
        · rintro ⟨p, hp, pa, hpa, hh⟩
          exact ⟨pa, ⟨p, hp, hpa⟩, hh⟩
      by_cases hh : (all.flatten.any fun pa => s.hitsHung pa 1) = true
      · rw [if_pos hh, List.mem_singleton]
        exact ⟨fun hc => ⟨hc, hw, hany.mp hh⟩, fun h => h.1⟩
      · rw [if_neg hh]
        exact ⟨fun hc => absurd hc List.not_mem_nil, fun h => absurd (hany.mpr h.2.2) hh⟩
  · rw [if_neg hw, List.mem_filter, mem_copyLocks, decide_eq_true_eq]
    constructor
    · rintro ⟨⟨q, hq, hctx, h, hh, hc, ho⟩, h2⟩
      exact .inl ⟨q, hq, hctx, h, hh, hc, ho, .inr h2⟩
    · rintro (⟨q, hq, hctx, h, hh, hc, ho, h2⟩ | ⟨-, hw', -⟩)
      · exact ⟨⟨q, hq, hctx, h, hh, hc, ho⟩, h2.resolve_left hw⟩
      · exact absurd hw' hw

/-- The least of some numbers, one of which is at most every other. -/
theorem foldl_min_eq {c m : Nat} {t : List Nat} (hm : m ∈ c :: t) (hle : ∀ j ∈ c :: t, m ≤ j) : t.foldl min c = m := by
  induction t generalizing c with
  | nil => exact (List.mem_singleton.mp hm).symm
  | cons b t ih =>
    refine ih ?_ fun j hj => ?_
    · rcases List.mem_cons.mp hm with rfl | hm
      · rw [Nat.min_eq_left (hle b (by simp))]
        exact List.mem_cons_self
      · rcases List.mem_cons.mp hm with rfl | hm
        · rw [Nat.min_eq_right (hle c (by simp))]
          exact List.mem_cons_self
        · exact List.mem_cons_of_mem _ hm
    · rcases List.mem_cons.mp hj with rfl | hj
      · exact Nat.le_min.mpr ⟨hle c (by simp), hle b (by simp)⟩
      · exact hle j (by simp [hj])

theorem lockTrap_none (h : ∀ cause, ¬ s.Locked ctx k va n all cause) : s.lockTrap ctx k va n all.flatten = none := by
  have hnil : s.lockHits ctx k va n all.flatten = [] := List.eq_nil_iff_forall_not_mem.mpr fun c hc => h c (mem_lockHits.mp hc)
  show (match s.lockHits ctx k va n all.flatten with | [] => none | c :: t => some (⟨16, t.foldl min c, va, 0, 0, none⟩ : Trap)) = none
  rw [hnil]

theorem lockTrap_some {cause : Nat} (h : s.Locked ctx k va n all cause) (hmin : ∀ c, c < cause → ¬ s.Locked ctx k va n all c) :
    s.lockTrap ctx k va n all.flatten = some ⟨16, cause, va, 0, 0, none⟩ := by
  show (match s.lockHits ctx k va n all.flatten with | [] => none | c :: t => some (⟨16, t.foldl min c, va, 0, 0, none⟩ : Trap)) = _
  have hmem := mem_lockHits.mpr h
  have hle : ∀ j ∈ s.lockHits ctx k va n all.flatten, cause ≤ j := fun j hj => Nat.not_lt.mp fun hlt => hmin j hlt (mem_lockHits.mp hj)
  generalize s.lockHits ctx k va n all.flatten = hits at hmem hle
  cases hits with
  | nil => exact absurd hmem List.not_mem_nil
  | cons c t =>
    dsimp only
    rw [foldl_min_eq hmem hle]

end

/-! ## Translation, type and locks (11 R253 steps 5 to 7) -/

section
variable {s : State} {x : Ix} {k : MemKind} {n l : Nat} {lanes : List Nat}

/-- The type of an access in the record of an unsupported one (19 R389 code 15). -/
def MemKind.typeCode : MemKind → Nat
  | .atomic ty => ty
  | _ => 7

/-- The unsupported-type error of an access is that of the first replica it is not allowed in. -/
theorem typeTraps_eq (va : Nat) : ∀ ps : List (List Nat), (ps.findSome? fun p => typeTrap k n (p.headD 0) va) =
    (ps.find? fun p => !typeOk k n (regionOf (p.headD 0))).map fun p => ⟨15, 0, va, k.typeCode + 2 ^ 8 * min n 16, regionOf (p.headD 0), none⟩
  | [] => rfl
  | p :: ps => by
    rw [List.findSome?_cons, List.find?_cons]
    unfold typeTrap
    cases typeOk k n (regionOf (p.headD 0)) with
    | true => exact typeTraps_eq va ps
    | false => cases k <;> rfl

theorem types_ok {ps : List (List Nat)} (va : Nat) (h : ∀ p ∈ ps, typeOk k n (regionOf (p.headD 0)) = true) :
    (ps.findSome? fun p => typeTrap k n (p.headD 0) va) = none :=
  List.findSome?_eq_none_iff.mpr fun p hp => if_pos (h p hp)

/-- The physical bytes that an access reaches: all replicas of an MCST's. -/
def MemAcc.reached (a : MemAcc) (s : State) (ctx : Nat) (k : MemKind) : List (List Nat) :=
  if k = .mcst then a.replicas s ctx else [a.pas]

variable {lock : Bool} {vas : Nat → List Nat} {acc : Nat → MemAcc}

theorem checkAcc_untranslated {t : Trap} (h : FirstBad lanes (fun l => ∃ e, x.xlate s k l (vas l) = .error e) l)
    (hl : x.xlate s k l (vas l) = .error t) : x.checkAcc s k n lock lanes vas = .error t := by
  unfold Ix.checkAcc
  rw [mapM_first (f := fun l => x.xlate s k l (vas l)) h hl]

variable (hacc : ∀ j ∈ lanes, x.xlate s k j (vas j) = .ok (acc j))
include hacc

theorem checkAcc_eq : x.checkAcc s k n lock lanes vas =
    match lanes.findSome? fun j => (((acc j).reached s x.T.ctx k).findSome? fun p => typeTrap k n (p.headD 0) (acc j).va).map
        fun t => { t with lane := some (acc j).lane } with
    | some t => .error t
    | none =>
      match if lock then lanes.findSome? fun j => (s.lockTrap x.T.ctx k (acc j).va n ((acc j).reached s x.T.ctx k).flatten).map
          fun t => { t with lane := some (acc j).lane } else none with
      | some t => .error t
      | none => .ok (lanes.map acc) := by
  unfold Ix.checkAcc
  rw [mapM_all (f := fun l => x.xlate s k l (vas l)) acc hacc]
  dsimp only
  rw [List.findSome?_map, List.findSome?_map]
  rfl

theorem acc_lane {j : Nat} (hj : j ∈ lanes) : (acc j).lane = j ∧ (acc j).va = (vas j).headD 0 := by
  obtain ⟨h1, h2⟩ := xlate_lane (hacc j hj)
  exact ⟨h1, by rw [MemAcc.va, h2]⟩

/-- An access of an unsupported type. -/
theorem checkAcc_untyped {p : List Nat} (h : FirstBad lanes (fun j => ¬ ∀ p ∈ (acc j).reached s x.T.ctx k, typeOk k n (regionOf (p.headD 0)) = true) l)
    (hp : ((acc l).reached s x.T.ctx k).find? (fun p => !typeOk k n (regionOf (p.headD 0))) = some p) :
    x.checkAcc s k n lock lanes vas =
      .error ⟨15, 0, (vas l).headD 0, k.typeCode + 2 ^ 8 * min n 16, regionOf (p.headD 0), some l⟩ := by
  obtain ⟨hlane, hva⟩ := acc_lane hacc h.mem
  rw [checkAcc_eq hacc, findSome_first h (by rw [typeTraps_eq, hp, hlane, hva]; rfl) fun j _ hj => by
    rw [types_ok _ (not_not.mp hj)]
    rfl]

/-- An access of a supported type that meets a range lock. -/
theorem checkAcc_locked {cause : Nat} (hok : ∀ j ∈ lanes, ∀ p ∈ (acc j).reached s x.T.ctx k, typeOk k n (regionOf (p.headD 0)) = true)
    (h : FirstBad lanes (fun j => ∃ c, s.Locked x.T.ctx k ((vas j).headD 0) n ((acc j).reached s x.T.ctx k) c) l)
    (hl : s.Locked x.T.ctx k ((vas l).headD 0) n ((acc l).reached s x.T.ctx k) cause)
    (hmin : ∀ c, c < cause → ¬ s.Locked x.T.ctx k ((vas l).headD 0) n ((acc l).reached s x.T.ctx k) c) :
    x.checkAcc s k n true lanes vas = .error ⟨16, cause, (vas l).headD 0, 0, 0, some l⟩ := by
  obtain ⟨hlane, hva⟩ := acc_lane hacc h.mem
  rw [checkAcc_eq hacc, findSome_none fun j hj => by
    rw [types_ok _ (hok j hj)]
    rfl]
  dsimp only
  rw [if_pos rfl, findSome_first h (by rw [hva, lockTrap_some hl hmin, hlane]; rfl) fun j hj hno => by
    rw [(acc_lane hacc hj).2, lockTrap_none (not_exists.mp hno)]
    rfl]

end

/-! ## The three kinds of access (11 R251 to R253) -/

section
variable {s : State} {x : Ix} {k : MemKind} {n l : Nat} {lanes : List Nat} {off : Nat → Nat}

/-- Whether a lane's access is aligned is looked at first. -/
theorem acc_misaligned (h : FirstBad lanes (fun j => off j % n ≠ 0) l) :
    x.globalAcc s k n lanes off = .error ⟨10, 0, off l, 0, 0, some l⟩ ∧ x.privateAcc s k n lanes off = .error ⟨10, 0, off l, 0, 0, some l⟩ ∧
      x.scratchAcc s n lanes off = .error ⟨10, 0, off l, 0, 0, some l⟩ := by
  have hf := firstLane_first (p := fun j => off j % n = 0) (g := fun j => ⟨10, 0, off j, 0, 0, none⟩) h
  unfold Ix.globalAcc Ix.privateAcc Ix.scratchAcc
  rw [hf]
  exact ⟨rfl, rfl, rfl⟩

section
variable (ha : ∀ j ∈ lanes, off j % n = 0)
include ha

theorem aligned_none : (firstLane lanes fun j => if off j % n = 0 then none else some (⟨10, 0, off j, 0, 0, none⟩ : Trap)) = none :=
  firstLane_none fun j hj => if_pos (ha j hj)

theorem globalAcc_uncanonical (h : FirstBad lanes (fun j => canonical (off j) = false) l) :
    x.globalAcc s k n lanes off = .error ⟨14, 7, off l, if k.writes then 1 else 0, 0, some l⟩ := by
  unfold Ix.globalAcc
  rw [aligned_none ha]
  dsimp only
  rw [firstLane_first (p := fun j => canonical (off j) = true) (h.congr fun j => Bool.not_eq_true _ ▸ Iff.rfl)]
  rfl

theorem globalAcc_checked (hc : ∀ j ∈ lanes, canonical (off j) = true) :
    x.globalAcc s k n lanes off = x.checkAcc s k n true lanes fun l => List.range' (off l) n := by
  unfold Ix.globalAcc
  rw [aligned_none ha]
  dsimp only
  rw [firstLane_none fun j hj => if_pos (hc j hj)]

theorem privateAcc_outside (h : FirstBad lanes (fun j => 2 ^ 24 < off j + n) l) :
    x.privateAcc s k n lanes off = .error ⟨12, 0, off l, 0, 0, some l⟩ := by
  unfold Ix.privateAcc
  rw [aligned_none ha]
  dsimp only
  rw [firstLane_first (p := fun j => off j + n ≤ 2 ^ 24) (h.congr fun j => Nat.not_le.symm)]

section
variable (hr : ∀ j ∈ lanes, off j + n ≤ 2 ^ 24)
include hr

/-- Past the high-water mark the fault has the highest byte that any lane needs. -/
theorem privateAcc_high {top : Nat} (h : FirstBad lanes (fun j => 1024 * x.W.phw < off j + n) l)
    (hle : ∀ j ∈ lanes, off j + n ≤ top + 1) (htop : ∃ j ∈ lanes, off j + n = top + 1) :
    x.privateAcc s k n lanes off = .error ⟨13, 0, top, 0, 0, some l⟩ := by
  obtain ⟨j, hj, hjtop⟩ := htop
  have hmax : (lanes.map fun j => off j + n - 1).foldl max 0 = top :=
    (foldl_max_eq (f := fun j => off j + n - 1) hj fun i hi => by have := hle i hi; omega).trans (by omega)
  unfold Ix.privateAcc
  rw [aligned_none ha]
  dsimp only
  rw [firstLane_none fun j hj => if_pos (hr j hj), hmax]
  dsimp only
  rw [firstLane_first (p := fun j => off j + n ≤ 1024 * x.W.phw) (h.congr fun j => Nat.not_le.symm)]

theorem privateAcc_checked (hp : ∀ j ∈ lanes, off j + n ≤ 1024 * x.W.phw) : x.privateAcc s k n lanes off =
    x.checkAcc s k n false lanes fun l => (List.range n).map fun i => s.privVa x.T.ctx x.w l (off l + i) := by
  unfold Ix.privateAcc
  rw [aligned_none ha]
  dsimp only
  rw [firstLane_none fun j hj => if_pos (hr j hj)]
  dsimp only
  rw [firstLane_none fun j hj => if_pos (hp j hj)]

end

/-- The place of a lane's scratch access, or its range fault. -/
def Ix.placed (x : Ix) (n : Nat) (off : Nat → Nat) (l : Nat) : Except Trap (Nat × Nat × Nat × Nat) :=
  match (if off l < 2 ^ 32 then x.T.scratchAt (off l) n else none) with
  | some a => .ok (l, a)
  | none => .error ⟨11, 0, off l, 0, 0, some l⟩

theorem scratchAcc_placed : x.scratchAcc s n lanes off = match lanes.mapM (x.placed n off) with
    | .error t => .error t
    | .ok as => match as.findSome? fun e => if (s.bankOf e.2).mash then some (⟨17, 0, 0, x.T.bankIndex e.2, 0, some e.1⟩ : Trap) else none with
      | some t => .error t
      | none => .ok as := by
  unfold Ix.scratchAcc
  rw [aligned_none ha]
  rfl

theorem scratchAcc_outside (h : FirstBad lanes (fun j => (if off j < 2 ^ 32 then x.T.scratchAt (off j) n else none) = none) l) :
    x.scratchAcc s n lanes off = .error ⟨11, 0, off l, 0, 0, some l⟩ := by
  have hat : ∀ j, (if off j < 2 ^ 32 then x.T.scratchAt (off j) n else none) = none ↔ ∃ e, x.placed n off j = .error e := fun j => by
    unfold Ix.placed
    cases (if off j < 2 ^ 32 then x.T.scratchAt (off j) n else none) <;> simp
  have hl : x.placed n off l = .error ⟨11, 0, off l, 0, 0, some l⟩ := by
    unfold Ix.placed
    rw [h.holds]
  rw [scratchAcc_placed ha, mapM_first (h.congr hat) hl]

theorem scratchAcc_mash {a : Nat → Nat × Nat × Nat} (hp : ∀ j ∈ lanes, (if off j < 2 ^ 32 then x.T.scratchAt (off j) n else none) = some (a j))
    (h : FirstBad lanes (fun j => (s.bankOf (a j)).mash = true) l) :
    x.scratchAcc s n lanes off = .error ⟨17, 0, 0, x.T.bankIndex (a l), 0, some l⟩ := by
  rw [scratchAcc_placed ha, mapM_all (f := x.placed n off) (fun j => (j, a j)) fun j hj => by
    unfold Ix.placed
    rw [hp j hj]]
  dsimp only
  have hfind : (lanes.findSome? fun j => if (s.bankOf (a j)).mash then some (⟨17, 0, 0, x.T.bankIndex (a j), 0, some j⟩ : Trap) else none) =
      some ⟨17, 0, 0, x.T.bankIndex (a l), 0, some l⟩ := findSome_first h (if_pos h.holds) fun j _ hj => if_neg hj
  rw [List.findSome?_map]
  unfold Function.comp
  rw [hfind]

end

end

/-! ## Failed translations (09 R205 to R208) -/

section
variable {s : State} {x : Ix} {k : MemKind} {l cause : Nat} {vas : List Nat}

theorem typeOk_iff (k : MemKind) (n r : Nat) : typeOk k n r = true ↔ match k with
    | .atomic ty => r ≠ 2 ∧ (4 ≤ r → r < 8 → ty < 4) ∧ (8 ≤ r → ty = 2 ∨ ty = 3)
    | _ => r = 2 ∨ 8 ≤ r → n = 4 := by
  have hplain : (if r = 2 ∨ 8 ≤ r then decide (n = 4) else true) = true ↔ (r = 2 ∨ 8 ≤ r → n = 4) := by
    by_cases h : r = 2 ∨ 8 ≤ r <;> simp [h]
  cases k with
  | atomic ty =>
    show (if r = 2 then false else if 8 ≤ r then decide (ty = 2) || decide (ty = 3) else if 4 ≤ r then decide (ty ≤ 3) else true) = true ↔ _
    by_cases h2 : r = 2
    · simp [h2]
    · rw [if_neg h2]
      by_cases h8 : 8 ≤ r
      · have : ¬ r < 8 := Nat.not_lt.mpr h8
        simp [h2, h8, this]
      · rw [if_neg h8]
        by_cases h4 : 4 ≤ r
        · simp [h2, h8, h4, Nat.lt_succ_iff, Nat.not_le.mp h8]
        · simp [h2, h8, h4]
  | load => exact hplain
  | fresh => exact hplain
  | store => exact hplain
  | mcst => exact hplain

theorem mapM_option_none {α β : Type} {f : α → Option β} {v : α} (hf : f v = none) : ∀ {l : List α}, v ∈ l → l.mapM f = none
  | [], h => absurd h List.not_mem_nil
  | a :: l, h => by
    rw [List.mapM_cons]
    rcases List.mem_cons.mp h with rfl | h
    · rw [hf]
      rfl
    · rw [mapM_option_none hf h]
      cases f a <;> rfl

/-- A canonical access that L1 does not serve fails where its translation does. -/
theorem xlate_error (hc : canonical (vas.headD 0) = true) (hl1 : k = .load → ∃ v ∈ vas, s.l1Line x.core x.T.ctx (v / 128) = none)
    (h : s.translate x.core x.T.ctx (vas.headD 0) (if k.writes then .store else .load) = .error cause) :
    x.xlate s k l vas = .error ⟨14, cause, vas.headD 0, if k.writes then 1 else 0, 0, some l⟩ := by
  have hhit : (if k = .load then vas.mapM fun v => (s.l1Line x.core x.T.ctx (v / 128)).map fun l => l.pline * 128 + v % 128 else none) = none := by
    split
    · next hk =>
      obtain ⟨v, hv, hnone⟩ := hl1 hk
      exact mapM_option_none (by rw [hnone]; rfl) hv
    · rfl
  unfold Ix.xlate
  dsimp only
  rw [hhit, hc, h]
  rfl

end

section
variable {s : State} {core ctx va : Nat} {k : Access}

theorem translate_off (h : (tget Ctx.zero s.ctxs ctx).en = false) : s.translate core ctx va k = .error 6 := if_pos (by rw [h]; rfl)

variable (hen : (tget Ctx.zero s.ctxs ctx).en = true)
include hen

theorem translate_unmapped {c : Nat} (ht : s.tlbEntry core ctx va = none) (hw : s.walk ctx va = .error c) : s.translate core ctx va k = .error c := by
  unfold State.translate State.leafOf
  rw [hen, ht]
  dsimp only
  rw [hw]
  rfl

variable {large : Bool} {leaf : BitVec 64} (hleaf : s.leafOf core ctx va = .ok (large, leaf))
include hleaf

theorem translate_leaf : s.translate core ctx va k = if k = .store && !leafW leaf then .error 2 else if k = .fetch && !leafX leaf then .error 3
    else if s.backed (leafPa large leaf va + if leafREP leaf then s.replica ctx (s.dieOf core) else 0)
      then .ok ⟨leafPa large leaf va + if leafREP leaf then s.replica ctx (s.dieOf core) else 0, leafPa large leaf va, large, leaf⟩ else .error 5 := by
  have hpa : (if leafREP leaf then leafPa large leaf va + s.replica ctx (s.dieOf core) else leafPa large leaf va) =
      leafPa large leaf va + if leafREP leaf then s.replica ctx (s.dieOf core) else 0 := by
    cases leafREP leaf
    · rw [if_neg Bool.false_ne_true, if_neg Bool.false_ne_true, Nat.add_zero]
    · rw [if_pos rfl, if_pos rfl]
  unfold State.translate
  rw [hen, hleaf, if_neg (by decide)]
  dsimp only
  rw [hpa]

theorem translate_unwritable (hk : k = .store) (hw : leafW leaf = false) : s.translate core ctx va k = .error 2 := by
  rw [translate_leaf hen hleaf, if_pos (by rw [hk, hw]; rfl)]

theorem translate_unexecutable (hk : k = .fetch) (hx : leafX leaf = false) : s.translate core ctx va k = .error 3 := by
  rw [translate_leaf hen hleaf, if_neg (by rw [hk]; exact Bool.false_ne_true), if_pos (by rw [hk, hx]; rfl)]

theorem translate_unbacked (hw : k = .store → leafW leaf = true) (hx : k = .fetch → leafX leaf = true)
    (hb : s.backed (leafPa large leaf va + if leafREP leaf then s.replica ctx (s.dieOf core) else 0) = false) :
    s.translate core ctx va k = .error 5 := by
  have hstore : ¬ (decide (k = .store) && !leafW leaf) = true := fun h => by
    obtain ⟨h1, h2⟩ := Bool.and_eq_true_iff.mp h
    rw [hw (of_decide_eq_true h1)] at h2
    cases h2
  have hfetch : ¬ (decide (k = .fetch) && !leafX leaf) = true := fun h => by
    obtain ⟨h1, h2⟩ := Bool.and_eq_true_iff.mp h
    rw [hx (of_decide_eq_true h1)] at h2
    cases h2
  rw [translate_leaf hen hleaf, if_neg hstore, if_neg hfetch, hb, if_neg Bool.false_ne_true]

end

/-! ## Walks (09 R205, R206) -/

/-- Where the address that an entry gives may not lie at its level. -/
def entryUnaligned (j v : Nat) : Prop :=
  let tab := v % 2 ^ 52 / 2 ^ 8 * 2 ^ 8
  (j = 0 ∧ tab % 2 ^ 13 ≠ 0) ∨ (j = 1 ∧ tab % 2 ^ 14 ≠ 0) ∨ (j = 2 ∧ v / 2 % 2 = 1 ∧ tab % 2 ^ 21 ≠ 0) ∨ (j = 3 ∧ tab % 2 ^ 16 ≠ 0)

/-- A valid entry that breaks a rule of its level. -/
def entryBad (j v : Nat) : Prop :=
  v / 2 ^ 6 % 4 ≠ 0 ∨ v / 2 ^ 52 ≠ 0 ∨ (v / 2 % 2 = 1 ∧ j < 2) ∨ (¬ v / 2 % 2 = 1 ∧ j = 3) ∨ entryUnaligned j v

theorem entryOf_invalid {j v : Nat} (h : v % 2 = 0) : entryOf j v = .bad 1 := if_pos h

/-- A valid entry with no reserved bit set. -/
theorem entryOf_fields {j v : Nat} (hv : v % 2 = 1) (hf : ¬ (v / 2 ^ 6 % 4 ≠ 0 ∨ v / 2 ^ 52 ≠ 0)) : entryOf j v =
    let tab := v % 2 ^ 52 / 2 ^ 8 * 2 ^ 8
    if j = 3 then (if v / 2 % 2 = 1 ∧ tab % 2 ^ 16 = 0 then .leaf v else .bad 4)
    else if j = 2 then if v / 2 % 2 = 1 then (if tab % 2 ^ 21 = 0 then .leaf v else .bad 4) else .table tab
    else if v / 2 % 2 = 1 then .bad 4
    else if tab % (if j = 0 then 2 ^ 13 else 2 ^ 14) = 0 then .table tab else .bad 4 := by
  unfold entryOf
  rw [if_neg (by omega), if_neg hf]
  simp only [Bool.and_eq_true, decide_eq_true_eq]

theorem entryOf_bad {j v : Nat} (hj : j < 4) (hv : v % 2 = 1) (h : entryBad j v) : entryOf j v = .bad 4 := by
  by_cases hf : v / 2 ^ 6 % 4 ≠ 0 ∨ v / 2 ^ 52 ≠ 0
  · unfold entryOf
    rw [if_neg (by omega)]
    exact if_pos hf
  · rw [entryOf_fields hv hf]
    unfold entryBad entryUnaligned at h
    dsimp only at h ⊢
    generalize v % 2 ^ 52 / 2 ^ 8 * 2 ^ 8 = tab at h ⊢
    by_cases h3 : j = 3
    · rw [if_pos h3, if_neg (by omega)]
    · rw [if_neg h3]
      by_cases h2 : j = 2
      · rw [if_pos h2, if_pos (by omega), if_neg (by omega)]
      · rw [if_neg h2]
        by_cases hl : v / 2 % 2 = 1
        · rw [if_pos hl]
        · rw [if_neg hl, if_neg]
          by_cases h0 : j = 0
          · rw [if_pos h0]
            omega
          · rw [if_neg h0]
            omega

theorem entryOf_good {j v : Nat} (hj : j < 4) (hv : v % 2 = 1) (h : ¬ entryBad j v) :
    entryOf j v = if v / 2 % 2 = 1 then .leaf v else .table (v % 2 ^ 52 / 2 ^ 8 * 2 ^ 8) := by
  unfold entryBad entryUnaligned at h
  rw [entryOf_fields hv (by omega)]
  dsimp only at h ⊢
  generalize v % 2 ^ 52 / 2 ^ 8 * 2 ^ 8 = tab at h ⊢
  by_cases h3 : j = 3
  · rw [if_pos h3, if_pos (by omega), if_pos (by omega)]
  · rw [if_neg h3]
    by_cases h2 : j = 2
    · rw [if_pos h2]
      by_cases hl : v / 2 % 2 = 1
      · rw [if_pos hl, if_pos hl, if_pos (by omega)]
      · rw [if_neg hl, if_neg hl]
    · have hl : ¬ v / 2 % 2 = 1 := by omega
      rw [if_neg h2, if_neg hl, if_neg hl, if_pos]
      by_cases h0 : j = 0
      · rw [if_pos h0]
        omega
      · rw [if_neg h0]
        omega

section
variable {s : State} {ctx va : Nat}

/-- What a walk comes to at an entry that it reads last. -/
def WalkEnds (s : State) (ctx va j pa : Nat) : Prop :=
  let v := s.openWord64 pa
  (v % 2 = 0 → s.walk ctx va = .error 1) ∧ (v % 2 = 1 → entryBad j v → s.walk ctx va = .error 4) ∧
    (v % 2 = 1 → ¬ entryBad j v → s.walk ctx va = .ok (decide (j = 2), BitVec.ofNat 64 v))

/-- The entry of a level, read where the walk stands: it goes on to a table, or ends with a leaf or a cause. -/
theorem entryOf_cases {j : Nat} (hj : j < 4) (v : Nat) :
    (v % 2 = 0 ∧ entryOf j v = .bad 1) ∨ (v % 2 = 1 ∧ entryBad j v ∧ entryOf j v = .bad 4) ∨
      (v % 2 = 1 ∧ ¬ entryBad j v ∧ 2 ≤ j ∧ entryOf j v = .leaf v) ∨
      (v % 2 = 1 ∧ ¬ entryBad j v ∧ j < 3 ∧ entryOf j v = .table (v % 2 ^ 52 / 2 ^ 8 * 2 ^ 8)) := by
  rcases Nat.mod_two_eq_zero_or_one v with h0 | h1
  · exact .inl ⟨h0, entryOf_invalid h0⟩
  · by_cases hb : entryBad j v
    · exact .inr (.inl ⟨h1, hb, entryOf_bad hj h1 hb⟩)
    · have hgood := entryOf_good hj h1 hb
      by_cases hl : v / 2 % 2 = 1
      · refine .inr (.inr (.inl ⟨h1, hb, ?_, hgood.trans (if_pos hl)⟩))
        unfold entryBad at hb
        omega
      · refine .inr (.inr (.inr ⟨h1, hb, ?_, hgood.trans (if_neg hl)⟩))
        unfold entryBad at hb
        omega

/-- A walk ends with the entry `pa` that it reads after the entries `es`. -/
theorem walkEnds_of {es : List Nat} {k pa j q : Nat} (hes : es.length = k) (hk : k < 4) (h : s.walkReads ctx va = es ++ [pa])
    (hend : (∃ c, entryOf k (s.openWord64 pa) = .bad c ∧ s.walk ctx va = .error c) ∨
      ∃ v, entryOf k (s.openWord64 pa) = .leaf v ∧ (2 ≤ k → s.walk ctx va = .ok (decide (k = 2), BitVec.ofNat 64 v)))
    (hj : (s.walkReads ctx va)[j]? = some q) (hlast : j + 1 = (s.walkReads ctx va).length) : WalkEnds s ctx va j q := by
  rw [h] at hj hlast
  rw [List.length_append, List.length_singleton] at hlast
  have hjk : j = k := by omega
  rw [hjk, ← hes, List.getElem?_concat_length] at hj
  cases hj
  subst hjk
  have hcases := entryOf_cases hk (s.openWord64 pa)
  unfold WalkEnds
  dsimp only
  generalize s.openWord64 pa = w at hend hcases ⊢
  rcases hend with ⟨c, he, hw⟩ | ⟨v, he, hw⟩ <;> rw [he] at hcases
  · rcases hcases with ⟨h0, hc⟩ | ⟨h1, hb, hc⟩ | ⟨-, -, -, hc⟩ | ⟨-, -, -, hc⟩ <;> cases hc
    · exact ⟨fun _ => hw, fun h => absurd h (by omega), fun h => absurd h (by omega)⟩
    · exact ⟨fun h => absurd h (by omega), fun _ _ => hw, fun _ h => absurd hb h⟩
  · rcases hcases with ⟨-, hc⟩ | ⟨-, -, hc⟩ | ⟨h1, hb, h2, hc⟩ | ⟨-, -, -, hc⟩ <;> cases hc
    exact ⟨fun h => absurd h (by omega), fun _ h => absurd h hb, fun _ _ => hw h2⟩

/-- At the entry that a walk reads last it fails, or has its leaf. -/
theorem walk_last {j q : Nat} (hj : (s.walkReads ctx va)[j]? = some q) (hlast : j + 1 = (s.walkReads ctx va).length) :
    WalkEnds s ctx va j q := by
  obtain ⟨e0, he0⟩ : ∃ e0, e0 = (tget Ctx.zero s.ctxs ctx).root.toNat * 2 ^ 13 + 8 * (va / 2 ^ 42 % 1024) := ⟨_, rfl⟩
  cases h0 : entryOf 0 (s.openWord64 e0) with
  | bad c =>
    refine walkEnds_of (es := []) (k := 0) (pa := e0) rfl (by decide) ?_ (.inl ⟨c, h0, ?_⟩) hj hlast
    · simp only [State.walkReads, ← he0, h0, List.nil_append]
    · simp only [State.walk, ← he0, h0]
  | leaf v =>
    refine walkEnds_of (es := []) (k := 0) (pa := e0) rfl (by decide) ?_ (.inr ⟨v, h0, fun h => absurd h (by decide)⟩) hj hlast
    simp only [State.walkReads, ← he0, h0, List.nil_append]
  | table t1 =>
    obtain ⟨e1, he1⟩ : ∃ e1, e1 = t1 + 8 * (va / 2 ^ 32 % 1024) := ⟨_, rfl⟩
    cases h1 : entryOf 1 (s.openWord64 e1) with
    | bad c =>
      refine walkEnds_of (es := [e0]) (k := 1) (pa := e1) rfl (by decide) ?_ (.inl ⟨c, h1, ?_⟩) hj hlast
      · simp only [State.walkReads, ← he0, h0, ← he1, h1, List.cons_append, List.nil_append]
      · simp only [State.walk, ← he0, h0, ← he1, h1]
    | leaf v =>
      refine walkEnds_of (es := [e0]) (k := 1) (pa := e1) rfl (by decide) ?_ (.inr ⟨v, h1, fun h => absurd h (by decide)⟩) hj hlast
      simp only [State.walkReads, ← he0, h0, ← he1, h1, List.cons_append, List.nil_append]
    | table t2 =>
      obtain ⟨e2, he2⟩ : ∃ e2, e2 = t2 + 8 * (va / 2 ^ 21 % 2048) := ⟨_, rfl⟩
      cases h2 : entryOf 2 (s.openWord64 e2) with
      | bad c =>
        refine walkEnds_of (es := [e0, e1]) (k := 2) (pa := e2) rfl (by decide) ?_ (.inl ⟨c, h2, ?_⟩) hj hlast
        · simp only [State.walkReads, ← he0, h0, ← he1, h1, ← he2, h2, List.cons_append, List.nil_append]
        · simp only [State.walk, ← he0, h0, ← he1, h1, ← he2, h2]
      | leaf v =>
        refine walkEnds_of (es := [e0, e1]) (k := 2) (pa := e2) rfl (by decide) ?_ (.inr ⟨v, h2, fun _ => ?_⟩) hj hlast
        · simp only [State.walkReads, ← he0, h0, ← he1, h1, ← he2, h2, List.cons_append, List.nil_append]
        · simp only [State.walk, ← he0, h0, ← he1, h1, ← he2, h2]
          rfl
      | table t3 =>
        obtain ⟨e3, he3⟩ : ∃ e3, e3 = t3 + 8 * (va / 2 ^ 16 % 32) := ⟨_, rfl⟩
        have hreads : s.walkReads ctx va = [e0, e1, e2] ++ [e3] := by
          simp only [State.walkReads, ← he0, h0, ← he1, h1, ← he2, h2, ← he3, List.cons_append, List.nil_append]
        have hwalk : s.walk ctx va = match entryOf 3 (s.openWord64 e3) with
            | .bad c => .error c
            | .table _ => .error 4
            | .leaf v => .ok (false, BitVec.ofNat 64 v) := by
          cases h3 : entryOf 3 (s.openWord64 e3) <;> simp only [State.walk, ← he0, h0, ← he1, h1, ← he2, h2, ← he3, h3]
        have h32 : decide (3 = 2) = false := rfl
        rcases entryOf_cases (by decide : 3 < 4) (s.openWord64 e3) with ⟨-, h3⟩ | ⟨-, -, h3⟩ | ⟨-, -, -, h3⟩ | ⟨-, -, hlt, -⟩
        · exact walkEnds_of (k := 3) rfl (by decide) hreads (.inl ⟨1, h3, by rw [hwalk, h3]⟩) hj hlast
        · exact walkEnds_of (k := 3) rfl (by decide) hreads (.inl ⟨4, h3, by rw [hwalk, h3]⟩) hj hlast
        · exact walkEnds_of (k := 3) rfl (by decide) hreads (.inr ⟨_, h3, fun _ => by rw [hwalk, h3, h32]⟩) hj hlast
        · exact absurd hlt (by decide)

end

/-! ## O4 -/

theorem range'_headD {n : Nat} (hn : 0 < n) (a : Nat) : (List.range' a n).headD 0 = a := by
  obtain ⟨m, rfl⟩ : ∃ m, n = m + 1 := ⟨n - 1, by omega⟩
  rfl

section
variable {s : State} {x : Ix}

/-- An instruction takes the fault of its global access: its operands, and the kind, bytes, lanes and addresses of the access. -/
def GlobalFaults (s : State) (x : Ix) (q : Instr × Prop × MemKind × Nat × List Nat × (Nat → Nat)) : Prop :=
  ∀ tr, q.2.1 → Starts s x q.1 → x.globalAcc s q.2.2.1 q.2.2.2.1 q.2.2.2.2.1 q.2.2.2.2.2 = .error tr → Traps s x q.1 tr

/-- An instruction takes the fault of its access on the memory of its lanes. -/
def PrivateFaults (s : State) (x : Ix) (q : Instr × Prop × MemKind × Nat × (Nat → Nat)) : Prop :=
  ∀ tr, q.2.1 → Starts s x q.1 → x.privateAcc s q.2.2.1 q.2.2.2.1 x.lanes q.2.2.2.2 = .error tr → Traps s x q.1 tr

/-- An instruction takes the fault of its access to scratch. -/
def ScratchFaults (s : State) (x : Ix) (q : Instr × Prop × Nat × List Nat × (Nat → Nat)) : Prop :=
  ∀ tr, q.2.1 → x.P.done = 0 → Starts s x q.1 → x.scratchAcc s q.2.2.1 q.2.2.2.1 q.2.2.2.2 = .error tr → Traps s x q.1 tr

theorem globalFaults_of {qs : List (Instr × Prop × MemKind × Nat × List Nat × (Nat → Nat))} (h : ∀ q ∈ qs, GlobalFaults s x q) :
    ∀ i ready k w lanes addr tr, (i, ready, k, w, lanes, addr) ∈ qs → ready → Starts s x i → x.globalAcc s k w lanes addr = .error tr →
      Traps s x i tr := fun _ _ _ _ _ _ tr hi => h _ hi tr

theorem privateFaults_of {qs : List (Instr × Prop × MemKind × Nat × (Nat → Nat))} (h : ∀ q ∈ qs, PrivateFaults s x q) :
    ∀ i ready k w off tr, (i, ready, k, w, off) ∈ qs → ready → Starts s x i → x.privateAcc s k w x.lanes off = .error tr →
      Traps s x i tr := fun _ _ _ _ _ tr hi => h _ hi tr

theorem scratchFaults_of {qs : List (Instr × Prop × Nat × List Nat × (Nat → Nat))} (h : ∀ q ∈ qs, ScratchFaults s x q) :
    ∀ i ready w lanes off tr, (i, ready, w, lanes, off) ∈ qs → ready → x.P.done = 0 → Starts s x i → x.scratchAcc s w lanes off = .error tr →
      Traps s x i tr := fun _ _ _ _ _ tr hi => h _ hi tr

variable {e noret : Bool} {d a b c : BitVec 7} {ord : BitVec 2} {sc ty : BitVec 3} {op : BitVec 4} {t : Trap}

theorem atomGlobal_faults : GlobalFaults s x (.atom e d a b op ty ord sc 0 noret c, Usable s x (atomUses ty op noret d b c (.srcPair a.toNat)),
    .atomic ty.toNat, atomBytes ty, x.lanes, x.gaddr a 0) := fun _ hu hs ht =>
  atom_traps (sp := 0) hs hu (fun _ => ht) (fun h => absurd h (by decide)) fun h => absurd rfl h

theorem atomPrivate_faults : PrivateFaults s x (.atom e d a b op ty ord sc 2 noret c, Usable s x (atomUses ty op noret d b c (.src a.toNat)),
    .atomic ty.toNat, atomBytes ty, x.soff a 0) := fun _ hu hs ht =>
  atom_traps (sp := 2) hs hu (fun h => absurd h (by decide)) (fun h => absurd h (by decide)) fun _ _ => ht

theorem atomScratch_faults : ScratchFaults s x (.atom e d a b op ty ord sc 1 noret c, Usable s x (atomUses ty op noret d b c (.src a.toNat)),
    atomBytes ty, x.lanes, x.soff a 0) := fun _ hu hd hs ht =>
  atom_traps (sp := 1) hs hu (fun h => absurd h (by decide)) (fun _ => ⟨hd, ht⟩) fun _ h => absurd rfl h

end

/-- Settles O4: each instruction takes the fault of its access's checks, which look at every lane in turn. -/
theorem accessChecks : Obligations.AccessChecks := by
  intro s x first
  refine ⟨fun e n r noret z1 d a b c o z ord sc ty op gd ga go => ?_, fun k n l lanes addr hn => ?_, typeOk_iff,
    fun k n l lanes off hn => ?_, fun k l va cause vas hva hc hl1 h => ?_, fun core ctx va k => ?_⟩
  · intro m m1 dst src wide val atom am pair one g gof gu
    have hm : memBytes z.toNat = m := memBytes_eq z
    have hm1 : memBytes z1.toNat = m1 := by cases z1 <;> rfl
    have hdst : loadDst d z.toNat = dst := dst_eq d z
    have hdst1 : loadDst d z1.toNat = .reg d.toNat := by cases z1 <;> rfl
    have hsrc : storeSrc d z.toNat = src := src_eq d z
    have hpair : ∀ off, x.gaddr a off = pair off := fun off => funext (gaddr_eq x a off)
    have hg : (fun _ : Nat => (g + gof) % 2 ^ 64 % 2 ^ 56) = fun _ => (g + gof) % 2 ^ 56 :=
      funext fun _ => Nat.mod_mod_of_dvd _ (by decide)
    have hatom : ∀ u, atom u = Usable s x (atomUses ty op noret d b c u) := fun _ => rfl
    have ham : am = atomBytes ty := rfl
    have hsoff : ∀ off, one off = x.soff a off := fun _ => rfl
    clear_value m m1 dst src atom am pair one
    subst hm hm1 hdst hsrc ham
    obtain rfl : x.gaddr a = pair := funext hpair
    obtain rfl : one = x.soff a := funext hsoff
    rw [hatom, hatom]
    refine ⟨globalFaults_of ?_, privateFaults_of ?_, scratchFaults_of ?_⟩
    · refine List.forall_mem_cons.mpr ⟨fun tr hu hs ht => ldg_traps hs hu ht, ?_⟩
      refine List.forall_mem_cons.mpr ⟨fun tr hu hs ht => ldgs_traps hs (hdst1 ▸ hu) ht, ?_⟩
      refine List.forall_mem_cons.mpr ⟨fun tr hu hs ht => stg_traps hs hu ht, ?_⟩
      refine List.forall_mem_cons.mpr ⟨fun tr hu hs ht => lda_traps hs hu ht, ?_⟩
      refine List.forall_mem_cons.mpr ⟨fun tr hu hs ht => strel_traps hs hu ht, ?_⟩
      refine List.forall_mem_cons.mpr ⟨fun tr hu hs ht => mcst_traps hs hu ht, ?_⟩
      refine List.forall_mem_cons.mpr ⟨fun tr hu hs ht => monarm_traps hs hu ht, ?_⟩
      refine List.forall_mem_cons.mpr ⟨atomGlobal_faults, ?_⟩
      refine List.forall_mem_cons.mpr ⟨fun tr hu hs ht => gld_traps hs hu (hg ▸ ht), ?_⟩
      exact List.forall_mem_singleton.mpr fun tr hu hs ht => gstGlobal_traps hs hu (hg ▸ ht)
    · refine List.forall_mem_cons.mpr ⟨fun tr hu hs ht => ldp_traps hs hu ht, ?_⟩
      refine List.forall_mem_cons.mpr ⟨fun tr hu hs ht => ldps_traps hs (hdst1 ▸ hu) ht, ?_⟩
      refine List.forall_mem_cons.mpr ⟨fun tr hu hs ht => stp_traps hs hu ht, ?_⟩
      exact List.forall_mem_singleton.mpr atomPrivate_faults
    · refine List.forall_mem_cons.mpr ⟨fun tr hu hd hs ht => lds_traps hs hu hd ht, ?_⟩
      refine List.forall_mem_cons.mpr ⟨fun tr hu hd hs ht => ldss_traps hs (hdst1 ▸ hu) hd ht, ?_⟩
      refine List.forall_mem_cons.mpr ⟨fun tr hu _ hs ht => sts_traps hs hu ht, ?_⟩
      refine List.forall_mem_cons.mpr ⟨fun tr hu _ hs ht => empty_traps hs hu ht, ?_⟩
      refine List.forall_mem_cons.mpr ⟨fun tr hu _ hs ht => fchk_traps hs hu ht, ?_⟩
      refine List.forall_mem_cons.mpr ⟨atomScratch_faults, ?_⟩
      refine List.forall_mem_cons.mpr ⟨fun tr hu hd hs ht => glds_traps hs hu hd ht, ?_⟩
      exact List.forall_mem_singleton.mpr fun tr hu _ hs ht => gstScratch_traps hs hu ht
  · intro at' w
    have hhead := range'_headD hn
    refine ⟨fun h => (acc_misaligned h).1, fun ha => ⟨fun h => globalAcc_uncanonical ha h, fun hcan => ?_⟩⟩
    rw [globalAcc_checked ha hcan]
    refine ⟨fun tr htr h => checkAcc_untranslated h htr, fun acc hacc => ?_⟩
    intro all ok lock
    refine ⟨fun p h hp => ?_, fun hok cause hl hmin h => ?_⟩
    · rw [checkAcc_untyped hacc h hp, hhead]
      cases k <;> rfl
    · have hlocked := checkAcc_locked (n := n) (k := k) (cause := cause) (l := l) hacc hok
      simp only [hhead] at hlocked
      exact hlocked h hl hmin
  · refine ⟨fun h => (acc_misaligned h).2, fun ha => ⟨privateAcc_outside ha, fun top hr h hle htop => privateAcc_high ha hr h hle htop,
      fun tr hr => ?_, ?_⟩⟩
    · intro at' htr h
      rw [privateAcc_checked ha (fun j hj => (hr j hj).1) fun j hj => (hr j hj).2]
      exact checkAcc_untranslated h htr
    · intro place
      exact ⟨scratchAcc_outside ha, fun p hp h => scratchAcc_mash ha hp h⟩
  · subst hva
    exact xlate_error hc hl1 h
  · intro tr
    refine ⟨translate_off, fun hen => ⟨fun c ht hw => translate_unmapped hen ht hw, fun large leaf hleaf => ?_⟩,
      fun j pa hj hlast => walk_last hj hlast⟩
    intro pa
    exact ⟨translate_unwritable hen hleaf, translate_unexecutable hen hleaf, translate_unbacked hen hleaf⟩

end Sys2Proof.Machine
end

section
/-! The copy engine moves a byte (16 R336): what it leaves of the copy it moves and of the others, of memory and of scratch. -/

namespace Sys2Proof.Machine

/-! ## The copies that engines hold -/

section
variable {s : State} {c k : Copy} {id : Nat}

theorem id_of_find (h : s.copies.find? (fun k => decide (k.id = id)) = some c) : c.id = id := by
  have hid := List.find?_some h
  exact of_decide_eq_true hid

theorem setCopy_eq (hk : k.id = id) : s.setCopy k = { s with copies := s.copies.map fun j => if j.id = id then k else j } := by
  subst hk
  rfl

theorem find?_replace (hk : k.id = id) : ∀ cs : List Copy, cs.find? (fun j => decide (j.id = id)) = some c →
    (cs.map fun j => if j.id = id then k else j).find? (fun j => decide (j.id = id)) = some k
  | [], h => nomatch h
  | j :: js, h => by
    by_cases hj : j.id = id
    · rw [List.map_cons, if_pos hj]
      exact List.find?_cons_of_pos (decide_eq_true hk)
    · rw [List.find?_cons_of_neg (by simpa using hj)] at h
      rw [List.map_cons, if_neg hj, List.find?_cons_of_neg (by simpa using hj)]
      exact find?_replace hk js h

/-- A copy that has been replaced is the one found under its identifier. -/
theorem copy?_setCopy (h : s.copies.find? (fun k => decide (k.id = id)) = some c) (hk : k.id = id) : (s.setCopy k).copy? id = some k := by
  rw [setCopy_eq hk]
  exact find?_replace hk s.copies h

theorem loaded_id (c : Copy) : c.loaded.id = c.id := by
  unfold Copy.loaded
  dsimp only
  split
  · rfl
  · generalize (if c.steep then c.steepPuts else if c.dir = 1 then c.tensorPuts else c.densePuts) = ps
    split <;> rfl

theorem written_id (c : Copy) : c.written.id = c.id := by
  unfold Copy.written
  split <;> rfl

/-- A copy that has read its unit whole goes on to write it, where it writes anything. -/
theorem loaded_whole (hr : c.reads.length ≤ c.got.length) {ps : List CopyPut}
    (hps : (if c.steep then c.steepPuts else if c.dir = 1 then c.tensorPuts else c.densePuts) = ps) :
    c.loaded = if ps = [] then { c with unit := c.unit + 1, got := [] } else { c with put := ps } := by
  unfold Copy.loaded
  rw [if_neg (Nat.not_lt.mpr hr), hps]
  exact if_congr List.isEmpty_iff rfl rfl

theorem loaded_part (hr : c.got.length < c.reads.length) : c.loaded = c := if_pos hr

/-- A steep that has read its block writes it next. -/
theorem loaded_steep (hs : c.steep = true) (hr : c.reads.length ≤ c.got.length) : c.loaded = { c with put := c.steepPuts } := by
  rw [loaded_whole hr (if_pos hs)]
  exact if_neg (by unfold Copy.steepPuts; simp)

theorem loaded_steep_unfinished (hs : c.steep = true) (hu : c.unit < c.units) : c.loaded.unit < c.loaded.units := by
  by_cases hr : c.reads.length ≤ c.got.length
  · rw [loaded_steep hs hr]
    exact hu
  · rw [loaded_part (Nat.not_le.mp hr)]
    exact hu

/-! ## The byte that moves next -/

theorem atHead_free (hb : c.bank = none) : s.atHead c = true := by
  unfold State.atHead
  rw [hb]

theorem atHead_steep {b : Nat} {o : BankOp} {rest : List BankOp} (hb : c.bank = some b)
    (hops : (tget Bank.zero s.banks (32 * c.core + b)).ops = o :: rest) (ho : o.kind = .steep c.id) : s.atHead c = true := by
  unfold State.atHead
  rw [hb]
  dsimp only
  rw [hops]
  exact decide_eq_true ho

section
variable {T : Team} (hT : s.team c.team = some T) (hu : c.unit < c.units) (hh : s.atHead c = true)
include hT hu hh

theorem move_put {p : CopyPut} {ps : List CopyPut} (hp : c.put = p :: ps) : s.move c = s.copyPut T c p := by
  unfold State.move
  rw [hT]
  dsimp only
  rw [hh, decide_eq_false (Nat.not_le.mpr hu), hp]
  rfl

theorem move_read {r : CopySrc} (hp : c.put = []) (hr : c.nextRead = some r) : s.move c = s.copyRead T c r := by
  unfold State.move
  rw [hT]
  dsimp only
  rw [hh, decide_eq_false (Nat.not_le.mpr hu), hp, hr]
  rfl

end

theorem advance_ok {t : State} (h : s.move c = .ok t k) : s.advance c = t.setCopy k := by
  unfold State.advance
  rw [h]

theorem advance_wait (h : s.move c = .wait) : s.advance c = s := by
  unfold State.advance
  rw [h]

/-! ## Reads and writes of memory (10 R227; 21 R420) -/

/-- The request that an engine's access to an address makes, where the address lies in a peer window. -/
def State.request (s : State) (pa : Nat) (op : PeerOp) : List PeerReq :=
  match s.peerAt pa with
  | some (port, addr) => if s.portUp port.toNat then [⟨port, addr, 1, op⟩] else []
  | none => []

theorem peerSend_request {t : State} (hports : t.ports = s.ports) (hsent : t.sent = s.sent) (pa : Nat) (op : PeerOp) :
    t.peerSend (s.peerAt pa) 1 op = { t with sent := s.sent ++ s.request pa op } := by
  unfold State.peerSend State.request
  rw [← hsent]
  cases s.peerAt pa with
  | none => simp
  | some out =>
    have hup : t.portUp out.1.toNat = s.portUp out.1.toNat := by
      unfold State.portUp
      rw [hports]
    dsimp only
    rw [hup]
    split <;> simp

theorem copyRead_global {T : Team} {va : Nat} {m : Xlat} (hx : s.engXlat c.core c.ctx va .load = .ok m) (hd : s.deadRead m.pa = false) :
    ∃ u, Shared s u ∧ s.copyRead T c (.global va) =
      .ok { u with sent := s.sent ++ s.request m.pa .read } ({ c with got := c.got ++ [s.openByteAt m.pa] } : Copy).loaded := by
  have hu := (shared_walkFor s c.core c.ctx va).trans (shared_shareBytes _ (s.dieOf c.core) [m.pa])
  refine ⟨_, hu, ?_⟩
  unfold State.copyRead
  dsimp only
  rw [hx]
  dsimp only
  rw [hd, if_neg Bool.false_ne_true, peerSend_request (by rw [hu.1]) (by rw [hu.1])]

theorem foldl_single {pa a : Nat} {v w : Byte} {r : Nat → Bool} :
    ([(a, w)] : List (Nat × Byte)).foldl (fun v e => if e.1 = pa ∧ r e.1 = true then e.2 else v) v =
      if pa = a ∧ r pa = true then w else v := by
  by_cases h : a = pa
  · subst h
    simp
  · simp [h, Ne.symm h]

theorem copyPut_global {T : Team} {p : CopyPut} {va : Nat} {m : Xlat} (hp : p.place = .global va)
    (hx : s.engXlat c.core c.ctx va .store = .ok m) (hh : s.hitsHung m.pa 1 = false) :
    ∃ u, Written s u ∧ s.copyPut T c p = .ok { u with sent := s.sent ++ s.request m.pa (.write (p.val.setWidth 64)) } c.written ∧
      ∀ pa, u.byteAt pa = if pa = m.pa ∧ s.reaches pa = true then maskByte (s.byteAt pa) p.mask p.val else s.byteAt pa := by
  have hwalk := shared_walkFor s c.core c.ctx va
  have hu := hwalk.written.trans (written_performBytes _ (s.dieOf c.core) [(m.pa, maskByte (s.byteAt m.pa) p.mask p.val)])
  refine ⟨_, hu, ?_, fun pa => ?_⟩
  · unfold State.copyPut
    dsimp only
    rw [hp]
    dsimp only
    rw [hx]
    dsimp only
    rw [hh, if_neg Bool.false_ne_true, peerSend_request (by rw [hu.1]) (by rw [hu.1])]
  · have hreaches : (s.walkFor c.core c.ctx va).reaches = s.reaches := funext hwalk.reaches
    rw [byteAt_performBytes, hwalk.2, foldl_single, hreaches]
    by_cases h : pa = m.pa
    · rw [h]
    · rw [if_neg fun hc => h hc.1, if_neg fun hc => h hc.1]

end

end Sys2Proof.Machine
end

section
/-! Operations of a bank (O39): k-steps, promotions and clears (14 R301 to R305), and the steep of a copy (16 R339). -/

namespace Sys2Proof.Machine

/-! ## A table that is built -/

theorem tget_filterMap_keyed {α : Type} [DecidableEq α] (d : α) (f : Nat → α) (i : Nat) : ∀ ks : List Nat,
    tget d (ks.filterMap fun k => if f k = d then none else some (k, f k)) i = if i ∈ ks then f i else d
  | [] => rfl
  | k :: ks => by
    have ih := tget_filterMap_keyed d f i ks
    rw [List.filterMap_cons]
    by_cases hd : f k = d <;> by_cases hk : k = i
    · subst hk
      simp [hd, ih]
    · simp [hd, ih, Ne.symm hk]
    · subst hk
      simp [hd, tget]
    · simp [hd, tget, ih, hk, Ne.symm hk]

@[simp] theorem tget_tbuild {α : Type} [DecidableEq α] (d : α) (n : Nat) (f : Nat → α) (i : Nat) :
    tget d (tbuild d n f) i = if i < n then f i else d := by
  unfold tbuild
  rw [tget_filterMap_keyed]
  simp only [List.mem_range]

theorem mashCells_eq : mashCells = 8192 := by decide

/-! ## Promotions and clears (14 R304, R305) -/

/-- The value that a cell of the rack takes in a promotion. -/
def Bank.promoted (B : Bank) (i : Nat) : Word :=
  if tget false B.nan i = true then 0x7FC00000
  else rnd32 Rnd.ne (sumVal 0 [Val.ofF32 (tget 0 B.rack i), (Val.ofInt (tget 0 B.acc i)).scale (tget 0 B.ecol i)])

theorem promote_idle {B : Bank} (h : B.cnt = 0) : B.promote = B := if_pos h

theorem promote_spec {B : Bank} (h : B.cnt ≠ 0) :
    B.promote = { B with rack := B.promote.rack, acc := [], nan := [], cnt := 0 } ∧
    ∀ i, i < 8192 → tget 0 B.promote.rack i = B.promoted i := by
  have he : B.promote = { B with rack := tbuild 0 mashCells B.promoted, acc := [], nan := [], cnt := 0 } := if_neg h
  refine ⟨by rw [he], fun i hi => ?_⟩
  rw [he, tget_tbuild, mashCells_eq, if_pos hi]

theorem tget_clear_row {α : Type} (d : α) (t : Table α) (m i : Nat) :
    tget d (tclear t (512 * m) (512 * m + 512)) i = if i / 512 = m then d else tget d t i := by
  rw [tget_tclear]
  exact if_congr (by omega) rfl rfl

/-! ## K-steps (14 R301 to R303) -/

/-- What a cell with sum and exponent `c` takes in a k-step that is not the first of its period, before it saturates. -/
def shiftedSum (c t : Int × Int) : Int := c.1 + if c.2 ≤ t.2 then t.1 * 2 ^ (t.2 - c.2).toNat else rneShift t.1 (c.2 - t.2).toNat

theorem shiftedSum_eq (a e : Int) (t : Int × Int) : shiftedSum (a, e) t =
    if e ≤ t.2 then a + t.1 * ((2 ^ (t.2 - e).toNat : Nat) : Int) else a + rneShift t.1 (e - t.2).toNat := by
  unfold shiftedSum
  push_cast
  split <;> rfl

theorem satS_eq (x : Int) (w : Nat) : satS x w = max (-2 ^ (w - 1)) (min x (2 ^ (w - 1) - 1)) := by
  unfold satS
  push_cast
  rfl

theorem satS_ne_iff {x : Int} {w : Nat} : satS x w ≠ x ↔ x < -2 ^ (w - 1) ∨ 2 ^ (w - 1) - 1 < x := by
  have hpos : (0 : Int) < 2 ^ (w - 1) := by positivity
  rw [satS_eq]
  generalize (2 : Int) ^ (w - 1) = m at *
  omega

section
variable (B : Bank) (byte : Nat → Nat) (fa fw kg : Nat) (frag : BitVec 4096) (sa : BitVec 128)

/-- A k-step that neither clears before it nor promotes after it. -/
def Bank.accumulate : Bank := B.kStep byte fa fw kg (B.cnt + 2) false frag sa

/-- A k-step clears where it is told to, accumulates, and promotes where it is the last of its period (14 R303, R304). -/
theorem kStep_eq (p : Nat) (clr : Bool) : B.kStep byte fa fw kg p clr frag sa =
    let C := if clr then B.clear none else B
    if p ≤ C.cnt + 1 then (C.accumulate byte fa fw kg frag sa).promote else C.accumulate byte fa fw kg frag sa := by
  unfold Bank.accumulate Bank.kStep
  simp only [Bool.false_eq_true, if_false, Nat.not_succ_le_self]

theorem accumulate_frame : B.accumulate byte fa fw kg frag sa = { B with
    acc := (B.accumulate byte fa fw kg frag sa).acc, ecol := (B.accumulate byte fa fw kg frag sa).ecol
    nan := (B.accumulate byte fa fw kg frag sa).nan, sat := (B.accumulate byte fa fw kg frag sa).sat, cnt := B.cnt + 1 } := by
  unfold Bank.accumulate Bank.kStep
  simp only [Bool.false_eq_true, if_false, Nat.not_succ_le_self]

theorem accumulate_acc {i : Nat} (hi : i < 8192) :
    let t := B.term byte fa fw kg frag sa (i / 512) (i % 512)
    tget 0 (B.accumulate byte fa fw kg frag sa).acc i = if i % 512 < mashCols fw then
      (if B.cnt = 0 then t.1 else satS (shiftedSum (tget 0 B.acc i, tget 0 B.ecol i) t) (accWidth fa fw)) else tget 0 B.acc i := by
  unfold Bank.accumulate Bank.kStep
  simp only [Bool.false_eq_true, if_false, Nat.not_succ_le_self, tget_tbuild, mashCells_eq, if_pos hi, decide_eq_true_eq, ← shiftedSum_eq]
  by_cases hc : B.cnt = 0
  · simp only [hc, if_true]
  · simp only [hc, if_false]

theorem accumulate_ecol {i : Nat} (hi : i < 8192) : tget 0 (B.accumulate byte fa fw kg frag sa).ecol i =
    if B.cnt = 0 ∧ i % 512 < mashCols fw then (B.term byte fa fw kg frag sa (i / 512) (i % 512)).2 else tget 0 B.ecol i := by
  unfold Bank.accumulate Bank.kStep
  simp only [Bool.false_eq_true, if_false, Nat.not_succ_le_self, mashCells_eq, decide_eq_true_eq]
  by_cases hc : B.cnt = 0
  · simp only [hc, if_true, tget_tbuild, if_pos hi, true_and]
  · simp only [hc, if_false, false_and]

theorem accumulate_nan {i : Nat} (hi : i < 8192) : tget false (B.accumulate byte fa fw kg frag sa).nan i = true ↔
    tget false B.nan i = true ∨ i % 512 < mashCols fw ∧
      (wideByte sa (i / 512) = 0xFF ∨ tget 0x7F B.sw (512 * kg + i % 512) = 0xFF) := by
  unfold Bank.accumulate Bank.kStep
  simp only [Bool.false_eq_true, if_false, Nat.not_succ_le_self, tget_tbuild, mashCells_eq, if_pos hi, Bool.or_eq_true,
    Bool.and_eq_true, decide_eq_true_eq]

theorem accumulate_sat : (B.accumulate byte fa fw kg frag sa).sat = true ↔ B.sat = true ∨ B.cnt ≠ 0 ∧ ∃ i, i < 8192 ∧
    i % 512 < mashCols fw ∧ satS (shiftedSum (tget 0 B.acc i, tget 0 B.ecol i) (B.term byte fa fw kg frag sa (i / 512) (i % 512)))
      (accWidth fa fw) ≠ shiftedSum (tget 0 B.acc i, tget 0 B.ecol i) (B.term byte fa fw kg frag sa (i / 512) (i % 512)) := by
  unfold Bank.accumulate Bank.kStep
  simp only [Bool.false_eq_true, if_false, Nat.not_succ_le_self, mashCells_eq, Bool.or_eq_true, List.any_eq_true, List.mem_range,
    Bool.and_eq_true, decide_eq_true_eq, ← shiftedSum_eq]
  by_cases hc : B.cnt = 0
  · simp only [hc, ne_eq, not_true_eq_false, and_false, false_and, exists_false]
  · simp only [hc, if_false, ne_eq, not_false_eq_true, and_true, true_and]

/-! ### By row and column -/

theorem mashCols_le : mashCols fw ≤ 512 := by
  unfold mashCols
  split <;> omega

theorem row_eq {m n : Nat} (hn : n < 512) : (512 * m + n) / 512 = m := by omega

theorem column_eq {m n : Nat} (hn : n < 512) : (512 * m + n) % 512 = n := by omega

/-- A cell of a column that the weights reach. -/
theorem accumulate_reached {m n : Nat} (hm : m < 16) (hn : n < mashCols fw) :
    let t := B.term byte fa fw kg frag sa m n
    let i := 512 * m + n
    tget 0 (B.accumulate byte fa fw kg frag sa).acc i =
      (if B.cnt = 0 then t.1 else satS (shiftedSum (tget 0 B.acc i, tget 0 B.ecol i) t) (accWidth fa fw)) ∧
    tget 0 (B.accumulate byte fa fw kg frag sa).ecol i = (if B.cnt = 0 then t.2 else tget 0 B.ecol i) ∧
    (tget false (B.accumulate byte fa fw kg frag sa).nan i = true ↔
      tget false B.nan i = true ∨ wideByte sa m = 0xFF ∨ tget 0x7F B.sw (512 * kg + n) = 0xFF) := by
  intro t i
  have h512 : n < 512 := hn.trans_le (mashCols_le fw)
  have hi : i < 8192 := by omega
  rw [accumulate_acc B byte fa fw kg frag sa hi, accumulate_ecol B byte fa fw kg frag sa hi,
    accumulate_nan B byte fa fw kg frag sa hi, row_eq h512, column_eq h512, if_pos hn, and_iff_right hn,
    if_congr (and_iff_left hn) rfl rfl]
  exact ⟨rfl, rfl, .rfl⟩

/-- A cell of a column past them. -/
theorem accumulate_past {m n : Nat} (hm : m < 16) (h512 : n < 512) (hn : mashCols fw ≤ n) :
    let i := 512 * m + n
    tget 0 (B.accumulate byte fa fw kg frag sa).acc i = tget 0 B.acc i ∧
    tget 0 (B.accumulate byte fa fw kg frag sa).ecol i = tget 0 B.ecol i ∧
    tget false (B.accumulate byte fa fw kg frag sa).nan i = tget false B.nan i := by
  intro i
  have hi : i < 8192 := by omega
  have hpast := Nat.not_lt.mpr hn
  rw [Bool.eq_iff_iff, accumulate_acc B byte fa fw kg frag sa hi, accumulate_ecol B byte fa fw kg frag sa hi,
    accumulate_nan B byte fa fw kg frag sa hi, column_eq h512, if_neg hpast, if_neg fun h => hpast h.2, or_iff_left fun h => hpast h.1]
  exact ⟨rfl, rfl, .rfl⟩

/-- The bank saturates where a cell that the weights reach does. -/
theorem accumulate_saturates : (B.accumulate byte fa fw kg frag sa).sat = true ↔ B.sat = true ∨ B.cnt ≠ 0 ∧ ∃ m n, m < 16 ∧
    n < mashCols fw ∧
      (let sum := shiftedSum (tget 0 B.acc (512 * m + n), tget 0 B.ecol (512 * m + n)) (B.term byte fa fw kg frag sa m n)
       sum < -2 ^ (accWidth fa fw - 1) ∨ 2 ^ (accWidth fa fw - 1) - 1 < sum) := by
  rw [accumulate_sat]
  simp only [satS_ne_iff]
  refine or_congr_right (and_congr_right fun _ => ⟨?_, ?_⟩)
  · rintro ⟨i, hi, hn, hsat⟩
    refine ⟨i / 512, i % 512, by omega, hn, ?_⟩
    rw [Nat.div_add_mod]
    exact hsat
  · rintro ⟨m, n, hm, hn, hsat⟩
    have h512 : n < 512 := hn.trans_le (mashCols_le fw)
    refine ⟨512 * m + n, by omega, ?_⟩
    rw [row_eq h512, column_eq h512]
    exact ⟨hn, hsat⟩

end

/-! ## The operation at the head of a queue -/

theorem bankExec_head {s : State} {core b : Nat} {o : BankOp} {rest : List BankOp}
    {f : BankOpKind → Option (Bank → Bank)} {g : Bank → Bank} (hops : (tget Bank.zero s.banks (32 * core + b)).ops = o :: rest) (hf : f o.kind = some g) :
    s.bankExec core b f = s.setBank core b { g (s.bank core b) with ops := rest } := by
  unfold State.bankExec
  dsimp only
  rw [show (s.bank core b).ops = o :: rest from hops]
  dsimp only
  rw [hf]

theorem mashExp_eq (f : Nat) : mashExp f = if f = 0 then -6 else if f = 1 then -3 else -1 := by
  unfold mashExp
  split <;> simp_all

/-! ## Steeps (16 R339) -/

section
variable {s t : State} {core b id : Nat} {rest : List BankOp} {c k : Copy}

/-- The steep at the head of a queue moves its next byte, and leaves the queue with the last. -/
theorem steepExecute_moves (hops : (tget Bank.zero s.banks (32 * core + b)).ops = ⟨id, .steep id⟩ :: rest)
    (hc : s.copies.find? (fun k => decide (k.id = id)) = some c) (hm : s.moving c = true) (hmove : s.move c = .ok t k)
    (hcopies : t.copies = s.copies) (hk : k.id = id) : exec (.steepExecute core b) s = .next
      (if k.units ≤ k.unit then (t.setCopy k).setBank core b { (t.setCopy k).bank core b with ops := rest } else t.setCopy k) := by
  have hfound : (t.setCopy k).copy? id = some k := copy?_setCopy (c := c) (by rw [hcopies]; exact hc) hk
  show execSteepExecute core b s = _
  unfold execSteepExecute
  rw [show (s.bank core b).ops = ⟨id, .steep id⟩ :: rest from hops]
  dsimp only
  rw [show s.copy? id = some c from hc]
  dsimp only
  rw [hm, if_pos rfl, advance_ok hmove, hfound]
  simp only [decide_eq_true_eq]

/-- The steep writes a byte, in the array or the scales of its bank, whose other state becomes that of `B`. -/
theorem steepExecute_writes {B : Bank} (hops : (tget Bank.zero s.banks (32 * core + b)).ops = ⟨id, .steep id⟩ :: rest)
    (hc : s.copies.find? (fun k => decide (k.id = id)) = some c) (hm : s.moving c = true) (hmove : s.move c = .ok t c.written)
    (hcopies : t.copies = s.copies) (hB : B.ops = (tget Bank.zero s.banks (32 * core + b)).ops)
    (hbanks : ∀ j, tget Bank.zero t.banks j = if j = 32 * core + b then B else tget Bank.zero s.banks j) :
    ∃ u, exec (.steepExecute core b) s = .next u ∧
      (∀ j, tget Bank.zero u.banks j = if j = 32 * core + b then
        { B with ops := if c.written.units ≤ c.written.unit then rest else (tget Bank.zero s.banks (32 * core + b)).ops }
        else tget Bank.zero s.banks j) ∧
      u = { t with banks := u.banks, copies := s.copies.map fun k => if k.id = id then c.written else k } := by
  have hid : c.written.id = id := (written_id c).trans (id_of_find hc)
  have hset := setCopy_eq (s := t) hid
  have hexec := steepExecute_moves hops hc hm hmove hcopies hid
  rw [hcopies] at hset
  refine ⟨_, hexec, fun j => ?_, ?_⟩
  · by_cases hlast : c.written.units ≤ c.written.unit
    · rw [if_pos hlast, if_pos hlast]
      have hbank : (t.setCopy c.written).bank core b = B := (hbanks _).trans (if_pos rfl)
      rw [hbank]
      show tget Bank.zero (tput Bank.zero t.banks (32 * core + b) { B with ops := rest }) j = _
      rw [tget_tput, hbanks]
      split <;> rfl
    · rw [if_neg hlast, if_neg hlast, hset, ← hB]
      exact hbanks j
  · rw [hset]
    split <;> rfl

end

theorem zipIdx_map_range {α β : Type} (n : Nat) (f : Nat → α) (g : α × Nat → β) :
    ((List.range n).map f).zipIdx.map g = (List.range n).map fun i => g (f i, i) :=
  List.ext_getElem (by simp) (by simp)

theorem steep_unitElems {c : Copy} (hs : c.steep = true) : c.unitElems = 32 := by
  unfold Copy.unitElems
  rw [hs, Bool.or_true, if_pos rfl]

/-- A steep writes its elements as they are, or aligned where its option says so. -/
theorem steep_unitVals {c : Copy} (hs : c.steep = true) (h : c.opt = 3 ∨ c.opt = 4) :
    let val := fun i => Val.ofBits (if recElem c.record = 6 then e4m3 else e5m2) (c.elemIn i)
    let code := mxScale 0 ((List.range 32).map val)
    c.aligns = decide (c.opt = 4) ∧ (c.opt = 4 → c.unitVals.2 = code) ∧
      c.unitVals.1 = (List.range 32).map fun i => if c.opt = 4 then mxQuant 0 0 code (val i) else c.elemIn i := by
  unfold Copy.unitVals alignBlock Copy.aligns
  rw [steep_unitElems hs]
  rcases h with h | h
  · simp [h]
  · simp [h, List.map_map, Function.comp_def]

/-- Settles O39: an operation that executes at the head of its queue by `bankExec_head`, a k-step through the cells of
`Bank.accumulate`, a steep through the byte that its copy moves. -/
theorem bankOperations : Obligations.BankOperations := by
  unfold Obligations.BankOperations
  intro s core b id rest B done promoted
  refine ⟨?_, ?_, ?_, ?_, ?_, ?_⟩
  · intro fa fw kg p clr frag sa hops _ _ B0 byte weight scale unit S E lim cols sum
    have hB0 : (if clr then B.clear none else B) = B0 := rfl
    have hsw : B0.sw = B.sw := by
      rw [← hB0]
      cases clr <;> rfl
    have hterm : ∀ m n, B0.term byte fa fw kg frag sa m n = (S m n, E m n) := fun m n => by
      unfold Bank.term
      rw [hsw, mashExp_eq, mashExp_eq]
      rfl
    have hexec : exec (.kStep core b) s = .next (done (B.kStep byte fa fw kg p clr frag sa)) :=
      congrArg Host.Outcome.next (bankExec_head (g := fun B => B.kStep byte fa fw kg p clr frag sa) hops rfl)
    rw [kStep_eq, hB0] at hexec
    have hreached := fun m n hm hn => accumulate_reached B0 byte fa fw kg frag sa (m := m) (n := n) hm hn
    have hsat := accumulate_saturates B0 byte fa fw kg frag sa
    simp only [hterm, hsw, satS_eq] at hreached hsat
    refine ⟨B0.accumulate byte fa fw kg frag sa, accumulate_frame B0 byte fa fw kg frag sa, fun m n hm hn =>
      ⟨fun hlive => ?_, accumulate_past B0 byte fa fw kg frag sa hm hn⟩, hsat, ?_, ?_⟩
    · obtain ⟨hacc, hecol, hnan⟩ := hreached m n hm hlive
      refine ⟨hacc, hecol, hnan.trans (or_congr_right (or_congr_right ?_))⟩
      exact BitVec.toNat_inj.symm
    · exact fun hp => hexec.trans (congrArg _ (congrArg done (if_neg (Nat.not_le.mpr hp))))
    · intro hp
      have hcnt : (B0.accumulate byte fa fw kg frag sa).cnt ≠ 0 := by rw [accumulate_frame]; exact Nat.succ_ne_zero _
      exact ⟨_, promote_spec hcnt, hexec.trans (congrArg _ (congrArg done (if_pos hp)))⟩
  · intro hops
    have hexec : exec (.rackExecute core b) s = .next (done B.promote) :=
      congrArg Host.Outcome.next (bankExec_head (g := Bank.promote) hops rfl)
    exact ⟨fun hc => hexec.trans (by rw [promote_idle hc]), fun hc => ⟨_, promote_spec hc, hexec⟩⟩
  · intro m hops
    have hexec : exec (.colclrExecute core b) s = .next (done (B.clear (some m))) :=
      congrArg Host.Outcome.next (bankExec_head (g := fun B => B.clear (some m)) hops rfl)
    exact ⟨B.clear (some m), rfl, fun i => ⟨tget_clear_row _ _ _ _, tget_clear_row _ _ _ _, tget_clear_row _ _ _ _⟩, hexec⟩
  · exact fun hops => congrArg Host.Outcome.next (bankExec_head (g := fun B => B.clear none) hops rfl)
  · intro c T hops hc hm hT hb hcore hu hs now left only key cell
    subst hcore
    have hid := id_of_find hc
    have hh : s.atHead c = true := atHead_steep hb hops (by rw [hid])
    refine ⟨fun va l hp hr hx hd => ?_, fun p ps i hp hplace => ?_, fun p ps g n hp hplace => ?_⟩
    · obtain ⟨u, hshared, hread⟩ := copyRead_global (T := T) hx hd
      have hcopies : u.copies = s.copies := by rw [hshared.1]
      have hkid : ({ c with got := c.got ++ [s.openByteAt l.pa] } : Copy).loaded.id = id := (loaded_id _).trans hid
      have hmoves := steepExecute_moves hops hc hm ((move_read hT hu hh hp hr).trans hread) hcopies hkid
      have hunfinished := loaded_steep_unfinished (c := { c with got := c.got ++ [s.openByteAt l.pa] }) hs hu
      rw [if_neg (Nat.not_le.mpr hunfinished), setCopy_eq hkid] at hmoves
      refine ⟨u, hshared, hmoves.trans ?_⟩
      dsimp only [now]
      rw [hcopies]
      rfl
    · have hput : s.copyPut T c p = .ok (s.keyPut (key i) p.mask p.val) c.written := by
        unfold State.copyPut
        dsimp only
        rw [hplace, hb]
        rfl
      obtain ⟨t, hexec, honly, ht⟩ := steepExecute_writes (B := B) hops hc hm ((move_put hT hu hh hp).trans hput) rfl rfl
        (fun j => by
          by_cases hj : j = 32 * c.core + b
          · rw [if_pos hj, hj]
            rfl
          · rw [if_neg hj]
            rfl)
      exact ⟨t, hexec, honly, ht⟩
    · have hput : s.copyPut T c p = .ok (s.setBank c.core b { B with sw := tput 0x7F B.sw (512 * g + n) p.val }) c.written := by
        unfold State.copyPut
        dsimp only
        rw [hplace, hb]
        rfl
      obtain ⟨t, hexec, honly, ht⟩ := steepExecute_writes (B := { B with sw := tput 0x7F B.sw (512 * g + n) p.val }) hops hc hm
        ((move_put hT hu hh hp).trans hput) rfl rfl (fun j => tget_tput _ _ _ _ _)
      exact ⟨t, hexec, ht, honly⟩
  · intro c hs hr per row col val code v hopt
    obtain ⟨haligns, hcode, hvals⟩ := steep_unitVals hs hopt
    rw [loaded_steep hs hr]
    refine congrArg (fun ps => ({ c with put := ps } : Copy)) ?_
    unfold Copy.steepPuts
    dsimp only
    rw [hvals, zipIdx_map_range, haligns]
    simp only [decide_eq_true_eq]
    refine congrArg (fun z => _ ++ [(⟨_, _, z⟩ : CopyPut)]) ?_
    by_cases h : c.opt = 4
    · rw [if_pos h, if_pos h, hcode h]
    · rw [if_neg h, if_neg h]

end Sys2Proof.Machine
end

section
/-! The copy engine's instructions (O35): units of whole bytes, completion, parking and resumption (16 R329, R336, R352 to R354). -/

namespace Sys2Proof.Machine

section
variable {s : State} {c : Copy} {id : Nat} (hc : s.copies.find? (fun k => decide (k.id = id)) = some c)
include hc

/-! ## COPY_WRITE (16 R336) -/

theorem copyWrite_advances (hm : s.moving c = true) (hb : c.bank = none) : exec (.copyWrite id) s = .next (s.advance c) := by
  show execCopyWrite id s = _
  unfold execCopyWrite
  rw [show s.copy? id = some c from hc]
  dsimp only
  rw [hm, hb]
  rfl

theorem copyWrite_ok {t : State} {k : Copy} (hm : s.moving c = true) (hb : c.bank = none) (hmove : s.move c = .ok t k) (hk : k.id = id)
    (hcopies : t.copies = s.copies) :
    exec (.copyWrite id) s = .next { t with copies := s.copies.map fun j => if j.id = id then k else j } := by
  rw [copyWrite_advances hc hm hb, advance_ok hmove, setCopy_eq hk, hcopies]

/-! ## COPY_COMPLETE (16 R336, R341) -/

theorem copyComplete_plain (hs : c.started = true) (hu : c.unit = c.units) (hr : c.ring = none) :
    exec (.copyComplete id) s = .next { s with copies := s.copies.filter fun k => decide (k.id ≠ id) } := by
  show execCopyComplete id s = _
  unfold execCopyComplete
  rw [show s.copy? id = some c from hc]
  dsimp only
  rw [hs, decide_eq_true hu, hr]
  rfl

theorem copyComplete_arrives {q i : Nat} {T : Team} {r : Ring} (hs : c.started = true) (hu : c.unit = c.units) (hr : c.ring = some (q, i))
    (hT : s.team c.team = some T) (hring : tget none T.rings q = some r) :
    exec (.copyComplete id) s = .next { s with
      copies := s.copies.filter (fun k => decide (k.id ≠ id))
      teams := tput none s.teams c.team (some { T with
        rings := tput none T.rings q (some ((r.setSlot i { r.slot i with res := (r.slot i).res - 1 }).arrive i)) }) } := by
  show execCopyComplete id s = _
  unfold execCopyComplete
  rw [show s.copy? id = some c from hc]
  dsimp only
  rw [hs, decide_eq_true hu, hr, if_pos (by rfl)]
  rw [show ({ s with copies := s.copies.filter fun k => decide (k.id ≠ id) } : State).team c.team = some T from hT]
  dsimp only
  rw [show T.ring q = some r from hring]
  dsimp only
  exact congrArg Host.Outcome.next (setRing_eq (s := { s with copies := s.copies.filter fun k => decide (k.id ≠ id) }) hT _)

end

/-- The arrival of a copy takes back its reservation (16 R341). -/
theorem arrive_reserved {r : Ring} {i : Nat} (hi : i < r.slots.length) :
    let full := (r.slot i).arr + 1 = r.exp
    (r.setSlot i { r.slot i with res := (r.slot i).res - 1 }).arrive i = { r with
      filled := if full then r.filled + 1 else r.filled
      slots := r.slots.set i { r.slot i with
        res := (r.slot i).res - 1, arr := (r.slot i).arr + 1, st := if full then .filled else (r.slot i).st } } := by
  intro full
  have hslot : (r.setSlot i { r.slot i with res := (r.slot i).res - 1 }).slot i = { r.slot i with res := (r.slot i).res - 1 } := by
    show ((r.slots.set i _)[i]?).getD _ = _
    rw [List.getElem?_set_self hi]
    rfl
  have hset : ∀ e : Slot, (r.setSlot i { r.slot i with res := (r.slot i).res - 1 }).setSlot i e = { r with slots := r.slots.set i e } :=
    fun e => congrArg (fun l => ({ r with slots := l } : Ring)) (List.set_set _)
  unfold Ring.arrive
  dsimp only
  rw [hslot, hset, hset]
  by_cases h : full
  · refine (if_pos h).trans ?_
    rw [if_pos h, if_pos h]
    rfl
  · refine (if_neg h).trans ?_
    rw [if_neg h, if_neg h]

/-! ## COPY_PARK and COPY_RESUME (16 R352 to R354) -/

section
variable {s t : State} {c : Copy} {id : Nat}

theorem freePark_shared (h : Shared s t) (core : Nat) : t.freePark core = s.freePark core := by
  rw [h.1]
  rfl

theorem parkRecord_shared (h : Shared s t) (slot code cause va : Nat) :
    t.parkRecord c slot code cause va = s.parkRecord c slot code cause va := by
  rw [h.1]
  rfl

theorem freePark_free {core n : Nat} (h : s.freePark core = some n) :
    (∀ k ∈ s.copies, k.core = core → k.park ≠ some n) ∧ n < 16 := by
  unfold State.freePark at h
  have hfree := List.find?_some h
  have hmem := List.mem_of_find?_eq_some h
  refine ⟨fun k hk hcore hpark => ?_, ?_⟩
  · have hused : ((s.engineCopies core).any fun c => decide (c.park = some n)) = true :=
      List.any_eq_true.mpr ⟨k, List.mem_filter.mpr ⟨hk, decide_eq_true hcore⟩, decide_eq_true hpark⟩
    simp [hused] at hfree
  · obtain ⟨i, -, hi⟩ := List.mem_map.mp hmem
    omega

/-- The state in which a copy parks: a translation that failed has made its walk. -/
theorem parkCopy_walk (s : State) (c : Copy) (code cause va : Nat) :
    Shared s (if code = 14 then s.dropLeaf c.core c.ctx va cause else s) := by
  split
  · exact shared_dropLeaf _ _ _ _ _
  · exact .refl s

theorem parkCopy_parks {code cause va n : Nat} (hid : c.id = id) (hn : s.freePark c.core = some n) :
    ∃ u ctxs, Shared s u ∧ s.parkCopy c code cause va = { u with
        copies := s.copies.map fun k => if k.id = id then { c with park := some n, stalled := false } else k, ctxs := ctxs } ∧
      tget Ctx.zero ctxs c.ctx = { tget Ctx.zero s.ctxs c.ctx with
        records := (tget Ctx.zero s.ctxs c.ctx).records ++ [s.parkRecord c n code cause va] } ∧
      ∀ k, k ≠ c.ctx → tget Ctx.zero ctxs k = tget Ctx.zero s.ctxs k := by
  have hu := parkCopy_walk s c code cause va
  generalize hwalk : (if code = 14 then s.dropLeaf c.core c.ctx va cause else s) = u at hu
  have hkid : ({ c with park := some n, stalled := false } : Copy).id = id := hid
  have hctxs : u.ctxs = s.ctxs := by rw [hu.1]
  refine ⟨u, tput Ctx.zero s.ctxs c.ctx { tget Ctx.zero s.ctxs c.ctx with
      records := (tget Ctx.zero s.ctxs c.ctx).records ++ [s.parkRecord c n code cause va] }, hu, ?_, ?_, ?_⟩
  · unfold State.parkCopy
    dsimp only
    rw [hwalk, freePark_shared hu, hn]
    dsimp only
    rw [setCopy_eq hkid, parkRecord_shared hu, ← hctxs, show s.copies = u.copies by rw [hu.1]]
    rfl
  · rw [tget_tput, if_pos rfl]
  · exact fun k hk => by rw [tget_tput, if_neg hk]

theorem parkCopy_stalls {code cause va : Nat} (hid : c.id = id) (hn : s.freePark c.core = none) (hs : c.stalled = false) :
    ∃ u cores, Shared s u ∧ s.parkCopy c code cause va = { u with
        copies := s.copies.map fun k => if k.id = id then { c with stalled := true } else k, cores := cores } ∧
      tget CoreRegs.zero cores c.core = { tget CoreRegs.zero s.cores c.core with
        stallEvents := (tget CoreRegs.zero s.cores c.core).stallEvents + 1 } ∧
      ∀ k, k ≠ c.core → tget CoreRegs.zero cores k = tget CoreRegs.zero s.cores k := by
  have hu := parkCopy_walk s c code cause va
  generalize hwalk : (if code = 14 then s.dropLeaf c.core c.ctx va cause else s) = u at hu
  have hkid : ({ c with stalled := true } : Copy).id = id := hid
  refine ⟨u, tput CoreRegs.zero s.cores c.core { tget CoreRegs.zero s.cores c.core with
      stallEvents := (tget CoreRegs.zero s.cores c.core).stallEvents + 1 }, hu, ?_, ?_, ?_⟩
  · unfold State.parkCopy
    dsimp only
    rw [hwalk, freePark_shared hu, hn]
    dsimp only
    rw [hs, if_neg Bool.false_ne_true, setCopy_eq hkid, show s.copies = u.copies by rw [hu.1], show s.cores = u.cores by rw [hu.1]]
  · rw [tget_tput, if_pos rfl]
  · exact fun k hk => by rw [tget_tput, if_neg hk]

section
variable (hc : s.copies.find? (fun k => decide (k.id = id)) = some c) (hu : c.unit < c.units)
  (hgoes : s.moving c = true ∨ c.stalled = true ∧ ∀ k ∈ s.copies, k.core = c.core → k.id ≠ id → k.stalled = false)
include hc hu hgoes

theorem copyPark_goes (err : Bool) : exec (.copyPark id err) s = .next (match s.move c with
    | .fault code cause va => s.parkCopy c code cause va
    | .ok _ _ =>
      match c.readAddr with
      | some va => if err then s.parkCopy c 23 0 va else s
      | none => s
    | .wait => s) := by
  have hmay : (s.moving c || (c.stalled && !((s.engineCopies c.core).any fun k => k.stalled && decide (k.id ≠ id)))) = true := by
    rcases hgoes with hm | ⟨hst, hothers⟩
    · rw [hm, Bool.true_or]
    · have hnone : ((s.engineCopies c.core).any fun k => k.stalled && decide (k.id ≠ id)) = false := by
        rw [List.any_eq_false]
        intro k hk
        obtain ⟨hmem, hcore⟩ := List.mem_filter.mp hk
        by_cases hid : k.id = id
        · simp [hid]
        · simp [hothers k hmem (of_decide_eq_true hcore) hid]
      rw [hst, hnone, Bool.true_and, Bool.not_false, Bool.or_true]
  show execCopyPark id err s = _
  unfold execCopyPark
  rw [show s.copy? id = some c from hc]
  dsimp only
  rw [hmay, decide_eq_true hu]
  rfl

theorem copyPark_fault {code cause va : Nat} (hmove : s.move c = .fault code cause va) (err : Bool) :
    exec (.copyPark id err) s = .next (s.parkCopy c code cause va) := by
  rw [copyPark_goes hc hu hgoes, hmove]

theorem copyPark_error {va : Nat} {k : Copy} (hmove : s.move c = .ok t k) (hva : c.readAddr = some va) :
    exec (.copyPark id true) s = .next (s.parkCopy c 23 0 va) := by
  rw [copyPark_goes hc hu hgoes, hmove]
  dsimp only
  rw [hva]
  rfl

end

theorem copyResume_moves {slot : Nat} (hid : c.id = id)
    (hfound : (s.copies.filter fun k => decide (k.core = c.core)).find? (fun k => decide (k.park = some slot)) = some c) :
    exec (.copyResume c.core slot) s = .next { s with copies :=
      ((s.copies.filter fun (k : Copy) => decide (k.id ≠ id)) ++ [{ c with park := none }]).map fun (k : Copy) =>
        if k.core = c.core then { k with stalled := false } else k } := by
  subst hid
  show Host.Outcome.next (s.resumeCopy c.core slot) = _
  unfold State.resumeCopy State.engineCopies
  rw [hfound]

end

/-! ## Lists of pairs with distinct keys -/

theorem eraseDups_of_nodup {α : Type} [DecidableEq α] : ∀ {l : List α}, l.Nodup → l.eraseDups = l
  | [], _ => rfl
  | a :: l, h => by
    obtain ⟨hnot, hl⟩ := List.nodup_cons.mp h
    rw [List.eraseDups_cons, List.filter_eq_self.mpr fun b hb => ?_, eraseDups_of_nodup hl]
    have hne : b ≠ a := fun hba => hnot (hba ▸ hb)
    simpa using hne

section
variable {α β : Type} [DecidableEq α]

theorem filter_key {e : α × β} : ∀ {P : List (α × β)}, (P.map (·.1)).Nodup → e ∈ P →
    P.filter (fun b => decide (b.1 = e.1)) = [e]
  | b :: P, h, he => by
    obtain ⟨hnot, hP⟩ := List.nodup_cons.mp h
    have hne : ∀ a ∈ P, a.1 ≠ b.1 := fun a ha hab => hnot (List.mem_map.mpr ⟨a, ha, hab⟩)
    rcases List.mem_cons.mp he with rfl | he
    · rw [List.filter_cons, decide_eq_true rfl, if_pos rfl, List.filter_eq_nil_iff.mpr fun a ha => by simpa using hne a ha]
    · have hbe : b.1 ≠ e.1 := (hne e he).symm
      rw [List.filter_cons_of_neg (by simpa using hbe), filter_key hP he]

/-- What the keys find, one after another, are the values in their order. -/
theorem map_find_keys {P : List (α × β)} (h : (P.map (·.1)).Nodup) (d : β) :
    (P.map (·.1)).map (fun a => ((P.find? fun e => decide (e.1 = a)).map (·.2)).getD d) = P.map (·.2) := by
  rw [List.map_map]
  refine List.map_congr_left fun e he => ?_
  rw [Function.comp_apply, ← List.head?_filter, filter_key h he]
  rfl

end

/-! ## Numbers of whole bytes (00 R7) -/

theorem leBytes_leNat : ∀ bs : List Byte, leBytes bs.length (leNat bs) = bs
  | [] => rfl
  | b :: bs => by
    have hb := b.isLt
    have hdiv : (b.toNat + 256 * leNat bs) / 256 = leNat bs := by omega
    have hlow : BitVec.ofNat 8 (b.toNat + 256 * leNat bs) = b := BitVec.eq_of_toNat_eq (by rw [BitVec.toNat_ofNat]; omega)
    show BitVec.ofNat 8 (b.toNat + 256 * leNat bs) :: leBytes bs.length ((b.toNat + 256 * leNat bs) / 256) = _
    rw [hlow, hdiv, leBytes_leNat bs]

theorem leBytes_zero : ∀ n, leBytes n 0 = List.replicate n 0
  | 0 => rfl
  | n + 1 => congrArg (0 :: ·) (leBytes_zero n)

theorem leBytes_ones : ∀ n, leBytes n (256 ^ n - 1) = List.replicate n 0xFF
  | 0 => rfl
  | n + 1 => by
    have hpos : 0 < 256 ^ n := by positivity
    have hdiv : (256 ^ (n + 1) - 1) / 256 = 256 ^ n - 1 := by omega
    have hlow : BitVec.ofNat 8 (256 ^ (n + 1) - 1) = 0xFF := BitVec.eq_of_toNat_eq (by
      rw [BitVec.toNat_ofNat]
      show _ = 255
      omega)
    show BitVec.ofNat 8 (256 ^ (n + 1) - 1) :: leBytes n ((256 ^ (n + 1) - 1) / 256) = _
    rw [hlow, hdiv, leBytes_ones n]
    rfl

theorem pow_bits (n : Nat) : (2 : Nat) ^ (8 * n) = 256 ^ n := pow_mul 2 8 n

theorem eq_map_range {n : Nat} {bs : List Byte} (h : bs.length = n) : bs = (List.range n).map fun i => (bs[i]?).getD 0 :=
  List.ext_getElem (by simp [h]) fun i hi _ => by simp [hi]

/-- An element of whole bytes covers all bits of each of its bytes. -/
theorem elemPart_whole {bs : List Byte} {i : Nat} (hi : i < bs.length) :
    elemPart (8 * bs.length) 0 (leNat bs) i = (0xFF, bs[i]) := by
  have hones := leBytes_get bs.length (256 ^ bs.length - 1) i hi
  have hval := leBytes_get bs.length (leNat bs) i hi
  rw [leBytes_ones, List.getElem?_replicate, if_pos hi] at hones
  rw [leBytes_leNat, List.getElem?_eq_getElem hi] at hval
  unfold elemPart
  rw [pow_zero, Nat.mul_one, Nat.mul_one, pow_bits, Nat.mod_eq_of_lt (leNat_lt bs), ← Option.some.inj hones, ← Option.some.inj hval]

theorem parts_whole {bs : List Byte} {n : Nat} (h : bs.length = n) (a : Nat) :
    ((List.range' a n).zipIdx.map fun e => (e.1, elemPart (8 * n) 0 (leNat bs) e.2)) =
      (List.range n).map fun i => (a + i, (0xFF : Byte), (bs[i]?).getD 0) := by
  subst h
  refine List.ext_getElem (by simp) fun i hi _ => ?_
  have hlen : i < bs.length := by simpa using hi
  simp [elemPart_whole hlen, hlen]

/-- Where each byte has the bits of one element, it is written with that element's bits. -/
theorem puts_of_parts {P : List (Nat × Byte × Byte)} (h : (P.map (·.1)).Nodup) :
    ((P.map (·.1)).eraseDups.map fun va =>
      let mine := (P.filter fun e => e.1 = va).map (·.2)
      (⟨.global va, mine.foldl (fun m e => m ||| e.1) 0, mine.foldl (fun m e => m ||| e.2) 0⟩ : CopyPut)) =
      P.map fun e => ⟨.global e.1, e.2.1, e.2.2⟩ := by
  rw [eraseDups_of_nodup h, List.map_map]
  refine List.map_congr_left fun e he => ?_
  rw [Function.comp_apply, filter_key h he]
  simp

/-! ## Units of one element of whole bytes (16 R328, R329) -/

section
variable {e : Nat} (h4 : e ≠ 4) (h5 : e ≠ 5)
include h4 h5

theorem elemBits_whole : elemBits e = 8 * (elemBits e / 8) := by
  unfold elemBits
  split <;> trivial

theorem elemBits_pos : 0 < elemBits e / 8 := by
  unfold elemBits
  split <;> trivial

theorem elemPlace_whole (i0 : Nat) : elemPlace e i0 = (elemBits e / 8 * i0, 0) := by
  unfold elemPlace
  split <;> trivial

end

section
variable {c : Copy} (hopt : c.opt < 2) (h4 : recElem c.record ≠ 4) (h5 : recElem c.record ≠ 5)

section
include h4 h5

theorem elemAt_whole (co : List Int) : c.elemAt co = ((c.elemAt co).1, 0, elemBits (recElem c.record) / 8) := by
  have hbits := elemBits_whole h4 h5
  unfold Copy.elemAt elemSpan
  dsimp only
  rw [elemPlace_whole h4 h5]
  rw [show (0 + elemBits (recElem c.record) + 7) / 8 = elemBits (recElem c.record) / 8 by omega]

theorem elemBytes_whole (co : List Int) : c.elemBytes co = List.range' (c.elemAt co).1 (elemBits (recElem c.record) / 8) := by
  unfold Copy.elemBytes
  rw [elemAt_whole h4 h5]

end

include hopt

theorem steep_whole : c.steep = false := decide_eq_false (by omega)

theorem aligns_whole : c.aligns = false := by
  unfold Copy.aligns
  rw [decide_eq_false (by omega), decide_eq_false (by omega)]
  rfl

include h4 h5

theorem unitElems_whole : c.unitElems = 1 := by
  unfold Copy.unitElems
  rw [aligns_whole hopt, steep_whole hopt, if_neg (by decide)]
  split <;> trivial

omit h5 in
theorem denseBits_whole : c.denseBits = elemBits (recElem c.record) := by
  unfold Copy.denseBits
  rw [aligns_whole hopt, decide_eq_false h4, Bool.and_false, if_neg (by decide)]

theorem unitBytes_whole : c.unitBytes = elemBits (recElem c.record) / 8 := by
  unfold Copy.unitBytes
  rw [denseBits_whole hopt h4, unitElems_whole hopt h4 h5, Nat.mul_one]

theorem unitCoords_whole : c.unitCoords 0 = c.coords c.unit := by
  unfold Copy.unitCoords
  rw [unitElems_whole hopt h4 h5, Nat.mul_one, Nat.add_zero]

theorem reads_from_tensor (hdir : c.dir ≠ 1) : c.reads =
    if c.inBounds (c.coords c.unit) then
      (List.range' (c.elemAt (c.coords c.unit)).1 (elemBits (recElem c.record) / 8)).map CopySrc.global else [] := by
  unfold Copy.reads
  rw [if_neg hdir, unitElems_whole hopt h4 h5, if_neg (by omega), List.append_nil]
  simp only [List.range_one, List.flatMap_singleton, unitCoords_whole hopt h4 h5, elemBytes_whole h4 h5]
  split
  · rw [eraseDups_of_nodup List.nodup_range']
  · rfl

theorem reads_from_dense (hdir : c.dir = 1) : c.reads =
    (List.range' (c.dense + elemBits (recElem c.record) / 8 * c.unit) (elemBits (recElem c.record) / 8)).map CopySrc.scratch := by
  unfold Copy.reads
  rw [if_pos hdir, unitBytes_whole hopt h4 h5, Nat.mul_comm c.unit]

/-- The bytes of the element, as they were read; zeros where it is out of bounds. -/
theorem leBytes_elemIn (hdir : c.dir ≠ 1) (hgot : c.got.length = c.reads.length) :
    leBytes (elemBits (recElem c.record) / 8) (c.elemIn 0) =
      (List.range (elemBits (recElem c.record) / 8)).map fun i => if c.inBounds (c.coords c.unit) then (c.got[i]?).getD 0 else 0 := by
  have hreads := reads_from_tensor hopt h4 h5 hdir
  have hwhole := elemBits_whole h4 h5
  unfold Copy.elemIn
  dsimp only
  rw [unitCoords_whole hopt h4 h5]
  by_cases hin : c.inBounds (c.coords c.unit) = true
  · rw [if_pos hin] at hreads
    have hlen : c.got.length = elemBits (recElem c.record) / 8 := by rw [hgot, hreads, List.length_map, List.length_range']
    have hkeys : (c.reads.zip c.got).map (·.1) = c.reads := List.map_fst_zip hgot.ge
    have hnodup : ((c.reads.zip c.got).map (·.1)).Nodup := by
      rw [hkeys, hreads]
      exact List.Nodup.map (fun _ _ h => CopySrc.global.inj h) List.nodup_range'
    have hfound := map_find_keys hnodup 0
    rw [hkeys, List.map_snd_zip hgot.le] at hfound
    conv at hfound => lhs; arg 2; rw [hreads]
    rw [List.map_map] at hfound
    rw [elemBytes_whole h4 h5, elemAt_whole h4 h5]
    simp only [hin, Bool.not_true, Bool.false_eq_true, if_false, if_true]
    refine Eq.trans ?_ (eq_map_range hlen)
    refine (congrArg (fun bs => leBytes _ (leNat bs / 2 ^ 0 % _)) hfound).trans ?_
    rw [pow_zero, Nat.div_one, hwhole, pow_bits, ← hlen, Nat.mod_eq_of_lt (leNat_lt c.got),
      Nat.mul_div_cancel_left _ (by decide), leBytes_leNat]
  · simp only [hin, Bool.not_false, if_true, leBytes_zero]
    exact List.eq_replicate_iff.mpr ⟨by simp, by simp⟩ |>.symm

theorem densePuts_whole (hdir : c.dir ≠ 1) (hgot : c.got.length = c.reads.length) :
    let n := elemBits (recElem c.record) / 8
    c.densePuts = (List.range n).map fun i =>
      ⟨if c.dir = 0 then .scratch (c.dense + n * c.unit + i) else .global (c.dense + n * c.unit + i), 0xFF,
        if c.inBounds (c.coords c.unit) then (c.got[i]?).getD 0 else 0⟩ := by
  intro n
  have hvals : c.unitVals.1 = [c.elemIn 0] := by
    unfold Copy.unitVals
    rw [aligns_whole hopt, unitElems_whole hopt h4 h5]
    rfl
  unfold Copy.densePuts
  dsimp only
  rw [hvals, if_neg (by omega), List.append_nil, unitBytes_whole hopt h4 h5, Nat.mul_comm c.unit]
  simp only [List.zipIdx_singleton, List.foldl_cons, List.foldl_nil, Nat.mul_zero, pow_zero, Nat.mul_one, Nat.zero_add]
  rw [leBytes_elemIn hopt h4 h5 hdir hgot, zipIdx_map_range]

theorem tensorPuts_whole (hgot : c.got.length = elemBits (recElem c.record) / 8) :
    c.tensorPuts = if c.inBounds (c.coords c.unit) then (List.range (elemBits (recElem c.record) / 8)).map fun i =>
      ⟨.global ((c.elemAt (c.coords c.unit)).1 + i), 0xFF, (c.got[i]?).getD 0⟩ else [] := by
  unfold Copy.tensorPuts
  dsimp only
  rw [unitElems_whole hopt h4 h5]
  simp only [List.range_one, List.flatMap_singleton, unitCoords_whole hopt h4 h5, elemBytes_whole h4 h5]
  by_cases hin : c.inBounds (c.coords c.unit) = true
  · have hparts := parts_whole hgot (c.elemAt (c.coords c.unit)).1
    rw [← elemBits_whole h4 h5] at hparts
    have hnodup : (((List.range (elemBits (recElem c.record) / 8)).map fun i =>
        ((c.elemAt (c.coords c.unit)).1 + i, (0xFF : Byte), (c.got[i]?).getD 0)).map (·.1)).Nodup := by
      rw [List.map_map]
      exact List.Nodup.map (fun i j h => Nat.add_left_cancel h) List.nodup_range
    rw [if_pos hin, if_pos hin, elemAt_whole h4 h5]
    dsimp only
    rw [Nat.mul_zero, pow_zero, Nat.div_one, hparts]
    exact (puts_of_parts hnodup).trans (List.map_map)
  · rw [if_neg hin, if_neg hin]
    rfl

end

theorem map_range_ne_nil {α : Type} {n : Nat} (h : 0 < n) (f : Nat → α) : (List.range n).map f ≠ [] := by
  simpa using h.ne'

/-! ## What stops a copy (16 R352) -/

/-- The next byte of a copy meets a fault, or an uncorrectable error in the data it reads. -/
def State.CopyStops (s : State) (c : Copy) (T : Team) (err : Bool) (code cause va : Nat) : Prop :=
  c.put = [] ∧ c.nextRead = some (.global va) ∧ s.engXlat c.core c.ctx va .load = .error (code, cause) ∨
  (∃ p ps, c.put = p :: ps ∧ p.place = .global va ∧ (s.engXlat c.core c.ctx va .store = .error (code, cause) ∨
    code = 16 ∧ cause = 4 ∧ ∃ m, s.engXlat c.core c.ctx va .store = .ok m ∧ s.hitsHung m.pa 1 = true)) ∨
  (∃ m, code = 23 ∧ cause = 0 ∧ c.put = [] ∧ c.nextRead = some (.global va) ∧
    s.engXlat c.core c.ctx va .load = .ok m ∧ s.deadRead m.pa = true) ∨
  err = true ∧ code = 23 ∧ cause = 0 ∧ c.put = [] ∧
    ((∃ m, c.nextRead = some (.global va) ∧ s.engXlat c.core c.ctx va .load = .ok m ∧ s.deadRead m.pa = false) ∨
     ∃ a, c.nextRead = some (.scratch va) ∧ T.scratchAt va 1 = some a ∧ s.isEmpty a = false)

section
variable {s : State} {c : Copy} {T : Team} {code cause va : Nat}

theorem copyRead_untranslated (hx : s.engXlat c.core c.ctx va .load = .error (code, cause)) :
    s.copyRead T c (.global va) = .fault code cause va := by
  unfold State.copyRead
  dsimp only
  rw [hx]

theorem copyRead_dead {m : Xlat} (hx : s.engXlat c.core c.ctx va .load = .ok m) (hd : s.deadRead m.pa = true) :
    s.copyRead T c (.global va) = .fault 23 0 va := by
  unfold State.copyRead
  dsimp only
  rw [hx]
  dsimp only
  rw [hd, if_pos rfl]

theorem copyRead_scratch {o : Nat} {a : Nat × Nat × Nat} (ha : T.scratchAt o 1 = some a) : s.copyRead T c (.scratch o) =
    if s.isEmpty a then .wait else .ok s ({ c with got := c.got ++ [tget 0 s.scratch (scratchKey a)] } : Copy).loaded := by
  unfold State.copyRead
  dsimp only
  rw [ha]

theorem copyPut_scratch {p : CopyPut} {o : Nat} {a : Nat × Nat × Nat} (hp : p.place = .scratch o) (ha : T.scratchAt o 1 = some a) :
    s.copyPut T c p = .ok ((s.keyPut (scratchKey a) p.mask p.val).fillDone a c.written o) c.written := by
  unfold State.copyPut
  dsimp only
  rw [hp]
  dsimp only
  rw [ha]

theorem copyPut_untranslated {p : CopyPut} (hp : p.place = .global va) (hx : s.engXlat c.core c.ctx va .store = .error (code, cause)) :
    s.copyPut T c p = .fault code cause va := by
  unfold State.copyPut
  dsimp only
  rw [hp]
  dsimp only
  rw [hx]

theorem copyPut_hung {p : CopyPut} {m : Xlat} (hp : p.place = .global va) (hx : s.engXlat c.core c.ctx va .store = .ok m)
    (hh : s.hitsHung m.pa 1 = true) : s.copyPut T c p = .fault 16 4 va := by
  unfold State.copyPut
  dsimp only
  rw [hp]
  dsimp only
  rw [hx]
  dsimp only
  rw [hh, if_pos rfl]

theorem readAddr_global (h : c.nextRead = some (.global va)) : c.readAddr = some va := by
  unfold Copy.readAddr
  rw [h]
  rfl

theorem readAddr_scratch (h : c.nextRead = some (.scratch va)) : c.readAddr = some va := by
  unfold Copy.readAddr
  rw [h]
  rfl

theorem atHead_of_bank (hbank : ∀ b, c.bank = some b → ∃ o rest, (s.bank c.core b).ops = o :: rest ∧ o.kind = .steep c.id) :
    s.atHead c = true := by
  cases hb : c.bank with
  | none => exact atHead_free hb
  | some b =>
    obtain ⟨o, rest, hops, ho⟩ := hbank b hb
    exact atHead_steep hb hops ho

theorem copyPark_parks {id : Nat} {err : Bool} (hc : s.copies.find? (fun k => decide (k.id = id)) = some c) (hu : c.unit < c.units)
    (hT : s.team c.team = some T) (hh : s.atHead c = true)
    (hgoes : s.moving c = true ∨ c.stalled = true ∧ ∀ k ∈ s.copies, k.core = c.core → k.id ≠ id → k.stalled = false)
    (hstop : s.CopyStops c T err code cause va) : exec (.copyPark id err) s = .next (s.parkCopy c code cause va) := by
  rcases hstop with ⟨hp, hr, hx⟩ | ⟨p, ps, hp, hplace, hstop⟩ | ⟨m, rfl, rfl, hp, hr, hx, hd⟩ | ⟨rfl, rfl, rfl, hp, hstop⟩
  · exact copyPark_fault hc hu hgoes ((move_read hT hu hh hp hr).trans (copyRead_untranslated hx)) err
  · have hmove := move_put hT hu hh hp
    rcases hstop with hx | ⟨rfl, rfl, m, hx, hhung⟩
    · exact copyPark_fault hc hu hgoes (hmove.trans (copyPut_untranslated hplace hx)) err
    · exact copyPark_fault hc hu hgoes (hmove.trans (copyPut_hung hplace hx hhung)) err
  · exact copyPark_fault hc hu hgoes ((move_read hT hu hh hp hr).trans (copyRead_dead hx hd)) err
  · rcases hstop with ⟨m, hr, hx, hd⟩ | ⟨a, hr, ha, hfull⟩
    · obtain ⟨u, -, hread⟩ := copyRead_global (T := T) hx hd
      exact copyPark_error hc hu hgoes ((move_read hT hu hh hp hr).trans hread) (readAddr_global hr)
    · have hread := copyRead_scratch (s := s) (c := c) ha
      rw [hfull, if_neg Bool.false_ne_true] at hread
      exact copyPark_error hc hu hgoes ((move_read hT hu hh hp hr).trans hread) (readAddr_scratch hr)

end

/-! ## The obligation -/

/-- Settles O35, each clause by the rule of its instruction: `copyWrite_ok` for the byte that moves, `densePuts_whole` and
`tensorPuts_whole` for a unit, `copyComplete_arrives`, `copyPark_goes` and `copyResume_moves`. -/
theorem copyData : Obligations.CopyData := by
  unfold Obligations.CopyData
  intro s id c hc now read mix request
  have hid := id_of_find hc
  refine ⟨fun T hm hb hu hT => ⟨fun va m hp hr hx hd => ?_, fun o a hp hr ha => ?_, fun p ps o a hp hplace ha => ?_,
    fun p ps va m hp hplace hx hh => ?_⟩, ?_, fun hs hu => ⟨copyComplete_plain hc hs hu, ?_⟩,
    fun T err code cause va hu hT hbank hgoes hstop => ?_, fun slot => copyResume_moves hid⟩
  · obtain ⟨u, hshared, hread⟩ := copyRead_global (T := T) hx hd
    refine ⟨u, hshared, ?_⟩
    exact copyWrite_ok hc hm hb ((move_read hT hu (atHead_free hb) hp hr).trans hread) ((loaded_id _).trans hid) (by rw [hshared.1])
  · have hmove := (move_read hT hu (atHead_free hb) hp hr).trans (copyRead_scratch ha)
    by_cases he : s.isEmpty a = true
    · rw [if_pos he] at hmove ⊢
      rw [copyWrite_advances hc hm hb, advance_wait hmove]
    · rw [if_neg he] at hmove ⊢
      exact copyWrite_ok hc hm hb hmove ((loaded_id _).trans hid) rfl
  · intro k stays
    have hmove := (move_put hT hu (atHead_free hb) hp).trans (copyPut_scratch hplace ha)
    refine (copyWrite_ok hc hm hb hmove ((written_id c).trans hid) ?_).trans ?_
    · unfold State.fillDone
      split <;> rfl
    · unfold State.fillDone
      by_cases h : stays = true
      · rw [if_pos h, if_pos h]
        rfl
      · rw [if_neg h, if_neg h]
        rfl
  · obtain ⟨u, hwritten, hput, hbytes⟩ := copyPut_global (T := T) hplace hx hh
    refine ⟨u, hwritten, ?_, hbytes⟩
    exact copyWrite_ok hc hm hb ((move_put hT hu (atHead_free hb) hp).trans hput) ((written_id c).trans hid) (by rw [hwritten.1])
  · intro n co got hopt h4 h5
    refine ⟨fun hdir => ⟨reads_from_tensor hopt h4 h5 hdir, fun hgot => ?_⟩,
      fun hdir => ⟨reads_from_dense hopt h4 h5 hdir, fun hgot => ?_⟩⟩
    · rw [loaded_whole hgot.ge (by rw [steep_whole hopt, if_neg Bool.false_ne_true, if_neg hdir]), densePuts_whole hopt h4 h5 hdir hgot]
      exact if_neg (map_range_ne_nil (elemBits_pos h4 h5) _)
    · have hreads : c.reads.length ≤ c.got.length := by
        rw [reads_from_dense hopt h4 h5 hdir, List.length_map, List.length_range', hgot]
      rw [loaded_whole hreads (by rw [steep_whole hopt, if_neg Bool.false_ne_true, if_pos hdir]), tensorPuts_whole hopt h4 h5 hgot]
      by_cases hin : c.inBounds (c.coords c.unit) = true
      · rw [if_pos hin, if_pos hin, if_neg (map_range_ne_nil (elemBits_pos h4 h5) _)]
        rw [show got = fun i => (c.got[i]?).getD 0 from funext fun i => if_pos hin]
      · rw [if_neg hin, if_neg hin]
        rfl
  · intro q i T r hr hT hring full ring hi
    refine (copyComplete_arrives hc hs hu hr hT hring).trans ?_
    rw [arrive_reserved hi]
  · have hparks := copyPark_parks hc hu hT (atHead_of_bank hbank) hgoes hstop
    refine ⟨fun n hn => ?_, fun hn hst => ?_⟩
    · obtain ⟨hfree, hlt⟩ := freePark_free hn
      refine ⟨hfree, hlt, ?_⟩
      rw [hparks]
      obtain ⟨u, ctxs, hshared, heq, hctx⟩ := parkCopy_parks (code := code) (cause := cause) (va := va) hid hn
      exact ⟨u, ctxs, hshared, congrArg _ heq, hctx⟩
    · rw [hparks]
      obtain ⟨u, cores, hshared, heq, hcores⟩ := parkCopy_stalls (code := code) (cause := cause) (va := va) hid hn hst
      exact ⟨u, cores, hshared, congrArg _ heq, hcores⟩

end Sys2Proof.Machine
end

section
/-! COPY (O34): the empty lines of a state are a table, of which `CopyEnters` fixes what it holds but not how it is written down. -/

namespace Sys2Proof.Machine

theorem shared_engWalks (s : State) (core ctx : Nat) (vas : List Nat) : Shared s (s.engWalks core ctx vas) := by
  refine shared_foldl (fun s va => ?_) vas s
  split
  · exact shared_walkFor s core ctx va
  · exact .refl s

/-- An entry of the default value at the end of a table changes nothing of what it holds. -/
theorem tget_append_default {α : Type} (d : α) (k i : Nat) : ∀ t : Table α, tget d (t ++ [(k, d)]) i = tget d t i
  | [] => ite_self d
  | e :: t => by
    show (if e.1 = i then e.2 else tget d (t ++ [(k, d)]) i) = if e.1 = i then e.2 else tget d t i
    rw [tget_append_default d k i t]

/-- The state that a copy's entry makes is not the only one of which `CopyEnters` holds: a full line may be written down as full. -/
theorem copyEnters_padded {s u : State} {x : Ix} {c : Copy} (h : CopyEnters s u x c) :
    CopyEnters s { u with empty := u.empty ++ [(0, false)] } x c := by
  obtain ⟨hroom, hbank, hout, hu, hloads, hempty, hteams, hbanks⟩ := h
  refine ⟨hroom, hbank, hout, ?_, hloads, fun j => ?_, hteams, hbanks⟩
  · rw [hu]
  · rw [← hempty j]
    exact tget_append_default false 0 j u.empty

theorem Cached.use_busy {s t : State} (h : Cached s t) (u : Use) (x : Ix) (ls : List Nat) : u.busy x t ls = u.busy x s ls := by
  rw [h.1]
  rfl

theorem Cached.hungRanges {s t : State} (h : Cached s t) : t.hungRanges = s.hungRanges := by
  rw [h.1]
  rfl

/-! ## A COPY that finds a place -/

/-- A warp of the copy role whose lanes hold 0x20100 in v0:v1, the address of a record, and 0 in v4:v5, the address they copy to. -/
def copyWarp : Warp := { placedWarp with role := .copy, v := (List.range 32).map fun l => (128 * l, 0x20100) }

/-- The state in which it issues: the record describes one byte at address 0, of a tensor of one dimension (16 R328). -/
def copyReady : State := (State.reset.install.place 0x20107 2 0x0101).setWarp 0 copyWarp

/-- Its one path, which issues. -/
def copyIx : Ix := ⟨0, copyWarp, { Path.fresh (lanesBelow 32) 0x20000 with scene := some ⟨0, []⟩ }, placedTeam⟩

/-- A COPY out of the tensor whose record v0:v1 address, to the memory that v4:v5 address. -/
abbrev copyOut : Instr := .copy false 4 0 12 0 2 false 0 0 0 0

/-- The record, of which no other bits than those of RANK and EXT0 are set. -/
def outRecord : Nat := 2 ^ 56 + 2 ^ 64

/-- The copy that it issues. -/
def outCopy : Copy :=
  { id := copyReady.nextId, core := 0, team := 0, ctx := 0, w := 0, lane := 0, pc := 0x20000, words := 0, opt := 0, dir := 2,
    record := BitVec.ofNat 512 outRecord, raddr := 0x20100, org := [0], dense := 0, sdense := 0, ring := none, bank := none,
    started := false, unit := 0, park := none, stalled := false, got := [], put := [] }

theorem copyOut_starts : Starts copyReady copyIx copyOut := by
  refine ⟨?_, ?_, ?_, fun r hr => ?_⟩
  · decide +kernel
  · decide +kernel
  · decide +kernel
  · exact Option.some.inj hr

theorem copyIx_reads_record : ∃ s0, copyIx.readRecord copyReady 0 0x20100 64 = .ok (s0, outRecord) := by
  have hreads : (match copyIx.readRecord copyReady 0 0x20100 64 with | .ok (_, n) => some n | .error _ => none) = some outRecord := by
    decide +kernel
  cases hr : copyIx.readRecord copyReady 0 0x20100 64 with
  | error e =>
    rw [hr] at hreads
    cases hreads
  | ok v =>
    rw [hr] at hreads
    exact ⟨v.1, congrArg (fun n => Except.ok (v.1, n)) (Option.some.inj hreads)⟩

/-- Where no table hangs no page that a copy writes is denied. -/
theorem hungPage_none {s : State} {c : Copy} (h : s.hungRanges = []) : s.hungPage c = none := by
  have hmiss : ∀ pa n, s.hitsHung pa n = false := fun pa n => by
    unfold State.hitsHung
    rw [h]
    rfl
  unfold State.hungPage
  refine List.findSome?_eq_none_iff.mpr fun e _ => ?_
  split
  · rw [hmiss, if_neg Bool.false_ne_true]
  · rfl

theorem copyOut_passes : ∃ s1, Cached copyReady s1 ∧ CopyPasses copyReady copyIx 4 0 12 0 2 false 0 0 0 0 s1 outCopy := by
  obtain ⟨s0, hread⟩ := copyIx_reads_record
  have hcached := (cached_readRecord hread).trans (shared_engWalks s0 0 0 (pageStarts outCopy.writtenRows)).cached
  generalize hs1 : s0.engWalks 0 0 (pageStarts outCopy.writtenRows) = s1 at hcached
  have hid : copyReady.nextId = s1.nextId := by rw [hcached.1]
  refine ⟨s1, hcached, ?_, ?_, ⟨s0, outRecord, hread, by rw [outCopy], hs1.symm⟩, ?_, ?_, ?_, (hcached.use_busy _ _ _).trans ?_,
    ?_, ?_, ?_, nofun, ?_, nofun, nofun, fun _ => ?_, hungPage_none (hcached.hungRanges.trans ?_)⟩
  case refine_7 =>
    show CopyOf s1 copyIx 0 4 0 12 0 2 false 0 0 0 outCopy.record outCopy
    unfold CopyOf
    rw [← hid]
    decide +kernel
  case refine_11 =>
    rw [show outCopy.scratchDests = [] from rfl]
    nofun
  all_goals decide +kernel

theorem copyOut_enters {s1 : State} (h : Cached copyReady s1) : CopyEnters s1
    { s1 with copies := s1.copies ++ [outCopy], nextId := s1.nextId + 1 } copyIx outCopy := by
  have hcopies : s1.copies = [] := by rw [h.1]; rfl
  have hstores : s1.stores = [] := by rw [h.1]; rfl
  have hdests : outCopy.scratchDests = [] := rfl
  refine ⟨?_, nofun, ?_, rfl, ?_, fun j => ?_, rfl, rfl⟩
  · rw [hcopies]
    decide
  · unfold Ix.scratchOut
    rw [hstores]
    rfl
  · rw [hdests]
    rfl
  · rw [hdests]
    simp

/-- Refutes O34: `copyOut` in `copyReady` passes its checks and enters, and has one outcome; but `CopyEnters` holds of more than
one state, those whose empty lines read the same (`copyEnters_padded`), and the outcome would have to agree with each of them. -/
theorem not_tileCopies : ¬ Obligations.TileCopies := by
  unfold Obligations.TileCopies
  intro h
  obtain ⟨s1, hcached, hpasses⟩ := copyOut_passes
  have henters := copyOut_enters hcached
  obtain ⟨-, hissues, -⟩ := h copyReady copyIx false 4 0 12 0 2 false 0 0 0 0
  obtain ⟨-, hissued, -⟩ := hissues _ _ _ hpasses henters
  obtain ⟨-, hpadded, -⟩ := hissues _ _ _ hpasses (copyEnters_padded henters)
  obtain ⟨t, hexec, ⟨ht, -⟩, -⟩ := hissued copyOut_starts
  obtain ⟨t', hexec', ⟨ht', -⟩, -⟩ := hpadded copyOut_starts
  obtain rfl : t = t' := Host.Outcome.next.inj (hexec.symm.trans hexec')
  have hempty : t.empty = s1.empty := by rw [ht]
  have hempty' : t.empty = s1.empty ++ [(0, false)] := by rw [ht']
  rw [hempty] at hempty'
  simp at hempty'

end Sys2Proof.Machine
end

section
/-! Semaphores (O60): what a read and a write of the register of a semaphore do. -/

namespace Sys2Proof.Machine

section
variable {s : State} {agent : BitVec 2} {n : Nat}

/-- A read of the register of a semaphore, or of the half that holds its fields, reads the semaphore (21 R418). -/
theorem regRead_sem (hn : n < 32) (wide : Bool) : s.regRead agent (0x4000 + 8 * n) wide = s.semRead agent n := by
  have haligned : (0x4000 + 8 * n) % 8 = 0 := by omega
  have hbase : (0x4000 + 8 * n) / 8 * 8 = 0x4000 + 8 * n := by omega
  have hkey : (0x4000 + 8 * n - 0x4000) / 8 = n := by omega
  unfold State.regRead
  dsimp only
  rw [hbase, if_pos (by omega), if_pos haligned, hkey]

theorem regWrite64_sem (hn : n < 32) (v : Nat) (hi : Bool) :
    s.regWrite64 agent (0x4000 + 8 * n) v true hi = s.semWrite agent n (v.testBit 4) := by
  have hkey : (0x4000 + 8 * n - 0x4000) / 8 = n := by omega
  unfold State.regWrite64
  rw [if_neg (by omega), if_pos (by omega), if_pos rfl, hkey]

/-- A write of it is a write of the semaphore, with BREAK where bit 4 is 1 (21 R418). -/
theorem regWrite_sem (hn : n < 32) (v : Nat) (wide : Bool) :
    s.regWrite agent (0x4000 + 8 * n) wide v = s.semWrite agent n (v.testBit 4) := by
  have haligned : (0x4000 + 8 * n) % 8 = 0 := by omega
  unfold State.regWrite
  rw [if_pos haligned, regWrite64_sem hn, regWrite64_sem hn, ite_self]

/-- What a read leaves and returns: the owner after it, who is the reader where the semaphore was free. -/
theorem semRead_eq (s : State) (agent : BitVec 2) (n : Nat) : let now := if tget 0 s.sems n = 0 then agent else tget 0 s.sems n
    s.semRead agent n = ({ s with sems := tput 0 s.sems n now }, (if now = agent then 1 else 0) + 2 * now.toNat) := by
  intro now
  unfold State.semRead bitN
  simp only [Nat.pow_zero, decide_eq_true_eq, Nat.mul_comm]
  rfl

theorem semWrite_frees (brk : Bool) (h : tget 0 s.sems n = agent ∨ brk = true) :
    s.semWrite agent n brk = { s with sems := tput 0 s.sems n 0 } :=
  if_pos (by rwa [Bool.or_eq_true, decide_eq_true_eq])

theorem semWrite_ignored (h : tget 0 s.sems n ≠ agent) : s.semWrite agent n false = s := 
  if_neg (by rwa [Bool.or_false, decide_eq_true_eq])

/-- A semaphore with a new owner. -/
theorem sems_tput (s : State) (n : Nat) (o : BitVec 2) (t : State) (ht : t = { s with sems := tput 0 s.sems n o }) :
    t = { s with sems := t.sems } ∧ ∀ m, tget 0 t.sems m = if m = n then o else tget 0 s.sems m := by
  subst ht
  exact ⟨rfl, fun m => tget_tput 0 s.sems n m o⟩

end

/-- Settles O60: accesses to the register of a semaphore are those of `semRead_eq`, `semWrite_frees` and `semWrite_ignored`. -/
theorem semaphores : Obligations.Semaphores := by
  unfold Obligations.Semaphores
  intro s agent n v pa wide hn hagent o off r u now
  have hr : r = s.semRead agent n := regRead_sem hn wide
  have hu : u = s.semWrite agent n (v.testBit 4) := regWrite_sem hn v wide
  rw [hr, hu, semRead_eq]
  refine ⟨fun hfree => ?_, fun hown => ?_, fun hheld hother => ?_, fun hfrees => ?_, fun hother hbrk => ?_, rfl, fun hreg hoff out => ?_⟩
  · rw [if_pos hfree, if_pos rfl]
    exact ⟨sems_tput s n agent _ rfl, rfl⟩
  · have hheld : o ≠ 0 := hown ▸ hagent
    rw [if_neg hheld, if_pos hown]
    exact ⟨sems_tput s n o _ rfl, rfl⟩
  · rw [if_neg hheld, if_neg hother, Nat.zero_add]
    exact ⟨sems_tput s n o _ rfl, rfl⟩
  · exact sems_tput s n 0 _ (semWrite_frees _ hfrees)
  · rw [hbrk]
    exact semWrite_ignored hother
  · unfold State.devRead State.devWrite
    rw [if_pos hreg, if_pos hreg, hoff]
    exact ⟨rfl, rfl⟩

end Sys2Proof.Machine
end

section
/-! Registers of the platform (O47): semaphores, peer windows, policies, attestation and writes of the register map. -/

namespace Sys2Proof.Machine

/-! ## Bits of wide registers -/

theorem testBit_mod_add (a b k i : Nat) : (a % 2 ^ k + b * 2 ^ k).testBit i = if i < k then a.testBit i else b.testBit (i - k) := by
  rw [Nat.add_comm, Nat.mul_comm, Nat.testBit_two_pow_mul_add _ (Nat.mod_lt _ (Nat.two_pow_pos k))]
  refine ite_congr rfl (fun h => ?_) fun _ => rfl
  rw [Nat.testBit_mod_two_pow, decide_eq_true h, Bool.true_and]

theorem testBit_mergeHalves (old v : Nat) (lo hi : Bool) (i : Nat) : (mergeHalves old v lo hi).testBit i =
    (decide (i < 64) && if (if i < 32 then lo else hi) then v.testBit i else old.testBit i) := by
  have hlo : (if lo then v % 2 ^ 32 else old % 2 ^ 32) = (if lo then v else old) % 2 ^ 32 := (apply_ite (· % 2 ^ 32) (lo = true) v old).symm
  have hhi : (if hi then v / 2 ^ 32 % 2 ^ 32 else old / 2 ^ 32 % 2 ^ 32) = (if hi then v else old) / 2 ^ 32 % 2 ^ 32 :=
    (apply_ite (· / 2 ^ 32 % 2 ^ 32) (hi = true) v old).symm
  unfold mergeHalves
  rw [hlo, hhi, testBit_mod_add]
  by_cases h : i < 32
  · rw [if_pos h, if_pos h, decide_eq_true (by omega), Bool.true_and]
    cases lo <;> rfl
  · rw [if_neg h, if_neg h, Nat.testBit_mod_two_pow, Nat.testBit_div_two_pow, Nat.sub_add_cancel (by omega)]
    rw [show decide (i - 32 < 32) = decide (i < 64) from decide_eq_decide.mpr (by omega)]
    cases hi <;> rfl

theorem testBit_wideWord {w : Nat} (r : BitVec w) (o i : Nat) :
    (wideWord r o).testBit i = (decide (i < 64) && r.getLsbD (8 * o + i)) := by
  unfold wideWord
  rw [Nat.testBit_mod_two_pow, Nat.testBit_div_two_pow, BitVec.testBit_toNat, Nat.add_comm]

theorem getLsbD_putWord {w : Nat} (r : BitVec w) (o v i : Nat) (hi : i < w) : (putWord r o v).getLsbD i =
    if 8 * o ≤ i ∧ i < 8 * o + 64 then v.testBit (i - 8 * o) else r.getLsbD i := by
  unfold putWord
  rw [BitVec.getLsbD_or, BitVec.getLsbD_and, BitVec.getLsbD_not, BitVec.getLsbD_ofNat, BitVec.getLsbD_ofNat, Nat.testBit_mul_two_pow,
    Nat.testBit_mul_two_pow, Nat.testBit_two_pow_sub_one, Nat.testBit_mod_two_pow, decide_eq_true hi]
  by_cases h : 8 * o ≤ i
  · by_cases h2 : i < 8 * o + 64
    · rw [if_pos ⟨h, h2⟩]
      simp [h, show i - 8 * o < 64 by omega]
    · rw [if_neg fun hc => h2 hc.2]
      simp [show ¬ i - 8 * o < 64 by omega]
  · rw [if_neg fun hc => h hc.1]
    simp [h]

/-- A write of one 32-bit word of a wide register: the other words keep their bits (21 R415). -/
theorem extract_putHalf {w : Nat} (r : BitVec w) {k : Nat} (hk : 32 * k + 32 ≤ w) {v : Nat} {c : Word}
    (hc : c = BitVec.ofNat 32 (v / 2 ^ (32 * (k % 2)))) (j : Nat) :
    (putWord r (8 * (k / 2)) (mergeHalves (wideWord r (8 * (k / 2))) v (decide (k % 2 = 0)) (decide (k % 2 ≠ 0)))).extractLsb' (32 * j) 32 =
      if j = k then c else r.extractLsb' (32 * j) 32 := by
  refine BitVec.eq_of_getLsbD_eq fun i hi => ?_
  rw [apply_ite (BitVec.getLsbD · i), BitVec.getLsbD_extractLsb', BitVec.getLsbD_extractLsb', decide_eq_true hi, Bool.true_and, Bool.true_and]
  by_cases hw : 32 * j + i < w
  · rw [getLsbD_putWord _ _ _ _ hw]
    by_cases hpair : j / 2 = k / 2
    · have hsel : (if 32 * j + i - 8 * (8 * (k / 2)) < 32 then decide (k % 2 = 0) else decide (k % 2 ≠ 0)) = decide (j = k) := by
        split <;> exact decide_eq_decide.mpr (by omega)
      have hin : 32 * j + i - 8 * (8 * (k / 2)) < 64 := by omega
      rw [if_pos (by omega), testBit_mergeHalves, testBit_wideWord, hsel, decide_eq_true hin, Bool.true_and, Bool.true_and]
      by_cases hjk : j = k
      · rw [if_pos hjk, if_pos (decide_eq_true hjk), hc, BitVec.getLsbD_ofNat, Nat.testBit_div_two_pow, decide_eq_true hi, Bool.true_and]
        congr 1
        omega
      · rw [if_neg hjk, if_neg (by rwa [decide_eq_true_eq])]
        congr 1
        omega
    · rw [if_neg (by omega), if_neg fun h => hpair (congrArg (· / 2) h)]
  · rw [if_neg (by omega), BitVec.getLsbD_of_ge _ _ (by omega), BitVec.getLsbD_of_ge _ _ (by omega)]

/-! ## Fields of a number (22 R428) -/

theorem lt_add_field {a f lo len hi : Nat} (hhi : lo + len = hi) (ha : a < 2 ^ lo) (hf : f < 2 ^ len) : a + f * 2 ^ lo < 2 ^ hi := by
  rw [← hhi, Nat.pow_add]
  calc a + f * 2 ^ lo < 2 ^ lo + f * 2 ^ lo := Nat.add_lt_add_right ha _
    _ = (f + 1) * 2 ^ lo := by ring
    _ ≤ 2 ^ len * 2 ^ lo := Nat.mul_le_mul_right _ hf
    _ = 2 ^ lo * 2 ^ len := Nat.mul_comm _ _

theorem extract_ofNat {w lo len : Nat} (h : lo + len ≤ w) (n : Nat) :
    (BitVec.ofNat w n).extractLsb' lo len = BitVec.ofNat len (n / 2 ^ lo) := by
  refine BitVec.eq_of_getLsbD_eq fun i hi => ?_
  rw [BitVec.getLsbD_extractLsb', BitVec.getLsbD_ofNat, BitVec.getLsbD_ofNat, Nat.testBit_div_two_pow, decide_eq_true hi,
    decide_eq_true (by omega : lo + i < w), Bool.true_and, Bool.true_and, Bool.true_and, Nat.add_comm]

theorem extract_ofNat_low {w len : Nat} (h : len ≤ w) (n : Nat) : (BitVec.ofNat w n).extractLsb' 0 len = BitVec.ofNat len n := by
  rw [extract_ofNat ((Nat.zero_add len).trans_le h), Nat.pow_zero, Nat.div_one]

/-- The highest field of a number. -/
theorem extract_high {w lo len a : Nat} (h : lo + len ≤ w) (ha : a < 2 ^ lo) (f : Nat) :
    (BitVec.ofNat w (a + f * 2 ^ lo)).extractLsb' lo len = BitVec.ofNat len f := by
  rw [extract_ofNat h, Nat.add_mul_div_right _ _ (Nat.two_pow_pos lo), Nat.div_eq_of_lt ha, Nat.zero_add]

/-- A field below another does not depend on it. -/
theorem extract_below {w lo len hi : Nat} (h : lo + len ≤ hi) (n b : Nat) :
    (BitVec.ofNat w (n + b * 2 ^ hi)).extractLsb' lo len = (BitVec.ofNat w n).extractLsb' lo len := by
  have hbit : ∀ m i, i < hi → m.testBit i = (m % 2 ^ hi).testBit i := fun m i hi' => by
    rw [Nat.testBit_mod_two_pow, decide_eq_true hi', Bool.true_and]
  refine BitVec.eq_of_getLsbD_eq fun i hi' => ?_
  rw [BitVec.getLsbD_extractLsb', BitVec.getLsbD_extractLsb', BitVec.getLsbD_ofNat, BitVec.getLsbD_ofNat, hbit _ _ (by omega),
    Nat.add_mul_mod_self_right, ← hbit _ _ (by omega)]

/-- A digest has at most 32 bytes. -/
theorem sha256_length (m : List Byte) : (sha256 m).length ≤ 32 := by
  have hwords : ∀ (ps : List (List Byte)) (h : List Word), h.length ≤ 8 → (ps.foldl shaBlock h).length ≤ 8 := by
    intro ps
    induction ps with
    | nil => exact fun h hh => hh
    | cons p ps ih =>
      refine fun h hh => ih _ ?_
      unfold shaBlock
      rw [List.length_map, List.length_zip]
      exact (Nat.min_le_left _ _).trans hh
  have hstart : shaStart.length ≤ 8 := by
    unfold shaStart
    rw [List.length_map]
    exact List.length_take_le 8 _
  have hbytes : ∀ h : List Word, (h.flatMap fun w => beBytes 4 w.toNat).length = 4 * h.length := by
    intro h
    induction h with
    | nil => rfl
    | cons w h ih =>
      rw [List.flatMap_cons, List.length_append, ih, List.length_cons, beBytes, List.length_map, List.length_range]
      omega
  unfold sha256
  dsimp only
  rw [hbytes, ← List.foldl_map]
  have := hwords ((List.range ((shaPad m).length / 64)).map fun i => ((shaPad m).drop (64 * i)).take 64) shaStart hstart
  omega

theorem firmwareDigest_lt : leNat firmwareDigest < 2 ^ 256 :=
  calc leNat firmwareDigest < 256 ^ firmwareDigest.length := leNat_lt _
    _ ≤ 256 ^ 32 := Nat.pow_le_pow_right (by decide) (sha256_length _)
    _ = 2 ^ 256 := by decide

/-- The fields of the signed part of a report (22 R428). -/
theorem reportBody_fields (s : State) : s.reportBody.extractLsb' 0 256 = s.attNonce ∧
    s.reportBody.extractLsb' 256 256 = BitVec.ofNat 256 (leNat firmwareDigest) ∧ s.reportBody.extractLsb' 512 256 = s.dcmap ∧
    s.reportBody.extractLsb' 768 32 = s.lastseq ∧ s.reportBody.extractLsb' 800 224 = BitVec.ofNat 224 (coreCount s.dcmap) := by
  have hdigest := lt_add_field (hi := 512) rfl s.attNonce.isLt firmwareDigest_lt
  have hmap := lt_add_field (hi := 768) rfl hdigest s.dcmap.isLt
  have hseq := lt_add_field (hi := 800) rfl hmap s.lastseq.isLt
  unfold State.reportBody
  refine ⟨?_, ?_, ?_, ?_, extract_high (by decide) hseq _⟩
  · rw [extract_below (by decide), extract_below (by decide), extract_below (by decide),
      extract_below (by decide), extract_ofNat_low (by decide), BitVec.ofNat_toNat, BitVec.setWidth_eq]
  · rw [extract_below (by decide), extract_below (by decide), extract_below (by decide),
      extract_high (by decide) s.attNonce.isLt]
  · rw [extract_below (by decide), extract_below (by decide), extract_high (by decide) hdigest,
      BitVec.ofNat_toNat, BitVec.setWidth_eq]
  · rw [extract_below (by decide), extract_high (by decide) hmap, BitVec.ofNat_toNat, BitVec.setWidth_eq]

/-- A number is its low bits and the field above them. -/
theorem extract_parts {w lo len : Nat} (h : lo + len ≤ w) (low : BitVec lo) (f : Nat) :
    (BitVec.ofNat w (low.toNat + f * 2 ^ lo)).extractLsb' 0 lo = low ∧
    (BitVec.ofNat w (low.toNat + f * 2 ^ lo)).extractLsb' lo len = BitVec.ofNat len f := by
  refine ⟨?_, extract_high h low.isLt f⟩
  rw [extract_below (Nat.zero_add lo).le, extract_ofNat_low (Nat.le_of_add_right_le h), BitVec.ofNat_toNat, BitVec.setWidth_eq]

/-! ## Who reaches the registers, and which monitors a write fires (11 R271; 21 R412) -/

section
variable {s u : State} {agent : BitVec 2}

theorem reachesRegs_iff : s.reachesRegs agent = true ↔
    agent = 3 ∨ (agent = 1 ∧ (tget Port.zero s.ports 0).up = true) ∨ (agent = 2 ∧ (tget Port.zero s.ports 1).up = true) := by
  have hagent : agent = 0 ∨ agent = 1 ∨ agent = 2 ∨ agent = 3 := by
    revert agent
    decide
  rcases hagent with rfl | rfl | rfl | rfl <;> simp [State.reachesRegs, State.portUp]

/-- A write that has made `u` of `s` fires the monitors of its line where a thread made it. -/
theorem writes_fireReg {i : Instr} {off : Nat} (hx : exec i s = .next (u.fireReg agent off)) (hw : u.warps = s.warps) :
    ∃ t, exec i s = .next t ∧ t = { u with warps := t.warps } ∧ WarpsFire s t ∧ (agent ≠ 3 → t.warps = s.warps) := by
  refine ⟨_, hx, ?_⟩
  unfold State.fireReg
  by_cases h : agent = 3
  · rw [if_pos h]
    exact ⟨rfl, (warpsFire_of_warps hw).trans (written_fireLine u _).2, fun hne => absurd h hne⟩
  · rw [if_neg h]
    exact ⟨rfl, warpsFire_of_warps hw, fun _ => hw⟩

/-! ## Writes of registers (21 R415) -/

/-- A write of an aligned 32-bit word by an agent that reaches the registers. -/
theorem registerWrite_word (hreach : s.reachesRegs agent = true) {off : Nat} (hoff : off < 2 ^ 22) (halign : off % 4 = 0) (v : DWord) :
    exec (.registerWrite agent (BitVec.ofNat 22 off) false v) s = .next ((s.regWrite agent off false v.toNat).fireReg agent off) := by
  have hnat : (BitVec.ofNat 22 off).toNat = off := by rw [BitVec.toNat_ofNat, Nat.mod_eq_of_lt hoff]
  show execRegisterWrite _ _ _ _ _ = _
  unfold execRegisterWrite
  rw [hnat, if_pos (by simp [hreach, halign])]

/-- A write of 32 bits writes a half of its register. -/
theorem regWrite_half (off v : Nat) (h : off % 4 = 0) : s.regWrite agent off false v =
    s.regWrite64 agent (off / 8 * 8) (if off % 8 = 0 then v else v % 2 ^ 32 * 2 ^ 32) (decide (off % 8 = 0)) (decide (off % 8 ≠ 0)) := by
  unfold State.regWrite
  rw [if_neg Bool.false_ne_true]
  by_cases h8 : off % 8 = 0
  · rw [if_pos h8, if_pos h8, decide_eq_true h8, decide_eq_false (not_not.mpr h8), show off / 8 * 8 = off by omega]
  · rw [if_neg h8, if_neg h8, decide_eq_false h8, decide_eq_true h8, show off / 8 * 8 = off - 4 by omega]

/-- A write of word `k` of the record of a launch window (07 R180). -/
theorem regWrite_record (port : Bool) {win k : Nat} (hwin : win < 64) (hk : k < 16) (v : DWord) :
    let key := 64 * (if port then 1 else 0) + win
    let W := tget Window.zero s.windows key
    ∃ r, s.regWrite agent ((if port then 0x2000 else 0) + 128 * win + 4 * k) false v.toNat =
        { s with windows := tput Window.zero s.windows key { W with record := r } } ∧
      ∀ j, r.extractLsb' (32 * j) 32 = if j = k then v.setWidth 32 else W.record.extractLsb' (32 * j) 32 := by
  intro key W
  have hkey : winKey port win = key := by cases port <;> rfl
  have hword : v.setWidth 32 = BitVec.ofNat 32 ((if k % 2 = 0 then v.toNat else v.toNat % 2 ^ 32 * 2 ^ 32) / 2 ^ (32 * (k % 2))) := by
    rcases Nat.mod_two_eq_zero_or_one k with h | h
    · rw [h, if_pos rfl, Nat.mul_zero, Nat.pow_zero, Nat.div_one, BitVec.ofNat_toNat]
    · rw [h, if_neg (by decide), Nat.mul_one, Nat.mul_div_cancel _ (by decide)]
      exact BitVec.eq_of_toNat_eq (by simp)
  generalize hbase : (if port then 0x2000 else 0) + 128 * win = base
  have hlt : base < 0x4000 := by cases port <;> simp at hbase <;> omega
  have hmod : base % 0x2000 = 128 * win := by cases port <;> simp at hbase <;> omega
  have hport : decide (0x2000 ≤ base + 8 * (k / 2)) = port := by cases port <;> simp at hbase ⊢ <;> omega
  refine ⟨_, ?_, extract_putHalf W.record (by omega) hword⟩
  have hoff : (base + 4 * k) / 8 * 8 = base + 8 * (k / 2) := by omega
  have heven : (base + 4 * k) % 8 = 0 ↔ k % 2 = 0 := by omega
  rw [regWrite_half _ _ (by omega), hoff]
  simp only [heven, ne_eq]
  unfold State.regWrite64
  dsimp only
  rw [if_pos (by omega)]
  have hw : (base + 8 * (k / 2)) % 0x2000 / 128 = win := by omega
  have ho : (base + 8 * (k / 2)) % 128 = 8 * (k / 2) := by omega
  rw [hport, hw, ho]
  unfold State.writeWindow
  rw [if_pos (by omega)]
  unfold State.setWindow State.window
  rw [hkey]

/-- A write of PCONS that does not pass PPROD (19 R386). -/
theorem regWrite_pcons {c : Nat} (hc : c < 64) (v : DWord) (hpass : (v.setWidth 32 - (tget Ctx.zero s.ctxs c).pcons).toNat ≤
      ((tget Ctx.zero s.ctxs c).pprod - (tget Ctx.zero s.ctxs c).pcons).toNat) : s.regWrite agent (0x11010 + 64 * c) false v.toNat =
    { s with ctxs := tput Ctx.zero s.ctxs c { tget Ctx.zero s.ctxs c with pcons := v.setWidth 32 } } := by
  have h8 : (0x11010 + 64 * c) % 8 = 0 := by omega
  have hbase : (0x11010 + 64 * c) / 8 * 8 = 0x11010 + 64 * c := by omega
  have hctx : (0x11010 + 64 * c - 0x11000) / 64 = c := by omega
  have hreg : (0x11010 + 64 * c) % 64 = 0x10 := by omega
  rw [regWrite_half _ _ (by omega), hbase, if_pos h8, decide_eq_true h8]
  unfold State.regWrite64
  dsimp only
  rw [if_neg (by omega), if_neg (by omega), if_neg (by omega), if_neg (by omega), if_neg (by omega), if_neg (by omega),
    if_pos (by omega), hctx, hreg]
  show s.writePcons c (BitVec.ofNat 32 v.toNat) = _
  unfold State.writePcons
  rw [BitVec.ofNat_toNat]
  exact if_pos hpass

/-- A write of a peer window takes a legal value (21 R419). -/
theorem writePeerwin_eq (p : Nat) (v : DWord) : s.writePeerwin p v.toNat =
    if 16 ≤ v.toNat / 2 ^ 2 % 2 ^ 6 ∧ v.toNat / 2 ^ 2 % 2 ^ 6 ≤ 48 ∧ v.toNat / 2 ^ 16 % 2 ^ (v.toNat / 2 ^ 2 % 2 ^ 6 - 16) = 0
    then { s with peers := tput PeerWin.zero s.peers p ⟨v.getLsbD 0, v.getLsbD 1, v.extractLsb' 2 6, v.extractLsb' 16 48⟩ }
    else s := by
  have hsize : BitVec.ofNat 6 (bitsOf v.toNat 2 6) = v.extractLsb' 2 6 := by
    rw [← ofNat_div_toNat]
    exact BitVec.eq_of_toNat_eq (by simp [bitsOf])
  unfold State.writePeerwin
  rw [← ite_not (p := _ ∧ _)]
  dsimp only
  rw [hsize, ofNat_div_toNat, BitVec.testBit_toNat, BitVec.testBit_toNat]
  refine if_congr ?_ rfl rfl
  simp only [bitsOf, not_and_or, Nat.not_le, ne_eq]

/-- ARM takes a policy that is signed, newer, and leaves a pair of cores (22 R425). -/
theorem armPolicy_eq : s.armPolicy =
    if policySigned s.policy = true ∧ s.policy.extractLsb' 288 224 = 0 ∧
      s.lastseq.toNat < (s.policy.extractLsb' 256 32).toNat ∧ s.dcmap ||| s.policy.extractLsb' 0 256 ≠ BitVec.allOnes 256
    then { s with armed := some s.policy, polBad := false } else { s with polBad := true } := by
  have hzero : s.policy.toNat / 2 ^ 288 % 2 ^ 224 = 0 ↔ s.policy.extractLsb' 288 224 = 0 := by
    rw [← Nat.shiftRight_eq_div_pow, ← BitVec.extractLsb'_toNat]
    exact BitVec.toNat_inj (y := 0)
  unfold State.armPolicy
  rw [← ite_not (p := _ ∧ _)]
  dsimp only
  rw [polMask_eq, polSeq_eq]
  refine if_congr ?_ rfl rfl
  simp only [Bool.or_eq_true, Bool.not_eq_true', decide_eq_true_eq, ← Bool.not_eq_true, not_and_or, ne_eq, hzero, Nat.not_lt, not_not,
    or_assoc]

/-- A write of 32 bits of the staged policy (22 R425). -/
theorem writePolicy_word {k : Nat} (hk : k < 112) (w : Word) : ∃ t, exec (.policyWrite (4 * k) w) s = .next t ∧
    t = { s with policy := t.policy, armed := none } ∧
    ∀ j, t.policy.extractLsb' (32 * j) 32 = if j = k then w else s.policy.extractLsb' (32 * j) 32 := by
  have hword : w = BitVec.ofNat 32 (w.toNat * (1 + 2 ^ 32) / 2 ^ (32 * (k % 2))) := by
    refine BitVec.eq_of_toNat_eq ?_
    have hlt : w.toNat < 2 ^ 32 := w.isLt
    rcases Nat.mod_two_eq_zero_or_one k with h | h
    · rw [h, Nat.mul_zero, Nat.pow_zero, BitVec.toNat_ofNat]
      omega
    · rw [h, Nat.mul_one, Nat.mul_add, Nat.mul_one, Nat.add_mul_div_right _ _ (by decide), Nat.div_eq_of_lt hlt, Nat.zero_add,
        BitVec.toNat_ofNat, Nat.mod_eq_of_lt hlt]
  have hoff : 4 * k / 8 * 8 = 8 * (k / 2) := by omega
  have heven : 4 * k % 8 = 0 ↔ k % 2 = 0 := by omega
  refine ⟨_, rfl, rfl, fun j => ?_⟩
  unfold State.writePolicy
  simp only [hoff, heven, ne_eq]
  exact extract_putHalf s.policy (by omega) hword j

end

/-- Settles O47: each event writes one register, or is answered by the semaphore. -/
theorem platformRegisters : Obligations.PlatformRegisters := by
  unfold Obligations.PlatformRegisters
  intro s agent n p v w o sem reached writes
  have hreach : reached ↔ s.reachesRegs agent = true := reachesRegs_iff.symm
  have hn : n.toNat < 32 := n.isLt
  refine ⟨fun hr => ?_, fun hr hown => ?_, fun hr hother => ?_, fun hr => ?_, ?_, ?_, fun k hk => ?_, ?_, fun hidle => ?_, fun hbusy => ?_,
    fun off wide hno => ?_, fun hr => ?_, fun hr port win k hwin hk => ?_, fun hr c hc => ?_⟩
  · intro now
    show execSemaphoreRead agent n s = _
    unfold execSemaphoreRead
    rw [if_pos (hreach.mp hr), semRead_eq]
  · refine writes_fireReg (off := 0x4000 + 8 * n.toNat) (congrArg Host.Outcome.next ((if_pos (hreach.mp hr)).trans ?_)) rfl
    rw [semWrite_frees _ (.inl hown)]
  · refine writes_fireReg (off := 0x4000 + 8 * n.toNat) (congrArg Host.Outcome.next ((if_pos (hreach.mp hr)).trans ?_)) rfl
    rw [semWrite_ignored hother]
  · have hno := hreach.not.mp hr
    exact ⟨congrArg Host.Outcome.next (if_neg hno), congrArg Host.Outcome.next (if_neg hno)⟩
  · exact congrArg Host.Outcome.next (semWrite_frees true (.inr rfl))
  · intro size legal win
    have hexec : exec (.peerwinWrite p v) s = _ := congrArg Host.Outcome.next (writePeerwin_eq p.toNat v)
    exact ⟨fun h => hexec.trans (congrArg _ (if_pos h)), fun h => hexec.trans (congrArg _ (if_neg h))⟩
  · obtain ⟨t, ht, hframe, hwords⟩ := writePolicy_word (s := s) hk w
    exact ⟨t, ht, hframe, fun j _ => hwords j⟩
  · intro good
    have hexec : exec .policyArm s = _ := congrArg Host.Outcome.next armPolicy_eq
    exact ⟨fun h => hexec.trans (congrArg _ (if_pos h)), fun h => hexec.trans (congrArg _ (if_neg h))⟩
  · have hno := Bool.not_eq_true _ ▸ hidle
    exact ⟨congrArg Host.Outcome.next (if_neg hno), congrArg Host.Outcome.next (if_neg hno)⟩
  · obtain ⟨hbody, hsig⟩ := extract_parts (w := 4096) (len := 3072) (by decide) s.reportBody (leNat s.reportSignature)
    exact ⟨congrArg Host.Outcome.next (if_pos hbusy), s.reportBody, _, congrArg Host.Outcome.next (if_pos hbusy), hbody, hsig,
      reportBody_fields s⟩
  · refine congrArg Host.Outcome.next (if_neg ?_)
    rw [Bool.and_eq_true, Bool.and_eq_true, decide_eq_true_eq]
    rintro ⟨⟨hreached, haligned⟩, hwidth⟩
    rcases hno with hno | hno | ⟨hwide, hthread⟩
    · exact hno (hreach.mpr hreached)
    · exact hno haligned
    · rw [hwide, decide_eq_true hthread] at hwidth
      cases hwidth
  · have hx := registerWrite_word (hreach.mp hr) (off := 0x4000 + 8 * n.toNat) (by omega) (by omega) ((v.setWidth 4).setWidth 64)
    have hbrk : ((v.setWidth 4).setWidth 64).toNat.testBit 4 = false := by
      rw [BitVec.testBit_toNat, BitVec.getLsbD_setWidth, BitVec.getLsbD_setWidth]
      rfl
    rw [regWrite_sem hn, hbrk] at hx
    by_cases hown : o = agent
    · rw [if_pos hown]
      rw [semWrite_frees _ (.inl hown)] at hx
      exact writes_fireReg hx rfl
    · rw [if_neg hown]
      rw [semWrite_ignored hown] at hx
      exact writes_fireReg hx rfl
  · intro key W
    obtain ⟨r, hwrite, hwords⟩ := regWrite_record (s := s) (agent := agent) port hwin hk v
    refine ⟨r, ?_, fun j _ => hwords j⟩
    have hx := registerWrite_word (hreach.mp hr) (off := (if port then 0x2000 else 0) + 128 * win + 4 * k) (by cases port <;> simp <;> omega)
      (by cases port <;> simp <;> omega) v
    rw [hwrite] at hx
    exact writes_fireReg hx rfl
  · intro C hpass
    have hx := registerWrite_word (hreach.mp hr) (off := 0x11010 + 64 * c) (by omega) (by omega) v
    rw [regWrite_pcons hc v hpass] at hx
    exact writes_fireReg hx rfl

end Sys2Proof.Machine
end

section
/-! Monitors (O30): MONARM arms a monitor in each lane, and MONWAIT blocks its path or finds that one of them has fired. -/

namespace Sys2Proof.Machine

/-! ## MONARM (11 R270) -/

/-- The monitor that MONARM arms for an access of `n` bytes, compared with `cmp`: it has fired where those bytes of memory differ. -/
def State.monitorOf (s : State) (n : Nat) (cmp : Nat → Nat) (a : MemAcc) : Monitor :=
  ⟨a.pa, n, BitVec.ofNat 32 (cmp a.lane), !uncached a.pa && decide (s.placeValue a ≠ cmp a.lane)⟩

/-- A warp with the monitor `f a` armed in the lane of each access `a` of a list. -/
def Warp.armed (W : Warp) (f : MemAcc → Monitor) (as : List MemAcc) : Warp :=
  as.foldl (fun W a => { W with mon := tput none W.mon a.lane (some (f a)) }) W

/-- The reads by which MONARM compares registers and words of peer windows, outstanding. -/
def Ix.armReads (x : Ix) (s : State) (cmp : Nat → Nat) (far : List MemAcc) : List Outst :=
  far.zipIdx.map fun r => { x.outst s r.2 r.1 false false 0 0 with
    kind := .monitor, lock := true, size := far.length, value := BitVec.ofNat 128 (cmp r.1.lane) }

/-- What MONARM leaves of memory: translated, and read in the lanes that monitor it. -/
def Ix.armShares (x : Ix) (s : State) (as : List MemAcc) : State :=
  (as.filter fun a => !uncached a.pa).foldl (fun s a => s.shareBytes (s.dieOf x.core) a.pas) (x.keepLeaves s as)

theorem shared_armShares (x : Ix) (s : State) (as : List MemAcc) : Shared s (x.armShares s as) :=
  (shared_keepLeaves x s as).trans (shared_foldl (fun s a => shared_shareBytes s _ (MemAcc.pas a)) _ _)

theorem armed_spec (f : MemAcc → Monitor) : ∀ (as : List MemAcc) (W : Warp), (as.map (·.lane)).Nodup →
    W.armed f as = { W with mon := (W.armed f as).mon } ∧
    (∀ l, l ∉ as.map (·.lane) → tget none (W.armed f as).mon l = tget none W.mon l) ∧
    ∀ a ∈ as, tget none (W.armed f as).mon a.lane = some (f a)
  | [], W, _ => ⟨rfl, fun _ _ => rfl, nofun⟩
  | b :: as, W, hn => by
    obtain ⟨hb, hn⟩ := List.nodup_cons.mp hn
    obtain ⟨hframe, hother, harmed⟩ := armed_spec f as { W with mon := tput none W.mon b.lane (some (f b)) } hn
    refine ⟨hframe, fun l hl => ?_, fun a ha => ?_⟩
    · rw [List.map_cons, List.mem_cons, not_or] at hl
      exact (hother l hl.2).trans ((tget_tput none W.mon b.lane l (some (f b))).trans (if_neg hl.1))
    · rcases List.mem_cons.mp ha with rfl | ha
      · exact (hother _ hb).trans ((tget_tput none W.mon a.lane a.lane (some (f a))).trans (if_pos rfl))
      · exact harmed a ha

section
variable {s : State} {x : Ix} {e : Bool} {d a : BitVec 7} {o : BitVec 5} {z : BitVec 2} {n : Nat} {as : List MemAcc}
  (hn : memBytes z.toNat = n) (hu : Usable s x [.src d.toNat, .srcPair a.toNat])
  (hacc : x.globalAcc s .fresh n x.lanes (fun l => ((x.srcPair a.toNat l).toNat + o.toNat * n) % 2 ^ 56) = .ok as)
include hn hu hacc

/-- MONARM whose accesses pass their checks: the data error of the first that no link can serve, or monitors and reads. -/
theorem monarm_body : ∃ body, exec (.monarm e d a o z) s = run (.monarm e d a o z) s body ∧
    (∀ r, as.find? s.noReply = some r → body x = .trap s (dataTrap r.va r.lane)) ∧
    (as.find? s.noReply = none → let cmp := fun l => (x.src d.toNat l).toNat % 2 ^ (8 * n)
      body x = .ok (((x.armShares s as).modWarp x.w fun W => W.armed (s.monitorOf n cmp) as).addPart
        (x.armReads s cmp (as.filter fun a => uncached a.pa))) none) := by
  have haddr : x.gaddr a (o.toNat * n) = fun l => ((x.srcPair a.toNat l).toNat + o.toNat * n) % 2 ^ 56 :=
    funext fun l => gaddr_eq x a _ l
  rw [← haddr] at hacc
  subst hn
  refine ⟨_, rfl, fun r hr => (withOperands_usable hu).trans ?_, fun hnone => (withOperands_usable hu).trans ?_⟩
  · dsimp only
    rw [hacc]
    dsimp only
    rw [hr]
  · dsimp only
    rw [hacc]
    dsimp only
    rw [hnone]
    unfold State.addLoads Ix.armReads
    simp only [List.map_map, List.length_map, List.length_zipIdx]
    rfl

theorem monarm_dead (hs : Starts s x (.monarm e d a o z)) {pre post : List MemAcc} {r : MemAcc} (has : as = pre ++ r :: post)
    (hpre : ∀ b ∈ pre, s.noReply b = false) (hr : s.noReply r = true) : Traps s x (.monarm e d a o z) (dataTrap r.va r.lane) := by
  obtain ⟨body, hx, hdead, -⟩ := monarm_body (e := e) hn hu hacc
  have hfind := List.find?_eq_some_iff_append.mpr ⟨hr, pre, post, has, fun b hb => by rw [hpre b hb]; rfl⟩
  exact takes_fault hs hx (hdead r hfind)

theorem monarm_arms (hs : Starts s x (.monarm e d a o z)) (hlive : ∀ r ∈ as, s.noReply r = false) :
    let cmp := fun l => (x.src d.toNat l).toNat % 2 ^ (8 * n)
    let far := as.filter fun a => uncached a.pa
    ∃ t, CompletesIn s { x.armShares s as with nextId := s.nextId + far.length, loads := s.loads ++ x.armReads s cmp far } t x
      (.monarm e d a o z) none (x.W.armed (s.monitorOf n cmp) as) := by
  intro cmp far
  obtain ⟨body, hx, -, hbody⟩ := monarm_body (e := e) hn hu hacc
  have hshared := shared_armShares x s as
  have hlanes : (as.map (·.lane)).Nodup := by
    rw [(globalAcc_lanes hacc).1]
    exact lanesOf_nodup _
  obtain ⟨hframe, -, -⟩ := armed_spec (s.monitorOf n cmp) as x.W hlanes
  refine completes_in hs hx (hbody (List.find?_eq_none.mpr fun r hr => by rw [hlive r hr]; exact Bool.false_ne_true)) ?_
    (by rw [hframe]) (by rw [hframe])
  rw [State.modWarp_eq ((hshared.warp x.w).trans (issuing_spec hs.1).2.1)]
  unfold State.addPart
  have hlen : (x.armReads s cmp far).length = far.length := by rw [Ix.armReads, List.length_map, List.length_zipIdx]
  rw [hlen, ← hshared.nextId, ← hshared.loads]
  rfl

end

/-! ## MONWAIT (11 R271, R272) -/

theorem endsScene_monwait (n : Bool) (d : BitVec 7) (f : Bool) (t : BitVec 5) : (Instr.monwait n d f t).endsScene = true :=
  endsScene_lane rfl (by decide) (by have := d.isLt; have := t.isLt; cases f <;> simp only [Bool.toNat_true, Bool.toNat_false] <;> omega)

theorem Warp.hit_iff (W : Warp) (l : Nat) : W.hit l = true ↔ ∃ m, tget none W.mon l = some m ∧ m.fired = true := by
  unfold Warp.hit
  cases tget none W.mon l <;> simp

/-- Where no monitor has fired, no path wakes from MONWAIT. -/
theorem wakeMon_quiet {W : Warp} (h : ∀ l, W.hit l = false) : W.wakeMon (fun _ => false) = W := by
  have hstep : ∀ r, W.wakePath (fun _ => false) r = W := fun r => by
    unfold Warp.wakePath
    split
    · rfl
    · split
      · refine if_neg ?_
        rw [Bool.false_or, List.any_eq_true]
        rintro ⟨l, -, hl⟩
        exact absurd ((h l).symm.trans hl) Bool.false_ne_true
      · rfl
  exact List.foldl_fixed' hstep _

/-- A path that waits in MONWAIT with a fired monitor wakes. -/
theorem wakePath_hit {W : Warp} {P : Path} {force : Path → Bool} {lim n d} (hP : W.path (lowest P.lanes) = some P)
    (hb : P.block = some (.monwait lim n d)) (hh : ∃ l ∈ lanesOf P.lanes, W.hit l = true) :
    W.wakePath force (lowest P.lanes) = W.monWoken P n d.toNat := by
  unfold Warp.wakePath
  simp only [hP, hb]
  exact if_pos (by rw [Bool.or_eq_true, List.any_eq_true]; exact .inr hh)

/-- A path that waits in MONWAIT. -/
def Path.monwaiting (lim : Option Nat) (n : Bool) (d : BitVec 7) (P : Path) : Path := { P with block := some (.monwait lim n d) }

/-- A path that waits for nothing past its scene end. -/
def Path.unblocked (P : Path) : Path := { P with block := none }

section
variable {V : Warp} {P : Path} {r : Nat} (lim : Option Nat) (n : Bool) (d : BitVec 7)

/-- A path that comes to wait in MONWAIT with a fired monitor, alone in its warp, wakes at once. -/
theorem wakeMon_waiting (hn : V.noMonwait) (hP : V.path r = some P) (hh : ∃ l ∈ lanesOf P.lanes, V.hit l = true) :
    (V.modPath r (Path.monwaiting lim n d)).wakeMon (fun _ => false) =
      (V.modPath r (Path.monwaiting lim n d)).monWoken (P.monwaiting lim n d) n d.toNat := by
  have hpath := path_modPath V r (Path.monwaiting lim n d) fun _ => rfl
  obtain rfl : lowest P.lanes = r := path_low hP
  have hown : (V.modPath (lowest P.lanes) (Path.monwaiting lim n d)).path (lowest P.lanes) = some (P.monwaiting lim n d) := by
    rw [hpath, if_pos rfl, hP]
    rfl
  have hwoken := wakePath_hit (P := P.monwaiting lim n d) (force := fun _ => false) hown rfl hh
  refine (wakeMon_one (path_mem hown) (fun q hq => (wakePath_spec _ _ q).2.2 fun Q hQ => ?_) ?_).trans hwoken
  · rw [hpath, if_neg (show q ≠ lowest P.lanes from hq)] at hQ
    exact hn Q (path_mem hQ)
  · refine noMonwait_map hn (((congrArg Warp.paths (hwoken.trans (monWoken_spec _ _ n d.isLt).1))).trans (List.map_map ..)) fun Q => ?_
    by_cases hq : lowest Q.lanes = lowest P.lanes
    · right
      simp [hq, Path.monwaiting]
    · left
      simp [hq, Path.monwaiting]

/-- It goes on as it stood: its warp has the same paths, and differs in the registers of its destination and in its monitors. -/
theorem wakeMon_returns (hn : V.noMonwait) (hP : V.path r = some P) (hblock : P.block = none)
    (hh : ∃ l ∈ lanesOf P.lanes, V.hit l = true) : ∃ U, (V.modPath r (Path.monwaiting lim n d)).wakeMon (fun _ => false) = U ∧
      U = { V with v := U.v, mon := U.mon, paths := U.paths } ∧ (∀ q, U.path q = V.path q) ∧
      (∀ l k, k < 128 → U.reg l k = if n = false ∧ l ∈ lanesOf P.lanes ∧ k = d.toNat then (if V.hit l then 1 else 0) else V.reg l k) ∧
      ∀ l, tget none U.mon l = if l ∈ lanesOf P.lanes then none else tget none V.mon l := by
  obtain ⟨hframe, hreg, hmon⟩ := monWoken_spec (V.modPath r (Path.monwaiting lim n d)) (P.monwaiting lim n d) n d.isLt
  refine ⟨_, wakeMon_waiting lim n d hn hP hh, ?_, fun q => ?_, hreg, hmon⟩
  · exact hframe.trans (by rw [hframe]; rfl)
  · obtain rfl : lowest P.lanes = r := path_low hP
    have hpaths : ((V.modPath (lowest P.lanes) (Path.monwaiting lim n d)).monWoken (P.monwaiting lim n d) n d.toNat).paths =
        ((V.modPath (lowest P.lanes) (Path.monwaiting lim n d)).modPath (lowest P.lanes) Path.unblocked).paths :=
      (congrArg Warp.paths hframe).trans rfl
    rw [path_congr hpaths, path_modPath _ _ Path.unblocked fun _ => rfl, path_modPath _ _ (Path.monwaiting lim n d) fun _ => rfl]
    by_cases hq : q = lowest P.lanes
    · rw [if_pos hq, if_pos hq, hq, hP]
      refine congrArg some (?_ : { P with block := none } = P)
      rw [← hblock]
    · rw [if_neg hq, if_neg hq]

end

theorem armOut_iff {s : State} {x : Ix} :
    x.armOut s = true ↔ ∃ o ∈ s.loads, o.kind = .monitor ∧ o.w = x.w ∧ o.lane ∈ x.lanes := by
  have hlane : ∀ l, x.P.lanes.getLsbD l = true ↔ l ∈ x.lanes := fun l =>
    ⟨fun h => mem_lanesOf.mpr ⟨BitVec.lt_of_getLsbD h, h⟩, fun h => (mem_lanesOf.mp h).2⟩
  unfold Ix.armOut
  simp only [List.any_eq_true, Bool.and_eq_true, decide_eq_true_eq, hlane, and_assoc]

/-- When a MONWAIT times out (11 R272). -/
def Ix.monLimit (x : Ix) (s : State) (f : Bool) (t : BitVec 5) : Option Nat :=
  if f then none else some (s.clockOf x.core + 2 ^ (t.toNat + 8))

section
variable {s : State} {x : Ix} {n f : Bool} {d : BitVec 7} {t : BitVec 5}
  (hu : Usable s x [.reg d.toNat]) (hs : Starts s x (.monwait n d f t))
include hu hs

theorem monwait_stalls (hout : x.armOut s = true) : exec (.monwait n d f t) s = .next s := by
  show run _ s _ = _
  rw [run_starts hs, withOperands_usable hu, if_pos hout]
  rfl

/-- MONWAIT with no MONARM of its path under way blocks the path past its scene end, and wakes it where a monitor has fired. -/
theorem monwait_exec (hout : x.armOut s = false) {V : Warp} (hV : (retire x (.monwait n d f t) s none).warp x.w = some V) :
    exec (.monwait n d f t) s = .next ((retire x (.monwait n d f t) s none).setWarp x.w
      ((V.modPath x.low (Path.monwaiting (x.monLimit s f t) n d)).wakeMon fun _ => false)) := by
  show run _ s _ = _
  rw [run_starts hs, withOperands_usable hu, hout, if_neg Bool.false_ne_true]
  exact congrArg Host.Outcome.next (State.modWarp_eq hV _)

theorem monwait_blocks (hout : x.armOut s = false) (hquiet : ∀ l, x.W.hit l = false) :
    ∃ u, exec (.monwait n d f t) s = .next u ∧ BlockedPast s u x (.monwait n d f t) (.monwait (x.monLimit s f t) n d) := by
  have he := endsScene_monwait n d f t
  obtain ⟨-, hW, hrun, hP, -⟩ := issuing_spec hs.1
  obtain ⟨-, V, hV, ⟨hbody, -⟩, -⟩ := retire_standsAt (l := none) hs.1 he
  have hhit : ∀ l, (V.modPath x.low (Path.monwaiting (x.monLimit s f t) n d)).hit l = false := fun l =>
    (show V.body.hit l = x.W.body.hit l by rw [hbody]).trans (hquiet l)
  refine ⟨_, monwait_exec hu hs hout hV, ?_⟩
  rw [wakeMon_quiet hhit]
  have hblocked := block_spec (b := .monwait (x.monLimit s f t) n d) hW hP hrun he
  rw [State.modWarp_eq hV] at hblocked
  exact hblocked

theorem monwait_wakes (hout : x.armOut s = false) (hhit : ∃ l ∈ x.lanes, x.W.hit l = true) (hno : x.W.noMonwait)
    (hblock : x.P.block = none) : ∃ u W, Completes s u x (.monwait n d f t) none W ∧ W = { x.W with v := W.v, mon := W.mon } ∧
      (∀ l r, r < 128 → W.reg l r = if n = false ∧ l ∈ x.lanes ∧ r = d.toNat then (if x.W.hit l then 1 else 0) else x.W.reg l r) ∧
      ∀ l, tget none W.mon l = if l ∈ x.lanes then none else tget none x.W.mon l := by
  have he := endsScene_monwait n d f t
  obtain ⟨⟨hframe, hothers⟩, V, hV, ⟨hbody, hrun, hpath, hnoV⟩, hpaths⟩ := retire_standsAt (l := none) hs.1 he
  have hx := monwait_exec hu hs hout hV
  have hhitV : ∀ l, V.hit l = x.W.hit l := fun l => show V.body.hit l = x.W.body.hit l by rw [hbody]
  obtain ⟨U, hU, hwoken, hpathU, hreg, hmon⟩ := wakeMon_returns (x.monLimit s f t) n d (hnoV hno) hpath hblock
    (by simp only [hhitV]; exact hhit)
  rw [hU] at hx
  have hbodyU : U.body = { x.W.body with v := U.v, mon := U.mon } :=
    (congrArg Warp.body hwoken).trans (congrArg (fun B : Warp => { B with v := U.v, mon := U.mon }) hbody)
  refine ⟨_, { x.W with v := U.v, mon := U.mon }, ⟨hx, ⟨by rw [hframe]; rfl, fun w hw => ?_⟩, U, State.setWarp_warp_same _ _ _, hbodyU,
    (hpathU _).trans hpath, ?_, fun r hr => ?_⟩, rfl, fun l r hr => (hreg l r hr).trans ?_, fun l => (hmon l).trans ?_⟩
  · rw [State.setWarp_warp, if_neg hw, he]
    exact hothers w hw
  · rw [he, hwoken]
    exact hrun
  · rw [hpathU, he]
    exact hpaths r hr
  · rw [hhitV, show V.reg l r = x.W.reg l r from show V.body.reg l r = x.W.body.reg l r by rw [hbody]]
    rfl
  · rw [show V.mon = x.W.mon from show V.body.mon = x.W.body.mon by rw [hbody]]
    rfl

end

/-- Settles O30: MONARM is `monarm_dead` and `monarm_arms`, MONWAIT `monwait_stalls`, `monwait_blocks` and `monwait_wakes`. -/
theorem monitors : Obligations.Monitors := by
  unfold Obligations.Monitors
  intro s x e n f d a o t z as m
  have hm : memBytes z.toNat = m := memBytes_eq z
  refine ⟨fun hu hacc hs => ?_, ?_⟩
  · intro cmp dead far
    refine ⟨fun pre r post has hpre hr => monarm_dead hm hu hacc hs has hpre hr, fun hlive => ?_⟩
    obtain ⟨u, hx⟩ := monarm_arms hm hu hacc hs hlive
    obtain ⟨hlanes, -⟩ := globalAcc_lanes hacc
    obtain ⟨hframe, hother, harmed⟩ := armed_spec (s.monitorOf m cmp) as x.W (by rw [hlanes]; exact lanesOf_nodup _)
    exact ⟨u, _, _, shared_armShares x s as, hx, hframe, fun l hl => hother l (by rwa [hlanes]), harmed⟩
  · intro i hit asked hu hs
    have hasked : x.armOut s = true ↔ asked := armOut_iff
    have hhit : ∀ l, x.W.hit l = true ↔ hit l := x.W.hit_iff
    refine ⟨fun h => monwait_stalls hu hs (hasked.mpr h), fun h => ?_⟩
    have hout : x.armOut s = false := Bool.eq_false_iff.mpr (hasked.not.mpr h)
    refine ⟨fun hquiet => monwait_blocks hu hs hout fun l => Bool.eq_false_iff.mpr ((hhit l).not.mpr (hquiet l)),
      fun ⟨l, hl, hfired⟩ hno hblock => ?_⟩
    obtain ⟨u, W, hdone, hframe, hreg, hmon⟩ := monwait_wakes hu hs hout ⟨l, hl, (hhit l).mpr hfired⟩ hno hblock
    refine ⟨u, W, hdone, hframe, fun l hl => (hmon l).trans (if_pos hl), fun l hl => (hmon l).trans (if_neg hl), fun l r _ hr hsame => ?_,
      fun l hl hn => ?_⟩
    · refine (hreg l r hr).trans (if_neg ?_)
      rintro ⟨hn, hl, hrd⟩
      rcases hsame with h | h | h
      · exact absurd (hn.symm.trans h) Bool.false_ne_true
      · exact h hl
      · exact h hrd
    · have hval := (hreg l d.toNat d.isLt).trans (if_pos ⟨hn, hl, rfl⟩)
      exact ⟨fun h => hval.trans (if_pos ((hhit l).mpr h)), fun h => hval.trans (if_neg ((hhit l).not.mpr h))⟩

end Sys2Proof.Machine
end

section
/-! Cue tables (O32): an index that CUE takes for one past its table, and a table of which the statement says that it is not. -/

namespace Sys2Proof.Machine

section
variable {s : State} {x : Ix} {e sx : Bool} {d a : BitVec 7} {h : BitVec 4}

theorem cue_unbound (hu : Usable s x [.reg d.toNat, .src a.toNat]) (hs : Starts s x (.cue e d a sx h))
    (hH : s.handle x.T.ctx h.toNat = .unbound) :
    Traps s x (.cue e d a sx h) (Trap.table 1 h.toNat (x.src a.toNat x.low).toNat none) :=
  takes_fault hs rfl (by simp only [withOperands_usable hu, hH])

/-- The first lane whose index a hung table does not reach takes the table fault (12 R290). -/
theorem cue_past {pa rows ew l : Nat} {rel : Bool} (hu : Usable s x [.reg d.toNat, .src a.toNat])
    (hs : Starts s x (.cue e d a sx h)) (hH : s.handle x.T.ctx h.toNat = .hung pa rows ew rel)
    (hl : x.lanes.find? (fun l => decide (rows * 8192 / cueBits ew ≤ (x.src a.toNat l).toNat)) = some l) :
    Traps s x (.cue e d a sx h) (Trap.table 2 h.toNat (x.src a.toNat l).toNat (some l)) :=
  takes_fault hs rfl (by simp only [withOperands_usable hu, hH, hl])

end

/-- A fault holds its team, which an instruction that completes does not. -/
theorem Traps.not_completes {s t : State} {x : Ix} {i : Instr} {tr : Trap} {l : Option Latch} {W : Warp} {s1 : State}
    (h : Traps s x i tr) (hT : s1.team x.W.team = some x.T) (hfree : x.T.hold = none) : ¬ CompletesIn s s1 t x i l W := by
  rintro ⟨hexec, ⟨hframe, -⟩, -⟩
  obtain ⟨u, hu, -, -, ⟨T, k, hteam, -, hhold, -⟩, -⟩ := h
  cases hexec.symm.trans hu
  have hsame : t.team x.W.team = s1.team x.W.team := by rw [hframe]; rfl
  cases (hteam.symm.trans hsame).trans hT
  exact nomatch hhold.symm.trans hfree

/-- A state in which handle 0 is hung with one row of entries of 2^11 bytes, twice what the row holds; no HANG binds such a
handle (12 R277). -/
def wideEntries : State :=
  { (State.reset.setTeam 0 placedTeam).setWarp 0 placedWarp with handles := [(0, .hung (2 ^ 48) 1 11 false)] }

/-- Its issuing path. -/
def wideIx : Ix := ⟨0, placedWarp, { Path.fresh (lanesBelow 32) 0x20000 with scene := some ⟨0, []⟩ }, placedTeam⟩

theorem cue_starts_wide : Starts wideEntries wideIx (.cue false 0 1 false 0) :=
  ⟨by decide, by decide, by decide, fun _ hr => Option.some.inj hr⟩

theorem cue_usable_wide : Usable wideEntries wideIx [.reg 0, .src 1] := by
  unfold Usable
  decide

/-- Entry 0 begins in the table and ends past it: the machine, which counts whole entries, finds none. -/
theorem cue_past_wide : Traps wideEntries wideIx (.cue false 0 1 false 0) (Trap.table 2 0 0 (some 0)) :=
  cue_past cue_usable_wide cue_starts_wide (pa := 2 ^ 48) (rows := 1) (ew := 11) (rel := false) (by decide) (by decide)

/-- Refutes O32: of the CUE of index 0 in a table of one row whose entries are wider than the row, the statement, which has no
bound on the width of entries, says that it completes, and the machine takes the table fault. -/
theorem not_cueTables : ¬ Obligations.CueTables := by
  unfold Obligations.CueTables
  intro h
  obtain ⟨-, hcue, -⟩ := h wideEntries
  obtain ⟨t, ht⟩ := hcue wideIx false 0 1 false 0 (2 ^ 48) 1 11 false cue_usable_wide (by decide) (by decide) (by decide) (by decide)
    cue_starts_wide
  exact cue_past_wide.not_completes (by decide) (by decide) ht

end Sys2Proof.Machine
end

section
/-! What the hold of a team leaves of its warps (11 R271; 19 R379, R380): each path stands where it stood, and none begins to
wait. -/

namespace Sys2Proof.Machine

/-! ## One warp -/

/-- A path but for what it waits for. -/
def Path.unwaiting (P : Path) : Path := { P.unmonitored with wait := none, got := [] }

/-- The paths of warp `V` are those of `W`, but that some wait no more. -/
def Warp.PathsRest (W V : Warp) : Prop :=
  (∀ r, (V.path r).map Path.unwaiting = (W.path r).map Path.unwaiting) ∧
  ∀ r Q k, V.path r = some Q → Q.wait = some k → ∃ P, W.path r = some P ∧ P.wait = some k

/-- Warp `V` is warp `W`, but that some paths wait no more, that no other path runs, and that monitors may have fired, which
write registers where a path leaves MONWAIT (11 R272). -/
def Warp.Rests (W V : Warp) : Prop :=
  V = { W with v := V.v, mon := V.mon, paths := V.paths, running := V.running } ∧ W.PathsRest V ∧
  (V.running = W.running ∨ V.running = none) ∧ (W.noMonwait → V.noMonwait ∧ V.v = W.v)

theorem Warp.Rests.refl (W : Warp) : W.Rests W :=
  ⟨rfl, ⟨fun _ => rfl, fun _ P _ hP hk => ⟨P, hP, hk⟩⟩, .inl rfl, fun h => ⟨h, rfl⟩⟩

theorem Warp.Rests.trans {W V U : Warp} (h : W.Rests V) (k : V.Rests U) : W.Rests U := by
  obtain ⟨hV, ⟨hpath, hwait⟩, hrun, hno⟩ := h
  obtain ⟨kU, ⟨kpath, kwait⟩, krun, kno⟩ := k
  refine ⟨by rw [kU, hV], ⟨fun r => (kpath r).trans (hpath r), fun r R j hR hj => ?_⟩, ?_, fun hW => ?_⟩
  · obtain ⟨Q, hQ, hj⟩ := kwait r R j hR hj
    exact hwait r Q j hQ hj
  · rcases krun with krun | krun
    · rwa [krun]
    · exact .inr krun
  · obtain ⟨hV, hv⟩ := hno hW
    obtain ⟨kU, kv⟩ := kno hV
    exact ⟨kU, kv.trans hv⟩

/-- A path that rests stands where it stood. -/
theorem Warp.PathsRest.stands {W V : Warp} (h : W.PathsRest V) {r : Nat} {P : Path} (hP : W.path r = some P) :
    ∃ Q, V.path r = some Q ∧ Q.pc = P.pc ∧ Q.lanes = P.lanes ∧ Q.scene = P.scene ∧ Q.stop = P.stop := by
  obtain ⟨hpath, -⟩ := h
  have hr := hpath r
  rw [hP, Option.map_some, Option.map_eq_some_iff] at hr
  obtain ⟨Q, hQ, hsame⟩ := hr
  refine ⟨Q, hQ, ?_, ?_, ?_, ?_⟩
  · simpa [Path.unwaiting] using congrArg Path.pc hsame
  · simpa [Path.unwaiting] using congrArg Path.lanes hsame
  · simpa [Path.unwaiting] using congrArg Path.scene hsame
  · simpa [Path.unwaiting] using congrArg Path.stop hsame

/-! ## Firing monitors and stopping a wait -/

theorem unmonitored_wait (P : Path) : P.unmonitored.wait = P.wait := by
  unfold Path.unmonitored
  split <;> rfl

theorem onlyFired_pathsRest {W V : Warp} (h : OnlyFired W V) : W.PathsRest V := by
  obtain ⟨-, hpath, -⟩ := h
  refine ⟨fun r => ?_, fun r Q k hQ hk => ?_⟩
  · have hr := congrArg (Option.map fun P : Path => ({ P with wait := none, got := [] } : Path)) (hpath r)
    rwa [Option.map_map, Option.map_map] at hr
  · have hr := hpath r
    rw [hQ, Option.map_some, eq_comm, Option.map_eq_some_iff] at hr
    obtain ⟨P, hP, hsame⟩ := hr
    refine ⟨P, hP, ?_⟩
    rw [← unmonitored_wait P, hsame, unmonitored_wait, hk]

/-- Firing monitors writes vector registers, monitors and paths at most. -/
theorem fireMon_frame (W : Warp) (hit : Monitor → Bool) :
    W.fireMon hit = { W with v := (W.fireMon hit).v, mon := (W.fireMon hit).mon, paths := (W.fireMon hit).paths } := by
  have hsetReg : ∀ (n : Bool) (d : Nat) (val : Nat → Word) (ls : List Nat) (U : Warp),
      U = { W with v := U.v, mon := U.mon, paths := U.paths } →
      let V := ls.foldl (fun W l => if n then W else W.setReg l d (val l)) U
      V = { W with v := V.v, mon := V.mon, paths := V.paths } := fun n d val ls U hU =>
    List.foldlRecOn (motive := fun V : Warp => V = { W with v := V.v, mon := V.mon, paths := V.paths }) ls _ hU fun V hV l _ => by
      cases n
      · rw [hV]; rfl
      · exact hV
  have hwake : ∀ (U : Warp) (r : Nat), U = { W with v := U.v, mon := U.mon, paths := U.paths } →
      U.wakePath (fun _ => false) r = { W with
        v := (U.wakePath (fun _ => false) r).v, mon := (U.wakePath (fun _ => false) r).mon
        paths := (U.wakePath (fun _ => false) r).paths } := fun U r hU => by
    unfold Warp.wakePath
    split
    · exact hU
    split
    · dsimp only
      split
      next P _ _ _ n d _ hfired =>
        have hset := hsetReg n d.toNat (fun l => if (match tget none U.mon l with | some m => m.fired | none => false) then 1 else 0)
          (lanesOf P.lanes) U hU
        exact congrArg (fun V : Warp => ({ V with mon := _ } : Warp).modPath r fun P => { P with block := none }) hset
      · exact hU
    · exact hU
  unfold Warp.fireMon Warp.wakeMon
  exact List.foldlRecOn (motive := fun V : Warp => V = { W with v := V.v, mon := V.mon, paths := V.paths }) _ _ rfl
    fun V hV r _ => hwake V r hV

theorem fireMon_rests (W : Warp) (hit : Monitor → Bool) : W.Rests (W.fireMon hit) := by
  have hfired := fireMon_spec W hit
  obtain ⟨hrun, -, hno⟩ := hfired
  refine ⟨?_, onlyFired_pathsRest (fireMon_spec W hit), .inl hrun, fun hW => ?_⟩
  · rw [hrun]
    exact fireMon_frame W hit
  · rw [hno hW]
    exact ⟨hW, rfl⟩

/-- A path that no longer waits. -/
def Path.stopped (P : Path) : Path := { P with wait := none, got := [] }

theorem stopped_unwaiting (P : Path) : P.stopped.unwaiting = P.unwaiting := by
  unfold Path.unwaiting Path.unmonitored Path.stopped
  dsimp only
  split <;> rfl

theorem modPath_stopped_rests (W : Warp) (r : Nat) : W.Rests { W.modPath r Path.stopped with running := none } := by
  have hpath : ∀ q, ({ W.modPath r Path.stopped with running := none } : Warp).path q =
      if q = r then (W.path q).map Path.stopped else W.path q := path_modPath W r Path.stopped fun _ => rfl
  refine ⟨rfl, ⟨fun q => ?_, fun q Q k hQ hk => ?_⟩, .inr rfl, fun hW => ⟨fun P hP => ?_, rfl⟩⟩
  · rw [hpath]
    split
    · rw [Option.map_map]
      exact Option.map_congr fun P _ => stopped_unwaiting P
    · rfl
  · rw [hpath] at hQ
    split at hQ
    · obtain ⟨P, -, rfl⟩ := Option.map_eq_some_iff.mp hQ
      exact nomatch hk
    · exact ⟨Q, hQ, hk⟩
  · obtain ⟨P0, hP0, rfl⟩ := List.mem_map.mp hP
    split
    · exact hW P0 hP0
    · exact hW P0 hP0

theorem stopWait_rests (W : Warp) : W.Rests W.stopWait := by
  unfold Warp.stopWait
  split
  · exact .refl W
  next r _ =>
    split
    next P hP =>
      split
      next k hk =>
        split
        · exact modPath_stopped_rests W r
        · exact .refl W
      · exact .refl W
    · exact .refl W

/-! ## A team -/

/-- The warps of `t` are those of `s`, resting. -/
def WarpsRest (s t : State) : Prop := ∀ w, Option.Rel Warp.Rests (s.warp w) (t.warp w)

section
variable {s t u : State}

theorem warpsRest_same (h : ∀ w, t.warp w = s.warp w) : WarpsRest s t := fun w => by
  rw [h]
  cases s.warp w with
  | none => exact .none
  | some W => exact .some (.refl W)

theorem WarpsRest.trans (h : WarpsRest s t) (k : WarpsRest t u) : WarpsRest s u := fun w => by
  have hw := h w
  have kw := k w
  generalize s.warp w = a, t.warp w = b, u.warp w = c at hw kw
  cases hw with
  | none => exact kw
  | some hr =>
    cases kw with
    | some kr => exact .some (hr.trans kr)

theorem WarpsRest.after (h : WarpsRest s t) {w : Nat} {W : Warp} (hW : s.warp w = some W) : ∃ V, t.warp w = some V ∧ W.Rests V := by
  have hw := h w
  rw [hW] at hw
  generalize t.warp w = b at hw
  cases hw with
  | some hr => exact ⟨_, rfl, hr⟩

theorem WarpsRest.before (h : WarpsRest s t) {w : Nat} {V : Warp} (hV : t.warp w = some V) : ∃ W, s.warp w = some W ∧ W.Rests V := by
  have hw := h w
  rw [hV] at hw
  generalize s.warp w = b at hw
  cases hw with
  | some hr => exact ⟨_, rfl, hr⟩

theorem modWarp_rests {f : Warp → Warp} (hf : ∀ W : Warp, W.Rests (f W)) (s : State) (w : Nat) : WarpsRest s (s.modWarp w f) := fun v => by
  rw [State.modWarp_warp]
  split
  · cases s.warp v with
    | none => exact .none
    | some W => exact .some (hf W)
  · exact warpsRest_same (fun _ => rfl) v

/-- The warps of a team that is held rest. -/
theorem holdTeam_rests (s : State) (k : Nat) (f : Hold → Hold) : WarpsRest s (s.holdTeam k f) := by
  unfold State.holdTeam
  split
  · exact warpsRest_same fun _ => rfl
  split
  · exact warpsRest_same fun _ => rfl
  · refine List.foldlRecOn (motive := WarpsRest s) _ _ (warpsRest_same fun _ => rfl) fun t ht w _ => ?_
    exact ht.trans (modWarp_rests (fun W => (stopWait_rests W).trans (fireMon_rests _ _)) t w)

/-! ## Paths that wait -/

theorem waiter_mk {W : Warp} {r v : Nat} {P : Path} {T : Team} {k : Wait} (hW : s.warp v = some W) (hr : W.running = some r)
    (hP : W.path r = some P) (hT : s.team W.team = some T) (hk : P.wait = some k) : s.waiter v = some (⟨v, W, P, T⟩, k) := by
  have hi : ({ s with cur := v } : State).issuing = some ⟨v, W, P, T⟩ := issuing_mk (s := { s with cur := v }) hW hr hP hT
  unfold State.waiter
  rw [hi]
  exact congrArg (Option.map fun k => ((⟨v, W, P, T⟩ : Ix), k)) hk

theorem waiter_wait {v : Nat} {x : Ix} {k : Wait} (h : s.waiter v = some (x, k)) : x.P.wait = some k := by
  unfold State.waiter at h
  split at h
  · cases h
  · obtain ⟨j, hj, hx⟩ := Option.map_eq_some_iff.mp h
    cases hx
    exact hj

theorem waiter_same {v : Nat} (hw : t.warp v = s.warp v) (hteam : ∀ k, t.team k = s.team k) : t.waiter v = s.waiter v := by
  have hi : ({ t with cur := v } : State).issuing = ({ s with cur := v } : State).issuing := by
    unfold State.issuing
    rw [show ({ t with cur := v } : State).warp v = ({ s with cur := v } : State).warp v from hw]
    simp only [show ({ t with cur := v } : State).team = ({ s with cur := v } : State).team from funext hteam]
  unfold State.waiter
  rw [hi]

/-- Among warps that rest no path waits that did not. -/
theorem WarpsRest.waiter (h : WarpsRest s t) (hteam : ∀ k, (t.team k).isSome = true → (s.team k).isSome = true) {v : Nat} {x : Ix}
    {k : Wait} (hx : t.waiter v = some (x, k)) : ∃ y, s.waiter v = some (y, k) := by
  obtain ⟨rfl, hV, hrun, hQ, hT⟩ := waiter_spec hx
  obtain ⟨W, hW, hframe, ⟨-, hwait⟩, hrunning, -⟩ := h.before hV
  obtain ⟨P, hP, hk⟩ := hwait _ _ _ hQ (waiter_wait hx)
  have hsame : x.W.team = W.team := by rw [hframe]
  obtain ⟨T, hT⟩ := Option.isSome_iff_exists.mp (hteam W.team (by rw [← hsame, hT]; rfl))
  have hr : W.running = some x.low := by
    rcases hrunning with hr | hr
    · exact hr.symm.trans hrun
    · exact nomatch hrun.symm.trans hr
  exact ⟨_, waiter_mk hW hr hP hT hk⟩

/-- A fault begins no wait. -/
theorem raise_waiter {x y : Ix} {st : Stop} {tr : Trap} {v : Nat} {k : Wait} (hT : s.team x.W.team = some x.T)
    (h : (raise x s st tr).waiter v = some (y, k)) : ∃ z, s.waiter v = some (z, k) := by
  have hdropped : ∃ u, Shared s u ∧ raise x s st tr = (u.modWarp x.w fun W =>
      { W.modPath x.low (fun P => { P with stop := some st, wait := none, got := [] }) with running := none }).holdTeam x.W.team
        fun h => { h with recs := h.recs ++ [x.record 3 tr.code tr.cause tr.addr tr.aux0 tr.aux1 (tr.lane.getD x.low)] } := by
    unfold raise
    split
    · exact ⟨_, shared_dropLeaf s _ _ _ _, rfl⟩
    · exact ⟨s, .refl s, rfl⟩
  obtain ⟨u, hu, hraise⟩ := hdropped
  rw [hraise] at h
  have hteams : ∀ k, u.team k = s.team k := fun k => by rw [hu.1]; rfl
  obtain ⟨-, -, hothers, -, -⟩ := holdTeam_spec (s := u.modWarp x.w fun W =>
      { W.modPath x.low (fun P => { P with stop := some st, wait := none, got := [] }) with running := none })
    (f := fun h => { h with recs := h.recs ++ [x.record 3 tr.code tr.cause tr.addr tr.aux0 tr.aux1 (tr.lane.getD x.low)] })
    (by rw [State.modWarp_team]; exact (hteams _).trans hT) rfl
  obtain ⟨z, hz⟩ := (holdTeam_rests _ _ _).waiter (fun j hj => by
    by_cases hjk : j = x.W.team
    · rw [hjk, State.modWarp_team, hteams, hT]; rfl
    · rwa [hothers j hjk] at hj) h
  obtain ⟨rfl, hV, hrun, -, -⟩ := waiter_spec hz
  rw [State.modWarp_warp] at hV
  by_cases hv : z.w = x.w
  · rw [if_pos hv] at hV
    obtain ⟨W, -, hW⟩ := Option.map_eq_some_iff.mp hV
    rw [← hW] at hrun
    exact nomatch hrun
  · have hsame : (u.modWarp x.w fun W =>
        { W.modPath x.low (fun P => { P with stop := some st, wait := none, got := [] }) with running := none }).warp z.w = s.warp z.w := by
      rw [State.modWarp_warp, if_neg hv, hu.warp]
    rw [waiter_same hsame fun k => (State.modWarp_team _ _ _ k).trans (hteams k)] at hz
    exact ⟨z, hz⟩

end

end Sys2Proof.Machine
end

section
/-! Errors in returned data (12 R285; 19 R389): the fault of the path that issued an entry, or of the paths that hold its lanes. -/

namespace Sys2Proof.Machine

/-! ## The path that issued an entry goes back (19 R379; log 12) -/

theorem path_modPath_put {W : Warp} {Q P : Path} (hQ : Q ∈ W.paths) (hlow : lowest Q.lanes = lowest P.lanes) :
    (W.modPath (lowest P.lanes) fun _ => P).path (lowest P.lanes) = some P := by
  unfold Warp.path Warp.modPath
  have hput : ∀ ps : List Path, Q ∈ ps →
      (ps.map fun R => if lowest R.lanes = lowest P.lanes then P else R).find? (fun R => decide (lowest R.lanes = lowest P.lanes)) = some P := by
    intro ps hps
    induction ps with
    | nil => cases hps
    | cons R ps ih =>
      by_cases hR : lowest R.lanes = lowest P.lanes
      · simp [hR]
      · have hne : Q ≠ R := fun h => hR (h ▸ hlow)
        simpa [hR] using ih (List.mem_of_ne_of_mem hne hps)
  exact hput W.paths hQ

/-- A path put back as it stood takes a fault that is none of a translation. -/
theorem raise_back {s : State} {x : Ix} {Q : Path} {st : Stop} {t : Trap} (hW : s.warp x.w = some x.W) (hQ : Q ∈ x.W.paths)
    (hlow : lowest Q.lanes = x.low) (hblock : x.P.block = none) (hT : s.team x.W.team = some x.T) (hcode : t.code ≠ 14)
    (hc : st.code = t.code) : TakesFault s (raise x (s.modWarp x.w fun W => W.modPath x.low fun _ => x.P) st t) x st
      (x.record 3 t.code t.cause t.addr t.aux0 t.aux1 (t.lane.getD x.low)) := by
  let y : Ix := { x with W := x.W.modPath x.low fun _ => x.P }
  have hback : s.modWarp x.w (fun W => W.modPath x.low fun _ => x.P) = s.setWarp x.w y.W := State.modWarp_eq hW _
  rw [hback]
  obtain ⟨hsame, hbytes, hteam, hteams, hwarps, V, P, hV, hrun, hpath, hpc, hlanes, hscene, hstop, hno⟩ :=
    raise_waiting (s := s.setWarp x.w y.W) (x := y) (st := st) (State.setWarp_warp_same s x.w y.W) (path_modPath_put hQ hlow) hT hcode hc
  refine ⟨?_, hbytes, hteam, hteams, fun v hv hslots => ?_, V, P, hV, hrun, hpath, hpc, hlanes, hscene, hstop, fun hquiet => hno ?_⟩
  · have hst : st.code ≠ 14 := fun h => hcode (hc.symm.trans h)
    rw [if_neg hst] at hsame ⊢
    exact hsame
  · exact (hwarps v hv hslots).trans ((State.setWarp_warp s x.w y.W v).trans (if_neg hv))
  · intro R hR
    obtain ⟨R0, hR0, rfl⟩ := List.mem_map.mp hR
    split
    · rw [hblock]
      exact fun _ _ _ h => nomatch h
    · exact hquiet R0 hR0

/-- The path that issued an entry is one of its warp, not blocked, as it stood. -/
theorem issuerOf_spec {s : State} {o : Outst} {x : Ix} {len : Nat} {e : Bool} (h : s.issuerOf o = some (x, len, e)) :
    s.warp x.w = some x.W ∧ s.team x.W.team = some x.T ∧ x.P.block = none ∧ ∃ Q ∈ x.W.paths, lowest Q.lanes = x.low := by
  unfold State.issuerOf at h
  split at h
  · cases h
  next W hW =>
    split at h
    next P T hP hT =>
      dsimp only at h
      split at h
      next hlast =>
        cases h
        simp only [Bool.and_eq_true, Option.isNone_iff_eq_none] at hlast
        obtain ⟨⟨⟨⟨_, hblock⟩, _⟩, _⟩, _⟩ := hlast
        exact ⟨hW, hT, hblock, P, List.mem_of_find?_eq_some hP, rfl⟩
      · cases h
    · cases h

/-- An error in the data of an entry whose instruction is still its path's last: the path goes back to it and takes the fault. -/
theorem backOut_issuer {s : State} {o : Outst} {x : Ix} {len : Nat} {e : Bool} {t : Trap} (h : s.issuerOf o = some (x, len, e))
    (hcode : t.code ≠ 14) : TakesFault { s with loads := s.loads.filter fun q => decide (q.grp ≠ o.grp) } (s.backOut o t) x
      ⟨t.code, t.cause, len, e, none, false⟩ (x.record 3 t.code t.cause t.addr t.aux0 t.aux1 (t.lane.getD x.low)) := by
  obtain ⟨hW, hT, hblock, Q, hQ, hlow⟩ := issuerOf_spec h
  unfold State.backOut
  rw [h]
  exact raise_back (s := { s with loads := s.loads.filter fun q => decide (q.grp ≠ o.grp) }) hW hQ hlow hblock hT hcode rfl

/-! ## The path has gone on (19 R379, R384) -/

/-- A path after `Warp.stopLate`. -/
def Path.stoppedLate (k : Stop) (hit : Mask) (P : Path) : Path :=
  if P.stopsLate hit then { P with stop := some k, wait := none, got := [] } else P

theorem stoppedLate_spec (k : Stop) (hit : Mask) (P : Path) :
    (P.stoppedLate k hit).pc = P.pc ∧ (P.stoppedLate k hit).lanes = P.lanes ∧ (P.stoppedLate k hit).scene = P.scene ∧
    (P.stoppedLate k hit).stop = if P.stop = none ∧ P.lanes &&& hit ≠ 0 then some k else P.stop := by
  have hiff : P.stopsLate hit = true ↔ P.stop = none ∧ P.lanes &&& hit ≠ 0 := by simp [Path.stopsLate]
  unfold Path.stoppedLate
  by_cases hs : P.stopsLate hit = true
  · rw [if_pos hs, if_pos (hiff.mp hs)]
    exact ⟨rfl, rfl, rfl, rfl⟩
  · rw [if_neg hs, if_neg (hiff.not.mp hs)]
    exact ⟨rfl, rfl, rfl, rfl⟩

theorem path_stopLate (W : Warp) (k : Stop) (hit : Mask) (r : Nat) :
    (W.stopLate k hit).path r = (W.path r).map (Path.stoppedLate k hit) := by
  have hkey : (fun P : Path => decide (lowest P.lanes = r)) ∘ Path.stoppedLate k hit = fun P => decide (lowest P.lanes = r) := by
    funext P
    obtain ⟨-, hlanes, -, -⟩ := stoppedLate_spec k hit P
    rw [Function.comp_apply, hlanes]
  show (W.paths.map (Path.stoppedLate k hit)).find? (fun P => decide (lowest P.lanes = r)) = _
  rw [List.find?_map, hkey]
  rfl

theorem noMonwait_stopLate {W : Warp} (h : W.noMonwait) (k : Stop) (hit : Mask) : (W.stopLate k hit).noMonwait := by
  intro P hP
  obtain ⟨P0, hP0, rfl⟩ := List.mem_map.mp hP
  split <;> exact h P0 hP0

theorem Warp.Rests.body_eq {W V : Warp} (h : W.Rests V) (hW : W.noMonwait) :
    { V with paths := [], running := none, mon := [] } = { W with paths := [], running := none, mon := [] } := by
  obtain ⟨hframe, -, -, hno⟩ := h
  obtain ⟨-, hv⟩ := hno hW
  rw [hframe, hv]

/-- An error in the data of an entry whose path has gone on stops the paths that hold its lanes. -/
theorem lateFault_spec (s : State) (o : Outst) (t : Trap) (hit : Mask) : LateFault s (s.lateFault o t hit) o t hit := by
  intro W T hW hT
  unfold State.lateFault
  simp only [hW, hT]
  have hdropped : Shared s (if t.code = 14 then s.dropLeaf (o.issuer W T).core T.ctx t.addr t.cause else s) := by
    split
    · exact shared_dropLeaf s _ _ _ _
    · exact .refl s
  have hcore : (o.issuer W T).core = coreOf o.w := rfl
  rw [hcore] at hdropped ⊢
  generalize (if t.code = 14 then s.dropLeaf (coreOf o.w) T.ctx t.addr t.cause else s) = u at hdropped ⊢
  have hteams : ∀ k, u.team k = s.team k := fun k => by rw [hdropped.1]; rfl
  let stop : Stop := ⟨t.code, t.cause, 0, false, none, false⟩
  have hstopped : u.modWarp o.w (fun W => W.stopLate stop hit) = u.setWarp o.w (W.stopLate stop hit) :=
    State.modWarp_eq ((hdropped.warp _).trans hW) _
  rw [hstopped]
  obtain ⟨hsame, hteam, hothers, hwarps, -⟩ := holdTeam_spec (s := u.setWarp o.w (W.stopLate stop hit)) (k := W.team) (T := T)
    (f := fun h => { h with recs := h.recs ++
      [(o.issuer W T).record 3 t.code t.cause t.addr t.aux0 t.aux1 (t.lane.getD o.lane)] }) ((hteams _).trans hT) rfl
  obtain ⟨V, hV, hrests⟩ := (holdTeam_rests (u.setWarp o.w (W.stopLate stop hit)) W.team _).after (State.setWarp_warp_same _ _ _)
  refine ⟨hsame, ⟨_, hteam, ?_⟩, fun k hk => (hothers k hk).trans (hteams k), fun v hv hslots => ?_, V, hV, fun hno => ?_,
    fun r P hP => ?_⟩
  · cases T.hold <;> rfl
  · rw [hwarps v hslots, State.setWarp_warp, if_neg hv, hdropped.warp]
  · exact hrests.body_eq (noMonwait_stopLate hno stop hit)
  · obtain ⟨-, hpaths, -, -⟩ := hrests
    obtain ⟨Q, hQ, hpc, hlanes, hscene, hstop⟩ := hpaths.stands ((path_stopLate W stop hit r).trans (congrArg _ hP))
    obtain ⟨kpc, klanes, kscene, kstop⟩ := stoppedLate_spec stop hit P
    exact ⟨Q, hQ, hpc.trans kpc, hlanes.trans klanes, hscene.trans kscene, hstop.trans kstop⟩

end Sys2Proof.Machine
end

section
/-! Queries of cue tables and loads whose data carry an error (O17): what QUERY_TRANSACTION and LOAD_DATA_RETURN then do. -/

namespace Sys2Proof.Machine

/-! ## What becomes of the entry (12 R285; 19 R389; log 12) -/

section
variable {s : State} {o : Outst} {t : Trap}

/-- The path that issued an entry does not depend on the values and kinds of the entries. -/
theorem issuerOf_map {f : Outst → Outst} (hf : ∀ q : Outst, f q = { q with value := (f q).value, kind := (f q).kind }) :
    ({ s with loads := s.loads.map f } : State).issuerOf (f o) = s.issuerOf o := by
  have hgrp : ∀ q, (f q).grp = q.grp := fun q => by rw [hf q]
  have hlane : ∀ q, (f q).lane = q.lane := fun q => by rw [hf q]
  have hw : (f o).w = o.w := by rw [hf o]
  have hpc : (f o).pc = o.pc := by rw [hf o]
  have hscene : (f o).scene = o.scene := by rw [hf o]
  have hcount : (f o).count = o.count := by rw [hf o]
  have hsize : (f o).size = o.size := by rw [hf o]
  have hmine : (s.loads.map f).filter (fun q => decide (q.grp = o.grp)) = (s.loads.filter fun q => decide (q.grp = o.grp)).map f := by
    rw [List.filter_map]
    simp only [Function.comp_def, hgrp]
  unfold State.issuerOf
  simp only [hw, hgrp, hlane, hpc, hscene, hcount, hsize, hmine, List.length_map, List.all_map, Function.comp_def]
  rfl

/-- A late error in the entries of a CUE fails all of them. -/
theorem backOut_cueBad (h : s.issuerOf o = none) (hkind : o.kind = .cueBad) (hreg : o.nreg ≠ 0) : s.backOut o t =
    State.lateFault { s with loads := s.loads.map fun q => if q.grp = o.grp then { q with failed := true, kind := .cue } else q } o t
      (maskOf ((s.loads.filter fun q => decide (q.grp = o.grp)).map (·.lane))) := by
  unfold State.backOut
  simp only [h, hkind, hreg, false_and, if_false, if_true, decide_eq_true_eq]

/-- A late error in a load fails it. -/
theorem backOut_load (h : s.issuerOf o = none) (hkind : o.kind = .load) (hreg : o.nreg ≠ 0) : s.backOut o t =
    State.lateFault { s with loads := s.loads.map fun q => if q.id = o.id then { q with failed := true } else q } o t
      (maskOf ((s.loads.filter fun q => decide (q.id = o.id)).map (·.lane))) := by
  unfold State.backOut
  simp only [h, hkind, hreg, false_and, if_false, reduceCtorEq, decide_eq_true_eq]

/-- A load that writes no register is dropped. -/
theorem backOut_discarded (h : s.issuerOf o = none) (hkind : o.kind = .load) (hreg : o.nreg = 0) :
    s.backOut o t = { s with loads := s.loads.filter fun q => decide (q.id ≠ o.id) } := by
  have hdrop : o.nreg = 0 ∧ o.kind ≠ .monitor := ⟨hreg, by rw [hkind]; exact fun h => nomatch h⟩
  unfold State.backOut
  rw [h]
  exact if_pos hdrop

end

/-! ## QUERY_TRANSACTION (12 R285, R288, R290) -/

/-- An entry of a table that the transaction of a row returns: it has left the collector. -/
def Outst.comes (row : Nat) (q : Outst) : Bool :=
  decide (q.kind = .cue) && q.coll.isNone && decide ((q.addrs.headD (0, 0)).2 / 1024 = row)

/-- The entry after the transaction of a row for the CUE `grp`, with errors in the lanes `bad`. -/
def State.returned (s : State) (grp row : Nat) (bad : BitVec 64) (q : Outst) : Outst :=
  if q.grp = grp ∧ q.comes row = true then
    { q with value := BitVec.ofNat 128 (s.cueValue q), kind := if bad.getLsbD q.lane then .cueBad else .cueGot }
  else q

section
variable {s : State} {grp row : Nat} {bad : BitVec 64}

theorem returned_frame (q : Outst) :
    s.returned grp row bad q = { q with value := (s.returned grp row bad q).value, kind := (s.returned grp row bad q).kind } := by
  unfold State.returned
  split <;> rfl

theorem returned_grp (q : Outst) : (s.returned grp row bad q).grp = q.grp := by rw [returned_frame]
theorem returned_lane (q : Outst) : (s.returned grp row bad q).lane = q.lane := by rw [returned_frame]
theorem returned_nreg (q : Outst) : (s.returned grp row bad q).nreg = q.nreg := by rw [returned_frame]

/-- Where all entries of a CUE come, none of them is awaited any more, and those with errors are known. -/
theorem returned_kind {q : Outst} (hgrp : q.grp = grp) (hcomes : q.kind = .cue → q.comes row = true) :
    (s.returned grp row bad q).kind ≠ .cue ∧
    ((s.returned grp row bad q).kind = .cueBad ↔ q.kind = .cueBad ∨ q.comes row = true ∧ bad.getLsbD q.lane = true) := by
  unfold State.returned
  by_cases hq : q.comes row = true
  · have hkind : q.kind = .cue := by
      simp only [Outst.comes, Bool.and_eq_true, decide_eq_true_eq] at hq
      exact hq.1.1
    rw [if_pos ⟨hgrp, hq⟩]
    cases hbad : bad.getLsbD q.lane <;> simp [hq, hkind]
  · rw [if_neg fun h => hq h.2]
    exact ⟨fun h => hq (hcomes h), by simp [hq]⟩

theorem query_eq (hfresh : ∀ q ∈ s.loads, q.grp = grp → q.kind = .cue → q.failed = false)
    (hcomes : ∃ q ∈ s.loads, q.grp = grp ∧ q.comes row = true) : exec (.queryTransaction grp row bad) s =
      .next (State.cueDone { s with loads := s.loads.map (s.returned grp row bad) } grp) := by
  have hnone : s.loads.find? (fun o => decide (o.kind = .cue) && o.failed && decide (o.grp = grp)) = none := by
    refine List.find?_eq_none.mpr fun q hq h => ?_
    simp only [Bool.and_eq_true, decide_eq_true_eq] at h
    obtain ⟨⟨hkind, hfailed⟩, hgrp⟩ := h
    exact nomatch (hfresh q hq hgrp hkind).symm.trans hfailed
  have hmine : ∀ q : Outst, (decide (q.kind = .cue) && decide (q.grp = grp) && q.coll.isNone &&
      decide ((q.addrs.headD (0, 0)).2 / 1024 = row)) = true ↔ q.grp = grp ∧ q.comes row = true := fun q => by
    simp only [Outst.comes, Bool.and_eq_true, decide_eq_true_eq]
    tauto
  have hany : (s.loads.any fun o => decide (o.kind = .cue) && decide (o.grp = grp) && o.coll.isNone &&
      decide ((o.addrs.headD (0, 0)).2 / 1024 = row)) = true := by
    obtain ⟨q, hq, hcome⟩ := hcomes
    exact List.any_eq_true.mpr ⟨q, hq, (hmine q).mpr hcome⟩
  show execQueryTransaction grp row bad s = _
  unfold execQueryTransaction
  simp only [hnone, hany, hmine, Bool.not_true, Bool.false_eq_true, if_false]
  rfl

/-- The first entry of a CUE with an error that would write a register is the one whose fault is taken. -/
theorem cueDone_bad {qs pre post : List Outst} {o : Outst} (hqs : s.loads.filter (fun q => decide (q.grp = grp)) = qs)
    (hsplit : qs = pre ++ o :: post) (hkinds : ∀ q ∈ qs, q.kind ≠ .cue) (hbad : o.kind = .cueBad) (hreg : o.nreg ≠ 0)
    (hpre : ∀ q ∈ pre, ¬ (q.kind = .cueBad ∧ q.nreg ≠ 0)) :
    s.cueDone grp = s.backOut o (Trap.table 5 ((o.addrs.headD (0, 0)).1 / 2 ^ 32) ((o.addrs.headD (0, 0)).1 % 2 ^ 32) (some o.lane)) := by
  have hany : qs.any (fun q => decide (q.kind = .cue)) = false := List.any_eq_false.mpr fun q hq => by simp [hkinds q hq]
  have hfind : qs.find? (fun q => decide (q.kind = .cueBad) && decide (q.nreg ≠ 0)) = some o :=
    List.find?_eq_some_iff_append.mpr ⟨by simp [hbad, hreg], pre, post, hsplit, fun q hq => by simpa [← imp_iff_not_or] using hpre q hq⟩
  unfold State.cueDone
  simp only [hqs, hany, hfind, Bool.false_eq_true, if_false]

end

/-- An entry of a CUE that carries an error and would write a register. -/
def Outst.wrong (row : Nat) (bad : BitVec 64) (q : Outst) : Prop :=
  q.nreg ≠ 0 ∧ (q.kind = .cueBad ∨ q.comes row = true ∧ bad.getLsbD q.lane = true)

/-- The table fault of the entry `o` (12 R290). -/
def Outst.tableTrap (o : Outst) : Trap :=
  Trap.table 5 ((o.addrs.headD (0, 0)).1 / 2 ^ 32) ((o.addrs.headD (0, 0)).1 % 2 ^ 32) (some o.lane)

/-- The state after the last transaction of a CUE, whose first entry with an error is `o`. -/
def State.wrongEntry (s : State) (grp row : Nat) (bad : BitVec 64) (o : Outst) : State :=
  State.backOut { s with loads := s.loads.map (s.returned grp row bad) } (s.returned grp row bad o) o.tableTrap

section
variable {s : State} {grp row : Nat} {bad : BitVec 64} {o : Outst} {pre post : List Outst}

theorem mem_grp {q : Outst} : q ∈ s.loads.filter (fun q => decide (q.grp = grp)) ↔ q ∈ s.loads ∧ q.grp = grp := by
  rw [List.mem_filter, decide_eq_true_eq]

/-- Once all entries of a CUE have come, those with errors that would write a register are the wrong ones. -/
theorem returned_wrong {q : Outst} (hgrp : q.grp = grp) (hcomes : q.kind = .cue → q.comes row = true) :
    ((s.returned grp row bad q).kind = .cueBad ∧ (s.returned grp row bad q).nreg ≠ 0) ↔ q.wrong row bad := by
  rw [(returned_kind hgrp hcomes).2, returned_nreg, and_comm]
  rfl

section
variable (hall : s.loads.filter (fun q => decide (q.grp = grp)) = pre ++ o :: post)
  (hcomes : ∀ q ∈ s.loads.filter (fun q => decide (q.grp = grp)), q.kind = .cue → q.comes row = true ∧ q.failed = false)
  (hwrong : o.wrong row bad)
include hall hcomes hwrong

theorem query_backsOut (hsome : ∃ q ∈ s.loads.filter (fun q => decide (q.grp = grp)), q.comes row = true)
    (hpre : ∀ q ∈ pre, ¬ q.wrong row bad) : exec (.queryTransaction grp row bad) s = .next (s.wrongEntry grp row bad o) := by
  have hfresh : ∀ q ∈ s.loads, q.grp = grp → q.kind = .cue → q.failed = false := fun q hq hgrp hkind =>
    (hcomes q (mem_grp.mpr ⟨hq, hgrp⟩) hkind).2
  have hany : ∃ q ∈ s.loads, q.grp = grp ∧ q.comes row = true := by
    obtain ⟨q, hq, hcome⟩ := hsome
    exact ⟨q, (mem_grp.mp hq).1, (mem_grp.mp hq).2, hcome⟩
  have hqs : (s.loads.map (s.returned grp row bad)).filter (fun q => decide (q.grp = grp)) =
      pre.map (s.returned grp row bad) ++ s.returned grp row bad o :: post.map (s.returned grp row bad) := by
    rw [← List.map_cons, ← List.map_append, ← hall, List.filter_map]
    simp only [Function.comp_def, returned_grp]
  have hin : ∀ q ∈ pre ++ o :: post, q.grp = grp ∧ (q.kind = .cue → q.comes row = true) := fun q hq => by
    rw [← hall] at hq
    exact ⟨(mem_grp.mp hq).2, fun hkind => (hcomes q hq hkind).1⟩
  obtain ⟨hgrp, hcome⟩ := hin o (List.mem_append_right _ List.mem_cons_self)
  obtain ⟨hbad, hreg⟩ := (returned_wrong (s := s) hgrp hcome).mpr hwrong
  rw [query_eq hfresh hany, cueDone_bad hqs rfl (fun q hq => ?_) hbad hreg fun q hq => ?_]
  · unfold State.wrongEntry Outst.tableTrap
    rw [returned_frame o]
  · rw [← List.map_cons, ← List.map_append] at hq
    obtain ⟨q0, hq0, rfl⟩ := List.mem_map.mp hq
    obtain ⟨hgrp0, hcome0⟩ := hin q0 hq0
    exact (returned_kind hgrp0 hcome0).1
  · obtain ⟨q0, hq0, rfl⟩ := List.mem_map.mp hq
    obtain ⟨hgrp0, hcome0⟩ := hin q0 (List.mem_append_left _ hq0)
    exact (returned_wrong hgrp0 hcome0).not.mpr (hpre q0 hq0)

/-- Where its path has gone on, all queries of the CUE are to be made anew. -/
theorem wrongEntry_late (hissuer : s.issuerOf o = none) :
    LateFault { s with loads := s.loads.map fun q =>
        if q.grp = grp then { q with
          failed := true, kind := .cue, value := if q.comes row then BitVec.ofNat 128 (s.cueValue q) else q.value }
        else q } (s.wrongEntry grp row bad o) o o.tableTrap
      (maskOf ((s.loads.filter fun q => decide (q.grp = grp)).map (·.lane))) := by
  have ho : o ∈ s.loads.filter fun q => decide (q.grp = grp) := hall ▸ List.mem_append_right _ List.mem_cons_self
  obtain ⟨-, hgrp⟩ := mem_grp.mp ho
  have hfailed : (s.loads.map (s.returned grp row bad)).map (fun q => if q.grp = grp then { q with failed := true, kind := .cue } else q) =
      s.loads.map fun q => if q.grp = grp then { q with
        failed := true, kind := .cue, value := if q.comes row then BitVec.ofNat 128 (s.cueValue q) else q.value } else q := by
    rw [List.map_map]
    refine List.map_congr_left fun q _ => ?_
    simp only [Function.comp_apply, returned_grp]
    unfold State.returned
    by_cases hq : q.grp = grp
    · by_cases hc : q.comes row = true <;> simp [hq, hc]
    · simp [hq]
  have hlanes : ((s.loads.map (s.returned grp row bad)).filter fun q => decide (q.grp = grp)).map (·.lane) =
      (s.loads.filter fun q => decide (q.grp = grp)).map (·.lane) := by
    simp only [List.filter_map, List.map_map, Function.comp_def, returned_grp, returned_lane]
  obtain ⟨hbad, hreg⟩ := (returned_wrong (s := s) hgrp fun hk => (hcomes o ho hk).1).mpr hwrong
  unfold State.wrongEntry
  rw [backOut_cueBad ((issuerOf_map returned_frame).trans hissuer) hbad hreg, returned_grp, hgrp]
  simp only [hfailed, hlanes]
  rw [returned_frame o]
  exact lateFault_spec _ _ _ _

end

/-- Where its instruction is still its path's last, the path goes back to it and takes the fault. -/
theorem wrongEntry_back {x : Ix} {len : Nat} {e : Bool} (hgrp : o.grp = grp) (hissuer : s.issuerOf o = some (x, len, e)) :
    TakesFault { s with loads := s.loads.filter fun q => decide (q.grp ≠ grp) } (s.wrongEntry grp row bad o) x ⟨18, 5, len, e, none, false⟩
      (x.record 3 18 5 0 ((o.addrs.headD (0, 0)).1 / 2 ^ 32) ((o.addrs.headD (0, 0)).1 % 2 ^ 32) o.lane) := by
  have hothers : (s.loads.map (s.returned grp row bad)).filter (fun q => decide (q.grp ≠ grp)) =
      s.loads.filter fun q => decide (q.grp ≠ grp) := by
    rw [List.filter_map]
    simp only [Function.comp_def, returned_grp]
    refine (List.map_congr_left fun q hq => ?_).trans (List.map_id _)
    exact if_neg fun h => (of_decide_eq_true (List.mem_filter.mp hq).2) h.1
  have hfault := backOut_issuer (t := o.tableTrap) ((issuerOf_map (returned_frame (s := s) (grp := grp) (row := row) (bad := bad))).trans hissuer)
    (by decide : (18 : Nat) ≠ 14)
  simp only [returned_grp, hgrp, hothers] at hfault
  exact hfault

end

end Sys2Proof.Machine
end

section
/-! The faults of loads whose data carry an error, of MASH, HANG and UNHANG, and of the casting engine (O17). -/

namespace Sys2Proof.Machine

/-! ## LOAD_DATA_RETURN (19 R389 code 23) -/

/-- A load cannot have its value: an uncorrectable error, a link that is down, or a device's error; `s1` is what the attempt
makes of the state. -/
def State.LoadFails (s s1 : State) (o : Outst) (err : Bool) : Prop :=
  let pa := (o.addrs.headD (0, 0)).2
  uncached pa = false ∧ s1 = s ∧ (err = true ∨ s.served o = false) ∨
    uncached pa = true ∧ s.devFirst o.w o.lane o.id = true ∧ s1 = (s.devRead pa o.peer).1 ∧
      (err = true ∨ (s.devRead pa o.peer).2 = none)

section
variable {s s1 : State} {id : Nat} {err : Bool} {o : Outst}

theorem returnLoad_fails (h : s.LoadFails s1 o err) : s.returnLoad o err = s1.failLoad o := by
  unfold State.returnLoad
  rcases h with ⟨hmem, rfl, hfail⟩ | ⟨hdev, hfirst, rfl, hfail⟩
  · have hno : (s1.served o && !err) = false := by rcases hfail with hfail | hfail <;> simp [hfail]
    rw [if_neg (Bool.eq_false_iff.mp hmem), hno]
    rfl
  · unfold State.devReturn
    rw [if_pos hdev, if_pos hfirst]
    dsimp only
    split
    next v hv =>
      rcases hfail with hfail | hfail
      · rw [if_pos hfail]
      · exact nomatch hv.symm.trans hfail
    · rfl

theorem loadReturn_fails (hfind : s.loads.find? (fun q => decide (q.id = id)) = some o) (hcoll : o.coll = none) (hkind : o.kind = .load)
    (hfailed : o.failed = false) (hbefore : s.loadBefore o = false) (h : s.LoadFails s1 o err) : exec (.loadDataReturn id err) s =
      .next (s1.backOut o (dataTrap (o.addrs.headD (0, 0)).1 o.lane)) := by
  show execLoadDataReturn id err s = _
  unfold execLoadDataReturn
  simp only [hfind, hcoll, hkind, hfailed, hbefore, Option.isSome_none, Bool.false_eq_true, if_false, returnLoad_fails h]
  rfl

end

/-! ## MASH, HANG and UNHANG (12 R290; 15 R317) -/

section
variable {s : State} {x : Ix}

theorem mash_unconverged {e clr half : Bool} {d a : BitVec 7} {bsel fa fw : BitVec 2} {pm1 : BitVec 4} {kg : BitVec 5} {bmask : BitVec 16}
    (hs : Starts s x (.mash e d a bsel clr fa fw pm1 kg half bmask)) (h : x.P.lanes ≠ x.W.live) :
    Traps s x (.mash e d a bsel clr fa fw pm1 kg half bmask) ⟨7, 0, 0, x.P.lanes.toNat, (x.W.live &&& ~~~x.P.lanes).toNat, none⟩ :=
  takes_fault hs rfl (if_pos h)

theorem unhang_unbound {e : Bool} {h : BitVec 4} (hs : Starts s x (.unhang e h))
    (hH : ∀ pa rows ew rel, s.handle x.T.ctx h.toNat ≠ .hung pa rows ew rel) :
    Traps s x (.unhang e h) (Trap.table 1 h.toNat 0 none) := by
  refine takes_fault hs rfl ?_
  split
  next pa rows ew rel hh => exact absurd hh (hH pa rows ew rel)
  · rfl

/-- The checks of HANG, in their order. -/
def Ix.hangChecks (x : Ix) (s : State) (ga gb : BitVec 6) (h : BitVec 4) : List (Prop × Trap) :=
  let H := s.handle x.T.ctx h.toNat
  let desc := (x.W.greg gb.toNat).toNat
  let rows := desc % 2 ^ 7
  let va := (x.W.greg ga.toNat).toNat % 2 ^ 56
  let tl := x.xlate s .fresh x.low [va]
  [(H ≠ .unbound, Trap.table 3 h.toNat 0 none),
    (rows = 0 ∨ 64 < rows ∨ desc / 2 ^ 7 % 2 ≠ 0 ∨ desc / 2 ^ 8 % 4 = 3 ∨ desc / 2 ^ 10 ≠ 0, Trap.operand gb.toNat),
    (va % 1024 ≠ 0, ⟨10, 0, va, 0, 0, none⟩),
    (tl.toOption = none, match tl with | .error t => { t with lane := none } | .ok _ => Trap.of 0),
    (∃ m, tl = .ok m ∧ (s.inArena m.pa = false ∨ 65536 < m.pa % 65536 + 1024 * rows), Trap.table 4 h.toNat 0 none)]

theorem hang_faults {e : Bool} {gd ga gb : BitVec 6} {h : BitVec 4} (hu : UsableG s x [gd.toNat, ga.toNat, gb.toNat])
    (hs : Starts s x (.hang e gd ga gb h)) : FaultsInOrder s s x (.hang e gd ga gb h) (x.hangChecks s ga gb h) := by
  have hbit : (x.W.greg gb.toNat).getLsbD 7 = true ↔ (x.W.greg gb.toNat).toNat / 2 ^ 7 % 2 ≠ 0 := by
    rw [← BitVec.testBit_toNat, Nat.testBit_eq_decide_div_mod_eq, decide_eq_true_eq]
    omega
  intro k p tr hk hp hbefore
  have hnot : ∀ (j : Nat) {q : Prop} {tr' : Trap}, (x.hangChecks s ga gb h)[j]? = some (q, tr') → j < k → ¬ q := fun j q tr' hj hlt =>
    hbefore j q tr' hlt hj
  refine takes_fault hs rfl ?_
  rw [withUniform_usable hu]
  simp only [hbit]
  rcases k with _ | _ | _ | _ | _ | k
  · cases hk
    exact if_pos hp
  · cases hk
    rw [if_neg (hnot 0 rfl (by omega))]
    exact if_pos (by tauto)
  · cases hk
    have hdesc := hnot 1 rfl (by omega)
    rw [if_neg (hnot 0 rfl (by omega)), if_neg (by tauto)]
    exact if_pos hp
  · cases hk
    have hdesc := hnot 1 rfl (by omega)
    rw [if_neg (hnot 0 rfl (by omega)), if_neg (by tauto), if_neg (hnot 2 rfl (by omega))]
    cases htl : x.xlate s .fresh x.low [(x.W.greg ga.toNat).toNat % 2 ^ 56] with
    | error t => rfl
    | ok m =>
      rw [htl] at hp
      exact nomatch hp
  · cases hk
    have hdesc := hnot 1 rfl (by omega)
    rw [if_neg (hnot 0 rfl (by omega)), if_neg (by tauto), if_neg (hnot 2 rfl (by omega))]
    obtain ⟨m, hm, hblock⟩ := hp
    rw [hm]
    exact if_pos (by rwa [Bool.not_eq_true'])
  · cases hk

end

end Sys2Proof.Machine
end

section
/-! What the reads of a casting instruction leave unchanged (10 R245; 17 R360 to R368). -/

namespace Sys2Proof.Machine

/-- Between `s` and `t` a casting instruction has only read: as `Polled`, and lines have left L1s (10 R245). -/
def Streamed (s t : State) : Prop :=
  t = { s with mem := t.mem, mscHeld := t.mscHeld, mscDirty := t.mscDirty, dirty := t.dirty, dir := t.dir, tlb := t.tlb
               l1 := t.l1, sems := t.sems, sent := t.sent, free := t.free }

theorem Streamed.refl (s : State) : Streamed s s := rfl

theorem Polled.streamed {s t : State} (h : Polled s t) : Streamed s t := by
  unfold Streamed
  rw [h]

section
variable {s t u : State}

theorem Streamed.trans (h : Streamed s t) (k : Streamed t u) : Streamed s u := by
  unfold Streamed at *
  rw [k, h]
theorem Streamed.warps (h : Streamed s t) : t.warps = s.warps := by rw [h]
theorem Streamed.teams (h : Streamed s t) : t.teams = s.teams := by rw [h]
theorem Streamed.issuing (h : Streamed s t) : t.issuing = s.issuing := by rw [h]; rfl

theorem streamed_l1Pass (s : State) (core ctx : Nat) (vas : List Nat) : Streamed s (s.l1Pass core ctx vas) := rfl

/-- A fault after what a casting instruction reads is taken from there. -/
theorem trapsIn_streamed {x : Ix} {i : Instr} {tr : Trap} {body : Ix → Res} (h : Starts s x i) (hx : exec i s = run i s body)
    (hu : Streamed s u) (hb : body x = .trap u tr) : TrapsIn s u x i tr :=
  ⟨_, by rw [hx, run_starts h, hb]; rfl, raise_spec (hu.issuing.trans h.1) rfl rfl⟩

end

/-! ## Streams and records -/

section
variable {x : Ix} {s t u : State} {lane va n : Nat}

theorem streamed_streamRead (x : Ix) (lane va n : Nat) (h : Streamed s u) : Streamed s (readTo (x.streamRead u lane va n)) := by
  unfold Ix.streamRead
  split
  · exact h
  next as _ =>
    have hleaves := h.trans (shared_keepLeaves x u as).polled.streamed
    dsimp only
    split
    · exact hleaves
    · have hpass := hleaves.trans (streamed_l1Pass _ x.core x.T.ctx (as.flatMap (·.vas)))
      obtain ⟨herr, hok⟩ := polled_readAll x as ((x.keepLeaves u as).l1Pass x.core x.T.ctx (as.flatMap (·.vas)))
      split
      next hr => exact hpass.trans (herr _ _ hr).streamed
      next hr => exact hpass.trans (hok _ _ hr).streamed

/-- A read that went well, and one that met a data error, leave the state that it gives. -/
theorem streamed_ok {α : Type} {r : Except (State × Trap) (State × α)} {v : α} (hr : r = .ok (t, v)) (h : Streamed s (readTo r)) :
    Streamed s t := by
  rwa [hr] at h
theorem streamed_error {α : Type} {r : Except (State × Trap) (State × α)} {tr : Trap} (hr : r = .error (t, tr))
    (h : Streamed s (readTo r)) : Streamed s t := by
  rwa [hr] at h

theorem streamRead_ok {v : Nat} (hr : x.streamRead u lane va n = .ok (t, v)) (h : Streamed s u) : Streamed s t :=
  streamed_ok hr (streamed_streamRead x lane va n h)
theorem streamRead_error {tr : Trap} (hr : x.streamRead u lane va n = .error (t, tr)) (h : Streamed s u) : Streamed s t :=
  streamed_error hr (streamed_streamRead x lane va n h)

/-- The records of a command. -/
theorem streamed_castRecords (x : Ix) (s : State) (mode va : Nat) : Streamed s (readTo (x.castRecords s mode va)) := by
  unfold Ix.castRecords
  split
  next ha => exact streamRead_error ha (.refl s)
  next t a ha =>
    have h1 := streamRead_ok ha (.refl s)
    have hsecond : Streamed s (readTo (if mode = 2 then .ok (t, 0) else x.streamRead t x.low (va + 32) 32)) := by
      split
      · exact h1
      · exact streamed_streamRead x _ _ _ h1
    split
    next hb => exact streamed_error hb hsecond
    next hb => split <;> exact streamed_ok hb hsecond

/-- The row pointers at both ends of a ROWSPLIT command. -/
theorem streamed_rowEnds (va : Nat) (A B : Stream) (h : Streamed s u) : Streamed s (readTo (x.rowEnds u va A B)) := by
  unfold Ix.rowEnds
  split
  · exact h
  split
  next h0 => exact streamRead_error h0 h
  next h0 =>
    have hu := streamRead_ok h0 h
    split
    next h1 => exact streamRead_error h1 hu
    next h1 =>
      have hv := streamRead_ok h1 hu
      repeat' split
      all_goals exact hv

/-- The search of CASTSPLIT. -/
theorem streamed_splitSearch (va : Nat) (A : Stream) (r0 r1 target : Nat) : ∀ (fuel : Nat) {u : State} (lo hi : Nat), Streamed s u →
    Streamed s (readTo (x.splitSearch va A r0 r1 target fuel u lo hi))
  | 0, _, _, _, h => h
  | fuel + 1, u, lo, hi, h => by
    unfold Ix.splitSearch
    split
    · exact h
    dsimp only
    split
    next hr => exact streamRead_error hr h
    next hr =>
      have hu := streamRead_ok hr h
      repeat' split
      · exact hu
      · exact hu
      · exact streamed_splitSearch va A r0 r1 target fuel _ _ hu
      · exact streamed_splitSearch va A r0 r1 target fuel _ _ hu

end

/-! ## The scans of CAST -/

/-- The state after the reads of a part of a scan. -/
def Got.state {α : Type} : Got α → State
  | .ok s _ _ => s
  | .full s _ _ => s
  | .fault s _ => s

section
variable {x : Ix} {s u : State} {lane raddr n : Nat}

theorem streamed_bind {α β : Type} {g : Got α} {onFull : α → β} {k : State → Nat → α → Got β} (h : Streamed s g.state)
    (hk : ∀ t n v, Streamed s t → Streamed s (k t n v).state) : Streamed s (g.bind onFull k).state := by
  cases g with
  | ok t n v => exact hk t n v h
  | full t n v => exact h
  | fault t tr => exact h

theorem streamed_fault {α : Type} {g : Got α} {tr : Trap} (hg : g = .fault u tr) (h : Streamed s g.state) : Streamed s u := by
  rwa [hg] at h

/-- A search goes on from the state that it has, or from that after reading a word. -/
theorem streamed_search : ∀ (fuel : Nat) {u : State} (n : Nat) (k : Walk) (w : Nat), Streamed s u →
    Streamed s (x.search lane fuel u n k w).state
  | 0, _, _, _, _, h => h
  | fuel + 1, u, n, k, w, h => by
    have ih := @streamed_search fuel
    unfold Ix.search
    split
    · exact h
    · grind [Got.state, streamRead_ok, streamRead_error]

theorem streamed_ended {k : Walk} (h : Streamed s u) : Streamed s (x.ended lane u n k).state := by
  unfold Ix.ended
  split
  · split
    · exact h
    split
    · exact h
    · exact streamed_bind (streamed_search _ _ _ _ h) fun _ _ _ h => h
  · exact h

/-- A head of a bitmap is at hand; one of the other encodings is of one read, or of three. -/
theorem streamed_headOf {strm : Nat} {k : Walk} (h : Streamed s u) : Streamed s (x.headOf lane raddr strm u n k).state := by
  unfold Ix.headOf
  split
  · exact h
  dsimp only
  split
  · split <;> exact h
  · grind [Got.state, streamRead_ok, streamRead_error]
  · grind [Got.state, streamRead_ok, streamRead_error]

theorem streamed_rowPointer {A B : Stream} {i : Nat} {p : Rows} (h : Streamed s u) :
    Streamed s (x.rowPointer lane raddr A B i u n p).state := by
  unfold Ix.rowPointer
  split
  · exact h
  split
  · exact h
  split
  next hr => exact streamRead_error hr h
  next hr =>
    have ht := streamRead_ok hr h
    repeat' split
    all_goals exact ht

/-- One round of INTERSECT, MERGE or EXPAND. -/
theorem streamed_castRound {mode : Nat} {p : Progress} (h : Streamed s u) : Streamed s (x.castRound mode lane raddr u n p).state := by
  unfold Ix.castRound
  refine streamed_bind (streamed_ended h) fun t n ea ht => ?_
  dsimp only
  split
  · split
    · exact ht
    · exact streamed_bind (streamed_headOf ht) fun _ _ _ h => h
  split
  · exact ht
  refine streamed_bind (streamed_ended ht) fun t n eb ht => ?_
  split
  · exact ht
  have hhead : ∀ {t : State} {n strm : Nat} {k : Walk} (ended : Bool), Streamed s t →
      Streamed s (if ended then Got.ok t n k else x.headOf lane raddr strm t n k).state := fun ended ht => by
    cases ended
    · exact streamed_headOf ht
    · exact ht
  exact streamed_bind (hhead _ ht) fun _ _ _ ht => streamed_bind (hhead _ ht) fun _ _ _ h => h

theorem streamed_castScan {mode room : Nat} : ∀ (fuel : Nat) {u : State} (n : Nat) (p : Progress), Streamed s u →
    Streamed s (x.castScan mode lane raddr room fuel u n p).state
  | 0, _, _, _, h => h
  | fuel + 1, u, n, p, h => by
    unfold Ix.castScan
    split
    · exact h
    · exact streamed_bind (streamed_castRound h) fun _ n p h => streamed_castScan fuel n p h

theorem streamed_rowScan {room nzend : Nat} {A B : Stream} : ∀ (fuel : Nat) {u : State} (n : Nat) (p : Rows), Streamed s u →
    Streamed s (x.rowScan lane raddr room A B nzend fuel u n p).state
  | 0, _, _, _, h => h
  | fuel + 1, u, n, p, h => by
    have ih := @streamed_rowScan room nzend A B fuel
    unfold Ix.rowScan
    iterate 4
      split
      · exact h
    refine streamed_bind ?_ fun t n r ht => streamed_bind (streamed_rowPointer ht) fun t n r ht => ?_
    · split
      · exact h
      · exact streamed_rowPointer h
    · grind [Got.state, streamRead_ok, streamRead_error]

end

end Sys2Proof.Machine
end

section
/-! The faults of the casting engine (O17): of its records, of the entries of its streams, and of CASTI, CASTSPLIT and a CAST at
its stop. -/

namespace Sys2Proof.Machine

/-! ## Records and entries (17 R360, R362, R365, R366) -/

section
variable {x : Ix} {s s1 s2 : State} {lane raddr n : Nat} {k : Walk}

theorem castRecords_invalid {mode ra rb : Nat} (ha : x.streamRead s x.low raddr 32 = .ok (s1, ra))
    (hb : mode = 2 ∧ rb = 0 ∧ s2 = s1 ∨ mode ≠ 2 ∧ x.streamRead s1 x.low (raddr + 32) 32 = .ok (s2, rb))
    (hbad : streamOk mode ra = false ∨ (mode ≠ 2 ∧ streamOk mode rb = false)) :
    x.castRecords s mode raddr = .error (s2, Trap.cast 1 raddr x.low) := by
  have hsecond : (if mode = 2 then .ok (s1, 0) else x.streamRead s1 x.low (raddr + 32) 32 : Except (State × Trap) (State × Nat)) =
      .ok (s2, rb) := by
    rcases hb with ⟨hmode, rfl, rfl⟩ | ⟨hmode, hb⟩
    · exact if_pos hmode
    · exact (if_neg hmode).trans hb
  have hok : (!streamOk mode ra || (decide (mode ≠ 2) && !streamOk mode rb)) = true := by
    simpa using hbad
  unfold Ix.castRecords
  simp only [ha, hsecond, hok, if_true]

theorem headOf_unsorted {v strm : Nat} (hhead : k.head = none) (henc : k.r.enc = 0) (hn : n < castLimit)
    (hr : x.streamRead s lane (k.r.base + 4 * k.pos) 4 = .ok (s1, v)) (hpos : k.pos ≠ 0) (hlast : v ≤ k.last) :
    x.headOf lane raddr strm s n k = .fault s1 (Trap.unsorted raddr k.pos strm v k.last lane) := by
  have hsorted : ¬ (k.pos = 0 ∨ k.last < v) := by omega
  unfold Ix.headOf
  simp [hhead, henc, Nat.not_le.mpr hn, hr, hsorted]

theorem headOf_delta {v strm : Nat} (hhead : k.head = none) (henc : k.r.enc = 1) (hn : n < castLimit)
    (hr : x.streamRead s lane (k.r.base + 2 * k.pos) 2 = .ok (s1, v))
    (hbad : v ≠ 0xFFFF ∧ 2 ^ 32 ≤ k.last + v ∨ v = 0xFFFF ∧ k.r.count < k.pos + 3) :
    x.headOf lane raddr strm s n k = .fault s1 (Trap.cast 3 raddr lane) := by
  unfold Ix.headOf
  rcases hbad with ⟨hv, hbig⟩ | ⟨hv, hend⟩
  · simp [-Nat.reducePow, hhead, henc, Nat.not_le.mpr hn, hr, hv, hbig]
  · simp [hhead, henc, Nat.not_le.mpr hn, hr, hv, hend]

theorem headOf_bitmap {b strm : Nat} (hhead : k.head = none) (henc : k.r.enc = 2) (hbit : k.bit = some b) (hbig : 2 ^ 32 ≤ k.r.first + b) :
    x.headOf lane raddr strm s n k = .fault s (Trap.cast 3 raddr lane) := by
  unfold Ix.headOf
  simp [-Nat.reducePow, hhead, henc, hbit, hbig]

theorem rowScan_outside {room nzend fuel : Nat} {A B : Stream} {p : Rows} (hroom : p.out.length < room)
    (hend : B.count < nzend ∨ (p.nz < nzend ∧ A.count ≤ p.row + 1)) :
    x.rowScan lane raddr room A B nzend (fuel + 1) s n p = .fault s (Trap.cast 2 raddr lane) := by
  unfold Ix.rowScan
  rw [if_neg (Nat.not_le.mpr hroom)]
  by_cases hnz : B.count < nzend
  · rw [if_pos hnz]
  · obtain ⟨hmore, hrow⟩ := hend.resolve_left hnz
    rw [if_neg hnz, if_neg (Nat.not_le.mpr hmore), if_pos hrow]

end

/-! ## CASTI and CASTSPLIT (17 R367, R368) -/

section
variable {s s1 u : State} {x : Ix} {e : Bool} {a b : BitVec 7} {m c : BitVec 2} {t : Trap} {ra rb : Nat}

theorem casti_records (hu : Usable s x [.srcPair a.toNat]) (hs : Starts s x (.casti e a m c)) (hwaits : s.castWaits x.w x.low = false)
    (hr : x.castRecords s m.toNat (x.castVa a) = .error (u, t)) : TrapsIn s u x (.casti e a m c) t := by
  have hread := streamed_error hr (streamed_castRecords x s m.toNat _)
  exact trapsIn_streamed hs rfl hread (by simp [withOperands_usable hu, hwaits, hr])

theorem casti_rowEnds (hu : Usable s x [.srcPair a.toNat]) (hs : Starts s x (.casti e a m c)) (hwaits : s.castWaits x.w x.low = false)
    (hm : m = 3) (hr : x.castRecords s 3 (x.castVa a) = .ok (s1, ra, rb))
    (hends : x.rowEnds s1 (x.castVa a) (Stream.of ra) (Stream.of rb) = .error (u, t)) : TrapsIn s u x (.casti e a m c) t := by
  have hread := streamed_ok hr (streamed_castRecords x s 3 _)
  have hrows := streamed_error hends (streamed_rowEnds _ _ _ hread)
  subst hm
  exact trapsIn_streamed hs rfl hrows (by simp [withOperands_usable hu, hwaits, hr, hends])

section
variable (hu : Usable s x [.regPair a.toNat, .reg b.toNat]) (hs : Starts s x (.castsplit e c a b))
  (hwaits : s.castWaits x.w x.low = false)
include hu hs hwaits

theorem castsplit_records (hr : x.castRecords s 3 (x.castVa a) = .error (u, t)) : TrapsIn s u x (.castsplit e c a b) t := by
  have hread := streamed_error hr (streamed_castRecords x s 3 _)
  exact trapsIn_streamed hs rfl hread (by simp [withOperands_usable hu, hwaits, hr])

variable (hr : x.castRecords s 3 (x.castVa a) = .ok (s1, ra, rb))
include hr

theorem castsplit_share (hshare : (x.W.reg x.low b.toNat).toNat / 2 ^ 16 ≤ (x.W.reg x.low b.toNat).toNat % 2 ^ 16) :
    TrapsIn s s1 x (.castsplit e c a b) (Trap.cast 1 (x.castVa a) x.low) := by
  have hread := streamed_ok hr (streamed_castRecords x s 3 _)
  exact trapsIn_streamed hs rfl hread (by
    simp only [withOperands_usable hu, hwaits, hr, Bool.false_eq_true, if_false, if_pos hshare])

variable (hshare : (x.W.reg x.low b.toNat).toNat % 2 ^ 16 < (x.W.reg x.low b.toNat).toNat / 2 ^ 16)
include hshare

theorem castsplit_rowEnds (hends : x.rowEnds s1 (x.castVa a) (Stream.of ra) (Stream.of rb) = .error (u, t)) :
    TrapsIn s u x (.castsplit e c a b) t := by
  have hread := streamed_ok hr (streamed_castRecords x s 3 _)
  have hrows := streamed_error hends (streamed_rowEnds _ _ _ hread)
  exact trapsIn_streamed hs rfl hrows (by
    simp only [withOperands_usable hu, hwaits, hr, hends, Bool.false_eq_true, if_false, if_neg (Nat.not_le.mpr hshare)])

theorem castsplit_search {s2 : State} {r0 r1 : Nat}
    (hends : x.rowEnds s1 (x.castVa a) (Stream.of ra) (Stream.of rb) = .ok (s2, r0, r1))
    (hsearch : x.splitSearch (x.castVa a) (Stream.of ra) r0 r1 (r0 + (x.W.reg x.low b.toNat).toNat % 2 ^ 16 * (r1 - r0) /
      ((x.W.reg x.low b.toNat).toNat / 2 ^ 16)) 33 s2 0 ((Stream.of ra).count - 1) = .error (u, t)) :
    TrapsIn s u x (.castsplit e c a b) t := by
  have hread := streamed_ok hr (streamed_castRecords x s 3 _)
  have hrows := streamed_ok hends (streamed_rowEnds _ _ _ hread)
  have hfound := streamed_error hsearch (streamed_splitSearch _ _ _ _ _ 33 0 _ hrows)
  exact trapsIn_streamed hs rfl hfound (by
    simp only [withOperands_usable hu, hwaits, hr, hends, hsearch, Bool.false_eq_true, if_false, if_neg (Nat.not_le.mpr hshare)])

end

end

end Sys2Proof.Machine
end

section
/-! A CAST that faults at its stop (17 R365), and the obligation O17. -/

namespace Sys2Proof.Machine

/-! ## CAST_COMMAND_STOP (17 R363 to R365) -/

section
variable {s u : State} {x : Ix}

/-- A path that stands where its warp runs takes any fault. -/
theorem raise_standing {st : Stop} {t : Trap} (hW : s.warp x.w = some x.W) (hP : x.W.path x.low = some x.P)
    (hT : s.team x.W.team = some x.T) (hc : st.code = t.code) (hk : st.cause = t.cause) :
    TakesFault s (raise x s st t) x st (x.record 3 t.code t.cause t.addr t.aux0 t.aux1 (t.lane.getD x.low)) := by
  have hu : Shared s (if t.code = 14 then s.dropLeaf x.core x.T.ctx t.addr t.cause else s) := by
    split
    · exact shared_dropLeaf s _ _ _ _
    · exact .refl s
  have heq : (if st.code = 14 then s.dropLeaf x.core x.T.ctx t.addr st.cause else s) =
      if t.code = 14 then s.dropLeaf x.core x.T.ctx t.addr t.cause else s := by rw [hc, hk]
  have hteamsu : ∀ k, (if t.code = 14 then s.dropLeaf x.core x.T.ctx t.addr t.cause else s).team k = s.team k := fun k => by
    rw [hu.1]; rfl
  obtain ⟨hsame, hteam, hteams, hwarps, hpath⟩ := hold_fault (st := st) ((hu.warp _).trans hW) hP ((hteamsu _).trans hT)
    (x.record 3 t.code t.cause t.addr t.aux0 t.aux1 (t.lane.getD x.low))
  refine ⟨heq ▸ hsame, fun pa => ?_, hteam, fun k hk => (hteams k hk).trans (hteamsu k),
    fun v hv hslots => (hwarps v hv hslots).trans (hu.warp v), hpath⟩
  obtain ⟨-, hbytes⟩ := hu
  refine Eq.trans ?_ (hbytes pa)
  unfold SameStore at hsame
  exact (congrArg (fun u : State => u.byteAt pa) hsame).trans rfl

/-- Where no path waits for a place in an engine, none is admitted. -/
theorem admitCast_none (h : ∀ v y q, s.waiter v = some (y, q) → q.kind ≠ .castPlace) (core : Nat) : s.admitCast core = s := by
  unfold State.admitCast
  dsimp only
  split
  next w hw =>
    obtain ⟨-, hplace⟩ := List.mem_filter.mp (List.mem_of_getElem? hw)
    split at hplace
    next y q hq => exact absurd (of_decide_eq_true hplace) (h w y q hq)
    · cases hplace
  · rfl

theorem castBody_records {d a : BitVec 7} {mode cur : BitVec 2} {kd : BitVec 3} {gs : BitVec 6} {t : Trap}
    (hr : x.castRecords s mode.toNat (x.castVa a) = .error (u, t)) : castBody x s d a mode cur kd gs = .trap u t := by
  unfold castBody
  simp only [hr]

/-- What a CAST runs once its records are read: the scan of its mode (17 R361). -/
def Ix.castFaults (x : Ix) (s1 : State) (mode cur : BitVec 2) (va : Nat) (A B : Stream) (u : State) (t : Trap) : Prop :=
  if mode = 3 then x.rowScan x.low va x.lanes.length A B (x.W.curWord cur.toNat 2) castFuel s1 0
      ⟨x.W.curWord cur.toNat 0, x.W.curWord cur.toNat 1, [], [], false⟩ = .fault u t
  else x.castScan mode.toNat x.low va x.lanes.length castFuel s1 0
      ⟨⟨A, x.W.curWord cur.toNat 0, x.W.curWord cur.toNat 1, none, none, none, false⟩,
        ⟨B, x.W.curWord cur.toNat 2, x.W.curWord cur.toNat 3, none, none, none, false⟩, [], false⟩ = .fault u t

theorem castFaults_streamed {s1 : State} {mode cur : BitVec 2} {va : Nat} {A B : Stream} {t : Trap} (hs : Streamed s s1)
    (h : x.castFaults s1 mode cur va A B u t) : Streamed s u := by
  unfold Ix.castFaults at h
  split at h
  · exact streamed_fault h (streamed_rowScan castFuel 0 _ hs)
  · exact streamed_fault h (streamed_castScan castFuel 0 _ hs)

theorem castBody_scan {s1 : State} {d a : BitVec 7} {mode cur : BitVec 2} {kd : BitVec 3} {gs : BitVec 6} {t : Trap} {ra rb : Nat}
    (hr : x.castRecords s mode.toNat (x.castVa a) = .ok (s1, ra, rb))
    (h : x.castFaults s1 mode cur (x.castVa a) (Stream.of ra) (Stream.of rb) u t) : castBody x s d a mode cur kd gs = .trap u t := by
  unfold Ix.castFaults at h
  unfold castBody
  simp only [hr]
  split at h
  next hm => rw [if_pos hm, h]
  next hm => rw [if_neg hm, h]

/-- A CAST whose command faults at its stop takes the fault where no path waits for its place. -/
theorem castStop_faults {core w : Nat} {rest : List CastCmd} {e : Bool} {d a : BitVec 7} {mode cur : BitVec 2} {kd : BitVec 3}
    {gs : BitVec 6} {t : Trap} (hqueue : tget [] s.casts core = ⟨w, true⟩ :: rest)
    (hx : s.waiter w = some (x, ⟨.castRun, .cast e d a mode cur kd gs⟩))
    (hfree : ∀ v y q, s.waiter v = some (y, q) → q.kind ≠ .castPlace)
    (hread : Streamed { s with casts := tput [] s.casts core rest } u)
    (hbody : castBody x { s with casts := tput [] s.casts core rest } d a mode cur kd gs = .trap u t) :
    ∃ v, exec (.castCommandStop core) s = .next v ∧ TakesFault u v x ((Instr.cast e d a mode cur kd gs).stop x.T.width t)
      (x.record 3 t.code t.cause t.addr t.aux0 t.aux1 (t.lane.getD x.low)) := by
  have hwarps : u.warps = s.warps := hread.warps
  have hteams : u.teams = s.teams := hread.teams
  obtain ⟨-, hW, -, hP, hT⟩ := waiter_spec (s := u) (w := w) ((waiter_congr hwarps hteams w).trans hx)
  have hadmit : (raise x u ((Instr.cast e d a mode cur kd gs).stop x.T.width t) t).admitCast core =
      raise x u ((Instr.cast e d a mode cur kd gs).stop x.T.width t) t := by
    refine admitCast_none (fun v y q hq => ?_) core
    obtain ⟨z, hz⟩ := raise_waiter hT hq
    exact hfree v z q ((waiter_congr hwarps hteams v).symm.trans hz)
  refine ⟨_, ?_, raise_standing hW hP hT rfl rfl⟩
  rw [← hadmit]
  have hstill : ({ s with casts := tput [] s.casts core rest } : State).waiter w = some (x, ⟨.castRun, .cast e d a mode cur kd gs⟩) := hx
  show execCastCommandStop core s = _
  unfold execCastCommandStop State.castQueue State.setCastQueue
  simp only [hqueue, if_true, hstill, hbody]
  rfl

end

end Sys2Proof.Machine
end

section
/-! The obligation O17. -/

namespace Sys2Proof.Machine

/-- An index is past a table of `rows` rows of 1,024 bytes where its entry, of 2^`ew` bytes, is (12 R276, R290). -/
theorem past_iff {rows ew i : Nat} (hew : ew ≤ 2) : rows * 8192 / cueBits ew ≤ i ↔ rows * 1024 ≤ i * 2 ^ ew := by
  unfold cueBits
  interval_cases ew <;> omega

theorem cue_pastTable {s : State} {x : Ix} {e sx : Bool} {d a : BitVec 7} {h : BitVec 4} {pa rows ew l : Nat} {rel : Bool}
    (hu : Usable s x [.reg d.toNat, .src a.toNat]) (hs : Starts s x (.cue e d a sx h))
    (hH : s.handle x.T.ctx h.toNat = .hung pa rows ew rel) (hew : ew ≤ 2) (hl : l ∈ x.lanes)
    (hpast : rows * 1024 ≤ (x.src a.toNat l).toNat * 2 ^ ew)
    (hlow : ∀ k ∈ x.lanes, k < l → (x.src a.toNat k).toNat * 2 ^ ew < rows * 1024) :
    Traps s x (.cue e d a sx h) (Trap.table 2 h.toNat (x.src a.toNat l).toNat (some l)) := by
  obtain ⟨pre, post, hsplit, hbelow⟩ := sorted_split (lanesOf_sorted x.P.lanes) hl
  refine cue_past hu hs hH (List.find?_eq_some_iff_append.mpr ⟨decide_eq_true ((past_iff hew).mpr hpast), pre, post, hsplit, fun k hk => ?_⟩)
  have hin : k ∈ x.lanes := by
    unfold Ix.lanes
    rw [hsplit]
    exact List.mem_append_left _ hk
  rw [Bool.not_eq_true', decide_eq_false_iff_not, past_iff hew]
  exact Nat.not_le.mpr (hlow k hin (hbelow k hk))

/-- Settles O17: each fault by its lemma above. -/
theorem unitFaults : Obligations.UnitFaults := by
  unfold Obligations.UnitFaults
  intro s x
  refine ⟨fun e clr half d a bsel fa fw pm1 kg bmask hs h => mash_unconverged hs h, fun e sx gd ga gb d a h => ?_, ?_, ?_, ?_, ?_, ?_⟩
  · intro H desc rows va tl idx
    refine ⟨fun hu hs => hang_faults hu hs, fun hs hH => unhang_unbound hs hH, fun hu hs => ⟨fun hH => cue_unbound hu hs hH, ?_⟩⟩
    exact fun pa rows ew rel l hH hew hl hpast hlow => cue_pastTable hu hs hH hew hl hpast hlow
  · intro grp row bad o pre post all comes wrong hall hcomes hsome hwrong hpre a
    obtain ⟨-, hgrp⟩ := mem_grp.mp (hall ▸ List.mem_append_right _ List.mem_cons_self : o ∈ all)
    exact ⟨_, query_backsOut hall hcomes hwrong hsome hpre, fun len e hissuer => wrongEntry_back hgrp hissuer,
      fun hissuer => wrongEntry_late hall hcomes hwrong hissuer⟩
  · intro id err o s1 hfind hcoll hkind hfailed hbefore a hfails
    obtain rfl : o.id = id := of_decide_eq_true (List.find?_some (p := fun q : Outst => decide (q.id = id)) hfind)
    refine ⟨_, loadReturn_fails hfind hcoll hkind hfailed hbefore hfails, fun len e hissuer =>
      backOut_issuer hissuer (by decide : (23 : Nat) ≠ 14), fun hissuer hreg => backOut_discarded hissuer hkind hreg, fun hissuer hreg => ?_⟩
    rw [backOut_load hissuer hkind hreg]
    exact lateFault_spec _ _ _ _
  · intro e a b m c va share hwaits
    refine ⟨fun hu hs => ⟨fun u t hr => casti_records hu hs hwaits hr, fun s1 ra rb u t hm hr hends =>
      casti_rowEnds hu hs hwaits hm hr hends⟩, fun hu hs => ⟨fun u t hr => castsplit_records hu hs hwaits hr, fun s1 ra rb hr =>
      ⟨fun hshare => castsplit_share hu hs hwaits hr hshare, fun hshare => ⟨fun u t hends =>
        castsplit_rowEnds hu hs hwaits hr hshare hends, fun s2 r0 r1 u t hends hsearch =>
        castsplit_search hu hs hwaits hr hshare hends hsearch⟩⟩⟩⟩
  · intro core w rest k e d a mode cur kd gs u1 t u va hqueue hx hk hfree hfault
    subst hk
    rcases hfault with hr | ⟨s1, ra, rb, hr, hscan⟩
    · exact castStop_faults hqueue hx hfree (streamed_error hr (streamed_castRecords x u _ _)) (castBody_records hr)
    · exact castStop_faults hqueue hx hfree (castFaults_streamed (streamed_ok hr (streamed_castRecords x u _ _)) hscan)
        (castBody_scan hr hscan)
  · intro lane raddr n A B k
    refine ⟨fun mode ra rb s1 s2 ha hb hbad => castRecords_invalid ha hb hbad,
      fun s1 v strm hhead henc hn hr hpos hlast => headOf_unsorted hhead henc hn hr hpos hlast,
      fun s1 v strm hhead henc hn hr hbad => headOf_delta hhead henc hn hr hbad,
      fun b strm hhead henc hbit hbig => headOf_bitmap hhead henc hbit hbig,
      fun room nzend fuel p hroom hend => rowScan_outside hroom hend⟩

end Sys2Proof.Machine
end
